-- ==== Sys2Proof/Word.lean ====
section
/-! DEFINITION. The word types of the Lormond 4 and their plainest arithmetic (00_scope.md R4; 07_numbers.md R89). -/

-- In order: the proofs of one text, elaborated side by side, ask for more threads than a check's memory allows.
set_option Elab.async false

namespace Sys2Proof

/-- A byte (R4). -/
abbrev Byte := BitVec 8
/-- A word of 32 bits: a register, a PC, an instruction word (R4, R149). -/
abbrev Word := BitVec 32
/-- A dword of 64 bits: an address, a register pair (R4, R68, R89). -/
abbrev Dword := BitVec 64
/-- A set of the 32 lanes of a troupe, bit l for lane l (R34). -/
abbrev Mask := BitVec 32
/-- A 20-bit immediate (R153). -/
abbrev Imm := BitVec 20

/-- The pair of an even register (low) and the odd register above it (high) (R89). -/
def joinPair (lo hi : Word) : Dword := hi ++ lo
def loWord (x : Dword) : Word := x.setWidth 32
def hiWord (x : Dword) : Word := (x >>> 32).setWidth 32

/-- The lanes of a mask, in ascending order (R8). -/
def lanes (m : Mask) : List Nat := (List.range 32).filter fun l => m.getLsbD l
/-- The mask of one lane. -/
def laneBit (l : Nat) : Mask := 1#32 <<< l
/-- Is lane `l` in `m`? -/
def hasLane (m : Mask) (l : Nat) : Bool := m.getLsbD l
/-- The mask of the lanes that satisfy `p`. -/
def maskOf (p : Nat → Bool) : Mask :=
  (List.range 32).foldl (fun m l => if p l then m ||| laneBit l else m) 0#32
/-- The lowest lane of a mask; 0 for the empty one. -/
def lowLane (m : Mask) : Nat := (lanes m).headD 0
def boolWord (b : Bool) : Word := if b then 1#32 else 0#32
/-- Addition that stops at the largest 32-bit value (R88, R425). -/
def sat32 (n : Nat) : Nat := min n 0xFFFFFFFF

end Sys2Proof
end

