-- ==== Sys2Proof/Forms.lean ====
section
/-! DEFINITION. The operand forms, modifiers and request records that the instructions and events carry
(13_encoding.md R150-R165; 27_host_fabric.md R393, R402). -/

namespace Sys2Proof

/-- An operand code of Table 13.4 (R151). -/
inductive Opd where
  | v (n : Fin 512)    -- the thread's vector register
  | s (n : Fin 160)    -- the troupe's uniform register
  | p (k : Fin 8)      -- predicate; p7 is pt
  | sp (k : Fin 19)    -- special operand 0x2C0 + k (Table 13.5)
  | rz                 -- 0x3FF
  deriving DecidableEq, Repr, Inhabited

/-- A B operand: a register, or the 20-bit immediate (R153). -/
inductive Src where
  | reg (o : Opd)
  | imm (x : Imm)
  deriving DecidableEq, Repr, Inhabited

/-- PRMT's sources: B and the selector in C, or an immediate selector (R195). -/
inductive PrmtSrc where
  | reg (b c : Opd)
  | imm (x : Imm)
  deriving DecidableEq, Repr, Inhabited

/-- TYPE codes (Table 13.9, R164). -/
inductive Ty where
  | i32 | n32 | i64 | n64 | i16 | n16 | i8 | n8
  | f32 | f16 | bf16 | f16x2 | bf16x2 | e4m3x4 | e5m2x4 | e2m1x8
  deriving DecidableEq, Repr, Inhabited

/-- Rounding modes (Table 7.2, R95). -/
inductive Rnd where
  | rne | rtz | rdn | rup | rna | sr
  deriving DecidableEq, Repr, Inhabited

/-- Rounding, saturation and flushing of a floating-point instruction (Table 13.10). -/
structure FMod where
  rnd : Rnd
  sat : Bool
  ftz : Bool
  deriving DecidableEq, Repr, Inhabited

/-- SEL (Table 13.3): the completion flag an instruction's late effects attach to. -/
inductive Sel where
  | none | a | b
  deriving DecidableEq, Repr, Inhabited

/-- The guard and clause fields of every instruction (R156-R162). A flag field of 15 is `none`. -/
structure Hdr where
  pred : Fin 8
  neg  : Bool
  cs   : Bool
  yld  : Bool
  sel  : Sel
  flga : Option (Fin 12)
  flgb : Option (Fin 12)
  wait : BitVec 12
  deriving DecidableEq, Repr, Inhabited

/-- Conditions of ICMP and FCMP (Table 15.5). -/
inductive Cond where
  | eq | ne | lt | le | gt | ge | num | nan
  deriving DecidableEq, Repr, Inhabited

inductive Comb where
  | and | or | xor
  deriving DecidableEq, Repr, Inhabited

/-- B, and C where a combine is given (R197). -/
inductive CmpSrc where
  | plain (b : Src)
  | comb (k : Comb) (b c : Opd)
  deriving DecidableEq, Repr, Inhabited

/-- Scopes (Table 13.10, R306). -/
inductive Scope where
  | troupe | stage | die | device | system
  deriving DecidableEq, Repr, Inhabited

/-- MODA and scope of a load (R226). -/
inductive LdMod where
  | plain | acq (sc : Scope) | vol
  deriving DecidableEq, Repr, Inhabited

/-- MODA and scope of a store, RED, AENQ (R226, R239). -/
inductive StMod where
  | plain | rel (sc : Scope)
  deriving DecidableEq, Repr, Inhabited

/-- MODA and scope of ATOM (R239). -/
inductive AtMod where
  | plain | acq (sc : Scope) | rel (sc : Scope) | ar (sc : Scope)
  deriving DecidableEq, Repr, Inhabited

/-- ATOM operations (Table 17.6); RED admits the first six. -/
inductive AtomOp where
  | add | min | max | and | or | xor | exch | cas
  deriving DecidableEq, Repr, Inhabited

/-- FENCE kinds (R238). -/
inductive FenceKind where
  | full | acq | rel
  deriving DecidableEq, Repr, Inhabited

/-- Engine counter classes (Table 9.6). -/
inductive Eng where
  | copy | gather | mma | coll | remote
  deriving DecidableEq, Repr, Inhabited

/-- Scopes of troupe-wide instructions (R266). -/
inductive XScope where
  | act | all | seg
  deriving DecidableEq, Repr, Inhabited

inductive RedOp where
  | add | min | max | and | or | xor
  deriving DecidableEq, Repr, Inhabited

inductive VoteKind where
  | any | every | ballot | same
  deriving DecidableEq, Repr, Inhabited

inductive ShMode where
  | idx | up | down | xor
  deriving DecidableEq, Repr, Inhabited

/-- The narrow formats of SCALE's `.mx` operations (R216). -/
inductive MxFmt where
  | e4m3 | e5m2 | e2m1
  deriving DecidableEq, Repr, Inhabited

/-- Parts of a troupe's context (Table 19.12). -/
inductive CtxPart where
  | thread | troupe | junct
  deriving DecidableEq, Repr, Inhabited

/-- What an access does at its home (Table 5.3, R236, R239-R243, R249-R251). -/
inductive AOp where
  | load | ro | store
  | add | max | min | or | and | xor | exch | cas
  | cast | enq | deq | take | count | await
  | aenq | adeq | probe | wpwait
  deriving DecidableEq, Repr, Inhabited

/-- What a PCI Express request at the control aperture is: a read or write, one whose payload is poisoned, or an AtomicOp with the tag of
its completion (R391). -/
inductive ReqKind where
  | plain | poisoned | atomic (tag : Nat)
  deriving DecidableEq, Repr, Inhabited
/-- The port a register access comes through: a service core's, or the control aperture with the requester ID and PASID that the
request carries (R396). -/
inductive Port where
  | service
  | control (rid : Nat) (pasid : Option Nat) (kind : ReqKind)
  deriving DecidableEq, Repr, Inhabited

/-- A PCI Express memory request at the window aperture (R393, R394) or the control aperture (R396). -/
structure PcieReq where
  write    : Bool
  off      : Nat          -- offset in the aperture
  len      : Nat          -- bytes of a read
  data     : List Byte    -- payload of a write
  enables  : List Bool    -- byte enables of a write
  rid      : Nat
  pasid    : Option Nat
  relaxed  : Bool
  atomic   : Bool         -- an AtomicOp request (R391)
  poisoned : Bool
  tag      : Nat
  deriving DecidableEq, Repr, Inhabited

/-- A packet of an access carried over Skason (R401, R402). -/
structure SkReq where
  src   : Nat             -- source device id
  dst   : Nat             -- device id addressed
  link  : Nat             -- link it arrived on
  hops  : Nat             -- number of the hop it arrives by, from 1
  op    : AOp
  ty    : Nat             -- operand type, as Table 5.1 numbers them
  addr  : Dword           -- device-local address at the target
  size  : Nat
  data  : Dword
  cmp   : Dword
  rel   : Bool            -- a `.rel` remote store
  troupe : Nat            -- issuing troupe, in the source's numbering
  limit : Nat             -- await limit in ns
  tag   : Nat
  deriving DecidableEq, Repr, Inhabited

/-- What a collective's transfer says of the rank it comes from, and the link it arrived on (R288, R403). -/
structure CollHead where
  rank   : Nat
  op     : Nat
  etype  : Nat
  rop    : Nat
  count  : Nat
  nranks : Nat
  link   : Nat
  deriving DecidableEq, Repr, Inhabited
/-- A collective's transfer. -/
structure CollData where
  bytes : List Byte
  head  : CollHead
  deriving DecidableEq, Repr, Inhabited
/-- A collective's packet on a link: bytes for an offset of the collective's data, or with `read` a read of the addressed rank's SRC
(R401, R403). -/
structure CollPkt where
  src  : Nat              -- source device id
  dst  : Nat              -- device id addressed
  hops : Nat              -- number of the hop it arrives by, from 1
  tag  : Nat              -- TAG of the record
  id   : Nat              -- the sender's number of the collective
  off  : Nat              -- in the collective's data, or in the addressed rank's SRC
  place : Nat             -- the scratchpad offset that chooses the links it takes
  read : Nat              -- bytes to be read; 0 for a write
  head : CollHead
  data : List Byte
  deriving DecidableEq, Repr, Inhabited
/-- What a host or another module answers a streamer's read with; `bad` marks a poisoned completion (R391). -/
structure Payload where
  bytes : List Byte
  bad   : Bool
  deriving DecidableEq, Repr, Inhabited
/-- What a time message tells: the sender's counter, and the round trip measured on the link in ns (R404). -/
structure TimeMsg where
  time  : Dword
  round : Nat
  deriving DecidableEq, Repr, Inhabited

/-- A service core's load or store (R26, R88). -/
structure SvcReq where
  die   : Nat
  core  : Nat
  op    : AOp
  addr  : Dword
  size  : Nat
  data  : Dword
  fenced : Bool           -- it follows a RISC-V FENCE that orders reads and writes (R321)
  tag   : Nat
  deriving DecidableEq, Repr, Inhabited

/-- A delivered firmware image (R427). -/
structure FwImage where
  kind    : Nat
  version : Nat
  length  : Nat
  body    : List Byte
  sigR    : Nat
  sigS    : Nat
  deriving DecidableEq, Repr, Inhabited

end Sys2Proof
end

