-- ==== Sys2Proof/Syntax.lean ====
section
/-! DEFINITION. The instructions and events of the Lormond 4: one constructor for each row of the opcode table. -/

namespace Sys2Proof

/-- One constructor per row of opcode_table.json. The encoded instructions (class INT to SIG) carry the guard and clause
fields in their first argument and their operands in the order D, A, B, C. The events have no encoding; their arguments
name what they act on. `t` is a troupe's key, `l` a lane, `id` an access, `q` a prompter queue. -/
inductive Instr where
  -- INT (15_lane_instructions.md R188-R203)
  | iadd (h : Hdr) (ty : Ty) (sat : Bool) (d a : Opd) (b : Src)
  | isub (h : Hdr) (ty : Ty) (sat : Bool) (d a : Opd) (b : Src)
  | imul (h : Hdr) (ty : Ty) (sat : Bool) (d a : Opd) (b : Src)
  | imulh (h : Hdr) (ty : Ty) (d a : Opd) (b : Src)
  | imad (h : Hdr) (ty : Ty) (sat : Bool) (d a b c : Opd)
  | idiv (h : Hdr) (ty : Ty) (sat : Bool) (d a : Opd) (b : Src)
  | irem (h : Hdr) (ty : Ty) (d a : Opd) (b : Src)
  | imin (h : Hdr) (ty : Ty) (d a : Opd) (b : Src)
  | imax (h : Hdr) (ty : Ty) (d a : Opd) (b : Src)
  | iabs (h : Hdr) (ty : Ty) (sat : Bool) (d a : Opd)
  | ineg (h : Hdr) (ty : Ty) (sat : Bool) (d a : Opd)
  | and (h : Hdr) (ty : Ty) (d a : Opd) (b : Src)
  | or (h : Hdr) (ty : Ty) (d a : Opd) (b : Src)
  | xor (h : Hdr) (ty : Ty) (d a : Opd) (b : Src)
  | not (h : Hdr) (ty : Ty) (d a : Opd)
  | shl (h : Hdr) (ty : Ty) (d a : Opd) (b : Src)
  | shr (h : Hdr) (ty : Ty) (d a : Opd) (b : Src)
  | rotl (h : Hdr) (ty : Ty) (d a : Opd) (b : Src)
  | bfe (h : Hdr) (ty : Ty) (d a : Opd) (b : Src)
  | bfi (h : Hdr) (ty : Ty) (d a b c : Opd)
  | popc (h : Hdr) (ty : Ty) (d a : Opd)
  | clz (h : Hdr) (ty : Ty) (d a : Opd)
  | brev (h : Hdr) (ty : Ty) (d a : Opd)
  | prmt (h : Hdr) (d a : Opd) (b : PrmtSrc)
  | icmp (h : Hdr) (cond : Cond) (ty : Ty) (d a : Opd) (b : CmpSrc)
  | sel (h : Hdr) (ty : Ty) (d a b c : Opd)
  | plop (h : Hdr) (table : BitVec 8) (d a b c : Opd)
  | pmovGet (h : Hdr) (d : Opd)
  | pmovSet (h : Hdr) (a : Opd) (b : Src)
  | mov (h : Hdr) (ty : Ty) (d a : Opd)
  | movi (h : Hdr) (d : Opd) (x : Word)
  | moviHi (h : Hdr) (d : Opd) (x : Word)
  | lea (h : Hdr) (ty : Ty) (sh : Fin 4) (d a : Opd) (b : Src)
  | leaCode (h : Hdr) (ty : Ty) (sh : Fin 4) (d : Opd) (b : Src)
  -- FP (R204-R210)
  | fadd (h : Hdr) (ty : Ty) (m : FMod) (d a : Opd) (b : Src)
  | fsub (h : Hdr) (ty : Ty) (m : FMod) (d a : Opd) (b : Src)
  | fmul (h : Hdr) (ty : Ty) (m : FMod) (d a : Opd) (b : Src)
  | ffma (h : Hdr) (ty : Ty) (m : FMod) (d a b c : Opd)
  | fmin (h : Hdr) (ty : Ty) (ftz : Bool) (d a : Opd) (b : Src)
  | fmax (h : Hdr) (ty : Ty) (ftz : Bool) (d a : Opd) (b : Src)
  | fabs (h : Hdr) (ty : Ty) (ftz : Bool) (d a : Opd)
  | fneg (h : Hdr) (ty : Ty) (ftz : Bool) (d a : Opd)
  | fcmp (h : Hdr) (cond : Cond) (ty : Ty) (ftz : Bool) (d a : Opd) (b : CmpSrc)
  | frcp (h : Hdr) (m : FMod) (d a : Opd)
  | frsq (h : Hdr) (m : FMod) (d a : Opd)
  | fsqrt (h : Hdr) (m : FMod) (d a : Opd)
  | fdiv (h : Hdr) (m : FMod) (d a : Opd) (b : Src)
  | fexp2 (h : Hdr) (m : FMod) (d a : Opd)
  | flog2 (h : Hdr) (m : FMod) (d a : Opd)
  | fsin (h : Hdr) (m : FMod) (d a : Opd)
  | fcos (h : Hdr) (m : FMod) (d a : Opd)
  | ftanh (h : Hdr) (m : FMod) (d a : Opd)
  | fclass (h : Hdr) (ty : Ty) (d a : Opd)
  | frint (h : Hdr) (ty : Ty) (rnd : Rnd) (ftz : Bool) (d a : Opd)
  -- CVT (R211-R219)
  | cvt (h : Hdr) (src dst : Ty) (m : FMod) (d a : Opd)
  | pack (h : Hdr) (ty : Ty) (m : FMod) (d a : Opd) (sc : Option Src)
  | unpack (h : Hdr) (ty : Ty) (sat : Bool) (d a : Opd) (sc : Option Src)
  | dot2 (h : Hdr) (ty : Ty) (m : FMod) (d a b c : Opd)
  | dot4 (h : Hdr) (ty : Ty) (sc xb : Bool) (m : FMod) (d a b c : Opd)
  | dot8 (h : Hdr) (sc : Bool) (m : FMod) (d a b c : Opd)
  | scaleApply (h : Hdr) (m : FMod) (d a : Opd) (b : Src)
  | scaleMx (h : Hdr) (f : MxFmt) (d a : Opd)
  | amax (h : Hdr) (ty : Ty) (d a b : Opd)
  | srseed (h : Hdr) (a : Opd)
  -- SIG (R220-R223)
  | cbfly (h : Hdr) (m : FMod) (d a b c : Opd)
  | cmul (h : Hdr) (conj : Bool) (m : FMod) (d a b : Opd)
  | twid (h : Hdr) (d a : Opd) (b : Src)
  -- MEM (17_memory_control_instructions.md R231-R236)
  | ld (h : Hdr) (ty : Ty) (m : LdMod) (d base : Opd) (off : Src)
  | st (h : Hdr) (ty : Ty) (m : StMod) (d base : Opd) (off : Src)
  | ldx (h : Hdr) (n : Fin 4) (m : LdMod) (d base : Opd) (off : Src)
  | stx (h : Hdr) (n : Fin 4) (m : StMod) (d base : Opd) (off : Src)
  | ldu (h : Hdr) (ty : Ty) (m : LdMod) (d base : Opd) (off : Src)
  | stu (h : Hdr) (ty : Ty) (m : StMod) (d base : Opd) (off : Src)
  | probe (h : Hdr) (d base : Opd) (off : Src)
  -- ATM (R239-R243)
  | atom (h : Hdr) (op : AtomOp) (ty : Ty) (m : AtMod) (d base b c : Opd)
  | red (h : Hdr) (op : AtomOp) (ty : Ty) (m : StMod) (d base : Opd) (off : Src)
  | aenq (h : Hdr) (ty : Ty) (m : StMod) (d base b : Opd)
  | adeq (h : Hdr) (m : LdMod) (d base : Opd) (off : Src)
  -- SYNC (R238, R244-R251)
  | fence (h : Hdr) (k : FenceKind) (sc : Scope)
  | waitc (h : Hdr) (cls : Eng) (n : Fin 64)
  | jinit (h : Hdr) (j : Fin 24) (e : Option Src)
  | jarr (h : Hdr) (j : Fin 24) (d : Opd)
  | jwait (h : Hdr) (j : Fin 24)
  | jarrw (h : Hdr) (j : Fin 24) (d : Opd)
  | wpinit (h : Hdr) (base b c : Opd)
  | wparr (h : Hdr) (noarr : Bool) (base : Opd) (b : Src)
  | wpwait (h : Hdr) (d base b c : Opd)
  -- CTL (R252-R260)
  | bra (h : Hdr) (k : Imm)
  | brx (h : Hdr) (a : Opd)
  | call (h : Hdr) (k : Imm)
  | callx (h : Hdr) (a : Opd)
  | ret (h : Hdr)
  | cvset (h : Hdr) (c : Fin 8)
  | cvsetIdle (h : Hdr) (c : Fin 8)
  | cvwait (h : Hdr) (c : Fin 8) (d : Opd) (b : Src)
  | exit (h : Hdr)
  | yield (h : Hdr)
  | nop (h : Hdr)
  | brk (h : Hdr) (x : Imm)
  | sleep (h : Hdr) (b : Src)
  -- XCH (19_engine_system_instructions.md R266-R275)
  | qswz (h : Hdr) (ty : Ty) (d a : Opd) (b : Src)
  | shfl (h : Hdr) (mode : ShMode) (ty : Ty) (d a : Opd) (b : Src)
  | vote (h : Hdr) (k : VoteKind) (sc : XScope) (d a : Opd)
  | tred (h : Hdr) (op : RedOp) (sc : XScope) (ty : Ty) (d a : Opd)
  | tscan (h : Hdr) (op : RedOp) (sc : XScope) (ty : Ty) (excl : Bool) (d a : Opd)
  | matchv (h : Hdr) (sc : XScope) (ty : Ty) (d a : Opd)
  | elect (h : Hdr) (d : Opd)
  | umov (h : Hdr) (ty : Ty) (d a : Opd) (b : Src)
  -- MMA (R276-R283)
  | mma (h : Hdr) (a : Opd)
  | accld (h : Hdr) (base : Opd) (tile : Fin 64)
  | accst (h : Hdr) (base : Opd) (tile : Fin 64)
  | accz (h : Hdr) (tile : Fin 64)
  | accout (h : Hdr) (a dest scale : Opd)
  | rsvop (h : Hdr) (r : Fin 15) (d : Opd) (b : Src)
  | rlsop (h : Hdr) (r : Fin 15)
  | ldscl (h : Hdr) (r : Fin 15) (base : Opd) (n : Imm)
  -- COPY (R284-R289)
  | copy (h : Hdr) (base : Opd) (n : Src)
  | copyl (h : Hdr) (nopres : Bool) (dst src : Opd) (n : Src) (wp : Opd)
  | coll (h : Hdr) (base : Opd)
  | cstat (h : Hdr) (d : Opd)
  -- TNS (R290-R292)
  | dreg (h : Hdr) (d base : Opd)
  | dunreg (h : Hdr) (d : Opd) (b : Src)
  | dstat (h : Hdr) (d : Opd) (b : Src)
  | dfresh (h : Hdr) (b : Src)
  -- SYS (R293-R302)
  | trap (h : Hdr) (x : Imm)
  | svc (h : Hdr) (d base : Opd) (b : Src)
  | svcPark (h : Hdr) (d base : Opd) (b : Src)
  | csrr (h : Hdr) (d : Opd) (b : Src)
  | csrw (h : Hdr) (a : Opd) (b : Src)
  | rtt (h : Hdr)
  | launch (h : Hdr) (d base : Opd) (b : Src)
  | gate (h : Hdr)
  | release (h : Hdr)
  | savectx (h : Hdr) (part : CtxPart) (base : Opd)
  | loadctx (h : Hdr) (part : CtxPart) (base : Opd)
  -- Events of threads and bundles (03_execution.md)
  | hazardClear (t l : Nat)
  | bundleRebuild (stage wing : Nat)
  | starvationBound (stage wing k : Nat)
  | unitRefill (t l : Nat)
  | readbackComplete (t l : Nat)
  -- Events at the homes (05_windows.md)
  | plainLoad (id : Nat)
  | plainStore (id : Nat)
  | roLoad (id : Nat) (cached : Bool)
  | windowAdd (id : Nat)
  | windowMax (id : Nat)
  | windowMin (id : Nat)
  | windowOr (id : Nat)
  | windowAnd (id : Nat)
  | castDelivery (id k : Nat)
  | enq (id : Nat)
  | deq (id : Nat)
  | take (id : Nat)
  | count (id : Nat)
  | await (id : Nat)
  | awaitLimitExpiry (id : Nat)
  | agentHoldLimitExpiry (id : Nat)
  | parkReport (id : Nat)
  | loadCompletion (id : Nat) (reply : Dword)
  | cvwaitTimeout (t l : Nat)
  | wpwaitTimeout (t l : Nat)
  | sleepExpiry (t l : Nat)
  -- Events of the engines (09_engines.md)
  | operandReadCompletion (t op : Nat)
  | mmaCompletion (t op : Nat)
  | engineCounterFall (t : Nat) (cls : Eng)
  | copyChunkLanding (c k : Nat) (data : Payload)
  | copyCompletion (c : Nat)
  | waypointUpdate (k : Nat)
  | collDelivery (c off : Nat) (data : CollData)
  | collTimeout (c : Nat)
  -- Events of derivation (11_derived.md)
  | staleMark (k : Nat)
  | markAck (id : Nat)
  | derivedLoad (id : Nat)
  | recomputeStart (slice : Nat)
  | recomputeEnd (slice : Nat)
  | derivedWriteDrop (id : Nat)
  -- Events of traps, saving and scheduling (25_traps.md, 23_scheduling.md)
  | handlerEntry (t : Nat)
  | preempt (c : Nat)
  | eviction (t : Nat)
  | restore (c : Nat) (stages : List Nat)
  | troupeRetire (t : Nat)
  | companyPlacement (r : Nat)
  | preemptRaise (r : Nat)
  | gateOpen (r : Nat)
  | deterministicMilestone (r kind : Nat)
  | callboardPlace (r : Nat)
  | callboardTimer (r : Nat)
  | prompterWake (q : Nat)
  | slotReread (q : Nat)
  | packetNop (q : Nat)
  | runPacket (q : Nat)
  | waitPacket (q : Nat)
  | waitConditionMet (q : Nat)
  | signal (q : Nat)
  | indirect (q : Nat)
  | svcDone (t l : Nat)
  | qmapEnable (q : Nat) (x : Dword)
  | qmapDisable (q : Nat) (x : Dword)
  -- Register events (27_host_fabric.md, 29_translation.md)
  | registerStagedWrite (port : Port) (off size : Nat) (x : Dword)
  | registerWrite (port : Port) (off size : Nat) (x : Dword)
  | hwakeEnable (n : Nat) (x : Dword)
  | errcntClear (n : Nat) (x : Word)
  | counterClear (off : Nat) (x : Word)
  | timeset (x : Dword)
  | xinv (x : Dword)
  | xinvComplete
  | xrespRetry (x : Dword)
  | xrespFail (x : Dword)
  | regionTableWrite (die r : Nat) (x : Word)
  | regionMoveSet (die r : Nat) (x : Word)
  | retryAfterExpiry (id : Nat)
  | remoteRefusalTimeout (id : Nat)
  -- Translation events (29_translation.md)
  | deviceTranslationFault (k : Nat)
  | faultReportRetry (k : Nat)
  | faultTimeout (k : Nat)
  | atsTranslationCompletion (pasid page : Nat) (r w : Bool) (pa pages : Nat)
  | priPageResponse (k code : Nat)
  | pageRequestTimeout (k : Nat)
  | atsInvalidationRequest (pasid page pages tag : Nat)
  | translationFailure (c : Nat)
  -- Events at the outside ports (27_host_fabric.md)
  | windowApertureRequest (r : PcieReq)
  | completionTimeout (id : Nat)
  | skasonRemoteAccess (r : SkReq)
  | skasonForward (r : SkReq)
  | linkDown (l : Nat)
  | linkAckTimeout (id : Nat)
  | timeMessage (link : Nat) (master : Option (Nat × Nat)) (msg : TimeMsg)
  -- Housekeeping events (31_housekeeping.md)
  | coldReset
  | functionLevelReset
  | wipeComplete
  | eccError (kind loc : Nat) (corrected : Bool)
  | getVersion
  | getCapabilities
  | negotiateAlgorithms (ecdsaP256 sha256 : Bool)
  | getDigests
  | getCertificate (off len : Nat)
  | challenge (nonce : Nat)
  | getMeasurements (block : Nat)
  | ownerChange
  | firmwareImage (x : FwImage)
  | setPowerLimit (w : Nat)
  | powerAverage (w : Nat)
  | thermalTrip (c : Nat)
  | linkTrained (l : Nat)
  | functionReady (bit : Nat)
  deriving DecidableEq, Repr, Inhabited

end Sys2Proof
end

