-- ==== Sys2Proof/Config.lean ====
section
/-! DEFINITION. What an implementation fixes and what the manual leaves free. An `opaque` constant has no body, so that no
proof can see its value: a statement that mentions one holds for every value. -/

namespace Sys2Proof

/-- One thing that can happen next. The rules name the events of the opcode table as steps; the other constructors are
moves the rules describe that are no row of the table. -/
inductive Action where
  /-- A clock of a wing: its scheduler chooses at most two bundles, and the first of them in pipe order issues (R20, R60,
  R365). -/
  | issue (stage wing : Nat)
  /-- The other bundle of that clock issues. -/
  | issueAlso (stage wing : Nat)
  /-- An event of the opcode table. -/
  | event (i : Instr)
  /-- Wall time passes: `n` nanoseconds (R5). -/
  | tick (n : Nat)
  /-- The oldest unpublished store of a troupe enters its stage's store buffer (R312). -/
  | publish (t : Nat)
  /-- A register write that is not interlocked is performed (R161). -/
  | writeback (t pend : Nat)
  /-- A streamer reads the source of a chunk ahead of its landing (R316). -/
  | copyRead (c k : Nat)
  /-- A recompute reads its next base row (R141). -/
  | recomputeRead (slice : Nat)
  /-- A line leaves a stage's instruction cache and is filled again at its next fetch (R169). -/
  | fetchFill (stage line : Nat)
  /-- A load's value is taken at its home ahead of earlier loads that nothing orders it after (R308, R331). -/
  | sampleLoad (id : Nat)
  /-- A line leaves a stage's RO cache (R86). -/
  | roDrop (stage line : Nat)
  /-- The prompter fetches a 256-byte granule of an indirect buffer ahead of its use (R349). -/
  | prefetch (q granule : Nat)
  /-- A service core's load or store (R26). -/
  | serviceAccess (r : SvcReq)
  /-- A remote device's final refusal of an access arrives, or its packet's (R87, R401). -/
  | remoteRefused (id cause : Nat)
  /-- A streamer's transfer with a remote device is refused (R87, R401). -/
  | transferRefused (c k cause : Nat)
  /-- The far end of its link acknowledges a request (R401). -/
  | linkAck (id : Nat)
  /-- A remote device has performed a streamer's write (R402). -/
  | transferDone (c k : Nat)
  /-- It refuses a streamer's transfer with a retry-after hint (R417). -/
  | transferRetry (c k : Nat)
  /-- The host completes a streamer's Untranslated read with Unsupported Request or Completer Abort (R413). -/
  | hostReadFails (c k : Nat)
  /-- The host writes the enables of the ATS and PRI capabilities, and the page requests it grants (R413). -/
  | hostEnables (ats pri : Bool) (alloc : Nat)
  /-- The owner of a slice of a collective reads it from a peer's SRC (R403). -/
  | collRead (id rank off n : Nat)
  /-- A peer's read of this rank's SRC arrives (R403). -/
  | collServe (id off n : Nat) (head : CollHead)
  /-- A remote device, or the way to it, refuses a packet of a collective to a rank (R87, R401). -/
  | collRefused (id rank off cause : Nat)
  /-- A collective's packet for another device arrives on a link (R401). -/
  | collForward (link : Nat) (p : CollPkt)
  /-- A read of a register port (R396, R435). -/
  | registerRead (port : Port) (off size : Nat)
  deriving DecidableEq, Repr, Inhabited

namespace Config

/-- What happens next when the agenda is empty: the schedule, the environment and every order the manual leaves open. -/
opaque choice : Nat → Action
/-- Old or new (R115, R161, R169): the value for the n-th free pick, at one place.
DESIGN CHOICE, log 13. -/
opaque pick : Nat → Nat → Bool
/-- FRSQ, FSIN, FCOS and FTANH (R108): which of the values within 1 ulp of the exact one an input gives. -/
opaque ulpPick : Nat → Word → Nat
/-- The retry-after hint of a refused Skason access, in µs (R417). -/
opaque retryHint : Nat → Nat
/-- The context handler's text, a word for each PC (R378).
DESIGN CHOICE, log 57. -/
opaque firmwareWord : Word → BitVec 96
/-- The context handler's entry (R378). -/
opaque firmwareEntry : Word
/-- SHA-256 and ECDSA P-256 with the keys of the module (R426, R427). -/
opaque sha256 : List Byte → BitVec 256
opaque ecdsaVerify : BitVec 256 → Nat → Nat → Bool
opaque ecdsaSign : List Byte → List Byte
/-- The certificate chain (R426). -/
opaque certificateChain : List Byte
/-- The firmware images the module is made with. -/
opaque factoryImage : Nat → List Byte
/-- The fused minimum version of a firmware kind (R427). -/
opaque fusedMinimum : Nat → Nat
/-- The value of a word or field where the manual states none, for the n-th such use. -/
opaque freeWord : Nat → Word
opaque freeDword : Nat → Dword

end Config

end Sys2Proof
end

