-- ==== Sys2Proof/Machine/State.lean ====
section
/-! DEFINITION. The state of the module as plain data: everything the manual gives the machine, and the few fields of the
model's own. Records kept in number are sorted lists of (key, record) with a stated default for an absent key. -/

namespace Sys2Proof.Machine

open Sys2Proof

/-- A table from numbers to records: sorted by key, no key twice. -/
abbrev Table (V : Type) := List (Nat × V)

/-! ### Threads (03_execution.md R37, 13_encoding.md R157, R158) -/

/-- The states of Table 3.2, but PARKED: a thread is PARKED while it has a reported hold or is in a parked COPYL group. -/
inductive TState where
  | ready | stalled | waiting | held | drained
  deriving DecidableEq, Repr, Inhabited

/-- What a thread STALLED or WAITING waits for. -/
inductive Wait where
  | none
  /-- STALLED: the instruction at its PC met a hazard, checked afresh at the next issue (R38): a full SVC ring, tiles of an
  entry that are not yet served, a context save that is not yet drained. -/
  | hazard
  /-- STALLED until its stage has fewer than 1,024 outstanding memory requests (R22). -/
  | slot
  /-- STALLED until no thread that is WAITING still has one of these registers to write as it leaves (R161). -/
  | operand (keys : List Nat)
  /-- STALLED at a COPYL until the translations of its request have been made (R128). -/
  | translation
  /-- STALLED on the clause's WAIT mask (R159). -/
  | flags (w : BitVec 12)
  /-- STALLED until the store queue has this many free entries (R228). -/
  | room (n : Nat)
  /-- STALLED until its read-back completes (R262). -/
  | readback
  /-- STALLED until every register write it is owed has been performed (R49). -/
  | owed
  /-- STALLED until the counter stands at n or below (R244). -/
  | counter (cls : Eng) (n : Nat)
  /-- STALLED until accesses `ids` are performed or complete, and stores `pubs` are performed or in the stage store buffer
  (R238, R249, R302, R312). -/
  | drain (ids pubs : List Nat)
  /-- WAITING in an AWAIT-window load: the access (R82). -/
  | await (id : Nat)
  /-- WAITING in WPWAIT: the access (R251). -/
  | wpwait (id : Nat) (deadline : Nat)
  /-- WAITING in CVWAIT on a point, with a deadline in ns and the limit it came from, 0 for none (R256). -/
  | cvwait (c : Nat) (deadline limit : Nat)
  /-- WAITING in JARRW or JWAIT for the phase in which the arrival counts (R247); `deferred` while R58 holds it back, and
  `arr` when it completes as JARR then (R58). -/
  | junction (j : Nat) (deferred arr : Bool)
  /-- WAITING in an `.all` instruction with the value it contributes (R55, R272). -/
  | all (i : Instr) (x : Dword)
  | gate
  /-- WAITING in SVC: the address of the completion slot, and `.park` (R295). -/
  | svc (slot : Nat) (park : Bool)
  /-- WAITING in SLEEP until a value of the time counter (R260). -/
  | sleep (deadline : Nat)
  /-- WAITING at RTT (R376). -/
  | rtt
  deriving DecidableEq, Repr, Inhabited

/-- What a thread needs from the instruction it waits in when it leaves: its guard and clause fields, destination and type. -/
structure WaitInfo where
  hdr : Hdr
  d   : Opd
  ty  : Ty
  deriving DecidableEq, Repr, Inhabited

structure Thread where
  st       : TState
  wait     : Wait
  info     : WaitInfo
  parks    : List Nat          -- accesses reported held on a clear P bit (R431)
  group    : Option Dword      -- in a parked COPYL group: its failing or faulting address (R128)
  pc       : Word              -- for a WAITING thread, the instruction it waits in
  rstack   : List Word         -- on-chip return entries, oldest first (R62)
  spills   : Nat               -- spilled return entries
  readback : Bool              -- a read-back is outstanding (R262)
  count    : Nat               -- instructions issued since the last clause start (R157)
  flga     : Option (Fin 12)
  flgb     : Option (Fin 12)
  yld      : Bool              -- YLD of the clause's first instruction (R162)
  reach    : Option Word       -- reached its PC as a target: %trapval of the ILLHINT it would earn (R158)
  item     : Dword
  age      : Dword             -- admission number (R46)
  draws    : Nat               -- k of R45: draws of static assignment
  conv     : Word              -- conversion count (R100)
  seqno    : Nat               -- buffered operations made since placement (R322)
  took     : List Nat          -- other troupes' stores whose bytes its loads took from the stage store buffer (R314)
  arrived  : List (Nat × Bool) -- junctions with a recorded arrival, and the phase in which it counts (R430)
  deriving DecidableEq, Repr, Inhabited

/-! ### Troupes -/

/-- Table 3.4, with `absent` for a troupe that is not placed. -/
inductive TrStatus where
  | absent | resident | handler | saved | retiring | retired
  deriving DecidableEq, Repr, Inhabited

/-- A register write owed by an earlier instruction and not yet performed (R161). Keys are register keys of the troupe. -/
structure Pend where
  id     : Nat
  lanes  : Mask                 -- threads it is owed to
  flag   : Option (Fin 12)      -- the completion flag it is attached to (R160)
  writes : List (Nat × Word)    -- register key and value
  known  : Bool                 -- the values are known: the pipe or the reply has them
  contested : List Nat          -- keys written since by a later instruction
  deriving DecidableEq, Repr, Inhabited

/-- A reserved record (Table 9.5). -/
structure Rec where
  used   : Bool
  fmt    : Nat
  blk16  : Bool
  layout : Bool
  len    : Nat                  -- in 64-byte units
  off    : Nat                  -- in the stage's operand buffer
  deriving DecidableEq, Repr, Inhabited

/-- Engine operations of a troupe, in issue order, until each is reported (R120). -/
inductive EngKind where
  /-- COPY, COPYL or COLL: done when the copies named have ended. -/
  | copies (ids : List Nat)
  /-- MMA: the parameter block's words, the operand registers with the words they held at issue, the records it names, and,
  once read, the operand words and the scale bytes of A and of B. -/
  | mma (blk : List Word) (atIssue : List (Nat × Word)) (recA recB : Rec) (words : List Word) (scaleA scaleB : List Byte)
        (isRead : Bool) (flag : Option (Fin 12))
  | accld (tile addr : Nat)
  | accst (tile addr : Nat)
  | accz (tile : Nat)
  | accout (blk : List Word) (dest scale : Nat) (lane : Nat) (seed count : Word) (item : Dword)
  | ldscl (rec : Rec) (addr n : Nat)
  /-- An instruction's remote-scratchpad accesses. -/
  | remote (ids : List Nat)
  deriving DecidableEq, Repr, Inhabited

structure EngOp where
  id    : Nat
  cls   : Eng
  kind  : EngKind
  after : List Nat              -- store-queue accesses that its memory reads follow (R265)
  taken : Table Byte            -- bytes that derived tiles have served it, by address (R140)
  marks : Option (List Nat × List Nat) -- stale marks of its base writes, once sent, and the lines it closes (R138)
  done  : Bool
  deriving DecidableEq, Repr, Inhabited

/-- A trap, as Table 25.3 records it. -/
structure TrapInfo where
  reason : Nat                  -- TENTRY: 0 synchronous, 1 PREEMPT, 2 restore, 3 park, 4 evict
  code   : Nat
  pc     : Word
  mask   : Mask
  val    : Dword
  bundle : Mask
  skip   : Mask
  hdr    : Option Hdr           -- the header of the instruction that trapped at its issue
  deriving DecidableEq, Repr, Inhabited

/-- What trap entry freezes of a thread (R373). -/
structure Frozen where
  pc     : Word
  st     : TState
  parked : Bool                 -- LSTATE 3
  group  : Option Dword         -- in a parked COPYL group: its failing or faulting address (WAITARG holds the group's lowest)
  wait   : Wait
  info   : WaitInfo
  rstack : List Word
  spills : Nat
  count  : Nat
  flga   : Option (Fin 12)
  flgb   : Option (Fin 12)
  arrived : List (Nat × Bool)
  preds  : BitVec 7
  arg    : Word                 -- WAITARG and WAITADDR of Table 25.7
  addr   : Dword
  got    : Bool                 -- its AWAIT, held on a clear P bit, has been performed and its result written (R431)
  deriving DecidableEq, Repr, Inhabited

/-- A posted SVC call (R386, R387). -/
structure SvcCall where
  lane : Nat
  service : Nat
  slot : Nat                    -- physical address of its completion slot
  park : Bool
  deriving DecidableEq, Repr, Inhabited

structure Troupe where
  status   : TrStatus
  stage    : Nat
  wing     : Nat
  threads  : Table Thread
  regs     : Table Word         -- v0-v511 of 32 lanes, s0-s159, p0-p6 of 32 lanes, by register key
  cv       : Table Word         -- c0-c7 expected sets; 0 is idle
  pend     : List Pend
  ops      : List EngOp
  recs     : Table Rec
  recAsked : List (Nat × Nat)   -- ranges of records whose tiles have been asked for (R140)
  recServed : Table Byte        -- bytes of them that tiles have served, by address
  svcRead  : List (Nat × Word × List Byte) -- argument blocks that an SVC has read and not posted: lane, PC, bytes (R389)
  copied   : List (Nat × Word × Nat) -- a COPY stalled within its records: lowest lane, PC, records issued (R285)
  freeing  : List (Nat × Nat)   -- ranges of released records that an operation still uses (R281)
  tiles    : Table Word         -- accumulator elements, key 4096·tile + 64·i + j
  srState  : Word
  srSeed   : Word
  awaitLim : Word
  callIdx  : Word
  urgency  : Nat
  last     : TrapInfo           -- the last trap entry (R375)
  frozen   : Table Frozen
  cvFrozen : Table Word
  written  : Mask               -- lanes whose RESUMEPC the handler wrote
  rttPc    : Word               -- PC of the RTT that completed the handler
  handlers : Mask               -- the handler set
  context  : Bool               -- the handler is the context handler (R378)
  pendTrap : Option TrapInfo    -- a trap that waits for read-backs (R373)
  pendPre  : Nat                -- a held PREEMPT 1, park 3 or eviction 4 (R378); 0 none
  xfaults  : List Dword         -- recorded XLATE faults, oldest first (R415)
  svcs     : List SvcCall
  reached  : Table Word         -- `.all` instances: lanes that have reached a PC with a false guard (R272)
  saveDone : Nat                -- steps of R379 performed by the context handler
  entryId  : Nat                -- accesses below it were issued before the last trap entry
  idleSince : Nat               -- wall time since which every live thread has waited (R66)
  entered  : Nat                -- wall time of the last handler entry (R378)
  deriving DecidableEq, Repr, Inhabited

/-! ### Companies, runs, queues -/

/-- A junction (R56). Bits are by seat. -/
structure Junction where
  isSet   : Bool
  member  : Bool
  e       : Nat
  a       : Nat
  phase   : Bool
  members : List Nat
  arrived : List Nat
  deferred : List Nat           -- seats whose arrival waits for the next phase (R58)
  deriving DecidableEq, Repr, Inhabited

structure Company where
  run      : Nat                -- key of its run
  index    : Nat                -- linear index c
  die      : Nat
  stages   : List Nat           -- %stage of segment 0, 1, …
  cmBase   : List Nat           -- where its segment begins in the company memory of each stage
  placed   : Bool
  retired  : Bool
  junctions : Table Junction
  releases : List (List Nat)    -- RELEASEs issued, and the accesses each follows (R301)
  drained  : Bool               -- its first milestone has been performed (R322)
  mclost   : Bool
  mclostN  : Nat
  lost     : Bool               -- CFLAGS[0] (R385)
  admitted : Nat                -- admission count (R46)
  counter  : Nat                -- RANGED counter (R43)
  stackBase : Nat
  preempted : Bool              -- R385, first period
  offCore  : Bool               -- its company memory and junctions are saved (R379, R380)
  preempting : Bool             -- PREEMPT has been raised and the save is not complete
  deriving DecidableEq, Repr, Inhabited

/-- The translation context of a run (R408). -/
structure Xctx where
  pasid  : Nat
  en     : Bool
  hosten : Bool
  asid   : Nat
  root   : Nat
  deriving DecidableEq, Repr, Inhabited

/-- Sources of items (R43). -/
inductive Source where
  | shared | ranged | callboard
  deriving DecidableEq, Repr, Inhabited

structure Run where
  id       : Word               -- %run
  queue    : Nat
  packet   : Nat                -- packet number in its queue
  epoch    : Nat                -- the mapping of the queue it was accepted under (R342)
  part     : Nat
  prio     : Nat
  source   : Source
  grain    : Nat                -- 0 lane, 1 quad, 2 troupe, 3 company
  launchCap : Bool
  urgency  : Bool
  strict   : Bool
  determ   : Bool
  items    : Nat
  range    : Nat
  grid     : Nat × Nat × Nat
  circuit  : Nat × Nat × Nat
  castMap  : Nat                -- multicast die map (R78)
  troupes  : Nat
  producer : Nat
  regs     : Nat
  features : Nat
  cmem     : Nat
  acct     : Nat
  nstages  : Nat
  stack    : Nat
  param    : Nat                -- offset of the parameters
  psize    : Nat
  save     : Nat                -- offset of the save area, 0 for none
  saveSet  : Bool
  closeAt  : Nat                -- CALLBOARD: close word
  nodeQ    : Nat                -- CALLBOARD: descriptor
  timer    : Nat
  maxTr    : Nat
  detArea  : Nat
  detLen   : Nat
  spool    : Nat
  spoolSize : Nat
  code     : Nat                -- offset of the code object
  text     : Nat                -- offset of its text
  textSize : Nat
  entry    : Word
  cue      : Word
  trapVec  : Word
  counter  : Nat                -- SHARED counter
  nextComp : Nat                -- companies placed
  retired  : Nat                -- companies retired
  pred     : Option Nat         -- key of the predecessor run with PRED = 1
  after    : List Nat           -- runs that must complete first (PRED = 0)
  gateOpen : Bool
  milestone : Bool              -- second milestone of R322 performed
  nonrepro : Bool
  faulted  : Option TrapInfo    -- run fault (R377)
  faultT   : Nat                -- key of the troupe that raised it
  complete : Bool
  parent   : Option Nat
  sibling  : Nat × Nat × Nat    -- PCOMPANY, PTROUPE, CALLIDX
  xctx     : Option Xctx        -- latched when the first company is placed (R408)
  evictUs  : Nat
  errq     : Dword
  waited   : Nat                -- wall time since which a company of it has waited for room (R356)
  arrivals : List (Nat × Nat)   -- CALLBOARD: tails of its queue and the wall times at which they stood (R363)
  closed   : Bool               -- CALLBOARD: the node has closed (R364)
  admitted : Nat                -- CALLBOARD: the node's admission count (R364)
  launched : List (Nat × Nat × Nat) -- packets of its children: queue, mapping, packet number (R362)
  deriving DecidableEq, Repr, Inhabited

/-- What prompter thread q is doing (R345). -/
inductive PMode where
  | asleep                      -- AWAIT on NOTIFY
  | loop                        -- HEAD ≠ t
  | reread (n : Nat) (since : Nat)
  | waiting (drain : Bool) (addr : Nat) (value : Dword) (cond : Nat) (met : Bool)
  | signalHold (addr value : Dword) (size : Nat)   -- waits for COMPLETE
  | storing (id : Nat)          -- the access of a SIGNAL
  deriving DecidableEq, Repr, Inhabited

structure Queue where
  served   : Bool               -- EN as latched
  pceil    : Nat
  lcap     : Bool
  part     : Nat
  qcb      : Nat
  ring     : Nat
  capLog2  : Nat
  evictUs  : Nat
  errq     : Dword
  spool    : Nat
  spoolSize : Nat
  broken   : Nat                -- error code of a QCB that serves nothing (R343); 0 none
  head     : Nat                -- packets consumed since EN rose
  tail     : Nat                -- TAIL as last read
  mode     : PMode
  buf      : Option (Nat × Nat × Nat)   -- indirect buffer in progress: address, count, next
  pre      : Table (List Byte)  -- granules of it fetched ahead (R349)
  epoch    : Nat
  notRunnable : Bool            -- R384
  retire   : Nat                -- RETIRE: packets 0 to retire − 1 have all retired
  retiredSet : List Nat         -- packets retired past it
  openRuns : List Nat           -- runs accepted and not complete
  prevRun  : Option Nat         -- previous RUN of the queue: none, or its run key + 1; 0 for refused or dropped
  dropped  : Nat
  refused  : Nat
  bufOpen  : List (Nat × Nat)   -- INDIRECT packets with runs of their buffer not yet complete
  deriving DecidableEq, Repr, Inhabited

/-! ### Wings and stages -/

/-- A bundle: a troupe's READY threads that have one PC (R51). -/
structure Bundle where
  t    : Nat
  mask : Mask
  deriving DecidableEq, Repr, Inhabited

structure Wing where
  table   : List Bundle         -- at most 64
  current : Option Bundle
  passed  : List Bundle         -- passed over for the next choice (R162, R258)
  forced  : Option Bundle       -- R64
  skipped : List ((Nat × Word) × Nat) -- (troupe, PC) groups not admitted, and at how many rebuilds in a row (R51)
  also    : Option Bundle       -- chosen in this clock beside the bundle that has issued, and later in pipe order (R20, R60)
  second  : Option Bundle       -- issued last from the second slot (R366)
  deriving DecidableEq, Repr, Inhabited

/-- A buffered operation of a deterministic run (R367). -/
structure BufOp where
  run  : Nat
  stage : Nat                   -- the stage that issued it
  company : Nat                 -- company key
  key  : Nat × Nat × Nat × Nat  -- (company, troupe, lane, sequence)
  tag  : Bool
  op   : AOp
  addr : Dword
  size : Nat
  bf   : Bool                   -- bfloat16 elements of RED
  ty   : Nat                    -- operand type T
  data : Dword
  phys : Nat
  deriving DecidableEq, Repr, Inhabited

structure Stage where
  ro      : Table (List Byte)   -- RO cache lines, by physical line number
  icache  : Table (List Byte)   -- instruction cache: whole instructions, by physical address
  det     : List BufOp          -- deterministic buffer
  opbuf   : Table Byte          -- operand buffer
  ranges  : List (Nat × Nat)    -- allocated ranges: offset, length
  deriving DecidableEq, Repr, Inhabited

/-! ### Accesses -/

/-- Who makes an access. -/
inductive Who where
  | thread (t l : Nat)
  | bundle (t : Nat) (m : Mask)          -- LDU, STU
  | prompter (q : Nat)
  | service (die core tag : Nat)
  | pcie (rid : Nat) (pasid : Option Nat) (tag : Nat) (part : Nat)
  | skason (src link tag troupe : Nat)
  | device                                -- a streamer's or ERRNOTIFY's
  | fault (q : Nat)                       -- the report of a translation fault (R411)
  | unit                                  -- a matrix or recompute unit writing MX units (R311)
  | det (run stage : Nat)                 -- a buffered operation of a deterministic run (R322), of a troupe of this stage
  deriving DecidableEq, Repr, Inhabited

/-- Where an access stands. -/
inductive AState where
  | queued                       -- issued, not performed
  | heldP                        -- held at the home on a clear P bit (R74)
  | heldW (marks : List Nat)     -- a write held for its stale marks (R138): marks not yet acknowledged
  | awaiting                     -- an AWAIT or WPWAIT recorded at the home
  | derived                      -- waits for tiles (R140)
  | performed                    -- performed; the reply is on its way
  | remote                       -- sent over Skason, no reply yet
  | retry (since hint : Nat)     -- refused with a retry-after hint (R417)
  deriving DecidableEq, Repr, Inhabited

structure Access where
  id     : Nat
  who    : Who
  op     : AOp
  addr   : Dword                 -- generic address as issued
  phys   : Nat                   -- physical byte address; for remote accesses the offset
  size   : Nat
  ty     : Nat                   -- arithmetic: T of Table 5.1 (R77); loads: 1 when the result is sign-extended
  data   : Dword
  cmp    : Dword
  after  : List Nat              -- accesses that must be performed first
  acq    : Bool
  rel    : Bool
  scope  : Scope
  vol    : Bool                  -- `.vol`
  home   : Bool                  -- a PLAIN load held for a store that is not PLAIN: taken at its home (R326)
  isStore : Bool                 -- it stands in the troupe's store queue (R228)
  pub    : Option Nat            -- its place in the stage store buffer, once there (R312)
  st     : AState
  res    : Dword                 -- value returned
  pend   : Nat                   -- register write it completes; 0 none
  dies   : List Nat              -- CAST: physical addresses of deliveries not yet performed
  deadline : Nat                 -- limit of an AWAIT or an agent's hold, in ns; 0 none
  issued : Nat                   -- wall time of issue
  reported : Bool                -- PARK_REPORT sent
  dev    : Option Nat            -- remote device id, for an access carried over Skason
  part   : Nat                   -- store-queue entry it belongs to
  spill  : Bool                  -- a return-stack spill or read-back
  reply  : Bool                  -- value-returning whatever its destination: an ATOM (R240)
  hold   : Nat                   -- until when an outside agent's access is held on a clear P bit (R74), or one sent is tried (R87); 0 none
  castHeld : List (Nat × List Nat) -- deliveries of a CAST held for their stale marks: address and marks (R138)
  acked  : Bool                  -- Skason: acknowledged by the far end of its link (R401)
  cut    : Bool                  -- Skason: its link went down before that
  reached : Bool                 -- held or waiting at its home, which it came to before any MOVE of its region (R417)
  early  : Option (Dword × List Nat) -- a load whose value was taken ahead of earlier loads: the value, and those loads (R313)
  deriving DecidableEq, Repr, Inhabited

/-! ### Engines: copies, collectives, waypoint updates -/

inductive CSrc where
  | phys (a : Nat) | glob (va : Dword) | zero | remote (dev off : Nat)
  deriving DecidableEq, Repr, Inhabited

inductive CDst where
  | phys (a : Nat) | glob (va : Dword) | skip | remote (dev off : Nat)
  deriving DecidableEq, Repr, Inhabited

/-- A piece of a copy that lands at once: at most one line. -/
structure Chunk where
  src  : CSrc
  dst  : CDst
  len  : Nat
  early : Option (List Byte)    -- bytes read ahead (R316)
  target : Nat                  -- which target of a CAST copy
  marks : List Nat              -- marks of a landing held on a W line
  held : Bool                   -- its marks have been sent (R138)
  done : Bool
  lost : Option Nat             -- dropped: the key of the pre-empted company (R385)
  sent : Nat                    -- a transfer with a remote device: wall time of its first sending, + 1; 0 while none is out
  last : Nat                    -- and of its latest
  link : Nat                    -- the link it left on
  again : Nat                   -- refused with a retry-after hint: when it is sent again (R417); 0 none
  cut  : Bool                   -- its link went down before it was answered (R401)
  deriving DecidableEq, Repr, Inhabited

/-- A target's waypoint: its physical address and the GEN captured at issue (R127). -/
structure WpRef where
  addr : Nat
  gen  : Nat
  deriving DecidableEq, Repr, Inhabited

structure Copy where
  id     : Nat
  t      : Nat                  -- issuing troupe
  lane   : Option Nat           -- COPYL lane
  chunks : List Chunk
  wps    : List (Option WpRef)  -- by target
  pres   : Bool
  cast   : Bool                 -- its destinations are those of CAST (R129)
  after  : List Nat             -- store-queue accesses its reads follow (R265)
  failed : Option Dword         -- a translation failed, with the address (R415)
  ended  : Bool
  parked : Bool                 -- a COPYL lane's request withdrawn after a translation fault (R128)
  pc     : Word                 -- its instruction
  stands : Bool                 -- COPYL: its lane stands at the instruction until its global bytes have moved (R128)
  grp    : Nat                  -- COPYL: the issue it belongs to, whose faulting lanes are one group (R128)
  castWp : Bool                 -- each target of a CAST has its own waypoint (R129)
  taken  : Table Byte           -- bytes of its source that have been read ahead of their chunk, by address (R140, R316)
  deriving DecidableEq, Repr, Inhabited

structure Coll where
  id     : Nat
  t      : Nat
  bytes  : List Byte            -- the 64 bytes of its record
  group  : List Nat
  wp     : Option WpRef
  remaining : Nat               -- DST bytes still to land
  issued : Nat
  joined : List Nat             -- ranks known to have joined
  asked  : List (Nat × Nat × Nat) -- reads of peers' SRC that have been sent: rank, offset, length
  served : List (Nat × Nat × Nat) -- reads of this rank's SRC that have been answered: rank, offset, length
  sentB  : List (Nat × Nat)     -- ranges of its reduced slice sent to the rank whose block it is
  landedB : List (Nat × Nat)    -- landed ranges: offset, length
  ended  : Bool
  deriving DecidableEq, Repr, Inhabited

/-- A step on its way to a waypoint's home: a byte update or arrival (R127), or WPINIT's (R249). -/
structure WpUpd where
  id    : Nat
  addr  : Nat
  gen   : Option Nat            -- none: WPARR, never stale (R250)
  bytes : Nat
  arrival : Bool
  after : List Nat
  copy  : Nat                   -- copy it belongs to; 0 none
  run   : Nat                   -- run of a WPARR, for R250's mark; 0 none
  who   : Option (Nat × Mask)   -- WPARR, WPINIT: the issuing threads
  init  : Option (Nat × Nat)    -- WPINIT: its B and C (R249)
  marks : Option (List Nat)     -- its stale marks, once sent (R138)
  deriving DecidableEq, Repr, Inhabited

/-! ### Derivation -/

/-- A tensor (Table 11.1). -/
structure Tensor where
  off    : Nat
  rows   : Nat
  cols   : Nat
  stride : Nat
  fmt    : Nat
  deriving DecidableEq, Repr, Inhabited

/-- A registered derivation (R132, R135). -/
structure Entry where
  used  : Bool
  part  : Nat
  rule  : Nat
  rnd   : Nat
  blk16 : Bool
  sat   : Bool
  seed  : Word                  -- 0 when the seed-valid flag is clear (R101)
  base  : Tensor
  der   : Tensor
  scale : Nat                   -- offset of the scale tensor
  home  : Nat                   -- home slice: 32·die + slice
  depth : Nat
  deriving DecidableEq, Repr, Inhabited

/-- Tile states (Table 11.6). -/
inductive TileState where
  | stale | fresh | busy | dirty
  deriving DecidableEq, Repr, Inhabited

/-- Who waits for a tile. -/
inductive Waiter where
  | access (id : Nat)
  | recompute (e tile : Nat)
  | engine (t op : Nat)
  deriving DecidableEq, Repr, Inhabited

structure Tile where
  st : TileState
  g1 : List Waiter
  g2 : List Waiter
  deriving DecidableEq, Repr, Inhabited

/-- A recompute that has begun (R141): base values read so far, by (row, column), and reads still to make. -/
structure Recompute where
  e     : Nat
  tile  : Nat
  vals  : List (Nat × Nat × Word)
  reads : List (Nat × Nat × Nat) -- base reads to come, each of one line: row, first column, end of columns
  asked : List (Nat × Nat)      -- derived base tiles still to be FRESH or served, ascending; the first is requested
  ready : Bool                  -- released, and the requested tile has served it
  deriving DecidableEq, Repr, Inhabited

structure Slice where
  queue   : List (Nat × Nat)    -- queued tiles: entry, tile
  current : Option Recompute    -- on the unit
  waiting : List Recompute      -- released, each keeping its place
  deriving DecidableEq, Repr, Inhabited

/-- A stale mark on its way (R137), for write access `wr`, or for mark `parent` of a FRESH tile (R139). -/
structure Mark where
  id     : Nat
  e      : Nat
  tile   : Nat
  wr     : Nat                  -- 0 none
  chunk  : Option (Nat × Nat)   -- landing of a copy's chunk
  parent : Nat                  -- 0 none
  home   : Nat                  -- the derived home slice it goes to
  arrived : Bool
  waits  : List Nat             -- marks it sent on, not yet acknowledged
  deriving DecidableEq, Repr, Inhabited

/-! ### Translation -/

/-- A cached translation: device space by ASID, host space by PASID. -/
structure Xlation where
  unit : Nat                    -- die of the translation unit that has cached it
  host : Bool
  ctx  : Nat
  page : Nat                    -- va[56:12] or va[55:12]
  pages : Nat
  pa   : Nat                    -- page number
  r    : Bool
  w    : Bool
  deriving DecidableEq, Repr, Inhabited

/-- A translation being waited for by a chunk. -/
inductive XState where
  /-- A walk faulted. -/
  | fault
  /-- Reported to the kernel, or still to be reported; `since` is the wall time of the first report, `last` of the latest. -/
  | reported (since : Nat)
  | unreported (since last : Nat)
  /-- Its report is on its way to the kernel's queue. -/
  | posting (since : Nat)
  | atsAsked
  /-- Denied, and no page request may be sent yet (R413). -/
  | pageWait
  /-- A page request is out; once it has succeeded, the translation is asked for once more (`again`). -/
  | pageAsked (since : Nat) (again : Bool)
  | resolved
  | failed
  deriving DecidableEq, Repr, Inhabited

structure Xreq where
  id    : Nat
  unit  : Nat                   -- die of the unit
  host  : Bool
  ctx   : Nat                   -- ASID or PASID
  root  : Nat
  page  : Nat
  write : Bool
  copy  : Nat
  st    : XState
  deriving DecidableEq, Repr, Inhabited

/-! ### Registers of the ports -/

/-- A 16-byte register and its staging copy (R435). -/
structure Reg16 where
  val   : BitVec 128
  stage : BitVec 128
  staged : BitVec 16            -- bytes staged since it last took effect
  deriving DecidableEq, Repr, Inhabited

structure Ports where
  qmap   : Table Dword
  svcr   : Table Reg16
  ingr   : Table Reg16
  hwake  : Table Dword
  xctx   : Table Reg16
  errcnt : Table Nat
  errNotify : Dword
  errLog : Table (BitVec 128)
  errSeq : Nat
  skid   : Nat
  route  : Table Nat
  msixTable : Table Byte
  msixPend  : Dword
  time   : Dword
  timeCtl : Dword
  timeOff : BitVec 32
  locked : Bool
  follows : Option (Nat × Nat × Nat) -- master followed, its distance in hops, and the link to the parent (R404)
  timeDue : Int                 -- offset still to be closed, ns
  heard  : Nat                  -- wall time of the parent's last message
  inBand  : Option Nat          -- wall time since which the offset has been within 5 ns
  region : Table Word           -- region-table entries, key 2048·die + region
  counters : Table Nat          -- Table 31.3, by byte offset
  xinvSeq : Dword
  xinvAck : Dword
  xinvs   : List Dword          -- invalidations started and not completed
  xfaultq : Dword
  links   : List Nat            -- links that are up
  atsEn   : Bool                -- the host's enables and grant in the ATS and PRI capabilities (R413)
  priEn   : Bool
  priAlloc : Nat
  deriving DecidableEq, Repr, Inhabited

/-- What leaves the module. -/
inductive Out where
  | completion (rid tag : Nat) (data : List Byte)
  | completerAbort (rid tag : Nat)
  | unsupported (rid tag : Nat)
  /-- A streamer's Memory Write or Read: Translated, or with ATS disabled Untranslated (R413). -/
  | memWrite (translated : Bool) (pasid addr : Nat) (data : List Byte)
  | memRead (translated : Bool) (pasid addr len : Nat)
  | msix (n : Nat)
  | atsRequest (pasid page : Nat)
  | pageRequest (pasid page : Nat) (write : Bool)
  | invalidationCompletion (tag : Nat)
  | skason (link : Nat) (r : SkReq)
  | skasonReply (dst tag : Nat) (data : Dword) (refused : Nat)
  /-- A collective's packet. -/
  | skasonColl (link : Nat) (p : CollPkt)
  /-- A time message on a link: the master in reach and its distance from the sender, and the sender's counter (R404). -/
  | timeMessage (link : Nat) (master : Option (Nat × Nat)) (time : Dword)
  | serviceReply (die core tag : Nat) (data : Dword)
  | registerValue (data : Dword)
  | spdm (data : List Byte)
  deriving DecidableEq, Repr, Inhabited

/-! ### Housekeeping -/

inductive Grade where
  | a | b
  deriving DecidableEq, Repr, Inhabited

structure Mgmt where
  grade   : Grade
  ready   : BitVec 6            -- READY [5:0] (Table 31.2)
  wiping  : Bool
  images  : Table FwImage       -- accepted image of each kind, in force
  nextImages : Table FwImage    -- accepted, in force at the next reset
  rejections : Nat
  ownerGen : Nat
  spdmVersion : Bool            -- GET_VERSION has been answered
  spdmCaps : Bool
  spdmAlgs : Bool               -- ECDSA P-256 with SHA-256 negotiated
  plimit  : Nat
  clock   : Nat                 -- MHz
  under   : Nat                 -- ms the average has stayed 5 % below PLIMIT
  hot     : Bool                -- above 105 °C
  held    : Bool                -- held in cold reset by temperature
  deriving DecidableEq, Repr, Inhabited

/-! ### The whole -/

/-- The bundle that issues: a troupe's key and the mask of its threads. -/
structure Cursor where
  t    : Nat
  mask : Mask
  deriving DecidableEq, Repr, Inhabited

/-- Memory: sorted by address, no address twice, no cell equal to 0, which an unlisted address reads as (R422). -/
abbrev Memory := List Host.Cell

/-- The state of the module. Keys: a company's is chosen at placement; a troupe's is 256·company + %troupe. -/
structure State where
  mem      : Memory
  pclear   : Table Nat          -- lines whose P bit is clear, with the copy recorded + 1 (R124)
  wset     : List Nat           -- lines whose W bit is set
  poison   : List Nat           -- poisoned aligned 8-byte parts
  wrBy     : Table (List Nat)   -- aligned 8-byte parts written: for each byte who has (R311, R313; `writerCode`)
  troupes  : Table Troupe
  companies : Table Company
  runs     : Table Run
  queues   : Table Queue
  wings    : Table Wing         -- key 4·stage + wing
  stages   : Table Stage
  accs     : List Access        -- in order of issue
  copies   : List Copy
  colls    : List Coll
  upds     : List WpUpd
  entries  : Table Entry
  tiles    : Table Tile         -- key 65536·entry + tile
  slices   : Table Slice        -- key 32·die + slice
  marks    : List Mark
  xcache   : List Xlation
  xreqs    : List Xreq
  ports    : Ports
  mgmt     : Mgmt
  lastDie  : Nat
  stagePtr : Table Nat          -- stage pointer of each die (R358)
  lastServed : Nat              -- queue served last at a priority (R356)
  nextRun  : Word               -- next %run value
  out      : List Out
  agenda   : List Action
  cur      : Cursor
  choices  : Nat
  picks    : Nat
  nextId   : Nat
  wall     : Nat
  deriving DecidableEq, Repr, Inhabited

/-- Why the machine stops. -/
inductive Fault where
  /-- Raised by every encoded instruction when the cursor names no thread of a placed troupe: `exec` was asked to issue an
  instruction for no bundle. No step raises it, since a wing issues only bundles that exist. Safe. -/
  | noBundle
  deriving DecidableEq, Repr

/-- Why an instruction has no meaning. -/
inductive Refusal where
  /-- Raised by an arm of `exec` whose instruction has no meaning yet. Safe. -/
  | notModelled (mnemonic : String)
  deriving DecidableEq, Repr

/-! ### Defaults of absent keys, and reset -/

def WaitInfo.none : WaitInfo := ⟨⟨7, false, true, false, .none, Option.none, Option.none, 0⟩, .rz, .i32⟩

/-- A thread that has never had an item: DRAINED. -/
def Thread.drained : Thread where
  st := .drained
  wait := .none
  info := WaitInfo.none
  parks := []
  group := none
  pc := 0
  rstack := []
  spills := 0
  readback := false
  count := 0
  flga := none
  flgb := none
  yld := false
  reach := none
  item := 0
  age := 0
  draws := 0
  conv := 0
  seqno := 0
  took := []
  arrived := []

/-- The generator's initial value (R98). -/
def srInitial : Word := 0x9E3779B9

def TrapInfo.none : TrapInfo := ⟨0, 0, 0, 0, 0, 0, 0, Option.none⟩

def Rec.free : Rec := ⟨false, 0, false, false, 0, 0⟩

/-- A troupe that is not placed; its registers and engines as R41 leaves them. -/
def Troupe.absent : Troupe where
  status := .absent
  stage := 0
  wing := 0
  threads := []
  regs := []
  cv := []
  pend := []
  ops := []
  recs := []
  recAsked := []
  recServed := []
  svcRead := []
  copied := []
  freeing := []
  tiles := []
  srState := srInitial
  srSeed := srInitial
  awaitLim := 0
  callIdx := 0
  urgency := 0
  last := TrapInfo.none
  frozen := []
  cvFrozen := []
  written := 0
  rttPc := 0
  handlers := 0
  context := false
  pendTrap := none
  pendPre := 0
  xfaults := []
  svcs := []
  reached := []
  saveDone := 0
  entryId := 0
  idleSince := 0
  entered := 0

/-- An unset junction (R246). -/
def Junction.unset : Junction := ⟨false, false, 0, 0, false, [], [], []⟩

def Company.absent : Company where
  run := 0
  index := 0
  die := 0
  stages := []
  cmBase := []
  placed := false
  retired := false
  junctions := []
  releases := []
  drained := false
  mclost := false
  mclostN := 0
  lost := false
  admitted := 0
  counter := 0
  stackBase := 0
  preempted := false
  offCore := false
  preempting := false

/-- No run: every field 0, no code. -/
def Run.absent : Run where
  id := 0
  queue := 0
  packet := 0
  epoch := 0
  part := 0
  prio := 0
  source := .shared
  grain := 0
  launchCap := false
  urgency := false
  strict := false
  determ := false
  items := 0
  range := 0
  grid := (0, 0, 0)
  circuit := (0, 0, 0)
  castMap := 0
  troupes := 0
  producer := 0
  regs := 0
  features := 0
  cmem := 0
  acct := 0
  nstages := 0
  stack := 0
  param := 0
  psize := 0
  save := 0
  saveSet := false
  closeAt := 0
  nodeQ := 0
  timer := 0
  maxTr := 0
  detArea := 0
  detLen := 0
  spool := 0
  spoolSize := 0
  code := 0
  text := 0
  textSize := 0
  entry := 0
  cue := 0
  trapVec := 0xFFFFFFFF
  counter := 0
  nextComp := 0
  retired := 0
  pred := none
  after := []
  gateOpen := false
  milestone := false
  nonrepro := false
  faulted := none
  faultT := 0
  complete := false
  parent := none
  sibling := (0, 0, 0)
  xctx := none
  evictUs := 0
  errq := 0
  waited := 0
  arrivals := []
  closed := false
  admitted := 0
  launched := []

def Queue.unmapped : Queue where
  served := false
  pceil := 0
  lcap := false
  part := 0
  qcb := 0
  ring := 0
  capLog2 := 0
  evictUs := 0
  errq := 0
  spool := 0
  spoolSize := 0
  broken := 0
  head := 0
  tail := 0
  mode := .asleep
  buf := none
  pre := []
  epoch := 0
  notRunnable := false
  retire := 0
  retiredSet := []
  openRuns := []
  prevRun := none
  dropped := 0
  refused := 0
  bufOpen := []

def Wing.empty : Wing := ⟨[], none, [], none, [], none, none⟩
def Stage.empty : Stage := ⟨[], [], [], [], []⟩
def Tensor.none : Tensor := ⟨0, 0, 0, 0, 0⟩
def Entry.free : Entry := ⟨false, 0, 0, 0, false, false, 0, Tensor.none, Tensor.none, 0, 0, 0⟩
def Tile.stale : Tile := ⟨.stale, [], []⟩
def Slice.idle : Slice := ⟨[], none, []⟩
def Reg16.zero : Reg16 := ⟨0, 0, 0⟩

/-- The registers of both ports at reset: 0 (their tables, R421). Every link is down until it trains (R401), and ATS and PRI are
disabled until the host enables them.
DESIGN CHOICE, log 6. -/
def Ports.reset : Ports where
  qmap := []
  svcr := []
  ingr := []
  hwake := []
  xctx := []
  errcnt := []
  errNotify := 0
  errLog := []
  errSeq := 0
  skid := 0
  route := []
  msixTable := []
  msixPend := 0
  time := 0
  timeCtl := 0
  timeOff := 0
  locked := false
  follows := none
  timeDue := 0
  heard := 0
  inBand := none
  region := []
  counters := []
  xinvSeq := 0
  xinvAck := 0
  xinvs := []
  xfaultq := 0
  links := []
  atsEn := false
  priEn := false
  priAlloc := 0

/-- The Grenfel controller at a cold reset: READY clear, the wipe in progress, PLIMIT 1,900 W (R423, R428).
DESIGN CHOICE, log 9. -/
def Mgmt.reset : Mgmt where
  grade := .a
  ready := 0
  wiping := true
  images := []
  nextImages := []
  rejections := 0
  ownerGen := 0
  spdmVersion := false
  spdmCaps := false
  spdmAlgs := false
  plimit := 1900
  clock := 1250
  under := 0
  hot := false
  held := false

/-- The module right after a cold reset (R421-R423): no troupe, no access, no queue mapped, every byte zero.
DESIGN CHOICE, log 3, 5, 8. -/
def State.reset : State where
  mem := []
  pclear := []
  wset := []
  poison := []
  wrBy := []
  troupes := []
  companies := []
  runs := []
  queues := []
  wings := []
  stages := []
  accs := []
  copies := []
  colls := []
  upds := []
  entries := []
  tiles := []
  slices := []
  marks := []
  xcache := []
  xreqs := []
  ports := Ports.reset
  mgmt := Mgmt.reset
  lastDie := 3
  stagePtr := []
  lastServed := 31
  nextRun := 1
  out := []
  agenda := []
  cur := ⟨0, 0⟩
  choices := 0
  picks := 0
  nextId := 1
  wall := 0

end Sys2Proof.Machine
end

