-- ==== Sys2Proof/Machine/Tables.lean ====
section
/-! DEFINITION. Operations on tables and on memory, and where the spaces lie in the one physical memory
(01_organisation.md R13, R17; 05_windows.md R73; 31_housekeeping.md R422). -/

namespace Sys2Proof.Machine

open Sys2Proof

/-- The record at key `k`, `d` when there is none. -/
def tget {V : Type} : Table V → V → Nat → V
  | [], d, _ => d
  | (a, v) :: r, d, k => if a = k then v else tget r d k

def terase {V : Type} : Table V → Nat → Table V
  | [], _ => []
  | (a, v) :: r, k => if a = k then terase r k else (a, v) :: terase r k

/-- Put a new key in its place. -/
def tinsert {V : Type} : Table V → Nat → V → Table V
  | [], k, v => [(k, v)]
  | (a, w) :: r, k, v => if k < a then (k, v) :: (a, w) :: r else (a, w) :: tinsert r k v

/-- Write the record at key `k`. -/
def tput {V : Type} (m : Table V) (k : Nat) (v : V) : Table V := tinsert (terase m k) k v

/-- Write the record at key `k`, keeping the table free of the default `d`. -/
def tset {V : Type} [DecidableEq V] (m : Table V) (d : V) (k : Nat) (v : V) : Table V :=
  if v = d then terase m k else tinsert (terase m k) k v

/-! ### Sorting -/

def insertBy {V : Type} (le : V → V → Bool) (x : V) : List V → List V
  | [] => [x]
  | y :: r => if le x y then x :: y :: r else y :: insertBy le x r
/-- Sort, equal ones keeping their order. -/
def sortBy {V : Type} (le : V → V → Bool) (xs : List V) : List V := xs.foldr (insertBy le) []

/-- The byte of memory at an address; an unlisted one reads 0 (R422). -/
def Memory.byte (m : Memory) (a : Nat) : Byte := tget m 0 a
def Memory.setByte (m : Memory) (a : Nat) (x : Byte) : Memory := tset m 0 a x

/-- `n` bytes from `a`, little-endian (R4). -/
def Memory.readN (m : Memory) (a : Nat) : Nat → Nat
  | 0 => 0
  | n + 1 => (m.byte a).toNat + 256 * m.readN (a + 1) n

def Memory.writeN (m : Memory) (a : Nat) : Nat → Nat → Memory
  | 0, _ => m
  | n + 1, x => Memory.writeN (m.setByte a (BitVec.ofNat 8 x)) (a + 1) n (x / 256)

def Memory.bytes (m : Memory) (a n : Nat) : List Byte := (List.range n).map fun k => m.byte (a + k)

def Memory.setBytes (m : Memory) (a : Nat) : List Byte → Memory
  | [] => m
  | b :: bs => Memory.setBytes (m.setByte a b) (a + 1) bs

/-- Addresses strictly rising. -/
def rising : List Nat → Bool
  | [] => true
  | [_] => true
  | a :: b :: r => a < b && rising (b :: r)

/-- The canonical form: addresses strictly rising, no cell equal to what an unlisted address reads as. -/
def Memory.wf (m : Memory) : Bool := rising (m.map Prod.fst) && m.all fun c => c.2 != 0

def leBytes (n x : Nat) : List Byte := (List.range n).map fun k => BitVec.ofNat 8 (x / 256 ^ k)
def leNat (bs : List Byte) : Nat := bs.foldr (fun b x => b.toNat + 256 * x) 0

/-! ### The physical address space -/

/-- Bytes of die scratchpad in the module: offsets [33:0] (R11, R17). -/
def scratchSize : Nat := 2 ^ 34
/-- Company memory of stage `st` (%stage), byte `b` (R21).
DESIGN CHOICE, log 12. -/
def cmAddr (st b : Nat) : Nat := 2 ^ 40 + st * 2 ^ 19 + b
/-- G7 physical address `pa` (R24). -/
def g7Addr (pa : Nat) : Nat := 2 ^ 41 + pa
/-- The stand-in for byte `b` of segment `k` of a company whose memory is off-core (R385): no memory has this address, and
a delivery to it is lost unless the company is back by then. -/
def awayAddr (c k b : Nat) : Nat := 2 ^ 45 + (c * 16 + k) * 2 ^ 19 + b
/-- The company of such an address. -/
def awayCompany (a : Nat) : Option Nat := if 2 ^ 45 ≤ a then some ((a - 2 ^ 45) / 2 ^ 23) else none
def isScratch (a : Nat) : Bool := a < scratchSize
def isCm (a : Nat) : Bool := 2 ^ 40 ≤ a && a < 2 ^ 41
/-- The stage whose company memory holds `a`. -/
def cmStage (a : Nat) : Nat := (a - 2 ^ 40) / 2 ^ 19
/-- The tagged line of a byte: 256 B of die scratchpad, 128 B of company memory (R73). -/
def lineOf (a : Nat) : Nat := if isScratch a then a / 256 else 2 ^ 36 + (a - 2 ^ 40) / 128
/-- The module-wide region number of a scratchpad offset (R17). -/
def regionOf (a : Nat) : Nat := a / 2 ^ 21
/-- The local slice of a stage, as 32·die + slice (R13). -/
def localSlice (st : Nat) : Nat := st / 4

def regionEntry (s : State) (r : Nat) : Word := tget s.ports.region 0 r
/-- The home slice of a scratchpad offset, as 32·die + slice (R17). -/
def homeSlice (s : State) (a : Nat) : Nat :=
  let e := regionEntry s (regionOf a)
  32 * (a / 2 ^ 32) + (if e.getLsbD 30 then (e.extractLsb' 0 5).toNat else a / 256 % 32)
/-- The slice whose counters an event at `a` counts in (R425). -/
def countSlice (s : State) (a : Nat) : Nat := if isScratch a then homeSlice s a else localSlice (cmStage a)

/-- Does a byte lie in partition `p` (R432)? -/
def inPart (s : State) (p a : Nat) : Bool :=
  let e := regionEntry s (regionOf a)
  isScratch a && e.getLsbD 21 && (e.extractLsb' 5 16).toNat == p

/-- Do all bytes of a range lie in partition `p`? -/
def rangeInPart (s : State) (p a n : Nat) : Bool :=
  n == 0 || (a + n ≤ scratchSize &&
    (List.range (regionOf (a + n - 1) + 1 - regionOf a)).all fun k => inPart s p (2 ^ 21 * (regionOf a + k)))

/-- Is the P bit of a byte's line set (R73)? -/
def present (s : State) (a : Nat) : Bool := tget s.pclear 0 (lineOf a) == 0
/-- Is the W bit of a byte's line set? Company memory has none (R73). -/
def watched (s : State) (a : Nat) : Bool := isScratch a && s.wset.contains (a / 256)

/-! ### Counters (Table 31.3) -/

def sliceCounter (sl off : Nat) : Nat := 0x40000 + 0x800 * (sl / 32) + 0x40 * (sl % 32) + off
def stageCounter (st off : Nat) : Nat := 0x42000 + 8 * st + off
def bump (s : State) (off n : Nat) : State :=
  { s with ports := { s.ports with counters := tput s.ports.counters off (sat32 (tget s.ports.counters 0 off + n)) } }

end Sys2Proof.Machine
end

