-- ==== Sys2Proof/Machine/Numbers.lean ====
section
/-! DEFINITION. Number formats and arithmetic (07_numbers.md R89-R108): exact values, one rounding function for every
format and mode, stochastic rounding, MX scales, the functions. -/

namespace Sys2Proof.Machine

open Sys2Proof

/-! ### Integers (R89) -/

def Ty.width : Ty → Nat
  | .i64 | .n64 => 64
  | .i16 | .n16 => 16
  | .i8 | .n8 => 8
  | _ => 32

def Ty.signed : Ty → Bool
  | .i32 | .i64 | .i16 | .i8 => true
  | _ => false

def Ty.wide (t : Ty) : Bool := t == .i64 || t == .n64

/-- The integer a register or pair holds, read as the type (R89, R183). -/
def intOf (t : Ty) (x : Dword) : Int :=
  if Ty.signed t then (x.setWidth (Ty.width t)).toInt else (x.setWidth (Ty.width t)).toNat

def intMin (t : Ty) : Int := if Ty.signed t then -(2 ^ (Ty.width t - 1)) else 0
def intMax (t : Ty) : Int := if Ty.signed t then 2 ^ (Ty.width t - 1) - 1 else 2 ^ Ty.width t - 1
def clampInt (lo hi x : Int) : Int := max lo (min hi x)

/-- Bring an exact integer into the type's range, clamped or wrapped (R89), as its bits extended to 32 bits or a pair. -/
def intBits (t : Ty) (sat : Bool) (x : Int) : Dword :=
  let y := if sat then clampInt (intMin t) (intMax t) x else x
  let w := BitVec.ofInt (Ty.width t) y
  if Ty.signed t then
    if Ty.width t = 64 then w.setWidth 64 else ((w.signExtend 32).setWidth 64)
  else w.setWidth 64

/-! ### Exact values -/

/-- A number as the formats give it: NaN, an infinity, or (−1)^neg · m · 2^e exactly. -/
inductive FVal where
  | nan
  | inf (neg : Bool)
  | fin (neg : Bool) (m : Nat) (e : Int)
  deriving DecidableEq, Repr, Inhabited

/-- A format of Table 7.1. -/
inductive Fmt where
  | f32 | f16 | bf16 | e4m3 | e5m2 | e2m1
  deriving DecidableEq, Repr, Inhabited

def Fmt.ebits : Fmt → Nat
  | .f32 => 8 | .f16 => 5 | .bf16 => 8 | .e4m3 => 4 | .e5m2 => 5 | .e2m1 => 2
def Fmt.mbits : Fmt → Nat
  | .f32 => 23 | .f16 => 10 | .bf16 => 7 | .e4m3 => 3 | .e5m2 => 2 | .e2m1 => 1
def Fmt.bias : Fmt → Int
  | .f32 => 127 | .f16 => 15 | .bf16 => 127 | .e4m3 => 7 | .e5m2 => 15 | .e2m1 => 1
def Fmt.bits (f : Fmt) : Nat := 1 + f.ebits + f.mbits
/-- The magnitude code of the largest finite value (Table 7.1). -/
def Fmt.largest : Fmt → Nat
  | .f32 => 0x7F7FFFFF | .f16 => 0x7BFF | .bf16 => 0x7F7F | .e4m3 => 0x7E | .e5m2 => 0x7B | .e2m1 => 0x7
def Fmt.nan : Fmt → Nat
  | .f32 => 0x7FC00000 | .f16 => 0x7E00 | .bf16 => 0x7FC0 | .e4m3 => 0x7F | .e5m2 => 0x7E | .e2m1 => 0
/-- Has an infinity: the code above the largest finite value. -/
def Fmt.hasInf : Fmt → Bool
  | .e4m3 | .e2m1 => false
  | _ => true
/-- `.ftz` acts on f32, f16 and bf16 only (R94). -/
def Fmt.flushes : Fmt → Bool
  | .f32 | .f16 | .bf16 => true
  | _ => false

def Fmt.signBit (f : Fmt) (neg : Bool) : Nat := if neg then 2 ^ (f.ebits + f.mbits) else 0

/-- The value of a bit pattern (R91). -/
def decodeF (f : Fmt) (x : Nat) : FVal :=
  let m := x % 2 ^ f.mbits
  let e := x / 2 ^ f.mbits % 2 ^ f.ebits
  let neg := x / 2 ^ (f.ebits + f.mbits) % 2 == 1
  if f.hasInf && e == 2 ^ f.ebits - 1 then (if m = 0 then .inf neg else .nan)
  else if f == .e4m3 && e == 15 && m == 7 then .nan
  else if e = 0 then .fin neg m (1 - f.bias - f.mbits)
  else .fin neg (2 ^ f.mbits + m) (e - f.bias - f.mbits)

def FVal.isNan : FVal → Bool
  | .nan => true
  | _ => false
def FVal.isZero : FVal → Bool
  | .fin _ 0 _ => true
  | _ => false
def FVal.neg : FVal → FVal
  | .nan => .nan
  | .inf n => .inf (!n)
  | .fin n m e => .fin (!n) m e
def FVal.abs : FVal → FVal
  | .nan => .nan
  | .inf _ => .inf false
  | .fin _ m e => .fin false m e
def FVal.isNeg : FVal → Bool
  | .nan => false
  | .inf n => n
  | .fin n _ _ => n
/-- Multiply by 2^k, exactly. -/
def FVal.scale (k : Int) : FVal → FVal
  | .fin n m e => .fin n m (e + k)
  | x => x
def FVal.ofInt (x : Int) : FVal := .fin (x < 0) x.natAbs 0
def FVal.zero : FVal := .fin false 0 0

def FVal.mul : FVal → FVal → FVal
  | .nan, _ => .nan
  | _, .nan => .nan
  | .inf a, .inf b => .inf (a != b)
  | .inf a, .fin b m _ => if m = 0 then .nan else .inf (a != b)
  | .fin a m _, .inf b => if m = 0 then .nan else .inf (a != b)
  | .fin a m e, .fin b n f => .fin (a != b) (m * n) (e + f)

/-- An exact sum of terms: NaN when a term is or infinities of both signs meet; an exact zero takes the sign R95 gives. -/
def sumF (rdn : Bool) (ts : List FVal) : FVal :=
  if ts.any FVal.isNan then .nan
  else if ts.any (· == .inf false) then (if ts.any (· == .inf true) then .nan else .inf false)
  else if ts.any (· == .inf true) then .inf true
  else
    let e0 : Int := ts.foldl (fun a t => match t with | .fin _ _ e => min a e | _ => a) 0
    let x : Int := ts.foldl (fun a t => match t with
      | .fin n m e => if n then a - m * 2 ^ (e - e0).toNat else a + m * 2 ^ (e - e0).toNat
      | _ => a) 0
    if x = 0 then
      if ts.all (fun t => t.isZero && t.isNeg) && !ts.isEmpty then .fin true 0 0
      else if ts.all (fun t => t.isZero && !t.isNeg) then .fin false 0 0
      else .fin rdn 0 0
    else .fin (x < 0) x.natAbs e0

/-- Order of two values that are no NaN; ±0 are equal. -/
def FVal.le (a b : FVal) : Bool :=
  match a, b with
  | .nan, _ => false
  | _, .nan => false
  | .inf true, _ => true
  | _, .inf false => true
  | .inf false, _ => false
  | _, .inf true => false
  | .fin n m e, .fin p q f =>
    let e0 := min e f
    let x : Int := (if n then -1 else 1) * (m * 2 ^ (e - e0).toNat : Nat)
    let y : Int := (if p then -1 else 1) * (q * 2 ^ (f - e0).toNat : Nat)
    x ≤ y

def FVal.lt (a b : FVal) : Bool := !a.isNan && !b.isNan && !b.le a

/-! ### Rounding (R95-R100) -/

/-- Trailing zero bits of a nonzero number below 2^n. -/
def trailing : Nat → Nat → Nat
  | 0, _ => 0
  | n + 1, x => if x % 2 = 1 then 0 else 1 + trailing n (x / 2)

/-- Does the magnitude round away, `shift` bits being discarded from `m` (R95, R97)? -/
def roundsUp (rm : Rnd) (neg : Bool) (m shift : Nat) (q : Word) : Bool :=
  let t := m / 2 ^ shift
  let rem := m % 2 ^ shift
  let half := 2 ^ (shift - 1)
  if shift = 0 || rem = 0 then false
  else match rm with
    | .rne => rem > half || (rem = half && t % 2 = 1)
    | .rtz => false
    | .rdn => neg
    | .rup => !neg
    | .rna => rem ≥ half
    | .sr =>
      let tz := trailing shift rem
      let d := min 32 (shift - tz)
      let f := if shift - tz ≤ 32 then rem / 2 ^ tz else rem / 2 ^ (shift - 32)
      f + q.toNat % 2 ^ d ≥ 2 ^ d

/-- The code of an overflow (Table 7.3). -/
def overflowCode (f : Fmt) (rm : Rnd) (sat neg : Bool) : Nat :=
  let big := f.signBit neg + f.largest
  let inf := if f.hasInf then f.signBit neg + f.largest + 1 else f.nan
  if sat || f == .e2m1 then big
  else match rm with
    | .rne | .rna | .sr => inf
    | .rtz => big
    | .rdn => if neg then inf else big
    | .rup => if neg then big else inf

/-- Round a nonzero magnitude m·2^e to the format: the magnitude code, or none on overflow. -/
def roundMag (f : Fmt) (rm : Rnd) (neg : Bool) (m : Nat) (e : Int) (q : Word) : Option Nat :=
  let emin := 1 - f.bias
  let top : Int := e + Nat.log2 m
  let lsb := max top emin - f.mbits
  let sig : Nat :=
    if lsb ≤ e then m * 2 ^ (e - lsb).toNat
    else
      let sh := (lsb - e).toNat
      m / 2 ^ sh + (if roundsUp rm neg m sh q then 1 else 0)
  let (sig, lsb) := if sig = 2 ^ (f.mbits + 1) then (sig / 2, lsb + 1) else (sig, lsb)
  let code : Int :=
    if sig < 2 ^ f.mbits then sig
    else (lsb + f.mbits + f.bias) * 2 ^ f.mbits + (sig - 2 ^ f.mbits)
  if code ≤ f.largest then some code.toNat else none

/-- The helper rnd of R183: round by the mode, then overflow and `.sat`, then `.ftz`; a NaN is the canonical NaN. -/
def rnd (f : Fmt) (md : FMod) (q : Word) (x : FVal) : Nat :=
  match x with
  | .nan => f.nan
  | .inf neg => if md.sat || f == .e2m1 then f.signBit neg + f.largest
                else if f.hasInf then f.signBit neg + f.largest + 1 else f.nan
  | .fin neg m e =>
    if m = 0 then f.signBit neg
    else match roundMag f md.rnd neg m e q with
      | none => overflowCode f md.rnd md.sat neg
      | some c => if md.ftz && f.flushes && c < 2 ^ f.mbits then f.signBit neg else f.signBit neg + c

def rneMod : FMod := ⟨.rne, false, false⟩
/-- Round to nearest even, subnormals kept (R77, R104, R106). -/
def rne (f : Fmt) (x : FVal) : Nat := rnd f rneMod 0 x

/-- flush of R183: a subnormal of f32, f16 or bf16 becomes a zero of its sign under `.ftz`. -/
def flush (f : Fmt) (ftz : Bool) (x : FVal) : FVal :=
  match x with
  | .fin neg m e => if ftz && f.flushes && m < 2 ^ f.mbits && e ≤ 1 - f.bias - f.mbits then .fin neg 0 0 else .fin neg m e
  | _ => x

/-- Round to an integer by the mode (R90, R209). -/
def roundInt (rm : Rnd) (q : Word) (neg : Bool) (m : Nat) (e : Int) : Int :=
  let a : Nat :=
    if 0 ≤ e then m * 2 ^ e.toNat
    else
      let sh := (-e).toNat
      m / 2 ^ sh + (if roundsUp rm neg m sh q then 1 else 0)
  if neg then -(a : Int) else a

/-! ### The stochastic-rounding generator (R98, R100) -/

def srStep (w : Word) : Word :=
  let w := w ^^^ (w <<< 13)
  let w := w ^^^ (w >>> 17)
  w ^^^ (w <<< 5)

def rotl32 (x : Word) (n : Nat) : Word := x.rotateLeft (n % 32)

def srHash (seed : Word) (item : Dword) (count : Word) : Word :=
  let x := seed ^^^ loWord item ^^^ rotl32 (hiWord item) 16 ^^^ (count * 0x9E3779B9#32)
  let x := (x ^^^ (x >>> 16)) * 0x7FEB352D#32
  let x := (x ^^^ (x >>> 15)) * 0x846CA68B#32
  x ^^^ (x >>> 16)

/-! ### Windows' arithmetic, minimum and maximum (R77) -/

/-- The floating-point minimum or maximum: the other of one NaN, the canonical NaN of two, −0 below +0. -/
def fMinMax (f : Fmt) (isMax : Bool) (a b : FVal) : Nat :=
  match a, b with
  | .nan, .nan => f.nan
  | .nan, y => rne f y
  | x, .nan => rne f x
  | x, y =>
    if x.isZero && y.isZero then
      f.signBit (if isMax then x.isNeg && y.isNeg else x.isNeg || y.isNeg)
    else if isMax then (if x.le y then rne f y else rne f x)
    else (if x.le y then rne f x else rne f y)

/-! ### MX blocks (R102, R103, R216) -/

def mxEmax : Fmt → Int
  | .e5m2 => 15
  | .e2m1 => 2
  | _ => 8

/-- The scale code of a block whose largest magnitude is `x` (R103). -/
def mxScale (f : Fmt) (x : FVal) : Nat :=
  match x with
  | .nan => 0xFF
  | .inf _ => 0xFF
  | .fin _ m e =>
    if m = 0 then 0x7F
    else (clampInt (-127) 127 (e + Nat.log2 m - mxEmax f) + 127).toNat

/-- The largest magnitude of a block; NaN when any element is NaN. -/
def amaxF (xs : List FVal) : FVal :=
  if xs.any FVal.isNan then .nan else xs.foldl (fun a x => if a.le x.abs then x.abs else a) FVal.zero

/-- Quantise a block (R103): its scale code and its element codes; `qs` are the draws of its positions. -/
def mxQuantise (f : Fmt) (rm : Rnd) (xs : List FVal) (qs : List Word) : Nat × List Nat :=
  let amax := amaxF xs
  let sc := mxScale f amax
  if sc = 0xFF then (0xFF, xs.map fun _ => 0)
  else if amax.isZero then (0x7F, xs.map fun _ => 0)
  else (sc, (xs.zip qs).map fun (x, q) => rnd f ⟨rm, true, false⟩ q (x.scale (127 - sc)))

/-- A scale code as a factor: 2^(c − 127), NaN for 0xFF (R102). -/
def scaled (c : Nat) (x : FVal) : FVal := if c = 0xFF then .nan else x.scale ((c : Int) - 127)

/-! ### Division and square root with a sticky bit -/

/-- a/b for finite nonzero a, b: 80 bits or more of the quotient and a sticky bit below them. -/
def divF (a b : FVal) : FVal :=
  match a, b with
  | .nan, _ => .nan
  | _, .nan => .nan
  | .inf _, .inf _ => .nan
  | .inf n, .fin p _ _ => .inf (n != p)
  | .fin n _ _, .inf p => .fin (n != p) 0 0
  | .fin n m e, .fin p q f =>
    if q = 0 then (if m = 0 then .nan else .inf (n != p))
    else if m = 0 then .fin (n != p) 0 0
    else
      let num := m * 2 ^ 200
      .fin (n != p) (2 * (num / q) + (if num % q = 0 then 0 else 1)) (e - f - 201)

/-- √a of R108, Table 7.5. -/
def sqrtF (a : FVal) : FVal :=
  match a with
  | .nan => .nan
  | .inf n => if n then .nan else .inf false
  | .fin n m e =>
    if m = 0 then .fin n 0 0
    else if n then .nan
    else
      let (m, e) := if e % 2 = 0 then (m, e) else (2 * m, e - 1)
      let num := m * 2 ^ 200
      let r := Nat.sqrt num
      .fin false (2 * r + (if r * r = num then 0 else 1)) (e / 2 - 101)

/-! ### Transcendental functions in fixed point

`pi512` and `ln2512` are ⌊π·2^512⌋ and ⌊ln 2·2^512⌋. A result that is not exact carries a sticky bit below some 400 good
bits, so that it rounds as the exact value does. -/

def fixP : Nat := 512
def pi512 : Nat :=
  0x3243f6a8885a308d313198a2e03707344a4093822299f31d0082efa98ec4e6c89452821e638d01377be5466cf34e90c6cc0ac29b7c97c50dd3f84d5b5b5470917
def ln2512 : Nat :=
  0xb17217f7d1cf79abc9e3b39803f2f6af40f343267298b62d8a0d175b8baafa2be7b876206debac98559552fb4afa1b10ed2eae35c138214427573b291169b825

/-- Σ ±x^k/k! from term k on, in fixed point; `alt` alternates signs and `step` is 1 (exp) or 2 (sin, cos). -/
def series (x : Nat) (step : Nat) (alt : Bool) : Nat → Nat → Nat → Int
  | 0, _, _ => 0
  | fuel + 1, k, term =>
    let t1 := term * x / 2 ^ fixP / (k + 1)
    let t2 := if step = 2 then t1 * x / 2 ^ fixP / (k + 2) else t1
    term + (if alt then -1 else 1) * series x step alt fuel (k + step) t2

def expFix (x : Nat) : Nat := (series x 1 false 110 0 (2 ^ fixP)).toNat
def cosFix (x : Nat) : Nat := (series x 2 true 60 0 (2 ^ fixP)).toNat
def sinFix (x : Nat) : Nat := (series x 2 true 60 1 x).toNat

/-- 2^f for a fraction f in fixed point. -/
def exp2Fix (f : Nat) : Nat := expFix (f * ln2512 / 2 ^ fixP)

/-- A finite value in fixed point, rounded toward −∞. -/
def toFix (neg : Bool) (m : Nat) (e : Int) : Int :=
  let a : Nat := if 0 ≤ e + fixP then m * 2 ^ (e + fixP).toNat else m / 2 ^ (-(e + fixP)).toNat
  if neg then -(a : Int) else a

/-- 2^a (R108, Table 7.5). -/
def exp2F (a : FVal) : FVal :=
  match a with
  | .nan => .nan
  | .inf n => if n then .fin false 0 0 else .inf false
  | .fin n m e =>
    if m = 0 then .fin false 1 0
    else if e + Nat.log2 m ≥ 12 then (if n then .fin false 1 (-4000) else .fin false 1 4000)
    else
      let x := toFix n m e
      let k := x / 2 ^ fixP
      let f := (x % 2 ^ fixP).toNat
      if f = 0 then .fin false 1 k else .fin false (2 * exp2Fix f + 1) (k - fixP - 1)

/-- Binary digits of log2 y for y in [1, 2), `n` of them, by squaring. -/
def log2Digits : Nat → Nat → Nat → Nat
  | 0, _, acc => acc
  | n + 1, y, acc =>
    let y2 := y * y / 2 ^ fixP
    if y2 ≥ 2 ^ (fixP + 1) then log2Digits n (y2 / 2) (2 * acc + 1) else log2Digits n y2 (2 * acc)

/-- log2 a (R108, Table 7.5). -/
def log2F (a : FVal) : FVal :=
  match a with
  | .nan => .nan
  | .inf n => if n then .nan else .inf false
  | .fin n m e =>
    if m = 0 then .inf true
    else if n then .nan
    else
      let b := Nat.log2 m
      let k : Int := e + b
      if m = 2 ^ b then .fin (k < 0) k.natAbs 0
      else
        let y := m * 2 ^ fixP / 2 ^ b
        let v : Int := k * 2 ^ 160 + log2Digits 160 y 0
        if 0 ≤ v then .fin false (2 * v.toNat + 1) (-161)
        else .fin true (2 * (-v - 1).toNat + 1) (-161)

/-- sin or cos of x ≥ 0 in fixed point: sign and magnitude. -/
def sinCosFix (isCos : Bool) (x : Nat) : Bool × Nat :=
  let half := pi512 / 2
  let k := x / half
  let r := x % half
  let k' := (if isCos then k + 1 else k) % 4
  (k' ≥ 2, if k' % 2 = 0 then sinFix r else cosFix r)

/-- sin a, cos a as values with a sticky bit (R108, Table 7.5). -/
def sinCosF (isCos : Bool) (a : FVal) : FVal :=
  match a with
  | .nan => .nan
  | .inf _ => .nan
  | .fin n m e =>
    if m = 0 then (if isCos then .fin false 1 0 else .fin n 0 0)
    else
      let (neg, v) := sinCosFix isCos (toFix false m e).toNat
      .fin (if isCos then neg else neg != n) (2 * v + 1) (-(fixP : Int) - 1)

/-- tanh a (R108, Table 7.5). -/
def tanhF (a : FVal) : FVal :=
  match a with
  | .nan => .nan
  | .inf n => .fin n 1 0
  | .fin n m e =>
    if m = 0 then .fin n 0 0
    else if e + Nat.log2 m ≥ 6 then .fin n (2 ^ 100 - 1) (-100)
    else
      let x := (toFix false m e).toNat
      let k := 2 * x / ln2512
      let r := 2 * x % ln2512
      let ex := expFix r * 2 ^ k
      let v := (ex - 2 ^ fixP) * 2 ^ fixP / (ex + 2 ^ fixP)
      .fin n (2 * v + 1) (-(fixP : Int) - 1)

/-- 1/√a (R108, Table 7.5). -/
def rsqF (a : FVal) : FVal :=
  match a with
  | .fin n 0 _ => .inf n
  | _ => divF (.fin false 1 0) (sqrtF a)

/-- 1/a (Table 7.5). -/
def rcpF (a : FVal) : FVal := divF (.fin false 1 0) a

/-- The functions that are within 1 ulp (R108): the value toward zero, the one away from zero, or, when the exact value is
a value of the format, the one on either side of it or itself; which one is free (Config.ulpPick), the same at every issue.
The rounding mode is ignored. -/
def ulpRound (fn : Nat) (md : FMod) (input : Word) (x : FVal) : Nat :=
  match x with
  | .fin neg m e =>
    if m = 0 then Fmt.f32.signBit neg
    else match roundMag .f32 .rtz neg m e 0 with
      | none => overflowCode .f32 .rne md.sat neg
      | some lo =>
        let exact := decodeF .f32 lo
        let isExact := (FVal.fin false m e).le exact && exact.le (.fin false m e)
        let c := match Config.ulpPick fn input % 3 with
          | 0 => lo
          | 1 => lo + 1
          | _ => if isExact && lo ≠ 0 then lo - 1 else lo
        if c > Fmt.f32.largest then overflowCode .f32 .rne md.sat neg
        else if md.ftz && c < 2 ^ 23 then Fmt.f32.signBit neg else Fmt.f32.signBit neg + c
  | y => rnd .f32 md 0 y

/-- TWID (R108, R223): cos(2πk/N) and −sin(2πk/N) for N = 2^L, correctly rounded to nearest; exact zeros +0. -/
def twiddle (logN k : Nat) : Nat × Nat :=
  let n := 2 ^ logN
  let k := k % n
  if 4 * k % n = 0 then
    match 4 * k / n with
    | 0 => (0x3F800000, 0)
    | 1 => (0, 0xBF800000)
    | 2 => (0xBF800000, 0)
    | _ => (0, 0x3F800000)
  else
    let x := 2 * pi512 * k / n
    let (nc, c) := sinCosFix true x
    let (ns, sn) := sinCosFix false x
    (rne .f32 (.fin nc (2 * c + 1) (-(fixP : Int) - 1)), rne .f32 (.fin (!ns) (2 * sn + 1) (-(fixP : Int) - 1)))

end Sys2Proof.Machine
end

