-- ==== Sys2Proof/Decode.lean ====
section
/-! DEFINITION. The 96-bit instruction word, its fields, the static encoding checks, the decoder and the encoder
(13_encoding.md R149-R167 and the encoding tables of 15, 17 and 19). -/

namespace Sys2Proof

/-- The fields of Table 13.3. -/
structure Fields where
  op   : BitVec 6
  cls  : BitVec 4
  pred : BitVec 3
  neg  : BitVec 1
  d    : BitVec 10
  a    : BitVec 10
  b    : BitVec 10
  c    : BitVec 10
  ty   : BitVec 4
  moda : BitVec 4
  modb : BitVec 4
  sub  : BitVec 5
  i    : BitVec 1
  cs   : BitVec 1
  yld  : BitVec 1
  sel  : BitVec 2
  flga : BitVec 4
  flgb : BitVec 4
  wait : BitVec 12
  deriving DecidableEq, Repr, Inhabited

/-- Take a word apart (Tables 13.1 and 13.2). -/
def unpack (w : BitVec 96) : Fields where
  op   := w.extractLsb' 0 6
  cls  := w.extractLsb' 6 4
  pred := w.extractLsb' 10 3
  neg  := w.extractLsb' 13 1
  d    := w.extractLsb' 14 10
  a    := w.extractLsb' 24 10
  b    := w.extractLsb' 34 10
  c    := w.extractLsb' 44 10
  ty   := w.extractLsb' 54 4
  moda := w.extractLsb' 58 4
  modb := w.extractLsb' 62 4
  sub  := w.extractLsb' 66 5
  i    := w.extractLsb' 71 1
  cs   := w.extractLsb' 72 1
  yld  := w.extractLsb' 73 1
  sel  := w.extractLsb' 74 2
  flga := w.extractLsb' 76 4
  flgb := w.extractLsb' 80 4
  wait := w.extractLsb' 84 12

/-- Put a word together (Tables 13.1 and 13.2). -/
def pack (f : Fields) : BitVec 96 :=
  f.wait ++ f.flgb ++ f.flga ++ f.sel ++ f.yld ++ f.cs ++ f.i ++ f.sub ++ f.modb ++ f.moda ++ f.ty ++
  f.c ++ f.b ++ f.a ++ f.d ++ f.neg ++ f.pred ++ f.cls ++ f.op

/-! ### Codes of the single fields -/

/-- Operand code (Table 13.4). -/
def Opd.code : Opd → BitVec 10
  | .v n  => BitVec.ofNat 10 n.val
  | .s n  => BitVec.ofNat 10 (0x200 + n.val)
  | .p k  => BitVec.ofNat 10 (0x2A0 + k.val)
  | .sp k => BitVec.ofNat 10 (0x2C0 + k.val)
  | .rz   => 0x3FF#10

/-- Operand of a code; none for a code Table 13.4 does not assign. -/
def Opd.ofCode (x : BitVec 10) : Option Opd :=
  if h : x.toNat < 0x200 then some (.v ⟨x.toNat, h⟩)
  else if h : x.toNat - 0x200 < 160 then some (.s ⟨x.toNat - 0x200, h⟩)
  else if h : 0x2A0 ≤ x.toNat ∧ x.toNat - 0x2A0 < 8 then some (.p ⟨x.toNat - 0x2A0, h.2⟩)
  else if h : 0x2C0 ≤ x.toNat ∧ x.toNat - 0x2C0 < 19 then some (.sp ⟨x.toNat - 0x2C0, h.2⟩)
  else if x = 0x3FF#10 then some .rz else none

/-- TYPE code (Table 13.9). -/
def Ty.code : Ty → BitVec 4
  | .i32 => 0 | .n32 => 1 | .i64 => 2 | .n64 => 3 | .i16 => 4 | .n16 => 5 | .i8 => 6 | .n8 => 7
  | .f32 => 8 | .f16 => 9 | .bf16 => 10 | .f16x2 => 11 | .bf16x2 => 12 | .e4m3x4 => 13 | .e5m2x4 => 14 | .e2m1x8 => 15

def Ty.ofCode (x : BitVec 4) : Ty :=
  match x.toNat with
  | 0 => .i32 | 1 => .n32 | 2 => .i64 | 3 => .n64 | 4 => .i16 | 5 => .n16 | 6 => .i8 | 7 => .n8
  | 8 => .f32 | 9 => .f16 | 10 => .bf16 | 11 => .f16x2 | 12 => .bf16x2 | 13 => .e4m3x4 | 14 => .e5m2x4 | _ => .e2m1x8

def Rnd.code : Rnd → BitVec 4
  | .rne => 0 | .rtz => 1 | .rdn => 2 | .rup => 3 | .rna => 4 | .sr => 5

def Rnd.ofCode (x : BitVec 4) : Rnd :=
  match x.toNat with
  | 0 => .rne | 1 => .rtz | 2 => .rdn | 3 => .rup | 4 => .rna | _ => .sr

def Scope.code : Scope → BitVec 4
  | .troupe => 0 | .stage => 1 | .die => 2 | .device => 3 | .system => 4

def Scope.ofCode (x : BitVec 4) : Scope :=
  match x.toNat with
  | 0 => .troupe | 1 => .stage | 2 => .die | 3 => .device | _ => .system

def Cond.code : Cond → Nat
  | .eq => 0 | .ne => 1 | .lt => 2 | .le => 3 | .gt => 4 | .ge => 5 | .num => 6 | .nan => 7

def Cond.ofCode (n : Nat) : Cond :=
  match n with
  | 0 => .eq | 1 => .ne | 2 => .lt | 3 => .le | 4 => .gt | 5 => .ge | 6 => .num | _ => .nan

def Comb.code : Comb → Nat
  | .and => 1 | .or => 2 | .xor => 3

def Comb.ofCode (n : Nat) : Comb :=
  match n with
  | 1 => .and | 2 => .or | _ => .xor

def AtomOp.code : AtomOp → Nat
  | .add => 0 | .min => 1 | .max => 2 | .and => 3 | .or => 4 | .xor => 5 | .exch => 6 | .cas => 7

def AtomOp.ofCode (n : Nat) : AtomOp :=
  match n with
  | 0 => .add | 1 => .min | 2 => .max | 3 => .and | 4 => .or | 5 => .xor | 6 => .exch | _ => .cas

def FenceKind.code : FenceKind → Nat
  | .full => 0 | .acq => 1 | .rel => 2

def FenceKind.ofCode (n : Nat) : FenceKind :=
  match n with
  | 0 => .full | 1 => .acq | _ => .rel

def Eng.code : Eng → Nat
  | .copy => 0 | .gather => 1 | .mma => 2 | .coll => 3 | .remote => 4

def Eng.ofCode (n : Nat) : Eng :=
  match n with
  | 0 => .copy | 1 => .gather | 2 => .mma | 3 => .coll | _ => .remote

def XScope.code : XScope → Nat
  | .act => 0 | .all => 1 | .seg => 2

def XScope.ofCode (n : Nat) : XScope :=
  match n with
  | 0 => .act | 1 => .all | _ => .seg

def RedOp.code : RedOp → Nat
  | .add => 0 | .min => 1 | .max => 2 | .and => 3 | .or => 4 | .xor => 5

def RedOp.ofCode (n : Nat) : RedOp :=
  match n with
  | 0 => .add | 1 => .min | 2 => .max | 3 => .and | 4 => .or | _ => .xor

def VoteKind.code : VoteKind → Nat
  | .any => 0 | .every => 1 | .ballot => 2 | .same => 3

def VoteKind.ofCode (n : Nat) : VoteKind :=
  match n with
  | 0 => .any | 1 => .every | 2 => .ballot | _ => .same

def ShMode.code : ShMode → Nat
  | .idx => 0 | .up => 1 | .down => 2 | .xor => 3

def ShMode.ofCode (n : Nat) : ShMode :=
  match n with
  | 0 => .idx | 1 => .up | 2 => .down | _ => .xor

def MxFmt.code : MxFmt → Nat
  | .e4m3 => 1 | .e5m2 => 2 | .e2m1 => 3

def MxFmt.ofCode (n : Nat) : MxFmt :=
  match n with
  | 1 => .e4m3 | 2 => .e5m2 | _ => .e2m1

def CtxPart.code : CtxPart → Nat
  | .thread => 0 | .troupe => 1 | .junct => 2

def CtxPart.ofCode (n : Nat) : CtxPart :=
  match n with
  | 0 => .thread | 1 => .troupe | _ => .junct

def Sel.code : Sel → BitVec 2
  | .none => 0 | .a => 1 | .b => 2

def Sel.ofCode (x : BitVec 2) : Sel :=
  match x.toNat with
  | 0 => .none | 1 => .a | _ => .b

/-- FLGA and FLGB: 0-11 a flag, 15 none (Table 13.3). -/
def flagCode : Option (Fin 12) → BitVec 4
  | some k => BitVec.ofNat 4 k.val
  | none   => 15#4

def flagOf (x : BitVec 4) : Option (Fin 12) :=
  if h : x.toNat < 12 then some ⟨x.toNat, h⟩ else none

/-- MODB of the FP, CVT and SIG classes: bit 0 `.sat`, bit 1 `.ftz` (Table 13.10). -/
def modbOf (sat ftz : Bool) : BitVec 4 :=
  BitVec.ofNat 4 ((if sat then 1 else 0) + (if ftz then 2 else 0))

/-! ### The encoder's fields -/

/-- The fields of an instruction that uses none of its own: every operand 0x3FF, every other EXT field 0 (R152). -/
def baseFields (h : Hdr) (cls op : Nat) : Fields where
  op := BitVec.ofNat 6 op
  cls := BitVec.ofNat 4 cls
  pred := BitVec.ofNat 3 h.pred.val
  neg := BitVec.ofBool h.neg
  d := 0x3FF
  a := 0x3FF
  b := 0x3FF
  c := 0x3FF
  ty := 0
  moda := 0
  modb := 0
  sub := 0
  i := 0
  cs := BitVec.ofBool h.cs
  yld := BitVec.ofBool h.yld
  sel := h.sel.code
  flga := flagCode h.flga
  flgb := flagCode h.flgb
  wait := h.wait

/-- Put an immediate in B and C (R153). -/
def Fields.withImm (f : Fields) (x : Imm) : Fields :=
  { f with i := 1, b := x.extractLsb' 0 10, c := x.extractLsb' 10 10 }

def Fields.withSrc (f : Fields) : Src → Fields
  | .reg o => { f with b := o.code }
  | .imm x => f.withImm x

def Fields.withMod (f : Fields) (m : FMod) : Fields :=
  { f with moda := m.rnd.code, modb := modbOf m.sat m.ftz }

def Fields.withLd (f : Fields) : LdMod → Fields
  | .plain  => f
  | .acq sc => { f with moda := 1, modb := sc.code }
  | .vol    => { f with moda := 2 }

def Fields.withSt (f : Fields) : StMod → Fields
  | .plain  => f
  | .rel sc => { f with moda := 1, modb := sc.code }

def Fields.withAt (f : Fields) : AtMod → Fields
  | .plain  => f
  | .acq sc => { f with moda := 1, modb := sc.code }
  | .rel sc => { f with moda := 3, modb := sc.code }
  | .ar sc  => { f with moda := 4, modb := sc.code }

def Fields.withCmp (f : Fields) (cond : Cond) : CmpSrc → Fields
  | .plain b    => { f with sub := BitVec.ofNat 5 cond.code }.withSrc b
  | .comb k b c => { f with sub := BitVec.ofNat 5 (cond.code + 8 * k.code), b := b.code, c := c.code }

def Fields.withScale (f : Fields) : Option Src → Fields
  | none   => f
  | some b => { f with sub := 1 }.withSrc b

/-- Integer forms of three operands. -/
def fInt (h : Hdr) (op : Nat) (ty : Ty) (d a : Opd) (b : Src) : Fields :=
  { baseFields h 0 op with ty := ty.code, d := d.code, a := a.code }.withSrc b

def fFp (h : Hdr) (op : Nat) (ty : Ty) (d a : Opd) : Fields :=
  { baseFields h 1 op with ty := ty.code, d := d.code, a := a.code }

def fMem (h : Hdr) (cls op : Nat) (ty : Ty) (d base : Opd) (off : Src) : Fields :=
  { baseFields h cls op with ty := ty.code, d := d.code, a := base.code }.withSrc off

def satBit (sat : Bool) : BitVec 4 := modbOf sat false
def ftzBit (ftz : Bool) : BitVec 4 := modbOf false ftz

/-- The fields of an instruction, from the encoding tables. Events have no encoding: `none`. -/
def fieldsOf : Instr → Option Fields
  -- Table 15.1
  | .iadd h ty sat d a b => some { fInt h 0x00 ty d a b with modb := satBit sat }
  | .isub h ty sat d a b => some { fInt h 0x01 ty d a b with modb := satBit sat }
  | .imul h ty sat d a b => some { fInt h 0x02 ty d a b with modb := satBit sat }
  | .imulh h ty d a b => some (fInt h 0x03 ty d a b)
  | .imad h ty sat d a b c => some { fInt h 0x04 ty d a (.reg b) with modb := satBit sat, c := c.code }
  | .idiv h ty sat d a b => some { fInt h 0x05 ty d a b with modb := satBit sat }
  | .irem h ty d a b => some (fInt h 0x06 ty d a b)
  | .imin h ty d a b => some (fInt h 0x07 ty d a b)
  | .imax h ty d a b => some (fInt h 0x08 ty d a b)
  | .iabs h ty sat d a => some { baseFields h 0 0x09 with ty := ty.code, d := d.code, a := a.code, modb := satBit sat }
  | .ineg h ty sat d a => some { baseFields h 0 0x0A with ty := ty.code, d := d.code, a := a.code, modb := satBit sat }
  -- Table 15.2
  | .and h ty d a b => some (fInt h 0x0B ty d a b)
  | .or h ty d a b => some (fInt h 0x0C ty d a b)
  | .xor h ty d a b => some (fInt h 0x0D ty d a b)
  | .not h ty d a => some { baseFields h 0 0x0E with ty := ty.code, d := d.code, a := a.code }
  | .shl h ty d a b => some (fInt h 0x0F ty d a b)
  | .shr h ty d a b => some (fInt h 0x10 ty d a b)
  | .rotl h ty d a b => some (fInt h 0x11 ty d a b)
  | .bfe h ty d a b => some (fInt h 0x12 ty d a b)
  | .bfi h ty d a b c => some { fInt h 0x13 ty d a (.reg b) with c := c.code }
  | .popc h ty d a => some { baseFields h 0 0x14 with ty := ty.code, d := d.code, a := a.code }
  | .clz h ty d a => some { baseFields h 0 0x15 with ty := ty.code, d := d.code, a := a.code }
  | .brev h ty d a => some { baseFields h 0 0x16 with ty := ty.code, d := d.code, a := a.code }
  | .prmt h d a (.reg b c) => some { baseFields h 0 0x1E with d := d.code, a := a.code, b := b.code, c := c.code }
  | .prmt h d a (.imm x) => some ({ baseFields h 0 0x1E with d := d.code, a := a.code }.withImm x)
  -- Table 15.4
  | .icmp h cond ty d a b =>
      some ({ baseFields h 0 0x17 with ty := ty.code, d := d.code, a := a.code }.withCmp cond b)
  | .sel h ty d a b c => some { fInt h 0x18 ty d a (.reg b) with c := c.code }
  | .plop h table d a b c =>
      some { baseFields h 0 0x1C with
          moda := table.extractLsb' 0 4, modb := table.extractLsb' 4 4,
          d := d.code, a := a.code, b := b.code, c := c.code }
  | .pmovGet h d => some { baseFields h 0 0x1D with d := d.code }
  | .pmovSet h a b => some ({ baseFields h 0 0x1D with sub := 1, a := a.code }.withSrc b)
  -- Table 15.6, R154
  | .mov h ty d a => some { baseFields h 0 0x19 with ty := ty.code, d := d.code, a := a.code }
  | .movi h d x =>
      some { baseFields h 0 0x1A with
          d := d.code, i := 1, b := x.extractLsb' 0 10, c := x.extractLsb' 10 10,
          ty := x.extractLsb' 20 4, moda := x.extractLsb' 24 4, modb := x.extractLsb' 28 4 }
  | .moviHi h d x =>
      some { baseFields h 0 0x1A with
          sub := 1, d := d.code, i := 1, b := x.extractLsb' 0 10, c := x.extractLsb' 10 10,
          ty := x.extractLsb' 20 4, moda := x.extractLsb' 24 4, modb := x.extractLsb' 28 4 }
  | .lea h ty sh d a b => some { fInt h 0x1B ty d a b with sub := BitVec.ofNat 5 sh.val }
  | .leaCode h ty sh d b => some { fInt h 0x1B ty d .rz b with sub := BitVec.ofNat 5 (4 + sh.val) }
  -- Table 15.7
  | .fadd h ty m d a b => some ((fFp h 0x00 ty d a).withMod m |>.withSrc b)
  | .fsub h ty m d a b => some ((fFp h 0x01 ty d a).withMod m |>.withSrc b)
  | .fmul h ty m d a b => some ((fFp h 0x02 ty d a).withMod m |>.withSrc b)
  | .ffma h ty m d a b c => some { (fFp h 0x03 ty d a).withMod m with b := b.code, c := c.code }
  | .fmin h ty ftz d a b => some ({ fFp h 0x04 ty d a with modb := ftzBit ftz }.withSrc b)
  | .fmax h ty ftz d a b => some ({ fFp h 0x05 ty d a with modb := ftzBit ftz }.withSrc b)
  | .fabs h ty ftz d a => some { fFp h 0x06 ty d a with modb := ftzBit ftz }
  | .fneg h ty ftz d a => some { fFp h 0x07 ty d a with modb := ftzBit ftz }
  | .fcmp h cond ty ftz d a b => some ({ fFp h 0x08 ty d a with modb := ftzBit ftz }.withCmp cond b)
  | .frcp h m d a => some ((fFp h 0x09 .f32 d a).withMod m)
  | .frsq h m d a => some ((fFp h 0x0A .f32 d a).withMod m)
  | .fsqrt h m d a => some ((fFp h 0x0B .f32 d a).withMod m)
  | .fdiv h m d a b => some ((fFp h 0x0C .f32 d a).withMod m |>.withSrc b)
  | .fexp2 h m d a => some ((fFp h 0x0D .f32 d a).withMod m)
  | .flog2 h m d a => some ((fFp h 0x0E .f32 d a).withMod m)
  | .fsin h m d a => some ((fFp h 0x0F .f32 d a).withMod m)
  | .fcos h m d a => some ((fFp h 0x10 .f32 d a).withMod m)
  | .ftanh h m d a => some ((fFp h 0x11 .f32 d a).withMod m)
  | .fclass h ty d a => some (fFp h 0x12 ty d a)
  | .frint h ty rnd ftz d a => some { fFp h 0x13 ty d a with moda := rnd.code, modb := ftzBit ftz }
  -- Table 15.8
  | .cvt h src dst m d a =>
      some ({ baseFields h 2 0x00 with ty := dst.code, sub := src.code.setWidth 5, d := d.code, a := a.code }.withMod m)
  | .pack h ty m d a sc =>
      some ({ baseFields h 2 0x01 with ty := ty.code, d := d.code, a := a.code }.withMod m |>.withScale sc)
  | .unpack h ty sat d a sc =>
      some ({ baseFields h 2 0x02 with ty := ty.code, d := d.code, a := a.code, modb := satBit sat }.withScale sc)
  | .dot2 h ty m d a b c =>
      some ({ baseFields h 2 0x03 with ty := ty.code, d := d.code, a := a.code, b := b.code, c := c.code }.withMod m)
  | .dot4 h ty sc xb m d a b c =>
      some ({ baseFields h 2 0x04 with
          ty := ty.code, d := d.code, a := a.code, b := b.code, c := c.code,
          sub := BitVec.ofNat 5 ((if sc then 1 else 0) + (if xb then 2 else 0)) }.withMod m)
  | .dot8 h sc m d a b c =>
      some ({ baseFields h 2 0x05 with
          ty := Ty.e2m1x8.code, d := d.code, a := a.code, b := b.code, c := c.code,
          sub := BitVec.ofNat 5 (if sc then 1 else 0) }.withMod m)
  | .scaleApply h m d a b =>
      some ({ baseFields h 2 0x06 with ty := Ty.f32.code, d := d.code, a := a.code }.withMod m |>.withSrc b)
  | .scaleMx h k d a =>
      some { baseFields h 2 0x06 with ty := Ty.f32.code, sub := BitVec.ofNat 5 k.code, d := d.code, a := a.code }
  | .amax h ty d a b => some { baseFields h 2 0x07 with ty := ty.code, d := d.code, a := a.code, b := b.code }
  | .srseed h a => some { baseFields h 2 0x08 with ty := Ty.n32.code, a := a.code }
  -- Table 15.11
  | .cbfly h m d a b c =>
      some ({ baseFields h 12 0x00 with ty := Ty.f32.code, d := d.code, a := a.code, b := b.code, c := c.code }.withMod m)
  | .cmul h conj m d a b =>
      some ({ baseFields h 12 0x01 with
          ty := Ty.f32.code, d := d.code, a := a.code, b := b.code,
          sub := BitVec.ofNat 5 (if conj then 1 else 0) }.withMod m)
  | .twid h d a b => some ({ baseFields h 12 0x02 with ty := Ty.f32.code, d := d.code, a := a.code }.withSrc b)
  -- Table 17.2
  | .ld h ty m d base off => some ((fMem h 4 0x00 ty d base off).withLd m)
  | .st h ty m d base off => some ((fMem h 4 0x01 ty d base off).withSt m)
  | .ldx h n m d base off => some { (fMem h 4 0x02 .n32 d base off).withLd m with sub := BitVec.ofNat 5 n.val }
  | .stx h n m d base off => some { (fMem h 4 0x03 .n32 d base off).withSt m with sub := BitVec.ofNat 5 n.val }
  | .ldu h ty m d base off => some ((fMem h 4 0x04 ty d base off).withLd m)
  | .stu h ty m d base off => some ((fMem h 4 0x05 ty d base off).withSt m)
  | .probe h d base off => some (fMem h 4 0x06 .n32 d base off)
  -- Table 17.5
  | .atom h op ty m d base b c =>
      some { (fMem h 5 0x00 ty d base (.reg b)).withAt m with sub := BitVec.ofNat 5 op.code, c := c.code }
  | .red h op ty m d base off =>
      some { (fMem h 5 0x01 ty d base off).withSt m with sub := BitVec.ofNat 5 op.code }
  | .aenq h ty m d base b => some ((fMem h 5 0x02 ty d base (.reg b)).withSt m)
  | .adeq h m d base off => some ((fMem h 5 0x03 .n64 d base off).withLd m)
  -- R238, R244, Table 17.7
  | .fence h k sc => some { baseFields h 6 0x00 with modb := sc.code, sub := BitVec.ofNat 5 k.code }
  | .waitc h cls n => some ({ baseFields h 6 0x01 with sub := BitVec.ofNat 5 cls.code }.withImm (BitVec.ofNat 20 n.val))
  | .jinit h j (some e) => some ({ baseFields h 6 0x02 with sub := BitVec.ofNat 5 j.val }.withSrc e)
  | .jinit h j none => some { baseFields h 6 0x02 with moda := 1, sub := BitVec.ofNat 5 j.val }
  | .jarr h j d => some { baseFields h 6 0x03 with sub := BitVec.ofNat 5 j.val, d := d.code }
  | .jwait h j => some { baseFields h 6 0x04 with sub := BitVec.ofNat 5 j.val }
  | .jarrw h j d => some { baseFields h 6 0x05 with sub := BitVec.ofNat 5 j.val, d := d.code }
  | .wpinit h base b c => some { baseFields h 6 0x06 with a := base.code, b := b.code, c := c.code }
  | .wparr h noarr base b =>
      some ({ baseFields h 6 0x07 with sub := BitVec.ofNat 5 (if noarr then 1 else 0), a := base.code }.withSrc b)
  | .wpwait h d base b c => some { baseFields h 6 0x08 with d := d.code, a := base.code, b := b.code, c := c.code }
  -- Table 17.8
  | .bra h k => some ((baseFields h 3 0x00).withImm k)
  | .brx h a => some { baseFields h 3 0x01 with a := a.code }
  | .call h k => some ((baseFields h 3 0x02).withImm k)
  | .callx h a => some { baseFields h 3 0x03 with a := a.code }
  | .ret h => some (baseFields h 3 0x04)
  | .cvset h c => some { baseFields h 3 0x05 with sub := BitVec.ofNat 5 c.val }
  | .cvsetIdle h c => some { baseFields h 3 0x05 with sub := BitVec.ofNat 5 (8 + c.val) }
  | .cvwait h c d b => some ({ baseFields h 3 0x06 with sub := BitVec.ofNat 5 c.val, d := d.code }.withSrc b)
  | .exit h => some (baseFields h 3 0x07)
  | .yield h => some (baseFields h 3 0x08)
  | .nop h => some (baseFields h 3 0x09)
  | .brk h x => some ((baseFields h 3 0x0A).withImm x)
  | .sleep h b => some ((baseFields h 3 0x0B).withSrc b)
  -- Table 19.1
  | .qswz h ty d a b => some ({ baseFields h 7 0x00 with ty := ty.code, d := d.code, a := a.code }.withSrc b)
  | .shfl h mode ty d a b =>
      some ({ baseFields h 7 0x01 with ty := ty.code, sub := BitVec.ofNat 5 mode.code, d := d.code, a := a.code }.withSrc b)
  | .vote h k sc d a =>
      some { baseFields h 7 0x02 with sub := BitVec.ofNat 5 (sc.code + 4 * k.code), d := d.code, a := a.code }
  | .tred h op sc ty d a =>
      some { baseFields h 7 0x03 with ty := ty.code, sub := BitVec.ofNat 5 (sc.code + 4 * op.code), d := d.code, a := a.code }
  | .tscan h op sc ty excl d a =>
      some { baseFields h 7 0x04 with
          ty := ty.code, moda := BitVec.ofNat 4 (if excl then 1 else 0),
          sub := BitVec.ofNat 5 (sc.code + 4 * op.code), d := d.code, a := a.code }
  | .matchv h sc ty d a =>
      some { baseFields h 7 0x05 with ty := ty.code, sub := BitVec.ofNat 5 sc.code, d := d.code, a := a.code }
  | .elect h d => some { baseFields h 7 0x06 with d := d.code }
  | .umov h ty d a b => some ({ baseFields h 7 0x07 with ty := ty.code, d := d.code, a := a.code }.withSrc b)
  -- Table 19.3
  | .mma h a => some { baseFields h 8 0x00 with a := a.code }
  | .accld h base tile => some ({ baseFields h 8 0x01 with a := base.code }.withImm (BitVec.ofNat 20 tile.val))
  | .accst h base tile => some ({ baseFields h 8 0x02 with a := base.code }.withImm (BitVec.ofNat 20 tile.val))
  | .accz h tile => some ((baseFields h 8 0x03).withImm (BitVec.ofNat 20 tile.val))
  | .accout h a dest scale => some { baseFields h 8 0x04 with a := a.code, b := dest.code, c := scale.code }
  | .rsvop h r d b => some ({ baseFields h 8 0x05 with sub := BitVec.ofNat 5 r.val, d := d.code }.withSrc b)
  | .rlsop h r => some { baseFields h 8 0x06 with sub := BitVec.ofNat 5 r.val }
  | .ldscl h r base n => some ({ baseFields h 8 0x07 with sub := BitVec.ofNat 5 r.val, a := base.code }.withImm n)
  -- Table 19.6
  | .copy h base n => some ({ baseFields h 9 0x00 with a := base.code }.withSrc n)
  | .copyl h nopres dst src (.reg n) wp =>
      some { baseFields h 9 0x01 with
          sub := BitVec.ofNat 5 (if nopres then 1 else 0), d := dst.code, a := src.code,
          b := n.code, c := wp.code }
  | .copyl h nopres dst src (.imm x) _ =>
      some ({ baseFields h 9 0x01 with
          sub := BitVec.ofNat 5 (if nopres then 1 else 0), d := dst.code,
          a := src.code }.withImm x)
  | .coll h base => some { baseFields h 9 0x02 with a := base.code }
  | .cstat h d => some { baseFields h 9 0x03 with d := d.code }
  -- Table 19.8
  | .dreg h d base => some { baseFields h 10 0x00 with d := d.code, a := base.code }
  | .dunreg h d b => some ({ baseFields h 10 0x01 with d := d.code }.withSrc b)
  | .dstat h d b => some ({ baseFields h 10 0x02 with d := d.code }.withSrc b)
  | .dfresh h b => some ((baseFields h 10 0x03).withSrc b)
  -- Table 19.9
  | .trap h x => some ((baseFields h 11 0x00).withImm x)
  | .svc h d base b => some ({ baseFields h 11 0x01 with d := d.code, a := base.code }.withSrc b)
  | .svcPark h d base b => some ({ baseFields h 11 0x01 with sub := 1, d := d.code, a := base.code }.withSrc b)
  | .csrr h d b => some ({ baseFields h 11 0x02 with d := d.code }.withSrc b)
  | .csrw h a b => some ({ baseFields h 11 0x03 with a := a.code }.withSrc b)
  | .rtt h => some (baseFields h 11 0x04)
  | .launch h d base b => some ({ baseFields h 11 0x05 with d := d.code, a := base.code }.withSrc b)
  | .gate h => some (baseFields h 11 0x06)
  | .release h => some (baseFields h 11 0x07)
  | .savectx h part base => some { baseFields h 11 0x08 with sub := BitVec.ofNat 5 part.code, a := base.code }
  | .loadctx h part base => some { baseFields h 11 0x09 with sub := BitVec.ofNat 5 part.code, a := base.code }
  -- Events have no encoding
  | .hazardClear .. | .bundleRebuild .. | .starvationBound .. | .unitRefill .. | .readbackComplete ..
  | .plainLoad .. | .plainStore .. | .roLoad .. | .windowAdd .. | .windowMax .. | .windowMin ..
  | .windowOr .. | .windowAnd .. | .castDelivery .. | .enq .. | .deq .. | .take .. | .count .. | .await ..
  | .awaitLimitExpiry .. | .agentHoldLimitExpiry .. | .parkReport .. | .loadCompletion .. | .cvwaitTimeout ..
  | .wpwaitTimeout .. | .sleepExpiry .. | .operandReadCompletion .. | .mmaCompletion ..
  | .engineCounterFall .. | .copyChunkLanding .. | .copyCompletion .. | .waypointUpdate .. | .collDelivery ..
  | .collTimeout .. | .staleMark .. | .markAck .. | .derivedLoad .. | .recomputeStart .. | .recomputeEnd ..
  | .derivedWriteDrop .. | .handlerEntry .. | .preempt .. | .eviction .. | .restore .. | .troupeRetire ..
  | .companyPlacement .. | .preemptRaise .. | .gateOpen .. | .deterministicMilestone .. | .callboardPlace ..
  | .callboardTimer .. | .prompterWake .. | .slotReread .. | .packetNop .. | .runPacket .. | .waitPacket ..
  | .waitConditionMet .. | .signal .. | .indirect .. | .svcDone .. | .qmapEnable .. | .qmapDisable ..
  | .registerStagedWrite .. | .registerWrite .. | .hwakeEnable .. | .errcntClear .. | .counterClear ..
  | .timeset .. | .xinv .. | .xinvComplete | .xrespRetry .. | .xrespFail .. | .regionTableWrite ..
  | .regionMoveSet .. | .retryAfterExpiry .. | .remoteRefusalTimeout .. | .deviceTranslationFault ..
  | .faultReportRetry .. | .faultTimeout .. | .atsTranslationCompletion .. | .priPageResponse ..
  | .pageRequestTimeout .. | .atsInvalidationRequest .. | .translationFailure .. | .windowApertureRequest ..
  | .completionTimeout .. | .skasonRemoteAccess .. | .skasonForward .. | .linkDown .. | .linkAckTimeout ..
  | .timeMessage .. | .coldReset | .functionLevelReset | .wipeComplete | .eccError .. | .getVersion
  | .getCapabilities | .negotiateAlgorithms .. | .getDigests | .getCertificate .. | .challenge ..
  | .getMeasurements .. | .ownerChange | .firmwareImage .. | .setPowerLimit .. | .powerAverage ..
  | .thermalTrip .. | .linkTrained .. | .functionReady .. => none

/-! ### Which field values and operand kinds an instruction admits (R151-R155, R164-R167, the encoding tables) -/

/-- What one operand position admits. -/
inductive Kind where
  | unused                     -- must hold 0x3FF (R152)
  | imm                        -- holds part of the immediate (R153)
  | reg (v s p sp rz : Bool)   -- the kinds admitted
        (even : Bool)          -- must name an even register (R89)
        (n : Nat)              -- registers it stands for
        (wide : Bool)          -- a 64-bit source: of the special operands only %timelo (R151)
  deriving DecidableEq, Repr

/-- Kinds of D, A, B and C. -/
structure Kinds where
  d : Kind
  a : Kind
  b : Kind
  c : Kind
  deriving DecidableEq, Repr

/-- "v, s" as a source of chapters 15 and 19: v, s, rz, a special operand (R182, R263).
DEDUCED, log 30. -/
def kSrc : Kind := .reg true true false true true false 1 false
/-- The same at a TYPE that may be 64-bit: then a pair. -/
def kSrcW (w : Bool) : Kind := if w then .reg true true false true true true 2 true else kSrc
/-- "v, s" as a destination of chapters 15 and 19. -/
def kDst : Kind := .reg true true false false true false 1 false
def kDstW (w : Bool) : Kind := if w then .reg true true false false true true 2 false else kDst
/-- "p". -/
def kPred : Kind := .reg false false true false false false 1 false
/-- A v, s, p or rz destination. -/
def kDstP : Kind := .reg true true true false true false 1 false
/-- "v, s, rz" of chapter 17, where special operands are not listed. -/
def kLit : Kind := .reg true true false false true false 1 false
def kLitW (w : Bool) : Kind := if w then .reg true true false false true true 2 false else kLit
/-- "v, s" of chapter 17, where rz is not listed. -/
def kBare : Kind := .reg true true false false false false 1 false
def kBareW (w : Bool) : Kind := if w then .reg true true false false false true 2 false else kBare
/-- An address pair: an even v or s register (R224). -/
def kBase : Kind := .reg true true false false false true 2 false
/-- A pair or rz. -/
def kPairRz : Kind := .reg true true false false true true 2 false
/-- A v register. -/
def kVec (w : Bool) : Kind := .reg true false false false false w (if w then 2 else 1) false
/-- A block of n consecutive registers, or rz (R211, R234). -/
def kBlock (even : Bool) (n : Nat) : Kind := .reg true true false false true even n false
/-- Four consecutive s registers (R263, R276). -/
def kSBlock : Kind := .reg false true false false false false 4 false

/-- How an instruction takes an immediate. -/
inductive ImmRule where
  | no                    -- I = 1 traps ILLOP
  | opt (bits : Nat)      -- either form; the immediate's bits from `bits` up are zero
  | always (bits : Nat)   -- I = 0 traps ILLOP
  deriving DecidableEq, Repr

def Fields.immBits (f : Fields) : Imm := f.c ++ f.b

def Fields.wide (f : Fields) : Bool := f.ty.toNat == 2 || f.ty.toNat == 3

/-- One row of an encoding table: `ok` says whether TYPE, MODA, MODB and SUB are admitted. None is ILLOP (R167 step 4). -/
def row (f : Fields) (ok : Bool) (r : ImmRule) (kd ka kb kc : Kind) : Option Kinds :=
  let isImm := f.i == 1#1
  let immOk := match r with
    | .no          => !isImm
    | .opt bits    => !isImm || f.immBits.toNat < 2 ^ bits
    | .always bits => isImm && f.immBits.toNat < 2 ^ bits
  let ks : Kinds := if isImm then ⟨kd, ka, .imm, .imm⟩ else ⟨kd, ka, kb, kc⟩
  let unusedOk (k : Kind) (x : BitVec 10) : Bool := k != .unused || x == 0x3FF#10
  if ok && immOk && unusedOk ks.d f.d && unusedOk ks.a f.a && unusedOk ks.b f.b && unusedOk ks.c f.c
  then some ks else none

/-- MODA, MODB and SUB all zero. -/
def Fields.plainMods (f : Fields) : Bool := f.moda == 0 && f.modb == 0 && f.sub == 0
/-- INT: MODA 0, MODB `.wrap` or `.sat`, SUB 0. -/
def Fields.satMods (f : Fields) : Bool := f.moda == 0 && f.modb.toNat < 2 && f.sub == 0
/-- FP: MODA up to `top`, MODB sat and ftz. -/
def Fields.fpMods (f : Fields) (top : Nat) : Bool := f.moda.toNat ≤ top && f.modb.toNat < 4
/-- "ftz only". -/
def Fields.ftzOnly (f : Fields) : Bool := f.modb == 0 || f.modb == 2
/-- TYPE in lo to hi. -/
def Fields.tyIn (f : Fields) (lo hi : Nat) : Bool := lo ≤ f.ty.toNat && f.ty.toNat ≤ hi
/-- The FP immediate (Table 13.6): f32 any, f16 and bf16 16 bits, packed types none. -/
def Fields.fpImm (f : Fields) : ImmRule :=
  if f.ty.toNat = 8 then .opt 20 else if f.ty.toNat < 11 then .opt 16 else .no
/-- Scope in MODB with an ordering modifier, else 0 (R226, R239). -/
def Fields.scopeOk (f : Fields) (ordered : Bool) : Bool := if ordered then f.modb.toNat ≤ 4 else f.modb == 0
def Fields.ldMods (f : Fields) : Bool := f.moda.toNat ≤ 2 && f.scopeOk (f.moda == 1)
def Fields.stMods (f : Fields) : Bool := f.moda.toNat ≤ 1 && f.scopeOk (f.moda == 1)
def Fields.noTy (f : Fields) : Bool := f.ty == 0

/-- INT rows (Tables 15.1, 15.2, 15.4, 15.6). MOVI's D may be rz in both forms, and LEA's A %timelo.
DEDUCED, log 31, 150. -/
def formInt (f : Fields) : Option Kinds :=
  let w := f.wide
  let s := kSrcW w
  let d := kDstW w
  match f.op.toNat with
  | 0x00 | 0x01 | 0x02 => row f (f.tyIn 0 7 && f.satMods) (.opt 20) d s s .unused
  | 0x03 | 0x06 => row f (f.tyIn 0 3 && f.plainMods) (.opt 20) d s s .unused
  | 0x04 => row f (f.tyIn 0 3 && f.satMods) .no d s s s
  | 0x05 => row f (f.tyIn 0 3 && f.satMods) (.opt 20) d s s .unused
  | 0x07 | 0x08 => row f (f.tyIn 0 7 && f.plainMods) (.opt 20) d s s .unused
  | 0x09 | 0x0A => row f (f.tyIn 0 7 && f.ty.toNat % 2 == 0 && f.satMods) .no d s .unused .unused
  | 0x0B | 0x0C | 0x0D => row f (f.tyIn 0 3 && f.plainMods) (.opt 20) d s s .unused
  | 0x0E => row f (f.tyIn 0 3 && f.plainMods) .no d s .unused .unused
  | 0x0F | 0x10 | 0x11 => row f (f.tyIn 0 3 && f.plainMods) (.opt 8) d s kSrc .unused
  | 0x12 => row f (f.tyIn 0 1 && f.plainMods) (.opt 16) kDst kSrc kSrc .unused
  | 0x13 => row f (f.tyIn 0 1 && f.plainMods) .no kDst kSrc kSrc kSrc
  | 0x14 | 0x15 => row f (f.tyIn 0 3 && f.plainMods) .no kDst s .unused .unused
  | 0x16 => row f (f.tyIn 0 3 && f.plainMods) .no d s .unused .unused
  | 0x17 =>
      let comb := f.sub.toNat / 8
      row f (f.tyIn 0 7 && f.moda == 0 && f.modb == 0 && f.sub.toNat % 8 < 6)
        (if comb = 0 then .opt 20 else .no) kPred s s (if comb = 0 then .unused else kPred)
  | 0x18 => row f (f.tyIn 0 3 && f.plainMods) .no d s s kPred
  | 0x19 =>
      let k : Kind := .reg true true (!w) false true w (if w then 2 else 1) false
      let ks : Kind := .reg true true (!w) true true w (if w then 2 else 1) w
      row f (f.tyIn 0 3 && f.plainMods) .no k ks .unused .unused
  | 0x1A => row f (f.sub.toNat < 2) (.always 20) (if f.sub == 0 then kDst else kPairRz) .unused .unused .unused
  | 0x1B =>
      row f (f.tyIn 0 1 && f.moda == 0 && f.modb == 0 && f.sub.toNat < 8) (.opt 20) kPairRz
        (if f.sub.toNat < 4 then kSrcW true else .unused) kSrc .unused
  | 0x1C => row f (f.noTy && f.sub == 0) .no kPred kPred kPred kPred
  | 0x1D =>
      if f.sub == 0 then row f (f.noTy && f.plainMods) .no kDst .unused .unused .unused
      else row f (f.noTy && f.moda == 0 && f.modb == 0 && f.sub == 1) (.opt 7) .unused kSrc kSrc .unused
  | 0x1E => row f (f.noTy && f.plainMods) (.opt 16) kDst kSrc kSrc kSrc
  | _ => none

/-- FP rows (Table 15.7). -/
def formFp (f : Fields) : Option Kinds :=
  match f.op.toNat with
  | 0x00 | 0x01 | 0x02 => row f (f.tyIn 8 12 && f.fpMods 5 && f.sub == 0) f.fpImm kDst kSrc kSrc .unused
  | 0x03 => row f (f.tyIn 8 12 && f.fpMods 5 && f.sub == 0) .no kDst kSrc kSrc kSrc
  | 0x04 | 0x05 => row f (f.tyIn 8 12 && f.moda == 0 && f.ftzOnly && f.sub == 0) f.fpImm kDst kSrc kSrc .unused
  | 0x06 | 0x07 => row f (f.tyIn 8 12 && f.moda == 0 && f.ftzOnly && f.sub == 0) .no kDst kSrc .unused .unused
  | 0x08 =>
      let comb := f.sub.toNat / 8
      row f (f.tyIn 8 10 && f.moda == 0 && f.ftzOnly) (if comb = 0 then f.fpImm else .no)
        kPred kSrc kSrc (if comb = 0 then .unused else kPred)
  | 0x09 | 0x0A | 0x0B => row f (f.tyIn 8 8 && f.fpMods 4 && f.sub == 0) .no kDst kSrc .unused .unused
  | 0x0C => row f (f.tyIn 8 8 && f.fpMods 4 && f.sub == 0) f.fpImm kDst kSrc kSrc .unused
  | 0x0D | 0x0E | 0x0F | 0x10 | 0x11 => row f (f.tyIn 8 8 && f.fpMods 4 && f.sub == 0) .no kDst kSrc .unused .unused
  | 0x12 => row f (f.tyIn 8 10 && f.plainMods) .no kDst kSrc .unused .unused
  | 0x13 => row f (f.tyIn 8 10 && f.moda.toNat ≤ 4 && f.ftzOnly && f.sub == 0) .no kDst kSrc .unused .unused
  | _ => none

/-- Elements of a packed TYPE (R92). -/
def packCount (ty : Nat) : Nat := if ty ≤ 12 then 2 else if ty = 15 then 8 else 4

/-- CVT rows (Tables 15.8, 15.9, 15.10). -/
def formCvt (f : Fields) : Option Kinds :=
  let sc := f.sub.toNat % 2 == 1
  match f.op.toNat with
  | 0x00 =>
      let intInt := f.ty.toNat < 8 && f.sub.toNat < 8
      row f (f.tyIn 0 10 && f.sub.toNat ≤ 10 &&
          (if intInt then f.moda == 0 && f.modb.toNat < 2 else f.fpMods 5)) .no
        (kDstW f.wide) (kSrcW (f.sub.toNat == 2 || f.sub.toNat == 3)) .unused .unused
  | 0x01 =>
      row f (f.tyIn 11 15 && f.fpMods 5 && f.sub.toNat < 2 && (!sc || f.tyIn 13 15)) (if sc then .opt 8 else .no)
        kDst (kBlock false (packCount f.ty.toNat)) (if sc then kSrc else .unused) .unused
  | 0x02 =>
      row f (f.tyIn 11 15 && f.moda == 0 && f.modb.toNat < 2 && f.sub.toNat < 2 && (!sc || f.tyIn 13 15))
        (if sc then .opt 8 else .no)
        (kBlock false (packCount f.ty.toNat)) kSrc (if sc then kSrc else .unused) .unused
  | 0x03 => row f (f.tyIn 11 12 && f.fpMods 5 && f.sub == 0) .no kDst kSrc kSrc kSrc
  | 0x04 =>
      let int := f.ty.toNat < 8
      row f ((f.tyIn 6 7 || f.tyIn 13 14) && f.sub.toNat < 4 &&
          (if int then f.moda == 0 && f.modb.toNat < 2 && !sc else f.fpMods 5)) .no
        kDst kSrc kSrc (if sc then kPairRz else kSrc)
  | 0x05 => row f (f.tyIn 15 15 && f.fpMods 5 && f.sub.toNat < 2) .no kDst kSrc kSrc (if sc then kPairRz else kSrc)
  | 0x06 =>
      if f.sub == 0 then row f (f.tyIn 8 8 && f.fpMods 4) (.opt 20) kDst kSrc kSrc .unused
      else row f (f.tyIn 8 8 && f.moda == 0 && f.modb == 0 && f.sub.toNat < 4) .no kDst kSrc .unused .unused
  | 0x07 => row f ((f.tyIn 8 8 || f.tyIn 11 14) && f.plainMods) .no kDst kSrc kSrc .unused
  | 0x08 => row f (f.tyIn 1 1 && f.plainMods) .no .unused kSrc .unused .unused
  | _ => none

/-- SIG rows (Table 15.11). A pair may be rz.
DEDUCED, log 151. -/
def formSig (f : Fields) : Option Kinds :=
  match f.op.toNat with
  | 0x00 => row f (f.tyIn 8 8 && f.fpMods 4 && f.sub == 0) .no (kBlock true 4) kPairRz kPairRz kPairRz
  | 0x01 => row f (f.tyIn 8 8 && f.fpMods 4 && f.sub.toNat < 2) .no kPairRz kPairRz kPairRz .unused
  | 0x02 => if f.i == 1 && f.immBits.toNat > 16 then none
            else row f (f.tyIn 8 8 && f.plainMods) (.opt 5) kPairRz kSrc kSrc .unused
  | _ => none

/-- MEM rows (Table 17.2). -/
def formMem (f : Fields) : Option Kinds :=
  let w := f.wide
  let even : Nat → Kind := fun n => kBlock true n
  match f.op.toNat with
  | 0x00 => row f (f.tyIn 0 7 && f.ldMods && f.sub == 0) (.opt 20) (kBareW w) kBase kLit .unused
  | 0x01 => row f (f.tyIn 0 7 && f.stMods && f.sub == 0) (.opt 20) (kLitW w) kBase kLit .unused
  | 0x02 => row f (f.tyIn 1 1 && f.ldMods && f.sub.toNat < 4) (.opt 20) (even (2 <<< f.sub.toNat)) kBase kLit .unused
  | 0x03 => row f (f.tyIn 1 1 && f.stMods && f.sub.toNat < 4) (.opt 20) (even (2 <<< f.sub.toNat)) kBase kLit .unused
  | 0x04 => row f (f.tyIn 0 7 && f.ldMods && f.sub == 0) (.opt 20)
              (.reg false true false false true w (if w then 2 else 1) false) kBase kLit .unused
  | 0x05 => row f (f.tyIn 0 7 && f.stMods && f.sub == 0) (.opt 20) (kLitW w) kBase kLit .unused
  | 0x06 => row f (f.tyIn 1 1 && f.plainMods) (.opt 20) kBare kBase kLit .unused
  | _ => none

/-- ATM rows (Tables 17.5, 17.6). -/
def formAtm (f : Fields) : Option Kinds :=
  let w := f.wide
  let op := f.sub.toNat
  let bitwise := 3 ≤ op && op ≤ 5
  match f.op.toNat with
  | 0x00 => row f ((f.tyIn 0 3 || f.tyIn 8 8) && (f.moda.toNat ≤ 1 || f.moda == 3 || f.moda == 4) &&
              f.scopeOk (f.moda != 0) && op < 8 && !(f.ty.toNat == 8 && bitwise)) .no
              (kLitW w) kBase (kBareW w) (if op = 7 then kBareW w else .unused)
  | 0x01 => row f ((f.tyIn 0 3 || f.tyIn 8 8 || f.tyIn 12 12) && f.moda.toNat ≤ 1 && f.scopeOk (f.moda != 0) &&
              op < 6 && !(f.ty.toNat ≥ 8 && bitwise)) (.opt 20) (kBareW w) kBase kLit .unused
  | 0x02 => row f ((f.tyIn 1 1 || f.tyIn 3 3) && f.moda.toNat ≤ 1 && f.scopeOk (f.moda != 0) && f.sub == 0) .no
              kPairRz kBase (kBareW w) .unused
  | 0x03 => row f (f.tyIn 3 3 && f.moda.toNat ≤ 1 && f.scopeOk (f.moda != 0) && f.sub == 0) (.opt 20)
              kBase kBase kLit .unused
  | _ => none

/-- SYNC rows (R238, R244, Table 17.7). -/
def formSync (f : Fields) : Option Kinds :=
  let j := f.sub.toNat < 24
  match f.op.toNat with
  | 0x00 => row f (f.noTy && f.moda == 0 && f.modb.toNat ≤ 4 && f.sub.toNat < 3) .no .unused .unused .unused .unused
  | 0x01 => row f (f.noTy && f.moda == 0 && f.modb == 0 && f.sub.toNat < 5) (.always 6) .unused .unused .unused .unused
  | 0x02 =>
      if f.moda == 0 then row f (f.noTy && f.modb == 0 && j) (.opt 13) .unused .unused kBare .unused
      else row f (f.noTy && f.moda == 1 && f.modb == 0 && j) .no .unused .unused .unused .unused
  | 0x03 | 0x05 => row f (f.noTy && f.moda == 0 && f.modb == 0 && j) .no kDstP .unused .unused .unused
  | 0x04 => row f (f.noTy && f.moda == 0 && f.modb == 0 && j) .no .unused .unused .unused .unused
  | 0x06 => row f (f.noTy && f.plainMods) .no .unused kBase kLit kLit
  | 0x07 => row f (f.noTy && f.moda == 0 && f.modb == 0 && f.sub.toNat < 2) (.opt 20) .unused kBase kLit .unused
  | 0x08 => row f (f.noTy && f.plainMods) .no kDstP kBase kLit kLit
  | _ => none

/-- CTL rows (Table 17.8). -/
def formCtl (f : Fields) : Option Kinds :=
  let z := f.noTy && f.moda == 0 && f.modb == 0
  let z0 := z && f.sub == 0
  match f.op.toNat with
  | 0x00 | 0x02 | 0x0A => row f z0 (.always 20) .unused .unused .unused .unused
  | 0x01 | 0x03 => row f z0 .no .unused kBare .unused .unused
  | 0x04 | 0x07 | 0x08 | 0x09 => row f z0 .no .unused .unused .unused .unused
  | 0x05 => row f (z && f.sub.toNat < 16) .no .unused .unused .unused .unused
  | 0x06 => row f (z && f.sub.toNat < 8) (.opt 20) kDstP .unused kLit .unused
  | 0x0B => row f z0 (.opt 20) .unused .unused kBare .unused
  | _ => none

/-- XCH rows (Table 19.1). -/
def formXch (f : Fields) : Option Kinds :=
  let w := f.wide
  let sc := f.sub.toNat % 4
  let k := f.sub.toNat / 4
  let m := f.moda == 0 && f.modb == 0
  match f.op.toNat with
  | 0x00 => row f (f.tyIn 0 3 && m && f.sub == 0) (.opt 8) (kVec w) (kSrcW w) kSrc .unused
  | 0x01 => row f (f.tyIn 0 3 && m && f.sub.toNat < 4) (.opt 5) (kVec w) (kSrcW w) kSrc .unused
  | 0x02 => row f (f.noTy && m && sc < 3 && k < 4) .no (if k = 2 then kDst else kPred) kPred .unused .unused
  | 0x03 => row f ((f.tyIn 0 3 || f.tyIn 8 8) && m && sc < 3 && k < 6 && !(f.ty.toNat == 8 && k > 2)) .no
              (kDstW w) (kSrcW w) .unused .unused
  | 0x04 => row f ((f.tyIn 0 3 || f.tyIn 8 8) && f.moda.toNat ≤ 1 && f.modb == 0 && sc < 3 && k < 6 &&
              !(f.ty.toNat == 8 && k > 2)) .no (kVec w) (kSrcW w) .unused .unused
  | 0x05 => row f (f.tyIn 0 3 && m && sc < 3 && k == 0) .no kDst (kSrcW w) .unused .unused
  | 0x06 => row f (f.noTy && m && f.sub == 0) .no kPred .unused .unused .unused
  | 0x07 => row f (f.tyIn 0 3 && m && f.sub == 0) (.opt 5)
              (.reg false true false false false w (if w then 2 else 1) false) (kVec w) kSrc .unused
  | _ => none

/-- MMA rows (Table 19.3). -/
def formMma (f : Fields) : Option Kinds :=
  let z := f.noTy && f.moda == 0 && f.modb == 0
  let r := f.sub.toNat < 15
  match f.op.toNat with
  | 0x00 => row f (z && f.sub == 0) .no .unused kSBlock .unused .unused
  | 0x01 | 0x02 => row f (z && f.sub == 0) (.always 6) .unused kBase .unused .unused
  | 0x03 => row f (z && f.sub == 0) (.always 6) .unused .unused .unused .unused
  | 0x04 => row f (z && f.sub == 0) .no .unused kSBlock kBase kPairRz
  | 0x05 => row f (z && r) (.opt 20) kDstP .unused kSrc .unused
  | 0x06 => row f (z && r) .no .unused .unused .unused .unused
  | 0x07 => row f (z && r) (.always 20) .unused kBase .unused .unused
  | _ => none

/-- COPY, TNS and SYS rows (Tables 19.6, 19.8, 19.9). An immediate count of COPY is 1 to 16.
DEDUCED, log 130. -/
def formCopy (f : Fields) : Option Kinds :=
  let z := f.noTy && f.moda == 0 && f.modb == 0
  match f.op.toNat with
  | 0x00 =>
      row f (z && f.sub == 0 && (f.i != 1#1 || (1 ≤ f.immBits.toNat && f.immBits.toNat ≤ 16))) (.opt 5) .unused kBase kSrc .unused
  | 0x01 => row f (z && f.sub.toNat < 2) (.opt 20) kBase kBase kSrc kPairRz
  | 0x02 => row f (z && f.sub == 0) .no .unused kBase .unused .unused
  | 0x03 => row f (z && f.sub == 0) .no kDst .unused .unused .unused
  | _ => none

def formTns (f : Fields) : Option Kinds :=
  let z := f.noTy && f.plainMods
  match f.op.toNat with
  | 0x00 => row f z .no kDst kBase .unused .unused
  | 0x01 => row f z (.opt 7) kDstP .unused kSrc .unused
  | 0x02 => row f z (.opt 7) kDst .unused kSrc .unused
  | 0x03 => row f z (.opt 7) .unused .unused kSrc .unused
  | _ => none

def formSys (f : Fields) : Option Kinds :=
  let z := f.noTy && f.moda == 0 && f.modb == 0
  let z0 := z && f.sub == 0
  match f.op.toNat with
  | 0x00 => row f z0 (.always 20) .unused .unused .unused .unused
  | 0x01 => row f (z && f.sub.toNat < 2) (.opt 16) kPairRz kBase kSrc .unused
  | 0x02 => row f z0 (.opt 12) kDst .unused kSrc .unused
  | 0x03 => row f z0 (.opt 12) .unused kSrc kSrc .unused
  | 0x04 | 0x06 | 0x07 => row f z0 .no .unused .unused .unused .unused
  | 0x05 => row f z0 (.opt 5) kDstP kBase kSrc .unused
  | 0x08 | 0x09 => row f (z && f.sub.toNat < 3) .no .unused kBase .unused .unused
  | _ => none

/-- Step 4 of R167: the kinds of the operands, or none for ILLOP. -/
def form (f : Fields) : Option Kinds :=
  match f.cls.toNat with
  | 0 => formInt f
  | 1 => formFp f
  | 2 => formCvt f
  | 3 => formCtl f
  | 4 => formMem f
  | 5 => formAtm f
  | 6 => formSync f
  | 7 => formXch f
  | 8 => formMma f
  | 9 => formCopy f
  | 10 => formTns f
  | 11 => formSys f
  | 12 => formSig f
  | _ => none

/-- The opcode map (Table 13.11): is the op assigned in its class? -/
def assigned (f : Fields) : Bool :=
  let top := match f.cls.toNat with
    | 0 => 0x1F | 1 => 0x14 | 2 => 9 | 3 => 12 | 4 => 7 | 5 => 4 | 6 => 9 | 7 => 8 | 8 => 8 | 9 => 4 | 10 => 4
    | 11 => 10 | 12 => 3 | _ => 0
  f.op.toNat < top

/-- Step 3 of R167, what the word alone shows: SEL 11, a flag field 12-14, R157's fields of a CS = 0 instruction. -/
def hintBad (f : Fields) : Bool :=
  f.sel == 3 || (12 ≤ f.flga.toNat && f.flga.toNat < 15) || (12 ≤ f.flgb.toNat && f.flgb.toNat < 15) ||
  (f.cs == 0 && (f.wait != 0 || f.flga != 15 || f.flgb != 15))

/-- Does an operand code fit a kind, with `regs` vector registers declared (R151)? -/
def codeOk (regs : Nat) (k : Kind) (x : BitVec 10) : Bool :=
  match k with
  | .unused | .imm => true
  | .reg v s p sp rz even n wide =>
    match Opd.ofCode x with
    | none => false
    | some (.v r) => v && r.val + n ≤ regs && (!even || r.val % 2 == 0)
    | some (.s r) => s && r.val + n ≤ 160 && (!even || r.val % 2 == 0)
    | some (.p _) => p
    | some (.sp j) => sp && (!wide || j.val == 11)
    | some .rz => rz

/-- Step 5 of R167: the first operand code, in the order D, A, B, C, that breaks R151. -/
def firstBad (regs : Nat) (f : Fields) (k : Kinds) : Option (BitVec 10) :=
  if !codeOk regs k.d f.d then some f.d
  else if !codeOk regs k.a f.a then some f.a
  else if !codeOk regs k.b f.b then some f.b
  else if !codeOk regs k.c f.c then some f.c
  else none

/-! ### Reading the fields back -/

def hdrOf (f : Fields) : Hdr where
  pred := ⟨f.pred.toNat, by have := f.pred.isLt; omega⟩
  neg := f.neg == 1
  cs := f.cs == 1
  yld := f.yld == 1
  sel := Sel.ofCode f.sel
  flga := flagOf f.flga
  flgb := flagOf f.flgb
  wait := f.wait

/-- The operand of a code that has passed step 5. -/
def opd (x : BitVec 10) : Opd := (Opd.ofCode x).getD .rz
def srcOf (f : Fields) : Src := if f.i == 1 then .imm f.immBits else .reg (opd f.b)
def fmodOf (f : Fields) : FMod := ⟨Rnd.ofCode f.moda, f.modb.getLsbD 0, f.modb.getLsbD 1⟩
def satOf (f : Fields) : Bool := f.modb.getLsbD 0
def ftzOf (f : Fields) : Bool := f.modb.getLsbD 1
def ldOf (f : Fields) : LdMod :=
  match f.moda.toNat with
  | 0 => .plain | 1 => .acq (Scope.ofCode f.modb) | _ => .vol
def stOf (f : Fields) : StMod := if f.moda == 0 then .plain else .rel (Scope.ofCode f.modb)
def atOf (f : Fields) : AtMod :=
  match f.moda.toNat with
  | 0 => .plain | 1 => .acq (Scope.ofCode f.modb) | 3 => .rel (Scope.ofCode f.modb) | _ => .ar (Scope.ofCode f.modb)
def cmpOf (f : Fields) : CmpSrc :=
  if f.sub.toNat / 8 = 0 then .plain (srcOf f) else .comb (Comb.ofCode (f.sub.toNat / 8)) (opd f.b) (opd f.c)
def scOf (f : Fields) : Option Src := if f.sub.getLsbD 0 then some (srcOf f) else none
/-- The 32-bit immediate of MOVI (R154). -/
def moviImm (f : Fields) : Word := f.modb ++ f.moda ++ f.ty ++ f.c ++ f.b
def fin4 (n : Nat) : Fin 4 := ⟨n % 4, Nat.mod_lt _ (by decide)⟩
def fin8 (n : Nat) : Fin 8 := ⟨n % 8, Nat.mod_lt _ (by decide)⟩
def fin15 (n : Nat) : Fin 15 := ⟨n % 15, Nat.mod_lt _ (by decide)⟩
def fin24 (n : Nat) : Fin 24 := ⟨n % 24, Nat.mod_lt _ (by decide)⟩
def fin64 (n : Nat) : Fin 64 := ⟨n % 64, Nat.mod_lt _ (by decide)⟩

def buildInt (f : Fields) (h : Hdr) (ty : Ty) (d a : Opd) : Option Instr :=
  let b := srcOf f
  let rb := opd f.b
  let rc := opd f.c
  match f.op.toNat with
  | 0x00 => some (.iadd h ty (satOf f) d a b)
  | 0x01 => some (.isub h ty (satOf f) d a b)
  | 0x02 => some (.imul h ty (satOf f) d a b)
  | 0x03 => some (.imulh h ty d a b)
  | 0x04 => some (.imad h ty (satOf f) d a rb rc)
  | 0x05 => some (.idiv h ty (satOf f) d a b)
  | 0x06 => some (.irem h ty d a b)
  | 0x07 => some (.imin h ty d a b)
  | 0x08 => some (.imax h ty d a b)
  | 0x09 => some (.iabs h ty (satOf f) d a)
  | 0x0A => some (.ineg h ty (satOf f) d a)
  | 0x0B => some (.and h ty d a b)
  | 0x0C => some (.or h ty d a b)
  | 0x0D => some (.xor h ty d a b)
  | 0x0E => some (.not h ty d a)
  | 0x0F => some (.shl h ty d a b)
  | 0x10 => some (.shr h ty d a b)
  | 0x11 => some (.rotl h ty d a b)
  | 0x12 => some (.bfe h ty d a b)
  | 0x13 => some (.bfi h ty d a rb rc)
  | 0x14 => some (.popc h ty d a)
  | 0x15 => some (.clz h ty d a)
  | 0x16 => some (.brev h ty d a)
  | 0x17 => some (.icmp h (Cond.ofCode (f.sub.toNat % 8)) ty d a (cmpOf f))
  | 0x18 => some (.sel h ty d a rb rc)
  | 0x19 => some (.mov h ty d a)
  | 0x1A => some (if f.sub == 0 then .movi h d (moviImm f) else .moviHi h d (moviImm f))
  | 0x1B => some (if f.sub.toNat < 4 then .lea h ty (fin4 f.sub.toNat) d a b else .leaCode h ty (fin4 f.sub.toNat) d b)
  | 0x1C => some (.plop h (f.modb ++ f.moda) d a rb rc)
  | 0x1D => some (if f.sub == 0 then .pmovGet h d else .pmovSet h a b)
  | 0x1E => some (.prmt h d a (if f.i == 1 then .imm f.immBits else .reg rb rc))
  | _ => none

def buildFp (f : Fields) (h : Hdr) (ty : Ty) (d a : Opd) : Option Instr :=
  let b := srcOf f
  let m := fmodOf f
  match f.op.toNat with
  | 0x00 => some (.fadd h ty m d a b)
  | 0x01 => some (.fsub h ty m d a b)
  | 0x02 => some (.fmul h ty m d a b)
  | 0x03 => some (.ffma h ty m d a (opd f.b) (opd f.c))
  | 0x04 => some (.fmin h ty m.ftz d a b)
  | 0x05 => some (.fmax h ty m.ftz d a b)
  | 0x06 => some (.fabs h ty m.ftz d a)
  | 0x07 => some (.fneg h ty m.ftz d a)
  | 0x08 => some (.fcmp h (Cond.ofCode (f.sub.toNat % 8)) ty m.ftz d a (cmpOf f))
  | 0x09 => some (.frcp h m d a)
  | 0x0A => some (.frsq h m d a)
  | 0x0B => some (.fsqrt h m d a)
  | 0x0C => some (.fdiv h m d a b)
  | 0x0D => some (.fexp2 h m d a)
  | 0x0E => some (.flog2 h m d a)
  | 0x0F => some (.fsin h m d a)
  | 0x10 => some (.fcos h m d a)
  | 0x11 => some (.ftanh h m d a)
  | 0x12 => some (.fclass h ty d a)
  | 0x13 => some (.frint h ty m.rnd m.ftz d a)
  | _ => none

def buildCvt (f : Fields) (h : Hdr) (ty : Ty) (d a : Opd) : Option Instr :=
  let b := srcOf f
  let m := fmodOf f
  let sc := f.sub.getLsbD 0
  match f.op.toNat with
  | 0x00 => some (.cvt h (Ty.ofCode (f.sub.setWidth 4)) ty m d a)
  | 0x01 => some (.pack h ty m d a (scOf f))
  | 0x02 => some (.unpack h ty m.sat d a (scOf f))
  | 0x03 => some (.dot2 h ty m d a (opd f.b) (opd f.c))
  | 0x04 => some (.dot4 h ty sc (f.sub.getLsbD 1) m d a (opd f.b) (opd f.c))
  | 0x05 => some (.dot8 h sc m d a (opd f.b) (opd f.c))
  | 0x06 => some (if f.sub == 0 then .scaleApply h m d a b else .scaleMx h (MxFmt.ofCode f.sub.toNat) d a)
  | 0x07 => some (.amax h ty d a (opd f.b))
  | 0x08 => some (.srseed h a)
  | _ => none

def buildSig (f : Fields) (h : Hdr) (d a : Opd) : Option Instr :=
  match f.op.toNat with
  | 0x00 => some (.cbfly h (fmodOf f) d a (opd f.b) (opd f.c))
  | 0x01 => some (.cmul h (f.sub.getLsbD 0) (fmodOf f) d a (opd f.b))
  | 0x02 => some (.twid h d a (srcOf f))
  | _ => none

def buildMem (f : Fields) (h : Hdr) (ty : Ty) (d a : Opd) : Option Instr :=
  let off := srcOf f
  match f.op.toNat with
  | 0x00 => some (.ld h ty (ldOf f) d a off)
  | 0x01 => some (.st h ty (stOf f) d a off)
  | 0x02 => some (.ldx h (fin4 f.sub.toNat) (ldOf f) d a off)
  | 0x03 => some (.stx h (fin4 f.sub.toNat) (stOf f) d a off)
  | 0x04 => some (.ldu h ty (ldOf f) d a off)
  | 0x05 => some (.stu h ty (stOf f) d a off)
  | 0x06 => some (.probe h d a off)
  | _ => none

def buildAtm (f : Fields) (h : Hdr) (ty : Ty) (d a : Opd) : Option Instr :=
  match f.op.toNat with
  | 0x00 => some (.atom h (AtomOp.ofCode f.sub.toNat) ty (atOf f) d a (opd f.b) (opd f.c))
  | 0x01 => some (.red h (AtomOp.ofCode f.sub.toNat) ty (stOf f) d a (srcOf f))
  | 0x02 => some (.aenq h ty (stOf f) d a (opd f.b))
  | 0x03 => some (.adeq h (ldOf f) d a (srcOf f))
  | _ => none

def buildSync (f : Fields) (h : Hdr) (d a : Opd) : Option Instr :=
  let j := fin24 f.sub.toNat
  match f.op.toNat with
  | 0x00 => some (.fence h (FenceKind.ofCode f.sub.toNat) (Scope.ofCode f.modb))
  | 0x01 => some (.waitc h (Eng.ofCode f.sub.toNat) (fin64 f.immBits.toNat))
  | 0x02 => some (.jinit h j (if f.moda == 0 then some (srcOf f) else none))
  | 0x03 => some (.jarr h j d)
  | 0x04 => some (.jwait h j)
  | 0x05 => some (.jarrw h j d)
  | 0x06 => some (.wpinit h a (opd f.b) (opd f.c))
  | 0x07 => some (.wparr h (f.sub.getLsbD 0) a (srcOf f))
  | 0x08 => some (.wpwait h d a (opd f.b) (opd f.c))
  | _ => none

def buildCtl (f : Fields) (h : Hdr) (d a : Opd) : Option Instr :=
  match f.op.toNat with
  | 0x00 => some (.bra h f.immBits)
  | 0x01 => some (.brx h a)
  | 0x02 => some (.call h f.immBits)
  | 0x03 => some (.callx h a)
  | 0x04 => some (.ret h)
  | 0x05 => some (if f.sub.toNat < 8 then .cvset h (fin8 f.sub.toNat) else .cvsetIdle h (fin8 f.sub.toNat))
  | 0x06 => some (.cvwait h (fin8 f.sub.toNat) d (srcOf f))
  | 0x07 => some (.exit h)
  | 0x08 => some (.yield h)
  | 0x09 => some (.nop h)
  | 0x0A => some (.brk h f.immBits)
  | 0x0B => some (.sleep h (srcOf f))
  | _ => none

def buildXch (f : Fields) (h : Hdr) (ty : Ty) (d a : Opd) : Option Instr :=
  let sc := XScope.ofCode (f.sub.toNat % 4)
  let k := f.sub.toNat / 4
  match f.op.toNat with
  | 0x00 => some (.qswz h ty d a (srcOf f))
  | 0x01 => some (.shfl h (ShMode.ofCode f.sub.toNat) ty d a (srcOf f))
  | 0x02 => some (.vote h (VoteKind.ofCode k) sc d a)
  | 0x03 => some (.tred h (RedOp.ofCode k) sc ty d a)
  | 0x04 => some (.tscan h (RedOp.ofCode k) sc ty (f.moda == 1) d a)
  | 0x05 => some (.matchv h sc ty d a)
  | 0x06 => some (.elect h d)
  | 0x07 => some (.umov h ty d a (srcOf f))
  | _ => none

def buildMma (f : Fields) (h : Hdr) (d a : Opd) : Option Instr :=
  let r := fin15 f.sub.toNat
  let tile := fin64 f.immBits.toNat
  match f.op.toNat with
  | 0x00 => some (.mma h a)
  | 0x01 => some (.accld h a tile)
  | 0x02 => some (.accst h a tile)
  | 0x03 => some (.accz h tile)
  | 0x04 => some (.accout h a (opd f.b) (opd f.c))
  | 0x05 => some (.rsvop h r d (srcOf f))
  | 0x06 => some (.rlsop h r)
  | 0x07 => some (.ldscl h r a f.immBits)
  | _ => none

def buildCopy (f : Fields) (h : Hdr) (d a : Opd) : Option Instr :=
  match f.op.toNat with
  | 0x00 => some (.copy h a (srcOf f))
  | 0x01 => some (.copyl h (f.sub.getLsbD 0) d a (srcOf f) (if f.i == 1 then .rz else opd f.c))
  | 0x02 => some (.coll h a)
  | 0x03 => some (.cstat h d)
  | _ => none

def buildTns (f : Fields) (h : Hdr) (d a : Opd) : Option Instr :=
  match f.op.toNat with
  | 0x00 => some (.dreg h d a)
  | 0x01 => some (.dunreg h d (srcOf f))
  | 0x02 => some (.dstat h d (srcOf f))
  | 0x03 => some (.dfresh h (srcOf f))
  | _ => none

def buildSys (f : Fields) (h : Hdr) (d a : Opd) : Option Instr :=
  let part := CtxPart.ofCode f.sub.toNat
  match f.op.toNat with
  | 0x00 => some (.trap h f.immBits)
  | 0x01 => some (if f.sub == 0 then .svc h d a (srcOf f) else .svcPark h d a (srcOf f))
  | 0x02 => some (.csrr h d (srcOf f))
  | 0x03 => some (.csrw h a (srcOf f))
  | 0x04 => some (.rtt h)
  | 0x05 => some (.launch h d a (srcOf f))
  | 0x06 => some (.gate h)
  | 0x07 => some (.release h)
  | 0x08 => some (.savectx h part a)
  | 0x09 => some (.loadctx h part a)
  | _ => none

/-- The instruction of fields that have passed the checks. -/
def build (f : Fields) : Option Instr :=
  let h := hdrOf f
  let ty := Ty.ofCode f.ty
  let d := opd f.d
  let a := opd f.a
  match f.cls.toNat with
  | 0 => buildInt f h ty d a
  | 1 => buildFp f h ty d a
  | 2 => buildCvt f h ty d a
  | 3 => buildCtl f h d a
  | 4 => buildMem f h ty d a
  | 5 => buildAtm f h ty d a
  | 6 => buildSync f h d a
  | 7 => buildXch f h ty d a
  | 8 => buildMma f h d a
  | 9 => buildCopy f h d a
  | 10 => buildTns f h d a
  | 11 => buildSys f h d a
  | 12 => buildSig f h d a
  | _ => none

/-! ### The decoder -/

/-- Why a word is no instruction: the trap of R167 that the word alone earns. -/
inductive DecodeError where
  | illop                        -- steps 1 and 4
  | illhint                      -- step 3
  | illreg (code : BitVec 10)    -- step 5
  deriving DecidableEq, Repr, Inhabited

/-- What the checks of R167 that need no machine state make of the fields. -/
def decodeFields (f : Fields) : Except DecodeError Instr :=
  if !assigned f then .error .illop
  else if hintBad f then .error .illhint
  else match form f with
    | none => .error .illop
    | some k =>
      match firstBad 512 f k with
      | some c => .error (.illreg c)
      | none =>
        match build f with
        | some i => .ok i
        | none => .error .illop

/-- The decoder: an instruction, or the reason there is none. Total on every word (R166: no encoding is reserved).
DESIGN CHOICE, log 114. -/
def decode (w : BitVec 96) : Except DecodeError Instr := decodeFields (unpack w)

/-- A word from its twelve bytes in memory: three words, each little-endian, the lowest first (R149). -/
def wordOfBytes (bs : List Byte) : BitVec 96 :=
  bs.foldr (fun b w => (w <<< 8) ||| b.setWidth 96) 0

/-- The decoder on bytes: an instruction and the bytes after it. -/
def decodeBytes (bs : List Byte) : Except DecodeError (Instr × List Byte) :=
  if bs.length < 12 then .error .illop
  else match decode (wordOfBytes (bs.take 12)) with
    | .ok i => .ok (i, bs.drop 12)
    | .error e => .error e

/-- The encoder. An event has no word and encodes to 0. -/
def encode (i : Instr) : BitVec 96 :=
  match fieldsOf i with
  | some f => pack f
  | none => 0

/-- The bytes of a word as they lie in memory. -/
def bytesOfWord (w : BitVec 96) : List Byte :=
  (List.range 12).map fun k => w.extractLsb' (8 * k) 8

/-- What the decoder makes of an instruction whose bits are `w`, numbered from bit 0 of the first word. -/
def decodeTableWord (nbits w : Nat) : Option Instr :=
  match decodeBytes (bytesOfWord (BitVec.ofNat 96 (w % 2 ^ nbits))) with
  | .ok (i, _) => some i
  | .error _ => none

/-- The guard and clause fields of an encoded instruction. -/
def Instr.isCode (i : Instr) : Bool := (fieldsOf i).isSome

end Sys2Proof
end

