-- ==== Sys2Proof/WellFormed.lean ====
section
/-! DEFINITION. Which instructions are well formed: those the encoding tables admit (13_encoding.md R151-R167), every
operand below its largest register. Each check is named. -/

namespace Sys2Proof

/-- The instruction has an encoding. -/
def Instr.wfCode (i : Instr) : Bool := i.isCode
/-- Clause fields: a CS = 0 instruction has no WAIT mask and no flags of its own (R157). -/
def Instr.wfHint (i : Instr) : Bool := (fieldsOf i).all fun f => !hintBad f
/-- TYPE, MODA, MODB, SUB, the immediate and the unused operands (R152, R153, R164, R165). -/
def Instr.wfForm (i : Instr) : Bool := (fieldsOf i).all fun f => (form f).isSome
/-- The operands (R151), with all 512 vector registers declared. -/
def Instr.wfRegs (i : Instr) : Bool :=
  (fieldsOf i).all fun f => (form f).all fun k => (firstBad 512 f k).isNone

/-- COPYL in the immediate form names no waypoint (R284): its C holds the immediate. -/
def Instr.wfWaypoint (i : Instr) : Bool :=
  match i with
  | .copyl _ _ _ _ (.imm _) wp => wp == .rz
  | _ => true

/-- An instruction that the decoder can give. -/
def Instr.WellFormed (i : Instr) : Prop :=
  i.wfCode = true ∧ i.wfHint = true ∧ i.wfForm = true ∧ i.wfRegs = true ∧ i.wfWaypoint = true

end Sys2Proof
end

