-- ==== Sys2Proof/Machine/Ops.lean ====
section
/-! DEFINITION. The named operations over the state: records by key, registers and predicates, clause state, taking a trap and
returning from one, and what every encoded instruction does before its own effect (03_execution.md R37-R66;
13_encoding.md R156-R167; 25_traps.md R371-R377). -/

namespace Sys2Proof.Machine

open Sys2Proof

/-! ### Records by key -/

def State.troupe (s : State) (t : Nat) : Troupe := tget s.troupes Troupe.absent t
def State.setTroupe (s : State) (t : Nat) (x : Troupe) : State := { s with troupes := tput s.troupes t x }
def State.company (s : State) (c : Nat) : Company := tget s.companies Company.absent c
def State.setCompany (s : State) (c : Nat) (x : Company) : State := { s with companies := tput s.companies c x }
def State.run (s : State) (r : Nat) : Run := tget s.runs Run.absent r
def State.setRun (s : State) (r : Nat) (x : Run) : State := { s with runs := tput s.runs r x }
def State.queue (s : State) (q : Nat) : Queue := tget s.queues Queue.unmapped q
def State.setQueue (s : State) (q : Nat) (x : Queue) : State := { s with queues := tput s.queues q x }
def State.wing (s : State) (k : Nat) : Wing := tget s.wings Wing.empty k
def State.setWing (s : State) (k : Nat) (x : Wing) : State := { s with wings := tput s.wings k x }
def State.stage (s : State) (k : Nat) : Stage := tget s.stages Stage.empty k
def State.setStage (s : State) (k : Nat) (x : Stage) : State := { s with stages := tput s.stages k x }
def Troupe.thread (tr : Troupe) (l : Nat) : Thread := tget tr.threads Thread.drained l
def Troupe.setThread (tr : Troupe) (l : Nat) (x : Thread) : Troupe := { tr with threads := tput tr.threads l x }
def State.thread (s : State) (t l : Nat) : Thread := (s.troupe t).thread l
def State.setThread (s : State) (t l : Nat) (x : Thread) : State := s.setTroupe t ((s.troupe t).setThread l x)

/-- Change the threads of a set of lanes. -/
def Troupe.mapLanes (tr : Troupe) (m : Mask) (f : Nat → Thread → Thread) : Troupe :=
  (lanes m).foldl (fun tr l => tr.setThread l (f l (tr.thread l))) tr
def State.mapLanes (s : State) (t : Nat) (m : Mask) (f : Nat → Thread → Thread) : State :=
  s.setTroupe t ((s.troupe t).mapLanes m f)

/-- The company of a troupe, its run, and the number %troupe. -/
def companyKey (t : Nat) : Nat := t / 256
def troupeNo (t : Nat) : Nat := t % 256
def State.companyOf (s : State) (t : Nat) : Company := s.company (companyKey t)
def State.runOf (s : State) (t : Nat) : Run := s.run (s.companyOf t).run
/-- Change the run of a troupe. -/
def State.updRunOf (s : State) (t : Nat) (f : Run → Run) : State := s.setRun (s.companyOf t).run (f (s.runOf t))
def State.updCompanyOf (s : State) (t : Nat) (f : Company → Company) : State :=
  s.setCompany (companyKey t) (f (s.companyOf t))
/-- The wing a troupe occupies. -/
def wingKey (tr : Troupe) : Nat := 4 * tr.stage + tr.wing
/-- The keys of a company's placed troupes. -/
def troupesOf (s : State) (c : Nat) : List Nat := (s.troupes.map Prod.fst).filter fun t => companyKey t == c
/-- Seat of a lane (R36). -/
def seatOf (t l : Nat) : Nat := 32 * troupeNo t + l

/-- PARKED (R37): an access reported held, or a parked COPYL group; a HELD thread stays HELD until its unit refills (R38). -/
def Thread.parked (th : Thread) : Bool :=
  th.st != .held && th.st != .drained && (!th.parks.isEmpty || th.group.isSome)
def Thread.live (th : Thread) : Bool := th.st != .drained
/-- READY (R37). -/
def Thread.ready (th : Thread) : Bool := th.st == .ready && !th.parked
def Troupe.liveMask (tr : Troupe) : Mask := maskOf fun l => (tr.thread l).live
/-- Live and not HELD (R55). -/
def Troupe.liveNonHeld (tr : Troupe) : Mask := maskOf fun l => (tr.thread l).live && (tr.thread l).st != .held

/-! ### Registers (R60, R151, R161) -/

def vKey (r l : Nat) : Nat := 32 * r + l
def sKey (n : Nat) : Nat := 16384 + n
def pKey (l k : Nat) : Nat := 16544 + 8 * l + k

/-- The register as it stands. -/
def Troupe.reg (tr : Troupe) (k : Nat) : Word := tget tr.regs 0 k
def pendValue (p : Pend) (k : Nat) : Option Word := (p.writes.find? fun w => w.1 == k).map Prod.snd

/-- A read of a register: old or new where a write that is not interlocked is outstanding (R161). `place` tells the reads of
one instruction apart, so that each word is chosen for itself.
DEDUCED, log 14. -/
def readReg (s : State) (tr : Troupe) (k place : Nat) : Word :=
  tr.pend.foldl (fun v p => match pendValue p k with
    | some x => if p.known && Config.pick s.picks (p.id * 2 ^ 20 + place * 2 ^ 15 + k) then x else v
    | none => v) (tr.reg k)

/-- A write of a register: an outstanding write of the same register may still prevail (R161). -/
def Troupe.setReg (tr : Troupe) (k : Nat) (x : Word) : Troupe :=
  { tr with
    regs := tset tr.regs 0 k x
    pend := tr.pend.map fun p => if (pendValue p k).isSome then { p with contested := k :: p.contested } else p }

/-- A predicate of a lane; p7 reads true (R60). -/
def readPred (s : State) (tr : Troupe) (l k place : Nat) : Bool :=
  if k = 7 then true else readReg s tr (pKey l k) place != 0

/-! ### Flags and counters (R120, R160) -/

def EngOp.flag (o : EngOp) : Option (Fin 12) :=
  match o.kind with
  | .mma _ _ _ _ _ _ _ isRead flag => if isRead then none else flag
  | _ => none
/-- Is a completion flag busy? -/
def Troupe.flagBusy (tr : Troupe) (f : Nat) : Bool :=
  (tr.pend.any fun p => p.flag.any fun g => g.val == f) || (tr.ops.any fun o => o.flag.any fun g => g.val == f)
/-- The busy state of f11-f0. -/
def Troupe.busy (tr : Troupe) : BitVec 12 :=
  (List.range 12).foldl (fun m f => if tr.flagBusy f then m ||| (1#12 <<< f) else m) 0
/-- An engine counter (R120): the operations of its class not yet reported. -/
def Troupe.counter (tr : Troupe) (c : Eng) : Nat := (tr.ops.filter fun o => o.cls == c).length

/-- Is an access a thread's of this troupe? -/
def Who.ofTroupe (w : Who) (t : Nat) : Bool :=
  match w with
  | .thread u _ => u == t
  | .bundle u _ => u == t
  | _ => false
def Who.ofLane (w : Who) (t l : Nat) : Bool :=
  match w with
  | .thread u k => u == t && k == l
  | .bundle u m => u == t && hasLane m l
  | _ => false
/-- Entries of the troupe's store queue that are not performed (R228). -/
def storeQueue (s : State) (t : Nat) : List Access := s.accs.filter fun a => a.isStore && a.who.ofTroupe t
/-- Their ids. -/
def storeIds (s : State) (t : Nat) : List Nat := (storeQueue s t).map Access.id
/-- Accesses of a thread that are not complete. -/
def accsOfLane (s : State) (t l : Nat) : List Access := s.accs.filter fun a => a.who.ofLane t l
def accById (s : State) (id : Nat) : Option Access := s.accs.find? fun a => a.id == id
/-- Is an access, or a step on its way to a waypoint, over? -/
def accDone (s : State) (id : Nat) : Bool := (accById s id).isNone && !s.upds.any fun u => u.id == id
/-- Steps on waypoints that a troupe's threads have under way, and those of some of its lanes. -/
def WpUpd.ofTroupe (u : WpUpd) (t : Nat) : Bool := u.who.any fun w => w.1 == t
def WpUpd.ofLane (u : WpUpd) (t l : Nat) : Bool := u.who.any fun w => w.1 == t && hasLane w.2 l
def updsOfLane (s : State) (t l : Nat) : List Nat := (s.upds.filter fun u => u.ofLane t l).map WpUpd.id

/-! ### Clause state (R157, R158) -/

/-- What issuing an instruction does to a thread's clause state. -/
def Thread.clause (th : Thread) (h : Hdr) : Thread :=
  { th with
    count := if h.cs then 1 else th.count + 1
    flga := if h.cs then h.flga else th.flga
    flgb := if h.cs then h.flgb else th.flgb
    yld := if h.cs then h.yld else th.yld
    reach := none }
/-- Go on to PC + 12. -/
def Thread.advance (h : Hdr) (th : Thread) : Thread :=
  { th.clause h with pc := th.pc + 12, st := .ready, wait := .none }
/-- Go to a target, with the %trapval of the ILLHINT it would earn there (R158). -/
def Thread.goTo (h : Hdr) (target : Word) (val : Word) (th : Thread) : Thread :=
  { th.clause h with pc := target, reach := some val, st := .ready, wait := .none }
/-- The flag an instruction's late effects attach to (R160), in the thread's clause once the instruction has issued. -/
def Thread.selFlag (th : Thread) (h : Hdr) : Option (Fin 12) :=
  match h.sel with
  | .none => none
  | .a => if h.cs then h.flga else th.flga
  | .b => if h.cs then h.flgb else th.flgb

/-! ### Bundles (R51-R54) -/

/-- Change every bundle a wing knows; `none` takes it out. -/
def Wing.mapBundles (w : Wing) (f : Bundle → Option Bundle) : Wing :=
  { w with
    table := w.table.filterMap f
    current := w.current.bind f
    passed := w.passed.filterMap f
    forced := w.forced.bind f
    also := w.also.bind f
    second := w.second.bind f }
/-- Take every bundle of a troupe out of its wing. -/
def dropBundles (s : State) (t : Nat) : State :=
  let k := wingKey (s.troupe t)
  let w := (s.wing k).mapBundles fun b => if b.t == t then none else some b
  s.setWing k { w with skipped := w.skipped.filter fun g => g.1.1 != t }
/-- A bundle without the threads that have left it; none when that empties it. -/
def Bundle.without (t : Nat) (m : Mask) (b : Bundle) : Option Bundle :=
  if b.t != t || b.mask &&& m = 0 then some b
  else if b.mask &&& ~~~m = 0 then none else some ⟨t, b.mask &&& ~~~m⟩
/-- Threads that leave READY leave their bundle (R53). -/
def leaveBundles (s : State) (t : Nat) (m : Mask) : State :=
  let k := wingKey (s.troupe t)
  s.setWing k ((s.wing k).mapBundles (Bundle.without t m))
/-- Threads released together form a bundle at once, and belong to no other (R54). The former's table, which holds 64 at a
rebuild (R51), takes it in addition.
DESIGN CHOICE, log 116. -/
def addBundle (s : State) (t : Nat) (m : Mask) : State :=
  if m = 0 then s
  else
    let k := wingKey (s.troupe t)
    let w := (s.wing k).mapBundles (Bundle.without t m)
    s.setWing k { w with table := w.table ++ [⟨t, m⟩] }

/-! ### Traps (R371-R377) -/

/-- p0 to p6 of a lane. -/
def predBits (tr : Troupe) (l : Nat) : BitVec 7 :=
  (List.range 7).foldl (fun m k => if tr.reg (pKey l k) != 0 then m ||| (1#7 <<< k) else m) 0
def setPreds (tr : Troupe) (l : Nat) (m : BitVec 7) : Troupe :=
  (List.range 7).foldl (fun tr k => tr.setReg (pKey l k) (boolWord (m.getLsbD k))) tr

/-! ### Per-lane copies and their translations (R128, R407) -/

/-- Bits [hi:lo] of a dword. -/
def bitsOf (x : Dword) (hi lo : Nat) : Nat := x.toNat / 2 ^ lo % 2 ^ (hi + 1 - lo)
/-- Bit 56 chooses host space (R409). -/
def isHostVa (va : Dword) : Bool := va.getLsbD 56
/-- The page of a global address in its space. -/
def pageOfVa (va : Dword) : Nat := if isHostVa va then bitsOf va 55 12 else bitsOf va 56 12
/-- Has a per-lane request global bytes that have not moved (R407)? -/
def Copy.moving (c : Copy) : Bool :=
  c.chunks.any fun k => !k.done && ((k.early.isNone && match k.src with
    | .glob _ => true
    | _ => false) || match k.dst with
    | .glob _ => true
    | _ => false)
/-- Is it a per-lane request that trap entry withdraws: its lane stands at the COPYL, or is in its parked group (R374)? -/
def Copy.standing (t : Nat) (c : Copy) : Bool := c.t == t && c.lane.isSome && !c.ended && (c.parked || c.stands)
/-- A lane's request in a parked group, issued before `below`. -/
def parkedCopy (s : State) (t l below : Nat) : Option Copy :=
  s.copies.find? fun c => c.t == t && c.lane == some l && c.parked && c.id < below
/-- Withdraw requests; TRANSLATION_FAILURE follows at once and sets the P bits they still hold clear. The faults of a parked group
stay pending (R418).
DEDUCED, log 44. -/
def withdrawCopies (s : State) (t : Nat) : State :=
  let out := (s.copies.filter (Copy.standing t)).map Copy.id
  if out.isEmpty then s
  else { s with
    copies := s.copies.map fun c => if c.standing t then { c with ended := true, stands := false } else c
    xreqs := s.xreqs.filter fun q => !s.copies.any fun c => c.standing t && c.stands && c.id == q.copy
    agenda := out.map (fun c => .event (.translationFailure c)) ++ s.agenda }
/-- At RTT the parked groups of before the entry stand again, and are settled if their faults have been; a lane whose wait the
handler dropped has left its group (R374, R376, R418). -/
def regroupCopies (s : State) (t : Nat) : State :=
  let tr := s.troupe t
  let old (c : Copy) : Bool := c.t == t && c.parked && c.id < tr.entryId
  let gone (c : Copy) : Bool := old c && c.lane.any fun l => hasLane (tr.written ||| tr.last.skip) l
  if !s.copies.any old then s
  else
    let kept := (s.copies.filter fun c => old c && !gone c).map Copy.id
    { s with
      copies := s.copies.filter fun c => !gone c
      xreqs := s.xreqs.filter fun q => !s.copies.any fun c => gone c && c.id == q.copy
      agenda := kept.map (fun c => .event (.translationFailure c)) ++ s.agenda }

/-- The lowest faulting address of the parked COPYL group of a lane. -/
def groupLow (s : State) (t l : Nat) : Dword :=
  let tr := s.troupe t
  match parkedCopy s t l s.nextId with
  | none => 0
  | some c =>
    let vas := (s.copies.filter fun d => d.t == t && d.parked && d.grp == c.grp).filterMap fun d =>
      d.lane.bind fun k => (tr.thread k).group.map BitVec.toNat
    BitVec.ofNat 64 (vas.foldl min (2 ^ 64 - 1))
/-- WAITARG and WAITADDR of a thread (Table 25.7): a completion slot is named by its device-local address. -/
def waitArg (s : State) (t : Nat) (tr : Troupe) (l : Nat) : Word × Dword :=
  let th := tr.thread l
  let acc (id : Nat) (f : Access → Nat) : Word × Dword :=
    match accById s id with
    | some a => (BitVec.ofNat 32 (f a), a.addr)
    | none => (0, 0)
  match th.wait with
  | .await id => acc id fun a => if a.deadline = 0 then 0 else a.deadline - a.issued
  | .wpwait id _ => acc id fun a => a.data.toNat % 2
  | .cvwait _ _ n => (BitVec.ofNat 32 n, 0)
  | .junction j _ _ => (BitVec.ofNat 32 j, 0)
  | .svc slot _ =>
    (BitVec.ofNat 32 (((tr.svcs.find? fun x => x.lane == l).map SvcCall.service).getD 0), BitVec.ofNat 64 (2 ^ 63 + slot))
  | .sleep d => (0, BitVec.ofNat 64 d)
  | _ => (0, if th.group.isSome then groupLow s t l else 0)

/-- What entry freezes of a thread (R373 step 2). -/
def freeze (s : State) (t : Nat) (tr : Troupe) (l : Nat) : Frozen :=
  let th := tr.thread l
  let w := waitArg s t tr l
  ⟨th.pc, th.st, th.parked, th.group, th.wait, th.info, th.rstack, th.spills, th.count, th.flga, th.flgb,
    th.arrived, predBits tr l, w.1, w.2, false⟩

/-- A thread of the handler set at the handler's entry (R373 step 4). -/
def Thread.enter (pc : Word) (th : Thread) : Thread :=
  { th with
    st := .ready, wait := .none, parks := [], group := none, pc := pc, rstack := [], spills := 0
    count := 0, flga := none, flgb := none, reach := some 0xFFFFFFFF, arrived := [] }

/-- Is a lane's AWAIT or WPWAIT access withdrawn at entry (R374)? One held on a clear P bit is not (R431).
DEDUCED, log 29, 105. -/
def withdrawn (t : Nat) (a : Access) : Bool :=
  a.who.ofTroupe t && (a.op == .await || a.op == .wpwait) && a.st != .heldP && !a.reported

/-- Entry to a handler at `pc` (R373, R374). -/
def enterHandler (s : State) (t : Nat) (x : TrapInfo) (pc : Word) (context : Bool) : State :=
  let tr := s.troupe t
  let m := tr.liveMask
  let frozen := (lanes m).map fun l => (l, freeze s t tr l)
  let gone := (s.accs.filter (withdrawn t)).map Access.pend
  let tr1 := (lanes m).foldl (fun tr l => setPreds tr l 0) tr
  let tr2 := tr1.mapLanes m fun _ th => th.enter pc
  let tr3 : Troupe := { tr2 with
    status := .handler
    last := x
    frozen := frozen
    pend := tr.pend.filter fun p => !gone.contains p.id
    cvFrozen := tr.cv
    cv := []
    written := 0
    handlers := m
    context := context
    pendTrap := none
    recAsked := []
    recServed := []
    svcRead := []
    entryId := s.nextId
    entered := s.wall }
  let s1 := withdrawCopies { s with accs := s.accs.filter fun a => !withdrawn t a } t
  addBundle (dropBundles (s1.setTroupe t tr3) t) t m

/-- Has a live thread of the troupe a read-back outstanding (R262)? -/
def readbackOut (tr : Troupe) : Bool := (lanes tr.liveMask).any fun l => (tr.thread l).readback

/-- A run fault (R377): the first such trap is the one recorded. Every troupe of the run stops issuing. -/
def runFault (s : State) (t : Nat) (x : TrapInfo) : State :=
  s.updRunOf t fun r => if r.faulted.isSome then r else { r with faulted := some x, faultT := t }

/-- Take a synchronous trap. Entry waits for outstanding read-backs (R373 step 1): the trap is then kept for
HANDLER_ENTRY. -/
def takeTrap (s : State) (t : Nat) (x : TrapInfo) : State :=
  let tr := s.troupe t
  let r := s.runOf t
  if tr.status == .handler || r.trapVec == 0xFFFFFFFF then runFault s t x
  else if readbackOut tr then s.setTroupe t { tr with pendTrap := some x }
  else enterHandler s t x r.trapVec false

/-- Entry to the context handler for a reason of Table 25.3 (R378). -/
def enterContext (s : State) (t : Nat) (reason : Nat) : State :=
  enterHandler s t ⟨reason, if reason = 1 then 0x50 else 0, 0xFFFFFFFF, 0, 0, 0, 0, none⟩ Config.firmwareEntry true

/-! ### Return from a handler (R376) -/

/-- Does the thread's wait still stand at RTT (Table 25.2), and as what? A withdrawn wait is issued again: READY at the same
PC. SVC, SLEEP, FENCE and WAITC waits stand. -/
def resumeWait (s : State) (f : Frozen) : TState × Wait :=
  match f.wait with
  | .svc a p => (.waiting, .svc a p)
  | .sleep d => (.waiting, .sleep d)
  | .counter c n => (.stalled, .counter c n)
  | .drain ids pubs => (.stalled, .drain ids pubs)
  | .await id => if accDone s id then (.ready, .none) else (.waiting, .await id) -- one held on a clear P bit (R431)
  | _ => if f.st == .held then (.held, .none) else (.ready, .none)

/-- The accesses of a lane that are reported held (R431). -/
def heldOf (s : State) (t l : Nat) : List Nat :=
  (s.accs.filter fun a => a.who.ofLane t l && a.reported).map Access.id

/-- What R157 makes of an instruction that TSKIP passes over: it counts toward the clause as if it had issued. Of a
thread that neither trapped at its issue nor waits in it, only the count is known to move.
DEDUCED, log 98. -/
def skipped (tr : Troupe) (l : Nat) (f : Frozen) (th : Thread) : Thread :=
  let h := if hasLane tr.last.bundle l then tr.last.hdr else if f.st == .waiting then some f.info.hdr else none
  match h with
  | some h => th.clause h
  | none => { th with count := f.count + 1 }

/-- A frozen thread as it goes on: one whose held AWAIT has been performed goes on after it (R431). -/
def Frozen.now (f : Frozen) : Frozen :=
  let h := f.info.hdr
  if !f.got then f
  else { f with
    pc := f.pc + 12, st := .ready, wait := .none, arrived := []
    count := if h.cs then 1 else f.count + 1
    flga := if h.cs then h.flga else f.flga
    flgb := if h.cs then h.flgb else f.flgb }
/-- What RTT gives back to one thread (R376), with `group` its parked COPYL group, if it is in one.
DEDUCED, log 97. -/
def resume (s : State) (t l : Nat) (tr : Troupe) (f0 : Frozen) : Thread :=
  let th := tr.thread l
  let f := if hasLane (tr.written ||| tr.last.skip) l then f0 else f0.now
  let base : Thread := { th with
    rstack := f.rstack, spills := f.spills, parks := heldOf s t l, group := none, info := f.info
    count := f.count, flga := f.flga, flgb := f.flgb, reach := none, pc := f.pc, wait := .none, st := .ready
    arrived := f.arrived, readback := false }
  if f.st == .held then { base with st := .held }
  else if hasLane tr.written l then
    { base with count := 0, flga := none, flgb := none, reach := some tr.rttPc, arrived := [] }
  else if hasLane tr.last.skip l then
    { skipped tr l f base with pc := f.pc + 12, arrived := [] }
  else
    let (st, w) := resumeWait s f
    { base with st := st, wait := w, group := if (parkedCopy s t l tr.entryId).isSome then f.group else none }

/-- Abandon the read-backs of lanes (R48, R262). -/
def dropReadbacks (s : State) (t : Nat) (m : Mask) : State :=
  { s with accs := s.accs.filter fun a => !(a.spill && a.op == .load && (lanes m).any fun l => a.who.ofLane t l) }
/-- RTT has completed: every thread of the handler set changes in one step. A read-back of the handler's own return stack goes
with that stack.
DEDUCED, log 119. -/
def returnFromHandler (s0 : State) (t : Nat) : State :=
  let s := regroupCopies (dropReadbacks s0 t (s0.troupe t).handlers) t
  let tr := s.troupe t
  let ls := lanes tr.handlers
  let tr1 := ls.foldl (fun a l => setPreds a l (tget tr.frozen (freeze s t tr l) l).preds) tr
  let tr2 := ls.foldl (fun a l => a.setThread l (resume s t l tr (tget tr.frozen (freeze s t tr l) l))) tr1
  let tr3 : Troupe := { tr2 with
    status := .resident, cv := tr.cvFrozen, cvFrozen := [], frozen := [], handlers := 0, written := 0, context := false
    copied := tr.copied.filter fun x => !hasLane (tr.written ||| tr.last.skip) x.1 }
  dropBundles (s.setTroupe t tr3) t

/-! ### The issue of an encoded instruction (R156-R167) -/

/-- What an instruction's rules see of its issue. -/
structure Ctx where
  t    : Nat                    -- the troupe
  mask : Mask                   -- the bundle: %active
  act  : Mask                   -- Active: the threads whose guard holds
  pc   : Word
  hdr  : Hdr
  deriving DecidableEq, Repr

/-- What an instruction comes to. -/
inductive Res where
  /-- Every thread of the bundle goes to PC + 12. -/
  | ok (s : State)
  /-- The instruction has placed the threads of Active itself; the others go to PC + 12. -/
  | ctl (s : State)
  /-- Threads `m` meet a hazard and are STALLED at the instruction; threads whose guard is false and that are not in `m` go
  to PC + 12. -/
  | part (s : State) (m : Mask) (w : Wait)
  /-- The instruction traps. -/
  | trap (s : State) (x : TrapInfo)
  /-- The bundle's troupe has left its stage. -/
  | gone (s : State)

/-- A trap of an instruction's own checks: reason 0, the bundle's mask in TBUNDLE, TSKIP 0 (Table 25.1). -/
def Ctx.trapInfo (c : Ctx) (code : Nat) (m : Mask) (val : Dword) : TrapInfo := ⟨0, code, c.pc, m, val, c.mask, 0, some c.hdr⟩
/-- The PC as a trap value. -/
def Ctx.pcVal (c : Ctx) : Dword := c.pc.setWidth 64

/-- %feature of a stage (R32, Table 0.1). -/
def featureOf (s : State) (st : Nat) : Word :=
  match s.mgmt.grade with
  | .a => 0x0A010007
  | .b => if st % 2 = 0 then 0x0B010007 else 0x0B010003

/-- The context an instruction issues in: the cursor's bundle, at its lowest thread's PC. -/
def ctxOf (s : State) (h : Hdr) : Ctx :=
  let t := s.cur.t
  let tr := s.troupe t
  let m := s.cur.mask
  ⟨t, m, maskOf fun l => hasLane m l && (readPred s tr l h.pred.val 15 != h.neg), (tr.thread (lowLane m)).pc, h⟩

/-- Is there a bundle to issue for? -/
def issuable (s : State) : Bool :=
  s.cur.mask != 0 && ((s.troupe s.cur.t).status == .resident || (s.troupe s.cur.t).status == .handler)

/-- The value of the ILLHINT of R158 for a bundle: Table 13.7's, of the lowest thread that reached its PC as a target. -/
def reachVal (tr : Troupe) (m : Mask) : Option Word :=
  ((lanes m).filterMap fun l => (tr.thread l).reach).head?

/-- Step 3 of R167, what depends on the threads' clause state (R157, R158, R160): the value of the ILLHINT. -/
def hintTrap (tr : Troupe) (c : Ctx) : Option Dword :=
  let h := c.hdr
  let count8 := (lanes c.mask).any fun l => (tr.thread l).count ≥ 8
  let noFlag := h.sel != .none && (lanes c.mask).any fun l => ((tr.thread l).selFlag h).isNone
  match (if h.cs then none else reachVal tr c.mask) with
  | some v => some (v.setWidth 64)
  | none => if (!h.cs && count8) || noFlag then some c.pcVal else none

/-- The checks of R167 on the fields `f`, in order; `priv` says that the instruction is used outside its privilege.
DEDUCED, log 20, 21. -/
def encTrap (s : State) (c : Ctx) (f : Fields) (priv : Bool) : Option TrapInfo :=
  let tr := s.troupe c.t
  let mk (code : Nat) (v : Dword) : Option TrapInfo := some (c.trapInfo code c.mask v)
  let ft := featureOf s tr.stage
  if !assigned f then mk 0x01 c.pcVal
  else if (f.cls == 12 && !ft.getLsbD 2) || (f.cls == 8 && !ft.getLsbD 1) then mk 0x04 c.pcVal
  else match hintTrap tr c with
    | some v => mk 0x03 v
    | none =>
      if hintBad f then mk 0x03 c.pcVal
      else match form f with
        | none => mk 0x01 c.pcVal
        | some k =>
          match firstBad (s.runOf c.t).regs f k with
          | some x => mk 0x02 (x.setWidth 64)
          | none => if priv then mk 0x05 c.pcVal else none

/-- Bring an instruction to its end. -/
def finish (c : Ctx) (r : Res) : State :=
  match r with
  | .ok s => s.mapLanes c.t c.mask fun _ th => th.advance c.hdr
  | .ctl s => s.mapLanes c.t (c.mask &&& ~~~c.act) fun _ th => th.advance c.hdr
  | .part s m w =>
    (s.mapLanes c.t (c.mask &&& ~~~(c.act ||| m)) fun _ th => th.advance c.hdr).mapLanes c.t m
      fun _ th => { th with st := .stalled, wait := w }
  | .trap s x => takeTrap s c.t x
  | .gone s => s

/-- Issue an encoded instruction: the checks of R167, the WAIT mask (R159), then its own rules. -/
def issueP (priv : State → Ctx → Bool) (i : Instr) (s : State) (body : Ctx → State → Res) :
    Host.Outcome State Fault Refusal :=
  match fieldsOf i with
  | none => .fault .noBundle
  | some f =>
    if !issuable s then .fault .noBundle
    else
      let c := ctxOf s (hdrOf f)
      match encTrap s c f (priv s c) with
      | some x => .next (takeTrap s c.t x)
      | none =>
        if c.hdr.cs && (s.troupe c.t).busy &&& c.hdr.wait != 0 then
          .next (finish c (.part s c.mask (.flags c.hdr.wait)))
        else .next (finish c (body c { s with picks := s.picks + 1 }))

def issue : Instr → State → (Ctx → State → Res) → Host.Outcome State Fault Refusal := issueP fun _ _ => false

/-- Nothing happens when no thread's guard holds (R156, R184, R264). -/
def Ctx.idle (c : Ctx) : Bool := c.act == 0
/-- The lowest lane of Active (R264). -/
def Ctx.low (c : Ctx) : Nat := lowLane c.act

/-- Accesses on their way before which a clause state is left as it is: a thread that starts to wait keeps its PC at the
instruction, with what it needs to leave. -/
def Thread.waitAt (h : Hdr) (d : Opd) (ty : Ty) (w : Wait) (th : Thread) : Thread :=
  { th with st := .waiting, wait := w, info := ⟨h, d, ty⟩ }

end Sys2Proof.Machine
end

