-- ==== Sys2Proof/Machine/Operands.lean ====
section
/-! DEFINITION. Every operand form: registers, pairs, blocks, predicates, special operands, immediates; and the three ways a
result reaches a register: at once, late, or through stochastic rounding's draws (13_encoding.md R151-R154, R160, R161;
15_lane_instructions.md R183, R184; 07_numbers.md R97-R100). -/

namespace Sys2Proof.Machine

open Sys2Proof

/-! ### Special operands (Table 13.5) -/

/-- Coordinates of a company in its run's grid (R359). -/
def gridCoord (r : Run) (c : Nat) : Nat × Nat × Nat :=
  let gx := max r.grid.1 1
  let gy := max r.grid.2.1 1
  (c % gx, c / gx % gy, c / (gx * gy))
/-- A circuit's linear index, from its company's index (R359). -/
def circuitIndex (r : Run) (c : Nat) : Nat :=
  let (x, y, z) := gridCoord r c
  let cx := max r.circuit.1 1
  let cy := max r.circuit.2.1 1
  let cz := max r.circuit.2.2 1
  x / cx + (r.grid.1 / cx) * (y / cy + (r.grid.2.1 / cy) * (z / cz))

/-- The value of special operand 0x2C0 + k for a lane (Table 13.5; R46, R53, R375).
DEDUCED, log 31. -/
def special (s : State) (c : Ctx) (l k : Nat) : Word :=
  let tr := s.troupe c.t
  let co := s.companyOf c.t
  let r := s.runOf c.t
  let th := tr.thread l
  match k with
  | 0 => BitVec.ofNat 32 l
  | 1 => BitVec.ofNat 32 (l / 4)
  | 2 => BitVec.ofNat 32 (troupeNo c.t)
  | 3 => BitVec.ofNat 32 co.index
  | 4 => BitVec.ofNat 32 (circuitIndex r co.index)
  | 5 => r.id
  | 6 => loWord th.item
  | 7 => hiWord th.item
  | 8 => loWord th.age
  | 9 => BitVec.ofNat 32 tr.stage
  | 10 => BitVec.ofNat 32 (tr.stage / 128)
  | 11 => loWord s.ports.time
  | 12 => hiWord s.ports.time
  | 13 => c.mask
  | 14 => tr.liveMask
  | 15 => tr.last.mask
  | 16 => BitVec.ofNat 32 tr.last.code
  | 17 => loWord tr.last.val
  | _ => featureOf s tr.stage

/-! ### Reading (R151, R183) -/

/-- An operand read as one 32-bit word. -/
def readWord (s : State) (c : Ctx) (l : Nat) (o : Opd) (place : Nat) : Word :=
  let tr := s.troupe c.t
  match o with
  | .v n => readReg s tr (vKey n.val l) place
  | .s n => readReg s tr (sKey n.val) place
  | .p k => boolWord (readPred s tr l k.val place)
  | .sp k => special s c l k.val
  | .rz => 0

/-- Register n + k of a multi-register operand; rz reads zeros. -/
def readPart (s : State) (c : Ctx) (l : Nat) (o : Opd) (k place : Nat) : Word :=
  let tr := s.troupe c.t
  match o with
  | .v n => readReg s tr (vKey (n.val + k) l) place
  | .s n => readReg s tr (sKey (n.val + k)) place
  | _ => 0

/-- An operand read as a pair (R89); %timelo gives the whole time counter (R151). -/
def readPair (s : State) (c : Ctx) (l : Nat) (o : Opd) (place : Nat) : Dword :=
  match o with
  | .sp k => if k.val = 11 then s.ports.time else (special s c l k.val).setWidth 64
  | _ => joinPair (readPart s c l o 0 place) (readPart s c l o 1 place)

/-- An operand at a TYPE's width, zero-extended. -/
def readTy (s : State) (c : Ctx) (ty : Ty) (l : Nat) (o : Opd) (place : Nat) : Dword :=
  if Ty.wide ty then readPair s c l o place else (readWord s c l o place).setWidth 64

/-- B as a word, with the immediate zero-extended (Table 13.6). -/
def readSrcZ (s : State) (c : Ctx) (l : Nat) (b : Src) (place : Nat) : Word :=
  match b with
  | .reg o => readWord s c l o place
  | .imm x => x.setWidth 32
/-- B at a TYPE's width, with the immediate zero-extended (R191). -/
def readSrcZTy (s : State) (c : Ctx) (ty : Ty) (l : Nat) (b : Src) (place : Nat) : Dword :=
  match b with
  | .reg o => readTy s c ty l o place
  | .imm x => x.setWidth 64
/-- B at a TYPE's width, with the immediate sign-extended (Table 13.6). -/
def readSrcTy (s : State) (c : Ctx) (ty : Ty) (l : Nat) (b : Src) (place : Nat) : Dword :=
  match b with
  | .reg o => readTy s c ty l o place
  | .imm x => x.signExtend 64
/-- B of an FP instruction: an f32 immediate gives bits [31:12], an f16 or bf16 one its low 16 bits (Table 13.6). -/
def readSrcF (s : State) (c : Ctx) (ty : Ty) (l : Nat) (b : Src) (place : Nat) : Word :=
  match b with
  | .reg o => readWord s c l o place
  | .imm x => if ty == .f32 then x ++ (0#12) else x.setWidth 32

/-! ### Uniform operands (R61) -/

/-- The lanes of Active whose value differs from that of the lowest one. -/
def disagree (c : Ctx) (f : Nat → Dword) : Mask := maskOf fun l => hasLane c.act l && f l != f c.low
/-- The NONUNIFORM trap of a uniform operand, if the active threads disagree.
DEDUCED, log 22. -/
def uniformTrap (c : Ctx) (f : Nat → Dword) : Option TrapInfo :=
  if disagree c f = 0 then none else some (c.trapInfo 0x20 (disagree c f) c.pcVal)

/-! ### Writing (R60, R183) -/

/-- The register words a destination gets: nothing for rz, special operands and p7. -/
def destWrites (wide : Bool) (d : Opd) (l : Nat) (x : Dword) : List (Nat × Word) :=
  match d with
  | .v n => if wide then [(vKey n.val l, loWord x), (vKey (n.val + 1) l, hiWord x)] else [(vKey n.val l, loWord x)]
  | .s n => if wide then [(sKey n.val, loWord x), (sKey (n.val + 1), hiWord x)] else [(sKey n.val, loWord x)]
  | .p k => if k.val = 7 then [] else [(pKey l k.val, boolWord (x != 0))]
  | .sp _ => []
  | .rz => []

/-- Register d + k of a multi-register destination. -/
def destPart (d : Opd) (l k : Nat) (x : Word) : List (Nat × Word) :=
  match d with
  | .v n => [(vKey (n.val + k) l, x)]
  | .s n => [(sKey (n.val + k), x)]
  | _ => []

/-- The lanes that write a destination: every lane of Active, or its lowest alone for a uniform register (R60). -/
def writers (c : Ctx) (d : Opd) : List Nat :=
  match d with
  | .s _ => if c.act = 0 then [] else [c.low]
  | _ => lanes c.act

/-- The writes of an instruction, lane by lane. -/
abbrev Writes := List (Nat × List (Nat × Word))

def results (c : Ctx) (wide : Bool) (d : Opd) (f : Nat → Dword) : Writes :=
  (writers c d).map fun l => (l, destWrites wide d l (f l))
/-- The writes of a destination of `n` registers. -/
def blockResults (c : Ctx) (d : Opd) (n : Nat) (f : Nat → Nat → Word) : Writes :=
  (writers c d).map fun l => (l, (List.range n).flatMap fun k => destPart d l k (f l k))

def Troupe.setRegs (tr : Troupe) (ws : List (Nat × Word)) : Troupe := ws.foldl (fun tr w => tr.setReg w.1 w.2) tr

/-- Results of the INT and FP pipes: written at once, which the interlock makes every later instruction see (R161). -/
def writeNow (s : State) (c : Ctx) (ws : Writes) : State :=
  s.setTroupe c.t (ws.foldl (fun tr w => tr.setRegs w.2) (s.troupe c.t))

/-- Owe register writes to lanes `m`, attached to the flag SEL names in lane `l` (R160, R161): the state and the id of what is
owed, 0 when there is nothing to write. -/
def owe (s : State) (c : Ctx) (m : Mask) (l : Nat) (ws : List (Nat × Word)) (known : Bool) : State × Nat :=
  if ws.isEmpty then (s, 0)
  else
    let tr := s.troupe c.t
    let p : Pend := ⟨s.nextId, m, (tr.thread l).selFlag c.hdr, ws, known, []⟩
    (({ s with nextId := s.nextId + 1 } : State).setTroupe c.t { tr with pend := tr.pend ++ [p] }, s.nextId)

/-- Results of the XF and MEM pipes, performed later (R161). One of a uniform register is owed to the lowest active lane, which writes it.
DEDUCED, log 143. -/
def writeLate (s : State) (c : Ctx) (ws : Writes) : State :=
  ws.foldl (fun s w => (owe s c (laneBit w.1) w.1 w.2 true).1) s

/-- Perform an owed write (R161): a register written since may keep the later value. -/
def performPend (s : State) (t id : Nat) : State :=
  let tr := s.troupe t
  match tr.pend.find? fun p => p.id == id with
  | none => s
  | some p =>
    let put (tr : Troupe) (w : Nat × Word) : Troupe :=
      if p.contested.contains w.1 && Config.pick s.picks (p.id * 2 ^ 20 + w.1) then tr
      else { tr with regs := tset tr.regs 0 w.1 w.2 }
    let tr1 := p.writes.foldl put tr
    { s with picks := s.picks + 1 }.setTroupe t { tr1 with pend := tr1.pend.filter fun q => q.id != id }

/-! ### Stochastic rounding (R98, R100) -/

/-- The draws of an issue that rounds `n` element positions with sr: the state after it, and Q for each lane and element. -/
def srDraws (s : State) (c : Ctx) (n : Nat) : State × (Nat → Nat → Word) :=
  let tr := s.troupe c.t
  if c.act = 0 then (s, fun _ _ => 0)
  else if (s.runOf c.t).determ then
    (s.mapLanes c.t c.act fun _ th => { th with conv := th.conv + BitVec.ofNat 32 n },
     fun l e =>
       let th := tr.thread l
       srHash tr.srSeed th.item (th.conv + BitVec.ofNat 32 e))
  else
    let st (e : Nat) : Word := Nat.iterate srStep e tr.srState
    (s.setTroupe c.t { tr with srState := st n }, fun l e => rotl32 (st (e + 1)) l)

/-- The draws, where the rounding mode is sr; else none are made. -/
def draws (s : State) (c : Ctx) (r : Rnd) (n : Nat) : State × (Nat → Nat → Word) :=
  if r == .sr then srDraws s c n else (s, fun _ _ => 0)

/-! ### Elements of floating-point operands (R92) -/

/-- Format and number of elements of a floating-point TYPE. -/
def fpElems (ty : Ty) : Fmt × Nat :=
  match ty with
  | .f16 => (.f16, 1)
  | .bf16 => (.bf16, 1)
  | .f16x2 => (.f16, 2)
  | .bf16x2 => (.bf16, 2)
  | .e4m3x4 => (.e4m3, 4)
  | .e5m2x4 => (.e5m2, 4)
  | .e2m1x8 => (.e2m1, 8)
  | _ => (.f32, 1)

/-- Element `i` of a register, as its code. -/
def elemCode (f : Fmt) (x : Word) (i : Nat) : Nat := x.toNat / 2 ^ (Fmt.bits f * i) % 2 ^ Fmt.bits f
def elemVal (f : Fmt) (x : Word) (i : Nat) : FVal := decodeF f (elemCode f x i)
/-- Put element codes together (R92). -/
def joinElems (f : Fmt) (n : Nat) (g : Nat → Nat) : Word :=
  BitVec.ofNat 32 ((List.range n).foldl (fun x i => x + g i * 2 ^ (Fmt.bits f * i)) 0)

end Sys2Proof.Machine
end

