-- ==== Sys2Proof/Machine/Flags.lean ====
section
/-! DEFINITION. Every condition, predicate and class computation: the conditions of ICMP and FCMP, the combine, FCLASS and
PLOP (15_lane_instructions.md R196-R200, R207, R208). -/

namespace Sys2Proof.Machine

open Sys2Proof

/-- The condition of ICMP on two integers (Table 15.5). -/
def icond (k : Cond) (a b : Int) : Bool :=
  match k with
  | .eq => a == b
  | .ne => a != b
  | .lt => a < b
  | .le => a ≤ b
  | .gt => a > b
  | .ge => a ≥ b
  | .num => false
  | .nan => false

/-- Equality of two values that are no NaN; ±0 are equal (R207). -/
def FVal.same (a b : FVal) : Bool := FVal.le a b && FVal.le b a

/-- The condition of FCMP (Table 15.5). -/
def fcond (k : Cond) (a b : FVal) : Bool :=
  let un := a.isNan || b.isNan
  match k with
  | .eq => !un && a.same b
  | .ne => un || !a.same b
  | .lt => !un && a.lt b
  | .le => !un && a.le b
  | .gt => !un && b.lt a
  | .ge => !un && b.le a
  | .num => !un
  | .nan => un

/-- The combine field (Table 15.5). -/
def combine (k : Comb) (x c : Bool) : Bool :=
  match k with
  | .and => x && c
  | .or => x || c
  | .xor => x != c

/-- The truth table of PLOP (R199). -/
def plopBit (table : BitVec 8) (a b c : Bool) : Bool :=
  table.getLsbD ((if a then 4 else 0) + (if b then 2 else 0) + (if c then 1 else 0))

/-- The class mask of FCLASS (R208), of a code of a format. -/
def classMask (f : Fmt) (x : Nat) : Word :=
  let neg := x / 2 ^ (f.ebits + f.mbits) % 2 == 1
  match decodeF f x with
  | .nan => 1 <<< 8
  | .inf n => if n then 1 else 1 <<< 7
  | .fin _ m _ =>
    if m = 0 then (if neg then 1 <<< 3 else 1 <<< 4)
    else if m < 2 ^ f.mbits then (if neg then 1 <<< 2 else 1 <<< 5)
    else (if neg then 1 <<< 1 else 1 <<< 6)

end Sys2Proof.Machine
end

