-- ==== Sys2Proof/Machine/Int.lean ====
section
/-! DEFINITION. The INT class: integer arithmetic, logic, shifts, bit fields, compares, selection, predicates, moves and
addresses (15_lane_instructions.md R188-R203). Results are interlocked (Table 13.8). -/

namespace Sys2Proof.Machine

open Sys2Proof

abbrev Outcome := Host.Outcome State Fault Refusal

/-- An INT instruction: every thread of Active gets `f` of its operands (R184). -/
def laneNow (i : Instr) (s : State) (wide : Bool) (d : Opd) (f : State → Ctx → Nat → Dword) : Outcome :=
  issue i s fun c s => .ok (writeNow s c (results c wide d (f s c)))

/-- An integer operand A and an operand B, as integers of the TYPE (R189). -/
def intA (ty : Ty) (s : State) (c : Ctx) (l : Nat) (a : Opd) : Int := intOf ty (readTy s c ty l a 0)
def intB (ty : Ty) (s : State) (c : Ctx) (l : Nat) (b : Src) : Int := intOf ty (readSrcTy s c ty l b 1)

/-! ### Arithmetic (R189) -/

/-- Two operands to an exact integer, brought into range. -/
def intBin (i : Instr) (s : State) (ty : Ty) (sat : Bool) (d a : Opd) (b : Src) (f : Int → Int → Int) : Outcome :=
  laneNow i s (Ty.wide ty) d fun s c l => intBits ty sat (f (intA ty s c l a) (intB ty s c l b))

def execIadd (h : Hdr) (ty : Ty) (sat : Bool) (d a : Opd) (b : Src) (s : State) : Outcome :=
  intBin (.iadd h ty sat d a b) s ty sat d a b fun x y => x + y
def execIsub (h : Hdr) (ty : Ty) (sat : Bool) (d a : Opd) (b : Src) (s : State) : Outcome :=
  intBin (.isub h ty sat d a b) s ty sat d a b fun x y => x - y
def execImul (h : Hdr) (ty : Ty) (sat : Bool) (d a : Opd) (b : Src) (s : State) : Outcome :=
  intBin (.imul h ty sat d a b) s ty sat d a b fun x y => x * y
def execImulh (h : Hdr) (ty : Ty) (d a : Opd) (b : Src) (s : State) : Outcome :=
  intBin (.imulh h ty d a b) s ty false d a b fun x y => x * y / 2 ^ Ty.width ty
def execImad (h : Hdr) (ty : Ty) (sat : Bool) (d a b c : Opd) (s : State) : Outcome :=
  laneNow (.imad h ty sat d a b c) s (Ty.wide ty) d fun s k l =>
    intBits ty sat (intA ty s k l a * intA ty s k l b + intOf ty (readTy s k ty l c 2))
/-- IDIV: all ones for a divisor of 0 (R89). -/
def divInt (x y : Int) : Int := if y = 0 then -1 else Int.tdiv x y
/-- IREM: the dividend for a divisor of 0 (R89). -/
def remInt (x y : Int) : Int := if y = 0 then x else x - y * Int.tdiv x y
def execIdiv (h : Hdr) (ty : Ty) (sat : Bool) (d a : Opd) (b : Src) (s : State) : Outcome :=
  laneNow (.idiv h ty sat d a b) s (Ty.wide ty) d fun s c l =>
    let y := intB ty s c l b
    intBits ty (sat && y != 0) (divInt (intA ty s c l a) y)
def execIrem (h : Hdr) (ty : Ty) (d a : Opd) (b : Src) (s : State) : Outcome :=
  intBin (.irem h ty d a b) s ty false d a b remInt
def execImin (h : Hdr) (ty : Ty) (d a : Opd) (b : Src) (s : State) : Outcome :=
  intBin (.imin h ty d a b) s ty false d a b fun x y => min x y
def execImax (h : Hdr) (ty : Ty) (d a : Opd) (b : Src) (s : State) : Outcome :=
  intBin (.imax h ty d a b) s ty false d a b fun x y => max x y
def execIabs (h : Hdr) (ty : Ty) (sat : Bool) (d a : Opd) (s : State) : Outcome :=
  laneNow (.iabs h ty sat d a) s (Ty.wide ty) d fun s c l => intBits ty sat ((intA ty s c l a).natAbs : Int)
def execIneg (h : Hdr) (ty : Ty) (sat : Bool) (d a : Opd) (s : State) : Outcome :=
  laneNow (.ineg h ty sat d a) s (Ty.wide ty) d fun s c l => intBits ty sat (-(intA ty s c l a))

/-! ### Logic, shifts and bit fields (R191-R195) -/

def logicBin (i : Instr) (s : State) (ty : Ty) (d a : Opd) (b : Src) (f : Dword → Dword → Dword) : Outcome :=
  laneNow i s (Ty.wide ty) d fun s c l => f (readTy s c ty l a 0) (readSrcZTy s c ty l b 1)

def execAnd (h : Hdr) (ty : Ty) (d a : Opd) (b : Src) (s : State) : Outcome :=
  logicBin (.and h ty d a b) s ty d a b fun x y => x &&& y
def execOr (h : Hdr) (ty : Ty) (d a : Opd) (b : Src) (s : State) : Outcome :=
  logicBin (.or h ty d a b) s ty d a b fun x y => x ||| y
def execXor (h : Hdr) (ty : Ty) (d a : Opd) (b : Src) (s : State) : Outcome :=
  logicBin (.xor h ty d a b) s ty d a b fun x y => x ^^^ y
def execNot (h : Hdr) (ty : Ty) (d a : Opd) (s : State) : Outcome :=
  laneNow (.not h ty d a) s (Ty.wide ty) d fun s c l => ~~~(readTy s c ty l a 0)

/-- The shifts of R192 by n = B[7:0]: `x` holds a value of 32 or 64 bits, zero-extended. -/
def shlBits (ty : Ty) (x : Dword) (n : Nat) : Dword := if n < Ty.width ty then x <<< n else 0
def shrBits (ty : Ty) (x : Dword) (n : Nat) : Dword :=
  if Ty.signed ty then
    (if Ty.wide ty then x.sshiftRight n else ((loWord x).sshiftRight n).setWidth 64)
  else if n < Ty.width ty then x >>> n else 0
def rotlBits (ty : Ty) (x : Dword) (n : Nat) : Dword :=
  if Ty.wide ty then x.rotateLeft (n % 64) else (rotl32 (loWord x) n).setWidth 64

def shiftBin (i : Instr) (s : State) (ty : Ty) (d a : Opd) (b : Src) (f : Ty → Dword → Nat → Dword) : Outcome :=
  laneNow i s (Ty.wide ty) d fun s c l => f ty (readTy s c ty l a 0) ((readSrcZ s c l b 1).toNat % 256)

def execShl (h : Hdr) (ty : Ty) (d a : Opd) (b : Src) (s : State) : Outcome :=
  shiftBin (.shl h ty d a b) s ty d a b shlBits
def execShr (h : Hdr) (ty : Ty) (d a : Opd) (b : Src) (s : State) : Outcome :=
  shiftBin (.shr h ty d a b) s ty d a b shrBits
def execRotl (h : Hdr) (ty : Ty) (d a : Opd) (b : Src) (s : State) : Outcome :=
  shiftBin (.rotl h ty d a b) s ty d a b rotlBits

/-- The bits of the field of R193: position B[7:0], length B[15:8], clipped at bit 31. -/
def fieldMask (b : Word) : Word :=
  let p := b.toNat % 256
  let q := min (p + b.toNat / 256 % 256) 32
  maskOf fun k => p ≤ k && k < q
def bfeBits (ty : Ty) (a b : Word) : Word :=
  let p := b.toNat % 256
  let q := min (p + b.toNat / 256 % 256) 32
  let f := (a &&& fieldMask b) >>> p
  if ty == .i32 && p < q && a.getLsbD (q - 1) then f ||| ~~~(fieldMask b >>> p) else f
def bfiBits (a b c : Word) : Word :=
  (c &&& ~~~(fieldMask b)) ||| ((a <<< (b.toNat % 256)) &&& fieldMask b)
def execBfe (h : Hdr) (ty : Ty) (d a : Opd) (b : Src) (s : State) : Outcome :=
  laneNow (.bfe h ty d a b) s false d fun s c l =>
    (bfeBits ty (readWord s c l a 0) (readSrcZ s c l b 1)).setWidth 64
def execBfi (h : Hdr) (ty : Ty) (d a b c : Opd) (s : State) : Outcome :=
  laneNow (.bfi h ty d a b c) s false d fun s k l =>
    (bfiBits (readWord s k l a 0) (readWord s k l b 1) (readWord s k l c 2)).setWidth 64

/-- Set bits among the low `w`. -/
def popBits (w : Nat) (x : Dword) : Nat := ((List.range w).filter fun k => x.getLsbD k).length
/-- Zero bits above the highest set bit of the low `w` (R194). -/
def clzBits (w : Nat) (x : Dword) : Nat := ((List.range w).reverse.takeWhile fun k => !x.getLsbD k).length
/-- The low `w` bits in reverse order. -/
def revBits (w : Nat) (x : Dword) : Dword :=
  (List.range w).foldl (fun y k => if x.getLsbD k then y ||| (1#64 <<< (w - 1 - k)) else y) 0
def execPopc (h : Hdr) (ty : Ty) (d a : Opd) (s : State) : Outcome :=
  laneNow (.popc h ty d a) s false d fun s c l => BitVec.ofNat 64 (popBits (Ty.width ty) (readTy s c ty l a 0))
def execClz (h : Hdr) (ty : Ty) (d a : Opd) (s : State) : Outcome :=
  laneNow (.clz h ty d a) s false d fun s c l => BitVec.ofNat 64 (clzBits (Ty.width ty) (readTy s c ty l a 0))
def execBrev (h : Hdr) (ty : Ty) (d a : Opd) (s : State) : Outcome :=
  laneNow (.brev h ty d a) s (Ty.wide ty) d fun s c l => revBits (Ty.width ty) (readTy s c ty l a 0)

/-- PRMT: the pool's low word, its high word, the selector (R195). -/
def prmtBits (lo hi sel : Word) : Word :=
  let pool : Dword := joinPair lo hi
  (List.range 4).foldl (fun r k =>
    let n := sel.toNat / 16 ^ k % 16
    let y : Byte := pool.extractLsb' (8 * (n % 8)) 8
    let b : Byte := if n ≥ 8 then (if y.getLsbD 7 then 0xFF else 0) else y
    r ||| (b.setWidth 32 <<< (8 * k))) 0
def execPrmt (h : Hdr) (d a : Opd) (b : PrmtSrc) (s : State) : Outcome :=
  laneNow (.prmt h d a b) s false d fun s k l =>
    match b with
    | .reg b c => (prmtBits (readWord s k l a 0) (readWord s k l b 1) (readWord s k l c 2)).setWidth 64
    | .imm x => (prmtBits (readWord s k l a 0) 0 (x.setWidth 32)).setWidth 64

/-! ### Compares, selection and predicates (R197-R200) -/

def boolDword (b : Bool) : Dword := if b then 1 else 0

def execIcmp (h : Hdr) (cond : Cond) (ty : Ty) (d a : Opd) (b : CmpSrc) (s : State) : Outcome :=
  laneNow (.icmp h cond ty d a b) s false d fun s c l =>
    match b with
    | .plain b => boolDword (icond cond (intA ty s c l a) (intB ty s c l b))
    | .comb k b p =>
      boolDword (combine k (icond cond (intA ty s c l a) (intOf ty (readTy s c ty l b 1))) (readWord s c l p 2 != 0))
def execSel (h : Hdr) (ty : Ty) (d a b c : Opd) (s : State) : Outcome :=
  laneNow (.sel h ty d a b c) s (Ty.wide ty) d fun s k l =>
    if readWord s k l c 2 != 0 then readTy s k ty l a 0 else readTy s k ty l b 1
def execPlop (h : Hdr) (table : BitVec 8) (d a b c : Opd) (s : State) : Outcome :=
  laneNow (.plop h table d a b c) s false d fun s k l =>
    boolDword (plopBit table (readWord s k l a 0 != 0) (readWord s k l b 1 != 0) (readWord s k l c 2 != 0))
/-- p0 to p6 as a mask, with bit 7 for p7 (R200). -/
def predSet (s : State) (c : Ctx) (l : Nat) : Dword :=
  (List.range 7).foldl (fun m k => if readPred s (s.troupe c.t) l k k then m ||| (1#64 <<< k) else m) 0x80
def execPmovGet (h : Hdr) (d : Opd) (s : State) : Outcome :=
  laneNow (.pmovGet h d) s false d fun s c l => predSet s c l
def execPmovSet (h : Hdr) (a : Opd) (b : Src) (s : State) : Outcome :=
  issue (.pmovSet h a b) s fun c s =>
    .ok (writeNow s c ((lanes c.act).map fun l =>
      let x := readWord s c l a 0
      let m := readSrcZ s c l b 1
      (l, (List.range 7).filterMap fun k =>
        if m.getLsbD k then some (pKey l k, boolWord (x.getLsbD k)) else none)))

/-! ### Moves and addresses (R202, R203) -/

def execMov (h : Hdr) (ty : Ty) (d a : Opd) (s : State) : Outcome :=
  laneNow (.mov h ty d a) s (Ty.wide ty) d fun s c l => readTy s c ty l a 0
def execMovi (h : Hdr) (d : Opd) (x : Word) (s : State) : Outcome :=
  laneNow (.movi h d x) s false d fun _ _ _ => x.setWidth 64
/-- MOVI .hi writes the odd register above D (R154). -/
def execMoviHi (h : Hdr) (d : Opd) (x : Word) (s : State) : Outcome :=
  issue (.moviHi h d x) s fun c s => .ok (writeNow s c ((writers c d).map fun l => (l, destPart d l 1 x)))

/-- The code object's address as the RUN packet names it: space 0, PLAIN, T = 00 (R203). -/
def codeBase (s : State) (t : Nat) : Dword := 0x8000000000000000#64 + BitVec.ofNat 64 (s.runOf t).code
def leaOff (ty : Ty) (s : State) (c : Ctx) (l : Nat) (b : Src) : Dword :=
  match b with
  | .imm x => x.signExtend 64
  | .reg o => if ty == .i32 then (readWord s c l o 1).signExtend 64 else (readWord s c l o 1).setWidth 64
def execLea (h : Hdr) (ty : Ty) (sh : Fin 4) (d a : Opd) (b : Src) (s : State) : Outcome :=
  laneNow (.lea h ty sh d a b) s true d fun s c l => readPair s c l a 0 + (leaOff ty s c l b <<< sh.val)
def execLeaCode (h : Hdr) (ty : Ty) (sh : Fin 4) (d : Opd) (b : Src) (s : State) : Outcome :=
  laneNow (.leaCode h ty sh d b) s true d fun s c l => codeBase s c.t + (leaOff ty s c l b <<< sh.val)

end Sys2Proof.Machine
end

