-- ==== Sys2Proof/Machine/Fp.lean ====
section
/-! DEFINITION. The FP class (15_lane_instructions.md R204-R210). FADD to FCMP, FCLASS and FRINT issue to the FP pipe and are
interlocked; the functions issue to the XF pipe and are not (Table 13.8). -/

namespace Sys2Proof.Machine

open Sys2Proof

/-- Element `e` of an operand, flushed under `.ftz` (R205). -/
def fElem (ty : Ty) (ftz : Bool) (x : Word) (e : Nat) : FVal :=
  flush (fpElems ty).1 ftz (elemVal (fpElems ty).1 x e)

/-- An FP-pipe instruction: for each element the exact value `f`, rounded once (R205). -/
def fpNow (i : Instr) (s : State) (ty : Ty) (md : FMod) (d : Opd) (f : State → Ctx → Nat → Nat → FVal) : Outcome :=
  issue i s fun c s =>
    let fm := (fpElems ty).1
    let n := (fpElems ty).2
    let dr := draws s c md.rnd n
    .ok (writeNow dr.1 c (results c false d fun l =>
      (joinElems fm n fun e => rnd fm md (dr.2 l e) (f s c l e)).setWidth 64))

/-- Both operands, element by element. -/
def fpBin (i : Instr) (s : State) (ty : Ty) (md : FMod) (d a : Opd) (b : Src) (f : FVal → FVal → FVal) : Outcome :=
  fpNow i s ty md d fun s c l e =>
    f (fElem ty md.ftz (readWord s c l a 0) e) (fElem ty md.ftz (readSrcF s c ty l b 1) e)

def execFadd (h : Hdr) (ty : Ty) (m : FMod) (d a : Opd) (b : Src) (s : State) : Outcome :=
  fpBin (.fadd h ty m d a b) s ty m d a b fun x y => sumF (m.rnd == .rdn) [x, y]
def execFsub (h : Hdr) (ty : Ty) (m : FMod) (d a : Opd) (b : Src) (s : State) : Outcome :=
  fpBin (.fsub h ty m d a b) s ty m d a b fun x y => sumF (m.rnd == .rdn) [x, y.neg]
def execFmul (h : Hdr) (ty : Ty) (m : FMod) (d a : Opd) (b : Src) (s : State) : Outcome :=
  fpBin (.fmul h ty m d a b) s ty m d a b fun x y => x.mul y
def execFfma (h : Hdr) (ty : Ty) (m : FMod) (d a b c : Opd) (s : State) : Outcome :=
  fpNow (.ffma h ty m d a b c) s ty m d fun s k l e =>
    sumF (m.rnd == .rdn) [(fElem ty m.ftz (readWord s k l a 0) e).mul (fElem ty m.ftz (readWord s k l b 1) e),
      fElem ty m.ftz (readWord s k l c 2) e]

/-- An element-by-element operation that gives codes and rounds nothing (R206). -/
def fpCodes (i : Instr) (s : State) (ty : Ty) (d : Opd) (f : State → Ctx → Nat → Nat → Nat) : Outcome :=
  laneNow i s false d fun s c l => (joinElems (fpElems ty).1 (fpElems ty).2 fun e => f s c l e).setWidth 64

def execFmin (h : Hdr) (ty : Ty) (ftz : Bool) (d a : Opd) (b : Src) (s : State) : Outcome :=
  fpCodes (.fmin h ty ftz d a b) s ty d fun s c l e =>
    fMinMax (fpElems ty).1 false (fElem ty ftz (readWord s c l a 0) e) (fElem ty ftz (readSrcF s c ty l b 1) e)
def execFmax (h : Hdr) (ty : Ty) (ftz : Bool) (d a : Opd) (b : Src) (s : State) : Outcome :=
  fpCodes (.fmax h ty ftz d a b) s ty d fun s c l e =>
    fMinMax (fpElems ty).1 true (fElem ty ftz (readWord s c l a 0) e) (fElem ty ftz (readSrcF s c ty l b 1) e)
def execFabs (h : Hdr) (ty : Ty) (ftz : Bool) (d a : Opd) (s : State) : Outcome :=
  fpCodes (.fabs h ty ftz d a) s ty d fun s c l e => rne (fpElems ty).1 (fElem ty ftz (readWord s c l a 0) e).abs
def execFneg (h : Hdr) (ty : Ty) (ftz : Bool) (d a : Opd) (s : State) : Outcome :=
  fpCodes (.fneg h ty ftz d a) s ty d fun s c l e => rne (fpElems ty).1 (fElem ty ftz (readWord s c l a 0) e).neg

def execFcmp (h : Hdr) (cond : Cond) (ty : Ty) (ftz : Bool) (d a : Opd) (b : CmpSrc) (s : State) : Outcome :=
  laneNow (.fcmp h cond ty ftz d a b) s false d fun s c l =>
    let x := fElem ty ftz (readWord s c l a 0) 0
    match b with
    | .plain b => boolDword (fcond cond x (fElem ty ftz (readSrcF s c ty l b 1) 0))
    | .comb k b p =>
      boolDword (combine k (fcond cond x (fElem ty ftz (readWord s c l b 1) 0)) (readWord s c l p 2 != 0))

def execFclass (h : Hdr) (ty : Ty) (d a : Opd) (s : State) : Outcome :=
  laneNow (.fclass h ty d a) s false d fun s c l =>
    (classMask (fpElems ty).1 (elemCode (fpElems ty).1 (readWord s c l a 0) 0)).setWidth 64

/-- Round to an integral value (R209). -/
def frintF (r : Rnd) (x : FVal) : FVal :=
  match x with
  | .fin n m e => .fin n (roundInt r 0 n m e).natAbs 0
  | y => y
def execFrint (h : Hdr) (ty : Ty) (r : Rnd) (ftz : Bool) (d a : Opd) (s : State) : Outcome :=
  fpCodes (.frint h ty r ftz d a) s ty d fun s c l e =>
    rnd (fpElems ty).1 ⟨.rne, false, ftz⟩ 0 (frintF r (fElem ty ftz (readWord s c l a 0) e))

/-! ### Functions (R108, R210) -/

/-- An XF-pipe instruction: the result is owed. -/
def laneLate (i : Instr) (s : State) (wide : Bool) (d : Opd) (f : State → Ctx → Nat → Dword) : Outcome :=
  issue i s fun c s => .ok (writeLate s c (results c wide d (f s c)))

/-- A correctly rounded function of f32 (R108). -/
def fnExact (i : Instr) (s : State) (m : FMod) (d a : Opd) (f : FVal → FVal) : Outcome :=
  laneLate i s false d fun s c l => BitVec.ofNat 64 (rnd .f32 m 0 (f (fElem .f32 m.ftz (readWord s c l a 0) 0)))

/-- A function within 1 ulp (R108): the inputs of Table 7.5 give its values, every other one a free pick among the values
within 1 ulp. -/
def ulpFn (k : Nat) (m : FMod) (f : FVal → FVal) (x : FVal) : Nat :=
  match x with
  | .fin _ 0 _ => rnd .f32 m 0 (f x)
  | .fin _ _ _ => ulpRound k m (BitVec.ofNat 32 (rne .f32 x)) (f x)
  | _ => rnd .f32 m 0 (f x)
/-- DEDUCED, log 16. -/
def fnUlp (i : Instr) (s : State) (k : Nat) (m : FMod) (d a : Opd) (f : FVal → FVal) : Outcome :=
  laneLate i s false d fun s c l => BitVec.ofNat 64 (ulpFn k m f (fElem .f32 m.ftz (readWord s c l a 0) 0))

def execFrcp (h : Hdr) (m : FMod) (d a : Opd) (s : State) : Outcome := fnExact (.frcp h m d a) s m d a rcpF
def execFrsq (h : Hdr) (m : FMod) (d a : Opd) (s : State) : Outcome := fnUlp (.frsq h m d a) s 0 m d a rsqF
def execFsqrt (h : Hdr) (m : FMod) (d a : Opd) (s : State) : Outcome := fnExact (.fsqrt h m d a) s m d a sqrtF
def execFdiv (h : Hdr) (m : FMod) (d a : Opd) (b : Src) (s : State) : Outcome :=
  laneLate (.fdiv h m d a b) s false d fun s c l =>
    BitVec.ofNat 64 (rnd .f32 m 0
      (divF (fElem .f32 m.ftz (readWord s c l a 0) 0) (fElem .f32 m.ftz (readSrcF s c .f32 l b 1) 0)))
def execFexp2 (h : Hdr) (m : FMod) (d a : Opd) (s : State) : Outcome := fnExact (.fexp2 h m d a) s m d a exp2F
def execFlog2 (h : Hdr) (m : FMod) (d a : Opd) (s : State) : Outcome := fnExact (.flog2 h m d a) s m d a log2F
def execFsin (h : Hdr) (m : FMod) (d a : Opd) (s : State) : Outcome := fnUlp (.fsin h m d a) s 1 m d a (sinCosF false)
def execFcos (h : Hdr) (m : FMod) (d a : Opd) (s : State) : Outcome := fnUlp (.fcos h m d a) s 2 m d a (sinCosF true)
def execFtanh (h : Hdr) (m : FMod) (d a : Opd) (s : State) : Outcome := fnUlp (.ftanh h m d a) s 3 m d a tanhF

end Sys2Proof.Machine
end

