-- ==== Sys2Proof/Machine/Cvt.lean ====
section
/-! DEFINITION. The CVT class and the SIG class (15_lane_instructions.md R211-R223). Both issue to the XF pipe; results are
owed (Table 13.8). -/

namespace Sys2Proof.Machine

open Sys2Proof

def Ty.isInt (t : Ty) : Bool := match t with
  | .i32 | .n32 | .i64 | .n64 | .i16 | .n16 | .i8 | .n8 => true
  | _ => false

/-- An XF instruction that may round with sr: `n` element positions (R98). -/
def xfDraw (i : Instr) (s : State) (r : Rnd) (n : Nat) (f : State → Ctx → (Nat → Nat → Word) → Writes) : Outcome :=
  issue i s fun c s =>
    let dr := draws s c r n
    .ok (writeLate dr.1 c (f s c dr.2))

/-! ### CVT (R212, Table 15.9) -/

/-- A floating-point value to an integer type: rounded, then clamped; NaN gives 0 (R90). -/
def fToInt (dst : Ty) (r : Rnd) (q : Word) (x : FVal) : Dword :=
  match x with
  | .nan => 0
  | .inf n => intBits dst true (if n then intMin dst else intMax dst)
  | .fin n m e => intBits dst true (roundInt r q n m e)

def cvtBits (src dst : Ty) (m : FMod) (q : Word) (x : Dword) : Dword :=
  if Ty.isInt src then
    if Ty.isInt dst then intBits dst m.sat (intOf src x)
    else BitVec.ofNat 64 (rnd (fpElems dst).1 m q (FVal.ofInt (intOf src x)))
  else
    let y := fElem src m.ftz (loWord x) 0
    if Ty.isInt dst then fToInt dst m.rnd q y else BitVec.ofNat 64 (rnd (fpElems dst).1 m q y)

def execCvt (h : Hdr) (src dst : Ty) (m : FMod) (d a : Opd) (s : State) : Outcome :=
  xfDraw (.cvt h src dst m d a) s m.rnd 1 fun s c q =>
    results c (Ty.wide dst) d fun l => cvtBits src dst m (q l 0) (readTy s c src l a 0)

/-! ### PACK, UNPACK, SCALE, AMAX (R213-R217) -/

/-- The scale of a `.sc` form. -/
def scaleCode (s : State) (c : Ctx) (l : Nat) (sc : Option Src) : Option Nat :=
  sc.map fun b => (readSrcZ s c l b 1).toNat % 256

/-- An element before PACK rounds it: times 2^(127 − c) under `.sc`. -/
def packVal (sc : Option Nat) (x : FVal) : FVal :=
  match sc with
  | none => x
  | some k => if k = 0xFF then .nan else x.scale (127 - (k : Int))

/-- PACK: an element that overflows saturates only under `.sat`, with `.sc` too (R96, R213).
DEDUCED, log 137. -/
def execPack (h : Hdr) (ty : Ty) (m : FMod) (d a : Opd) (sc : Option Src) (s : State) : Outcome :=
  xfDraw (.pack h ty m d a sc) s m.rnd (fpElems ty).2 fun s c q =>
    results c false d fun l => (joinElems (fpElems ty).1 (fpElems ty).2 fun i =>
      rnd (fpElems ty).1 m (q l i)
        (packVal (scaleCode s c l sc) (fElem .f32 m.ftz (readPart s c l a i 0) 0))).setWidth 64

def execUnpack (h : Hdr) (ty : Ty) (sat : Bool) (d a : Opd) (sc : Option Src) (s : State) : Outcome :=
  issue (.unpack h ty sat d a sc) s fun c s =>
    .ok (writeLate s c (blockResults c d (fpElems ty).2 fun l i =>
      let y := elemVal (fpElems ty).1 (readWord s c l a 0) i
      let z := match scaleCode s c l sc with
        | none => y
        | some k => scaled k y
      BitVec.ofNat 32 (rnd .f32 ⟨.rne, sat, false⟩ 0 z)))

def execScaleApply (h : Hdr) (m : FMod) (d a : Opd) (b : Src) (s : State) : Outcome :=
  laneLate (.scaleApply h m d a b) s false d fun s c l =>
    BitVec.ofNat 64 (rnd .f32 m 0
      (scaled ((readSrcZ s c l b 1).toNat % 256) (fElem .f32 m.ftz (readWord s c l a 0) 0)))

def mxFmt : MxFmt → Fmt
  | .e4m3 => .e4m3
  | .e5m2 => .e5m2
  | .e2m1 => .e2m1
def execScaleMx (h : Hdr) (f : MxFmt) (d a : Opd) (s : State) : Outcome :=
  laneLate (.scaleMx h f d a) s false d fun s c l =>
    BitVec.ofNat 64 (mxScale (mxFmt f) (elemVal .f32 (readWord s c l a 0) 0))

def execAmax (h : Hdr) (ty : Ty) (d a b : Opd) (s : State) : Outcome :=
  laneLate (.amax h ty d a b) s false d fun s c l =>
    BitVec.ofNat 64 (rne .f32 (amaxF (elemVal .f32 (readWord s c l b 1) 0 ::
      (List.range (fpElems ty).2).map fun e => elemVal (fpElems ty).1 (readWord s c l a 0) e)))

/-- SRSEED (R98, R100, R218). -/
def execSrseed (h : Hdr) (a : Opd) (s : State) : Outcome :=
  issue (.srseed h a) s fun c s =>
    if c.idle then .ok s
    else
      match uniformTrap c fun l => (readWord s c l a 0).setWidth 64 with
      | some x => .trap s x
      | none =>
        let v := readWord s c c.low a 0
        let tr := s.troupe c.t
        .ok (s.setTroupe c.t { tr with srState := if v = 0 then srInitial else v, srSeed := v })

/-! ### Dot products (R219) -/

/-- Scales of a `.sc` dot product: sa and sb of C + 1. -/
def dotScale (sc : Bool) (w : Word) : Option Int :=
  if !sc then some 0
  else
    let sa := w.toNat % 256
    let sb := w.toNat / 256 % 256
    if sa = 0xFF || sb = 0xFF then none else some ((sa : Int) + sb - 254)

/-- The exact sum of a floating-point dot product. -/
def dotF (rdn sc : Bool) (scales : Word) (fa fb : Fmt) (n : Nat) (a b : Word) (c : FVal) : FVal :=
  match dotScale sc scales with
  | none => .nan
  | some k => sumF rdn ((List.range n).map (fun e => ((elemVal fa a e).mul (elemVal fb b e)).scale k) ++ [c])

/-- A floating-point dot product with one rounding (R105). -/
def dotNow (i : Instr) (s : State) (sc : Bool) (m : FMod) (fa fb : Fmt) (n : Nat) (d a b k : Opd) : Outcome :=
  xfDraw i s m.rnd 1 fun s c q =>
    results c false d fun l =>
      let cw := if sc then readPart s c l k 0 2 else readWord s c l k 2
      BitVec.ofNat 64 (rnd .f32 m (q l 0)
        (dotF (m.rnd == .rdn) sc (readPart s c l k 1 2) fa fb n (readWord s c l a 0) (readWord s c l b 1)
          (fElem .f32 m.ftz cw 0)))

/-- DOT2: `.ftz` flushes the addend and the result, and never the packed elements (R219).
DEDUCED, log 152. -/
def execDot2 (h : Hdr) (ty : Ty) (m : FMod) (d a b c : Opd) (s : State) : Outcome :=
  dotNow (.dot2 h ty m d a b c) s false m (fpElems ty).1 (fpElems ty).1 2 d a b c

/-- A byte of a word as an integer. -/
def byteInt (signed : Bool) (w : Word) (k : Nat) : Int :=
  let b : Byte := w.extractLsb' (8 * k) 8
  if signed then b.toInt else b.toNat
/-- The integer dot product of DOT4. -/
def dot4Int (sa sb : Bool) (a b c : Word) : Int :=
  (List.range 4).foldl (fun x k => x + byteInt sa a k * byteInt sb b k) c.toInt

/-- The other eight-bit format, which `.xb` gives B. -/
def xbFmt (xb : Bool) : Fmt → Fmt
  | .e4m3 => if xb then .e5m2 else .e4m3
  | .e5m2 => if xb then .e4m3 else .e5m2
  | f => f

def execDot4 (h : Hdr) (ty : Ty) (sc xb : Bool) (m : FMod) (d a b c : Opd) (s : State) : Outcome :=
  if Ty.isInt ty then
    laneLate (.dot4 h ty sc xb m d a b c) s false d fun s k l =>
      intBits .i32 m.sat (dot4Int (ty == .i8) ((ty == .i8) != xb)
        (readWord s k l a 0) (readWord s k l b 1) (readWord s k l c 2))
  else
    dotNow (.dot4 h ty sc xb m d a b c) s sc m (fpElems ty).1 (xbFmt xb (fpElems ty).1) 4 d a b c

def execDot8 (h : Hdr) (sc : Bool) (m : FMod) (d a b c : Opd) (s : State) : Outcome :=
  dotNow (.dot8 h sc m d a b c) s sc m .e2m1 .e2m1 8 d a b c

/-! ### Signal processing (R220-R223) -/

/-- Part k of a complex or twofold operand, flushed. -/
def cPart (s : State) (c : Ctx) (m : FMod) (l : Nat) (o : Opd) (k place : Nat) : FVal :=
  fElem .f32 m.ftz (readPart s c l o k place) 0

/-- The four components of a + w·b and a − w·b (R105, R221). -/
def cbflyVal (rdn : Bool) (are aim bre bim wre wim : FVal) (k : Nat) : FVal :=
  match k with
  | 0 => sumF rdn [are, wre.mul bre, (wim.mul bim).neg]
  | 1 => sumF rdn [aim, wre.mul bim, wim.mul bre]
  | 2 => sumF rdn [are, (wre.mul bre).neg, wim.mul bim]
  | _ => sumF rdn [aim, (wre.mul bim).neg, (wim.mul bre).neg]

def execCbfly (h : Hdr) (m : FMod) (d a b w : Opd) (s : State) : Outcome :=
  issue (.cbfly h m d a b w) s fun c s =>
    .ok (writeLate s c (blockResults c d 4 fun l k =>
      BitVec.ofNat 32 (rnd .f32 m 0 (cbflyVal (m.rnd == .rdn)
        (cPart s c m l a 0 0) (cPart s c m l a 1 0) (cPart s c m l b 0 1) (cPart s c m l b 1 1)
        (cPart s c m l w 0 2) (cPart s c m l w 1 2) k))))

/-- The two components of a·b or a·conj(b) (R222). -/
def cmulVal (rdn : Bool) (are aim bre bim : FVal) (k : Nat) : FVal :=
  if k = 0 then sumF rdn [are.mul bre, (aim.mul bim).neg] else sumF rdn [are.mul bim, aim.mul bre]

def execCmul (h : Hdr) (conj : Bool) (m : FMod) (d a b : Opd) (s : State) : Outcome :=
  issue (.cmul h conj m d a b) s fun c s =>
    .ok (writeLate s c (blockResults c d 2 fun l k =>
      let bim := cPart s c m l b 1 1
      BitVec.ofNat 32 (rnd .f32 m 0 (cmulVal (m.rnd == .rdn)
        (cPart s c m l a 0 0) (cPart s c m l a 1 0) (cPart s c m l b 0 1) (if conj then bim.neg else bim) k))))

/-- The pair of TWID (R223): the canonical NaN twice for a register L above 16. -/
def twidPair (logN : Nat) (a : Word) : Nat × Nat :=
  if logN > 16 then (Fmt.nan .f32, Fmt.nan .f32) else twiddle logN a.toNat
def execTwid (h : Hdr) (d a : Opd) (b : Src) (s : State) : Outcome :=
  issue (.twid h d a b) s fun c s =>
    .ok (writeLate s c (blockResults c d 2 fun l k =>
      let p := twidPair ((readSrcZ s c l b 1).toNat % 32) (readWord s c l a 0)
      BitVec.ofNat 32 (if k = 0 then p.1 else p.2)))

end Sys2Proof.Machine
end

