-- ==== Sys2Proof/Machine/Mem.lean ====
section
/-! DEFINITION. Addresses and accesses: the generic address, the checks made at issue, where a space lies, the byte ranges of
tensors, and how an access is entered with what it must follow (05_windows.md R68-R83, R432; 11_derived.md R145, R434;
17_memory_control_instructions.md R224-R237; 21_consistency.md R308, R312-R314). -/

namespace Sys2Proof.Machine

open Sys2Proof

/-! ### The generic address (R68, R69) -/

def isLocalForm (x : Dword) : Bool := x.getLsbD 63
def winOf (x : Dword) : Nat := (x.extractLsb' 59 4).toNat
def spaceOf (x : Dword) : Nat := (x.extractLsb' 56 3).toNat
def typeOf (x : Dword) : Nat := (x.extractLsb' 54 2).toNat
def offOf (x : Dword) : Nat := (x.extractLsb' 0 54).toNat
/-- The scratchpad offset of space 0 and of a remote device: [33:0]. -/
def scratchOff (x : Dword) : Nat := (x.extractLsb' 0 34).toNat
def remoteId (x : Dword) : Nat := (x.extractLsb' 34 14).toNat
def segOf (x : Dword) : Nat := (x.extractLsb' 19 5).toNat
def segOff (x : Dword) : Nat := (x.extractLsb' 0 19).toNat
/-- Offset of the troupe stack and of parameter space: [31:0]. -/
def low32 (x : Dword) : Nat := (x.extractLsb' 0 32).toNat

/-- Does the address break R68 or R69 for a thread of this company? -/
def badForm (co : Company) (x : Dword) : Bool :=
  !isLocalForm x ||
  (match spaceOf x with
   | 0 => offOf x ≥ 2 ^ 34
   | 1 => offOf x ≥ 2 ^ 24 || segOf x ≥ co.stages.length
   | 2 => offOf x ≥ 2 ^ 32
   | 3 => offOf x ≥ 2 ^ 32
   | 4 => offOf x ≥ 2 ^ 48
   | _ => true)

/-- This module's own device id. -/
def skid (s : State) : Nat := s.ports.skid
/-- Is the address another module's (R71)? -/
def isRemote (s : State) (x : Dword) : Bool := spaceOf x == 4 && remoteId x != skid s
/-- Is the address die scratchpad, a remote one that names this device included? -/
def isScratchSpace (s : State) (x : Dword) : Bool := spaceOf x == 0 || (spaceOf x == 4 && remoteId x == skid s)

/-- First byte of a seat's troupe-stack area (R71; 23_scheduling.md R357). -/
def stackArea (s : State) (t l : Nat) : Nat := (s.companyOf t).stackBase + seatOf t l * (s.runOf t).stack
/-- Physical address of byte `b` of segment `k` of a company. -/
def companyAddr (co : Company) (k b : Nat) : Nat := cmAddr (co.stages.getD k 0) (co.cmBase.getD k 0 + b)
/-- Physical address of a local address of a thread; the scratchpad offset for a remote one. -/
def physOf (s : State) (t l : Nat) (x : Dword) : Nat :=
  match spaceOf x with
  | 1 => companyAddr (s.companyOf t) (segOf x) (segOff x)
  | 2 => stackArea s t l + low32 x
  | 3 => (s.runOf t).param + low32 x
  | _ => scratchOff x
def devOf (s : State) (x : Dword) : Option Nat := if isRemote s x then some (remoteId x) else none

/-! ### The save area (R381, R382) -/

def roundUp (n k : Nat) : Nat := (n + k - 1) / k * k
/-- VB and TB. -/
def Run.vecBytes (r : Run) : Nat := roundUp (128 * r.regs) 256
def Run.troupeBytes (r : Run) : Nat := 69632 + r.vecBytes + 16384 * r.acct
def Run.memBytes (r : Run) : Nat := roundUp (r.nstages * r.cmem) 256
/-- CB. -/
def Run.companyBytes (r : Run) : Nat := 50944 + r.memBytes + r.troupes * r.troupeBytes
/-- Company block c, and the block of troupe t of a company. -/
def Run.companyBlock (r : Run) (c : Nat) : Nat := r.save + 256 + c * r.companyBytes
def Run.troupeBlock (r : Run) (c t : Nat) : Nat := r.companyBlock c + 50944 + r.memBytes + t * r.troupeBytes
/-- The block of a troupe by its key. -/
def blockOf (s : State) (t : Nat) : Nat := (s.runOf t).troupeBlock (s.companyOf t).index (troupeNo t)

/-! ### Windows (R75, R76) -/

/-- Is the window a load window for loads, a store window for stores? -/
def winKind (load : Bool) (w : Nat) : Bool :=
  if load then w == 0 || w == 1 || (9 ≤ w && w ≤ 12) else w == 0 || (2 ≤ w && w ≤ 8)
/-- Sizes of Table 5.3. -/
def winSize (w n : Nat) : Bool :=
  match w with
  | 0 | 1 | 7 => n == 1 || n == 2 || n == 4 || n == 8
  | 9 => n == 8
  | _ => n == 4 || n == 8
/-- Table 5.4. -/
def winSpace (load : Bool) (w sp : Nat) : Bool :=
  match sp with
  | 0 | 4 => w ≤ 12
  | 1 => w == 0 || (2 ≤ w && w ≤ 7) || w == 10 || w == 12
  | 2 => w == 0
  | 3 => load && (w == 0 || w == 1)
  | _ => false
/-- The operation a window names at the home. -/
def winOp (load : Bool) (w : Nat) : AOp :=
  match w with
  | 1 => .ro | 2 => .add | 3 => .max | 4 => .min | 5 => .or | 6 => .and | 7 => .cast | 8 => .enq | 9 => .deq
  | 10 => .take | 11 => .count | 12 => .await
  | _ => if load then .load else .store
/-- Queue operations name a 32-byte descriptor (R79). -/
def opQueue : AOp → Bool
  | .enq | .deq | .aenq | .adeq => true
  | _ => false
/-- Does the operation modify memory (R145)? -/
def opModifies : AOp → Bool
  | .load | .ro | .await | .probe | .wpwait => false
  | _ => true
/-- Is it one read-modify-write step at the home (R84)? -/
def opRmw : AOp → Bool
  | .load | .ro | .await | .probe | .wpwait | .store | .cast => false
  | _ => true
/-- Does it return a value? -/
def opReturns : AOp → Bool
  | .load | .ro | .deq | .take | .count | .await | .exch | .cas | .aenq | .adeq | .probe | .wpwait => true
  | _ => false

/-! ### Ranges of tensors (R434) -/

/-- Bytes of `n` elements of a format (Table 11.2). -/
def fmtBytes (fmt n : Nat) : Nat :=
  match fmt with
  | 0 => 4 * n
  | 1 | 2 => 2 * n
  | 5 => n / 2
  | _ => n
def Tensor.span (x : Tensor) : Nat := (x.rows - 1) * x.stride + fmtBytes x.fmt x.cols
def Entry.block (e : Entry) : Nat := if e.blk16 then 16 else 32
def Entry.isMx (e : Entry) : Bool := e.rule == 3 || e.rule == 5
def Entry.scaleSpan (e : Entry) : Nat := if e.isMx then e.der.rows * (e.der.cols / e.block) else 0
def sumNat (xs : List Nat) : Nat := xs.foldl (· + ·) 0
/-- Do two byte ranges meet? -/
def overlaps (a n b m : Nat) : Bool := a < b + m && b < a + n
/-- Does a range meet the entry's derived or scale range? -/
def Entry.hits (e : Entry) (a n : Nat) : Bool :=
  overlaps a n e.der.off e.der.span || overlaps a n e.scale e.scaleSpan
def usedEntries (s : State) : List (Nat × Entry) := s.entries.filter fun x => x.2.used
/-- Does a range meet a registered derived or scale range (R145)? -/
def inDerived (s : State) (a n : Nat) : Bool := (usedEntries s).any fun x => x.2.hits a n

/-! ### CAST targets (R78) -/

/-- The companies of a circuit of a run. -/
def circuitOf (s : State) (r c : Nat) : List Nat :=
  (s.companies.filter fun x => x.2.run == r && x.2.placed && !x.2.retired &&
    circuitIndex (s.run r) x.2.index == circuitIndex (s.run r) c).map Prod.fst
/-- The dies of a multicast map: 0 stands for the issuing die. -/
def castDies (map die : Nat) : List Nat :=
  if map = 0 then [die] else (List.range 4).filter fun d => map / 2 ^ d % 2 == 1
/-- Physical addresses of the deliveries of a thread's CAST store. -/
def castTargets (s : State) (t : Nat) (x : Dword) : List Nat :=
  let co := s.companyOf t
  if spaceOf x = 1 then (circuitOf s co.run co.index).map fun c =>
    if (s.company c).offCore then awayAddr c (segOf x) (segOff x) else companyAddr (s.company c) (segOf x) (segOff x)
  else (castDies (s.run co.run).castMap co.die).map fun d => 2 ^ 32 * d + scratchOff x % 2 ^ 32

/-! ### The checks at issue (R70) -/

/-- What an instruction asks of an address. -/
structure Want where
  load  : Bool
  size  : Nat
  align : Nat                    -- alignment, before that of a queue descriptor
  bytes : Nat                    -- bytes that must lie in the partition
  plain : Bool                   -- only the PLAIN window, in spaces `spaces` (R239, R249)
  castToo : Bool                 -- STX: PLAIN and CAST; LDX: PLAIN and RO (R234)
  spaces : List Nat
  modifies : Bool                -- for PLAIN-window instructions: they modify the bytes

/-- A plain load or store of a size (R232, R233). -/
def Want.access (load : Bool) (size : Nat) : Want := ⟨load, size, size, size, false, false, [], !load⟩

def winOk (w : Want) (win sp : Nat) : Bool :=
  if w.plain then win == 0 && w.spaces.contains sp
  else if w.castToo then (win == 0 || win == (if w.load then 1 else 7)) && winSpace w.load win sp
  else winKind w.load win && winSize win w.size && winSpace w.load win sp

/-- The partition check of Table 5.2 on `n` bytes: the trap code.
DEDUCED, log 24. -/
def boundsCheck (s : State) (t : Nat) (x : Dword) (n : Nat) : Option Nat :=
  let r := s.runOf t
  if isRemote s x then none
  else match spaceOf x with
    | 1 => if segOff x + n ≤ r.cmem then none else some 0x13
    | 2 => if low32 x + n ≤ r.stack then none else some 0x21
    | 3 => if low32 x + n ≤ r.psize then none else some 0x13
    | _ => if rangeInPart s r.part (scratchOff x) n then none else some 0x13

/-- The bytes that an instruction would modify, past its address: the counts of a descriptor that it may write (R80), else what
it accesses.
DEDUCED, log 123. -/
def Want.modified (w : Want) (op : AOp) : List (Nat × Nat) :=
  if w.plain then (if !w.modifies then [] else if w.align != 32 then [(0, w.bytes)] else if w.load then [(0, 4)] else [(4, 4), (12, 4)])
  else match op with
  | .enq => [(4, 4), (12, 4)]
  | .deq => [(0, 4)]
  | op => if opModifies op then [(0, w.bytes)] else []
/-- Where an access of a thread goes. -/
def touched (s : State) (t l : Nat) (x : Dword) : List Nat :=
  if isRemote s x then []
  else if winOf x = 7 then castTargets s t x
  else [physOf s t l x]

/-- R70 and R145 for one lane: the place in the order of the checks, and the code. -/
def laneCheck (s : State) (t l : Nat) (w : Want) (x : Dword) : Option (Nat × Nat) :=
  let win := winOf x
  let op := winOp w.load win
  let align := if opQueue op then 32 else w.align
  if badForm (s.companyOf t) x then some (1, 0x11)
  else if !winOk w win (spaceOf x) then some (2, 0x12)
  else if offOf x % align != 0 then some (3, 0x10)
  else if winOf x == 7 && isScratchSpace s x &&
      (castTargets s t x).any (fun a => !rangeInPart s (s.runOf t).part a w.bytes) then some (4, 0x13)
  else match (if winOf x == 7 && isScratchSpace s x then none else boundsCheck s t x w.bytes) with
    | some code => some (4, code)
    | none =>
      if (touched s t l x).any fun a => (w.modified op).any fun g => inDerived s (a + g.1) g.2 then some (5, 0x14)
      else none

/-- The trap of the lanes' checks: the earliest check that any lane failed, and the lanes that failed it (R70). Its value is
the lowest such lane's address, but for STACKOVF the PC (Table 25.1). -/
def checkLanes (c : Ctx) (ls : List Nat) (addr : Nat → Dword) (f : Nat → Option (Nat × Nat)) : Option TrapInfo :=
  let bad := ls.filterMap fun l => (f l).map fun r => (l, r)
  match bad with
  | [] => none
  | _ =>
    let first := bad.foldl (fun m b => min m b.2.1) 100
    let lanesOf := bad.filter fun b => b.2.1 == first
    let l0 := (lanesOf.map Prod.fst).headD 0
    let code := (lanesOf.map fun b => b.2.2).headD 0
    some (c.trapInfo code (maskOf fun l => lanesOf.any fun b => b.1 == l) (if code = 0x21 then c.pcVal else addr l0))

/-- Mark a run non-reproducible. -/
def markNonrepro (s : State) (t : Nat) : State := s.updRunOf t fun r => { r with nonrepro := true }
/-- What a deterministic run makes of operations whose order it cannot fix: a mark, or NONDET under the strict flag (R83). -/
def nondet (s : State) (c : Ctx) (m : Mask) : State × Option TrapInfo :=
  let r := s.runOf c.t
  if m = 0 || !r.determ then (s, none)
  else if r.strict then (s, some (c.trapInfo 0x41 m c.pcVal))
  else (markNonrepro s c.t, none)

/-! ### Entering an access -/

/-- An access with nothing to follow. -/
def Access.make (who : Who) (op : AOp) (addr : Dword) (phys size : Nat) : Access where
  id := 0
  who := who
  op := op
  addr := addr
  phys := phys
  size := size
  ty := 0
  data := 0
  cmp := 0
  after := []
  acq := false
  rel := false
  scope := .troupe
  vol := false
  home := false
  isStore := false
  pub := none
  st := .queued
  res := 0
  pend := 0
  dies := []
  deadline := 0
  issued := 0
  reported := false
  dev := none
  part := 0
  spill := false
  reply := false
  hold := 0
  castHeld := []
  acked := false
  cut := false
  reached := false
  early := none

/-- Enter an access; it takes the next id. -/
def addAcc (s : State) (a : Access) : State :=
  { s with
    accs := s.accs ++ [{ a with id := s.nextId, issued := s.wall, part := if a.part = 0 then s.nextId else a.part }]
    nextId := s.nextId + 1 }

/-- Bytes an access covers at its home: a queue operation covers its descriptor. -/
def Access.bytes (a : Access) : Nat := if opQueue a.op then 32 else if a.op == .wpwait then 16 else a.size
/-- The offsets of a CAST on the four dies (R78). -/
def fourDies (off : Nat) : List Nat := (List.range 4).map fun d => 2 ^ 32 * d + off % 2 ^ 32
/-- The ranges it covers: of a CAST to another device, those of all its four dies. -/
def Access.ranges (a : Access) : List (Nat × Nat) :=
  if a.op == .cast then (if a.dev.isNone then a.dies else fourDies a.phys).map fun p => (p, a.size) else [(a.phys, a.bytes)]
/-- Is it value-returning? -/
def Access.returns (a : Access) : Bool := opReturns a.op || a.pend != 0 || a.reply
/-- Do two accesses meet at one location of one device? -/
def Access.meets (a b : Access) : Bool :=
  a.dev == b.dev && a.ranges.any fun r => b.ranges.any fun q => overlaps r.1 r.2 q.1 q.2

def Who.stageOf (s : State) (w : Who) : Option Nat :=
  match w with
  | .thread t _ => some (s.troupe t).stage
  | .bundle t _ => some (s.troupe t).stage
  | .det _ st => some st
  | _ => none

/-- Is the scope die or wider? -/
def scopeOuter : Scope → Bool
  | .troupe | .stage => false
  | _ => true

/-- What an access of a lane must follow (R85, R237, R308): earlier accesses and waypoint steps of its troupe to the same location
that it cannot take its value from, acquires of its threads, and, for a release, the threads' accesses, the store queue, what
their loads took from the stage store buffer (R314), and, when it goes to another device, the troupe's accesses there (R321). An
RO load waits for no store, but successive ones stay in order (R86). R237 names no scope in what `.acq` and `.rel` order.
DEDUCED, log 138. -/
def followIds (s : State) (t : Nat) (ls : List Nat) (a : Access) : List Nat :=
  let own := s.accs.filter fun b => b.who.ofTroupe t
  let forwards (b : Access) : Bool := a.op == .load && !a.vol && !a.home && b.op == .store && b.dev.isNone
  let loose (b : Access) : Bool := a.op == .ro && !a.vol && b.op != .ro
  let mine (b : Access) : Bool := ls.any fun l => b.who.ofLane t l
  let same := own.filter fun b => a.meets b && !forwards b && !loose b
  let acqs := own.filter fun b => b.acq && mine b
  let steps := s.upds.filter fun u => u.ofTroupe t &&
    ((a.dev.isNone && a.ranges.any fun r => overlaps u.addr 16 r.1 r.2) || (a.rel && ls.any fun l => u.ofLane t l))
  let rels := if a.rel then
      (own.filter fun b => b.isStore || mine b || (a.dev.isSome && b.dev.isSome)).map Access.id ++
      (if scopeOuter a.scope then ls.flatMap fun l => (s.thread t l).took else [])
    else []
  same.map Access.id ++ acqs.map Access.id ++ rels ++ steps.map WpUpd.id

/-- What a load of a troupe checks: its troupe's earlier store-queue entries and the stage store buffer. -/
def buffered (s : State) (a : Access) : List Access :=
  s.accs.filter fun b => b.isStore && b.dev.isNone && b.id != a.id && a.meets b &&
    ((b.pub.isSome && b.who.stageOf s == a.who.stageOf s) ||
     (b.id < a.id && match a.who with
      | .thread t _ => b.who.ofTroupe t
      | .bundle t _ => b.who.ofTroupe t
      | _ => false)) &&
    !(b.id > a.id && match a.who with
      | .thread t _ => b.who.ofTroupe t
      | .bundle t _ => b.who.ofTroupe t
      | _ => false)

/-- Does a PLAIN load meet a buffered store that is not PLAIN (R86, R326)? -/
def windowHeld (s : State) (a : Access) : Bool := a.op == .load && (buffered s a).any fun b => b.op != .store
/-- Enter an access of lanes `ls` of a troupe. A PLAIN load that meets a buffered store of another window is taken at its home. -/
def enterAcc (s : State) (t : Nat) (ls : List Nat) (a : Access) : State :=
  let b := { a with home := windowHeld s { a with id := s.nextId } }
  addAcc s { b with after := followIds s t ls b }

/-- An acquire at die scope or wider drops the stage's RO cache (R86, R237). -/
def dropRo (s : State) (st : Nat) : State := s.setStage st { s.stage st with ro := [] }

/-- Free entries of the store queue are those beyond the lane stores it holds (R228). -/
def queueUsed (s : State) (t : Nat) : Nat := ((storeQueue s t).map Access.part).eraseDups.length
def queueFree (s : State) (t : Nat) : Nat := 128 - queueUsed s t

/-- Has a RELEASE of the company been performed (R301)? -/
def releasePerformed (s : State) (co : Company) : Bool := co.releases.any fun ids => ids.all fun i => accDone s i

/-! ### Engine operations (R120) -/

/-- Issue an engine operation: its counter rises. -/
def addOp (s : State) (t : Nat) (cls : Eng) (kind : EngKind) (after : List Nat) : State :=
  let tr := s.troupe t
  let o : EngOp := ⟨s.nextId, cls, kind, after, [], none, false⟩
  ({ s with nextId := s.nextId + 1 } : State).setTroupe t { tr with ops := tr.ops ++ [o] }
/-- An instruction that would raise a counter at 63 stalls (R120). -/
def counterFull (s : State) (t : Nat) (cls : Eng) (n : Nat) : Bool := (s.troupe t).counter cls + n > 63

end Sys2Proof.Machine
end

