-- ==== Sys2Proof/Machine/MemInstr.lean ====
section
/-! DEFINITION. The MEM and ATM classes: what a load, store or atomic reads, checks and enters at issue
(17_memory_control_instructions.md R224-R243; 05_windows.md R83; 23_scheduling.md R367). What happens at the home is in
Home.lean. -/

namespace Sys2Proof.Machine

open Sys2Proof

/-! ### Addresses and common steps -/

/-- The offset: the immediate, or B as i32, sign-extended (R224). -/
def offVal (s : State) (c : Ctx) (l : Nat) (off : Src) : Dword :=
  match off with
  | .imm x => x.signExtend 64
  | .reg o => (readWord s c l o 5).signExtend 64
def memAddr (s : State) (c : Ctx) (l : Nat) (base : Opd) (off : Src) : Dword := readPair s c l base 4 + offVal s c l off

/-- Lanes go on to the next instruction. -/
def advanceLanes (s : State) (c : Ctx) (m : Mask) : State := s.mapLanes c.t m fun _ th => th.advance c.hdr

def ldAcq : LdMod → Bool
  | .acq _ => true
  | _ => false
def ldScope : LdMod → Scope
  | .acq sc => sc
  | _ => .troupe
def stRel : StMod → Bool
  | .rel _ => true
  | _ => false
def stScope : StMod → Scope
  | .rel sc => sc
  | _ => .troupe
def atAcq : AtMod → Bool
  | .acq _ | .ar _ => true
  | _ => false
def atRel : AtMod → Bool
  | .rel _ | .ar _ => true
  | _ => false
def atScope : AtMod → Scope
  | .acq sc | .rel sc | .ar sc => sc
  | .plain => .troupe

/-- Does any lane's address go to another module? -/
def anyRemote (s : State) (c : Ctx) (f : Nat → Dword) : Bool := (lanes c.act).any fun l => isRemote s (f l)

/-- One instruction's remote accesses count once on REMOTE (R120, Table 9.6): those entered since `s0`. -/
def countRemote (s0 s : State) (t : Nat) : State :=
  let ids := (s.accs.filter fun a => a.id ≥ s0.nextId && a.dev.isSome).map Access.id
  if ids.isEmpty then s else addOp s t .remote (.remote ids) []

/-- Does a lane write the destination of a load? A uniform register is written from the lowest lane (R60). -/
def lanesWrite (c : Ctx) (d : Opd) (l : Nat) : Bool :=
  match d with
  | .s _ => l == c.low
  | _ => true

/-- Deadline of an AWAIT under the troupe's limit (R82): the limit counts from the issue.
DEDUCED, log 136. -/
def awaitDeadline (s : State) (t : Nat) : Nat :=
  let n := (s.troupe t).awaitLim.toNat
  if n = 0 then 0 else s.wall + n

/-! ### LD, LDX, LDU, PROBE (R232, R234-R236) -/

/-- One load of a lane: an AWAIT makes its thread WAITING, any other result is owed (R229), one of a uniform register to the lowest
active lane.
DEDUCED, log 143. -/
def loadLane (s : State) (c : Ctx) (ty : Ty) (m : LdMod) (d : Opd) (l : Nat) (x : Dword) : State :=
  let op := winOp true (winOf x)
  let ws := if op == .await || !lanesWrite c d l then [] else destWrites (Ty.wide ty) d l 0
  let o := owe s c (laneBit l) l ws false
  let a : Access := { Access.make (.thread c.t l) op x (physOf s c.t l x) (Ty.width ty / 8) with
    ty := if Ty.signed ty then 1 else 0
    acq := ldAcq m
    scope := ldScope m
    vol := m == .vol
    pend := o.2
    dev := devOf s x
    deadline := if op == .await then awaitDeadline s c.t else 0 }
  let s1 := enterAcc o.1 c.t [l] a
  if op == .await then
    s1.setThread c.t l ((s1.thread c.t l).waitAt c.hdr (if lanesWrite c d l then d else .rz) ty (.await o.1.nextId))
  else advanceLanes s1 c (laneBit l)

/-- Lanes whose window is TAKE, COUNT, DEQ or ENQ (R83). -/
def orderedLanes (c : Ctx) (addr : Nat → Dword) : Mask :=
  maskOf fun l => hasLane c.act l && 8 ≤ winOf (addr l) && winOf (addr l) ≤ 11

def execLd (h : Hdr) (ty : Ty) (m : LdMod) (d base : Opd) (off : Src) (s : State) : Outcome :=
  issue (.ld h ty m d base off) s fun c s =>
    let addr := fun l => memAddr s c l base off
    match checkLanes c (lanes c.act) addr fun l => laneCheck s c.t l (.access true (Ty.width ty / 8)) (addr l) with
    | some x => .trap s x
    | none =>
      let nd := nondet s c (orderedLanes c addr)
      match nd.2 with
      | some x => .trap s x
      | none =>
        if anyRemote s c addr && counterFull s c.t .remote 1 then .part s c.mask (.counter .remote 62)
        else .ctl (countRemote s ((lanes c.act).foldl (fun z l => loadLane z c ty m d l (addr l)) nd.1) c.t)

/-- The eight-byte parts of an LDX of a lane, each with its own registers. -/
def loadParts (s : State) (c : Ctx) (m : LdMod) (d : Opd) (n : Nat) (l : Nat) (x : Dword) : State :=
  let id0 := s.nextId
  let s1 := (List.range (n / 2)).foldl (fun s k =>
    let y := x + BitVec.ofNat 64 (8 * k)
    let ws := if lanesWrite c d l then destPart d l (2 * k) 0 ++ destPart d l (2 * k + 1) 0 else []
    let o := owe s c (laneBit l) l ws false
    enterAcc o.1 c.t [l] { Access.make (.thread c.t l) (winOp true (winOf x)) y (physOf s c.t l y) 8 with
      acq := ldAcq m, scope := ldScope m, vol := m == .vol, pend := o.2, dev := devOf s x, part := id0 }) s
  advanceLanes s1 c (laneBit l)

def Want.block (load : Bool) (n : Nat) : Want := ⟨load, 8, 4 * n, 4 * n, false, true, [], !load⟩

def execLdx (h : Hdr) (k : Fin 4) (m : LdMod) (d base : Opd) (off : Src) (s : State) : Outcome :=
  issue (.ldx h k m d base off) s fun c s =>
    let n := 2 ^ (k.val + 1)
    let addr := fun l => memAddr s c l base off
    match checkLanes c (lanes c.act) addr fun l => laneCheck s c.t l (.block true n) (addr l) with
    | some x => .trap s x
    | none =>
      if anyRemote s c addr && counterFull s c.t .remote 1 then .part s c.mask (.counter .remote 62)
      else .ctl (countRemote s ((lanes c.act).foldl (fun z l => loadParts z c m d n l (addr l)) s) c.t)

/-- The first disagreeing uniform operand of a base and an offset.
DEDUCED, log 23. -/
def uniformAddr (s : State) (c : Ctx) (base : Opd) (off : Src) : Option TrapInfo :=
  match uniformTrap c fun l => readPair s c l base 4 with
  | some x => some x
  | none => uniformTrap c fun l => offVal s c l off

/-- A failure of a once-per-bundle check traps all of Active (R235, R264), with the address, or the PC for STACKOVF (Table
25.1). -/
def bundleCheck (s : State) (c : Ctx) (w : Want) (x : Dword) : Option TrapInfo :=
  (laneCheck s c.t c.low w x).map fun r => c.trapInfo r.2 c.act (if r.2 = 0x21 then c.pcVal else x)

def execLdu (h : Hdr) (ty : Ty) (m : LdMod) (d base : Opd) (off : Src) (s : State) : Outcome :=
  issue (.ldu h ty m d base off) s fun c s =>
    if c.idle then .ok s
    else match uniformAddr s c base off with
    | some x => .trap s x
    | none =>
      let y := memAddr s c c.low base off
      match bundleCheck s c (.access true (Ty.width ty / 8)) y with
      | some x => .trap s x
      | none =>
        let nd := nondet s c (orderedLanes c fun _ => y)
        match nd.2 with
        | some x => .trap s x
        | none =>
          if isRemote s y && counterFull s c.t .remote 1 then .part s c.mask (.counter .remote 62)
          else
            let op := winOp true (winOf y)
            let o := owe nd.1 c c.act c.low (if op == .await then [] else destWrites (Ty.wide ty) d c.low 0) false
            let a : Access := { Access.make (.bundle c.t c.act) op y (physOf s c.t c.low y) (Ty.width ty / 8) with
              ty := if Ty.signed ty then 1 else 0
              acq := ldAcq m
              scope := ldScope m
              vol := m == .vol
              pend := o.2
              dev := devOf s y
              deadline := if op == .await then awaitDeadline s c.t else 0 }
            let s1 := countRemote s (enterAcc o.1 c.t (lanes c.act) a) c.t
            if op == .await then
              .ctl (s1.mapLanes c.t c.act fun l th =>
                th.waitAt c.hdr (if l = c.low then d else .rz) ty (.await o.1.nextId))
            else .ctl (advanceLanes s1 c c.act)

def execProbe (h : Hdr) (d base : Opd) (off : Src) (s : State) : Outcome :=
  issue (.probe h d base off) s fun c s =>
    let addr := fun l => memAddr s c l base off
    let w : Want := ⟨true, 1, 1, 1, true, false, [0, 1, 2, 3, 4], false⟩
    match checkLanes c (lanes c.act) addr fun l => laneCheck s c.t l w (addr l) with
    | some x => .trap s x
    | none =>
      if anyRemote s c addr && counterFull s c.t .remote 1 then .part s c.mask (.counter .remote 62)
      else
        let one (s : State) (l : Nat) : State :=
          let o := owe s c (laneBit l) l (if lanesWrite c d l then destWrites false d l 0 else []) false
          advanceLanes (enterAcc o.1 c.t [l] { Access.make (.thread c.t l) .probe (addr l) (physOf s c.t l (addr l)) 1 with
            pend := o.2, dev := devOf s (addr l) }) c (laneBit l)
        .ctl (countRemote s ((lanes c.act).foldl one s) c.t)

/-! ### Deterministic buffering (R230, R322, R367) -/

/-- Key under which the operations in the DETAREAs stand.
DESIGN CHOICE, log 75. -/
def detAreaKey : Nat := 1024
/-- Operations of a run that its DETAREA holds. -/
def detUsed (s : State) (r : Nat) : Nat := ((s.stage detAreaKey).det.filter fun b => b.run == r).length
/-- Operations that the stage's buffer and the run's DETAREA have room for. -/
def detRoom (s : State) (c : Ctx) : Nat :=
  (2048 - (s.stage (s.troupe c.t).stage).det.length) +
    ((s.runOf c.t).detLen / 32 - detUsed s (s.companyOf c.t).run)

/-- Buffer an operation of a lane, with its sort key and tag. It counts under no REMOTE counter, wherever it is performed.
DEDUCED, log 142. -/
def bufferOp (s : State) (c : Ctx) (l : Nat) (op : AOp) (x : Dword) (size ty : Nat) (data : Dword) : State :=
  let st := (s.troupe c.t).stage
  let g := s.stage st
  let co := s.companyOf c.t
  let th := s.thread c.t l
  let b : BufOp := ⟨co.run, st, companyKey c.t, (co.index, troupeNo c.t, l, th.seqno), releasePerformed s co, op, x, size, ty == 3, ty, data,
    physOf s c.t l x⟩
  let k := if g.det.length ≥ 2048 then detAreaKey else st
  let s1 := s.setStage k { s.stage k with det := (s.stage k).det ++ [b] }
  s1.setThread c.t l { th with seqno := th.seqno + 1 }

/-! ### ST, STX, STU (R233-R235) -/

/-- The access of one store. -/
def storeAcc (s : State) (c : Ctx) (who : Who) (op : AOp) (x : Dword) (phys size ty : Nat) (data : Dword) (rel : Bool) (sc : Scope)
    (part : Nat) : Access :=
  { Access.make who op x phys size with
    ty := ty
    data := data
    rel := rel
    scope := sc
    isStore := true
    part := part
    dev := devOf s x
    dies := if op == .cast && !isRemote s x then castTargets s c.t x else [] }
/-- One store of a lane, entered in the store queue. -/
def storeLane (s : State) (c : Ctx) (who : Who) (ls : List Nat) (op : AOp) (x : Dword) (phys size ty : Nat) (data : Dword)
    (rel : Bool) (sc : Scope) (part : Nat) : State :=
  enterAcc s c.t ls (storeAcc s c who op x phys size ty data rel sc part)

/-- Is the store of a window buffered in a deterministic run (R230)? -/
def buffers (s : State) (c : Ctx) (x : Dword) : Bool := (s.runOf c.t).determ && 2 ≤ winOf x && winOf x ≤ 6

/-- Stores of lanes: buffered where the run is deterministic and room is left, else entered in the queue; when the buffers are
full the run is marked, or NONDET is trapped (R367). `xs`: lane, address, whether it may be buffered.
DEDUCED, log 25. -/
def overflowTrap (s : State) (c : Ctx) (xs : List (Nat × Bool)) : State × Option TrapInfo :=
  let buf := (xs.filter Prod.snd).map Prod.fst
  nondet s c (maskOf fun l => (buf.drop (detRoom s c)).contains l)

/-- Store-queue entries that such stores need: one for each that is not buffered (R228, R230). -/
def queueNeed (s : State) (c : Ctx) (xs : List (Nat × Bool)) : Nat :=
  xs.length - min (detRoom s c) (xs.filter Prod.snd).length

def execSt (h : Hdr) (ty : Ty) (m : StMod) (d base : Opd) (off : Src) (s : State) : Outcome :=
  issue (.st h ty m d base off) s fun c s =>
    let size := Ty.width ty / 8
    let addr := fun l => memAddr s c l base off
    match checkLanes c (lanes c.act) addr fun l => laneCheck s c.t l (.access false size) (addr l) with
    | some x => .trap s x
    | none =>
      let nd := nondet s c (orderedLanes c addr)
      let ov := overflowTrap nd.1 c ((lanes c.act).map fun l => (l, buffers s c (addr l)))
      match nd.2, ov.2 with
      | some x, _ => .trap s x
      | none, some x => .trap s x
      | none, none =>
        if anyRemote s c addr && counterFull s c.t .remote 1 then .part s c.mask (.counter .remote 62)
        else if queueFree s c.t < queueNeed s c ((lanes c.act).map fun l => (l, buffers s c (addr l))) then
          .part s c.mask (.room (queueNeed s c ((lanes c.act).map fun l => (l, buffers s c (addr l)))))
        else
          let one (z : State) (l : Nat) : State :=
            let x := addr l
            let data := readTy s c ty l d 6
            let op := winOp false (winOf x)
            if buffers s c x && 0 < detRoom z c then bufferOp z c l op x size (typeOf x) data
            else storeLane z c (.thread c.t l) [l] op x (physOf s c.t l x) size (typeOf x) data (stRel m) (stScope m) 0
          .ok (countRemote s ((lanes c.act).foldl one ov.1) c.t)

/-- The eight-byte parts of an STX of a lane: one store-queue entry (R228). `cmp` says of how many, for a fetch (R169). -/
def storeParts (s : State) (c : Ctx) (m : StMod) (n : Nat) (l : Nat) (x : Dword) (f : Nat → Word) : State :=
  let id0 := s.nextId
  (List.range (n / 2)).foldl (fun z k =>
    let y := x + BitVec.ofNat 64 (8 * k)
    let a := storeAcc z c (.thread c.t l) (winOp false (winOf x)) y (physOf s c.t l y) 8 0
      (joinPair (f (2 * k)) (f (2 * k + 1))) (stRel m) (stScope m) id0
    enterAcc z c.t [l] { a with cmp := BitVec.ofNat 64 (n / 2) }) s

def execStx (h : Hdr) (k : Fin 4) (m : StMod) (d base : Opd) (off : Src) (s : State) : Outcome :=
  issue (.stx h k m d base off) s fun c s =>
    let n := 2 ^ (k.val + 1)
    let addr := fun l => memAddr s c l base off
    match checkLanes c (lanes c.act) addr fun l => laneCheck s c.t l (.block false n) (addr l) with
    | some x => .trap s x
    | none =>
      if anyRemote s c addr && counterFull s c.t .remote 1 then .part s c.mask (.counter .remote 62)
      else if queueFree s c.t < (lanes c.act).length then .part s c.mask (.room (lanes c.act).length)
      else .ok (countRemote s ((lanes c.act).foldl
        (fun z l => storeParts z c m n l (addr l) fun k => readPart s c l d k 6) s) c.t)

def execStu (h : Hdr) (ty : Ty) (m : StMod) (d base : Opd) (off : Src) (s : State) : Outcome :=
  issue (.stu h ty m d base off) s fun c s =>
    if c.idle then .ok s
    else match uniformAddr s c base off with
    | some x => .trap s x
    | none =>
      match uniformTrap c fun l => readTy s c ty l d 6 with
      | some x => .trap s x
      | none =>
        let size := Ty.width ty / 8
        let y := memAddr s c c.low base off
        match bundleCheck s c (.access false size) y with
        | some x => .trap s x
        | none =>
          let nd := nondet s c (if winOf y = 8 then c.act else 0)
          let full := buffers s c y && detRoom s c = 0
          let ov := nondet nd.1 c (if full then c.act else 0)
          match nd.2, ov.2 with
          | some x, _ => .trap s x
          | none, some x => .trap s x
          | none, none =>
            if isRemote s y && counterFull s c.t .remote 1 then .part s c.mask (.counter .remote 62)
            else if queueFree s c.t < 1 && !(buffers s c y && !full) then .part s c.mask (.room 1)
            else
              let data := readTy s c ty c.low d 6
              let op := winOp false (winOf y)
              if buffers s c y && !full then .ok (bufferOp ov.1 c c.low op y size (typeOf y) data)
              else .ok (countRemote s (storeLane ov.1 c (.bundle c.t c.act) (lanes c.act) op y (physOf s c.t c.low y) size
                (typeOf y) data (stRel m) (stScope m) 0) c.t)

/-! ### ATOM, RED, AENQ, ADEQ (R239-R243) -/

/-- The element type T of an arithmetic operation's TYPE. -/
def arithType (ty : Ty) : Nat :=
  match ty with
  | .i32 | .i64 => 0
  | .n32 | .n64 => 1
  | .f32 => 2
  | .bf16x2 => 3
  | _ => 1
def atomOp : AtomOp → AOp
  | .add => .add
  | .min => .min
  | .max => .max
  | .and => .and
  | .or => .or
  | .xor => .xor
  | .exch => .exch
  | .cas => .cas
def Want.atomic (size : Nat) : Want := ⟨false, size, size, size, true, false, [0, 1, 4], true⟩
/-- A queue descriptor, for AENQ and for ADEQ. -/
def Want.queue (load : Bool) : Want := ⟨load, 8, 32, 32, true, false, [0, 4], true⟩

def execAtom (h : Hdr) (op : AtomOp) (ty : Ty) (m : AtMod) (d base b k : Opd) (s : State) : Outcome :=
  issue (.atom h op ty m d base b k) s fun c s =>
    let size := Ty.width ty / 8
    let addr := fun l => readPair s c l base 4
    match checkLanes c (lanes c.act) addr fun l => laneCheck s c.t l (.atomic size) (addr l) with
    | some x => .trap s x
    | none =>
      let nd := nondet s c c.act
      match nd.2 with
      | some x => .trap s x
      | none =>
        if anyRemote s c addr && counterFull s c.t .remote 1 then .part s c.mask (.counter .remote 62)
        else if queueFree s c.t < (lanes c.act).length then .part s c.mask (.room (lanes c.act).length)
        else
          let one (z : State) (l : Nat) : State :=
            let x := addr l
            let o := owe z c (laneBit l) l (if lanesWrite c d l then destWrites (Ty.wide ty) d l 0 else []) false
            enterAcc o.1 c.t [l] { Access.make (.thread c.t l) (atomOp op) x (physOf s c.t l x) size with
              ty := arithType ty
              data := readTy s c ty l b 6
              cmp := readTy s c ty l k 7
              acq := atAcq m
              rel := atRel m
              scope := atScope m
              isStore := true
              pend := o.2
              reply := true
              dev := devOf s x }
          .ok (countRemote s ((lanes c.act).foldl one nd.1) c.t)

def execRed (h : Hdr) (op : AtomOp) (ty : Ty) (m : StMod) (d base : Opd) (off : Src) (s : State) : Outcome :=
  issue (.red h op ty m d base off) s fun c s =>
    let size := Ty.width ty / 8
    let addr := fun l => memAddr s c l base off
    match checkLanes c (lanes c.act) addr fun l => laneCheck s c.t l (.atomic size) (addr l) with
    | some x => .trap s x
    | none =>
      let det := (s.runOf c.t).determ
      let ov := overflowTrap s c ((lanes c.act).map fun l => (l, det))
      match ov.2 with
      | some x => .trap s x
      | none =>
        if anyRemote s c addr && counterFull s c.t .remote 1 then .part s c.mask (.counter .remote 62)
        else if queueFree s c.t < queueNeed s c ((lanes c.act).map fun l => (l, det)) then
          .part s c.mask (.room (queueNeed s c ((lanes c.act).map fun l => (l, det))))
        else
          let one (z : State) (l : Nat) : State :=
            let x := addr l
            let data := readTy s c ty l d 6
            if det && 0 < detRoom z c then bufferOp z c l (atomOp op) x size (arithType ty) data
            else storeLane z c (.thread c.t l) [l] (atomOp op) x (physOf s c.t l x) size (arithType ty) data (stRel m)
              (stScope m) 0
          .ok (countRemote s ((lanes c.act).foldl one ov.1) c.t)

def execAenq (h : Hdr) (ty : Ty) (m : StMod) (d base b : Opd) (s : State) : Outcome :=
  issue (.aenq h ty m d base b) s fun c s =>
    let addr := fun l => readPair s c l base 4
    match checkLanes c (lanes c.act) addr fun l => laneCheck s c.t l (.queue false) (addr l) with
    | some x => .trap s x
    | none =>
      let nd := nondet s c c.act
      match nd.2 with
      | some x => .trap s x
      | none =>
        if anyRemote s c addr && counterFull s c.t .remote 1 then .part s c.mask (.counter .remote 62)
        else if queueFree s c.t < (lanes c.act).length then .part s c.mask (.room (lanes c.act).length)
        else
          let one (z : State) (l : Nat) : State :=
            let x := addr l
            let o := owe z c (laneBit l) l (if lanesWrite c d l then destWrites true d l 0 else []) false
            enterAcc o.1 c.t [l] { Access.make (.thread c.t l) .aenq x (physOf s c.t l x) (Ty.width ty / 8) with
              data := readTy s c ty l b 6
              rel := stRel m
              scope := stScope m
              isStore := true
              pend := o.2
              dev := devOf s x }
          .ok (countRemote s ((lanes c.act).foldl one nd.1) c.t)

def execAdeq (h : Hdr) (m : LdMod) (d base : Opd) (off : Src) (s : State) : Outcome :=
  issue (.adeq h m d base off) s fun c s =>
    let addr := fun l => memAddr s c l base off
    match checkLanes c (lanes c.act) addr fun l => laneCheck s c.t l (.queue true) (addr l) with
    | some x => .trap s x
    | none =>
      let nd := nondet s c c.act
      match nd.2 with
      | some x => .trap s x
      | none =>
        if anyRemote s c addr && counterFull s c.t .remote 1 then .part s c.mask (.counter .remote 62)
        else
          let one (z : State) (l : Nat) : State :=
            let x := addr l
            let o := owe z c (laneBit l) l (if lanesWrite c d l then destWrites true d l 0 else []) false
            enterAcc o.1 c.t [l] { Access.make (.thread c.t l) .adeq x (physOf s c.t l x) 8 with
              acq := ldAcq m
              scope := ldScope m
              pend := o.2
              dev := devOf s x }
          .ok (countRemote s ((lanes c.act).foldl one nd.1) c.t)

end Sys2Proof.Machine
end

