-- ==== Sys2Proof/Machine/Exchange.lean ====
section
/-! DEFINITION. What exchange instructions compute over their participants (19_engine_system_instructions.md R266-R275;
07_numbers.md R106). A participant is a lane with the value it contributes. -/

namespace Sys2Proof.Machine

open Sys2Proof

/-- Participants in ascending lane order. -/
abbrev Parts := List (Nat × Dword)

/-- One step of a reduction (R271). -/
def redStep (op : RedOp) (ty : Ty) (a b : Dword) : Dword :=
  if ty == .f32 then
    let x := decodeF .f32 (loWord a).toNat
    let y := decodeF .f32 (loWord b).toNat
    match op with
    | .add => BitVec.ofNat 64 (rne .f32 (sumF false [x, y]))
    | .min => BitVec.ofNat 64 (fMinMax .f32 false x y)
    | .max => BitVec.ofNat 64 (fMinMax .f32 true x y)
    | _ => 0
  else match op with
    | .add => intBits ty false (intOf ty a + intOf ty b)
    | .min => intBits ty false (min (intOf ty a) (intOf ty b))
    | .max => intBits ty false (max (intOf ty a) (intOf ty b))
    | .and => a &&& b
    | .or => a ||| b
    | .xor => a ^^^ b

/-- The identity of `.excl`'s first participant (R271). -/
def redIdentity (op : RedOp) (ty : Ty) : Dword :=
  if ty == .f32 then
    match op with
    | .min => 0x7F800000
    | .max => 0xFF800000
    | _ => 0
  else match op with
    | .and => if Ty.wide ty then 0xFFFFFFFFFFFFFFFF else 0xFFFFFFFF
    | .min => intBits ty false (intMax ty)
    | .max => intBits ty false (intMin ty)
    | _ => 0

/-- One level of the pairwise tree (R106). -/
def pairUp (f : Dword → Dword → Dword) : List Dword → List Dword
  | a :: b :: r => f a b :: pairUp f r
  | r => r
/-- The tree: levels until one value remains; 6 levels cover 32 lanes. -/
def treeSum (f : Dword → Dword → Dword) : Nat → List Dword → List Dword
  | 0, xs => xs
  | n + 1, xs => treeSum f n (pairUp f xs)

/-- An f32 NaN becomes the canonical NaN (R93), which matters where one participant is alone.
DEDUCED, log 26. -/
def canonF (ty : Ty) (x : Dword) : Dword :=
  if ty == .f32 && (decodeF .f32 (loWord x).toNat).isNan then 0x7FC00000 else x

def tredVal (op : RedOp) (ty : Ty) (xs : Parts) : Dword :=
  canonF ty ((treeSum (redStep op ty) 6 (xs.map Prod.snd)).headD 0)

/-- The prefix of participant `l` (R271): of the participants up to it, or before it. -/
def tscanVal (op : RedOp) (ty : Ty) (excl : Bool) (xs : Parts) (l : Nat) : Dword :=
  let before := xs.filter fun p => if excl then p.1 < l else p.1 ≤ l
  match before.map Prod.snd with
  | [] => redIdentity op ty
  | x :: r => canonF ty (r.foldl (redStep op ty) x)

def voteVal (k : VoteKind) (xs : Parts) : Dword :=
  let ps := xs.map fun p => p.2 != 0
  match k with
  | .any => boolDword (ps.any id)
  | .every => boolDword (ps.all id)
  | .same => boolDword (ps.all id || ps.all (!·))
  | .ballot => (maskOf fun l => xs.any fun p => p.1 == l && p.2 != 0).setWidth 64

def matchVal (xs : Parts) (x : Dword) : Dword :=
  (maskOf fun l => xs.any fun p => p.1 == l && p.2 == x).setWidth 64

/-- The result of a troupe-wide instruction for participant `l` of `xs` (R270-R273). -/
def wideResult (i : Instr) (xs : Parts) (l : Nat) : Dword :=
  match i with
  | .vote _ k _ _ _ => voteVal k xs
  | .tred _ op _ ty _ _ => tredVal op ty xs
  | .tscan _ op _ ty excl _ _ => tscanVal op ty excl xs l
  | .matchv _ _ _ _ _ => matchVal xs (((xs.find? fun p => p.1 == l).map Prod.snd).getD 0)
  | _ => 0

/-- Is the result of a troupe-wide instruction a pair? -/
def wideTy (i : Instr) : Bool :=
  match i with
  | .tred _ _ _ ty _ _ => Ty.wide ty
  | .tscan _ _ _ ty _ _ _ => Ty.wide ty
  | _ => false

/-- The participants of lane `l`'s segment (R55): those with its item. -/
def segmentOf (tr : Troupe) (xs : Parts) (l : Nat) : Parts :=
  xs.filter fun p => (tr.thread p.1).item == (tr.thread l).item

end Sys2Proof.Machine
end

