-- ==== Sys2Proof/Machine/Home.lean ====
section
/-! DEFINITION. What happens at a home: reads and writes of bytes with poison, the arithmetic of windows and atomics, queues,
waypoints, the notice of every write to waiting accesses, stale marks, and when an access may be performed
(05_windows.md R72-R88; 09_engines.md R126, R127; 11_derived.md R137-R139, R145; 27_host_fabric.md R398, R399;
31_housekeeping.md R424, R425). -/

namespace Sys2Proof.Machine

open Sys2Proof

/-! ### Error reports -/

/-- Table 31.3's uncorrected-error counter of a byte. Which SRAM die holds a line is not stated (R12).
DESIGN CHOICE, log 111. -/
def uncorrected (s : State) (a : Nat) : Nat :=
  if isScratch a then sliceCounter (homeSlice s a) (if Config.pick 0 (lineOf a) then 0x24 else 0x20)
  else if isCm a then stageCounter (cmStage a) 4
  else 0x43000 + 8 * (8 * ((a - 2 ^ 41) / 2 ^ 35) + (a - 2 ^ 41) / 256 % 8) + 4

/-- Post an error entry to a queue (R351): one 8-byte ENQ to ERRQ, if there is one, after those the prompter posted there.
DEDUCED, log 103. -/
def postErrorAt (s : State) (errq : Dword) (q code packet : Nat) : State :=
  if errq = 0 then s
  else
    let w := BitVec.ofNat 64 (code + 256 * q) ||| (BitVec.ofNat 64 packet <<< 32)
    let earlier := s.accs.filter fun a => a.op == .enq && a.phys == scratchOff errq && a.dev.isNone && match a.who with
      | .prompter _ => true
      | _ => false
    addAcc s { Access.make (.prompter q) .enq errq (scratchOff errq) 8 with data := w, after := earlier.map Access.id }
def postError (s : State) (q code packet : Nat) : State := postErrorAt s (s.queue q).errq q code packet
/-- Post an error entry for a run (R377, R415, R424). -/
def postRunError (s : State) (r code : Nat) : State :=
  let x := s.run r
  postErrorAt s x.errq x.queue code x.packet

/-- The store of 1 << cause to a nonzero device-local address in ERRNOTIFY (R399). A word that names no aligned die-scratchpad
location makes none.
DEDUCED, log 132. -/
def notifyError (s : State) (cause : Nat) : State :=
  let x := s.ports.errNotify
  if x = 0 || !isLocalForm x || !(isScratchSpace s x || isRemote s x) || (spaceOf x == 0 && 2 ^ 34 ≤ offOf x) ||
      2 ^ 48 ≤ offOf x || offOf x % 8 != 0 then s
  else addAcc s { Access.make .device .or x (scratchOff x) 8 with data := 1 <<< cause, dev := devOf s x }
/-- Count and log a misuse or refusal met by an outside agent (R399). -/
def logError (s : State) (port cause who win : Nat) (addr : Dword) : State :=
  let p := s.ports
  let rec0 : BitVec 64 := BitVec.ofNat 64 (cause + 256 * (p.errSeq % 256) + 65536 * port + 2 ^ 28 * win + 2 ^ 32 * who)
  let s1 : State := { s with ports := { p with
    errcnt := tput p.errcnt port (sat32 (tget p.errcnt 0 port + 1))
    errLog := tput p.errLog (p.errSeq % 16) (addr ++ rec0)
    errSeq := p.errSeq + 1 } }
  notifyError s1 cause

/-- The port, requester and cause-independent fields of an outside agent. -/
def Who.port (w : Who) : Option (Nat × Nat) :=
  match w with
  | .pcie rid _ _ _ => some (0, rid)
  | .skason src link _ _ => some (link + 1, src)
  | _ => none
/-- Report a cause against an outside agent; a service core's misuse has its own counter (R88). -/
def blame (s : State) (w : Who) (cause : Nat) (addr : Dword) : State :=
  match w with
  | .service die core _ => bump s (sliceCounter (32 * die + core) 0x28) 1
  | _ =>
    match w.port with
    | some (port, who) => logError s port cause who (winOf addr) addr
    | none => s
def Who.outside (w : Who) : Bool :=
  match w with
  | .pcie _ _ _ _ | .skason _ _ _ _ | .service _ _ _ => true
  | _ => false
/-- Is its AWAIT under the agent hold limit (R82, R402)? A Skason access carries its troupe's limit. -/
def Who.limited : Who → Bool
  | .pcie _ _ _ _ | .service _ _ _ => true
  | _ => false
/-- The run an access belongs to. -/
def Who.runKey (s : State) (w : Who) : Option Nat :=
  match w with
  | .thread t _ => some (s.companyOf t).run
  | .bundle t _ => some (s.companyOf t).run
  | .det r _ => some r
  | _ => none

/-! ### Poison (R424) -/

def poisoned (s : State) (a n : Nat) : Bool := s.poison.any fun p => overlaps a n (8 * p) 8
/-- A byte as a consumer receives it: a poisoned part reads zero. -/
def cleanByte (s : State) (a : Nat) : Byte := if s.poison.contains (a / 8) then 0 else s.mem.byte a
def cleanBytes (s : State) (a n : Nat) : List Byte := (List.range n).map fun k => cleanByte s (a + k)
def cleanN (s : State) (a n : Nat) : Nat := leNat (cleanBytes s a n)
/-- Table 31.4: count and report each poisoned part that is consumed. -/
def consume (s : State) (w : Who) (run : Option Nat) (addr : Dword) (a n : Nat) : State :=
  (s.poison.filter fun p => overlaps a n (8 * p) 8).foldl (fun z p =>
    if w.outside then blame z w 7 addr
    else
      let z1 := bump z (uncorrected z (8 * p)) 1
      match run with
      | some r => postRunError z1 r 13
      | none => z1) s

/-- The poisoned parts that some ranges meet are consumed for a run, each once (R424). -/
def consumeFor (s : State) (run : Option Nat) (rs : List (Nat × Nat)) : State :=
  (s.poison.filter fun p => rs.any fun r => overlaps r.1 r.2 (8 * p) 8).foldl (fun z p => consume z .device run 0 (8 * p) 8) s
def consumeParts (s : State) (t : Nat) (rs : List (Nat × Nat)) : State := consumeFor s (some (s.companyOf t).run) rs

/-! ### Writes, and who is told of them -/

/-- Is an MSI-X vector masked (its table entry's vector control)?
PRESUMED, log 7. -/
def msixMasked (s : State) (n : Nat) : Bool := (tget s.ports.msixTable 1 (16 * n + 12)).getLsbD 0
/-- Send a vector for HWAKEn, or hold it pending while it is masked; PEND is set (R398). -/
def sendVector (s : State) (n : Nat) : State :=
  let p := s.ports
  let h := tget p.hwake 0 n ||| (1#64 <<< 62)
  let p1 : Ports := { p with hwake := tput p.hwake n h }
  if msixMasked s n then { s with ports := { p1 with msixPend := p1.msixPend ||| (1#64 <<< n) } }
  else { s with ports := p1, out := s.out ++ [.msix n] }
def hwakeOff (x : Dword) : Nat := (x.extractLsb' 3 31).toNat * 8
/-- Vectors whose word went from zero to nonzero. -/
def hwakeFire (old s : State) (a n : Nat) : State :=
  old.ports.hwake.foldl (fun z h =>
    let o := hwakeOff h.2
    if h.2.getLsbD 63 && overlaps a n o 8 && old.mem.readN o 8 == 0 && s.mem.readN o 8 != 0 then sendVector z h.1 else z) s

/-- The condition of a WAIT packet (Table 23.4). -/
def waitCond (cond : Nat) (x v : Dword) : Bool :=
  match cond with
  | 0 => v.toNat ≤ x.toNat
  | 1 => x == v
  | _ => x != v
/-- PHASE of a waypoint. -/
def wpPhase (m : Memory) (a : Nat) : Nat := m.readN a 4 / 2 ^ 16 % 2
/-- Examine an access that waits at its home again after a write (R82, R251). -/
def reexamine (m : Memory) (a n : Nat) (x : Access) : Access :=
  if x.st != .awaiting || x.dev.isSome || !overlaps a n x.phys x.bytes then x
  else if x.op == .wpwait then
    (if wpPhase m x.phys != x.data.toNat % 2 then { x with st := .performed, res := 1 } else x)
  else
    let v := m.readN x.phys x.size
    if v != 0 then { x with st := .performed, res := BitVec.ofNat 64 v } else x
/-- Examine the word of a WAIT packet again (R348). -/
def reexamineQueue (m : Memory) (a n : Nat) (q : Queue) : Queue :=
  match q.mode with
  | .waiting false addr v cond met =>
    let met1 := met || waitCond cond (BitVec.ofNat 64 (m.readN addr 8)) v
    if overlaps a n addr 8 then { q with mode := .waiting false addr v cond met1 } else q
  | _ => q

/-- Who writes: stage + 1 of a thread's, 0xFFFE as part of an MX unit, 0xFFFF any other agent. -/
def writerCode (s : State) (w : Who) : Nat :=
  match w with
  | .unit => 0xFFFE
  | w => match w.stageOf s with
    | some st => st + 1
    | none => 0xFFFF
/-- Who has written a byte that a writer writes now: the only one, else 0xFFFF; the last write of an MX unit counts (R311). -/
def joinWriter (old new : Nat) : Nat := if old = 0 || old = new || new = 0xFFFE then new else 0xFFFF
/-- Who has written each byte of a part (R313). -/
def noteWriter (s : State) (w : Who) (a n : Nat) : Table (List Nat) :=
  let x := writerCode s w
  (List.range ((a + n + 7) / 8 - a / 8)).foldl (fun m k =>
    let p := a / 8 + k
    let old := tget m [] p
    tput m p ((List.range 8).map fun j =>
      let o := old.getD j 0
      if a ≤ 8 * p + j && 8 * p + j < a + n then joinWriter o x else o)) s.wrBy
/-- Who has written a byte; 0 nobody. -/
def writerOf (s : State) (a : Nat) : Nat := (tget s.wrBy [] (a / 8)).getD (a % 8) 0

/-- Bytes of poisoned parts that a write covers only partly are taken as zero (R424). -/
def scrub (s : State) (a n : Nat) : Memory :=
  (s.poison.filter fun p => overlaps a n (8 * p) 8).foldl (fun m p => m.setBytes (8 * p) (List.replicate 8 0)) s.mem

/-- A write performed at its home: one step of the coherence order (R84), seen at once by everyone who waits. -/
def homeWrite (s : State) (w : Who) (a : Nat) (bs : List Byte) : State :=
  if bs.isEmpty then s
  else
    let n := bs.length
    let m := (scrub s a n).setBytes a bs
    let s1 : State := { s with
      mem := m
      poison := s.poison.filter fun p => !overlaps a n (8 * p) 8
      wrBy := noteWriter s w a n
      accs := s.accs.map (reexamine m a n)
      queues := s.queues.map fun q => (q.1, reexamineQueue m a n q.2) }
    hwakeFire s s1 a n
def homeWriteN (s : State) (w : Who) (a n x : Nat) : State := homeWrite s w a (leBytes n x)

/-! ### Arithmetic at the home (R77, R240) -/

def fltCombine (f : Fmt) (op : AOp) (a b : Nat) : Nat :=
  let x := decodeF f a
  let y := decodeF f b
  match op with
  | .add => rne f (sumF false [x, y])
  | .max => fMinMax f true x y
  | _ => fMinMax f false x y

/-- Elements of `bits` bits, low first, combined one by one. -/
def eachElem (bits count : Nat) (f : Nat → Nat → Nat) (a b : Nat) : Nat :=
  (List.range count).foldl (fun x k =>
    x + f (a / 2 ^ (bits * k) % 2 ^ bits) (b / 2 ^ (bits * k) % 2 ^ bits) * 2 ^ (bits * k)) 0

def intCombine (signed : Bool) (bits : Nat) (op : AOp) (a b : Nat) : Nat :=
  let v (x : Nat) : Int := if signed && x ≥ 2 ^ (bits - 1) then (x : Int) - 2 ^ bits else x
  match op with
  | .add => (a + b) % 2 ^ bits
  | .max => if v a < v b then b else a
  | _ => if v b < v a then b else a

/-- The new value of a read-modify-write step: `old` and `data` of `size` bytes, element type `ty`. -/
def combineN (op : AOp) (ty size old data cmp : Nat) : Nat :=
  let bits := 8 * size
  match op with
  | .or => old ||| data
  | .and => old &&& data
  | .xor => old ^^^ data
  | .exch => data
  | .cas => if old = cmp then data else old
  | .take => 0
  | .count => (old + 1) % 2 ^ bits
  | .add | .max | .min =>
    match ty with
    | 0 => intCombine true bits op old data
    | 1 => intCombine false bits op old data
    | 2 => eachElem 32 (bits / 32) (fltCombine .f32 op) old data
    | _ => eachElem 16 (bits / 16) (fltCombine .bf16 op) old data
  | _ => data

/-! ### What a cache holds (Table 1.2) -/

/-- Lines leave a cache that holds more than `limit` bytes, the one just filled aside; which, R21 does not say. -/
def shrink (limit pick keep : Nat) : Nat → Table (List Byte) → Table (List Byte)
  | 0, m => m
  | n + 1, m =>
    let others := (m.filter fun x => x.1 != keep).map Prod.fst
    if (m.foldl (fun k x => k + x.2.length) 0) ≤ limit then m
    else match others[pick % others.length]? with
    | some k => shrink limit pick keep n (terase m k)
    | none => m
/-- Fill a line of a cache. -/
def fillLine (s : State) (m : Table (List Byte)) (limit k : Nat) (bs : List Byte) : Table (List Byte) :=
  shrink limit (Config.freeWord s.picks).toNat k 3 (tput m k bs)

/-! ### Queues (R79, R80) -/

structure Desc where
  head : Nat
  tail : Nat
  cap  : Nat
  dropped : Nat
  ring : Nat
  bad  : Bool
  deriving DecidableEq, Repr

def descOf (s : State) (a : Nat) : Desc :=
  let cap := cleanN s (a + 8) 1
  let ring := cleanN s (a + 16) 8
  let bad := cap > 20 || cleanN s (a + 9) 3 != 0 || cleanN s (a + 24) 8 != 0 || ring ≥ 2 ^ 34 || ring % 4 != 0 ||
    ring % 2 ^ 32 + 4 * 2 ^ cap > 2 ^ 32
  ⟨cleanN s a 4, cleanN s (a + 4) 4, cap, cleanN s (a + 12) 4, ring, bad⟩

def Desc.used (d : Desc) : Nat := (d.tail + 2 ^ 32 - d.head) % 2 ^ 32
def Desc.fits (d : Desc) (k : Nat) : Bool := !d.bad && d.used + k ≤ 2 ^ d.cap
/-- Ring address of entry `k` past a count. -/
def Desc.slot (d : Desc) (n : Nat) : Nat := d.ring + 4 * (n % 2 ^ 32 % 2 ^ d.cap)

/-- ENQ of `k` entries, its ring and its descriptor words in one step: the state, the tail before, and whether they were appended.
DESIGN CHOICE, log 124. -/
def enqAt (s : State) (w : Who) (a k : Nat) (data : Nat) : State × Nat × Bool :=
  let d := descOf s a
  if d.fits k then
    let s1 := homeWriteN s w (d.slot d.tail) 4 (data % 2 ^ 32)
    let s2 := if k = 2 then homeWriteN s1 w (d.slot (d.tail + 1)) 4 (data / 2 ^ 32) else s1
    (homeWriteN s2 w (a + 4) 4 ((d.tail + k) % 2 ^ 32), d.tail, true)
  else
    let s1 := homeWriteN s w (a + 12) 4 (sat32 (d.dropped + k))
    (if d.bad then bump s1 (sliceCounter (countSlice s a) 8) 1 else s1, if d.bad then 0 else d.tail, false)

/-- DEQ: the state and {present, value}. -/
def deqAt (s : State) (w : Who) (a : Nat) : State × Nat :=
  let d := descOf s a
  if d.bad then (bump s (sliceCounter (countSlice s a) 8) 1, 0)
  else if d.tail = d.head then (s, 0)
  else
    let x := cleanN s (d.slot d.head) 4
    (homeWriteN s w a 4 ((d.head + 1) % 2 ^ 32), 2 ^ 32 + x)

/-- The ring word that a DEQ reads at its home. -/
def queueReads (s : State) (op : AOp) (a : Nat) : List (Nat × Nat) :=
  let d := descOf s a
  if (op == .deq || op == .adeq) && !d.bad && d.tail != d.head then [(d.slot d.head, 4)] else []
/-- Ranges a queue operation writes. -/
def queueRanges (s : State) (op : AOp) (a k : Nat) : List (Nat × Nat) :=
  let d := descOf s a
  if op == .deq || op == .adeq then (if d.bad || d.tail = d.head then [] else [(a, 4)])
  else if d.fits k then (a + 4, 4) :: (List.range k).map fun j => (d.slot (d.tail + j), 4)
  else [(a + 12, 4)]

/-! ### Waypoints (R127) -/

/-- One update of a waypoint: byte count and arrival, under a captured generation (none: the current one, R250). -/
def wpUpdate (s : State) (w : Who) (a : Nat) (gen : Option Nat) (bytes : Nat) (arrival : Bool) (run : Nat) : State :=
  let w0 := cleanN s a 4
  let exparr := cleanN s (a + 4) 4
  let rem := cleanN s (a + 8) 4
  let expb := cleanN s (a + 12) 4
  let g := w0 / 2 ^ 17
  if gen.any fun x => x != g then bump s (sliceCounter (countSlice s a) 0) 1
  else
    let pend := w0 % 2 ^ 16
    let sat := (arrival && pend = 0) || rem < bytes
    let rem1 := rem - bytes
    let pend1 := if arrival then pend - 1 else pend
    let phase := w0 / 2 ^ 16 % 2
    let done := pend1 = 0 && rem1 = 0
    let w1 := if done then g * 2 ^ 17 + (1 - phase) * 2 ^ 16 + exparr % 2 ^ 16 else g * 2 ^ 17 + phase * 2 ^ 16 + pend1
    let rem2 := if done then expb else rem1
    let s1 := homeWrite s w a (leBytes 4 w1 ++ leBytes 4 exparr ++ leBytes 4 rem2)
    if sat && run != 0 && (s.run run).determ then s1.setRun run { s1.run run with nonrepro := true } else s1

/-! ### Derived tiles and marks (R134, R137-R139, Table 11.5) -/

def ceilDiv (a b : Nat) : Nat := (a + b - 1) / b
def Tensor.tileCols (x : Tensor) : Nat := ceilDiv x.cols 64
def Tensor.tiles (x : Tensor) : Nat := ceilDiv x.rows 64 * x.tileCols
def tileKey (e tile : Nat) : Nat := 65536 * e + tile
def State.entry (s : State) (e : Nat) : Entry := tget s.entries Entry.free e
def State.tile (s : State) (e tile : Nat) : Tile := tget s.tiles Tile.stale (tileKey e tile)
def State.setTile (s : State) (e tile : Nat) (x : Tile) : State := { s with tiles := tset s.tiles Tile.stale (tileKey e tile) x }
def State.slice (s : State) (k : Nat) : Slice := tget s.slices Slice.idle k
def State.setSlice (s : State) (k : Nat) (x : Slice) : State := { s with slices := tput s.slices k x }

/-- The element of a tensor in a byte: row and column of the first one. -/
def Tensor.elemAt (x : Tensor) (a : Nat) : Option (Nat × Nat) :=
  if a < x.off then Option.none
  else
    let i := (a - x.off) / x.stride
    let b := (a - x.off) % x.stride
    if i < x.rows && b < fmtBytes x.fmt x.cols then
      some (i, match x.fmt with
        | 0 => b / 4
        | 1 | 2 => b / 2
        | 5 => 2 * b
        | _ => b)
    else Option.none

/-- The derived tile that base element (i, j) affects (Table 11.5). -/
def Entry.tileFor (e : Entry) (i j : Nat) : Nat :=
  let (r, c) := match e.rule with
    | 1 | 4 | 5 => (j / 64, i / 64)
    | 2 | 3 => (i / 64, j / 64)
    | 6 | 8 => (i / 64, 0)
    | _ => (0, j / 64)
  r * e.der.tileCols + c

/-- Tiles of an entry that a write of ranges affects. -/
def Entry.affected (e : Entry) (rs : List (Nat × Nat)) : List Nat :=
  (rs.flatMap fun r => (List.range r.2).filterMap fun k =>
    (e.base.elemAt (r.1 + k)).map fun x => e.tileFor x.1 x.2).eraseDups

/-- The marks a write of ranges sends: entry and tile. -/
def marksOf (s : State) (rs : List (Nat × Nat)) : List (Nat × Nat) :=
  (usedEntries s).flatMap fun e => (e.2.affected rs).map fun t => (e.1, t)

/-- Send marks for a write access, a copy's chunk or a mark; the ids sent. -/
def sendMarks (s : State) (ms : List (Nat × Nat)) (wr : Nat) (chunk : Option (Nat × Nat)) (parent : Nat) : State × List Nat :=
  let new := ms.zipIdx.map fun (m, k) => (⟨s.nextId + k, m.1, m.2, wr, chunk, parent, (s.entry m.1).home, false, []⟩ : Mark)
  ({ s with marks := s.marks ++ new, nextId := s.nextId + ms.length }, new.map Mark.id)

def linesOf (rs : List (Nat × Nat)) : List Nat :=
  (rs.flatMap fun r => (List.range (if r.2 = 0 then 0 else lineOf (r.1 + r.2 - 1) + 1 - lineOf r.1)).map fun k =>
    lineOf r.1 + k).eraseDups
def anyWatched (s : State) (rs : List (Nat × Nat)) : Bool :=
  rs.any fun r => isScratch r.1 && (linesOf [r]).any fun l => s.wset.contains l
/-- Is a P bit of the ranges' lines clear? -/
def anyAbsent (s : State) (rs : List (Nat × Nat)) : Bool := (linesOf rs).any fun l => tget s.pclear 0 l != 0

/-- Ranges an access touches at its home: of a queue operation, the descriptor and the ring words. -/
def touchRanges (s : State) (a : Access) : List (Nat × Nat) :=
  if opQueue a.op then (a.phys, 32) :: queueRanges s a.op a.phys (a.size / 4) ++ queueReads s a.op a.phys else a.ranges
/-- Bytes of a PCI Express write that its byte enables (`cmp`, bit k for byte k; 0 for all) let through. -/
def Access.enabled (a : Access) : List Nat :=
  match a.who with
  | .pcie _ _ _ _ => if a.op == .store && a.cmp != 0 then (List.range a.size).filter fun k => a.cmp.getLsbD k else List.range a.size
  | _ => List.range a.size
/-- Ranges an access writes at its home. -/
def writeRanges (s : State) (a : Access) : List (Nat × Nat) :=
  if opQueue a.op then queueRanges s a.op a.phys (a.size / 4)
  else if a.op == .store && a.enabled.length != a.size then a.enabled.map fun k => (a.phys + k, 1)
  else if opModifies a.op then a.ranges else []

/-- Lines that a held write keeps closed to every other access (R138). -/
def closedLines (s : State) (but : Nat) : List Nat :=
  (s.accs.flatMap fun a =>
    if a.id = but then []
    else linesOf (a.castHeld.map fun x => (x.1, a.size)) ++ match a.st with
      | .heldW _ => linesOf (writeRanges s a)
      | _ => []) ++
  (s.copies.flatMap fun c => c.chunks.flatMap fun k =>
    if !k.held || k.done then []
    else match k.dst with
      | .phys a => linesOf [(a, k.len)]
      | _ => []) ++
  (s.upds.flatMap fun u => if u.marks.isSome then linesOf [(u.addr, 16)] else []) ++
  s.troupes.flatMap fun t => t.2.ops.flatMap fun o => (o.marks.map Prod.snd).getD []
/-- Is a line of the ranges closed by a held write? -/
def heldClosed (s : State) (but : Nat) (rs : List (Nat × Nat)) : Bool :=
  !(closedLines s but).isEmpty && (linesOf rs).any fun l => (closedLines s but).contains l
/-- Is a range closed to an access: by a held write, or while its region is being moved (R417)? -/
def lineClosed (s : State) (but : Nat) (rs : List (Nat × Nat)) : Bool :=
  rs.any (fun r => isScratch r.1 && (regionEntry s (regionOf r.1)).getLsbD 31) || heldClosed s but rs

/-! ### Stage store buffer (R86, R312) -/

/-- Stores of a stage that stand in its store buffer and are not performed. -/
def published (s : State) (st : Nat) : List Access :=
  s.accs.filter fun b => b.isStore && b.pub.isSome && b.dev.isNone && b.who.stageOf s == some st
/-- Do an access's predecessors let it be performed? An acquire must be complete; a release waits for completion; otherwise
performed is enough (R85, R237). An access that its home has recorded as waiting has been performed there (R82).
DEDUCED, log 100. -/
def afterOk (s : State) (a : Access) : Bool :=
  a.after.all fun id =>
    match accById s id with
    | none => accDone s id
    | some b => (b.st == .performed || b.st == .awaiting) && !b.acq && !a.rel

/-- Has an agent other than the stage written the byte? -/
def foreignByte (s : State) (st a : Nat) : Bool := let w := writerOf s a; w != 0 && w != st + 1
/-- Have agents other than the stage written every byte of the access (R313)? -/
def foreignWritten (s : State) (a : Access) : Bool :=
  match a.who.stageOf s with
  | none => true
  | some st => (List.range a.bytes).all fun k => foreignByte s st (a.phys + k)
/-- Has the stage written a byte of the access that no other agent has? -/
def stageWritten (s : State) (a : Access) : Bool :=
  match a.who.stageOf s with
  | none => false
  | some st => (List.range a.bytes).any fun k => writerOf s (a.phys + k) == st + 1
/-- Does an access read what the last write of an MX unit left (R311)? -/
def mxRead (s : State) (a : Access) : Bool := (List.range a.bytes).any fun k => writerOf s (a.phys + k) == 0xFFFE
def loadLike (a : Access) : Bool := a.returns && a.op != .ro && a.op != .wpwait && a.op != .probe
def sameThread (a b : Access) : Bool :=
  match a.who, b.who with
  | .thread t l, .thread u k => t == u && l == k
  | .thread t l, .bundle u m => t == u && hasLane m l
  | .bundle t m, .thread u k => t == u && hasLane m k
  | .bundle t m, .bundle u n => t == u && m &&& n != 0
  | _, _ => false
/-- Earlier loads of an access's threads that are not performed and not held. -/
def earlierLoads (s : State) (a : Access) : List Access :=
  s.accs.filter fun b => sameThread a b && b.id < a.id && loadLike b && b.st == .queued && b.dev.isNone
/-- Stage total store order (R313): a thread's loads are performed in program order, but for accesses that are held; and a store
becomes visible to other troupes only after them (R328). A window access that modifies is not ordered after a load where
other agents have written every byte of either. A PLAIN load's value may be taken ahead (`sampleLoad`).
DEDUCED, log 125. -/
def loadsBefore (s : State) (a : Access) : Bool :=
  (earlierLoads s a).all fun b => opModifies a.op && (foreignWritten s a || foreignWritten s b)
def loadOrderOk (s : State) (a : Access) : Bool := !loadLike a || loadsBefore s a
/-- A published store follows the stage's earlier published stores to the same location. -/
def pubOrderOk (s : State) (a : Access) : Bool :=
  match a.pub, a.who.stageOf s with
  | some p, some st => (published s st).all fun b => b.id == a.id || !a.meets b || b.pub.any fun q => p < q
  | _, _ => true

/-- Have an access's predecessors reached their homes, if only to wait in the groups of tiles there (R85, R140)? -/
def afterReached (s : State) (a : Access) : Bool :=
  a.after.all fun id =>
    match accById s id with
    | none => accDone s id
    | some b => (b.st == .performed || b.st == .awaiting || b.st == .derived) && !b.acq && !a.rel

/-- Is a range closed to an access? One that had reached its home is performed there though the region is being moved (R417). -/
def shut (s : State) (a : Access) (rs : List (Nat × Nat)) : Bool :=
  if a.reached then heldClosed s a.id rs else lineClosed s a.id rs
/-- May an access be performed at its home now, all but its predecessors, presence and marks? -/
def mayReach (s : State) (a : Access) : Bool :=
  loadOrderOk s a && pubOrderOk s a && (!a.isStore || a.pub.isSome || a.dev.isSome) &&
  !shut s a (touchRanges s a)
/-- May an access be performed at its home now, all but presence and marks? -/
def mayPerform (s : State) (a : Access) : Bool := afterOk s a && mayReach s a

/-! ### The life of an access -/

def setAcc (s : State) (a : Access) : State := { s with accs := s.accs.map fun b => if b.id = a.id then a else b }
def dropAcc (s : State) (id : Nat) : State := { s with accs := s.accs.filter fun b => b.id != id }
/-- The threads an access belongs to. -/
def Who.threads (w : Who) : Option (Nat × Mask) :=
  match w with
  | .thread t l => some (t, laneBit l)
  | .bundle t m => some (t, m)
  | _ => none
/-- No access of the thread remains held at this one (R431). -/
def unpark (s : State) (a : Access) : State :=
  match a.reported, a.who.threads with
  | true, some (t, m) => s.mapLanes t m fun _ th => { th with parks := th.parks.filter fun i => i != a.id }
  | _, _ => s
/-- The value of an owed write is known from here on (R161). -/
def knowPend (res : Dword) (p : Pend) : Pend :=
  let value (w : Nat × Word) (k : Nat) : Nat × Word :=
    if w.1 ≥ pKey 0 0 then (w.1, boolWord (res != 0)) else (w.1, if k = 0 then loWord res else hiWord res)
  { p with known := true, writes := p.writes.zipIdx.map fun x => value x.1 x.2 }
def knowResult (s : State) (a : Access) (res : Dword) : State :=
  match a.pend != 0, a.who.threads with
  | true, some (t, _) =>
    let tr := s.troupe t
    s.setTroupe t { tr with pend := tr.pend.map fun p => if p.id = a.pend then knowPend res p else p }
  | _, _ => s
/-- An access has been performed with a result: one that returns something waits for its reply, any other is over. -/
def performed (s : State) (a : Access) (res : Dword) : State :=
  let s1 := knowResult (unpark s a) a res
  if a.returns then
    setAcc s1 { a with st := .performed, res := res, isStore := false, reported := false }
  else
    let s2 := dropAcc s1 a.id
    match a.who with
    | .skason src _ tag _ => { s2 with out := s2.out ++ [.skasonReply src tag 0 0] }
    | _ => s2

/-- The accesses of one request of an outside agent: an outside read's parts, in ascending order (R394). -/
def readGroup (s : State) (a : Access) : List Access :=
  match a.who with
  | .pcie _ _ _ _ => if a.part = 0 then [a] else s.accs.filter fun b => b.part == a.part && b.who.outside
  | _ => [a]
/-- Until when an access is held on a clear P bit: an outside agent's under the agent hold limit of 10 µs, which one read has once
for all its parts (R74, R395). -/
def holdLimit (s : State) (a : Access) : Nat :=
  if !a.who.outside then a.hold
  else match (readGroup s a).find? fun b => b.hold != 0 with
    | some b => b.hold
    | none => s.wall + 10000
/-- Hold an access on a clear P bit. A value taken ahead is void: it is performed from the start once P is set (R318, R431). -/
def holdP (s : State) (a : Access) : State := setAcc s { a with st := .heldP, hold := holdLimit s a, reached := true, early := none }

/-- Does the access park on a clear P bit (R74)? PLAIN and CAST stores, PROBE and waypoint accesses do not. -/
def parks (op : AOp) : Bool :=
  match op with
  | .store | .cast | .probe | .wpwait => false
  | _ => true

/-- Drop a write into a derived or scale range (R145). -/
def dropDerived (s : State) (a : Access) : State :=
  let s1 := bump s (sliceCounter (countSlice s a.phys) 0x0C) 1
  performed (if a.who.outside then blame s1 a.who 6 a.addr else s1) a 0

/-- Have the marks of a held write all been acknowledged? -/
def marksOver (s : State) (ids : List Nat) : Bool := !ids.any fun i => s.marks.any fun m => m.id == i
/-- Perform a write at its home, once it may be: presence, then stale marks (R138), then `k`. `absentOk` is the lapse of an
agent's hold limit (R74). A queue operation parks on a ring line as on its descriptor's. A write held for its marks has reached its
home: a region that is then moved waits for it (R417).
DEDUCED, log 126. -/
def performWrite (s : State) (a : Access) (absentOk : Bool) (k : State → Access → State) : State :=
  let rs := writeRanges s a
  match a.st with
  | .heldW ids =>
    if !marksOver s ids then s else if rs.any fun r => inDerived s r.1 r.2 then dropDerived s a else k s a
  | _ =>
    if !mayPerform s a then s
    else if parks a.op && !absentOk && anyAbsent s (touchRanges s a) then holdP s a
    else if rs.any fun r => inDerived s r.1 r.2 then dropDerived s a
    else
      let ms := if anyWatched s rs then marksOf s rs else []
      if ms.isEmpty then k s a
      else
        let sm := sendMarks s ms a.id none 0
        setAcc sm.1 { a with st := .heldW sm.2 }

end Sys2Proof.Machine
end

