-- ==== Sys2Proof/Machine/Tiles.lean ====
section
/-! DEFINITION. Derived tiles as loads and engines meet them: the tiles that bytes lie in, requests, and the queue of a slice
(11_derived.md R134, R140, R141). -/

namespace Sys2Proof.Machine

open Sys2Proof

/-- Tile of an element of the derived tensor. -/
def Entry.tileIndex (e : Entry) (i j : Nat) : Nat := i / 64 * e.der.tileCols + j / 64
/-- The tile that a byte of the derived or scale tensor belongs to (R134). -/
def Entry.tileOf (e : Entry) (a : Nat) : Option Nat :=
  match e.der.elemAt a with
  | some x => some (e.tileIndex x.1 x.2)
  | none =>
    if e.scale ≤ a && a < e.scale + e.scaleSpan then
      let per := e.der.cols / e.block
      some (e.tileIndex ((a - e.scale) / per) ((a - e.scale) % per * e.block))
    else none
/-- Tiles that hold any byte of a range: entry and tile. -/
def tilesHit (s : State) (a n : Nat) : List (Nat × Nat) :=
  ((usedEntries s).flatMap fun e =>
    if e.2.hits a n then (List.range n).filterMap fun k => (e.2.tileOf (a + k)).map fun t => (e.1, t) else []).eraseDups
def isFresh (s : State) (x : Nat × Nat) : Bool := (s.tile x.1 x.2).st == .fresh
/-- The tiles of a range that are not FRESH. -/
def staleHit (s : State) (a n : Nat) : List (Nat × Nat) := (tilesHit s a n).filter fun x => !isFresh s x

/-- Queue a recompute of a tile at its home slice, ahead of every tile not yet started when `front` (R141). -/
def queueTile (s : State) (e tile : Nat) (front : Bool) : State :=
  let k := (s.entry e).home
  let sl := s.slice k
  s.setSlice k { sl with queue := if front then (e, tile) :: sl.queue else sl.queue ++ [(e, tile)] }
/-- Table 11.6's Load row: a load that is not served at once joins a group. -/
def requestTile (s : State) (e tile : Nat) (w : Waiter) (front : Bool) : State :=
  let x := s.tile e tile
  match x.st with
  | .fresh => s
  | .stale => queueTile (s.setTile e tile { x with st := .busy, g1 := x.g1 ++ [w] }) e tile front
  | .busy => s.setTile e tile { x with g1 := x.g1 ++ [w] }
  | .dirty => s.setTile e tile { x with g2 := x.g2 ++ [w] }
/-- Does a waiter wait for any tile?
DEDUCED, log 101. -/
def waitsTile (s : State) (w : Waiter) : Bool := s.tiles.any fun x => x.2.g1.contains w || x.2.g2.contains w
/-- An engine asks for tiles as a load would, each once.
DEDUCED, log 33. -/
def engineAsk (s : State) (xs : List (Nat × Nat)) (w : Waiter) : State :=
  xs.foldl (fun s x =>
    let t := s.tile x.1 x.2
    if t.g1.contains w || t.g2.contains w then s else requestTile s x.1 x.2 w false) s

/-- May an engine read a range at its homes now: no line closed, every P bit set (R74, R433), no tile that is not FRESH? -/
def engineMayRead (s : State) (rs : List (Nat × Nat)) : Bool := !lineClosed s 0 rs && !anyAbsent s rs
def engineStale (s : State) (rs : List (Nat × Nat)) : List (Nat × Nat) := (rs.flatMap fun r => staleHit s r.1 r.2).eraseDups

/-! ### Writes of the device itself -/

/-- Byte ranges of a derived tile's elements and scales. -/
def Entry.tileRanges (e : Entry) (tile : Nat) : List (Nat × Nat) :=
  let tr := tile / e.der.tileCols
  let tc := tile % e.der.tileCols
  let cols := min 64 (e.der.cols - 64 * tc)
  (List.range (min 64 (e.der.rows - 64 * tr))).flatMap fun k =>
    let i := 64 * tr + k
    (e.der.off + i * e.der.stride + fmtBytes e.der.fmt (64 * tc), fmtBytes e.der.fmt cols) ::
      if e.isMx then [(e.scale + i * (e.der.cols / e.block) + 64 * tc / e.block, cols / e.block)] else []

/-- Stale marks that travel and are acknowledged while their write is held at its home (R138, R139): derivations are at most
three deep. -/
def markNow : Nat → State → List (Nat × Nat) → State
  | 0, s, _ => s
  | n + 1, s, ms =>
    ms.foldl (fun z m =>
      let e := z.entry m.1
      let x := z.tile m.1 m.2
      let z1 := bump z (sliceCounter e.home 0x10) 1
      match x.st with
      | .fresh => markNow n (z1.setTile m.1 m.2 { x with st := .stale }) (marksOf z1 (e.tileRanges m.2))
      | .busy => z1.setTile m.1 m.2 { x with st := .dirty }
      | _ => z1) s
/-- Earlier stores of the device's own that a held write keeps from a range. -/
def devicePending (s : State) (a n : Nat) : List Nat :=
  (s.accs.filter fun b => b.who == .device && b.op == .store && overlaps b.phys b.size a n).map Access.id
/-- May stores of the device's own to some ranges be performed now, in one step: no line closed, and none of its earlier ones pending
there? A post, a consumed mark and a context save wait until they may (R302, R344, R345, R386). -/
def deviceFree (s : State) (rs : List (Nat × Nat)) : Bool :=
  !lineClosed s 0 rs && rs.all fun r => (devicePending s r.1 r.2).isEmpty
/-- May the device read a context there? -/
def deviceMayRead (s : State) (rs : List (Nat × Nat)) : Bool := deviceFree s rs && !anyAbsent s rs

end Sys2Proof.Machine
end

