-- ==== Sys2Proof/Machine/Threads.lean ====
section
/-! DEFINITION. How threads leave waits, draw items, refill and drain, and what that does to junctions, convergence points and
`.all` instances (03_execution.md R42-R59; 17_memory_control_instructions.md R246-R248, R255, R256, R430;
19_engine_system_instructions.md R272; 23_scheduling.md R364, R366). -/

namespace Sys2Proof.Machine

open Sys2Proof

/-! ### Leaving a wait (R38, R54) -/

/-- Threads leave WAITING, READY at the next PC, and write their result as they leave: the lowest lane last, so that its
value of a uniform register prevails (R60). -/
def leaveLanes (s : State) (t : Nat) (m : Mask) (val : Nat → Dword) : State :=
  s.setTroupe t ((lanes m).reverse.foldl (fun tr l =>
    let th := tr.thread l
    (tr.setRegs (destWrites (Ty.wide th.info.ty) th.info.d l (val l))).setThread l
      { th.advance th.info.hdr with arrived := [] }) (s.troupe t))

/-- Threads released together form one bundle for each PC at once (R54). -/
def bundleByPc (s : State) (t : Nat) (m : Mask) : State :=
  let tr := s.troupe t
  let rdy := (lanes m).filter fun l => (tr.thread l).ready
  let pcs := (rdy.map fun l => (tr.thread l).pc).eraseDups
  pcs.foldl (fun s p => addBundle s t (maskOf fun l => rdy.contains l && (tr.thread l).pc == p)) s

/-! ### Convergence points (R59, R255, R256) -/

def Troupe.expected (tr : Troupe) (k : Nat) : Mask := tget tr.cv 0 k
def Troupe.setExpected (tr : Troupe) (k : Nat) (m : Mask) : Troupe := { tr with cv := tset tr.cv 0 k m }
/-- Does the thread wait at point `k`? A PARKED thread that is in its CVWAIT counts (R59).
DEDUCED, log 135. -/
def Thread.waitsCv (th : Thread) (k : Nat) : Bool :=
  th.st == .waiting && match th.wait with
    | .cvwait c _ _ => c == k
    | _ => false
/-- The completion check of R59: when every lane of the set waits, all write 1 and the point becomes idle. -/
def cvCheck (s : State) (t k : Nat) : State :=
  let tr := s.troupe t
  let e := tr.expected k
  if e != 0 && (lanes e).all fun l => (tr.thread l).waitsCv k then
    bundleByPc (leaveLanes (s.setTroupe t (tr.setExpected k 0)) t e fun _ => 1) t e
  else s
/-- Lanes leave every expected set (R59). -/
def cvLeave (s : State) (t : Nat) (m : Mask) : State :=
  (List.range 8).foldl (fun s k =>
    let tr := s.troupe t
    if tr.expected k &&& m = 0 then s
    else cvCheck (s.setTroupe t (tr.setExpected k (tr.expected k &&& ~~~m))) t k) s

/-! ### `.all` instances (R55, R272) -/

def Thread.waitsAll (th : Thread) (pc : Word) : Bool :=
  th.st == .waiting && th.pc == pc && match th.wait with
    | .all _ _ => true
    | _ => false
/-- What a thread that waits in an `.all` instruction contributes. -/
def Thread.contribution (th : Thread) : Dword :=
  match th.wait with
  | .all _ x => x
  | _ => 0
/-- Lanes that have reached the instance at a PC with a false guard. -/
def Troupe.reachedAt (tr : Troupe) (pc : Word) : Mask := tget tr.reached 0 pc.toNat
/-- The completion check of an instance: no thread of the expected set remains that has not reached it. A lane that has reached it
with a false guard stays counted though it refills since, at lane grain or, from HELD, at its unit.
DEDUCED, log 134. -/
def allCheckAt (s : State) (t : Nat) (pc : Word) : State :=
  let tr := s.troupe t
  let waiting := maskOf fun l => (tr.thread l).waitsAll pc
  if (waiting ||| tr.reachedAt pc) = 0 || tr.liveNonHeld &&& ~~~(waiting ||| tr.reachedAt pc) != 0 then s
  else
    let s1 := s.setTroupe t { tr with reached := terase tr.reached pc.toNat }
    match (tr.thread (lowLane waiting)).wait with
    | .all i _ =>
      let xs : Parts := (lanes waiting).map fun l => (l, (tr.thread l).contribution)
      bundleByPc (leaveLanes s1 t waiting (wideResult i xs)) t waiting
    | _ => s1
/-- The PCs at which threads of the troupe wait in an instance, or have reached one. -/
def Troupe.allPcs (tr : Troupe) : List Word :=
  (((lanes tr.liveMask).filterMap fun l =>
    let th := tr.thread l
    if th.waitsAll th.pc then some th.pc else none) ++ tr.reached.map fun r => BitVec.ofNat 32 r.1).eraseDups
def allCheck (s : State) (t : Nat) : State := (s.troupe t).allPcs.foldl (fun s pc => allCheckAt s t pc) s

/-! ### Junctions (R56-R58, R247) -/

def Company.junction (co : Company) (j : Nat) : Junction := tget co.junctions Junction.unset j
def State.junction (s : State) (c j : Nat) : Junction := (s.company c).junction j
def State.setJunction (s : State) (c j : Nat) (x : Junction) : State :=
  s.setCompany c { s.company c with junctions := tset (s.company c).junctions Junction.unset j x }
/-- Troupe key of a seat of company `c`. -/
def seatTroupe (c seat : Nat) : Nat := 256 * c + seat / 32
def seatLane (seat : Nat) : Nat := seat % 32

/-- Does the thread wait for the open phase of junction `j`? -/
def Thread.waitsJunction (th : Thread) (j : Nat) : Bool :=
  th.st == .waiting && match th.wait with
    | .junction k false _ => k == j
    | _ => false
/-- Threads that wait for the phase that completes, and go on. Their return is an acquire at die scope (R247). -/
def releaseJunction (s : State) (c j : Nat) (phase : Bool) : State :=
  (troupesOf s c).foldl (fun s t =>
    let tr := s.troupe t
    let m := maskOf fun l => (tr.thread l).waitsJunction j
    if m = 0 then s else dropRo (leaveLanes s t m fun _ => (boolWord phase).setWidth 64) tr.stage) s

/-- An arrival counts for urgency scheduling (R366). -/
def countUrgency (s : State) (t : Nat) : State := s.setTroupe t { s.troupe t with urgency := min ((s.troupe t).urgency + 1) 8191 }

/-- Record the arrival of a seat that is not in the open phase yet. -/
def Junction.arrive (x : Junction) (seat : Nat) : Junction := { x with a := x.a + 1, arrived := x.arrived ++ [seat] }
/-- A deferred arrival counts in the new phase, and for urgency since the completion (R366): its thread completes as JARR then,
or waits on (R58). -/
def undefer (s : State) (c j seat : Nat) : State :=
  let t := seatTroupe c seat
  let l := seatLane seat
  let x := s.junction c j
  let s1 := countUrgency (s.setJunction c j (x.arrive seat)) t
  let th := s1.thread t l
  match th.wait with
  | .junction k true arr =>
    if k != j || th.st != .waiting then s1
    else if arr then leaveLanes s1 t (laneBit l) fun _ => (boolWord x.phase).setWidth 64
    else s1.setThread t l { th with wait := .junction j false false }
  | _ => s1

/-- The completion check of R56, with the deferred arrivals of R58 one at a time in the new phase. -/
def settleJunction : Nat → State → Nat → Nat → State
  | 0, s, _, _ => s
  | n + 1, s, c, j =>
    let x := s.junction c j
    if !x.isSet || x.e = 0 || x.a < x.e then s
    else
      let s1 := s.setJunction c j { x with phase := !x.phase, a := 0, arrived := [], deferred := [] }
      let s2 := (troupesOf s1 c).foldl (fun s t => s.setTroupe t { s.troupe t with urgency := 0 }) s1
      x.deferred.foldl (fun s seat => settleJunction n (undefer s c j seat) c j) (releaseJunction s2 c j x.phase)
def junctionCheck (s : State) (c j : Nat) : State := settleJunction 4 s c j

/-- A seat arrives (R56, R58): the state, the phase bit in which the arrival counts, and whether it is deferred. -/
def arriveSeat (s : State) (c j seat : Nat) : State × Bool × Bool :=
  let x := s.junction c j
  if x.arrived.contains seat then (s.setJunction c j { x with deferred := x.deferred ++ [seat] }, !x.phase, true)
  else (s.setJunction c j (x.arrive seat), x.phase, false)

/-- Table of R57: a change of every MEMBER junction that has the seat as a member, followed by the completion check. -/
def memberEvent (s : State) (c seat : Nat) (f : Junction → Junction) : State :=
  (List.range 24).foldl (fun s j =>
    let x := s.junction c j
    if x.isSet && x.member && x.members.contains seat then junctionCheck (s.setJunction c j (f x)) c j else s) s
/-- The seat is expected no more in the open phase. -/
def Junction.unexpect (x : Junction) (seat : Nat) : Junction :=
  if x.arrived.contains seat then { x with e := x.e - 1, a := x.a - 1, arrived := x.arrived.filter fun k => k != seat }
  else { x with e := x.e - 1 }
def Junction.leave (x : Junction) (seat : Nat) : Junction := { x with members := x.members.filter fun k => k != seat }
def seatHeld (s : State) (c seat : Nat) : State := memberEvent s c seat fun x => x.unexpect seat
def seatRefilled (s : State) (c seat : Nat) : State := memberEvent s c seat fun x => { x with e := x.e + 1 }
def seatDrained (s : State) (c seat : Nat) : State := memberEvent s c seat fun x => (x.unexpect seat).leave seat
def seatDrainedHeld (s : State) (c seat : Nat) : State := memberEvent s c seat fun x => x.leave seat

/-! ### Items (R43-R46, R364) -/

/-- May the next `n` records of a node's queue be dequeued now: its descriptor and their ring words present (R74, R433), on lines
that are not closed? -/
def nodeFree (s : State) (q n : Nat) : Bool :=
  let d := descOf s q
  deviceMayRead s ((q, 32) :: if d.bad then [] else (List.range (min n d.used)).map fun i => (d.slot (d.head + i), 4))
/-- DEQ of a node's queue by one of its seats, with the stale marks of the count it writes (R74, R145). -/
def nodeDeq (s : State) (t l q : Nat) : State × Nat :=
  let rs := queueRanges s .deq q 1
  if rs.any fun r => inDerived s r.1 r.2 then (bump s (sliceCounter (countSlice s q) 0x0C) 1, 0)
  else
    let z := consumeParts s t ((q, 32) :: queueReads s .deq q)
    deqAt (markNow 4 z (if anyWatched z rs then marksOf z rs else [])) (.thread t l) q
/-- Draw an item for a seat: the item index and its admission number. -/
def drawItem (s : State) (t l : Nat) : State × Option (Dword × Dword) :=
  let co := s.companyOf t
  let r := s.runOf t
  let age := BitVec.ofNat 64 co.admitted
  let grant (s : State) : State := s.updCompanyOf t fun c => { c with admitted := c.admitted + 1 }
  let limit := min ((co.index + 1) * r.range) r.items
  if r.determ then
    let th := s.thread t l
    let seats := 32 * r.troupes
    let k := th.draws
    let i := co.index * r.range + seatOf t l + k * seats
    if i < limit then
      (s.setThread t l { th with draws := k + 1 }, some (BitVec.ofNat 64 i, BitVec.ofNat 64 (k * seats + seatOf t l)))
    else (s, none)
  else match r.source with
    | .shared =>
      if r.counter < r.items then
        (grant (s.updRunOf t fun r => { r with counter := r.counter + 1 }), some (BitVec.ofNat 64 r.counter, age))
      else (s, none)
    | .ranged =>
      if co.counter < limit then
        (grant (s.updCompanyOf t fun c => { c with counter := c.counter + 1 }), some (BitVec.ofNat 64 co.counter, age))
      else (s, none)
    | .callboard =>
      if r.closed then (s, none)
      else
        let d := nodeDeq s t l r.nodeQ
        if d.2 ≥ 2 ^ 32 then
          (d.1.updRunOf t fun r => { r with admitted := r.admitted + 1 },
            some (BitVec.ofNat 64 (d.2 - 2 ^ 32), BitVec.ofNat 64 r.admitted))
        else (d.1, none)

/-- Refill (R48): a new item, at `pc`, which is reached as a target (R158). -/
def Thread.refill (pc : Word) (x : Dword × Dword) (th : Thread) : Thread :=
  { th with
    st := .ready, wait := .none, group := none, pc := pc, rstack := [], spills := 0, readback := false
    reach := some 0xFFFFFFFF, item := x.1, age := x.2, conv := 0, arrived := [] }
/-- Drain (R50): the return stack goes with the item (R262). -/
def Thread.drain (th : Thread) : Thread :=
  { th with st := .drained, wait := .none, parks := [], group := none, rstack := [], spills := 0, readback := false }

/-- A troupe whose last live thread has drained is RETIRING (R39). -/
def retireCheck (s : State) (t : Nat) : State :=
  let tr := s.troupe t
  if tr.status == .resident && tr.liveMask = 0 then dropBundles (s.setTroupe t { tr with status := .retiring }) t else s

/-- Give a lane its refill; a read-back still outstanding is abandoned (R262). -/
def refillLane (s : State) (t l : Nat) (x : Dword × Dword) : State :=
  let s1 := (dropReadbacks s t (laneBit l)).setTroupe t (setPreds (s.troupe t) l 0)
  let th := s1.thread t l
  s1.setThread t l (({ th with parks := th.parks.filter fun i => (accById s1 i).isSome } : Thread).refill (s.runOf t).cue x)
def drainLane (s : State) (t l : Nat) : State :=
  (dropReadbacks s t (laneBit l)).setThread t l (s.thread t l).drain

/-- EXIT and refill of one thread at lane grain (R49), its clause state changed by the issue of EXIT already. -/
def exitLaneGrain (s : State) (t l : Nat) : State :=
  let d := drawItem s t l
  match d.2 with
  | some x => refillLane d.1 t l x
  | none => seatDrained (drainLane d.1 t l) (companyKey t) (seatOf t l)

/-- EXIT of one thread at a coarser grain: HELD. -/
def exitHeld (s : State) (t l : Nat) : State :=
  let th := s.thread t l
  seatHeld (s.setThread t l { th with st := .held, wait := .none }) (companyKey t) (seatOf t l)

/-! ### Units (R49) -/

/-- The seats of the grain unit of a lane, as troupe and lane, in ascending seat order. -/
def unitOf (s : State) (t l : Nat) : List (Nat × Nat) :=
  match (s.runOf t).grain with
  | 0 => [(t, l)]
  | 1 => (List.range 4).map fun k => (t, 4 * (l / 4) + k)
  | 2 => (List.range 32).map fun k => (t, k)
  | _ => (troupesOf s (companyKey t)).flatMap fun u => (List.range 32).map fun k => (u, k)

/-- Is a unit all-held, with no troupe of it away from RESIDENT (R49, R374)? -/
def unitHeld (s : State) (u : List (Nat × Nat)) : Bool :=
  let liveSeats := u.filter fun x => (s.thread x.1 x.2).live
  !liveSeats.isEmpty && liveSeats.all fun x =>
    (s.thread x.1 x.2).st == .held && (s.troupe x.1).status == .resident

/-- One HELD thread at its unit's refill. -/
def refillHeld (s : State) (t l : Nat) : State :=
  let d := drawItem s t l
  match d.2 with
  | some x => seatRefilled (cvLeave (refillLane d.1 t l x) t (laneBit l)) (companyKey t) (seatOf t l)
  | none => seatDrainedHeld (drainLane d.1 t l) (companyKey t) (seatOf t l)

/-- The all-held units of a company, each by its lowest seat as troupe and lane, in ascending order. -/
def heldUnits (s : State) (c : Nat) : List (Nat × Nat) :=
  (troupesOf s c).flatMap fun t => ((List.range 32).map fun l => (t, l)).filter fun x =>
    (unitOf s x.1 x.2).head? == some x && unitHeld s (unitOf s x.1 x.2)
/-- The units of a company that have become all-held refill next, in ascending order of their lowest seat, with no draw of the
company between (R49, R370). -/
def queueRefills (s : State) (c : Nat) : State :=
  let ours (a : Action) : Bool := match a with
    | .event (.unitRefill t _) => companyKey t == c
    | _ => false
  { s with agenda := (s.agenda.filter fun a => !ours a) ++ (heldUnits s c).map fun x => .event (.unitRefill x.1 x.2) }

/-- UNIT_REFILL: every HELD thread of the unit draws, and the unit is released together (R49, R54). Of several all-held units of
a company the one of the lowest seat refills first (R370). -/
def execUnitRefill (t l : Nat) (s : State) : Outcome :=
  let u := unitOf s t l
  if (s.runOf t).faulted.isSome || !unitHeld s u || (heldUnits s (companyKey t)).head? != u.head? then .next s
  else
    let held := u.filter fun x => (s.thread x.1 x.2).st == .held
    let s1 := held.foldl (fun s x => refillHeld s x.1 x.2) s
    let ts := (held.map Prod.fst).eraseDups
    .next (ts.foldl (fun z k =>
      retireCheck (bundleByPc z k (maskOf fun l => held.contains (k, l))) k) s1)

end Sys2Proof.Machine
end

