-- ==== Sys2Proof/Machine/Ctl.lean ====
section
/-! DEFINITION. The CTL class: branches, calls and the return stack with its spill, convergence points, EXIT, YIELD, NOP, BRK
and SLEEP (17_memory_control_instructions.md R252-R260; 18_divergent_call.md R262; 03_execution.md R59, R62, R63). -/

namespace Sys2Proof.Machine

open Sys2Proof

/-! ### Targets (R155, R253) -/

/-- Bytes of text the troupe's PC may lie in: the context handler runs firmware, not the code object (R378). -/
def textLimit (s : State) (t : Nat) : Nat := if (s.troupe t).context then 2 ^ 32 else (s.runOf t).textSize
def badTarget (limit : Nat) (x : Int) : Bool := x < 0 || x % 12 != 0 || x ≥ limit
/-- The lanes of `m` with a bad target trap ILLOP, with the lowest one's target. -/
def targetTrap (s : State) (c : Ctx) (m : Mask) (f : Nat → Int) : Option TrapInfo :=
  let bad := maskOf fun l => hasLane m l && badTarget (textLimit s c.t) (f l)
  if bad = 0 then none else some (c.trapInfo 0x01 bad ((BitVec.ofInt 32 (f (lowLane bad))).setWidth 64))
/-- Lanes go to their targets. -/
def goLanes (s : State) (c : Ctx) (m : Mask) (f : Nat → Int) : State :=
  s.mapLanes c.t m fun l th => th.goTo c.hdr (BitVec.ofInt 32 (f l)) c.pc

/-- DEDUCED, log 32. -/
def relTarget (c : Ctx) (k : Imm) : Int := (c.pc.toNat : Int) + 12 * k.toInt
def absTarget (s : State) (c : Ctx) (a : Opd) (l : Nat) : Int := (readWord s c l a 0).toNat

def branch (f : Nat → Int) (c : Ctx) (s : State) : Res :=
  match targetTrap s c c.act f with
  | some x => .trap s x
  | none => .ctl (goLanes s c c.act f)

def execBra (h : Hdr) (k : Imm) (s : State) : Outcome := issue (.bra h k) s fun c s => branch (fun _ => relTarget c k) c s
def execBrx (h : Hdr) (a : Opd) (s : State) : Outcome := issue (.brx h a) s fun c s => branch (absTarget s c a) c s

/-! ### The return stack (R62, R262) -/

/-- Device-local address of byte `b` of a thread's troupe-stack area: space 2, window PLAIN. -/
def stackAddr (b : Nat) : Dword := BitVec.ofNat 64 (2 ^ 63 + 2 * 2 ^ 56 + b)
/-- Lanes of `m` whose read-back is outstanding: they stall. -/
def readbackLanes (s : State) (c : Ctx) (m : Mask) : Mask := maskOf fun l => hasLane m l && (s.thread c.t l).readback
/-- Does a push spill? -/
def spillsNext (th : Thread) : Bool := th.rstack.length ≥ 4
/-- Would the push need an offset below 0? -/
def pushOverflows (r : Run) (th : Thread) : Bool := spillsNext th && r.stack < 8 * (th.spills + 1)

/-- Push PC + 12; a fifth on-chip entry sends the oldest one to the troupe stack. -/
def pushLane (s : State) (c : Ctx) (l : Nat) : State :=
  let th := s.thread c.t l
  let push (th : Thread) : Thread := { th with rstack := th.rstack ++ [c.pc + 12] }
  if spillsNext th then
    let b := (s.runOf c.t).stack - 8 * (th.spills + 1)
    let x := stackAddr b
    let a : Access := { Access.make (.thread c.t l) .store x (physOf s c.t l x) 8 with
      data := (th.rstack.headD 0).setWidth 64, isStore := true, spill := true }
    (enterAcc s c.t [l] a).setThread c.t l (push { th with rstack := th.rstack.tail, spills := th.spills + 1 })
  else s.setThread c.t l (push th)

/-- CALL and CALLX: targets, then STACKOVF, then a push and the move of every lane that is not stalled. -/
def call (f : Nat → Int) (c : Ctx) (s : State) : Res :=
  let stall := readbackLanes s c c.act
  let go := c.act &&& ~~~stall
  match targetTrap s c go f with
  | some x => .trap s x
  | none =>
    let ovf := maskOf fun l => hasLane go l && pushOverflows (s.runOf c.t) (s.thread c.t l)
    let need := ((lanes go).filter fun l => spillsNext (s.thread c.t l)).length
    if ovf != 0 then .trap s (c.trapInfo 0x21 ovf c.pcVal)
    else if queueFree s c.t < need then .part s c.act (.room need)
    else .part (goLanes ((lanes go).foldl (fun z l => pushLane z c l) s) c go f) stall .readback

def execCall (h : Hdr) (k : Imm) (s : State) : Outcome := issue (.call h k) s fun c s => call (fun _ => relTarget c k) c s
def execCallx (h : Hdr) (a : Opd) (s : State) : Outcome := issue (.callx h a) s fun c s => call (absTarget s c a) c s

/-- Pop the youngest entry; when that empties the on-chip part and spilled entries exist, start the read-back. -/
def popLane (s : State) (c : Ctx) (l : Nat) : State :=
  let th := s.thread c.t l
  let th1 : Thread := { th with rstack := th.rstack.dropLast }
  if th1.rstack.isEmpty && th.spills != 0 then
    let x := stackAddr ((s.runOf c.t).stack - 8 * th.spills)
    let a : Access := { Access.make (.thread c.t l) .load x (physOf s c.t l x) 8 with spill := true }
    (enterAcc s c.t [l] a).setThread c.t l { th1 with readback := true }
  else s.setThread c.t l th1

def execRet (h : Hdr) (s : State) : Outcome :=
  issue (.ret h) s fun c s =>
    let stall := readbackLanes s c c.act
    let go := c.act &&& ~~~stall
    let none' := maskOf fun l => hasLane go l && (s.thread c.t l).rstack.isEmpty
    if none' != 0 then .trap s (c.trapInfo 0x01 none' c.pcVal)
    else
      let target : Nat → Int := fun l => ((s.thread c.t l).rstack.getLastD 0).toNat
      let s1 := (lanes go).foldl (fun z l => popLane z c l) s
      match targetTrap s c go target with
      | some x => .trap s1 { x with val := c.pcVal }
      | none => .part (goLanes s1 c go target) stall .readback

/-! ### Convergence points (R255, R256) -/

/-- Release the threads of `m` that wait at point `k`, with 0. -/
def cvRelease (s : State) (t k : Nat) (m : Mask) : State :=
  leaveLanes s t (maskOf fun l => hasLane m l && ((s.troupe t).thread l).waitsCv k) fun _ => 0

def execCvset (h : Hdr) (k : Fin 8) (s : State) : Outcome :=
  issue (.cvset h k) s fun c s =>
    if c.idle then .ok s
    else
      let s1 := cvRelease s c.t k.val (~~~c.act)
      .ok (cvCheck (s1.setTroupe c.t ((s1.troupe c.t).setExpected k.val c.act)) c.t k.val)
def execCvsetIdle (h : Hdr) (k : Fin 8) (s : State) : Outcome :=
  issue (.cvsetIdle h k) s fun c s =>
    if c.idle then .ok s
    else
      let s1 := cvRelease s c.t k.val (~~~0)
      .ok (s1.setTroupe c.t ((s1.troupe c.t).setExpected k.val 0))

/-- A limit in ns as a deadline: 0 means none. -/
def deadlineOf (s : State) (n : Nat) : Nat := if n = 0 then 0 else s.wall + n

def execCvwait (h : Hdr) (k : Fin 8) (d : Opd) (b : Src) (s : State) : Outcome :=
  issue (.cvwait h k d b) s fun c s =>
    let e := (s.troupe c.t).expected k.val
    let limit := fun l => (readSrcZ s c l b 1).toNat
    let s1 := s.mapLanes c.t c.act fun l th =>
      th.waitAt c.hdr (if lanesWrite c d l then d else .rz) .n32 (.cvwait k.val (deadlineOf s (limit l)) (limit l))
    .ctl (cvCheck (leaveLanes s1 c.t (c.act &&& ~~~e) fun _ => 0) c.t k.val)

/-! ### EXIT, YIELD, NOP, BRK, SLEEP -/

/-- Does a node seat's DEQ wait, `j` records behind the queue's head: for earlier accesses of its troupe to the descriptor, the
stage's buffered ones, a clear P bit or a closed line (R74, R85, R86, R364)? -/
def drawWaits (s : State) (t l j : Nat) : Bool :=
  let r := s.runOf t
  r.source == .callboard && !r.closed && (s.troupe t).status != .handler &&
    let a := { Access.make (.thread t l) .deq (BitVec.ofNat 64 (2 ^ 63 + r.nodeQ)) r.nodeQ 4 with id := s.nextId }
    !(followIds s t [l] a).isEmpty || !(buffered s a).isEmpty || !nodeFree s r.nodeQ (j + 1)
/-- Threads that an EXIT stalls: those owed a register write (R49), and, of the others in their order, those whose draw waits. -/
def exitStall (s : State) (c : Ctx) : Mask × Mask :=
  let owed := maskOf fun l => hasLane c.act l && (s.troupe c.t).pend.any fun p => hasLane p.lanes l
  (owed, maskOf fun l => hasLane (c.act &&& ~~~owed) l && drawWaits s c.t l ((lanes (c.act &&& ~~~owed)).idxOf l))
/-- EXIT waits, thread by thread, for the register writes it is owed (R49), and at a node seat until its DEQ can be performed.
Threads that refill at lane grain form one bundle at the cue at once (R54).
DEDUCED, log 145. -/
def execExit (h : Hdr) (s : State) : Outcome :=
  issue (.exit h) s fun c s =>
    let stall := (exitStall s c).1 ||| (exitStall s c).2
    let go := c.act &&& ~~~stall
    let s0 := s.mapLanes c.t go fun _ th => th.clause c.hdr
    let one (z : State) (l : Nat) : State :=
      if (s.runOf c.t).grain = 0 && (s.troupe c.t).status != .handler then exitLaneGrain z c.t l else exitHeld z c.t l
    let s1 := (lanes go).foldl one s0
    let s2 := retireCheck (bundleByPc (allCheck (cvLeave s1 c.t go) c.t) c.t go) c.t
    .part (queueRefills s2 (companyKey c.t)) stall (if (exitStall s c).2 = 0 then .owed else .hazard)

/-- The wing passes over the bundle at its next choice (R258). -/
def passOver (s : State) (c : Ctx) : State :=
  let k := wingKey (s.troupe c.t)
  let w := s.wing k
  s.setWing k { w with passed := w.passed ++ [⟨c.t, c.mask⟩] }
def execYield (h : Hdr) (s : State) : Outcome := issue (.yield h) s fun c s => .ok (passOver s c)
def execNop (h : Hdr) (s : State) : Outcome := issue (.nop h) s fun _ s => .ok s

def execBrk (h : Hdr) (x : Imm) (s : State) : Outcome :=
  issue (.brk h x) s fun c s =>
    if c.idle then .ok s else .trap s { c.trapInfo 0x32 c.act (x.setWidth 64) with skip := c.act }

def execSleep (h : Hdr) (b : Src) (s : State) : Outcome :=
  issue (.sleep h b) s fun c s =>
    let dur := fun l => (readSrcZ s c l b 1).toNat
    let zero := maskOf fun l => hasLane c.act l && dur l = 0
    let s1 := s.mapLanes c.t c.act fun l th =>
      if dur l = 0 then th.advance c.hdr else th.waitAt c.hdr .rz .n32 (.sleep (s.ports.time.toNat + dur l))
    .ctl (if zero = 0 then s1 else passOver s1 c)

end Sys2Proof.Machine
end

