-- ==== Sys2Proof/Machine/Sync.lean ====
section
/-! DEFINITION. The SYNC class: FENCE, WAITC, junctions and waypoints (17_memory_control_instructions.md R238, R244-R251, R430;
21_consistency.md R314, R315; 29_translation.md R415). -/

namespace Sys2Proof.Machine

open Sys2Proof

/-! ### FENCE, WAITC -/

/-- Accesses and stores a FENCE of lane `l` waits for: those that must be complete or performed, and those that must stand in
the stage store buffer. Its kind `.rel` waits at every scope for all that later stores follow (R238).
DEDUCED, log 99. -/
def fenceWait (s : State) (t l : Nat) (k : FenceKind) (sc : Scope) : List Nat × List Nat :=
  let own := accsOfLane s t l
  let loads := (own.filter Access.returns).map Access.id
  let stores := (own.filter fun a => a.isStore).map Access.id
  let took := if scopeOuter sc then (s.thread t l).took.filter fun i => !accDone s i else []
  match k, sc with
  | .acq, _ => (loads, [])
  | .rel, _ => (own.map Access.id ++ storeIds s t ++ updsOfLane s t l ++ took, [])
  | .full, .troupe => (loads, [])
  | .full, .stage => (loads, stores)
  | .full, _ => (loads ++ stores ++ updsOfLane s t l ++ took, [])

/-- One lane at FENCE: on to PC + 12, STALLED there while something is waited for. -/
def fenceLane (s : State) (c : Ctx) (k : FenceKind) (sc : Scope) (l : Nat) : State :=
  let w := fenceWait s c.t l k sc
  let s1 := advanceLanes s c (laneBit l)
  if w.1.isEmpty && w.2.isEmpty then s1
  else s1.setThread c.t l { s1.thread c.t l with st := .stalled, wait := .drain w.1 w.2 }

def execFence (h : Hdr) (k : FenceKind) (sc : Scope) (s : State) : Outcome :=
  issue (.fence h k sc) s fun c s =>
    let s1 := if k != .rel && scopeOuter sc && !c.idle then dropRo s (s.troupe c.t).stage else s
    .ctl ((lanes c.act).foldl (fun z l => fenceLane z c k sc l) s1)

/-- DEDUCED, log 99. -/
def execWaitc (h : Hdr) (cls : Eng) (n : Fin 64) (s : State) : Outcome :=
  issue (.waitc h cls n) s fun c s =>
    let tr := s.troupe c.t
    match c.idle, cls, tr.xfaults with
    | false, .copy, x :: rest =>
      .trap (s.setTroupe c.t { tr with xfaults := rest }) (c.trapInfo 0x1A c.act x)
    | _, _, _ =>
      let s1 := advanceLanes s c c.act
      if tr.counter cls ≤ n.val then .ctl s1
      else .ctl (s1.mapLanes c.t c.act fun _ th => { th with st := .stalled, wait := .counter cls n.val })

/-! ### Junctions (R245-R248, R430) -/

/-- Is a seat live and not HELD? A troupe in a handler or saved keeps its threads' states in the handler state. -/
def seatActive (tr : Troupe) (l : Nat) : Bool :=
  let th := tr.thread l
  th.live && (if tr.status == .handler || tr.status == .saved then !tr.frozen.any fun x => x.1 == l && x.2.st == .held
    else th.st != .held)
/-- The seats of a company that are live and not HELD. -/
def activeSeats (s : State) (c : Nat) : List Nat :=
  (troupesOf s c).flatMap fun t => ((List.range 32).filter fun l => seatActive (s.troupe t) l).map fun l => seatOf t l
/-- Does any thread of the company wait at the junction? -/
def junctionWaited (s : State) (c j : Nat) : Bool :=
  (troupesOf s c).any fun t => (List.range 32).any fun l =>
    let th := s.thread t l
    th.st == .waiting && match th.wait with
      | .junction k _ _ => k == j
      | _ => false

def execJinit (h : Hdr) (j : Fin 24) (e : Option Src) (s : State) : Outcome :=
  issue (.jinit h j e) s fun c s =>
    if c.idle then .ok s
    else
      let k := companyKey c.t
      let ev := fun l => match e with
        | some b => (readSrcZ s c l b 1).setWidth 64
        | none => (0 : Dword)
      match uniformTrap c ev with
      | some x => .trap s x
      | none =>
        let x := s.junction k j.val
        let n := (ev c.low).toNat
        if (e.isSome && (n = 0 || n > 8192)) || !x.arrived.isEmpty || junctionWaited s k j.val then
          .trap s (c.trapInfo 0x22 c.act c.pcVal)
        else
          let members := if e.isSome then [] else activeSeats s k
          .ok (s.setJunction k j.val
            ⟨true, e.isNone, if e.isSome then n else members.length, 0, false, members, [], []⟩)

/-- JUNCTION for the lanes whose seat may not use the junction (R248).
DEDUCED, log 28. -/
def junctionTrap (s : State) (c : Ctx) (j : Nat) : Option TrapInfo :=
  let x := s.junction (companyKey c.t) j
  let bad := maskOf fun l => hasLane c.act l && (!x.isSet || (x.member && !x.members.contains (seatOf c.t l)))
  if bad = 0 then none else some (c.trapInfo 0x22 bad c.pcVal)
/-- MCLOST: the first such wait traps, and the trap clears the bit (R248). -/
def mclostTrap (s : State) (c : Ctx) : Option (State × TrapInfo) :=
  if !c.idle && (s.companyOf c.t).mclost then
    some (s.updCompanyOf c.t fun co => { co with mclost := false }, c.trapInfo 0x40 c.act c.pcVal)
  else none

/-- What an arrival of a lane follows, as a release at die scope (R237, R247, R314). -/
def arrivalWait (s : State) (t l : Nat) : List Nat :=
  (accsOfLane s t l).map Access.id ++ storeIds s t ++ updsOfLane s t l ++ (s.thread t l).took.filter fun i => !accDone s i
/-- Lanes of Active whose arrival must still wait.
DEDUCED, log 27. -/
def arrivalStall (s : State) (c : Ctx) : Mask := maskOf fun l => hasLane c.act l && !(arrivalWait s c.t l).isEmpty
def arrivalIds (s : State) (c : Ctx) : List Nat := ((lanes c.act).flatMap fun l => arrivalWait s c.t l).eraseDups

/-- The thread waits for the phase in which its arrival counts.
DEDUCED, log 47. -/
def waitJunction (s : State) (c : Ctx) (d : Opd) (l j : Nat) (phase deferred arr : Bool) : State :=
  s.mapLanes c.t (laneBit l) fun _ th =>
    { th.waitAt c.hdr d .n32 (.junction j deferred arr) with arrived := [(j, phase)] }

/-- The thread's recorded arrival at the junction, whose wait was withdrawn (R430). -/
def recorded (s : State) (t l j : Nat) : Option Bool := (((s.thread t l).arrived.find? fun a => a.1 == j).map Prod.snd)

/-- A reissued JARR or JARRW waits on its recorded arrival, or completes at once when that phase has completed. -/
def reissueArrival (s : State) (c : Ctx) (d : Opd) (l j : Nat) (p arr : Bool) : State :=
  let x := s.junction (companyKey c.t) j
  let seat := seatOf c.t l
  if x.deferred.contains seat then waitJunction s c d l j p true arr
  else if !arr && p == x.phase && x.arrived.contains seat then waitJunction s c d l j p false false
  else
    let s1 := s.mapLanes c.t (laneBit l) fun _ th => th.waitAt c.hdr d .n32 .none
    dropRo (leaveLanes s1 c.t (laneBit l) fun _ => (boolWord p).setWidth 64) (s.troupe c.t).stage

/-- JARR of one lane: it goes on with the phase bit, or waits while R58 defers it. -/
def jarrLane (s : State) (c : Ctx) (d : Opd) (j l : Nat) : State :=
  let k := companyKey c.t
  match recorded s c.t l j with
  | some p => reissueArrival s c d l j p true
  | none =>
    let r := arriveSeat (countUrgency s c.t) k j (seatOf c.t l)
    if r.2.2 then waitJunction r.1 c d l j r.2.1 true true
    else
      let s1 := writeLate r.1 c [(l, destWrites false d l ((boolWord r.2.1).setWidth 64))]
      junctionCheck (advanceLanes s1 c (laneBit l)) k j
/-- JARRW of one lane. -/
def jarrwLane (s : State) (c : Ctx) (d : Opd) (j l : Nat) : State :=
  let k := companyKey c.t
  match recorded s c.t l j with
  | some p => reissueArrival s c d l j p false
  | none =>
    let r := arriveSeat (countUrgency s c.t) k j (seatOf c.t l)
    junctionCheck (waitJunction r.1 c d l j r.2.1 r.2.2 false) k j

/-- Lanes whose earlier accesses are not performed yet stall; the others arrive in lane order. -/
def arriveLanes (s : State) (c : Ctx) (d : Opd) (f : State → Opd → Nat → State) : Res :=
  let stall := arrivalStall s c
  .part ((lanes (c.act &&& ~~~stall)).foldl (fun z l => f z (if lanesWrite c d l then d else .rz) l) s) stall
    (.drain (arrivalIds s c) [])

def execJarr (h : Hdr) (j : Fin 24) (d : Opd) (s : State) : Outcome :=
  issue (.jarr h j d) s fun c s =>
    match junctionTrap s c j.val with
    | some x => .trap s x
    | none => arriveLanes s c d fun z d l => jarrLane z c d j.val l

def execJarrw (h : Hdr) (j : Fin 24) (d : Opd) (s : State) : Outcome :=
  issue (.jarrw h j d) s fun c s =>
    match junctionTrap s c j.val, mclostTrap s c with
    | some x, _ => .trap s x
    | none, some x => .trap x.1 x.2
    | none, none => arriveLanes s c d fun z d l => jarrwLane z c d j.val l

/-- JWAIT of one lane: it waits while an arrival of its seat stands in the open phase. -/
def jwaitLane (s : State) (c : Ctx) (j l : Nat) : State :=
  if (s.junction (companyKey c.t) j).arrived.contains (seatOf c.t l) then
    s.mapLanes c.t (laneBit l) fun _ th => th.waitAt c.hdr .rz .n32 (.junction j false false)
  else dropRo (advanceLanes s c (laneBit l)) (s.troupe c.t).stage

def execJwait (h : Hdr) (j : Fin 24) (s : State) : Outcome :=
  issue (.jwait h j) s fun c s =>
    match junctionTrap s c j.val, mclostTrap s c with
    | some x, _ => .trap s x
    | none, some x => .trap x.1 x.2
    | none, none => .ctl ((lanes c.act).foldl (fun z l => jwaitLane z c j.val l) s)

/-! ### Waypoints (R249-R251) -/

/-- Steps 2 to 6 of R249 on one address: the place in the order, and the code. -/
def waypointCheck (s : State) (t : Nat) (x : Dword) : Option (Nat × Nat) :=
  if badForm (s.companyOf t) x then some (2, 0x11)
  else if winOf x != 0 then some (3, 0x12)
  else if !(isScratchSpace s x || spaceOf x == 1) then some (4, 0x23)
  else if offOf x % 16 != 0 then some (5, 0x10)
  else (boundsCheck s t x 16).map fun code => (6, code)
/-- The trap value of a waypoint check: the PC for WAYPOINT, else the address (Table 25.1). -/
def waypointTrap (c : Ctx) (x : TrapInfo) : TrapInfo := if x.code = 0x23 then { x with val := c.pcVal } else x

/-- WPINIT at the waypoint's home: GEN rises, PHASE stays. -/
def wpInit (s : State) (who : Who) (a : Nat) (b cc : Nat) : State :=
  let w0 := cleanN s a 4
  let gen := (w0 / 2 ^ 17 + 1) % 2 ^ 15
  let w1 := gen * 2 ^ 17 + w0 / 2 ^ 16 % 2 * 2 ^ 16 + b
  homeWrite s who a (leBytes 4 w1 ++ leBytes 4 b ++ leBytes 4 cc ++ leBytes 4 cc)

/-- What a step on a waypoint follows (R85, R308): the troupe's earlier accesses to the waypoint and steps on it, and acquires of
the issuing threads.
DEDUCED, log 106. -/
def wpEarlier (s : State) (t : Nat) (m : Mask) (a : Nat) : List Nat :=
  (s.accs.filter fun x => x.who.ofTroupe t && ((x.dev.isNone && x.ranges.any fun r => overlaps a 16 r.1 r.2) ||
    (x.acq && (lanes m).any fun l => x.who.ofLane t l))).map Access.id ++
  (s.upds.filter fun u => u.ofTroupe t && overlaps a 16 u.addr 16).map WpUpd.id

def execWpinit (h : Hdr) (base b k : Opd) (s : State) : Outcome :=
  issue (.wpinit h base b k) s fun c s =>
    if c.idle then .ok s
    else
      let addr := fun l => readPair s c l base 0
      match uniformTrap c addr, uniformTrap c (fun l => (readWord s c l b 1).setWidth 64),
          uniformTrap c (fun l => (readWord s c l k 2).setWidth 64) with
      | some x, _, _ => .trap s x
      | none, some x, _ => .trap s x
      | none, none, some x => .trap s x
      | none, none, none =>
        let x := addr c.low
        let bv := (readWord s c c.low b 1).toNat
        let cv := (readWord s c c.low k 2).toNat
        match waypointCheck s c.t x with
        | some r => .trap s (waypointTrap c (c.trapInfo r.2 c.act x))
        | none =>
          if bv > 65535 || (bv = 0 && cv = 0) then .trap s (c.trapInfo 0x23 c.act c.pcVal)
          else
            let a := physOf s c.t c.low x
            let u : WpUpd := ⟨s.nextId, a, none, 0, false, wpEarlier s c.t c.act a, 0, 0, some (c.t, c.act), some (bv, cv), none⟩
            let s1 := advanceLanes { s with upds := s.upds ++ [u], nextId := s.nextId + 1 } c c.act
            .ctl (s1.mapLanes c.t c.act fun _ th => { th with st := .stalled, wait := .drain [u.id] [] })

def execWparr (h : Hdr) (noarr : Bool) (base : Opd) (b : Src) (s : State) : Outcome :=
  issue (.wparr h noarr base b) s fun c s =>
    let addr := fun l => readPair s c l base 0
    match checkLanes c (lanes c.act) addr fun l => waypointCheck s c.t (addr l) with
    | some x => .trap s (waypointTrap c x)
    | none =>
      let one (z : State) (l : Nat) : State :=
        { z with
          upds := z.upds ++ [⟨z.nextId, physOf s c.t l (addr l), none, (readSrcZ s c l b 1).toNat, !noarr,
            (arrivalWait s c.t l ++ wpEarlier z c.t (laneBit l) (physOf s c.t l (addr l))).eraseDups, 0, (s.companyOf c.t).run,
            some (c.t, laneBit l), none, none⟩]
          nextId := z.nextId + 1 }
      .ok ((lanes c.act).foldl one s)

def execWpwait (h : Hdr) (d base b k : Opd) (s : State) : Outcome :=
  issue (.wpwait h d base b k) s fun c s =>
    let addr := fun l => readPair s c l base 0
    match checkLanes c (lanes c.act) addr fun l => waypointCheck s c.t (addr l) with
    | some x => .trap s (waypointTrap c x)
    | none =>
      match mclostTrap s c with
      | some x => .trap x.1 x.2
      | none =>
        let one (z : State) (l : Nat) : State :=
          let dl := deadlineOf s (readWord s c l k 2).toNat
          let a : Access := { Access.make (.thread c.t l) .wpwait (addr l) (physOf s c.t l (addr l)) 4 with
            data := (readWord s c l b 1).setWidth 64
            acq := true
            scope := .device
            deadline := dl }
          let z1 := enterAcc z c.t [l] a
          z1.setThread c.t l ((z1.thread c.t l).waitAt c.hdr (if lanesWrite c d l then d else .rz) .n32 (.wpwait z.nextId dl))
        .ctl ((lanes c.act).foldl one s)

end Sys2Proof.Machine
end

