-- ==== Sys2Proof/Machine/HomeEvents.lean ====
section
/-! DEFINITION. The events of an access at its home and of its completion, and the device's own stores (05_windows.md R74,
R77-R86, R431; 17_memory_control_instructions.md R232, R236, R242, R243; 18_divergent_call.md R262; 21_consistency.md R309-R314,
R320; 22_ordering_tests.md R326, R331; 25_traps.md R385; 27_host_fabric.md R394, R395, R401). An event whose conditions do not
hold leaves the state as it is. -/

namespace Sys2Proof.Machine

open Sys2Proof

/-- Run an event on an access. -/
def onAccess (s : State) (id : Nat) (f : State → Access → State) : Outcome :=
  match accById s id with
  | some a => .next (f s a)
  | none => .next s

/-! ### Forwarding (R86, R326) -/

/-- Is a `.rel` store still kept from its stage by loads of its thread that are not complete (R237)? -/
def relPending (s : State) (b : Access) : Bool :=
  b.rel && b.pub.isNone && b.after.any fun i => match accById s i with
    | some c => !c.isStore
    | none => false
/-- The buffered PLAIN stores a load takes bytes from, in their order; none while the load is held. -/
def forwarded (s : State) (a : Access) : Option (List Access) :=
  let bs := buffered s a
  if bs.isEmpty then some []
  else if a.op == .load && !a.vol && !a.home && bs.all (fun b => b.op == .store && !relPending s b) then
    let pub := bs.filter fun b => b.pub.isSome
    some (sortBy (fun x y => x.pub.getD 0 ≤ y.pub.getD 0) pub ++ bs.filter fun b => b.pub.isNone)
  else none
def Access.covers (b : Access) (a : Nat) : Bool := b.phys ≤ a && a < b.phys + b.size
/-- A byte as the load sees it. -/
def overlayByte (bs : List Access) (a : Nat) (x : Byte) : Byte :=
  bs.foldl (fun v b => if b.covers a then BitVec.ofNat 8 (b.data.toNat / 256 ^ (a - b.phys)) else v) x

/-! ### Loads -/

/-- The result of a load of `size` bytes, sign-extended where its TYPE is signed (R225). -/
def loadResult (a : Access) (x : Nat) : Dword :=
  if a.ty = 1 && a.size < 8 then BitVec.ofInt 64 ((BitVec.ofNat (8 * a.size) x).toInt) else BitVec.ofNat 64 x

/-- Note stores of other troupes that a load took bytes from (R314): whatever waits for the load, a release at die scope or wider
or a fence, then waits for them. -/
def noteTook (s : State) (a : Access) (bs : List Access) : State :=
  match a.who.threads with
  | some (t, m) =>
    let ids := (bs.filter fun b => !b.who.ofTroupe t).map Access.id
    let more (xs : List Nat) : List Nat := if xs.contains a.id then xs ++ ids else xs
    if ids.isEmpty then s
    else
      let s1 : State := { s with
        accs := s.accs.map fun b => if b.rel && scopeOuter b.scope then { b with after := more b.after } else b
        upds := s.upds.map fun u => { u with after := more u.after }
        companies := s.companies.map fun c => (c.1, { c.2 with releases := c.2.releases.map more }) }
      s1.mapLanes t m fun _ th => { th with
        took := (th.took.filter fun i => !accDone s i) ++ ids
        wait := match th.wait with
          | .drain xs ps => .drain (more xs) ps
          | w => w }
  | none => s

/-- A load is performed that later loads of its thread have been sampled ahead of. Where it takes a byte that its own stage alone
has written, R313 orders it before those that read such a location too, and R311 orders reads of one MX unit: the samples are
void. Otherwise they stand. -/
def settleEarly (s : State) (a : Access) (bs : List Access) : State :=
  let ordered := !bs.isEmpty || stageWritten s a
  { s with accs := s.accs.map fun b =>
    match b.early with
    | some (v, xs) =>
      if !xs.contains a.id then b
      else if (ordered && !foreignWritten s b) || (mxRead s a && mxRead s b) then { b with early := none }
      else { b with early := some (v, xs.filter fun i => i != a.id) }
    | none => b }
/-- The value of a PLAIN load is taken at its home ahead of earlier loads of its thread: nothing orders loads of locations that
other agents write (R308, R331). The load is performed with it unless `settleEarly` finds that R313 does.
DEDUCED, log 125. -/
def sampleLoad (id : Nat) (s : State) : State :=
  match accById s id with
  | none => s
  | some a =>
    let ahead := (earlierLoads s a).map Access.id
    if a.op != .load || a.vol || a.home || a.acq || a.spill || a.st != .queued || a.dev.isSome || a.early.isSome || ahead.isEmpty ||
        a.who.threads.isNone || !afterOk s a || lineClosed s a.id a.ranges || anyAbsent s a.ranges ||
        !(buffered s a).isEmpty || staleHit s a.phys a.size != [] || poisoned s a.phys a.size then s
    else setAcc s { a with early := some (loadResult a (cleanN s a.phys a.size), ahead) }

/-- The bytes of the load that no buffered store covers. -/
def uncovered (a : Access) (bs : List Access) : List Nat :=
  ((List.range a.size).map fun k => a.phys + k).filter fun p => !bs.any fun b => b.covers p

/-- Consume poison on the bytes read at the home, and give the value read. -/
def readHome (s : State) (a : Access) (bs : List Access) : State × Nat :=
  let s1 := if (uncovered a bs).any fun p => s.poison.contains (p / 8) then
      consume s a.who (a.who.runKey s) a.addr a.phys a.size else s
  (s1, leNat ((List.range a.size).map fun k => overlayByte bs (a.phys + k) (cleanByte s (a.phys + k))))

/-- Table 17.3. -/
def probeResult (s : State) (a : Access) : Nat :=
  let p := a.phys
  let bit (b : Bool) (k : Nat) : Nat := if b then 2 ^ k else 0
  match spaceOf a.addr with
  | 2 | 3 => 1
  | 1 => segOf a.addr * 256 + bit (present s p) 0
  | _ =>
    p / 2 ^ 32 * 2 ^ 13 + homeSlice s p % 32 * 256 + bit (inDerived s p 1) 3 +
      bit ((regionEntry s (regionOf p)).getLsbD 30) 2 + bit (watched s p) 1 + bit (present s p) 0

/-- Has the limit of a thread's AWAIT lapsed? A write in the clock of the lapse still counts (R82, R261). -/
def awaitOver (s : State) (a : Access) : Bool :=
  a.op == .await && !a.who.limited && a.dev.isNone && a.deadline != 0 && a.deadline < s.wall
/-- The load is performed at this point of the coherence order. An AWAIT that comes to its home with its limit lapsed returns
what stands there. -/
def loadHere (s : State) (a : Access) (bs : List Access) : State :=
  match a.op with
  | .probe => performed s a (BitVec.ofNat 64 (probeResult s a))
  | .wpwait =>
    let z := consume s a.who (a.who.runKey s) a.addr a.phys 4
    if cleanN s a.phys 4 / 2 ^ 16 % 2 != a.data.toNat % 2 then performed z a 1 else setAcc z { a with st := .awaiting }
  | .await =>
    let r := readHome s a []
    if r.2 != 0 || awaitOver s a then performed r.1 a (loadResult a r.2)
    else setAcc r.1 { a with
      st := .awaiting
      deadline := if a.who.limited && a.deadline = 0 then (if a.hold = 0 then s.wall + 10000 else a.hold) else a.deadline }
  | _ =>
    match a.early with
    | some (v, []) => performed s a v
    | _ =>
      let r := readHome s a bs
      performed (settleEarly (noteTook r.1 a bs) a bs) a (loadResult a r.2)

/-- A load reaches its home (R74, R84, R86, R140): it is held, joins the groups of tiles that are not FRESH, or is performed.
DEDUCED, log 107. -/
def loadAtHome (s : State) (a : Access) (absentOk : Bool) : State :=
  -- held for a store that is not PLAIN, it is taken at its home when all have been performed (R86, R326)
  if a.st == .queued && !a.vol && !a.home && windowHeld s a then setAcc s { a with home := true }
  else if !mayReach s a || !afterReached s a || a.st != .queued then s
  else match forwarded s a with
  | none => s
  | some bs =>
    if a.op == .load && (uncovered a bs).isEmpty then (if afterOk s a then loadHere s a bs else s)
    else if parks a.op && !absentOk && anyAbsent s a.ranges then holdP s a
    else
      let stale := if a.op == .probe || a.op == .wpwait then [] else staleHit s a.phys a.size
      if stale.isEmpty then (if afterOk s a then loadHere s a bs else s)
      else
        let s1 := setAcc s { a with st := .derived, reached := true, early := none }
        stale.foldl (fun z x => requestTile z x.1 x.2 (.access a.id) false) s1

/-! ### Skason (R401, R402) -/

/-- Links of the module: 16, of which LM4-B carries 8. -/
def linkExists (s : State) (l : Nat) : Bool := l < (match s.mgmt.grade with | .a => 16 | .b => 8)
/-- Links that the route table names for a device: masks by destination (27_host_fabric.md R401). -/
def routeMask (s : State) (dst : Nat) : Nat := tget s.ports.route 0 dst
/-- Links up among a route mask, in ascending order. -/
def routeLinks (s : State) (dst : Nat) : List Nat :=
  (List.range 16).filter fun l => routeMask s dst / 2 ^ l % 2 == 1 && s.ports.links.contains l
/-- The link an offset leaves on: index offset[33:8] mod k among the k links of the mask. -/
def routeLink (s : State) (dst off : Nat) : Option Nat :=
  let ls := routeLinks s dst
  ls[off / 256 % ls.length]?

/-- A stage's remote-error counter rises (R87). -/
def countRemoteError (s : State) (st : Nat) : State := bump s (stageCounter st 0) 1
/-- A refused or unroutable access of this module: a store is dropped, a load returns zero, and the stage's remote-error
counter rises (R87). `cause` is that of R399's report. -/
def refuseRemote (s : State) (a : Access) (port cause : Nat) : State :=
  let s1 := match a.who.stageOf s with
    | some st => countRemoteError s st
    | none => s
  let s2 := logError s1 port cause (skid s) (winOf a.addr) a.addr
  performed s2 a 0

/-- The troupe number a packet carries, for R321's ordering. -/
def Who.skTroupe (w : Who) : Nat :=
  match w.threads with
  | some (t, _) => t
  | none => 0
/-- Was the access a `.rel` store on a link that went down before it was acknowledged? It will be refused (R405). -/
def Access.lostRel (a : Access) : Bool := a.rel && a.cut && !a.acked
/-- Send an access to the device it names. -/
def sendRemote (s : State) (a : Access) : State :=
  let dst := remoteId a.addr
  if !afterOk s a || a.st != .queued then s
  else match routeLink s dst (scratchOff a.addr) with
  | none => refuseRemote s a 18 11
  | some l =>
    let r : SkReq := ⟨skid s, dst, l, 1, a.op, a.ty, a.addr, a.size, a.data, a.cmp, a.rel, a.who.skTroupe,
      if a.deadline = 0 then 0 else a.deadline - a.issued, a.id⟩
    setAcc { s with out := s.out ++ [.skason l r] } { a with
      st := .remote, issued := s.wall, dies := [l], acked := false, cut := false
      deadline := if a.deadline = 0 then 0 else s.wall + (a.deadline - a.issued)
      hold := if a.hold = 0 then s.wall + 10000000 else a.hold }

/-! ### The events -/

/-- An access that goes to another device is sent; any other is performed by `f`. -/
def atHome (f : State → Access → State) (s : State) (a : Access) : State := if a.dev.isSome then sendRemote s a else f s a

/-- PLAIN_LOAD: also PROBE and WPWAIT, which read at the home as a load does. -/
def execPlainLoad (id : Nat) (s : State) : Outcome :=
  onAccess s id (atHome fun s a => if a.op == .load || a.op == .probe || a.op == .wpwait then loadAtHome s a false else s)

/-- A read-modify-write at the home (R77, R81, R240): the old value, the new one, and the result. -/
def rmwHere (s : State) (a : Access) : State :=
  let s1 := consume s a.who (a.who.runKey s) a.addr a.phys a.size
  let old := cleanN s a.phys a.size
  let new := combineN a.op a.ty a.size old a.data.toNat a.cmp.toNat
  performed (homeWriteN s1 a.who a.phys a.size new) a (BitVec.ofNat 64 old)
/-- A load window of the stage waits until every buffered store to its bytes has been performed (R86). -/
def bufferClear (s : State) (a : Access) : Bool := a.isStore || (buffered s a).isEmpty

/-- A write of the kinds `ops`, through presence, marks and derived ranges. -/
def writeEvent (ops : List AOp) (k : State → Access → State) (absentOk : Bool) (s : State) (a : Access) : State :=
  if ops.contains a.op && bufferClear s a && (a.st == .queued || match a.st with
      | .heldW _ => true
      | _ => false) then performWrite s a absentOk k else s

/-- The bytes of a store: those that a PCI Express write does not enable stay. -/
def storeBytes (s : State) (a : Access) : List Byte :=
  if a.enabled.length = a.size then leBytes a.size a.data.toNat
  else ((leBytes a.size a.data.toNat).zipIdx).map fun x => if a.enabled.contains x.2 then x.1 else cleanByte s (a.phys + x.2)
def storeHere (s : State) (a : Access) : State := performed (homeWrite s a.who a.phys (storeBytes s a)) a 0
/-- A malformed descriptor counts against an outside agent (R88, R399). -/
def blameQueue (s : State) (a : Access) (bad : Bool) : State := if bad then blame s a.who 5 a.addr else s
def Xreq.isFor (q : Xreq) (host : Bool) (ctx page : Nat) (write : Bool) : Bool :=
  q.host == host && q.ctx == ctx && q.page == page && q.write == write
/-- Are two pending device-space requests for one ASID, page and kind (R411)? -/
def Xreq.sameFault (q x : Xreq) : Bool := !q.host && !x.host && q.isFor false x.ctx x.page x.write
/-- A fault's report has reached its queue, which has taken or dropped it: for each request that it stands for (R411). -/
def faultPosted (s : State) (w : Who) (taken : Bool) : State :=
  match w with
  | .fault k =>
    match s.xreqs.find? fun q => q.id == k with
    | none => s
    | some q => { s with xreqs := s.xreqs.map fun x =>
        match x.st with
        | .posting since => if x.sameFault q then { x with st := if taken then .reported since else .unreported since s.wall } else x
        | _ => x }
  | _ => s
def enqHere (s : State) (a : Access) : State :=
  let s0 := consume s a.who (a.who.runKey s) a.addr a.phys 32
  let r := enqAt s0 a.who a.phys (a.size / 4) a.data.toNat
  performed (faultPosted (blameQueue r.1 a (descOf s a.phys).bad) a.who r.2.2) a (BitVec.ofNat 64 (r.2.1 + if r.2.2 then 2 ^ 32 else 0))
def deqHere (s : State) (a : Access) : State :=
  let s0 := consume s a.who (a.who.runKey s) a.addr a.phys 32
  let s1 := (queueReads s .deq a.phys).foldl (fun z g => consume z a.who (a.who.runKey s) a.addr g.1 g.2) s0
  let r := deqAt s1 a.who a.phys
  performed (blameQueue r.1 a (descOf s a.phys).bad) a (BitVec.ofNat 64 r.2)

/-- PLAIN_STORE: also the atomics EXCH, CAS and XOR, which no window performs.
DEDUCED, log 35. -/
def execPlainStore (id : Nat) (s : State) : Outcome :=
  onAccess s id (atHome fun s a =>
    if a.op == .store then writeEvent [.store] storeHere false s a else writeEvent [.xor, .exch, .cas] rmwHere false s a)
def windowEvent (op : AOp) (id : Nat) (s : State) : Outcome := onAccess s id (atHome (writeEvent [op] rmwHere false))
def execWindowAdd (id : Nat) (s : State) : Outcome := windowEvent .add id s
def execWindowMax (id : Nat) (s : State) : Outcome := windowEvent .max id s
def execWindowMin (id : Nat) (s : State) : Outcome := windowEvent .min id s
def execWindowOr (id : Nat) (s : State) : Outcome := windowEvent .or id s
def execWindowAnd (id : Nat) (s : State) : Outcome := windowEvent .and id s
def execTake (id : Nat) (s : State) : Outcome := windowEvent .take id s
def execCount (id : Nat) (s : State) : Outcome := windowEvent .count id s
def execEnq (id : Nat) (s : State) : Outcome := onAccess s id (atHome (writeEvent [.enq, .aenq] enqHere false))
def execDeq (id : Nat) (s : State) : Outcome := onAccess s id (atHome (writeEvent [.deq, .adeq] deqHere false))
def execAwait (id : Nat) (s : State) : Outcome :=
  onAccess s id (atHome fun s a => if a.op == .await then loadAtHome s a false else s)

/-! ### RO loads (R86) -/

/-- First byte and length of a tagged line. -/
def lineBase (l : Nat) : Nat × Nat := if l < 2 ^ 26 then (256 * l, 256) else (2 ^ 40 + (l - 2 ^ 36) * 128, 128)
/-- Serve an RO load from a line's bytes. -/
def roFrom (s : State) (a : Access) (bs : List Byte) : State :=
  performed s a (loadResult a (leNat ((bs.drop (a.phys - (lineBase (lineOf a.phys)).1)).take a.size)))
/-- RO_LOAD: from the stage's RO cache, or from the home, which fills it, unless a part of the line is poisoned (R424). An RO load never checks the store buffer, but a
`.vol` one does and is performed at its home (R226); one of a derived tensor, and one of an agent that is no stage, is served
as a load. -/
def roAtHome (cached : Bool) (s : State) (a : Access) : State :=
  if a.op != .ro || a.st != .queued || !afterOk s a then s
  else if a.vol then
    -- what the cache holds of its line is older from then on (R86)
    loadAtHome (match a.who.stageOf s with
      | some st => s.setStage st { s.stage st with ro := terase (s.stage st).ro (lineOf a.phys) }
      | none => s) a false
  else match a.who.stageOf s with
  | none => loadAtHome s a false
  | some st =>
    let g := s.stage st
    if inDerived s a.phys a.size then
      (if shut s a a.ranges then s
       else if anyAbsent s a.ranges then holdP s a
       else if staleHit s a.phys a.size = [] then loadHere s a []
       else (staleHit s a.phys a.size).foldl (fun z x => requestTile z x.1 x.2 (.access a.id) false)
          (setAcc s { a with st := .derived, reached := true, early := none }))
    else match cached, g.ro.find? fun x => x.1 == lineOf a.phys with
    | true, some x => roFrom s a x.2
    | true, none => s
    | false, _ =>
      if shut s a a.ranges then s
      else if anyAbsent s a.ranges then holdP s a
      else
        let lb := lineBase (lineOf a.phys)
        let bytes := cleanBytes s lb.1 lb.2
        let s1 := consume s a.who (a.who.runKey s) a.addr a.phys a.size
        if poisoned s lb.1 lb.2 then roFrom s1 a bytes
        else roFrom ({ s1 with picks := s1.picks + 1 }.setStage st
          { g with ro := fillLine s1 g.ro 65536 (lineOf a.phys) bytes }) a bytes
def execRoLoad (id : Nat) (cached : Bool) (s : State) : Outcome := onAccess s id (atHome (roAtHome cached))

/-! ### Writes of the device itself -/

/-- Enter bytes as stores of aligned 8-byte parts, which wait for their line to open (R138). -/
def enterParts : Nat → State → Nat → List Byte → State
  | 0, s, _, _ => s
  | n + 1, s, a, bs =>
    if bs.isEmpty then s
    else
      let k := min bs.length (8 - a % 8)
      let b : Access := { Access.make .device .store (BitVec.ofNat 64 (2 ^ 63 + a % 2 ^ 34)) a k with
        data := BitVec.ofNat 64 (leNat (bs.take k)), after := devicePending s a k }
      enterParts n (addAcc s b) (a + k) (bs.drop k)
/-- A store of the device's own (prompter, posting, saving): its marks, then its bytes, in one step; dropped in a derived range; and
entered as accesses where its line is closed.
DESIGN CHOICE, log 59. -/
def deviceWrite (s : State) (a : Nat) (bs : List Byte) : State :=
  if bs.isEmpty then s
  else if lineClosed s 0 [(a, bs.length)] || !(devicePending s a bs.length).isEmpty then enterParts bs.length s a bs
  else if inDerived s a bs.length then bump s (sliceCounter (countSlice s a) 0x0C) 1
  else
    let ms := if anyWatched s [(a, bs.length)] then marksOf s [(a, bs.length)] else []
    homeWrite (markNow 4 s ms) .device a bs
def deviceWriteN (s : State) (a n x : Nat) : State := deviceWrite s a (leBytes n x)

/-! ### CAST (R78, R385) -/

/-- Companies whose company memory holds a byte, and that are pre-empted or off-core (R385). -/
def companyAt (s : State) (a : Nat) : Option Nat :=
  ((s.companies.find? fun x =>
    x.2.placed && !x.2.retired && (x.2.stages.zip x.2.cmBase).any fun g =>
      cmAddr g.1 g.2 ≤ a && a < cmAddr g.1 (g.2 + (s.run x.2.run).cmem))).map Prod.fst
def Company.away (co : Company) : Bool := co.preempted || co.offCore
/-- CFLAGS, MCLOSTN and the reserved bytes as they stand in the company block (Table 25.5).
DEDUCED, log 58. -/
def writeCflags (s : State) (c : Nat) (saved : Bool) : State :=
  let co := s.company c
  deviceWrite s ((s.run co.run).companyBlock co.index)
    (leBytes 4 ((if co.lost || co.mclost then 1 else 0) + if saved then 2 else 0) ++ leBytes 4 co.mclostN ++
      List.replicate 248 0)
/-- Count a delivery that a pre-empted company loses. -/
def loseDelivery (s : State) (c : Nat) : State :=
  let co := s.company c
  if co.retired then s
  else writeCflags (s.setCompany c { co with mclostN := sat32 (co.mclostN + 1), lost := true }) c co.offCore
/-- The company that loses a write to the byte (R385): any write while its memory is off-core, a CAST delivery from the
PREEMPT on. -/
def lostAt (s : State) (cast : Bool) (a : Nat) : Option Nat :=
  match awayCompany a with
  | some c => some c
  | none => if cast && isCm a then (companyAt s a).filter fun c => (s.company c).away else none

/-- One delivery of a CAST, as the PLAIN store that it is. -/
def Access.delivery (a : Access) (p : Nat) : Access := { a with dies := [p] }
/-- Do the predecessors of one delivery let it be performed: those that meet it, and acquires and releases (R78); every one where
the order is that of an endpoint's posted writes or a service core's FENCE (R321, R400)? -/
def deliveryOk (s : State) (a : Access) (p : Nat) : Bool :=
  let ordered := match a.who with
    | .pcie _ _ _ _ | .service _ _ _ => true
    | _ => false
  mayReach s (a.delivery p) && a.after.all fun id =>
    match accById s id with
    | none => accDone s id
    | some b => ((b.st == .performed || b.st == .awaiting) && !b.acq && !a.rel) ||
        (!ordered && !b.acq && !a.rel && !(a.delivery p).meets b)
/-- One delivery of a CAST store: each is independent of the others. One that an outside agent makes into a derived range also
counts at its port (R88, R145). -/
def castDeliver (k : Nat) (s : State) (a : Access) : State :=
  match a.dies[k]? with
  | none => s
  | some p =>
    let over' (s : State) : State :=
      let b := { a with dies := a.dies.eraseIdx k, castHeld := a.castHeld.filter fun x => x.1 != p }
      if b.dies.isEmpty then performed s b 0 else setAcc s b
    if a.op != .cast then s
    else match lostAt s true p with
    | some c => over' (loseDelivery s c)
    | none =>
      let go (s : State) : State := over' (homeWrite s a.who p (leBytes a.size a.data.toNat))
      match a.castHeld.find? fun x => x.1 == p with
      | some x => if marksOver s x.2 then go s else s
      | none =>
        if !deliveryOk s a p then s
        else if inDerived s p a.size then
          let s1 := bump s (sliceCounter (countSlice s p) 0x0C) 1
          over' (if a.who.outside then blame s1 a.who 6 a.addr else s1)
        else
          let ms := if anyWatched s [(p, a.size)] then marksOf s [(p, a.size)] else []
          if ms.isEmpty then go s
          else
            let sm := sendMarks s ms a.id none 0
            setAcc sm.1 { a with castHeld := a.castHeld ++ [(p, sm.2)] }
def execCastDelivery (id k : Nat) (s : State) : Outcome := onAccess s id (atHome (castDeliver k))

/-! ### Limits, holds, completion -/

/-- Perform whatever an access is, when a hold at its home has ended. -/
def performAny (absentOk : Bool) (s : State) (a : Access) : State :=
  match a.op with
  | .store => writeEvent [.store] storeHere absentOk s a
  | .cast => castDeliver 0 s a
  | .enq | .aenq => writeEvent [.enq, .aenq] enqHere absentOk s a
  | .deq | .adeq => writeEvent [.deq, .adeq] deqHere absentOk s a
  | .ro => if absentOk || a.who.stageOf s = none then loadAtHome s a absentOk else roAtHome false s a
  | .load | .await | .probe | .wpwait => loadAtHome s a absentOk
  | op => writeEvent [op] rmwHere absentOk s a

/-- AWAIT_LIMIT_EXPIRY: a thread's AWAIT that waits at its home returns the current value (R82); one that has not been
performed yet keeps its place in the order, and returns what it finds. -/
def execAwaitLimitExpiry (id : Nat) (s : State) : Outcome :=
  onAccess s id fun s a =>
    if awaitOver s a && a.st == .awaiting then performed s a (loadResult a (cleanN s a.phys a.size)) else s
/-- The lapse of a hold on a clear P bit counts at the slice, once for a read of several parts (R74, R395). -/
def countLapse (s : State) (a : Access) : State :=
  if a.reported then s
  else
    let ids := (readGroup s a).map Access.id
    bump { s with accs := s.accs.map fun b => if ids.contains b.id && b.id != a.id then { b with reported := true } else b }
      (sliceCounter (countSlice s a.phys) 4) 1
/-- AGENT_HOLD_LIMIT_EXPIRY: a held access of an outside agent is performed as if P were set, an AWAIT with the bytes that stand
there (R74); a waiting AWAIT of one returns the current value (R82). -/
def execAgentHoldLimitExpiry (id : Nat) (s : State) : Outcome :=
  onAccess s id fun s a =>
    if !a.who.outside then s
    else match a.st with
    | .heldP =>
      if a.hold = 0 || s.wall < a.hold then s
      else
        let z := performAny true (setAcc s { a with st := .queued }) { a with st := .queued }
        match accById z id with
        | some b =>
          if b.st == .queued then s
          else countLapse (if b.st == .awaiting then performed z b (loadResult b (cleanN z b.phys b.size)) else z) a
        | none => countLapse z a
    | .awaiting =>
      if a.who.limited && a.deadline != 0 && a.deadline ≤ s.wall then performed s a (loadResult a (cleanN s a.phys a.size)) else s
    | _ => s
/-- PARK_REPORT: the thread enters PARKED (R431), and leaves its bundle (R53). -/
def execParkReport (id : Nat) (s : State) : Outcome :=
  onAccess s id fun s a =>
    match a.st, a.who.threads with
    | .heldP, some (t, m) =>
      if a.reported then s
      else (leaveBundles (setAcc s { a with reported := true }) t m).mapLanes t m fun _ th =>
        if th.live then { th with parks := th.parks ++ [a.id] } else th
    | _, _ => s

/-- What an outside agent receives; a read that has been completed with Completer Abort (`cmp` 1) returns nothing (R395). -/
def replyOut (s : State) (a : Access) : State :=
  let data := leBytes a.size a.res.toNat
  match a.who with
  | .pcie rid _ tag _ => if a.cmp = 1 then s else { s with out := s.out ++ [.completion rid tag data] }
  | .skason src _ tag _ => { s with out := s.out ++ [.skasonReply src tag a.res 0] }
  | .service die core tag => { s with out := s.out ++ [.serviceReply die core tag a.res] }
  | _ => s
/-- The result of a wait in a load leaves with its thread. -/
def Thread.waitsAccess (th : Thread) (id : Nat) : Bool :=
  th.st == .waiting && match th.wait with
    | .await i => i == id
    | .wpwait i _ => i == id
    | _ => false
/-- The lanes in whose handler state an AWAIT still stands: the wait of a lane whose RESUMEPC the handler wrote, or that is in TSKIP,
is dropped (R376). -/
def frozenWaits (tr : Troupe) (m : Mask) (id : Nat) : Mask :=
  if tr.status != .handler then 0
  else maskOf fun l => hasLane m l && !hasLane (tr.written ||| tr.last.skip) l &&
    tr.frozen.any fun x => x.1 == l && x.2.st == .waiting && x.2.wait == .await id
/-- The result of such an AWAIT is written. What the handler's CSRs show of its threads stays until RTT (R375). -/
def leaveFrozen (s : State) (t : Nat) (m : Mask) (res : Dword) : State :=
  s.setTroupe t ((lanes m).reverse.foldl (fun tr l =>
    match tr.frozen.find? fun x => x.1 == l with
    | some x =>
      let tr1 := tr.setRegs (destWrites (Ty.wide x.2.info.ty) x.2.info.d l res)
      { tr1 with frozen := tput tr1.frozen l { x.2 with got := true } }
    | none => tr) (s.troupe t))
/-- Bring a performed access to its end: the result is written, and attached results are no longer outstanding. -/
def completeAcc (s : State) (a : Access) (res : Dword) : State :=
  let s1 := dropAcc s a.id
  match a.who.threads with
  | none => replyOut s1 { a with res := res }
  | some (t, m) =>
    let s2 := if a.acq && scopeOuter a.scope then dropRo s1 (s1.troupe t).stage else s1
    let s3 := if a.pend = 0 then s2 else performPend s2 t a.pend
    let w := maskOf fun l => hasLane m l && ((s3.troupe t).thread l).waitsAccess a.id
    let f := frozenWaits (s3.troupe t) m a.id
    let s4 := if f = 0 then s3 else leaveFrozen s3 t f res
    if w = 0 then s4 else leaveLanes s4 t w fun _ => res
/-- A performed access returns. A read of several parts is completed once, with the bytes of all of them, when the last has been
performed; the parts of one that was ended with Completer Abort go one by one (R394, R395). -/
def returnAcc (s : State) (a : Access) : State :=
  let g := readGroup s a
  if g.length ≤ 1 || a.cmp = 1 then completeAcc s a a.res
  else if g.any fun b => b.st != .performed then s
  else match a.who with
    | .pcie rid _ tag _ =>
      let z := g.foldl (fun z b => dropAcc z b.id) s
      { z with out := z.out ++ [.completion rid tag (g.flatMap fun b => leBytes b.size b.res.toNat)] }
    | _ => s
/-- LOAD_COMPLETION: the reply of a performed access, or Skason's reply or acknowledgement of a remote one. -/
def execLoadCompletion (id : Nat) (reply : Dword) (s : State) : Outcome :=
  onAccess s id fun s a =>
    match a.st, a.spill with
    | .performed, false => returnAcc s a
    | .remote, _ =>
      if a.lostRel then s
      else
      let v := if a.op == .load || a.op == .ro || a.op == .await then loadResult a (reply.toNat % 2 ^ (8 * a.size)) else reply
      completeAcc (knowResult (unpark s a) a v) a v
    | _, _ => s
/-- READBACK_COMPLETE: the entry is on-chip again (R62, R262); reserved bits are ignored (R63). -/
def execReadbackComplete (t l : Nat) (s : State) : Outcome :=
  match s.accs.find? fun a => a.spill && a.op == .load && a.who.ofLane t l && a.st == .performed with
  | none => .next s
  | some a =>
    let s1 := dropAcc s a.id
    let th := s1.thread t l
    .next (if th.readback then
      s1.setThread t l { th with readback := false, rstack := loWord a.res :: th.rstack, spills := th.spills - 1 }
    else s1)

/-- CVWAIT_TIMEOUT: the thread writes 0 and leaves WAITING, but stays expected (R256). What completes the wait in the clock of the
lapse comes first (R59, R67). -/
def execCvwaitTimeout (t l : Nat) (s : State) : Outcome :=
  let th := s.thread t l
  match th.st, th.wait with
  | .waiting, .cvwait _ d _ => .next (if d != 0 && d < s.wall then leaveLanes s t (laneBit l) fun _ => 0 else s)
  | _, _ => .next s
/-- WPWAIT_TIMEOUT: the access ends with 0, unless its phase has flipped by the clock of the lapse (R251, R261). -/
def execWpwaitTimeout (t l : Nat) (s : State) : Outcome :=
  let th := s.thread t l
  match th.st, th.wait with
  | .waiting, .wpwait id d =>
    match accById s id with
    | some a =>
      if d != 0 && d < s.wall && a.st != .performed then .next (leaveLanes (dropAcc s id) t (laneBit l) fun _ => 0) else .next s
    | none => .next s
  | _, _ => .next s
/-- SLEEP_EXPIRY (R260). -/
def execSleepExpiry (t l : Nat) (s : State) : Outcome :=
  let th := s.thread t l
  match th.st, th.wait with
  | .waiting, .sleep d => .next (if d ≤ s.ports.time.toNat then leaveLanes s t (laneBit l) fun _ => 0 else s)
  | _, _ => .next s

end Sys2Proof.Machine
end

