-- ==== Sys2Proof/Machine/Derived.lean ====
section
/-! DEFINITION. The events of derivation: stale marks and their acknowledgement, derived loads, the reads of recomputes, and
dropped writes (11_derived.md R133, R137-R145; 07_numbers.md R101, R103, R107). -/

namespace Sys2Proof.Machine

open Sys2Proof

/-! ### Stale marks (R138, R139) -/

/-- Acknowledge marks: each is over, and a FRESH tile's mark that waited for it alone is acknowledged too. Derivations are at
most three deep. -/
def ackMarks : Nat → State → List Nat → State
  | 0, s, _ => s
  | n + 1, s, ids =>
    let rest := s.marks.filter fun m => !ids.contains m.id
    let after := rest.map fun m => if m.waits.isEmpty then m else { m with waits := m.waits.filter fun i => !ids.contains i }
    let freed := (rest.filter fun m => !m.waits.isEmpty && m.waits.all fun i => ids.contains i).map Mark.id
    let s1 := { s with marks := after }
    if freed.isEmpty then s1 else ackMarks n s1 freed

/-- STALE_MARK: a mark reaches the derived home (R139, Table 11.6). -/
def execStaleMark (k : Nat) (s : State) : Outcome :=
  match s.marks.find? fun m => m.id == k with
  | none => .next s
  | some m =>
    if m.arrived then .next s
    else
      let e := s.entry m.e
      let s1 := bump s (sliceCounter m.home 0x10) 1
      let x := s1.tile m.e m.tile
      match x.st with
      | .fresh =>
        let s2 := s1.setTile m.e m.tile { x with st := .stale }
        let rs := e.tileRanges m.tile
        let ms := if anyWatched s2 rs then marksOf s2 rs else []
        if ms.isEmpty then .next (ackMarks 4 s2 [k])
        else
          let sm := sendMarks s2 ms m.wr m.chunk k
          .next { sm.1 with marks := sm.1.marks.map fun y => if y.id = k then { y with arrived := true, waits := sm.2 } else y }
      | .busy => .next (ackMarks 4 (s1.setTile m.e m.tile { x with st := .dirty }) [k])
      | _ => .next (ackMarks 4 s1 [k])

/-- MARK_ACK: every mark of a held write has been acknowledged and it is performed (R138). -/
def execMarkAck (id : Nat) (s : State) : Outcome :=
  onAccess s id fun s a =>
    match a.st with
    | .heldW _ => performAny true s a
    | _ => match a.castHeld.find? fun x => marksOver s x.2 with
      | some x => castDeliver (a.dies.idxOf x.1) s a
      | none => s

/-! ### Derived loads (R140, R143) -/

/-- DERIVED_LOAD: a load of derived or scale bytes is served, or joins the groups of its tiles. -/
def execDerivedLoad (id : Nat) (s : State) : Outcome :=
  onAccess s id fun s a =>
    if a.dev.isNone && (tilesHit s a.phys a.size) != [] then
      (match a.op with
       | .load | .await => loadAtHome s a false
       | .ro => roAtHome false s a
       | _ => s)
    else s

/-! ### Recompute (R141) -/

/-- The base elements a tile needs: rows, first column, end of columns. -/
def Entry.baseArea (e : Entry) (tile : Nat) : List Nat × Nat × Nat :=
  let R := tile / e.der.tileCols
  let C := tile % e.der.tileCols
  let rowsOf (b n : Nat) : List Nat := (List.range (min 64 (n - 64 * b))).map fun k => 64 * b + k
  match e.rule with
  | 1 | 4 | 5 => (rowsOf C e.base.rows, 64 * R, min (64 * R + 64) e.base.cols)
  | 2 | 3 => (rowsOf R e.base.rows, 64 * C, min (64 * C + 64) e.base.cols)
  | 6 | 8 => (rowsOf R e.base.rows, 0, e.base.cols)
  | _ => (List.range e.base.rows, 64 * C, min (64 * C + 64) e.base.cols)

/-- Bytes of columns `c0` to `c1` of a row. -/
def Tensor.rowRange (x : Tensor) (i c0 c1 : Nat) : Nat × Nat :=
  (x.off + i * x.stride + fmtBytes x.fmt c0, fmtBytes x.fmt (c1 - c0))
/-- Derived tiles that the recompute reads, in ascending tile index. -/
def baseTiles (s : State) (e : Entry) (tile : Nat) : List (Nat × Nat) :=
  let area := e.baseArea tile
  let le (x y : Nat × Nat) : Bool := x.1 < y.1 || (x.1 = y.1 && x.2 ≤ y.2)
  sortBy le (area.1.flatMap fun i => let r := e.base.rowRange i area.2.1 area.2.2; tilesHit s r.1 r.2).eraseDups
/-- Elements that `n` bytes hold. -/
def elemsIn (fmt n : Nat) : Nat := if fmt = 5 then 2 * n else n / fmtBytes fmt 1
/-- The reads of columns `c0` to `c1` of a row, a line each. -/
def rowReads (x : Tensor) (i c1 : Nat) : Nat → Nat → List (Nat × Nat × Nat)
  | 0, _ => []
  | n + 1, c0 =>
    if c1 ≤ c0 then []
    else
      let c := min c1 (c0 + max 1 (elemsIn x.fmt (256 - (x.rowRange i c0 c0).1 % 256)))
      (i, c0, c) :: rowReads x i c1 n c
/-- The base reads of a tile, in ascending row, then ascending column (R141). -/
def baseReads (e : Entry) (tile : Nat) : List (Nat × Nat × Nat) :=
  let area := e.baseArea tile
  area.1.flatMap fun i => rowReads e.base i area.2.2 (area.2.2 - area.2.1) area.2.1

/-- The registered entry whose MX tensor the base is, descriptor for descriptor (R133). -/
def mxBase (s : State) (x : Tensor) : Option Entry :=
  ((usedEntries s).find? fun y => y.2.isMx && y.2.der == x).map Prod.snd

/-- Go on with a recompute on the unit: skip base tiles that are FRESH, ask for the first that is not and release the unit. -/
def continueRecompute (s : State) (k : Nat) (r : Recompute) : State :=
  let todo := r.asked.dropWhile fun x => isFresh s x
  match todo with
  | [] => s.setSlice k { s.slice k with current := some { r with asked := [], ready := false } }
  | x :: _ =>
    let sl := s.slice k
    let s1 := s.setSlice k { sl with current := none, waiting := sl.waiting ++ [{ r with asked := todo, ready := false }] }
    requestTile s1 x.1 x.2 (.recompute r.e r.tile) ((s1.entry x.1).home == k)

/-- RECOMPUTE_START: the unit resumes a released recompute, or takes the next queued tile. -/
def execRecomputeStart (k : Nat) (s : State) : Outcome :=
  let sl := s.slice k
  if sl.current.isSome then .next s
  else match sl.waiting.find? fun r => r.ready, sl.queue with
  | some r, _ => .next (continueRecompute (s.setSlice k { sl with waiting := sl.waiting.erase r }) k r)
  | none, x :: rest =>
    let e := s.entry x.1
    let r : Recompute := ⟨x.1, x.2, [], baseReads e x.2, baseTiles s e x.2, false⟩
    .next (continueRecompute (s.setSlice k { sl with queue := rest }) k r)
  | none, [] => .next s

/-- Element (i, j) of a tensor as stored, with its block's scale code above its bits for an MX base. -/
def rawElem (s : State) (x : Tensor) (mx : Option Entry) (i j : Nat) : Word :=
  let a := (x.rowRange i j (j + 1)).1
  let code := match x.fmt with
    | 5 => (cleanByte s a).toNat / 16 ^ (j % 2) % 16
    | f => cleanN s a (fmtBytes f 1)
  match mx with
  | some e => BitVec.ofNat 32 (code + 256 * (cleanByte s (e.scale + i * (e.der.cols / e.block) + j / e.block)).toNat)
  | none => BitVec.ofNat 32 code

/-- The scale bytes of the blocks that columns `c0` to `c1` of a row of an MX base lie in. -/
def scaleRange (mx : Option Entry) (i c0 c1 : Nat) : List (Nat × Nat) :=
  match mx with
  | some e => [(e.scale + i * (e.der.cols / e.block) + c0 / e.block, (c1 - 1) / e.block + 1 - c0 / e.block)]
  | none => []
/-- The run for which a tile is recomputed: that of the first that waits for it; none for a tile that DFRESH queued.
DESIGN CHOICE, log 148. -/
def tileRun : Nat → State → Nat → Nat → Option Nat
  | 0, _, _, _ => none
  | n + 1, s, e, tile =>
    ((s.tile e tile).g1 ++ (s.tile e tile).g2).findSome? fun w => match w with
      | .access id => (accById s id).bind fun a => a.who.runKey s
      | .engine t _ => some (s.companyOf t).run
      | .recompute e' t' => tileRun n s e' t'
/-- The unit makes the next base read at its line's home, and with it that of an MX base's scales: each waits behind held writes
and for P (R141). A unit's accesses are none that MOVE holds (R417). -/
def recomputeRead (k : Nat) (s : State) : State :=
  match (s.slice k).current with
  | none => s
  | some r =>
    match r.reads with
    | [] => s
    | (i, c0, c1) :: rest =>
      let e := s.entry r.e
      let mx := mxBase s e.base
      let rs := e.base.rowRange i c0 c1 :: scaleRange mx i c0 c1
      if heldClosed s 0 rs || anyAbsent s rs then s
      else
        let vals := (List.range (c1 - c0)).map fun c => (i, c0 + c, rawElem s e.base mx i (c0 + c))
        let s1 := consumeFor s (tileRun 4 s r.e r.tile) rs
        s1.setSlice k { s1.slice k with current := some { r with vals := r.vals ++ vals, reads := rest } }

/-- Element formats of Table 11.2. -/
def tensorFmt (f : Nat) : Fmt :=
  match f with
  | 1 => .f16
  | 2 => .bf16
  | 3 => .e4m3
  | 4 => .e5m2
  | 5 => .e2m1
  | _ => .f32
def rndOf (k : Nat) : Rnd :=
  match k with
  | 1 => .rtz
  | 2 => .rdn
  | 3 => .rup
  | 4 => .rna
  | 5 => .sr
  | _ => .rne

/-- The value of a base element as read. -/
def baseVal (fmt : Nat) (mx : Bool) (w : Word) : FVal :=
  let f := tensorFmt fmt
  if mx then scaled (w.toNat / 256 % 256) (decodeF f (w.toNat % 256)) else decodeF f w.toNat

/-- The sum of R107: chunks of 32, each exact, added into an FP32 sum. -/
def chunkSum (xs : List FVal) : Nat :=
  ((List.range (ceilDiv xs.length 32)).foldl
    (fun acc k => rne .f32 (sumF false (decodeF .f32 acc :: (xs.drop (32 * k)).take 32))) 0)

/-- Pack element codes of a row in the order of R92. -/
def packRow (fmt : Nat) (codes : List Nat) : List Byte :=
  match fmt with
  | 5 => (List.range (codes.length / 2)).map fun k => BitVec.ofNat 8 (codes.getD (2 * k) 0 + 16 * codes.getD (2 * k + 1) 0)
  | _ => codes.flatMap fun x => leBytes (fmtBytes fmt 1) x

/-- Quantise a row in blocks: the scales and the element codes. -/
def mxRow (f : Fmt) (rm : Rnd) (block : Nat) (xs : List FVal) (qs : List Word) : List Nat × List Nat :=
  let parts := (List.range (xs.length / block)).map fun b =>
    mxQuantise f rm ((xs.drop (b * block)).take block) ((qs.drop (b * block)).take block)
  (parts.map Prod.fst, parts.flatMap Prod.snd)

/-- The writes of a recompute: address and bytes (R133). -/
def recomputeWrites (s : State) (e : Entry) (r : Recompute) : List (Nat × List Byte) :=
  let R := r.tile / e.der.tileCols
  let C := r.tile % e.der.tileCols
  let mx := (mxBase s e.base).isSome
  let f := tensorFmt e.der.fmt
  let rm := rndOf e.rnd
  let get (i j : Nat) : Word := ((r.vals.find? fun v => v.1 == i && v.2.1 == j).map fun v => v.2.2).getD 0
  let val (i j : Nat) : FVal := baseVal e.base.fmt mx (get i j)
  let q (i j : Nat) : Word :=
    srHash (e.seed ^^^ BitVec.ofNat 32 r.tile) (BitVec.ofNat 64 (i % 64 * 64 + j % 64)) 0
  -- A rule reads every element as its f32 value, and from f32 to f32 every value is kept, infinities too, a NaN canonical.
  let same := e.der.fmt = 0
  let conv (i j : Nat) (x : FVal) : Nat := rnd f ⟨rm, e.sat && !same, false⟩ (q i j) x
  let rows := (List.range (min 64 (e.der.rows - 64 * R))).map fun k => 64 * R + k
  let cols := (List.range (min 64 (e.der.cols - 64 * C))).map fun k => 64 * C + k
  rows.flatMap fun i =>
    let at' (codes : List Nat) : Nat × List Byte := ((e.der.rowRange i (64 * C) (64 * C)).1, packRow e.der.fmt codes)
    let sumOf (xs : List FVal) : FVal := decodeF .f32 (chunkSum xs)
    match e.rule with
    | 1 => [at' (cols.map fun j => (get j i).toNat)]
    | 2 => [at' (cols.map fun j => conv i j (val i j))]
    | 4 => [at' (cols.map fun j => conv i j (val j i))]
    | 6 => [at' [conv i 0 (sumOf ((List.range e.base.cols).map fun j => val i j))]]
    | 7 => [at' (cols.map fun j => conv i j (sumOf ((List.range e.base.rows).map fun k => val k j)))]
    | 8 => [at' [conv i 0 (amaxF ((List.range e.base.cols).map fun j => val i j))]]
    | rule =>
      let xs := cols.map fun j => if rule = 3 then val i j else val j i
      let m := mxRow f rm e.block xs (cols.map fun j => q i j)
      [at' m.2, (e.scale + i * (e.der.cols / e.block) + 64 * C / e.block, m.1.map fun x => BitVec.ofNat 8 x)]

/-- DERIVED_WRITE_DROP: a write that reaches a derived range is dropped and counted (R145). -/
def execDerivedWriteDrop (id : Nat) (s : State) : Outcome :=
  onAccess s id fun s a =>
    let reaches := match a.st with
      | .queued => true
      | .heldW ids => marksOver s ids
      | _ => false
    if reaches && a.dev.isNone && opModifies a.op && a.op != .cast && mayPerform s a &&
        (writeRanges s a).any fun r => inDerived s r.1 r.2 then dropDerived s a else s

end Sys2Proof.Machine
end

