-- ==== Sys2Proof/Machine/Fetch.lean ====
section
/-! DEFINITION. Fetching an instruction: the text of a code object through the stage's instruction cache, and the context
handler's own text (13_encoding.md R149, R168, R169; 25_traps.md R378). -/

namespace Sys2Proof.Machine

open Sys2Proof

/-- Physical address of the instruction at a PC. -/
def textAddr (s : State) (t : Nat) (pc : Word) : Nat := (s.runOf t).text + pc.toNat

/-- The run's text at a PC, as memory holds it. -/
def runWord (s : State) (t : Nat) (pc : Word) : BitVec 96 := wordOfBytes (cleanBytes s (textAddr s t pc) 12)
/-- The text of the instruction at a PC: the context handler's is firmware. -/
def textWord (s : State) (t : Nat) (pc : Word) : BitVec 96 :=
  if (s.troupe t).context then Config.firmwareWord pc else runWord s t pc

/-- The instruction cache of a stage, by the address of a whole instruction: each fetch gives the whole old or the whole new
one (R169). -/
def cachedWord (s : State) (st a : Nat) : Option (BitVec 96) :=
  ((s.stage st).icache.find? fun x => x.1 == a).map fun x => wordOfBytes x.2

/-- Has one STX, or one copy, been performed on a part of a range and not yet on all of it? A fetch then waits for the rest, so
that it gives the whole old or the whole new instruction.
DEDUCED, log 129. -/
def halfWritten (s : State) (a n : Nat) : Bool :=
  (s.accs.any fun b => b.isStore && b.cmp != 0 && (b.op == .store || b.op == .cast) && b.who.threads.isSome &&
    b.ranges.any (fun r => overlaps r.1 r.2 a n) &&
    (s.accs.filter fun x => x.isStore && x.part == b.part && x.ranges.any fun r => r.1 / 2 ^ 32 = a / 2 ^ 32).length < b.cmp.toNat) ||
  s.copies.any fun c =>
    let hit := c.chunks.filter fun k => match k.dst with
      | .phys p => overlaps p k.len a n
      | _ => false
    hit.any (fun k => k.done) && hit.any fun k => !k.done
/-- Fetch: the word and the state whose cache holds it; none while the fetch waits for a P bit or a closed line. -/
def fetch (s : State) (t : Nat) (pc : Word) : Option (State × BitVec 96) :=
  let st := (s.troupe t).stage
  let a := textAddr s t pc
  if (s.troupe t).context then some (s, Config.firmwareWord pc)
  else match cachedWord s st a with
  | some w => some (s, w)
  | none =>
    if anyAbsent s [(a, 12)] || lineClosed s 0 [(a, 12)] || halfWritten s a 12 then none
    else
      let bs := cleanBytes s a 12
      let g := s.stage st
      let s1 := consume s .device (some (s.companyOf t).run) 0 a 12
      some (s1.setStage st { g with icache := fillLine s g.icache 131072 a bs }, wordOfBytes bs)

/-- The word that a fetch at a PC would give. -/
def nextWord (s : State) (t : Nat) (pc : Word) : BitVec 96 :=
  if (s.troupe t).context then Config.firmwareWord pc
  else (cachedWord s (s.troupe t).stage (textAddr s t pc)).getD (runWord s t pc)
/-- Would the fetch at a PC wait? One past the text traps instead (R168). -/
def fetchWaits (s : State) (t : Nat) (pc : Word) : Bool :=
  !(s.troupe t).context && pc.toNat < (s.runOf t).textSize && (fetch s t pc).isNone

/-- An instruction leaves a stage's instruction cache. -/
def dropFetched (s : State) (st a : Nat) : State :=
  let g := s.stage st
  s.setStage st { g with icache := terase g.icache a }

/-- What a thread that waits at a PC needs to leave: the guard and clause fields of its instruction, and SVC's destination. -/
def infoAt (s : State) (t : Nat) (pc : Word) : WaitInfo :=
  match decode (runWord s t pc) with
  | .ok i =>
    let h := ((fieldsOf i).map hdrOf).getD WaitInfo.none.hdr
    match i with
    | .svc _ d _ _ => ⟨h, d, .n64⟩
    | .svcPark _ d _ _ => ⟨h, d, .n64⟩
    | _ => ⟨h, .rz, .n32⟩
  | .error _ => WaitInfo.none
/-- Does the thread's instruction arrive at a junction (JARR, JARRW)? -/
def arrivesAt (s : State) (t : Nat) (pc : Word) : Bool :=
  match decode (runWord s t pc) with
  | .ok (.jarr _ _ _) | .ok (.jarrw _ _ _) => true
  | _ => false

end Sys2Proof.Machine
end

