-- ==== Sys2Proof/Machine/Mma.lean ====
section
/-! DEFINITION. The MMA class at issue, and the matrix unit (19_engine_system_instructions.md R276-R283; 09_engines.md R109-R120;
07_numbers.md R104). -/

namespace Sys2Proof.Machine

open Sys2Proof

/-! ### Issue -/

/-- Word k of a block of four uniform registers. -/
def blockWord (s : State) (c : Ctx) (a : Opd) (k : Nat) : Word := readPart s c c.low a k 0
/-- Bits [hi:lo]. -/
def fieldOf (w : Word) (hi lo : Nat) : Nat := w.toNat / 2 ^ lo % 2 ^ (hi + 1 - lo)

/-- Registers of A and B, and M, N, K of a shape (Table 9.3). -/
def shapeRegs (sh : Nat) : Nat × Nat := if sh = 2 then (32, 16) else (16, 16)
def shapeN (sh : Nat) : Nat := if sh = 2 then 32 else 64
def shapeK (sh : Nat) : Nat := if sh = 1 then 64 else 32
/-- The formats a shape admits. -/
def shapeFmts (sh fa fb : Nat) : Bool :=
  match sh with
  | 0 => fa ≤ 1 && fb ≤ 1
  | 1 => fa = 2 && fb = 2
  | 2 => (fa = 3 && fb = 3) || (fa = 4 && fb = 4)
  | 3 => (fa = 5 || fa = 6) && (fb = 5 || fb = 6)
  | _ => false

/-- A parameter block (Table 9.1). -/
structure MmaBlock where
  shape : Nat
  fa : Nat
  fb : Nat
  nega : Bool
  negb : Bool
  zc : Bool
  abase : Nat
  bbase : Nat
  arec : Nat
  brec : Nat
  acc : Nat
  reserved : Bool              -- a reserved bit is nonzero
  deriving DecidableEq, Repr

def mmaBlock (w : List Word) : MmaBlock :=
  let w0 := w.getD 0 0
  let w1 := w.getD 1 0
  let w2 := w.getD 2 0
  let w3 := w.getD 3 0
  ⟨fieldOf w0 3 0, fieldOf w0 7 4, fieldOf w0 11 8, w0.getLsbD 12, w0.getLsbD 13, w0.getLsbD 14, fieldOf w0 24 16,
    fieldOf w1 8 0, fieldOf w1 12 9, fieldOf w1 16 13, fieldOf w2 5 0,
    w0.getLsbD 15 || fieldOf w0 31 25 != 0 || fieldOf w1 31 17 != 0 || fieldOf w2 31 6 != 0 || w3 != 0⟩

/-- Scale bytes an operand needs: (rows, blocks per row). -/
def scaleGrid (r : Rec) (rows k : Nat) : Nat × Nat := (rows, k / (if r.blk16 then 16 else 32))
def Troupe.record (tr : Troupe) (k : Nat) : Rec := tget tr.recs Rec.free k

/-- Is a named record unusable for an operand (R111, R118)? -/
def recBad (tr : Troupe) (k fmt rows kk : Nat) : Bool :=
  k != 15 && (
    let r := tr.record k
    let g := scaleGrid r rows kk
    !r.used || r.fmt != fmt || 64 * r.len < g.1 * g.2)

/-- The checks of R111: the code, and the trap value where the manual states one. -/
def mmaCheck (run : Run) (tr : Troupe) (b : MmaBlock) : Option (Nat × Option Nat) :=
  let n := shapeRegs b.shape
  if b.shape > 3 || !shapeFmts b.shape b.fa b.fb || b.reserved || (b.arec != 15 && b.fa > 2) || (b.brec != 15 && b.fb > 2) then
    some (0x01, none)
  else if b.abase + n.1 > run.regs || b.bbase + n.2 > run.regs then some (0x02, none)
  else if b.acc ≥ run.acct then some (0x02, some b.acc)
  else if recBad tr b.arec b.fa 64 (shapeK b.shape) || recBad tr b.brec b.fb (shapeN b.shape) (shapeK b.shape) then
    some (0x02, none)
  else none

/-- A trap of a once-per-bundle instruction: all of Active. ILLREG without a stated value has a free one. -/
def codeTrap (s : State) (c : Ctx) (code : Nat) (val : Option Nat) : TrapInfo :=
  c.trapInfo code c.act (match val with
    | some v => BitVec.ofNat 64 v
    | none => if code = 0x02 then Config.freeDword s.picks else c.pcVal)

/-- Count one operation of a class, or stall while its counter stands at 63. -/
def startOp (s : State) (c : Ctx) (cls : Eng) (kind : EngKind) (after : List Nat) : Res :=
  if counterFull s c.t cls 1 then .part s c.mask (.counter cls 62) else .ok (addOp s c.t cls kind after)

/-- The register keys of a fragment's words, in word order (R112). -/
def fragKeys (base n : Nat) : List Nat := (List.range (32 * n)).map fun w => vKey (base + w / 32) (w % 32)

def execMma (h : Hdr) (a : Opd) (s : State) : Outcome :=
  issue (.mma h a) s fun c s =>
    if c.idle then .ok s
    else
      let ws := (List.range 4).map fun k => blockWord s c a k
      let tr := s.troupe c.t
      let b := mmaBlock ws
      match mmaCheck (s.runOf c.t) tr b with
      | some x => .trap s (codeTrap s c x.1 x.2)
      | none =>
        let n := shapeRegs b.shape
        let regs := (fragKeys b.abase n.1 ++ fragKeys b.bbase n.2).map fun k => (k, readReg s tr k 0)
        startOp s c .mma
          (.mma ws regs (tr.record b.arec) (tr.record b.brec) [] [] [] false ((tr.thread c.low).selFlag c.hdr)) []

/-- Address checks of R278: `n` bytes, aligned to `al`, in space 0 or 1 through PLAIN. -/
def engineAddr (s : State) (t : Nat) (x : Dword) (al n : Nat) (writes : Bool) : Option Nat :=
  if badForm (s.companyOf t) x || spaceOf x > 1 then some 0x11
  else if winOf x != 0 then some 0x12
  else if offOf x % al != 0 then some 0x10
  else match boundsCheck s t x n with
    | some code => some code
    | none => if writes && inDerived s (physOf s t 0 x) n then some 0x14 else none

/-- A tile-moving instruction: uniform address, tile, address checks, then the operation. -/
def tileOp (c : Ctx) (s : State) (base : Opd) (tile : Nat) (writes : Bool) (kind : Nat → EngKind) (after : List Nat) : Res :=
  if c.idle then .ok s
  else match uniformTrap c fun l => readPair s c l base 0 with
  | some x => .trap s x
  | none =>
    let x := readPair s c c.low base 0
    if tile ≥ (s.runOf c.t).acct then .trap s (codeTrap s c 0x02 (some tile))
    else match engineAddr s c.t x 256 16384 writes with
    | some code => .trap s (c.trapInfo code c.act x)
    | none => startOp s c .mma (kind (physOf s c.t c.low x)) after

def execAccld (h : Hdr) (base : Opd) (tile : Fin 64) (s : State) : Outcome :=
  issue (.accld h base tile) s fun c s => tileOp c s base tile.val false (.accld tile.val) (storeIds s c.t)
def execAccst (h : Hdr) (base : Opd) (tile : Fin 64) (s : State) : Outcome :=
  issue (.accst h base tile) s fun c s => tileOp c s base tile.val true (.accst tile.val) []
def execAccz (h : Hdr) (tile : Fin 64) (s : State) : Outcome :=
  issue (.accz h tile) s fun c s =>
    if c.idle then .ok s
    else if tile.val ≥ (s.runOf c.t).acct then .trap s (codeTrap s c 0x02 (some tile.val))
    else startOp s c .mma (.accz tile.val) []

/-- An ACCOUT block (Table 19.4). -/
structure OutBlock where
  fmt : Nat
  mx : Bool
  blk : Nat
  sat : Bool
  rnd : Nat
  acc : Nat
  int : Bool
  row0 : Nat
  col0 : Nat
  rows : Nat
  cols : Nat
  stride : Nat
  reserved : Bool
  deriving DecidableEq, Repr

def outBlock (w : List Word) : OutBlock :=
  let w0 := w.getD 0 0
  let w1 := w.getD 1 0
  ⟨fieldOf w0 3 0, w0.getLsbD 4, if w0.getLsbD 5 then 16 else 32, w0.getLsbD 6, fieldOf w0 11 8, fieldOf w0 17 12, w0.getLsbD 18,
    fieldOf w1 5 0, fieldOf w1 11 6, fieldOf w1 18 12, fieldOf w1 25 19, (w.getD 2 0).toNat,
    w0.getLsbD 7 || fieldOf w0 31 19 != 0 || fieldOf w1 31 26 != 0 || w.getD 3 0 != 0⟩

def OutBlock.rowBytes (b : OutBlock) : Nat := if b.int then 4 * b.cols else fmtBytes b.fmt b.cols
def OutBlock.span (b : OutBlock) : Nat := (b.rows - 1) * b.stride + b.rowBytes
def OutBlock.scales (b : OutBlock) : Nat := if b.mx then b.rows * (b.cols / b.blk) else 0

/-- The ILLOP checks of R279. -/
def outIllop (b : OutBlock) (scaleRz : Bool) : Bool :=
  b.reserved || b.fmt > 5 || b.rnd > 5 || (b.mx && b.fmt ≤ 2) || (b.int && (b.fmt != 0 || b.mx)) ||
  b.rows = 0 || b.cols = 0 || b.row0 + b.rows > 64 || b.col0 + b.cols > 64 || (b.mx && b.cols % b.blk != 0) ||
  (b.fmt = 5 && b.cols % 2 != 0) || (b.mx == scaleRz) || (b.rows > 1 && b.stride < b.rowBytes)

/-- The address checks of R279, check by check over the rows that are written, the STRIDE and the scale range, then DWRITE: the code, and
the address that fails.
DEDUCED, log 133. -/
def outAddr (s : State) (t : Nat) (b : OutBlock) (x y : Dword) : Option (Nat × Dword) :=
  let rows := (List.range b.rows).map fun i => i * b.stride
  let bounds (o : Nat) : Option Nat :=
    if 2 ^ 34 ≤ offOf x % 2 ^ 34 + o then some 0x13 else boundsCheck s t (x + BitVec.ofNat 64 o) b.rowBytes
  let dest := (engineAddr s t x 4 b.rowBytes false).orElse fun _ => rows.findSome? bounds
  let failed := (dest.map fun code => (code, x)).toList ++ (if b.stride % 4 != 0 then [(0x10, x)] else []) ++
    if b.mx then ((engineAddr s t y 1 b.scales false).map fun code => (code, y)).toList else []
  match [0x11, 0x12, 0x10, 0x13].findSome? fun code => failed.find? fun e => e.1 == code with
  | some e => some e
  | none =>
    if rows.any fun o => inDerived s (physOf s t 0 x + o) b.rowBytes then some (0x14, x)
    else if b.mx && inDerived s (physOf s t 0 y) b.scales then some (0x14, y) else none

/-- The draws of an ACCOUT are made at issue: the generator or the conversion count moves by one per element (R119).
DEDUCED, log 18. -/
def outDraws (s : State) (c : Ctx) (b : OutBlock) : State :=
  let n := b.rows * b.cols
  if b.int || b.rnd != 5 then s
  else if (s.runOf c.t).determ then
    s.mapLanes c.t (laneBit c.low) fun _ th => { th with conv := th.conv + BitVec.ofNat 32 n }
  else
    let tr := s.troupe c.t
    s.setTroupe c.t { tr with srState := Nat.iterate srStep n tr.srState }

def execAccout (h : Hdr) (a dest scale : Opd) (s : State) : Outcome :=
  issue (.accout h a dest scale) s fun c s =>
    if c.idle then .ok s
    else match uniformTrap c (fun l => readPair s c l dest 1), uniformTrap c fun l => readPair s c l scale 2 with
    | some x, _ => .trap s x
    | none, some x => .trap s x
    | none, none =>
      let ws := (List.range 4).map fun k => blockWord s c a k
      let b := outBlock ws
      let x := readPair s c c.low dest 1
      let y := readPair s c c.low scale 2
      if outIllop b (scale == .rz) then .trap s (codeTrap s c 0x01 none)
      else if b.acc ≥ (s.runOf c.t).acct then .trap s (codeTrap s c 0x02 (some b.acc))
      else match outAddr s c.t b x y with
      | some e => .trap s (c.trapInfo e.1 c.act e.2)
      | none =>
        let th := s.thread c.t c.low
        let tr := s.troupe c.t
        let det := (s.runOf c.t).determ
        startOp (if counterFull s c.t .mma 1 then s else outDraws s c b) c .mma
          (.accout ws (physOf s c.t c.low x) (physOf s c.t c.low y) c.low (if det then tr.srSeed else tr.srState)
            th.conv th.item) []

/-! ### Records (R116, R117, R281) -/

/-- First free run of `n` bytes among ranges, trying offsets 0, 64, …: the lowest. -/
def freeRun (ranges : List (Nat × Nat)) (n : Nat) : Option Nat :=
  ((List.range 1024).map fun k => 64 * k).find? fun o =>
    o + n ≤ 65536 && !ranges.any fun r => overlaps o n r.1 r.2

def Troupe.setRecord (tr : Troupe) (k : Nat) (r : Rec) : Troupe := { tr with recs := tset tr.recs Rec.free k r }

def execRsvop (h : Hdr) (r : Fin 15) (d : Opd) (b : Src) (s : State) : Outcome :=
  issue (.rsvop h r d b) s fun c s =>
    if c.idle then .ok s
    else
      let wv := fun l => (readSrcZ s c l b 1).setWidth 64
      match uniformTrap c wv with
      | some x => .trap s x
      | none =>
        let w := loWord (wv c.low)
        let len := fieldOf w 15 5
        let tr := s.troupe c.t
        if fieldOf w 31 16 != 0 || w.getLsbD 4 || fieldOf w 1 0 = 3 || len = 0 || len > 1024 then
          .trap s (codeTrap s c 0x01 none)
        else if (tr.record r.val).used then .trap s (codeTrap s c 0x02 none)
        else
          let g := s.stage tr.stage
          match freeRun g.ranges (64 * len) with
          | some off =>
            let x : Rec := ⟨true, fieldOf w 1 0, w.getLsbD 2, w.getLsbD 3, len, off⟩
            let s1 := (s.setTroupe c.t (tr.setRecord r.val x)).setStage tr.stage { g with ranges := g.ranges ++ [(off, 64 * len)] }
            .ok (writeLate s1 c (results c false d fun _ => 1))
          | none => .ok (writeLate s c (results c false d fun _ => 0))

/-- Byte range of a record in the operand buffer. -/
def Rec.range (r : Rec) : Nat × Nat := (r.off, 64 * r.len)
/-- Does an operation still read or write a range of the operand buffer? -/
def EngOp.usesRange (o : EngOp) (x : Nat × Nat) : Bool :=
  match o.kind with
  | .mma blk _ ra rb _ _ _ isRead _ =>
    !isRead && (((mmaBlock blk).arec != 15 && ra.range == x) || ((mmaBlock blk).brec != 15 && rb.range == x))
  | .ldscl r _ _ => r.range == x
  | _ => false
/-- Return ranges to the stage's free pool. -/
def freeRanges (s : State) (st : Nat) (xs : List (Nat × Nat)) : State :=
  let g := s.stage st
  s.setStage st { g with ranges := g.ranges.filter fun r => !xs.contains r }
/-- Return the ranges of released records that no operation uses any more (R281). -/
def freeRecords (s : State) (t : Nat) : State :=
  let tr := s.troupe t
  let inUse (x : Nat × Nat) : Bool := tr.ops.any fun o => o.usesRange x
  let gone := tr.freeing.filter fun x => !inUse x
  if gone.isEmpty then s
  else freeRanges (s.setTroupe t { tr with freeing := tr.freeing.filter inUse }) tr.stage gone

def execRlsop (h : Hdr) (r : Fin 15) (s : State) : Outcome :=
  issue (.rlsop h r) s fun c s =>
    if c.idle then .ok s
    else
      let tr := s.troupe c.t
      let x := tr.record r.val
      let tr1 := tr.setRecord r.val Rec.free
      if x.used then .ok (freeRecords (s.setTroupe c.t { tr1 with freeing := tr1.freeing ++ [x.range] }) c.t) else .ok s

def execLdscl (h : Hdr) (r : Fin 15) (base : Opd) (n : Imm) (s : State) : Outcome :=
  issue (.ldscl h r base n) s fun c s =>
    if c.idle then .ok s
    else match uniformTrap c fun l => readPair s c l base 0 with
    | some x => .trap s x
    | none =>
      let x := readPair s c c.low base 0
      let q := (s.troupe c.t).record r.val
      if n.toNat = 0 || n.toNat % 64 != 0 then .trap s (codeTrap s c 0x01 none)
      else if !q.used || n.toNat > 64 * q.len then .trap s (codeTrap s c 0x02 none)
      else match engineAddr s c.t x 64 n.toNat false with
      | some code => .trap s (c.trapInfo code c.act x)
      | none => startOp s c .mma (.ldscl q (physOf s c.t c.low x) n.toNat) (storeIds s c.t)

/-! ### The matrix unit -/

/-- Bits of an element of a matrix format. -/
def matBits (f : Nat) : Nat := if f = 2 then 4 else if f = 3 || f = 4 then 16 else 8
/-- Element (i, p) of a fragment of K columns (R112). -/
def fragCode (ws : List Word) (f kk i p : Nat) : Nat :=
  let e := (i * kk + p) * matBits f
  (ws.getD (e / 32) 0).toNat / 2 ^ (e % 32) % 2 ^ matBits f
def matFmt (f : Nat) : Fmt :=
  match f with
  | 0 => .e4m3
  | 1 => .e5m2
  | 2 => .e2m1
  | 3 => .bf16
  | _ => .f16
def matInt (f x : Nat) : Int := if f = 5 && x ≥ 128 then (x : Int) - 256 else x

/-- Scale code of (row, block) in a record's bytes (R118). -/
def scaleAt (bs : List Byte) (layout : Bool) (rows blocks row block : Nat) : Nat :=
  (bs.getD (if layout then block * rows + row else row * blocks + block) 0).toNat

/-- What an operation's operands are, once read: words and scale codes by (row, position). -/
structure MmaArgs where
  blk : MmaBlock
  wa : List Word
  wb : List Word
  sa : Nat → Nat → Option Nat
  sb : Nat → Nat → Option Nat

/-- One operand value: element, sign, scale. -/
def argVal (ws : List Word) (f kk : Nat) (neg : Bool) (sc : Option Nat) (i p : Nat) : FVal :=
  let x := decodeF (matFmt f) (fragCode ws f kk i p)
  let x := if neg then x.neg else x
  match sc with
  | some c => scaled c x
  | none => x

/-- D[i][j] of R104, from C[i][j]. -/
def mmaElem (m : MmaArgs) (c0 : Word) (i j : Nat) : Word :=
  let b := m.blk
  let kk := shapeK b.shape
  let start := if b.zc then 0 else c0.toNat
  if b.shape = 3 then
    let term (p : Nat) : Int :=
      let x := matInt b.fa (fragCode m.wa b.fa kk i p)
      let y := matInt b.fb (fragCode m.wb b.fb kk j p)
      (if b.nega then -x else x) * (if b.negb then -y else y)
    BitVec.ofInt 32 (start + ((List.range kk).map term).foldl (· + ·) 0)
  else
    let term (p : Nat) : FVal :=
      FVal.mul (argVal m.wa b.fa kk b.nega (m.sa i p) i p) (argVal m.wb b.fb kk b.negb (m.sb j p) j p)
    BitVec.ofNat 32 ((List.range (kk / 32)).foldl
      (fun acc k => rne .f32 (sumF false (decodeF .f32 acc :: (List.range 32).map fun p => term (32 * k + p)))) start)

def tileElem (tr : Troupe) (tile i j : Nat) : Word := tget tr.tiles 0 (4096 * tile + 64 * i + j)
/-- Replace elements of a tile. -/
def Troupe.setTileElems (tr : Troupe) (tile : Nat) (xs : List (Nat × Word)) : Troupe :=
  { tr with tiles := xs.foldl (fun m x => tset m 0 (4096 * tile + x.1) x.2) tr.tiles }
/-- Every (row, column) of a rectangle, row-major. -/
def cells (rows cols : Nat) : List (Nat × Nat) := (List.range rows).flatMap fun i => (List.range cols).map fun j => (i, j)

def opOf (tr : Troupe) (id : Nat) : Option EngOp := tr.ops.find? fun o => o.id == id
def setOp (s : State) (t : Nat) (o : EngOp) : State :=
  let tr := s.troupe t
  s.setTroupe t { tr with ops := tr.ops.map fun p => if p.id = o.id then o else p }
/-- The oldest MMA-class operation of a troupe: the unit serves them in issue order (R283).
DEDUCED, log 19. -/
def headMma (tr : Troupe) : Option EngOp := tr.ops.find? fun o => o.cls == .mma

/-- Bytes of a record's range in the operand buffer. -/
def recBytes (s : State) (st : Nat) (r : Rec) : List Byte :=
  (List.range (64 * r.len)).map fun k => tget (s.stage st).opbuf 0 (r.off + k)

/-- The arguments of a matrix operation whose operands have been read. -/
def mmaArgs (blk : List Word) (ra rb : Rec) (words : List Word) (bytesA bytesB : List Byte) : MmaArgs :=
  let b := mmaBlock blk
  let n := shapeRegs b.shape
  let code (k : Nat) (r : Rec) (bs : List Byte) (rows row p : Nat) : Option Nat :=
    let len := if r.blk16 then 16 else 32
    if k = 15 then none else some (scaleAt bs r.layout rows (shapeK b.shape / len) row (p / len))
  ⟨b, words.take (32 * n.1), words.drop (32 * n.1), fun i p => code b.arec ra bytesA 64 i p,
    fun j p => code b.brec rb bytesB (shapeN b.shape) j p⟩

/-- Bytes that an ACCOUT writes: rows, then scale bytes; to f32 every value is kept (R280). -/
def outWrites (tr : Troupe) (det : Bool) (blk : List Word) (dest scale lane : Nat) (seed count : Word) (item : Dword) :
    List (Nat × List Byte) :=
  let b := outBlock blk
  let f := tensorFmt b.fmt
  let rm := rndOf b.rnd
  let q (r c : Nat) : Word :=
    let e := r * b.cols + c
    if det then srHash seed item (count + BitVec.ofNat 32 e) else rotl32 (Nat.iterate srStep (e + 1) seed) lane
  (List.range b.rows).flatMap fun r =>
    let raw := (List.range b.cols).map fun c => tileElem tr b.acc (b.row0 + r) (b.col0 + c)
    let qs := (List.range b.cols).map fun c => q r c
    let a := dest + r * b.stride
    if b.int then [(a, raw.flatMap fun x => leBytes 4 x.toNat)]
    else
      let xs := raw.map fun x => decodeF .f32 x.toNat
      if b.mx then
        let m := mxRow f rm b.blk xs qs
        [(a, packRow b.fmt m.2), (scale + r * (b.cols / b.blk), m.1.map fun x => BitVec.ofNat 8 x)]
      else [(a, packRow b.fmt ((xs.zip qs).map fun x => rnd f ⟨rm, b.sat && b.fmt != 0, false⟩ x.2 x.1))]

/-- Report the oldest operation of a class: its counter falls (R120). -/
def dropOp (s : State) (t id : Nat) : State :=
  let tr := s.troupe t
  s.setTroupe t { tr with ops := tr.ops.filter fun o => o.id != id }

/-- An engine's writes: held for their stale marks, their lines closed to every other access, then performed (R138); bytes in a
derived range are dropped (R145). `w` says who writes (R311). -/
def engineWrite (s : State) (t : Nat) (o : EngOp) (w : Who) (ws : List (Nat × List Byte)) : State :=
  let rs := ws.map fun w => (w.1, w.2.length)
  let one (z : State) (x : Nat × List Byte) : State :=
    if inDerived z x.1 x.2.length then bump z (sliceCounter (countSlice z x.1) 0x0C) 1 else homeWrite z w x.1 x.2
  match o.marks with
  | some (ids, _) => if marksOver s ids then dropOp (ws.foldl one s) t o.id else s
  | none =>
    if lineClosed s 0 rs then s
    else
      let ok := rs.filter fun r => !inDerived s r.1 r.2
      let ms := if anyWatched s ok then marksOf s ok else []
      if ms.isEmpty then dropOp (ws.foldl one s) t o.id
      else
        let sm := sendMarks s ms 0 none 0
        setOp sm.1 t { o with marks := some (sm.2, linesOf rs) }

/-- What an ACCLD or an LDSCL reads. -/
def EngOp.reads (o : EngOp) : List (Nat × Nat) :=
  match o.kind with
  | .accld _ a => [(a, 16384)]
  | .ldscl _ a n => [(a, n)]
  | _ => []
/-- What of them no derived tile has served. -/
def EngOp.untaken (o : EngOp) : List (Nat × Nat) :=
  if o.taken.isEmpty then o.reads
  else (o.reads.flatMap fun r => (List.range r.2).map fun k => (r.1 + k, 1)).filter fun r => !o.taken.any fun x => x.1 == r.1
/-- What it does with the bytes. -/
def EngOp.load (o : EngOp) (t : Nat) (z : State) : State :=
  match o.kind with
  | .accld tile a => z.setTroupe t ((z.troupe t).setTileElems tile ((List.range 4096).map fun k =>
      (k, BitVec.ofNat 32 (leNat ((List.range 4).map fun j => tget o.taken (cleanByte z (a + 4 * k + j)) (a + 4 * k + j))))))
  | .ldscl r a n =>
    let st := (z.troupe t).stage
    let g := z.stage st
    z.setStage st { g with opbuf := (List.range n).foldl (fun m k =>
      tset m 0 (r.off + k) (tget o.taken (cleanByte z (a + k)) (a + k))) g.opbuf }
  | _ => z
/-- The read is performed, and the operation is over. -/
def engineTake (s : State) (t : Nat) (o : EngOp) : State :=
  freeRecords (dropOp (o.load t (consumeParts s t o.untaken)) t o.id) t
/-- An engine's reads: performed when their earlier stores are (R265) and P is set, at once or as its derived tiles serve it
(R140). -/
def engineRead (s : State) (t : Nat) (o : EngOp) : State :=
  if o.after.any fun i => !accDone s i then s
  else if waitsTile s (.engine t o.id) then s
  else if engineStale s o.untaken != [] then engineAsk s (engineStale s o.untaken) (.engine t o.id)
  else if !engineMayRead s o.untaken then s
  else engineTake s t o

/-- Is it the operation's turn on the matrix unit of its stage, which serves the MMA-class operations of the stage's troupes one at a
time in the order of their issues (R114, R283)?
DEDUCED, log 19. -/
def unitTurn (s : State) (t : Nat) (o : EngOp) : Bool :=
  (s.troupes.filter fun x => x.2.stage == (s.troupe t).stage).all fun x => x.2.ops.all fun p => p.cls != .mma || o.id ≤ p.id

/-- OPERAND_READ_COMPLETION: each word is the old or the new value where the register was written since issue (R115); a word that both
A and B name is read once.
DESIGN CHOICE, log 141. -/
def execOperandReadCompletion (t op : Nat) (s : State) : Outcome :=
  let tr := s.troupe t
  match headMma tr with
  | none => .next s
  | some o =>
    if o.id != op then .next s
    else match o.kind with
    | .mma blk regs ra rb _ _ _ false flag =>
      if !unitTurn s t o then .next s else
      let b := mmaBlock blk
      let word (x : Nat × Word) : Word :=
        let now := tr.reg x.1
        if now != x.2 && Config.pick s.picks (op * 2 ^ 20 + x.1) then x.2 else now
      let sc (k : Nat) (r : Rec) : List Byte := if k = 15 then [] else recBytes s tr.stage r
      let s1 := setOp s t { o with kind := .mma blk [] ra rb (regs.map word) (sc b.arec ra) (sc b.brec rb) true flag }
      .next (freeRecords { s1 with picks := s1.picks + 1 } t)
    | _ => .next s

/-- MMA_COMPLETION: the oldest operation of the matrix unit takes effect and its counter falls (R113-R115, R278-R283).
DEDUCED, log 17. -/
def execMmaCompletion (t op : Nat) (s : State) : Outcome :=
  let tr := s.troupe t
  match headMma tr with
  | none => .next s
  | some o =>
    if o.id != op || !unitTurn s t o then .next s
    else match o.kind with
    | .mma blk _ ra rb words bytesA bytesB true _ =>
      let m := mmaArgs blk ra rb words bytesA bytesB
      let xs := (cells 64 (shapeN m.blk.shape)).map fun x =>
        (64 * x.1 + x.2, mmaElem m (tileElem tr m.blk.acc x.1 x.2) x.1 x.2)
      .next (dropOp (s.setTroupe t (tr.setTileElems m.blk.acc xs)) t op)
    | .accz tile =>
      .next (dropOp (s.setTroupe t (tr.setTileElems tile ((List.range 4096).map fun k => (k, 0)))) t op)
    | .accld _ _ | .ldscl _ _ _ => .next (engineRead s t o)
    | .accst tile a =>
      .next (engineWrite s t o .device ((List.range 2048).map fun k =>
        (a + 8 * k, leBytes 4 (tget tr.tiles 0 (4096 * tile + 2 * k)).toNat ++
          leBytes 4 (tget tr.tiles 0 (4096 * tile + 2 * k + 1)).toNat)))
    | .accout blk dest scale lane seed count item =>
      .next (engineWrite s t o (if (outBlock blk).mx then .unit else .device) (outWrites tr (s.runOf t).determ blk dest scale lane seed count item))
    | _ => .next s

end Sys2Proof.Machine
end

