-- ==== Sys2Proof/Machine/Xlate.lean ====
section
/-! DEFINITION. Translation of global addresses: the contexts, the Sv57 walk, and what a streamer's access meets
(29_translation.md R407-R414). -/

namespace Sys2Proof.Machine

open Sys2Proof

/-- What a walk comes to. -/
inductive Walk where
  | ok (page pages pa : Nat) (r w : Bool)     -- first virtual page, pages covered, first physical page, permissions
  | fault
  | fail
  deriving DecidableEq, Repr

/-- Is a leaf refused (R410)? -/
def leafFault (pte : Dword) (write : Bool) : Bool :=
  !pte.getLsbD 4 || (if write then !pte.getLsbD 2 || !pte.getLsbD 7 else !pte.getLsbD 1) || !pte.getLsbD 6
/-- N, the reserved bits, and W without R. -/
def pteReserved (pte : Dword) : Bool := pte.getLsbD 63 || bitsOf pte 60 54 != 0 || (pte.getLsbD 2 && !pte.getLsbD 1)

/-- The Sv57 walk from the table at page `ppn`, with `n` levels left (R410): each PTE is read as it stands.
DEDUCED, log 45. -/
def walkLevel (s : State) (vpn : Nat) (write : Bool) : Nat → Nat → Walk
  | 0, _ => .fault
  | n + 1, ppn =>
    let a := 4096 * ppn + 8 * (vpn / 512 ^ n % 512)
    if a ≥ 2 ^ 37 then .fail
    else
      let pte := BitVec.ofNat 64 (cleanN s (g7Addr a) 8)
      let next := bitsOf pte 53 10
      if !pte.getLsbD 0 || pteReserved pte then .fault
      else if !pte.getLsbD 1 && !pte.getLsbD 2 && !pte.getLsbD 3 then walkLevel s vpn write n next
      else if leafFault pte write || next % 512 ^ n != 0 then .fault
      else if 4096 * (next + vpn % 512 ^ n) ≥ 2 ^ 37 then .fail
      else .ok (vpn / 512 ^ n * 512 ^ n) (512 ^ n) next (pte.getLsbD 1) (pte.getLsbD 2 && pte.getLsbD 7)
def walk (s : State) (root vpn : Nat) (write : Bool) : Walk := walkLevel s vpn write 5 root

/-- The context number of a run's address: PASID or ASID. -/
def ctxNo (x : Xctx) (host : Bool) : Nat := if host then x.pasid else x.asid
def xctxOf (s : State) (t : Nat) : Xctx := (s.runOf t).xctx.getD ⟨0, false, false, 0, 0⟩

/-- A unit's cached translation of a page: of device space one that permits the access, of host space the newest, whatever it grants
(R419).
DEDUCED, log 46. -/
def cached (s : State) (unit : Nat) (host : Bool) (ctx page : Nat) (write : Bool) : Option Xlation :=
  s.xcache.find? fun x => x.unit == unit && x.host == host && x.ctx == ctx && x.page ≤ page && page < x.page + x.pages &&
    (host || if write then x.w else x.r)
def Xlation.grants (x : Xlation) (write : Bool) : Bool := if write then x.w else x.r
/-- The translation unit of a copy: that of its die. -/
def xlateUnit (s : State) (c : Copy) : Nat := (s.troupe c.t).stage / 128
/-- Is a request still open? -/
def XState.pending (x : XState) : Bool :=
  match x with
  | .resolved | .failed => false
  | _ => true
/-- A copy's request for a page. -/
def reqOf (s : State) (copy : Nat) (host : Bool) (ctx page : Nat) (write : Bool) : Option Xreq :=
  s.xreqs.find? fun q => q.copy == copy && q.isFor host ctx page write
def addReq (s : State) (c : Copy) (host : Bool) (ctx root page : Nat) (write : Bool) (st : XState) : State :=
  { s with
    xreqs := s.xreqs ++ [⟨s.nextId, xlateUnit s c, host, ctx, root, page, write, c.id, st⟩]
    nextId := s.nextId + 1 }

/-! ### Requests to the host (R413, R419) -/

/-- Is a Translation Request of the unit out for the page? -/
def atsOut (s : State) (unit ctx page : Nat) : Bool :=
  s.xreqs.any fun q => q.host && q.unit == unit && q.ctx == ctx && q.page == page && match q.st with
    | .atsAsked | .pageAsked _ true => true
    | _ => false
/-- Send a Translation Request, unless one is out: whoever needs the page waits for its completion. -/
def askAts (s : State) (unit ctx page : Nat) : State :=
  if atsOut s unit ctx page then s else { s with out := s.out ++ [.atsRequest ctx page] }
/-- A page request of the unit that is out: context, page and kind; accesses that need the same one share it. -/
def Xreq.paged (q : Xreq) : Option (Nat × Nat × Bool) :=
  match q.st with
  | .pageAsked _ false => some (q.ctx, q.page, q.write)
  | _ => none
def pagesOut (s : State) (unit : Nat) : List (Nat × Nat × Bool) :=
  ((s.xreqs.filter fun q => q.host && q.unit == unit).filterMap Xreq.paged).eraseDups
/-- Since when the page request that a denied access needs is out; it is sent if the host's grant leaves room. -/
def askPage (s : State) (unit ctx page : Nat) (write : Bool) : State × XState :=
  let same := s.xreqs.findSome? fun q => if q.host && q.unit == unit && q.paged == some (ctx, page, write) then some q.st else none
  if !s.ports.priEn then (s, .failed)
  else match same with
  | some st => (s, st)
  | none =>
    if (pagesOut s unit).length < min s.ports.priAlloc 512 then
      ({ s with out := s.out ++ [.pageRequest ctx page write] }, .pageAsked s.wall false)
    else (s, .pageWait)

/-- Start a translation for a copy: from the cache, by a walk, or by an ATS request; with ATS disabled the host address goes
Untranslated. A device-space page at or above 2^37 fails, whatever has cached it (R410).
DEDUCED, log 110. -/
def translateNew (s : State) (c : Copy) (va : Dword) (write : Bool) : State × Option Nat :=
  let x := xctxOf s c.t
  let host := isHostVa va
  let ctx := ctxNo x host
  let page := pageOfVa va
  let unit := xlateUnit s c
  let addr (xl : Xlation) : Nat := 4096 * (xl.pa + (page - xl.page)) + va.toNat % 4096
  let usable := cached s unit host ctx page write
  if host then
    if !x.hosten then (addReq s c true ctx 0 page write .failed, none)
    else if !s.ports.atsEn then (s, some (bitsOf va 55 0))
    else match usable with
      | some xl =>
        if xl.grants write then (s, some (addr xl))
        else
          let r := askPage s unit ctx page write
          (addReq r.1 c true ctx 0 page write r.2, none)
      | none => (addReq (askAts s unit ctx page) c true ctx 0 page write .atsAsked, none)
  else if !x.en then (addReq s c false ctx x.root page write .failed, none)
  else
    let again := Config.pick s.picks page
    let s0 := { s with picks := s.picks + 1 }
    match (if again then none else usable), walk s x.root page write with
    | some xl, _ => if 2 ^ 37 ≤ addr xl then (addReq s0 c false ctx x.root page write .failed, none) else (s0, some (addr xl))
    | none, .ok p n pa r w =>
      let xl : Xlation := ⟨unit, false, ctx, p, n, pa, r, w⟩
      ({ s0 with xcache := xl :: s0.xcache }, some (addr xl))
    | none, .fault => (addReq s0 c false ctx x.root page write .fault, none)
    | none, .fail => (addReq s0 c false ctx x.root page write .failed, none)

/-- Translate an address for a copy when its bytes move (R407): the physical address once there is one, else the access waits.
A request that has been resolved is over, and the translation is made afresh. -/
def translate (s : State) (c : Copy) (va : Dword) (write : Bool) : State × Option Nat :=
  let x := xctxOf s c.t
  match reqOf s c.id (isHostVa va) (ctxNo x (isHostVa va)) (pageOfVa va) write with
  | some q =>
    if q.st == .resolved then translateNew { s with xreqs := s.xreqs.filter fun r => r.id != q.id } c va write else (s, none)
  | none => translateNew s c va write

end Sys2Proof.Machine
end

