-- ==== Sys2Proof/Machine/Copy.lean ====
section
/-! DEFINITION. The COPY class at issue: records and their checks, presence, waypoints, per-lane copies, collectives, CSTAT
(19_engine_system_instructions.md R284-R289; 09_engines.md R121-R129). -/

namespace Sys2Proof.Machine

open Sys2Proof

/-! ### Reading a record at issue -/

/-- The bytes of a record that no tile has served. -/
def recordRest (s : State) (t a n : Nat) : List (Nat × Nat) :=
  ((List.range n).filter fun k => !(s.troupe t).recServed.any fun x => x.1 == a + k).map fun k => (a + k, 1)
/-- The bytes at an address as a PLAIN load of the lane sees them (R85); none while such a load would be held. -/
def recordBytes (s : State) (t l : Nat) (x : Dword) (n : Nat) : Option (List Byte) :=
  let a : Access := { Access.make (.thread t l) .load x (physOf s t l x) n with id := s.nextId }
  match forwarded s a with
  | none => none
  | some bs =>
    let got := (s.troupe t).recServed
    let rs := recordRest s t a.phys n
    if lineClosed s 0 rs || anyAbsent s rs || engineStale s rs != [] then none
    else some ((List.range n).map fun k => overlayByte bs (a.phys + k) (tget got (cleanByte s (a.phys + k)) (a.phys + k)))
/-- Ask for the derived tiles that keep a record from being read; the bytes that tiles have served stay (R140). -/
def askRecord (s : State) (t l : Nat) (x : Dword) (n : Nat) : State :=
  let a := physOf s t l x
  let ask := engineStale s (recordRest s t a n)
  if ask = [] then s
  else
    let tr := s.troupe t
    let z := if tr.recAsked.contains (a, n) then s else s.setTroupe t { tr with recAsked := (a, n) :: tr.recAsked }
    engineAsk z ask (.engine t 0)
/-- The instruction has read its records: what tiles have served it is over. -/
def recordsRead (s : State) (t : Nat) : State :=
  if (s.troupe t).recAsked.isEmpty then s else s.setTroupe t { s.troupe t with recAsked := [], recServed := [] }

def qwordAt (bs : List Byte) (off : Nat) : Dword := BitVec.ofNat 64 (leNat ((bs.drop off).take 8))
def wordAt (bs : List Byte) (off : Nat) : Nat := leNat ((bs.drop off).take 4)

/-! ### Addresses of streamers -/

def globalBad (x : Dword) : Bool := bitsOf x 62 57 != 0
/-- APERTURE, then WINDOW, of a source or destination (R123, R286): `win` says which windows it admits. -/
def streamAddr (co : Company) (x : Dword) (win : Nat → Bool) : Option Nat :=
  if !isLocalForm x then (if globalBad x then some 0x11 else none)
  else if badForm co x || spaceOf x == 2 || spaceOf x == 3 then some 0x11
  else if !win (winOf x) then some 0x12
  else none
/-- A waypoint's address lies in die scratchpad or company memory (R126).
DEDUCED, log 36. -/
def wpAddr (s : State) (co : Company) (x : Dword) : Option Nat :=
  if badForm co x || !(isScratchSpace s x || spaceOf x == 1) then some 0x11 else if winOf x != 0 then some 0x12 else none

/-- BOUNDS of bytes `off` to `off + n` past a device-local address. -/
def localBounds (s : State) (t : Nat) (x : Dword) (off n : Nat) : Option Nat :=
  if !isLocalForm x || isRemote s x || n = 0 then none
  else match spaceOf x with
    | 1 => if segOff x + off + n ≤ (s.runOf t).cmem then none else some 0x13
    | _ => if rangeInPart s (s.runOf t).part (scratchOff x + off) n then none else some 0x13

/-- Where byte `off` past an address is read from, or written to. -/
def srcAt (s : State) (t : Nat) (x : Dword) (off : Nat) : CSrc :=
  if !isLocalForm x then .glob (x + BitVec.ofNat 64 off)
  else if isRemote s x then .remote (remoteId x) (scratchOff x + off)
  else .phys (physOf s t 0 x + off)
/-- Targets of a destination: one, or those of CAST (R78, R129). -/
def dstTargets (s : State) (t : Nat) (x : Dword) : List CDst :=
  if !isLocalForm x then [.glob x]
  else if isRemote s x then
    (if winOf x = 7 then (List.range 4).map fun d => .remote (remoteId x) (2 ^ 32 * d + scratchOff x % 2 ^ 32)
     else [.remote (remoteId x) (scratchOff x)])
  else if winOf x = 7 then (castTargets s t x).map .phys
  else [.phys (physOf s t 0 x)]
def CSrc.shift (x : CSrc) (n : Nat) : CSrc :=
  match x with
  | .phys a => .phys (a + n)
  | .glob va => .glob (va + BitVec.ofNat 64 n)
  | .zero => .zero
  | .remote d o => .remote d (o + n)
def CDst.shift (x : CDst) (n : Nat) : CDst :=
  match x with
  | .phys a => .phys (a + n)
  | .glob va => .glob (va + BitVec.ofNat 64 n)
  | .skip => .skip
  | .remote d o => .remote d (o + n)
/-- The address a destination is aligned by. -/
def CDst.pos (x : CDst) : Nat :=
  match x with
  | .phys a => a
  | .glob va => va.toNat
  | .skip => 0
  | .remote _ o => o

/-- Cut a run of bytes into pieces that land at once: aligned 8-byte parts of the destination (R311).
DESIGN CHOICE, log 39. -/
def cutPieces (target : Nat) (src : CSrc) (dst : CDst) : Nat → Nat → Nat → List Chunk
  | 0, _, _ => []
  | fuel + 1, off, n =>
    if n = 0 then []
    else
      let k := min n (8 - (dst.shift off).pos % 8)
      ⟨src.shift off, dst.shift off, k, none, target, [], false, false, none, 0, 0, 0, 0, false⟩ ::
        cutPieces target src dst fuel (off + k) (n - k)
/-- One run of bytes of a copy: how far past the source and the destination it lies, and whether an edge zeroes or skips it. -/
structure Span where
  soff : Nat
  doff : Nat
  len  : Nat
  zero : Bool
  skip : Bool
  deriving DecidableEq, Repr
def spanPieces (src : CSrc) (dst : CDst) (target : Nat) (x : Span) : List Chunk :=
  cutPieces target (if x.zero then .zero else src.shift x.soff) (if x.skip then .skip else dst.shift x.doff) x.len 0 x.len

/-! ### COPY records (Tables 9.7, 9.8) -/

structure CopyRec where
  kind : Nat
  pres : Bool
  permit : Bool
  nowp : Bool
  tdir : Bool
  src : Dword
  dst : Dword
  size : Dword
  sstride : Nat
  dstride : Nat
  shape : Dword
  col : Int
  row : Int
  wp : Dword
  reserved : Bool
  deriving DecidableEq, Repr

def copyRec (bs : List Byte) : CopyRec :=
  let f := qwordAt bs 0
  let st := qwordAt bs 32
  let co := qwordAt bs 48
  ⟨bitsOf f 7 0, f.getLsbD 9, f.getLsbD 8, f.getLsbD 10, f.getLsbD 11, qwordAt bs 8, qwordAt bs 16, qwordAt bs 24,
    (loWord st).toNat, (hiWord st).toNat, qwordAt bs 40, (loWord co).toInt, (hiWord co).toInt, qwordAt bs 56, bitsOf f 63 12 != 0⟩
/-- Bytes per row and rows; one row for kind 0. -/
def CopyRec.rowBytes (r : CopyRec) : Nat := if r.kind = 0 then r.size.toNat else (loWord r.size).toNat
def CopyRec.rows (r : CopyRec) : Nat := if r.kind = 0 then 1 else (hiWord r.size).toNat

/-- A shape record. -/
structure ShapeRec where
  base : Dword
  rows : Nat
  cols : Nat
  stride : Nat
  elem : Nat                   -- element bytes
  bad : Bool
  deriving DecidableEq, Repr
def shapeRec (bs : List Byte) : ShapeRec :=
  let lg := (bs.getD 20 0).toNat
  ⟨qwordAt bs 0, wordAt bs 8, wordAt bs 12, wordAt bs 16, 2 ^ lg, lg > 3⟩
def ShapeRec.none : ShapeRec := ⟨0, 0, 0, 0, 1, false⟩

/-- Does each target of a CAST destination have its own waypoint (R129)? -/
def wpPerTarget (s : State) (y wp : Dword) : Bool :=
  winOf y = 7 && isLocalForm y && !isRemote s y &&
    ((isScratchSpace s y && isScratchSpace s wp) || (spaceOf y == 1 && spaceOf wp == 1))
/-- A waypoint's address taken through the window of the destination. -/
def castOf (wp y : Dword) : Dword := (wp &&& ~~~(7#64 <<< 56)) ||| (y &&& (7#64 <<< 56))

/-- The address of the tensor side is the shape record's base; of the other side the record's own. -/
def CopyRec.srcAddr (r : CopyRec) (sh : ShapeRec) : Dword := if r.kind = 2 && !r.tdir then sh.base else r.src
def CopyRec.dstAddr (r : CopyRec) (sh : ShapeRec) : Dword := if r.kind = 2 && r.tdir then sh.base else r.dst

/-- Is the tile wholly within the tensor? -/
def insideTensor (r : CopyRec) (sh : ShapeRec) : Bool :=
  0 ≤ r.row && 0 ≤ r.col && r.row + r.rows ≤ sh.rows && r.col + ((r.rowBytes / sh.elem : Nat) : Int) ≤ sh.cols

/-- The byte runs of a record (R121-R123). -/
def CopyRec.spans (r : CopyRec) (sh : ShapeRec) : List Span :=
  (List.range r.rows).flatMap fun i =>
    if r.kind ≤ 1 then [⟨i * r.sstride, i * r.dstride, r.rowBytes, false, false⟩]
    else
      let n := r.rowBytes / sh.elem
      let ti := r.row + i
      -- columns before, within and past the tensor
      let before := min n (-r.col).toNat
      let upto := max before (min n (sh.cols - r.col).toNat)
      let rowIn := 0 ≤ ti && ti < sh.rows
      let part (c0 c1 : Nat) (inside : Bool) : List Span :=
        if c0 = c1 then []
        else
          let tens := if inside then ti.toNat * sh.stride + (r.col + c0).toNat * sh.elem else 0
          let tile := i * (if r.tdir then r.sstride else r.dstride) + c0 * sh.elem
          [if r.tdir then ⟨tile, tens, (c1 - c0) * sh.elem, false, !inside⟩ else ⟨tens, tile, (c1 - c0) * sh.elem, !inside, false⟩]
      if rowIn then part 0 before false ++ part before upto true ++ part upto n false else part 0 n false

/-- Does the record's own address of the source, or of the destination, count: the tensor side's is the shape record's base? -/
def CopyRec.srcUsed (r : CopyRec) : Bool := !(r.kind = 2 && !r.tdir)
def CopyRec.dstUsed (r : CopyRec) : Bool := !(r.kind = 2 && r.tdir)
/-- R123 on a record that has been read: ILLOP, then APERTURE and WINDOW of the addresses it holds. Fields that the record's kind does
not use, and the tensor side's own of a record of kind 2, are not checked.
DEDUCED, log 37. -/
def recCheck (s : State) (t : Nat) (r : CopyRec) : Option Nat :=
  let co := s.companyOf t
  if r.reserved || r.kind > 2 || r.size = 0 || (r.kind ≥ 1 && (r.rowBytes = 0 || r.rows = 0)) then some 0x01
  else
    let forms := [
      if r.srcUsed then streamAddr co r.src fun w => w == 0 else none,
      if r.dstUsed then streamAddr co r.dst fun w => w == 0 || w == 7 else none,
      if r.kind = 2 then (if badForm co r.shape || !(isScratchSpace s r.shape || spaceOf r.shape == 1) then some 0x11
        else if winOf r.shape != 0 then some 0x12 else none) else none,
      if r.nowp then none else wpAddr s co r.wp]
    match forms.filterMap id with
    | code :: _ => some ((forms.filterMap id).foldl min code)
    | [] => none
/-- Is an address, length or stride of the record not aligned (R123)? -/
def recMisaligned (r : CopyRec) : Bool :=
  (r.srcUsed && r.src.toNat % 4 != 0) || (r.dstUsed && r.dst.toNat % 4 != 0) || r.rowBytes % 4 != 0 ||
    (r.kind ≥ 1 && ((r.srcUsed && r.sstride % 4 != 0) || (r.dstUsed && r.dstride % 4 != 0))) ||
    (r.kind = 2 && r.shape.toNat % 32 != 0) || (!r.nowp && r.wp.toNat % 16 != 0)
/-- Can the shape record be read: does it lie where the run may read? -/
def shapeInside (s : State) (t : Nat) (r : CopyRec) : Bool := (localBounds s t r.shape 0 32).isNone

/-- Does a record's waypoint, or the waypoint of one of its targets, lie outside the partition or the company memory (R123, R129)? -/
def wpOutside (s : State) (t : Nat) (wp y : Dword) : Bool :=
  (localBounds s t wp 0 16).isSome || (wpPerTarget s y wp && spaceOf wp != 1 &&
    (castTargets s t (castOf wp y)).any fun a => !rangeInPart s (s.runOf t).part a 16)
/-- The checks of R123 once the shape record has been read, if there is one to read (`tens`): those of its fields and base in their
places, then MISALIGN, OOB, BOUNDS and DWRITE (R145). A logarithm of the element bytes above 3 is ILLOP.
DEDUCED, log 37. -/
def recCheck2 (s : State) (t : Nat) (r : CopyRec) (sh : ShapeRec) (tens : Bool) : Option Nat :=
  let co := s.companyOf t
  if tens && (sh.bad || r.rowBytes % sh.elem != 0) then some 0x01
  else match (if tens then streamAddr co sh.base (fun w => w == 0 || (r.tdir && w == 7)) else none) with
  | some code => some code
  | none =>
    if recMisaligned r || (tens && (sh.base.toNat % 4 != 0 || sh.stride % 4 != 0)) then some 0x10
    else if r.kind = 2 && !tens then some 0x13
    else if r.kind = 2 && !r.permit && !insideTensor r sh then some 0x18
    else
      let x := r.srcAddr sh
      let y := r.dstAddr sh
      let sp := r.spans sh
      let out := sp.any (fun k => !k.zero && (localBounds s t x k.soff k.len).isSome) ||
        (if winOf y = 7 && isLocalForm y && isScratchSpace s y then
          (castTargets s t y).any fun a => sp.any fun k => !k.skip && !rangeInPart s (s.runOf t).part (a + k.doff) k.len
         else sp.any fun k => !k.skip && (localBounds s t y k.doff k.len).isSome) ||
        (!r.nowp && wpOutside s t r.wp y)
      if out then some 0x13
      else
        let dw := (dstTargets s t y).any fun d => match d with
          | .phys a => sp.any fun k => !k.skip && inDerived s (a + k.doff) k.len
          | _ => false
        if dw then some 0x14 else none

/-! ### Presence and waypoints at issue (R124, R127, R129) -/

/-- Clear the P bits of lines for copy `id`. -/
def clearLines (s : State) (ls : List Nat) (id : Nat) : State :=
  { s with pclear := ls.foldl (fun m l => tput m l (id + 1)) s.pclear }
/-- Device-local lines that pieces write. -/
def pieceLines (cs : List Chunk) : List Nat :=
  (cs.flatMap fun c => match c.dst with
    | .phys a => linesOf [(a, c.len)]
    | _ => []).eraseDups
/-- Capture a waypoint. -/
def captureWp (s : State) (a : Nat) : WpRef := ⟨a, cleanN s a 4 / 2 ^ 17⟩
/-- The waypoint of each target of a record. -/
def recordWps (s : State) (t : Nat) (nowp : Bool) (wp y : Dword) (n : Nat) : List (Option WpRef) :=
  if nowp then List.replicate n none
  else
    if wpPerTarget s y wp then (castTargets s t (castOf wp y)).map fun a => some (captureWp s a)
    else List.replicate n (some (captureWp s (physOf s t 0 wp)))

/-- A copy, entered with its presence and waypoints. -/
def addCopy (s : State) (t : Nat) (lane : Option Nat) (chunks : List Chunk) (wps : List (Option WpRef)) (pres cast castWp : Bool)
    (pc : Word) (grp : Nat) : State :=
  let id := s.nextId
  let c0 : Copy := ⟨id, t, lane, chunks, wps, pres, cast, storeIds s t, none, false, false, pc, false, grp, castWp, []⟩
  let c := { c0 with stands := lane.isSome && c0.moving }
  let s1 := { s with copies := s.copies ++ [c], nextId := id + 1 }
  if pres then clearLines s1 (pieceLines chunks) id else s1

/-- Issue one record: the trap code, or the state with the copy started and the COPY counter raised; none while the record
cannot be read. -/
def issueRecord (s : State) (c : Ctx) (x : Dword) : Option (State ⊕ Nat) :=
  match recordBytes s c.t c.low x 64 with
  | none => none
  | some bs =>
    let r := copyRec bs
    match recCheck s c.t r with
    | some code => some (.inr code)
    | none =>
      let tens := r.kind == 2 && shapeInside s c.t r
      match (if tens then recordBytes s c.t c.low r.shape 32 else some []) with
      | none => none
      | some shb =>
        let sh := if tens then shapeRec shb else ShapeRec.none
        match recCheck2 s c.t r sh tens with
        | some code => some (.inr code)
        | none =>
          let y := r.dstAddr sh
          let ts := dstTargets s c.t y
          let chunks := ts.zipIdx.flatMap fun d => (r.spans sh).flatMap fun k =>
            spanPieces (srcAt s c.t (r.srcAddr sh) 0) d.1 d.2 k
          let s1 := addCopy s c.t none chunks (recordWps s c.t r.nowp r.wp y ts.length) r.pres (winOf y == 7)
            (!r.nowp && wpPerTarget s y r.wp) c.pc 0
          some (.inl (addOp s1 c.t .copy (.copies [s.nextId]) []))

/-- How many records of the COPY have issued before it stalled within them. -/
def begunRecords (s : State) (c : Ctx) : Nat :=
  (((s.troupe c.t).copied.find? fun x => x.2.1 == c.pc && hasLane c.act x.1).map fun x => x.2.2).getD 0
/-- The COPY is over: what it had issued before it stalled is forgotten. -/
def endRecords (s : State) (c : Ctx) : State :=
  let z := recordsRead s c.t
  let left := (z.troupe c.t).copied.filter fun x => x.2.1 != c.pc || !hasLane c.act x.1
  if left.length = (z.troupe c.t).copied.length then z else z.setTroupe c.t { z.troupe c.t with copied := left }
/-- The COPY stalls with `k` records issued. -/
def stallRecords (s : State) (c : Ctx) (k : Nat) : State :=
  if k = 0 then s
  else
    let z := endRecords s c
    z.setTroupe c.t { z.troupe c.t with copied := (c.low, c.pc, k) :: (z.troupe c.t).copied }

/-- Records k, k + 1, … of a COPY, each read in its turn: one that cannot be read yet holds the instruction, and the earlier ones
stay issued.
DEDUCED, log 38. -/
def issueRecords (c : Ctx) (x : Dword) : Nat → Nat → State → Res
  | 0, _, s => .ok (endRecords s c)
  | n + 1, k, s =>
    let y := x + BitVec.ofNat 64 (64 * k)
    match issueRecord s c y with
    | none => .part (askRecord (stallRecords s c k) c.t c.low y 64) c.mask .hazard
    | some (.inr code) => .trap (endRecords s c) (c.trapInfo code c.act y)
    | some (.inl s1) => issueRecords c x n (k + 1) s1

def execCopy (h : Hdr) (base : Opd) (n : Src) (s : State) : Outcome :=
  issue (.copy h base n) s fun c s =>
    if c.idle then .ok s
    else match uniformTrap c (fun l => readPair s c l base 0), uniformTrap c fun l => (readSrcZ s c l n 1).setWidth 64 with
    | some x, _ => .trap s x
    | none, some x => .trap s x
    | none, none =>
      let x := readPair s c c.low base 0
      let k := (readSrcZ s c c.low n 1).toNat
      let k0 := begunRecords s c
      if troupeNo c.t != (s.runOf c.t).producer then .trap s (c.trapInfo 0x19 c.act x)
      else if k = 0 || k > 16 then .trap s (c.trapInfo 0x01 c.act c.pcVal)
      else match engineAddr s c.t x 64 (64 * k) false with
      | some code => .trap s (c.trapInfo code c.act x)
      | none =>
        if counterFull s c.t .copy (k - k0) then .part s c.mask (.counter .copy (63 - (k - k0)))
        else issueRecords c x (k - k0) k0 s

/-! ### COPYL (R286, R128) -/

/-- A lane's checks, in the order of R286. -/
def copylCheck (s : State) (t l : Nat) (src dst : Dword) (n : Nat) (wp : Option Dword) : Option (Nat × Nat) :=
  let co := s.companyOf t
  let plain (w : Nat) : Bool := w == 0
  let forms := [streamAddr co src plain, streamAddr co dst plain, match wp with
    | some w => wpAddr s co w
    | none => none].filterMap id
  match forms with
  | code :: rest => some (1, rest.foldl min code)
  | [] =>
    if src.toNat % 4 != 0 || dst.toNat % 4 != 0 || n % 4 != 0 || wp.any (fun w => w.toNat % 16 != 0) then some (2, 0x10)
    else if n = 0 || n > 4096 then some (3, 0x01)
    else if (localBounds s t src 0 n).isSome || (localBounds s t dst 0 n).isSome ||
        wp.any (fun w => (localBounds s t w 0 16).isSome) then some (4, 0x13)
    else if isLocalForm dst && !isRemote s dst && inDerived s (physOf s t l dst) n then some (5, 0x14)
    else none

/-- The thread stands at its COPYL until its global bytes have moved. -/
def Thread.standAt (h : Hdr) (th : Thread) : Thread := { th with st := .stalled, wait := .translation, info := ⟨h, .rz, .n32⟩ }

/-- COPYL. A lane whose request has a global address stands at it until the bytes there have moved, each translated as it moves (R128,
R407).
DEDUCED, log 44. -/
def execCopyl (h : Hdr) (nopres : Bool) (dst src : Opd) (n : Src) (wp : Opd) (s : State) : Outcome :=
  issue (.copyl h nopres dst src n wp) s fun c s =>
    let sv := fun l => readPair s c l src 0
    let dv := fun l => readPair s c l dst 6
    let nv := fun l => (readSrcZ s c l n 1).toNat
    let wv := fun l => if wp == .rz then none else some (readPair s c l wp 2)
    let check := fun l => copylCheck s c.t l (sv l) (dv l) (nv l) (wv l)
    let failing := fun l => match check l with
      | some (3, _) => c.pcVal
      | _ => if (streamAddr (s.companyOf c.t) (sv l) fun w => w == 0).isSome then sv l else dv l
    match checkLanes c (lanes c.act) failing check with
    | some x => .trap s x
    | none =>
      if c.idle then .ok s
      else if counterFull s c.t .gather 1 then .part s c.mask (.counter .gather 62)
      else
        let one (z : State) (l : Nat) : State :=
          let chunks := (dstTargets s c.t (dv l)).zipIdx.flatMap fun d =>
            spanPieces (srcAt s c.t (sv l) 0) d.1 d.2 ⟨0, 0, nv l, false, false⟩
          addCopy z c.t (some l) chunks [(wv l).map fun w => captureWp s (physOf s c.t l w)] (!nopres) false false
            c.pc s.nextId
        let s1 := (lanes c.act).foldl one s
        let s2 := addOp s1 c.t .gather (.copies ((List.range (lanes c.act).length).map fun k => s.nextId + k)) []
        let m := maskOf fun l => hasLane c.act l && (!isLocalForm (sv l) || !isLocalForm (dv l))
        if m = 0 then .ok s2
        else .ctl ((s2.mapLanes c.t (c.act &&& ~~~m) fun _ th => th.advance c.hdr).mapLanes c.t m fun _ th => th.standAt c.hdr)

/-! ### COLL (R287, R288) -/

structure CollRec where
  op : Nat
  etype : Nat
  rop : Nat
  nranks : Nat
  rank : Nat
  root : Nat
  group : Dword
  src : Dword
  dst : Dword
  count : Nat
  wp : Dword
  reserved : Bool
  deriving DecidableEq, Repr
def collRec (bs : List Byte) : CollRec :=
  let f := qwordAt bs 0
  ⟨bitsOf f 7 0, bitsOf f 11 8, bitsOf f 13 12, bitsOf f 31 16, bitsOf f 47 32, bitsOf f 63 48, qwordAt bs 8, qwordAt bs 16,
    qwordAt bs 24, (qwordAt bs 32).toNat, qwordAt bs 40,
    bitsOf f 15 14 != 0 || wordAt bs 52 != 0 || qwordAt bs 56 != 0⟩
/-- Bytes of an element of ETYPE. -/
def etypeBytes (e : Nat) : Nat := if e = 2 || e = 3 then 8 else if e = 10 then 2 else 4
/-- Bytes of COUNT elements; SRC and DST bytes. -/
def CollRec.block (r : CollRec) : Nat := r.count * etypeBytes r.etype
def CollRec.srcBytes (r : CollRec) : Nat :=
  match r.op with
  | 0 => if r.rank = r.root then r.block else 0
  | 2 => r.nranks * r.block
  | _ => r.block
def CollRec.dstBytes (r : CollRec) : Nat := if r.op = 1 then r.nranks * r.block else r.block

/-- The checks of R288 on a record, up to GROUP's contents.
DEDUCED, log 40. -/
def collCheck (s : State) (t : Nat) (r : CollRec) : Option Nat :=
  let co := s.companyOf t
  let scratch (x : Dword) : Option Nat :=
    if badForm co x || !isScratchSpace s x then some 0x11 else if winOf x != 0 then some 0x12 else none
  if r.reserved || r.op > 3 || r.rop = 3 || (r.op ≤ 1 && r.rop != 0) || !([0, 1, 2, 3, 8, 10].contains r.etype) ||
      r.nranks = 0 || r.nranks > 4096 || r.rank ≥ r.nranks || r.root ≥ r.nranks || r.count = 0 || r.count > 2 ^ 32 then some 0x01
  else
    let forms := [scratch r.group, scratch r.src, scratch r.dst, if r.wp = 0 then none else wpAddr s co r.wp].filterMap id
    match forms with
    | code :: rest => some (rest.foldl min code)
    | [] =>
      if r.group.toNat % 4 != 0 || r.src.toNat % 4 != 0 || r.dst.toNat % 4 != 0 || r.block % 4 != 0 ||
          (r.wp != 0 && r.wp.toNat % 16 != 0) then some 0x10
      else localBounds s t r.group 0 (2 * r.nranks)

def execColl (h : Hdr) (base : Opd) (s : State) : Outcome :=
  issue (.coll h base) s fun c s =>
    if c.idle then .ok s
    else match uniformTrap c fun l => readPair s c l base 0 with
    | some x => .trap s x
    | none =>
      let x := readPair s c c.low base 0
      match engineAddr s c.t x 64 64 false with
      | some code => .trap s (c.trapInfo code c.act x)
      | none =>
        match recordBytes s c.t c.low x 64 with
        | none => .part (askRecord s c.t c.low x 64) c.mask .hazard
        | some bs =>
          let r := collRec bs
          match collCheck s c.t r with
          | some code => .trap s (c.trapInfo code c.act x)
          | none =>
            match recordBytes s c.t c.low r.group (2 * r.nranks) with
            | none => .part (askRecord s c.t c.low r.group (2 * r.nranks)) c.mask .hazard
            | some gb =>
              let group := (List.range r.nranks).map fun k => leNat ((gb.drop (2 * k)).take 2)
              let a := physOf s c.t c.low r.dst
              if group.any (fun g => g ≥ 2 ^ 14) || group.getD r.rank 0 != skid s then .trap s (c.trapInfo 0x01 c.act x)
              else if (localBounds s c.t r.src 0 r.srcBytes).isSome || (localBounds s c.t r.dst 0 r.dstBytes).isSome ||
                  (r.wp != 0 && (localBounds s c.t r.wp 0 16).isSome) then .trap s (c.trapInfo 0x13 c.act x)
              else if inDerived s a r.dstBytes then .trap s (c.trapInfo 0x14 c.act x)
              else if counterFull s c.t .coll 1 then .part s c.mask (.counter .coll 62)
              else
                let id := s.nextId
                let wp := if r.wp = 0 then none else some (captureWp s (physOf s c.t c.low r.wp))
                let k : Coll := ⟨id, c.t, bs, group, wp, r.dstBytes, s.wall, [r.rank], [], [], [], [], false⟩
                let s1 := clearLines { s with colls := s.colls ++ [k], nextId := id + 1 } (linesOf [(a, r.dstBytes)]) id
                .ok (addOp (recordsRead s1 c.t) c.t .coll (.copies [id]) (storeIds s c.t))

/-- CSTAT: the five counters at issue (R289). -/
def execCstat (h : Hdr) (d : Opd) (s : State) : Outcome :=
  issue (.cstat h d) s fun c s =>
    let tr := s.troupe c.t
    let v := tr.counter .copy + 2 ^ 6 * tr.counter .gather + 2 ^ 12 * tr.counter .mma + 2 ^ 18 * tr.counter .coll +
      2 ^ 24 * tr.counter .remote
    if c.idle then .ok s else .ok (writeLate s c (results c false d fun _ => BitVec.ofNat 64 v))

end Sys2Proof.Machine
end

