-- ==== Sys2Proof/Machine/Tns.lean ====
section
/-! DEFINITION. The TNS class: DREG, DUNREG, DSTAT, DFRESH (19_engine_system_instructions.md R290-R292; 11_derived.md
R130-R136, R147, R148). -/

namespace Sys2Proof.Machine

open Sys2Proof

/-! ### Records and descriptors -/

/-- A descriptor (Table 11.1), and whether a reserved field is nonzero. -/
def descriptor (bs : List Byte) : Tensor × Bool :=
  let q0 := qwordAt bs 0
  let q1 := qwordAt bs 8
  let q2 := qwordAt bs 16
  (⟨bitsOf q0 33 0, bitsOf q1 31 0, bitsOf q1 63 32, bitsOf q2 31 0, bitsOf q2 39 32⟩,
    bitsOf q0 63 34 != 0 || bitsOf q2 63 40 != 0 || qwordAt bs 24 != 0)
/-- ROWS, COLS, STRIDE and FMT are admitted (Tables 11.1, 11.2); STRIDE's multiple of 32 is a check of its own. -/
def Tensor.admitted (x : Tensor) : Bool :=
  1 ≤ x.rows && x.rows ≤ 2 ^ 20 && 1 ≤ x.cols && x.cols ≤ 2 ^ 20 && x.fmt ≤ 5 && !(x.fmt = 5 && x.cols % 2 != 0) &&
    fmtBytes x.fmt x.cols ≤ x.stride

/-- A registration record (Table 11.3). -/
structure RegRec where
  rule : Nat
  seedv : Bool
  sat : Bool
  blk16 : Bool
  rnd : Nat
  dfmt : Nat
  bdesc : Dword
  ddesc : Dword
  scale : Dword
  seed : Word
  reserved : Bool
  deriving DecidableEq, Repr

def regRec (bs : List Byte) : RegRec :=
  let q0 := qwordAt bs 0
  let q4 := qwordAt bs 32
  ⟨bitsOf q0 7 0, q0.getLsbD 8, q0.getLsbD 9, q0.getLsbD 10, bitsOf q0 19 16, bitsOf q0 23 20, qwordAt bs 8, qwordAt bs 16,
    qwordAt bs 24, loWord q4, bitsOf q0 15 11 != 0 || bitsOf q0 63 24 != 0 || hiWord q4 != 0 || leNat (bs.drop 40) != 0⟩

/-- The derived shape and formats of Table 11.4. -/
def ruleShape (rule : Nat) (b : Tensor) : Nat × Nat :=
  match rule with
  | 1 | 4 | 5 => (b.cols, b.rows)
  | 2 | 3 => (b.rows, b.cols)
  | 7 => (1, b.cols)
  | _ => (b.rows, 1)
def ruleFmt (rule bfmt dfmt : Nat) : Bool :=
  match rule with
  | 1 => dfmt = bfmt
  | 2 | 4 => dfmt ≤ 5
  | 3 | 5 => 3 ≤ dfmt && dfmt ≤ 5
  | _ => dfmt ≤ 2

/-- The entry that a record and its descriptors describe; home and depth are not known yet. -/
def entryOf (part : Nat) (r : RegRec) (b d : Tensor) : Entry :=
  ⟨true, part, r.rule, r.rnd, r.blk16, r.sat, if r.seedv then r.seed else 0, b, d, scratchOff r.scale, 0, 0⟩

/-- The slice that every region of the ranges is homed to, if there is one. -/
def singleHome (s : State) (rs : List (Nat × Nat)) : Option Nat :=
  let homes := rs.flatMap fun r => (List.range (regionOf (r.1 + r.2 - 1) + 1 - regionOf r.1)).map fun k =>
    let g := regionOf r.1 + k
    if (regionEntry s g).getLsbD 30 then some (homeSlice s (2 ^ 21 * g)) else none
  match homes with
  | some h :: rest => if rest.all fun x => x == some h then some h else none
  | _ => none

/-- The derived range, and the scale range where there is one. -/
def Entry.outRanges (e : Entry) : List (Nat × Nat) :=
  (e.der.off, e.der.span) :: if e.isMx then [(e.scale, e.scaleSpan)] else []
def Entry.hitsAny (e : Entry) (rs : List (Nat × Nat)) : Bool := rs.any fun r => e.hits r.1 r.2
/-- Depth (R136). -/
def depthOf (s : State) (b : Tensor) : Nat :=
  1 + (((usedEntries s).filter fun x => overlaps b.off b.span x.2.der.off x.2.der.span).map fun x => x.2.depth).foldl max 0
/-- The lowest id not in use. -/
def freeId (s : State) : Option Nat := (List.range 128).find? fun k => !(s.entry k).used
/-- Tile states of a home slice. -/
def mapSize (s : State) (home : Nat) : Nat :=
  sumNat (((usedEntries s).filter fun x => x.2.home == home).map fun x => x.2.der.tiles)

/-- Checks 1 to 7 of R136: the trap code, or the id and the entry.
DEDUCED, log 48. -/
def dregCheck (s : State) (t : Nat) (r : RegRec) (b d : Tensor) (reserved : Bool) : Nat ⊕ (Nat × Entry) :=
  let co := s.companyOf t
  let part := (s.runOf t).part
  let mx := r.rule = 3 || r.rule = 5
  let e := entryOf part r b d
  let outs := e.outRanges
  if r.reserved || reserved || r.rule = 0 || r.rule > 8 || r.rnd > 5 || !b.admitted || !d.admitted || r.dfmt != d.fmt ||
      !ruleFmt r.rule b.fmt r.dfmt || (d.rows, d.cols) != ruleShape r.rule b || (mx && d.cols % e.block != 0) ||
      (mx == (r.scale == 0)) then .inl 0x01
  else if b.off % 256 != 0 || d.off % 256 != 0 || b.stride % 32 != 0 || d.stride % 32 != 0 then .inl 0x10
  else if mx && (badForm co r.scale || !isScratchSpace s r.scale || winOf r.scale != 0) then .inl 0x11
  else if (e.base.off, e.base.span) :: outs |>.any fun g => !rangeInPart s part g.1 g.2 then .inl 0x13
  else match singleHome s outs with
  | none => .inl 0x01
  | some home =>
    if outs.any fun g => inDerived s g.1 g.2 then .inl 0x14
    else if anyWatched s outs || outs.any fun g => overlaps g.1 g.2 b.off b.span then .inl 0x15
    else
      let depth := depthOf s b
      match freeId s with
      | none => .inl 0x16
      | some id =>
        if depth > 3 || mapSize s home + d.tiles > 65536 then .inl 0x16 else .inr (id, { e with home := home, depth := depth })

/-- The bytes of a tensor's rows, and the lines that hold an element. -/
def Tensor.rowRanges (x : Tensor) : List (Nat × Nat) := (List.range x.rows).map fun i => x.rowRange i 0 x.cols
def Tensor.elemLines (x : Tensor) : List Nat := (linesOf x.rowRanges).eraseDups
/-- Forget the tile states of an entry: every tile is STALE. -/
def clearTiles (s : State) (id : Nat) : State := { s with tiles := s.tiles.filter fun x => x.1 / 65536 != id }
/-- Enter a derivation. -/
def register (s : State) (id : Nat) (e : Entry) : State :=
  let s1 := clearTiles s id
  { s1 with entries := tput s1.entries id e, wset := (s1.wset ++ e.base.elemLines).eraseDups }
/-- What is left of an entry's recomputes goes with it, and a load that waits for no tile any more is an ordinary load (R135,
R147). -/
def dropRecomputes (s : State) (id : Nat) : State :=
  { s with
    slices := s.slices.map fun k => (k.1, { k.2 with
      queue := k.2.queue.filter fun x => x.1 != id
      current := k.2.current.filter fun r => r.e != id
      waiting := k.2.waiting.filter fun r => r.e != id })
    accs := s.accs.map fun a => if a.st == .derived && !waitsTile s (.access a.id) then { a with st := .queued } else a }
/-- Remove a derivation; W is cleared on base lines that no other entry's base covers. -/
def unregister (s : State) (id : Nat) : State :=
  let e := s.entry id
  let s1 := dropRecomputes (clearTiles { s with entries := terase s.entries id } id) id
  let gone := (e.base.elemLines).filter fun l =>
    !(usedEntries s1).any fun x => overlaps (256 * l) 256 x.2.base.off x.2.base.span && x.2.base.elemLines.contains l
  { s1 with wset := s1.wset.filter fun l => !gone.contains l }

/-! ### The instructions -/

/-- Address checks of a record or a descriptor (R136). -/
def dregAddr (s : State) (t : Nat) (x : Dword) (al n : Nat) : Option Nat :=
  if badForm (s.companyOf t) x || !(isScratchSpace s x || spaceOf x == 1) then some 0x11
  else if winOf x != 0 then some 0x12
  else if offOf x % al != 0 then some 0x10
  else boundsCheck s t x n

/-- Check an address, then read through it, once the troupe's earlier stores have been performed (R265). -/
def dregRead (s : State) (c : Ctx) (rec0 x : Dword) (al n : Nat) (k : List Byte → Res) : Res :=
  match dregAddr s c.t x al n with
  | some code => .trap s (c.trapInfo code c.act rec0)
  | none =>
    if !(storeIds s c.t).isEmpty then .part s c.act .hazard
    else match recordBytes s c.t c.low x n with
    | none => .part (askRecord s c.t c.low x n) c.act .hazard
    | some bs => k bs

def execDreg (h : Hdr) (d base : Opd) (s : State) : Outcome :=
  issue (.dreg h d base) s fun c s =>
    if c.idle then .ok s
    else match uniformTrap c fun l => readPair s c l base 0 with
    | some x => .trap s x
    | none =>
      let x := readPair s c c.low base 0
      dregRead s c x x 64 64 fun rb =>
        let r := regRec rb
        dregRead s c x r.bdesc 32 32 fun bb =>
          dregRead s c x r.ddesc 32 32 fun db =>
            let bd := descriptor bb
            let dd := descriptor db
            match dregCheck s c.t r bd.1 dd.1 (bd.2 || dd.2) with
            | .inl code => .trap s (c.trapInfo code c.act x)
            | .inr e =>
              -- a write that its home holds already has sent its marks: it is performed before DREG completes
              if heldClosed s 0 e.2.base.rowRanges then .part s c.act .hazard
              else .ok (writeNow (register (recordsRead s c.t) e.1 e.2) c (results c false d fun _ => BitVec.ofNat 64 e.1))

/-- The entry an id names, if it is in use and of the run's partition (R290). -/
def ownEntry (s : State) (t id : Nat) : Option Entry :=
  let e := s.entry id
  if id < 128 && e.used && e.part == (s.runOf t).part then some e else none
/-- Does the entry's derived or scale range meet another entry's base? -/
def feedsOther (s : State) (id : Nat) (e : Entry) : Bool :=
  (usedEntries s).any fun x => x.1 != id && e.hits x.2.base.off x.2.base.span
/-- Is a tile of the entry BUSY or DIRTY? -/
def tilesBusy (s : State) (id : Nat) : Bool :=
  s.tiles.any fun x => x.1 / 65536 == id && (x.2.st == .busy || x.2.st == .dirty)
/-- Tiles of an entry that are not FRESH. -/
def notFresh (s : State) (id : Nat) (e : Entry) : Nat :=
  ((List.range e.der.tiles).filter fun k => !isFresh s (id, k)).length
/-- Queue every STALE tile of an entry. -/
def freshen (s : State) (id : Nat) (e : Entry) : State :=
  (List.range e.der.tiles).foldl (fun z k =>
    let x := z.tile id k
    if x.st == .stale then queueTile (z.setTile id k { x with st := .busy }) id k false else z) s

/-- A TNS instruction on an id, once it is known to be uniform. -/
def onId (c : Ctx) (b : Src) (s : State) (k : Nat → Res) : Res :=
  if c.idle then .ok s
  else
    let v := fun l => (readSrcZ s c l b 1).setWidth 64
    match uniformTrap c v with
    | some x => .trap s x
    | none => k (v c.low).toNat

def execDunreg (h : Hdr) (d : Opd) (b : Src) (s : State) : Outcome :=
  issue (.dunreg h d b) s fun c s => onId c b s fun id =>
    match ownEntry s c.t id with
    | none => .ok (writeNow s c (results c false d fun _ => 0))
    | some e =>
      if feedsOther s id e then .ok (writeNow s c (results c false d fun _ => 0))
      else if tilesBusy s id then .part s c.act .hazard
      else .ok (writeNow (unregister s id) c (results c false d fun _ => 1))

def execDstat (h : Hdr) (d : Opd) (b : Src) (s : State) : Outcome :=
  issue (.dstat h d b) s fun c s => onId c b s fun id =>
    match ownEntry s c.t id with
    | none => .ok (writeLate s c (results c false d fun _ => 0xFFFFFFFF))
    | some e =>
      let nd := nondet s c c.act
      match nd.2 with
      | some x => .trap s x
      | none => .ok (writeLate nd.1 c (results c false d fun _ => BitVec.ofNat 64 (notFresh s id e)))

def execDfresh (h : Hdr) (b : Src) (s : State) : Outcome :=
  issue (.dfresh h b) s fun c s => onId c b s fun id =>
    match ownEntry s c.t id with
    | some e => .ok (freshen s id e)
    | none => .ok s

end Sys2Proof.Machine
end

