-- ==== Sys2Proof/Machine/Save.lean ====
section
/-! DEFINITION. A troupe's context off its stage: the images of the save area, saving, and restoring
(25_traps.md R378-R385; 19_engine_system_instructions.md R302). -/

namespace Sys2Proof.Machine

open Sys2Proof

/-! ### The thread part (Table 25.7) -/

/-- The handler state of a lane. -/
def frozenOf (s : State) (t l : Nat) : Frozen := tget (s.troupe t).frozen (freeze s t (s.troupe t) l) l
/-- LSTATE (Table 25.3). -/
def lstate (f : Frozen) : Nat :=
  if f.parked then 3
  else match f.st with
    | .ready => 0
    | .stalled => 1
    | .waiting => 2
    | .held => 4
    | .drained => 5
def waitKind (f : Frozen) : Nat :=
  if f.group.isSome then 10
  else match f.wait with
    | .await _ => 1
    | .wpwait _ _ => 2
    | .cvwait _ _ _ => 3
    | .junction _ _ _ => 4
    | .all _ _ => 5
    | .gate => 6
    | .svc _ _ => 7
    | .sleep _ => 8
    | _ => 0
/-- Instructions since the last clause start: a waiting thread has issued the one it waits in. -/
def clauseCount (f : Frozen) : Nat := if f.st == .waiting then (if f.info.hdr.cs then 1 else f.count + 1) else f.count
def flagByte (a b : Option (Fin 12)) : Byte := flagCode b ++ flagCode a
/-- FLAGS: those of a clause that the instruction it waits in opened. -/
def clauseFlags (f : Frozen) : Byte :=
  if f.st == .waiting && f.info.hdr.cs then flagByte f.info.hdr.flga f.info.hdr.flgb else flagByte f.flga f.flgb

/-- A lane record. No access of the thread is held any more (R302), so that of the PARKED only a COPYL group is left.
DEDUCED, log 54. -/
def laneImage (s : State) (t l : Nat) : List Byte :=
  let tr := s.troupe t
  let f0 := (frozenOf s t l).now
  let f := { f0 with parked := f0.group.isSome }
  let th := tr.thread l
  let cv := (List.range 8).foldl (fun m k => m + if hasLane (tget tr.cvFrozen 0 k) l then 2 ^ k else 0) 0
  leBytes 4 f.pc.toNat ++ leBytes 1 (lstate f) ++ leBytes 1 (min (clauseCount f) 15) ++ [clauseFlags f] ++
    leBytes 1 f.preds.toNat ++ leBytes 8 th.item.toNat ++ leBytes 8 th.age.toNat ++
    (List.range 4).flatMap (fun k => leBytes 4 (f.rstack.getD k 0).toNat) ++ leBytes 1 f.rstack.length ++ leBytes 1 cv ++
    leBytes 1 (waitKind f) ++ leBytes 1 0 ++ leBytes 4 f.spills ++ leBytes 4 th.conv.toNat ++ leBytes 4 f.arg.toNat ++
    leBytes 8 f.addr.toNat
def threadImage (s : State) (t : Nat) : List Byte := (List.range 32).flatMap fun l => laneImage s t l

/-- A lane record read back. -/
structure LaneRec where
  pc : Word
  state : Nat
  clause : Nat
  flga : Option (Fin 12)
  flgb : Option (Fin 12)
  pred : BitVec 7
  item : Dword
  age : Dword
  rstack : List Word
  kind : Nat
  spills : Nat
  conv : Word
  arg : Word
  addr : Dword
  bad : Bool
  deriving DecidableEq, Repr

def laneRec (bs : List Byte) : LaneRec :=
  let b (k : Nat) : Nat := (bs.getD k 0).toNat
  let flags := bs.getD 6 0
  ⟨BitVec.ofNat 32 (wordAt bs 0), b 4, b 5 % 16, flagOf (flags.extractLsb' 0 4), flagOf (flags.extractLsb' 4 4),
    BitVec.ofNat 7 (b 7), qwordAt bs 8, qwordAt bs 16,
    (List.range (min (b 40) 4)).map fun k => BitVec.ofNat 32 (wordAt bs (24 + 4 * k)), b 42, wordAt bs 44,
    BitVec.ofNat 32 (wordAt bs 48), BitVec.ofNat 32 (wordAt bs 52), qwordAt bs 56,
    b 4 > 5 || b 5 > 15 || b 7 > 127 || b 40 > 4 || b 42 = 9 || b 42 > 10 || b 43 != 0⟩

/-- The phase in which a recorded arrival of a seat counts: its arrived bit stands, or the phase has completed since. -/
def arrivalPhase (x : Junction) (seat : Nat) : Bool := if x.arrived.contains seat then x.phase else !x.phase

/-- The handler state that a lane record gives back: what RTT then resumes (Table 25.2). The phase in which a recorded arrival
counts, the arrival of a thread that is to issue its instruction again, and which lane of an SVC writes a uniform destination, which
no image holds, stand in the model beside it (R430, R295).
DEDUCED, log 54. -/
def thawed (s : State) (t l : Nat) (r : LaneRec) : Frozen :=
  let st : TState := match r.state with
    | 0 => .ready
    | 1 => .stalled
    | 2 => .waiting
    | 4 => .held
    | 5 => .drained
    | _ => .ready
  let waits := r.state = 2
  let wait : Wait :=
    if waits && r.kind = 7 then .svc (scratchOff r.addr) false
    else if waits && r.kind = 8 then .sleep r.addr.toNat
    else .none
  let j := r.arg.toNat % 24
  let base := frozenOf s t l
  let phase := ((base.arrived.find? fun a => a.1 == j).map Prod.snd).getD
    (arrivalPhase (s.junction (companyKey t) j) (seatOf t l))
  let arrived := if waits && r.kind = 4 && arrivesAt s t r.pc then [(j, phase)]
    else if r.state ≤ 1 && r.pc == base.pc then base.arrived else []
  { base with
    pc := r.pc, st := st, parked := false, group := none, wait := wait, got := false
    info := if waits && r.pc == base.pc then base.info else infoAt s t r.pc
    rstack := r.rstack, spills := r.spills, count := if waits then r.clause - 1 else r.clause, flga := r.flga, flgb := r.flgb
    arrived := arrived, preds := r.pred, arg := r.arg, addr := r.addr }

/-- LOADCTX `.thread`: none when the image is damaged. -/
def loadThreads (s : State) (t : Nat) (bs : List Byte) : Option State :=
  let rs := (List.range 32).map fun l => (l, laneRec ((bs.drop (64 * l)).take 64))
  let live := maskOf fun l => rs.any fun r => r.1 == l && r.2.state != 5
  if rs.any fun r => r.2.bad then none
  else
    let tr := rs.foldl (fun tr r =>
      let th := tr.thread r.1
      let tr1 := tr.setThread r.1 { th with
        st := if r.2.state = 5 then .drained else th.st, item := r.2.item, age := r.2.age, conv := r.2.conv }
      { tr1 with frozen := tput tr1.frozen r.1 (thawed s t r.1 r.2) }) (s.troupe t)
    some (s.setTroupe t { tr with handlers := live })

/-! ### The troupe part (Table 25.9) and the operand image -/

/-- Records in use, with the offsets of their bytes in the operand image, in record order. -/
def packRecords (tr : Troupe) : List (Nat × Rec × Nat) :=
  ((List.range 15).foldl (fun (acc : List (Nat × Rec × Nat) × Nat) k =>
    let r := tr.record k
    if r.used then (acc.1 ++ [(k, r, acc.2)], acc.2 + 64 * r.len) else acc) ([], 0)).1
def recordWord (r : Rec) (off : Nat) : Nat :=
  1 + 2 * r.fmt + (if r.blk16 then 8 else 0) + (if r.layout then 16 else 0) + 32 * r.len + 2 ^ 32 * off
def troupeImage (tr : Troupe) : List Byte :=
  let packed := packRecords tr
  (List.range 8).flatMap (fun k => leBytes 4 (tget tr.cvFrozen 0 k).toNat) ++
    (List.range 15).flatMap (fun k =>
      leBytes 8 (((packed.find? fun x => x.1 == k).map fun x => recordWord x.2.1 x.2.2).getD 0)) ++
    leBytes 4 tr.srState.toNat ++ leBytes 4 tr.srSeed.toNat ++ leBytes 4 tr.awaitLim.toNat ++ leBytes 4 tr.callIdx.toNat ++
    leBytes 2 tr.urgency ++ List.replicate 86 0
/-- The bytes of the reserved records' ranges, packed.
DEDUCED, log 55. -/
def operandImage (s : State) (tr : Troupe) : List Byte := (packRecords tr).flatMap fun x => recBytes s tr.stage x.2.1

/-- Restoring the troupe part fails on a damaged image, or for want of room for a record (R384). -/
inductive LoadFail where
  | damaged | noRoom
  deriving DecidableEq, Repr

/-- Reallocate a record and refill it. -/
def loadRecord (t : Nat) (image : List Byte) (s : State) (k w : Nat) : Option State :=
  let len := w / 32 % 2048
  let tr := s.troupe t
  let g := s.stage tr.stage
  (freeRun g.ranges (64 * len)).map fun off =>
    let r : Rec := ⟨true, w / 2 % 4, w / 8 % 2 = 1, w / 16 % 2 = 1, len, off⟩
    let bytes := (image.drop (w / 2 ^ 32)).take (64 * len)
    let buf := bytes.zipIdx.foldl (fun m x => tset m 0 (off + x.2) x.1) g.opbuf
    (s.setTroupe t (tr.setRecord k r)).setStage tr.stage { g with opbuf := buf, ranges := g.ranges ++ [(off, 64 * len)] }

/-- Give up every record of a troupe. -/
def dropRecords (s : State) (t : Nat) : State :=
  let tr := s.troupe t
  let gone := tr.recs.map fun r => r.2.range
  freeRanges (s.setTroupe t { tr with recs := [], freeing := [] }) tr.stage (gone ++ tr.freeing)

/-- LOADCTX `.troupe`. -/
def loadTroupe (s : State) (t : Nat) (bs image : List Byte) : Except LoadFail State :=
  let rec0 (k : Nat) : Nat := (qwordAt bs (32 + 8 * k)).toNat
  let bad := (List.range 15).any (fun k => rec0 k / 2 ^ 16 % 2 ^ 16 != 0 || (rec0 k % 2 = 1 && (rec0 k / 32 % 2048 = 0 ||
    rec0 k / 32 % 2048 > 1024))) || leNat (bs.drop 170) != 0
  if bad then .error .damaged
  else
    let s1 := dropRecords s t
    let s2 := (List.range 15).foldl (fun (z : Option State) k =>
      z.bind fun y => if rec0 k % 2 = 1 then loadRecord t image y k (rec0 k) else some y) (some s1)
    match s2 with
    | none => .error .noRoom
    | some z =>
      let tr := z.troupe t
      let cv := (List.range 8).foldl (fun m k => tset m 0 k (BitVec.ofNat 32 (wordAt bs (4 * k)))) []
      .ok (z.setTroupe t { tr with
        cvFrozen := cv
        srState := BitVec.ofNat 32 (wordAt bs 152)
        srSeed := BitVec.ofNat 32 (wordAt bs 156)
        awaitLim := BitVec.ofNat 32 (wordAt bs 160)
        callIdx := BitVec.ofNat 32 (wordAt bs 164)
        urgency := leNat ((bs.drop 168).take 2) })

/-! ### The junction image (Table 25.8) -/

def seatBits (seats : List Nat) : List Byte :=
  (List.range 1024).map fun k => BitVec.ofNat 8 (((seats.filter fun x => x / 8 = k).map fun x => 2 ^ (x % 8)).foldl (· + ·) 0)
def seatsOf (bs : List Byte) : List Nat :=
  bs.zipIdx.flatMap fun x => ((List.range 8).filter fun b => x.1.getLsbD b).map fun b => 8 * x.2 + b
def junctionImage (co : Company) : List Byte :=
  (List.range 24).flatMap fun k =>
    let x := co.junction k
    leBytes 1 ((if x.isSet then 1 else 0) + (if x.member then 2 else 0) + if x.phase then 4 else 0) ++ [0] ++ leBytes 2 x.e ++
      leBytes 2 x.a ++ List.replicate 58 0 ++ seatBits x.members ++ seatBits x.arrived
/-- One junction of an image; none when a reserved bit is nonzero. Byte +1, which Table 25.8 lists neither as a field nor as
reserved, is ignored.
DESIGN CHOICE, log 120. -/
def junctionOf (bs : List Byte) : Option Junction :=
  let f := (bs.getD 0 0).toNat
  if f > 7 || leNat ((bs.drop 6).take 58) != 0 then none
  else
    let members := seatsOf ((bs.drop 64).take 1024)
    let arrived := seatsOf ((bs.drop 1088).take 1024)
    some ⟨f % 2 = 1, f / 2 % 2 = 1, leNat ((bs.drop 2).take 2), leNat ((bs.drop 4).take 2), f / 4 = 1, members, arrived, []⟩
/-- LOADCTX `.junct`: none when the image is damaged. Deferred arrivals, which no image holds, stand beside it (R58, R430).
DEDUCED, log 54. -/
def loadJunctions (s : State) (c : Nat) (bs : List Byte) : Option State :=
  let xs := (List.range 24).map fun k => (k, junctionOf ((bs.drop (2112 * k)).take 2112))
  if xs.any fun x => x.2.isNone then none
  else some (xs.foldl (fun z x =>
    z.setJunction c x.1 { x.2.getD Junction.unset with deferred := (z.junction c x.1).deferred }) s)
/-- What is left of a company's junctions while they are saved: the deferred arrivals. -/
def Company.deferredOnly (co : Company) : Table Junction :=
  (co.junctions.filter fun x => !x.2.deferred.isEmpty).map fun x => (x.1, { Junction.unset with deferred := x.2.deferred })

/-! ### Saving (R379, R380, R390) -/

/-- Nothing of the troupe is under way: counters zero, flags clear, the store queue empty, no access, no step on a waypoint and no
owed write (R302, R390).
DEDUCED, log 56. -/
def troupeQuiet (s : State) (t : Nat) : Bool :=
  let tr := s.troupe t
  tr.ops.isEmpty && tr.pend.isEmpty && !s.accs.any (fun a => a.who.ofTroupe t) && !s.upds.any (fun u => u.ofTroupe t) &&
    (s.copies.all fun c => c.t != t || c.ended || c.parked)
/-- What SAVECTX `.troupe` waits for (R302). -/
def saveHeld (s : State) (t : Nat) : Bool :=
  let tr := s.troupe t
  !tr.ops.isEmpty || tr.busy != 0 || s.accs.any fun a => a.who.ofTroupe t && (a.st == .heldP || a.reported)

/-- Steps 1 to 5 of R379 for a troupe. -/
def writeTroupeBlock (s : State) (t : Nat) : State :=
  let tr := s.troupe t
  let r := s.runOf t
  let b := blockOf s t
  let vec := (List.range r.regs).flatMap fun k => (List.range 32).flatMap fun l => leBytes 4 (tr.reg (vKey k l)).toNat
  let uni := (List.range 160).flatMap fun k => leBytes 4 (tr.reg (sKey k)).toNat
  let tiles := (List.range (4096 * r.acct)).flatMap fun k => leBytes 4 (tget tr.tiles 0 k).toNat
  let s1 := deviceWrite s (b + 69632) (vec ++ List.replicate (r.vecBytes - 128 * r.regs) 0)
  let s2 := deviceWrite (deviceWrite s1 (b + 2304) (uni ++ List.replicate 128 0)) (b + 3584) (List.replicate 512 0)
  let s3 := deviceWrite s2 (b + 69632 + r.vecBytes) tiles
  let s4 := deviceWrite (deviceWrite s3 (b + 2048) (troupeImage tr)) (b + 4096) (operandImage s tr)
  deviceWrite s4 b (threadImage s t)

/-- What is left of per-lane requests that were withdrawn as the troupe was entered: a saved group issues them anew. -/
def dropParked (s : State) (t : Nat) : State :=
  { s with
    copies := s.copies.filter fun c => !(c.t == t && c.parked)
    xreqs := s.xreqs.filter fun q => !s.copies.any fun c => c.t == t && c.parked && c.id == q.copy }
/-- A saved troupe gives up its slot, registers, tiles and records; its threads keep what no image holds. -/
def releaseSaved (s : State) (t : Nat) : State :=
  let s1 := returnFromHandler (dropParked (dropRecords s t) t) t
  let tr := s1.troupe t
  s1.setTroupe t { tr with status := .saved, regs := [], tiles := [], pendPre := 0, saveDone := 0 }

/-- Troupes of a company that stand on its stages. -/
def residentOf (s : State) (c : Nat) : List Nat :=
  (troupesOf s c).filter fun t => (s.troupe t).status == .resident || (s.troupe t).status == .handler ||
    (s.troupe t).status == .retiring
/-- Re-address every delivery on its way.
DESIGN CHOICE, log 104. -/
def readdress (f : Nat → Nat) (s : State) : State :=
  { s with
    accs := s.accs.map fun a => { a with dies := if a.op == .cast then a.dies.map f else a.dies }
    copies := s.copies.map fun c => { c with
      chunks := c.chunks.map fun k => { k with dst := match k.dst with
        | .phys a => .phys (f a)
        | d => d }
      wps := c.wps.map fun w => w.map fun w => { w with addr := f w.addr } }
    upds := s.upds.map fun u => { u with addr := f u.addr } }
/-- The stand-in of a byte of a company's memory as it lies on its stages; any other address stands. -/
def leaveAddr (co : Company) (c cmem a : Nat) : Nat :=
  match (co.stages.zip co.cmBase).zipIdx.find? fun g => cmAddr g.1.1 g.1.2 ≤ a && a < cmAddr g.1.1 (g.1.2 + cmem) with
  | some g => awayAddr c g.2 (a - cmAddr g.1.1 g.1.2)
  | none => a
/-- The byte a stand-in means once the company is on stages again. -/
def returnAddr (co : Company) (c a : Nat) : Nat :=
  if awayCompany a = some c then companyAddr co ((a - 2 ^ 45) / 2 ^ 19 % 16) ((a - 2 ^ 45) % 2 ^ 19) else a
/-- A company's memory leaves its stages: deliveries on their way no longer find it. -/
def leaveStages (s : State) (c : Nat) : State :=
  let co := s.company c
  let cmem := (s.run co.run).cmem
  let s1 := readdress (leaveAddr co c cmem) s
  let mine (l : Nat) : Bool := (co.stages.zip co.cmBase).any fun g =>
    lineOf (cmAddr g.1 g.2) ≤ l && l < lineOf (cmAddr g.1 (g.2 + cmem))
  (({ s1 with pclear := s1.pclear.filter fun x => !mine x.1 } : State)).setCompany c
    { co with offCore := true, stages := [], cmBase := [] }

/-- Steps 6 and 7: company memory and junctions leave with the last troupe. -/
def saveCompany (s : State) (c : Nat) : State :=
  let co := s.company c
  let r := s.run co.run
  let b := r.companyBlock co.index
  let s1 := (co.stages.zip co.cmBase).zipIdx.foldl (fun z g =>
    deviceWrite z (b + 50944 + g.2 * r.cmem) (cleanBytes z (cmAddr g.1.1 g.1.2) r.cmem)) s
  let s2 := deviceWrite s1 (b + 256) (junctionImage co)
  let s3 := leaveStages (s2.setCompany c { co with preempting := false, junctions := co.deferredOnly }) c
  writeCflags s3 c true

/-! ### Restoring (R383, R384) -/

/-- A restore that fails: what it has placed is freed, the context stays saved, and the queue places nothing more. -/
def restoreFails (s : State) (c : Nat) : State :=
  let co := s.company c
  let r := s.run co.run
  let mine := (troupesOf s c).filter fun t => (s.troupe t).context && (s.troupe t).last.reason = 2
  let s1 := mine.foldl releaseSaved s
  let s2 := if (residentOf s1 c).isEmpty then
      leaveStages s1 c else s1
  let s3 := writeCflags s2 c true
  let s4 := postRunError s3 co.run 11
  s4.setQueue r.queue { s4.queue r.queue with notRunnable := true }

/-- Registers and tiles of a troupe from its block. -/
def loadRegisters (s : State) (t : Nat) : State :=
  let r := s.runOf t
  let b := blockOf s t
  let tr := s.troupe t
  let word (a : Nat) : Word := BitVec.ofNat 32 (cleanN s a 4)
  let regs := (List.range r.regs).foldl (fun m k => (List.range 32).foldl (fun m l =>
    tset m 0 (vKey k l) (word (b + 69632 + 128 * k + 4 * l))) m) tr.regs
  let regs := (List.range 160).foldl (fun m k => tset m 0 (sKey k) (word (b + 2304 + 4 * k))) regs
  let tiles := (List.range (4096 * r.acct)).foldl (fun m k => tset m 0 k (word (b + 69632 + r.vecBytes + 4 * k))) []
  s.setTroupe t { tr with regs := regs, tiles := tiles }

/-- Step 1 of R383: junctions, then company memory; CFLAGS[0] becomes MCLOST, and deliveries reach the company again. -/
def loadCompany (s : State) (c : Nat) : Option State :=
  let co := s.company c
  let r := s.run co.run
  let b := r.companyBlock co.index
  (loadJunctions s c (cleanBytes s (b + 256) 50688)).map fun s1 =>
    let s2 := (co.stages.zip co.cmBase).zipIdx.foldl (fun z g =>
      homeWrite z .device (cmAddr g.1.1 g.1.2) (cleanBytes z (b + 50944 + g.2 * r.cmem) r.cmem)) s1
    let lost := (cleanN s2 b 1) % 2 = 1
    let co2 := s2.company c
    (readdress (returnAddr co2 c) s2).setCompany c { co2 with offCore := false, mclost := co2.mclost || lost, lost := false }

/-- Steps 2 to 4 of R383 for a troupe in the context handler. -/
def restoreTroupe (s : State) (t : Nat) : Option State :=
  let b := blockOf s t
  let s1 := loadRegisters s t
  match loadTroupe s1 t (cleanBytes s (b + 2048) 256) (cleanBytes s (b + 4096) 65536) with
  | .error _ => none
  | .ok s2 => (loadThreads s2 t (cleanBytes s b 2048)).map fun s3 => returnFromHandler s3 t

end Sys2Proof.Machine
end

