-- ==== Sys2Proof/Machine/Sys.lean ====
section
/-! DEFINITION. The SYS class: TRAP, SVC, the control registers, RTT, LAUNCH, GATE, RELEASE and the context instructions
(19_engine_system_instructions.md R293-R302; 25_traps.md R375, R376, R386, R387; 26_service_call.md R389). -/

namespace Sys2Proof.Machine

open Sys2Proof

def execTrap (h : Hdr) (x : Imm) (s : State) : Outcome :=
  issue (.trap h x) s fun c s =>
    if c.idle then .ok s else .trap s { c.trapInfo 0x30 c.act (x.setWidth 64) with skip := c.act }

/-! ### SVC (R295, R386, R389) -/

/-- An SVC request ring, as its descriptor stands. -/
structure Ring where
  desc : Nat
  head : Nat
  tail : Nat
  cap  : Nat
  base : Nat
  deriving DecidableEq, Repr

def ringOf (s : State) (a : Nat) : Ring := ⟨a, cleanN s a 4, cleanN s (a + 4) 4, cleanN s (a + 8) 1, cleanN s (a + 16) 8⟩
def ringBad (s : State) (g : Ring) : Bool :=
  g.cap = 0 || g.cap > 12 || cleanN s (g.desc + 9) 7 != 0 || g.base % 128 != 0 || g.base ≥ 2 ^ 34 ||
    g.base % 2 ^ 32 + 128 * 2 ^ g.cap > 2 ^ 32
def Ring.full (g : Ring) : Bool := (g.tail + 2 ^ 32 - g.head) % 2 ^ 32 ≥ 2 ^ g.cap

/-- The routing entry of a service: the lowest-numbered one in force. -/
def svcEntry (s : State) (n : Nat) : Option (BitVec 128) :=
  (((List.range 64).map fun k => (tget s.ports.svcr Reg16.zero k).val).find? fun x =>
    x.getLsbD 63 && (x.extractLsb' 96 16).toNat ≤ n && n ≤ (x.extractLsb' 112 16).toNat)
/-- The ring a call goes to; none for the handler route (R386). -/
def svcRoute (s : State) (t n : Nat) : Option Ring :=
  match svcEntry s n with
  | none => none
  | some x =>
    let g := ringOf s (x.extractLsb' 0 34).toNat
    if !(s.runOf t).saveSet || (x.extractLsb' 61 2).toNat ≥ 2 || ringBad s g then none else some g

/-- The completion slot of a lane (Table 25.6). -/
def svcSlot (s : State) (t l : Nat) : Nat := blockOf s t + 3072 + 16 * l
/-- The four steps of one post.
DESIGN CHOICE, log 49. -/
def svcPost (s : State) (t l n : Nat) (park : Bool) (g : Ring) (block : List Byte) : State :=
  let slot := svcSlot s t l
  let entry := leBytes 2 n ++ leBytes 1 l ++ leBytes 1 (if park then 1 else 0) ++ leBytes 4 (s.runOf t).id.toNat ++
    leBytes 4 (s.companyOf t).index ++ leBytes 2 (troupeNo t) ++ [0, 0] ++ leBytes 8 (2 ^ 63 + slot) ++
    List.replicate 40 0 ++ block
  let s1 := deviceWriteN s (slot + 8) 8 0
  let s2 := deviceWrite s1 (g.base + 128 * (g.tail % 2 ^ g.cap)) entry
  let s3 := deviceWriteN s2 (g.desc + 4) 4 ((g.tail + 1) % 2 ^ 32)
  deviceWriteN s3 (g.desc + 24) 8 1

/-- Where one post writes. -/
def svcPlaces (s : State) (t l : Nat) (g : Ring) : List (Nat × Nat) :=
  [(svcSlot s t l + 8, 8), (g.base + 128 * (g.tail % 2 ^ g.cap), 128), (g.desc + 4, 4), (g.desc + 24, 8)]
/-- The argument block that a lane's SVC has read, if it has. -/
def svcBlock (s : State) (t l : Nat) (pc : Word) : Option (List Byte) :=
  ((s.troupe t).svcRead.find? fun x => x.1 == l && x.2.1 == pc).map fun x => x.2.2
/-- Each lane's argument block is read once, as the instruction issues, or as soon as it can be read: a store that the troupe issues
later is not seen (R389). -/
def svcReads (c : Ctx) (addr : Nat → Dword) (s : State) : State :=
  (lanes c.act).foldl (fun z l =>
    if (svcBlock z c.t l c.pc).isSome then z
    else match recordBytes z c.t l (addr l) 64 with
    | none => askRecord z c.t l (addr l) 64
    | some bs =>
      let z1 := consume z (.thread c.t l) (some (z.companyOf c.t).run) (addr l) (physOf z c.t l (addr l)) 64
      z1.setTroupe c.t { z1.troupe c.t with svcRead := (l, c.pc, bs) :: (z1.troupe c.t).svcRead }) s
/-- The lanes post in ascending order; the first that cannot keeps every later one STALLED.
DEDUCED, log 51. -/
def svcLanes (c : Ctx) (n : Nat) (park : Bool) (d : Opd) (desc : Nat) : List Nat → State → State × Mask
  | [], s => (s, 0)
  | l :: rest, s =>
    let g := ringOf s desc
    match svcBlock s c.t l c.pc with
    | none => (s, maskOf fun k => (l :: rest).contains k)
    | some block =>
      if g.full || !deviceFree s (svcPlaces s c.t l g) then (s, maskOf fun k => (l :: rest).contains k)
      else
        let s1 := svcPost s c.t l n park g block
        let tr := s1.troupe c.t
        let slot := svcSlot s c.t l
        let th := (tr.thread l).waitAt c.hdr (if lanesWrite c d l then d else .rz) .n64 (.svc slot park)
        let tr1 := { tr.setThread l th with
          svcs := (tr.svcs.filter fun x => x.lane != l) ++ [⟨l, n, slot, park⟩]
          svcRead := tr.svcRead.filter fun x => x.1 != l }
        svcLanes c n park d desc rest (s1.setTroupe c.t tr1)

/-- The lanes of a `.park` issue have posted, but for `left`: with none left the troupe is to be saved (R387).
DEDUCED, log 53. -/
def parkCheck (s : State) (t : Nat) (left : Mask) : State :=
  let tr := s.troupe t
  if left = 0 && tr.pendPre = 0 then s.setTroupe t { tr with pendPre := 3 } else s

/-- What SVC asks of its argument block.
DEDUCED, log 50. -/
def Want.svc : Want := ⟨true, 64, 64, 64, true, false, [0, 1], false⟩

/-- SVC and SVC `.park`. -/
def svcBody (park : Bool) (d base : Opd) (b : Src) (c : Ctx) (s : State) : Res :=
  let nv := fun l => (readSrcZ s c l b 1).setWidth 64
  let addr := fun l => readPair s c l base 0
  if c.idle then .ok s
  else match uniformTrap c nv with
  | some x => .trap s x
  | none =>
    match checkLanes c (lanes c.act) addr fun l => laneCheck s c.t l .svc (addr l) with
    | some x => .trap s x
    | none =>
      let n := (nv c.low).toNat
      match svcRoute s c.t n with
      | none => .trap s { c.trapInfo 0x31 c.act (BitVec.ofNat 64 n) with skip := c.act }
      | some g =>
        if !(arrivalIds s c).isEmpty then .part s c.act (.drain (arrivalIds s c) [])
        else
          let r := svcLanes c n park d g.desc (lanes c.act) (svcReads c addr s)
          let s1 := r.1.mapLanes c.t r.2 fun _ th => { th with st := .stalled, wait := .hazard }
          .ctl (if park then parkCheck s1 c.t r.2 else s1)

def execSvc (h : Hdr) (d base : Opd) (b : Src) (s : State) : Outcome :=
  issue (.svc h d base b) s (svcBody false d base b)
def execSvcPark (h : Hdr) (d base : Opd) (b : Src) (s : State) : Outcome :=
  issue (.svcPark h d base b) s (svcBody true d base b)

/-- SVC_DONE: a nonzero DONE ends the wait of a call that is not parked; the end is an acquire at system scope. -/
def execSvcDone (t l : Nat) (s : State) : Outcome :=
  let tr := s.troupe t
  let th := tr.thread l
  match th.st, th.wait with
  | .waiting, .svc slot park =>
    if park || !(tr.status == .resident || tr.status == .handler) || cleanN s (slot + 8) 8 = 0 then .next s
    else
      let s1 := s.setTroupe t { tr with svcs := tr.svcs.filter fun x => x.lane != l }
      .next (leaveLanes (dropRo s1 tr.stage) t (laneBit l) fun _ => BitVec.ofNat 64 (cleanN s slot 8))
  | _, _ => .next s

/-! ### Control registers (R296, R297, R375) -/

/-- The CSR number an instruction names, if its active threads agree on one. Without active threads, or where they disagree, a number
held in a register is none that PRIV could be checked on.
DESIGN CHOICE, log 144. -/
def csrNumber (s : State) (c : Ctx) (b : Src) : Option Nat :=
  match b with
  | .imm x => some x.toNat
  | .reg _ =>
    let v := fun l => (readSrcZ s c l b 1).setWidth 64
    if c.idle || (uniformTrap c v).isSome then none else some (v c.low).toNat
def handlerCsr (n : Nat) : Bool := 0x100 ≤ n && n < 0x200
/-- CSRs 0x100-0x1FF exist only in the handler (R296). -/
def csrPriv (b : Src) (s : State) (c : Ctx) : Bool :=
  (csrNumber s c b).any fun n => handlerCsr n && (s.troupe c.t).status != .handler

/-- RUNSTAT (Table 19.11). -/
def runstat (s : State) (t : Nat) : Nat :=
  let r := s.runOf t
  let bit (b : Bool) (k : Nat) : Nat := if b then 2 ^ k else 0
  bit (s.companyOf t).mclost 7 + bit r.nonrepro 6 + bit r.launchCap 5 + bit r.urgency 4 + bit r.strict 3 + bit r.determ 2 + r.grain
/-- TAREA: the troupe's block, 0 without a save area. -/
def tarea (s : State) (t : Nat) : Nat := if (s.runOf t).saveSet then 2 ^ 63 + blockOf s t else 0

/-- The value of a CSR; none for a number that no table lists. -/
def csrValue (s : State) (t n : Nat) : Option Word :=
  let tr := s.troupe t
  if n = 0 then some tr.awaitLim
  else if n = 1 then some tr.srState
  else if n = 2 then some tr.srSeed
  else if n = 3 then some (tr.busy.setWidth 32)
  else if n = 4 then some (BitVec.ofNat 32 (runstat s t))
  else if n = 0x100 then some (BitVec.ofNat 32 tr.last.reason)
  else if n = 0x101 then some (BitVec.ofNat 32 tr.last.code)
  else if n = 0x102 then some tr.last.pc
  else if n = 0x103 then some tr.last.mask
  else if n = 0x104 then some (loWord tr.last.val)
  else if n = 0x105 then some (hiWord tr.last.val)
  else if n = 0x106 then some tr.last.bundle
  else if n = 0x107 then some tr.last.skip
  else if n = 0x108 then some (BitVec.ofNat 32 (tarea s t))
  else if n = 0x109 then some (BitVec.ofNat 32 (tarea s t / 2 ^ 32))
  else if 0x120 ≤ n && n < 0x140 then some (frozenOf s t (n - 0x120)).pc
  else if 0x140 ≤ n && n < 0x160 then some (BitVec.ofNat 32 (lstate (frozenOf s t (n - 0x140))))
  else none

/-- DEDUCED, log 15. -/
def execCsrr (h : Hdr) (d : Opd) (b : Src) (s : State) : Outcome :=
  issueP (fun s c => csrPriv b s c) (.csrr h d b) s fun c s =>
    if c.idle then .ok s
    else match uniformTrap c fun l => (readSrcZ s c l b 1).setWidth 64 with
    | some x => .trap s x
    | none =>
      match csrValue s c.t (readSrcZ s c c.low b 1).toNat with
      | none => .trap s (c.trapInfo 0x01 c.act c.pcVal)
      | some v => .ok (writeLate s c (results c false d fun _ => v.setWidth 64))

/-- Lanes whose resume state a handler may change: those of the handler set that are not HELD (R375, R376). -/
def resumable (s : State) (t : Nat) : Mask :=
  maskOf fun l => hasLane (s.troupe t).handlers l && (frozenOf s t l).st != .held
/-- A write of a CSR; none for one that is read-only or that no table lists. -/
def csrWrite (s : State) (t n : Nat) (v : Word) : Option State :=
  let tr := s.troupe t
  let m := resumable s t
  if n = 0 then some (s.setTroupe t { tr with awaitLim := v })
  else if n = 0x107 then
    let skip := (tr.last.skip &&& ~~~m) ||| (v &&& m)
    some (s.setTroupe t { tr with last := { tr.last with skip := skip } })
  else if 0x120 ≤ n && n < 0x140 then
    let l := n - 0x120
    some (if !hasLane m l then s
      else s.setTroupe t { tr with
        frozen := tput tr.frozen l { frozenOf s t l with pc := v }, written := tr.written ||| laneBit l })
  else none

def execCsrw (h : Hdr) (a : Opd) (b : Src) (s : State) : Outcome :=
  issueP (fun s c => csrPriv b s c) (.csrw h a b) s fun c s =>
    if c.idle then .ok s
    else match uniformTrap c (fun l => (readWord s c l a 0).setWidth 64), uniformTrap c fun l => (readSrcZ s c l b 1).setWidth 64 with
    | some x, _ => .trap s x
    | none, some x => .trap s x
    | none, none =>
      match csrWrite s c.t (readSrcZ s c c.low b 1).toNat (readWord s c c.low a 0) with
      | none => .trap s (c.trapInfo 0x01 c.act c.pcVal)
      | some s1 => .ok s1

/-! ### RTT (R298, R376) -/

def notHandler (s : State) (c : Ctx) : Bool := (s.troupe c.t).status != .handler
/-- Return once every thread of the handler set waits at an RTT; a held pre-emption, park or eviction is taken at once. -/
def rttCheck (s : State) (t : Nat) (pc : Word) : State :=
  let tr := s.troupe t
  if tr.handlers != 0 && (lanes tr.handlers).all fun l => (tr.thread l).st == .waiting && (tr.thread l).wait == .rtt then
    let s1 := returnFromHandler (s.setTroupe t { tr with rttPc := pc }) t
    if tr.pendPre = 0 then queueRefills s1 (companyKey t) else enterContext s1 t tr.pendPre
  else s
def execRtt (h : Hdr) (s : State) : Outcome :=
  issueP notHandler (.rtt h) s fun c s =>
    .ctl (rttCheck (s.mapLanes c.t c.act fun _ th => th.waitAt c.hdr .rz .n32 .rtt) c.t c.pc)

/-! ### LAUNCH, GATE, RELEASE (R299-R301) -/

/-- May LAUNCH post into a queue: mapped to the run's partition, able to serve, and not full?
DEDUCED, log 52. -/
def launchable (s : State) (t q : Nat) : Bool :=
  let x := s.queue q
  q < 32 && x.served && x.broken = 0 && x.part == (s.runOf t).part &&
    (cleanN s (x.qcb + 12) 4 + 2 ^ 32 - cleanN s (x.qcb + 24) 4) % 2 ^ 32 < 2 ^ x.capLog2
/-- Where LAUNCH writes: the slot of the next packet, TAIL and NOTIFY. -/
def launchPlaces (s : State) (q : Nat) : List (Nat × Nat) :=
  let x := s.queue q
  [(x.ring + 128 * (cleanN s (x.qcb + 12) 4 % 2 ^ x.capLog2), 128), (x.qcb + 12, 4), (x.qcb + 16, 8)]
/-- Write a packet into its slot, TAIL, then NOTIFY (R344). -/
def launchPacket (s : State) (t q : Nat) (bs : List Byte) : State :=
  let x := s.queue q
  let tail := cleanN s (x.qcb + 12) 4
  let ident := leBytes 4 (s.runOf t).id.toNat ++ leBytes 4 (s.companyOf t).index ++ leBytes 2 (troupeNo t) ++
    (bs.drop 122).take 2 ++ leBytes 4 (s.troupe t).callIdx.toNat
  let packet := bs.take 2 ++ leBytes 2 ((tail + 1) % 2 ^ 16) ++ (bs.drop 4).take 108 ++ ident
  let s1 := deviceWrite s (x.ring + 128 * (tail % 2 ^ x.capLog2)) packet
  let s2 := deviceWriteN s1 (x.qcb + 12) 4 ((tail + 1) % 2 ^ 32)
  deviceWriteN s2 (x.qcb + 16) 8 1

def execLaunch (h : Hdr) (d base : Opd) (b : Src) (s : State) : Outcome :=
  issueP (fun s c => !(s.runOf c.t).launchCap) (.launch h d base b) s fun c s =>
    if c.idle then .ok s
    else match uniformTrap c (fun l => readPair s c l base 0), uniformTrap c fun l => (readSrcZ s c l b 1).setWidth 64 with
    | some x, _ => .trap s x
    | none, some x => .trap s x
    | none, none =>
      let x := readPair s c c.low base 0
      let q := (readSrcZ s c c.low b 1).toNat
      match engineAddr s c.t x 128 128 false with
      | some code => .trap s (c.trapInfo code c.act x)
      | none =>
        if !(arrivalIds s c).isEmpty then .part s c.act (.drain (arrivalIds s c) [])
        else match recordBytes s c.t c.low x 128 with
        | none => .part (askRecord s c.t c.low x 128) c.act .hazard
        | some bs =>
          if !launchable s c.t q then .ok (writeLate (recordsRead s c.t) c (results c false d fun _ => 0))
          else if !deviceFree s (launchPlaces s q) then .part s c.act .hazard
          else
            let s1 := launchPacket s c.t q bs
            let tr := s1.troupe c.t
            let s2 := (s1.setTroupe c.t { tr with callIdx := tr.callIdx + 1 }).updRunOf c.t fun r =>
              { r with launched := r.launched ++ [(q, (s.queue q).epoch, cleanN s ((s.queue q).qcb + 12) 4)] }
            .ok (writeLate (recordsRead s2 c.t) c (results c false d fun _ => 1))

def execGate (h : Hdr) (s : State) : Outcome :=
  issue (.gate h) s fun c s =>
    if (s.runOf c.t).gateOpen then .ok (if c.idle then s else dropRo s (s.troupe c.t).stage)
    else .ctl (s.mapLanes c.t c.act fun _ th => th.waitAt c.hdr .rz .n32 .gate)

def execRelease (h : Hdr) (s : State) : Outcome :=
  issue (.release h) s fun c s =>
    if c.idle then .ok s
    else .ok (s.updCompanyOf c.t fun co => { co with releases := co.releases ++ [arrivalIds s c] })

/-! ### SAVECTX, LOADCTX (R302) -/

/-- Does the troupe save or restore its company's junctions (R379, R380, R383)? -/
def junctAllowed (s : State) (t : Nat) (load : Bool) : Bool :=
  let tr := s.troupe t
  let co := s.companyOf t
  if load then tr.last.reason = 2 && co.offCore &&
    (if co.preempted then troupeNo t = 0
     else (troupesOf s (companyKey t)).all fun u =>
       let x := s.troupe u
       x.status != .handler || !x.context || x.last.reason != 2 || tr.entryId ≤ x.entryId)
  else if tr.last.reason = 1 then troupeNo t = 0
  else residentOf s (companyKey t) == [t]
/-- Only the context handler may use them, and `.junct` only one troupe. -/
def ctxPriv (part : CtxPart) (load : Bool) (s : State) (c : Ctx) : Bool :=
  let tr := s.troupe c.t
  !(tr.status == .handler && tr.context) || (part == .junct && !junctAllowed s c.t load)
/-- Bytes of a part (Table 19.12). -/
def partBytes (part : CtxPart) : Nat :=
  match part with
  | .thread => 2048
  | .troupe => 256
  | .junct => 50688

/-- The area's checks, then the part. -/
def ctxArea (c : Ctx) (s : State) (base : Opd) (part : CtxPart) (writes : Bool) (k : Nat → Res) : Res :=
  if c.idle then .ok s
  else match uniformTrap c fun l => readPair s c l base 0 with
  | some x => .trap s x
  | none =>
    let x := readPair s c c.low base 0
    match engineAddr s c.t x 256 (partBytes part) writes with
    | some code => .trap s (c.trapInfo code c.act x)
    | none => k (physOf s c.t c.low x)

/-- What SAVECTX writes, part by part: offsets and bytes. -/
def ctxImages (s : State) (t : Nat) (part : CtxPart) : List (Nat × List Byte) :=
  match part with
  | .thread => [(0, threadImage s t)]
  | .troupe => [(0, troupeImage (s.troupe t)), (2048, operandImage s (s.troupe t))]
  | .junct => [(0, junctionImage (s.companyOf t))]
/-- SAVECTX: the thread stands at it until its stores may be performed, and they are performed with it. -/
def execSavectx (h : Hdr) (part : CtxPart) (base : Opd) (s : State) : Outcome :=
  issueP (ctxPriv part false) (.savectx h part base) s fun c s =>
    ctxArea c s base part true fun a =>
      let ws := (ctxImages s c.t part).map fun w => (a + w.1, w.2)
      if (part == .troupe && saveHeld s c.t) || !deviceFree s (ws.map fun w => (w.1, w.2.length)) then .part s c.act .hazard
      else .ok (ws.foldl (fun z w => deviceWrite z w.1 w.2) s)

/-- A LOADCTX that fails ends a restore (R384); in another entry a damaged image traps ILLOP. -/
def loadFails (s : State) (c : Ctx) : Res :=
  if (s.troupe c.t).last.reason = 2 then .gone (restoreFails s (companyKey c.t))
  else .trap s (c.trapInfo 0x01 c.act c.pcVal)
def execLoadctx (h : Hdr) (part : CtxPart) (base : Opd) (s : State) : Outcome :=
  issueP (ctxPriv part true) (.loadctx h part base) s fun c s =>
    ctxArea c s base part false fun a =>
      let bytes := cleanBytes s a (partBytes part)
      if !deviceMayRead s ((a, partBytes part) :: if part == .troupe then [(a + 2048, 65536)] else []) then .part s c.act .hazard
      else match part with
      | .thread => match loadThreads s c.t bytes with
        | some s1 => .ok s1
        | none => loadFails s c
      | .troupe => match loadTroupe s c.t bytes (cleanBytes s (a + 2048) 65536) with
        | .ok s1 => .ok s1
        | .error _ => loadFails s c
      | .junct => match loadJunctions s (companyKey c.t) bytes with
        | some s1 => .ok s1
        | none => loadFails s c

end Sys2Proof.Machine
end

