-- ==== Sys2Proof/Machine/Engines.lean ====
section
/-! DEFINITION. The events of the streamers and the end of a recompute: chunks land, copies complete, waypoints are updated,
collectives move, counters fall, and a tile that has been recomputed serves those that wait for it (09_engines.md R120-R129;
11_derived.md R138, R140, R141; 19_engine_system_instructions.md R286-R288; 25_traps.md R385; 27_host_fabric.md R401, R403;
29_translation.md R407, R415, R416). -/

namespace Sys2Proof.Machine

open Sys2Proof

def copyById (s : State) (id : Nat) : Option Copy := s.copies.find? fun c => c.id == id
def setCopy (s : State) (c : Copy) : State := { s with copies := s.copies.map fun x => if x.id = c.id then c else x }
def setChunk (s : State) (c : Copy) (i : Nat) (k : Chunk) : State := setCopy s { c with chunks := c.chunks.set i k }
/-- Run an event on a copy. -/
def onCopy (s : State) (id : Nat) (f : State → Copy → State) : Outcome :=
  match copyById s id with
  | some c => .next (f s c)
  | none => .next s

/-! ### Presence (R124) -/

/-- A held access is performed, from the start, as its P bits are set (R431). -/
def release (s : State) (id : Nat) : State :=
  match accById s id with
  | some a => if a.st == .heldP then
      performAny false (setAcc s { a with st := .queued }) { a with st := .queued } else s
  | none => s
/-- Set the P bits of lines: accesses held on nothing else are performed at that point, in the order of their issue. -/
def setPresent (s : State) (ls : List Nat) : State :=
  if ls.isEmpty then s
  else
    let s1 := { s with pclear := s.pclear.filter fun x => !ls.contains x.1 }
    ((s1.accs.filter fun a => a.st == .heldP && !anyAbsent s1 (touchRanges s1 a)).map Access.id).foldl release s1
/-- Lines recorded for a copy or collective. -/
def linesOfCopy (s : State) (id : Nat) : List Nat := (s.pclear.filter fun x => x.2 = id + 1).map Prod.fst

/-! ### Parked groups of COPYL (R128, R416) -/

def XState.faulting (x : XState) : Bool :=
  match x with
  | .fault | .reported _ | .unreported _ _ | .posting _ | .pageWait | .pageAsked _ _ | .failed => true
  | .atsAsked | .resolved => false
/-- Does a run of bytes meet the page of a request? -/
def Xreq.meets (q : Xreq) (va : Dword) (n : Nat) : Bool :=
  isHostVa va == q.host && (pageOfVa va == q.page || pageOfVa (va + BitVec.ofNat 64 (n - 1)) == q.page)
/-- The address of a chunk that a request stands for. -/
def Chunk.asks (k : Chunk) (q : Xreq) : Option Dword :=
  let at' (va : Dword) : Option Dword :=
    if !q.meets va k.len then none
    else if pageOfVa va == q.page then some va
    else some (BitVec.ofNat 64 (4096 * q.page + if q.host then 2 ^ 56 else 0))
  match q.write, k.src, k.dst with
  | false, .glob va, _ => at' va
  | true, _, .glob vb => at' vb
  | _, _, _ => none
/-- The address of a copy that a request stands for. -/
def reqAddr (c : Copy) (q : Xreq) : Dword :=
  (c.chunks.findSome? fun k => if k.done then none else k.asks q).getD
    (BitVec.ofNat 64 (4096 * q.page + if q.host then 2 ^ 56 else 0))
/-- A faulting lane leaves its bundle and is parked at the COPYL, where it stands. -/
def parkLane (s : State) (c : Copy) (l : Nat) (va : Dword) : State :=
  (setCopy s { c with parked := true, stands := false }).mapLanes c.t (laneBit l) fun _ th =>
    { th with st := .ready, wait := .none, group := some va }
/-- Every lane that stands at a COPYL and whose translation faults parks.
DEDUCED, log 44. -/
def parkLanes (s : State) : State :=
  s.copies.foldl (fun z c =>
    match c.lane, s.xreqs.find? fun q => q.copy == c.id && q.st.faulting with
    | some l, some q => if c.stands then parkLane z c l (reqAddr c q) else z
    | _, _ => z) s
/-- A lane goes on from its COPYL once its request's global bytes have moved. -/
def passCopyl (s : State) (id : Nat) : State :=
  match copyById s id with
  | none => s
  | some c =>
    match c.lane with
    | some l =>
      if c.stands && !c.moving then (setCopy s { c with stands := false }).mapLanes c.t (laneBit l) fun _ th =>
        if th.st == .stalled && th.wait == .translation then th.advance th.info.hdr else th
      else s
    | none => s

/-- The parked requests of a troupe's group, that of one issue of COPYL: while the troupe is in HANDLER, only one issued there. -/
def groupCopies (s : State) (t g : Nat) : List Copy :=
  let tr := s.troupe t
  s.copies.filter fun c => c.t == t && c.parked && c.grp == g &&
    (tr.status == .resident || (tr.status == .handler && tr.entryId ≤ c.id))
/-- The group's fate, once no lane of its issue stands at the COPYL any more and every lane's fault is resolved or has failed. A
trap's value is the failing address of the lowest lane with one (R416). -/
def settleGroup (s : State) (t g : Nat) : State :=
  let tr := s.troupe t
  let cs := groupCopies s t g
  let m := maskOf fun l => (tr.thread l).group.isSome && cs.any fun c => c.lane == some l
  let reqs := s.xreqs.filter fun q => cs.any fun c => c.id == q.copy
  if m = 0 || s.copies.any (fun c => c.t == t && c.stands && c.grp == g) || reqs.any (fun q => q.st.pending) then s
  else
    let failed := cs.filter fun c => reqs.any fun q => q.copy == c.id && q.st == .failed
    let low := lowLane (maskOf fun l => failed.any fun c => c.lane == some l)
    let val := ((failed.find? fun c => c.lane == some low).bind fun c =>
      (reqs.find? fun q => q.copy == c.id && q.st == .failed).map (reqAddr c)).getD 0
    let pc := (cs.head?.map Copy.pc).getD 0
    let ids := cs.map Copy.id
    let s1 := { s with
      copies := s.copies.filter fun c => !ids.contains c.id
      xreqs := s.xreqs.filter fun q => !ids.contains q.copy }
    let s2 := s1.mapLanes t m fun _ th => { th with group := none }
    if failed.isEmpty then addBundle s2 t m
    else takeTrap (setPresent s2 (ids.flatMap fun i => linesOfCopy s2 i)) t ⟨0, 0x1A, pc, m, val, m, 0, none⟩
def settleGroups (s : State) : State :=
  let z := parkLanes s
  ((z.copies.filter fun c => c.parked).map fun c => (c.t, c.grp)).eraseDups.foldl (fun z x => settleGroup z x.1 x.2) z

/-! ### Chunks (R125, R129, R145, R385) -/

/-- Does a chunk wait behind an earlier page of its record that faults (R415)? -/
def faultBefore (s : State) (c : Copy) (i : Nat) : Bool :=
  (s.xreqs.filter fun q => q.copy == c.id && q.st != .resolved).any fun q =>
    (c.chunks.take i).any fun k => !k.done && (k.asks q).isSome
/-- Does a write to host memory wait for one of its record at a lower address (R420)? -/
def hostBefore (c : Copy) (k : Chunk) : Bool :=
  let host (x : Chunk) : Option Nat :=
    match x.dst with
    | .glob va => if isHostVa va then some (bitsOf va 55 0) else none
    | _ => none
  (host k).any fun p => c.chunks.any fun x => !x.done && (host x).any fun q => q < p

/-- The device-local address of an offset of a remote device. -/
def remoteAddr (dev off : Nat) : Dword := BitVec.ofNat 64 (2 ^ 63 + 4 * 2 ^ 56 + 2 ^ 34 * dev + off)
/-- A transfer of a streamer with a remote device that is refused, or finds no route: counted and logged (R87, R399). -/
def transferFails (s : State) (t port cause dev off : Nat) : State :=
  logError (countRemoteError s (s.troupe t).stage) port cause (skid s) 0 (remoteAddr dev off)
/-- The packet of a streamer's transfer with a remote device: a PLAIN access of at most 8 bytes (R401).
DESIGN CHOICE, log 86. -/
def transferReq (s : State) (t dev off link : Nat) (op : AOp) (n : Nat) (bs : List Byte) (tag : Nat) : SkReq :=
  ⟨skid s, dev, link, 1, op, 0, remoteAddr dev off, n, BitVec.ofNat 64 (leNat bs), 0, false, t, 0, tag⟩
/-- A chunk's packets leave for a device on a link, for the first time or again after a hint (R417): one for each aligned 8-byte part
of what is read. -/
def sendChunk (s : State) (c : Copy) (i : Nat) (k : Chunk) (dev off l : Nat) (op : AOp) (bs : List Byte) : State :=
  let n1 := min k.len (8 - off % 8)
  let parts := if op == .load && n1 < k.len then [(off, n1), (off + n1, k.len - n1)] else [(off, k.len)]
  let z := setChunk s c i { k with
    sent := if k.sent = 0 then s.wall + 1 else k.sent, last := s.wall, link := l, again := 0, cut := false
    early := if op == .load then none else some bs }
  { z with out := z.out ++ parts.map fun p => .skason l (transferReq s c.t dev p.1 l op p.2 bs c.id) }
/-- Is a chunk to be sent: it has not been, or a retry-after hint has lapsed? -/
def Chunk.due (k : Chunk) (wall : Nat) : Bool := k.sent = 0 || (k.again != 0 && k.again ≤ wall)

/-- The bytes at a place of a copy's source: those already taken, and the others as they stand. An aligned 8-byte part that the run
covers only partly is taken whole (R316). -/
def takeBytes (s : State) (c : Copy) (a n : Nat) : State × List Byte :=
  let has (p : Nat) : Bool := c.taken.any fun x => x.1 == p
  let fresh := ((List.range n).map fun k => a + k).filter fun p => !has p
  let z := consumeParts s c.t (fresh.map fun p => (p, 1))
  let cut := (fresh.map fun p => p / 8).eraseDups.filter fun p => 8 * p < a || a + n < 8 * p + 8
  let more := (cut.flatMap fun p => (List.range 8).map fun j => 8 * p + j).filter fun p => !has p && staleHit s p 1 = []
  (setCopy z { c with taken := more.foldl (fun m p => tput m p (cleanByte s p)) c.taken },
    (List.range n).map fun k => tget c.taken (cleanByte s (a + k)) (a + k))
/-- What of a copy's source at a place has still to be read. -/
def untaken (c : Copy) (a n : Nat) : List (Nat × Nat) :=
  ((List.range n).filter fun k => !c.taken.any fun x => x.1 == a + k).map fun k => (a + k, 1)

/-- A host read's reply: none before the request has left, and of a poisoned completion zero (R391, Table 31.4). With ATS disabled the
request goes Untranslated (R413). -/
def hostBytes (s : State) (c : Copy) (i : Nat) (k : Chunk) (pa : Nat) (data : Payload) : State × Option (List Byte) :=
  if k.sent = 0 then
    let z := setChunk s c i { k with sent := s.wall + 1 }
    ({ z with out := z.out ++ [.memRead s.ports.atsEn (xctxOf s c.t).pasid pa k.len] }, none)
  else if data.bytes.length != k.len then (s, none)
  else if data.bad then
    (postRunError (logError s 0 7 0 0 0) (s.companyOf c.t).run 13, some (List.replicate k.len 0))
  else (s, some data.bytes)

/-- The bytes of a chunk's source: read ahead, or read now; none while it waits. `data` is what a host or another module sent. -/
def sourceBytes (s : State) (c : Copy) (i : Nat) (k : Chunk) (data : Payload) : State × Option (List Byte) :=
  match k.early with
  | some bs => (s, some bs)
  | none =>
    if c.after.any fun i => !accDone s i then (s, none)
    else match k.src with
    | .zero => (s, some (List.replicate k.len 0))
    | .phys a =>
      let need := untaken c a k.len
      if (engineStale s need).any (fun x =>
          (s.tile x.1 x.2).g1.contains (.engine c.t c.id) || (s.tile x.1 x.2).g2.contains (.engine c.t c.id)) then (s, none)
      else if engineStale s need != [] then (engineAsk s (engineStale s need) (.engine c.t c.id), none)
      else if !engineMayRead s need then (s, none)
      else
        let r := takeBytes s c a k.len
        (r.1, some r.2)
    | .glob va =>
      let n1 := min k.len (4096 - va.toNat % 4096)
      let r := translate s c va false
      let r2 := if n1 = k.len then r else match r.2 with
        | none => r
        | some _ => translate r.1 c (va + BitVec.ofNat 64 n1) false
      match r.2, r2.2 with
      | some pa, some pb =>
        if isHostVa va then hostBytes r2.1 c i k pa data
        else
          let x := takeBytes r2.1 c (g7Addr pa) n1
          if n1 = k.len then (x.1, some x.2)
          else
            let y := takeBytes x.1 ((copyById x.1 c.id).getD c) (g7Addr pb) (k.len - n1)
            (y.1, some (x.2 ++ y.2))
      | _, _ => (r2.1, none)
    | .remote dev off =>
      match routeLink s dev off with
      | none => (transferFails s c.t 18 11 dev off, some (List.replicate k.len 0))
      | some l =>
        if k.due s.wall then (sendChunk s c i k dev off l .load [], none)
        else (s, if k.again = 0 && data.bytes.length = k.len then some data.bytes else none)

/-- A chunk's bytes at their destination: none while it waits, else the pre-empted company, if any, that loses them (R385). A write to
a remote device waits until that has performed it (R402). -/
def landBytes (s : State) (c : Copy) (i : Nat) (k : Chunk) (bs : List Byte) : State × Option (Option Nat) :=
  match k.dst with
  | .skip => (s, some none)
  | .phys a =>
    match lostAt s c.cast a with
    | some co => (loseDelivery s co, some (some co))
    | none =>
      if inDerived s a k.len then (bump s (sliceCounter (countSlice s a) 0x0C) 1, some none)
      else if k.held then
        (if !marksOver s k.marks then (s, none) else (homeWrite s .device a bs, some none))
      else if lineClosed s 0 [(a, k.len)] then (s, none)
      else
        let ms := if anyWatched s [(a, k.len)] then marksOf s [(a, k.len)] else []
        if ms.isEmpty then (homeWrite s .device a bs, some none)
        else
          let sm := sendMarks s ms 0 (some (c.id, i)) 0
          (setChunk sm.1 c i { k with marks := sm.2, held := true, early := some bs }, none)
  | .glob va =>
    let r := translate s c va true
    match r.2 with
    | none => (r.1, none)
    | some pa =>
      if isHostVa va then
        (if hostBefore c k then (s, none)
         else ({ r.1 with out := r.1.out ++ [.memWrite r.1.ports.atsEn (xctxOf s c.t).pasid pa bs] }, some none))
      else (homeWrite r.1 .device (g7Addr pa) bs, some none)
  | .remote dev off =>
    match routeLink s dev off with
    | none => (transferFails s c.t 18 11 dev off, some none)
    | some l => (if k.due s.wall then sendChunk s c i k dev off l .store bs else s, none)

/-- A byte update or an arrival sets out for a waypoint. -/
def addUpd (s : State) (w : WpRef) (bytes : Nat) (arrival : Bool) (copy : Nat) : State :=
  { s with
    upds := s.upds ++ [⟨s.nextId, w.addr, some w.gen, bytes, arrival, [], copy, 0, none, none, none⟩]
    nextId := s.nextId + 1 }

/-- The bytes have been performed, or lost with company `lost`: then P of the lines this was the last chunk of, then the waypoint.
The update of a lost delivery is lost and counted too (R385). A record that has ended makes no further update (R415). -/
def chunkDone (s : State) (id i : Nat) (lost : Option Nat) : State :=
  match copyById s id with
  | none => s
  | some c =>
    match c.chunks[i]? with
    | none => s
    | some k =>
      let k1 := { k with done := true, marks := [], held := false, early := none, lost := lost, sent := 0, again := 0 }
      let c1 := { c with chunks := c.chunks.set i k1 }
      let ls := (pieceLines [k]).filter fun l =>
        tget s.pclear 0 l == id + 1 && c1.chunks.all fun x => x.done || !(pieceLines [x]).contains l
      let s1 := setPresent (setCopy s c1) ls
      match c.ended, c.wps[k.target]?, lost with
      | false, some (some w), none => addUpd s1 w k.len false id
      | false, some (some _), some co => loseDelivery s1 co
      | _, _, _ => s1

/-- A chunk lands, once its source's bytes are there; bytes that have been read stay read. -/
def landChunk (s : State) (c : Copy) (i : Nat) (k : Chunk) (data : Payload) : State :=
  let r := sourceBytes s c i k data
  match r.2, copyById r.1 c.id with
  | some bs, some c1 =>
    let k1 : Chunk := { k with early := some bs, sent := if k.early.isNone then 0 else k.sent }
    let z := setChunk r.1 c1 i k1
    let w := landBytes z { c1 with chunks := c1.chunks.set i k1 } i k1 bs
    match w.2 with
    | none => settleGroups w.1
    | some lost => chunkDone w.1 c.id i lost
  | _, _ => settleGroups r.1
/-- Does a chunk of a record wait: behind a page that faults, or with the whole record? What has been sent goes on (R415). -/
def chunkWaits (s : State) (c : Copy) (i : Nat) (k : Chunk) : Bool :=
  k.done || !k.held && (c.ended || c.parked || faultBefore s c i)
/-- COPY_CHUNK_LANDING. -/
def execCopyChunkLanding (c i : Nat) (data : Payload) (s : State) : Outcome :=
  onCopy s c fun s cp =>
    match cp.chunks[i]? with
    | none => s
    | some k => if chunkWaits s cp i k then s else passCopyl (landChunk s cp i k data) c

/-- Why a remote device, or the way to it, refuses a transfer: its link had gone down for 1 ms (11), the hop limit (12), else the
device (10), which refuses for good one that it has put off with hints for 10 ms (R401, R417). None while it does not. -/
def refusalCause (s : State) (k : Chunk) (cause : Nat) : Option Nat :=
  if k.sent = 0 then none
  else if k.again != 0 then (if k.sent + 10000000 ≤ s.wall then some 10 else none)
  else if k.cut then (if k.last + 1000000 ≤ s.wall then some 11 else none)
  else some (if cause = 12 then 12 else 10)
/-- Where a chunk's transfer goes: a read while its source is still to come, else the write. -/
def Chunk.transfer (k : Chunk) : Option (Nat × Nat) :=
  match k.early, k.src, k.dst with
  | none, .remote dev off, _ => some (dev, off)
  | some _, _, .remote dev off => some (dev, off)
  | _, _, _ => none
/-- Run a move on a chunk that a transfer with a remote device is out for. -/
def onTransfer (s : State) (id i : Nat) (f : Copy → Chunk → Nat → Nat → State) : State :=
  match copyById s id with
  | none => s
  | some cp =>
    match cp.chunks[i]? with
    | none => s
    | some k =>
      match k.transfer with
      | some (dev, off) => if k.done || k.sent = 0 then s else f cp k dev off
      | none => s
/-- A streamer's transfer with a remote device is refused: zero is taken for what was to be read, and what was to be written is
dropped (R87). -/
def transferRefused (id i cause : Nat) (s : State) : State :=
  onTransfer s id i fun cp k dev off =>
    match refusalCause s k cause with
    | none => s
    | some why =>
      let z := transferFails s cp.t (k.link + 1) why dev off
      match k.early with
      | none => setChunk z cp i { k with early := some (List.replicate k.len 0), sent := 0, again := 0, cut := false }
      | some _ => chunkDone z id i none
/-- It has performed a write. -/
def transferDone (id i : Nat) (s : State) : State :=
  onTransfer s id i fun _ k _ _ => if k.early.isSome && k.again = 0 then chunkDone s id i none else s
/-- It refuses a transfer for now, with a hint (R417). -/
def transferRetry (id i : Nat) (s : State) : State :=
  onTransfer s id i fun cp k _ _ =>
    if k.again != 0 then s
    else { setChunk s cp i { k with again := s.wall + 1000 * (1 + Config.retryHint s.picks % 255) } with picks := s.picks + 1 }

/-- A streamer reads a device-local source ahead of the landing (R316). -/
def copyRead (s : State) (c i : Nat) : State :=
  match copyById s c with
  | none => s
  | some cp =>
    match cp.chunks[i]? with
    | none => s
    | some k =>
      match k.src with
      | .phys _ =>
        if k.done || cp.ended || cp.parked || k.early.isSome then s
        else
          let r := sourceBytes s cp i k ⟨[], false⟩
          match r.2, copyById r.1 c with
          | some bs, some c1 => setChunk r.1 c1 i { k with early := some bs }
          | _, _ => r.1
      | _ => s

/-- COPY_COMPLETION: every byte has landed, and one arrival is made at each waypoint: those of a CAST's targets together, once all its
deliveries are over. The arrival of a delivery that was dropped is dropped and counted too (R129, R385).
DESIGN CHOICE, log 140. -/
def execCopyCompletion (c : Nat) (s : State) : Outcome :=
  onCopy s c fun s cp =>
    if cp.ended || cp.parked || cp.stands || cp.chunks.any (fun k => !k.done) || s.upds.any fun u => u.copy == c then s
    else
      let s1 := setCopy s { cp with ended := true }
      (cp.wps.zipIdx).foldl (fun z w =>
        match w.1, (cp.chunks.filter fun k => k.target == w.2).findSome? Chunk.lost with
        | some p, none => addUpd z p 0 true c
        | some _, some co => loseDelivery z co
        | none, _ => z) s1

/-- The run that a step on a waypoint belongs to. -/
def updRun (s : State) (u : WpUpd) : Option Nat :=
  let t := (u.who.map Prod.fst).orElse fun _ => ((copyById s u.copy).map Copy.t).orElse fun _ =>
    (s.colls.find? fun c => c.id == u.copy).map Coll.t
  t.map fun t => (s.companyOf t).run
/-- What a step on a waypoint does at its home. It consumes a poisoned part that it reads (R424). -/
def stepWaypoint (s0 : State) (u : WpUpd) : State :=
  let s := consumeFor s0 (updRun s0 u) [(u.addr, if u.init.isSome then 4 else 16)]
  match u.init with
  | some (b, cc) => wpInit s ((u.who.map fun w => Who.bundle w.1 w.2).getD .device) u.addr b cc
  | none => wpUpdate s .device u.addr u.gen u.bytes u.arrival u.run
/-- WAYPOINT_UPDATE: a step that has reached its waypoint's home, WPINIT's too. It is dropped and counted in a pre-empted company's
memory (R385) and in a derived range (R145), and on a watched line it is held for its stale marks (R74, R138).
DEDUCED, log 34. -/
def execWaypointUpdate (k : Nat) (s : State) : Outcome :=
  match s.upds.find? fun u => u.id == k with
  | none => .next s
  | some u =>
    let s1 := { s with upds := s.upds.filter fun x => x.id != k }
    if u.after.any (fun i => !accDone s i) then .next s
    else match u.marks with
    | some ids => if marksOver s ids then .next (stepWaypoint s1 u) else .next s
    | none =>
      if lineClosed s 0 [(u.addr, 16)] then .next s
      else match lostAt s1 ((copyById s1 u.copy).any Copy.castWp) u.addr with
      | some co => .next (loseDelivery s1 co)
      | none =>
        if inDerived s u.addr 16 then .next (bump s1 (sliceCounter (countSlice s u.addr) 0x0C) 1)
        else
          let ms := if anyWatched s [(u.addr, 16)] then marksOf s [(u.addr, 16)] else []
          if ms.isEmpty then .next (stepWaypoint s1 u)
          else
            let sm := sendMarks s ms 0 none 0
            .next { sm.1 with upds := sm.1.upds.map fun x => if x.id = k then { x with marks := some sm.2 } else x }

/-! ### What tiles serve (R140, R141) -/

/-- A tile serves some ranges: their bytes that lie in it are taken as they stand, poison consumed. -/
def serveBytes (s : State) (t : Nat) (x : Nat × Nat) (rs : List (Nat × Nat)) (m : Table Byte) : State × Table Byte :=
  let e := s.entry x.1
  let ps := (rs.flatMap fun r => (List.range r.2).map fun k => r.1 + k).filter fun p =>
    e.tileOf p == some x.2 && !m.any fun y => y.1 == p
  (consumeParts s t (ps.map fun p => (p, 1)),
    ps.foldl (fun m p => tput m p (cleanByte s p)) m)
/-- Ranges of a copy's source that are still to be read. -/
def copyWants (c : Copy) : List (Nat × Nat) :=
  c.chunks.filterMap fun k => match k.src with
    | .phys a => if k.done || k.early.isSome then none else some (a, k.len)
    | _ => none
/-- A tile has served a waiter: a load is performed once no group holds it; of an engine's reads the tile's bytes are taken; a recompute
may resume, and asks for the tile again where a mark has made it STALE in the meantime (R139).
DEDUCED, log 147. -/
def serve (s : State) (e tile : Nat) (w : Waiter) : State :=
  match w with
  | .access id =>
    if waitsTile s w then s
    else match accById s id with
    | some a => if a.st != .derived then s
      else if afterOk s a then loadHere s { a with st := .queued } [] else setAcc s { a with st := .queued }
    | none => s
  | .recompute e' t' =>
    let k := (s.entry e').home
    let sl := s.slice k
    s.setSlice k { sl with waiting := sl.waiting.map fun r =>
      if r.e = e' && r.tile = t' && r.asked.head? == some (e, tile) then
        { r with ready := true, asked := if isFresh s (e, tile) then r.asked.tail else r.asked } else r }
  | .engine t 0 =>
    let r := serveBytes s t (e, tile) (s.troupe t).recAsked (s.troupe t).recServed
    r.1.setTroupe t { r.1.troupe t with recServed := r.2 }
  | .engine t id =>
    match opOf (s.troupe t) id, copyById s id with
    | some o, _ =>
      let r := serveBytes s t (e, tile) o.reads o.taken
      let o1 := { o with taken := r.2 }
      let z := setOp r.1 t o1
      if !waitsTile s w && engineMayRead s o1.untaken then engineTake z t o1 else z
    | none, some c =>
      if c.ended || c.parked then s
      else
        let r := serveBytes s c.t (e, tile) (copyWants c) c.taken
        setCopy r.1 { c with taken := r.2 }
    | none, none => s

/-- RECOMPUTE_END: the tile is written, its state changes, and its group is served (Table 11.6). The writes wait while a line of
theirs is closed. -/
def execRecomputeEnd (k : Nat) (s : State) : Outcome :=
  match (s.slice k).current with
  | none => .next s
  | some r =>
    let e := s.entry r.e
    if !r.reads.isEmpty || heldClosed s 0 (e.tileRanges r.tile) then .next s
    else
      let s1 := s.setSlice k { s.slice k with current := none }
      let s2 := (recomputeWrites s1 e r).foldl (fun z w => homeWrite z (if e.isMx then .unit else .device) w.1 w.2) s1
      let s3 := bump s2 (sliceCounter k 0x14) 1
      let x := s3.tile r.e r.tile
      let s4 := match x.st, x.g2 with
        | .dirty, [] => s3.setTile r.e r.tile ⟨.stale, [], []⟩
        | .dirty, g2 => queueTile (s3.setTile r.e r.tile ⟨.busy, g2, []⟩) r.e r.tile false
        | _, _ => s3.setTile r.e r.tile ⟨.fresh, [], []⟩
      .next (x.g1.foldl (fun z w => serve z r.e r.tile w) s4)

/-! ### Counters (R120) -/

/-- Is a chunk's write on its way: held for its marks, or sent to another device? -/
def Chunk.out (k : Chunk) : Bool := !k.done && (k.held || (k.sent != 0 && k.early.isSome && k.transfer.isSome))
/-- Has an engine operation come to its end? Its writes have been performed (R316). -/
def opEnded (s : State) (o : EngOp) : Bool :=
  match o.kind with
  | .copies ids => ids.all fun i =>
      (s.copies.all fun c => c.id != i || (c.ended || c.parked) && !c.chunks.any Chunk.out) && (s.colls.all fun c => c.id != i || c.ended) &&
        s.upds.all fun u => u.copy != i
  | .remote ids => ids.all fun i => accDone s i
  | _ => false
/-- Forget what an operation named, parked requests aside. -/
def forgetCopies (s : State) (o : EngOp) : State :=
  match o.kind with
  | .copies ids => { s with
      copies := s.copies.filter fun c => !ids.contains c.id || c.parked
      colls := s.colls.filter fun c => !ids.contains c.id }
  | _ => s
/-- ENGINE_COUNTER_FALL: the oldest operation of a class reports. -/
def execEngineCounterFall (t : Nat) (cls : Eng) (s : State) : Outcome :=
  match (s.troupe t).ops.find? fun o => o.cls == cls with
  | none => .next s
  | some o => .next (if opEnded s o then dropOp (forgetCopies s o) t o.id else s)

/-! ### Collectives (R288, R403) -/

def setColl (s : State) (c : Coll) : State := { s with colls := s.colls.map fun x => if x.id = c.id then c else x }
/-- Physical address of DST and SRC. -/
def collDst (s : State) (c : Coll) : Nat := physOf s c.t 0 (collRec c.bytes).dst
def collSrc (s : State) (c : Coll) : Nat := physOf s c.t 0 (collRec c.bytes).src
/-- Combine one element of ETYPE by ROP. -/
def collCombine (r : CollRec) (a b : Nat) : Nat :=
  let op : AOp := if r.rop = 0 then .add else if r.rop = 1 then .min else .max
  match r.etype with
  | 0 => combineN op 0 4 a b 0
  | 1 => combineN op 1 4 a b 0
  | 2 => combineN op 0 8 a b 0
  | 3 => combineN op 1 8 a b 0
  | 8 => combineN op 2 4 a b 0
  | _ => combineN op 3 2 a b 0
/-- The reduction of equal runs of bytes, in rank order. -/
def collReduce (r : CollRec) (parts : List (List Byte)) (len : Nat) : List Byte :=
  let e := etypeBytes r.etype
  (List.range (len / e)).flatMap fun k =>
    let at' (p : List Byte) : Nat := leNat ((p.drop (e * k)).take e)
    match parts with
    | [] => []
    | p :: rest => leBytes e (rest.foldl (fun x q => collCombine r x (at' q)) (at' p))
/-- Bytes of a reduced block that a rank owns (R403). -/
def collOwned (r : CollRec) (rank : Nat) : Nat × Nat :=
  (rank * r.count / r.nranks * etypeBytes r.etype, (rank + 1) * r.count / r.nranks * etypeBytes r.etype)
/-- Is the byte at an offset of the collective's data in a slice that this rank owns and reduces? A reduce-scatter's data are
its NRANKS blocks, one after the other. -/
def collOwn (r : CollRec) (off : Nat) : Bool :=
  r.op ≥ 2 && r.nranks > 1 && (collOwned r r.rank).1 ≤ off % r.block && off % r.block < (collOwned r r.rank).2
/-- Does this rank's own SRC give the byte? -/
def collLocal (r : CollRec) (off : Nat) : Bool :=
  r.nranks = 1 || (r.op = 0 && r.rank = r.root) || (r.op = 1 && off / r.block = r.rank)
/-- The bytes of the collective's data. -/
def collSpan (r : CollRec) : Nat := if r.op = 2 then r.nranks * r.block else r.dstBytes
/-- Does the byte land in this rank's DST, and where? -/
def collLands (r : CollRec) (off : Nat) : Option Nat :=
  if r.op = 2 then (if off / r.block = r.rank then some (off % r.block) else none) else some off
/-- The ranks that this rank sends the bytes to (R403): its own block of a broadcast or an all-gather, its own slice of an
all-reduce to every peer, and of a reduce-scatter to the rank whose block it is. -/
def collSends (r : CollRec) (off : Nat) : List Nat :=
  let peers := (List.range r.nranks).filter fun q => q != r.rank
  if r.nranks ≤ 1 then []
  else match r.op with
  | 0 => if r.rank = r.root then peers else []
  | 1 => if collLocal r off then peers else []
  | 2 => if collOwn r off && off / r.block != r.rank then [off / r.block] else []
  | _ => if collOwn r off then peers else []

/-- What lands at an offset: this rank's own SRC; a slice reduced from the peers' inputs, which `data` gives in rank order; or
the bytes a peer sent. -/
def collBytes (s : State) (c : Coll) (off : Nat) (data : List Byte) : State × List Byte :=
  let r := collRec c.bytes
  let src := collSrc s c
  let eat (a n : Nat) : State := consume s .device (some (s.companyOf c.t).run) r.src a n
  if collLocal r off then
    let a := src + if r.op = 1 then off % r.block else off
    (eat a data.length, cleanBytes s a data.length)
  else if collOwn r off then
    let len := data.length / (r.nranks - 1)
    let mine := cleanBytes s (src + off) len
    let peer (q : Nat) : List Byte := (data.drop (len * q)).take len
    (eat (src + off) len, collReduce r ((List.range r.nranks).map fun q =>
      if q = r.rank then mine else peer (if q < r.rank then q else q - 1)) len)
  else (s, data)
/-- Does a peer's record, as its transfer names it, contradict this rank's (R288)? -/
def collContradicts (r : CollRec) (h : CollHead) : Bool :=
  h.op != r.op || h.etype != r.etype || h.rop != r.rop || h.count != r.count || h.nranks != r.nranks || r.nranks ≤ h.rank
/-- Do `n` bytes from an offset lie in one rank's block, and those that this rank reduces in its slice? -/
def collFits (r : CollRec) (off n : Nat) : Bool :=
  (!(r.op = 1 || r.op = 2) || off % r.block + n ≤ r.block) && (!collOwn r off || off % r.block + n ≤ (collOwned r r.rank).2)
/-- A packet of the collective to a rank leaves by the route table, or finds no route (R401, R403): bytes of its data at an offset,
or with `read` a read of the rank's SRC. -/
def collSend (s : State) (c : Coll) (off read : Nat) (bs : List Byte) (q : Nat) : State :=
  let r := collRec c.bytes
  let dev := c.group.getD q 0
  let place := scratchOff (if read = 0 then r.dst else r.src) + off
  match routeLink s dev place with
  | none => transferFails s c.t 18 11 dev place
  | some l => { s with out := s.out ++ [.skasonColl l
      ⟨skid s, dev, 1, wordAt c.bytes 48, c.id, off, place, read, ⟨r.rank, r.op, r.etype, r.rop, r.count, r.nranks, l⟩, bs⟩] }
/-- The store-queue accesses that the collective's reads follow (R265). -/
def collAfter (s : State) (c : Coll) : List Nat :=
  (((s.troupe c.t).ops.find? fun o => o.kind == .copies [c.id]).map EngOp.after).getD []
/-- May this rank's SRC be read? -/
def collReadable (s : State) (c : Coll) : Bool :=
  (collAfter s c).all (fun i => accDone s i) && engineMayRead s [(collSrc s c, (collRec c.bytes).srcBytes)]

/-- Blocks of which each rank reduces a slice (R403). -/
def collBlocks (r : CollRec) : Nat := if r.op = 2 then r.nranks else 1
def collOwnedLen (r : CollRec) (q : Nat) : Nat := (collOwned r q).2 - (collOwned r q).1
/-- Is the collective over for this rank: its DST has landed, its reduced slices have been sent, and every peer has read what it needs
of this rank's SRC? A block that is copied is sent as it lands. -/
def collDone (c : Coll) : Bool :=
  let r := collRec c.bytes
  c.remaining = 0 && (r.op ≤ 1 || (List.range r.nranks).all fun q => q = r.rank ||
      sumNat ((c.served.filter fun x => x.1 = q).map fun x => x.2.2) = collBlocks r * collOwnedLen r q) &&
    (r.op != 2 || sumNat (c.sentB.map Prod.snd) = (r.nranks - 1) * collOwnedLen r r.rank)
/-- One arrival, and the counter may fall. -/
def collFinish (s : State) (id : Nat) : State :=
  match s.colls.find? fun c => c.id == id with
  | none => s
  | some c =>
    if !collDone c || c.ended then s
    else
      let s1 := setColl s { c with ended := true }
      match c.wp with
      | some w => addUpd s1 w 0 true id
      | none => s1

/-- The bytes at an offset land in DST: presence, then the waypoint. -/
def collLand (s : State) (c : Coll) (p : Nat) (bs : List Byte) : State :=
  let r := collRec c.bytes
  let n := bs.length
  let a := collDst s c + p
  let s1 := deviceWrite s a bs
  let c1 := { c with landedB := (p, n) :: c.landedB, remaining := c.remaining - n }
  let landed (x : Nat) : Bool := c1.landedB.any fun y => y.1 ≤ x && x < y.1 + y.2
  let ls := (linesOf [(a, n)]).filter fun l =>
    tget s1.pclear 0 l == c.id + 1 && (List.range (lineBase l).2).all fun k =>
      let x := (lineBase l).1 + k
      x < collDst s c || x ≥ collDst s c + r.dstBytes || landed (x - collDst s c)
  let s2 := setPresent (setColl s1 c1) ls
  match c.wp with
  | some w => addUpd s2 w n false c.id
  | none => s2
/-- A transfer or a read that the peer's record contradicts, or that lies outside, is refused: the port of its link counts it, with
cause 13 (R87, R288, R399). -/
def collMismatch (s : State) (c : Coll) (h : CollHead) : State :=
  logError s (h.link + 1) 13 (c.group.getD h.rank 0) 0 (collRec c.bytes).dst
/-- Does a run of bytes of SRC lie in one slice that a rank owns? -/
def collSlice (r : CollRec) (q off n : Nat) : Bool :=
  2 ≤ r.op && r.op ≤ 3 && n != 0 && off / r.block < collBlocks r && (collOwned r q).1 ≤ off % r.block &&
    off % r.block + n ≤ (collOwned r q).2
/-- The owner of a slice reads it from a peer's SRC (R403). -/
def collRead (id q off n : Nat) (s : State) : State :=
  match s.colls.find? fun c => c.id == id with
  | none => s
  | some c =>
    let r := collRec c.bytes
    if c.ended || q = r.rank || r.nranks ≤ q || !collSlice r r.rank off n then s
    else collSend (setColl s { c with asked := (q, off, n) :: c.asked }) c off n [] q
/-- Have reads of the bytes been sent to every peer? -/
def collAsked (c : Coll) (off n : Nat) : Bool :=
  let r := collRec c.bytes
  (List.range r.nranks).all fun q => q = r.rank || c.asked.any fun x => x.1 = q && x.2.1 ≤ off && off + n ≤ x.2.1 + x.2.2
/-- A peer's read of this rank's SRC is answered. -/
def collServe (id off n : Nat) (h : CollHead) (s : State) : State :=
  match s.colls.find? fun c => c.id == id with
  | none => s
  | some c =>
    let r := collRec c.bytes
    if c.ended || !linkExists s h.link then s
    else if collContradicts r h || h.rank = r.rank || !collSlice r h.rank off n then collMismatch s c h
    else if !collReadable s c then s
    else
      let again := c.served.any fun x => x.1 = h.rank && overlaps x.2.1 x.2.2 off n
      let c1 := { c with
        joined := h.rank :: c.joined
        served := if again then c.served else (h.rank, off, n) :: c.served }
      let a := collSrc s c + off
      let z := consume (setColl s c1) .device (some (s.companyOf c.t).run) r.src a n
      collFinish (collSend z c1 off 0 (cleanBytes s a n) h.rank) id
/-- COLL_DELIVERY. With no data, the rank that the head names has joined. Bytes of this rank's own SRC, of a slice that it reduces from
the answers to its reads, or of a peer land, and what is to be sent of them is sent.
DEDUCED, log 41, 42. -/
def execCollDelivery (id off : Nat) (data : CollData) (s : State) : Outcome :=
  match s.colls.find? fun c => c.id == id with
  | none => .next s
  | some c0 =>
    let r := collRec c0.bytes
    let reads := collLocal r off || collOwn r off
    let inputs := if collOwn r off && !collLocal r off then data.bytes.length / (r.nranks - 1) else data.bytes.length
    if c0.ended || (!collLocal r off && !linkExists s data.head.link) then .next s
    else if collContradicts r data.head then .next (collMismatch s c0 data.head)
    else if data.bytes.isEmpty then .next (setColl s { c0 with joined := data.head.rank :: c0.joined })
    else if collSpan r < off + inputs || ((collLands r off).isNone && (collSends r off).isEmpty) then
      .next (collMismatch s c0 data.head)
    else if inputs = 0 || (reads && (!collFits r off inputs || !collReadable s c0)) then .next s
    else if !collFits r off inputs then .next (collMismatch s c0 data.head)
    else if collOwn r off && !collLocal r off && (inputs % etypeBytes r.etype != 0 || !collAsked c0 off inputs) then .next s
    else
      let b := collBytes s c0 off data.bytes
      let bs := b.2
      let c := { c0 with joined := c0.joined ++ if collLocal r off then [] else if collOwn r off then List.range r.nranks
        else [data.head.rank] }
      let z := setColl b.1 c
      let sent (z : State) : State := (collSends r off).foldl (fun z q => collSend z c off 0 bs q) z
      match collLands r off with
      | none =>
        if c.sentB.any fun x => overlaps x.1 x.2 off inputs then .next s
        else .next (collFinish (sent (setColl z { c with sentB := (off, inputs) :: c.sentB })) id)
      | some p =>
        if c.landedB.any (fun x => overlaps x.1 x.2 p inputs) || lineClosed s 0 [(collDst s c + p, inputs)] then .next s
        else .next (collFinish (sent (collLand z c p bs)) id)

/-- COLL_TIMEOUT: 10 ms without every peer.
DEDUCED, log 43. -/
def execCollTimeout (id : Nat) (s : State) : Outcome :=
  match s.colls.find? fun c => c.id == id with
  | none => .next s
  | some c =>
    let r := collRec c.bytes
    if c.ended || s.wall < c.issued + 10000000 || (List.range r.nranks).all (fun q => c.joined.contains q) then .next s
    else
      let s1 := bump (setColl s { c with ended := true }) (stageCounter (s.troupe c.t).stage 0) 1
      .next (logError s1 18 14 (skid s) 0 r.dst)

end Sys2Proof.Machine
end

