-- ==== Sys2Proof/Machine/Translation.lean ====
section
/-! DEFINITION. The events of address translation: faults and their reports, the kernel's answers, ATS and PRI, invalidations,
failures, and accesses refused by a region in migration (29_translation.md R411-R418). -/

namespace Sys2Proof.Machine

open Sys2Proof

def reqById (s : State) (k : Nat) : Option Xreq := s.xreqs.find? fun q => q.id == k
def setReq (s : State) (q : Xreq) : State := { s with xreqs := s.xreqs.map fun x => if x.id = q.id then q else x }
def onReq (s : State) (k : Nat) (f : State → Xreq → State) : Outcome :=
  match reqById s k with
  | some q => .next (settleGroups (f s q))
  | none => .next s

/-! ### Device-space faults (R411) -/

/-- The entry that reports a fault. -/
def faultEntry (q : Xreq) : Nat :=
  q.page % 2 ^ 32 + 2 ^ 32 * (q.page / 2 ^ 32 % 2 ^ 13 + (if q.write then 2 ^ 13 else 0) + q.unit % 4 * 2 ^ 14 + q.ctx % 2 ^ 16 * 2 ^ 16)
/-- One pending report stands for every fault of the same ASID, page and kind. -/
def mergedReport (s : State) (q : Xreq) : Option XState :=
  s.xreqs.findSome? fun x =>
    if x.id != q.id && x.sameFault q then
      (match x.st with
       | .reported _ | .posting _ => some x.st
       | _ => none)
    else none
/-- Report a fault first seen at `since`: by one 8-byte ENQ to the queue that XFAULTQ names. -/
def reportFault (s : State) (q : Xreq) (since : Nat) : State :=
  let x := s.ports.xfaultq
  match mergedReport s q with
  | some st => setReq s { q with st := st }
  | none =>
    if x = 0 then setReq s { q with st := .unreported since s.wall }
    else
      addAcc (setReq s { q with st := .posting since })
        { Access.make (.fault q.id) .enq x (scratchOff x) 8 with data := BitVec.ofNat 64 (faultEntry q) }

/-- DEVICE_TRANSLATION_FAULT. -/
def execDeviceTranslationFault (k : Nat) (s : State) : Outcome :=
  onReq s k fun s q => if q.st == .fault && !q.host then reportFault s q s.wall else s
/-- FAULT_REPORT_RETRY: a report that was dropped, after 10 µs. -/
def execFaultReportRetry (k : Nat) (s : State) : Outcome :=
  onReq s k fun s q =>
    match q.st with
    | .unreported since last => if last + 10000 ≤ s.wall then reportFault s q since else s
    | _ => s
/-- FAULT_TIMEOUT: 1 s without an answer. -/
def execFaultTimeout (k : Nat) (s : State) : Outcome :=
  onReq s k fun s q =>
    match q.st with
    | .unreported since _ | .reported since | .posting since => if since + 1000000000 ≤ s.wall then setReq s { q with st := .failed } else s
    | _ => s

/-- Walk again for a pending fault. -/
def rewalk (s : State) (q : Xreq) : State :=
  match walk s q.root q.page q.write with
  | .ok p n pa r w => setReq { s with xcache := ⟨q.unit, false, q.ctx, p, n, pa, r, w⟩ :: s.xcache } { q with st := .resolved }
  | .fault => setReq s { q with st := .fault }
  | .fail => setReq s { q with st := .failed }
def XState.answered (x : XState) : Bool :=
  match x with
  | .fault | .reported _ | .unreported _ _ | .posting _ => true
  | _ => false
/-- The pending faults that an XRESP answers. -/
def answeredBy (s : State) (x : Dword) : List Xreq :=
  s.xreqs.filter fun q => !q.host && q.st.answered && q.ctx == bitsOf x 60 45 && q.page == bitsOf x 44 0
/-- XRESP_RETRY. -/
def execXrespRetry (x : Dword) (s : State) : Outcome :=
  .next (if x.getLsbD 63 then s else settleGroups ((answeredBy s x).foldl rewalk s))
/-- XRESP_FAIL. -/
def execXrespFail (x : Dword) (s : State) : Outcome :=
  .next (if x.getLsbD 63 then settleGroups ((answeredBy s x).foldl (fun z q => setReq z { q with st := .failed }) s) else s)

/-! ### Invalidations (R412, R414) -/

/-- XINV. -/
def execXinv (x : Dword) (s : State) : Outcome :=
  .next { s with ports := { s.ports with xinvSeq := s.ports.xinvSeq + 1, xinvs := s.ports.xinvs ++ [x] } }
/-- Does an invalidation match a cached translation? -/
def invMatches (x : Dword) (c : Xlation) : Bool :=
  !c.host && (x.getLsbD 62 || c.ctx == bitsOf x 60 45) &&
    (x.getLsbD 63 || (c.page ≤ bitsOf x 44 0 && bitsOf x 44 0 < c.page + c.pages))
/-- XINV_COMPLETE: the oldest invalidation has been acknowledged by every unit. -/
def execXinvComplete (s : State) : Outcome :=
  match s.ports.xinvs with
  | [] => .next s
  | x :: rest =>
    .next { s with
      xcache := s.xcache.filter fun c => !invMatches x c
      ports := { s.ports with xinvs := rest, xinvAck := s.ports.xinvAck + 1 } }
/-- ATS_INVALIDATION_REQUEST. -/
def execAtsInvalidationRequest (pasid page pages tag : Nat) (s : State) : Outcome :=
  .next { s with
    xcache := s.xcache.filter fun c => !(c.host && c.ctx == pasid && overlaps page pages c.page c.pages)
    out := s.out ++ [.invalidationCompletion tag] }

/-! ### Host space (R413, R419) -/

/-- Page requests that the host's grant held back are sent as responses leave room. -/
def sendPageWaits (s : State) : State :=
  s.xreqs.foldl (fun z q =>
    if q.st == .pageWait then
      let r := askPage z q.unit q.ctx q.page q.write
      setReq r.1 { q with st := r.2 }
    else z) s
/-- What a Translation Completion makes of one request. -/
def atsAnswer (pasid page : Nat) (r w : Bool) (s : State) (q : Xreq) : State :=
  let ok := if q.write then w else r
  if !q.host || q.ctx != pasid || q.page != page then s
  else match q.st with
  | .atsAsked =>
    if ok then setReq s { q with st := .resolved }
    else
      let z := askPage s q.unit pasid page q.write
      setReq z.1 { q with st := z.2 }
  | .pageAsked _ true => setReq s { q with st := if ok then .resolved else .failed }
  | _ => s
/-- ATS_TRANSLATION_COMPLETION: each unit that asked caches it, with the naturally aligned range of `pages` pages that it states, whose
first frame is `pa`, and its grants; what it denies leads to a page request. -/
def execAtsTranslationCompletion (pasid page : Nat) (r w : Bool) (pa pages : Nat) (s : State) : Outcome :=
  let units := (List.range 4).filter fun u => atsOut s u pasid page
  let new := if pages = 0 then [] else units.map fun u => (⟨u, true, pasid, page / pages * pages, pages, pa, r, w⟩ : Xlation)
  let s1 := { s with xcache := new ++ s.xcache }
  .next (settleGroups (s1.xreqs.foldl (atsAnswer pasid page r w) s1))
/-- The requests that share a page request. -/
def pageSharers (s : State) (q : Xreq) : List Xreq :=
  s.xreqs.filter fun x => x.host && x.unit == q.unit && x.paged.isSome && x.paged == q.paged
/-- PRI_PAGE_RESPONSE: on Success the translation is asked for once more; any other code fails it.
PRESUMED, log 108. -/
def execPriPageResponse (k code : Nat) (s : State) : Outcome :=
  onReq s k fun s q =>
    match q.st with
    | .pageAsked since false =>
      let s1 := if code = 0 then askAts s q.unit q.ctx q.page else s
      sendPageWaits ((pageSharers s q).foldl (fun z x =>
        setReq z { x with st := if code = 0 then .pageAsked since true else .failed }) s1)
    | _ => s
/-- PAGE_REQUEST_TIMEOUT: 1 s without a response. -/
def execPageRequestTimeout (k : Nat) (s : State) : Outcome :=
  onReq s k fun s q =>
    match q.st with
    | .pageAsked since false =>
      if since + 1000000000 ≤ s.wall then
        sendPageWaits ((pageSharers s q).foldl (fun z x => setReq z { x with st := .failed }) s)
      else s
    | _ => s
/-- The host writes the enables and its grant of page requests: what ATS has cached goes with it, and what waits is tried again;
with PRI disabled a denied access fails.
PRESUMED, log 139. -/
def hostEnables (ats pri : Bool) (alloc : Nat) (s : State) : State :=
  let s1 := { s with ports := { s.ports with atsEn := ats, priEn := pri, priAlloc := alloc } }
  let again (st : XState) : XState :=
    match st with
    | .atsAsked | .pageWait | .pageAsked _ _ => .resolved
    | st => st
  if ats then settleGroups (sendPageWaits s1)
  else settleGroups { s1 with
    xcache := s1.xcache.filter fun c => !c.host
    xreqs := s1.xreqs.map fun q => { q with st := again q.st } }
/-- The host completes a streamer's Untranslated read with Unsupported Request or Completer Abort: its translation fails. -/
def hostReadFails (id i : Nat) (s : State) : State :=
  match copyById s id with
  | none => s
  | some c =>
    match c.chunks[i]? with
    | none => s
    | some k =>
      match k.src with
      | .glob va =>
        if k.done || c.ended || c.parked || k.early.isSome || k.sent = 0 || s.ports.atsEn || !isHostVa va then s
        else settleGroups (addReq s c true (ctxNo (xctxOf s c.t) true) 0 (pageOfVa va) false .failed)
      | _ => s

/-- A per-lane request that trap entry has withdrawn ends: the P bits it holds clear are set (R374).
DEDUCED, log 44. -/
def endWithdrawn (s : State) (c : Copy) : State :=
  let z := setPresent s (linesOfCopy s c.id)
  let counted := (z.troupe c.t).ops.any fun o => match o.kind with
    | .copies ids => ids.contains c.id
    | _ => false
  if counted || c.parked then z else { z with copies := z.copies.filter fun x => x.id != c.id }
/-- TRANSLATION_FAILURE: the record ends (R415). A lane's request is its group's affair (R416), but for one that has been
withdrawn. -/
def execTranslationFailure (c : Nat) (s : State) : Outcome :=
  onCopy s c fun s cp =>
    if cp.ended && cp.lane.isSome && cp.chunks.any (fun k => !k.done) then settleGroups (endWithdrawn s cp)
    else match cp.ended || cp.parked || cp.lane.isSome, s.xreqs.find? fun q => q.copy == c && q.st == .failed with
    | false, some q =>
      let va := reqAddr cp q
      let s1 := setCopy s { cp with ended := true, failed := some va }
      let s2 := setPresent { s1 with xreqs := s1.xreqs.filter fun x => x.copy != c } (linesOfCopy s1 c)
      let tr := s2.troupe cp.t
      s2.setTroupe cp.t { tr with xfaults := tr.xfaults ++ [va] }
    | _, _ => settleGroups s

/-! ### Refused Skason accesses (R417, R87) -/

/-- RETRY_AFTER_EXPIRY: of an access that waits for its reply, the target's refusal and hint arrive; once the hint has lapsed,
the access is sent again. -/
def execRetryAfterExpiry (id : Nat) (s : State) : Outcome :=
  onAccess s id fun s a =>
    match a.st with
    | .remote =>
      let s1 := setAcc s { a with st := .retry s.wall (1 + Config.retryHint s.picks % 255) }
      { s1 with picks := s1.picks + 1 }
    | .retry since hint =>
      if since + 1000 * hint ≤ s.wall then
        sendRemote (setAcc s { a with st := .queued }) { a with st := .queued }
      else s
    | _ => s
/-- REMOTE_REFUSAL_TIMEOUT: still refused 10 ms after its first sending. -/
def execRemoteRefusalTimeout (id : Nat) (s : State) : Outcome :=
  onAccess s id fun s a =>
    match a.st with
    | .retry _ _ =>
      if a.hold ≤ s.wall then
        refuseRemote s a ((routeLink s (remoteId a.addr) (scratchOff a.addr)).getD 17 + 1) 10
      else s
    | _ => s

end Sys2Proof.Machine
end

