-- ==== Sys2Proof/Machine/Xch.lean ====
section
/-! DEFINITION. The XCH class: quad and troupe exchanges, votes, reductions, scans, matches
(19_engine_system_instructions.md R266-R275; 03_execution.md R50, R55). -/

namespace Sys2Proof.Machine

open Sys2Proof

/-- Helper lanes: drained lanes of a quad that holds an active lane (R50). -/
def helperMask (s : State) (c : Ctx) : Mask :=
  maskOf fun l => !(s.thread c.t l).live && (List.range 4).any fun k => hasLane c.act (4 * (l / 4) + k)

/-- Source position in the quad: two bits of the pattern, or of the lane's own B. -/
def quadPos (s : State) (c : Ctx) (b : Src) (l : Nat) : Nat :=
  match b with
  | .imm x => x.toNat / 4 ^ (l % 4) % 4
  | .reg o => (readWord s c l o 1).toNat % 4

def execQswz (h : Hdr) (ty : Ty) (d a : Opd) (b : Src) (s : State) : Outcome :=
  issue (.qswz h ty d a b) s fun c s =>
    let ls := lanes (c.act ||| helperMask s c)
    .ok (writeNow s c (ls.map fun l => (l, destWrites (Ty.wide ty) d l (readTy s c ty (4 * (l / 4) + quadPos s c b l) a 0))))

/-- Source lane of SHFL; a lane out of range reads its own A. -/
def shflSource (m : ShMode) (l n : Nat) : Nat :=
  match m with
  | .idx => n
  | .up => if n ≤ l then l - n else l
  | .down => if l + n ≤ 31 then l + n else l
  | .xor => l ^^^ n

def execShfl (h : Hdr) (m : ShMode) (ty : Ty) (d a : Opd) (b : Src) (s : State) : Outcome :=
  issue (.shfl h m ty d a b) s fun c s =>
    .ok (writeNow s c (results c (Ty.wide ty) d fun l =>
      readTy s c ty (shflSource m l ((readSrcZ s c l b 1).toNat % 32)) a 0))

/-! ### Troupe-wide instructions (R55, R270-R273) -/

/-- A troupe-wide instruction `i` with destination `d`: `x` is what a lane contributes, `ty` the type of the result. -/
def troupeWide (i : Instr) (sc : XScope) (ty : Ty) (d : Opd) (x : State → Ctx → Nat → Dword) (c : Ctx) (s : State) : Res :=
  let tr := s.troupe c.t
  let xs : Parts := (lanes c.act).map fun l => (l, x s c l)
  match sc with
  | .all =>
    let s1 := s.mapLanes c.t c.act fun l th => th.waitAt c.hdr d ty (.all i (x s c l))
    let past := c.mask &&& ~~~c.act
    let tr1 := s1.troupe c.t
    let reached := tset tr1.reached 0 c.pc.toNat (tr1.reachedAt c.pc ||| past)
    .ctl (allCheckAt (s1.setTroupe c.t { tr1 with reached := reached }) c.t c.pc)
  | _ =>
    let nd := nondet s c (if c.act = tr.liveNonHeld then 0 else c.act)
    match nd.2 with
    | some e => .trap s e
    | none =>
      .ok (writeNow nd.1 c (results c (Ty.wide ty) d fun l =>
        wideResult i (if sc == .seg then segmentOf tr xs l else xs) l))

def execVote (h : Hdr) (k : VoteKind) (sc : XScope) (d a : Opd) (s : State) : Outcome :=
  issue (.vote h k sc d a) s
    (troupeWide (.vote h k sc d a) sc .n32 d fun s c l => (readWord s c l a 0).setWidth 64)
def execTred (h : Hdr) (op : RedOp) (sc : XScope) (ty : Ty) (d a : Opd) (s : State) : Outcome :=
  issue (.tred h op sc ty d a) s (troupeWide (.tred h op sc ty d a) sc ty d fun s c l => readTy s c ty l a 0)
def execTscan (h : Hdr) (op : RedOp) (sc : XScope) (ty : Ty) (excl : Bool) (d a : Opd) (s : State) : Outcome :=
  issue (.tscan h op sc ty excl d a) s
    (troupeWide (.tscan h op sc ty excl d a) sc ty d fun s c l => readTy s c ty l a 0)
def execMatchv (h : Hdr) (sc : XScope) (ty : Ty) (d a : Opd) (s : State) : Outcome :=
  issue (.matchv h sc ty d a) s (troupeWide (.matchv h sc ty d a) sc .n32 d fun s c l => readTy s c ty l a 0)

def execElect (h : Hdr) (d : Opd) (s : State) : Outcome :=
  issue (.elect h d) s fun c s => .ok (writeNow s c (results c false d fun l => (boolWord (l == c.low)).setWidth 64))

def execUmov (h : Hdr) (ty : Ty) (d a : Opd) (b : Src) (s : State) : Outcome :=
  issue (.umov h ty d a b) s fun c s =>
    if c.idle then .ok s
    else
      let n := fun l => (readSrcZ s c l b 1).setWidth 64
      match uniformTrap c n with
      | some x => .trap s x
      | none => .ok (writeNow s c (results c (Ty.wide ty) d fun _ => readTy s c ty ((n c.low).toNat % 32) a 0))

end Sys2Proof.Machine
end

