-- ==== Sys2Proof/Machine/Former.lean ====
section
/-! DEFINITION. The issue former and the wing scheduler: stalled threads go on, bundles are rebuilt, the bundles of a clock are
chosen and their instructions fetched, and what holds one back at its issue; entry to a handler that had to wait
(01_organisation.md R20, R22; 03_execution.md R38, R51-R54, R60, R64; 13_encoding.md R161-R163, R168; 23_scheduling.md R365,
R366; 25_traps.md R372, R373, R378). -/

namespace Sys2Proof.Machine

open Sys2Proof

/-! ### Hazards (R37, R38) -/

/-- Memory requests a stage has issued and not completed (R22): one for each thread's access, whatever its parts.
DEDUCED, log 62. -/
def stageRequests (s : State) (st : Nat) : Nat :=
  ((s.accs.filter fun a => a.who.stageOf s == some st).map Access.part).eraseDups.length
/-- Does a lane's instruction make a memory request (R22)? One that is buffered in a deterministic run makes none (R230); a call
makes one when it spills, and a return when it reads back (R262). -/
def makesRequest (s : State) (c : Ctx) (i : Instr) (l : Nat) : Bool :=
  match i with
  | .ld _ _ _ _ _ _ | .ldx _ _ _ _ _ _ | .stx _ _ _ _ _ _ | .ldu _ _ _ _ _ _ | .probe _ _ _ _ | .atom _ _ _ _ _ _ _ _
  | .aenq _ _ _ _ _ _ | .adeq _ _ _ _ _ | .wpwait _ _ _ _ _ => true
  | .st _ _ _ _ base off =>
    let buf (l : Nat) : Bool := buffers s c (memAddr s c l base off)
    !buf l || (((lanes c.act).filter buf).drop (detRoom s c)).contains l
  | .stu _ _ _ _ base off => !(buffers s c (memAddr s c l base off) && detRoom s c != 0)
  | .red _ _ _ _ _ _ _ => !(s.runOf c.t).determ || ((lanes c.act).drop (detRoom s c)).contains l
  | .call _ _ | .callx _ _ => spillsNext (s.thread c.t l)
  | .ret _ => (s.thread c.t l).rstack.length = 1 && (s.thread c.t l).spills != 0
  | _ => false
/-- Is it one request for the whole bundle (R235)? -/
def oneRequest : Instr → Bool
  | .ldu _ _ _ _ _ _ | .stu _ _ _ _ _ _ => true
  | _ => false
/-- The lanes that stall because no request slot is free for them (R22): slots go to Active in lane order. -/
def slotStall (s : State) (c : Ctx) (i : Instr) : Mask :=
  let free := 1024 - stageRequests s (s.troupe c.t).stage
  let want := (lanes c.act).filter (makesRequest s c i)
  if oneRequest i then (if free = 0 && !want.isEmpty then c.act else 0)
  else maskOf fun l => (want.drop free).contains l

/-- Registers that WAITING threads of a troupe, those of `but` aside, write as they leave (R161). -/
def leavingKeys (tr : Troupe) (but : Nat → Bool) : List Nat :=
  (List.range 32).flatMap fun l =>
    let th := tr.thread l
    if th.st == .waiting && !but l then (destWrites (Ty.wide th.info.ty) th.info.d l 0).map Prod.fst else []
/-- Does a thread wait in the very wait that the instruction joins: the same point, junction or instance? -/
def sameWait (i : Instr) (pc : Word) (th : Thread) : Bool :=
  match i, th.wait with
  | .cvwait _ k _ _, .cvwait k' _ _ => k.val == k'
  | .jarrw _ j _, .junction j' _ _ => j.val == j'
  | .vote _ _ .all _ _, .all _ _ | .tred _ _ .all _ _ _, .all _ _ | .tscan _ _ .all _ _ _ _, .all _ _
  | .matchv _ .all _ _ _, .all _ _ => th.pc == pc
  | _, _ => false
/-- Uniform registers that an operand code names. -/
def uniformKeys (k : Kind) (x : BitVec 10) : List Nat :=
  match k, Opd.ofCode x with
  | .reg _ _ _ _ _ _ n _, some (.s r) => (List.range n).map fun j => sKey (r.val + j)
  | _, _ => []
/-- Words of other lanes' registers that an exchange or an MMA reads (R112, R267, R269, R275). -/
def crossKeys (s : State) (c : Ctx) (i : Instr) : List Nat :=
  let words (ty : Ty) (a : Opd) (l : Nat) : List Nat := (destWrites (Ty.wide ty) a l 0).map Prod.fst
  match i with
  | .qswz _ ty _ a b => (lanes (c.act ||| helperMask s c)).flatMap fun l => words ty a (4 * (l / 4) + quadPos s c b l)
  | .shfl _ m ty _ a b => (lanes c.act).flatMap fun l => words ty a (shflSource m l ((readSrcZ s c l b 1).toNat % 32))
  | .umov _ ty _ a b => if c.idle then [] else words ty a ((readSrcZ s c c.low b 1).toNat % 32)
  | .mma _ a =>
    if c.idle then []
    else
      let b := mmaBlock ((List.range 4).map fun k => blockWord s c a k)
      fragKeys b.abase (shapeRegs b.shape).1 ++ fragKeys b.bbase (shapeRegs b.shape).2
  | _ => []
/-- The registers of an instruction whose write another thread's wait still owes: it stalls on them. A thread that joins the wait
of others does not stall on a destination that they owe: they wait for it (R55, R59).
DEDUCED, log 118. -/
def interlock (s : State) (c : Ctx) (f : Fields) (i : Instr) : List Nat :=
  let tr := s.troupe c.t
  let owed := leavingKeys tr fun _ => false
  let others := leavingKeys tr fun l => sameWait i c.pc (tr.thread l)
  match form f with
  | some k =>
    (uniformKeys k.d f.d).filter others.contains ++
      (uniformKeys k.a f.a ++ uniformKeys k.b f.b ++ uniformKeys k.c f.c ++ crossKeys s c i).filter owed.contains
  | none => (crossKeys s c i).filter owed.contains
/-- Does an instruction join a wait of others? What holds it back is then looked at afresh at its next issue. -/
def joinsWait : Instr → Bool
  | .cvwait _ _ _ _ | .jarrw _ _ _ | .vote _ _ .all _ _ | .tred _ _ .all _ _ _ | .tscan _ _ .all _ _ _ _ | .matchv _ .all _ _ _ => true
  | _ => false

/-- Has the hazard of a STALLED thread cleared? -/
def hazardOver (s : State) (t l : Nat) : Bool :=
  let tr := s.troupe t
  let th := tr.thread l
  match th.wait with
  | .hazard => true
  | .translation => false
  | .slot => stageRequests s tr.stage < 1024
  | .operand ks => !ks.any fun k => (leavingKeys tr fun _ => false).contains k
  | .flags w => tr.busy &&& w == 0
  | .room n => n ≤ queueFree s t
  | .readback => !th.readback
  | .owed => !tr.pend.any fun p => hasLane p.lanes l
  | .counter cls n => tr.counter cls ≤ n
  | .drain ids pubs => ids.all (fun i => accDone s i) && pubs.all fun i =>
      match accById s i with
      | some a => a.pub.isSome
      | none => true
  | _ => true
/-- The threads that one hazard holds at one PC, and that it has left. -/
def freedWith (s : State) (t : Nat) (th : Thread) : Mask :=
  maskOf fun k =>
    let x := s.thread t k
    x.st == .stalled && x.wait == th.wait && x.pc == th.pc && hazardOver s t k
/-- HAZARD_CLEAR: the threads that the hazard of one held become READY in one step. A wait that ends by draining drops the
stage's RO cache, as a FENCE's acquire asks (R86, R238).
DEDUCED, log 102. -/
def execHazardClear (t l : Nat) (s : State) : Outcome :=
  let th := s.thread t l
  if th.st != .stalled || !hazardOver s t l then .next s
  else
    let s1 := match th.wait with
      | .drain _ _ => dropRo s (s.troupe t).stage
      | _ => s
    .next (s1.mapLanes t (freedWith s t th) fun _ x => { x with st := .ready, wait := .none })

/-! ### Bundles (R51, R52) -/

/-- May a troupe's threads issue? Not under a run fault, before a trap entry that waits, or before a held pre-emption. -/
def mayIssue (s : State) (t : Nat) : Bool :=
  let tr := s.troupe t
  (s.runOf t).faulted.isNone && tr.pendTrap.isNone &&
    ((tr.status == .resident && tr.pendPre = 0) || tr.status == .handler)
/-- Troupes of a wing. -/
def wingTroupes (s : State) (k : Nat) : List Nat :=
  (s.troupes.filter fun x => wingKey x.2 == k && (x.2.status == .resident || x.2.status == .handler)).map Prod.fst
/-- The groups of READY threads of a troupe, one for each PC. -/
def groupsOf (s : State) (t : Nat) : List Bundle :=
  let tr := s.troupe t
  let ls := (List.range 32).filter fun l => (tr.thread l).ready
  ((ls.map fun l => (tr.thread l).pc).eraseDups).map fun p => ⟨t, maskOf fun l => ls.contains l && (tr.thread l).pc == p⟩
/-- A bundle's age: company index, troupe index, then its smallest admission number. -/
def bundleAge (s : State) (b : Bundle) : Nat :=
  let ages := (lanes b.mask).map fun l => (s.thread b.t l).age.toNat
  ((s.companyOf b.t).index * 256 + troupeNo b.t) * 2 ^ 64 + ages.foldl min (2 ^ 64 - 1)
/-- Oldest first. Bundles of different runs whose keys are equal stand in the order of their troupes' keys, which R52 leaves
open.
DESIGN CHOICE, log 117. -/
def byAge (s : State) (bs : List Bundle) : List Bundle := sortBy (fun a b => bundleAge s a ≤ bundleAge s b) bs
/-- What a group is known by: its troupe and its PC (R51). -/
def groupKey (s : State) (b : Bundle) : Nat × Word := (b.t, (s.thread b.t (lowLane b.mask)).pc)
/-- Times a group has been passed over. -/
def skippedCount (s : State) (w : Wing) (b : Bundle) : Nat :=
  ((w.skipped.find? fun x => x.1 == groupKey s b).map Prod.snd).getD 0
/-- The bundle that an old one has become. -/
def successor (bs : List Bundle) (b : Bundle) : Option Bundle := bs.find? fun x => x.t == b.t && hasLane x.mask (lowLane b.mask)
/-- BUNDLE_REBUILD: at most 64 groups are admitted, those passed over 63 times first, then by age.
DEDUCED, log 61. -/
def execBundleRebuild (stage wing : Nat) (s : State) : Outcome :=
  let k := 4 * stage + wing
  let w := s.wing k
  let all := byAge s ((wingTroupes s k).flatMap fun t => groupsOf s t)
  let first := all.filter fun b => 63 ≤ skippedCount s w b
  let order := first ++ all.filter fun b => !(63 ≤ skippedCount s w b)
  let table := order.take 64
  .next (s.setWing k { w with
    table := table
    current := w.current.bind (successor table)
    passed := w.passed.filterMap (successor table)
    forced := w.forced.bind (successor table)
    also := w.also.bind (successor table)
    skipped := (order.drop 64).map fun b => (groupKey s b, skippedCount s w b + 1) })
/-- STARVATION_BOUND: a bundle that has been READY and unissued for 256 clocks issues before any other.
DEDUCED, log 60. -/
def execStarvationBound (stage wing k : Nat) (s : State) : Outcome :=
  let key := 4 * stage + wing
  let w := s.wing key
  match w.table[k]? with
  | some b => .next (s.setWing key { w with forced := some b })
  | none => .next s

/-! ### The choice (R365, R366) -/

/-- The part of a bundle that can issue: its READY threads at the PC of the lowest of them. -/
def readyPart (s : State) (b : Bundle) : Mask :=
  let tr := s.troupe b.t
  let m := maskOf fun l => hasLane b.mask l && (tr.thread l).ready
  if m = 0 || !mayIssue s b.t then 0
  else
    let p := (tr.thread (lowLane m)).pc
    maskOf fun l => hasLane m l && (tr.thread l).pc == p
/-- The PC of that part. -/
def nextPc (s : State) (b : Bundle) : Word := ((s.troupe b.t).thread (lowLane (readyPart s b))).pc
/-- The fields of a bundle's next instruction, as the stage's instruction cache or its text has it. -/
def nextFields (s : State) (b : Bundle) : Fields := unpack (nextWord s b.t (nextPc s b))
/-- Can the bundle issue: has it a READY part, whose fetch does not wait? Threads whose fetch waits stay READY.
DEDUCED, log 149. -/
def canIssue (s : State) (b : Bundle) : Bool := readyPart s b != 0 && !fetchWaits s b.t (nextPc s b)
/-- Table 13.8: 0 INT, 1 FP, 2 XF, 3 MEM. -/
def pipeOf (f : Fields) : Nat :=
  match f.cls.toNat with
  | 0 | 3 | 7 => 0
  | 1 => if 0x09 ≤ f.op.toNat && f.op.toNat ≤ 0x11 then 2 else 1
  | 2 | 12 => 2
  | _ => 3
/-- Does the bundle leave a clause whose first instruction had YLD = 1 (R162)? -/
def leavesYielding (s : State) (b : Bundle) : Bool :=
  ((s.troupe b.t).thread (lowLane (readyPart s b))).yld && (nextFields s b).cs == 1
def urgencyOf (s : State) (b : Bundle) : Nat := (s.troupe b.t).urgency
/-- Those of the lowest count. -/
def leastUrgent (s : State) (bs : List Bundle) : List Bundle :=
  let least := (bs.map (urgencyOf s)).foldl min 8191
  bs.filter fun b => urgencyOf s b == least
/-- Does the wing schedule by urgency? -/
def byUrgency (s : State) (k : Nat) : Bool := (wingTroupes s k).all fun t => (s.runOf t).urgency

/-- Is the bundle passed over in this choice: by YIELD, or as one of `last` that leaves a clause with YLD (R162, R258)? -/
def demoted (s : State) (k : Nat) (last : List (Option Bundle)) (b : Bundle) : Bool :=
  (s.wing k).passed.contains b || (last.contains (some b) && leavesYielding s b)
/-- A slot under urgency scheduling: the oldest of the lowest count, those that are demoted last (R366). -/
def urgentPick (s : State) (k : Nat) (bs : List Bundle) : Option Bundle :=
  let best := leastUrgent s bs
  (best.find? fun b => !demoted s k [(s.wing k).current, (s.wing k).second] b).orElse fun _ => best.head?
/-- The bundle for the first slot, among those that can issue, given oldest first. One that is passed over is not chosen by age
either while another can issue, but it may have the second slot.
DEDUCED, log 146. -/
def chooseBundle (s : State) (k : Nat) (can : List Bundle) : Option Bundle :=
  let w := s.wing k
  let demoted := demoted s k [w.current]
  match w.forced.filter fun b => can.contains b with
  | some b => some b
  | none =>
    if byUrgency s k then urgentPick s k can
    else match w.current.filter fun b => can.contains b && !demoted b with
    | some b => some b
    | none => (can.find? fun b => !demoted b).orElse fun _ => can.head?
/-- The bundle for the second slot: of those that can issue to another pipe, the oldest, or the most urgent (R365, R366).
DEDUCED, log 113. -/
def chooseAlso (s : State) (k : Nat) (b : Bundle) (can : List Bundle) : Option Bundle :=
  let rest := can.filter fun x => x != b && pipeOf (nextFields s x) != pipeOf (nextFields s b)
  if byUrgency s k then urgentPick s k rest else rest.head?
/-- The choices of a clock for both slots (R20). -/
def slots (s : State) (k : Nat) : Option (Bundle × Option Bundle) :=
  let can := byAge s ((s.wing k).table.filter (canIssue s))
  (chooseBundle s k can).map fun b => (b, chooseAlso s k b can)

/-- Note in the wing that a bundle issues. -/
def Wing.issuing (w : Wing) (b : Bundle) : Wing := { w with forced := w.forced.filter fun x => x != b }
/-- The wing's choice in a clock: the state with it noted, and the bundle that issues first. Where two are chosen the order is
that of the pipes INT, FP, XF, MEM (R60, R372), and the other one issues next. -/
def pickBundle (s : State) (stage wing : Nat) : Option (State × Bundle) :=
  let k := 4 * stage + wing
  match slots s k with
  | none => none
  | some (b, o) =>
    let w := { ((s.wing k).issuing b) with current := some b, passed := [], also := none, second := none }
    match o with
    | none => some (s.setWing k w, b)
    | some d =>
      let (x, y) := if pipeOf (nextFields s b) < pipeOf (nextFields s d) then (b, d) else (d, b)
      some ({ s.setWing k { w.issuing d with also := some y, second := if x == d then some d else none } with
        agenda := .issueAlso stage wing :: s.agenda }, x)
/-- The clock's other bundle, if it can still issue: a trap of the first one may have stopped it (R372). -/
def pickAlso (s : State) (stage wing : Nat) : Option (State × Bundle) :=
  let k := 4 * stage + wing
  let w := s.wing k
  (w.also.filter fun b => w.table.contains b && canIssue s b).map fun b =>
    (s.setWing k { w with also := none, second := if w.current == some b then w.second else some b }, b)
/-- The clock is over: a bundle that could not issue in it is chosen afresh. -/
def dropAlso (s : State) (stage wing : Nat) : State :=
  let k := 4 * stage + wing
  if (s.wing k).also.isSome then s.setWing k { s.wing k with also := none } else s

/-! ### Fetch (R168) -/

/-- What the fetch for a bundle comes to. -/
inductive Fetched where
  | wait
  /-- The fetch or the word itself traps, or the threads stall for a request slot. -/
  | over (s : State)
  | run (s : State) (i : Instr)

/-- What holds an instruction back at its issue, with the lanes that stall: a register another wait still owes (R161), then request
slots, which go to Active in lane order (R22). Where its own checks or its WAIT mask stop it, neither is asked.
DEDUCED, log 62. -/
def issueStall (s : State) (c : Ctx) (f : Fields) (i : Instr) : Mask × Wait :=
  if (encTrap s c f false).isSome || (c.hdr.cs && (s.troupe c.t).busy &&& c.hdr.wait != 0) then (0, .none)
  else
    let ks := interlock s c f i
    if !ks.isEmpty then (c.mask, if joinsWait i then .hazard else .operand ks) else (slotStall s c i, .slot)
/-- Run an instruction that has been fetched, for the lanes that do not stall at it. -/
def runFetched (s : State) (i : Instr) : Fetched :=
  match fieldsOf i with
  | none => .run s i
  | some f =>
    let c := ctxOf s (hdrOf f)
    let (stall, w) := issueStall s c f i
    if stall = 0 then .run s i
    else
      let s1 := s.mapLanes c.t stall fun _ th => { th with st := .stalled, wait := w }
      if c.mask &&& ~~~stall = 0 then .over s1 else .run { s1 with cur := ⟨c.t, c.mask &&& ~~~stall⟩ } i

/-- Set the cursor, fetch and decode. -/
def fetchBundle (s : State) (b : Bundle) : Fetched :=
  let m := readyPart s b
  let tr := s.troupe b.t
  let pc := (tr.thread (lowLane m)).pc
  let s0 := { s with cur := ⟨b.t, m⟩ }
  let raise (z : State) (code : Nat) : Fetched := .over (takeTrap z b.t ⟨0, code, pc, m, pc.setWidth 64, m, 0, none⟩)
  if !tr.context && pc.toNat ≥ (s.runOf b.t).textSize then raise s0 0x01
  else match fetch s0 b.t pc with
  | none => .wait
  | some x =>
    match decode x.2 with
    | .ok i => runFetched x.1 i
    | .error _ =>
      let f := unpack x.2
      match encTrap x.1 (ctxOf x.1 (hdrOf f)) f false with
      | some y => .over (takeTrap x.1 b.t y)
      | none => raise x.1 0x01

/-- The threads of a bundle that stay in it once it has issued: those at the next PC of its lowest active lane that is READY
(R53).
DEDUCED, log 113. -/
def staying (tr : Troupe) (act m : Mask) : Mask :=
  let rdy := maskOf fun l => hasLane m l && (tr.thread l).ready
  let lead := if rdy &&& act = 0 then lowLane rdy else lowLane (rdy &&& act)
  maskOf fun l => hasLane rdy l && (tr.thread l).pc == (tr.thread lead).pc
/-- After an instruction has issued for bundle `b`, with `act` active, what is left of it is regrouped; a bundle that has formed
of its threads at once stands (R53, R54). -/
def regroup (s : State) (b : Bundle) (act : Mask) : State :=
  let tr := s.troupe b.t
  let k := wingKey tr
  let keep := staying tr act b.mask
  let fix (x : Bundle) : Option Bundle :=
    if x.t != b.t || x.mask &&& ~~~b.mask != 0 then some x
    else if x.mask &&& keep = 0 then none else some ⟨x.t, x.mask &&& keep⟩
  s.setWing k ((s.wing k).mapBundles fix)

/-! ### Entry that had to wait (R373, R378) -/

/-- HANDLER_ENTRY: outstanding read-backs are over; a trap is entered before a held pre-emption. -/
def execHandlerEntry (t : Nat) (s : State) : Outcome :=
  let tr := s.troupe t
  if tr.status != .resident || readbackOut tr || (s.runOf t).faulted.isSome then .next s
  else match tr.pendTrap with
  | some x => .next (enterHandler s t x (s.runOf t).trapVec false)
  | none => if tr.pendPre = 0 then .next s else .next (enterContext s t tr.pendPre)

end Sys2Proof.Machine
end

