-- ==== Sys2Proof/Machine/Placement.lean ====
section
/-! DEFINITION. Room on stages, the order of companies and circuits, and the placement of a company
(03_execution.md R33, R39-R42; 13_encoding.md R169; 23_scheduling.md R347, R355-R360, R362). -/

namespace Sys2Proof.Machine

open Sys2Proof

/-! ### Room (R357, Table 1.2) -/

/-- Does a troupe hold a wing slot? -/
def Troupe.placed (tr : Troupe) : Bool := tr.status == .resident || tr.status == .handler || tr.status == .retiring
def onStage (s : State) (st : Nat) : List (Nat × Troupe) := s.troupes.filter fun x => x.2.placed && x.2.stage == st
/-- Register bytes a troupe takes. -/
def Run.regBytes (r : Run) : Nat := 128 * roundUp r.regs 8
/-- Free slots and register bytes of a wing. -/
def wingRoom (s : State) (st w : Nat) : Nat × Nat :=
  let ts := (onStage s st).filter fun x => x.2.wing == w
  (16 - ts.length, 262144 - sumNat (ts.map fun x => (s.runOf x.1).regBytes))
def tilesUsed (s : State) (st : Nat) : Nat := sumNat ((onStage s st).map fun x => (s.runOf x.1).acct)
/-- Ranges of a stage's company memory in use.
DESIGN CHOICE, log 68. -/
def cmUsed (s : State) (st : Nat) : List (Nat × Nat) :=
  (s.companies.filter fun x => x.2.placed && !x.2.retired).flatMap fun x =>
    ((x.2.stages.zip x.2.cmBase).filter fun g => g.1 == st).map fun g => (g.2, (s.run x.2.run).cmem)
/-- The first free run of `n` bytes from `lo` below `limit`, aligned. -/
def firstFit (ranges : List (Nat × Nat)) (lo limit n align : Nat) : Option Nat :=
  if n = 0 then some lo
  else (sortBy (fun x y => x ≤ y) ((roundUp lo align) :: ranges.map fun r => roundUp (r.1 + r.2) align)).find? fun o =>
    lo ≤ o && o + n ≤ limit && !ranges.any fun r => overlaps o n r.1 r.2
/-- The position of the wing with the most free register bytes, the lowest of several. -/
def mostFree (ws : List (Nat × Nat)) : Nat :=
  let best := (ws.map Prod.snd).foldl max 0
  ws.findIdx fun w => w.2 == best
/-- The wings that `k` troupes go to, one after the other; none when a chosen wing lacks a slot or registers. -/
def takeWings (need : Nat) : Nat → List (Nat × Nat) → Option (List Nat)
  | 0, _ => some []
  | k + 1, ws =>
    let w := mostFree ws
    match ws[w]? with
    | some (slots, bytes) =>
      if slots = 0 || bytes < need then none
      else (takeWings need k (ws.set w (slots - 1, bytes - need))).map fun r => w :: r
    | none => none
/-- LM4-B lacks the stages whose local number is 3 modulo 4.
DEDUCED, log 10. -/
def stageExists (s : State) (st : Nat) : Bool := st < 512 && (s.mgmt.grade == .a || st % 4 != 3)
/-- Does a stage carry the declared features (R33)? -/
def carries (s : State) (st features : Nat) : Bool :=
  stageExists s st && features &&& ((featureOf s st).toNat % 2 ^ 16) == features
/-- The resource check of a stage for `k` troupes and, when `cm`, a segment of company memory: the wings of the troupes and
the first byte of the segment. -/
def stageFits (s : State) (r : Run) (st k : Nat) (cm : Bool) : Option (List Nat × Nat) :=
  if !carries s st r.features || 64 < tilesUsed s st + k * r.acct then none
  else
    match takeWings r.regBytes k ((List.range 4).map (wingRoom s st)),
      firstFit (if cm then cmUsed s st else []) 0 (2 ^ 19) (if cm then r.cmem else 0) 128 with
    | some ws, some b => some (ws, b)
    | _, _ => none

/-- Troupes of `n` that go to segment `i` of `k`. -/
def share (n k i : Nat) : List Nat := (List.range n).filter fun t => t % k == i
/-- The first stages of a list that pass, for segment `i` onward: stage, wings, first byte of the segment. -/
def takeStages (s : State) (r : Run) : List Nat → Nat → List (Nat × List Nat × Nat)
  | [], _ => []
  | st :: rest, i =>
    if r.nstages ≤ i then []
    else match stageFits s r st (share r.troupes r.nstages i).length true with
    | some x => (st, x.1, x.2) :: takeStages s r rest (i + 1)
    | none => takeStages s r rest i
/-- Stages of a die from its stage pointer on, wrapping. -/
def scanOrder (s : State) (die : Nat) : List Nat :=
  (List.range 128).map fun k => 128 * die + (tget s.stagePtr 0 die + k) % 128
def pickStages (s : State) (r : Run) (die : Nat) : Option (List (Nat × List Nat × Nat)) :=
  let g := takeStages s r (scanOrder s die) 0
  if g.length = r.nstages then some g else none
/-- The stack base of a company: the first free run of the queue's pool.
DEDUCED, log 69. -/
def stackRun (s : State) (r : Run) : Option Nat :=
  let used := (s.companies.filter fun x => x.2.placed && !x.2.retired && (s.run x.2.run).queue == r.queue).map fun x =>
    (x.2.stackBase, 32 * (s.run x.2.run).stack * (s.run x.2.run).troupes)
  firstFit (used.filter fun x => x.2 != 0) r.spool (r.spool + r.spoolSize) (32 * r.stack * r.troupes) 256

/-! ### Circuits (R359, R360) -/

/-- The circuit grid. -/
def Run.circuits (r : Run) : Nat × Nat × Nat :=
  (r.grid.1 / r.circuit.1, r.grid.2.1 / r.circuit.2.1, r.grid.2.2 / r.circuit.2.2)
def Run.circuitCount (r : Run) : Nat := r.circuits.1 * r.circuits.2.1 * r.circuits.2.2
def Run.circuitSize (r : Run) : Nat := r.circuit.1 * r.circuit.2.1 * r.circuit.2.2
def Run.companyCount (r : Run) : Nat := r.grid.1 * r.grid.2.1 * r.grid.2.2
/-- The companies of circuit `k`, by ascending linear index. -/
def Run.companiesOf (r : Run) (k : Nat) : List Nat :=
  let g := r.circuits
  let x0 := r.circuit.1 * (k % g.1)
  let y0 := r.circuit.2.1 * (k / g.1 % g.2.1)
  let z0 := r.circuit.2.2 * (k / g.1 / g.2.1)
  (List.range r.circuit.2.2).flatMap fun z => (List.range r.circuit.2.1).flatMap fun y => (List.range r.circuit.1).map fun x =>
    (x0 + x) + r.grid.1 * ((y0 + y) + r.grid.2.1 * (z0 + z))

/-- One level of `hilbert_xy`: the next x and y. -/
def hilbertStep (sd t x y : Nat) : Nat × Nat :=
  let rx := t / 2 % 2
  let ry := (t ^^^ rx) % 2
  let p := if ry = 0 then (if rx = 1 then (sd - 1 - y, sd - 1 - x) else (y, x)) else (x, y)
  (p.1 + sd * rx, p.2 + sd * ry)
def hilbertLoop : Nat → Nat → Nat → Nat → Nat → Nat → Nat × Nat
  | 0, _, _, _, x, y => (x, y)
  | fuel + 1, n, sd, t, x, y =>
    if n ≤ sd then (x, y)
    else
      let p := hilbertStep sd t x y
      hilbertLoop fuel n (2 * sd) (t / 4) p.1 p.2
/-- Position `d` of the curve of side `n`. -/
def hilbertXy (n d : Nat) : Nat × Nat := hilbertLoop 33 n 1 d 0 0
/-- The smallest power of two no less than `k`. -/
def powerAbove (k : Nat) : Nat := if k ≤ 1 then 1 else 2 ^ (Nat.log2 (k - 1) + 1)
/-- Circuits of one z slice in the order of the curve. -/
def sliceOrder (gx gy : Nat) : List Nat :=
  let n := powerAbove (max gx gy)
  (List.range (n * n)).filterMap fun d =>
    let p := hilbertXy n d
    if p.1 < gx && p.2 < gy then some (p.1 + gx * p.2) else none
/-- The circuit of rank `k`: along the curve in a deterministic run, else ascending.
DEDUCED, log 71. -/
def Run.circuitAt (r : Run) (k : Nat) : Nat :=
  let g := r.circuits
  if r.determ then (sliceOrder g.1 g.2.1).getD (k % (g.1 * g.2.1)) 0 + g.1 * g.2.1 * (k / (g.1 * g.2.1)) else k
/-- The rank of a circuit. -/
def Run.rankOf (r : Run) (c : Nat) : Nat :=
  let g := r.circuits
  if r.determ then (sliceOrder g.1 g.2.1).idxOf (c % (g.1 * g.2.1)) + g.1 * g.2.1 * (c / (g.1 * g.2.1)) else c

/-! ### Retirement of packets (R347) -/

/-- Take retired packets off a set, one after the other. -/
def advanceRetire : Nat → Nat → List Nat → Nat × List Nat
  | 0, n, xs => (n, xs)
  | fuel + 1, n, xs => if xs.contains n then advanceRetire fuel (n + 1) (xs.filter fun k => k != n) else (n, xs)
/-- The outstanding accesses of a prompter's thread. -/
def promptAccs (s : State) (q : Nat) : List Nat :=
  (s.accs.filter fun a => match a.who with
    | .prompter k => k == q
    | _ => false).map Access.id
/-- A field of a queue's control block, as the prompter writes it, after some of its accesses: at once, or as an access where it has
to wait for them or for its line. -/
def putField (s : State) (q off x : Nat) (rel : Bool) (after : List Nat) : State :=
  let a := (s.queue q).qcb + off
  if after.isEmpty && deviceFree s [(a, 4)] then deviceWriteN s a 4 (x % 2 ^ 32)
  else addAcc s { Access.make (.prompter q) .store (BitVec.ofNat 64 (2 ^ 63 + a)) a 4 with
    data := BitVec.ofNat 64 (x % 2 ^ 32), rel := rel, scope := .system, after := after }
/-- A field written in the order of the thread's stores to it (R85). -/
def putQcb (s : State) (q off x : Nat) : State :=
  let a := (s.queue q).qcb + off
  putField s q off x false ((promptAccs s q).filter fun i => (accById s i).any fun b => overlaps b.phys b.size a 4)
/-- RETIRE is written as a release at system scope: after every earlier access of the prompter's thread. -/
def putRetire (s : State) (q n : Nat) : State := putField s q 24 n true (promptAccs s q)
def retireNow (s : State) (q n : Nat) : State :=
  let x := s.queue q
  let r := advanceRetire (x.retiredSet.length + 1) x.retire (x.retiredSet ++ [n])
  let s1 := s.setQueue q { x with retire := r.1, retiredSet := r.2 }
  if r.1 = x.retire then s1 else putRetire s1 q r.1
/-- A packet retires: one of an INDIRECT's buffer counts towards the INDIRECT. -/
def retirePacket (s : State) (q n epoch : Nat) : State :=
  let x := s.queue q
  if x.epoch != epoch then s
  else match x.bufOpen.find? fun b => b.1 == n with
  | none => retireNow s q n
  | some (_, k) =>
    if k ≤ 1 then retireNow (s.setQueue q { x with bufOpen := x.bufOpen.filter fun b => b.1 != n }) q n
    else s.setQueue q { x with bufOpen := x.bufOpen.map fun b => if b.1 = n then (n, k - 1) else b }

/-! ### Completion (R40, R362, R377) -/

def companiesOfRun (s : State) (r : Nat) : List (Nat × Company) := s.companies.filter fun x => x.2.run == r
/-- Buffered operations of a run. -/
def detOps (s : State) (r : Nat) : List BufOp := s.stages.flatMap fun g => g.2.det.filter fun b => b.run == r
/-- Operations of a milestone that are still on their way to their homes (R322). -/
def detAccs (s : State) (r : Nat) : List Nat := (s.accs.filter fun a => match a.who with
    | .det k _ => k == r
    | _ => false).map Access.id
/-- Is a node's queue empty (R364)? -/
def nodeEmpty (s : State) (r : Run) : Bool := let d := descOf s r.nodeQ; d.bad || d.tail = d.head
/-- Does the node close: its CLOSE word is nonzero and its queue is empty? Once it has closed it stays so.
DEDUCED, log 66. -/
def nodeCloses (s : State) (r : Run) : Bool :=
  !anyAbsent s [(r.closeAt, 4), (r.nodeQ, 32)] && cleanN s r.closeAt 4 != 0 && nodeEmpty s r
def nodeClosed (s : State) (r : Run) : Bool := r.closed || nodeCloses s r
/-- Every node that closes now has closed for good: records enqueued later are left in its queue. -/
def latchNodes (s : State) : State :=
  if s.runs.any fun x => x.2.source == .callboard && !x.2.complete && !x.2.closed && nodeCloses s x.2 then
    { s with runs := s.runs.map fun x =>
      if x.2.source == .callboard && !x.2.complete && nodeCloses s x.2 then (x.1, { x.2 with closed := true }) else x }
  else s
/-- Has every company of the run been placed?
DEDUCED, log 67. -/
def allPlaced (s : State) (k : Nat) : Bool :=
  let r := s.run k
  r.complete || (if r.source == .callboard then nodeClosed s r else r.companyCount ≤ r.nextComp)
def childrenOf (s : State) (k : Nat) : List Nat := (s.runs.filter fun x => x.2.parent == some k).map Prod.fst
/-- Does a child's packet still stand in its ring, under the mapping it was written for? One that was dropped or refused, or
whose queue has been mapped anew, is a child no longer.
DEDUCED, log 121. -/
def childWaits (s : State) (x : Nat × Nat × Nat) : Bool :=
  (s.queue x.1).epoch == x.2.1 && (x.2.2 + 2 ^ 32 - (s.queue x.1).head % 2 ^ 32) % 2 ^ 32 < 2 ^ 31
/-- Has the run nothing left: companies, children, packets of children, and buffered operations? -/
def runOver (s : State) (k : Nat) : Bool :=
  let r := s.run k
  !r.complete && (allPlaced s k || r.faulted.isSome) && (companiesOfRun s k).all (fun x => x.2.retired) &&
    (childrenOf s k).all (fun c => (s.run c).complete) && !r.launched.any (childWaits s) && (detOps s k).isEmpty &&
    (detAccs s k).isEmpty
/-- Complete a run that is over, and its parent when that is over with it. -/
def completeCheck : Nat → State → Nat → State
  | 0, s, _ => s
  | fuel + 1, s, k =>
    if !runOver s k then s
    else
      let r := s.run k
      let q := s.queue r.queue
      let s1 := (s.setRun k { r with complete := true }).setQueue r.queue
        { q with openRuns := q.openRuns.filter fun x => x != k }
      let s2 := retirePacket s1 r.queue r.packet r.epoch
      match r.parent with
      | some p => completeCheck fuel s2 p
      | none => s2
def completeRun (s : State) (k : Nat) : State := completeCheck (s.runs.length + 1) s k

/-! ### Placing a company (R41, R42) -/

/-- Is there an item for a company that is to be placed? -/
def hasItem (s : State) (r : Run) (i : Nat) : Bool :=
  match r.source with
  | .shared => r.counter < r.items
  | .ranged => i * r.range < r.items
  | .callboard => !nodeClosed s r && !nodeEmpty s r
/-- A thread as placement leaves it (R41).
DEDUCED, log 4. -/
def Thread.start (entry : Word) : Thread :=
  { Thread.drained with st := .ready, pc := entry, reach := some 0xFFFFFFFF }
/-- A troupe on its stage. -/
def newTroupe (s : State) (entry : Word) (st w : Nat) : Troupe :=
  { Troupe.absent with
    status := .resident, stage := st, wing := w, idleSince := s.wall
    threads := (List.range 32).map fun l => (l, Thread.start entry) }
def firstDraw (t : Nat) (s : State) (l : Nat) : State :=
  let d := drawItem s t l
  match d.2 with
  | some x => d.1.setThread t l { d.1.thread t l with item := x.1, age := x.2 }
  | none => drainLane d.1 t l
/-- A troupe whose every seat starts drained counts as retired (R42). -/
def drawTroupe (s : State) (t : Nat) : State :=
  let s1 := (List.range 32).foldl (firstDraw t) s
  let tr := s1.troupe t
  if tr.liveMask = 0 then s1.setTroupe t { Troupe.absent with status := .retired, stage := tr.stage, wing := tr.wing } else s1
/-- The next key of a table. -/
def nextKey {V : Type} (m : Table V) : Nat := (m.getLast?.map Prod.fst).getD 0 + 1
/-- A run boundary on a stage drops its instruction cache and its RO cache: the first troupe of the run comes to it (R86, R169).
DESIGN CHOICE, log 70. -/
def freshText (s : State) (k st : Nat) : State :=
  if (onStage s st).any fun x => (s.companyOf x.1).run == k then s
  else s.setStage st { s.stage st with icache := [], ro := [] }
/-- The translation context of a queue (R408). -/
def latchXctx (s : State) (q : Nat) : Xctx :=
  let x := (tget s.ports.xctx Reg16.zero q).val
  ⟨(x.extractLsb' 96 20).toNat, x.getLsbD 63, x.getLsbD 62, (x.extractLsb' 44 16).toNat, (x.extractLsb' 0 44).toNat⟩
/-- Set a company down on stages `g` of a die, with stack base `b`: troupes in ascending number, then their draws. -/
def settle (s : State) (k i die : Nat) (g : List (Nat × List Nat × Nat)) (b : Nat) : State :=
  let r := s.run k
  let c := nextKey s.companies
  let co : Company := { Company.absent with
    run := k, index := i, die := die, stages := g.map Prod.fst, cmBase := g.map fun x => x.2.2
    placed := true, counter := i * r.range, stackBase := b }
  let s1 := g.foldl (fun z x => freshText z k x.1) s
  let s2 := (s1.setCompany c co).setRun k { r with
    nextComp := r.nextComp + 1, waited := 0
    xctx := some (r.xctx.getD (latchXctx s r.queue)) }
  let s3 := (List.range r.troupes).foldl (fun z t =>
    let x := g.getD (t % r.nstages) (0, [], 0)
    z.setTroupe (256 * c + t) (newTroupe s r.entry x.1 (x.2.1.getD (t / r.nstages) 0))) s2
  let s4 : State := { s3 with
    lastDie := die, lastServed := r.queue
    stagePtr := tput s3.stagePtr die (((g.map Prod.fst).headD 0 + 1) % 128) }
  (List.range r.troupes).foldl (fun z t => drawTroupe z (256 * c + t)) s4
/-- A company for which no item remains counts as retired without being placed (R42).
DEDUCED, log 72. -/
def emptyCompany (s : State) (k i : Nat) : State :=
  let r := s.run k
  (s.setCompany (nextKey s.companies) { Company.absent with run := k, index := i, placed := true, retired := true }).setRun k
    { r with nextComp := r.nextComp + 1, retired := r.retired + 1, waited := 0 }
/-- Place company `i` of run `k` on the first of the dies that has room. -/
def placeCompany (k : Nat) (dies : State → List Nat) (s : State) (i : Nat) : Option State :=
  let r := s.run k
  if !hasItem s r i then some (emptyCompany s k i)
  else match stackRun s r, (dies s).findSome? fun d => (pickStages s r d).map fun g => (d, g) with
  | some b, some (d, g) => some (settle s k i d g b)
  | _, _ => none
/-- Place the run's next circuit, all of its companies or none (R358-R360). -/
def placeNext (s : State) (k : Nat) : Option State :=
  let r := s.run k
  let rank := r.nextComp / r.circuitSize
  let dies (z : State) : List Nat :=
    if r.determ then [4 * rank / r.circuitCount] else (List.range 4).map fun j => (z.lastDie + 1 + j) % 4
  (r.companiesOf (r.circuitAt rank)).foldl (fun z i => z.bind fun y => placeCompany k dies y i) (some s)

/-! ### The order of placement (R355, R356, R362) -/

/-- Has a saved troupe's park ended: is every DONE nonzero (R387)? -/
def parkOver (s : State) (t : Nat) : Bool :=
  (s.troupe t).last.reason != 3 || (s.troupe t).svcs.all fun x => !x.park || cleanN s (x.slot + 8) 8 != 0
/-- Saved troupes of a company that may be restored. -/
def restorable (s : State) (c : Nat) : List Nat :=
  (troupesOf s c).filter fun t => (s.troupe t).status == .saved && parkOver s t
def restorableRun (s : State) (k : Nat) : List Nat := (companiesOfRun s k).flatMap fun x => restorable s x.1
/-- Does a lower-numbered sibling stand before the run in its queue, not yet placed (R362)? -/
def siblingBefore (s : State) (k : Nat) : Bool :=
  let r := s.run k
  let lower (a b : Nat × Nat × Nat) : Bool := a.1 < b.1 || (a.1 = b.1 && (a.2.1 < b.2.1 || (a.2.1 = b.2.1 && a.2.2 < b.2.2)))
  r.parent.isSome && s.runs.any fun x => x.1 < k && x.2.parent == r.parent && x.2.queue == r.queue && !allPlaced s x.1 &&
    lower x.2.sibling r.sibling
/-- May companies of the run be placed, but for room (R355)? -/
def eligible (s : State) (k : Nat) : Bool :=
  let r := s.run k
  !r.complete && r.faulted.isNone && !(s.queue r.queue).notRunnable && !allPlaced s k &&
    r.after.all (fun a => (s.run a).complete || !(s.runs.any fun x => x.1 == a)) &&
    (match r.pred with
     | some p => allPlaced s p || !(s.runs.any fun x => x.1 == p)
     | none => true) &&
    !siblingBefore s k && (restorableRun s k).isEmpty

/-! ### Restoring (R383) -/

/-- Where a saved company's troupes would stand: one given stage for each segment. -/
def restoreStages (s : State) (c : Nat) (stages : List Nat) : Option (List (List Nat × Nat)) :=
  let r := s.run (s.company c).run
  let ts := restorable s c
  if stages.length != r.nstages || stages.eraseDups.length != stages.length ||
      stages.any (fun st => st / 128 != stages.headD 0 / 128) then none
  else
    let fits := stages.zipIdx.map fun x =>
      stageFits s r x.1 (ts.filter fun t => troupeNo t % r.nstages == x.2).length true
    if fits.any Option.isNone then none else some (fits.filterMap id)
/-- The stages of a die that a saved company could take. -/
def findRestore (s : State) (c : Nat) : Option (List Nat) :=
  let r := s.run (s.company c).run
  (List.range 4).findSome? fun d => (pickStages s r d).map fun g => g.map Prod.fst
/-- A stage of a resident company that has room for one of its saved troupes. -/
def oneFits (s : State) (c : Nat) : Option Nat :=
  (s.company c).stages.find? fun st => (stageFits s (s.run (s.company c).run) st 1 false).isSome
def restoreRoom (s : State) (c : Nat) : Bool :=
  !(restorable s c).isEmpty && (if (s.company c).offCore then (findRestore s c).isSome else (oneFits s c).isSome)

/-- The wall time at which the oldest waiting record of a node was there. -/
def oldestSince (s : State) (r : Run) (d : Desc) : Nat :=
  ((r.arrivals.find? fun x => let n := (x.1 + 2 ^ 32 - d.head) % 2 ^ 32; 0 < n && n ≤ d.used).map Prod.snd).getD s.wall
/-- Does a node place a troupe now, but for room (R363)? -/
def hasRecords (s : State) (k : Nat) : Bool :=
  let r := s.run k
  let d := descOf s r.nodeQ
  let resident := (s.troupes.filter fun x => x.2.placed && (s.companyOf x.1).run == k).length
  !d.bad && !r.closed && (r.maxTr = 0 || resident < r.maxTr) && nodeFree s r.nodeQ 32 &&
    (32 ≤ d.used || (1 ≤ d.used && oldestSince s r d + (if r.timer = 0 then 2000 else r.timer) ≤ s.wall))
/-- Place one troupe of a node (R363). -/
def placeNode (s : State) (k : Nat) : Option State :=
  placeCompany k (fun z => (List.range 4).map fun j => (z.lastDie + 1 + j) % 4) s (s.run k).nextComp
def placement (s : State) (k : Nat) : Option State :=
  let r := s.run k
  if !eligible s k then none
  else if r.source == .callboard then (if hasRecords s k then placeNode s k else none)
  else placeNext s k
def placeable (s : State) (k : Nat) : Bool :=
  let r := s.run k
  !r.complete && r.faulted.isNone && !(s.queue r.queue).notRunnable &&
    (if (restorableRun s k).isEmpty then (placement s k).isSome
     else (companiesOfRun s k).any fun x => restoreRoom s x.1)
/-- How long the round takes to come to a queue. -/
def queueTurn (s : State) (q : Nat) : Nat := (q + 31 - s.lastServed) % 32
/-- Does the round serve this run next: no work of a higher priority, of a queue nearer in the round, or of an earlier run of
its queue can be placed (R356)? -/
def isTurn (s : State) (k : Nat) : Bool :=
  let r := s.run k
  placeable s k && s.runs.all fun x =>
    x.1 == k || !placeable s x.1 || x.2.prio < r.prio ||
      (x.2.prio = r.prio && (queueTurn s r.queue < queueTurn s x.2.queue || (r.queue = x.2.queue && k < x.1)))
/-- Is there work of the run that waits for room? -/
def waitsForRoom (s : State) (k : Nat) : Bool :=
  let r := s.run k
  r.faulted.isNone && !(s.queue r.queue).notRunnable &&
    (!(restorableRun s k).isEmpty || (eligible s k && (r.source != .callboard || hasRecords s k))) && !placeable s k

end Sys2Proof.Machine
end

