-- ==== Sys2Proof/Machine/Rounds.lean ====
section
/-! DEFINITION. The events of placement, pre-emption, eviction, restore and retirement, the gate, the callboard and the
deterministic milestones (03_execution.md R39, R40, R66; 21_consistency.md R322; 23_scheduling.md R356-R364, R367, R368;
25_traps.md R377-R385, R387; 29_translation.md R415). -/

namespace Sys2Proof.Machine

open Sys2Proof

/-! ### Placement -/

/-- The outcome of a placement: what it leaves, or that the run waits for room from now on (R356). -/
def placeOrWait (s : State) (k : Nat) : State :=
  match placement s k with
  | some s1 => if isTurn s k then completeRun s1 k else s
  | none =>
    let r := s.run k
    if waitsForRoom s k && r.waited = 0 then s.setRun k { r with waited := s.wall + 1 } else s
/-- COMPANY_PLACEMENT: the next company or circuit of a run. -/
def execCompanyPlacement (k : Nat) (s : State) : Outcome :=
  .next (if (s.run k).source == .callboard || !eligible s k then s else placeOrWait s k)
/-- CALLBOARD_PLACE: one troupe, when 32 records stand (R363); a node that has closed with no troupe left completes. -/
def execCallboardPlace (k : Nat) (s : State) : Outcome :=
  .next (if (s.run k).source == .callboard && nodeClosed s (s.run k) then completeRun s k
    else if (s.run k).source == .callboard && eligible s k && 32 ≤ (descOf s (s.run k).nodeQ).used then placeOrWait s k else s)
/-- CALLBOARD_TIMER: one troupe, when the oldest record has waited TIMER (R363). -/
def execCallboardTimer (k : Nat) (s : State) : Outcome :=
  .next (if (s.run k).source == .callboard && eligible s k && (descOf s (s.run k).nodeQ).used < 32 && hasRecords s k then
    placeOrWait s k else s)

/-! ### Pre-emption (R356, R378, R379) -/

/-- The state as it would stand without some companies and troupes. -/
def without (s : State) (cs ts : List Nat) : State :=
  { s with
    companies := s.companies.map fun x => if cs.contains x.1 then (x.1, { x.2 with stages := [], cmBase := [] }) else x
    troupes := s.troupes.map fun x =>
      if cs.contains (companyKey x.1) || ts.contains x.1 then (x.1, { x.2 with status := .saved }) else x }
/-- The threshold of a run in ns.
DEDUCED, log 74. -/
def Run.evictNs (r : Run) : Nat := 1000 * if r.evictUs = 0 then 100 else r.evictUs
/-- May a company be pre-empted for work of priority `p`? -/
def victim (s : State) (p c : Nat) : Bool :=
  let co := s.company c
  let r := s.run co.run
  let on := residentOf s c
  co.placed && !co.retired && !co.preempting && r.saveSet && r.faulted.isNone && r.prio < p &&
    on.any (fun t => (s.troupe t).status != .retiring) &&
    on.all fun t => !((s.troupe t).status == .handler && (s.troupe t).entered + r.evictNs < s.wall)
/-- The companies among which the next victim is: lowest priority first, then the youngest run.
DEDUCED, log 73. -/
def victims (s : State) (p : Nat) : List Nat :=
  let vs := (s.companies.map Prod.fst).filter (victim s p)
  let low := (vs.map fun c => (s.run (s.company c).run).prio).foldl min 3
  let vs1 := vs.filter fun c => (s.run (s.company c).run).prio == low
  let young := (vs1.map fun c => (s.company c).run).foldl max 0
  vs1.filter fun c => (s.company c).run == young
/-- PREEMPT is raised on a company; in a troupe that is being restored it is held until that handler's RTT (R378). -/
def raisePreempt (s : State) (c : Nat) : State :=
  let s1 := s.setCompany c { s.company c with preempting := true, preempted := true }
  (residentOf s c).foldl (fun z t =>
    let tr := z.troupe t
    if tr.status == .retiring || (tr.context && tr.last.reason != 2) then z else z.setTroupe t { tr with pendPre := 1 }) s1
/-- PREEMPT_RAISE: the next company, unless room exists once those under way are gone. -/
def execPreemptRaise (k : Nat) (s : State) : Outcome :=
  let r := s.run k
  let gone := (s.companies.filter fun x => x.2.preempting).map Prod.fst
  let vs := victims s r.prio
  if !waitsForRoom s k || r.waited = 0 || s.wall + 1 < r.waited + 20000 || placeable (without s gone []) k || vs.isEmpty then .next s
  else .next (raisePreempt { s with picks := s.picks + 1 } (vs.getD ((Config.freeWord s.picks).toNat % vs.length) 0))

/-- May the troupe be entered for a held pre-emption now? -/
def entersNow (s : State) (t : Nat) : Bool :=
  let tr := s.troupe t
  tr.status == .resident && tr.pendPre != 0 && !readbackOut tr && tr.pendTrap.isNone && (s.runOf t).faulted.isNone
/-- Operations that a saved company has buffered move to DETAREA (R379). -/
def moveDet (s : State) (c : Nat) : State :=
  let mine := s.stages.flatMap fun g => if g.1 = detAreaKey then [] else g.2.det.filter fun b => b.company == c
  if mine.isEmpty then s
  else
    let s1 : State := { s with stages := s.stages.map fun g =>
      if g.1 = detAreaKey then g else (g.1, { g.2 with det := g.2.det.filter fun b => b.company != c }) }
    s1.setStage detAreaKey { s1.stage detAreaKey with det := (s1.stage detAreaKey).det ++ mine }
/-- Troupes of a company that its pre-emption saves. -/
def savingOf (s : State) (c : Nat) : List Nat := residentOf s c
/-- PREEMPT: the troupes enter the context handler; once all are there and quiet, the company is saved. -/
def execPreempt (c : Nat) (s : State) : Outcome :=
  let co := s.company c
  if !co.preempting then .next s
  else if (savingOf s c).isEmpty then .next (s.setCompany c { co with preempting := false })
  else
    let now := (savingOf s c).filter (entersNow s)
    if !now.isEmpty then .next (now.foldl (fun z t => enterContext z t 1) s)
    else if (savingOf s c).all fun t => (s.troupe t).context && (s.troupe t).last.reason != 2 && troupeQuiet s t then
      let ts := savingOf s c
      let s1 := ts.foldl writeTroupeBlock s
      .next (ts.foldl releaseSaved (saveCompany (moveDet s1 c) c))
    else .next s

/-! ### Eviction and park saves (R66, R368, R380) -/

/-- Is the thread in a state of R66: in a wait that R65 names, PARKED or HELD? -/
def longWait (s : State) (t l : Nat) : Bool :=
  let th := s.thread t l
  th.parked || th.st == .held || (th.st == .waiting && match th.wait with
    | .await _ | .wpwait _ _ | .cvwait _ _ _ | .junction _ _ _ | .all _ _ | .gate | .svc _ _ => true
    | _ => false)
/-- May the thread be saved beside others that are? A SLEEP keeps no troupe resident, but is no reason of its own (R260). -/
def sleeps (s : State) (t l : Nat) : Bool :=
  let th := s.thread t l
  th.st == .waiting && match th.wait with
    | .sleep _ => true
    | _ => false
def idles (s : State) (t : Nat) : Bool :=
  (List.range 32).all (fun l => !(s.thread t l).live || longWait s t l || sleeps s t l) && (List.range 32).any (longWait s t)
/-- Has every live thread of the troupe been so for longer than the threshold? -/
def evictable (s : State) (t : Nat) : Bool :=
  let tr := s.troupe t
  let r := s.runOf t
  tr.status == .resident && tr.pendPre = 0 && tr.pendTrap.isNone && r.saveSet && r.faulted.isNone &&
    idles s t && tr.idleSince + r.evictNs < s.wall
/-- Is it a stage that the run's waiting work could take, had the stage room (R33, R357, R360, R383)? -/
def lacksStage (s : State) (k st : Nat) : Bool :=
  let r := s.run k
  let full := (stageFits s r st (share r.troupes r.nstages 0).length true).isNone
  let die := 4 * (r.nextComp / r.circuitSize) / r.circuitCount
  carries s st r.features &&
    if (restorableRun s k).isEmpty then (!r.determ || st / 128 = die) && full
    else (companiesOfRun s k).any fun x => !(restorable s x.1).isEmpty &&
      if x.2.offCore then full else x.2.stages.contains st && (stageFits s r st 1 false).isNone
/-- Does work of equal or higher priority wait for room on the troupe's stage, troupes that are being evicted aside? -/
def roomWanted (s : State) (t : Nat) : Bool :=
  let leaving := (s.troupes.filter fun x => x.2.placed && (x.2.pendPre = 4 || (x.2.context && x.2.last.reason = 4))).map Prod.fst
  let gone := (s.companies.filter fun x => x.2.preempting).map Prod.fst
  let s1 := without s gone leaving
  s.runs.any fun x => (s.runOf t).prio ≤ x.2.prio && waitsForRoom s x.1 && !placeable s1 x.1 &&
    lacksStage s1 x.1 (s.troupe t).stage
/-- Steps 1 to 5 for a troupe alone, and 6 and 7 when it is the company's last resident one. -/
def saveAlone (s : State) (t : Nat) : State :=
  let c := companyKey t
  let s1 := writeTroupeBlock s t
  releaseSaved (if residentOf s c == [t] then saveCompany (moveDet s1 c) c else s1) t
/-- EVICTION: of the troupes that may be evicted the longest-waiting is chosen; once it is in the context handler and quiet it is
saved. A park's save ends the same way. -/
def execEviction (t : Nat) (s : State) : Outcome :=
  let tr := s.troupe t
  if tr.context && (tr.last.reason = 3 || tr.last.reason = 4) && !(s.companyOf t).preempting then
    .next (if troupeQuiet s t && tr.status == .handler then saveAlone s t else s)
  else if evictable s t && roomWanted s t &&
      s.troupes.all fun x => !(evictable s x.1 && roomWanted s x.1) || tr.idleSince ≤ x.2.idleSince then
    .next (s.setTroupe t { tr with pendPre := 4 })
  else .next s

/-! ### Restore (R383, R384) -/

/-- Stand a saved troupe on a stage, in the context handler. -/
def standSaved (s : State) (t st w : Nat) : State :=
  let tr := s.troupe t
  -- what the stage's RO cache holds may be older than what the thread has read elsewhere (R86)
  let s0 := freshText s (s.companyOf t).run st
  let s1 := s0.setStage st { s0.stage st with ro := [] }
  enterContext (s1.setTroupe t { tr with status := .resident, stage := st, wing := w, idleSince := s.wall, pendPre := 0 }) t 2
/-- Phase 1: the troupes get their places. -/
def beginRestore (s : State) (c : Nat) (stages : List Nat) : State :=
  let co := s.company c
  let r := s.run co.run
  let ts := restorable s c
  if co.offCore then
    match restoreStages s c stages with
    | none => s
    | some g =>
      let s1 := s.setCompany c { co with stages := stages, cmBase := g.map Prod.snd, die := stages.headD 0 / 128 }
      let s2 := ts.foldl (fun z t =>
        let k := troupeNo t % r.nstages
        let j := (ts.filter fun u => u < t && troupeNo u % r.nstages == k).length
        standSaved z t (stages.getD k 0) ((g.getD k ([], 0)).1.getD j 0)) s1
      { s2.setRun co.run { s2.run co.run with waited := 0 } with lastServed := r.queue }
  else
    match ts, stages with
    | t :: _, st :: _ =>
      if !co.stages.contains st then s
      else match stageFits s r st 1 false with
      | some (w :: _, _) =>
        let s1 := standSaved s t st w
        { s1.setRun co.run { s1.run co.run with waited := 0 } with lastServed := r.queue }
      | _ => s
    | _, _ => s
/-- Phase 2: the images are read back and RTT completes. The company stays pre-empted if PREEMPT has been raised again (R385). -/
def endRestore (s : State) (c : Nat) (ts : List Nat) : State :=
  let first := if (s.company c).offCore then loadCompany s c else some s
  match ts.foldl (fun z t => z.bind fun y => restoreTroupe y t) first with
  | none => restoreFails s c
  | some s1 =>
    let co := s1.company c
    if (troupesOf s1 c).any fun t => (s1.troupe t).status == .saved then s1
    else queueRefills (s1.setCompany c { co with preempted := co.preempting }) c
/-- Could the company be placed on an empty module? -/
def fitsEmpty (s : State) (c : Nat) : Bool :=
  (findRestore { s with companies := s.companies.filter (fun x => x.1 == c)
                        troupes := s.troupes.filter fun x => companyKey x.1 == c } c).isSome
/-- The image that a restore reads back (R383): its ranges, with a byte in each region. -/
def imageReads (s : State) (c : Nat) (ts : List Nat) : List (Nat × Nat) :=
  let r := s.run (s.company c).run
  let span (a n : Nat) : List (Nat × Nat) := (a, n) :: (List.range (n / 2 ^ 21 + 1)).map fun k => (min (a + 2 ^ 21 * k) (a + n - 1), 1)
  (if (s.company c).offCore then span (r.companyBlock (s.company c).index) (50944 + r.memBytes) else []) ++
    ts.flatMap fun t => span (blockOf s t) r.troupeBytes
/-- May it be read: no line closed, and every P bit set? -/
def imageReady (s : State) (c : Nat) (ts : List Nat) : Bool :=
  deviceFree s (imageReads s c ts) && (s.pclear.isEmpty || !anyAbsent s (imageReads s c ts))
/-- RESTORE, for a company whose turn it is, on stages of one die; or for one troupe of a company that still stands. -/
def execRestore (c : Nat) (stages : List Nat) (s : State) : Outcome :=
  let co := s.company c
  let r := s.run co.run
  let under := (troupesOf s c).filter fun t => (s.troupe t).context && (s.troupe t).last.reason = 2
  if r.faulted.isSome || r.complete then .next s
  else if !under.isEmpty then .next (if imageReady s c under then endRestore s c under else s)
  else if (s.queue r.queue).notRunnable || (restorable s c).isEmpty then .next s
  else if co.offCore && !fitsEmpty s c then .next (restoreFails s c)
  else if isTurn s co.run then .next (beginRestore s c stages)
  else .next s

/-! ### Deterministic milestones (R322) -/

def detLe (a b : BufOp) : Bool :=
  let x := a.key
  let y := b.key
  x.1 < y.1 || (x.1 = y.1 && (x.2.1 < y.2.1 || (x.2.1 = y.2.1 && (x.2.2.1 < y.2.2.1 || (x.2.2.1 = y.2.2.1 && x.2.2.2 ≤ y.2.2.2)))))
/-- Perform a buffered operation at its home, or send it. One that its home would hold for stale marks or a closed line, or that
follows such a one, goes on as an access.
DEDUCED, log 76. -/
def detPerform (s : State) (b : BufOp) : State :=
  let a : Access := { Access.make (.det b.run b.stage) b.op b.addr b.phys b.size with
    data := b.data, ty := b.ty, after := detAccs s b.run, dev := if isRemote s b.addr then some (remoteId b.addr) else none }
  if a.dev.isSome then sendRemote (addAcc s a) { a with id := s.nextId }
  else if !(detAccs s b.run).isEmpty || anyWatched s [(b.phys, b.size)] || lineClosed s 0 [(b.phys, b.size)] then addAcc s a
  else
    let s1 := consume s a.who (some b.run) b.addr b.phys b.size
    homeWriteN s1 a.who b.phys b.size (combineN b.op b.ty b.size (cleanN s b.phys b.size) b.data.toNat 0)
/-- Perform the operations of a run that meet a condition, in ascending sort key; each waits for its line (R74).
DEDUCED, log 76. -/
def drainDet (s : State) (k : Nat) (p : BufOp → Bool) : Option State :=
  let mine := (detOps s k).filter p
  if mine.any fun b => !isRemote s b.addr && anyAbsent s [(b.phys, b.size)] then none
  else
    let s1 : State := { s with stages := s.stages.map fun g =>
      (g.1, { g.2 with det := g.2.det.filter fun b => !(b.run == k && p b) }) }
    some ((sortBy detLe mine).foldl detPerform s1)
/-- Is the operation on company memory? -/
def BufOp.onCm (b : BufOp) : Bool := spaceOf b.addr = 1
/-- Is the company released (R301, R322)? -/
def isReleased (s : State) (co : Company) : Bool := releasePerformed s co && (!(s.run co.run).determ || co.drained)
/-- Has every company of a run executed RELEASE or retired? -/
def allReleased (s : State) (k : Nat) : Bool :=
  allPlaced s k && (companiesOfRun s k).all fun x => x.2.retired || isReleased s x.2

/-! ### Retirement (R39, R40, R360, R377) -/

/-- A company retires once all its troupes have, and its last operations on company memory have been performed. -/
def companyCheck (s : State) (c : Nat) : State :=
  let co := s.company c
  let r := s.run co.run
  if co.retired || !((troupesOf s c).all fun t => (s.troupe t).status == .retired) ||
      (detOps s co.run).any (fun b => b.company == c && b.onCm) || !(detAccs s co.run).isEmpty then s
  else
    let s1 := (s.setCompany c { co with retired := true, junctions := [] }).setRun co.run { r with retired := r.retired + 1 }
    completeRun s1 co.run
/-- Has every circuit of lower rank retired (R360)? -/
def lowerRetired (s : State) (c : Nat) : Bool :=
  let co := s.company c
  let r := s.run co.run
  !r.determ || (companiesOfRun s co.run).all fun x =>
    x.2.retired || r.rankOf (circuitIndex r co.index) ≤ r.rankOf (circuitIndex r x.2.index)
/-- A troupe gives everything up. -/
def freeTroupe (s : State) (t : Nat) : State :=
  let s1 := dropBundles (dropRecords s t) t
  let tr := s1.troupe t
  s1.setTroupe t { Troupe.absent with status := .retired, stage := tr.stage, wing := tr.wing }

/-- The fault record of the run header (Table 25.5).
DEDUCED, log 78. -/
def faultRecord (s : State) (k : Nat) (x : TrapInfo) : List Byte :=
  let r := s.run k
  leBytes 1 x.code ++ [0] ++ leBytes 1 (if x.mask = 0 then 0 else lowLane x.mask) ++ [0] ++ leBytes 4 x.pc.toNat ++
    leBytes 4 (s.companyOf r.faultT).index ++ leBytes 4 (troupeNo r.faultT) ++ leBytes 8 x.val.toNat ++ List.replicate 232 0
/-- Troupes of a run. -/
def troupesOfRun (s : State) (k : Nat) : List Nat := (companiesOfRun s k).flatMap fun x => troupesOf s x.1
/-- Have the stores and engine operations of a troupe of a faulted run ended? -/
def faultQuiet (s : State) (t : Nat) : Bool := (storeQueue s t).isEmpty && (s.troupe t).ops.isEmpty
/-- The end of a faulted run (R377): the record, then every company is freed, then the report.
DEDUCED, log 77. -/
def endFaulted (s : State) (k : Nat) (x : TrapInfo) : State :=
  let r := s.run k
  let ts := troupesOfRun s k
  if !(ts.all (faultQuiet s)) || (companiesOfRun s k).all (fun y => y.2.retired) then s
  else
    let s1 := if r.saveSet then deviceWrite s r.save (faultRecord s k x) else s
    let s2 : State := { s1 with accs := s1.accs.filter fun a => !ts.any fun t => a.who.ofTroupe t }
    let s3 := (ts.filter fun t => (s.troupe t).status != .retired).foldl freeTroupe s2
    let s4 := (companiesOfRun s3 k).foldl (fun z y => z.setCompany y.1 { z.company y.1 with
      retired := true, junctions := [], preempting := false }) s3
    completeRun (postRunError s4 k 12) k

/-- TROUPE_RETIRE: also the run fault of a troupe that reaches RETIRING with a recorded XLATE (R415), and the end of a faulted
run. -/
def execTroupeRetire (t : Nat) (s : State) : Outcome :=
  let tr := s.troupe t
  let k := (s.companyOf t).run
  match (s.run k).faulted, tr.xfaults with
  | some x, _ => .next (endFaulted s k x)
  | none, v :: _ =>
    if tr.status == .retiring then
      .next (runFault { s with picks := s.picks + 2 } t
        ⟨0, 0x1A, Config.freeWord s.picks, laneBit ((Config.freeWord (s.picks + 1)).toNat % 32), v, 0, 0, none⟩)
    else .next s
  | none, [] =>
    if tr.status == .retiring && (storeQueue s t).isEmpty && tr.ops.isEmpty && lowerRetired s (companyKey t) &&
        tr.svcs.all fun x => cleanN s (x.slot + 8) 8 != 0 then
      .next (companyCheck (freeTroupe s t) (companyKey t))
    else .next s

/-- DETERMINISTIC_MILESTONE of run `k`: kind 0 the second milestone, 1 the run's end, 2 + 2c the first RELEASE of company c,
3 + 2c its retirement. A milestone is over once each of its operations has been performed. -/
def execDeterministicMilestone (k kind : Nat) (s : State) : Outcome :=
  let r := s.run k
  let c := (kind - 2) / 2
  let co := s.company c
  if !r.determ then .next s
  else if kind = 0 then
    if r.milestone || !allReleased s k then .next s
    else match drainDet s k fun b => !b.tag && !b.onCm with
    | some s1 => .next (if detAccs s1 k = [] then s1.setRun k { s1.run k with milestone := true } else s1)
    | none => .next s
  else if kind = 1 then
    if r.complete || !((allPlaced s k || r.faulted.isSome) && (companiesOfRun s k).all fun x => x.2.retired) ||
        (!r.milestone && r.faulted.isNone) then .next s
    else match drainDet s k fun _ => true with
    | some s1 => .next (completeRun s1 k)
    | none => .next s
  else if co.run != k || co.offCore then .next s
  else if kind % 2 = 0 then
    if co.drained || !releasePerformed s co then .next s
    else match drainDet s k fun b => b.company == c && !b.tag && b.onCm with
    | some s1 => .next (if detAccs s1 k = [] then s1.setCompany c { s1.company c with drained := true } else s1)
    | none => .next s
  else
    if co.retired || !((troupesOf s c).all fun t => (s.troupe t).status == .retired) then .next s
    else match drainDet s k fun b => b.company == c && b.onCm with
    | some s1 => .next (companyCheck s1 c)
    | none => .next s

/-! ### The gate (R300, R361) -/

/-- Does the gate of a run open? -/
def gateReady (s : State) (k : Nat) : Bool :=
  match (s.run k).pred with
  | none => true
  | some p =>
    let r := s.run p
    r.complete || !(s.runs.any fun x => x.1 == p) || (allReleased s p && (!r.determ || r.milestone))
/-- GATE_OPEN: one event for all the run's companies; the end of each wait is an acquire (R300). -/
def execGateOpen (k : Nat) (s : State) : Outcome :=
  let r := s.run k
  if r.gateOpen || !gateReady s k then .next s
  else
    let s1 := s.setRun k { r with gateOpen := true }
    .next ((troupesOfRun s k).foldl (fun z t =>
      let tr := z.troupe t
      let m := maskOf fun l => (tr.thread l).st == .waiting && (tr.thread l).wait == .gate
      if m = 0 then z else bundleByPc (dropRo (leaveLanes z t m fun _ => 0) tr.stage) t m) s1)

end Sys2Proof.Machine
end

