-- ==== Sys2Proof/Machine/Prompter.lean ====
section
/-! DEFINITION. The prompter's threads: queue maps, the loop, packets and the checks of a RUN
(03_execution.md R43, R45; 05_windows.md R433; 13_encoding.md R169-R171; 23_scheduling.md R341-R355, R361, R362). -/

namespace Sys2Proof.Machine

open Sys2Proof

/-! ### Packets -/

/-- A field of `n` bytes. -/
def fieldN (bs : List Byte) (off n : Nat) : Nat := leNat ((bs.drop off).take n)
def fieldD (bs : List Byte) (off : Nat) : Dword := BitVec.ofNat 64 (fieldN bs off 8)
/-- May the prompter read a range now (R433)? -/
def promptReads (s : State) (a n : Nat) : Bool := deviceMayRead s [(a, n)]
/-- The slot of packet HEAD. -/
def Queue.slot (x : Queue) : Nat := x.ring + 128 * (x.head % 2 ^ x.capLog2)
/-- The packet a queue stands at, from an indirect buffer or from its ring; none while it cannot be read. -/
def packetBytes (s : State) (q : Nat) : Option (List Byte) :=
  let x := s.queue q
  match x.buf with
  | some (a, _, k) =>
    match x.pre.find? fun g => g.1 == k / 2 with
    | some g => some ((g.2.drop (128 * (k % 2))).take 128)
    | none => if promptReads s (a + 256 * (k / 2)) 256 then some (cleanBytes s (a + 128 * k) 128) else none
  | none => if promptReads s x.slot 128 then some (cleanBytes s x.slot 128) else none
def packetType (bs : List Byte) : Nat := fieldN bs 0 1
/-- Does a ring slot mismatch (R346)? -/
def mismatch (x : Queue) (bs : List Byte) : Bool := packetType bs = 255 || fieldN bs 2 2 != (x.head + 1) % 2 ^ 16
/-- The packet a queue acts on now: it is served, at a packet, and the packet passes its check. -/
def current (s : State) (q : Nat) : Option (List Byte) :=
  let x := s.queue q
  if !x.served || x.mode != .loop || x.broken != 0 then none
  else match packetBytes s q with
  | some bs => if x.buf.isNone && mismatch x bs then none else some bs
  | none => none
/-- A granule of an indirect buffer, read whole; from here on its packets are those (R349). -/
def takeGranule (s : State) (q a g : Nat) : State :=
  let x := s.queue q
  if x.pre.any fun p => p.1 == g then s
  else s.setQueue q { x with pre := tput x.pre g (cleanBytes s (a + 256 * g) 256) }
/-- The consumed mark of a ring slot (R345); of a buffer's packet, the granule it was read with. -/
def consumeSlot (s : State) (q : Nat) : State :=
  let x := s.queue q
  match x.buf with
  | some (a, _, k) => takeGranule s q a (k / 2)
  | none => deviceWrite s x.slot [0xFF]
def poisonSlot (s : State) (q : Nat) : State :=
  let x := s.queue q
  if x.buf.isSome then s else consume s (.prompter q) none 0 x.slot 128

/-- A run that has launched a packet into a queue may end with the last of its children's packets (R362). -/
def parentsCheck (s : State) (q : Nat) : State :=
  (s.runs.filter fun r => r.2.launched.any fun p => p.1 == q).foldl (fun z r => completeRun z r.1) s
/-- HEAD advances; the loop goes on while HEAD differs from TAIL as read. -/
def headNext (s : State) (q : Nat) : State :=
  let x := s.queue q
  let h := x.head + 1
  parentsCheck (putQcb (s.setQueue q { x with head := h, mode := if h % 2 ^ 32 = x.tail then .asleep else .loop }) q 28 h) q
/-- The packet has been acted on: the next of the buffer, or of the ring. -/
def nextPacket (s : State) (q : Nat) : State :=
  let x := s.queue q
  match x.buf with
  | some (a, n, k) =>
    if k + 1 < n then s.setQueue q { x with buf := some (a, n, k + 1), mode := .loop }
    else headNext (s.setQueue q { x with buf := none, pre := [] }) q
  | none => headNext s q
/-- The packet retires as it stands: its number is HEAD's, an indirect buffer's packets having their INDIRECT's. -/
def retireCurrent (s : State) (q : Nat) : State := let x := s.queue q; retirePacket s q x.head x.epoch
/-- A packet that is over when it has been read. -/
def donePacket (s : State) (q : Nat) : State := nextPacket (retireCurrent s q) q
/-- Refuse the packet (R350). -/
def refuse (s : State) (q code : Nat) (isRun : Bool) : State :=
  let x := s.queue q
  let n := sat32 (x.refused + 1)
  let s1 := putQcb (s.setQueue q { x with refused := n, prevRun := if isRun then some 0 else x.prevRun }) q 36 n
  donePacket (postError s1 q code (x.head % 2 ^ 32)) q

/-! ### Queue maps (R341-R343) -/

/-- The error code of a control block that serves nothing; 0 for a good one. -/
def qcbBroken (s : State) (part cap ring spool spoolSize : Nat) : Nat :=
  if cap < 1 || 16 < cap then 3
  else if ring % 128 != 0 || !rangeInPart s part ring (128 * 2 ^ cap) || !rangeInPart s part spool spoolSize ||
      2 ^ 34 ≤ spool then 10
  else 0
/-- Bits of a QMAP register that are held (Table 23.1, R7). -/
def qmapMask : Dword := 0x8EFFFF03FFFFFFFF
/-- Latch a queue (R342, R343). -/
def latchQueue (s : State) (q : Nat) (x : Dword) : State :=
  let a := (x.extractLsb' 0 34).toNat
  let part := (x.extractLsb' 40 16).toNat
  let cap := cleanN s (a + 8) 1
  let ring := cleanN s a 8
  let spool := cleanN s (a + 48) 8
  let size := cleanN s (a + 56) 8
  let old := s.queue q
  let s1 := s.setQueue q { Queue.unmapped with
    served := true
    pceil := (x.extractLsb' 58 2).toNat
    lcap := x.getLsbD 57
    part := part
    qcb := a
    ring := ring
    capLog2 := cap
    evictUs := cleanN s (a + 10) 2
    errq := BitVec.ofNat 64 (cleanN s (a + 40) 8)
    spool := spool
    spoolSize := size
    broken := qcbBroken s part cap ring spool size
    epoch := old.epoch + 1 }
  putQcb (putQcb (putQcb (putQcb s1 q 24 0) q 28 0) q 32 0) q 36 0
def qmapOf (s : State) (q : Nat) : Dword := tget s.ports.qmap 0 q
def putQmap (s : State) (q : Nat) (x : Dword) : State :=
  { s with ports := { s.ports with qmap := tput s.ports.qmap q (x &&& qmapMask) } }
/-- QMAP_ENABLE: a write that changes EN from 0 to 1. The block is read once its lines are present (R433). -/
def execQmapEnable (q : Nat) (x : Dword) (s : State) : Outcome :=
  let a := ((x &&& qmapMask).extractLsb' 0 34).toNat
  if 32 ≤ q || (qmapOf s q).getLsbD 63 || !x.getLsbD 63 || !promptReads s a 64 then .next s
  else .next (parentsCheck (latchQueue (putQmap s q x) q (x &&& qmapMask)) q)
/-- What is left of a prompter's thread at its packet boundary: a store that a SIGNAL has made is still to be performed. A WAIT
that waits, a SIGNAL that waits for COMPLETE, and the rest of an indirect buffer are abandoned.
DEDUCED, log 64. -/
def PMode.stopped (m : PMode) : PMode :=
  match m with
  | .storing id => .storing id
  | _ => .asleep
/-- QMAP_DISABLE: a write that changes EN from 1 to 0; the thread stops at its packet boundary. Runs that have been accepted go
on. -/
def execQmapDisable (q : Nat) (x : Dword) (s : State) : Outcome :=
  if 32 ≤ q || !(qmapOf s q).getLsbD 63 || x.getLsbD 63 then .next s
  else
    let s1 := putQmap s q x
    let y := s1.queue q
    .next (s1.setQueue q { y with
      served := false, mode := y.mode.stopped
      buf := if y.mode.stopped = .asleep then none else y.buf, pre := [] })

/-! ### The loop (R345, R346) -/

/-- PROMPTER_WAKE: AWAIT and TAKE of NOTIFY, and the load of TAIL.
DESIGN CHOICE, log 65. -/
def execPrompterWake (q : Nat) (s : State) : Outcome :=
  let x := s.queue q
  if !x.served || x.mode != .asleep || cleanN s (x.qcb + 16) 8 = 0 || !promptReads s (x.qcb + 12) 12 then .next s
  else
    let s1 := deviceWriteN s (x.qcb + 16) 8 0
    let t := cleanN s1 (x.qcb + 12) 4
    .next (s1.setQueue q { s1.queue q with tail := t, mode := if x.head % 2 ^ 32 = t then .asleep else .loop })
/-- Drop a packet after its eighth re-read (R346). -/
def dropPacket (s : State) (q : Nat) : State :=
  let x := s.queue q
  let n := sat32 (x.dropped + 1)
  let s1 := putQcb ((consumeSlot s q).setQueue q { x with dropped := n, prevRun := some 0 }) q 32 n
  donePacket (postError s1 q 1 (x.head % 2 ^ 32)) q
/-- SLOT_REREAD: the first reading that mismatches, then one after each microsecond. -/
def execSlotReread (q : Nat) (s : State) : Outcome :=
  let x := s.queue q
  if !x.served || x.buf.isSome || x.broken != 0 then .next s
  else match packetBytes s q, x.mode with
  | some bs, .loop => .next (if mismatch x bs then s.setQueue q { x with mode := .reread 0 s.wall } else s)
  | some bs, .reread n since =>
    if s.wall < since + 1000 then .next s
    else if !mismatch x bs then .next (s.setQueue q { x with mode := .loop })
    else if n + 1 < 8 then .next (s.setQueue q { x with mode := .reread (n + 1) s.wall })
    else .next (dropPacket s q)
  | _, _ => .next s

/-- PACKET_NOP: a NOP, or a packet that is refused when it is read: of an unknown type, or one of a queue whose block serves
nothing (R343, R348). -/
def execPacketNop (q : Nat) (s : State) : Outcome :=
  let x := s.queue q
  if x.served && x.mode == .loop && x.broken != 0 then .next (refuse s q x.broken true)
  else match current s q with
  | none => .next s
  | some bs =>
    let ty := packetType bs
    let s1 := consumeSlot (poisonSlot s q) q
    if ty = 0 then .next (donePacket s1 q) else if 5 ≤ ty then .next (refuse s1 q 2 false) else .next s

/-! ### WAIT, SIGNAL, INDIRECT (R348, R349) -/

/-- Is an address device-local die scratchpad, aligned, and in the partition?
DEDUCED, log 79. -/
def goodAddr (s : State) (part : Nat) (x : Dword) (n align : Nat) : Bool :=
  isLocalForm x && isScratchSpace s x && offOf x % 2 ^ 34 % align = 0 && (spaceOf x = 4 || offOf x < 2 ^ 34) &&
    rangeInPart s part (scratchOff x) n
/-- Begin to examine the word: at once, or after the earlier runs. -/
def examine (s : State) (q a : Nat) (v : Dword) (cond : Nat) : State :=
  s.setQueue q { s.queue q with mode := .waiting false a v cond (waitCond cond (BitVec.ofNat 64 (cleanN s a 8)) v) }
/-- WAIT. -/
def execWaitPacket (q : Nat) (s : State) : Outcome :=
  match current s q with
  | none => .next s
  | some bs =>
    if packetType bs != 2 then .next s
    else
      let s1 := consumeSlot (poisonSlot s q) q
      let f := fieldN bs 24 8
      let cond := f % 4
      let x := fieldD bs 8
      if f / 2 ^ 9 != 0 || f / 4 % 64 != 0 || fieldN bs 32 96 != 0 || fieldN bs 1 1 != 0 || fieldN bs 4 4 != 0 || cond = 3 then
        .next (refuse s1 q 3 false)
      else if !goodAddr s (s.queue q).part x 8 8 then .next (refuse s1 q 10 false)
      else .next (s1.setQueue q { s1.queue q with mode := .waiting true (scratchOff x) (fieldD bs 16) (cond + if f / 2 ^ 8 % 2 = 1 then 4 else 0) false })
/-- WAIT_CONDITION_MET: first the drain, then the examination, then the queue proceeds. -/
def execWaitConditionMet (q : Nat) (s : State) : Outcome :=
  let x := s.queue q
  match x.mode with
  | .waiting true a v cond _ =>
    if !x.served || (4 ≤ cond && !x.openRuns.isEmpty) || !promptReads s a 8 then .next s else .next (examine s q a v (cond % 4))
  | .waiting false _ _ _ true => .next (if x.served then donePacket s q else s)
  | _ => .next s

/-- The bytes that a SIGNAL's store touches: of a CAST those on all four dies (R78, R432). -/
def signalRanges (x : Dword) (size : Nat) : List (Nat × Nat) :=
  if winOp false (winOf x) == .cast then (fourDies (scratchOff x)).map fun p => (p, size) else [(scratchOff x, size)]
/-- Store windows of a SIGNAL (Table 5.3). -/
def signalWindow (x : Dword) (size : Nat) : Bool := winKind false (winOf x) && winSize (winOf x) size
/-- Issue a SIGNAL's store: a CAST into die scratchpad goes to all four dies (R78). -/
def signalStore (s : State) (q : Nat) (x v : Dword) (size : Nat) : State :=
  let op := winOp false (winOf x)
  let s1 := addAcc s { Access.make (.prompter q) op x (scratchOff x) size with
    data := v, ty := typeOf x, rel := true, scope := .system, after := promptAccs s q
    dies := if op == .cast then fourDies (scratchOff x) else [] }
  s1.setQueue q { s1.queue q with mode := .storing s.nextId }
/-- SIGNAL: the packet is read, its store is made once the earlier runs are complete where it asks for that, and the queue goes
on when the store has been performed.
DEDUCED, log 81. -/
def execSignal (q : Nat) (s : State) : Outcome :=
  let y := s.queue q
  match y.mode with
  | .signalHold x v size => .next (if y.served && y.openRuns.isEmpty then signalStore s q x v size else s)
  | .storing id =>
    .next (if !accDone s id then s
      else if y.served || y.buf.isNone then donePacket s q
      else (retireCurrent s q).setQueue q { (retireCurrent s q).queue q with mode := .asleep, buf := none })
  | _ =>
    match current s q with
    | none => .next s
    | some bs =>
      if packetType bs != 3 then .next s
      else
        let s1 := consumeSlot (poisonSlot s q) q
        let f := fieldN bs 24 8
        let size := if f / 2 ^ 9 % 2 = 1 then 8 else 4
        let x := fieldD bs 8
        let v := fieldD bs 16
        if f / 2 ^ 10 != 0 || f % 256 != 0 || fieldN bs 32 96 != 0 || fieldN bs 1 1 != 0 || fieldN bs 4 4 != 0 ||
            (size = 4 && fieldN bs 20 4 != 0) then .next (refuse s1 q 3 false)
        else if !goodAddr s y.part x (if winOf x = 8 then 32 else size) (if winOf x = 8 then 32 else size) ||
            !signalWindow x size || !(signalRanges x size).all (fun r => rangeInPart s y.part r.1 r.2) then .next (refuse s1 q 10 false)
        else if f / 2 ^ 8 % 2 = 1 then .next (s1.setQueue q { s1.queue q with mode := .signalHold x v size })
        else .next (signalStore s1 q x v size)

/-- INDIRECT: the buffer's packets are acted on next. Its other bits are ignored, as are those of a NOP (R7).
DEDUCED, log 122. -/
def execIndirect (q : Nat) (s : State) : Outcome :=
  match current s q with
  | none => .next s
  | some bs =>
    if packetType bs != 4 then .next s
    else
      let y := s.queue q
      let s1 := consumeSlot (poisonSlot s q) q
      let x := fieldD bs 8
      let n := fieldN bs 16 8
      if y.buf.isSome then .next (refuse s1 q 2 false)
      else if n = 0 || 4096 < n then .next (refuse s1 q 3 false)
      else if !goodAddr s y.part x (128 * n) 256 then .next (refuse s1 q 10 false)
      else
        let z := s1.queue q
        .next (s1.setQueue q { z with buf := some (scratchOff x, n, 0), pre := [], bufOpen := z.bufOpen ++ [(z.head, n)] })
/-- A granule of an indirect buffer is fetched ahead (R349). -/
def prefetch (q g : Nat) (s : State) : State :=
  let x := s.queue q
  match x.buf with
  | some (a, n, _) =>
    if 2 * g < n && promptReads s (a + 256 * g) 256 then takeGranule s q a g else s
  | none => s

/-! ### RUN (R171, R352-R354) -/

/-- Does the code object break a constraint of Table 13.12 or R171? `h` holds the header's bytes, `a` its address. -/
def codeBroken (h : List Byte) (a : Nat) : Bool :=
  let w (k : Nat) : Nat := fieldN h k 4
  let tsize := w 12
  let entryBad (x : Nat) (opt : Bool) : Bool := !(opt && x = 0xFFFFFFFF) && (x % 12 != 0 || tsize ≤ x)
  let room := 2 ^ 32 - a % 2 ^ 32
  let badPart (o n : Nat) : Bool := w o % 256 != 0 || room < w o + w n
  w 0 != 0x31344D4C || 1 < fieldN h 4 2 || tsize = 0 || tsize % 12 != 0 || badPart 8 12 || badPart 16 20 || badPart 24 28 ||
    entryBad (w 32) false || entryBad (w 36) true || entryBad (w 40) true || fieldN h 44 2 = 0 || 512 < fieldN h 44 2 ||
    fieldN h 46 2 = 0 || 256 < fieldN h 46 2 || w 48 % 8 != 0 || 3 < fieldN h 52 1 || fieldN h 53 1 != 0 ||
    255 < fieldN h 54 2 || fieldN h 56 8 != 0
/-- Bytes from the header to the end of its last section. -/
def codeSpan (h : List Byte) : Nat :=
  let w (k : Nat) : Nat := fieldN h k 4
  max 64 (max (w 8 + w 12) (max (w 16 + w 20) (w 24 + w 28)))
/-- Is the code object's address good: space 0, window PLAIN, aligned, the header in the partition (R169)? -/
def codeAddrGood (s : State) (part : Nat) (x : Dword) : Bool :=
  spaceOf x = 0 && winOf x = 0 && goodAddr s part x 64 256

/-- The run that a RUN packet and its code object's header describe (R353). -/
def runOfPacket (y : Queue) (q : Nat) (bs h : List Byte) (good : Bool) : Run :=
  let hdr := fieldN bs 0 8
  let hw (k n d : Nat) : Nat := if good then fieldN h k n else d
  let circ := fieldN bs 48 4
  let det := fieldN bs 104 8
  let code := scratchOff (fieldD bs 8)
  let cue := hw 36 4 0
  let troupes := if fieldN bs 44 2 = 0 then hw 46 2 1 else fieldN bs 44 2
  { Run.absent with
    queue := q
    packet := y.head
    epoch := y.epoch
    part := y.part
    prio := min (hdr / 2 ^ 36 % 4) y.pceil
    source := if hdr / 2 ^ 38 % 4 = 0 then .shared else if hdr / 2 ^ 38 % 4 = 1 then .ranged else .callboard
    grain := if fieldN bs 61 1 = 0 then hw 52 1 0 else fieldN bs 61 1 - 1
    launchCap := hdr / 2 ^ 35 % 2 = 1
    urgency := hdr / 2 ^ 34 % 2 = 1
    strict := hdr / 2 ^ 33 % 2 = 1
    determ := hdr / 2 ^ 32 % 2 = 1
    items := fieldN bs 16 8
    range := if hdr / 2 ^ 38 % 4 = 1 then fieldN bs 24 8 else 0
    grid := (fieldN bs 32 4, fieldN bs 36 4, fieldN bs 40 4)
    circuit := (circ % 256, circ / 2 ^ 8 % 256, circ / 2 ^ 16 % 256)
    castMap := circ / 2 ^ 24 % 16
    troupes := troupes
    producer := if fieldN bs 46 2 = 0xFFFF then hw 54 2 0 else fieldN bs 46 2
    regs := max (fieldN bs 52 2) (hw 44 2 1)
    features := fieldN bs 54 2 ||| hw 6 2 0
    cmem := fieldN bs 56 4
    acct := fieldN bs 60 1
    nstages := fieldN bs 62 1
    stack := max (fieldN bs 64 4) (hw 48 4 0)
    param := scratchOff (fieldD bs 72)
    psize := fieldN bs 68 4
    save := scratchOff (fieldD bs 80)
    saveSet := fieldN bs 80 8 != 0
    closeAt := scratchOff (fieldD bs 88)
    nodeQ := scratchOff (fieldD bs 24)
    timer := fieldN bs 96 4
    maxTr := fieldN bs 100 2
    detArea := det % 2 ^ 34
    detLen := if hdr / 2 ^ 32 % 2 = 1 then 2 ^ (det / 2 ^ 34 % 64) else 0
    spool := y.spool
    spoolSize := y.spoolSize
    code := code
    text := code + hw 8 4 0
    textSize := hw 12 4 0
    entry := BitVec.ofNat 32 (hw 32 4 0)
    cue := BitVec.ofNat 32 (if cue = 0xFFFFFFFF then hw 32 4 0 else cue)
    trapVec := BitVec.ofNat 32 (hw 40 4 0xFFFFFFFF)
    sibling := (fieldN bs 116 4, fieldN bs 120 2, fieldN bs 124 4)
    evictUs := y.evictUs
    errq := y.errq }

/-- Companies of the run that an empty stage holds a share of. -/
def sharesPerStage (r : Run) : Nat :=
  let k := ceilDiv r.troupes r.nstages
  let a := 4 * min 16 (262144 / r.regBytes) / k
  let b := if r.acct = 0 then a else min a (64 / (k * r.acct))
  if r.cmem = 0 then b else min b (2 ^ 19 / r.cmem)
/-- The code of the first check of Table 23.10 that a RUN fails.
DEDUCED, log 80. -/
def runRefusal (s : State) (y : Queue) (bs h : List Byte) (r : Run) : Option Nat :=
  let hdr := fieldN bs 0 8
  let det := fieldN bs 104 8
  let isCall := hdr / 2 ^ 38 % 4 = 2
  let addrGood := codeAddrGood s y.part (fieldD bs 8)
  let broken := codeBroken h r.code
  let stagesFree (d : Nat) : Nat := ((List.range 128).filter fun k => carries s (128 * d + k) r.features).length
  let stagesAll : Nat := ((List.range 512).filter (stageExists s)).length
  let circuitBad := r.circuit.1 = 0 || r.circuit.2.1 = 0 || r.circuit.2.2 = 0 || r.grid.1 % r.circuit.1 != 0 ||
    r.grid.2.1 % r.circuit.2.1 != 0 || r.grid.2.2 % r.circuit.2.2 != 0 || 16 < r.circuitSize
  let shareBad := 64 < ceilDiv r.troupes r.nstages || sharesPerStage r = 0
  if hdr / 2 ^ 42 != 0 || hdr / 2 ^ 8 % 2 ^ 8 != 0 || fieldN bs 48 4 / 2 ^ 28 != 0 || fieldN bs 63 1 != 0 ||
      fieldN bs 102 2 != 0 || fieldN bs 122 2 != 0 || det / 2 ^ 40 != 0 then some 3
  else if 2 ≤ hdr / 2 ^ 40 % 4 || hdr / 2 ^ 38 % 4 = 3 || 4 < fieldN bs 61 1 || r.regs = 0 || 512 < r.regs || 256 < r.troupes ||
      r.nstages = 0 || 16 < r.nstages || 64 < r.acct || r.cmem % 128 != 0 || 2 ^ 19 < r.cmem || r.stack % 8 != 0 ||
      r.companyCount = 0 || (r.strict && !r.determ) || (r.troupes != 0 && r.troupes ≤ r.producer) ||
      (r.determ && (det / 2 ^ 34 % 64 < 12 || 32 < det / 2 ^ 34 % 64)) || (!isCall && fieldN bs 88 8 != 0) then some 3
  else if r.launchCap && !y.lcap then some 9
  else if !addrGood || (!broken && !rangeInPart s y.part r.code (codeSpan h)) ||
      !goodAddr s y.part (fieldD bs 72) (max r.psize 1) 1 ||
      (r.saveSet && !goodAddr s y.part (fieldD bs 80) (256 + r.companyCount * r.companyBytes) 256) ||
      (isCall && !(goodAddr s y.part (fieldD bs 24) 32 32 && goodAddr s y.part (fieldD bs 88) 4 4)) ||
      (r.determ && (r.detArea % 256 != 0 || !rangeInPart s y.part r.detArea r.detLen)) then some 10
  else if broken then some 4
  else if (!isCall && r.items = 0) || (isCall && r.items != 0) || (r.source == .shared && fieldN bs 24 8 != 0) ||
      (r.source == .ranged && r.companyCount * r.range < r.items) || (r.determ && r.source != .ranged) ||
      (isCall && (r.grain != 0 || r.determ)) then some 5
  else if circuitBad || (!shareBad && stagesAll * sharesPerStage r / r.nstages < r.circuitSize) then some 6
  else if shareBad then some 7
  else if (List.range 4).all fun d => stagesFree d < r.nstages then some 8
  else none

/-- Accept a run: its %run, its place in the queue, its parent (R354, R355, R362). A node's companies are single troupes (R363).
The save area's header for the run starts as zeros (R381).
DEDUCED, log 82, 131. -/
def acceptRun (s : State) (q : Nat) (bs : List Byte) (r : Run) : State :=
  let y := s.queue q
  let k := nextKey s.runs
  let par := if fieldN bs 112 4 = 0 then none
    else (s.runs.find? fun x => x.2.id.toNat == fieldN bs 112 4 && !x.2.complete).map Prod.fst
  let pred := if fieldN bs 0 8 / 2 ^ 40 % 4 = 1 then (match y.prevRun with
    | some (p + 1) => some p
    | _ => none) else none
  let r1 : Run := { r with
    id := s.nextRun
    prio := match par with
      | some p => min r.prio (s.run p).prio
      | none => r.prio
    troupes := if r.source == .callboard then 1 else r.troupes
    pred := pred
    after := if fieldN bs 0 8 / 2 ^ 40 % 4 = 1 then [] else y.openRuns
    gateOpen := pred.isNone
    parent := par }
  let s1 : State := { s with nextRun := if s.nextRun = 0xFFFFFFFF then 1 else s.nextRun + 1 }
  let s2 := (s1.setRun k r1).setQueue q { y with prevRun := some (k + 1), openRuns := y.openRuns ++ [k] }
  nextPacket (if r.saveSet then deviceWrite s2 r.save (List.replicate 256 0) else s2) q

/-- RUN: checked, and accepted or refused. The header is read once its line is present (R433).
DEDUCED, log 63. -/
def execRunPacket (q : Nat) (s : State) : Outcome :=
  match current s q with
  | none => .next s
  | some bs =>
    let y := s.queue q
    let x := fieldD bs 8
    let good := codeAddrGood s y.part x
    if packetType bs != 1 || (good && !promptReads s (scratchOff x) 64) then .next s
    else
      let h := if good then cleanBytes s (scratchOff x) 64 else []
      let s0 := if good then consume s (.prompter q) none 0 (scratchOff x) 64 else s
      let s1 := consumeSlot (poisonSlot s0 q) q
      let r := runOfPacket y q bs h good
      match runRefusal s y bs h r with
      | some code => .next (refuse s1 q code true)
      | none => .next (acceptRun s1 q bs r)

end Sys2Proof.Machine
end

