-- ==== Sys2Proof/Machine/Registers.lean ====
section
/-! DEFINITION. The registers of the control aperture and of the service control port
(05_windows.md R72, R432; 27_host_fabric.md R396-R399, R404, R435; 29_translation.md R408, R411, R412, R417;
31_housekeeping.md R425). -/

namespace Sys2Proof.Machine

open Sys2Proof

/-! ### The map (Table 27.2 and the tables of the service control port) -/

/-- A register. A route register is the pair of entries in a word, an MSI-X one a word of the table. -/
inductive RegId where
  | none
  | ident
  | qmap (q : Nat)
  | svcr (n : Nat)
  | ingr (n : Nat)
  | xctx (q : Nat)
  | hwake (n : Nat)
  | time | timeCtl | timeSet | timeStat
  | errcnt (n : Nat)
  | errNotify
  | errLog (n : Nat)
  | skid
  | route (k : Nat)
  | msix (k : Nat)
  | pba
  | xinv | xinvSeq | xinvAck | xfaultq | xresp
  | region (k : Nat)
  | counter (off : Nat)
  deriving DecidableEq, Repr

/-- Bytes of a register. -/
def RegId.bytes (r : RegId) : Nat :=
  match r with
  | .svcr _ | .ingr _ | .xctx _ | .errLog _ => 16
  | .errcnt _ | .route _ | .msix _ | .region _ | .counter _ => 4
  | _ => 8

/-- Is there a counter at this offset (Table 31.3)? -/
def counterAt (off : Nat) : Bool :=
  (0x40000 ≤ off && off < 0x42000 && (off - 0x40000) % 0x40 < 0x2C && off % 4 = 0) ||
  (0x42000 ≤ off && off < 0x43000 && off % 4 = 0) || (0x43000 ≤ off && off < 0x43100 && off % 4 = 0)
/-- The register at a word's offset, both ports' part of the map. -/
def commonReg (off : Nat) : RegId :=
  let within (lo n : Nat) : Bool := lo ≤ off && off < lo + n
  if within 0 8 then .ident
  else if within 0x1000 0x100 then .qmap ((off - 0x1000) / 8)
  else if within 0x2000 0x400 then .svcr ((off - 0x2000) / 16)
  else if within 0x3000 0x100 then .ingr ((off - 0x3000) / 16)
  else if within 0x4000 0x200 then .hwake ((off - 0x4000) / 8)
  else if within 0x5000 8 then .time
  else if within 0x5008 8 then .timeCtl
  else if within 0x5010 8 then .timeSet
  else if within 0x5018 8 then .timeStat
  else if within 0x6000 0x4C then .errcnt ((off - 0x6000) / 4)
  else if within 0x6100 8 then .errNotify
  else if within 0x6200 0x100 then .errLog ((off - 0x6200) / 16)
  else if within 0x7000 8 then .skid
  else if within 0x8000 0x8000 then .route ((off - 0x8000) / 4)
  else if within 0x10000 0x400 then .msix ((off - 0x10000) / 4)
  else if within 0x11000 8 then .pba
  else .none
def serviceReg (off : Nat) : RegId :=
  let within (lo n : Nat) : Bool := lo ≤ off && off < lo + n
  if within 0x20000 0x200 then .xctx ((off - 0x20000) / 16)
  else if within 0x20200 8 then .xinv
  else if within 0x20208 8 then .xinvSeq
  else if within 0x20210 8 then .xinvAck
  else if within 0x20218 8 then .xfaultq
  else if within 0x20220 8 then .xresp
  else if within 0x30000 0x8000 then .region ((off - 0x30000) / 4)
  else if counterAt off then .counter off
  else commonReg off
def regAt (port : Port) (off : Nat) : RegId :=
  match port with
  | .control _ _ _ => commonReg off
  | .service => serviceReg off

/-! ### Values -/

/-- The value of a register, as a number of its bytes; write-only registers and offsets without one read zero. -/
def regValue (s : State) (r : RegId) : Nat :=
  let p := s.ports
  match r with
  | .none | .timeSet | .xinv | .xresp => 0
  | .ident => (match s.mgmt.grade with | .a => 0x0A | .b => 0x0B) * 2 ^ 24 + 2 ^ 16 + p.skid
  | .qmap q => (tget p.qmap 0 q).toNat
  | .svcr n => (tget p.svcr Reg16.zero n).val.toNat
  | .ingr n => (tget p.ingr Reg16.zero n).val.toNat
  | .xctx q => (tget p.xctx Reg16.zero q).val.toNat
  | .hwake n => (tget p.hwake 0 n).toNat
  | .time => p.time.toNat
  | .timeCtl => p.timeCtl.toNat
  | .timeStat => p.timeOff.toNat * 2 ^ 32 + if p.locked then 1 else 0
  | .errcnt n => tget p.errcnt 0 n
  | .errNotify => p.errNotify.toNat
  | .errLog n => (tget p.errLog 0 n).toNat
  | .skid => p.skid
  | .route k => tget p.route 0 (2 * k) + 2 ^ 16 * tget p.route 0 (2 * k + 1)
  | .msix k => leNat ((List.range 4).map fun b => tget p.msixTable (if (4 * k + b) % 16 = 12 then 1 else 0) (4 * k + b))
  | .pba => p.msixPend.toNat
  | .xinvSeq => p.xinvSeq.toNat
  | .xinvAck => p.xinvAck.toNat
  | .xfaultq => p.xfaultq.toNat
  | .region k => (tget p.region 0 k).toNat
  | .counter off => tget p.counters 0 off
/-- The word at a word's offset. -/
def portWord (s : State) (port : Port) (off : Nat) : Nat :=
  let r := regAt port off
  regValue s r / 256 ^ (off % r.bytes) % 2 ^ 32

/-! ### Writes -/

/-- Put `n` bytes of `x` at byte `b` of a value. -/
def mergeBytes (old b n x : Nat) : Nat :=
  old % 256 ^ b + (x % 256 ^ n) * 256 ^ b + old / 256 ^ (b + n) * 256 ^ (b + n)
/-- Bits that a 16-byte register holds: reserved ones read zero (R7). -/
def reg16Mask (r : RegId) : BitVec 128 :=
  match r with
  | .svcr _ => 0xFFFFFFFF00000000E0000003FFFFFFFF
  | .ingr _ => 0x0003FFFFFFFFFFFFFFFFC00003FFFFFF
  | .xctx _ => 0x000FFFFF00000000CFFFFFFFFFFFFFFF
  | _ => 0
def getReg16 (s : State) (r : RegId) : Reg16 :=
  match r with
  | .svcr n => tget s.ports.svcr Reg16.zero n
  | .ingr n => tget s.ports.ingr Reg16.zero n
  | .xctx n => tget s.ports.xctx Reg16.zero n
  | _ => Reg16.zero
def setReg16 (s : State) (r : RegId) (x : Reg16) : State :=
  match r with
  | .svcr n => { s with ports := { s.ports with svcr := tput s.ports.svcr n x } }
  | .ingr n => { s with ports := { s.ports with ingr := tput s.ports.ingr n x } }
  | .xctx n => { s with ports := { s.ports with xctx := tput s.ports.xctx n x } }
  | _ => s
/-- Stage bytes; a write that covers bytes +12 to +15 takes effect with all that is staged (R435). -/
def stagedWrite (s : State) (r : RegId) (b n x : Nat) : State :=
  let g := getReg16 s r
  let stage := BitVec.ofNat 128 (mergeBytes g.stage.toNat b n x)
  let staged := g.staged ||| BitVec.ofNat 16 ((2 ^ n - 1) * 2 ^ b)
  if b + n = 16 then
    let val := (List.range 16).foldl (fun v k =>
      if staged.getLsbD k then mergeBytes v k 1 (stage.toNat / 256 ^ k) else v) g.val.toNat
    setReg16 s r ⟨BitVec.ofNat 128 val &&& reg16Mask r, 0, 0⟩
  else setReg16 s r ⟨g.val, stage, staged⟩

/-- HWAKE: PEND is cleared by writing 1; EN = 1 on a nonzero word sends the vector at once (R398).
DEDUCED, log 84. -/
def hwakeWrite (s : State) (n b k x : Nat) : State :=
  let old := tget s.ports.hwake 0 n
  let full := BitVec.ofNat 64 (mergeBytes old.toNat b k x)
  let upper := b + k = 8
  let pend := old.getLsbD 62 && !(upper && full.getLsbD 62)
  let new := (full &&& 0x80000003FFFFFFFF) ||| (if pend then 1#64 <<< 62 else 0)
  let s1 : State := { s with ports := { s.ports with hwake := tput s.ports.hwake n new } }
  if upper && new.getLsbD 63 && s1.mem.readN (hwakeOff new) 8 != 0 then sendVector s1 n else s1
/-- A word of the MSI-X table; a vector held pending is sent when it is unmasked. -/
def msixWrite (s : State) (k x : Nat) : State :=
  let t := (List.range 4).foldl (fun m b => tput m (4 * k + b) (BitVec.ofNat 8 (x / 256 ^ b))) s.ports.msixTable
  let s1 : State := { s with ports := { s.ports with msixTable := t } }
  let n := k / 4
  if s1.ports.msixPend.getLsbD n && !msixMasked s1 n then
    { s1 with ports := { s1.ports with msixPend := s1.ports.msixPend &&& ~~~(1#64 <<< n) }, out := s1.out ++ [.msix n] }
  else s1
/-- Is this module the master of its domain: a candidate, and none of a lower SKID is heard (R404)?
DEDUCED, log 91. -/
def isMaster (s : State) : Bool :=
  s.ports.timeCtl.getLsbD 63 && (!s.ports.timeCtl.getLsbD 62 || s.ports.follows.all fun f => s.ports.skid ≤ f.1)
/-- The module runs free: it has no parent. -/
def Ports.free (p : Ports) : Ports := { p with follows := none, timeDue := 0, heard := 0, inBand := none, locked := false }
/-- TIMECTL: a module that leaves the domain, or has become its master, follows no one. -/
def timeCtlWrite (s : State) (x : Dword) : State :=
  let z : State := { s with ports := { s.ports with timeCtl := x &&& 0xC000000000000000 } }
  if isMaster z || !x.getLsbD 62 then { z with ports := z.ports.free } else z
/-- A step of the counter to a later time. -/
def timeSet (s : State) (x : Dword) : State :=
  if isMaster s && s.ports.time.toNat ≤ x.toNat then { s with ports := { s.ports with time := x } } else s
/-- Has a partition no region any more? -/
def partGone (s : State) (p : Nat) : Bool :=
  !s.ports.region.any fun e => e.2.getLsbD 21 && (e.2.extractLsb' 5 16).toNat == p
/-- The entry of a region: a change moves no data, and memory is by offset, so that its bytes are read where they were (R72).
With its last region a partition is released, and its derivations are removed (R135).
DEDUCED, log 127, 128. -/
def regionWrite (s : State) (k x : Nat) : State :=
  let old := regionEntry s k
  let p := (old.extractLsb' 5 16).toNat
  let z : State := { s with ports := { s.ports with region := tput s.ports.region k (BitVec.ofNat 32 x &&& 0xC03FFFFF) } }
  if old.getLsbD 21 && partGone z p then
    ((usedEntries z).filter fun e => e.2.part == p).foldl (fun y e => unregister y e.1) z
  else z
def errcntWrite (s : State) (n x : Nat) : State :=
  if x = 0 then { s with ports := { s.ports with errcnt := tput s.ports.errcnt n 0 } } else s
def counterWrite (s : State) (off x : Nat) : State :=
  if x = 0 then { s with ports := { s.ports with counters := tput s.ports.counters off 0 } } else s
/-- QMAP: a change of EN acts, any other write is held in the register (R342). -/
def qmapWrite (s : State) (q b n x : Nat) : State :=
  let old := qmapOf s q
  let new := BitVec.ofNat 64 (mergeBytes old.toNat b n x)
  if old.getLsbD 63 == new.getLsbD 63 then putQmap s q new
  else if new.getLsbD 63 then
    (match execQmapEnable q new s with
     | .next s1 => s1
     | _ => s)
  else match execQmapDisable q new s with
    | .next s1 => s1
    | _ => s

/-- One write of `n` bytes at byte `b` of a register. -/
def regWrite (s : State) (r : RegId) (b n x : Nat) : State :=
  let p := s.ports
  let m (old : Nat) : Dword := BitVec.ofNat 64 (mergeBytes old b n x)
  match r with
  | .qmap q => qmapWrite s q b n x
  | .svcr _ | .ingr _ | .xctx _ => stagedWrite s r b n x
  | .hwake k => hwakeWrite s k b n x
  | .timeCtl => timeCtlWrite s (m p.timeCtl.toNat)
  | .timeSet => timeSet s (m 0)
  | .errcnt k => errcntWrite s k x
  | .errNotify => { s with ports := { p with errNotify := m p.errNotify.toNat } }
  | .skid => { s with ports := { p with skid := (m p.skid).toNat % 2 ^ 14 } }
  | .route k => { s with ports := { p with route := tput (tput p.route (2 * k) (x % 2 ^ 16)) (2 * k + 1) (x / 2 ^ 16 % 2 ^ 16) } }
  | .msix k => msixWrite s k x
  | .xinv => (match execXinv (m 0) s with
    | .next s1 => s1
    | _ => s)
  | .xfaultq => { s with ports := { p with xfaultq := m p.xfaultq.toNat } }
  | .xresp => (match (if (m 0).getLsbD 63 then execXrespFail (m 0) s else execXrespRetry (m 0) s) with
    | .next s1 => s1
    | _ => s)
  | .region k => regionWrite s k x
  | .counter off => counterWrite s off x
  | .none | .ident | .time | .timeStat | .errLog _ | .pba | .xinvSeq | .xinvAck => s

/-- Is a register access well formed: 4 or 8 bytes, naturally aligned, without a PASID (R396), and no poisoned request or AtomicOp
(R391)? -/
def accessFits (port : Port) (off size : Nat) : Bool :=
  (size = 4 || size = 8) && off % size = 0 && match port with
    | .control _ pasid kind => pasid.isNone && kind == .plain
    | .service => true
/-- A refused access of the control aperture is logged with cause 9 against its requester; a poisoned request is dropped and counted by
the endpoint, as an AtomicOp is, which completes as Unsupported Request.
DEDUCED, log 83. -/
def refuseRegister (s : State) (port : Port) : State :=
  match port with
  | .control rid _ .plain => logError s 17 9 rid 0 0
  | .control rid _ .poisoned => logError s 0 7 rid 0 0
  | .control rid _ (.atomic tag) => logError { s with out := s.out ++ [.unsupported rid tag] } 0 2 rid 0 0
  | .service => s
/-- What a refused read receives: zero, and nothing of a request that is dropped or unsupported. -/
def refusedRead (s : State) (port : Port) : State :=
  match port with
  | .control _ _ .poisoned | .control _ _ (.atomic _) => refuseRegister s port
  | _ => { refuseRegister s port with out := s.out ++ [.registerValue 0] }
/-- A write of a port: 8 bytes that span two registers write both, the lower first. -/
def portWrite (s : State) (port : Port) (off size x : Nat) : State :=
  if !accessFits port off size then refuseRegister s port
  else
    let r := regAt port off
    if off % r.bytes + size ≤ r.bytes then regWrite s r (off % r.bytes) size x
    else
      let r2 := regAt port (off + 4)
      regWrite (regWrite s r (off % r.bytes) 4 (x % 2 ^ 32)) r2 ((off + 4) % r2.bytes) 4 (x / 2 ^ 32)

/-! ### The events -/

/-- REGISTER_WRITE: any write of a register; those with behaviour of their own behave. -/
def execRegisterWrite (port : Port) (off size : Nat) (x : Dword) (s : State) : Outcome := .next (portWrite s port off size x.toNat)
/-- REGISTER_STAGED_WRITE: a write of a 16-byte register. -/
def execRegisterStagedWrite (port : Port) (off size : Nat) (x : Dword) (s : State) : Outcome :=
  .next (match regAt port off with
    | .svcr _ | .ingr _ | .xctx _ => portWrite s port off size x.toNat
    | _ => s)
/-- HWAKE_ENABLE: an 8-byte write of HWAKEn. -/
def execHwakeEnable (n : Nat) (x : Dword) (s : State) : Outcome :=
  .next (if n < 64 && x.getLsbD 63 then hwakeWrite s n 0 8 x.toNat else s)
/-- ERRCNT_CLEAR. -/
def execErrcntClear (n : Nat) (x : Word) (s : State) : Outcome := .next (if n < 19 then errcntWrite s n x.toNat else s)
/-- COUNTER_CLEAR. -/
def execCounterClear (off : Nat) (x : Word) (s : State) : Outcome :=
  .next (if counterAt off then counterWrite s off x.toNat else s)
/-- TIMESET. -/
def execTimeset (x : Dword) (s : State) : Outcome := .next (timeSet s x)
/-- REGION_TABLE_WRITE: a write that leaves MOVE as it is or clears it. -/
def execRegionTableWrite (die r : Nat) (x : Word) (s : State) : Outcome :=
  .next (if die < 4 && r < 2048 && (!x.getLsbD 31 || (regionEntry s (2048 * die + r)).getLsbD 31) then
    regionWrite s (2048 * die + r) x.toNat else s)
/-- REGION_MOVE_SET: a write that sets MOVE. -/
def execRegionMoveSet (die r : Nat) (x : Word) (s : State) : Outcome :=
  .next (if die < 4 && r < 2048 && x.getLsbD 31 then regionWrite s (2048 * die + r) x.toNat else s)

/-- Has an access reached the region's home and not been performed (R417)?
DEDUCED, log 85. -/
def regionBusy (s : State) (k : Nat) : Bool :=
  (s.accs.any fun a => a.dev.isNone && a.reached && a.st != .performed && a.st != .awaiting &&
    a.ranges.any fun r => isScratch r.1 && regionOf r.1 = k) ||
  (closedLines s 0).any fun l => l < 2 ^ 26 && regionOf (256 * l) = k
/-- A read of a register: what the reader receives. A region entry under MOVE answers once earlier accesses are performed. -/
def registerRead (port : Port) (off size : Nat) (s : State) : State :=
  if !accessFits port off size then refusedRead s port
  else match regAt port off with
  | .region k =>
    if (regionEntry s k).getLsbD 31 && regionBusy s k then s
    else { s with out := s.out ++ [.registerValue (BitVec.ofNat 64
      (portWord s port off + if size = 8 then 2 ^ 32 * portWord s port (off + 4) else 0))] }
  | _ => { s with out := s.out ++ [.registerValue (BitVec.ofNat 64
      (portWord s port off + if size = 8 then 2 ^ 32 * portWord s port (off + 4) else 0))] }

end Sys2Proof.Machine
end

