-- ==== Sys2Proof/Machine/Fabric.lean ====
section
/-! DEFINITION. Requests of the outside agents: PCI Express, Skason and the service cores; links; the time counter
(01_organisation.md R26; 05_windows.md R87, R88; 21_consistency.md R321; 27_host_fabric.md R391-R404; 29_translation.md R417;
31_housekeeping.md R423, R424). -/

namespace Sys2Proof.Machine

open Sys2Proof

/-! ### Ingress (R397) -/

def ingrMatches (port : Nat) (rid : Nat) (pasid : Option Nat) (win off : Nat) (modifies : Bool) (x : BitVec 128) : Bool :=
  x.getLsbD 63 && (x.extractLsb' 61 2).toNat == port &&
    (if port = 0 then
      (x.extractLsb' 84 16).toNat == rid && (if x.getLsbD 59 then pasid == some (x.extractLsb' 64 20).toNat else pasid.isNone)
     else (x.extractLsb' 100 14).toNat == rid) &&
    (x.extractLsb' 0 13).toNat ≤ off / 2 ^ 21 && off / 2 ^ 21 ≤ (x.extractLsb' 13 13).toNat && win < 13 &&
    x.getLsbD (46 + win) && (!modifies || x.getLsbD 60)
def permitted (s : State) (port rid : Nat) (pasid : Option Nat) (win off : Nat) (modifies : Bool) : Bool :=
  s.ports.ingr.any fun e => ingrMatches port rid pasid win off modifies e.2.val

/-! ### PCI Express (R391, R393-R395) -/

/-- The device-local address of a window-aperture offset (R393). -/
def apertureAddr (a : Nat) : Dword := BitVec.ofNat 64 (2 ^ 63 + a / 2 ^ 36 % 16 * 2 ^ 59 + a / 2 ^ 34 % 4 * 2 ^ 54 + a % 2 ^ 34)
def reqBytes (r : PcieReq) : Nat := if r.write then r.data.length else r.len
/-- Is the request one naturally aligned access with all byte enables? -/
def reqNatural (r : PcieReq) : Bool :=
  let n := reqBytes r
  (n = 1 || n = 2 || n = 4 || n = 8) && r.off % n = 0 && (!r.write || (r.enables.length = n && r.enables.all id))
/-- The cause for which a request is misuse (R394, R88), ingress aside.
DEDUCED, log 87. -/
def pcieCause (r : PcieReq) (win : Nat) : Option Nat :=
  if r.atomic then some 2
  else if !winKind (!r.write) win then some 1
  else if win = 0 || win = 1 then
    (if reqBytes r = 0 || (if r.write then 512 else 4096) < reqBytes r || 2 ^ 34 < r.off % 2 ^ 34 + reqBytes r then some 2 else none)
  else if !reqNatural r || !winSize win (reqBytes r) || ((win = 8 || win = 9) && r.off % 32 != 0) then some 2
  else none
/-- The aligned 8-byte parts of a PLAIN write that has a byte enabled: offset, enables and value.
DESIGN CHOICE, log 88. -/
def writeParts (off : Nat) (data : List Byte) (en : List Bool) : List (Nat × Nat × Nat) :=
  ((List.range ((off + data.length + 7) / 8 - off / 8)).map fun k =>
    let base := 8 * (off / 8 + k)
    let has (j : Nat) : Bool := off ≤ base + j && base + j < off + data.length && en.getD (base + j - off) false
    (base, sumNat ((List.range 8).map fun j => if has j then 2 ^ j else 0),
      sumNat ((List.range 8).map fun j => if has j then (data.getD (base + j - off) 0).toNat * 256 ^ j else 0))).filter
    fun x => x.2.1 != 0
/-- The aligned parts of a PLAIN or RO read: offset and length. -/
def readParts (off n : Nat) : List (Nat × Nat) :=
  (List.range ((off + n + 7) / 8 - off / 8)).map fun k =>
    let lo := max off (8 * (off / 8 + k))
    (lo, min (off + n) (8 * (off / 8 + k) + 8) - lo)
/-- Earlier posted writes of one requester and PASID (R321). -/
def postedOf (s : State) (rid : Nat) (pasid : Option Nat) : List Nat :=
  (s.accs.filter fun a => !opReturns a.op && match a.who with
    | .pcie i p _ _ => i == rid && p == pasid
    | _ => false).map Access.id
/-- Perform a permitted request as its accesses. -/
def pcieEnter (s : State) (r : PcieReq) (addr : Dword) : State :=
  let win := winOf addr
  let off := scratchOff addr
  let posted := postedOf s r.rid r.pasid
  let op := winOp (!r.write) win
  let mk (k : Nat) : Who := .pcie r.rid r.pasid r.tag k
  if r.write && win = 0 then
    ((writeParts off r.data r.enables).zipIdx.foldl (fun (z : State × List Nat) x =>
      let a : Access := { Access.make (mk x.2) .store addr x.1.1 8 with
        data := BitVec.ofNat 64 x.1.2.2, cmp := if x.1.2.1 = 255 then 0 else BitVec.ofNat 64 x.1.2.1, after := z.2 }
      (addAcc z.1 a, (if r.relaxed then [] else posted) ++ [z.1.nextId])) (s, if r.relaxed then [] else posted)).1
  else if r.write then
    addAcc s { Access.make (mk 0) op addr off (reqBytes r) with
      data := BitVec.ofNat 64 (leNat r.data), ty := typeOf addr, after := posted
      dies := if win = 7 then (fourDies off).filter (fun p => permitted s 0 r.rid r.pasid win p true) else [] }
  else if win ≤ 1 then
    (readParts off r.len).zipIdx.foldl (fun z x =>
      addAcc z { Access.make (mk x.2) op addr x.1.1 x.1.2 with
        after := posted ++ if x.2 = 0 then [] else [z.nextId - 1]
        part := if r.len ≤ 8 - off % 8 then 0 else s.nextId }) s
  else addAcc s { Access.make (mk 0) op addr off r.len with ty := 0, after := posted }
/-- A misused read returns zero. -/
def pcieZero (s : State) (r : PcieReq) : State :=
  if r.write then s else { s with out := s.out ++ [.completion r.rid r.tag (List.replicate r.len 0)] }
/-- WINDOW_APERTURE_REQUEST.
DESIGN CHOICE, log 115. -/
def execWindowApertureRequest (r : PcieReq) (s : State) : Outcome :=
  let addr := apertureAddr r.off
  let win := winOf addr
  let log (z : State) (cause : Nat) : State := logError z 0 cause r.rid win addr
  if !s.mgmt.ready.getLsbD 0 then
    .next (if r.write then s else { s with out := s.out ++ [.completerAbort r.rid r.tag] })
  else if r.poisoned then .next (log s 7)
  else if r.atomic then .next (log { s with out := s.out ++ [.unsupported r.rid r.tag] } 2)
  else match pcieCause r win with
  | some cause => .next (pcieZero (log s cause) r)
  | none =>
    let modifies := opModifies (winOp (!r.write) win)
    if win = 7 then
      let ok := (fourDies (scratchOff addr)).filter fun p => permitted s 0 r.rid r.pasid win p true
      let s1 := (List.range (4 - ok.length)).foldl (fun z _ => log z 4) s
      .next (if ok.isEmpty then s1 else pcieEnter s1 r addr)
    else if !permitted s 0 r.rid r.pasid win (scratchOff addr) modifies then .next (pcieZero (log s 4) r)
    else .next (pcieEnter s r addr)
/-- COMPLETION_TIMEOUT: a read that has not its value after 40 ms is completed with Completer Abort and logged, once for all its
parts; its accesses stand and their values are discarded. A value that returns at that instant is carried (R395, R405). -/
def execCompletionTimeout (id : Nat) (s : State) : Outcome :=
  onAccess s id fun s a =>
    match a.who with
    | .pcie rid _ tag _ =>
      let g := readGroup s a
      if opReturns a.op && a.cmp = 0 && a.issued + 40000000 < s.wall && g.any fun b => b.st != .performed then
        let z := g.foldl (fun z b => setAcc z { b with cmp := 1 }) s
        logError { z with out := z.out ++ [.completerAbort rid tag] } 0 8 rid (winOf a.addr) a.addr
      else s
    | _ => s

/-! ### Skason (R87, R401, R402, R417) -/

/-- The cause for which an arriving access is misuse, ingress aside. -/
def skasonCause (r : SkReq) : Option Nat :=
  let win := winOf r.addr
  let load := opReturns r.op
  let plainOnly := match r.op with
    | .xor | .exch | .cas | .aenq | .adeq | .probe | .wpwait => true
    | _ => false
  if !isLocalForm r.addr || spaceOf r.addr != 4 || 2 ^ 48 ≤ offOf r.addr then some 3
  else if (if plainOnly then win != 0 else win != 0 && (!winKind load win || winOp load win != r.op)) || 13 ≤ win then some 1
  else if (!plainOnly && !winSize win r.size) ||
      offOf r.addr % (if opQueue r.op then 32 else if r.op == .wpwait then 16 else max r.size 1) != 0 then some 2
  else none
/-- Where an arriving access is performed. -/
def skasonTargets (r : SkReq) : List Nat := if r.op == .cast then fourDies (scratchOff r.addr) else [scratchOff r.addr]
/-- Earlier accesses of the same troupe to the same location (R85). -/
def skasonAfter (s : State) (r : SkReq) (a : Access) : List Nat :=
  (s.accs.filter fun b => a.meets b && match b.who with
    | .skason src _ _ t => src == r.src && t == r.troupe
    | _ => false).map Access.id
/-- DESIGN CHOICE, log 86. -/
def skasonReply (s : State) (r : SkReq) (refused : Nat) : State := { s with out := s.out ++ [.skasonReply r.src r.tag 0 refused] }
/-- SKASON_REMOTE_ACCESS: ingress, a region in migration, then the access. A reply carries 0, a cause, or 256 + hint. -/
def execSkasonRemoteAccess (r : SkReq) (s : State) : Outcome :=
  let win := winOf r.addr
  let deny (z : State) (cause : Nat) : State := logError z (r.link + 1) cause r.src win r.addr
  if r.dst != skid s || !linkExists s r.link then .next s
  else match skasonCause r with
  | some cause => .next (skasonReply (deny s cause) r cause)
  | none =>
    let ts := skasonTargets r
    let ok := ts.filter fun p => permitted s 1 r.src none win p (opModifies r.op)
    let s1 := (List.range (ts.length - ok.length)).foldl (fun z _ => deny z 4) s
    if ok.isEmpty then .next (skasonReply s1 r 4)
    else if ok.any fun p => (regionEntry s (regionOf p)).getLsbD 31 then
      .next (skasonReply { s1 with picks := s1.picks + 1 } r (256 + 1 + Config.retryHint s1.picks % 255))
    else
      let a : Access := { Access.make (.skason r.src r.link r.tag r.troupe) r.op r.addr (scratchOff r.addr) r.size with
        data := r.data, cmp := r.cmp, ty := r.ty
        dies := if r.op == .cast then ok else []
        deadline := if r.op == .await && r.limit != 0 then s.wall + r.limit else 0 }
      .next (addAcc s1 { a with after := skasonAfter s1 r a })
/-- SKASON_FORWARD: a packet for another device goes on by this module's table; at its ninth hop it is refused.
DEDUCED, log 90. -/
def execSkasonForward (r : SkReq) (s : State) : Outcome :=
  if r.dst = skid s || !linkExists s r.link then .next s
  else if 9 ≤ r.hops + 1 then .next (skasonReply s r 12)
  else match routeLink s r.dst (scratchOff r.addr) with
  | some l => .next { s with out := s.out ++ [.skason l { r with hops := r.hops + 1 }] }
  | none => .next (skasonReply s r 11)
/-- The same for a collective's packet. -/
def collForward (link : Nat) (p : CollPkt) (s : State) : State :=
  if p.dst = skid s || !linkExists s link then s
  else if 9 ≤ p.hops + 1 then { s with out := s.out ++ [.skasonReply p.src p.id 0 12] }
  else match routeLink s p.dst p.place with
  | some l => { s with out := s.out ++ [.skasonColl l { p with hops := p.hops + 1 }] }
  | none => { s with out := s.out ++ [.skasonReply p.src p.id 0 11] }
/-- A refusal of a collective's packet arrives: it is counted on the link it left on (R87, R399). -/
def collRefused (id rank off cause : Nat) (s : State) : State :=
  match s.colls.find? fun c => c.id == id with
  | some c =>
    let dev := c.group.getD rank 0
    let place := scratchOff (collRec c.bytes).dst + off
    transferFails s c.t ((routeLink s dev place).getD 17 + 1) (if cause = 11 || cause = 12 then cause else 10) dev place
  | none => s
/-- A refusal of an access of this module's arrives (R87). -/
def remoteRefused (id cause : Nat) (s : State) : State :=
  match accById s id with
  | some a =>
    if a.st == .remote then refuseRemote s a (a.dies.headD 17 + 1) (if cause = 11 || cause = 12 then cause else 10) else s
  | none => s

/-- A request is on the link and has not been acknowledged. -/
def Access.onLink (a : Access) (l : Nat) : Bool := a.st == .remote && a.dies == [l] && !a.acked
/-- The far end of the link, which is up, acknowledges a request; not a `.rel` store that was out as the link went down (R405). -/
def linkAck (id : Nat) (s : State) : State :=
  match accById s id with
  | some a => if !a.lostRel && s.ports.links.any fun l => a.onLink l then setAcc s { a with acked := true } else s
  | none => s
/-- LINK_DOWN: the link leaves every mask, what it has not delivered stays unacknowledged (R401), and a parent behind it is out of
reach (R404). -/
def execLinkDown (l : Nat) (s : State) : Outcome :=
  let p := { s.ports with links := s.ports.links.filter fun k => k != l }
  .next { s with
    accs := s.accs.map fun a => if a.onLink l then { a with cut := true } else a
    copies := s.copies.map fun c => { c with chunks := c.chunks.map fun k =>
      if k.sent != 0 && k.transfer.isSome && k.link = l then { k with cut := true } else k }
    ports := if p.follows.any fun f => f.2.2 == l then p.free else p }
/-- LINK_ACK_TIMEOUT: a request sent on a link that has gone down, unacknowledged for 1 ms, whether or not the link has trained
again. -/
def execLinkAckTimeout (id : Nat) (s : State) : Outcome :=
  onAccess s id fun s a =>
    if a.st == .remote && a.cut && !a.acked && a.issued + 1000000 ≤ s.wall then
      refuseRemote s a (a.dies.headD 17 + 1) 11
    else s
/-- LINK_TRAINED. -/
def execLinkTrained (l : Nat) (s : State) : Outcome :=
  .next (if !linkExists s l || s.ports.links.contains l then s
    else { s with ports := { s.ports with
      links := sortBy (fun x y => x ≤ y) (s.ports.links ++ [l]) } })

/-! ### Service cores (R26, R88) -/

/-- An access of one of the 128 service cores: dropped or answered with zero where a thread's would trap.
DEDUCED, log 89. -/
def serviceAccess (r : SvcReq) (s : State) : State :=
  let win := winOf r.addr
  let load := opReturns r.op || r.op == .load
  let op := winOp load win
  let who : Who := .service r.die r.core r.tag
  let off := scratchOff r.addr
  let bad := !isLocalForm r.addr || !isScratchSpace s r.addr || (spaceOf r.addr = 0 && 2 ^ 34 ≤ offOf r.addr) ||
    (spaceOf r.addr = 4 && 2 ^ 48 ≤ offOf r.addr) ||
    !winKind load win || !winSize win r.size || offOf r.addr % (if opQueue op then 32 else max r.size 1) != 0
  if 4 ≤ r.die || 32 ≤ r.core then s
  else if bad then
    let s1 := bump s (sliceCounter (32 * r.die + r.core) 0x28) 1
    if load then { s1 with out := s1.out ++ [.serviceReply r.die r.core r.tag 0] } else s1
  else
    let a : Access := { Access.make who op r.addr off r.size with
      data := r.data, ty := if load then 0 else typeOf r.addr
      dies := if op == .cast then fourDies off else [] }
    let mine := s.accs.filter fun b => match b.who with
      | .service d c _ => d == r.die && c == r.core
      | _ => false
    addAcc s { a with after := (mine.filter fun b => r.fenced || a.meets b).map Access.id }

/-! ### Time (R404) -/

/-- The master a module has in reach, and its own distance from it: none while it runs free. -/
def masterOf (s : State) : Option (Nat × Nat) :=
  if isMaster s then some (s.ports.skid, 0) else s.ports.follows.map fun f => (f.1, f.2.1)
/-- The messages of a module that takes part, one on each link, sent `late` ns ago. -/
def timeMessages (s : State) (late : Nat) : State :=
  { s with out := s.out ++ s.ports.links.map fun l => .timeMessage l (masterOf s) (s.ports.time - BitVec.ofNat 64 late) }
/-- The messages of each microsecond that has passed since wall time `w`.
DEDUCED, log 91. -/
def sendTimes (w : Nat) (s : State) : State :=
  if s.ports.timeCtl.getLsbD 62 then
    (List.range (s.wall / 1000 - w / 1000)).foldl (fun z k => timeMessages z (s.wall - 1000 * (w / 1000 + k + 1))) s
  else s
/-- Take a neighbour for the parent, and close the offset from it. -/
def follow (s : State) (f : Nat × Nat × Nat) (offset : Int) : State :=
  let p := s.ports
  let since := if -5 ≤ offset && offset ≤ 5 then some (p.inBand.getD s.wall) else none
  { s with ports := { p with
    follows := some f
    heard := s.wall
    timeOff := BitVec.ofInt 32 offset
    timeDue := if 10000 < offset then 0 else offset
    time := p.time + BitVec.ofNat 64 (if 10000 < offset then offset.toNat else 0)
    inBand := since
    locked := since.any fun w => w + 10000000 ≤ s.wall } }
/-- TIME_MESSAGE: a neighbour's message arrives on a link, with the round trip measured there. The link's delay is half of it.
DEDUCED, log 91. -/
def execTimeMessage (link : Nat) (master : Option (Nat × Nat)) (msg : TimeMsg) (s : State) : Outcome :=
  let p := s.ports
  let fromParent := p.follows.any fun f => f.2.2 == link
  if !p.timeCtl.getLsbD 62 || !p.links.contains link then .next s
  else match master with
  | none => .next (if fromParent then { s with ports := p.free } else s)
  | some (m, h) =>
    if p.timeCtl.getLsbD 63 && p.skid ≤ m then .next (if fromParent then { s with ports := p.free } else s)
    else
      let closer := p.follows.all fun f => m < f.1 || (m == f.1 && h + 1 < f.2.1)
      if fromParent || closer then
        .next (follow s (m, h + 1, link) ((msg.time.toNat : Int) + ((msg.round / 2 : Nat) : Int) - (p.time.toNat : Int)))
      else .next s
/-- The registers at a wall time: a parent that has sent nothing for 2 µs has left the domain, and the module runs free.
DEDUCED, log 91. -/
def Ports.heardAt (p : Ports) (wall : Nat) : Ports := if p.follows.isSome && p.heard + 2000 < wall then p.free else p
/-- The counter over `n` ns of wall time: slewed by up to 500 ppm towards its parent, at half rate when far ahead, and no further than
the offset. -/
def tickTime (s : State) (n : Nat) : State :=
  let p := s.ports.heardAt (s.wall + n)
  if p.follows.isNone || p.timeDue = 0 then { s with ports := { p with time := p.time + BitVec.ofNat 64 n } }
  else if p.timeDue < -10000 then
    let k := min (n - n / 2) p.timeDue.natAbs
    { s with ports := { p with time := p.time + BitVec.ofNat 64 (n - k), timeDue := p.timeDue + (k : Int) } }
  else
    let bound := min (n * 500 / 1000000) p.timeDue.natAbs
    let k := (Config.freeWord s.picks).toNat % (bound + 1)
    let ahead := p.timeDue < 0
    { s with
      picks := s.picks + 1
      ports := { p with
        time := if ahead then p.time + BitVec.ofNat 64 (n - k) else p.time + BitVec.ofNat 64 (n + k)
        timeDue := if ahead then p.timeDue + (k : Int) else p.timeDue - (k : Int) } }

end Sys2Proof.Machine
end

