-- ==== Sys2Proof/Machine/Housekeeping.lean ====
section
/-! DEFINITION. Resets and the wipe, readiness, soft errors, identity and attestation, firmware, power, and the passing of time
(03_execution.md R66; 23_scheduling.md R363; 31_housekeeping.md R421-R428). -/

namespace Sys2Proof.Machine

open Sys2Proof

/-! ### Resets (R421, R422) -/

/-- The module stopped and emptied: what leaves it, its clocks of events and the model's own counters go on.
DESIGN CHOICE, log 11. -/
def emptied (s : State) (p : Ports) (g : Mgmt) : State :=
  { State.reset with
    ports := p, mgmt := g, out := s.out, agenda := s.agenda, choices := s.choices, picks := s.picks, nextId := s.nextId
    wall := s.wall }
/-- The controller after a reset: READY is clear, the wipe begins. -/
def Mgmt.afterReset (g : Mgmt) : Mgmt :=
  { g with ready := 0, wiping := true, spdmVersion := false, spdmCaps := false, spdmAlgs := false }
/-- Accepted images take effect, at a function or a cold reset (R427). -/
def Mgmt.takeImages (g : Mgmt) : Mgmt :=
  { g with images := g.nextImages.foldl (fun m x => tput m x.1 x.2) g.images, nextImages := [] }
def coldReset (s : State) : State := emptied s Ports.reset { s.mgmt.afterReset.takeImages with plimit := 1900, clock := 1250, under := 0 }
/-- What a function reset keeps of the registers, the time counter and the links. -/
def Ports.afterFunction (p : Ports) : Ports :=
  { Ports.reset with
    skid := p.skid, route := p.route, timeCtl := p.timeCtl, time := p.time, links := p.links }
def functionReset (s : State) : State := emptied s s.ports.afterFunction s.mgmt.afterReset.takeImages
def execColdReset (s : State) : Outcome := .next (coldReset s)
def execFunctionLevelReset (s : State) : Outcome := .next (functionReset s)
/-- WIPE_COMPLETE: everything is zero, and READY.WIPE is set. -/
def execWipeComplete (s : State) : Outcome :=
  .next (if !s.mgmt.wiping || s.mgmt.held then s
    else
      let p := s.ports
      { s with
        mem := [], pclear := [], wset := [], poison := [], wrBy := [], entries := [], tiles := [], slices := []
        ports := { p with counters := [], errcnt := [], errLog := [], errSeq := 0 }
        mgmt := { s.mgmt with wiping := false, ready := s.mgmt.ready ||| 1 } })
/-- FUNCTION_READY: READY [5:1], once the wipe has completed (R422); WIPE is the wipe's (R423). -/
def execFunctionReady (bit : Nat) (s : State) : Outcome :=
  .next (if 1 ≤ bit && bit ≤ 5 && !s.mgmt.held && !s.mgmt.wiping then
    { s with mgmt := { s.mgmt with ready := s.mgmt.ready ||| (1#6 <<< bit) } } else s)

/-! ### Soft errors (R424, R425) -/

def insertPart (p : Nat) (xs : List Nat) : List Nat := if xs.contains p then xs else sortBy (fun x y => x ≤ y) (xs ++ [p])
/-- Is it a byte of die scratchpad, of the company memory of a stage, or of G7 memory (Table 1.1)? -/
def isMemory (s : State) (a : Nat) : Bool :=
  isScratch a || (isCm a && stageExists s (cmStage a)) || (2 ^ 41 ≤ a && a < 2 ^ 41 + 2 ^ 37)
/-- ECC_ERROR: kind 0 in die scratchpad, company memory or G7 memory, at physical address `loc`; kind 1 in the register file
and kind 2 in the accumulator store of troupe `loc / 2^32`, at register or element key `loc mod 2^32`, found as it is read.
DEDUCED, log 92. -/
def execEccError (kind loc : Nat) (corrected : Bool) (s : State) : Outcome :=
  let t := loc / 2 ^ 32
  let k := loc % 2 ^ 32
  let tr := s.troupe t
  if kind = 0 then
    if !isMemory s loc then .next s
    else if !corrected then .next { s with poison := insertPart (loc / 8) s.poison }
    else if isScratch loc || isCm loc then
      .next (bump s (sliceCounter (countSlice s loc) (if Config.pick 0 (lineOf loc) then 0x1C else 0x18)) 1)
    else .next (bump s (uncorrected s loc - 4) 1)
  else if corrected || !tr.placed then .next s
  else
    let even := k / 2 * 2
    let tr1 := if kind = 1 then { tr with regs := tset (tset tr.regs 0 even 0) 0 (even + 1) 0 }
      else { tr with tiles := tset (tset tr.tiles 0 even 0) 0 (even + 1) 0 }
    .next (postRunError (bump (s.setTroupe t tr1) (stageCounter tr.stage 4) 1) (s.companyOf t).run 13)

/-! ### Identity and attestation (R426) -/

/-- PRESUMED, log 93. -/
def spdmOut (s : State) (code : Byte) (body : List Byte) : State := { s with out := s.out ++ [.spdm ([0x12, code, 0, 0] ++ body)] }
/-- An SPDM ERROR response. -/
def spdmError (s : State) : State := spdmOut s 0x7F []
/-- Bytes of a digest. -/
def digestBytes (x : BitVec 256) : List Byte := leBytes 32 x.toNat
/-- The header and body of an image, as its signature covers them.
PRESUMED, log 94. -/
def coveredBytes (x : FwImage) : List Byte := leBytes 4 x.kind ++ leBytes 4 x.version ++ leBytes 8 x.length ++ x.body
/-- The image of a kind in force. -/
def imageBytes (s : State) (k : Nat) : List Byte :=
  match s.mgmt.images.find? fun x => x.1 == k with
  | some x => coveredBytes x.2
  | none => Config.factoryImage k
/-- Measurement blocks 1 to 6. -/
def measurement (s : State) (k : Nat) : List Byte :=
  if k = 5 then leBytes 8 s.mgmt.ownerGen
  else if k = 6 then leBytes 8 s.mgmt.rejections
  else digestBytes (Config.sha256 (imageBytes s k))
def execGetVersion (s : State) : Outcome :=
  .next (spdmOut { s with mgmt := { s.mgmt with spdmVersion := true, spdmCaps := false, spdmAlgs := false } } 0x04 [0x12])
def execGetCapabilities (s : State) : Outcome :=
  .next (if s.mgmt.spdmVersion then spdmOut { s with mgmt := { s.mgmt with spdmCaps := true } } 0x61 [] else spdmError s)
/-- A negotiation that excludes ECDSA P-256 with SHA-256 fails. -/
def execNegotiateAlgorithms (p256 sha : Bool) (s : State) : Outcome :=
  .next (if s.mgmt.spdmCaps && p256 && sha then spdmOut { s with mgmt := { s.mgmt with spdmAlgs := true } } 0x63 [] else spdmError s)
def execGetDigests (s : State) : Outcome :=
  .next (if s.mgmt.spdmAlgs then spdmOut s 0x01 (digestBytes (Config.sha256 Config.certificateChain)) else spdmError s)
def execGetCertificate (off len : Nat) (s : State) : Outcome :=
  .next (if s.mgmt.spdmAlgs then spdmOut s 0x02 ((Config.certificateChain.drop off).take len) else spdmError s)
/-- CHALLENGE: the nonce and the measurements, signed with the identity key. -/
def execChallenge (nonce : Nat) (s : State) : Outcome :=
  let body := leBytes 32 nonce ++ (List.range 6).flatMap fun k => measurement s (k + 1)
  .next (if s.mgmt.spdmAlgs then spdmOut s 0x03 (body ++ Config.ecdsaSign body) else spdmError s)
/-- GET_MEASUREMENTS: 0 asks for the number of blocks, 255 for all, any other for one. -/
def execGetMeasurements (block : Nat) (s : State) : Outcome :=
  .next (if !s.mgmt.spdmAlgs then spdmError s
    else if block = 0 then spdmOut s 0x60 [6]
    else if block = 255 then spdmOut s 0x60 ((List.range 6).flatMap fun k => measurement s (k + 1))
    else if block ≤ 6 then spdmOut s 0x60 (measurement s block)
    else spdmError s)
/-- OWNER_CHANGE: the generation rises, then the owner-change reset, at which no image takes effect (R421, R427). -/
def execOwnerChange (s : State) : Outcome :=
  .next (emptied s s.ports.afterFunction { s.mgmt.afterReset with ownerGen := s.mgmt.ownerGen + 1 })

/-- FIRMWARE_IMAGE (R427). -/
def execFirmwareImage (x : FwImage) (s : State) : Outcome :=
  let good := Config.ecdsaVerify (Config.sha256 (coveredBytes x)) x.sigR x.sigS && 1 ≤ x.kind && x.kind ≤ 4 &&
    Config.fusedMinimum x.kind ≤ x.version
  .next { s with mgmt :=
    if good then { s.mgmt with nextImages := tput s.mgmt.nextImages x.kind x }
    else { s.mgmt with rejections := s.mgmt.rejections + 1 } }

/-! ### Power (R428) -/

def Mgmt.slower (g : Mgmt) : Mgmt := { g with clock := max 625 (g.clock - 25) }
def Mgmt.faster (g : Mgmt) : Mgmt := { g with clock := min 1250 (g.clock + 25) }
/-- DEDUCED, log 95. -/
def execSetPowerLimit (w : Nat) (s : State) : Outcome :=
  .next (if 800 ≤ w && w ≤ 1900 then { s with mgmt := { s.mgmt with plimit := w } } else s)
/-- POWER_AVERAGE: the average of the last 10 ms. -/
def execPowerAverage (w : Nat) (s : State) : Outcome :=
  let g := s.mgmt
  .next { s with mgmt :=
    if g.plimit < w then { g.slower with under := 0 }
    else if 100 * w ≤ 95 * g.plimit then
      (if 100 ≤ g.under + 10 && !g.hot then { g.faster with under := g.under + 10 } else { g with under := g.under + 10 })
    else { g with under := 0 } }
/-- THERMAL_TRIP: the junction temperature in °C. -/
def execThermalTrip (c : Nat) (s : State) : Outcome :=
  let g := s.mgmt
  if 115 < c then
    let z := coldReset s
    .next { z with mgmt := { z.mgmt with held := true, hot := true } }
  else if g.held then .next (if c < 95 then { s with mgmt := { g with held := false, hot := false } } else s)
  else .next { s with mgmt := if 105 < c then { g.slower with hot := true } else { g with hot := false } }

/-! ### Time -/

/-- The wait of a troupe that is not idle begins anew. -/
def idleTick (s : State) (now t : Nat) (tr : Troupe) : Troupe :=
  if tr.status == .resident && idles s t then tr else { tr with idleSince := now }
/-- Note the tail of a node's queue. -/
def nodeTick (s : State) (r : Run) : Run :=
  if r.source != .callboard || r.complete then r
  else
    let d := descOf s r.nodeQ
    if d.bad || (r.arrivals.getLast?.any fun x => x.1 == d.tail) then r
    else { r with arrivals := (r.arrivals.filter fun x =>
      let n := (x.1 + 2 ^ 32 - d.head) % 2 ^ 32; 0 < n && n ≤ d.used) ++ [(d.tail, s.wall)] }
/-- Since when work of the run has waited for room (R356). -/
def waitTick (s : State) (k : Nat) (r : Run) : Run :=
  { r with waited := if !waitsForRoom s k then 0 else if r.waited = 0 then s.wall + 1 else r.waited }
/-- The limits of waits that have lapsed by a time: they end before anything that happens later (R59, R67, R82, R251, R256). -/
def lapsed (s : State) (now : Nat) : List Action :=
  let past (d : Nat) : Bool := d != 0 && d < now
  (s.accs.filter fun a => a.st == .awaiting && a.op == .await && past a.deadline).map (fun a => .event (.awaitLimitExpiry a.id)) ++
  (s.troupes.filter fun x => x.2.status == .resident).flatMap fun x => (List.range 32).filterMap fun l =>
    let th := x.2.thread l
    match th.st, th.wait with
    | .waiting, .cvwait _ d _ => if past d then some (.event (.cvwaitTimeout x.1 l)) else none
    | .waiting, .wpwait _ d => if past d then some (.event (.wpwaitTimeout x.1 l)) else none
    | _, _ => none
/-- `n` nanoseconds of wall time. -/
def tick (n : Nat) (s : State) : State :=
  let s1 := tickTime s n
  sendTimes s.wall { s1 with
    wall := s.wall + n
    agenda := s.agenda ++ lapsed s (s.wall + n)
    runs := s1.runs.map fun x => (x.1, waitTick s x.1 (nodeTick s x.2))
    troupes := s1.troupes.map fun x => (x.1, idleTick s (s.wall + n) x.1 x.2) }

end Sys2Proof.Machine
end

