-- ==== Sys2Proof/Machine/Schedule.lean ====
section
/-! DEFINITION. What can happen next, and the moves that are no row of the opcode table: stores enter the stage store buffer,
owed writes are performed, caches lose lines (13_encoding.md R161, R169; 21_consistency.md R312; 31_housekeeping.md R428). -/

namespace Sys2Proof.Machine

open Sys2Proof

/-- The oldest of a troupe's stores that is not yet in the stage store buffer enters it (R312). -/
def publish (t : Nat) (s : State) : State :=
  match (storeQueue s t).find? fun a => a.pub.isNone && a.dev.isNone with
  | none => s
  | some a =>
    if relPending s a || !loadsBefore s a then s else { setAcc s { a with pub := some s.nextId } with nextId := s.nextId + 1 }
/-- An owed write of a pipe is performed; the results of accesses are written as they complete. -/
def writeback (t id : Nat) (s : State) : State :=
  if (s.troupe t).pend.any (fun p => p.id == id && p.known) && !s.accs.any (fun a => a.pend == id && a.who.ofTroupe t) then
    performPend s t id else s
/-- A line leaves a stage's RO cache. -/
def roDrop (st line : Nat) (s : State) : State := s.setStage st { s.stage st with ro := terase (s.stage st).ro line }

/-- What happens next: the head of the agenda, else what the schedule and the environment choose.
DESIGN CHOICE, log 1. -/
def nextAction (s : State) : Action × State :=
  let z := latchNodes s
  match s.agenda with
  | a :: rest => (a, { z with agenda := rest })
  | [] => (Config.choice s.choices, { z with choices := s.choices + 1 })

/-- While the controller holds the module in cold reset, only time and temperature change (R428).
DEDUCED, log 96. -/
def admitted (s : State) (a : Action) : Bool :=
  !s.mgmt.held || match a with
    | .tick _ | .event (.thermalTrip _) => true
    | _ => false

/-- A move that is no instruction.
DEDUCED, log 112. -/
def doAction (a : Action) (s : State) : State :=
  match a with
  | .issue _ _ | .issueAlso _ _ | .event _ => s
  | .tick n => tick n s
  | .publish t => publish t s
  | .writeback t p => writeback t p s
  | .copyRead c k => copyRead s c k
  | .recomputeRead k => recomputeRead k s
  | .fetchFill st a => dropFetched s st a
  | .sampleLoad id => sampleLoad id s
  | .roDrop st line => roDrop st line s
  | .prefetch q g => prefetch q g s
  | .serviceAccess r => serviceAccess r s
  | .remoteRefused id cause => remoteRefused id cause s
  | .transferRefused c k cause => transferRefused c k cause s
  | .linkAck id => linkAck id s
  | .transferDone c k => transferDone c k s
  | .transferRetry c k => transferRetry c k s
  | .hostReadFails c k => hostReadFails c k s
  | .hostEnables ats pri alloc => hostEnables ats pri alloc s
  | .collRead id q off n => collRead id q off n s
  | .collServe id off n h => collServe id off n h s
  | .collRefused id q off cause => collRefused id q off cause s
  | .collForward link p => collForward link p s
  | .registerRead p off size => registerRead p off size s

/-- After an issue: the bundle goes on as R53 says, and its troupe has not been idle. -/
def afterIssue (b : Bundle) (act : Mask) (s : State) : State :=
  let s1 := regroup s b act
  s1.setTroupe b.t { s1.troupe b.t with idleSince := s.wall }

/-! ### Placing one instruction where the next step fetches -/

/-- A run of one instruction at the scratchpad offset 0x10000. -/
def probeRun (k : Nat) : Run :=
  { Run.absent with
    id := BitVec.ofNat 32 k, items := 32, counter := 32, grid := (1, 1, 1), circuit := (1, 1, 1), troupes := 1, nstages := 1
    regs := 512, acct := 64, launchCap := true, text := 0x10000, textSize := 12, nextComp := 1, gateOpen := true }
def probeCompany (k : Nat) : Company :=
  { Company.absent with run := k, stages := [0], cmBase := [0], placed := true }
/-- 32 READY threads inside a clause that has both flags. -/
def probeTroupe (s : State) : Troupe :=
  { newTroupe s 0 0 0 with
    threads := (List.range 32).map fun l =>
      (l, { Thread.start 0 with reach := none, count := 1, flga := some 0, flgb := some 1, item := BitVec.ofNat 64 l }) }

end Sys2Proof.Machine
end

