-- ==== Sys2Proof/Machine/Dispatch.lean ====
section
/-! DEFINITION. The dispatch: one arm for each row of the opcode table. -/

namespace Sys2Proof.Machine

open Sys2Proof

def exec (i : Instr) (s : State) : Host.Outcome State Fault Refusal :=
  match i with
  | .iadd h ty sat d a b => Sys2Proof.Machine.execIadd h ty sat d a b s
  | .isub h ty sat d a b => Sys2Proof.Machine.execIsub h ty sat d a b s
  | .imul h ty sat d a b => Sys2Proof.Machine.execImul h ty sat d a b s
  | .imulh h ty d a b => Sys2Proof.Machine.execImulh h ty d a b s
  | .imad h ty sat d a b c => Sys2Proof.Machine.execImad h ty sat d a b c s
  | .idiv h ty sat d a b => Sys2Proof.Machine.execIdiv h ty sat d a b s
  | .irem h ty d a b => Sys2Proof.Machine.execIrem h ty d a b s
  | .imin h ty d a b => Sys2Proof.Machine.execImin h ty d a b s
  | .imax h ty d a b => Sys2Proof.Machine.execImax h ty d a b s
  | .iabs h ty sat d a => Sys2Proof.Machine.execIabs h ty sat d a s
  | .ineg h ty sat d a => Sys2Proof.Machine.execIneg h ty sat d a s
  | .and h ty d a b => Sys2Proof.Machine.execAnd h ty d a b s
  | .or h ty d a b => Sys2Proof.Machine.execOr h ty d a b s
  | .xor h ty d a b => Sys2Proof.Machine.execXor h ty d a b s
  | .not h ty d a => Sys2Proof.Machine.execNot h ty d a s
  | .shl h ty d a b => Sys2Proof.Machine.execShl h ty d a b s
  | .shr h ty d a b => Sys2Proof.Machine.execShr h ty d a b s
  | .rotl h ty d a b => Sys2Proof.Machine.execRotl h ty d a b s
  | .bfe h ty d a b => Sys2Proof.Machine.execBfe h ty d a b s
  | .bfi h ty d a b c => Sys2Proof.Machine.execBfi h ty d a b c s
  | .popc h ty d a => Sys2Proof.Machine.execPopc h ty d a s
  | .clz h ty d a => Sys2Proof.Machine.execClz h ty d a s
  | .brev h ty d a => Sys2Proof.Machine.execBrev h ty d a s
  | .prmt h d a b => Sys2Proof.Machine.execPrmt h d a b s
  | .icmp h cond ty d a b => Sys2Proof.Machine.execIcmp h cond ty d a b s
  | .sel h ty d a b c => Sys2Proof.Machine.execSel h ty d a b c s
  | .plop h table d a b c => Sys2Proof.Machine.execPlop h table d a b c s
  | .pmovGet h d => Sys2Proof.Machine.execPmovGet h d s
  | .pmovSet h a b => Sys2Proof.Machine.execPmovSet h a b s
  | .mov h ty d a => Sys2Proof.Machine.execMov h ty d a s
  | .movi h d x => Sys2Proof.Machine.execMovi h d x s
  | .moviHi h d x => Sys2Proof.Machine.execMoviHi h d x s
  | .lea h ty sh d a b => Sys2Proof.Machine.execLea h ty sh d a b s
  | .leaCode h ty sh d b => Sys2Proof.Machine.execLeaCode h ty sh d b s
  | .fadd h ty m d a b => Sys2Proof.Machine.execFadd h ty m d a b s
  | .fsub h ty m d a b => Sys2Proof.Machine.execFsub h ty m d a b s
  | .fmul h ty m d a b => Sys2Proof.Machine.execFmul h ty m d a b s
  | .ffma h ty m d a b c => Sys2Proof.Machine.execFfma h ty m d a b c s
  | .fmin h ty ftz d a b => Sys2Proof.Machine.execFmin h ty ftz d a b s
  | .fmax h ty ftz d a b => Sys2Proof.Machine.execFmax h ty ftz d a b s
  | .fabs h ty ftz d a => Sys2Proof.Machine.execFabs h ty ftz d a s
  | .fneg h ty ftz d a => Sys2Proof.Machine.execFneg h ty ftz d a s
  | .fcmp h cond ty ftz d a b => Sys2Proof.Machine.execFcmp h cond ty ftz d a b s
  | .frcp h m d a => Sys2Proof.Machine.execFrcp h m d a s
  | .frsq h m d a => Sys2Proof.Machine.execFrsq h m d a s
  | .fsqrt h m d a => Sys2Proof.Machine.execFsqrt h m d a s
  | .fdiv h m d a b => Sys2Proof.Machine.execFdiv h m d a b s
  | .fexp2 h m d a => Sys2Proof.Machine.execFexp2 h m d a s
  | .flog2 h m d a => Sys2Proof.Machine.execFlog2 h m d a s
  | .fsin h m d a => Sys2Proof.Machine.execFsin h m d a s
  | .fcos h m d a => Sys2Proof.Machine.execFcos h m d a s
  | .ftanh h m d a => Sys2Proof.Machine.execFtanh h m d a s
  | .fclass h ty d a => Sys2Proof.Machine.execFclass h ty d a s
  | .frint h ty rnd ftz d a => Sys2Proof.Machine.execFrint h ty rnd ftz d a s
  | .cvt h src dst m d a => Sys2Proof.Machine.execCvt h src dst m d a s
  | .pack h ty m d a sc => Sys2Proof.Machine.execPack h ty m d a sc s
  | .unpack h ty sat d a sc => Sys2Proof.Machine.execUnpack h ty sat d a sc s
  | .dot2 h ty m d a b c => Sys2Proof.Machine.execDot2 h ty m d a b c s
  | .dot4 h ty sc xb m d a b c => Sys2Proof.Machine.execDot4 h ty sc xb m d a b c s
  | .dot8 h sc m d a b c => Sys2Proof.Machine.execDot8 h sc m d a b c s
  | .scaleApply h m d a b => Sys2Proof.Machine.execScaleApply h m d a b s
  | .scaleMx h f d a => Sys2Proof.Machine.execScaleMx h f d a s
  | .amax h ty d a b => Sys2Proof.Machine.execAmax h ty d a b s
  | .srseed h a => Sys2Proof.Machine.execSrseed h a s
  | .cbfly h m d a b c => Sys2Proof.Machine.execCbfly h m d a b c s
  | .cmul h conj m d a b => Sys2Proof.Machine.execCmul h conj m d a b s
  | .twid h d a b => Sys2Proof.Machine.execTwid h d a b s
  | .ld h ty m d base off => Sys2Proof.Machine.execLd h ty m d base off s
  | .st h ty m d base off => Sys2Proof.Machine.execSt h ty m d base off s
  | .ldx h n m d base off => Sys2Proof.Machine.execLdx h n m d base off s
  | .stx h n m d base off => Sys2Proof.Machine.execStx h n m d base off s
  | .ldu h ty m d base off => Sys2Proof.Machine.execLdu h ty m d base off s
  | .stu h ty m d base off => Sys2Proof.Machine.execStu h ty m d base off s
  | .probe h d base off => Sys2Proof.Machine.execProbe h d base off s
  | .atom h op ty m d base b c => Sys2Proof.Machine.execAtom h op ty m d base b c s
  | .red h op ty m d base off => Sys2Proof.Machine.execRed h op ty m d base off s
  | .aenq h ty m d base b => Sys2Proof.Machine.execAenq h ty m d base b s
  | .adeq h m d base off => Sys2Proof.Machine.execAdeq h m d base off s
  | .fence h k sc => Sys2Proof.Machine.execFence h k sc s
  | .waitc h cls n => Sys2Proof.Machine.execWaitc h cls n s
  | .jinit h j e => Sys2Proof.Machine.execJinit h j e s
  | .jarr h j d => Sys2Proof.Machine.execJarr h j d s
  | .jwait h j => Sys2Proof.Machine.execJwait h j s
  | .jarrw h j d => Sys2Proof.Machine.execJarrw h j d s
  | .wpinit h base b c => Sys2Proof.Machine.execWpinit h base b c s
  | .wparr h noarr base b => Sys2Proof.Machine.execWparr h noarr base b s
  | .wpwait h d base b c => Sys2Proof.Machine.execWpwait h d base b c s
  | .bra h k => Sys2Proof.Machine.execBra h k s
  | .brx h a => Sys2Proof.Machine.execBrx h a s
  | .call h k => Sys2Proof.Machine.execCall h k s
  | .callx h a => Sys2Proof.Machine.execCallx h a s
  | .ret h => Sys2Proof.Machine.execRet h s
  | .cvset h c => Sys2Proof.Machine.execCvset h c s
  | .cvsetIdle h c => Sys2Proof.Machine.execCvsetIdle h c s
  | .cvwait h c d b => Sys2Proof.Machine.execCvwait h c d b s
  | .exit h => Sys2Proof.Machine.execExit h s
  | .yield h => Sys2Proof.Machine.execYield h s
  | .nop h => Sys2Proof.Machine.execNop h s
  | .brk h x => Sys2Proof.Machine.execBrk h x s
  | .sleep h b => Sys2Proof.Machine.execSleep h b s
  | .qswz h ty d a b => Sys2Proof.Machine.execQswz h ty d a b s
  | .shfl h mode ty d a b => Sys2Proof.Machine.execShfl h mode ty d a b s
  | .vote h k sc d a => Sys2Proof.Machine.execVote h k sc d a s
  | .tred h op sc ty d a => Sys2Proof.Machine.execTred h op sc ty d a s
  | .tscan h op sc ty excl d a => Sys2Proof.Machine.execTscan h op sc ty excl d a s
  | .matchv h sc ty d a => Sys2Proof.Machine.execMatchv h sc ty d a s
  | .elect h d => Sys2Proof.Machine.execElect h d s
  | .umov h ty d a b => Sys2Proof.Machine.execUmov h ty d a b s
  | .mma h a => Sys2Proof.Machine.execMma h a s
  | .accld h base tile => Sys2Proof.Machine.execAccld h base tile s
  | .accst h base tile => Sys2Proof.Machine.execAccst h base tile s
  | .accz h tile => Sys2Proof.Machine.execAccz h tile s
  | .accout h a dest scale => Sys2Proof.Machine.execAccout h a dest scale s
  | .rsvop h r d b => Sys2Proof.Machine.execRsvop h r d b s
  | .rlsop h r => Sys2Proof.Machine.execRlsop h r s
  | .ldscl h r base n => Sys2Proof.Machine.execLdscl h r base n s
  | .copy h base n => Sys2Proof.Machine.execCopy h base n s
  | .copyl h nopres dst src n wp => Sys2Proof.Machine.execCopyl h nopres dst src n wp s
  | .coll h base => Sys2Proof.Machine.execColl h base s
  | .cstat h d => Sys2Proof.Machine.execCstat h d s
  | .dreg h d base => Sys2Proof.Machine.execDreg h d base s
  | .dunreg h d b => Sys2Proof.Machine.execDunreg h d b s
  | .dstat h d b => Sys2Proof.Machine.execDstat h d b s
  | .dfresh h b => Sys2Proof.Machine.execDfresh h b s
  | .trap h x => Sys2Proof.Machine.execTrap h x s
  | .svc h d base b => Sys2Proof.Machine.execSvc h d base b s
  | .svcPark h d base b => Sys2Proof.Machine.execSvcPark h d base b s
  | .csrr h d b => Sys2Proof.Machine.execCsrr h d b s
  | .csrw h a b => Sys2Proof.Machine.execCsrw h a b s
  | .rtt h => Sys2Proof.Machine.execRtt h s
  | .launch h d base b => Sys2Proof.Machine.execLaunch h d base b s
  | .gate h => Sys2Proof.Machine.execGate h s
  | .release h => Sys2Proof.Machine.execRelease h s
  | .savectx h part base => Sys2Proof.Machine.execSavectx h part base s
  | .loadctx h part base => Sys2Proof.Machine.execLoadctx h part base s
  | .hazardClear t l => Sys2Proof.Machine.execHazardClear t l s
  | .bundleRebuild stage wing => Sys2Proof.Machine.execBundleRebuild stage wing s
  | .starvationBound stage wing k => Sys2Proof.Machine.execStarvationBound stage wing k s
  | .unitRefill t l => Sys2Proof.Machine.execUnitRefill t l s
  | .readbackComplete t l => Sys2Proof.Machine.execReadbackComplete t l s
  | .plainLoad id => Sys2Proof.Machine.execPlainLoad id s
  | .plainStore id => Sys2Proof.Machine.execPlainStore id s
  | .roLoad id cached => Sys2Proof.Machine.execRoLoad id cached s
  | .windowAdd id => Sys2Proof.Machine.execWindowAdd id s
  | .windowMax id => Sys2Proof.Machine.execWindowMax id s
  | .windowMin id => Sys2Proof.Machine.execWindowMin id s
  | .windowOr id => Sys2Proof.Machine.execWindowOr id s
  | .windowAnd id => Sys2Proof.Machine.execWindowAnd id s
  | .castDelivery id k => Sys2Proof.Machine.execCastDelivery id k s
  | .enq id => Sys2Proof.Machine.execEnq id s
  | .deq id => Sys2Proof.Machine.execDeq id s
  | .take id => Sys2Proof.Machine.execTake id s
  | .count id => Sys2Proof.Machine.execCount id s
  | .await id => Sys2Proof.Machine.execAwait id s
  | .awaitLimitExpiry id => Sys2Proof.Machine.execAwaitLimitExpiry id s
  | .agentHoldLimitExpiry id => Sys2Proof.Machine.execAgentHoldLimitExpiry id s
  | .parkReport id => Sys2Proof.Machine.execParkReport id s
  | .loadCompletion id reply => Sys2Proof.Machine.execLoadCompletion id reply s
  | .cvwaitTimeout t l => Sys2Proof.Machine.execCvwaitTimeout t l s
  | .wpwaitTimeout t l => Sys2Proof.Machine.execWpwaitTimeout t l s
  | .sleepExpiry t l => Sys2Proof.Machine.execSleepExpiry t l s
  | .operandReadCompletion t op => Sys2Proof.Machine.execOperandReadCompletion t op s
  | .mmaCompletion t op => Sys2Proof.Machine.execMmaCompletion t op s
  | .engineCounterFall t cls => Sys2Proof.Machine.execEngineCounterFall t cls s
  | .copyChunkLanding c k data => Sys2Proof.Machine.execCopyChunkLanding c k data s
  | .copyCompletion c => Sys2Proof.Machine.execCopyCompletion c s
  | .waypointUpdate k => Sys2Proof.Machine.execWaypointUpdate k s
  | .collDelivery c off data => Sys2Proof.Machine.execCollDelivery c off data s
  | .collTimeout c => Sys2Proof.Machine.execCollTimeout c s
  | .staleMark k => Sys2Proof.Machine.execStaleMark k s
  | .markAck id => Sys2Proof.Machine.execMarkAck id s
  | .derivedLoad id => Sys2Proof.Machine.execDerivedLoad id s
  | .recomputeStart slice => Sys2Proof.Machine.execRecomputeStart slice s
  | .recomputeEnd slice => Sys2Proof.Machine.execRecomputeEnd slice s
  | .derivedWriteDrop id => Sys2Proof.Machine.execDerivedWriteDrop id s
  | .handlerEntry t => Sys2Proof.Machine.execHandlerEntry t s
  | .preempt c => Sys2Proof.Machine.execPreempt c s
  | .eviction t => Sys2Proof.Machine.execEviction t s
  | .restore c stages => Sys2Proof.Machine.execRestore c stages s
  | .troupeRetire t => Sys2Proof.Machine.execTroupeRetire t s
  | .companyPlacement r => Sys2Proof.Machine.execCompanyPlacement r s
  | .preemptRaise r => Sys2Proof.Machine.execPreemptRaise r s
  | .gateOpen r => Sys2Proof.Machine.execGateOpen r s
  | .deterministicMilestone r kind => Sys2Proof.Machine.execDeterministicMilestone r kind s
  | .callboardPlace r => Sys2Proof.Machine.execCallboardPlace r s
  | .callboardTimer r => Sys2Proof.Machine.execCallboardTimer r s
  | .prompterWake q => Sys2Proof.Machine.execPrompterWake q s
  | .slotReread q => Sys2Proof.Machine.execSlotReread q s
  | .packetNop q => Sys2Proof.Machine.execPacketNop q s
  | .runPacket q => Sys2Proof.Machine.execRunPacket q s
  | .waitPacket q => Sys2Proof.Machine.execWaitPacket q s
  | .waitConditionMet q => Sys2Proof.Machine.execWaitConditionMet q s
  | .signal q => Sys2Proof.Machine.execSignal q s
  | .indirect q => Sys2Proof.Machine.execIndirect q s
  | .svcDone t l => Sys2Proof.Machine.execSvcDone t l s
  | .qmapEnable q x => Sys2Proof.Machine.execQmapEnable q x s
  | .qmapDisable q x => Sys2Proof.Machine.execQmapDisable q x s
  | .registerStagedWrite port off size x => Sys2Proof.Machine.execRegisterStagedWrite port off size x s
  | .registerWrite port off size x => Sys2Proof.Machine.execRegisterWrite port off size x s
  | .hwakeEnable n x => Sys2Proof.Machine.execHwakeEnable n x s
  | .errcntClear n x => Sys2Proof.Machine.execErrcntClear n x s
  | .counterClear off x => Sys2Proof.Machine.execCounterClear off x s
  | .timeset x => Sys2Proof.Machine.execTimeset x s
  | .xinv x => Sys2Proof.Machine.execXinv x s
  | .xinvComplete => Sys2Proof.Machine.execXinvComplete s
  | .xrespRetry x => Sys2Proof.Machine.execXrespRetry x s
  | .xrespFail x => Sys2Proof.Machine.execXrespFail x s
  | .regionTableWrite die r x => Sys2Proof.Machine.execRegionTableWrite die r x s
  | .regionMoveSet die r x => Sys2Proof.Machine.execRegionMoveSet die r x s
  | .retryAfterExpiry id => Sys2Proof.Machine.execRetryAfterExpiry id s
  | .remoteRefusalTimeout id => Sys2Proof.Machine.execRemoteRefusalTimeout id s
  | .deviceTranslationFault k => Sys2Proof.Machine.execDeviceTranslationFault k s
  | .faultReportRetry k => Sys2Proof.Machine.execFaultReportRetry k s
  | .faultTimeout k => Sys2Proof.Machine.execFaultTimeout k s
  | .atsTranslationCompletion pasid page r w pa pages => Sys2Proof.Machine.execAtsTranslationCompletion pasid page r w pa pages s
  | .priPageResponse k code => Sys2Proof.Machine.execPriPageResponse k code s
  | .pageRequestTimeout k => Sys2Proof.Machine.execPageRequestTimeout k s
  | .atsInvalidationRequest pasid page pages tag => Sys2Proof.Machine.execAtsInvalidationRequest pasid page pages tag s
  | .translationFailure c => Sys2Proof.Machine.execTranslationFailure c s
  | .windowApertureRequest r => Sys2Proof.Machine.execWindowApertureRequest r s
  | .completionTimeout id => Sys2Proof.Machine.execCompletionTimeout id s
  | .skasonRemoteAccess r => Sys2Proof.Machine.execSkasonRemoteAccess r s
  | .skasonForward r => Sys2Proof.Machine.execSkasonForward r s
  | .linkDown l => Sys2Proof.Machine.execLinkDown l s
  | .linkAckTimeout id => Sys2Proof.Machine.execLinkAckTimeout id s
  | .timeMessage link master msg => Sys2Proof.Machine.execTimeMessage link master msg s
  | .coldReset => Sys2Proof.Machine.execColdReset s
  | .functionLevelReset => Sys2Proof.Machine.execFunctionLevelReset s
  | .wipeComplete => Sys2Proof.Machine.execWipeComplete s
  | .eccError kind loc corrected => Sys2Proof.Machine.execEccError kind loc corrected s
  | .getVersion => Sys2Proof.Machine.execGetVersion s
  | .getCapabilities => Sys2Proof.Machine.execGetCapabilities s
  | .negotiateAlgorithms ecdsaP256 sha256 => Sys2Proof.Machine.execNegotiateAlgorithms ecdsaP256 sha256 s
  | .getDigests => Sys2Proof.Machine.execGetDigests s
  | .getCertificate off len => Sys2Proof.Machine.execGetCertificate off len s
  | .challenge nonce => Sys2Proof.Machine.execChallenge nonce s
  | .getMeasurements block => Sys2Proof.Machine.execGetMeasurements block s
  | .ownerChange => Sys2Proof.Machine.execOwnerChange s
  | .firmwareImage x => Sys2Proof.Machine.execFirmwareImage x s
  | .setPowerLimit w => Sys2Proof.Machine.execSetPowerLimit w s
  | .powerAverage w => Sys2Proof.Machine.execPowerAverage w s
  | .thermalTrip c => Sys2Proof.Machine.execThermalTrip c s
  | .linkTrained l => Sys2Proof.Machine.execLinkTrained l s
  | .functionReady bit => Sys2Proof.Machine.execFunctionReady bit s

end Sys2Proof.Machine
end

