-- ==== Sys2Proof/Machine/Step.lean ====
section
/-! DEFINITION. The step: one thing happens (13_encoding.md R168; 23_scheduling.md R365). -/

namespace Sys2Proof.Machine

open Sys2Proof

/-- What an issue leaves once its bundle has been regrouped. -/
def issued (b : Bundle) (act : Mask) (o : Host.Outcome State Fault Refusal) : Host.Outcome State Fault Refusal :=
  match o with
  | .next s => .next (afterIssue b act s)
  | .fault f => .fault f
  | .refused r => .refused r
/-- The threads of the cursor's bundle whose guard holds at an instruction. -/
def activeAt (s : State) (i : Instr) : Mask := ((fieldsOf i).map fun f => (ctxOf s (hdrOf f)).act).getD 0

/-- A wing issues a bundle that its scheduler has chosen; with none, or while its fetch waits, nothing happens. -/
def issueStep (s : State) (pick : Option (State × Bundle)) : Host.Outcome State Fault Refusal :=
  match pick with
  | none => .next s
  | some (s1, b) =>
    match fetchBundle s1 b with
    | .wait => .next s
    | .over s2 => .next (afterIssue b (readyPart s1 b) s2)
    | .run s2 i => issued b (activeAt s2 i) (exec i s2)

/-- One action.
DEDUCED, log 113. -/
def act (a : Action) (s : State) : Host.Outcome State Fault Refusal :=
  if !admitted s a then .next s
  else match a with
  | .issue stage wing => issueStep s (pickBundle s stage wing)
  | .issueAlso stage wing => issueStep (dropAlso s stage wing) (pickAlso s stage wing)
  | .event i => if i.isCode then .next s else exec i s
  | a => .next (doAction a s)

/-- DESIGN CHOICE, log 109. -/
def step (s : State) : Host.Outcome State Fault Refusal :=
  act (nextAction s).1 (nextAction s).2

/-- The state with one instruction where the next step fetches it: a run, a company and a troupe are placed on stage 0, and the
agenda says that wing 0 issues.
DESIGN CHOICE, log 2. -/
def State.withFetchWord (s : State) (nbits w : Nat) : State :=
  let r := nextKey s.runs
  let c := nextKey s.companies
  let t := 256 * c
  let s1 := ((s.setRun r (probeRun r)).setCompany c (probeCompany r)).setTroupe t (probeTroupe s)
  let s2 := (s1.setWing 0 { Wing.empty with table := [⟨t, 0xFFFFFFFF⟩] }).setStage 0 { s.stage 0 with icache := [] }
  { s2 with
    mem := s.mem.setBytes 0x10000 (leBytes 12 (w % 2 ^ nbits))
    pclear := terase s.pclear 256
    poison := s.poison.filter fun p => !(0x2000 ≤ p && p < 0x2002)
    agenda := [.issue 0 0]
    mgmt := { s.mgmt with held := false } }

end Sys2Proof.Machine
end

