-- ==== Sys2Proof/Safety.lean ====
section
/-! DEFINITION. The terms in which claims are made: the invariant of a run, when an instruction issues, what it leaves
unchanged, and how its results stand in the state. -/

namespace Sys2Proof.Machine

open Sys2Proof

/-! ### Runs -/

/-- What every state of a run keeps: memory is sorted by address, and lists no byte equal to what an unlisted one reads as. -/
def State.Inv (s : State) : Prop := s.mem.wf = true

/-! ### When an instruction issues (13_encoding.md R156-R167) -/

/-- The state in which an instruction's own rules read: the free picks of R161 have moved on. -/
def State.begun (s : State) : State := { s with picks := s.picks + 1 }

/-- `i` issues for the bundle at the cursor, which its rules see as `c`: no check of R167 fails, `priv` saying when it is used
outside its privilege, and no flag of its WAIT mask is busy (R159). -/
structure IssuesP (priv : State → Ctx → Bool) (i : Instr) (s : State) (c : Ctx) : Prop where
  bundle : issuable s = true
  checks : ∃ f, fieldsOf i = some f ∧ c = ctxOf s (hdrOf f) ∧ encTrap s c f (priv s c) = none
  flags  : (c.hdr.cs && (s.troupe c.t).busy &&& c.hdr.wait != 0) = false

/-- `i` issues, and may be used in either mode. -/
abbrev Issues (i : Instr) (s : State) (c : Ctx) : Prop := IssuesP (fun _ _ => false) i s c

/-! ### Frames -/

/-- Nothing changes outside troupe `u`, but the model's counters of ids and free picks; every byte reads as before. -/
structure OnlyTroupe (u : Nat) (s t : State) : Prop where
  rest   : { t with troupes := s.troupes, picks := s.picks, nextId := s.nextId } = s
  others : ∀ v, v ≠ u → t.troupe v = s.troupe v
  bytes  : ∀ x, t.mem.byte x = s.mem.byte x

/-- Owed writes, but for which of them a later instruction has overtaken. -/
def Pend.plain (p : Pend) : Pend := { p with contested := [] }

/-- Every thread of the bundle goes to PC + 12 with its clause state moved on, and no other thread changes; conversion counts
(R100) apart. -/
structure Moved (c : Ctx) (a b : Troupe) : Prop where
  moved : ∀ l, hasLane c.mask l = true → { b.thread l with conv := (a.thread l).conv } = (a.thread l).advance c.hdr
  still : ∀ l, hasLane c.mask l = false → b.thread l = a.thread l

/-- Of troupe `a` only registers named in `keys`, the owed writes, the threads' places and the draws of stochastic rounding
change; without mode sr no draw is made (R98). -/
structure LaneFrame (c : Ctx) (r : Rnd) (keys : List Nat) (a b : Troupe) : Prop where
  rest  : { b with regs := a.regs, pend := a.pend, threads := a.threads, srState := a.srState } = a
  regs  : ∀ k, k ∉ keys → b.reg k = a.reg k
  moved : Moved c a b
  drawn : r ≠ .sr → b.srState = a.srState ∧ ∀ l, (b.thread l).conv = (a.thread l).conv

/-! ### Results -/

/-- The register keys that the destination of an instruction names (R60): none for rz, special operands and p7. -/
def destKeys (c : Ctx) (wide : Bool) (d : Opd) : List Nat := (writers c d).flatMap fun l => (destWrites wide d l 0).map Prod.fst

/-- Destination `d` of lane `l` holds `x`; a pair holds all of it, a predicate whether it is nonzero. -/
def Gets (tr : Troupe) (wide : Bool) (d : Opd) (l : Nat) (x : Dword) : Prop :=
  ∀ w ∈ destWrites wide d l x, tr.reg w.1 = w.2

/-- A result written at once (R161): each lane that writes `d` gets a value that satisfies `P`, and the frame holds. -/
structure LaneNow (c : Ctx) (r : Rnd) (wide : Bool) (d : Opd) (P : Nat → Dword → Prop) (s t : State) : Prop where
  outside : OnlyTroupe c.t s t
  frame   : LaneFrame c r (destKeys c wide d) (s.troupe c.t) (t.troupe c.t)
  owed    : (t.troupe c.t).pend.map Pend.plain = (s.troupe c.t).pend.map Pend.plain
  result  : ∀ l ∈ writers c d, ∃ x, P l x ∧ Gets (t.troupe c.t) wide d l x

/-- What a write list comes to as owed writes (R160, R161): one for each lane with something to write, attached to the flag its
SEL names, the values known, in lane order. -/
def owedBy (c : Ctx) (s : State) (ws : Writes) : List Pend :=
  ((ws.filter fun w => !w.2.isEmpty).zipIdx).map fun x =>
    ⟨s.nextId + x.2, laneBit x.1.1, ((s.troupe c.t).thread x.1.1).selFlag c.hdr, x.1.2, true, []⟩

/-- A result performed later (R161): no register changes yet, and the writes `ws` are owed. -/
structure LaneLate (c : Ctx) (r : Rnd) (ws : Writes) (s t : State) : Prop where
  outside : OnlyTroupe c.t s t
  frame   : LaneFrame c r [] (s.troupe c.t) (t.troupe c.t)
  owed    : (t.troupe c.t).pend = (s.troupe c.t).pend ++ owedBy c s ws

/-- The integer `x` brought into a TYPE's range (R89): clamped to it, or wrapped modulo 2^width. -/
def Ranged (ty : Ty) (sat : Bool) (x r : Int) : Prop :=
  intMin ty ≤ r ∧ r ≤ intMax ty ∧
    if sat then (x ≤ intMin ty → r = intMin ty) ∧ (intMax ty ≤ x → r = intMax ty) ∧ (intMin ty ≤ x → x ≤ intMax ty → r = x)
    else (2 ^ Ty.width ty : Int) ∣ r - x

/-- The register or pair `r` holds the exact integer `x` brought into a TYPE's range, extended to 32 bits or filling the pair
(R89, R183). -/
def Holds (ty : Ty) (sat : Bool) (x : Int) (r : Dword) : Prop :=
  Ranged ty sat x (intOf ty r) ∧
    if Ty.wide ty then r = BitVec.ofInt 64 (intOf ty r) else loWord r = BitVec.ofInt 32 (intOf ty r)

/-! ### Accesses that an instruction enters -/

/-- An access without what depends on the accesses entered before it: its id, its predecessors, the write it completes, and
whether a store before it keeps it for its home (R326). -/
def Access.bare (a : Access) : Access := { a with id := 0, home := false, after := [], issued := 0, part := 0, pend := 0 }

/-- An owed write without its id. -/
def Pend.bare (p : Pend) : Pend := { p with id := 0 }

/-- Accesses that stand, bare, as `new` are entered behind the others, and the writes `owed` are owed; no register, no byte and no
other troupe changes. A deterministic run may be marked (R83); the engine counter REMOTE may rise (R120). -/
structure Entered (c : Ctx) (new : List Access) (owed : List Pend) (s t : State) : Prop where
  rest   : { t with troupes := s.troupes, runs := s.runs, accs := s.accs, picks := s.picks, nextId := s.nextId } = s
  runs   : (s.runOf c.t).determ = false → t.runs = s.runs
  others : ∀ v, v ≠ c.t → t.troupe v = s.troupe v
  troupe : { t.troupe c.t with threads := (s.troupe c.t).threads, pend := (s.troupe c.t).pend, ops := (s.troupe c.t).ops } =
    s.troupe c.t
  bytes  : ∀ x, t.mem.byte x = s.mem.byte x
  accs   : ∃ as, t.accs = s.accs ++ as ∧ as.map Access.bare = new
  owed   : ∃ ps, (t.troupe c.t).pend = (s.troupe c.t).pend ++ ps ∧ ps.map Pend.bare = owed
  remote : ∃ os, (t.troupe c.t).ops = (s.troupe c.t).ops ++ os ∧ os.all fun o => o.cls == .remote

/-- The write that a load of a lane owes to register keys `ks`, not known yet, attached to the flag SEL names. -/
def owedLoad (c : Ctx) (s : State) (m : Mask) (l : Nat) (ws : List (Nat × Word)) : List Pend :=
  if ws.isEmpty then [] else [⟨0, m, (s.thread c.t l).selFlag c.hdr, ws, false, []⟩]

/-- No NONDET trap: the lanes of `m` use no window whose order a strict deterministic run forbids (R83). -/
def OrderFree (s : State) (c : Ctx) (m : Mask) : Prop := m = 0 ∨ (s.runOf c.t).determ = false ∨ (s.runOf c.t).strict = false

/-- Room on the engine counter REMOTE for an instruction that sends an access to another module (R120). -/
def RemoteFree (s : State) (c : Ctx) (addr : Nat → Dword) : Prop :=
  (∀ l, hasLane c.act l = true → isRemote s (addr l) = false) ∨ (s.troupe c.t).counter .remote + 1 ≤ 63

/-- Every thread of the bundle goes to PC + 12 with its clause state moved on; no other thread of the troupe changes. -/
def AllMoved (c : Ctx) (s t : State) : Prop :=
  (∀ l, hasLane c.mask l = true → t.thread c.t l = (s.thread c.t l).advance c.hdr) ∧
    ∀ l, hasLane c.mask l = false → t.thread c.t l = s.thread c.t l

/-- Trap `x` is that of the earliest check that a lane of Active fails, `f` giving for a lane the place of the check and its
code (R70): TMASK names the lanes that fail that check, and the code and the value are those of the lowest of them, the value
being its address, or the PC for STACKOVF and WAYPOINT (Table 25.1). -/
structure EarliestTrap (c : Ctx) (addr : Nat → Dword) (f : Nat → Option (Nat × Nat)) (x : TrapInfo) : Prop where
  fixed : x.reason = 0 ∧ x.pc = c.pc ∧ x.bundle = c.mask ∧ x.skip = 0
  first : ∃ k, (∀ l r, hasLane c.act l = true → f l = some r → k ≤ r.1) ∧
    (∀ l, hasLane x.mask l = true ↔ hasLane c.act l = true ∧ ∃ code, f l = some (k, code)) ∧
    ∃ l, hasLane x.mask l = true ∧ (∀ j, hasLane x.mask j = true → l ≤ j) ∧ f l = some (k, x.code) ∧
      x.val = if x.code = 0x21 ∨ x.code = 0x23 then c.pcVal else addr l

/-! ### Instructions that place their threads themselves -/

/-- Only the threads of the bundle change: those whose guard holds as `f` says, the others go to PC + 12 (R156). -/
structure ThreadsGo (c : Ctx) (f : Nat → Thread → Thread) (s t : State) : Prop where
  outside : OnlyTroupe c.t s t
  troupe  : { t.troupe c.t with threads := (s.troupe c.t).threads } = s.troupe c.t
  threads : ∀ l, t.thread c.t l = if hasLane c.act l then f l (s.thread c.t l)
    else if hasLane c.mask l then (s.thread c.t l).advance c.hdr else s.thread c.t l

/-- Every thread of the bundle is READY or at its issue: it waits for nothing (R51). -/
def Awake (c : Ctx) (s : State) : Prop := ∀ l, hasLane c.mask l = true → (s.thread c.t l).st = .ready

/-- The state with the bundle passed over at its wing's next choice (R162, R258). -/
def State.passedOver (s : State) (c : Ctx) : State :=
  let k := wingKey (s.troupe c.t)
  s.setWing k { s.wing k with passed := (s.wing k).passed ++ [⟨c.t, c.mask⟩] }

/-- A thread has left the instruction it waits in, with its own guard and clause fields (R54). -/
def Thread.left (th : Thread) : Thread := { th.advance th.info.hdr with arrived := [] }

/-! ### Junctions -/

/-- Nothing that an arrival, a fence or a waypoint update of lane `l` must follow is outstanding (R238, R247, R314). -/
def Settled (s : State) (t l : Nat) : Prop :=
  accsOfLane s t l = [] ∧ storeQueue s t = [] ∧ updsOfLane s t l = [] ∧ ∀ i ∈ (s.thread t l).took, accDone s i = true

/-- Junction `j` of the bundle's company comes to stand as `J`; of everything else only the troupe's threads, owed writes and
urgency change. -/
structure JunctionSet (c : Ctx) (j : Nat) (J : Junction) (s t : State) : Prop where
  rest      : { t with troupes := s.troupes, companies := s.companies, picks := s.picks, nextId := s.nextId } = s
  others    : ∀ v, v ≠ c.t → t.troupe v = s.troupe v
  troupe    : { t.troupe c.t with
    threads := (s.troupe c.t).threads, pend := (s.troupe c.t).pend, urgency := (s.troupe c.t).urgency } = s.troupe c.t
  companies : ∀ k, k ≠ companyKey c.t → t.company k = s.company k
  company   : { t.companyOf c.t with junctions := (s.companyOf c.t).junctions } = s.companyOf c.t
  junctions : ∀ k, k ≠ j → t.junction (companyKey c.t) k = s.junction (companyKey c.t) k
  junction  : t.junction (companyKey c.t) j = J

/-! ### Engine operations -/

/-- One engine operation begins, behind those of the troupe (R120), and every thread of the bundle goes on; nothing else
changes. -/
structure Started (c : Ctx) (cls : Eng) (kind : EngKind) (after : List Nat) (s t : State) : Prop where
  rest   : { t with troupes := s.troupes, picks := s.picks, nextId := s.nextId } = s
  others : ∀ v, v ≠ c.t → t.troupe v = s.troupe v
  troupe : { t.troupe c.t with threads := (s.troupe c.t).threads, ops := (s.troupe c.t).ops } = s.troupe c.t
  ops    : (t.troupe c.t).ops = (s.troupe c.t).ops ++ [⟨s.nextId, cls, kind, after, [], none, false⟩]
  moved  : AllMoved c s t

/-- The trap of a check that fails for all of Active (R264). -/
def TrapsAll (i : Instr) (s : State) (c : Ctx) (code : Nat) (val : Dword) : Prop :=
  ∃ x, exec i s = .next (takeTrap s.begun c.t x) ∧ x.reason = 0 ∧ x.code = code ∧ x.pc = c.pc ∧ x.mask = c.act ∧
    x.bundle = c.mask ∧ x.skip = 0 ∧ x.val = val

/-- The lanes of Active agree on the values that `f` gives (R61). -/
def Agree (c : Ctx) (f : Nat → Dword) : Prop := ∀ l, hasLane c.act l = true → f l = f c.low

/-! ### Privilege (R167 step 6) -/

/-- Is the instruction used outside its privilege: a handler CSR or RTT outside HANDLER, LAUNCH without the capability, SAVECTX or
LOADCTX outside the context handler (R296, R298, R299, R302)? -/
def privOf (i : Instr) (s : State) (c : Ctx) : Bool :=
  match i with
  | .csrr _ _ b => csrPriv b s c
  | .csrw _ _ b => csrPriv b s c
  | .rtt _ => notHandler s c
  | .launch _ _ _ _ => !(s.runOf c.t).launchCap
  | .savectx _ part _ => ctxPriv part false s c
  | .loadctx _ part _ => ctxPriv part true s c
  | _ => false

/-- `i` issues, within its privilege where it has one. -/
abbrev IssuesPriv (i : Instr) (s : State) (c : Ctx) : Prop := IssuesP (privOf i) i s c

/-- The bytes of memory from `a` are those of `bs`. -/
def BytesAt (m : Memory) (a : Nat) (bs : List Byte) : Prop := ∀ k, (h : k < bs.length) → m.byte (a + k) = bs[k]

/-- A store of the device's own to these ranges meets no derivation, no watched or closed line, no held store and no poison: only
the bytes change. -/
def Plainly (s : State) (rs : List (Nat × Nat)) : Prop :=
  (∀ r ∈ rs, inDerived s r.1 r.2 = false ∧ anyWatched s [r] = false ∧ poisoned s r.1 r.2 = false ∧
    devicePending s r.1 r.2 = [] ∧ ∀ a n, r.1 ≤ a → a + n ≤ r.1 + r.2 → lineClosed s 0 [(a, n)] = false) ∧
  ∀ a ∈ s.accs, opQueue a.op = true → ∀ ids, a.st ≠ .heldW ids

/-! ### What happens at a home -/

/-- Access `a` has come to its home on this module and nothing holds it back: it is performed in an order the rules allow
(R84-R86, R313), its lines are open (R138) and their P bits set (R74), and no byte of them is poisoned (R424). -/
structure Reaches (s : State) (a : Access) : Prop where
  stands  : accById s a.id = some a
  here    : a.dev = none
  queued  : a.st = .queued
  sized   : 0 < a.size
  free    : mayPerform s a = true
  clear   : bufferClear s a = true
  present : anyAbsent s (touchRanges s a) = false
  clean   : ∀ r ∈ a.ranges, poisoned s r.1 r.2 = false

/-- What access `a` writes meets no derived tensor and no line whose writes send stale marks (R138, R145). -/
def Unwatched (s : State) (a : Access) : Prop :=
  (∀ r ∈ writeRanges s a, inDerived s r.1 r.2 = false) ∧ anyWatched s (writeRanges s a) = false

/-- The bytes from `a` become `bs`, at once seen by whoever waits for them (R82, R251, R348, R398); no other byte and nothing else
changes. -/
structure Wrote (a : Nat) (bs : List Byte) (s t : State) : Prop where
  now   : BytesAt t.mem a bs
  bytes : ∀ x, (x < a ∨ a + bs.length ≤ x) → t.mem.byte x = s.mem.byte x
  rest  : { t with
    mem := s.mem, poison := s.poison, wrBy := s.wrBy, accs := s.accs, queues := s.queues, ports := s.ports, out := s.out } = s
  waits : t.accs = s.accs.map (reexamine t.mem a bs.length)
  packs : t.queues = s.queues.map fun q => (q.1, reexamineQueue t.mem a bs.length q.2)
  ports : { t.ports with hwake := s.ports.hwake, msixPend := s.ports.msixPend } = s.ports

/-- Lane `l` leaves the wait it stands in with result `x`: it is READY after its instruction, whose destination holds `x` (R38,
R54); no other thread, register or byte changes. -/
structure LeavesWait (t l : Nat) (x : Dword) (s z : State) : Prop where
  thread : z.thread t l = (s.thread t l).left
  result : Gets (z.troupe t) (Ty.wide (s.thread t l).info.ty) (s.thread t l).info.d l x
  regs   : ∀ k, k ∉ (destWrites (Ty.wide (s.thread t l).info.ty) (s.thread t l).info.d l 0).map Prod.fst →
    (z.troupe t).reg k = (s.troupe t).reg k
  lanes  : ∀ j, j ≠ l → z.thread t j = s.thread t j
  others : ∀ u, u ≠ t → z.troupe u = s.troupe u
  bytes  : z.mem = s.mem

end Sys2Proof.Machine
end

