-- ==== Sys2Proof/Certificates/Slice0/Obligations.lean ====
section
/-! DEFINITION. The statements about the model. Each docstring names the rules it formalises. -/

open Sys2Proof Sys2Proof.Machine

/-! ### Lane instructions (15_lane_instructions.md, 07_numbers.md) -/

/-- R189, R184: IADD, ISUB, IMUL, IMULH, IMAD, IMIN, IMAX, IABS and INEG give each lane of Active the exact integer result of
its operands brought into the TYPE's range, and change nothing else but the threads' places. R89, R189: IDIV gives the quotient
truncated toward zero and IREM the remainder of that division; with a divisor of 0 the quotient is all ones and the remainder is
the dividend. -/
def Obligations.IntegerArithmetic : Prop :=
  (∀ (h : Hdr) (ty : Ty) (sat : Bool) (d a k : Opd) (b : Src) (s : State) (c : Ctx),
     let A := fun l => intA ty s.begun c l a
     let B := fun l => intB ty s.begun c l b
     (Issues (.iadd h ty sat d a b) s c → ∃ t, exec (.iadd h ty sat d a b) s = .next t ∧
       LaneNow c .rne (Ty.wide ty) d (fun l x => Holds ty sat (A l + B l) x) s t) ∧
     (Issues (.isub h ty sat d a b) s c → ∃ t, exec (.isub h ty sat d a b) s = .next t ∧
       LaneNow c .rne (Ty.wide ty) d (fun l x => Holds ty sat (A l - B l) x) s t) ∧
     (Issues (.imul h ty sat d a b) s c → ∃ t, exec (.imul h ty sat d a b) s = .next t ∧
       LaneNow c .rne (Ty.wide ty) d (fun l x => Holds ty sat (A l * B l) x) s t) ∧
     (Issues (.imulh h ty d a b) s c → ∃ t, exec (.imulh h ty d a b) s = .next t ∧
       LaneNow c .rne (Ty.wide ty) d (fun l x => Holds ty false (A l * B l / 2 ^ Ty.width ty) x) s t) ∧
     (∀ b' : Opd, Issues (.imad h ty sat d a b' k) s c → ∃ t, exec (.imad h ty sat d a b' k) s = .next t ∧
       LaneNow c .rne (Ty.wide ty) d (fun l x =>
         Holds ty sat (A l * intB ty s.begun c l (.reg b') + intOf ty (readTy s.begun c ty l k 2)) x) s t) ∧
     (Issues (.imin h ty d a b) s c → ∃ t, exec (.imin h ty d a b) s = .next t ∧
       LaneNow c .rne (Ty.wide ty) d (fun l x => Holds ty false (min (A l) (B l)) x) s t) ∧
     (Issues (.imax h ty d a b) s c → ∃ t, exec (.imax h ty d a b) s = .next t ∧
       LaneNow c .rne (Ty.wide ty) d (fun l x => Holds ty false (max (A l) (B l)) x) s t) ∧
     (Issues (.iabs h ty sat d a) s c → ∃ t, exec (.iabs h ty sat d a) s = .next t ∧
       LaneNow c .rne (Ty.wide ty) d (fun l x => Holds ty sat |A l| x) s t) ∧
     (Issues (.ineg h ty sat d a) s c → ∃ t, exec (.ineg h ty sat d a) s = .next t ∧
       LaneNow c .rne (Ty.wide ty) d (fun l x => Holds ty sat (-(A l)) x) s t)) ∧
  (∀ (h : Hdr) (ty : Ty) (sat : Bool) (d a : Opd) (b : Src) (s : State) (c : Ctx),
     let A := fun l => intA ty s.begun c l a
     let B := fun l => intB ty s.begun c l b
     (Issues (.idiv h ty sat d a b) s c → ∃ t, exec (.idiv h ty sat d a b) s = .next t ∧
       LaneNow c .rne (Ty.wide ty) d (fun l x =>
         (B l ≠ 0 → Holds ty sat (Int.tdiv (A l) (B l)) x) ∧
         (B l = 0 → ∀ i < Ty.width ty, x.getLsbD i = true)) s t) ∧
     (Issues (.irem h ty d a b) s c → ∃ t, exec (.irem h ty d a b) s = .next t ∧
       LaneNow c .rne (Ty.wide ty) d (fun l x =>
         (B l ≠ 0 → Holds ty false (Int.tmod (A l) (B l)) x) ∧ (B l = 0 → Holds ty false (A l) x)) s t))

/-- R191: AND, OR, XOR and NOT work bit by bit on the operands, the immediate zero-extended. R192: SHL, SHR and ROTL shift by n,
the low eight bits of B: SHL brings in zeros, SHR copies of the sign for a signed TYPE and zeros for an unsigned one, whatever n
is; ROTL rotates by n modulo the width. R193, R195: BFE extracts and BFI inserts the field at position B[7:0] of length B[15:8],
clipped at bit 31; a signed BFE copies the field's top bit. PRMT picks four bytes of the pool, or copies of their sign bits.
R194: POPC counts the ones, CLZ the zeros above the highest one, and BREV reverses the bits of the TYPE's width. -/
def Obligations.BitOperations : Prop :=
  (∀ (h : Hdr) (ty : Ty) (d a : Opd) (b : Src) (s : State) (c : Ctx),
     let A := fun l => readTy s.begun c ty l a 0
     let B := fun l => readSrcZTy s.begun c ty l b 1
     (Issues (.and h ty d a b) s c → ∃ t, exec (.and h ty d a b) s = .next t ∧
       LaneNow c .rne (Ty.wide ty) d (fun l x => ∀ i, x.getLsbD i = ((A l).getLsbD i && (B l).getLsbD i)) s t) ∧
     (Issues (.or h ty d a b) s c → ∃ t, exec (.or h ty d a b) s = .next t ∧
       LaneNow c .rne (Ty.wide ty) d (fun l x => ∀ i, x.getLsbD i = ((A l).getLsbD i || (B l).getLsbD i)) s t) ∧
     (Issues (.xor h ty d a b) s c → ∃ t, exec (.xor h ty d a b) s = .next t ∧
       LaneNow c .rne (Ty.wide ty) d (fun l x => ∀ i, x.getLsbD i = ((A l).getLsbD i != (B l).getLsbD i)) s t) ∧
     (Issues (.not h ty d a) s c → ∃ t, exec (.not h ty d a) s = .next t ∧
       LaneNow c .rne (Ty.wide ty) d (fun l x => ∀ i < 64, x.getLsbD i = !(A l).getLsbD i) s t)) ∧
  (∀ (h : Hdr) (ty : Ty) (d a : Opd) (b : Src) (s : State) (c : Ctx), Ty.width ty = 32 ∨ Ty.width ty = 64 →
     let w := Ty.width ty
     let A := fun l => readTy s.begun c ty l a 0
     let n := fun l => (readSrcZ s.begun c l b 1).toNat % 256
     (Issues (.shl h ty d a b) s c → ∃ t, exec (.shl h ty d a b) s = .next t ∧
       LaneNow c .rne (Ty.wide ty) d (fun l x => ∀ i < w, x.getLsbD i = (decide (n l ≤ i) && (A l).getLsbD (i - n l))) s t) ∧
     (Issues (.shr h ty d a b) s c → ∃ t, exec (.shr h ty d a b) s = .next t ∧
       LaneNow c .rne (Ty.wide ty) d (fun l x => ∀ i < w, x.getLsbD i =
         if i + n l < w then (A l).getLsbD (i + n l) else (Ty.signed ty && (A l).getLsbD (w - 1))) s t) ∧
     (Issues (.rotl h ty d a b) s c → ∃ t, exec (.rotl h ty d a b) s = .next t ∧
       LaneNow c .rne (Ty.wide ty) d (fun l x => ∀ i < w, x.getLsbD ((i + n l) % w) = (A l).getLsbD i) s t)) ∧
  (∀ (h : Hdr) (ty : Ty) (d a : Opd) (s : State) (c : Ctx),
     let A := fun l => readWord s.begun c l a 0
     let p := fun (b : Word) => b.toNat % 256
     let q := fun (b : Word) => min (b.toNat % 256 + b.toNat / 256 % 256) 32
     (∀ b : Src, Issues (.bfe h ty d a b) s c → ∃ t, exec (.bfe h ty d a b) s = .next t ∧
       LaneNow c .rne false d (fun l x =>
         let B := readSrcZ s.begun c l b 1
         ∀ i < 32, x.getLsbD i = if p B + i < q B then (A l).getLsbD (p B + i)
           else (ty == .i32 && decide (p B < q B) && (A l).getLsbD (q B - 1))) s t) ∧
     (∀ b k : Opd, Issues (.bfi h ty d a b k) s c → ∃ t, exec (.bfi h ty d a b k) s = .next t ∧
       LaneNow c .rne false d (fun l x =>
         let B := readWord s.begun c l b 1
         ∀ i < 32, x.getLsbD i = if p B ≤ i ∧ i < q B then (A l).getLsbD (i - p B)
           else (readWord s.begun c l k 2).getLsbD i) s t) ∧
     (∀ b : PrmtSrc, Issues (.prmt h d a b) s c → ∃ t, exec (.prmt h d a b) s = .next t ∧
       LaneNow c .rne false d (fun l x =>
         let pool := match b with
           | .reg b _ => joinPair (A l) (readWord s.begun c l b 1)
           | .imm _ => joinPair (A l) 0
         let sel := match b with
           | .reg _ k => readWord s.begun c l k 2
           | .imm y => y.setWidth 32
         ∀ k < 4, ∀ i < 8, x.getLsbD (8 * k + i) =
           pool.getLsbD (8 * ((sel.toNat / 16 ^ k) % 8) + if sel.toNat / 16 ^ k % 16 < 8 then i else 7)) s t)) ∧
  (∀ (h : Hdr) (ty : Ty) (d a : Opd) (s : State) (c : Ctx), Ty.width ty = 32 ∨ Ty.width ty = 64 →
     let w := Ty.width ty
     let A := fun l => readTy s.begun c ty l a 0
     (Issues (.popc h ty d a) s c → ∃ t, exec (.popc h ty d a) s = .next t ∧
       LaneNow c .rne false d (fun l x => x.toNat = ((List.range w).filter fun i => (A l).getLsbD i).length) s t) ∧
     (Issues (.clz h ty d a) s c → ∃ t, exec (.clz h ty d a) s = .next t ∧
       LaneNow c .rne false d (fun l x => x.toNat ≤ w ∧ (∀ i < w, w - x.toNat ≤ i → (A l).getLsbD i = false) ∧
         (x.toNat < w → (A l).getLsbD (w - 1 - x.toNat) = true)) s t) ∧
     (Issues (.brev h ty d a) s c → ∃ t, exec (.brev h ty d a) s = .next t ∧
       LaneNow c .rne (Ty.wide ty) d (fun l x => ∀ i < w, x.getLsbD i = (A l).getLsbD (w - 1 - i)) s t))

/-- R197-R200: ICMP writes its condition, combined with C where a combine is given; SEL picks by C; PLOP looks three predicates
up in its table; PMOV_GET reads p0 to p6 as a mask whose bit 7 is 1, and PMOV_SET writes those that B names. -/
def Obligations.ComparesAndPredicates : Prop :=
  ∀ (h : Hdr) (d a : Opd) (s : State) (c : Ctx),
    (∀ cond ty b, Issues (.icmp h cond ty d a b) s c → ∃ t, exec (.icmp h cond ty d a b) s = .next t ∧
      LaneNow c .rne false d (fun l x => (x = 0 ∨ x = 1) ∧
        let A := intA ty s.begun c l a
        let holds := fun B : Int => match cond with
          | .eq => A = B | .ne => A ≠ B | .lt => A < B | .le => A ≤ B | .gt => B < A | .ge => B ≤ A | .num => False | .nan => False
        match b with
        | .plain b => x = 1 ↔ holds (intB ty s.begun c l b)
        | .comb k b p =>
          let B := intOf ty (readTy s.begun c ty l b 1)
          let P := readWord s.begun c l p 2 ≠ 0
          match k with
          | .and => x = 1 ↔ holds B ∧ P
          | .or => x = 1 ↔ holds B ∨ P
          | .xor => x = 1 ↔ ¬(holds B ↔ P)) s t) ∧
    (∀ ty b k, Issues (.sel h ty d a b k) s c → ∃ t, exec (.sel h ty d a b k) s = .next t ∧
      LaneNow c .rne (Ty.wide ty) d (fun l x =>
        (readWord s.begun c l k 2 ≠ 0 → x = readTy s.begun c ty l a 0) ∧
        (readWord s.begun c l k 2 = 0 → x = readTy s.begun c ty l b 1)) s t) ∧
    (∀ table b k, Issues (.plop h table d a b k) s c → ∃ t, exec (.plop h table d a b k) s = .next t ∧
      LaneNow c .rne false d (fun l x => x =
        if table.getLsbD (4 * (boolWord (readWord s.begun c l a 0 != 0)).toNat + 2 * (boolWord (readWord s.begun c l b 1 != 0)).toNat +
          (boolWord (readWord s.begun c l k 2 != 0)).toNat) then 1 else 0) s t) ∧
    (Issues (.pmovGet h d) s c → ∃ t, exec (.pmovGet h d) s = .next t ∧
      LaneNow c .rne false d (fun l x => x.getLsbD 7 = true ∧ (∀ i, 8 ≤ i → x.getLsbD i = false) ∧
        ∀ i < 7, x.getLsbD i = readPred s.begun (s.troupe c.t) l i i) s t) ∧
    (∀ b, Issues (.pmovSet h a b) s c → ∃ t, exec (.pmovSet h a b) s = .next t ∧
      OnlyTroupe c.t s t ∧ Moved c (s.troupe c.t) (t.troupe c.t) ∧
      { t.troupe c.t with regs := (s.troupe c.t).regs, pend := (s.troupe c.t).pend, threads := (s.troupe c.t).threads } = s.troupe c.t ∧
      (∀ l, hasLane c.act l = true → ∀ i < 7, (readSrcZ s.begun c l b 1).getLsbD i = true →
        (t.troupe c.t).reg (pKey l i) = boolWord ((readWord s.begun c l a 0).getLsbD i)) ∧
      ∀ k, (∀ l, hasLane c.act l = true → ∀ i < 7, (readSrcZ s.begun c l b 1).getLsbD i = true → k ≠ pKey l i) →
        (t.troupe c.t).reg k = (s.troupe c.t).reg k)

/-- R202, R203: MOV and MOVI copy a value; MOVI_HI writes the register above D; LEA adds a shifted offset to the base, and
LEA_CODE to the address of the run's code object.
The model's choice, not the spec's: what log entries 31 and 150 name. -/
def Obligations.MovesAndAddresses : Prop :=
  ∀ (h : Hdr) (ty : Ty) (d a : Opd) (s : State) (c : Ctx),
    (Issues (.mov h ty d a) s c → ∃ t, exec (.mov h ty d a) s = .next t ∧
      LaneNow c .rne (Ty.wide ty) d (fun l x => x = readTy s.begun c ty l a 0) s t) ∧
    (∀ y, Issues (.movi h d y) s c → ∃ t, exec (.movi h d y) s = .next t ∧
      LaneNow c .rne false d (fun _ x => loWord x = y) s t) ∧
    (∀ y, Issues (.moviHi h d y) s c → ∃ t, exec (.moviHi h d y) s = .next t ∧
      OnlyTroupe c.t s t ∧ LaneFrame c .rne ((writers c d).flatMap fun l => (destPart d l 1 y).map Prod.fst)
        (s.troupe c.t) (t.troupe c.t) ∧
      ∀ l ∈ writers c d, ∀ w ∈ destPart d l 1 y, (t.troupe c.t).reg w.1 = y) ∧
    (∀ (sh : Fin 4) b, Issues (.lea h ty sh d a b) s c → ∃ t, exec (.lea h ty sh d a b) s = .next t ∧
      LaneNow c .rne true d (fun l x => x = readPair s.begun c l a 0 + leaOff ty s.begun c l b * 2 ^ sh.val) s t) ∧
    (∀ (sh : Fin 4) b, Issues (.leaCode h ty sh d b) s c → ∃ t, exec (.leaCode h ty sh d b) s = .next t ∧
      LaneNow c .rne true d (fun l x =>
        x = BitVec.ofNat 64 (2 ^ 63 + (s.runOf c.t).code) + leaOff ty s.begun c l b * 2 ^ sh.val) s t)

/-- R205: FADD, FSUB, FMUL and FFMA give each lane, element by element, the exact sum, difference, product or fused sum of their
flushed operands, rounded once by MODA and MODB; mode sr takes the draws of the issue (R98). R206-R209: FMIN, FMAX, FABS, FNEG
and FRINT work element by element without a second rounding; FCMP writes its condition, combined with C where a combine is
given; FCLASS writes the class mask of A. -/
def Obligations.FloatingPoint : Prop :=
  (∀ (h : Hdr) (ty : Ty) (m : FMod) (d a : Opd) (s : State) (c : Ctx),
     let f := (fpElems ty).1
     let n := (fpElems ty).2
     let q := (draws s.begun c m.rnd n).2
     let A := fun l e => fElem ty m.ftz (readWord s.begun c l a 0) e
     let B := fun b l e => fElem ty m.ftz (readSrcF s.begun c ty l b 1) e
     let word := fun (g : Nat → FVal) l => (joinElems f n fun e => rnd f m (q l e) (g e)).setWidth 64
     (∀ b, Issues (.fadd h ty m d a b) s c → ∃ t, exec (.fadd h ty m d a b) s = .next t ∧
       LaneNow c m.rnd false d (fun l x => x = word (fun e => sumF (m.rnd == .rdn) [A l e, B b l e]) l) s t) ∧
     (∀ b, Issues (.fsub h ty m d a b) s c → ∃ t, exec (.fsub h ty m d a b) s = .next t ∧
       LaneNow c m.rnd false d (fun l x => x = word (fun e => sumF (m.rnd == .rdn) [A l e, (B b l e).neg]) l) s t) ∧
     (∀ b, Issues (.fmul h ty m d a b) s c → ∃ t, exec (.fmul h ty m d a b) s = .next t ∧
       LaneNow c m.rnd false d (fun l x => x = word (fun e => (A l e).mul (B b l e)) l) s t) ∧
     (∀ b k : Opd, Issues (.ffma h ty m d a b k) s c → ∃ t, exec (.ffma h ty m d a b k) s = .next t ∧
       LaneNow c m.rnd false d (fun l x => x = word (fun e => sumF (m.rnd == .rdn)
         [(A l e).mul (fElem ty m.ftz (readWord s.begun c l b 1) e), fElem ty m.ftz (readWord s.begun c l k 2) e]) l) s t)) ∧
  (∀ (h : Hdr) (ty : Ty) (ftz : Bool) (d a : Opd) (s : State) (c : Ctx),
     let f := (fpElems ty).1
     let A := fun l e => fElem ty ftz (readWord s.begun c l a 0) e
     let B := fun b l e => fElem ty ftz (readSrcF s.begun c ty l b 1) e
     let word := fun (g : Nat → Nat) => (joinElems f (fpElems ty).2 g).setWidth 64
     (∀ b, Issues (.fmin h ty ftz d a b) s c → ∃ t, exec (.fmin h ty ftz d a b) s = .next t ∧
       LaneNow c .rne false d (fun l x => x = word fun e => fMinMax f false (A l e) (B b l e)) s t) ∧
     (∀ b, Issues (.fmax h ty ftz d a b) s c → ∃ t, exec (.fmax h ty ftz d a b) s = .next t ∧
       LaneNow c .rne false d (fun l x => x = word fun e => fMinMax f true (A l e) (B b l e)) s t) ∧
     (Issues (.fabs h ty ftz d a) s c → ∃ t, exec (.fabs h ty ftz d a) s = .next t ∧
       LaneNow c .rne false d (fun l x => x = word fun e => rne f (A l e).abs) s t) ∧
     (Issues (.fneg h ty ftz d a) s c → ∃ t, exec (.fneg h ty ftz d a) s = .next t ∧
       LaneNow c .rne false d (fun l x => x = word fun e => rne f (A l e).neg) s t) ∧
     (∀ r, Issues (.frint h ty r ftz d a) s c → ∃ t, exec (.frint h ty r ftz d a) s = .next t ∧
       LaneNow c .rne false d (fun l x => x = word fun e => rnd f ⟨.rne, false, ftz⟩ 0 (frintF r (A l e))) s t) ∧
     (∀ cond b, Issues (.fcmp h cond ty ftz d a b) s c → ∃ t, exec (.fcmp h cond ty ftz d a b) s = .next t ∧
       LaneNow c .rne false d (fun l x => x = match b with
         | .plain b => boolDword (fcond cond (A l 0) (B b l 0))
         | .comb k b p => boolDword (combine k (fcond cond (A l 0) (fElem ty ftz (readWord s.begun c l b 1) 0))
             (readWord s.begun c l p 2 != 0))) s t) ∧
     (Issues (.fclass h ty d a) s c → ∃ t, exec (.fclass h ty d a) s = .next t ∧
       LaneNow c .rne false d (fun l x => x = (classMask f (elemCode f (readWord s.begun c l a 0) 0)).setWidth 64) s t))

/-- R91, R95: rounding a value that a format holds gives that value's code back, whatever the mode and the draws, unless `.ftz`
flushes it: decoding loses nothing and rounding moves nothing that needs no rounding. -/
def Obligations.RoundingKeepsValues : Prop :=
  ∀ (f : Fmt) (r : Rnd) (q : Word) (x : Nat), x < 2 ^ f.bits → decodeF f x ≠ .nan → rnd f ⟨r, false, false⟩ q (decodeF f x) = x

/-- R108, R161, R210: the functions of the XF pipe round FRCP, FSQRT, FDIV, FEXP2 and FLOG2 once, and give FRSQ, FSIN, FCOS and
FTANH within 1 ulp; their results are owed to each lane and performed later. R212-R217: CVT, PACK, UNPACK, SCALE_APPLY, SCALE_MX
and AMAX convert each lane's operands, and owe the result.
The model's choice, not the spec's: what log entries 16 and 137 name. -/
def Obligations.FunctionsAndConversions : Prop :=
  (∀ (h : Hdr) (m : FMod) (d a : Opd) (s : State) (c : Ctx),
     let A := fun l => fElem .f32 m.ftz (readWord s.begun c l a 0) 0
     let late := fun (g : Nat → Nat) => results c false d fun l => BitVec.ofNat 64 (g l)
     (Issues (.frcp h m d a) s c → ∃ t, exec (.frcp h m d a) s = .next t ∧
       LaneLate c .rne (late fun l => rnd .f32 m 0 (rcpF (A l))) s t) ∧
     (Issues (.fsqrt h m d a) s c → ∃ t, exec (.fsqrt h m d a) s = .next t ∧
       LaneLate c .rne (late fun l => rnd .f32 m 0 (sqrtF (A l))) s t) ∧
     (∀ b, Issues (.fdiv h m d a b) s c → ∃ t, exec (.fdiv h m d a b) s = .next t ∧
       LaneLate c .rne (late fun l =>
         rnd .f32 m 0 (divF (A l) (fElem .f32 m.ftz (readSrcF s.begun c .f32 l b 1) 0))) s t) ∧
     (Issues (.fexp2 h m d a) s c → ∃ t, exec (.fexp2 h m d a) s = .next t ∧
       LaneLate c .rne (late fun l => rnd .f32 m 0 (exp2F (A l))) s t) ∧
     (Issues (.flog2 h m d a) s c → ∃ t, exec (.flog2 h m d a) s = .next t ∧
       LaneLate c .rne (late fun l => rnd .f32 m 0 (log2F (A l))) s t) ∧
     (Issues (.frsq h m d a) s c → ∃ t, exec (.frsq h m d a) s = .next t ∧
       LaneLate c .rne (late fun l => ulpFn 0 m rsqF (A l)) s t) ∧
     (Issues (.fsin h m d a) s c → ∃ t, exec (.fsin h m d a) s = .next t ∧
       LaneLate c .rne (late fun l => ulpFn 1 m (sinCosF false) (A l)) s t) ∧
     (Issues (.fcos h m d a) s c → ∃ t, exec (.fcos h m d a) s = .next t ∧
       LaneLate c .rne (late fun l => ulpFn 2 m (sinCosF true) (A l)) s t) ∧
     (Issues (.ftanh h m d a) s c → ∃ t, exec (.ftanh h m d a) s = .next t ∧
       LaneLate c .rne (late fun l => ulpFn 3 m tanhF (A l)) s t)) ∧
  (∀ (h : Hdr) (d a : Opd) (s : State) (c : Ctx),
     (∀ src dst m, Issues (.cvt h src dst m d a) s c → ∃ t, exec (.cvt h src dst m d a) s = .next t ∧
       LaneLate c m.rnd (results c (Ty.wide dst) d fun l =>
         cvtBits src dst m ((draws s.begun c m.rnd 1).2 l 0) (readTy s.begun c src l a 0)) s t) ∧
     (∀ ty m sc, Issues (.pack h ty m d a sc) s c → ∃ t, exec (.pack h ty m d a sc) s = .next t ∧
       LaneLate c m.rnd (results c false d fun l => (joinElems (fpElems ty).1 (fpElems ty).2 fun i =>
         rnd (fpElems ty).1 m ((draws s.begun c m.rnd (fpElems ty).2).2 l i)
           (packVal (scaleCode s.begun c l sc) (fElem .f32 m.ftz (readPart s.begun c l a i 0) 0))).setWidth 64) s t) ∧
     (∀ ty sat sc, Issues (.unpack h ty sat d a sc) s c → ∃ t, exec (.unpack h ty sat d a sc) s = .next t ∧
       LaneLate c .rne (blockResults c d (fpElems ty).2 fun l i =>
         BitVec.ofNat 32 (rnd .f32 ⟨.rne, sat, false⟩ 0 (match scaleCode s.begun c l sc with
           | none => elemVal (fpElems ty).1 (readWord s.begun c l a 0) i
           | some k => scaled k (elemVal (fpElems ty).1 (readWord s.begun c l a 0) i)))) s t) ∧
     (∀ m b, Issues (.scaleApply h m d a b) s c → ∃ t, exec (.scaleApply h m d a b) s = .next t ∧
       LaneLate c .rne (results c false d fun l => BitVec.ofNat 64 (rnd .f32 m 0
         (scaled ((readSrcZ s.begun c l b 1).toNat % 256) (fElem .f32 m.ftz (readWord s.begun c l a 0) 0)))) s t) ∧
     (∀ f, Issues (.scaleMx h f d a) s c → ∃ t, exec (.scaleMx h f d a) s = .next t ∧
       LaneLate c .rne (results c false d fun l => BitVec.ofNat 64 (mxScale (mxFmt f) (elemVal .f32 (readWord s.begun c l a 0) 0))) s t) ∧
     (∀ ty b, Issues (.amax h ty d a b) s c → ∃ t, exec (.amax h ty d a b) s = .next t ∧
       LaneLate c .rne (results c false d fun l => BitVec.ofNat 64 (rne .f32 (amaxF (elemVal .f32 (readWord s.begun c l b 1) 0 ::
         (List.range (fpElems ty).2).map fun e => elemVal (fpElems ty).1 (readWord s.begun c l a 0) e)))) s t))

/-- R98, R218: SRSEED with one operand value for all of Active sets the generator, 0 giving its initial value, and the seed of
deterministic draws; lanes that disagree trap NONUNIFORM. R219: DOT2, DOT4 and DOT8 add the exact products of their elements to
C and round once; the integer DOT4 adds exactly and is brought into the range of i32. R221-R223: CBFLY writes a + w·b and a −
w·b, CMUL a·b or a·conj(b), each component rounded once; TWID writes the twiddle factor of A for a transform of 2^L points.
The model's choice, not the spec's: what log entries 151 and 152 name. -/
def Obligations.SumsAndSeeds : Prop :=
  (∀ (h : Hdr) (a : Opd) (s : State) (c : Ctx), Issues (.srseed h a) s c → c.act ≠ 0 →
     let v := fun l => readWord s.begun c l a 0
     ((∀ l, hasLane c.act l = true → v l = v c.low) → ∃ t, exec (.srseed h a) s = .next t ∧ OnlyTroupe c.t s t ∧
       Moved c (s.troupe c.t) (t.troupe c.t) ∧
       { t.troupe c.t with threads := (s.troupe c.t).threads } =
         { s.troupe c.t with srState := if v c.low = 0 then 0x9E3779B9 else v c.low, srSeed := v c.low }) ∧
     ((∃ l, hasLane c.act l = true ∧ v l ≠ v c.low) → ∃ x, x.code = 0x20 ∧ x.pc = c.pc ∧ x.bundle = c.mask ∧
       (∀ l, hasLane x.mask l = true ↔ hasLane c.act l = true ∧ v l ≠ v c.low) ∧
       exec (.srseed h a) s = .next (takeTrap s.begun c.t x))) ∧
  (∀ (h : Hdr) (m : FMod) (d a b k : Opd) (s : State) (c : Ctx),
     let q := (draws s.begun c m.rnd 1).2
     let A := fun l => readWord s.begun c l a 0
     let B := fun l => readWord s.begun c l b 1
     let C := fun (sc : Bool) l => fElem .f32 m.ftz (if sc then readPart s.begun c l k 0 2 else readWord s.begun c l k 2) 0
     let dot := fun sc fa fb n l => BitVec.ofNat 64 (rnd .f32 m (q l 0)
       (dotF (m.rnd == .rdn) sc (readPart s.begun c l k 1 2) fa fb n (A l) (B l) (C sc l)))
     (∀ ty, Issues (.dot2 h ty m d a b k) s c → ∃ t, exec (.dot2 h ty m d a b k) s = .next t ∧
       LaneLate c m.rnd (results c false d (dot false (fpElems ty).1 (fpElems ty).1 2)) s t) ∧
     (∀ ty sc xb, Issues (.dot4 h ty sc xb m d a b k) s c → ∃ t, exec (.dot4 h ty sc xb m d a b k) s = .next t ∧
       if Ty.isInt ty then LaneLate c .rne (results c false d fun l => intBits .i32 m.sat
           (dot4Int (ty == .i8) ((ty == .i8) != xb) (A l) (B l) (readWord s.begun c l k 2))) s t
       else LaneLate c m.rnd (results c false d (dot sc (fpElems ty).1 (xbFmt xb (fpElems ty).1) 4)) s t) ∧
     (∀ sc, Issues (.dot8 h sc m d a b k) s c → ∃ t, exec (.dot8 h sc m d a b k) s = .next t ∧
       LaneLate c m.rnd (results c false d (dot sc .e2m1 .e2m1 8)) s t)) ∧
  (∀ (h : Hdr) (m : FMod) (d a b : Opd) (s : State) (c : Ctx),
     let re := fun l o p => cPart s.begun c m l o 0 p
     let im := fun l o p => cPart s.begun c m l o 1 p
     (∀ w, Issues (.cbfly h m d a b w) s c → ∃ t, exec (.cbfly h m d a b w) s = .next t ∧
       LaneLate c .rne (blockResults c d 4 fun l k => BitVec.ofNat 32 (rnd .f32 m 0 (cbflyVal (m.rnd == .rdn)
         (re l a 0) (im l a 0) (re l b 1) (im l b 1) (re l w 2) (im l w 2) k))) s t) ∧
     (∀ conj, Issues (.cmul h conj m d a b) s c → ∃ t, exec (.cmul h conj m d a b) s = .next t ∧
       LaneLate c .rne (blockResults c d 2 fun l k => BitVec.ofNat 32 (rnd .f32 m 0 (cmulVal (m.rnd == .rdn)
         (re l a 0) (im l a 0) (re l b 1) (if conj then (im l b 1).neg else im l b 1) k))) s t) ∧
     (∀ b : Src, Issues (.twid h d a b) s c → ∃ t, exec (.twid h d a b) s = .next t ∧
       LaneLate c .rne (blockResults c d 2 fun l k =>
         let p := twidPair ((readSrcZ s.begun c l b 1).toNat % 32) (readWord s.begun c l a 0)
         BitVec.ofNat 32 (if k = 0 then p.1 else p.2)) s t))

/-! ### Memory, atomics, control and synchronisation (17_memory_control_instructions.md) -/

/-- R224, R231, R232: LD enters one access for each lane of Active, at base plus sign-extended offset, of the TYPE's size and of
the operation its window names, and owes D to each lane; a lane whose window is AWAIT waits instead (R82). No register and no
byte changes. R234-R236: LDX enters n/2 eight-byte accesses for each lane, each owing its own two registers; LDU one access for
the whole bundle, at the address its lanes agree on, and in window AWAIT its threads wait instead; PROBE one access of one byte
a lane, in window PLAIN.
The model's choice, not the spec's: what log entries 23, 24, 136 and 143 name. -/
def Obligations.Loads : Prop :=
  (∀ (h : Hdr) (ty : Ty) (m : LdMod) (d base : Opd) (off : Src) (s : State) (c : Ctx), Issues (.ld h ty m d base off) s c →
     let u := s.begun
     let addr := fun l => memAddr u c l base off
     let op := fun l => winOp true (winOf (addr l))
     (∀ l, hasLane c.act l = true → laneCheck u c.t l (.access true (Ty.width ty / 8)) (addr l) = none) →
     OrderFree u c (orderedLanes c addr) → RemoteFree u c addr →
     ∃ t, exec (.ld h ty m d base off) s = .next t ∧
       Entered c ((lanes c.act).map fun l => { Access.make (.thread c.t l) (op l) (addr l) (physOf u c.t l (addr l)) (Ty.width ty / 8) with
           ty := if Ty.signed ty then 1 else 0
           acq := ldAcq m
           scope := ldScope m
           vol := m == .vol
           dev := devOf u (addr l)
           deadline := if op l == .await then awaitDeadline u c.t else 0 })
         ((lanes c.act).flatMap fun l => owedLoad c s (laneBit l) l
           (if op l == .await || !lanesWrite c d l then [] else destWrites (Ty.wide ty) d l 0)) s t ∧
       (∀ l, hasLane c.mask l = true → (hasLane c.act l = true → op l ≠ .await) →
         t.thread c.t l = (s.thread c.t l).advance c.hdr) ∧
       (∀ l, hasLane c.act l = true → op l = .await →
         (t.thread c.t l).st = .waiting ∧ (t.thread c.t l).pc = (s.thread c.t l).pc ∧
         ∃ a ∈ t.accs, a.who = .thread c.t l ∧ (t.thread c.t l).wait = .await a.id) ∧
       ∀ l, hasLane c.mask l = false → t.thread c.t l = s.thread c.t l) ∧
  (∀ (h : Hdr) (d base : Opd) (off : Src) (s : State) (c : Ctx),
     let u := s.begun
     let addr := fun l => memAddr u c l base off
     (∀ (k : Fin 4) m, Issues (.ldx h k m d base off) s c →
       let n := 2 ^ (k.val + 1)
       (∀ l, hasLane c.act l = true → laneCheck u c.t l (.block true n) (addr l) = none) → RemoteFree u c addr →
       ∃ t, exec (.ldx h k m d base off) s = .next t ∧ AllMoved c s t ∧
         Entered c ((lanes c.act).flatMap fun l => (List.range (n / 2)).map fun j =>
             let y := addr l + BitVec.ofNat 64 (8 * j)
             { Access.make (.thread c.t l) (winOp true (winOf (addr l))) y (physOf u c.t l y) 8 with
               acq := ldAcq m, scope := ldScope m, vol := m == .vol, dev := devOf u y })
           ((lanes c.act).flatMap fun l => (List.range (n / 2)).flatMap fun j => owedLoad c s (laneBit l) l
             (if lanesWrite c d l then destPart d l (2 * j) 0 ++ destPart d l (2 * j + 1) 0 else [])) s t) ∧
     (∀ ty m, Issues (.ldu h ty m d base off) s c → c.act ≠ 0 →
       let y := addr c.low
       (∀ l, hasLane c.act l = true → readPair u c l base 4 = readPair u c c.low base 4 ∧ offVal u c l off = offVal u c c.low off) →
       laneCheck u c.t c.low (.access true (Ty.width ty / 8)) y = none → winOp true (winOf y) ≠ .await →
       OrderFree u c (orderedLanes c fun _ => y) → RemoteFree u c (fun _ => y) →
       ∃ t, exec (.ldu h ty m d base off) s = .next t ∧ AllMoved c s t ∧
         Entered c [{ Access.make (.bundle c.t c.act) (winOp true (winOf y)) y (physOf u c.t c.low y) (Ty.width ty / 8) with
             ty := if Ty.signed ty then 1 else 0, acq := ldAcq m, scope := ldScope m, vol := m == .vol, dev := devOf u y }]
           (owedLoad c s c.act c.low (destWrites (Ty.wide ty) d c.low 0)) s t) ∧
     (∀ ty m, Issues (.ldu h ty m d base off) s c → c.act ≠ 0 →
       let y := addr c.low
       (∀ l, hasLane c.act l = true → readPair u c l base 4 = readPair u c c.low base 4 ∧ offVal u c l off = offVal u c c.low off) →
       laneCheck u c.t c.low (.access true (Ty.width ty / 8)) y = none → winOp true (winOf y) = .await →
       RemoteFree u c (fun _ => y) →
       ∃ t, exec (.ldu h ty m d base off) s = .next t ∧
         Entered c [{ Access.make (.bundle c.t c.act) .await y (physOf u c.t c.low y) (Ty.width ty / 8) with
             ty := if Ty.signed ty then 1 else 0, acq := ldAcq m, scope := ldScope m, vol := m == .vol, dev := devOf u y
             deadline := awaitDeadline u c.t }] [] s t ∧
         ∃ a ∈ t.accs, a.who = .bundle c.t c.act ∧ ∀ l, t.thread c.t l =
           if hasLane c.act l then (s.thread c.t l).waitAt c.hdr (if l = c.low then d else .rz) ty (.await a.id)
           else if hasLane c.mask l then (s.thread c.t l).advance c.hdr else s.thread c.t l) ∧
     (Issues (.probe h d base off) s c →
       (∀ l, hasLane c.act l = true → laneCheck u c.t l ⟨true, 1, 1, 1, true, false, [0, 1, 2, 3, 4], false⟩ (addr l) = none) →
       RemoteFree u c addr →
       ∃ t, exec (.probe h d base off) s = .next t ∧ AllMoved c s t ∧
         Entered c ((lanes c.act).map fun l =>
             { Access.make (.thread c.t l) .probe (addr l) (physOf u c.t l (addr l)) 1 with dev := devOf u (addr l) })
           ((lanes c.act).flatMap fun l => owedLoad c s (laneBit l) l (if lanesWrite c d l then destWrites false d l 0 else [])) s t))

/-- R228, R233-R235: outside the buffering of a deterministic run, ST enters one store for each lane of Active with the bytes of
D, STX n/2 of eight bytes a lane, and STU one for the whole bundle; they stand in the store queue, and no byte changes yet.
R230, R322, R367: in a deterministic run the stores of windows ADD, MAX, MIN, OR and AND, an STU's once with the lowest active
lane's key, and every RED, are buffered with the key (company, troupe, lane, sequence), in lane order, and enter no access while
the stage's buffer has room.
The model's choice, not the spec's: what log entries 23, 24, 25 and 142 name. -/
def Obligations.Stores : Prop :=
  (∀ (h : Hdr) (m : StMod) (d base : Opd) (off : Src) (s : State) (c : Ctx),
     let u := s.begun
     let addr := fun l => memAddr u c l base off
     let targets := fun op x => if op == AOp.cast && !isRemote u x then castTargets u c.t x else []
     (∀ ty, Issues (.st h ty m d base off) s c →
       (∀ l, hasLane c.act l = true → laneCheck u c.t l (.access false (Ty.width ty / 8)) (addr l) = none) →
       (∀ l, hasLane c.act l = true → buffers u c (addr l) = false) →
       OrderFree u c (orderedLanes c addr) → RemoteFree u c addr → (lanes c.act).length ≤ queueFree u c.t →
       ∃ t, exec (.st h ty m d base off) s = .next t ∧ AllMoved c s t ∧
         Entered c ((lanes c.act).map fun l =>
           let op := winOp false (winOf (addr l))
           { Access.make (.thread c.t l) op (addr l) (physOf u c.t l (addr l)) (Ty.width ty / 8) with
             ty := typeOf (addr l), data := readTy u c ty l d 6, rel := stRel m, scope := stScope m, isStore := true
             dev := devOf u (addr l), dies := targets op (addr l) }) [] s t) ∧
     (∀ k : Fin 4, Issues (.stx h k m d base off) s c →
       let n := 2 ^ (k.val + 1)
       (∀ l, hasLane c.act l = true → laneCheck u c.t l (.block false n) (addr l) = none) → RemoteFree u c addr →
       (lanes c.act).length ≤ queueFree u c.t →
       ∃ t, exec (.stx h k m d base off) s = .next t ∧ AllMoved c s t ∧
         Entered c ((lanes c.act).flatMap fun l => (List.range (n / 2)).map fun j =>
           let op := winOp false (winOf (addr l))
           let y := addr l + BitVec.ofNat 64 (8 * j)
           { Access.make (.thread c.t l) op y (physOf u c.t l y) 8 with
             data := joinPair (readPart u c l d (2 * j) 6) (readPart u c l d (2 * j + 1) 6)
             cmp := BitVec.ofNat 64 (n / 2)
             rel := stRel m, scope := stScope m, isStore := true, dev := devOf u y, dies := targets op y }) [] s t) ∧
     (∀ ty, Issues (.stu h ty m d base off) s c → c.act ≠ 0 →
       let y := addr c.low
       (∀ l, hasLane c.act l = true → readPair u c l base 4 = readPair u c c.low base 4 ∧
         offVal u c l off = offVal u c c.low off ∧ readTy u c ty l d 6 = readTy u c ty c.low d 6) →
       laneCheck u c.t c.low (.access false (Ty.width ty / 8)) y = none → buffers u c y = false →
       OrderFree u c (if winOf y = 8 then c.act else 0) → RemoteFree u c (fun _ => y) → 1 ≤ queueFree u c.t →
       ∃ t, exec (.stu h ty m d base off) s = .next t ∧ AllMoved c s t ∧
         Entered c [{ Access.make (.bundle c.t c.act) (winOp false (winOf y)) y (physOf u c.t c.low y) (Ty.width ty / 8) with
           ty := typeOf y, data := readTy u c ty c.low d 6, rel := stRel m, scope := stScope m, isStore := true
           dev := devOf u y, dies := targets (winOp false (winOf y)) y }] [] s t)) ∧
  (∀ (h : Hdr) (ty : Ty) (m : StMod) (d base : Opd) (off : Src) (s : State) (c : Ctx),
     let u := s.begun
     let addr := fun l => memAddr u c l base off
     let st := (s.troupe c.t).stage
     let co := s.companyOf c.t
     let entry := fun op t l => (⟨co.run, st, companyKey c.t, (co.index, troupeNo c.t, l, (s.thread c.t l).seqno),
       releasePerformed s co, op, addr l, Ty.width ty / 8, t == 3, t, readTy u c ty l d 6, physOf u c.t l (addr l)⟩ : BufOp)
     let bufferedOf := fun (ls : List Nat) (op : Nat → AOp) (ty : Nat → Nat) (t : State) =>
       (t.stage st).det = (s.stage st).det ++ ls.map (fun l => entry (op l) (ty l) l) ∧ t.accs = s.accs ∧
       (∀ x, t.mem.byte x = s.mem.byte x) ∧
       (∀ l, hasLane c.act l = true → (t.thread c.t l).seqno = (s.thread c.t l).seqno + (if l ∈ ls then 1 else 0) ∧
         (t.thread c.t l).pc = (s.thread c.t l).pc + 12)
     let buffered := bufferedOf (lanes c.act)
     (s.runOf c.t).determ = true → (s.stage st).det.length + (lanes c.act).length ≤ 2048 →
     (∀ l, hasLane c.act l = true → isRemote u (addr l) = false) →
     (Issues (.st h ty m d base off) s c →
       (∀ l, hasLane c.act l = true → laneCheck u c.t l (.access false (Ty.width ty / 8)) (addr l) = none) →
       (∀ l, hasLane c.act l = true → 2 ≤ winOf (addr l) ∧ winOf (addr l) ≤ 6) →
       ∃ t, exec (.st h ty m d base off) s = .next t ∧
         buffered (fun l => winOp false (winOf (addr l))) (fun l => typeOf (addr l)) t) ∧
     (Issues (.stu h ty m d base off) s c → c.act ≠ 0 →
       let y := addr c.low
       (∀ l, hasLane c.act l = true → readPair u c l base 4 = readPair u c c.low base 4 ∧
         offVal u c l off = offVal u c c.low off ∧ readTy u c ty l d 6 = readTy u c ty c.low d 6) →
       laneCheck u c.t c.low (.access false (Ty.width ty / 8)) y = none → 2 ≤ winOf y ∧ winOf y ≤ 6 →
       ∃ t, exec (.stu h ty m d base off) s = .next t ∧
         bufferedOf [c.low] (fun _ => winOp false (winOf y)) (fun _ => typeOf y) t) ∧
     (∀ op, Issues (.red h op ty m d base off) s c →
       (∀ l, hasLane c.act l = true → laneCheck u c.t l (.atomic (Ty.width ty / 8)) (addr l) = none) →
       ∃ t, exec (.red h op ty m d base off) s = .next t ∧ buffered (fun _ => atomOp op) (fun _ => arithType ty) t))

/-- R239-R243: ATOM, AENQ and ADEQ enter one access for each lane of Active and owe its result; RED enters a store that returns
nothing. ATOM, RED and AENQ stand in the store queue. -/
def Obligations.Atomics : Prop :=
  ∀ (h : Hdr) (d base : Opd) (s : State) (c : Ctx),
    let u := s.begun
    let at0 := fun l => readPair u c l base 4
    (∀ op ty m b k, Issues (.atom h op ty m d base b k) s c →
      (∀ l, hasLane c.act l = true → laneCheck u c.t l (.atomic (Ty.width ty / 8)) (at0 l) = none) →
      OrderFree u c c.act → RemoteFree u c at0 → (lanes c.act).length ≤ queueFree u c.t →
      ∃ t, exec (.atom h op ty m d base b k) s = .next t ∧ AllMoved c s t ∧
        Entered c ((lanes c.act).map fun l =>
            { Access.make (.thread c.t l) (atomOp op) (at0 l) (physOf u c.t l (at0 l)) (Ty.width ty / 8) with
              ty := arithType ty, data := readTy u c ty l b 6, cmp := readTy u c ty l k 7
              acq := atAcq m, rel := atRel m, scope := atScope m, isStore := true, reply := true, dev := devOf u (at0 l) })
          ((lanes c.act).flatMap fun l =>
            owedLoad c s (laneBit l) l (if lanesWrite c d l then destWrites (Ty.wide ty) d l 0 else [])) s t) ∧
    (∀ op ty m off, Issues (.red h op ty m d base off) s c →
      let addr := fun l => memAddr u c l base off
      (∀ l, hasLane c.act l = true → laneCheck u c.t l (.atomic (Ty.width ty / 8)) (addr l) = none) →
      (s.runOf c.t).determ = false → RemoteFree u c addr → (lanes c.act).length ≤ queueFree u c.t →
      ∃ t, exec (.red h op ty m d base off) s = .next t ∧ AllMoved c s t ∧
        Entered c ((lanes c.act).map fun l =>
          { Access.make (.thread c.t l) (atomOp op) (addr l) (physOf u c.t l (addr l)) (Ty.width ty / 8) with
            ty := arithType ty, data := readTy u c ty l d 6, rel := stRel m, scope := stScope m, isStore := true
            dev := devOf u (addr l) }) [] s t) ∧
    (∀ ty m b, Issues (.aenq h ty m d base b) s c →
      (∀ l, hasLane c.act l = true → laneCheck u c.t l (.queue false) (at0 l) = none) →
      OrderFree u c c.act → RemoteFree u c at0 → (lanes c.act).length ≤ queueFree u c.t →
      ∃ t, exec (.aenq h ty m d base b) s = .next t ∧ AllMoved c s t ∧
        Entered c ((lanes c.act).map fun l =>
            { Access.make (.thread c.t l) .aenq (at0 l) (physOf u c.t l (at0 l)) (Ty.width ty / 8) with
              data := readTy u c ty l b 6, rel := stRel m, scope := stScope m, isStore := true, dev := devOf u (at0 l) })
          ((lanes c.act).flatMap fun l => owedLoad c s (laneBit l) l (if lanesWrite c d l then destWrites true d l 0 else [])) s t) ∧
    (∀ m off, Issues (.adeq h m d base off) s c →
      let addr := fun l => memAddr u c l base off
      (∀ l, hasLane c.act l = true → laneCheck u c.t l (.queue true) (addr l) = none) →
      OrderFree u c c.act → RemoteFree u c addr →
      ∃ t, exec (.adeq h m d base off) s = .next t ∧ AllMoved c s t ∧
        Entered c ((lanes c.act).map fun l =>
            { Access.make (.thread c.t l) .adeq (addr l) (physOf u c.t l (addr l)) 8 with
              acq := ldAcq m, scope := ldScope m, dev := devOf u (addr l) })
          ((lanes c.act).flatMap fun l => owedLoad c s (laneBit l) l (if lanesWrite c d l then destWrites true d l 0 else [])) s t)

/-- R70, R145: where a lane's address fails a check, LD, ST, LDX, STX, PROBE, ATOM, RED, AENQ and ADEQ trap with the earliest
check that any lane fails, and have no other effect. R235: LDU and STU trap NONUNIFORM for the lanes that disagree with the
lowest one in the first operand they do not agree on, and for all of Active where the one address fails a check. R68-R70, R75,
R76: what a lane's address is checked for, in order: its form (APERTURE), its window (WINDOW), its alignment (MISALIGNED), and,
in a window other than CAST, its bounds; a queue operation's descriptor is aligned to 32 bytes.
The model's choice, not the spec's: what log entries 22, 23 and 24 name. -/
def Obligations.AddressChecks : Prop :=
  (∀ (h : Hdr) (d base : Opd) (off : Src) (s : State) (c : Ctx),
     let u := s.begun
     let addr := fun l => memAddr u c l base off
     let at0 := fun l => readPair u c l base 4
     let traps := fun (i : Instr) (w : Want) (f : Nat → Dword) => Issues i s c →
       (∃ l, hasLane c.act l = true ∧ laneCheck u c.t l w (f l) ≠ none) →
       ∃ x, exec i s = .next (takeTrap u c.t x) ∧ EarliestTrap c f (fun l => laneCheck u c.t l w (f l)) x
     (∀ ty m, traps (.ld h ty m d base off) (.access true (Ty.width ty / 8)) addr) ∧
     (∀ ty m, traps (.st h ty m d base off) (.access false (Ty.width ty / 8)) addr) ∧
     (∀ (k : Fin 4) m, traps (.ldx h k m d base off) (.block true (2 ^ (k.val + 1))) addr) ∧
     (∀ (k : Fin 4) m, traps (.stx h k m d base off) (.block false (2 ^ (k.val + 1))) addr) ∧
     traps (.probe h d base off) ⟨true, 1, 1, 1, true, false, [0, 1, 2, 3, 4], false⟩ addr ∧
     (∀ op ty m b k, traps (.atom h op ty m d base b k) (.atomic (Ty.width ty / 8)) at0) ∧
     (∀ op ty m, traps (.red h op ty m d base off) (.atomic (Ty.width ty / 8)) addr) ∧
     (∀ ty m b, traps (.aenq h ty m d base b) (.queue false) at0) ∧
     (∀ m, traps (.adeq h m d base off) (.queue true) addr) ∧
     -- LDU and STU: operands that the lanes of Active disagree on, then the one address
     let once := fun (i : Instr) (load : Bool) (n : Nat) (fs : List (Nat → Dword)) => Issues i s c → c.act ≠ 0 →
       (∀ pre f post, fs = pre ++ f :: post → (∀ g ∈ pre, Agree c g) → ¬Agree c f →
         ∃ x, exec i s = .next (takeTrap u c.t x) ∧ x.reason = 0 ∧ x.code = 0x20 ∧ x.pc = c.pc ∧ x.bundle = c.mask ∧ x.skip = 0 ∧
           x.val = c.pc.setWidth 64 ∧ ∀ l, hasLane x.mask l = true ↔ hasLane c.act l = true ∧ f l ≠ f c.low) ∧
       ((∀ f ∈ fs, Agree c f) → ∀ r, laneCheck u c.t c.low (.access load n) (addr c.low) = some r →
         TrapsAll i s c r.2 (if r.2 = 0x21 then c.pc.setWidth 64 else addr c.low))
     let place := [fun l => readPair u c l base 4, fun l => offVal u c l off]
     (∀ ty m, once (.ldu h ty m d base off) true (Ty.width ty / 8) place) ∧
     (∀ ty m, once (.stu h ty m d base off) false (Ty.width ty / 8) (place ++ [fun l => readTy u c ty l d 6]))) ∧
  (∀ (s : State) (t l : Nat) (w : Want) (x : Dword),
     let align := if opQueue (winOp w.load (winOf x)) then 32 else w.align
     (laneCheck s t l w x = some (1, 0x11) ↔ badForm (s.companyOf t) x = true) ∧
     (laneCheck s t l w x = some (2, 0x12) ↔ badForm (s.companyOf t) x = false ∧ winOk w (winOf x) (spaceOf x) = false) ∧
     (laneCheck s t l w x = some (3, 0x10) ↔
       badForm (s.companyOf t) x = false ∧ winOk w (winOf x) (spaceOf x) = true ∧ offOf x % align ≠ 0) ∧
     (winOf x ≠ 7 → ∀ code, laneCheck s t l w x = some (4, code) ↔
       badForm (s.companyOf t) x = false ∧ winOk w (winOf x) (spaceOf x) = true ∧ offOf x % align = 0 ∧
         boundsCheck s t x w.bytes = some code))

/-- R253, R155, R158: BRA and BRX send each thread of Active to its target, which it reaches as a branch target; a target past
the text, below it or not a multiple of 12 traps ILLOP for the lanes that have one. (What %trapval holds for a negative target
is the model's reading: the target modulo 2^32.)
The model's choice, not the spec's: what log entry 32 names. -/
def Obligations.Branches : Prop :=
  ∀ (h : Hdr) (k : Imm) (a : Opd) (s : State) (c : Ctx),
    let text : Int := if (s.troupe c.t).context then 2 ^ 32 else (s.runOf c.t).textSize
    let good := fun x : Int => 0 ≤ x ∧ (12 : Int) ∣ x ∧ x < text
    let goes := fun (i : Instr) (f : Nat → Int) => Issues i s c →
      ((∀ l, hasLane c.act l = true → good (f l)) → ∃ t, exec i s = .next t ∧
        ThreadsGo c (fun l th => th.goTo c.hdr (BitVec.ofInt 32 (f l)) c.pc) s t) ∧
      ((∃ l, hasLane c.act l = true ∧ ¬good (f l)) → ∃ x, exec i s = .next (takeTrap s.begun c.t x) ∧
        x.code = 0x01 ∧ x.pc = c.pc ∧ x.bundle = c.mask ∧ x.skip = 0 ∧
        (∀ l, hasLane x.mask l = true ↔ hasLane c.act l = true ∧ ¬good (f l)) ∧
        ∃ l, hasLane x.mask l = true ∧ (∀ j, hasLane x.mask j = true → l ≤ j) ∧ x.val = (BitVec.ofInt 32 (f l)).setWidth 64)
    goes (.bra h k) (fun _ => c.pc.toNat + 12 * k.toInt) ∧
    goes (.brx h a) (fun l => (readWord s.begun c l a 0).toNat)

/-- R253, R254, R62, R262: CALL and CALLX push PC + 12 and go to the target; a fifth on-chip entry sends the oldest one to the
troupe stack, 8 bytes below the last spilled one. RET goes to the youngest entry and takes it off; when that empties the on-chip
part, the last spilled entry is read back. A lane whose read-back is outstanding stalls at each of the three, and its bundle's
other lanes go on. CALL and CALLX trap ILLOP for the lanes whose target is bad, before any thread moves, and then STACKOVF for
those whose push would pass the end of their stack area; where the store queue has no room for the spills, the lanes of Active
stall. RET traps ILLOP for the lanes without a return entry, and, with the entries popped, for those whose popped entry is no
target.
The model's choice, not the spec's: what log entries 25 and 32 name. -/
def Obligations.CallsAndReturns : Prop :=
  ∀ (h : Hdr) (k : Imm) (a : Opd) (s : State) (c : Ctx),
    let text : Int := if (s.troupe c.t).context then 2 ^ 32 else (s.runOf c.t).textSize
    let good := fun x : Int => 0 ≤ x ∧ (12 : Int) ∣ x ∧ x < text
    let th := s.thread c.t
    let depth := (s.runOf c.t).stack
    let goes := fun l => hasLane c.act l = true ∧ (th l).readback = false
    let full := (lanes c.act).filter fun l => !(th l).readback && decide (4 ≤ (th l).rstack.length)
    let lacks := fun l => 4 ≤ (th l).rstack.length ∧ depth < 8 * ((th l).spills + 1)
    let spill := fun (op : AOp) (st : Bool) (data : Nat → Dword) (ls : List Nat) (at' : Nat → Nat) => ls.map fun l =>
      let x := stackAddr (depth - at' l)
      { Access.make (.thread c.t l) op x (physOf s c.t l x) 8 with data := data l, isStore := st, spill := true }
    let moves := fun (t : State) (f : Nat → Thread → Thread) => ∀ l, t.thread c.t l =
      if hasLane c.act l then (if (th l).readback then { th l with st := .stalled, wait := .readback } else f l (th l))
      else if hasLane c.mask l then (th l).advance c.hdr else th l
    let traps := fun (i : Instr) (code : Nat) (v : Nat → Dword) (bad : Nat → Prop) => (∃ l, goes l ∧ bad l) →
      ∃ x, exec i s = .next (takeTrap s.begun c.t x) ∧ x.reason = 0 ∧ x.code = code ∧ x.pc = c.pc ∧ x.bundle = c.mask ∧ x.skip = 0 ∧
        (∀ l, hasLane x.mask l = true ↔ goes l ∧ bad l) ∧
        ∃ l, hasLane x.mask l = true ∧ (∀ j, hasLane x.mask j = true → l ≤ j) ∧ x.val = v l
    let pcVal := fun _ : Nat => c.pc.setWidth 64
    let calls := fun (i : Instr) (f : Nat → Int) => Issues i s c →
      ((∀ l, goes l → good (f l) ∧ ¬lacks l) → full.length ≤ queueFree s c.t → ∃ t, exec i s = .next t ∧
        Entered c (spill .store true (fun l => ((th l).rstack.headD 0).setWidth 64) full fun l => 8 * ((th l).spills + 1)) [] s t ∧
        moves t fun l x => { x.goTo c.hdr (BitVec.ofInt 32 (f l)) c.pc with
          rstack := if 4 ≤ (th l).rstack.length then (th l).rstack.tail ++ [c.pc + 12] else (th l).rstack ++ [c.pc + 12]
          spills := if 4 ≤ (th l).rstack.length then (th l).spills + 1 else (th l).spills }) ∧
      ((∀ l, goes l → good (f l) ∧ ¬lacks l) → queueFree s c.t < full.length → ∃ t, exec i s = .next t ∧
        ThreadsGo c (fun _ x => { x with st := .stalled, wait := .room full.length }) s t) ∧
      traps i 0x01 (fun l => (BitVec.ofInt 32 (f l)).setWidth 64) (fun l => ¬good (f l)) ∧
      ((∀ l, goes l → good (f l)) → traps i 0x21 pcVal lacks)
    let top := fun l => (th l).rstack.getLastD 0
    let empties := fun l => decide ((th l).rstack.length = 1 ∧ (th l).spills ≠ 0)
    let reads := spill .load false (fun _ => 0) ((lanes c.act).filter fun l => !(th l).readback && empties l) fun l => 8 * (th l).spills
    calls (.call h k) (fun _ => c.pc.toNat + 12 * k.toInt) ∧
    calls (.callx h a) (fun l => (readWord s.begun c l a 0).toNat) ∧
    (Issues (.ret h) s c →
      ((∀ l, goes l → (th l).rstack ≠ [] ∧ good (top l).toNat) → ∃ t, exec (.ret h) s = .next t ∧ Entered c reads [] s t ∧
        moves t fun l x => { x.goTo c.hdr (top l) c.pc with rstack := (th l).rstack.dropLast, readback := empties l }) ∧
      traps (.ret h) 0x01 pcVal (fun l => (th l).rstack = []) ∧
      ((∀ l, goes l → (th l).rstack ≠ []) → (∃ l, goes l ∧ ¬good (top l).toNat) →
        ∃ u x, exec (.ret h) s = .next (takeTrap u c.t x) ∧ Entered c reads [] s u ∧
          (∀ l, u.thread c.t l = if hasLane c.act l = true ∧ (th l).readback = false then
            { th l with rstack := (th l).rstack.dropLast, readback := empties l } else th l) ∧
          x.reason = 0 ∧ x.code = 0x01 ∧ x.pc = c.pc ∧ x.bundle = c.mask ∧ x.skip = 0 ∧ x.val = c.pc.setWidth 64 ∧
          ∀ l, hasLane x.mask l = true ↔ goes l ∧ ¬good (top l).toNat))

/-- R59, R255: CVSET makes Active the expected set of a point, releasing with 0 the threads that wait there and are not in it;
CVSET.idle empties the set and releases all of them. R59, R256: CVWAIT lets a lane outside the expected set go on with 0; the
others wait, until every lane of the set waits: then all of them write 1 and go on, and the point is idle. -/
def Obligations.Convergence : Prop :=
  (∀ (h : Hdr) (k : Fin 8) (s : State) (c : Ctx), Awake c s → c.act ≠ 0 →
     let sets := fun (i : Instr) (e : Mask) (goes : Nat → Prop) => Issues i s c → ∃ t, exec i s = .next t ∧ OnlyTroupe c.t s t ∧
       (∀ j : Fin 8, (t.troupe c.t).expected j.val = if j = k then e else (s.troupe c.t).expected j.val) ∧
       ∀ l, (hasLane c.mask l = true → t.thread c.t l = (s.thread c.t l).advance c.hdr) ∧
         ((s.thread c.t l).waitsCv k.val = true → goes l → t.thread c.t l = (s.thread c.t l).left ∧
           Gets (t.troupe c.t) (Ty.wide (s.thread c.t l).info.ty) (s.thread c.t l).info.d l 0) ∧
         (hasLane c.mask l = false → ¬((s.thread c.t l).waitsCv k.val = true ∧ goes l) → t.thread c.t l = s.thread c.t l)
     sets (.cvset h k) c.act (fun l => l < 32 ∧ hasLane c.act l = false) ∧
     sets (.cvsetIdle h k) 0 (fun l => l < 32)) ∧
  (∀ (h : Hdr) (k : Fin 8) (d : Opd) (b : Src) (s : State) (c : Ctx), Issues (.cvwait h k d b) s c → Awake c s →
     let e := (s.troupe c.t).expected k.val
     let th := s.thread c.t
     let waits := fun l => hasLane c.act l = true ∨ (th l).waitsCv k.val = true
     let limit := fun l => (readSrcZ s.begun c l b 1).toNat
     let dest := fun l => if hasLane c.act l = true then (if lanesWrite c d l then d else .rz) else (th l).info.d
     ∃ t, exec (.cvwait h k d b) s = .next t ∧ (∀ x, t.mem.byte x = s.mem.byte x) ∧
       (∀ l, hasLane c.act l = true → hasLane e l = false →
         t.thread c.t l = { (th l).advance c.hdr with info := ⟨c.hdr, dest l, .n32⟩, arrived := [] }) ∧
       ((∃ l, hasLane e l = true ∧ ¬waits l) →
         (t.troupe c.t).expected k.val = e ∧
         (∀ l, hasLane c.act l = true → hasLane e l = false → Gets (t.troupe c.t) false (dest l) l 0) ∧
         ∀ l, hasLane c.act l = true → hasLane e l = true → t.thread c.t l = (th l).waitAt c.hdr (dest l) .n32
           (.cvwait k.val (if limit l = 0 then 0 else s.wall + limit l) (limit l))) ∧
       (e ≠ 0 → (∀ l, hasLane e l = true → waits l) →
         (t.troupe c.t).expected k.val = 0 ∧
         ∀ l, hasLane e l = true → (t.thread c.t l).st = .ready ∧ (t.thread c.t l).pc = (th l).pc + 12 ∧
           ((∀ j, (th j).waitsCv k.val = true → Ty.wide (th j).info.ty = false) → Gets (t.troupe c.t) false (dest l) l 1)) ∧
       ∀ l, hasLane c.mask l = true → hasLane c.act l = false → t.thread c.t l = (th l).advance c.hdr)

/-- R48-R50, R257, R364: EXIT of a thread that is owed no write takes it, at lane grain, to a new item at the cue, with its
predicates clear and its return stack empty, or DRAINED when no item is left; at any other grain, and in a handler, it is HELD.
A thread that is owed a write stalls. The items are drawn in ascending lane order; a seat of a node draws the oldest record of
the node's queue by DEQ, which moves HEAD on, stalls while that cannot be performed, and drains when the queue is empty.
R258-R260: YIELD and NOP go on, YIELD with the bundle passed over at its wing's next choice; SLEEP waits until the time counter
has advanced by the duration, and with a duration of 0 acts as YIELD; BRK traps with its immediate, and a return from its
handler passes over it.
The model's choice, not the spec's: what log entry 145 names. -/
def Obligations.ExitsAndPauses : Prop :=
  (∀ (h : Hdr) (s : State) (c : Ctx), Issues (.exit h) s c → Awake c s →
     let tr := s.troupe c.t
     let r := s.runOf c.t
     let co := s.companyOf c.t
     let owed := fun l => tr.pend.any fun p => hasLane p.lanes l
     let place := fun l => ((lanes c.act).filter fun j => !owed j && decide (j < l)).length
     let last := min ((co.index + 1) * r.range) r.items
     -- the item of a lane, where the run's counters give one
     let item := fun l =>
       if r.determ then (let i := co.index * r.range + seatOf c.t l + (s.thread c.t l).draws * (32 * r.troupes)
         if i < last then some (i, (s.thread c.t l).draws * (32 * r.troupes) + seatOf c.t l) else none)
       else if r.source = .shared then (if r.counter + place l < r.items then some (r.counter + place l, co.admitted + place l) else none)
       else if r.source = .callboard then none
       else (if co.counter + place l < last then some (co.counter + place l, co.admitted + place l) else none)
     (r.source ≠ .callboard ∨ r.closed = true ∨ tr.status = .handler) →
     ∃ t, exec (.exit h) s = .next t ∧ (∀ x, t.mem.byte x = s.mem.byte x) ∧
       (∀ l, hasLane c.act l = true → owed l = true → t.thread c.t l = { s.thread c.t l with st := .stalled, wait := .owed }) ∧
       (∀ l, hasLane c.mask l = true → hasLane c.act l = false → t.thread c.t l = (s.thread c.t l).advance c.hdr) ∧
       (∀ l, hasLane c.act l = true → owed l = false → (r.grain ≠ 0 ∨ tr.status = .handler) →
         (t.thread c.t l).st = .held ∧ (t.thread c.t l).pc = (s.thread c.t l).pc) ∧
       (∀ l, hasLane c.act l = true → owed l = false → r.grain = 0 → tr.status ≠ .handler →
         match item l with
         | some x => (t.thread c.t l).st = .ready ∧ (t.thread c.t l).pc = r.cue ∧ (t.thread c.t l).rstack = [] ∧
             (t.thread c.t l).item = BitVec.ofNat 64 x.1 ∧ (t.thread c.t l).age = BitVec.ofNat 64 x.2 ∧
             (t.thread c.t l).conv = 0 ∧
             ((∀ j, (s.thread c.t j).st ≠ .waiting) → ∀ p < 7, (t.troupe c.t).reg (pKey l p) = 0)
         | none => (t.thread c.t l).st = .drained)) ∧
  (∀ (h : Hdr) (s : State) (c : Ctx), Issues (.exit h) s c → Awake c s →
     let tr := s.troupe c.t
     let r := s.runOf c.t
     let owed := fun l => tr.pend.any fun p => hasLane p.lanes l
     let place := fun l => ((lanes c.act).filter fun j => !owed j && decide (j < l)).length
     let n := ((lanes c.act).filter fun j => !owed j).length
     let waits := fun l => drawWaits s.begun c.t l (place l) = true
     let q := r.nodeQ
     let d := descOf s q
     r.source = .callboard → r.closed = false → r.determ = false → r.grain = 0 → tr.status ≠ .handler →
     ((∀ l, hasLane c.act l = true → owed l = false → ¬waits l) → d.bad = false → inDerived s q 4 = false →
       anyWatched s [(q, 4)] = false → poisoned s q 32 = false →
       (∀ j < min n d.used, poisoned s (d.slot (d.head + j)) 4 = false ∧ overlaps q 4 (d.slot (d.head + j)) 4 = false) →
       ∃ t, exec (.exit h) s = .next t ∧
         (∀ l, hasLane c.act l = true → owed l = true → t.thread c.t l = { s.thread c.t l with st := .stalled, wait := .owed }) ∧
         (∀ l, hasLane c.act l = true → owed l = false →
           (place l < d.used → (t.thread c.t l).st = .ready ∧ (t.thread c.t l).pc = r.cue ∧ (t.thread c.t l).rstack = [] ∧
             (t.thread c.t l).item = BitVec.ofNat 64 (cleanN s (d.slot (d.head + place l)) 4) ∧
             (t.thread c.t l).age = BitVec.ofNat 64 (r.admitted + place l)) ∧
           (d.used ≤ place l → (t.thread c.t l).st = .drained)) ∧
         (t.runOf c.t).admitted = r.admitted + min n d.used ∧ t.mem.readN q 4 = (d.head + min n d.used) % 2 ^ 32 ∧
         ∀ x, (x < q ∨ q + 4 ≤ x) → t.mem.byte x = s.mem.byte x) ∧
     ((∃ l, hasLane c.act l = true ∧ owed l = false ∧ waits l) → ∃ t, exec (.exit h) s = .next t ∧
       ∀ l, hasLane c.act l = true → (owed l = true ∨ waits l) →
         t.thread c.t l = { s.thread c.t l with st := .stalled, wait := .hazard })) ∧
  (∀ (h : Hdr) (s : State) (c : Ctx),
     (Issues (.nop h) s c → ∃ t, exec (.nop h) s = .next t ∧ ThreadsGo c (fun _ th => th.advance c.hdr) s t) ∧
     (Issues (.yield h) s c → ∃ t, exec (.yield h) s = .next (t.passedOver c) ∧ ThreadsGo c (fun _ th => th.advance c.hdr) s t) ∧
     (∀ b : Src, Issues (.sleep h b) s c →
       let n := fun l => (readSrcZ s.begun c l b 1).toNat
       ∃ t, ThreadsGo c (fun l th => if n l = 0 then th.advance c.hdr
           else th.waitAt c.hdr .rz .n32 (.sleep (s.ports.time.toNat + n l))) s t ∧
         exec (.sleep h b) s = .next (if (lanes c.act).any fun l => n l == 0 then t.passedOver c else t)) ∧
     (∀ x : Imm, Issues (.brk h x) s c →
       (c.act ≠ 0 → ∃ y, exec (.brk h x) s = .next (takeTrap s.begun c.t y) ∧ y.code = 0x32 ∧ y.pc = c.pc ∧ y.mask = c.act ∧
         y.bundle = c.mask ∧ y.skip = c.act ∧ y.val = x.setWidth 64) ∧
       (c.act = 0 → ∃ t, exec (.brk h x) s = .next t ∧ ThreadsGo c (fun _ th => th.advance c.hdr) s t)))

/-- R238, R314: a FENCE lets each thread of Active go on, STALLED at its next instruction until what it orders is over: the
thread's accesses that return a value are complete; under `.rel` the thread's other accesses and the stores of its troupe are
performed as well, at every scope; under a full fence its own stores stand where the scope asks, performed at die scope or
wider, in the stage store buffer at stage scope; and at die scope or wider the stores that its loads took from other troupes are
performed. An acquire at die scope or wider drops the stage's RO cache. R244, R415: WAITC goes on, and stalls at the next
instruction while the counter of its class stands above n; for class copy a recorded translation fault is trapped first, the
oldest one, and is recorded no more.
The model's choice, not the spec's: what log entry 99 names. -/
def Obligations.FencesAndCounterWaits : Prop :=
  (∀ (h : Hdr) (k : FenceKind) (sc : Scope) (s : State) (c : Ctx), Issues (.fence h k sc) s c →
     let store := fun l i => ∃ a ∈ s.accs, a.id = i ∧ a.isStore = true ∧
       (if k = .rel then a.who.ofTroupe c.t else a.who.ofLane c.t l) = true
     let wide := k = .rel ∨ k = .full ∧ scopeOuter sc = true
     ∃ (u : State) (ids pubs : Nat → List Nat),
       (∀ l i, i ∈ ids l ↔
         (∃ a ∈ s.accs, a.id = i ∧ a.who.ofLane c.t l = true ∧ (a.returns = true ∨ k = .rel)) ∨
         (wide ∧ (store l i ∨ ∃ v ∈ s.upds, v.id = i ∧ v.ofLane c.t l = true)) ∨
         (scopeOuter sc = true ∧ k ≠ .acq ∧ i ∈ (s.thread c.t l).took ∧ accDone s i = false)) ∧
       (∀ l i, i ∈ pubs l ↔ k = .full ∧ sc = .stage ∧ store l i) ∧
       ThreadsGo c (fun l th => if ids l = [] ∧ pubs l = [] then th.advance c.hdr
         else { th.advance c.hdr with st := .stalled, wait := .drain (ids l) (pubs l) }) s u ∧
       exec (.fence h k sc) s = .next (if k != .rel && scopeOuter sc && c.act != 0 then dropRo u (s.troupe c.t).stage else u)) ∧
  (∀ (h : Hdr) (cls : Eng) (n : Fin 64) (s : State) (c : Ctx), Issues (.waitc h cls n) s c →
     ((c.act = 0 ∨ cls ≠ .copy ∨ (s.troupe c.t).xfaults = []) → ∃ t, exec (.waitc h cls n) s = .next t ∧
       ThreadsGo c (fun _ th => if (s.troupe c.t).counter cls ≤ n.val then th.advance c.hdr
         else { th.advance c.hdr with st := .stalled, wait := .counter cls n.val }) s t) ∧
     (∀ x r, c.act ≠ 0 → cls = .copy → (s.troupe c.t).xfaults = x :: r → ∃ y,
       exec (.waitc h cls n) s = .next (takeTrap (s.begun.setTroupe c.t { s.troupe c.t with xfaults := r }) c.t y) ∧
       y.code = 0x1A ∧ y.pc = c.pc ∧ y.mask = c.act ∧ y.bundle = c.mask ∧ y.skip = 0 ∧ y.val = x))

/-- R246, R56: JINIT.count sets a junction to expect E arrivals, JINIT.member to expect every seat that is live and not HELD; no
seat has arrived and the phase bit is 0. It traps JUNCTION, changing nothing, for an E outside 1 to 8,192, and while a seat has
arrived or a thread waits. R56, R247: arrivals that do not complete the phase are counted, and their seats marked; JARR goes on
and is owed the phase bit, JARRW waits. An arrival counts for urgency scheduling (R366). A seat that has arrived in the open
phase is deferred to the next one, and its thread waits (R58). R56, R247: the arrival that completes a phase flips the phase
bit, clears the arrivals, and lets every thread of the company that waits for the phase go on with the phase's bit. R247, R248:
JWAIT waits while an arrival of its seat stands in the open phase, and otherwise goes on. JARR, JWAIT and JARRW trap JUNCTION
for the lanes whose seat may not use the junction, and JWAIT and JARRW trap MCLOST, once, when the company has lost a multicast
delivery.
The model's choice, not the spec's: what log entries 27 and 28 name. -/
def Obligations.Junctions : Prop :=
  (∀ (h : Hdr) (j : Fin 24) (e : Option Src) (s : State) (c : Ctx), Issues (.jinit h j e) s c → c.act ≠ 0 →
     let key := companyKey c.t
     let n := fun l => match e with
       | some b => (readSrcZ s.begun c l b 1).toNat
       | none => 0
     let bad := (e.isSome = true ∧ (n c.low = 0 ∨ 8192 < n c.low)) ∨ (s.junction key j.val).arrived ≠ [] ∨
       ∃ t ∈ troupesOf s key, ∃ l < 32, (s.thread t l).st = .waiting ∧ ∃ d a, (s.thread t l).wait = .junction j.val d a
     (∀ l, hasLane c.act l = true → n l = n c.low) →
     (¬bad → ∃ t members, exec (.jinit h j e) s = .next t ∧
       JunctionSet c j.val ⟨true, e.isNone, if e.isSome then n c.low else members.length, 0, false, members, [], []⟩ s t ∧
       (∀ x, x ∈ members ↔ e = none ∧ ∃ v ∈ troupesOf s key, ∃ l < 32, x = seatOf v l ∧ seatActive (s.troupe v) l = true) ∧
       AllMoved c s t ∧ (t.troupe c.t).pend = (s.troupe c.t).pend) ∧
     (bad → ∃ x, exec (.jinit h j e) s = .next (takeTrap s.begun c.t x) ∧ x.code = 0x22 ∧ x.pc = c.pc ∧ x.mask = c.act ∧
       x.bundle = c.mask ∧ x.skip = 0 ∧ x.val = c.pc.setWidth 64)) ∧
  (∀ (h : Hdr) (j : Fin 24) (d : Opd) (s : State) (c : Ctx),
     let x := s.junction (companyKey c.t) j.val
     let n := (lanes c.act).length
     x.isSet = true → (∀ l, hasLane c.act l = true → Settled s c.t l ∧ (s.thread c.t l).arrived = [] ∧
       (x.member = true → seatOf c.t l ∈ x.members)) →
     let arrives := fun (i : Instr) (f : Nat → Thread → Thread) (owed : List Pend) =>
       (∀ l, hasLane c.act l = true → seatOf c.t l ∉ x.arrived) → x.a + n < x.e →
       ∃ t, exec i s = .next t ∧
         JunctionSet c j.val { x with a := x.a + n, arrived := x.arrived ++ (lanes c.act).map (seatOf c.t) } s t ∧
         (t.troupe c.t).urgency = (if n = 0 then (s.troupe c.t).urgency else min ((s.troupe c.t).urgency + n) 8191) ∧
         (t.troupe c.t).pend = (s.troupe c.t).pend ++ owed ∧
         ∀ l, t.thread c.t l = if hasLane c.act l then f l (s.thread c.t l)
           else if hasLane c.mask l then (s.thread c.t l).advance c.hdr else s.thread c.t l
     let waits := fun (l : Nat) (p later arr : Bool) (th : Thread) => { th.waitAt c.hdr (if lanesWrite c d l then d else .rz) .n32
       (.junction j.val later arr) with arrived := [(j.val, p)] }
     let defers := fun (i : Instr) (arr : Bool) => (∀ l, hasLane c.act l = true → seatOf c.t l ∈ x.arrived) → x.a < x.e →
       ∃ t, exec i s = .next t ∧
         JunctionSet c j.val { x with deferred := x.deferred ++ (lanes c.act).map (seatOf c.t) } s t ∧
         ∀ l, t.thread c.t l = if hasLane c.act l then waits l (!x.phase) true arr (s.thread c.t l)
           else if hasLane c.mask l then (s.thread c.t l).advance c.hdr else s.thread c.t l
     (Issues (.jarr h j d) s c →
       arrives (.jarr h j d) (fun _ th => th.advance c.hdr)
         (owedBy c s (results c false d fun _ => (boolWord x.phase).setWidth 64)) ∧
       defers (.jarr h j d) true) ∧
     (Issues (.jarrw h j d) s c → (s.companyOf c.t).mclost = false →
       arrives (.jarrw h j d) (fun l th => waits l x.phase false false th) [] ∧ defers (.jarrw h j d) false)) ∧
  (∀ (h : Hdr) (j : Fin 24) (d : Opd) (s : State) (c : Ctx) (l : Nat),
     let key := companyKey c.t
     let x := s.junction key j.val
     c.act = laneBit l → l < 32 → Awake c s → Settled s c.t l → (s.thread c.t l).arrived = [] →
     x.isSet = true → (x.member = true → seatOf c.t l ∈ x.members) → seatOf c.t l ∉ x.arrived → x.deferred = [] → x.a + 1 = x.e →
     let completes := fun (i : Instr) => ∃ t, exec i s = .next t ∧ (∀ a, t.mem.byte a = s.mem.byte a) ∧
       t.junction key j.val = { x with phase := !x.phase, a := 0, arrived := [] } ∧
       (t.thread c.t l).st = .ready ∧ (t.thread c.t l).pc = (s.thread c.t l).pc + 12 ∧
       (∀ v ∈ troupesOf s key, (t.troupe v).urgency = 0 ∧ ∀ k < 32, (s.thread v k).waitsJunction j.val = true →
         t.thread v k = (s.thread v k).left ∧
         ((∀ i, (s.thread v i).waitsJunction j.val = true → Ty.wide (s.thread v i).info.ty = false) →
           Gets (t.troupe v) false (s.thread v k).info.d k ((boolWord x.phase).setWidth 64)) ∧ (t.stage (s.troupe v).stage).ro = []) ∧
       ∀ v, companyKey v ≠ key → t.troupe v = s.troupe v
     (Issues (.jarr h j d) s c → completes (.jarr h j d)) ∧
     (Issues (.jarrw h j d) s c → (s.companyOf c.t).mclost = false → completes (.jarrw h j d))) ∧
  (∀ (h : Hdr) (j : Fin 24) (d : Opd) (s : State) (c : Ctx),
     let x := s.junction (companyKey c.t) j.val
     let bad := fun l => x.isSet = false ∨ (x.member = true ∧ seatOf c.t l ∉ x.members)
     (Issues (.jwait h j) s c → (∀ l, hasLane c.act l = true → ¬bad l) → (c.act = 0 ∨ (s.companyOf c.t).mclost = false) →
       ∃ u, ThreadsGo c (fun l th => if seatOf c.t l ∈ x.arrived then th.waitAt c.hdr .rz .n32 (.junction j.val false false)
           else th.advance c.hdr) s u ∧
         exec (.jwait h j) s = .next (if (lanes c.act).any fun l => !x.arrived.contains (seatOf c.t l)
           then dropRo u (s.troupe c.t).stage else u)) ∧
     (∀ i ∈ [Instr.jarr h j d, .jwait h j, .jarrw h j d], Issues i s c → (∃ l, hasLane c.act l = true ∧ bad l) →
       ∃ y, exec i s = .next (takeTrap s.begun c.t y) ∧ y.code = 0x22 ∧ y.pc = c.pc ∧ y.bundle = c.mask ∧ y.skip = 0 ∧
         ∀ l, hasLane y.mask l = true ↔ hasLane c.act l = true ∧ bad l) ∧
     (∀ i ∈ [Instr.jwait h j, .jarrw h j d], Issues i s c → (∀ l, hasLane c.act l = true → ¬bad l) → c.act ≠ 0 →
       (s.companyOf c.t).mclost = true →
       ∃ y, exec i s = .next (takeTrap (s.begun.setCompany (companyKey c.t) { s.companyOf c.t with mclost := false }) c.t y) ∧
         y.code = 0x40 ∧ y.pc = c.pc ∧ y.mask = c.act ∧ y.bundle = c.mask ∧ y.skip = 0))

/-- R249: WPINIT with operands on which the lanes of Active agree sends one write to the waypoint, and its threads go on and
stall at their next instruction until it has been performed; at the home it is one step: GEN rises, PHASE stays, EXPARR and
PENDING take B, EXPBYTES and REMBYTES take C, and the bits above EXPARR are 0; no other byte changes. R250, R251: WPARR sends
one update for each thread of Active, of the current GEN, that follows what a release at device scope follows; WPWAIT enters one
access for each, and its thread waits. A waypoint address that fails a check traps with the earliest check that any lane fails;
WPWAIT checks MCLOST after that. R85, R308: such a write or update follows the troupe's earlier accesses to its waypoint.
The model's choice, not the spec's: what log entries 34 and 106 name. -/
def Obligations.Waypoints : Prop :=
  (∀ (h : Hdr) (base b k : Opd) (s : State) (c : Ctx), Issues (.wpinit h base b k) s c → c.act ≠ 0 →
     let u := s.begun
     let addr := readPair u c c.low base 0
     let B := (readWord u c c.low b 1).toNat
     let C := (readWord u c c.low k 2).toNat
     let a := physOf u c.t c.low addr
     (∀ l, hasLane c.act l = true → readPair u c l base 0 = addr ∧ readWord u c l b 1 = readWord u c c.low b 1 ∧
       readWord u c l k 2 = readWord u c c.low k 2) →
     waypointCheck u c.t addr = none → B ≤ 65535 → (B ≠ 0 ∨ C ≠ 0) →
     ∃ t w, exec (.wpinit h base b k) s = .next t ∧ t.upds = s.upds ++ [w] ∧
       w = ⟨s.nextId, a, none, 0, false, w.after, 0, 0, some (c.t, c.act), some (B, C), none⟩ ∧
       (∀ i, i ∈ w.after ↔
         (∃ x ∈ s.accs, x.id = i ∧ x.who.ofTroupe c.t = true ∧ ((x.dev = none ∧ ∃ r ∈ x.ranges, overlaps a 16 r.1 r.2 = true) ∨
           (x.acq = true ∧ ∃ l, hasLane c.act l = true ∧ x.who.ofLane c.t l = true))) ∨
         ∃ v ∈ s.upds, v.id = i ∧ v.ofTroupe c.t = true ∧ overlaps a 16 v.addr 16 = true) ∧
       { t with upds := s.upds, troupes := s.troupes, picks := s.picks, nextId := s.nextId } = s ∧
       { t.troupe c.t with threads := (s.troupe c.t).threads } = s.troupe c.t ∧ (∀ v, v ≠ c.t → t.troupe v = s.troupe v) ∧
       ∀ l, t.thread c.t l = if hasLane c.act l then { (s.thread c.t l).advance c.hdr with st := .stalled, wait := .drain [s.nextId] [] }
         else if hasLane c.mask l then (s.thread c.t l).advance c.hdr else s.thread c.t l) ∧
  (∀ (s : State) (u : WpUpd) (B C : Nat), s.upds.find? (fun x => x.id == u.id) = some u → u.init = some (B, C) → u.marks = none →
     (∀ i ∈ u.after, accDone s i = true) → lineClosed s 0 [(u.addr, 16)] = false →
     lostAt s ((copyById s u.copy).any Copy.castWp) u.addr = none → inDerived s u.addr 16 = false →
     anyWatched s [(u.addr, 16)] = false → poisoned s u.addr 16 = false → B < 2 ^ 16 → C < 2 ^ 32 →
     let a := u.addr
     ∃ t, exec (.waypointUpdate u.id) s = .next t ∧ t.upds = s.upds.filter (fun x => x.id != u.id) ∧ t.troupes = s.troupes ∧
       t.mem.readN a 4 / 2 ^ 17 = (s.mem.readN a 4 / 2 ^ 17 + 1) % 2 ^ 15 ∧ wpPhase t.mem a = wpPhase s.mem a ∧
       t.mem.readN a 4 % 2 ^ 16 = B ∧ t.mem.readN (a + 4) 4 = B ∧ t.mem.readN (a + 8) 4 = C ∧ t.mem.readN (a + 12) 4 = C ∧
       ∀ x, (x < a ∨ a + 16 ≤ x) → t.mem.byte x = s.mem.byte x) ∧
  (∀ (h : Hdr) (base : Opd) (s : State) (c : Ctx),
     let u := s.begun
     let addr := fun l => readPair u c l base 0
     let fine := ∀ l, hasLane c.act l = true → waypointCheck u c.t (addr l) = none
     let traps := fun (i : Instr) => (∃ l, hasLane c.act l = true ∧ waypointCheck u c.t (addr l) ≠ none) →
       ∃ x, exec i s = .next (takeTrap u c.t x) ∧ EarliestTrap c addr (fun l => waypointCheck u c.t (addr l)) x
     (∀ noarr b, Issues (.wparr h noarr base b) s c → traps (.wparr h noarr base b) ∧ (fine →
       ∃ t us, exec (.wparr h noarr base b) s = .next t ∧ t.upds = s.upds ++ us ∧
         us.map (fun x => { x with id := 0, after := [] }) = ((lanes c.act).map fun l =>
           ⟨0, physOf u c.t l (addr l), none, (readSrcZ u c l b 1).toNat, !noarr, [], 0, (s.companyOf c.t).run,
             some (c.t, laneBit l), none, none⟩) ∧
         (∀ x ∈ us, ∀ l, hasLane c.act l = true → x.who = some (c.t, laneBit l) →
           (∀ i ∈ arrivalWait s c.t l, i ∈ x.after) ∧ ∀ i ∈ wpEarlier s c.t (laneBit l) x.addr, i ∈ x.after) ∧
         { t with upds := s.upds, troupes := s.troupes, picks := s.picks, nextId := s.nextId } = s ∧ AllMoved c s t ∧
         { t.troupe c.t with threads := (s.troupe c.t).threads } = s.troupe c.t ∧ ∀ v, v ≠ c.t → t.troupe v = s.troupe v)) ∧
     (∀ d b k, Issues (.wpwait h d base b k) s c → traps (.wpwait h d base b k) ∧
       (fine → (c.act = 0 ∨ (s.companyOf c.t).mclost = false) →
         let limit := fun l => (readWord u c l k 2).toNat
         let dl := fun l => if limit l = 0 then 0 else s.wall + limit l
         ∃ t, exec (.wpwait h d base b k) s = .next t ∧
           Entered c ((lanes c.act).map fun l =>
             { Access.make (.thread c.t l) .wpwait (addr l) (physOf u c.t l (addr l)) 4 with
               data := (readWord u c l b 1).setWidth 64, acq := true, scope := .device, deadline := dl l }) [] s t ∧
           (∀ l, hasLane c.act l = true → ∃ a ∈ t.accs, a.who = .thread c.t l ∧ t.thread c.t l =
             (s.thread c.t l).waitAt c.hdr (if lanesWrite c d l then d else .rz) .n32 (.wpwait a.id (dl l))) ∧
           ∀ l, hasLane c.act l = false → t.thread c.t l =
             if hasLane c.mask l then (s.thread c.t l).advance c.hdr else s.thread c.t l)))

/-! ### Exchanges, engines, derivation and the system (19_engine_system_instructions.md) -/

/-- R50, R267, R268: QSWZ gives every lane of Active, and every drained lane of a quad that holds one, the A of the lane of its
quad that its two bits of the pattern, or of its own B, name. R267, R269, R274, R275: SHFL gives each lane of Active the A of
the lane that its mode and n name, its own where that lane is out of range; ELECT marks the lowest one; UMOV gives the A of one
lane of the troupe, and traps NONUNIFORM where the lanes of Active name different ones.
The model's choice, not the spec's: what log entry 22 names. -/
def Obligations.LaneExchanges : Prop :=
  (∀ (h : Hdr) (ty : Ty) (n : Fin 512) (a : Opd) (b : Src) (s : State) (c : Ctx), Issues (.qswz h ty (.v n) a b) s c →
     let helper := fun l => (s.thread c.t l).st = .drained ∧ ∃ k < 32, k / 4 = l / 4 ∧ hasLane c.act k = true
     let writes := fun l => l < 32 ∧ (hasLane c.act l = true ∨ helper l)
     let pos := fun l => match b with
       | .imm x => x.toNat / 4 ^ (l % 4) % 4
       | .reg o => (readWord s.begun c l o 1).toNat % 4
     ∃ t, exec (.qswz h ty (.v n) a b) s = .next t ∧ OnlyTroupe c.t s t ∧ Moved c (s.troupe c.t) (t.troupe c.t) ∧
       { t.troupe c.t with regs := (s.troupe c.t).regs, pend := (s.troupe c.t).pend, threads := (s.troupe c.t).threads } =
         s.troupe c.t ∧
       (∀ l, writes l → Gets (t.troupe c.t) (Ty.wide ty) (.v n) l (readTy s.begun c ty (4 * (l / 4) + pos l) a 0)) ∧
       ∀ r, (∀ l, writes l → ∀ w ∈ destWrites (Ty.wide ty) (.v n) l 0, r ≠ w.1) →
         (t.troupe c.t).reg r = (s.troupe c.t).reg r) ∧
  (∀ (h : Hdr) (ty : Ty) (d a : Opd) (b : Src) (s : State) (c : Ctx),
     let A := fun l => readTy s.begun c ty l a 0
     let B := fun l => readSrcZ s.begun c l b 1
     let n := fun l => (B l).toNat % 32
     (∀ m, Issues (.shfl h m ty d a b) s c → ∃ t, exec (.shfl h m ty d a b) s = .next t ∧
       LaneNow c .rne (Ty.wide ty) d (fun l x => x = match m with
         | .idx => A (n l)
         | .up => if n l ≤ l then A (l - n l) else A l
         | .down => if l + n l ≤ 31 then A (l + n l) else A l
         | .xor => A (l ^^^ n l)) s t) ∧
     (Issues (.elect h d) s c → ∃ t, exec (.elect h d) s = .next t ∧
       LaneNow c .rne false d (fun l x => (x = 0 ∨ x = 1) ∧ (x = 1 ↔ ∀ j, hasLane c.act j = true → l ≤ j)) s t) ∧
     (Issues (.umov h ty d a b) s c → c.act ≠ 0 →
       ((∀ l, hasLane c.act l = true → B l = B c.low) → ∃ t, exec (.umov h ty d a b) s = .next t ∧
         LaneNow c .rne (Ty.wide ty) d (fun _ x => x = A (n c.low)) s t) ∧
       ((∃ l, hasLane c.act l = true ∧ B l ≠ B c.low) → ∃ x, exec (.umov h ty d a b) s = .next (takeTrap s.begun c.t x) ∧
         x.code = 0x20 ∧ x.pc = c.pc ∧ x.bundle = c.mask ∧ x.skip = 0 ∧
         ∀ l, hasLane x.mask l = true ↔ hasLane c.act l = true ∧ B l ≠ B c.low)))

/-- R55, R270-R273: VOTE, TRED, TSCAN and MATCH over the lanes of Active, or under `.seg` over those with the lane's own item.
The integer operations of TRED do not depend on the tree, and those of TSCAN take the lanes up to the lane, or before it; f32
sums follow the pairwise tree of R106. R55, R272: under `.all` a lane of Active waits with its contribution, and a lane whose
guard is false has reached the instance, while some live thread that is not HELD is outside the bundle and has neither come to
the instance to wait there nor reached it; where no such thread is left, the instance completes for the lanes of Active with all
those that joined it from other bundles: each gets the result over all their contributions and goes on.
The model's choice, not the spec's: what log entry 26 names. -/
def Obligations.TroupeWide : Prop :=
  (∀ (h : Hdr) (sc : XScope) (d a : Opd) (s : State) (c : Ctx), sc ≠ .all →
     (c.act = (s.troupe c.t).liveNonHeld ∨ (s.runOf c.t).determ = false) →
     let part := fun l j => hasLane c.act j = true ∧ (sc = .seg → (s.thread c.t j).item = (s.thread c.t l).item)
     let parts := fun l => (lanes c.act).filter fun j => sc != .seg || (s.thread c.t j).item == (s.thread c.t l).item
     (∀ k, Issues (.vote h k sc d a) s c →
       let P := fun j => readWord s.begun c j a 0 ≠ 0
       ∃ t, exec (.vote h k sc d a) s = .next t ∧ LaneNow c .rne false d (fun l x => match k with
         | .any => (x = 0 ∨ x = 1) ∧ (x = 1 ↔ ∃ j, part l j ∧ P j)
         | .every => (x = 0 ∨ x = 1) ∧ (x = 1 ↔ ∀ j, part l j → P j)
         | .same => (x = 0 ∨ x = 1) ∧ (x = 1 ↔ ∀ j k, part l j → part l k → (P j ↔ P k))
         | .ballot => ∀ i, x.getLsbD i = true ↔ part l i ∧ P i) s t) ∧
     (∀ ty op, Issues (.tred h op sc ty d a) s c → Ty.isInt ty = true → Ty.width ty = 32 ∨ Ty.width ty = 64 →
       let A := fun j => readTy s.begun c ty j a 0
       ∃ t, exec (.tred h op sc ty d a) s = .next t ∧ LaneNow c .rne (Ty.wide ty) d (fun l x => match op with
         | .add => Holds ty false ((parts l).map fun j => intOf ty (A j)).sum x
         | .min => (∃ j, part l j ∧ intOf ty x = intOf ty (A j)) ∧ ∀ j, part l j → intOf ty x ≤ intOf ty (A j)
         | .max => (∃ j, part l j ∧ intOf ty x = intOf ty (A j)) ∧ ∀ j, part l j → intOf ty (A j) ≤ intOf ty x
         | .and => ∀ i, x.getLsbD i = true ↔ ∀ j, part l j → (A j).getLsbD i = true
         | .or => ∀ i, x.getLsbD i = true ↔ ∃ j, part l j ∧ (A j).getLsbD i = true
         | .xor => ∀ i, x.getLsbD i = ((parts l).countP (fun j => (A j).getLsbD i) % 2 == 1)) s t) ∧
     (∀ op, Issues (.tred h op sc .f32 d a) s c → ∃ t, exec (.tred h op sc .f32 d a) s = .next t ∧
       LaneNow c .rne false d (fun l x => x =
         tredVal op .f32 ((parts l).map fun j => (j, readTy s.begun c .f32 j a 0))) s t) ∧
     (∀ ty op excl, Issues (.tscan h op sc ty excl d a) s c →
       ∃ t, exec (.tscan h op sc ty excl d a) s = .next t ∧ LaneNow c .rne (Ty.wide ty) d (fun l x =>
         match (parts l).filter fun j => if excl then j < l else j ≤ l with
         | [] => x = redIdentity op ty
         | j :: r => x = canonF ty ((r.map fun i => readTy s.begun c ty i a 0).foldl (redStep op ty) (readTy s.begun c ty j a 0))) s t) ∧
     (∀ ty, Issues (.matchv h sc ty d a) s c → ∃ t, exec (.matchv h sc ty d a) s = .next t ∧
       LaneNow c .rne false d (fun l x => ∀ i, x.getLsbD i = true ↔
         part l i ∧ readTy s.begun c ty i a 0 = readTy s.begun c ty l a 0) s t)) ∧
  (∀ (h : Hdr) (d a : Opd) (s : State) (c : Ctx), Awake c s → c.act ≠ 0 →
     (∀ l, hasLane c.mask l = true → (s.thread c.t l).pc = c.pc) →
     let R := (s.troupe c.t).reachedAt c.pc
     let waits := fun l => (s.thread c.t l).waitsAll c.pc
     let expected := fun l => l < 32 ∧ (s.thread c.t l).st ≠ .drained ∧ (s.thread c.t l).st ≠ .held
     let all := fun (i : Instr) (ty : Ty) (x : Nat → Dword) => Issues i s c →
       ((∃ l, expected l ∧ waits l = false ∧ hasLane R l = false ∧ hasLane c.mask l = false) →
         ∃ t, exec i s = .next t ∧ OnlyTroupe c.t s t ∧ (∀ k, (t.troupe c.t).reg k = (s.troupe c.t).reg k) ∧
           (∀ l, t.thread c.t l = if hasLane c.act l then (s.thread c.t l).waitAt c.hdr d ty (.all i (x l))
             else if hasLane c.mask l then (s.thread c.t l).advance c.hdr else s.thread c.t l) ∧
           ∀ l, hasLane ((t.troupe c.t).reachedAt c.pc) l = (hasLane R l || hasLane c.mask l && !hasLane c.act l)) ∧
       ((∀ l, expected l → waits l = true ∨ hasLane R l = true ∨ hasLane c.mask l = true) →
         (∀ l < 32, waits l = true → (∃ v, (s.thread c.t l).wait = .all i v) ∧
           (s.thread c.t l).info.d = d ∧ (s.thread c.t l).info.ty = ty) →
         let ps := (List.range 32).filter fun l => hasLane c.act l || waits l
         let xs := ps.map fun l => (l, if hasLane c.act l then x l else (s.thread c.t l).contribution)
         let gets := match d with
           | .s _ => ps.take 1
           | _ => ps
         ∃ t, exec i s = .next t ∧ (∀ y, t.mem.byte y = s.mem.byte y) ∧ (∀ v, v ≠ c.t → t.troupe v = s.troupe v) ∧
           (∀ l ∈ gets, Gets (t.troupe c.t) (Ty.wide ty) d l (wideResult i xs l)) ∧
           (∀ k, k ∉ (gets.flatMap fun l => (destWrites (Ty.wide ty) d l 0).map Prod.fst) →
             (t.troupe c.t).reg k = (s.troupe c.t).reg k) ∧
           (∀ l < 32, t.thread c.t l = if hasLane c.act l then ((s.thread c.t l).waitAt c.hdr d ty (.all i (x l))).left
             else if waits l then (s.thread c.t l).left
             else if hasLane c.mask l then (s.thread c.t l).advance c.hdr else s.thread c.t l) ∧
           (t.troupe c.t).reachedAt c.pc = 0)
     (∀ k, all (.vote h k .all d a) .n32 fun l => (readWord s.begun c l a 0).setWidth 64) ∧
     (∀ op ty, all (.tred h op .all ty d a) ty fun l => readTy s.begun c ty l a 0) ∧
     (∀ op ty excl, all (.tscan h op .all ty excl d a) ty fun l => readTy s.begun c ty l a 0) ∧
     (∀ ty, all (.matchv h .all ty d a) .n32 fun l => readTy s.begun c ty l a 0))

/-- R111, R115, R277: MMA with a parameter block that passes its checks starts one operation of class mma, which keeps the
block, the operand registers with their words, and the records it names; a block that fails traps, and a counter at 63 stalls
the bundle. R278, R281: ACCLD, ACCST, ACCZ and LDSCL start one operation of class mma each; the loads follow the stores that
stand in the troupe's store queue (R265). R279, R119: ACCOUT with a block and addresses that pass their checks starts one
operation of class mma, which keeps the block, its addresses and where its draws begin; under mode sr the generator, or the
conversion count of the issuing lane in a deterministic run, moves on by one for each element. R116, R281: RSVOP reserves the
lowest free range of its length in the stage's operand buffer for its record and owes 1, or owes 0 where there is none. RLSOP
releases a record; its range is free again once no operation of the troupe uses it.
The model's choice, not the spec's: what log entries 18 and 20 name. -/
def Obligations.MatrixInstructions : Prop :=
  (∀ (h : Hdr) (a : Opd) (s : State) (c : Ctx), Issues (.mma h a) s c → c.act ≠ 0 →
     let tr := s.troupe c.t
     let ws := (List.range 4).map fun k => readPart s.begun c c.low a k 0
     let b := mmaBlock ws
     let word := fun (base w : Nat) => let k := vKey (base + w / 32) (w % 32); (k, readReg s.begun tr k 0)
     (mmaCheck (s.runOf c.t) tr b = none → tr.counter .mma < 63 → ∃ t, exec (.mma h a) s = .next t ∧
       Started c .mma (.mma ws ((List.range (32 * (shapeRegs b.shape).1)).map (word b.abase) ++
           (List.range (32 * (shapeRegs b.shape).2)).map (word b.bbase))
         (tr.record b.arec) (tr.record b.brec) [] [] [] false ((s.thread c.t c.low).selFlag c.hdr)) [] s t) ∧
     (mmaCheck (s.runOf c.t) tr b = none → 63 ≤ tr.counter .mma → ∃ t, exec (.mma h a) s = .next t ∧ OnlyTroupe c.t s t ∧
       ∀ l, t.thread c.t l = if hasLane c.mask l then { s.thread c.t l with st := .stalled, wait := .counter .mma 62 }
         else s.thread c.t l) ∧
     (∀ x, mmaCheck (s.runOf c.t) tr b = some x → ∃ v, (∀ n, x.2 = some n → v = BitVec.ofNat 64 n) ∧
       (x.1 = 0x01 → x.2 = none → v = c.pc.setWidth 64) ∧ TrapsAll (.mma h a) s c x.1 v)) ∧
  (∀ (h : Hdr) (base : Opd) (tile : Fin 64) (s : State) (c : Ctx), c.act ≠ 0 →
     let x := readPair s.begun c c.low base 0
     let a := physOf s c.t c.low x
     (s.troupe c.t).counter .mma < 63 →
     (Issues (.accld h base tile) s c → Agree c (readPair s.begun c · base 0) → tile.val < (s.runOf c.t).acct →
       engineAddr s.begun c.t x 256 16384 false = none → ∃ t, exec (.accld h base tile) s = .next t ∧
         Started c .mma (.accld tile.val a) (storeIds s c.t) s t) ∧
     (Issues (.accst h base tile) s c → Agree c (readPair s.begun c · base 0) → tile.val < (s.runOf c.t).acct →
       engineAddr s.begun c.t x 256 16384 true = none → ∃ t, exec (.accst h base tile) s = .next t ∧
         Started c .mma (.accst tile.val a) [] s t) ∧
     (Issues (.accz h tile) s c → tile.val < (s.runOf c.t).acct → ∃ t, exec (.accz h tile) s = .next t ∧
       Started c .mma (.accz tile.val) [] s t) ∧
     (Issues (.accz h tile) s c → (s.runOf c.t).acct ≤ tile.val → TrapsAll (.accz h tile) s c 0x02 (BitVec.ofNat 64 tile.val)) ∧
     (∀ (r : Fin 15) (n : Imm), Issues (.ldscl h r base n) s c → Agree c (readPair s.begun c · base 0) →
       n.toNat ≠ 0 → 64 ∣ n.toNat → ((s.troupe c.t).record r.val).used = true →
       n.toNat ≤ 64 * ((s.troupe c.t).record r.val).len → engineAddr s.begun c.t x 64 n.toNat false = none →
       ∃ t, exec (.ldscl h r base n) s = .next t ∧
         Started c .mma (.ldscl ((s.troupe c.t).record r.val) a n.toNat) (storeIds s c.t) s t)) ∧
  (∀ (h : Hdr) (a dest scale : Opd) (s : State) (c : Ctx), Issues (.accout h a dest scale) s c → c.act ≠ 0 →
     let u := s.begun
     let tr := s.troupe c.t
     let ws := (List.range 4).map fun k => readPart u c c.low a k 0
     let b := outBlock ws
     let x := readPair u c c.low dest 1
     let y := readPair u c c.low scale 2
     let det := (s.runOf c.t).determ
     let n := if b.int || b.rnd != 5 then 0 else b.rows * b.cols
     Agree c (readPair u c · dest 1) → Agree c (readPair u c · scale 2) → outIllop b (scale == .rz) = false →
     b.acc < (s.runOf c.t).acct → 4 ∣ b.stride → engineAddr u c.t x 4 b.rowBytes false = none →
     (∀ i < b.rows, offOf x % 2 ^ 34 + i * b.stride < 2 ^ 34 ∧
       boundsCheck u c.t (x + BitVec.ofNat 64 (i * b.stride)) b.rowBytes = none ∧
       inDerived u (physOf u c.t 0 x + i * b.stride) b.rowBytes = false) →
     (b.mx = true → engineAddr u c.t y 1 b.scales false = none ∧ inDerived u (physOf u c.t 0 y) b.scales = false) →
     tr.counter .mma < 63 →
     ∃ t, exec (.accout h a dest scale) s = .next t ∧ OnlyTroupe c.t s t ∧
       (t.troupe c.t).ops = tr.ops ++ [⟨s.nextId, .mma, .accout ws (physOf s c.t c.low x) (physOf s c.t c.low y) c.low
         (if det then tr.srSeed else tr.srState) (s.thread c.t c.low).conv (s.thread c.t c.low).item, [], [], none, false⟩] ∧
       { t.troupe c.t with threads := tr.threads, ops := tr.ops, srState := tr.srState } = tr ∧
       (t.troupe c.t).srState = (if det then tr.srState else Nat.iterate srStep n tr.srState) ∧
       ∀ l, hasLane c.mask l = true → t.thread c.t l = { (s.thread c.t l).advance c.hdr with
         conv := (s.thread c.t l).conv + BitVec.ofNat 32 (if det && l == c.low then n else 0) }) ∧
  (∀ (h : Hdr) (r : Fin 15) (d : Opd) (b : Src) (s : State) (c : Ctx), c.act ≠ 0 →
     let tr := s.troupe c.t
     let g := s.stage tr.stage
     let w := readSrcZ s.begun c c.low b 1
     let len := w.toNat / 32 % 2048
     let fits := fun o => o % 64 = 0 ∧ o + 64 * len ≤ 65536 ∧ ∀ x ∈ g.ranges, overlaps o (64 * len) x.1 x.2 = false
     (Issues (.rsvop h r d b) s c → Agree c (fun l => (readSrcZ s.begun c l b 1).setWidth 64) →
       w.toNat < 65536 → w.getLsbD 4 = false → w.toNat % 4 ≠ 3 → len ≠ 0 → len ≤ 1024 → (tr.record r.val).used = false →
       (∀ o, fits o → (∀ p, p < o → ¬fits p) → ∃ t, exec (.rsvop h r d b) s = .next t ∧ AllMoved c s t ∧
         (t.troupe c.t).recs = tset tr.recs Rec.free r.val ⟨true, w.toNat % 4, w.getLsbD 2, w.getLsbD 3, len, o⟩ ∧
         (t.stage tr.stage).ranges = g.ranges ++ [(o, 64 * len)] ∧
         (t.troupe c.t).pend = tr.pend ++ owedBy c s (results c false d fun _ => 1) ∧
         ∀ k, (t.troupe c.t).reg k = tr.reg k) ∧
       ((∀ o, ¬fits o) → ∃ t, exec (.rsvop h r d b) s = .next t ∧ LaneLate c .rne (results c false d fun _ => 0) s t)) ∧
     (Issues (.rlsop h r) s c → (tr.record r.val).used = true → tr.freeing = [] →
       let range := (tr.record r.val).range
       ∃ t, exec (.rlsop h r) s = .next t ∧ AllMoved c s t ∧ (t.troupe c.t).recs = tset tr.recs Rec.free r.val Rec.free ∧
         (tr.ops.any (fun o => o.usesRange range) = true →
           (t.troupe c.t).freeing = [range] ∧ (t.stage tr.stage).ranges = g.ranges) ∧
         (tr.ops.any (fun o => o.usesRange range) = false →
           (t.troupe c.t).freeing = [] ∧ (t.stage tr.stage).ranges = g.ranges.filter fun x => x != range)) ∧
     (Issues (.rlsop h r) s c → (tr.record r.val).used = false → ∃ t, exec (.rlsop h r) s = .next t ∧
       ThreadsGo c (fun _ th => th.advance c.hdr) s t))

/-- R104, R112-R115, R278, R283: the matrix unit of a stage serves the MMA-class operations of its troupes one at a time, in the
order of their issues. It reads an MMA's operand words as they stand, or as they stood at issue where a register has been
written since; then it replaces each element of the accumulator by the sum of R104, and the counter falls. ACCZ zeroes a tile,
and ACCLD, once the stores before it are performed and no tile it reads is waited for, loads one, each byte as a derived tile
served it or as memory holds it.
The model's choice, not the spec's: what log entries 17, 19 and 141 name. -/
def Obligations.MatrixUnit : Prop :=
  ∀ (s : State) (t : Nat) (o : EngOp),
    let tr := s.troupe t
    headMma tr = some o →
    let ended := fun (u : State) => (u.troupe t).ops = tr.ops.filter fun p => p.id != o.id
    (∀ blk regs ra rb x y z flag, o.kind = .mma blk regs ra rb x y z false flag → unitTurn s t o = true →
      ∃ u words, exec (.operandReadCompletion t o.id) s = .next u ∧ words.length = regs.length ∧
        (∀ i, (h : i < words.length) → words[i] = tr.reg ((regs.map Prod.fst).getD i 0) ∨ words[i] = (regs.map Prod.snd).getD i 0) ∧
        (u.troupe t).ops = tr.ops.map fun p => if p.id = o.id then
          ⟨o.id, o.cls, .mma blk [] ra rb words (if (mmaBlock blk).arec = 15 then [] else recBytes s tr.stage ra)
            (if (mmaBlock blk).brec = 15 then [] else recBytes s tr.stage rb) true flag, o.after, o.taken, o.marks, o.done⟩ else p) ∧
    (∀ blk regs ra rb words sa sb flag, o.kind = .mma blk regs ra rb words sa sb true flag → unitTurn s t o = true →
      ∃ u, exec (.mmaCompletion t o.id) s = .next u ∧ ended u ∧
        let m := mmaArgs blk ra rb words sa sb
        (∀ i < 64, ∀ j < shapeN m.blk.shape,
          tileElem (u.troupe t) m.blk.acc i j = mmaElem m (tileElem tr m.blk.acc i j) i j) ∧
        { u.troupe t with ops := tr.ops, tiles := tr.tiles } = tr ∧ ∀ x, u.mem.byte x = s.mem.byte x) ∧
    (∀ tile, o.kind = .accz tile → unitTurn s t o = true → ∃ u, exec (.mmaCompletion t o.id) s = .next u ∧ ended u ∧
      (∀ i < 64, ∀ j < 64, tileElem (u.troupe t) tile i j = 0) ∧
      ∀ k, (k < 4096 * tile ∨ 4096 * tile + 4096 ≤ k) → tget (u.troupe t).tiles 0 k = tget tr.tiles 0 k) ∧
    (∀ tile a, o.kind = .accld tile a → unitTurn s t o = true → (∀ i ∈ o.after, accDone s i = true) →
      engineStale s o.untaken = [] → waitsTile s (.engine t o.id) = false → engineMayRead s o.untaken = true →
      (∀ r ∈ o.untaken, poisoned s r.1 r.2 = false) → ∃ u, exec (.mmaCompletion t o.id) s = .next u ∧ ended u ∧
        ∀ i < 64, ∀ j < 64, (tileElem (u.troupe t) tile i j).toNat = leNat ((List.range 4).map fun k =>
          let p := a + 4 * (64 * i + j) + k
          tget o.taken (s.mem.byte p) p))

/-- R120, R123, R284, R285: COPY of one record that can be read and passes its checks enters one copy, with a piece for each run
of bytes and each target, raises the counter by one, and, unless the record says NOPRES, clears P on the lines it will write. A
COPY by a troupe that is no producer traps. R285: COPY of several records issues them in order: each enters a copy and raises
the counter by one; where one cannot be read yet, those before it stay issued, and the instruction goes on with it when it
issues again. R128, R286, R289: COPYL enters one linear request for each lane of Active and raises the counter of class gather
by one, and a lane whose request has a global address stands at the instruction; CSTAT owes the five engine counters as they
stand, six bits each. R287, R288: COLL with a record that can be read and passes its checks, GROUP included, enters one
collective of this rank, raises the counter of class coll by one, and clears P on the lines of DST.
The model's choice, not the spec's: what log entries 37, 38, 40 and 44 name. -/
def Obligations.CopiesAndCollectives : Prop :=
  (∀ (h : Hdr) (base : Opd) (n : Src) (s : State) (c : Ctx), Issues (.copy h base n) s c → c.act ≠ 0 →
     let u := s.begun
     let x := readPair u c c.low base 0
     let k := (readSrcZ u c c.low n 1).toNat
     Agree c (readPair u c · base 0) → Agree c (fun l => (readSrcZ u c l n 1).setWidth 64) →
     (troupeNo c.t ≠ (s.runOf c.t).producer → TrapsAll (.copy h base n) s c 0x19 x) ∧
     (troupeNo c.t = (s.runOf c.t).producer → k = 0 ∨ 16 < k → TrapsAll (.copy h base n) s c 0x01 (c.pc.setWidth 64)) ∧
     (∀ bs shb, troupeNo c.t = (s.runOf c.t).producer → k = 1 → begunRecords s c = 0 → engineAddr u c.t x 64 64 false = none →
       (s.troupe c.t).counter .copy < 63 → recordBytes u c.t c.low x 64 = some bs →
       let r := copyRec bs
       let sh := if r.kind = 2 then shapeRec shb else ShapeRec.none
       (r.kind = 2 → recordBytes u c.t c.low r.shape 32 = some shb) → recCheck u c.t r = none → recCheck2 u c.t r sh (r.kind == 2) = none →
       (r.kind = 2 → shapeInside u c.t r = true) →
       let y := r.dstAddr sh
       let chunks := (dstTargets u c.t y).zipIdx.flatMap fun d => (r.spans sh).flatMap fun j =>
         spanPieces (srcAt u c.t (r.srcAddr sh) 0) d.1 d.2 j
       ∃ t cp, exec (.copy h base n) s = .next t ∧ AllMoved c s t ∧ t.copies = s.copies ++ [cp] ∧
         (cp.id = s.nextId ∧ cp.t = c.t ∧ cp.lane = none ∧ cp.chunks = chunks ∧ cp.pres = r.pres ∧ cp.after = storeIds s c.t ∧
           cp.ended = false ∧ cp.parked = false ∧ cp.stands = false ∧ cp.wps.length = (dstTargets u c.t y).length) ∧
         (t.troupe c.t).ops = (s.troupe c.t).ops ++ [⟨s.nextId + 1, .copy, .copies [s.nextId], [], [], none, false⟩] ∧
         (∀ l, tget t.pclear 0 l = if r.pres = true ∧ l ∈ pieceLines chunks then s.nextId + 1 else tget s.pclear 0 l) ∧
         (∀ a, t.mem.byte a = s.mem.byte a) ∧ (∀ a, (t.troupe c.t).reg a = (s.troupe c.t).reg a))) ∧
  (∀ (h : Hdr) (base : Opd) (n : Src) (s : State) (c : Ctx) (chain : Nat → State), Issues (.copy h base n) s c → c.act ≠ 0 →
     let x := readPair s.begun c c.low base 0
     let k := (readSrcZ s.begun c c.low n 1).toNat
     let k0 := begunRecords s c
     let issues := fun m => ∀ i, k0 ≤ i → i < m → issueRecord (chain i) c (x + BitVec.ofNat 64 (64 * i)) = some (.inl (chain (i + 1)))
     Agree c (readPair s.begun c · base 0) → Agree c (fun l => (readSrcZ s.begun c l n 1).setWidth 64) →
     troupeNo c.t = (s.runOf c.t).producer → 1 ≤ k → k ≤ 16 → engineAddr s.begun c.t x 64 (64 * k) false = none →
     k0 ≤ k → (s.troupe c.t).counter .copy + (k - k0) ≤ 63 → chain k0 = s.begun →
     (issues k → ∃ t, exec (.copy h base n) s = .next t ∧ t.copies = (chain k).copies ∧
       t.copies.length = s.copies.length + (k - k0) ∧
       (t.troupe c.t).counter .copy = (s.troupe c.t).counter .copy + (k - k0) ∧ begunRecords t c = 0 ∧ AllMoved c s t) ∧
     (∀ m, k0 ≤ m → m < k → issues m → issueRecord (chain m) c (x + BitVec.ofNat 64 (64 * m)) = none →
       ∃ t, exec (.copy h base n) s = .next t ∧ t.copies = (chain m).copies ∧ t.copies.length = s.copies.length + (m - k0) ∧
         (t.troupe c.t).counter .copy = (s.troupe c.t).counter .copy + (m - k0) ∧ begunRecords t c = m ∧
         ∀ l, t.thread c.t l = if hasLane c.mask l then { s.thread c.t l with st := .stalled, wait := .hazard }
           else s.thread c.t l)) ∧
  (∀ (h : Hdr) (s : State) (c : Ctx), c.act ≠ 0 →
     let u := s.begun
     (∀ nopres dst src n wp, Issues (.copyl h nopres dst src n wp) s c →
       let sv := fun l => readPair u c l src 0
       let dv := fun l => readPair u c l dst 6
       let nv := fun l => (readSrcZ u c l n 1).toNat
       let wv := fun l => if wp = .rz then none else some (readPair u c l wp 2)
       (∀ l, hasLane c.act l = true → copylCheck u c.t l (sv l) (dv l) (nv l) (wv l) = none) →
       (s.troupe c.t).counter .gather < 63 →
       ∃ t cs, exec (.copyl h nopres dst src n wp) s = .next t ∧ t.copies = s.copies ++ cs ∧
         (∀ l, t.thread c.t l = if hasLane c.act l = true ∧ ¬(isLocalForm (sv l) = true ∧ isLocalForm (dv l) = true)
             then (s.thread c.t l).standAt c.hdr
           else if hasLane c.mask l then (s.thread c.t l).advance c.hdr else s.thread c.t l) ∧
         cs.map (fun x => (x.id, x.t, x.lane, x.pres, x.pc)) = (lanes c.act).zipIdx.map
           (fun l => (s.nextId + l.2, c.t, some l.1, !nopres, c.pc)) ∧
         cs.map Copy.chunks = ((lanes c.act).map fun l => (dstTargets u c.t (dv l)).zipIdx.flatMap fun d =>
           spanPieces (srcAt u c.t (sv l) 0) d.1 d.2 ⟨0, 0, nv l, false, false⟩) ∧
         (t.troupe c.t).ops = (s.troupe c.t).ops ++ [⟨s.nextId + (lanes c.act).length, .gather,
           .copies ((List.range (lanes c.act).length).map fun k => s.nextId + k), [], [], none, false⟩] ∧
         (∀ a, t.mem.byte a = s.mem.byte a)) ∧
     (∀ d, Issues (.cstat h d) s c → ∃ t, exec (.cstat h d) s = .next t ∧
       LaneLate c .rne (results c false d fun _ => BitVec.ofNat 64 (
         let n := (s.troupe c.t).counter
         n .copy + 2 ^ 6 * n .gather + 2 ^ 12 * n .mma + 2 ^ 18 * n .coll + 2 ^ 24 * n .remote)) s t)) ∧
  (∀ (h : Hdr) (base : Opd) (s : State) (c : Ctx) (bs gb : List Byte), Issues (.coll h base) s c → c.act ≠ 0 →
     let u := s.begun
     let x := readPair u c c.low base 0
     let r := collRec bs
     let group := (List.range r.nranks).map fun k => leNat ((gb.drop (2 * k)).take 2)
     let a := physOf u c.t c.low r.dst
     Agree c (readPair u c · base 0) → engineAddr u c.t x 64 64 false = none → recordBytes u c.t c.low x 64 = some bs →
     collCheck u c.t r = none → recordBytes u c.t c.low r.group (2 * r.nranks) = some gb → (∀ g ∈ group, g < 2 ^ 14) →
     group.getD r.rank 0 = skid s → localBounds u c.t r.src 0 r.srcBytes = none → localBounds u c.t r.dst 0 r.dstBytes = none →
     (r.wp ≠ 0 → localBounds u c.t r.wp 0 16 = none) → inDerived u a r.dstBytes = false → (s.troupe c.t).counter .coll < 63 →
     ∃ t k, exec (.coll h base) s = .next t ∧ AllMoved c s t ∧ t.colls = s.colls ++ [k] ∧
       (k.id = s.nextId ∧ k.t = c.t ∧ k.bytes = bs ∧ k.group = group ∧ k.remaining = r.dstBytes ∧ k.joined = [r.rank] ∧
         k.landedB = [] ∧ k.ended = false ∧ k.wp.isSome = decide (r.wp ≠ 0)) ∧
       (t.troupe c.t).ops = (s.troupe c.t).ops ++ [⟨s.nextId + 1, .coll, .copies [s.nextId], storeIds s c.t, [], none, false⟩] ∧
       (∀ l, tget t.pclear 0 l = if l ∈ linesOf [(a, r.dstBytes)] then s.nextId + 1 else tget s.pclear 0 l) ∧
       ∀ b, t.mem.byte b = s.mem.byte b)

/-- R134-R136, R291: DREG with a record and descriptors that can be read and pass the checks of R136 enters the derivation under
the lowest free id, which it writes at once: every tile is STALE, and W is set on each line that holds a base element; it waits
for its troupe's stores first (R265), and for a write of the base that its home holds already (R138). R147, R148, R290-R292:
DUNREG removes an entry of the run's partition that feeds no other entry, and writes 1; it writes 0 where there is none or it
feeds another, and waits while a tile is BUSY or DIRTY. DSTAT owes the number of tiles that are not FRESH, all ones where the
entry is not the partition's; in a strict deterministic run it traps NONDET on an entry of the partition alone. DFRESH makes
every STALE tile BUSY.
The model's choice, not the spec's: what log entry 48 names. -/
def Obligations.Derivations : Prop :=
  (∀ (h : Hdr) (d base : Opd) (s : State) (c : Ctx), Issues (.dreg h d base) s c → c.act ≠ 0 →
     let x := readPair s.begun c c.low base 0
     Agree c (readPair s.begun c · base 0) → dregAddr s.begun c.t x 64 64 = none → storeIds s c.t ≠ [] →
     ∃ t, exec (.dreg h d base) s = .next t ∧ ThreadsGo c (fun _ th => { th with st := .stalled, wait := .hazard }) s t) ∧
  (∀ (h : Hdr) (d base : Opd) (s : State) (c : Ctx) (rb bb db : List Byte) (id : Nat) (e : Entry),
     Issues (.dreg h d base) s c → c.act ≠ 0 →
     let u := s.begun
     let x := readPair u c c.low base 0
     let r := regRec rb
     Agree c (readPair u c · base 0) → storeIds s c.t = [] → dregAddr u c.t x 64 64 = none → recordBytes u c.t c.low x 64 = some rb →
     dregAddr u c.t r.bdesc 32 32 = none → recordBytes u c.t c.low r.bdesc 32 = some bb →
     dregAddr u c.t r.ddesc 32 32 = none → recordBytes u c.t c.low r.ddesc 32 = some db →
     dregCheck u c.t r (descriptor bb).1 (descriptor db).1 ((descriptor bb).2 || (descriptor db).2) = .inr (id, e) →
     (heldClosed u 0 e.base.rowRanges = true → ∃ t, exec (.dreg h d base) s = .next t ∧
       ThreadsGo c (fun _ th => { th with st := .stalled, wait := .hazard }) s t) ∧
     (heldClosed u 0 e.base.rowRanges = false → ∃ t, exec (.dreg h d base) s = .next t ∧ t.entry id = e ∧ e.used = true ∧ e.part = (s.runOf c.t).part ∧ id < 128 ∧
       (s.entry id).used = false ∧ (∀ k, k ≠ id → t.entry k = s.entry k) ∧
       (∀ k < 65536, (t.tile id k).st = .stale) ∧
       (∀ l, l ∈ t.wset ↔ l ∈ s.wset ∨ l ∈ e.base.elemLines) ∧
       (∀ l ∈ writers c d, Gets (t.troupe c.t) false d l (BitVec.ofNat 64 id)) ∧
       (∀ k, k ∉ destKeys c false d → (t.troupe c.t).reg k = (s.troupe c.t).reg k) ∧
       AllMoved c s t ∧ ∀ a, t.mem.byte a = s.mem.byte a)) ∧
  (∀ (h : Hdr) (d : Opd) (b : Src) (s : State) (c : Ctx), c.act ≠ 0 → Agree c (fun l => (readSrcZ s.begun c l b 1).setWidth 64) →
     let id := (readSrcZ s.begun c c.low b 1).toNat
     let e := s.entry id
     let own := id < 128 ∧ e.used = true ∧ e.part = (s.runOf c.t).part
     (Issues (.dunreg h d b) s c →
       ((¬own ∨ feedsOther s id e = true) → ∃ t, exec (.dunreg h d b) s = .next t ∧
         LaneNow c .rne false d (fun _ x => x = 0) s t) ∧
       (own → feedsOther s id e = false → tilesBusy s id = true → ∃ t, exec (.dunreg h d b) s = .next t ∧
         ThreadsGo c (fun _ th => { th with st := .stalled, wait := .hazard }) s t) ∧
       (own → feedsOther s id e = false → tilesBusy s id = false → ∃ t, exec (.dunreg h d b) s = .next t ∧
         (t.entry id).used = false ∧ (∀ k, k ≠ id → t.entry k = s.entry k) ∧ AllMoved c s t ∧
         (∀ l ∈ t.wset, l ∈ s.wset) ∧
         (∀ l ∈ s.wset, l ∉ e.base.elemLines → l ∈ t.wset) ∧
         (∀ l ∈ writers c d, Gets (t.troupe c.t) false d l 1) ∧ ∀ a, t.mem.byte a = s.mem.byte a)) ∧
     (Issues (.dstat h d b) s c → (s.runOf c.t).determ = false → ∃ t, exec (.dstat h d b) s = .next t ∧
       LaneLate c .rne (results c false d fun _ => BitVec.ofNat 64 (
         if id < 128 && e.used && e.part == (s.runOf c.t).part then
           ((List.range e.der.tiles).filter fun k => (s.tile id k).st != .fresh).length else 0xFFFFFFFF)) s t) ∧
     (Issues (.dstat h d b) s c → ¬own → ∃ t, exec (.dstat h d b) s = .next t ∧
       LaneLate c .rne (results c false d fun _ => 0xFFFFFFFF) s t) ∧
     (Issues (.dstat h d b) s c → own → (s.runOf c.t).determ = true → (s.runOf c.t).strict = true →
       TrapsAll (.dstat h d b) s c 0x41 (c.pc.setWidth 64)) ∧
     (Issues (.dfresh h b) s c → own → e.der.tiles ≤ 65536 → ∃ t, exec (.dfresh h b) s = .next t ∧ AllMoved c s t ∧
       (∀ k < e.der.tiles, (t.tile id k).st = if (s.tile id k).st = .stale then .busy else (s.tile id k).st) ∧
       (t.slice e.home).queue = (s.slice e.home).queue ++
         ((List.range e.der.tiles).filter fun k => (s.tile id k).st == .stale).map fun k => (id, k)) ∧
     (Issues (.dfresh h b) s c → ¬own → ∃ t, exec (.dfresh h b) s = .next t ∧ ThreadsGo c (fun _ th => th.advance c.hdr) s t))

/-- R294, R295, R386: TRAP traps with its immediate, and a return from its handler passes over it; an SVC whose service has no
ring traps NOSVC with the service's number in the same way. R386, R389: SVC of one lane, once its earlier accesses are performed
and its argument block has been read or can be, posts one entry of Table 25.11 into the ring that the routing table names, which
is not full: DONE of its completion slot is cleared, TAIL rises by one, NOTIFY is set, and the thread waits. Where the ring is
full it stalls. R387: under `.park` the troupe is then to be saved.
The model's choice, not the spec's: what log entries 49, 50, 51, 53 and 59 name. -/
def Obligations.SystemCalls : Prop :=
  (∀ (h : Hdr) (s : State) (c : Ctx) (d base : Opd) (b : Src), c.act ≠ 0 →
     let enters := fun (i : Instr) (code : Nat) (v : Dword) => ∃ x, exec i s = .next (takeTrap s.begun c.t x) ∧ x.reason = 0 ∧
       x.code = code ∧ x.pc = c.pc ∧ x.mask = c.act ∧ x.bundle = c.mask ∧ x.skip = c.act ∧ x.val = v
     let n := (readSrcZ s.begun c c.low b 1).toNat
     (∀ y : Imm, Issues (.trap h y) s c → enters (.trap h y) 0x30 (y.setWidth 64)) ∧
     (∀ i ∈ [Instr.svc h d base b, .svcPark h d base b], Issues i s c →
       Agree c (fun l => (readSrcZ s.begun c l b 1).setWidth 64) →
       (∀ l, hasLane c.act l = true → laneCheck s.begun c.t l .svc (readPair s.begun c l base 0) = none) →
       svcRoute s.begun c.t n = none → enters i 0x31 (BitVec.ofNat 64 n))) ∧
  (∀ (h : Hdr) (d base : Opd) (b : Src) (s : State) (c : Ctx) (l : Nat) (g : Ring) (blk : List Byte),
     c.act = laneBit l → l < 32 →
     let u := s.begun
     let x := readPair u c l base 0
     let n := (readSrcZ u c l b 1).toNat
     let a := physOf s c.t l x
     let slot := blockOf s c.t + 3072 + 16 * l
     let entry := g.base + 128 * (g.tail % 2 ^ g.cap)
     let ranges := [(slot, 16), (entry, 128), (g.desc, 32)]
     laneCheck u c.t l .svc x = none → svcRoute u c.t n = some g → arrivalIds u c = [] →
     (∀ park, let i := if park then Instr.svcPark h d base b else .svc h d base b
       Issues i s c →
       (g.full = true → ∃ t, exec i s = .next t ∧ (∀ y, t.mem.byte y = s.mem.byte y) ∧
         (t.thread c.t l).st = .stalled ∧ (t.thread c.t l).wait = .hazard ∧ (t.thread c.t l).pc = (s.thread c.t l).pc) ∧
       (g.full = false → ((svcBlock u c.t l c.pc).orElse fun _ => recordBytes u c.t l x 64) = some blk → poisoned s a 64 = false → Plainly s ranges →
         (∀ p ∈ ranges, ∀ q ∈ ranges, p ≠ q → overlaps p.1 p.2 q.1 q.2 = false) → g.tail < 2 ^ 32 → n < 2 ^ 16 →
         ∃ t, exec i s = .next t ∧
           t.mem.readN (slot + 8) 8 = 0 ∧ t.mem.readN entry 2 = n ∧ t.mem.readN (entry + 2) 1 = l ∧
           t.mem.readN (entry + 3) 1 = (if park then 1 else 0) ∧ t.mem.readN (entry + 4) 4 = (s.runOf c.t).id.toNat ∧
           t.mem.readN (entry + 16) 8 = (2 ^ 63 + slot) % 2 ^ 64 ∧ BytesAt t.mem (entry + 64) blk ∧
           t.mem.readN (g.desc + 4) 4 = (g.tail + 1) % 2 ^ 32 ∧ t.mem.readN (g.desc + 24) 8 = 1 ∧
           (t.thread c.t l).st = .waiting ∧ (t.thread c.t l).wait = .svc slot park ∧
           (t.thread c.t l).pc = (s.thread c.t l).pc ∧
           (t.troupe c.t).pendPre = (if park ∧ (s.troupe c.t).pendPre = 0 then 3 else (s.troupe c.t).pendPre) ∧
           ∀ j, hasLane c.act j = false → t.thread c.t j = if hasLane c.mask j then (s.thread c.t j).advance c.hdr else s.thread c.t j)))

/-- R296, R297, R375, Tables 19.11 and 25.3: CSRR owes the value of the control register that its operand names, on which the
lanes of Active agree, and CSRW writes it; a number that no table lists, or a write of a read-only one, traps ILLOP.
The model's choice, not the spec's: what log entries 15 and 144 name. -/
def Obligations.ControlRegisters : Prop :=
  ∀ (h : Hdr) (d a : Opd) (b : Src) (s : State) (c : Ctx), c.act ≠ 0 →
    let tr := s.troupe c.t
    let r := s.runOf c.t
    let n := (readSrcZ s.begun c c.low b 1).toNat
    let v := readWord s.begun c c.low a 0
    let bit := fun (b : Bool) k => if b then 2 ^ k else 0
    let area := if r.saveSet then 2 ^ 63 + blockOf s c.t else 0
    let fixed : List (Nat × Word) := [(0, tr.awaitLim), (1, tr.srState), (2, tr.srSeed), (3, tr.busy.setWidth 32),
      (4, BitVec.ofNat 32 (bit (s.companyOf c.t).mclost 7 + bit r.nonrepro 6 + bit r.launchCap 5 + bit r.urgency 4 +
        bit r.strict 3 + bit r.determ 2 + r.grain)),
      (0x100, BitVec.ofNat 32 tr.last.reason), (0x101, BitVec.ofNat 32 tr.last.code), (0x102, tr.last.pc), (0x103, tr.last.mask),
      (0x104, loWord tr.last.val), (0x105, hiWord tr.last.val), (0x106, tr.last.bundle), (0x107, tr.last.skip),
      (0x108, BitVec.ofNat 32 area), (0x109, BitVec.ofNat 32 (area / 2 ^ 32))]
    let lanes' := (List.range 32).flatMap fun l =>
      [(0x120 + l, (frozenOf s c.t l).pc), (0x140 + l, BitVec.ofNat 32 (lstate (frozenOf s c.t l)))]
    let mine := fun l => hasLane tr.handlers l = true ∧ (frozenOf s c.t l).st ≠ .held
    Agree c (fun l => (readSrcZ s.begun c l b 1).setWidth 64) →
    (IssuesPriv (.csrr h d b) s c →
      (∀ x, (n, x) ∈ fixed ++ lanes' → ∃ t, exec (.csrr h d b) s = .next t ∧
        LaneLate c .rne (results c false d fun _ => x.setWidth 64) s t) ∧
      (n ∉ (fixed ++ lanes').map Prod.fst → TrapsAll (.csrr h d b) s c 0x01 (c.pc.setWidth 64))) ∧
    (IssuesPriv (.csrw h a b) s c → Agree c (fun l => (readWord s.begun c l a 0).setWidth 64) →
      let keeps := fun (t : State) (tr' : Troupe) => OnlyTroupe c.t s t ∧ AllMoved c s t ∧
        { t.troupe c.t with threads := tr.threads } = tr'
      (n = 0 → ∃ t, exec (.csrw h a b) s = .next t ∧ keeps t { tr with awaitLim := v }) ∧
      (n = 0x107 → ∃ t skip, exec (.csrw h a b) s = .next t ∧ keeps t { tr with last := { tr.last with skip := skip } } ∧
        ∀ l < 32, (mine l → hasLane skip l = hasLane v l) ∧ (¬mine l → hasLane skip l = hasLane tr.last.skip l)) ∧
      (∀ l < 32, n = 0x120 + l → ∃ t, exec (.csrw h a b) s = .next t ∧ keeps t (if hasLane tr.handlers l = true ∧
          (frozenOf s c.t l).st ≠ .held then { tr with
            frozen := tput tr.frozen l { frozenOf s c.t l with pc := v }, written := tr.written ||| laneBit l } else tr)) ∧
      (n ≠ 0 → n ≠ 0x107 → ¬(0x120 ≤ n ∧ n < 0x140) → TrapsAll (.csrw h a b) s c 0x01 (c.pc.setWidth 64)))

/-- R299, R300, R344: LAUNCH of a packet that can be read, once earlier accesses are performed, writes it into the slot that
TAIL of a queue of the run's partition names, with VALID and the launcher's identity, moves TAIL on by one and sets NOTIFY, and
owes 1, and it stalls while one of those stores cannot be made yet; where the queue does not serve, is another partition's or is
full, it owes 0. R300-R301: GATE goes on while the run's gate is open, dropping the stage's RO cache, and waits while it is
shut; RELEASE records what the company's milestone must follow: what a release at die scope by its threads follows.
The model's choice, not the spec's: what log entries 49, 51, 52 and 59 name. -/
def Obligations.LaunchAndRelease : Prop :=
  (∀ (h : Hdr) (d base : Opd) (b : Src) (s : State) (c : Ctx) (bs : List Byte), IssuesPriv (.launch h d base b) s c → c.act ≠ 0 →
     let u := s.begun
     let x := readPair u c c.low base 0
     let q := (readSrcZ u c c.low b 1).toNat
     let k := s.queue q
     let tail := s.mem.readN (k.qcb + 12) 4
     let slot := k.ring + 128 * (tail % 2 ^ k.capLog2)
     let ranges := [(slot, 128), (k.qcb, 32)]
     Agree c (readPair u c · base 0) → Agree c (fun l => (readSrcZ u c l b 1).setWidth 64) →
     engineAddr u c.t x 128 128 false = none → arrivalIds u c = [] → recordBytes u c.t c.low x 128 = some bs →
     (launchable u c.t q = false → ∃ t, exec (.launch h d base b) s = .next t ∧
       LaneLate c .rne (results c false d fun _ => 0) (recordsRead s c.t) t) ∧
     (launchable u c.t q = true → deviceFree u (launchPlaces u q) = false → ∃ t, exec (.launch h d base b) s = .next t ∧
       ThreadsGo c (fun _ th => { th with st := .stalled, wait := .hazard }) s t) ∧
     (launchable u c.t q = true → Plainly s ranges → overlaps slot 128 k.qcb 32 = false →
       ∃ t, exec (.launch h d base b) s = .next t ∧ AllMoved c s t ∧
         BytesAt t.mem slot (bs.take 2 ++ leBytes 2 ((tail + 1) % 2 ^ 16) ++ (bs.drop 4).take 108) ∧
         t.mem.readN (slot + 112) 4 = (s.runOf c.t).id.toNat ∧ t.mem.readN (slot + 124) 4 = (s.troupe c.t).callIdx.toNat ∧
         t.mem.readN (k.qcb + 12) 4 = (tail + 1) % 2 ^ 32 ∧ t.mem.readN (k.qcb + 16) 8 = 1 ∧
         (t.troupe c.t).callIdx = (s.troupe c.t).callIdx + 1 ∧
         (t.troupe c.t).pend = (s.troupe c.t).pend ++ owedBy c s (results c false d fun _ => 1) ∧
         ∀ y, (y < slot ∨ slot + 128 ≤ y) → (y < k.qcb ∨ k.qcb + 32 ≤ y) → t.mem.byte y = s.mem.byte y)) ∧
  (∀ (h : Hdr) (s : State) (c : Ctx),
     (Issues (.gate h) s c → (s.runOf c.t).gateOpen = true → ∃ t, ThreadsGo c (fun _ th => th.advance c.hdr) s t ∧
       exec (.gate h) s = .next (if c.act = 0 then t else dropRo t (s.troupe c.t).stage)) ∧
     (Issues (.gate h) s c → (s.runOf c.t).gateOpen = false → ∃ t, exec (.gate h) s = .next t ∧
       ThreadsGo c (fun _ th => th.waitAt c.hdr .rz .n32 .gate) s t) ∧
     (Issues (.release h) s c → c.act ≠ 0 → ∃ t, ThreadsGo c (fun _ th => th.advance c.hdr) s t ∧
       exec (.release h) s = .next (t.setCompany (companyKey c.t) { s.companyOf c.t with
         releases := (s.companyOf c.t).releases ++ [arrivalIds s c] })) ∧
     (Issues (.release h) s c → c.act = 0 → ∃ t, exec (.release h) s = .next t ∧ ThreadsGo c (fun _ th => th.advance c.hdr) s t))

/-- R302, Tables 25.7-25.9: in the context handler SAVECTX writes the image of its part to the area, and LOADCTX gives back what
an image that is not damaged holds: the lane records, the troupe's state or the junctions. Each stalls while the area cannot be
written or read yet.
The model's choice, not the spec's: what log entries 54, 55 and 59 name. -/
def Obligations.ContextParts : Prop :=
  ∀ (h : Hdr) (base : Opd) (s : State) (c : Ctx), c.act ≠ 0 →
    let x := readPair s.begun c c.low base 0
    let a := physOf s c.t c.low x
    let tr := s.troupe c.t
    let size := fun part => match part with
      | CtxPart.thread => 2048
      | .troupe => 256
      | .junct => 50688
    let reads := fun part => (a, size part) :: if part = CtxPart.troupe then [(a + 2048, 65536)] else []
    Agree c (readPair s.begun c · base 0) →
    (∀ part, IssuesPriv (.savectx h part base) s c → engineAddr s.begun c.t x 256 (size part) true = none →
      (part = .troupe → saveHeld s c.t = false) →
      let images := match part with
        | .thread => [(a, threadImage s c.t)]
        | .troupe => [(a, troupeImage tr), (a + 2048, operandImage s tr)]
        | .junct => [(a, junctionImage (s.companyOf c.t))]
      Plainly s (images.map fun z => (z.1, z.2.length)) →
      ∃ t, exec (.savectx h part base) s = .next t ∧ AllMoved c s t ∧ (∀ z ∈ images, BytesAt t.mem z.1 z.2) ∧
        ∀ y, (∀ z ∈ images, y < z.1 ∨ z.1 + z.2.length ≤ y) → t.mem.byte y = s.mem.byte y) ∧
    (∀ part, IssuesPriv (.savectx h part base) s c → engineAddr s.begun c.t x 256 (size part) true = none →
      part = .troupe ∧ saveHeld s c.t = true ∨
        deviceFree s ((ctxImages s c.t part).map fun z => (a + z.1, z.2.length)) = false →
      ∃ t, exec (.savectx h part base) s = .next t ∧ ThreadsGo c (fun _ th => { th with st := .stalled, wait := .hazard }) s t) ∧
    (∀ part, IssuesPriv (.loadctx h part base) s c → engineAddr s.begun c.t x 256 (size part) false = none →
      deviceMayRead s (reads part) = false →
      ∃ t, exec (.loadctx h part base) s = .next t ∧ ThreadsGo c (fun _ th => { th with st := .stalled, wait := .hazard }) s t) ∧
    (∀ part t', IssuesPriv (.loadctx h part base) s c → engineAddr s.begun c.t x 256 (size part) false = none →
      deviceMayRead s (reads part) = true →
      (match part with
        | .thread => loadThreads s.begun c.t (cleanBytes s a 2048) = some t'
        | .troupe => loadTroupe s.begun c.t (cleanBytes s a 256) (cleanBytes s (a + 2048) 65536) = .ok t'
        | .junct => loadJunctions s.begun (companyKey c.t) (cleanBytes s a 50688) = some t') →
      ∃ t, exec (.loadctx h part base) s = .next t ∧ AllMoved c t' t ∧ t.companies = t'.companies ∧
        { t.troupe c.t with threads := (t'.troupe c.t).threads } = t'.troupe c.t ∧ ∀ y, t.mem.byte y = s.mem.byte y)

/-! ### Issue, traps and steps (13_encoding.md, 25_traps.md) -/

/-- R167: an encoded instruction of which a check fails traps with the first one that does, in the order of R167, and has no
other effect; an instruction used outside its privilege traps PRIV. R159: an instruction that opens a clause while a flag of its
WAIT mask is busy stalls its bundle, and nothing else changes.
The model's choice, not the spec's: what log entries 20 and 21 name. -/
def Obligations.IssueChecks : Prop :=
  (∀ (i : Instr) (f : Fields) (s : State), fieldsOf i = some f → issuable s = true →
     let c := ctxOf s (hdrOf f)
     (∀ x, encTrap s c f (privOf i s c) = some x → exec i s = .next (takeTrap s c.t x)) ∧
     (encTrap s c f false = none → privOf i s c = true → ∃ x, exec i s = .next (takeTrap s c.t x) ∧
       x.code = 0x05 ∧ x.pc = c.pc ∧ x.mask = c.mask ∧ x.bundle = c.mask ∧ x.skip = 0 ∧ x.val = c.pc.setWidth 64)) ∧
  (∀ (i : Instr) (f : Fields) (s : State), fieldsOf i = some f → issuable s = true →
     let c := ctxOf s (hdrOf f)
     encTrap s c f (privOf i s c) = none → c.hdr.cs = true → (s.troupe c.t).busy &&& c.hdr.wait ≠ 0 →
     ∃ t, exec i s = .next t ∧ { t with troupes := s.troupes } = s ∧ (∀ v, v ≠ c.t → t.troupe v = s.troupe v) ∧
       { t.troupe c.t with threads := (s.troupe c.t).threads } = s.troupe c.t ∧
       ∀ l, t.thread c.t l = if hasLane c.mask l then { s.thread c.t l with st := .stalled, wait := .flags c.hdr.wait }
         else s.thread c.t l)

/-- R373, R374: a synchronous trap of a RESIDENT troupe whose run has a handler, no read-back being outstanding, freezes each
live thread's PC, state, clause state, return stack and predicates, and the convergence points; the live threads stand READY at
TRAPVEC, with an empty return stack and false predicates, and the troupe is in HANDLER. Every other register stays. R377: a
synchronous trap in HANDLER, or of a run without a handler, is a run fault, of which the first is recorded; no register and no
thread changes.
The model's choice, not the spec's: what log entry 21 names. -/
def Obligations.TrapEntry : Prop :=
  (∀ (s : State) (t : Nat) (x : TrapInfo),
     let tr := s.troupe t
     let u := takeTrap s t x
     let tu := u.troupe t
     tr.status = .resident → (s.runOf t).trapVec ≠ 0xFFFFFFFF → readbackOut tr = false →
     tu.status = .handler ∧ tu.last = x ∧ tu.handlers = tr.liveMask ∧ tu.cvFrozen = tr.cv ∧ (∀ k, tu.expected k = 0) ∧
     (∀ l, hasLane tr.liveMask l = true →
       (tu.thread l).st = .ready ∧ (tu.thread l).pc = (s.runOf t).trapVec ∧ (tu.thread l).rstack = [] ∧ (tu.thread l).spills = 0 ∧
       (tu.thread l).item = (tr.thread l).item ∧ (∀ k < 7, tu.reg (pKey l k) = 0) ∧
       let f := frozenOf u t l
       f.got = false ∧ f.pc = (tr.thread l).pc ∧ f.st = (tr.thread l).st ∧ f.parked = (tr.thread l).parked ∧ f.rstack = (tr.thread l).rstack ∧
         f.spills = (tr.thread l).spills ∧ f.count = (tr.thread l).count ∧ f.flga = (tr.thread l).flga ∧ f.flgb = (tr.thread l).flgb ∧
         ∀ k < 7, f.preds.getLsbD k = decide (tr.reg (pKey l k) ≠ 0)) ∧
     (∀ l, hasLane tr.liveMask l = false → tu.thread l = tr.thread l) ∧
     (∀ k, k < pKey 0 0 → tu.reg k = tr.reg k) ∧ tu.ops = tr.ops ∧ tu.recs = tr.recs ∧ tu.tiles = tr.tiles ∧
     (∀ v, v ≠ t → u.troupe v = s.troupe v) ∧ (∀ a, u.mem.byte a = s.mem.byte a) ∧ u.companies = s.companies ∧ u.runs = s.runs) ∧
  (∀ (s : State) (t : Nat) (x : TrapInfo), ((s.troupe t).status = .handler ∨ (s.runOf t).trapVec = 0xFFFFFFFF) →
     let u := takeTrap s t x
     (u.runOf t).faulted = some ((s.runOf t).faulted.getD x) ∧ { u with runs := s.runs } = s ∧
     ∀ k, k ≠ (s.companyOf t).run → u.run k = s.run k)

/-- R298, R376, Table 25.2: RTT in HANDLER holds each thread of Active WAITING; once every thread of the handler set waits so,
each goes back: HELD where it was HELD, to the RESUMEPC that the handler wrote, past its instruction where TSKIP names it, past
an AWAIT that was held on a clear P bit and has been performed since (R431), else to its frozen PC; with its return stack and
predicates, and the troupe is RESIDENT with its convergence points.
The model's choice, not the spec's: what log entries 97 and 98 name. -/
def Obligations.ReturnFromTrap : Prop :=
  ∀ (h : Hdr) (s : State) (c : Ctx), IssuesPriv (.rtt h) s c →
    let tr := s.troupe c.t
    let waits := fun l => hasLane c.act l = true ∨ ((s.thread c.t l).st = .waiting ∧ (s.thread c.t l).wait = .rtt)
    let rest := ∀ l, hasLane tr.handlers l = true → waits l
    (¬rest → ∃ t, exec (.rtt h) s = .next t ∧ ThreadsGo c (fun _ th => th.waitAt c.hdr .rz .n32 .rtt) s t) ∧
    (tr.handlers ≠ 0 → rest → c.mask = c.act → tr.pendPre = 0 → ∃ t, exec (.rtt h) s = .next t ∧
      let tu := t.troupe c.t
      tu.status = .resident ∧ tu.cv = tr.cvFrozen ∧ (∀ a, t.mem.byte a = s.mem.byte a) ∧
      (∀ k, k < pKey 0 0 → tu.reg k = tr.reg k) ∧
      ∀ l, hasLane tr.handlers l = true →
        let f0 := frozenOf s c.t l
        let f := if hasLane (tr.written ||| tr.last.skip) l then f0 else f0.now
        let th := tu.thread l
        th.rstack = f.rstack ∧ th.spills = f.spills ∧ (∀ k < 7, tu.reg (pKey l k) = boolWord (f.preds.getLsbD k)) ∧
        (l ∈ tr.frozen.map Prod.fst →
          (f.st = .held → th.st = .held) ∧
          (f.st ≠ .held → hasLane tr.written l = true →
            th.st = .ready ∧ th.pc = f.pc ∧ th.count = 0 ∧ th.flga = none ∧ th.flgb = none) ∧
          (f.st ≠ .held → hasLane tr.written l = false → hasLane tr.last.skip l = true → th.st = .ready ∧ th.pc = f.pc + 12) ∧
          (f.st ≠ .held → hasLane tr.written l = false → hasLane tr.last.skip l = false →
            th.pc = f.pc ∧ th.count = f.count ∧ th.flga = f.flga ∧ th.flgb = f.flgb ∧
            (∀ a p, f.wait = .svc a p → th.st = .waiting ∧ th.wait = .svc a p) ∧
            (∀ n, f.wait = .sleep n → th.st = .waiting ∧ th.wait = .sleep n) ∧
            ((f.st = .ready ∧ f.wait = .none) → th.st = .ready) ∧
            (∀ k n m, f.wait = .cvwait k n m → th.st = .ready ∧ th.wait = .none))))

/-- R149-R155, R164-R166: every well-formed instruction is the one its own word decodes to: the encoding keeps each operand and
modifier, at each value the tables admit.
The model's choice, not the spec's: what log entries 31, 130, 150 and 151 name. -/
def Obligations.RoundTrip : Prop := ∀ i : Instr, i.WellFormed → decode (encode i) = .ok i

/-- R149-R153 and the spec's worked encodings: IADD v3, v1, v2; LD v5, [v6+16] attached to the clause's flag; a BRA back by
three under p1; and MMA s4. -/
def Obligations.WordsDecode : Prop :=
  let h : Hdr := ⟨7, false, true, false, .none, none, none, 0⟩
  decode 0x000FF100003FF0080100DC00 = .ok (.iadd h .i32 false (.v 3) (.v 1) (.reg (.v 2))) ∧
  decode 0x000FF4800040004006015D00 = .ok (.ld { h with cs := false, sel := .a } .n32 .plain (.v 5) (.v 6) (.imm 16)) ∧
  decode 0x000FF180003FFFF7FFFFC4C0 = .ok (.bra { h with pred := 1 } (-3)) ∧
  decode 0x000F0500003FFFFE04FFDE00 = .ok (.mma { h with sel := .a, flga := some 0 } (.s 4))

/-- R51, R161, R22, R365: the bundle that a wing picks and fetches for, in either slot of a clock, is made of READY threads of
one troupe, all at one PC, so an instruction that is run finds a bundle to issue for; those of them that a register still owed
or a full stage keeps back are STALLED and are no part of it. -/
def Obligations.BundlesAreReady : Prop :=
  ∀ (s s1 s2 : State) (stage wing : Nat) (b : Bundle) (i : Instr),
    pickBundle s stage wing = some (s1, b) ∨ pickAlso s stage wing = some (s1, b) → fetchBundle s1 b = .run s2 i →
    let m := s2.cur.mask
    s2.cur.t = b.t ∧ issuable s2 = true ∧ (∀ l, hasLane m l = true → (s2.thread b.t l).st = .ready ∧
      (s2.thread b.t l).parked = false ∧ (s2.thread b.t l).pc = (s2.thread b.t (lowLane m)).pc) ∧
    (∀ l, hasLane m l = true → hasLane (readyPart s1 b) l = true) ∧
    (∀ l, hasLane (readyPart s1 b) l = true → hasLane m l = false → (s2.thread b.t l).st = .stalled) ∧
    (s2.runOf b.t).faulted = none ∧ (s2.troupe b.t).pendTrap = none

/-- R168, R365: when the text at the PC of the bundle a wing picks, in either slot of a clock, decodes to `i`, the step is the
meaning of `i` for that bundle, which R53 then regroups; threads that a register still owed (R161) or a full stage (R22) keeps
back stall first, and the meaning is that for the others. The text is what the stage's instruction cache holds, or what memory
holds and the cache then keeps (R169). A PC that is not below TEXTSIZE traps ILLOP with that PC.
The model's choice, not the spec's: what log entries 57, 62, 70, 113 and 129 name. -/
def Obligations.StepRunsDecoded : Prop :=
  ∀ (s s1 : State) (stage wing : Nat) (b : Bundle) (i : Instr) (f : Fields), s.mgmt.held = false → fieldsOf i = some f →
    let u := (nextAction s).2
    ((nextAction s).1 = .issue stage wing ∧ pickBundle u stage wing = some (s1, b)) ∨
      ((nextAction s).1 = .issueAlso stage wing ∧ pickAlso u stage wing = some (s1, b)) →
    let m := readyPart s1 b
    let tr := s1.troupe b.t
    let pc := (tr.thread (lowLane m)).pc
    let a := textAddr s1 b.t pc
    let z := { s1 with cur := ⟨b.t, m⟩ }
    -- the meaning of `i` from state `y`, in which the bundle is at the cursor and its instruction has been fetched
    let runs := fun (y : State) =>
      let w := issueStall y (ctxOf y (hdrOf f)) f i
      let y1 := { y.mapLanes b.t w.1 fun _ th => { th with st := .stalled, wait := w.2 } with cur := ⟨b.t, m &&& ~~~w.1⟩ }
      (w.1 = 0 → step s = issued b (activeAt y i) (exec i y)) ∧
      (w.1 ≠ 0 → m &&& ~~~w.1 ≠ 0 → step s = issued b (activeAt y1 i) (exec i y1)) ∧
      (w.1 ≠ 0 → m &&& ~~~w.1 = 0 →
        step s = .next (afterIssue b m (y.mapLanes b.t w.1 fun _ th => { th with st := .stalled, wait := w.2 })))
    (tr.context = true → decode (Config.firmwareWord pc) = .ok i → runs z) ∧
    (tr.context = false → pc.toNat < (s1.runOf b.t).textSize →
      (∀ w, cachedWord s1 tr.stage a = some w → decode w = .ok i → runs z) ∧
      (cachedWord s1 tr.stage a = none → anyAbsent s1 [(a, 12)] = false → lineClosed s1 0 [(a, 12)] = false →
        halfWritten s1 a 12 = false → poisoned s1 a 12 = false → decode (runWord s1 b.t pc) = .ok i →
        runs (z.setStage tr.stage { s1.stage tr.stage with
          icache := fillLine s1 (s1.stage tr.stage).icache 131072 a (cleanBytes s1 a 12) }))) ∧
    (tr.context = false → (s1.runOf b.t).textSize ≤ pc.toNat → ∃ x, x.code = 0x01 ∧ x.val = pc.setWidth 64 ∧ x.pc = pc ∧
      x.mask = m ∧ x.bundle = m ∧ step s = .next (afterIssue b m (takeTrap z b.t x)))

/-- Every step keeps memory in its one form: addresses rising, and no byte listed that reads as an unlisted one. -/
def Obligations.MemoryStaysCanonical : Prop := ∀ s t : State, s.Inv → step s = .next t → t.Inv

/-- R341, R404, R422, R423: after a reset every byte reads 0, no byte is poisoned, no queue is mapped, nothing is registered or
under way, the time counter stands at 0 and READY is clear; memory has its one form. That it reads so before the wipe ends, and
that no troupe is there, is the model's choice (log 3, 11); the model's own fields (log 5) are not stated. -/
def Obligations.ResetState : Prop :=
  State.reset.Inv ∧ (∀ a, State.reset.mem.byte a = 0) ∧ (∀ a n, anyAbsent State.reset [(a, n)] = false) ∧
  (∀ a n, poisoned State.reset a n = false) ∧ (∀ t, (State.reset.troupe t).status = .absent) ∧
  (∀ q, (State.reset.queue q).served = false ∧ qmapOf State.reset q = 0) ∧ State.reset.accs = [] ∧ State.reset.copies = [] ∧
  State.reset.entries = [] ∧ State.reset.ports.time = 0 ∧ State.reset.mgmt.ready = 0 ∧ State.reset.mgmt.wiping = true

/-- R422: the wipe after any reset writes zero to every byte of memory and to the operand buffers, register files and
accumulator stores, sets every P bit and clears every W bit, empties the derivation table, and clears the counters of Table
31.3, every ERRCNT and every ERRLOG; READY.WIPE is then set, and not before. -/
def Obligations.WipeClearsEverything : Prop :=
  ∀ (s : State) (i : Instr), s.mgmt.held = false → i = .coldReset ∨ i = .functionLevelReset ∨ i = .ownerChange →
    ∃ z y, exec i s = .next z ∧ z.mgmt.ready.getLsbD 0 = false ∧ exec .wipeComplete z = .next y ∧
      y.mgmt.ready.getLsbD 0 = true ∧ (∀ a, y.mem.byte a = 0) ∧ (∀ a n, poisoned y a n = false) ∧
      (∀ t k, (y.troupe t).reg k = 0 ∧ tget (y.troupe t).tiles 0 k = 0) ∧ (∀ g k, tget (y.stage g).opbuf 0 k = 0) ∧
      (∀ a n, anyAbsent y [(a, n)] = false ∧ anyWatched y [(a, n)] = false) ∧ usedEntries y = [] ∧
      (∀ off, tget y.ports.counters 0 off = 0) ∧ (∀ n, tget y.ports.errcnt 0 n = 0 ∧ tget y.ports.errLog 0 n = 0)

/-! ### Events at homes and of the threads (05_windows.md, 03_execution.md) -/

/-- R74, R82, R84, R86, R140, R143: a load that nothing holds back is performed at its home with the bytes there, sign-extended
for a signed TYPE; an RO load with those its stage's RO cache holds, or else those of its home, whose line the cache then holds;
an AWAIT only if they are not all zero, or its limit has passed, else it waits there. A load of tiles that are not FRESH joins
their groups.
The model's choice, not the spec's: what log entries 35, 125 and 136 name: a PLAIN load whose value was taken at its home ahead
of earlier loads, which R313 does not order, is performed with that value, and an AWAIT's limit counts from its issue. -/
def Obligations.HomeLoads : Prop :=
  (∀ (s : State) (a : Access), Reaches s a → a.isStore = false → staleHit s a.phys a.size = [] →
    let x := cleanN s a.phys a.size
    let taken := fun (i : Instr) =>
      ((∀ v, a.early ≠ some (v, [])) → exec i s = .next (performed (settleEarly s a []) a (loadResult a x))) ∧
      ∀ v, a.early = some (v, []) → exec i s = .next (performed s a v)
    (a.op = .load → taken (.plainLoad a.id)) ∧
    (a.op = .load → tilesHit s a.phys a.size ≠ [] → taken (.derivedLoad a.id)) ∧
    (a.op = .await → x ≠ 0 ∨ awaitOver s a = true → exec (.await a.id) s = .next (performed s a (loadResult a x))) ∧
    (a.op = .await → x = 0 → awaitOver s a = false → exec (.await a.id) s = .next (setAcc s { a with
      st := .awaiting, deadline := if a.who.limited = true ∧ a.deadline = 0 then (if a.hold = 0 then s.wall + 10000 else a.hold)
        else a.deadline }))) ∧
  (∀ (s : State) (a : Access), Reaches s a → a.isStore = false → a.op = .load → staleHit s a.phys a.size ≠ [] →
    ∃ t, exec (.derivedLoad a.id) s = .next t ∧ t.mem = s.mem ∧ t.accs = (setAcc s { a with st := .derived, reached := true, early := none }).accs ∧
      ∀ y ∈ staleHit s a.phys a.size, (t.tile y.1 y.2).st ≠ .stale ∧
        (.access a.id ∈ (t.tile y.1 y.2).g1 ∨ .access a.id ∈ (t.tile y.1 y.2).g2)) ∧
  ∀ (s : State) (a : Access) (st : Nat), accById s a.id = some a → a.dev = none → a.st = .queued → a.op = .ro →
    a.vol = false → afterOk s a = true → inDerived s a.phys a.size = false → a.who.stageOf s = some st →
    (∀ bs, (s.stage st).ro.find? (fun y => y.1 == lineOf a.phys) = some (lineOf a.phys, bs) →
      exec (.roLoad a.id true) s = .next (roFrom s a bs)) ∧
    (let lb := lineBase (lineOf a.phys)
     lineClosed s a.id a.ranges = false → anyAbsent s a.ranges = false → poisoned s a.phys a.size = false →
      poisoned s lb.1 lb.2 = false →
      let bs := cleanBytes s lb.1 lb.2
      exec (.roLoad a.id false) s =
        .next (roFrom ({ s with picks := s.picks + 1 }.setStage st
          { s.stage st with ro := fillLine s (s.stage st).ro 65536 (lineOf a.phys) bs }) a bs))

/-- R77-R81, R84, R145, R240: a write that nothing holds back is one step at its home. A store leaves its bytes; a window or
atomic leaves what its operation makes of the old value and returns the old value: ADD, MAX and MIN by element type, OR, AND and
XOR bit by bit, EXCH the operand, CAS the operand if the old value is the compare value, TAKE zero, COUNT one more. A write into
a derived tensor changes nothing and is counted.
The model's choice, not the spec's: what log entry 35 names. -/
def Obligations.HomeWrites : Prop :=
  ∀ (s : State) (a : Access), Reaches s a →
    let old := cleanN s a.phys a.size
    let wrote := fun (i : Instr) (bs : List Byte) (res : Nat) =>
      ∃ t, exec i s = .next (performed t a (BitVec.ofNat 64 res)) ∧ Wrote a.phys bs s t
    let rmw := fun (i : Instr) (new : Nat) => wrote i (leBytes a.size new) old
    (Unwatched s a →
      (a.op = .store → wrote (.plainStore a.id) (storeBytes s a) 0) ∧
      (a.op = .xor → rmw (.plainStore a.id) (old ^^^ a.data.toNat)) ∧
      (a.op = .exch → rmw (.plainStore a.id) a.data.toNat) ∧
      (a.op = .cas → rmw (.plainStore a.id) (if old = a.cmp.toNat then a.data.toNat else old)) ∧
      (a.op = .add → rmw (.windowAdd a.id) (combineN .add a.ty a.size old a.data.toNat 0)) ∧
      (a.op = .max → rmw (.windowMax a.id) (combineN .max a.ty a.size old a.data.toNat 0)) ∧
      (a.op = .min → rmw (.windowMin a.id) (combineN .min a.ty a.size old a.data.toNat 0)) ∧
      (a.op = .or → rmw (.windowOr a.id) (old ||| a.data.toNat)) ∧
      (a.op = .and → rmw (.windowAnd a.id) (old &&& a.data.toNat)) ∧
      (a.op = .take → rmw (.take a.id) 0) ∧
      (a.op = .count → rmw (.count a.id) (old + 1))) ∧
    (opModifies a.op = true → a.op ≠ .cast → (∃ r ∈ writeRanges s a, inDerived s r.1 r.2 = true) → ∃ t,
      exec (.derivedWriteDrop a.id) s = .next (performed t a 0) ∧ t.mem = s.mem ∧ t.troupes = s.troupes ∧
        (a.who.outside = false → t = bump s (sliceCounter (countSlice s a.phys) 0x0C) 1))

/-- R79, R80, R88: ENQ of entries that fit writes them behind the last one and moves the tail on, returning the old tail; one
that does not fit is dropped and counted in the descriptor. DEQ takes the oldest entry and moves the head on; of an empty queue
it returns 0 and writes nothing. On a malformed descriptor an ENQ counts its entries as dropped and a DEQ writes nothing; either
returns 0 and counts at the slice, and against an outside agent.
The model's choice, not the spec's: what log entries 124 and 126 name. -/
def Obligations.QueueOperations : Prop :=
  ∀ (s : State) (a : Access), Reaches s a → Unwatched s a →
    let d := descOf s a.phys
    let k := a.size / 4
    (d.bad = false → a.op = .enq ∨ a.op = .aenq → k = 1 ∨ k = 2 → d.used + k ≤ 2 ^ d.cap →
      (∀ j < k, (d.slot (d.tail + j) + 4 ≤ a.phys ∨ a.phys + 32 ≤ d.slot (d.tail + j)) ∧
        poisoned s (d.slot (d.tail + j)) 4 = false) → ∃ t,
      exec (.enq a.id) s = .next (performed (faultPosted t a.who true) a (BitVec.ofNat 64 (2 ^ 32 + d.tail))) ∧
      cleanN t (a.phys + 4) 4 = (d.tail + k) % 2 ^ 32 ∧
      (∀ j < k, cleanN t (d.slot (d.tail + j)) 4 = a.data.toNat / 2 ^ (32 * j) % 2 ^ 32) ∧
      ∀ x, (x < a.phys + 4 ∨ a.phys + 8 ≤ x) → (∀ j < k, x < d.slot (d.tail + j) ∨ d.slot (d.tail + j) + 4 ≤ x) →
        t.mem.byte x = s.mem.byte x) ∧
    (d.bad = false → a.op = .enq ∨ a.op = .aenq → 2 ^ d.cap < d.used + k → ∃ t,
      exec (.enq a.id) s = .next (performed (faultPosted t a.who false) a (BitVec.ofNat 64 d.tail)) ∧
      Wrote (a.phys + 12) (leBytes 4 (sat32 (d.dropped + k))) s t) ∧
    (d.bad = true → a.op = .enq ∨ a.op = .aenq → ∃ t, Wrote (a.phys + 12) (leBytes 4 (sat32 (d.dropped + k))) s t ∧
      exec (.enq a.id) s = .next (performed (faultPosted (blame (bump t (sliceCounter (countSlice s a.phys) 8) 1) a.who 5 a.addr)
        a.who false) a 0)) ∧
    (d.bad = true → a.op = .deq ∨ a.op = .adeq →
      exec (.deq a.id) s = .next (performed (blame (bump s (sliceCounter (countSlice s a.phys) 8) 1) a.who 5 a.addr) a 0)) ∧
    (d.bad = false → a.op = .deq ∨ a.op = .adeq → d.tail ≠ d.head → poisoned s (d.slot d.head) 4 = false → ∃ t,
      exec (.deq a.id) s = .next (performed t a (BitVec.ofNat 64 (2 ^ 32 + cleanN s (d.slot d.head) 4))) ∧
      Wrote a.phys (leBytes 4 (d.head + 1)) s t) ∧
    (d.bad = false → a.op = .deq ∨ a.op = .adeq → d.tail = d.head → exec (.deq a.id) s = .next (performed s a 0))

/-- R78, R138, R139: a CAST store is performed at each of its places by a step of its own, in any order, each held back by what
stands at its own place alone; the last of them ends the store. A stale mark turns a FRESH tile that no derivation follows STALE
and a BUSY one DIRTY, and is acknowledged; the write it held goes on once all its marks are. -/
def Obligations.CastsAndMarks : Prop :=
  (∀ (s : State) (a : Access) (k p : Nat), accById s a.id = some a → a.dev = none → a.op = .cast → 0 < a.size →
    a.dies[k]? = some p → deliveryOk s a p = true → (∀ x ∈ a.castHeld, x.1 ≠ p) → lostAt s true p = none →
    inDerived s p a.size = false → anyWatched s [(p, a.size)] = false → poisoned s p a.size = false → ∃ t,
      Wrote p (leBytes a.size a.data.toNat) s t ∧
      exec (.castDelivery a.id k) s = .next (
        let b := { a with dies := a.dies.eraseIdx k, castHeld := a.castHeld.filter fun x => x.1 != p }
        if b.dies = [] then performed t b 0 else setAcc t b)) ∧
  (∀ (s : State) (m : Mark), s.marks.find? (fun y => y.id == m.id) = some m → m.arrived = false →
    (∀ y ∈ s.marks, y.waits = []) → anyWatched s ((s.entry m.e).tileRanges m.tile) = false →
    ∃ t, exec (.staleMark m.id) s = .next t ∧ t.marks = s.marks.filter (fun y => y.id != m.id) ∧ t.mem = s.mem ∧
      (t.tile m.e m.tile).st = (match (s.tile m.e m.tile).st with
        | .fresh => .stale
        | .busy => .dirty
        | st => st) ∧
      (t.tile m.e m.tile).g1 = (s.tile m.e m.tile).g1 ∧ (t.tile m.e m.tile).g2 = (s.tile m.e m.tile).g2 ∧
      ∀ x, x ≠ (m.e, m.tile) → x.2 < 65536 → m.tile < 65536 → t.tile x.1 x.2 = s.tile x.1 x.2) ∧
  ∀ (s : State) (a : Access) (ids : List Nat), accById s a.id = some a → a.st = .heldW ids →
    (∀ i ∈ ids, ∀ m ∈ s.marks, m.id ≠ i) → a.op = .store → a.isStore = true → 0 < a.size →
    poisoned s a.phys a.size = false → inDerived s a.phys a.size = false → ∃ t,
      exec (.markAck a.id) s = .next (performed t a 0) ∧ Wrote a.phys (storeBytes s a) s t

/-- R74, R161, R232, R235, R262, R402, R431: the reply of an access of a thread, or of one entered for a whole bundle, on this
module or on another, writes the registers that it owes and ends it, or ends the waits of the threads that wait in it; the reply
of a remote access that owes nothing ends it. An AWAIT that was held on a clear P bit and is performed while its thread is in a
handler writes its result, and its thread goes on after it at RTT (Table 25.2), where the handler has not dropped the wait. A
completed read-back puts its entry under the return stack's; a hold report parks the thread, which leaves its bundle (R53).
The model's choice, not the spec's: what log entries 14 and 29 name. -/
def Obligations.Completions : Prop :=
  (∀ (s : State) (a : Access) (reply : Dword) (t : Nat) (m : Mask), accById s a.id = some a → a.who.threads = some (t, m) →
    (∀ x ∈ (s.troupe t).frozen, x.2.wait ≠ .await a.id) →
    let v := if a.st = .performed then a.res
      else if a.op = .load ∨ a.op = .ro ∨ a.op = .await then loadResult a (reply.toNat % 2 ^ (8 * a.size)) else reply
    let came := a.st = .performed ∧ a.spill = false ∨ a.st = .remote ∧ a.reported = false ∧ a.lostRel = false
    let ends := fun (z : State) => exec (.loadCompletion a.id reply) s = .next z ∧
      z.accs = s.accs.filter (fun b => b.id != a.id) ∧ z.mem = s.mem ∧ ∀ u, u ≠ t → z.troupe u = s.troupe u
    came →
    (∀ p, (∀ l < 32, hasLane m l = true → (s.thread t l).waitsAccess a.id = false) → a.pend ≠ 0 →
      (s.troupe t).pend.find? (fun y => y.id == a.pend) = some p → p.contested = [] → (p.writes.map Prod.fst).Nodup →
      let q := if a.st = .performed then p else knowPend v p
      ∃ z, ends z ∧ (∀ w ∈ q.writes, (z.troupe t).reg w.1 = w.2) ∧
        (∀ k, k ∉ q.writes.map Prod.fst → (z.troupe t).reg k = (s.troupe t).reg k) ∧
        (z.troupe t).pend = (s.troupe t).pend.filter (fun y => y.id != a.pend) ∧ ∀ k, z.thread t k = s.thread t k) ∧
    ((∀ l < 32, hasLane m l = true → (s.thread t l).waitsAccess a.id = false) → a.pend = 0 →
      ∃ z, ends z ∧ z.troupe t = s.troupe t) ∧
    (a.pend = 0 → m ≠ 0 → (∀ l, hasLane m l = true → (s.thread t l).waitsAccess a.id = true) →
      (∀ l, hasLane m l = true → l ≠ lowLane m → (s.thread t l).info.d = .rz) →
      let i := (s.thread t (lowLane m)).info
      ∃ z, ends z ∧ Gets (z.troupe t) (Ty.wide i.ty) i.d (lowLane m) v ∧
        (∀ k, k ∉ (destWrites (Ty.wide i.ty) i.d (lowLane m) 0).map Prod.fst → (z.troupe t).reg k = (s.troupe t).reg k) ∧
        ∀ l, z.thread t l = if hasLane m l then (s.thread t l).left else s.thread t l)) ∧
  (∀ (s : State) (a : Access) (reply : Dword) (t l : Nat) (f : Frozen), accById s a.id = some a → a.st = .performed →
    a.spill = false → a.who = .thread t l → l < 32 → a.pend = 0 → (s.thread t l).waitsAccess a.id = false →
    (s.troupe t).status = .handler → hasLane ((s.troupe t).written ||| (s.troupe t).last.skip) l = false →
    (s.troupe t).frozen.find? (fun x => x.1 == l) = some (l, f) → f.st = .waiting → f.wait = .await a.id →
    ∃ z, exec (.loadCompletion a.id reply) s = .next z ∧ z.accs = s.accs.filter (fun b => b.id != a.id) ∧ z.mem = s.mem ∧
      (z.troupe t).frozen = tput (s.troupe t).frozen l { f with got := true } ∧
      Gets (z.troupe t) (Ty.wide f.info.ty) f.info.d l a.res ∧
      (∀ k, z.thread t k = s.thread t k) ∧ ∀ u, u ≠ t → z.troupe u = s.troupe u) ∧
  (∀ (s : State) (t l : Nat) (a : Access), (s.thread t l).readback = true →
    s.accs.find? (fun b => b.spill && b.op == .load && b.who.ofLane t l && b.st == .performed) = some a →
    ∃ z, exec (.readbackComplete t l) s = .next z ∧ z.accs = s.accs.filter (fun b => b.id != a.id) ∧ z.mem = s.mem ∧
      z.thread t l = { s.thread t l with
        readback := false, rstack := loWord a.res :: (s.thread t l).rstack, spills := (s.thread t l).spills - 1 } ∧
      (∀ j, j ≠ l → z.thread t j = s.thread t j) ∧ ∀ u, u ≠ t → z.troupe u = s.troupe u) ∧
  ∀ (s : State) (a : Access) (t l : Nat), accById s a.id = some a → a.st = .heldP → a.who = .thread t l → l < 32 →
    a.reported = false → (s.thread t l).st ≠ .drained →
    ∃ z, exec (.parkReport a.id) s = .next z ∧ z.accs = (setAcc s { a with reported := true }).accs ∧ z.mem = s.mem ∧
      z.thread t l = { s.thread t l with parks := (s.thread t l).parks ++ [a.id] } ∧
      ((s.thread t l).st ≠ .held → (z.thread t l).parked = true) ∧
      (∀ b ∈ (z.wing (wingKey (s.troupe t))).table, b.t = t → hasLane b.mask l = false) ∧
      (∀ j, j ≠ l → z.thread t j = s.thread t j) ∧ ∀ u, u ≠ t → z.troupe u = s.troupe u

/-- R37, R38, R82, R251, R256, R260, R295: what ends waits. At its limit an AWAIT is performed with the value that stands there,
and WPWAIT and CVWAIT end with 0; SLEEP ends at its time, SVC when DONE is nonzero, with RESULT; an outside agent's held load is
performed at its hold limit as if P were set, which counts once for a read of several parts (R74, R395). Threads that one hazard
holds at one PC become READY together.
The model's choice, not the spec's: what log entry 102 names. -/
def Obligations.WaitsEnd : Prop :=
  (∀ (s : State) (a : Access), accById s a.id = some a → a.op = .await → a.deadline ≠ 0 → a.st = .awaiting →
    let x := loadResult a (cleanN s a.phys a.size)
    (a.who.limited = false → a.dev = none → a.deadline < s.wall →
      exec (.awaitLimitExpiry a.id) s = .next (performed s a x)) ∧
    (a.who.limited = true → a.who.outside = true → a.deadline ≤ s.wall →
      exec (.agentHoldLimitExpiry a.id) s = .next (performed s a x))) ∧
  (∀ (s : State) (a : Access), accById s a.id = some a → a.st = .heldP → a.op = .load → a.who.outside = true →
    a.hold ≠ 0 → a.hold ≤ s.wall → a.early = none →
    let b := { a with st := .queued }
    let z := setAcc s b
    let y := performed (settleEarly z b []) b (loadResult b (cleanN s a.phys a.size))
    mayPerform z b = true → buffered z b = [] → staleHit s a.phys a.size = [] → poisoned s a.phys a.size = false →
    ∃ t, exec (.agentHoldLimitExpiry a.id) s = .next t ∧ (a.reported = true → t = y) ∧ (a.reported = false →
      t.ports = (bump y (sliceCounter (countSlice s a.phys) 4) 1).ports ∧ { t with ports := y.ports, accs := y.accs } = y ∧
      (readGroup s a = [a] → t.accs = y.accs))) ∧
  (∀ (s : State) (t l : Nat), l < 32 → (s.thread t l).st = .waiting →
    (∀ k d n, (s.thread t l).wait = .cvwait k d n → d ≠ 0 → d < s.wall →
      ∃ z, exec (.cvwaitTimeout t l) s = .next z ∧ LeavesWait t l 0 s z) ∧
    (∀ a d, (s.thread t l).wait = .wpwait a.id d → accById s a.id = some a → a.st ≠ .performed → d ≠ 0 → d < s.wall →
      ∃ z, exec (.wpwaitTimeout t l) s = .next z ∧ LeavesWait t l 0 s z ∧ z.accs = s.accs.filter fun b => b.id != a.id) ∧
    (∀ d, (s.thread t l).wait = .sleep d → d ≤ s.ports.time.toNat →
      ∃ z, exec (.sleepExpiry t l) s = .next z ∧ LeavesWait t l 0 s z) ∧
    (∀ slot, (s.thread t l).wait = .svc slot false → (s.troupe t).status = .resident ∨ (s.troupe t).status = .handler →
      cleanN s (slot + 8) 8 ≠ 0 → ∃ z, exec (.svcDone t l) s = .next z ∧ LeavesWait t l (BitVec.ofNat 64 (cleanN s slot 8)) s z ∧
        (z.troupe t).svcs = (s.troupe t).svcs.filter (fun x => x.lane != l) ∧ (z.stage (s.troupe t).stage).ro = [])) ∧
  ∀ (s : State) (t l : Nat), l < 32 → (s.thread t l).st = .stalled → hazardOver s t l = true →
    ∃ z, exec (.hazardClear t l) s = .next z ∧ z.mem = s.mem ∧ (∀ u, u ≠ t → z.troupe u = s.troupe u) ∧
      (∀ k, (z.troupe t).reg k = (s.troupe t).reg k) ∧
      (∀ k, k < 32 → z.thread t k = if (s.thread t k).st = .stalled ∧ (s.thread t k).wait = (s.thread t l).wait ∧
          (s.thread t k).pc = (s.thread t l).pc ∧ hazardOver s t k = true then
        { s.thread t k with st := .ready, wait := .none } else s.thread t k)

/-- R51, R64, R49: a rebuild admits at most 64 bundles, each of READY threads of one troupe at one PC, and leaves out no READY
thread of the wing if that many suffice; a starved bundle that can issue is one of those the wing's next choice takes; the last
live thread of a unit that is HELD, of several units of its company the one of the lowest seat, draws a new item and goes on at
the cue, or drains where no item is left.
The model's choice, not the spec's: what log entries 60 and 61 name. -/
def Obligations.BundlesAndUnits : Prop :=
  (∀ (s : State) (stage wing : Nat), ∃ z, exec (.bundleRebuild stage wing) s = .next z ∧
    (let k := 4 * stage + wing
     { z with wings := s.wings } = s ∧ (∀ j, j ≠ k → z.wing j = s.wing j) ∧ (z.wing k).table.length ≤ 64 ∧
      (∀ b ∈ (z.wing k).table, b.t ∈ wingTroupes s k ∧ b.mask ≠ 0 ∧ ∀ i j, hasLane b.mask i = true → hasLane b.mask j = true →
        (s.thread b.t i).ready = true ∧ (s.thread b.t i).pc = (s.thread b.t j).pc) ∧
      (((wingTroupes s k).flatMap (groupsOf s)).length ≤ 64 → ∀ t ∈ wingTroupes s k, ∀ l < 32, (s.thread t l).ready = true →
        ∃ b ∈ (z.wing k).table, b.t = t ∧ hasLane b.mask l = true))) ∧
  (∀ (s : State) (stage wing k : Nat) (b : Bundle), (s.wing (4 * stage + wing)).table[k]? = some b → canIssue s b = true →
    ∃ z y x, exec (.starvationBound stage wing k) s = .next z ∧ { z with wings := s.wings } = s ∧
      pickBundle z stage wing = some (y, x) ∧ (x = b ∨ (y.wing (4 * stage + wing)).also = some b)) ∧
  ∀ (s : State) (t l : Nat), l < 32 →
    let r := s.runOf t
    r.faulted = none → r.determ = false → r.source = .shared → (s.troupe t).status = .resident → (s.troupe t).cv = [] →
    (s.companyOf t).junctions = [] → (s.thread t l).st = .held →
    ((unitOf s t l).filter fun x => (s.thread x.1 x.2).live) = [(t, l)] →
    (heldUnits s (companyKey t)).head? = (unitOf s t l).head? →
    ∃ z, exec (.unitRefill t l) s = .next z ∧ z.mem = s.mem ∧ (∀ j, j ≠ l → z.thread t j = s.thread t j) ∧
      (r.counter < r.items → (z.runOf t).counter = r.counter + 1 ∧
        z.thread t l = ({ s.thread t l with
          parks := (s.thread t l).parks.filter fun i => (accById (dropReadbacks s t (laneBit l)) i).isSome } : Thread).refill
            r.cue (BitVec.ofNat 64 r.counter, BitVec.ofNat 64 (s.companyOf t).admitted) ∧
        ∀ i < 7, (z.troupe t).reg (pKey l i) = 0) ∧
      (r.items ≤ r.counter → (z.runOf t).counter = r.counter ∧ (z.thread t l).st = .drained)

/-! ### Events of the engines and of derivation (09_engines.md, 11_derived.md) -/

/-- R120, R124, R125, R127: a landing brings its bytes (zeros, or those of its source, as they were taken where they have been
read before) to its destination, then sets out for its waypoint; a copy whose every byte has landed and counted makes one
arrival at each waypoint; an update of the waypoint's own generation takes bytes and an arrival off its counts, and flips the
phase when both come to 0, while one of an older generation is dropped and counted; the oldest operation of a class whose work
has ended leaves its counter.
The model's choice, not the spec's: what log entries 34, 39 and 140 name. -/
def Obligations.CopiesLand : Prop :=
  (∀ (s : State) (cp : Copy) (i a : Nat) (k : Chunk) (data : Payload) (bs : List Byte), copyById s cp.id = some cp →
    cp.ended = false → cp.parked = false → cp.stands = false → (∀ b ∈ s.accs, b.st ≠ .heldP) → cp.chunks[i]? = some k →
    k.done = false → k.held = false → k.early = none → 0 < k.len →
    faultBefore s cp i = false → (∀ j ∈ cp.after, accDone s j = true) → k.dst = .phys a → lostAt s cp.cast a = none →
    inDerived s a k.len = false → lineClosed s 0 [(a, k.len)] = false → anyWatched s [(a, k.len)] = false →
    poisoned s a k.len = false →
    (k.src = .zero ∧ bs = List.replicate k.len 0 ∨ ∃ x, k.src = .phys x ∧
      bs = ((List.range k.len).map fun j => tget cp.taken (s.mem.byte (x + j)) (x + j)) ∧
      engineStale s (untaken cp x k.len) = [] ∧ engineMayRead s (untaken cp x k.len) = true ∧
      ∀ r ∈ untaken cp x k.len, poisoned s r.1 r.2 = false) →
    ∃ z t, Wrote a bs s z ∧ exec (.copyChunkLanding cp.id i data) s = .next t ∧ t.mem = z.mem ∧
      (∃ c2, copyById t cp.id = some c2 ∧ ∃ k2, c2.chunks[i]? = some k2 ∧ k2.done = true) ∧
      ∀ w, cp.wps[k.target]? = some (some w) →
        t.upds = s.upds ++ [⟨s.nextId, w.addr, some w.gen, k.len, false, [], cp.id, 0, none, none, none⟩]) ∧
  (∀ (s : State) (cp : Copy), copyById s cp.id = some cp → cp.ended = false → cp.parked = false → cp.stands = false →
    (∀ k ∈ cp.chunks, k.done = true) → (∀ u ∈ s.upds, u.copy ≠ cp.id) →
    (∀ k ∈ cp.chunks, k.lost = none) →
    ∃ t, exec (.copyCompletion cp.id) s = .next t ∧ t.mem = s.mem ∧ copyById t cp.id = some { cp with ended := true } ∧
      t.upds = s.upds ++ ((cp.wps.filterMap id).zipIdx.map fun w =>
        ⟨s.nextId + w.2, w.1.addr, some w.1.gen, 0, true, [], cp.id, 0, none, none, none⟩)) ∧
  (∀ (s : State) (u : WpUpd), s.upds.find? (fun x => x.id == u.id) = some u → u.init = none → u.marks = none →
    anyWatched s [(u.addr, 16)] = false → (∀ i ∈ u.after, accDone s i = true) →
    lineClosed s 0 [(u.addr, 16)] = false → lostAt s ((copyById s u.copy).any Copy.castWp) u.addr = none →
    inDerived s u.addr 16 = false → poisoned s u.addr 16 = false →
    let w0 := cleanN s u.addr 4
    let first := cleanN s (u.addr + 4) 4
    let rem := cleanN s (u.addr + 8) 4 - u.bytes
    let pend := w0 % 2 ^ 16 - if u.arrival then 1 else 0
    (∀ g, u.gen = some g → g ≠ w0 / 2 ^ 17 → exec (.waypointUpdate u.id) s =
      .next (bump { s with upds := s.upds.filter fun x => x.id != u.id } (sliceCounter (countSlice s u.addr) 0) 1)) ∧
    ((∀ g, u.gen = some g → g = w0 / 2 ^ 17) → ∃ t, exec (.waypointUpdate u.id) s = .next t ∧
      t.upds = s.upds.filter (fun x => x.id != u.id) ∧ cleanN t (u.addr + 4) 4 = first ∧
      cleanN t u.addr 4 = (w0 / 2 ^ 17) * 2 ^ 17 + (if pend = 0 ∧ rem = 0 then (1 - w0 / 2 ^ 16 % 2) * 2 ^ 16 + first % 2 ^ 16
        else w0 / 2 ^ 16 % 2 * 2 ^ 16 + pend) ∧
      cleanN t (u.addr + 8) 4 = (if pend = 0 ∧ rem = 0 then cleanN s (u.addr + 12) 4 else rem) ∧
      ∀ x, (x < u.addr ∨ u.addr + 12 ≤ x) → t.mem.byte x = s.mem.byte x)) ∧
  ∀ (s : State) (t : Nat) (cls : Eng) (o : EngOp), (s.troupe t).ops.find? (fun x => x.cls == cls) = some o → opEnded s o = true →
    ((s.troupe t).ops.map EngOp.id).Nodup → ∃ z, exec (.engineCounterFall t cls) s = .next z ∧
      (z.troupe t).counter cls + 1 = (s.troupe t).counter cls ∧ (∀ c, c ≠ cls → (z.troupe t).counter c = (s.troupe t).counter c) ∧
      (z.troupe t).regs = (s.troupe t).regs ∧ z.mem = s.mem ∧ ∀ u, u ≠ t → z.troupe u = s.troupe u

/-- R288, R403: a peer that joins is noted. A delivery of a collective's data lands in DST where this rank is to have it, and is
sent on to the ranks that are to have it from this one; one that the peer's record contradicts, or that lies outside the data,
is refused and logged at its link. The owner of a slice reads it from a peer's SRC, and a peer's read of this rank's SRC is
answered with its bytes. 10 ms without every peer end a collective with an error counted.
The model's choice, not the spec's: what log entries 41, 42 and 43 name. -/
def Obligations.CollectivesProceed : Prop :=
  ∀ (s : State) (c : Coll), s.colls.find? (fun x => x.id == c.id) = some c → c.ended = false →
    let r := collRec c.bytes
    let packet := fun (q off place read l : Nat) (bs : List Byte) => Out.skasonColl l ⟨skid s, c.group.getD q 0, 1, wordAt c.bytes 48,
      c.id, off, place, read, ⟨r.rank, r.op, r.etype, r.rop, r.count, r.nranks, l⟩, bs⟩
    let leaves := fun (q place : Nat) (p : Nat → Out) (t : State) => ∀ l, routeLink s (c.group.getD q 0) place = some l → p l ∈ t.out
    (∀ off head, collLocal r off = true ∨ linkExists s head.link = true → collContradicts r head = false →
      ∃ t, exec (.collDelivery c.id off ⟨[], head⟩) s = .next t ∧ { t with colls := s.colls } = s ∧
        t.colls.find? (fun x => x.id == c.id) = some { c with joined := head.rank :: c.joined }) ∧
    (∀ (off : Nat) (data : CollData), data.bytes ≠ [] → collLocal r off = true ∨ linkExists s data.head.link = true →
      let reduces := collOwn r off = true ∧ collLocal r off = false
      let n := if collOwn r off && !collLocal r off then data.bytes.length / (r.nranks - 1) else data.bytes.length
      let bs := (collBytes s c off data.bytes).2
      let bad := collContradicts r data.head = true ∨ collSpan r < off + n ∨ collLands r off = none ∧ collSends r off = []
      let sends := fun (t : State) => ∀ q ∈ collSends r off, let place := scratchOff r.dst + off
        leaves q place (fun l => packet q off place 0 l bs) t
      (bad → exec (.collDelivery c.id off data) s =
        .next (logError s (data.head.link + 1) 13 (c.group.getD data.head.rank 0) 0 r.dst)) ∧
      (¬bad → n ≠ 0 → collFits r off n = true → (collLocal r off = true ∨ collOwn r off = true → collReadable s c = true) →
        (reduces → etypeBytes r.etype ∣ n ∧ collAsked c off n = true) →
        (∀ p, collLands r off = some p → (∀ x ∈ c.landedB, overlaps x.1 x.2 p n = false) →
          Plainly s [(collDst s c + p, n)] → (∀ b ∈ s.accs, b.st ≠ .heldP) →
          let a := collDst s c + p
          ∃ t, exec (.collDelivery c.id off data) s = .next t ∧ BytesAt t.mem a bs ∧ sends t ∧
            (∀ x, (x < a ∨ a + bs.length ≤ x) → t.mem.byte x = s.mem.byte x) ∧
            ∃ d, t.colls.find? (fun x => x.id == c.id) = some d ∧ d.remaining = c.remaining - bs.length ∧
              d.landedB = (p, bs.length) :: c.landedB) ∧
        (collLands r off = none → (∀ x ∈ c.sentB, overlaps x.1 x.2 off n = false) →
          ∃ t, exec (.collDelivery c.id off data) s = .next t ∧ t.mem = s.mem ∧ sends t))) ∧
    (∀ q off n, q ≠ r.rank → q < r.nranks → collSlice r r.rank off n = true → let place := scratchOff r.src + off
      let t := collRead c.id q off n s
      t.mem = s.mem ∧ t.troupes = s.troupes ∧ leaves q place (fun l => packet q off place n l []) t ∧
        t.colls.find? (fun x => x.id == c.id) = some { c with asked := (q, off, n) :: c.asked }) ∧
    (∀ (off n : Nat) (h : CollHead), linkExists s h.link = true → let t := collServe c.id off n h s
      (collContradicts r h = true ∨ h.rank = r.rank ∨ collSlice r h.rank off n = false →
        t = logError s (h.link + 1) 13 (c.group.getD h.rank 0) 0 r.dst) ∧
      (collContradicts r h = false → h.rank ≠ r.rank → collSlice r h.rank off n = true → collReadable s c = true →
        let place := scratchOff r.dst + off
        t.mem = s.mem ∧ leaves h.rank place (fun l => packet h.rank off place 0 l (cleanBytes s (collSrc s c + off) n)) t ∧
          ∃ d, t.colls.find? (fun x => x.id == c.id) = some d ∧ d.joined = h.rank :: c.joined)) ∧
    (c.issued + 10000000 ≤ s.wall → (∃ q < r.nranks, q ∉ c.joined) → ∃ t, exec (.collTimeout c.id) s = .next t ∧ t.mem = s.mem ∧
      t.troupes = s.troupes ∧ t.colls.find? (fun x => x.id == c.id) = some { c with ended := true } ∧
      tget t.ports.errcnt 0 18 = sat32 (tget s.ports.errcnt 0 18 + 1))

/-- R141, Table 11.6: a free unit takes the slice's next tile, and reads the base lines it needs once every derived tile among
them is FRESH, asking for the first that is not; at the end it writes the tile, which becomes FRESH, or, DIRTY, STALE or BUSY
again for those who came after the mark.
The model's choice, not the spec's: what log entries 17 and 147 name. -/
def Obligations.Recomputes : Prop :=
  (∀ (s : State) (k : Nat) (x : Nat × Nat) (rest : List (Nat × Nat)), (s.slice k).current = none →
    (∀ r ∈ (s.slice k).waiting, r.ready = false) → (s.slice k).queue = x :: rest →
    let e := s.entry x.1
    ((∀ y ∈ baseTiles s e x.2, isFresh s y = true) → ∃ z, exec (.recomputeStart k) s = .next z ∧ { z with slices := s.slices } = s ∧
      z.slice k = ⟨rest, some ⟨x.1, x.2, [], baseReads e x.2, [], false⟩, (s.slice k).waiting⟩ ∧
      ∀ j, j ≠ k → z.slice j = s.slice j) ∧
    (∀ y, (baseTiles s e x.2).find? (fun y => !isFresh s y) = some y → ∃ z, exec (.recomputeStart k) s = .next z ∧
      z.mem = s.mem ∧ (z.slice k).current = none ∧ (∃ r ∈ (z.slice k).waiting, r.e = x.1 ∧ r.tile = x.2) ∧
      (.recompute x.1 x.2 ∈ (z.tile y.1 y.2).g1 ∨ .recompute x.1 x.2 ∈ (z.tile y.1 y.2).g2))) ∧
  ∀ (s : State) (k : Nat) (r : Recompute), (s.slice k).current = some r → r.reads = [] →
    heldClosed s 0 ((s.entry r.e).tileRanges r.tile) = false →
    let ws := recomputeWrites s (s.entry r.e) r
    ∃ z, exec (.recomputeEnd k) s = .next z ∧
      z.tile r.e r.tile = (match (s.tile r.e r.tile).st, (s.tile r.e r.tile).g2 with
        | .dirty, [] => ⟨.stale, [], []⟩
        | .dirty, g => ⟨.busy, g, []⟩
        | _, _ => ⟨.fresh, [], []⟩) ∧
      ((∀ w ∈ ws, poisoned s w.1 w.2.length = false) →
        (∀ x, (∀ w ∈ ws, x < w.1 ∨ w.1 + w.2.length ≤ x) → z.mem.byte x = s.mem.byte x) ∧
        (ws.Pairwise (fun w v => w.1 + w.2.length ≤ v.1 ∨ v.1 + v.2.length ≤ w.1) → ∀ w ∈ ws, BytesAt z.mem w.1 w.2))

/-! ### Events of scheduling and the prompter (23_scheduling.md, 25_traps.md) -/

/-- R373, R378-R380, R383: a trap or pre-emption that had to wait enters its handler. A pre-empted company's troupes enter the
context handler, and once all are there and quiet they are saved and the company is off-core; a troupe alone, of those that may
be evicted for a run that could use its stage the longest-waiting, is evicted by the same steps. A saved troupe comes back
through the context handler, RESIDENT once its image can be and is read; one that no empty module could hold leaves its queue
not runnable.
The model's choice, not the spec's: what log entry 57 names. -/
def Obligations.SavesAndRestores : Prop :=
  (∀ (s : State) (t : Nat), (s.troupe t).status = .resident → readbackOut (s.troupe t) = false → (s.runOf t).faulted = none →
    (∀ x, (s.troupe t).pendTrap = some x → exec (.handlerEntry t) s = .next (enterHandler s t x (s.runOf t).trapVec false)) ∧
    ((s.troupe t).pendTrap = none → (s.troupe t).pendPre ≠ 0 →
      exec (.handlerEntry t) s = .next (enterContext s t (s.troupe t).pendPre))) ∧
  (∀ (s : State) (c : Nat), (s.company c).preempting = true →
    (savingOf s c = [] → exec (.preempt c) s = .next (s.setCompany c { s.company c with preempting := false })) ∧
    ((∃ t ∈ savingOf s c, entersNow s t = true) → ∃ z, exec (.preempt c) s = .next z ∧ z.mem = s.mem ∧
      (∀ t ∈ savingOf s c, entersNow s t = true →
        (z.troupe t).status = .handler ∧ (z.troupe t).context = true ∧ (z.troupe t).last.reason = 1) ∧
      ∀ t, t ∉ savingOf s c → z.troupe t = s.troupe t) ∧
    (savingOf s c ≠ [] → (∀ t ∈ savingOf s c, (s.troupe t).status = .handler ∧ (s.troupe t).context = true ∧
        (s.troupe t).last.reason ≠ 2 ∧ troupeQuiet s t = true) → ∃ z, exec (.preempt c) s = .next z ∧
      (z.company c).offCore = true ∧ (z.company c).preempting = false ∧ ∀ t ∈ savingOf s c, (z.troupe t).status = .saved)) ∧
  (∀ (s : State) (t : Nat),
    ((s.troupe t).context = false → evictable s t = true → roomWanted s t = true →
      (∀ x ∈ s.troupes, evictable s x.1 = true → roomWanted s x.1 = true → (s.troupe t).idleSince ≤ x.2.idleSince) →
      exec (.eviction t) s = .next (s.setTroupe t { s.troupe t with pendPre := 4 })) ∧
    ((s.troupe t).context = true → (s.troupe t).status = .handler → (s.troupe t).last.reason = 3 ∨ (s.troupe t).last.reason = 4 →
      (s.companyOf t).preempting = false → troupeQuiet s t = true → ∃ z, exec (.eviction t) s = .next z ∧
      (z.troupe t).status = .saved ∧ (z.companyOf t).offCore = ((s.companyOf t).offCore || residentOf s (companyKey t) == [t]))) ∧
  ∀ (s : State) (c : Nat) (stages : List Nat),
    let co := s.company c
    let under := (troupesOf s c).filter fun t => (s.troupe t).context && (s.troupe t).last.reason == 2
    (s.run co.run).faulted = none → (s.run co.run).complete = false →
    (under ≠ [] → imageReady s c under = false → exec (.restore c stages) s = .next s) ∧
    (∀ t z, under = [t] → imageReady s c under = true → co.offCore = false → restoreTroupe s t = some z → ∃ y, exec (.restore c stages) s = .next y ∧
      y.mem = z.mem ∧ y.troupe t = z.troupe t ∧ (y.troupe t).status = .resident ∧ (y.troupe t).context = false) ∧
    (∀ t ts st ss w ws b, under = [] → (s.queue (s.run co.run).queue).notRunnable = false → restorable s c = t :: ts →
      co.offCore = false → isTurn s co.run = true → stages = st :: ss → st ∈ co.stages →
      stageFits s (s.run co.run) st 1 false = some (w :: ws, b) → ∃ z, exec (.restore c stages) s = .next z ∧ z.mem = s.mem ∧
        (z.troupe t).status = .handler ∧ (z.troupe t).context = true ∧ (z.troupe t).last.reason = 2 ∧
        (z.troupe t).stage = st ∧ (z.troupe t).wing = w ∧ z.lastServed = (s.run co.run).queue) ∧
    (under = [] → (s.queue (s.run co.run).queue).notRunnable = false → restorable s c ≠ [] → co.offCore = true →
      fitsEmpty s c = false → ∃ z, exec (.restore c stages) s = .next z ∧
        (z.queue (s.run co.run).queue).notRunnable = true ∧ ∀ t ∈ restorable s c, (z.troupe t).status = .saved)

/-- R41, R300, R322, R355-R363, R378: a company is set down on the first die with room, its troupes RESIDENT on their stages
with their threads at the entry; a run that finds no room begins to wait, and at the end of that wait, if it still waits for
room, a company of lower priority is pre-empted, a troupe of it that is still being restored included; a node places troupes as
records come; a gate that opens ends every wait at it; and a milestone lets buffered operations be performed, and is there once
they are.
The model's choice, not the spec's: what log entries 66, 68, 69, 71, 74 and 76 name. -/
def Obligations.Placement : Prop :=
  (∀ (s : State) (k i b d : Nat) (g : List (Nat × List Nat × Nat)),
    let r := s.run k
    rising (s.companies.map Prod.fst) = true → eligible s k = true → r.source ≠ .callboard → r.determ = false → r.circuitSize = 1 → r.companiesOf r.nextComp = [i] →
    hasItem s r i = true → stackRun s r = some b → isTurn s k = true →
    ((List.range 4).map fun j => (s.lastDie + 1 + j) % 4).findSome? (fun d => (pickStages s r d).map fun g => (d, g)) =
      some (d, g) →
    ∃ z c, exec (.companyPlacement k) s = .next z ∧ s.company c = Company.absent ∧
      (z.company c).run = k ∧ (z.company c).index = i ∧ (z.company c).placed = true ∧ (z.company c).die = d ∧
      (z.company c).stages = g.map Prod.fst ∧ (z.company c).stackBase = b ∧ z.lastDie = d ∧ z.lastServed = r.queue ∧
      ∀ u < r.troupes, (z.troupe (256 * c + u)).stage = (g.getD (u % r.nstages) (0, [], 0)).1 ∧
        ((z.troupe (256 * c + u)).status = .retired ∨ (z.troupe (256 * c + u)).status = .resident ∧
          ∀ l < 32, (z.thread (256 * c + u) l).st = .ready → (z.thread (256 * c + u) l).pc = r.entry)) ∧
  (∀ (s : State) (k : Nat),
    let r := s.run k
    let d := descOf s r.nodeQ
    (r.source ≠ .callboard → placement s k = none → waitsForRoom s k = true → eligible s k = true → r.waited = 0 →
      exec (.companyPlacement k) s = .next (s.setRun k { r with waited := s.wall + 1 })) ∧
    (r.source = .callboard → nodeClosed s r = true → exec (.callboardPlace k) s = .next (completeRun s k)) ∧
    (∀ s1, r.source = .callboard → nodeClosed s r = false → placement s k = some s1 → isTurn s k = true →
      (32 ≤ d.used → exec (.callboardPlace k) s = .next (completeRun s1 k)) ∧
      (d.used < 32 → exec (.callboardTimer k) s = .next (completeRun s1 k))) ∧
    (waitsForRoom s k = true → r.waited ≠ 0 → r.waited + 20000 ≤ s.wall + 1 → victims s r.prio ≠ [] →
      placeable (without s ((s.companies.filter fun x => x.2.preempting).map Prod.fst) []) k = false →
      ∃ z, exec (.preemptRaise k) s = .next z ∧ z.mem = s.mem ∧ ∃ c ∈ victims s r.prio,
        (z.company c).preempting = true ∧ (z.company c).preempted = true ∧ (∀ j, j ≠ c → z.company j = s.company j) ∧
        ∀ t, (z.troupe t) = if t ∈ residentOf s c ∧ (s.troupe t).status ≠ .retiring ∧
            ((s.troupe t).context = false ∨ (s.troupe t).last.reason = 2) then
          { s.troupe t with pendPre := 1 } else s.troupe t) ∧
    (r.gateOpen = false → gateReady s k = true → ∃ z, exec (.gateOpen k) s = .next z ∧ (z.run k).gateOpen = true ∧
      z.mem = s.mem ∧ ∀ t ∈ troupesOfRun s k, ∀ l < 32, z.thread t l =
        if (s.thread t l).st = .waiting ∧ (s.thread t l).wait = .gate then (s.thread t l).left else s.thread t l) ∧
    (∀ s1, r.determ = true → r.milestone = false → allReleased s k = true →
      drainDet s k (fun b => !b.tag && !b.onCm) = some s1 →
      exec (.deterministicMilestone k 0) s =
        .next (if detAccs s1 k = [] then s1.setRun k { s1.run k with milestone := true } else s1)))

/-- R39, R40, R377, R415: a RETIRING troupe whose stores, engine operations and calls have ended retires, and its company with
its last troupe, once its buffered operations are performed; one that holds an untaken translation fault faults the run; and a
faulted run that is quiet gives up every troupe and company it has.
The model's choice, not the spec's: what log entries 77 and 78 name. -/
def Obligations.Retirement : Prop :=
  ∀ (s : State) (t : Nat),
    let k := (s.companyOf t).run
    let c := companyKey t
    ((s.run k).faulted = none → (s.troupe t).status = .retiring →
      (∀ v vs, (s.troupe t).xfaults = v :: vs → ∃ z x, exec (.troupeRetire t) s = .next z ∧ (z.run k).faulted = some x ∧
        x.code = 0x1A ∧ x.val = v ∧ z.mem = s.mem ∧ z.troupes = s.troupes) ∧
      ((s.troupe t).xfaults = [] → storeQueue s t = [] → (s.troupe t).ops = [] → lowerRetired s c = true →
        (∀ x ∈ (s.troupe t).svcs, cleanN s (x.slot + 8) 8 ≠ 0) → ∃ z, exec (.troupeRetire t) s = .next z ∧
          (z.troupe t).status = .retired ∧ (∀ u, u ≠ t → z.troupe u = s.troupe u) ∧
          ((z.company c).retired = true ↔ (s.company c).retired = true ∨
            (∀ u ∈ troupesOf s c, u ≠ t → (s.troupe u).status = .retired) ∧
            (∀ b ∈ detOps s k, b.company = c → b.onCm = false) ∧ detAccs s k = []))) ∧
    (∀ x, (s.run k).faulted = some x → (∀ u ∈ troupesOfRun s k, faultQuiet s u = true) →
      (∃ y ∈ companiesOfRun s k, y.2.retired = false) → ∃ z, exec (.troupeRetire t) s = .next z ∧
        (∀ u ∈ troupesOfRun s k, (z.troupe u).status = .retired) ∧
        ∀ y ∈ companiesOfRun s k, (z.company y.1).retired = true)

/-- R345, R346, R433: a sleeping queue whose NOTIFY is nonzero clears it, reads TAIL, and goes on while TAIL differs from HEAD.
A slot that mismatches is read again each microsecond, and after the eighth reading its packet is dropped and counted. A packet
that is read leaves the consumed mark; a NOP is done with it, and one of an unknown type or of a broken queue is refused,
counted and posted.
The model's choice, not the spec's: what log entry 65 names. -/
def Obligations.PrompterLoop : Prop :=
  ∀ (s : State) (q : Nat),
    let x := s.queue q
    let notify := x.qcb + 16
    (x.served = true → x.mode = .asleep → cleanN s notify 8 ≠ 0 → promptReads s (x.qcb + 12) 12 = true → Plainly s [(notify, 8)] →
      poisoned s (x.qcb + 12) 4 = false → ∃ z, exec (.prompterWake q) s = .next z ∧ cleanN z notify 8 = 0 ∧
        (∀ y, (y < notify ∨ notify + 8 ≤ y) → z.mem.byte y = s.mem.byte y) ∧ (z.queue q).tail = cleanN s (x.qcb + 12) 4 ∧
        (z.queue q).mode = if x.head % 2 ^ 32 = cleanN s (x.qcb + 12) 4 then .asleep else .loop) ∧
    (∀ bs, x.served = true → x.buf = none → x.broken = 0 → packetBytes s q = some bs →
      (x.mode = .loop → mismatch x bs = true → exec (.slotReread q) s = .next (s.setQueue q { x with mode := .reread 0 s.wall })) ∧
      ∀ n since, x.mode = .reread n since → since + 1000 ≤ s.wall →
        (mismatch x bs = false → exec (.slotReread q) s = .next (s.setQueue q { x with mode := .loop })) ∧
        (mismatch x bs = true → n + 1 < 8 → exec (.slotReread q) s =
          .next (s.setQueue q { x with mode := .reread (n + 1) s.wall })) ∧
        (mismatch x bs = true → 8 ≤ n + 1 → ∃ z, exec (.slotReread q) s = .next z ∧ (z.queue q).head = x.head + 1 ∧
          (z.queue q).dropped = sat32 (x.dropped + 1) ∧ (z.queue q).prevRun = some 0)) ∧
    (∀ bs, current s q = some bs →
      let s1 := consumeSlot (poisonSlot s q) q
      (x.buf = none → Plainly s [(x.slot, 128)] → Wrote x.slot [0xFF] s s1) ∧
      (packetType bs = 0 → exec (.packetNop q) s = .next (donePacket s1 q) ∧
        (x.buf = none → ((donePacket s1 q).queue q).head = x.head + 1 ∧
          ((donePacket s1 q).queue q).mode = if (x.head + 1) % 2 ^ 32 = x.tail then .asleep else .loop)) ∧
      (5 ≤ packetType bs → exec (.packetNop q) s = .next (refuse s1 q 2 false) ∧
        ((refuse s1 q 2 false).queue q).refused = sat32 (x.refused + 1))) ∧
    (x.served = true → x.mode = .loop → x.broken ≠ 0 → exec (.packetNop q) s = .next (refuse s q x.broken true) ∧
      ((refuse s q x.broken true).queue q).prevRun = some 0)

/-- R348, R349: WAIT, SIGNAL and INDIRECT packets that pass their checks: the queue waits on its word, makes its store, or acts
on its buffer's packets next; a wait drains first where it asks for that, and the queue goes on once its condition holds or its
store has been performed. A WAIT or SIGNAL that breaks its layout, and an INDIRECT whose length is out of range, is refused with
code 3; one whose address is not good, or whose CAST reaches outside the partition, with code 10.
The model's choice, not the spec's: what log entries 79, 81 and 122 name. -/
def Obligations.PrompterPackets : Prop :=
  ∀ (s : State) (q : Nat),
    let x := s.queue q
    (∀ bs, current s q = some bs →
      let s1 := consumeSlot (poisonSlot s q) q
      let f := fieldN bs 24 8
      let a := fieldD bs 8
      let layout := fieldN bs 1 1 = 0 ∧ fieldN bs 4 4 = 0 ∧ fieldN bs 32 96 = 0
      let size := if f / 2 ^ 9 % 2 = 1 then 8 else 4
      let n := fieldN bs 16 8
      (packetType bs = 2 →
        let good := layout ∧ f / 2 ^ 9 = 0 ∧ f / 4 % 64 = 0 ∧ f % 4 ≠ 3
        (¬good → exec (.waitPacket q) s = .next (refuse s1 q 3 false)) ∧
        (good → goodAddr s x.part a 8 8 = false → exec (.waitPacket q) s = .next (refuse s1 q 10 false)) ∧
        (good → goodAddr s x.part a 8 8 = true → exec (.waitPacket q) s = .next (s1.setQueue q { s1.queue q with
          mode := .waiting true (scratchOff a) (fieldD bs 16) (f % 4 + if f / 2 ^ 8 % 2 = 1 then 4 else 0) false }))) ∧
      (packetType bs = 3 →
        let good := layout ∧ f / 2 ^ 10 = 0 ∧ f % 256 = 0 ∧ (size = 4 → fieldN bs 20 4 = 0)
        let addr := goodAddr s x.part a (if winOf a = 8 then 32 else size) (if winOf a = 8 then 32 else size) = true ∧
          signalWindow a size = true ∧ ∀ r ∈ signalRanges a size, rangeInPart s x.part r.1 r.2 = true
        (¬good → exec (.signal q) s = .next (refuse s1 q 3 false)) ∧
        (good → ¬addr → exec (.signal q) s = .next (refuse s1 q 10 false)) ∧
        (good → addr → f / 2 ^ 8 % 2 = 1 → exec (.signal q) s =
          .next (s1.setQueue q { s1.queue q with mode := .signalHold a (fieldD bs 16) size })) ∧
        (good → addr → f / 2 ^ 8 % 2 = 0 → exec (.signal q) s = .next (signalStore s1 q a (fieldD bs 16) size))) ∧
      (packetType bs = 4 →
        let good := n ≠ 0 ∧ n ≤ 4096
        (x.buf ≠ none → exec (.indirect q) s = .next (refuse s1 q 2 false)) ∧
        (x.buf = none → ¬good → exec (.indirect q) s = .next (refuse s1 q 3 false)) ∧
        (x.buf = none → good → goodAddr s x.part a (128 * n) 256 = false → exec (.indirect q) s = .next (refuse s1 q 10 false)) ∧
        (x.buf = none → good → goodAddr s x.part a (128 * n) 256 = true → ∃ z, exec (.indirect q) s = .next z ∧ z.mem = s1.mem ∧
          (z.queue q).buf = some (scratchOff a, n, 0) ∧ (z.queue q).bufOpen = x.bufOpen ++ [(x.head, n)]))) ∧
    (∀ a v cond met, x.served = true → x.mode = .waiting true a v cond met → (cond < 4 ∨ x.openRuns = []) →
      promptReads s a 8 = true → exec (.waitConditionMet q) s = .next (s.setQueue q { x with
        mode := .waiting false a v (cond % 4) (waitCond (cond % 4) (BitVec.ofNat 64 (cleanN s a 8)) v) })) ∧
    (∀ a v cond, x.served = true → x.mode = .waiting false a v cond true →
      exec (.waitConditionMet q) s = .next (donePacket s q)) ∧
    (∀ a v n, x.served = true → x.mode = .signalHold a v n → x.openRuns = [] →
      exec (.signal q) s = .next (signalStore s q a v n)) ∧
    (∀ id, x.served = true → x.mode = .storing id → accDone s id = true → exec (.signal q) s = .next (donePacket s q))

/-- R341-R343, R351-R355: enabling a queue map latches the queue from its control block and clears RETIRE, HEAD, DROPPED and
REFUSED; disabling it stops the queue, and its accepted runs go on. A RUN that passes every check of Table 23.10 becomes the
queue's next run with the id %run gives it; any other is refused with the code of the first check it fails, and nothing runs.
The model's choice, not the spec's: what log entries 63, 64, 80, 121 and 131 name. -/
def Obligations.QueuesAndRuns : Prop :=
  (∀ (s : State) (q : Nat) (x : Dword), q < 32 →
    let a := ((x &&& qmapMask).extractLsb' 0 34).toNat
    ((qmapOf s q).getLsbD 63 = false → x.getLsbD 63 = true → promptReads s a 64 = true → Plainly s [(a, 64)] →
      (∀ b ∈ s.accs, b.id ∈ promptAccs s q → overlaps b.phys b.size (a + 24) 16 = false) → (s.accs.map Access.id).Nodup →
      ∃ z, exec (.qmapEnable q x) s = .next (parentsCheck z q) ∧
        ((∀ y ∈ s.runs, ∀ p ∈ y.2.launched, p.1 ≠ q) → parentsCheck z q = z) ∧ qmapOf z q = x &&& qmapMask ∧
        (∀ j < 4, cleanN z (a + 24 + 4 * j) 4 = 0) ∧
        (∀ y, (y < a + 24 ∨ a + 40 ≤ y) → z.mem.byte y = s.mem.byte y) ∧
        (z.queue q).served = true ∧ (z.queue q).head = 0 ∧ (z.queue q).mode = .asleep ∧ (z.queue q).qcb = a ∧
        (z.queue q).part = (x.extractLsb' 40 16).toNat ∧ (z.queue q).lcap = x.getLsbD 57 ∧ (z.queue q).ring = cleanN s a 8 ∧
        (z.queue q).capLog2 = cleanN s (a + 8) 1 ∧ (z.queue q).epoch = (s.queue q).epoch + 1 ∧ z.troupes = s.troupes ∧
        z.runs = s.runs) ∧
    ((qmapOf s q).getLsbD 63 = true → x.getLsbD 63 = false → ∃ z, exec (.qmapDisable q x) s = .next z ∧
      qmapOf z q = x &&& qmapMask ∧ (z.queue q).served = false ∧ (z.queue q).mode = (s.queue q).mode.stopped ∧
      (z.queue q).head = (s.queue q).head ∧ (z.queue q).openRuns = (s.queue q).openRuns ∧
      z.mem = s.mem ∧ z.troupes = s.troupes ∧ z.runs = s.runs ∧ z.companies = s.companies ∧
      ∀ j, j ≠ q → z.queue j = s.queue j)) ∧
  (∀ (s : State) (q : Nat) (bs : List Byte), current s q = some bs → packetType bs = 1 →
    codeAddrGood s (s.queue q).part (fieldD bs 8) = false → ∃ code,
      exec (.runPacket q) s = .next (refuse (consumeSlot (poisonSlot s q) q) q code true)) ∧
  ∀ (s : State) (q : Nat) (bs : List Byte), current s q = some bs → packetType bs = 1 →
    codeAddrGood s (s.queue q).part (fieldD bs 8) = true → promptReads s (scratchOff (fieldD bs 8)) 64 = true →
    poisoned s (scratchOff (fieldD bs 8)) 64 = false →
    let h := cleanBytes s (scratchOff (fieldD bs 8)) 64
    let r := runOfPacket (s.queue q) q bs h true
    let s1 := consumeSlot (poisonSlot s q) q
    let alone := ∀ y ∈ s.runs, ∀ p ∈ y.2.launched, p.1 ≠ q
    (∀ code, runRefusal s (s.queue q) bs h r = some code →
      exec (.runPacket q) s = .next (refuse s1 q code true) ∧ (alone → (refuse s1 q code true).runs = s.runs) ∧
      ((refuse s1 q code true).queue q).refused = sat32 ((s.queue q).refused + 1)) ∧
    (runRefusal s (s.queue q) bs h r = none → exec (.runPacket q) s = .next (acceptRun s1 q bs r)) ∧
    (runRefusal s (s.queue q) bs h r = none → alone → ∃ z k, exec (.runPacket q) s = .next z ∧ k = nextKey s.runs ∧
      (z.run k).id = s.nextRun ∧ (z.run k).queue = q ∧ (z.run k).packet = (s.queue q).head ∧
      (z.run k).items = fieldN bs 16 8 ∧ (z.run k).grid = (fieldN bs 32 4, fieldN bs 36 4, fieldN bs 40 4) ∧
      (z.run k).entry = BitVec.ofNat 32 (fieldN h 32 4) ∧ (z.run k).code = scratchOff (fieldD bs 8) ∧
      (z.run k).complete = false ∧ (∀ j, j ≠ k → z.run j = s.run j) ∧ z.troupes = s.troupes ∧
      z.nextRun = (if s.nextRun = 0xFFFFFFFF then 1 else s.nextRun + 1) ∧ k ∈ (z.queue q).openRuns)

/-! ### Events of the ports and of housekeeping (27_host_fabric.md, 29_translation.md, 31_housekeeping.md) -/

/-- R396, R398, R404, R417, R425, R435: a register write takes effect by the register's own rule. One that is not 4 or 8
naturally aligned bytes, or that carries a PASID, is refused; read-only registers stay; a 16-byte register changes only with its
upper word, as one unit; an HWAKE enabled on a nonzero word sends its vector at once; counters are cleared by 0 alone; TIMESET
only moves TIME on; a region's entry is replaced, which moves no byte, and the derivations of a partition that has lost its last
region are removed (R135).
The model's choice, not the spec's: what log entries 7, 83, 84, 91, 127 and 128 name. -/
def Obligations.RegisterWrites : Prop :=
  ∀ (s : State),
    (∀ port off size x, accessFits port off size = false →
      exec (.registerWrite port off size x) s = .next (refuseRegister s port)) ∧
    (∀ port (off : Nat) x, accessFits port off 8 = true → off = 0 ∨ off = 0x5000 ∨ off = 0x5018 →
      exec (.registerWrite port off 8 x) s = .next s) ∧
    (∀ port (x : Dword), accessFits port 0x7000 8 = true → exec (.registerWrite port 0x7000 8 x) s =
      .next { s with ports := { s.ports with skid := x.toNat % 2 ^ 14 } }) ∧
    (∀ port n (lo hi : Dword), n < 64 → accessFits port 0x2000 8 = true → ∃ z y,
      exec (.registerStagedWrite port (0x2000 + 16 * n) 8 lo) s = .next z ∧
      exec (.registerStagedWrite port (0x2000 + 16 * n + 8) 8 hi) z = .next y ∧
      (∀ j, (tget z.ports.svcr Reg16.zero j).val = (tget s.ports.svcr Reg16.zero j).val) ∧
      (tget y.ports.svcr Reg16.zero n).val = (hi ++ lo) &&& reg16Mask (.svcr n) ∧
      ∀ j, j ≠ n → (tget y.ports.svcr Reg16.zero j).val = (tget s.ports.svcr Reg16.zero j).val) ∧
    (∀ n (x : Dword), n < 64 → x.getLsbD 63 = true → ∃ z, exec (.hwakeEnable n x) s = .next z ∧ z.mem = s.mem ∧
      z.troupes = s.troupes ∧ hwakeOff (tget z.ports.hwake 0 n) = hwakeOff x ∧ (tget z.ports.hwake 0 n).getLsbD 63 = true ∧
      (s.mem.readN (hwakeOff x) 8 = 0 → z.out = s.out ∧
        (tget z.ports.hwake 0 n).getLsbD 62 = ((tget s.ports.hwake 0 n).getLsbD 62 && !x.getLsbD 62)) ∧
      (s.mem.readN (hwakeOff x) 8 ≠ 0 → (tget z.ports.hwake 0 n).getLsbD 62 = true ∧
        (msixMasked s n = false → z.out = s.out ++ [.msix n]) ∧
        (msixMasked s n = true → z.out = s.out ∧ z.ports.msixPend.getLsbD n = true))) ∧
    (∀ n (x : Word), n < 19 → exec (.errcntClear n x) s =
      .next (if x = 0 then { s with ports := { s.ports with errcnt := tput s.ports.errcnt n 0 } } else s)) ∧
    (∀ off (x : Word), counterAt off = true → exec (.counterClear off x) s =
      .next (if x = 0 then { s with ports := { s.ports with counters := tput s.ports.counters off 0 } } else s)) ∧
    (∀ x : Dword, exec (.timeset x) s = .next (if isMaster s = true ∧ s.ports.time.toNat ≤ x.toNat then
      { s with ports := { s.ports with time := x } } else s)) ∧
    ∀ die r (x : Word), die < 4 → r < 2048 →
      let z := { s with ports := { s.ports with region := tput s.ports.region (2048 * die + r) (x &&& 0xC03FFFFF) } }
      let old := regionEntry s (2048 * die + r)
      let p := (old.extractLsb' 5 16).toNat
      let gone := old.getLsbD 21 = true ∧ partGone z p = true
      let becomes := fun i => ∃ y, exec i s = .next y ∧ (¬gone → y = z) ∧
        y.mem = s.mem ∧ y.troupes = s.troupes ∧ y.ports = z.ports ∧
        ((∀ a ∈ s.accs, a.st ≠ .derived) → y.accs = s.accs) ∧
        (∀ k, (∀ e ∈ s.entries, e.1 = k → e.2.used = false ∨ e.2.part ≠ p) → y.entry k = s.entry k) ∧
        (gone → ∀ k, (s.entry k).used = true → (s.entry k).part = p → (y.entry k).used = false)
      (x.getLsbD 31 = true → becomes (.regionMoveSet die r x)) ∧
      (x.getLsbD 31 = false ∨ old.getLsbD 31 = true → becomes (.regionTableWrite die r x))

/-- R411-R415: a fault of device space is reported once for each ASID, page and kind, again after 10 µs if the report was
dropped, and fails after 1 s; the kernel's answer walks again or fails it. Host space asks for a translation, then, with the
page-request interface enabled and the host's grant leaving room, for the page; accesses that need one page share its request.
Invalidations drop what they match. A record whose translation has failed ends, and the failure is recorded for its troupe.
The model's choice, not the spec's: what log entries 108 and 139 name. -/
def Obligations.Translations : Prop :=
  ∀ (s : State),
    (∀ q : Xreq, reqById s q.id = some q →
      let becomes := fun i st => exec i s = .next (settleGroups (setReq s { q with st := st }))
      (q.st = .fault → q.host = false →
        (∀ st, mergedReport s q = some st → becomes (.deviceTranslationFault q.id) st) ∧
        (mergedReport s q = none → s.ports.xfaultq = 0 →
          becomes (.deviceTranslationFault q.id) (.unreported s.wall s.wall)) ∧
        (mergedReport s q = none → s.ports.xfaultq ≠ 0 → exec (.deviceTranslationFault q.id) s =
          .next (settleGroups (addAcc (setReq s { q with st := .posting s.wall })
            { Access.make (.fault q.id) .enq s.ports.xfaultq (scratchOff s.ports.xfaultq) 8 with
              data := BitVec.ofNat 64 (faultEntry q) })))) ∧
      (∀ since last, q.st = .unreported since last → last + 10000 ≤ s.wall →
        exec (.faultReportRetry q.id) s = .next (settleGroups (reportFault s q since))) ∧
      ∀ since, (q.st = .reported since ∨ q.st = .posting since ∨ ∃ last, q.st = .unreported since last) →
        since + 1000000000 ≤ s.wall → becomes (.faultTimeout q.id) .failed) ∧
    ((s.xreqs.map Xreq.id).Nodup →
      let hit := fun (x : Dword) (q : Xreq) => q.host = false ∧ q.st.answered = true ∧ q.ctx = bitsOf x 60 45 ∧ q.page = bitsOf x 44 0
      (∀ x : Dword, x.getLsbD 63 = true → ∃ z, exec (.xrespFail x) s = .next (settleGroups z) ∧ { z with xreqs := s.xreqs } = s ∧
        ∀ q ∈ s.xreqs, reqById z q.id = some (if hit x q then { q with st := .failed } else q)) ∧
      (∀ x : Dword, x.getLsbD 63 = false → ∃ z, exec (.xrespRetry x) s = .next (settleGroups z) ∧ z.mem = s.mem ∧
        ∀ q ∈ s.xreqs, reqById z q.id = some (if hit x q then { q with st := match walk s q.root q.page q.write with
          | .ok _ _ _ _ _ => .resolved
          | .fault => .fault
          | .fail => .failed } else q)) ∧
      (∀ pasid page r w pa pages, ∃ z, exec (.atsTranslationCompletion pasid page r w pa pages) s = .next (settleGroups z) ∧
        z.mem = s.mem ∧ ∀ q ∈ s.xreqs, ∃ st, reqById z q.id = some { q with st := st } ∧
          let ok := (if q.write then w else r) = true
          let mine := q.host = true ∧ q.ctx = pasid ∧ q.page = page
          (mine → q.st = .atsAsked →
            (ok → st = .resolved) ∧
            (¬ok → s.ports.priEn = false → st = .failed) ∧
            (¬ok → s.ports.priEn = true → st = .pageWait ∨ ∃ since, st = .pageAsked since false) ∧
            (¬ok → s.ports.priEn = true → (pagesOut s q.unit).length + 1 < min s.ports.priAlloc 512 → st ≠ .pageWait)) ∧
          (∀ since, mine → q.st = .pageAsked since true → (ok → st = .resolved) ∧ (¬ok → st = .failed)) ∧
          (¬mine ∨ q.st ≠ .atsAsked ∧ (∀ since, q.st ≠ .pageAsked since true) → st = q.st)) ∧
      (∀ q ∈ s.xreqs, ∀ since, q.host = true → q.st = .pageAsked since false →
        (∃ z more, exec (.priPageResponse q.id 0) s = .next (settleGroups z) ∧
          z.out = (askAts s q.unit q.ctx q.page).out ++ more ∧ (∀ o ∈ more, ∃ c p w, o = .pageRequest c p w) ∧
          ∀ x ∈ s.xreqs, x.host = true → x.unit = q.unit → x.paged = q.paged →
            reqById z x.id = some { x with st := .pageAsked since true }) ∧
        let fails := fun i => ∃ z, exec i s = .next (settleGroups z) ∧
          ∀ x ∈ s.xreqs, x.host = true → x.unit = q.unit → x.paged = q.paged → reqById z x.id = some { x with st := .failed }
        (∀ code, code ≠ 0 → fails (.priPageResponse q.id code)) ∧
        (since + 1000000000 ≤ s.wall → fails (.pageRequestTimeout q.id)))) ∧
    (∀ x : Dword, ∃ z, exec (.xinv x) s = .next z ∧ z.ports.xinvs = s.ports.xinvs ++ [x] ∧
      z.ports.xinvSeq = s.ports.xinvSeq + 1 ∧ z.xcache = s.xcache ∧ z.troupes = s.troupes ∧ z.mem = s.mem) ∧
    (∀ x rest, s.ports.xinvs = x :: rest → ∃ z, exec .xinvComplete s = .next z ∧ z.ports.xinvs = rest ∧
      z.ports.xinvAck = s.ports.xinvAck + 1 ∧ z.troupes = s.troupes ∧ z.mem = s.mem ∧
      ∀ c, c ∈ z.xcache ↔ c ∈ s.xcache ∧ ¬(c.host = false ∧ (x.getLsbD 62 = true ∨ c.ctx = bitsOf x 60 45) ∧
        (x.getLsbD 63 = true ∨ c.page ≤ bitsOf x 44 0 ∧ bitsOf x 44 0 < c.page + c.pages))) ∧
    (∀ pasid page pages tag, ∃ z, exec (.atsInvalidationRequest pasid page pages tag) s = .next z ∧
      z.out = s.out ++ [.invalidationCompletion tag] ∧ z.troupes = s.troupes ∧ z.mem = s.mem ∧
      ∀ c, c ∈ z.xcache ↔ c ∈ s.xcache ∧ ¬(c.host = true ∧ c.ctx = pasid ∧ overlaps page pages c.page c.pages = true)) ∧
    ∀ (cp : Copy) (q : Xreq), copyById s cp.id = some cp → cp.ended = false → cp.parked = false → cp.lane = none →
      s.xreqs.find? (fun x => x.copy == cp.id && x.st == .failed) = some q → (∀ b ∈ s.accs, b.st ≠ .heldP) →
      ∃ z, exec (.translationFailure cp.id) s = .next z ∧ z.mem = s.mem ∧ copyById z cp.id = some { cp with ended := true, failed := some (reqAddr cp q) } ∧
        (z.troupe cp.t).xfaults = (s.troupe cp.t).xfaults ++ [reqAddr cp q] ∧ (∀ x ∈ z.xreqs, x.copy ≠ cp.id) ∧
        ∀ l ∈ linesOfCopy s cp.id, tget z.pclear 0 l = 0

/-- R391-R397, R399, R402: a PCI Express request of the window aperture that passes its checks and the ingress table enters its
accesses, the parts of one request each after the one below it; before the wipe a write is dropped and a read aborted; a
poisoned or misused one, and one no entry permits, is logged with its cause, and a read of it answered with zeros. A read
without a value after 40 ms is aborted, once, whatever number of its parts is outstanding.
The model's choice, not the spec's: what log entries 87 and 88 name. -/
def Obligations.HostRequests : Prop :=
  (∀ (s : State) (r : PcieReq),
    let addr := apertureAddr r.off
    let win := winOf addr
    let i := Instr.windowApertureRequest r
    let log := fun cause => logError s 0 cause r.rid win addr
    let allowed := permitted s 0 r.rid r.pasid win (scratchOff addr) (opModifies (winOp (!r.write) win))
    (s.mgmt.ready.getLsbD 0 = false →
      exec i s = .next (if r.write then s else { s with out := s.out ++ [.completerAbort r.rid r.tag] })) ∧
    (s.mgmt.ready.getLsbD 0 = true →
      (r.poisoned = true → exec i s = .next (log 7)) ∧
      (r.poisoned = false → r.atomic = true → exec i s =
        .next (logError { s with out := s.out ++ [.unsupported r.rid r.tag] } 0 2 r.rid win addr)) ∧
      (r.poisoned = false → r.atomic = false →
        (∀ cause, pcieCause r win = some cause → exec i s = .next (pcieZero (log cause) r)) ∧
        (pcieCause r win = none → win ≠ 7 → allowed = false → exec i s = .next (pcieZero (log 4) r)) ∧
        (pcieCause r win = none → win ≠ 7 → allowed = true → ∃ z as, exec i s = .next z ∧ z.accs = s.accs ++ as ∧ z.mem = s.mem ∧
          z.troupes = s.troupes ∧ (∀ a ∈ as, a.op = winOp (!r.write) win ∧ a.dev = none ∧ a.st = .queued) ∧
          (2 ≤ win → as.map (fun a => (a.phys, a.size)) = [(scratchOff addr, reqBytes r)]) ∧
          (win ≤ 1 → r.write = false → as.map (fun a => (a.phys, a.size)) = readParts (scratchOff addr) r.len) ∧
          (win ≤ 1 → ∀ j a b, as[j]? = some a → as[j + 1]? = some b → a.id ∈ b.after) ∧
          (win = 0 → r.write = true → as.map (fun a => (a.phys, a.data)) =
            (writeParts (scratchOff addr) r.data r.enables).map fun x => (x.1, BitVec.ofNat 64 x.2.2)))))) ∧
  ∀ (s : State) (a : Access) (rid tag part : Nat) (pasid : Option Nat), accById s a.id = some a → a.who = .pcie rid pasid tag part →
    opReturns a.op = true → a.cmp = 0 →
    (s.wall ≤ a.issued + 40000000 → exec (.completionTimeout a.id) s = .next s) ∧
    (a.issued + 40000000 < s.wall → (∃ b ∈ readGroup s a, b.st ≠ .performed) → exec (.completionTimeout a.id) s =
      let z := (readGroup s a).foldl (fun z b => setAcc z { b with cmp := 1 }) s
      .next (logError { z with out := z.out ++ [.completerAbort rid tag] } 0 8 rid (winOf a.addr) a.addr))

/-- R87, R321, R397, R401, R402, R404, R417: an arriving Skason access that is well formed and permitted, and whose region is
not being moved, is entered; others are answered with their cause, or with a hint to try again; one of a link that the module
does not have is none. Packets for another device go on, and one that reaches its ninth hop is refused. A refused access is sent
again after its hint, and given up after 10 ms; one unacknowledged for 1 ms, whose link went down after it was sent, is given
up. Links leave and join the module's masks, and what a lost link has not delivered is marked so, and the link of a closer
master of the time becomes the parent's, until it goes down or reports no master.
The model's choice, not the spec's: what log entries 86, 89, 90 and 91 name. -/
def Obligations.SkasonAndTime : Prop :=
  (∀ (s : State) (r : SkReq),
    let win := winOf r.addr
    let p := scratchOff r.addr
    let ok := permitted s 1 r.src none win p (opModifies r.op)
    (r.dst ≠ skid s ∨ linkExists s r.link = false → exec (.skasonRemoteAccess r) s = .next s) ∧
    (r.dst = skid s ∨ linkExists s r.link = false → exec (.skasonForward r) s = .next s) ∧
    (r.dst = skid s → linkExists s r.link = true → (∀ cause, skasonCause r = some cause → exec (.skasonRemoteAccess r) s =
        .next (skasonReply (logError s (r.link + 1) cause r.src win r.addr) r cause)) ∧
      (skasonCause r = none → r.op ≠ .cast →
        (ok = false → exec (.skasonRemoteAccess r) s = .next (skasonReply (logError s (r.link + 1) 4 r.src win r.addr) r 4)) ∧
        (ok = true → (regionEntry s (regionOf p)).getLsbD 31 = true → ∃ hint, 1 ≤ hint ∧ hint ≤ 255 ∧
          exec (.skasonRemoteAccess r) s = .next (skasonReply { s with picks := s.picks + 1 } r (256 + hint))) ∧
        (ok = true → (regionEntry s (regionOf p)).getLsbD 31 = false → ∃ z a, exec (.skasonRemoteAccess r) s = .next z ∧
          z.accs = s.accs ++ [a] ∧ z.mem = s.mem ∧ z.troupes = s.troupes ∧ a.who = .skason r.src r.link r.tag r.troupe ∧
          a.op = r.op ∧ a.phys = p ∧ a.size = r.size ∧ a.data = r.data ∧ a.st = .queued ∧ a.dev = none))) ∧
    (r.dst ≠ skid s → linkExists s r.link = true →
      (9 ≤ r.hops + 1 → exec (.skasonForward r) s = .next (skasonReply s r 12)) ∧
      (r.hops + 1 < 9 → (∀ l, routeLink s r.dst p = some l → exec (.skasonForward r) s =
          .next { s with out := s.out ++ [.skason l { r with hops := r.hops + 1 }] }) ∧
        (routeLink s r.dst p = none → exec (.skasonForward r) s = .next (skasonReply s r 11))))) ∧
  (∀ (s : State) (a : Access), accById s a.id = some a →
    (a.st = .remote → ∃ z hint, exec (.retryAfterExpiry a.id) s = .next z ∧ 1 ≤ hint ∧ hint ≤ 255 ∧
      z.accs = (setAcc s { a with st := .retry s.wall hint }).accs ∧ z.mem = s.mem ∧ z.troupes = s.troupes) ∧
    (∀ since hint l, a.st = .retry since hint → since + 1000 * hint ≤ s.wall → afterOk (setAcc s { a with st := .queued }) { a with st := .queued } = true →
      routeLink s (remoteId a.addr) (scratchOff a.addr) = some l → ∃ z r, exec (.retryAfterExpiry a.id) s = .next z ∧
        z.out = s.out ++ [.skason l r] ∧ r.addr = a.addr ∧ r.data = a.data ∧ r.op = a.op ∧
        accById z a.id = some { a with
          st := .remote, issued := s.wall, dies := [l], acked := false, cut := false
          deadline := if a.deadline = 0 then 0 else s.wall + (a.deadline - a.issued)
          hold := if a.hold = 0 then s.wall + 10000000 else a.hold } ∧ z.troupes = s.troupes) ∧
    (∀ since hint, a.st = .retry since hint → a.hold ≤ s.wall → exec (.remoteRefusalTimeout a.id) s =
      .next (refuseRemote s a ((routeLink s (remoteId a.addr) (scratchOff a.addr)).getD 17 + 1) 10)) ∧
    (a.st = .remote → a.cut = true → a.acked = false → a.issued + 1000000 ≤ s.wall → exec (.linkAckTimeout a.id) s =
      .next (refuseRemote s a (a.dies.headD 17 + 1) 11))) ∧
  (∀ (s : State) (l : Nat), (∃ z, exec (.linkDown l) s = .next z ∧ l ∉ z.ports.links ∧
      (∀ k, k ≠ l → (k ∈ z.ports.links ↔ k ∈ s.ports.links)) ∧
      z.accs = s.accs.map (fun a => if a.onLink l then { a with cut := true } else a) ∧
      (∀ f, s.ports.follows = some f → (f.2.2 = l → z.ports.follows = none ∧ z.ports.locked = false) ∧
        (f.2.2 ≠ l → z.ports.follows = some f ∧ z.ports.locked = s.ports.locked)) ∧
      z.copies = s.copies.map (fun c => { c with chunks := c.chunks.map fun k =>
        if k.sent ≠ 0 ∧ k.transfer.isSome = true ∧ k.link = l then { k with cut := true } else k }) ∧
      { z with ports := s.ports, accs := s.accs, copies := s.copies } = s) ∧
    (linkExists s l = true → ∃ z, exec (.linkTrained l) s = .next z ∧ l ∈ z.ports.links ∧
      (∀ k, k ≠ l → (k ∈ z.ports.links ↔ k ∈ s.ports.links)) ∧ { z with ports := s.ports } = s)) ∧
  ∀ (s : State) (l : Nat) (msg : TimeMsg), l ∈ s.ports.links → s.ports.timeCtl.getLsbD 62 = true →
    let parent := ∃ f, s.ports.follows = some f ∧ f.2.2 = l
    let candidate := s.ports.timeCtl.getLsbD 63 = true
    let freed := fun i => exec i s = .next { s with ports := s.ports.free }
    (parent → freed (.timeMessage l none msg)) ∧ (¬parent → exec (.timeMessage l none msg) s = .next s) ∧
    ∀ m h : Nat,
      let closer := ∀ f, s.ports.follows = some f → m < f.1 ∨ m = f.1 ∧ h + 1 < f.2.1
      let i := Instr.timeMessage l (some (m, h)) msg
      (candidate → s.ports.skid ≤ m → (parent → freed i) ∧ (¬parent → exec i s = .next s)) ∧
      (¬candidate ∨ m < s.ports.skid → (¬parent → ¬closer → exec i s = .next s) ∧
        (parent ∨ closer → ∃ z, exec i s = .next z ∧ z.ports.follows = some (m, h + 1, l) ∧
          let o : Int := (msg.time.toNat : Int) + ((msg.round / 2 : Nat) : Int) - (s.ports.time.toNat : Int)
          z.ports.timeOff = BitVec.ofInt 32 o ∧
          z.ports.time = s.ports.time + BitVec.ofNat 64 (if 10000 < o then o.toNat else 0) ∧
          (z.ports.locked = true → -5 ≤ o ∧ o ≤ 5) ∧ { z with ports := s.ports } = s))

/-- R421-R428: resets empty the module but for what they keep, and the wipe then leaves memory zero and READY.WIPE set; until it
has, no other bit of READY is. An uncorrected error poisons its part; in a register it reads zero, is counted and posted. SPDM
answers in its order, and its digests and measurements are those of the images in force. An image counts only with a good
signature and version, and takes effect at the next function or cold reset. Power and temperature steer the clock, and above 115
°C the module is held in reset until below 95 °C.
The model's choice, not the spec's: what log entries 11, 92, 93, 94, 95 and 96 name. -/
def Obligations.Housekeeping : Prop :=
  ∀ (s : State),
    let g := s.mgmt
    let answers := fun i code body => exec i s = .next (spdmOut s code body)
    let emptied := fun (z : State) => z.mem = [] ∧ z.troupes = [] ∧ z.companies = [] ∧ z.runs = [] ∧ z.queues = [] ∧
      z.accs = [] ∧ z.copies = [] ∧ z.entries = [] ∧ z.tiles = [] ∧ z.mgmt.ready = 0 ∧ z.mgmt.wiping = true ∧ z.out = s.out
    (∃ z, exec .coldReset s = .next z ∧ emptied z ∧ z.ports = Ports.reset ∧ z.mgmt.clock = 1250 ∧
      z.mgmt.plimit = 1900 ∧ z.mgmt.nextImages = []) ∧
    (∃ z, exec .functionLevelReset s = .next z ∧ emptied z ∧ z.ports.skid = s.ports.skid ∧ z.ports.route = s.ports.route ∧
      z.ports.time = s.ports.time ∧ z.ports.qmap = [] ∧ z.ports.ingr = [] ∧ z.mgmt.ownerGen = g.ownerGen ∧ z.mgmt.nextImages = []) ∧
    (∃ z, exec .ownerChange s = .next z ∧ emptied z ∧ z.mgmt.ownerGen = g.ownerGen + 1 ∧
      z.mgmt.images = g.images ∧ z.mgmt.nextImages = g.nextImages) ∧
    (g.wiping = true → g.held = false → ∃ z, exec .wipeComplete s = .next z ∧ (∀ a, z.mem.byte a = 0) ∧
      (∀ a n, anyAbsent z [(a, n)] = false) ∧ z.entries = [] ∧ z.ports.counters = [] ∧ z.mgmt.wiping = false ∧
      z.mgmt.ready = g.ready ||| 1) ∧
    (∀ b, 1 ≤ b → b ≤ 5 → g.held = false → (g.wiping = true → exec (.functionReady b) s = .next s) ∧
      (g.wiping = false → exec (.functionReady b) s = .next { s with mgmt := { g with ready := g.ready ||| 1#6 <<< b } })) ∧
    (∀ loc, isMemory s loc = true → ∃ z, exec (.eccError 0 loc false) s = .next z ∧ poisoned z loc 1 = true ∧ cleanByte z loc = 0 ∧ z.mem = s.mem) ∧
    (∀ loc, isMemory s loc = true → ∃ off, exec (.eccError 0 loc true) s = .next (bump s off 1)) ∧
    (∀ loc c, isMemory s loc = false → exec (.eccError 0 loc c) s = .next s) ∧
    (∀ t k, k < 2 ^ 32 → (s.troupe t).placed = true → ∃ z, exec (.eccError 1 (t * 2 ^ 32 + k) false) s = .next z ∧
      (z.troupe t).reg k = 0 ∧ (∀ j, j / 2 ≠ k / 2 → (z.troupe t).reg j = (s.troupe t).reg j) ∧ z.mem = s.mem) ∧
    (∃ z, exec .getVersion s = .next z ∧ z.mgmt.spdmVersion = true ∧ z.mgmt.spdmCaps = false ∧ z.mgmt.spdmAlgs = false) ∧
    (g.spdmVersion = true → ∃ z, exec .getCapabilities s = .next z ∧ z.mgmt.spdmCaps = true) ∧
    (g.spdmCaps = true → (∃ z, exec (.negotiateAlgorithms true true) s = .next z ∧ z.mgmt.spdmAlgs = true) ∧
      ∀ a b, (a && b) = false → exec (.negotiateAlgorithms a b) s = .next (spdmError s)) ∧
    (g.spdmAlgs = true → answers .getDigests 0x01 (digestBytes (Config.sha256 Config.certificateChain)) ∧
      (∀ o n, answers (.getCertificate o n) 0x02 ((Config.certificateChain.drop o).take n)) ∧
      (∀ nonce, let body := leBytes 32 nonce ++ (List.range 6).flatMap fun k => measurement s (k + 1)
        answers (.challenge nonce) 0x03 (body ++ Config.ecdsaSign body)) ∧
      answers (.getMeasurements 0) 0x60 [6] ∧ ∀ k, 1 ≤ k → k ≤ 6 → answers (.getMeasurements k) 0x60 (measurement s k)) ∧
    (∀ x, let good := Config.ecdsaVerify (Config.sha256 (coveredBytes x)) x.sigR x.sigS = true ∧ 1 ≤ x.kind ∧ x.kind ≤ 4 ∧
        Config.fusedMinimum x.kind ≤ x.version
      exec (.firmwareImage x) s = .next { s with mgmt := if good then { g with nextImages := tput g.nextImages x.kind x }
        else { g with rejections := g.rejections + 1 } }) ∧
    (∀ w, 800 ≤ w → w ≤ 1900 → exec (.setPowerLimit w) s = .next { s with mgmt := { g with plimit := w } }) ∧
    (∀ w, ∃ z, exec (.powerAverage w) s = .next z ∧ { z with mgmt := s.mgmt } = s ∧
      (g.plimit < w → z.mgmt.clock = max 625 (g.clock - 25)) ∧
      (w ≤ g.plimit → 95 * g.plimit < 100 * w → z.mgmt.clock = g.clock) ∧
      (100 * w ≤ 95 * g.plimit → w ≤ g.plimit → z.mgmt.clock =
        if 100 ≤ g.under + 10 ∧ g.hot = false then min 1250 (g.clock + 25) else g.clock)) ∧
    ∀ c, ∃ z, exec (.thermalTrip c) s = .next z ∧ (115 < c → emptied z ∧ z.mgmt.held = true) ∧
      (c ≤ 115 → g.held = true → z.mgmt.held = decide (95 ≤ c)) ∧
      (105 < c → c ≤ 115 → g.held = false → z.mgmt.clock = max 625 (g.clock - 25)) ∧
      (c ≤ 105 → g.held = false → z.mgmt.clock = g.clock ∧ z.mgmt.hot = false)
end

