-- ==== Sys2Proof/Laws/Tables.lean ====
section
/-! SUPPORT. The laws of tables and of memory: a read after a write, and the canonical form that every write keeps. -/

namespace Sys2Proof.Machine

open Sys2Proof

/-! ### Tables -/

theorem tget_terase_self {V : Type} (m : Table V) (d : V) (k : Nat) : tget (terase m k) d k = d := by
  induction m with
  | nil => rfl
  | cons x r ih =>
    obtain ⟨a, v⟩ := x
    by_cases h : a = k <;> simp [terase, h, ih, tget]

theorem tget_terase_ne {V : Type} (m : Table V) (d : V) {k j : Nat} (h : j ≠ k) : tget (terase m k) d j = tget m d j := by
  induction m with
  | nil => rfl
  | cons x r ih =>
    obtain ⟨a, v⟩ := x
    by_cases ha : a = k
    · simp [terase, ha, tget, ih, Ne.symm h]
    · simp [terase, ha, tget, ih]

theorem tget_tinsert_ne {V : Type} (m : Table V) (d v : V) {k j : Nat} (h : j ≠ k) :
    tget (tinsert m k v) d j = tget m d j := by
  induction m with
  | nil => simp [tinsert, tget, Ne.symm h]
  | cons x r ih =>
    obtain ⟨a, w⟩ := x
    by_cases hk : k < a
    · simp [tinsert, hk, tget, Ne.symm h]
    · simp [tinsert, hk, tget, ih]

theorem tget_tinsert_erased {V : Type} (m : Table V) (d v : V) (k : Nat) : tget (tinsert (terase m k) k v) d k = v := by
  induction m with
  | nil => simp [terase, tinsert, tget]
  | cons x r ih =>
    obtain ⟨a, w⟩ := x
    by_cases ha : a = k
    · simp [terase, ha, ih]
    · by_cases hk : k < a
      · simp [terase, ha, tinsert, hk, tget]
      · simp [terase, ha, tinsert, hk, tget, ih]

@[simp] theorem tget_tput_self {V : Type} (m : Table V) (d v : V) (k : Nat) : tget (tput m k v) d k = v :=
  tget_tinsert_erased m d v k

theorem tget_tput_ne {V : Type} (m : Table V) (d v : V) {k j : Nat} (h : j ≠ k) : tget (tput m k v) d j = tget m d j := by
  rw [tput, tget_tinsert_ne _ _ _ h, tget_terase_ne _ _ h]

/-- A read after a write of a table. -/
theorem tget_tput {V : Type} (m : Table V) (d v : V) (k j : Nat) :
    tget (tput m k v) d j = if j = k then v else tget m d j := by
  by_cases h : j = k
  · simp [h]
  · simp [h, tget_tput_ne _ _ _ h]

/-- A read after a write of a table that keeps no default. -/
theorem tget_tset {V : Type} [DecidableEq V] (m : Table V) (d v : V) (k j : Nat) :
    tget (tset m d k v) d j = if j = k then v else tget m d j := by
  by_cases hv : v = d
  · by_cases h : j = k
    · simp [tset, hv, h, tget_terase_self]
    · simp [tset, hv, h, tget_terase_ne _ _ h]
  · by_cases h : j = k
    · simp [tset, hv, h, tget_tinsert_erased]
    · simp [tset, hv, h, tget_tinsert_ne _ _ _ h, tget_terase_ne _ _ h]

/-! ### Sorted tables -/

/-- Addresses of a list, each above `b`. -/
theorem rising_cons {a : Nat} {l : List Nat} : rising (a :: l) = true ↔ (∀ x ∈ l, a < x) ∧ rising l = true := by
  induction l generalizing a with
  | nil => simp [rising]
  | cons b r ih =>
    simp only [rising, Bool.and_eq_true, decide_eq_true_eq, List.mem_cons, forall_eq_or_imp]
    constructor
    · rintro ⟨h, hr⟩
      exact ⟨⟨h, fun x hx => lt_trans h ((ih.1 hr).1 x hx)⟩, hr⟩
    · rintro ⟨⟨h, _⟩, hr⟩
      exact ⟨h, hr⟩

theorem mem_keys_terase {V : Type} {m : Table V} {k x : Nat} (h : x ∈ (terase m k).map Prod.fst) :
    x ∈ m.map Prod.fst ∧ x ≠ k := by
  induction m with
  | nil => simp [terase] at h
  | cons y r ih =>
    obtain ⟨a, v⟩ := y
    by_cases ha : a = k
    · simp only [terase, ha, if_true] at h
      exact ⟨by simp [(ih h).1], (ih h).2⟩
    · simp only [terase, ha, if_false, List.map_cons, List.mem_cons] at h
      rcases h with rfl | h
      · exact ⟨by simp, ha⟩
      · exact ⟨by simp [(ih h).1], (ih h).2⟩

theorem mem_keys_tinsert {V : Type} {m : Table V} {k x : Nat} {v : V} (h : x ∈ (tinsert m k v).map Prod.fst) :
    x = k ∨ x ∈ m.map Prod.fst := by
  induction m with
  | nil => simpa [tinsert] using h
  | cons y r ih =>
    obtain ⟨a, w⟩ := y
    by_cases hk : k < a
    · simpa [tinsert, hk] using h
    · simp only [tinsert, hk, if_false, List.map_cons, List.mem_cons] at h ⊢
      rcases h with rfl | h
      · simp
      · rcases ih h with h | h <;> simp [h]

theorem rising_terase {V : Type} {m : Table V} (k : Nat) (h : rising (m.map Prod.fst) = true) :
    rising ((terase m k).map Prod.fst) = true := by
  induction m with
  | nil => rfl
  | cons y r ih =>
    obtain ⟨a, v⟩ := y
    rw [List.map_cons, rising_cons] at h
    by_cases ha : a = k
    · simpa [terase, ha] using ih h.2
    · simp only [terase, ha, if_false, List.map_cons]
      exact rising_cons.2 ⟨fun x hx => h.1 x (mem_keys_terase hx).1, ih h.2⟩

theorem rising_tinsert {V : Type} {m : Table V} {k : Nat} {v : V} (h : rising (m.map Prod.fst) = true)
    (hk : ∀ x ∈ m.map Prod.fst, x ≠ k) : rising ((tinsert m k v).map Prod.fst) = true := by
  induction m with
  | nil => rfl
  | cons y r ih =>
    obtain ⟨a, w⟩ := y
    have h' := rising_cons.1 (by simpa using h)
    by_cases hlt : k < a
    · simp only [tinsert, hlt, if_true, List.map_cons]
      refine rising_cons.2 ⟨fun x hx => ?_, by simpa using h⟩
      rcases List.mem_cons.1 hx with rfl | hx
      · exact hlt
      · exact lt_trans hlt (h'.1 x hx)
    · simp only [tinsert, hlt, if_false, List.map_cons]
      refine rising_cons.2 ⟨fun x hx => ?_, ih h'.2 fun x hx => hk x (by simp [hx])⟩
      rcases mem_keys_tinsert hx with rfl | hx
      · have := hk a (by simp); simp at hlt; omega
      · exact h'.1 x hx

/-- A write keeps a table sorted. -/
theorem rising_tput {V : Type} {m : Table V} (k : Nat) (v : V) (h : rising (m.map Prod.fst) = true) :
    rising ((tput m k v).map Prod.fst) = true :=
  rising_tinsert (rising_terase k h) fun _ hx => (mem_keys_terase hx).2

theorem all_terase {V : Type} {m : Table V} {p : Nat × V → Bool} (k : Nat) (h : m.all p = true) :
    (terase m k).all p = true := by
  induction m with
  | nil => rfl
  | cons y r ih =>
    obtain ⟨a, v⟩ := y
    simp only [List.all_cons, Bool.and_eq_true] at h
    by_cases ha : a = k
    · simp [terase, ha, ih h.2]
    · simp [terase, ha, ih h.2, h.1]

theorem all_tinsert {V : Type} {m : Table V} {p : Nat × V → Bool} {k : Nat} {v : V} (h : m.all p = true)
    (hv : p (k, v) = true) : (tinsert m k v).all p = true := by
  induction m with
  | nil => simp [tinsert, hv]
  | cons y r ih =>
    obtain ⟨a, w⟩ := y
    simp only [List.all_cons, Bool.and_eq_true] at h
    by_cases hk : k < a <;> simp [tinsert, hk, h.1, h.2, hv, ih h.2]

/-! ### Memory -/

/-- A byte read after a byte is written: the byte written at its address, every other byte as before. -/
theorem byte_setByte (m : Memory) (a b : Nat) (x : Byte) :
    (m.setByte a x).byte b = if b = a then x else m.byte b := by
  simp only [Memory.byte, Memory.setByte]
  exact tget_tset m 0 x a b

@[simp] theorem byte_setByte_self (m : Memory) (a : Nat) (x : Byte) : (m.setByte a x).byte a = x := by
  simp [byte_setByte]

theorem byte_setByte_ne (m : Memory) {a b : Nat} (x : Byte) (h : b ≠ a) : (m.setByte a x).byte b = m.byte b := by
  simp [byte_setByte, h]

/-- A byte read after a list of bytes is written. -/
theorem byte_setBytes (m : Memory) (a b : Nat) (bs : List Byte) :
    (m.setBytes a bs).byte b = if a ≤ b then (bs[b - a]?).getD (m.byte b) else m.byte b := by
  induction bs generalizing m a with
  | nil => simp [Memory.setBytes]
  | cons x r ih =>
    rw [Memory.setBytes, ih]
    rcases lt_trichotomy b a with h | h | h
    · have h1 : ¬ a + 1 ≤ b := by omega
      have h2 : ¬ a ≤ b := by omega
      have h3 : b ≠ a := by omega
      simp [h1, h2, byte_setByte_ne _ _ h3]
    · subst h
      simp
    · have h1 : a + 1 ≤ b := by omega
      have h2 : a ≤ b := by omega
      have h3 : b ≠ a := by omega
      have h4 : b - a = (b - (a + 1)) + 1 := by omega
      simp [h1, h2, h4, byte_setByte_ne _ _ h3]

/-- A write of bytes leaves every byte outside them. -/
theorem byte_setBytes_out (m : Memory) {a b : Nat} (bs : List Byte) (h : b < a ∨ a + bs.length ≤ b) :
    (m.setBytes a bs).byte b = m.byte b := by
  rw [byte_setBytes]
  split
  · have : bs[b - a]? = none := by simp; omega
    simp [this]
  · rfl

/-- The canonical form is kept by the write of a byte. -/
theorem wf_setByte {m : Memory} (a : Nat) (x : Byte) (h : m.wf = true) : (m.setByte a x).wf = true := by
  simp only [Memory.wf, Bool.and_eq_true] at h ⊢
  unfold Memory.setByte tset
  split
  · exact ⟨rising_terase a h.1, all_terase a h.2⟩
  · rename_i hx
    exact ⟨rising_tinsert (rising_terase a h.1) fun _ hx => (mem_keys_terase hx).2,
      all_tinsert (all_terase a h.2) (by simpa using hx)⟩

/-- The canonical form is kept by the write of any bytes. -/
theorem wf_setBytes {m : Memory} (a : Nat) (bs : List Byte) (h : m.wf = true) : (m.setBytes a bs).wf = true := by
  induction bs generalizing m a with
  | nil => exact h
  | cons x r ih => exact ih (a + 1) (wf_setByte a x h)

theorem wf_writeN {m : Memory} (a n x : Nat) (h : m.wf = true) : (m.writeN a n x).wf = true := by
  induction n generalizing m a x with
  | zero => exact h
  | succ n ih => exact ih (a + 1) (x / 256) (wf_setByte a _ h)

/-- Canonical memories that read alike are equal data. -/
theorem tget_eq_of_lt {m : Memory} {a : Nat} (h : ∀ x ∈ m.map Prod.fst, a < x) : tget m 0 a = 0 := by
  induction m with
  | nil => rfl
  | cons y r ih =>
    obtain ⟨b, v⟩ := y
    have hb : a < b := h b (by simp)
    rw [tget, if_neg (by omega)]
    exact ih fun x hx => h x (by simp [hx])

theorem memory_ext {m n : Memory} (hm : m.wf = true) (hn : n.wf = true) (h : ∀ a, m.byte a = n.byte a) : m = n := by
  induction m generalizing n with
  | nil =>
    cases n with
    | nil => rfl
    | cons y r =>
      obtain ⟨b, v⟩ := y
      have := h b
      simp only [Memory.wf, List.all_cons, Bool.and_eq_true] at hn
      simp [Memory.byte, tget] at this
      simp [← this] at hn
  | cons x q ih =>
    obtain ⟨a, u⟩ := x
    have hmr : (∀ x ∈ q.map Prod.fst, a < x) ∧ rising (q.map Prod.fst) = true := by
      simp only [Memory.wf, List.map_cons, Bool.and_eq_true] at hm
      exact rising_cons.1 hm.1
    have hu : u ≠ 0 := by
      simp only [Memory.wf, List.all_cons, Bool.and_eq_true] at hm
      simpa using hm.2.1
    have hq : Memory.wf q = true := by
      simp only [Memory.wf, List.all_cons, Bool.and_eq_true] at hm ⊢
      exact ⟨hmr.2, hm.2.2⟩
    cases n with
    | nil =>
      have := h a
      simp [Memory.byte, tget] at this
      exact absurd this hu
    | cons y r =>
      obtain ⟨b, v⟩ := y
      have hnr : (∀ x ∈ r.map Prod.fst, b < x) ∧ rising (r.map Prod.fst) = true := by
        simp only [Memory.wf, List.map_cons, Bool.and_eq_true] at hn
        exact rising_cons.1 hn.1
      have hv : v ≠ 0 := by
        simp only [Memory.wf, List.all_cons, Bool.and_eq_true] at hn
        simpa using hn.2.1
      have hr : Memory.wf r = true := by
        simp only [Memory.wf, List.all_cons, Bool.and_eq_true] at hn ⊢
        exact ⟨hnr.2, hn.2.2⟩
      have hab : a = b := by
        rcases lt_trichotomy a b with hlt | rfl | hlt
        · have h1 := h a
          simp only [Memory.byte, tget, if_true] at h1
          rw [if_neg (by omega)] at h1
          rw [tget_eq_of_lt fun x hx => lt_trans hlt (hnr.1 x hx)] at h1
          exact absurd h1 hu
        · rfl
        · have h1 := h b
          simp only [Memory.byte, tget, if_true] at h1
          rw [if_neg (by omega)] at h1
          rw [tget_eq_of_lt fun x hx => lt_trans hlt (hmr.1 x hx)] at h1
          exact absurd h1.symm hv
      subst hab
      have huv : u = v := by simpa [Memory.byte, tget] using h a
      subst huv
      have hqr : q = r := by
        refine ih hq hr fun k => ?_
        by_cases hk : a = k
        · subst hk
          simp only [Memory.byte]
          rw [tget_eq_of_lt hmr.1, tget_eq_of_lt hnr.1]
        · simpa [Memory.byte, tget, hk] using h k
      rw [hqr]

end Sys2Proof.Machine
end

