-- ==== Sys2Proof/Laws/State.lean ====
section
/-! SUPPORT. The updates of State: one lemma for each field and each update, true by unfolding, and each record read after it
is written. -/

namespace Sys2Proof.Machine

open Sys2Proof

/-! ### setTroupe -/

@[simp] theorem State.setTroupe_mem (s : State) (t : Nat) (x : Troupe) : (s.setTroupe t x).mem = s.mem := rfl
@[simp] theorem State.setTroupe_pclear (s : State) (t : Nat) (x : Troupe) : (s.setTroupe t x).pclear = s.pclear := rfl
@[simp] theorem State.setTroupe_wset (s : State) (t : Nat) (x : Troupe) : (s.setTroupe t x).wset = s.wset := rfl
@[simp] theorem State.setTroupe_poison (s : State) (t : Nat) (x : Troupe) : (s.setTroupe t x).poison = s.poison := rfl
@[simp] theorem State.setTroupe_wrBy (s : State) (t : Nat) (x : Troupe) : (s.setTroupe t x).wrBy = s.wrBy := rfl
@[simp] theorem State.setTroupe_troupes (s : State) (t : Nat) (x : Troupe) : (s.setTroupe t x).troupes = tput s.troupes t x := rfl
@[simp] theorem State.setTroupe_companies (s : State) (t : Nat) (x : Troupe) : (s.setTroupe t x).companies = s.companies := rfl
@[simp] theorem State.setTroupe_runs (s : State) (t : Nat) (x : Troupe) : (s.setTroupe t x).runs = s.runs := rfl
@[simp] theorem State.setTroupe_queues (s : State) (t : Nat) (x : Troupe) : (s.setTroupe t x).queues = s.queues := rfl
@[simp] theorem State.setTroupe_wings (s : State) (t : Nat) (x : Troupe) : (s.setTroupe t x).wings = s.wings := rfl
@[simp] theorem State.setTroupe_stages (s : State) (t : Nat) (x : Troupe) : (s.setTroupe t x).stages = s.stages := rfl
@[simp] theorem State.setTroupe_accs (s : State) (t : Nat) (x : Troupe) : (s.setTroupe t x).accs = s.accs := rfl
@[simp] theorem State.setTroupe_copies (s : State) (t : Nat) (x : Troupe) : (s.setTroupe t x).copies = s.copies := rfl
@[simp] theorem State.setTroupe_colls (s : State) (t : Nat) (x : Troupe) : (s.setTroupe t x).colls = s.colls := rfl
@[simp] theorem State.setTroupe_upds (s : State) (t : Nat) (x : Troupe) : (s.setTroupe t x).upds = s.upds := rfl
@[simp] theorem State.setTroupe_entries (s : State) (t : Nat) (x : Troupe) : (s.setTroupe t x).entries = s.entries := rfl
@[simp] theorem State.setTroupe_tiles (s : State) (t : Nat) (x : Troupe) : (s.setTroupe t x).tiles = s.tiles := rfl
@[simp] theorem State.setTroupe_slices (s : State) (t : Nat) (x : Troupe) : (s.setTroupe t x).slices = s.slices := rfl
@[simp] theorem State.setTroupe_marks (s : State) (t : Nat) (x : Troupe) : (s.setTroupe t x).marks = s.marks := rfl
@[simp] theorem State.setTroupe_xcache (s : State) (t : Nat) (x : Troupe) : (s.setTroupe t x).xcache = s.xcache := rfl
@[simp] theorem State.setTroupe_xreqs (s : State) (t : Nat) (x : Troupe) : (s.setTroupe t x).xreqs = s.xreqs := rfl
@[simp] theorem State.setTroupe_ports (s : State) (t : Nat) (x : Troupe) : (s.setTroupe t x).ports = s.ports := rfl
@[simp] theorem State.setTroupe_mgmt (s : State) (t : Nat) (x : Troupe) : (s.setTroupe t x).mgmt = s.mgmt := rfl
@[simp] theorem State.setTroupe_lastDie (s : State) (t : Nat) (x : Troupe) : (s.setTroupe t x).lastDie = s.lastDie := rfl
@[simp] theorem State.setTroupe_stagePtr (s : State) (t : Nat) (x : Troupe) : (s.setTroupe t x).stagePtr = s.stagePtr := rfl
@[simp] theorem State.setTroupe_lastServed (s : State) (t : Nat) (x : Troupe) : (s.setTroupe t x).lastServed = s.lastServed := rfl
@[simp] theorem State.setTroupe_nextRun (s : State) (t : Nat) (x : Troupe) : (s.setTroupe t x).nextRun = s.nextRun := rfl
@[simp] theorem State.setTroupe_out (s : State) (t : Nat) (x : Troupe) : (s.setTroupe t x).out = s.out := rfl
@[simp] theorem State.setTroupe_agenda (s : State) (t : Nat) (x : Troupe) : (s.setTroupe t x).agenda = s.agenda := rfl
@[simp] theorem State.setTroupe_cur (s : State) (t : Nat) (x : Troupe) : (s.setTroupe t x).cur = s.cur := rfl
@[simp] theorem State.setTroupe_choices (s : State) (t : Nat) (x : Troupe) : (s.setTroupe t x).choices = s.choices := rfl
@[simp] theorem State.setTroupe_picks (s : State) (t : Nat) (x : Troupe) : (s.setTroupe t x).picks = s.picks := rfl
@[simp] theorem State.setTroupe_nextId (s : State) (t : Nat) (x : Troupe) : (s.setTroupe t x).nextId = s.nextId := rfl
@[simp] theorem State.setTroupe_wall (s : State) (t : Nat) (x : Troupe) : (s.setTroupe t x).wall = s.wall := rfl

theorem State.troupe_setTroupe (s : State) (t j : Nat) (x : Troupe) :
    (s.setTroupe t x).troupe j = if j = t then x else s.troupe j := tget_tput _ _ _ _ _
@[simp] theorem State.troupe_setTroupe_self (s : State) (t : Nat) (x : Troupe) : (s.setTroupe t x).troupe t = x :=
  tget_tput_self _ _ _ _
theorem State.troupe_setTroupe_ne (s : State) {t j : Nat} (x : Troupe) (h : j ≠ t) : (s.setTroupe t x).troupe j = s.troupe j :=
  tget_tput_ne _ _ _ h
@[simp] theorem State.company_setTroupe (s : State) (t j : Nat) (x : Troupe) : (s.setTroupe t x).company j = s.company j := rfl
@[simp] theorem State.run_setTroupe (s : State) (t j : Nat) (x : Troupe) : (s.setTroupe t x).run j = s.run j := rfl
@[simp] theorem State.queue_setTroupe (s : State) (t j : Nat) (x : Troupe) : (s.setTroupe t x).queue j = s.queue j := rfl
@[simp] theorem State.wing_setTroupe (s : State) (t j : Nat) (x : Troupe) : (s.setTroupe t x).wing j = s.wing j := rfl
@[simp] theorem State.stage_setTroupe (s : State) (t j : Nat) (x : Troupe) : (s.setTroupe t x).stage j = s.stage j := rfl

/-! ### setCompany -/

@[simp] theorem State.setCompany_mem (s : State) (c : Nat) (x : Company) : (s.setCompany c x).mem = s.mem := rfl
@[simp] theorem State.setCompany_pclear (s : State) (c : Nat) (x : Company) : (s.setCompany c x).pclear = s.pclear := rfl
@[simp] theorem State.setCompany_wset (s : State) (c : Nat) (x : Company) : (s.setCompany c x).wset = s.wset := rfl
@[simp] theorem State.setCompany_poison (s : State) (c : Nat) (x : Company) : (s.setCompany c x).poison = s.poison := rfl
@[simp] theorem State.setCompany_wrBy (s : State) (c : Nat) (x : Company) : (s.setCompany c x).wrBy = s.wrBy := rfl
@[simp] theorem State.setCompany_troupes (s : State) (c : Nat) (x : Company) : (s.setCompany c x).troupes = s.troupes := rfl
@[simp] theorem State.setCompany_companies (s : State) (c : Nat) (x : Company) : (s.setCompany c x).companies = tput s.companies c x := rfl
@[simp] theorem State.setCompany_runs (s : State) (c : Nat) (x : Company) : (s.setCompany c x).runs = s.runs := rfl
@[simp] theorem State.setCompany_queues (s : State) (c : Nat) (x : Company) : (s.setCompany c x).queues = s.queues := rfl
@[simp] theorem State.setCompany_wings (s : State) (c : Nat) (x : Company) : (s.setCompany c x).wings = s.wings := rfl
@[simp] theorem State.setCompany_stages (s : State) (c : Nat) (x : Company) : (s.setCompany c x).stages = s.stages := rfl
@[simp] theorem State.setCompany_accs (s : State) (c : Nat) (x : Company) : (s.setCompany c x).accs = s.accs := rfl
@[simp] theorem State.setCompany_copies (s : State) (c : Nat) (x : Company) : (s.setCompany c x).copies = s.copies := rfl
@[simp] theorem State.setCompany_colls (s : State) (c : Nat) (x : Company) : (s.setCompany c x).colls = s.colls := rfl
@[simp] theorem State.setCompany_upds (s : State) (c : Nat) (x : Company) : (s.setCompany c x).upds = s.upds := rfl
@[simp] theorem State.setCompany_entries (s : State) (c : Nat) (x : Company) : (s.setCompany c x).entries = s.entries := rfl
@[simp] theorem State.setCompany_tiles (s : State) (c : Nat) (x : Company) : (s.setCompany c x).tiles = s.tiles := rfl
@[simp] theorem State.setCompany_slices (s : State) (c : Nat) (x : Company) : (s.setCompany c x).slices = s.slices := rfl
@[simp] theorem State.setCompany_marks (s : State) (c : Nat) (x : Company) : (s.setCompany c x).marks = s.marks := rfl
@[simp] theorem State.setCompany_xcache (s : State) (c : Nat) (x : Company) : (s.setCompany c x).xcache = s.xcache := rfl
@[simp] theorem State.setCompany_xreqs (s : State) (c : Nat) (x : Company) : (s.setCompany c x).xreqs = s.xreqs := rfl
@[simp] theorem State.setCompany_ports (s : State) (c : Nat) (x : Company) : (s.setCompany c x).ports = s.ports := rfl
@[simp] theorem State.setCompany_mgmt (s : State) (c : Nat) (x : Company) : (s.setCompany c x).mgmt = s.mgmt := rfl
@[simp] theorem State.setCompany_lastDie (s : State) (c : Nat) (x : Company) : (s.setCompany c x).lastDie = s.lastDie := rfl
@[simp] theorem State.setCompany_stagePtr (s : State) (c : Nat) (x : Company) : (s.setCompany c x).stagePtr = s.stagePtr := rfl
@[simp] theorem State.setCompany_lastServed (s : State) (c : Nat) (x : Company) : (s.setCompany c x).lastServed = s.lastServed := rfl
@[simp] theorem State.setCompany_nextRun (s : State) (c : Nat) (x : Company) : (s.setCompany c x).nextRun = s.nextRun := rfl
@[simp] theorem State.setCompany_out (s : State) (c : Nat) (x : Company) : (s.setCompany c x).out = s.out := rfl
@[simp] theorem State.setCompany_agenda (s : State) (c : Nat) (x : Company) : (s.setCompany c x).agenda = s.agenda := rfl
@[simp] theorem State.setCompany_cur (s : State) (c : Nat) (x : Company) : (s.setCompany c x).cur = s.cur := rfl
@[simp] theorem State.setCompany_choices (s : State) (c : Nat) (x : Company) : (s.setCompany c x).choices = s.choices := rfl
@[simp] theorem State.setCompany_picks (s : State) (c : Nat) (x : Company) : (s.setCompany c x).picks = s.picks := rfl
@[simp] theorem State.setCompany_nextId (s : State) (c : Nat) (x : Company) : (s.setCompany c x).nextId = s.nextId := rfl
@[simp] theorem State.setCompany_wall (s : State) (c : Nat) (x : Company) : (s.setCompany c x).wall = s.wall := rfl

@[simp] theorem State.troupe_setCompany (s : State) (c j : Nat) (x : Company) : (s.setCompany c x).troupe j = s.troupe j := rfl
theorem State.company_setCompany (s : State) (c j : Nat) (x : Company) :
    (s.setCompany c x).company j = if j = c then x else s.company j := tget_tput _ _ _ _ _
@[simp] theorem State.company_setCompany_self (s : State) (c : Nat) (x : Company) : (s.setCompany c x).company c = x :=
  tget_tput_self _ _ _ _
theorem State.company_setCompany_ne (s : State) {c j : Nat} (x : Company) (h : j ≠ c) : (s.setCompany c x).company j = s.company j :=
  tget_tput_ne _ _ _ h
@[simp] theorem State.run_setCompany (s : State) (c j : Nat) (x : Company) : (s.setCompany c x).run j = s.run j := rfl
@[simp] theorem State.queue_setCompany (s : State) (c j : Nat) (x : Company) : (s.setCompany c x).queue j = s.queue j := rfl
@[simp] theorem State.wing_setCompany (s : State) (c j : Nat) (x : Company) : (s.setCompany c x).wing j = s.wing j := rfl
@[simp] theorem State.stage_setCompany (s : State) (c j : Nat) (x : Company) : (s.setCompany c x).stage j = s.stage j := rfl

/-! ### setRun -/

@[simp] theorem State.setRun_mem (s : State) (r : Nat) (x : Run) : (s.setRun r x).mem = s.mem := rfl
@[simp] theorem State.setRun_pclear (s : State) (r : Nat) (x : Run) : (s.setRun r x).pclear = s.pclear := rfl
@[simp] theorem State.setRun_wset (s : State) (r : Nat) (x : Run) : (s.setRun r x).wset = s.wset := rfl
@[simp] theorem State.setRun_poison (s : State) (r : Nat) (x : Run) : (s.setRun r x).poison = s.poison := rfl
@[simp] theorem State.setRun_wrBy (s : State) (r : Nat) (x : Run) : (s.setRun r x).wrBy = s.wrBy := rfl
@[simp] theorem State.setRun_troupes (s : State) (r : Nat) (x : Run) : (s.setRun r x).troupes = s.troupes := rfl
@[simp] theorem State.setRun_companies (s : State) (r : Nat) (x : Run) : (s.setRun r x).companies = s.companies := rfl
@[simp] theorem State.setRun_runs (s : State) (r : Nat) (x : Run) : (s.setRun r x).runs = tput s.runs r x := rfl
@[simp] theorem State.setRun_queues (s : State) (r : Nat) (x : Run) : (s.setRun r x).queues = s.queues := rfl
@[simp] theorem State.setRun_wings (s : State) (r : Nat) (x : Run) : (s.setRun r x).wings = s.wings := rfl
@[simp] theorem State.setRun_stages (s : State) (r : Nat) (x : Run) : (s.setRun r x).stages = s.stages := rfl
@[simp] theorem State.setRun_accs (s : State) (r : Nat) (x : Run) : (s.setRun r x).accs = s.accs := rfl
@[simp] theorem State.setRun_copies (s : State) (r : Nat) (x : Run) : (s.setRun r x).copies = s.copies := rfl
@[simp] theorem State.setRun_colls (s : State) (r : Nat) (x : Run) : (s.setRun r x).colls = s.colls := rfl
@[simp] theorem State.setRun_upds (s : State) (r : Nat) (x : Run) : (s.setRun r x).upds = s.upds := rfl
@[simp] theorem State.setRun_entries (s : State) (r : Nat) (x : Run) : (s.setRun r x).entries = s.entries := rfl
@[simp] theorem State.setRun_tiles (s : State) (r : Nat) (x : Run) : (s.setRun r x).tiles = s.tiles := rfl
@[simp] theorem State.setRun_slices (s : State) (r : Nat) (x : Run) : (s.setRun r x).slices = s.slices := rfl
@[simp] theorem State.setRun_marks (s : State) (r : Nat) (x : Run) : (s.setRun r x).marks = s.marks := rfl
@[simp] theorem State.setRun_xcache (s : State) (r : Nat) (x : Run) : (s.setRun r x).xcache = s.xcache := rfl
@[simp] theorem State.setRun_xreqs (s : State) (r : Nat) (x : Run) : (s.setRun r x).xreqs = s.xreqs := rfl
@[simp] theorem State.setRun_ports (s : State) (r : Nat) (x : Run) : (s.setRun r x).ports = s.ports := rfl
@[simp] theorem State.setRun_mgmt (s : State) (r : Nat) (x : Run) : (s.setRun r x).mgmt = s.mgmt := rfl
@[simp] theorem State.setRun_lastDie (s : State) (r : Nat) (x : Run) : (s.setRun r x).lastDie = s.lastDie := rfl
@[simp] theorem State.setRun_stagePtr (s : State) (r : Nat) (x : Run) : (s.setRun r x).stagePtr = s.stagePtr := rfl
@[simp] theorem State.setRun_lastServed (s : State) (r : Nat) (x : Run) : (s.setRun r x).lastServed = s.lastServed := rfl
@[simp] theorem State.setRun_nextRun (s : State) (r : Nat) (x : Run) : (s.setRun r x).nextRun = s.nextRun := rfl
@[simp] theorem State.setRun_out (s : State) (r : Nat) (x : Run) : (s.setRun r x).out = s.out := rfl
@[simp] theorem State.setRun_agenda (s : State) (r : Nat) (x : Run) : (s.setRun r x).agenda = s.agenda := rfl
@[simp] theorem State.setRun_cur (s : State) (r : Nat) (x : Run) : (s.setRun r x).cur = s.cur := rfl
@[simp] theorem State.setRun_choices (s : State) (r : Nat) (x : Run) : (s.setRun r x).choices = s.choices := rfl
@[simp] theorem State.setRun_picks (s : State) (r : Nat) (x : Run) : (s.setRun r x).picks = s.picks := rfl
@[simp] theorem State.setRun_nextId (s : State) (r : Nat) (x : Run) : (s.setRun r x).nextId = s.nextId := rfl
@[simp] theorem State.setRun_wall (s : State) (r : Nat) (x : Run) : (s.setRun r x).wall = s.wall := rfl

@[simp] theorem State.troupe_setRun (s : State) (r j : Nat) (x : Run) : (s.setRun r x).troupe j = s.troupe j := rfl
@[simp] theorem State.company_setRun (s : State) (r j : Nat) (x : Run) : (s.setRun r x).company j = s.company j := rfl
theorem State.run_setRun (s : State) (r j : Nat) (x : Run) :
    (s.setRun r x).run j = if j = r then x else s.run j := tget_tput _ _ _ _ _
@[simp] theorem State.run_setRun_self (s : State) (r : Nat) (x : Run) : (s.setRun r x).run r = x :=
  tget_tput_self _ _ _ _
theorem State.run_setRun_ne (s : State) {r j : Nat} (x : Run) (h : j ≠ r) : (s.setRun r x).run j = s.run j :=
  tget_tput_ne _ _ _ h
@[simp] theorem State.queue_setRun (s : State) (r j : Nat) (x : Run) : (s.setRun r x).queue j = s.queue j := rfl
@[simp] theorem State.wing_setRun (s : State) (r j : Nat) (x : Run) : (s.setRun r x).wing j = s.wing j := rfl
@[simp] theorem State.stage_setRun (s : State) (r j : Nat) (x : Run) : (s.setRun r x).stage j = s.stage j := rfl

/-! ### setQueue -/

@[simp] theorem State.setQueue_mem (s : State) (q : Nat) (x : Queue) : (s.setQueue q x).mem = s.mem := rfl
@[simp] theorem State.setQueue_pclear (s : State) (q : Nat) (x : Queue) : (s.setQueue q x).pclear = s.pclear := rfl
@[simp] theorem State.setQueue_wset (s : State) (q : Nat) (x : Queue) : (s.setQueue q x).wset = s.wset := rfl
@[simp] theorem State.setQueue_poison (s : State) (q : Nat) (x : Queue) : (s.setQueue q x).poison = s.poison := rfl
@[simp] theorem State.setQueue_wrBy (s : State) (q : Nat) (x : Queue) : (s.setQueue q x).wrBy = s.wrBy := rfl
@[simp] theorem State.setQueue_troupes (s : State) (q : Nat) (x : Queue) : (s.setQueue q x).troupes = s.troupes := rfl
@[simp] theorem State.setQueue_companies (s : State) (q : Nat) (x : Queue) : (s.setQueue q x).companies = s.companies := rfl
@[simp] theorem State.setQueue_runs (s : State) (q : Nat) (x : Queue) : (s.setQueue q x).runs = s.runs := rfl
@[simp] theorem State.setQueue_queues (s : State) (q : Nat) (x : Queue) : (s.setQueue q x).queues = tput s.queues q x := rfl
@[simp] theorem State.setQueue_wings (s : State) (q : Nat) (x : Queue) : (s.setQueue q x).wings = s.wings := rfl
@[simp] theorem State.setQueue_stages (s : State) (q : Nat) (x : Queue) : (s.setQueue q x).stages = s.stages := rfl
@[simp] theorem State.setQueue_accs (s : State) (q : Nat) (x : Queue) : (s.setQueue q x).accs = s.accs := rfl
@[simp] theorem State.setQueue_copies (s : State) (q : Nat) (x : Queue) : (s.setQueue q x).copies = s.copies := rfl
@[simp] theorem State.setQueue_colls (s : State) (q : Nat) (x : Queue) : (s.setQueue q x).colls = s.colls := rfl
@[simp] theorem State.setQueue_upds (s : State) (q : Nat) (x : Queue) : (s.setQueue q x).upds = s.upds := rfl
@[simp] theorem State.setQueue_entries (s : State) (q : Nat) (x : Queue) : (s.setQueue q x).entries = s.entries := rfl
@[simp] theorem State.setQueue_tiles (s : State) (q : Nat) (x : Queue) : (s.setQueue q x).tiles = s.tiles := rfl
@[simp] theorem State.setQueue_slices (s : State) (q : Nat) (x : Queue) : (s.setQueue q x).slices = s.slices := rfl
@[simp] theorem State.setQueue_marks (s : State) (q : Nat) (x : Queue) : (s.setQueue q x).marks = s.marks := rfl
@[simp] theorem State.setQueue_xcache (s : State) (q : Nat) (x : Queue) : (s.setQueue q x).xcache = s.xcache := rfl
@[simp] theorem State.setQueue_xreqs (s : State) (q : Nat) (x : Queue) : (s.setQueue q x).xreqs = s.xreqs := rfl
@[simp] theorem State.setQueue_ports (s : State) (q : Nat) (x : Queue) : (s.setQueue q x).ports = s.ports := rfl
@[simp] theorem State.setQueue_mgmt (s : State) (q : Nat) (x : Queue) : (s.setQueue q x).mgmt = s.mgmt := rfl
@[simp] theorem State.setQueue_lastDie (s : State) (q : Nat) (x : Queue) : (s.setQueue q x).lastDie = s.lastDie := rfl
@[simp] theorem State.setQueue_stagePtr (s : State) (q : Nat) (x : Queue) : (s.setQueue q x).stagePtr = s.stagePtr := rfl
@[simp] theorem State.setQueue_lastServed (s : State) (q : Nat) (x : Queue) : (s.setQueue q x).lastServed = s.lastServed := rfl
@[simp] theorem State.setQueue_nextRun (s : State) (q : Nat) (x : Queue) : (s.setQueue q x).nextRun = s.nextRun := rfl
@[simp] theorem State.setQueue_out (s : State) (q : Nat) (x : Queue) : (s.setQueue q x).out = s.out := rfl
@[simp] theorem State.setQueue_agenda (s : State) (q : Nat) (x : Queue) : (s.setQueue q x).agenda = s.agenda := rfl
@[simp] theorem State.setQueue_cur (s : State) (q : Nat) (x : Queue) : (s.setQueue q x).cur = s.cur := rfl
@[simp] theorem State.setQueue_choices (s : State) (q : Nat) (x : Queue) : (s.setQueue q x).choices = s.choices := rfl
@[simp] theorem State.setQueue_picks (s : State) (q : Nat) (x : Queue) : (s.setQueue q x).picks = s.picks := rfl
@[simp] theorem State.setQueue_nextId (s : State) (q : Nat) (x : Queue) : (s.setQueue q x).nextId = s.nextId := rfl
@[simp] theorem State.setQueue_wall (s : State) (q : Nat) (x : Queue) : (s.setQueue q x).wall = s.wall := rfl

@[simp] theorem State.troupe_setQueue (s : State) (q j : Nat) (x : Queue) : (s.setQueue q x).troupe j = s.troupe j := rfl
@[simp] theorem State.company_setQueue (s : State) (q j : Nat) (x : Queue) : (s.setQueue q x).company j = s.company j := rfl
@[simp] theorem State.run_setQueue (s : State) (q j : Nat) (x : Queue) : (s.setQueue q x).run j = s.run j := rfl
theorem State.queue_setQueue (s : State) (q j : Nat) (x : Queue) :
    (s.setQueue q x).queue j = if j = q then x else s.queue j := tget_tput _ _ _ _ _
@[simp] theorem State.queue_setQueue_self (s : State) (q : Nat) (x : Queue) : (s.setQueue q x).queue q = x :=
  tget_tput_self _ _ _ _
theorem State.queue_setQueue_ne (s : State) {q j : Nat} (x : Queue) (h : j ≠ q) : (s.setQueue q x).queue j = s.queue j :=
  tget_tput_ne _ _ _ h
@[simp] theorem State.wing_setQueue (s : State) (q j : Nat) (x : Queue) : (s.setQueue q x).wing j = s.wing j := rfl
@[simp] theorem State.stage_setQueue (s : State) (q j : Nat) (x : Queue) : (s.setQueue q x).stage j = s.stage j := rfl

/-! ### setWing -/

@[simp] theorem State.setWing_mem (s : State) (k : Nat) (x : Wing) : (s.setWing k x).mem = s.mem := rfl
@[simp] theorem State.setWing_pclear (s : State) (k : Nat) (x : Wing) : (s.setWing k x).pclear = s.pclear := rfl
@[simp] theorem State.setWing_wset (s : State) (k : Nat) (x : Wing) : (s.setWing k x).wset = s.wset := rfl
@[simp] theorem State.setWing_poison (s : State) (k : Nat) (x : Wing) : (s.setWing k x).poison = s.poison := rfl
@[simp] theorem State.setWing_wrBy (s : State) (k : Nat) (x : Wing) : (s.setWing k x).wrBy = s.wrBy := rfl
@[simp] theorem State.setWing_troupes (s : State) (k : Nat) (x : Wing) : (s.setWing k x).troupes = s.troupes := rfl
@[simp] theorem State.setWing_companies (s : State) (k : Nat) (x : Wing) : (s.setWing k x).companies = s.companies := rfl
@[simp] theorem State.setWing_runs (s : State) (k : Nat) (x : Wing) : (s.setWing k x).runs = s.runs := rfl
@[simp] theorem State.setWing_queues (s : State) (k : Nat) (x : Wing) : (s.setWing k x).queues = s.queues := rfl
@[simp] theorem State.setWing_wings (s : State) (k : Nat) (x : Wing) : (s.setWing k x).wings = tput s.wings k x := rfl
@[simp] theorem State.setWing_stages (s : State) (k : Nat) (x : Wing) : (s.setWing k x).stages = s.stages := rfl
@[simp] theorem State.setWing_accs (s : State) (k : Nat) (x : Wing) : (s.setWing k x).accs = s.accs := rfl
@[simp] theorem State.setWing_copies (s : State) (k : Nat) (x : Wing) : (s.setWing k x).copies = s.copies := rfl
@[simp] theorem State.setWing_colls (s : State) (k : Nat) (x : Wing) : (s.setWing k x).colls = s.colls := rfl
@[simp] theorem State.setWing_upds (s : State) (k : Nat) (x : Wing) : (s.setWing k x).upds = s.upds := rfl
@[simp] theorem State.setWing_entries (s : State) (k : Nat) (x : Wing) : (s.setWing k x).entries = s.entries := rfl
@[simp] theorem State.setWing_tiles (s : State) (k : Nat) (x : Wing) : (s.setWing k x).tiles = s.tiles := rfl
@[simp] theorem State.setWing_slices (s : State) (k : Nat) (x : Wing) : (s.setWing k x).slices = s.slices := rfl
@[simp] theorem State.setWing_marks (s : State) (k : Nat) (x : Wing) : (s.setWing k x).marks = s.marks := rfl
@[simp] theorem State.setWing_xcache (s : State) (k : Nat) (x : Wing) : (s.setWing k x).xcache = s.xcache := rfl
@[simp] theorem State.setWing_xreqs (s : State) (k : Nat) (x : Wing) : (s.setWing k x).xreqs = s.xreqs := rfl
@[simp] theorem State.setWing_ports (s : State) (k : Nat) (x : Wing) : (s.setWing k x).ports = s.ports := rfl
@[simp] theorem State.setWing_mgmt (s : State) (k : Nat) (x : Wing) : (s.setWing k x).mgmt = s.mgmt := rfl
@[simp] theorem State.setWing_lastDie (s : State) (k : Nat) (x : Wing) : (s.setWing k x).lastDie = s.lastDie := rfl
@[simp] theorem State.setWing_stagePtr (s : State) (k : Nat) (x : Wing) : (s.setWing k x).stagePtr = s.stagePtr := rfl
@[simp] theorem State.setWing_lastServed (s : State) (k : Nat) (x : Wing) : (s.setWing k x).lastServed = s.lastServed := rfl
@[simp] theorem State.setWing_nextRun (s : State) (k : Nat) (x : Wing) : (s.setWing k x).nextRun = s.nextRun := rfl
@[simp] theorem State.setWing_out (s : State) (k : Nat) (x : Wing) : (s.setWing k x).out = s.out := rfl
@[simp] theorem State.setWing_agenda (s : State) (k : Nat) (x : Wing) : (s.setWing k x).agenda = s.agenda := rfl
@[simp] theorem State.setWing_cur (s : State) (k : Nat) (x : Wing) : (s.setWing k x).cur = s.cur := rfl
@[simp] theorem State.setWing_choices (s : State) (k : Nat) (x : Wing) : (s.setWing k x).choices = s.choices := rfl
@[simp] theorem State.setWing_picks (s : State) (k : Nat) (x : Wing) : (s.setWing k x).picks = s.picks := rfl
@[simp] theorem State.setWing_nextId (s : State) (k : Nat) (x : Wing) : (s.setWing k x).nextId = s.nextId := rfl
@[simp] theorem State.setWing_wall (s : State) (k : Nat) (x : Wing) : (s.setWing k x).wall = s.wall := rfl

@[simp] theorem State.troupe_setWing (s : State) (k j : Nat) (x : Wing) : (s.setWing k x).troupe j = s.troupe j := rfl
@[simp] theorem State.company_setWing (s : State) (k j : Nat) (x : Wing) : (s.setWing k x).company j = s.company j := rfl
@[simp] theorem State.run_setWing (s : State) (k j : Nat) (x : Wing) : (s.setWing k x).run j = s.run j := rfl
@[simp] theorem State.queue_setWing (s : State) (k j : Nat) (x : Wing) : (s.setWing k x).queue j = s.queue j := rfl
theorem State.wing_setWing (s : State) (k j : Nat) (x : Wing) :
    (s.setWing k x).wing j = if j = k then x else s.wing j := tget_tput _ _ _ _ _
@[simp] theorem State.wing_setWing_self (s : State) (k : Nat) (x : Wing) : (s.setWing k x).wing k = x :=
  tget_tput_self _ _ _ _
theorem State.wing_setWing_ne (s : State) {k j : Nat} (x : Wing) (h : j ≠ k) : (s.setWing k x).wing j = s.wing j :=
  tget_tput_ne _ _ _ h
@[simp] theorem State.stage_setWing (s : State) (k j : Nat) (x : Wing) : (s.setWing k x).stage j = s.stage j := rfl

/-! ### setStage -/

@[simp] theorem State.setStage_mem (s : State) (k : Nat) (x : Stage) : (s.setStage k x).mem = s.mem := rfl
@[simp] theorem State.setStage_pclear (s : State) (k : Nat) (x : Stage) : (s.setStage k x).pclear = s.pclear := rfl
@[simp] theorem State.setStage_wset (s : State) (k : Nat) (x : Stage) : (s.setStage k x).wset = s.wset := rfl
@[simp] theorem State.setStage_poison (s : State) (k : Nat) (x : Stage) : (s.setStage k x).poison = s.poison := rfl
@[simp] theorem State.setStage_wrBy (s : State) (k : Nat) (x : Stage) : (s.setStage k x).wrBy = s.wrBy := rfl
@[simp] theorem State.setStage_troupes (s : State) (k : Nat) (x : Stage) : (s.setStage k x).troupes = s.troupes := rfl
@[simp] theorem State.setStage_companies (s : State) (k : Nat) (x : Stage) : (s.setStage k x).companies = s.companies := rfl
@[simp] theorem State.setStage_runs (s : State) (k : Nat) (x : Stage) : (s.setStage k x).runs = s.runs := rfl
@[simp] theorem State.setStage_queues (s : State) (k : Nat) (x : Stage) : (s.setStage k x).queues = s.queues := rfl
@[simp] theorem State.setStage_wings (s : State) (k : Nat) (x : Stage) : (s.setStage k x).wings = s.wings := rfl
@[simp] theorem State.setStage_stages (s : State) (k : Nat) (x : Stage) : (s.setStage k x).stages = tput s.stages k x := rfl
@[simp] theorem State.setStage_accs (s : State) (k : Nat) (x : Stage) : (s.setStage k x).accs = s.accs := rfl
@[simp] theorem State.setStage_copies (s : State) (k : Nat) (x : Stage) : (s.setStage k x).copies = s.copies := rfl
@[simp] theorem State.setStage_colls (s : State) (k : Nat) (x : Stage) : (s.setStage k x).colls = s.colls := rfl
@[simp] theorem State.setStage_upds (s : State) (k : Nat) (x : Stage) : (s.setStage k x).upds = s.upds := rfl
@[simp] theorem State.setStage_entries (s : State) (k : Nat) (x : Stage) : (s.setStage k x).entries = s.entries := rfl
@[simp] theorem State.setStage_tiles (s : State) (k : Nat) (x : Stage) : (s.setStage k x).tiles = s.tiles := rfl
@[simp] theorem State.setStage_slices (s : State) (k : Nat) (x : Stage) : (s.setStage k x).slices = s.slices := rfl
@[simp] theorem State.setStage_marks (s : State) (k : Nat) (x : Stage) : (s.setStage k x).marks = s.marks := rfl
@[simp] theorem State.setStage_xcache (s : State) (k : Nat) (x : Stage) : (s.setStage k x).xcache = s.xcache := rfl
@[simp] theorem State.setStage_xreqs (s : State) (k : Nat) (x : Stage) : (s.setStage k x).xreqs = s.xreqs := rfl
@[simp] theorem State.setStage_ports (s : State) (k : Nat) (x : Stage) : (s.setStage k x).ports = s.ports := rfl
@[simp] theorem State.setStage_mgmt (s : State) (k : Nat) (x : Stage) : (s.setStage k x).mgmt = s.mgmt := rfl
@[simp] theorem State.setStage_lastDie (s : State) (k : Nat) (x : Stage) : (s.setStage k x).lastDie = s.lastDie := rfl
@[simp] theorem State.setStage_stagePtr (s : State) (k : Nat) (x : Stage) : (s.setStage k x).stagePtr = s.stagePtr := rfl
@[simp] theorem State.setStage_lastServed (s : State) (k : Nat) (x : Stage) : (s.setStage k x).lastServed = s.lastServed := rfl
@[simp] theorem State.setStage_nextRun (s : State) (k : Nat) (x : Stage) : (s.setStage k x).nextRun = s.nextRun := rfl
@[simp] theorem State.setStage_out (s : State) (k : Nat) (x : Stage) : (s.setStage k x).out = s.out := rfl
@[simp] theorem State.setStage_agenda (s : State) (k : Nat) (x : Stage) : (s.setStage k x).agenda = s.agenda := rfl
@[simp] theorem State.setStage_cur (s : State) (k : Nat) (x : Stage) : (s.setStage k x).cur = s.cur := rfl
@[simp] theorem State.setStage_choices (s : State) (k : Nat) (x : Stage) : (s.setStage k x).choices = s.choices := rfl
@[simp] theorem State.setStage_picks (s : State) (k : Nat) (x : Stage) : (s.setStage k x).picks = s.picks := rfl
@[simp] theorem State.setStage_nextId (s : State) (k : Nat) (x : Stage) : (s.setStage k x).nextId = s.nextId := rfl
@[simp] theorem State.setStage_wall (s : State) (k : Nat) (x : Stage) : (s.setStage k x).wall = s.wall := rfl

@[simp] theorem State.troupe_setStage (s : State) (k j : Nat) (x : Stage) : (s.setStage k x).troupe j = s.troupe j := rfl
@[simp] theorem State.company_setStage (s : State) (k j : Nat) (x : Stage) : (s.setStage k x).company j = s.company j := rfl
@[simp] theorem State.run_setStage (s : State) (k j : Nat) (x : Stage) : (s.setStage k x).run j = s.run j := rfl
@[simp] theorem State.queue_setStage (s : State) (k j : Nat) (x : Stage) : (s.setStage k x).queue j = s.queue j := rfl
@[simp] theorem State.wing_setStage (s : State) (k j : Nat) (x : Stage) : (s.setStage k x).wing j = s.wing j := rfl
theorem State.stage_setStage (s : State) (k j : Nat) (x : Stage) :
    (s.setStage k x).stage j = if j = k then x else s.stage j := tget_tput _ _ _ _ _
@[simp] theorem State.stage_setStage_self (s : State) (k : Nat) (x : Stage) : (s.setStage k x).stage k = x :=
  tget_tput_self _ _ _ _
theorem State.stage_setStage_ne (s : State) {k j : Nat} (x : Stage) (h : j ≠ k) : (s.setStage k x).stage j = s.stage j :=
  tget_tput_ne _ _ _ h

/-! ### Threads of a troupe -/

@[simp] theorem Troupe.setThread_status (tr : Troupe) (l : Nat) (x : Thread) : (tr.setThread l x).status = tr.status := rfl
@[simp] theorem Troupe.setThread_stage (tr : Troupe) (l : Nat) (x : Thread) : (tr.setThread l x).stage = tr.stage := rfl
@[simp] theorem Troupe.setThread_wing (tr : Troupe) (l : Nat) (x : Thread) : (tr.setThread l x).wing = tr.wing := rfl
@[simp] theorem Troupe.setThread_threads (tr : Troupe) (l : Nat) (x : Thread) : (tr.setThread l x).threads = tput tr.threads l x := rfl
@[simp] theorem Troupe.setThread_regs (tr : Troupe) (l : Nat) (x : Thread) : (tr.setThread l x).regs = tr.regs := rfl
@[simp] theorem Troupe.setThread_cv (tr : Troupe) (l : Nat) (x : Thread) : (tr.setThread l x).cv = tr.cv := rfl
@[simp] theorem Troupe.setThread_pend (tr : Troupe) (l : Nat) (x : Thread) : (tr.setThread l x).pend = tr.pend := rfl
@[simp] theorem Troupe.setThread_ops (tr : Troupe) (l : Nat) (x : Thread) : (tr.setThread l x).ops = tr.ops := rfl
@[simp] theorem Troupe.setThread_recs (tr : Troupe) (l : Nat) (x : Thread) : (tr.setThread l x).recs = tr.recs := rfl
@[simp] theorem Troupe.setThread_freeing (tr : Troupe) (l : Nat) (x : Thread) : (tr.setThread l x).freeing = tr.freeing := rfl
@[simp] theorem Troupe.setThread_tiles (tr : Troupe) (l : Nat) (x : Thread) : (tr.setThread l x).tiles = tr.tiles := rfl
@[simp] theorem Troupe.setThread_srState (tr : Troupe) (l : Nat) (x : Thread) : (tr.setThread l x).srState = tr.srState := rfl
@[simp] theorem Troupe.setThread_srSeed (tr : Troupe) (l : Nat) (x : Thread) : (tr.setThread l x).srSeed = tr.srSeed := rfl
@[simp] theorem Troupe.setThread_awaitLim (tr : Troupe) (l : Nat) (x : Thread) : (tr.setThread l x).awaitLim = tr.awaitLim := rfl
@[simp] theorem Troupe.setThread_callIdx (tr : Troupe) (l : Nat) (x : Thread) : (tr.setThread l x).callIdx = tr.callIdx := rfl
@[simp] theorem Troupe.setThread_urgency (tr : Troupe) (l : Nat) (x : Thread) : (tr.setThread l x).urgency = tr.urgency := rfl
@[simp] theorem Troupe.setThread_last (tr : Troupe) (l : Nat) (x : Thread) : (tr.setThread l x).last = tr.last := rfl
@[simp] theorem Troupe.setThread_frozen (tr : Troupe) (l : Nat) (x : Thread) : (tr.setThread l x).frozen = tr.frozen := rfl
@[simp] theorem Troupe.setThread_cvFrozen (tr : Troupe) (l : Nat) (x : Thread) : (tr.setThread l x).cvFrozen = tr.cvFrozen := rfl
@[simp] theorem Troupe.setThread_written (tr : Troupe) (l : Nat) (x : Thread) : (tr.setThread l x).written = tr.written := rfl
@[simp] theorem Troupe.setThread_rttPc (tr : Troupe) (l : Nat) (x : Thread) : (tr.setThread l x).rttPc = tr.rttPc := rfl
@[simp] theorem Troupe.setThread_handlers (tr : Troupe) (l : Nat) (x : Thread) : (tr.setThread l x).handlers = tr.handlers := rfl
@[simp] theorem Troupe.setThread_context (tr : Troupe) (l : Nat) (x : Thread) : (tr.setThread l x).context = tr.context := rfl
@[simp] theorem Troupe.setThread_pendTrap (tr : Troupe) (l : Nat) (x : Thread) : (tr.setThread l x).pendTrap = tr.pendTrap := rfl
@[simp] theorem Troupe.setThread_pendPre (tr : Troupe) (l : Nat) (x : Thread) : (tr.setThread l x).pendPre = tr.pendPre := rfl
@[simp] theorem Troupe.setThread_xfaults (tr : Troupe) (l : Nat) (x : Thread) : (tr.setThread l x).xfaults = tr.xfaults := rfl
@[simp] theorem Troupe.setThread_svcs (tr : Troupe) (l : Nat) (x : Thread) : (tr.setThread l x).svcs = tr.svcs := rfl
@[simp] theorem Troupe.setThread_reached (tr : Troupe) (l : Nat) (x : Thread) : (tr.setThread l x).reached = tr.reached := rfl
@[simp] theorem Troupe.setThread_saveDone (tr : Troupe) (l : Nat) (x : Thread) : (tr.setThread l x).saveDone = tr.saveDone := rfl
@[simp] theorem Troupe.setThread_entryId (tr : Troupe) (l : Nat) (x : Thread) : (tr.setThread l x).entryId = tr.entryId := rfl
@[simp] theorem Troupe.setThread_idleSince (tr : Troupe) (l : Nat) (x : Thread) : (tr.setThread l x).idleSince = tr.idleSince := rfl
@[simp] theorem Troupe.setThread_entered (tr : Troupe) (l : Nat) (x : Thread) : (tr.setThread l x).entered = tr.entered := rfl

theorem Troupe.thread_setThread (tr : Troupe) (l j : Nat) (x : Thread) :
    (tr.setThread l x).thread j = if j = l then x else tr.thread j := tget_tput _ _ _ _ _
@[simp] theorem Troupe.thread_setThread_self (tr : Troupe) (l : Nat) (x : Thread) : (tr.setThread l x).thread l = x :=
  tget_tput_self _ _ _ _
theorem Troupe.thread_setThread_ne (tr : Troupe) {l j : Nat} (x : Thread) (h : j ≠ l) :
    (tr.setThread l x).thread j = tr.thread j := tget_tput_ne _ _ _ h
@[simp] theorem Troupe.reg_setThread (tr : Troupe) (l k : Nat) (x : Thread) : (tr.setThread l x).reg k = tr.reg k := rfl

/-! ### setReg -/

@[simp] theorem Troupe.setReg_status (tr : Troupe) (k : Nat) (x : Word) : (tr.setReg k x).status = tr.status := rfl
@[simp] theorem Troupe.setReg_stage (tr : Troupe) (k : Nat) (x : Word) : (tr.setReg k x).stage = tr.stage := rfl
@[simp] theorem Troupe.setReg_wing (tr : Troupe) (k : Nat) (x : Word) : (tr.setReg k x).wing = tr.wing := rfl
@[simp] theorem Troupe.setReg_threads (tr : Troupe) (k : Nat) (x : Word) : (tr.setReg k x).threads = tr.threads := rfl
@[simp] theorem Troupe.setReg_cv (tr : Troupe) (k : Nat) (x : Word) : (tr.setReg k x).cv = tr.cv := rfl
@[simp] theorem Troupe.setReg_ops (tr : Troupe) (k : Nat) (x : Word) : (tr.setReg k x).ops = tr.ops := rfl
@[simp] theorem Troupe.setReg_recs (tr : Troupe) (k : Nat) (x : Word) : (tr.setReg k x).recs = tr.recs := rfl
@[simp] theorem Troupe.setReg_freeing (tr : Troupe) (k : Nat) (x : Word) : (tr.setReg k x).freeing = tr.freeing := rfl
@[simp] theorem Troupe.setReg_tiles (tr : Troupe) (k : Nat) (x : Word) : (tr.setReg k x).tiles = tr.tiles := rfl
@[simp] theorem Troupe.setReg_srState (tr : Troupe) (k : Nat) (x : Word) : (tr.setReg k x).srState = tr.srState := rfl
@[simp] theorem Troupe.setReg_srSeed (tr : Troupe) (k : Nat) (x : Word) : (tr.setReg k x).srSeed = tr.srSeed := rfl
@[simp] theorem Troupe.setReg_awaitLim (tr : Troupe) (k : Nat) (x : Word) : (tr.setReg k x).awaitLim = tr.awaitLim := rfl
@[simp] theorem Troupe.setReg_callIdx (tr : Troupe) (k : Nat) (x : Word) : (tr.setReg k x).callIdx = tr.callIdx := rfl
@[simp] theorem Troupe.setReg_urgency (tr : Troupe) (k : Nat) (x : Word) : (tr.setReg k x).urgency = tr.urgency := rfl
@[simp] theorem Troupe.setReg_last (tr : Troupe) (k : Nat) (x : Word) : (tr.setReg k x).last = tr.last := rfl
@[simp] theorem Troupe.setReg_frozen (tr : Troupe) (k : Nat) (x : Word) : (tr.setReg k x).frozen = tr.frozen := rfl
@[simp] theorem Troupe.setReg_cvFrozen (tr : Troupe) (k : Nat) (x : Word) : (tr.setReg k x).cvFrozen = tr.cvFrozen := rfl
@[simp] theorem Troupe.setReg_written (tr : Troupe) (k : Nat) (x : Word) : (tr.setReg k x).written = tr.written := rfl
@[simp] theorem Troupe.setReg_rttPc (tr : Troupe) (k : Nat) (x : Word) : (tr.setReg k x).rttPc = tr.rttPc := rfl
@[simp] theorem Troupe.setReg_handlers (tr : Troupe) (k : Nat) (x : Word) : (tr.setReg k x).handlers = tr.handlers := rfl
@[simp] theorem Troupe.setReg_context (tr : Troupe) (k : Nat) (x : Word) : (tr.setReg k x).context = tr.context := rfl
@[simp] theorem Troupe.setReg_pendTrap (tr : Troupe) (k : Nat) (x : Word) : (tr.setReg k x).pendTrap = tr.pendTrap := rfl
@[simp] theorem Troupe.setReg_pendPre (tr : Troupe) (k : Nat) (x : Word) : (tr.setReg k x).pendPre = tr.pendPre := rfl
@[simp] theorem Troupe.setReg_xfaults (tr : Troupe) (k : Nat) (x : Word) : (tr.setReg k x).xfaults = tr.xfaults := rfl
@[simp] theorem Troupe.setReg_svcs (tr : Troupe) (k : Nat) (x : Word) : (tr.setReg k x).svcs = tr.svcs := rfl
@[simp] theorem Troupe.setReg_reached (tr : Troupe) (k : Nat) (x : Word) : (tr.setReg k x).reached = tr.reached := rfl
@[simp] theorem Troupe.setReg_saveDone (tr : Troupe) (k : Nat) (x : Word) : (tr.setReg k x).saveDone = tr.saveDone := rfl
@[simp] theorem Troupe.setReg_entryId (tr : Troupe) (k : Nat) (x : Word) : (tr.setReg k x).entryId = tr.entryId := rfl
@[simp] theorem Troupe.setReg_idleSince (tr : Troupe) (k : Nat) (x : Word) : (tr.setReg k x).idleSince = tr.idleSince := rfl
@[simp] theorem Troupe.setReg_entered (tr : Troupe) (k : Nat) (x : Word) : (tr.setReg k x).entered = tr.entered := rfl

/-- A register read after a register is written. -/
theorem Troupe.reg_setReg (tr : Troupe) (k j : Nat) (x : Word) :
    (tr.setReg k x).reg j = if j = k then x else tr.reg j := tget_tset _ _ _ _ _
@[simp] theorem Troupe.reg_setReg_self (tr : Troupe) (k : Nat) (x : Word) : (tr.setReg k x).reg k = x := by
  simp [Troupe.reg_setReg]
theorem Troupe.reg_setReg_ne (tr : Troupe) {k j : Nat} (x : Word) (h : j ≠ k) : (tr.setReg k x).reg j = tr.reg j := by
  simp [Troupe.reg_setReg, h]
@[simp] theorem Troupe.thread_setReg (tr : Troupe) (k l : Nat) (x : Word) : (tr.setReg k x).thread l = tr.thread l := rfl

/-! ### setThread and mapLanes of State -/

@[simp] theorem State.setThread_mem (s : State) (t l : Nat) (x : Thread) : (s.setThread t l x).mem = s.mem := rfl
@[simp] theorem State.setThread_pclear (s : State) (t l : Nat) (x : Thread) : (s.setThread t l x).pclear = s.pclear := rfl
@[simp] theorem State.setThread_wset (s : State) (t l : Nat) (x : Thread) : (s.setThread t l x).wset = s.wset := rfl
@[simp] theorem State.setThread_poison (s : State) (t l : Nat) (x : Thread) : (s.setThread t l x).poison = s.poison := rfl
@[simp] theorem State.setThread_wrBy (s : State) (t l : Nat) (x : Thread) : (s.setThread t l x).wrBy = s.wrBy := rfl
@[simp] theorem State.setThread_companies (s : State) (t l : Nat) (x : Thread) : (s.setThread t l x).companies = s.companies := rfl
@[simp] theorem State.setThread_runs (s : State) (t l : Nat) (x : Thread) : (s.setThread t l x).runs = s.runs := rfl
@[simp] theorem State.setThread_queues (s : State) (t l : Nat) (x : Thread) : (s.setThread t l x).queues = s.queues := rfl
@[simp] theorem State.setThread_wings (s : State) (t l : Nat) (x : Thread) : (s.setThread t l x).wings = s.wings := rfl
@[simp] theorem State.setThread_stages (s : State) (t l : Nat) (x : Thread) : (s.setThread t l x).stages = s.stages := rfl
@[simp] theorem State.setThread_accs (s : State) (t l : Nat) (x : Thread) : (s.setThread t l x).accs = s.accs := rfl
@[simp] theorem State.setThread_copies (s : State) (t l : Nat) (x : Thread) : (s.setThread t l x).copies = s.copies := rfl
@[simp] theorem State.setThread_colls (s : State) (t l : Nat) (x : Thread) : (s.setThread t l x).colls = s.colls := rfl
@[simp] theorem State.setThread_upds (s : State) (t l : Nat) (x : Thread) : (s.setThread t l x).upds = s.upds := rfl
@[simp] theorem State.setThread_entries (s : State) (t l : Nat) (x : Thread) : (s.setThread t l x).entries = s.entries := rfl
@[simp] theorem State.setThread_tiles (s : State) (t l : Nat) (x : Thread) : (s.setThread t l x).tiles = s.tiles := rfl
@[simp] theorem State.setThread_slices (s : State) (t l : Nat) (x : Thread) : (s.setThread t l x).slices = s.slices := rfl
@[simp] theorem State.setThread_marks (s : State) (t l : Nat) (x : Thread) : (s.setThread t l x).marks = s.marks := rfl
@[simp] theorem State.setThread_xcache (s : State) (t l : Nat) (x : Thread) : (s.setThread t l x).xcache = s.xcache := rfl
@[simp] theorem State.setThread_xreqs (s : State) (t l : Nat) (x : Thread) : (s.setThread t l x).xreqs = s.xreqs := rfl
@[simp] theorem State.setThread_ports (s : State) (t l : Nat) (x : Thread) : (s.setThread t l x).ports = s.ports := rfl
@[simp] theorem State.setThread_mgmt (s : State) (t l : Nat) (x : Thread) : (s.setThread t l x).mgmt = s.mgmt := rfl
@[simp] theorem State.setThread_lastDie (s : State) (t l : Nat) (x : Thread) : (s.setThread t l x).lastDie = s.lastDie := rfl
@[simp] theorem State.setThread_stagePtr (s : State) (t l : Nat) (x : Thread) : (s.setThread t l x).stagePtr = s.stagePtr := rfl
@[simp] theorem State.setThread_lastServed (s : State) (t l : Nat) (x : Thread) : (s.setThread t l x).lastServed = s.lastServed := rfl
@[simp] theorem State.setThread_nextRun (s : State) (t l : Nat) (x : Thread) : (s.setThread t l x).nextRun = s.nextRun := rfl
@[simp] theorem State.setThread_out (s : State) (t l : Nat) (x : Thread) : (s.setThread t l x).out = s.out := rfl
@[simp] theorem State.setThread_agenda (s : State) (t l : Nat) (x : Thread) : (s.setThread t l x).agenda = s.agenda := rfl
@[simp] theorem State.setThread_cur (s : State) (t l : Nat) (x : Thread) : (s.setThread t l x).cur = s.cur := rfl
@[simp] theorem State.setThread_choices (s : State) (t l : Nat) (x : Thread) : (s.setThread t l x).choices = s.choices := rfl
@[simp] theorem State.setThread_picks (s : State) (t l : Nat) (x : Thread) : (s.setThread t l x).picks = s.picks := rfl
@[simp] theorem State.setThread_nextId (s : State) (t l : Nat) (x : Thread) : (s.setThread t l x).nextId = s.nextId := rfl
@[simp] theorem State.setThread_wall (s : State) (t l : Nat) (x : Thread) : (s.setThread t l x).wall = s.wall := rfl
@[simp] theorem State.mapLanes_mem (s : State) (t : Nat) (m : Mask) (f : Nat → Thread → Thread) : (s.mapLanes t m f).mem = s.mem := rfl
@[simp] theorem State.mapLanes_pclear (s : State) (t : Nat) (m : Mask) (f : Nat → Thread → Thread) : (s.mapLanes t m f).pclear = s.pclear := rfl
@[simp] theorem State.mapLanes_wset (s : State) (t : Nat) (m : Mask) (f : Nat → Thread → Thread) : (s.mapLanes t m f).wset = s.wset := rfl
@[simp] theorem State.mapLanes_poison (s : State) (t : Nat) (m : Mask) (f : Nat → Thread → Thread) : (s.mapLanes t m f).poison = s.poison := rfl
@[simp] theorem State.mapLanes_wrBy (s : State) (t : Nat) (m : Mask) (f : Nat → Thread → Thread) : (s.mapLanes t m f).wrBy = s.wrBy := rfl
@[simp] theorem State.mapLanes_companies (s : State) (t : Nat) (m : Mask) (f : Nat → Thread → Thread) : (s.mapLanes t m f).companies = s.companies := rfl
@[simp] theorem State.mapLanes_runs (s : State) (t : Nat) (m : Mask) (f : Nat → Thread → Thread) : (s.mapLanes t m f).runs = s.runs := rfl
@[simp] theorem State.mapLanes_queues (s : State) (t : Nat) (m : Mask) (f : Nat → Thread → Thread) : (s.mapLanes t m f).queues = s.queues := rfl
@[simp] theorem State.mapLanes_wings (s : State) (t : Nat) (m : Mask) (f : Nat → Thread → Thread) : (s.mapLanes t m f).wings = s.wings := rfl
@[simp] theorem State.mapLanes_stages (s : State) (t : Nat) (m : Mask) (f : Nat → Thread → Thread) : (s.mapLanes t m f).stages = s.stages := rfl
@[simp] theorem State.mapLanes_accs (s : State) (t : Nat) (m : Mask) (f : Nat → Thread → Thread) : (s.mapLanes t m f).accs = s.accs := rfl
@[simp] theorem State.mapLanes_copies (s : State) (t : Nat) (m : Mask) (f : Nat → Thread → Thread) : (s.mapLanes t m f).copies = s.copies := rfl
@[simp] theorem State.mapLanes_colls (s : State) (t : Nat) (m : Mask) (f : Nat → Thread → Thread) : (s.mapLanes t m f).colls = s.colls := rfl
@[simp] theorem State.mapLanes_upds (s : State) (t : Nat) (m : Mask) (f : Nat → Thread → Thread) : (s.mapLanes t m f).upds = s.upds := rfl
@[simp] theorem State.mapLanes_entries (s : State) (t : Nat) (m : Mask) (f : Nat → Thread → Thread) : (s.mapLanes t m f).entries = s.entries := rfl
@[simp] theorem State.mapLanes_tiles (s : State) (t : Nat) (m : Mask) (f : Nat → Thread → Thread) : (s.mapLanes t m f).tiles = s.tiles := rfl
@[simp] theorem State.mapLanes_slices (s : State) (t : Nat) (m : Mask) (f : Nat → Thread → Thread) : (s.mapLanes t m f).slices = s.slices := rfl
@[simp] theorem State.mapLanes_marks (s : State) (t : Nat) (m : Mask) (f : Nat → Thread → Thread) : (s.mapLanes t m f).marks = s.marks := rfl
@[simp] theorem State.mapLanes_xcache (s : State) (t : Nat) (m : Mask) (f : Nat → Thread → Thread) : (s.mapLanes t m f).xcache = s.xcache := rfl
@[simp] theorem State.mapLanes_xreqs (s : State) (t : Nat) (m : Mask) (f : Nat → Thread → Thread) : (s.mapLanes t m f).xreqs = s.xreqs := rfl
@[simp] theorem State.mapLanes_ports (s : State) (t : Nat) (m : Mask) (f : Nat → Thread → Thread) : (s.mapLanes t m f).ports = s.ports := rfl
@[simp] theorem State.mapLanes_mgmt (s : State) (t : Nat) (m : Mask) (f : Nat → Thread → Thread) : (s.mapLanes t m f).mgmt = s.mgmt := rfl
@[simp] theorem State.mapLanes_lastDie (s : State) (t : Nat) (m : Mask) (f : Nat → Thread → Thread) : (s.mapLanes t m f).lastDie = s.lastDie := rfl
@[simp] theorem State.mapLanes_stagePtr (s : State) (t : Nat) (m : Mask) (f : Nat → Thread → Thread) : (s.mapLanes t m f).stagePtr = s.stagePtr := rfl
@[simp] theorem State.mapLanes_lastServed (s : State) (t : Nat) (m : Mask) (f : Nat → Thread → Thread) : (s.mapLanes t m f).lastServed = s.lastServed := rfl
@[simp] theorem State.mapLanes_nextRun (s : State) (t : Nat) (m : Mask) (f : Nat → Thread → Thread) : (s.mapLanes t m f).nextRun = s.nextRun := rfl
@[simp] theorem State.mapLanes_out (s : State) (t : Nat) (m : Mask) (f : Nat → Thread → Thread) : (s.mapLanes t m f).out = s.out := rfl
@[simp] theorem State.mapLanes_agenda (s : State) (t : Nat) (m : Mask) (f : Nat → Thread → Thread) : (s.mapLanes t m f).agenda = s.agenda := rfl
@[simp] theorem State.mapLanes_cur (s : State) (t : Nat) (m : Mask) (f : Nat → Thread → Thread) : (s.mapLanes t m f).cur = s.cur := rfl
@[simp] theorem State.mapLanes_choices (s : State) (t : Nat) (m : Mask) (f : Nat → Thread → Thread) : (s.mapLanes t m f).choices = s.choices := rfl
@[simp] theorem State.mapLanes_picks (s : State) (t : Nat) (m : Mask) (f : Nat → Thread → Thread) : (s.mapLanes t m f).picks = s.picks := rfl
@[simp] theorem State.mapLanes_nextId (s : State) (t : Nat) (m : Mask) (f : Nat → Thread → Thread) : (s.mapLanes t m f).nextId = s.nextId := rfl
@[simp] theorem State.mapLanes_wall (s : State) (t : Nat) (m : Mask) (f : Nat → Thread → Thread) : (s.mapLanes t m f).wall = s.wall := rfl

@[simp] theorem State.troupe_setThread_self (s : State) (t l : Nat) (x : Thread) :
    (s.setThread t l x).troupe t = (s.troupe t).setThread l x := tget_tput_self _ _ _ _
theorem State.troupe_setThread_ne (s : State) {t u : Nat} (l : Nat) (x : Thread) (h : u ≠ t) :
    (s.setThread t l x).troupe u = s.troupe u := tget_tput_ne _ _ _ h
@[simp] theorem State.troupe_mapLanes_self (s : State) (t : Nat) (m : Mask) (f : Nat → Thread → Thread) :
    (s.mapLanes t m f).troupe t = (s.troupe t).mapLanes m f := tget_tput_self _ _ _ _
theorem State.troupe_mapLanes_ne (s : State) {t u : Nat} (m : Mask) (f : Nat → Thread → Thread) (h : u ≠ t) :
    (s.mapLanes t m f).troupe u = s.troupe u := tget_tput_ne _ _ _ h

end Sys2Proof.Machine
end

