-- ==== Sys2Proof/Laws/Issue.lean ====
section
/-! SUPPORT. What issuing an instruction comes to: the lanes of a mask, the ways a result reaches a register, and the end of an
instruction. -/

namespace Sys2Proof.Machine

open Sys2Proof

/-! ### Lanes -/

theorem mem_lanes {m : Mask} {l : Nat} : l ∈ lanes m ↔ hasLane m l = true := by
  unfold lanes hasLane
  rw [List.mem_filter, List.mem_range]
  constructor
  · exact fun h => h.2
  · intro h
    exact ⟨by have := BitVec.lt_of_getLsbD h; omega, h⟩

theorem lanes_nodup (m : Mask) : (lanes m).Nodup := List.Nodup.filter _ List.nodup_range

theorem lt_of_hasLane {m : Mask} {l : Nat} (h : hasLane m l = true) : l < 32 := BitVec.lt_of_getLsbD h

theorem lanes_eq_nil {m : Mask} : lanes m = [] ↔ m = 0 := by
  constructor
  · intro h
    ext l hl
    by_contra hne
    have : l ∈ lanes m := mem_lanes.2 (by simpa [hasLane, BitVec.getLsbD_eq_getElem hl] using hne)
    simp [h] at this
  · rintro rfl
    simp [lanes]

theorem hasLane_laneBit {l k : Nat} (hl : l < 32) : hasLane (laneBit l) k = decide (k = l) := by
  simp only [hasLane, laneBit, BitVec.getLsbD_shiftLeft, BitVec.getLsbD_one]
  by_cases h : k = l
  · subst h; simp; omega
  · simp [h]; omega

theorem hasLane_foldl_bits (p : Nat → Bool) (ls : List Nat) (hls : ∀ l ∈ ls, l < 32) (m : Mask) (k : Nat) :
    hasLane (ls.foldl (fun m l => if p l then m ||| laneBit l else m) m) k = (hasLane m k || (decide (k ∈ ls) && p k)) := by
  induction ls generalizing m with
  | nil => simp
  | cons a r ih =>
    rw [List.foldl_cons, ih (fun l hl => hls l (List.mem_cons_of_mem _ hl))]
    have ha : a < 32 := hls a List.mem_cons_self
    by_cases hp : p a = true
    · have hor : hasLane (m ||| laneBit a) k = (hasLane m k || decide (k = a)) := by
        rw [← hasLane_laneBit ha, hasLane, BitVec.getLsbD_or]; rfl
      rw [if_pos hp, hor]
      by_cases hk : k = a
      · subst hk; simp [hp]
      · simp [hk]
    · rw [if_neg hp]
      by_cases hk : k = a
      · subst hk; simp [hp]
      · simp [hk]

/-- The lanes of the mask of a predicate. -/
theorem hasLane_maskOf (p : Nat → Bool) (k : Nat) : hasLane (maskOf p) k = (decide (k < 32) && p k) := by
  rw [maskOf, hasLane_foldl_bits p _ (fun l hl => List.mem_range.1 hl)]
  simp [hasLane]

theorem maskOf_eq_zero {p : Nat → Bool} : maskOf p = 0 ↔ ∀ k < 32, p k = false := by
  constructor
  · intro h k hk
    have := hasLane_maskOf p k
    rw [h] at this
    simpa [hasLane, hk] using this.symm
  · intro h
    apply BitVec.eq_of_getLsbD_eq
    intro i hi
    have := hasLane_maskOf p i
    simp only [hasLane] at this
    rw [this, h i hi]
    simp

/-- The threads of a mask changed: each of its lanes by the function, no other. -/
theorem Troupe.thread_foldl_set (f : Nat → Thread → Thread) (ls : List Nat) (hn : ls.Nodup) (tr : Troupe) (k : Nat) :
    (ls.foldl (fun tr l => tr.setThread l (f l (tr.thread l))) tr).thread k =
      if k ∈ ls then f k (tr.thread k) else tr.thread k := by
  induction ls generalizing tr with
  | nil => simp
  | cons a r ih =>
    obtain ⟨ha, hr⟩ := List.nodup_cons.1 hn
    rw [List.foldl_cons, ih hr]
    by_cases hk : k = a
    · subst hk; simp [ha]
    · simp [hk, Troupe.thread_setThread_ne _ _ hk]

theorem Troupe.thread_mapLanes (tr : Troupe) (m : Mask) (f : Nat → Thread → Thread) (k : Nat) :
    (tr.mapLanes m f).thread k = if hasLane m k then f k (tr.thread k) else tr.thread k := by
  rw [Troupe.mapLanes, Troupe.thread_foldl_set _ _ (lanes_nodup m)]
  simp [mem_lanes]

theorem Troupe.foldl_set_rest (f : Nat → Thread → Thread) (ls : List Nat) (tr : Troupe) :
    { ls.foldl (fun tr l => tr.setThread l (f l (tr.thread l))) tr with threads := tr.threads } = tr := by
  induction ls generalizing tr with
  | nil => rfl
  | cons a r ih =>
    have h := ih (tr.setThread a (f a (tr.thread a)))
    rw [List.foldl_cons]
    exact (congrArg (fun x : Troupe => { x with threads := tr.threads }) h :)

/-- Changing threads changes nothing else of a troupe. -/
theorem Troupe.mapLanes_rest (tr : Troupe) (m : Mask) (f : Nat → Thread → Thread) :
    { tr.mapLanes m f with threads := tr.threads } = tr := Troupe.foldl_set_rest f (lanes m) tr

@[simp] theorem Troupe.mapLanes_status (tr : Troupe) (m : Mask) (f : Nat → Thread → Thread) : (tr.mapLanes m f).status = tr.status :=
  (congrArg Troupe.status (Troupe.mapLanes_rest tr m f) :)
@[simp] theorem Troupe.mapLanes_stage (tr : Troupe) (m : Mask) (f : Nat → Thread → Thread) : (tr.mapLanes m f).stage = tr.stage :=
  (congrArg Troupe.stage (Troupe.mapLanes_rest tr m f) :)
@[simp] theorem Troupe.mapLanes_wing (tr : Troupe) (m : Mask) (f : Nat → Thread → Thread) : (tr.mapLanes m f).wing = tr.wing :=
  (congrArg Troupe.wing (Troupe.mapLanes_rest tr m f) :)
@[simp] theorem Troupe.mapLanes_regs (tr : Troupe) (m : Mask) (f : Nat → Thread → Thread) : (tr.mapLanes m f).regs = tr.regs :=
  (congrArg Troupe.regs (Troupe.mapLanes_rest tr m f) :)
@[simp] theorem Troupe.mapLanes_cv (tr : Troupe) (m : Mask) (f : Nat → Thread → Thread) : (tr.mapLanes m f).cv = tr.cv :=
  (congrArg Troupe.cv (Troupe.mapLanes_rest tr m f) :)
@[simp] theorem Troupe.mapLanes_pend (tr : Troupe) (m : Mask) (f : Nat → Thread → Thread) : (tr.mapLanes m f).pend = tr.pend :=
  (congrArg Troupe.pend (Troupe.mapLanes_rest tr m f) :)
@[simp] theorem Troupe.mapLanes_ops (tr : Troupe) (m : Mask) (f : Nat → Thread → Thread) : (tr.mapLanes m f).ops = tr.ops :=
  (congrArg Troupe.ops (Troupe.mapLanes_rest tr m f) :)
@[simp] theorem Troupe.mapLanes_recs (tr : Troupe) (m : Mask) (f : Nat → Thread → Thread) : (tr.mapLanes m f).recs = tr.recs :=
  (congrArg Troupe.recs (Troupe.mapLanes_rest tr m f) :)
@[simp] theorem Troupe.mapLanes_freeing (tr : Troupe) (m : Mask) (f : Nat → Thread → Thread) : (tr.mapLanes m f).freeing = tr.freeing :=
  (congrArg Troupe.freeing (Troupe.mapLanes_rest tr m f) :)
@[simp] theorem Troupe.mapLanes_tiles (tr : Troupe) (m : Mask) (f : Nat → Thread → Thread) : (tr.mapLanes m f).tiles = tr.tiles :=
  (congrArg Troupe.tiles (Troupe.mapLanes_rest tr m f) :)
@[simp] theorem Troupe.mapLanes_srState (tr : Troupe) (m : Mask) (f : Nat → Thread → Thread) : (tr.mapLanes m f).srState = tr.srState :=
  (congrArg Troupe.srState (Troupe.mapLanes_rest tr m f) :)
@[simp] theorem Troupe.mapLanes_srSeed (tr : Troupe) (m : Mask) (f : Nat → Thread → Thread) : (tr.mapLanes m f).srSeed = tr.srSeed :=
  (congrArg Troupe.srSeed (Troupe.mapLanes_rest tr m f) :)
@[simp] theorem Troupe.mapLanes_awaitLim (tr : Troupe) (m : Mask) (f : Nat → Thread → Thread) : (tr.mapLanes m f).awaitLim = tr.awaitLim :=
  (congrArg Troupe.awaitLim (Troupe.mapLanes_rest tr m f) :)
@[simp] theorem Troupe.mapLanes_callIdx (tr : Troupe) (m : Mask) (f : Nat → Thread → Thread) : (tr.mapLanes m f).callIdx = tr.callIdx :=
  (congrArg Troupe.callIdx (Troupe.mapLanes_rest tr m f) :)
@[simp] theorem Troupe.mapLanes_urgency (tr : Troupe) (m : Mask) (f : Nat → Thread → Thread) : (tr.mapLanes m f).urgency = tr.urgency :=
  (congrArg Troupe.urgency (Troupe.mapLanes_rest tr m f) :)
@[simp] theorem Troupe.mapLanes_last (tr : Troupe) (m : Mask) (f : Nat → Thread → Thread) : (tr.mapLanes m f).last = tr.last :=
  (congrArg Troupe.last (Troupe.mapLanes_rest tr m f) :)
@[simp] theorem Troupe.mapLanes_frozen (tr : Troupe) (m : Mask) (f : Nat → Thread → Thread) : (tr.mapLanes m f).frozen = tr.frozen :=
  (congrArg Troupe.frozen (Troupe.mapLanes_rest tr m f) :)
@[simp] theorem Troupe.mapLanes_cvFrozen (tr : Troupe) (m : Mask) (f : Nat → Thread → Thread) : (tr.mapLanes m f).cvFrozen = tr.cvFrozen :=
  (congrArg Troupe.cvFrozen (Troupe.mapLanes_rest tr m f) :)
@[simp] theorem Troupe.mapLanes_written (tr : Troupe) (m : Mask) (f : Nat → Thread → Thread) : (tr.mapLanes m f).written = tr.written :=
  (congrArg Troupe.written (Troupe.mapLanes_rest tr m f) :)
@[simp] theorem Troupe.mapLanes_rttPc (tr : Troupe) (m : Mask) (f : Nat → Thread → Thread) : (tr.mapLanes m f).rttPc = tr.rttPc :=
  (congrArg Troupe.rttPc (Troupe.mapLanes_rest tr m f) :)
@[simp] theorem Troupe.mapLanes_handlers (tr : Troupe) (m : Mask) (f : Nat → Thread → Thread) : (tr.mapLanes m f).handlers = tr.handlers :=
  (congrArg Troupe.handlers (Troupe.mapLanes_rest tr m f) :)
@[simp] theorem Troupe.mapLanes_context (tr : Troupe) (m : Mask) (f : Nat → Thread → Thread) : (tr.mapLanes m f).context = tr.context :=
  (congrArg Troupe.context (Troupe.mapLanes_rest tr m f) :)
@[simp] theorem Troupe.mapLanes_pendTrap (tr : Troupe) (m : Mask) (f : Nat → Thread → Thread) : (tr.mapLanes m f).pendTrap = tr.pendTrap :=
  (congrArg Troupe.pendTrap (Troupe.mapLanes_rest tr m f) :)
@[simp] theorem Troupe.mapLanes_pendPre (tr : Troupe) (m : Mask) (f : Nat → Thread → Thread) : (tr.mapLanes m f).pendPre = tr.pendPre :=
  (congrArg Troupe.pendPre (Troupe.mapLanes_rest tr m f) :)
@[simp] theorem Troupe.mapLanes_xfaults (tr : Troupe) (m : Mask) (f : Nat → Thread → Thread) : (tr.mapLanes m f).xfaults = tr.xfaults :=
  (congrArg Troupe.xfaults (Troupe.mapLanes_rest tr m f) :)
@[simp] theorem Troupe.mapLanes_svcs (tr : Troupe) (m : Mask) (f : Nat → Thread → Thread) : (tr.mapLanes m f).svcs = tr.svcs :=
  (congrArg Troupe.svcs (Troupe.mapLanes_rest tr m f) :)
@[simp] theorem Troupe.mapLanes_reached (tr : Troupe) (m : Mask) (f : Nat → Thread → Thread) : (tr.mapLanes m f).reached = tr.reached :=
  (congrArg Troupe.reached (Troupe.mapLanes_rest tr m f) :)
@[simp] theorem Troupe.mapLanes_saveDone (tr : Troupe) (m : Mask) (f : Nat → Thread → Thread) : (tr.mapLanes m f).saveDone = tr.saveDone :=
  (congrArg Troupe.saveDone (Troupe.mapLanes_rest tr m f) :)
@[simp] theorem Troupe.mapLanes_entryId (tr : Troupe) (m : Mask) (f : Nat → Thread → Thread) : (tr.mapLanes m f).entryId = tr.entryId :=
  (congrArg Troupe.entryId (Troupe.mapLanes_rest tr m f) :)
@[simp] theorem Troupe.mapLanes_idleSince (tr : Troupe) (m : Mask) (f : Nat → Thread → Thread) : (tr.mapLanes m f).idleSince = tr.idleSince :=
  (congrArg Troupe.idleSince (Troupe.mapLanes_rest tr m f) :)
@[simp] theorem Troupe.mapLanes_entered (tr : Troupe) (m : Mask) (f : Nat → Thread → Thread) : (tr.mapLanes m f).entered = tr.entered :=
  (congrArg Troupe.entered (Troupe.mapLanes_rest tr m f) :)
@[simp] theorem Troupe.reg_mapLanes (tr : Troupe) (m : Mask) (f : Nat → Thread → Thread) (k : Nat) :
    (tr.mapLanes m f).reg k = tr.reg k := by simp [Troupe.reg]

/-! ### Registers written -/

theorem Troupe.setRegs_nil (tr : Troupe) : tr.setRegs [] = tr := rfl
theorem Troupe.setRegs_cons (tr : Troupe) (w : Nat × Word) (ws : List (Nat × Word)) :
    tr.setRegs (w :: ws) = (tr.setReg w.1 w.2).setRegs ws := rfl

theorem Troupe.reg_setRegs_of_not_mem (ws : List (Nat × Word)) (tr : Troupe) {k : Nat} (h : k ∉ ws.map Prod.fst) :
    (tr.setRegs ws).reg k = tr.reg k := by
  induction ws generalizing tr with
  | nil => rfl
  | cons w r ih =>
    rw [Troupe.setRegs_cons, ih _ fun hk => h (List.mem_cons_of_mem _ hk)]
    exact Troupe.reg_setReg_ne _ _ fun hk => h (by simp [hk])

theorem Troupe.reg_setRegs_of_mem (ws : List (Nat × Word)) (hn : (ws.map Prod.fst).Nodup) (tr : Troupe) {w : Nat × Word}
    (h : w ∈ ws) : (tr.setRegs ws).reg w.1 = w.2 := by
  induction ws generalizing tr with
  | nil => cases h
  | cons v r ih =>
    rw [List.map_cons, List.nodup_cons] at hn
    rw [Troupe.setRegs_cons]
    rcases List.mem_cons.1 h with rfl | h
    · rw [Troupe.reg_setRegs_of_not_mem _ _ hn.1, Troupe.reg_setReg_self]
    · exact ih hn.2 _ h

theorem Troupe.setRegs_rest (ws : List (Nat × Word)) (tr : Troupe) :
    { tr.setRegs ws with regs := tr.regs, pend := tr.pend } = tr := by
  induction ws generalizing tr with
  | nil => rfl
  | cons w r ih =>
    rw [Troupe.setRegs_cons]
    exact (congrArg (fun x : Troupe => { x with regs := tr.regs, pend := tr.pend }) (ih (tr.setReg w.1 w.2)) :)

theorem Troupe.setReg_pend_plain (tr : Troupe) (k : Nat) (x : Word) :
    (tr.setReg k x).pend.map Pend.plain = tr.pend.map Pend.plain := by
  simp only [Troupe.setReg, List.map_map]
  refine List.map_congr_left fun p _ => ?_
  simp only [Function.comp]
  split <;> rfl

theorem Troupe.setRegs_pend_plain (ws : List (Nat × Word)) (tr : Troupe) :
    (tr.setRegs ws).pend.map Pend.plain = tr.pend.map Pend.plain := by
  induction ws generalizing tr with
  | nil => rfl
  | cons w r ih => rw [Troupe.setRegs_cons, ih, Troupe.setReg_pend_plain]

theorem foldl_setRegs (ws : Writes) (tr : Troupe) :
    ws.foldl (fun tr w => tr.setRegs w.2) tr = tr.setRegs (ws.flatMap Prod.snd) := by
  induction ws generalizing tr with
  | nil => rfl
  | cons w r ih => rw [List.foldl_cons, ih, List.flatMap_cons, Troupe.setRegs, Troupe.setRegs, Troupe.setRegs, List.foldl_append]

/-- What a write at once does to its troupe. -/
theorem troupe_writeNow (s : State) (c : Ctx) (ws : Writes) :
    (writeNow s c ws).troupe c.t = (s.troupe c.t).setRegs (ws.flatMap Prod.snd) := by
  rw [writeNow, State.troupe_setTroupe_self, foldl_setRegs]

/-! ### Destinations -/

theorem keys_destWrites (wide : Bool) (d : Opd) (l : Nat) (x : Dword) :
    (destWrites wide d l x).map Prod.fst = (destWrites wide d l 0).map Prod.fst := by
  cases d <;> simp only [destWrites] <;> split <;> rfl

theorem destKeys_eq (c : Ctx) (wide : Bool) (d : Opd) (f : Nat → Dword) :
    ((results c wide d f).flatMap Prod.snd).map Prod.fst = destKeys c wide d := by
  simp only [results, destKeys, List.flatMap_map, List.map_flatMap]
  exact List.flatMap_congr fun l _ => keys_destWrites wide d l (f l)

theorem writers_lt {c : Ctx} {d : Opd} {l : Nat} (h : l ∈ writers c d) : l < 32 := by
  have low : c.low < 32 := by
    unfold Ctx.low lowLane
    cases hl : lanes c.act with
    | nil => simp
    | cons a r => simpa using lt_of_hasLane (mem_lanes.1 (hl ▸ List.mem_cons_self))
  cases d <;> simp only [writers] at h
  case s n => split at h <;> simp_all
  all_goals exact lt_of_hasLane (mem_lanes.1 h)

theorem writers_nodup (c : Ctx) (d : Opd) : (writers c d).Nodup := by
  cases d <;> simp only [writers]
  case s n => split <;> simp
  all_goals exact lanes_nodup _

/-- No two lanes write one register. -/
theorem destKeys_nodup (c : Ctx) (wide : Bool) (d : Opd) : (destKeys c wide d).Nodup := by
  rw [destKeys, List.nodup_flatMap]
  constructor
  · intro l _
    cases d <;> simp only [destWrites] <;> (try split) <;> simp [vKey, sKey, pKey]
  · refine List.Pairwise.imp_of_mem (fun {a b} ha hb hne => ?_) (writers_nodup c d)
    have ha' := writers_lt ha
    have hb' := writers_lt hb
    cases d
    case s n =>
      simp only [writers] at ha hb
      split at ha <;> simp_all
    all_goals
      simp only [Function.onFun, List.disjoint_left, destWrites]
      (try split) <;> simp [vKey, pKey] <;> omega

theorem destWrites_mem_results {c : Ctx} {wide : Bool} {d : Opd} {f : Nat → Dword} {l : Nat} (h : l ∈ writers c d)
    {w : Nat × Word} (hw : w ∈ destWrites wide d l (f l)) : w ∈ (results c wide d f).flatMap Prod.snd := by
  simp only [results, List.flatMap_map, List.mem_flatMap]
  exact ⟨l, h, hw⟩

/-! ### The end of an instruction -/

/-- An instruction that issues goes on to its own rules. -/
theorem issueP_next {priv : State → Ctx → Bool} {i : Instr} {s : State} {c : Ctx} (h : IssuesP priv i s c)
    (body : Ctx → State → Res) : issueP priv i s body = .next (finish c (body c s.begun)) := by
  obtain ⟨hb, ⟨f, hf, rfl, hc⟩, hw⟩ := h
  simp only [issueP, hf, hb, hc, hw, Bool.not_true, Bool.false_eq_true, if_false]
  rfl

theorem issue_next {i : Instr} {s : State} {c : Ctx} (h : Issues i s c) (body : Ctx → State → Res) :
    issue i s body = .next (finish c (body c s.begun)) := issueP_next h body

theorem Ctx.act_le_mask {s : State} {h : Hdr} {l : Nat} (hl : hasLane (ctxOf s h).act l = true) :
    hasLane (ctxOf s h).mask l = true := by
  have key (p : Nat → Bool) : ∀ (ls : List Nat) (m : Mask), hasLane (ls.foldl (fun m l => if p l then m ||| laneBit l else m) m) l =
      true → hasLane m l = true ∨ (p l = true) := by
    intro ls
    induction ls with
    | nil => exact fun m h => .inl h
    | cons a r ih =>
      intro m hm
      rcases ih _ hm with h1 | h1
      · dsimp only at h1
        split at h1
        · rename_i hp
          simp only [hasLane, BitVec.getLsbD_or, Bool.or_eq_true] at h1
          rcases h1 with h1 | h1
          · exact .inl h1
          · right
            have : l = a := by
              simp only [laneBit, BitVec.getLsbD_shiftLeft, BitVec.getLsbD_one] at h1
              simp at h1
              omega
            rw [this]; exact hp
        · exact .inl h1
      · exact .inr h1
  have := key (fun l => hasLane s.cur.mask l && (readPred s (s.troupe s.cur.t) l h.pred.val 15 != h.neg)) (List.range 32) 0
    (by simpa [ctxOf, maskOf] using hl)
  rcases this with h | h
  · simp [hasLane] at h
  · simp only [Bool.and_eq_true] at h
    exact h.1

theorem IssuesP.act_le {priv : State → Ctx → Bool} {i : Instr} {s : State} {c : Ctx} (h : IssuesP priv i s c) {l : Nat}
    (hl : hasLane c.act l = true) : hasLane c.mask l = true := by
  obtain ⟨_, ⟨f, _, rfl, _⟩, _⟩ := h
  exact Ctx.act_le_mask hl

/-- The troupe after an instruction whose threads all go on. -/
theorem troupe_finish_ok (c : Ctx) (s : State) :
    (finish c (.ok s)).troupe c.t = (s.troupe c.t).mapLanes c.mask fun _ th => th.advance c.hdr :=
  State.troupe_mapLanes_self _ _ _ _

theorem onlyTroupe_finish_ok {c : Ctx} {s t : State} (h : OnlyTroupe c.t s t) : OnlyTroupe c.t s (finish c (.ok t)) where
  rest := h.rest
  others v hv := (State.troupe_mapLanes_ne _ _ _ hv).trans (h.others v hv)
  bytes := h.bytes

theorem onlyTroupe_setTroupe {u : Nat} {s t : State} (h : OnlyTroupe u s t) (x : Troupe) : OnlyTroupe u s (t.setTroupe u x) where
  rest := h.rest
  others v hv := (State.troupe_setTroupe_ne _ _ hv).trans (h.others v hv)
  bytes := h.bytes

theorem onlyTroupe_begun (u : Nat) (s : State) : OnlyTroupe u s s.begun := ⟨rfl, fun _ _ => rfl, fun _ => rfl⟩

theorem onlyTroupe_writeNow {c : Ctx} {s t : State} (h : OnlyTroupe c.t s t) (ws : Writes) :
    OnlyTroupe c.t s (writeNow t c ws) := onlyTroupe_setTroupe h _

theorem moved_advance (c : Ctx) (a b : Troupe) (h : ∀ l, { b.thread l with conv := (a.thread l).conv } = a.thread l)
    (hout : ∀ l, hasLane c.mask l = false → b.thread l = a.thread l) :
    Moved c a (b.mapLanes c.mask fun _ th => th.advance c.hdr) where
  moved l hl := by
    rw [Troupe.thread_mapLanes, if_pos hl]
    exact (congrArg (Thread.advance c.hdr) (h l) :)
  still l hl := by rw [Troupe.thread_mapLanes, if_neg (by simp [hl]), hout l hl]

/-! ### The three ways of a result -/

theorem lane_unchanged {c : Ctx} {a b : Troupe} (h : b.threads = a.threads) :
    Moved c a (b.mapLanes c.mask fun _ th => th.advance c.hdr) :=
  moved_advance c a b (fun l => by simp only [Troupe.thread, h]) fun l _ => by simp only [Troupe.thread, h]

/-- A write at once, from a state that differs from `s` in draws alone. -/
theorem laneNow_finish {c : Ctx} {r : Rnd} {wide : Bool} {d : Opd} {f : Nat → Dword} {P : Nat → Dword → Prop} {s t : State}
    (hout : OnlyTroupe c.t s t)
    (hrest : { t.troupe c.t with threads := (s.troupe c.t).threads, srState := (s.troupe c.t).srState } = s.troupe c.t)
    (hconv : ∀ l, { (t.troupe c.t).thread l with conv := ((s.troupe c.t).thread l).conv } = (s.troupe c.t).thread l)
    (hstill : ∀ l, hasLane c.mask l = false → (t.troupe c.t).thread l = (s.troupe c.t).thread l)
    (hdraw : r ≠ .sr → t.troupe c.t = s.troupe c.t)
    (hP : ∀ l ∈ writers c d, P l (f l)) :
    LaneNow c r wide d P s (finish c (.ok (writeNow t c (results c wide d f)))) where
  outside := onlyTroupe_finish_ok (onlyTroupe_writeNow hout _)
  frame := by
    have hr := Troupe.setRegs_rest ((results c wide d f).flatMap Prod.snd) (t.troupe c.t)
    have hthr : ((t.troupe c.t).setRegs ((results c wide d f).flatMap Prod.snd)).threads = (t.troupe c.t).threads :=
      (congrArg Troupe.threads hr :)
    have hregs : (t.troupe c.t).regs = (s.troupe c.t).regs := (congrArg Troupe.regs hrest :)
    have hth (l : Nat) : ((t.troupe c.t).setRegs ((results c wide d f).flatMap Prod.snd)).thread l = (t.troupe c.t).thread l := by
      simp only [Troupe.thread, hthr]
    refine ⟨?_, ?_, ?_, ?_⟩
    · rw [troupe_finish_ok, troupe_writeNow]
      have h1 := congrArg (fun x : Troupe => { x with
        threads := (s.troupe c.t).threads, regs := (s.troupe c.t).regs, pend := (s.troupe c.t).pend, srState := (s.troupe c.t).srState })
        (Troupe.mapLanes_rest ((t.troupe c.t).setRegs ((results c wide d f).flatMap Prod.snd)) c.mask fun _ th => th.advance c.hdr)
      have h2 := congrArg (fun x : Troupe => { x with
        threads := (s.troupe c.t).threads, regs := (s.troupe c.t).regs, pend := (s.troupe c.t).pend, srState := (s.troupe c.t).srState }) hr
      have h3 := congrArg (fun x : Troupe => { x with
        regs := (s.troupe c.t).regs, pend := (s.troupe c.t).pend }) hrest
      exact (h1.trans (h2.trans h3) :)
    · intro k hk
      rw [troupe_finish_ok, troupe_writeNow, Troupe.reg_mapLanes, Troupe.reg_setRegs_of_not_mem]
      · simp only [Troupe.reg, hregs]
      · rwa [destKeys_eq]
    · rw [troupe_finish_ok, troupe_writeNow]
      refine moved_advance c _ _ (fun l => ?_) fun l hl => ?_
      · rw [hth]; exact hconv l
      · rw [hth]; exact hstill l hl
    · intro hsr
      rw [troupe_finish_ok, troupe_writeNow]
      refine ⟨?_, fun l => ?_⟩
      · rw [Troupe.mapLanes_srState]
        exact ((congrArg Troupe.srState hr).trans (congrArg Troupe.srState (hdraw hsr)) :)
      · rw [Troupe.thread_mapLanes, hth, hdraw hsr]
        split <;> rfl
  owed := by
    rw [troupe_finish_ok, troupe_writeNow, Troupe.mapLanes_pend, Troupe.setRegs_pend_plain]
    exact congrArg (List.map Pend.plain) (congrArg Troupe.pend hrest :)
  result := by
    intro l hl
    refine ⟨f l, hP l hl, fun w hw => ?_⟩
    rw [troupe_finish_ok, troupe_writeNow, Troupe.reg_mapLanes]
    exact Troupe.reg_setRegs_of_mem _ (by rw [destKeys_eq]; exact destKeys_nodup _ _ _) _ (destWrites_mem_results hl hw)

/-- What every INT instruction comes to (R184): each lane gets `f` of its operands. -/
theorem laneNow_next {i : Instr} {s : State} {c : Ctx} {wide : Bool} {d : Opd} {f : State → Ctx → Nat → Dword}
    {P : Nat → Dword → Prop} (h : Issues i s c) (hP : ∀ l ∈ writers c d, P l (f s.begun c l)) (r : Rnd := .rne) :
    ∃ t, laneNow i s wide d f = .next t ∧ LaneNow c r wide d P s t :=
  ⟨_, issue_next h _, laneNow_finish (onlyTroupe_begun _ _) rfl (fun _ => rfl) (fun _ _ => rfl) (fun _ => rfl) hP⟩

/-- What `writeLate` adds to the troupe. -/
theorem troupe_writeLate (ws : Writes) (c : Ctx) (s : State) :
    (writeLate s c ws).troupe c.t = { s.troupe c.t with pend := (s.troupe c.t).pend ++ owedBy c s ws } := by
  induction ws generalizing s with
  | nil => simp [writeLate, owedBy]
  | cons w r ih =>
    have hstep : writeLate s c (w :: r) = writeLate (owe s c (laneBit w.1) w.1 w.2 true).1 c r := rfl
    rw [hstep, ih]
    by_cases hw : w.2.isEmpty
    · simp [owe, hw, owedBy]
    · have hw' : w.2.isEmpty = false := by simpa using hw
      simp only [owe, hw', Bool.false_eq_true, if_false, State.troupe_setTroupe_self, owedBy, State.setTroupe_nextId,
        List.filter_cons, Bool.not_false, if_true, List.zipIdx_cons, List.map_cons, List.append_assoc, List.singleton_append,
        Nat.add_zero, Troupe.thread]
      congr 2
      simp only [List.cons.injEq, true_and]
      rw [List.zipIdx_succ, List.map_map]
      refine List.map_congr_left fun x _ => ?_
      simp only [Function.comp]
      congr 1
      omega

theorem rest_writeLate (ws : Writes) (c : Ctx) (s : State) :
    { writeLate s c ws with troupes := s.troupes, nextId := s.nextId } = s := by
  induction ws generalizing s with
  | nil => rfl
  | cons w r ih =>
    have hstep : writeLate s c (w :: r) = writeLate (owe s c (laneBit w.1) w.1 w.2 true).1 c r := rfl
    rw [hstep]
    have h1 := congrArg (fun x : State => { x with troupes := s.troupes, nextId := s.nextId })
      (ih (owe s c (laneBit w.1) w.1 w.2 true).1)
    refine (h1 :) |>.trans ?_
    simp only [owe]
    split <;> rfl

theorem troupe_writeLate_ne (ws : Writes) (c : Ctx) (s : State) {v : Nat} (hv : v ≠ c.t) :
    (writeLate s c ws).troupe v = s.troupe v := by
  induction ws generalizing s with
  | nil => rfl
  | cons w r ih =>
    have hstep : writeLate s c (w :: r) = writeLate (owe s c (laneBit w.1) w.1 w.2 true).1 c r := rfl
    rw [hstep, ih]
    simp only [owe]
    split
    · rfl
    · exact State.troupe_setTroupe_ne _ _ hv

theorem onlyTroupe_writeLate {c : Ctx} {s t : State} (h : OnlyTroupe c.t s t) (ws : Writes) :
    OnlyTroupe c.t s (writeLate t c ws) where
  rest := by
    have h1 := congrArg (fun x : State => { x with troupes := s.troupes, picks := s.picks, nextId := s.nextId }) (rest_writeLate ws c t)
    exact ((h1 :)).trans h.rest
  others v hv := (troupe_writeLate_ne ws c t hv).trans (h.others v hv)
  bytes x := by
    have h1 : (writeLate t c ws).mem = t.mem := (congrArg State.mem (rest_writeLate ws c t) :)
    rw [h1]; exact h.bytes x

/-- A write performed later, from a state that differs from `s` in draws alone. -/
theorem laneLate_finish {c : Ctx} {r : Rnd} {ws : Writes} {s t : State}
    (hout : OnlyTroupe c.t s t) (hid : t.nextId = s.nextId)
    (hrest : { t.troupe c.t with threads := (s.troupe c.t).threads, srState := (s.troupe c.t).srState } = s.troupe c.t)
    (hconv : ∀ l, { (t.troupe c.t).thread l with conv := ((s.troupe c.t).thread l).conv } = (s.troupe c.t).thread l)
    (hstill : ∀ l, hasLane c.mask l = false → (t.troupe c.t).thread l = (s.troupe c.t).thread l)
    (hdraw : r ≠ .sr → t.troupe c.t = s.troupe c.t) :
    LaneLate c r ws s (finish c (.ok (writeLate t c ws))) where
  outside := onlyTroupe_finish_ok (onlyTroupe_writeLate hout _)
  frame := by
    refine ⟨?_, ?_, ?_, ?_⟩
    · rw [troupe_finish_ok, troupe_writeLate]
      have h1 := congrArg (fun x : Troupe => { x with
        threads := (s.troupe c.t).threads, regs := (s.troupe c.t).regs, pend := (s.troupe c.t).pend, srState := (s.troupe c.t).srState })
        (Troupe.mapLanes_rest { t.troupe c.t with pend := (t.troupe c.t).pend ++ owedBy c t ws } c.mask fun _ th => th.advance c.hdr)
      have h3 := congrArg (fun x : Troupe => { x with
        regs := (s.troupe c.t).regs, pend := (s.troupe c.t).pend }) hrest
      exact (h1.trans h3 :)
    · intro k _
      rw [troupe_finish_ok, troupe_writeLate, Troupe.reg_mapLanes]
      have : (t.troupe c.t).regs = (s.troupe c.t).regs := (congrArg Troupe.regs hrest :)
      simp only [Troupe.reg, this]
    · rw [troupe_finish_ok, troupe_writeLate]
      exact moved_advance c _ _ hconv hstill
    · intro hsr
      rw [troupe_finish_ok, troupe_writeLate]
      refine ⟨?_, fun l => ?_⟩
      · rw [Troupe.mapLanes_srState, hdraw hsr]
      · rw [Troupe.thread_mapLanes, hdraw hsr]
        split <;> rfl
  owed := by
    rw [troupe_finish_ok, troupe_writeLate, Troupe.mapLanes_pend]
    have hp : (t.troupe c.t).pend = (s.troupe c.t).pend := (congrArg Troupe.pend hrest :)
    have hsel (l : Nat) : ((t.troupe c.t).thread l).selFlag c.hdr = ((s.troupe c.t).thread l).selFlag c.hdr :=
      (congrArg (Thread.selFlag · c.hdr) (hconv l) :)
    simp only [hp, owedBy, hid, hsel]

/-- What an XF instruction that draws nothing comes to. -/
theorem issueLate_next {i : Instr} {s : State} {c : Ctx} {f : Ctx → State → Writes} (h : Issues i s c) (r : Rnd := .rne) :
    ∃ t, issue i s (fun c s => .ok (writeLate s c (f c s))) = .next t ∧ LaneLate c r (f c s.begun) s t :=
  ⟨_, issue_next h _, laneLate_finish (onlyTroupe_begun _ _) rfl rfl (fun _ => rfl) (fun _ _ => rfl) fun _ => rfl⟩

/-! ### Draws (R98, R100) -/

/-- What the draws of an issue change: the generator, or the conversion counts of a deterministic run. -/
theorem draws_frame {s : State} {c : Ctx} (hact : ∀ l, hasLane c.act l = true → hasLane c.mask l = true) (r : Rnd) (n : Nat) :
    OnlyTroupe c.t s (draws s c r n).1 ∧ (draws s c r n).1.nextId = s.nextId ∧
    { (draws s c r n).1.troupe c.t with threads := (s.troupe c.t).threads, srState := (s.troupe c.t).srState } = s.troupe c.t ∧
    (∀ l, { ((draws s c r n).1.troupe c.t).thread l with conv := ((s.troupe c.t).thread l).conv } = (s.troupe c.t).thread l) ∧
    (∀ l, hasLane c.mask l = false → ((draws s c r n).1.troupe c.t).thread l = (s.troupe c.t).thread l) ∧
    (r ≠ .sr → (draws s c r n).1.troupe c.t = s.troupe c.t) := by
  have refl : OnlyTroupe c.t s s := ⟨rfl, fun _ _ => rfl, fun _ => rfl⟩
  unfold draws
  split
  · rename_i hr
    have hr' : r = .sr := by simpa using hr
    unfold srDraws
    dsimp only
    split
    · exact ⟨refl, rfl, rfl, fun _ => rfl, fun _ _ => rfl, fun _ => rfl⟩
    · split
      · refine ⟨⟨rfl, fun v hv => State.troupe_mapLanes_ne _ _ _ hv, fun _ => rfl⟩, rfl, ?_, ?_, ?_, fun h => absurd hr' h⟩
        · rw [State.troupe_mapLanes_self]
          exact (congrArg (fun x : Troupe => { x with srState := (s.troupe c.t).srState }) (Troupe.mapLanes_rest _ _ _) :)
        · intro l
          rw [State.troupe_mapLanes_self, Troupe.thread_mapLanes]
          split <;> rfl
        · intro l hl
          rw [State.troupe_mapLanes_self, Troupe.thread_mapLanes, if_neg]
          intro h
          rw [hact l h] at hl
          cases hl
      · exact ⟨onlyTroupe_setTroupe refl _, rfl, by rw [State.troupe_setTroupe_self], fun l => by
          rw [State.troupe_setTroupe_self]; rfl, fun l _ => by rw [State.troupe_setTroupe_self]; rfl, fun h => absurd hr' h⟩
  · exact ⟨refl, rfl, rfl, fun _ => rfl, fun _ _ => rfl, fun _ => rfl⟩

theorem draws_begun {i : Instr} {s : State} {c : Ctx} (h : Issues i s c) (r : Rnd) (n : Nat) :
    OnlyTroupe c.t s (draws s.begun c r n).1 ∧ (draws s.begun c r n).1.nextId = s.nextId ∧
    { (draws s.begun c r n).1.troupe c.t with threads := (s.troupe c.t).threads, srState := (s.troupe c.t).srState } = s.troupe c.t ∧
    (∀ l, { ((draws s.begun c r n).1.troupe c.t).thread l with conv := ((s.troupe c.t).thread l).conv } = (s.troupe c.t).thread l) ∧
    (∀ l, hasLane c.mask l = false → ((draws s.begun c r n).1.troupe c.t).thread l = (s.troupe c.t).thread l) ∧
    (r ≠ .sr → (draws s.begun c r n).1.troupe c.t = s.troupe c.t) := by
  obtain ⟨h1, h2, h3, h4, h5, h6⟩ := draws_frame (s := s.begun) (fun l hl => h.act_le hl) r n
  exact ⟨⟨(congrArg (fun x : State => { x with picks := s.picks }) h1.rest :), h1.others, h1.bytes⟩, h2, h3, h4, h5, h6⟩

/-- An XF instruction of one destination. -/
theorem laneLate_next {i : Instr} {s : State} {c : Ctx} {wide : Bool} {d : Opd} {f : State → Ctx → Nat → Dword}
    (h : Issues i s c) :
    ∃ t, laneLate i s wide d f = .next t ∧ LaneLate c .rne (results c wide d (f s.begun c)) s t :=
  issueLate_next (f := fun c s => results c wide d (f s c)) h .rne

/-- An FP instruction that rounds: each element once, with the draws of its issue. -/
theorem fpNow_next {i : Instr} {s : State} {c : Ctx} {ty : Ty} {md : FMod} {d : Opd} {f : State → Ctx → Nat → Nat → FVal}
    {P : Nat → Dword → Prop} (h : Issues i s c)
    (hP : ∀ l ∈ writers c d, P l ((joinElems (fpElems ty).1 (fpElems ty).2 fun e =>
      rnd (fpElems ty).1 md ((draws s.begun c md.rnd (fpElems ty).2).2 l e) (f s.begun c l e)).setWidth 64)) :
    ∃ t, fpNow i s ty md d f = .next t ∧ LaneNow c md.rnd false d P s t := by
  obtain ⟨h1, _, h3, h4, h5, h6⟩ := draws_begun h md.rnd (fpElems ty).2
  exact ⟨_, issue_next h _, laneNow_finish h1 h3 h4 h5 h6 hP⟩

/-- An XF instruction that may draw. -/
theorem xfDraw_next {i : Instr} {s : State} {c : Ctx} {r : Rnd} {n : Nat} {f : State → Ctx → (Nat → Nat → Word) → Writes}
    (h : Issues i s c) :
    ∃ t, xfDraw i s r n f = .next t ∧ LaneLate c r (f s.begun c (draws s.begun c r n).2) s t := by
  obtain ⟨h1, h2, h3, h4, h5, h6⟩ := draws_begun h r n
  exact ⟨_, issue_next h _, laneLate_finish h1 h2 h3 h4 h5 h6⟩

/-! ### Uniform operands (R61) -/

theorem hasLane_disagree {c : Ctx} {f : Nat → Dword} {l : Nat} :
    hasLane (disagree c f) l = true ↔ hasLane c.act l = true ∧ f l ≠ f c.low := by
  rw [disagree, hasLane_maskOf]
  simp only [Bool.and_eq_true, decide_eq_true_eq, bne_iff_ne, ne_eq]
  exact ⟨fun h => h.2, fun h => ⟨lt_of_hasLane h.1, h⟩⟩

theorem uniformTrap_none {c : Ctx} {f : Nat → Dword} (h : ∀ l, hasLane c.act l = true → f l = f c.low) :
    uniformTrap c f = none := by
  rw [uniformTrap, if_pos]
  refine maskOf_eq_zero.2 fun k _ => ?_
  simp only [Bool.and_eq_false_imp, bne_eq_false_iff_eq]
  exact h k

theorem uniformTrap_some {c : Ctx} {f : Nat → Dword} {l : Nat} (h : hasLane c.act l = true) (hne : f l ≠ f c.low) :
    uniformTrap c f = some (c.trapInfo 0x20 (disagree c f) c.pcVal) := by
  rw [uniformTrap, if_neg]
  intro hz
  have := hasLane_disagree (c := c) (f := f) (l := l) |>.2 ⟨h, hne⟩
  rw [hz] at this
  simp [hasLane] at this

end Sys2Proof.Machine
end

