-- ==== Sys2Proof/Laws/Access.lean ====
section
/-! SUPPORT. What entering accesses does: the records that stay, and the loads and stores of an instruction, lane by lane. -/

namespace Sys2Proof.Machine

open Sys2Proof

/-- What entering the accesses of lanes leaves as it is: everything but accesses, ids and the troupe's threads and owed writes. -/
structure Keeps (u : Nat) (s t : State) : Prop where
  rest   : { t with troupes := s.troupes, accs := s.accs, nextId := s.nextId } = s
  others : ∀ v, v ≠ u → t.troupe v = s.troupe v
  troupe : { t.troupe u with threads := (s.troupe u).threads, pend := (s.troupe u).pend } = s.troupe u

theorem Keeps.refl (u : Nat) (s : State) : Keeps u s s := ⟨rfl, fun _ _ => rfl, rfl⟩

theorem Keeps.trans {u : Nat} {s t r : State} (h : Keeps u s t) (k : Keeps u t r) : Keeps u s r where
  rest := by
    have h1 := congrArg (fun x : State => { x with troupes := s.troupes, accs := s.accs, nextId := s.nextId }) k.rest
    exact (h1 :).trans h.rest
  others v hv := (k.others v hv).trans (h.others v hv)
  troupe := by
    have h1 := congrArg (fun x : Troupe => { x with threads := (s.troupe u).threads, pend := (s.troupe u).pend }) k.troupe
    exact (h1 :).trans h.troupe

theorem keeps_addAcc (u : Nat) (s : State) (a : Access) : Keeps u s (addAcc s a) := ⟨rfl, fun _ _ => rfl, rfl⟩
theorem keeps_enterAcc (u : Nat) (s : State) (t : Nat) (ls : List Nat) (a : Access) : Keeps u s (enterAcc s t ls a) :=
  keeps_addAcc u s _
theorem keeps_setThread (u : Nat) (s : State) (l : Nat) (x : Thread) : Keeps u s (s.setThread u l x) where
  rest := rfl
  others v hv := State.troupe_setThread_ne _ _ _ hv
  troupe := by rw [State.troupe_setThread_self]; rfl
theorem keeps_mapLanes (u : Nat) (s : State) (m : Mask) (f : Nat → Thread → Thread) : Keeps u s (s.mapLanes u m f) where
  rest := rfl
  others v hv := State.troupe_mapLanes_ne _ _ _ hv
  troupe := by
    rw [State.troupe_mapLanes_self]
    exact (congrArg (fun x : Troupe => { x with pend := (s.troupe u).pend }) (Troupe.mapLanes_rest _ _ _) :)
theorem keeps_owe (s : State) (c : Ctx) (m : Mask) (l : Nat) (ws : List (Nat × Word)) (k : Bool) :
    Keeps c.t s (owe s c m l ws k).1 := by
  unfold owe
  split
  · exact Keeps.refl _ _
  · refine ⟨rfl, fun v hv => State.troupe_setTroupe_ne _ _ hv, ?_⟩
    rw [State.troupe_setTroupe_self]

/-- What an address means depends on nothing that entering an access changes. -/
theorem Keeps.physOf {u : Nat} {s t : State} (h : Keeps u s t) (v l : Nat) (x : Dword) : physOf t v l x = physOf s v l x := by
  have h1 : t.companies = s.companies := (congrArg State.companies h.rest :)
  have h2 : t.runs = s.runs := (congrArg State.runs h.rest :)
  simp only [Machine.physOf, stackArea, State.companyOf, State.company, State.runOf, State.run, h1, h2]
theorem Keeps.devOf {u : Nat} {s t : State} (h : Keeps u s t) (x : Dword) : devOf t x = devOf s x := by
  have h1 : t.ports = s.ports := (congrArg State.ports h.rest :)
  simp only [Machine.devOf, isRemote, skid, h1]
  rfl
theorem Keeps.awaitDeadline {u : Nat} {s t : State} (h : Keeps u s t) : awaitDeadline t u = awaitDeadline s u := by
  have h1 : t.wall = s.wall := (congrArg State.wall h.rest :)
  have h2 : (t.troupe u).awaitLim = (s.troupe u).awaitLim := (congrArg Troupe.awaitLim h.troupe :)
  simp only [Machine.awaitDeadline, h1, h2]

theorem bare_enterAcc (s : State) (t : Nat) (ls : List Nat) (a : Access) :
    ∃ b, (enterAcc s t ls a).accs = s.accs ++ [b] ∧ b.bare = a.bare ∧ b.id = s.nextId ∧ b.who = a.who := ⟨_, rfl, rfl, rfl, rfl⟩

theorem owe_accs (s : State) (c : Ctx) (m : Mask) (l : Nat) (ws : List (Nat × Word)) (k : Bool) :
    (owe s c m l ws k).1.accs = s.accs := by
  unfold owe; split <;> rfl

theorem owe_pend (s : State) (c : Ctx) (m : Mask) (l : Nat) (ws : List (Nat × Word)) :
    ∃ ps, ((owe s c m l ws false).1.troupe c.t).pend = (s.troupe c.t).pend ++ ps ∧ ps.map Pend.bare = owedLoad c s m l ws := by
  unfold owe owedLoad
  split
  · exact ⟨[], by simp, rfl⟩
  · refine ⟨[⟨s.nextId, m, ((s.troupe c.t).thread l).selFlag c.hdr, ws, false, []⟩], ?_, rfl⟩
    rw [State.troupe_setTroupe_self]

theorem owe_thread (s : State) (c : Ctx) (m : Mask) (l : Nat) (ws : List (Nat × Word)) (k : Bool) (v j : Nat) :
    (owe s c m l ws k).1.thread v j = s.thread v j := by
  unfold owe
  split
  · rfl
  · by_cases hv : v = c.t
    · subst hv
      simp only [State.thread, State.troupe_setTroupe_self]
      rfl
    · simp only [State.thread, State.troupe_setTroupe_ne _ _ hv]
      rfl

theorem enterAcc_thread (s : State) (t : Nat) (ls : List Nat) (a : Access) (v j : Nat) :
    (enterAcc s t ls a).thread v j = s.thread v j := rfl
theorem enterAcc_pend (s : State) (t : Nat) (ls : List Nat) (a : Access) (v : Nat) :
    ((enterAcc s t ls a).troupe v).pend = (s.troupe v).pend := rfl

theorem thread_advanceLanes (s : State) (c : Ctx) (m : Mask) (j : Nat) :
    (advanceLanes s c m).thread c.t j = if hasLane m j then (s.thread c.t j).advance c.hdr else s.thread c.t j := by
  simp only [State.thread, advanceLanes, State.troupe_mapLanes_self, Troupe.thread_mapLanes]

/-- The access that LD enters for a lane. -/
def loadAccess (s : State) (c : Ctx) (ty : Ty) (m : LdMod) (l : Nat) (x : Dword) : Access :=
  { Access.make (.thread c.t l) (winOp true (winOf x)) x (physOf s c.t l x) (Ty.width ty / 8) with
    ty := if Ty.signed ty then 1 else 0
    acq := ldAcq m
    scope := ldScope m
    vol := m == .vol
    dev := devOf s x
    deadline := if winOp true (winOf x) == .await then awaitDeadline s c.t else 0 }

/-- The writes that LD owes a lane. -/
def loadWrites (c : Ctx) (ty : Ty) (d : Opd) (l : Nat) (x : Dword) : List (Nat × Word) :=
  if winOp true (winOf x) == .await || !lanesWrite c d l then [] else destWrites (Ty.wide ty) d l 0

theorem loadLane_spec (s : State) (c : Ctx) (ty : Ty) (m : LdMod) (d : Opd) {l : Nat} (hl : l < 32) (x : Dword) :
    Keeps c.t s (loadLane s c ty m d l x) ∧
    (∃ a, (loadLane s c ty m d l x).accs = s.accs ++ [a] ∧ a.bare = (loadAccess s c ty m l x).bare ∧
      a.who = .thread c.t l ∧ (winOp true (winOf x) = .await → ((loadLane s c ty m d l x).thread c.t l).wait = .await a.id)) ∧
    (∃ ps, ((loadLane s c ty m d l x).troupe c.t).pend = (s.troupe c.t).pend ++ ps ∧
      ps.map Pend.bare = owedLoad c s (laneBit l) l (loadWrites c ty d l x)) ∧
    (∀ j, j ≠ l → (loadLane s c ty m d l x).thread c.t j = s.thread c.t j) ∧
    (winOp true (winOf x) ≠ .await → (loadLane s c ty m d l x).thread c.t l = (s.thread c.t l).advance c.hdr) ∧
    (winOp true (winOf x) = .await → ((loadLane s c ty m d l x).thread c.t l).st = .waiting ∧
      ((loadLane s c ty m d l x).thread c.t l).pc = (s.thread c.t l).pc) := by
  have hk := keeps_owe s c (laneBit l) l (loadWrites c ty d l x) false
  have hphys := hk.physOf c.t l x
  have hdev := hk.devOf x
  have hacc := owe_accs s c (laneBit l) l (loadWrites c ty d l x) false
  have hth := fun j => owe_thread s c (laneBit l) l (loadWrites c ty d l x) false c.t j
  obtain ⟨ps, hps, hpb⟩ := owe_pend s c (laneBit l) l (loadWrites c ty d l x)
  unfold loadLane
  dsimp only
  rw [show (if (winOp true (winOf x) == .await || !lanesWrite c d l) = true then [] else destWrites (Ty.wide ty) d l 0) =
    loadWrites c ty d l x from rfl]
  by_cases hop : winOp true (winOf x) = .await
  · have hop' : (winOp true (winOf x) == AOp.await) = true := by simp [hop]
    simp only [hop', if_true]
    refine ⟨hk.trans ((keeps_enterAcc _ _ _ _ _).trans (keeps_setThread _ _ _ _)), ?_, ⟨ps, ?_, hpb⟩, ?_, fun h => absurd hop h, ?_⟩
    · refine ⟨_, congrArg (· ++ _) hacc, ?_, rfl, fun _ => ?_⟩
      · simp [Access.bare, loadAccess, hop]
      · simp only [State.thread, State.troupe_setThread_self, Troupe.thread_setThread_self]
        rfl
    · rw [State.troupe_setThread_self]; exact hps
    · intro j hj
      simp only [State.thread, State.troupe_setThread_self, Troupe.thread_setThread_ne _ _ hj]
      exact hth j
    · intro _
      simp only [State.thread, State.troupe_setThread_self, Troupe.thread_setThread_self]
      refine ⟨rfl, ?_⟩
      exact (congrArg Thread.pc (hth l) :)
  · have hop' : (winOp true (winOf x) == AOp.await) = false := by simpa using hop
    simp only [hop', Bool.false_eq_true, if_false]
    refine ⟨hk.trans ((keeps_enterAcc _ _ _ _ _).trans (keeps_mapLanes _ _ _ _)), ?_, ⟨ps, ?_, hpb⟩, ?_, ?_, fun h => absurd h hop⟩
    · refine ⟨_, congrArg (· ++ _) hacc, ?_, rfl, fun h => absurd h hop⟩
      simp [Access.bare, loadAccess, hop]
    · rw [advanceLanes, State.troupe_mapLanes_self, Troupe.mapLanes_pend]; exact hps
    · intro j hj
      rw [thread_advanceLanes, if_neg (by rw [hasLane_laneBit hl]; simpa using hj)]
      exact hth j
    · intro _
      rw [thread_advanceLanes, if_pos (by rw [hasLane_laneBit hl]; simp)]
      exact congrArg (Thread.advance c.hdr) (hth l)

/-! ### Lane by lane -/

/-- One lane's part of an instruction: it enters accesses that stand, bare, as `A`, owes writes that stand as `O`, and leaves its
thread as `P` says of the thread before, the accesses and the thread after. -/
structure LaneEnters (c : Ctx) (l : Nat) (A : List Access) (O : List Pend) (P : Thread → List Access → Thread → Prop)
    (s t : State) : Prop where
  keeps  : Keeps c.t s t
  accs   : ∃ as, t.accs = s.accs ++ as ∧ as.map Access.bare = A
  owed   : ∃ ps, (t.troupe c.t).pend = (s.troupe c.t).pend ++ ps ∧ ps.map Pend.bare = O
  others : ∀ j, j ≠ l → t.thread c.t j = s.thread c.t j
  own    : P (s.thread c.t l) t.accs (t.thread c.t l)

/-- All lanes of a list in turn. -/
theorem foldLanes {c : Ctx} {f : State → Nat → State} {A : State → Nat → List Access} {O : State → Nat → List Pend}
    {P : Nat → Thread → List Access → Thread → Prop}
    (hstep : ∀ s l, l < 32 → LaneEnters c l (A s l) (O s l) (P l) s (f s l))
    (hA : ∀ s t l, Keeps c.t s t → A t l = A s l)
    (hO : ∀ s t l, t.thread c.t l = s.thread c.t l → O t l = O s l)
    (hP : ∀ l th as bs th', P l th as th' → P l th (as ++ bs) th')
    (ls : List Nat) (hn : ls.Nodup) (hlt : ∀ l ∈ ls, l < 32) (s : State) :
    Keeps c.t s (ls.foldl f s) ∧
    (∃ as, (ls.foldl f s).accs = s.accs ++ as ∧ as.map Access.bare = ls.flatMap (A s)) ∧
    (∃ ps, ((ls.foldl f s).troupe c.t).pend = (s.troupe c.t).pend ++ ps ∧ ps.map Pend.bare = ls.flatMap (O s)) ∧
    (∀ j, j ∉ ls → (ls.foldl f s).thread c.t j = s.thread c.t j) ∧
    (∀ l ∈ ls, P l (s.thread c.t l) (ls.foldl f s).accs ((ls.foldl f s).thread c.t l)) := by
  induction ls generalizing s with
  | nil => exact ⟨Keeps.refl _ _, ⟨[], by simp⟩, ⟨[], by simp⟩, fun _ _ => rfl, by simp⟩
  | cons a r ih =>
    obtain ⟨ha, hr⟩ := List.nodup_cons.1 hn
    obtain ⟨k1, ⟨as1, e1, b1⟩, ⟨ps1, e2, b2⟩, o1, w1⟩ := hstep s a (hlt a List.mem_cons_self)
    obtain ⟨k2, ⟨as2, e3, b3⟩, ⟨ps2, e4, b4⟩, o2, w2⟩ := ih hr (fun l hl => hlt l (List.mem_cons_of_mem _ hl)) (f s a)
    rw [List.foldl_cons]
    have hne : ∀ l ∈ r, l ≠ a := fun l hl h => ha (h ▸ hl)
    refine ⟨k1.trans k2, ⟨as1 ++ as2, ?_, ?_⟩, ⟨ps1 ++ ps2, ?_, ?_⟩, ?_, ?_⟩
    · rw [e3, e1, List.append_assoc]
    · rw [List.map_append, b1, b3, List.flatMap_cons]
      exact congrArg _ (List.flatMap_congr fun l _ => hA _ _ l k1)
    · rw [e4, e2, List.append_assoc]
    · rw [List.map_append, b2, b4, List.flatMap_cons]
      exact congrArg _ (List.flatMap_congr fun l hl => hO _ _ l (o1 l (hne l hl)))
    · intro j hj
      rw [o2 j fun h => hj (List.mem_cons_of_mem _ h), o1 j fun h => hj (h ▸ List.mem_cons_self)]
    · intro l hl
      rcases List.mem_cons.1 hl with rfl | hl
      · rw [o2 l ha, e3]
        exact hP _ _ _ _ _ w1
      · have := w2 l hl
        rwa [o1 l (hne l hl)] at this

/-! ### From the lanes to the instruction -/

/-- A step that leaves all but run records, accesses, ids, picks and the troupe's threads, owed writes and operations. -/
structure Holding (u : Nat) (s t : State) : Prop where
  rest   : { t with troupes := s.troupes, runs := s.runs, accs := s.accs, picks := s.picks, nextId := s.nextId } = s
  others : ∀ v, v ≠ u → t.troupe v = s.troupe v
  troupe : { t.troupe u with threads := (s.troupe u).threads, pend := (s.troupe u).pend, ops := (s.troupe u).ops } = s.troupe u

theorem Holding.trans {u : Nat} {s t r : State} (h : Holding u s t) (k : Holding u t r) : Holding u s r where
  rest := by
    have h1 := congrArg (fun x : State => { x with
      troupes := s.troupes, runs := s.runs, accs := s.accs, picks := s.picks, nextId := s.nextId }) k.rest
    exact (h1 :).trans h.rest
  others v hv := (k.others v hv).trans (h.others v hv)
  troupe := by
    have h1 := congrArg (fun x : Troupe => { x with
      threads := (s.troupe u).threads, pend := (s.troupe u).pend, ops := (s.troupe u).ops }) k.troupe
    exact (h1 :).trans h.troupe

theorem Keeps.holding {u : Nat} {s t : State} (h : Keeps u s t) : Holding u s t where
  rest := by
    have h1 := congrArg (fun x : State => { x with runs := s.runs, picks := s.picks }) h.rest
    exact h1
  others := h.others
  troupe := by
    have h1 := congrArg (fun x : Troupe => { x with ops := (s.troupe u).ops }) h.troupe
    exact h1

theorem holding_begun (u : Nat) (s : State) : Holding u s s.begun := ⟨rfl, fun _ _ => rfl, rfl⟩

theorem nondet_none {s : State} {c : Ctx} {m : Mask} (h : OrderFree s c m) :
    (nondet s c m).2 = none ∧ Holding c.t s (nondet s c m).1 ∧ (nondet s c m).1.accs = s.accs ∧
    (∀ v, (nondet s c m).1.troupe v = s.troupe v) ∧
    ((s.runOf c.t).determ = false → (nondet s c m).1 = s) := by
  have refl : Holding c.t s s := ⟨rfl, fun _ _ => rfl, rfl⟩
  unfold nondet
  dsimp only
  by_cases h1 : (m = 0 || !(s.runOf c.t).determ) = true
  · rw [if_pos (by simpa using h1)]
    exact ⟨rfl, refl, rfl, fun _ => rfl, fun _ => rfl⟩
  · have h1' : ¬(m = 0 ∨ (s.runOf c.t).determ = false) := by simpa using h1
    have h2 : (s.runOf c.t).strict = false := by
      rcases h with h | h | h
      · exact absurd (.inl h) h1'
      · exact absurd (.inr h) h1'
      · exact h
    rw [if_neg (by simpa using h1), if_neg (by simp [h2])]
    exact ⟨rfl, ⟨rfl, fun _ _ => rfl, rfl⟩, rfl, fun _ => rfl, fun h => absurd (.inr h) h1'⟩

theorem countRemote_spec (s0 s : State) (u : Nat) :
    Holding u s (countRemote s0 s u) ∧ (countRemote s0 s u).accs = s.accs ∧ (countRemote s0 s u).runs = s.runs ∧
    (∀ l, (countRemote s0 s u).thread u l = s.thread u l) ∧
    ((countRemote s0 s u).troupe u).pend = (s.troupe u).pend ∧
    ∃ os, ((countRemote s0 s u).troupe u).ops = (s.troupe u).ops ++ os ∧ os.all fun o => o.cls == .remote := by
  unfold countRemote
  dsimp only
  split
  · exact ⟨⟨rfl, fun _ _ => rfl, rfl⟩, rfl, rfl, fun _ => rfl, rfl, [], by simp, rfl⟩
  · refine ⟨⟨rfl, fun v hv => State.troupe_setTroupe_ne _ _ hv, ?_⟩, rfl, rfl, fun l => ?_, ?_, ?_⟩
    · rw [addOp, State.troupe_setTroupe_self]
    · rw [State.thread, addOp, State.troupe_setTroupe_self]; rfl
    · rw [addOp, State.troupe_setTroupe_self]
    · rw [addOp, State.troupe_setTroupe_self]
      exact ⟨_, rfl, rfl⟩

/-- What an instruction's accesses come to, from what its lanes entered. -/
theorem entered_of {c : Ctx} {A : List Access} {O : List Pend} {s v z y : State}
    (hv : Holding c.t s v) (hva : v.accs = s.accs) (hvt : ∀ k, v.troupe k = s.troupe k)
    (hvr : (s.runOf c.t).determ = false → v.runs = s.runs)
    (hz : Keeps c.t v z) (hza : ∃ as, z.accs = v.accs ++ as ∧ as.map Access.bare = A)
    (hzo : ∃ ps, (z.troupe c.t).pend = (v.troupe c.t).pend ++ ps ∧ ps.map Pend.bare = O)
    (hy : Holding c.t z y) (hya : y.accs = z.accs) (hyr : y.runs = z.runs) (hyp : (y.troupe c.t).pend = (z.troupe c.t).pend)
    (hyo : ∃ os, (y.troupe c.t).ops = (z.troupe c.t).ops ++ os ∧ os.all fun o => o.cls == .remote) :
    Entered c A O s y where
  rest := (hv.trans (hz.holding.trans hy)).rest
  runs hd := by
    have h1 : z.runs = v.runs := (congrArg State.runs hz.rest :)
    rw [hyr, h1, hvr hd]
  others := (hv.trans (hz.holding.trans hy)).others
  troupe := (hv.trans (hz.holding.trans hy)).troupe
  bytes x := by
    have : y.mem = s.mem := (congrArg State.mem (hv.trans (hz.holding.trans hy)).rest :)
    rw [this]
  accs := by rw [hya, ← hva]; exact hza
  owed := by rw [hyp, ← hvt]; exact hzo
  remote := by
    have h1 : (z.troupe c.t).ops = (v.troupe c.t).ops := (congrArg Troupe.ops hz.troupe :)
    rw [← hvt, ← h1]; exact hyo

theorem holding_mapLanes (u : Nat) (s : State) (m : Mask) (f : Nat → Thread → Thread) : Holding u s (s.mapLanes u m f) :=
  (keeps_mapLanes u s m f).holding

end Sys2Proof.Machine
end

