-- ==== Sys2Proof/Laws/Control.lean ====
section
/-! SUPPORT. Instructions that place the threads of their bundle themselves: how each way of ending an instruction leaves them. -/

namespace Sys2Proof.Machine

open Sys2Proof

theorem thread_mapLanes (s : State) (t : Nat) (m : Mask) (f : Nat → Thread → Thread) (l : Nat) :
    (s.mapLanes t m f).thread t l = if hasLane m l then f l (s.thread t l) else s.thread t l := by
  simp only [State.thread, State.troupe_mapLanes_self, Troupe.thread_mapLanes]

theorem troupe_mapLanes_rest (s : State) (t : Nat) (m : Mask) (f : Nat → Thread → Thread) :
    { (s.mapLanes t m f).troupe t with threads := (s.troupe t).threads } = s.troupe t := by
  rw [State.troupe_mapLanes_self, Troupe.mapLanes_rest]

theorem hasLane_diff (m n : Mask) (l : Nat) : hasLane (m &&& ~~~n) l = (hasLane m l && !hasLane n l) := by
  simp only [hasLane, BitVec.getLsbD_and, BitVec.getLsbD_not]
  by_cases h : l < 32
  · simp [h]
  · simp [BitVec.getLsbD_of_ge m l (by omega)]

theorem hasLane_and (m n : Mask) (l : Nat) : hasLane (m &&& n) l = (hasLane m l && hasLane n l) := by
  simp only [hasLane, BitVec.getLsbD_and]
theorem hasLane_or (m n : Mask) (l : Nat) : hasLane (m ||| n) l = (hasLane m l || hasLane n l) := by
  simp only [hasLane, BitVec.getLsbD_or]

theorem onlyTroupe_mapLanes {u : Nat} {s t : State} (h : OnlyTroupe u s t) (m : Mask) (f : Nat → Thread → Thread) :
    OnlyTroupe u s (t.mapLanes u m f) where
  rest := h.rest
  others v hv := (State.troupe_mapLanes_ne _ _ _ hv).trans (h.others v hv)
  bytes := h.bytes

/-- Threads changed on top of a state whose troupe differs in its threads alone. -/
theorem ThreadsGo.of_mapLanes {c : Ctx} {f g : Nat → Thread → Thread} {m : Mask} {s t : State} (ho : OnlyTroupe c.t s t)
    (ht : { t.troupe c.t with threads := (s.troupe c.t).threads } = s.troupe c.t)
    (hf : ∀ l, (if hasLane m l then g l (t.thread c.t l) else t.thread c.t l) = if hasLane c.act l then f l (s.thread c.t l)
      else if hasLane c.mask l then (s.thread c.t l).advance c.hdr else s.thread c.t l) :
    ThreadsGo c f s (t.mapLanes c.t m g) where
  outside := onlyTroupe_mapLanes ho _ _
  troupe := by
    rw [State.troupe_mapLanes_self]
    exact (congrArg (fun x : Troupe => { x with threads := (s.troupe c.t).threads }) (Troupe.mapLanes_rest _ _ _)).trans ht
  threads l := by rw [thread_mapLanes]; exact hf l

/-- An instruction that only moves its threads on. -/
theorem threadsGo_ok {i : Instr} {s : State} {c : Ctx} (h : Issues i s c) :
    ThreadsGo c (fun _ th => th.advance c.hdr) s (finish c (.ok s.begun)) :=
  ThreadsGo.of_mapLanes (onlyTroupe_begun _ _) rfl fun l => by
    have : s.begun.thread c.t l = s.thread c.t l := rfl
    simp only [this]
    by_cases ha : hasLane c.act l = true
    · simp [ha, h.act_le ha]
    · simp [ha]

/-- An instruction that places the threads of Active. -/
theorem threadsGo_ctl (c : Ctx) (s : State) (f : Nat → Thread → Thread) :
    ThreadsGo c f s (finish c (.ctl (s.begun.mapLanes c.t c.act f))) :=
  ThreadsGo.of_mapLanes (onlyTroupe_mapLanes (onlyTroupe_begun _ _) _ _) (troupe_mapLanes_rest _ _ _ _) fun l => by
    rw [thread_mapLanes, hasLane_diff]
    have : s.begun.thread c.t l = s.thread c.t l := rfl
    simp only [this]
    by_cases ha : hasLane c.act l = true
    · simp [ha]
    · simp [ha]

/-- The trap info of a mask of lanes that fail a check. -/
theorem maskOf_ne_zero {p : Nat → Bool} {l : Nat} (hl : l < 32) (h : p l = true) : maskOf p ≠ 0 := by
  intro hz
  have := maskOf_eq_zero.1 hz l hl
  rw [h] at this
  cases this

theorem lowLane_spec {m : Mask} (h : m ≠ 0) : hasLane m (lowLane m) = true ∧ ∀ j, hasLane m j = true → lowLane m ≤ j := by
  have hs : (lanes m).Pairwise (· < ·) := List.Pairwise.filter _ List.pairwise_lt_range
  unfold lowLane
  cases hl : lanes m with
  | nil => exact absurd (lanes_eq_nil.1 hl) h
  | cons a r =>
    have ha : a ∈ lanes m := by rw [hl]; exact List.mem_cons_self
    refine ⟨mem_lanes.1 ha, fun j hj => ?_⟩
    have hj' := mem_lanes.2 hj
    rw [hl] at hj' hs
    rcases List.mem_cons.1 hj' with rfl | hj'
    · exact Nat.le_refl _
    · exact Nat.le_of_lt ((List.pairwise_cons.1 hs).1 _ hj')

end Sys2Proof.Machine
end

