-- ==== Sys2Proof/Laws/Dispatch.lean ====
section
/-! SUPPORT. The dispatch, arm by arm: what `exec` runs for each instruction and event. -/

namespace Sys2Proof.Machine

open Sys2Proof

theorem exec_iadd {h} {ty} {sat} {d} {a} {b} (s : State) : exec (.iadd h ty sat d a b) s = execIadd h ty sat d a b s := rfl
theorem exec_isub {h} {ty} {sat} {d} {a} {b} (s : State) : exec (.isub h ty sat d a b) s = execIsub h ty sat d a b s := rfl
theorem exec_imul {h} {ty} {sat} {d} {a} {b} (s : State) : exec (.imul h ty sat d a b) s = execImul h ty sat d a b s := rfl
theorem exec_imulh {h} {ty} {d} {a} {b} (s : State) : exec (.imulh h ty d a b) s = execImulh h ty d a b s := rfl
theorem exec_imad {h} {ty} {sat} {d} {a} {b} {c} (s : State) : exec (.imad h ty sat d a b c) s = execImad h ty sat d a b c s := rfl
theorem exec_idiv {h} {ty} {sat} {d} {a} {b} (s : State) : exec (.idiv h ty sat d a b) s = execIdiv h ty sat d a b s := rfl
theorem exec_irem {h} {ty} {d} {a} {b} (s : State) : exec (.irem h ty d a b) s = execIrem h ty d a b s := rfl
theorem exec_imin {h} {ty} {d} {a} {b} (s : State) : exec (.imin h ty d a b) s = execImin h ty d a b s := rfl
theorem exec_imax {h} {ty} {d} {a} {b} (s : State) : exec (.imax h ty d a b) s = execImax h ty d a b s := rfl
theorem exec_iabs {h} {ty} {sat} {d} {a} (s : State) : exec (.iabs h ty sat d a) s = execIabs h ty sat d a s := rfl
theorem exec_ineg {h} {ty} {sat} {d} {a} (s : State) : exec (.ineg h ty sat d a) s = execIneg h ty sat d a s := rfl
theorem exec_and {h} {ty} {d} {a} {b} (s : State) : exec (.and h ty d a b) s = execAnd h ty d a b s := rfl
theorem exec_or {h} {ty} {d} {a} {b} (s : State) : exec (.or h ty d a b) s = execOr h ty d a b s := rfl
theorem exec_xor {h} {ty} {d} {a} {b} (s : State) : exec (.xor h ty d a b) s = execXor h ty d a b s := rfl
theorem exec_not {h} {ty} {d} {a} (s : State) : exec (.not h ty d a) s = execNot h ty d a s := rfl
theorem exec_shl {h} {ty} {d} {a} {b} (s : State) : exec (.shl h ty d a b) s = execShl h ty d a b s := rfl
theorem exec_shr {h} {ty} {d} {a} {b} (s : State) : exec (.shr h ty d a b) s = execShr h ty d a b s := rfl
theorem exec_rotl {h} {ty} {d} {a} {b} (s : State) : exec (.rotl h ty d a b) s = execRotl h ty d a b s := rfl
theorem exec_bfe {h} {ty} {d} {a} {b} (s : State) : exec (.bfe h ty d a b) s = execBfe h ty d a b s := rfl
theorem exec_bfi {h} {ty} {d} {a} {b} {c} (s : State) : exec (.bfi h ty d a b c) s = execBfi h ty d a b c s := rfl
theorem exec_popc {h} {ty} {d} {a} (s : State) : exec (.popc h ty d a) s = execPopc h ty d a s := rfl
theorem exec_clz {h} {ty} {d} {a} (s : State) : exec (.clz h ty d a) s = execClz h ty d a s := rfl
theorem exec_brev {h} {ty} {d} {a} (s : State) : exec (.brev h ty d a) s = execBrev h ty d a s := rfl
theorem exec_prmt {h} {d} {a} {b} (s : State) : exec (.prmt h d a b) s = execPrmt h d a b s := rfl
theorem exec_icmp {h} {cond} {ty} {d} {a} {b} (s : State) : exec (.icmp h cond ty d a b) s = execIcmp h cond ty d a b s := rfl
theorem exec_sel {h} {ty} {d} {a} {b} {c} (s : State) : exec (.sel h ty d a b c) s = execSel h ty d a b c s := rfl
theorem exec_plop {h} {table} {d} {a} {b} {c} (s : State) : exec (.plop h table d a b c) s = execPlop h table d a b c s := rfl
theorem exec_pmovGet {h} {d} (s : State) : exec (.pmovGet h d) s = execPmovGet h d s := rfl
theorem exec_pmovSet {h} {a} {b} (s : State) : exec (.pmovSet h a b) s = execPmovSet h a b s := rfl
theorem exec_mov {h} {ty} {d} {a} (s : State) : exec (.mov h ty d a) s = execMov h ty d a s := rfl
theorem exec_movi {h} {d} {x} (s : State) : exec (.movi h d x) s = execMovi h d x s := rfl
theorem exec_moviHi {h} {d} {x} (s : State) : exec (.moviHi h d x) s = execMoviHi h d x s := rfl
theorem exec_lea {h} {ty} {sh} {d} {a} {b} (s : State) : exec (.lea h ty sh d a b) s = execLea h ty sh d a b s := rfl
theorem exec_leaCode {h} {ty} {sh} {d} {b} (s : State) : exec (.leaCode h ty sh d b) s = execLeaCode h ty sh d b s := rfl
theorem exec_fadd {h} {ty} {m} {d} {a} {b} (s : State) : exec (.fadd h ty m d a b) s = execFadd h ty m d a b s := rfl
theorem exec_fsub {h} {ty} {m} {d} {a} {b} (s : State) : exec (.fsub h ty m d a b) s = execFsub h ty m d a b s := rfl
theorem exec_fmul {h} {ty} {m} {d} {a} {b} (s : State) : exec (.fmul h ty m d a b) s = execFmul h ty m d a b s := rfl
theorem exec_ffma {h} {ty} {m} {d} {a} {b} {c} (s : State) : exec (.ffma h ty m d a b c) s = execFfma h ty m d a b c s := rfl
theorem exec_fmin {h} {ty} {ftz} {d} {a} {b} (s : State) : exec (.fmin h ty ftz d a b) s = execFmin h ty ftz d a b s := rfl
theorem exec_fmax {h} {ty} {ftz} {d} {a} {b} (s : State) : exec (.fmax h ty ftz d a b) s = execFmax h ty ftz d a b s := rfl
theorem exec_fabs {h} {ty} {ftz} {d} {a} (s : State) : exec (.fabs h ty ftz d a) s = execFabs h ty ftz d a s := rfl
theorem exec_fneg {h} {ty} {ftz} {d} {a} (s : State) : exec (.fneg h ty ftz d a) s = execFneg h ty ftz d a s := rfl
theorem exec_fcmp {h} {cond} {ty} {ftz} {d} {a} {b} (s : State) : exec (.fcmp h cond ty ftz d a b) s = execFcmp h cond ty ftz d a b s := rfl
theorem exec_frcp {h} {m} {d} {a} (s : State) : exec (.frcp h m d a) s = execFrcp h m d a s := rfl
theorem exec_frsq {h} {m} {d} {a} (s : State) : exec (.frsq h m d a) s = execFrsq h m d a s := rfl
theorem exec_fsqrt {h} {m} {d} {a} (s : State) : exec (.fsqrt h m d a) s = execFsqrt h m d a s := rfl
theorem exec_fdiv {h} {m} {d} {a} {b} (s : State) : exec (.fdiv h m d a b) s = execFdiv h m d a b s := rfl
theorem exec_fexp2 {h} {m} {d} {a} (s : State) : exec (.fexp2 h m d a) s = execFexp2 h m d a s := rfl
theorem exec_flog2 {h} {m} {d} {a} (s : State) : exec (.flog2 h m d a) s = execFlog2 h m d a s := rfl
theorem exec_fsin {h} {m} {d} {a} (s : State) : exec (.fsin h m d a) s = execFsin h m d a s := rfl
theorem exec_fcos {h} {m} {d} {a} (s : State) : exec (.fcos h m d a) s = execFcos h m d a s := rfl
theorem exec_ftanh {h} {m} {d} {a} (s : State) : exec (.ftanh h m d a) s = execFtanh h m d a s := rfl
theorem exec_fclass {h} {ty} {d} {a} (s : State) : exec (.fclass h ty d a) s = execFclass h ty d a s := rfl
theorem exec_frint {h} {ty} {rnd} {ftz} {d} {a} (s : State) : exec (.frint h ty rnd ftz d a) s = execFrint h ty rnd ftz d a s := rfl
theorem exec_cvt {h} {src} {dst} {m} {d} {a} (s : State) : exec (.cvt h src dst m d a) s = execCvt h src dst m d a s := rfl
theorem exec_pack {h} {ty} {m} {d} {a} {sc} (s : State) : exec (.pack h ty m d a sc) s = execPack h ty m d a sc s := rfl
theorem exec_unpack {h} {ty} {sat} {d} {a} {sc} (s : State) : exec (.unpack h ty sat d a sc) s = execUnpack h ty sat d a sc s := rfl
theorem exec_dot2 {h} {ty} {m} {d} {a} {b} {c} (s : State) : exec (.dot2 h ty m d a b c) s = execDot2 h ty m d a b c s := rfl
theorem exec_dot4 {h} {ty} {sc} {xb} {m} {d} {a} {b} {c} (s : State) : exec (.dot4 h ty sc xb m d a b c) s = execDot4 h ty sc xb m d a b c s := rfl
theorem exec_dot8 {h} {sc} {m} {d} {a} {b} {c} (s : State) : exec (.dot8 h sc m d a b c) s = execDot8 h sc m d a b c s := rfl
theorem exec_scaleApply {h} {m} {d} {a} {b} (s : State) : exec (.scaleApply h m d a b) s = execScaleApply h m d a b s := rfl
theorem exec_scaleMx {h} {f} {d} {a} (s : State) : exec (.scaleMx h f d a) s = execScaleMx h f d a s := rfl
theorem exec_amax {h} {ty} {d} {a} {b} (s : State) : exec (.amax h ty d a b) s = execAmax h ty d a b s := rfl
theorem exec_srseed {h} {a} (s : State) : exec (.srseed h a) s = execSrseed h a s := rfl
theorem exec_cbfly {h} {m} {d} {a} {b} {c} (s : State) : exec (.cbfly h m d a b c) s = execCbfly h m d a b c s := rfl
theorem exec_cmul {h} {conj} {m} {d} {a} {b} (s : State) : exec (.cmul h conj m d a b) s = execCmul h conj m d a b s := rfl
theorem exec_twid {h} {d} {a} {b} (s : State) : exec (.twid h d a b) s = execTwid h d a b s := rfl
theorem exec_ld {h} {ty} {m} {d} {base} {off} (s : State) : exec (.ld h ty m d base off) s = execLd h ty m d base off s := rfl
theorem exec_st {h} {ty} {m} {d} {base} {off} (s : State) : exec (.st h ty m d base off) s = execSt h ty m d base off s := rfl
theorem exec_ldx {h} {n} {m} {d} {base} {off} (s : State) : exec (.ldx h n m d base off) s = execLdx h n m d base off s := rfl
theorem exec_stx {h} {n} {m} {d} {base} {off} (s : State) : exec (.stx h n m d base off) s = execStx h n m d base off s := rfl
theorem exec_ldu {h} {ty} {m} {d} {base} {off} (s : State) : exec (.ldu h ty m d base off) s = execLdu h ty m d base off s := rfl
theorem exec_stu {h} {ty} {m} {d} {base} {off} (s : State) : exec (.stu h ty m d base off) s = execStu h ty m d base off s := rfl
theorem exec_probe {h} {d} {base} {off} (s : State) : exec (.probe h d base off) s = execProbe h d base off s := rfl
theorem exec_atom {h} {op} {ty} {m} {d} {base} {b} {c} (s : State) : exec (.atom h op ty m d base b c) s = execAtom h op ty m d base b c s := rfl
theorem exec_red {h} {op} {ty} {m} {d} {base} {off} (s : State) : exec (.red h op ty m d base off) s = execRed h op ty m d base off s := rfl
theorem exec_aenq {h} {ty} {m} {d} {base} {b} (s : State) : exec (.aenq h ty m d base b) s = execAenq h ty m d base b s := rfl
theorem exec_adeq {h} {m} {d} {base} {off} (s : State) : exec (.adeq h m d base off) s = execAdeq h m d base off s := rfl
theorem exec_fence {h} {k} {sc} (s : State) : exec (.fence h k sc) s = execFence h k sc s := rfl
theorem exec_waitc {h} {cls} {n} (s : State) : exec (.waitc h cls n) s = execWaitc h cls n s := rfl
theorem exec_jinit {h} {j} {e} (s : State) : exec (.jinit h j e) s = execJinit h j e s := rfl
theorem exec_jarr {h} {j} {d} (s : State) : exec (.jarr h j d) s = execJarr h j d s := rfl
theorem exec_jwait {h} {j} (s : State) : exec (.jwait h j) s = execJwait h j s := rfl
theorem exec_jarrw {h} {j} {d} (s : State) : exec (.jarrw h j d) s = execJarrw h j d s := rfl
theorem exec_wpinit {h} {base} {b} {c} (s : State) : exec (.wpinit h base b c) s = execWpinit h base b c s := rfl
theorem exec_wparr {h} {noarr} {base} {b} (s : State) : exec (.wparr h noarr base b) s = execWparr h noarr base b s := rfl
theorem exec_wpwait {h} {d} {base} {b} {c} (s : State) : exec (.wpwait h d base b c) s = execWpwait h d base b c s := rfl
theorem exec_bra {h} {k} (s : State) : exec (.bra h k) s = execBra h k s := rfl
theorem exec_brx {h} {a} (s : State) : exec (.brx h a) s = execBrx h a s := rfl
theorem exec_call {h} {k} (s : State) : exec (.call h k) s = execCall h k s := rfl
theorem exec_callx {h} {a} (s : State) : exec (.callx h a) s = execCallx h a s := rfl
theorem exec_ret {h} (s : State) : exec (.ret h) s = execRet h s := rfl
theorem exec_cvset {h} {c} (s : State) : exec (.cvset h c) s = execCvset h c s := rfl
theorem exec_cvsetIdle {h} {c} (s : State) : exec (.cvsetIdle h c) s = execCvsetIdle h c s := rfl
theorem exec_cvwait {h} {c} {d} {b} (s : State) : exec (.cvwait h c d b) s = execCvwait h c d b s := rfl
theorem exec_exit {h} (s : State) : exec (.exit h) s = execExit h s := rfl
theorem exec_yield {h} (s : State) : exec (.yield h) s = execYield h s := rfl
theorem exec_nop {h} (s : State) : exec (.nop h) s = execNop h s := rfl
theorem exec_brk {h} {x} (s : State) : exec (.brk h x) s = execBrk h x s := rfl
theorem exec_sleep {h} {b} (s : State) : exec (.sleep h b) s = execSleep h b s := rfl
theorem exec_qswz {h} {ty} {d} {a} {b} (s : State) : exec (.qswz h ty d a b) s = execQswz h ty d a b s := rfl
theorem exec_shfl {h} {mode} {ty} {d} {a} {b} (s : State) : exec (.shfl h mode ty d a b) s = execShfl h mode ty d a b s := rfl
theorem exec_vote {h} {k} {sc} {d} {a} (s : State) : exec (.vote h k sc d a) s = execVote h k sc d a s := rfl
theorem exec_tred {h} {op} {sc} {ty} {d} {a} (s : State) : exec (.tred h op sc ty d a) s = execTred h op sc ty d a s := rfl
theorem exec_tscan {h} {op} {sc} {ty} {excl} {d} {a} (s : State) : exec (.tscan h op sc ty excl d a) s = execTscan h op sc ty excl d a s := rfl
theorem exec_matchv {h} {sc} {ty} {d} {a} (s : State) : exec (.matchv h sc ty d a) s = execMatchv h sc ty d a s := rfl
theorem exec_elect {h} {d} (s : State) : exec (.elect h d) s = execElect h d s := rfl
theorem exec_umov {h} {ty} {d} {a} {b} (s : State) : exec (.umov h ty d a b) s = execUmov h ty d a b s := rfl
theorem exec_mma {h} {a} (s : State) : exec (.mma h a) s = execMma h a s := rfl
theorem exec_accld {h} {base} {tile} (s : State) : exec (.accld h base tile) s = execAccld h base tile s := rfl
theorem exec_accst {h} {base} {tile} (s : State) : exec (.accst h base tile) s = execAccst h base tile s := rfl
theorem exec_accz {h} {tile} (s : State) : exec (.accz h tile) s = execAccz h tile s := rfl
theorem exec_accout {h} {a} {dest} {scale} (s : State) : exec (.accout h a dest scale) s = execAccout h a dest scale s := rfl
theorem exec_rsvop {h} {r} {d} {b} (s : State) : exec (.rsvop h r d b) s = execRsvop h r d b s := rfl
theorem exec_rlsop {h} {r} (s : State) : exec (.rlsop h r) s = execRlsop h r s := rfl
theorem exec_ldscl {h} {r} {base} {n} (s : State) : exec (.ldscl h r base n) s = execLdscl h r base n s := rfl
theorem exec_copy {h} {base} {n} (s : State) : exec (.copy h base n) s = execCopy h base n s := rfl
theorem exec_copyl {h} {nopres} {dst} {src} {n} {wp} (s : State) : exec (.copyl h nopres dst src n wp) s = execCopyl h nopres dst src n wp s := rfl
theorem exec_coll {h} {base} (s : State) : exec (.coll h base) s = execColl h base s := rfl
theorem exec_cstat {h} {d} (s : State) : exec (.cstat h d) s = execCstat h d s := rfl
theorem exec_dreg {h} {d} {base} (s : State) : exec (.dreg h d base) s = execDreg h d base s := rfl
theorem exec_dunreg {h} {d} {b} (s : State) : exec (.dunreg h d b) s = execDunreg h d b s := rfl
theorem exec_dstat {h} {d} {b} (s : State) : exec (.dstat h d b) s = execDstat h d b s := rfl
theorem exec_dfresh {h} {b} (s : State) : exec (.dfresh h b) s = execDfresh h b s := rfl
theorem exec_trap {h} {x} (s : State) : exec (.trap h x) s = execTrap h x s := rfl
theorem exec_svc {h} {d} {base} {b} (s : State) : exec (.svc h d base b) s = execSvc h d base b s := rfl
theorem exec_svcPark {h} {d} {base} {b} (s : State) : exec (.svcPark h d base b) s = execSvcPark h d base b s := rfl
theorem exec_csrr {h} {d} {b} (s : State) : exec (.csrr h d b) s = execCsrr h d b s := rfl
theorem exec_csrw {h} {a} {b} (s : State) : exec (.csrw h a b) s = execCsrw h a b s := rfl
theorem exec_rtt {h} (s : State) : exec (.rtt h) s = execRtt h s := rfl
theorem exec_launch {h} {d} {base} {b} (s : State) : exec (.launch h d base b) s = execLaunch h d base b s := rfl
theorem exec_gate {h} (s : State) : exec (.gate h) s = execGate h s := rfl
theorem exec_release {h} (s : State) : exec (.release h) s = execRelease h s := rfl
theorem exec_savectx {h} {part} {base} (s : State) : exec (.savectx h part base) s = execSavectx h part base s := rfl
theorem exec_loadctx {h} {part} {base} (s : State) : exec (.loadctx h part base) s = execLoadctx h part base s := rfl
theorem exec_hazardClear {t} {l} (s : State) : exec (.hazardClear t l) s = execHazardClear t l s := rfl
theorem exec_bundleRebuild {stage} {wing} (s : State) : exec (.bundleRebuild stage wing) s = execBundleRebuild stage wing s := rfl
theorem exec_starvationBound {stage} {wing} {k} (s : State) : exec (.starvationBound stage wing k) s = execStarvationBound stage wing k s := rfl
theorem exec_unitRefill {t} {l} (s : State) : exec (.unitRefill t l) s = execUnitRefill t l s := rfl
theorem exec_readbackComplete {t} {l} (s : State) : exec (.readbackComplete t l) s = execReadbackComplete t l s := rfl
theorem exec_plainLoad {id} (s : State) : exec (.plainLoad id) s = execPlainLoad id s := rfl
theorem exec_plainStore {id} (s : State) : exec (.plainStore id) s = execPlainStore id s := rfl
theorem exec_roLoad {id} {cached} (s : State) : exec (.roLoad id cached) s = execRoLoad id cached s := rfl
theorem exec_windowAdd {id} (s : State) : exec (.windowAdd id) s = execWindowAdd id s := rfl
theorem exec_windowMax {id} (s : State) : exec (.windowMax id) s = execWindowMax id s := rfl
theorem exec_windowMin {id} (s : State) : exec (.windowMin id) s = execWindowMin id s := rfl
theorem exec_windowOr {id} (s : State) : exec (.windowOr id) s = execWindowOr id s := rfl
theorem exec_windowAnd {id} (s : State) : exec (.windowAnd id) s = execWindowAnd id s := rfl
theorem exec_castDelivery {id} {k} (s : State) : exec (.castDelivery id k) s = execCastDelivery id k s := rfl
theorem exec_enq {id} (s : State) : exec (.enq id) s = execEnq id s := rfl
theorem exec_deq {id} (s : State) : exec (.deq id) s = execDeq id s := rfl
theorem exec_take {id} (s : State) : exec (.take id) s = execTake id s := rfl
theorem exec_count {id} (s : State) : exec (.count id) s = execCount id s := rfl
theorem exec_await {id} (s : State) : exec (.await id) s = execAwait id s := rfl
theorem exec_awaitLimitExpiry {id} (s : State) : exec (.awaitLimitExpiry id) s = execAwaitLimitExpiry id s := rfl
theorem exec_agentHoldLimitExpiry {id} (s : State) : exec (.agentHoldLimitExpiry id) s = execAgentHoldLimitExpiry id s := rfl
theorem exec_parkReport {id} (s : State) : exec (.parkReport id) s = execParkReport id s := rfl
theorem exec_loadCompletion {id} {reply} (s : State) : exec (.loadCompletion id reply) s = execLoadCompletion id reply s := rfl
theorem exec_cvwaitTimeout {t} {l} (s : State) : exec (.cvwaitTimeout t l) s = execCvwaitTimeout t l s := rfl
theorem exec_wpwaitTimeout {t} {l} (s : State) : exec (.wpwaitTimeout t l) s = execWpwaitTimeout t l s := rfl
theorem exec_sleepExpiry {t} {l} (s : State) : exec (.sleepExpiry t l) s = execSleepExpiry t l s := rfl
theorem exec_operandReadCompletion {t} {op} (s : State) : exec (.operandReadCompletion t op) s = execOperandReadCompletion t op s := rfl
theorem exec_mmaCompletion {t} {op} (s : State) : exec (.mmaCompletion t op) s = execMmaCompletion t op s := rfl
theorem exec_engineCounterFall {t} {cls} (s : State) : exec (.engineCounterFall t cls) s = execEngineCounterFall t cls s := rfl
theorem exec_copyChunkLanding {c} {k} {data} (s : State) : exec (.copyChunkLanding c k data) s = execCopyChunkLanding c k data s := rfl
theorem exec_copyCompletion {c} (s : State) : exec (.copyCompletion c) s = execCopyCompletion c s := rfl
theorem exec_waypointUpdate {k} (s : State) : exec (.waypointUpdate k) s = execWaypointUpdate k s := rfl
theorem exec_collDelivery {c} {off} {data} (s : State) : exec (.collDelivery c off data) s = execCollDelivery c off data s := rfl
theorem exec_collTimeout {c} (s : State) : exec (.collTimeout c) s = execCollTimeout c s := rfl
theorem exec_staleMark {k} (s : State) : exec (.staleMark k) s = execStaleMark k s := rfl
theorem exec_markAck {id} (s : State) : exec (.markAck id) s = execMarkAck id s := rfl
theorem exec_derivedLoad {id} (s : State) : exec (.derivedLoad id) s = execDerivedLoad id s := rfl
theorem exec_recomputeStart {slice} (s : State) : exec (.recomputeStart slice) s = execRecomputeStart slice s := rfl
theorem exec_recomputeEnd {slice} (s : State) : exec (.recomputeEnd slice) s = execRecomputeEnd slice s := rfl
theorem exec_derivedWriteDrop {id} (s : State) : exec (.derivedWriteDrop id) s = execDerivedWriteDrop id s := rfl
theorem exec_handlerEntry {t} (s : State) : exec (.handlerEntry t) s = execHandlerEntry t s := rfl
theorem exec_preempt {c} (s : State) : exec (.preempt c) s = execPreempt c s := rfl
theorem exec_eviction {t} (s : State) : exec (.eviction t) s = execEviction t s := rfl
theorem exec_restore {c} {stages} (s : State) : exec (.restore c stages) s = execRestore c stages s := rfl
theorem exec_troupeRetire {t} (s : State) : exec (.troupeRetire t) s = execTroupeRetire t s := rfl
theorem exec_companyPlacement {r} (s : State) : exec (.companyPlacement r) s = execCompanyPlacement r s := rfl
theorem exec_preemptRaise {r} (s : State) : exec (.preemptRaise r) s = execPreemptRaise r s := rfl
theorem exec_gateOpen {r} (s : State) : exec (.gateOpen r) s = execGateOpen r s := rfl
theorem exec_deterministicMilestone {r} {kind} (s : State) : exec (.deterministicMilestone r kind) s = execDeterministicMilestone r kind s := rfl
theorem exec_callboardPlace {r} (s : State) : exec (.callboardPlace r) s = execCallboardPlace r s := rfl
theorem exec_callboardTimer {r} (s : State) : exec (.callboardTimer r) s = execCallboardTimer r s := rfl
theorem exec_prompterWake {q} (s : State) : exec (.prompterWake q) s = execPrompterWake q s := rfl
theorem exec_slotReread {q} (s : State) : exec (.slotReread q) s = execSlotReread q s := rfl
theorem exec_packetNop {q} (s : State) : exec (.packetNop q) s = execPacketNop q s := rfl
theorem exec_runPacket {q} (s : State) : exec (.runPacket q) s = execRunPacket q s := rfl
theorem exec_waitPacket {q} (s : State) : exec (.waitPacket q) s = execWaitPacket q s := rfl
theorem exec_waitConditionMet {q} (s : State) : exec (.waitConditionMet q) s = execWaitConditionMet q s := rfl
theorem exec_signal {q} (s : State) : exec (.signal q) s = execSignal q s := rfl
theorem exec_indirect {q} (s : State) : exec (.indirect q) s = execIndirect q s := rfl
theorem exec_svcDone {t} {l} (s : State) : exec (.svcDone t l) s = execSvcDone t l s := rfl
theorem exec_qmapEnable {q} {x} (s : State) : exec (.qmapEnable q x) s = execQmapEnable q x s := rfl
theorem exec_qmapDisable {q} {x} (s : State) : exec (.qmapDisable q x) s = execQmapDisable q x s := rfl
theorem exec_registerStagedWrite {port} {off} {size} {x} (s : State) : exec (.registerStagedWrite port off size x) s = execRegisterStagedWrite port off size x s := rfl
theorem exec_registerWrite {port} {off} {size} {x} (s : State) : exec (.registerWrite port off size x) s = execRegisterWrite port off size x s := rfl
theorem exec_hwakeEnable {n} {x} (s : State) : exec (.hwakeEnable n x) s = execHwakeEnable n x s := rfl
theorem exec_errcntClear {n} {x} (s : State) : exec (.errcntClear n x) s = execErrcntClear n x s := rfl
theorem exec_counterClear {off} {x} (s : State) : exec (.counterClear off x) s = execCounterClear off x s := rfl
theorem exec_timeset {x} (s : State) : exec (.timeset x) s = execTimeset x s := rfl
theorem exec_xinv {x} (s : State) : exec (.xinv x) s = execXinv x s := rfl
theorem exec_xinvComplete (s : State) : exec (.xinvComplete) s = execXinvComplete s := rfl
theorem exec_xrespRetry {x} (s : State) : exec (.xrespRetry x) s = execXrespRetry x s := rfl
theorem exec_xrespFail {x} (s : State) : exec (.xrespFail x) s = execXrespFail x s := rfl
theorem exec_regionTableWrite {die} {r} {x} (s : State) : exec (.regionTableWrite die r x) s = execRegionTableWrite die r x s := rfl
theorem exec_regionMoveSet {die} {r} {x} (s : State) : exec (.regionMoveSet die r x) s = execRegionMoveSet die r x s := rfl
theorem exec_retryAfterExpiry {id} (s : State) : exec (.retryAfterExpiry id) s = execRetryAfterExpiry id s := rfl
theorem exec_remoteRefusalTimeout {id} (s : State) : exec (.remoteRefusalTimeout id) s = execRemoteRefusalTimeout id s := rfl
theorem exec_deviceTranslationFault {k} (s : State) : exec (.deviceTranslationFault k) s = execDeviceTranslationFault k s := rfl
theorem exec_faultReportRetry {k} (s : State) : exec (.faultReportRetry k) s = execFaultReportRetry k s := rfl
theorem exec_faultTimeout {k} (s : State) : exec (.faultTimeout k) s = execFaultTimeout k s := rfl
theorem exec_atsTranslationCompletion {pasid} {page} {r} {w} {pa} {pages} (s : State) : exec (.atsTranslationCompletion pasid page r w pa pages) s = execAtsTranslationCompletion pasid page r w pa pages s := rfl
theorem exec_priPageResponse {k} {code} (s : State) : exec (.priPageResponse k code) s = execPriPageResponse k code s := rfl
theorem exec_pageRequestTimeout {k} (s : State) : exec (.pageRequestTimeout k) s = execPageRequestTimeout k s := rfl
theorem exec_atsInvalidationRequest {pasid} {page} {pages} {tag} (s : State) : exec (.atsInvalidationRequest pasid page pages tag) s = execAtsInvalidationRequest pasid page pages tag s := rfl
theorem exec_translationFailure {c} (s : State) : exec (.translationFailure c) s = execTranslationFailure c s := rfl
theorem exec_windowApertureRequest {r} (s : State) : exec (.windowApertureRequest r) s = execWindowApertureRequest r s := rfl
theorem exec_completionTimeout {id} (s : State) : exec (.completionTimeout id) s = execCompletionTimeout id s := rfl
theorem exec_skasonRemoteAccess {r} (s : State) : exec (.skasonRemoteAccess r) s = execSkasonRemoteAccess r s := rfl
theorem exec_skasonForward {r} (s : State) : exec (.skasonForward r) s = execSkasonForward r s := rfl
theorem exec_linkDown {l} (s : State) : exec (.linkDown l) s = execLinkDown l s := rfl
theorem exec_linkAckTimeout {id} (s : State) : exec (.linkAckTimeout id) s = execLinkAckTimeout id s := rfl
theorem exec_timeMessage {link} {master} {msg} (s : State) : exec (.timeMessage link master msg) s = execTimeMessage link master msg s := rfl
theorem exec_coldReset (s : State) : exec (.coldReset) s = execColdReset s := rfl
theorem exec_functionLevelReset (s : State) : exec (.functionLevelReset) s = execFunctionLevelReset s := rfl
theorem exec_wipeComplete (s : State) : exec (.wipeComplete) s = execWipeComplete s := rfl
theorem exec_eccError {kind} {loc} {corrected} (s : State) : exec (.eccError kind loc corrected) s = execEccError kind loc corrected s := rfl
theorem exec_getVersion (s : State) : exec (.getVersion) s = execGetVersion s := rfl
theorem exec_getCapabilities (s : State) : exec (.getCapabilities) s = execGetCapabilities s := rfl
theorem exec_negotiateAlgorithms {ecdsaP256} {sha256} (s : State) : exec (.negotiateAlgorithms ecdsaP256 sha256) s = execNegotiateAlgorithms ecdsaP256 sha256 s := rfl
theorem exec_getDigests (s : State) : exec (.getDigests) s = execGetDigests s := rfl
theorem exec_getCertificate {off} {len} (s : State) : exec (.getCertificate off len) s = execGetCertificate off len s := rfl
theorem exec_challenge {nonce} (s : State) : exec (.challenge nonce) s = execChallenge nonce s := rfl
theorem exec_getMeasurements {block} (s : State) : exec (.getMeasurements block) s = execGetMeasurements block s := rfl
theorem exec_ownerChange (s : State) : exec (.ownerChange) s = execOwnerChange s := rfl
theorem exec_firmwareImage {x} (s : State) : exec (.firmwareImage x) s = execFirmwareImage x s := rfl
theorem exec_setPowerLimit {w} (s : State) : exec (.setPowerLimit w) s = execSetPowerLimit w s := rfl
theorem exec_powerAverage {w} (s : State) : exec (.powerAverage w) s = execPowerAverage w s := rfl
theorem exec_thermalTrip {c} (s : State) : exec (.thermalTrip c) s = execThermalTrip c s := rfl
theorem exec_linkTrained {l} (s : State) : exec (.linkTrained l) s = execLinkTrained l s := rfl
theorem exec_functionReady {bit} (s : State) : exec (.functionReady bit) s = execFunctionReady bit s := rfl

end Sys2Proof.Machine
end

