-- ==== Sys2Proof/Laws/Home.lean ====
section
/-! SUPPORT. What a write at a home does, and what an access that reaches its home leaves. -/

namespace Sys2Proof.Machine

open Sys2Proof

/-- What sending vectors leaves alone. -/
structure VectorsOnly (s t : State) : Prop where
  rest  : { t with ports := s.ports, out := s.out } = s
  ports : { t.ports with hwake := s.ports.hwake, msixPend := s.ports.msixPend } = s.ports

theorem VectorsOnly.refl (s : State) : VectorsOnly s s := ⟨rfl, rfl⟩

theorem VectorsOnly.trans {s t u : State} (h : VectorsOnly s t) (k : VectorsOnly t u) : VectorsOnly s u := by
  constructor
  · exact (congrArg (fun q : State => { q with ports := s.ports, out := s.out }) k.rest).trans h.rest
  · exact (congrArg (fun q : Ports => { q with hwake := s.ports.hwake, msixPend := s.ports.msixPend }) k.ports).trans h.ports

theorem sendVector_only (s : State) (n : Nat) : VectorsOnly s (sendVector s n) := by
  unfold sendVector
  simp only
  split <;> exact ⟨rfl, rfl⟩

theorem hwakeFire_only (old s : State) (a n : Nat) : VectorsOnly s (hwakeFire old s a n) := by
  unfold hwakeFire
  generalize old.ports.hwake = hs
  suffices h : ∀ (z : State), VectorsOnly s z → VectorsOnly s (hs.foldl (fun z h =>
      let o := hwakeOff h.2
      if h.2.getLsbD 63 && overlaps a n o 8 && old.mem.readN o 8 == 0 && s.mem.readN o 8 != 0 then sendVector z h.1 else z) z) from
    h s (.refl s)
  induction hs with
  | nil => exact fun z h => h
  | cons x xs ih =>
    intro z h
    refine ih _ ?_
    simp only
    split
    · exact h.trans (sendVector_only z _)
    · exact h

theorem scrub_clean {s : State} {a n : Nat} (h : poisoned s a n = false) : scrub s a n = s.mem := by
  unfold scrub
  have : (s.poison.filter fun p => overlaps a n (8 * p) 8) = [] := by
    simpa [poisoned, List.filter_eq_nil_iff] using h
  rw [this]; rfl

/-- The one lemma about a write at a home that poison does not touch. -/
theorem wrote_homeWrite {s : State} (w : Who) {a : Nat} {bs : List Byte} (hb : bs ≠ []) (hp : poisoned s a bs.length = false) :
    Wrote a bs s (homeWrite s w a bs) := by
  have he : bs.isEmpty = false := by cases bs <;> simp_all
  unfold homeWrite
  simp only [he, Bool.false_eq_true, if_false, scrub_clean hp]
  generalize hz : ({ s with mem := _, poison := _, wrBy := _, accs := _, queues := _ } : State) = z
  have V := hwakeFire_only s z a bs.length
  have hm : (hwakeFire s z a bs.length).mem = z.mem := (congrArg State.mem V.rest :)
  have ha : (hwakeFire s z a bs.length).accs = z.accs := (congrArg State.accs V.rest :)
  have hq : (hwakeFire s z a bs.length).queues = z.queues := (congrArg State.queues V.rest :)
  have hr := congrArg (fun q : State => { q with
    mem := s.mem, poison := s.poison, wrBy := s.wrBy, accs := s.accs, queues := s.queues, ports := s.ports, out := s.out }) V.rest
  have hP := V.ports
  generalize hwakeFire s z a bs.length = y at *
  subst hz
  refine ⟨?_, ?_, hr, ?_, ?_, hP⟩
  · intro k hk
    rw [hm, byte_setBytes]
    simp [hk]
  · intro x hx
    rw [hm, byte_setBytes_out _ _ hx]
  · rw [hm, ha]
  · rw [hm, hq]

end Sys2Proof.Machine
end

