-- ==== Sys2Proof/Laws/Numbers.lean ====
section
/-! SUPPORT. The laws of the number formats: an integer brought into a TYPE's range. -/

namespace Sys2Proof.Machine

open Sys2Proof

theorem intMin_le_intMax (ty : Ty) : intMin ty ≤ intMax ty := by cases ty <;> decide

theorem setWidth_signExtend {n : Nat} (w : BitVec n) (h : n ≤ 32) :
    ((w.signExtend 32).setWidth 64).setWidth n = w := by
  apply BitVec.eq_of_getLsbD_eq
  intro i hi
  have h32 : i < 32 := by omega
  have h64 : i < 64 := by omega
  rw [BitVec.getLsbD_setWidth, BitVec.getLsbD_setWidth, BitVec.getLsbD_signExtend]
  simp [hi, h32, h64]

theorem setWidth_setWidth64 {n : Nat} (w : BitVec n) (h : n ≤ 64) : (w.setWidth 64).setWidth n = w := by
  apply BitVec.eq_of_getLsbD_eq
  intro i hi
  simp [hi, (by omega : i < 64)]

/-- The number that is brought into range, after `.sat`. -/
def satInt (ty : Ty) (sat : Bool) (x : Int) : Int := if sat then clampInt (intMin ty) (intMax ty) x else x

/-- The bits of an integer brought into range, read back. -/
theorem intOf_intBits (ty : Ty) (sat : Bool) (x : Int) : intOf ty (intBits ty sat x) =
    if Ty.signed ty then (satInt ty sat x).bmod (2 ^ Ty.width ty) else satInt ty sat x % 2 ^ Ty.width ty := by
  have hs : Ty.signed ty = true → Ty.width ty ≠ 64 → Ty.width ty ≤ 32 := by cases ty <;> decide
  have hw : Ty.width ty ≤ 64 := by cases ty <;> decide
  unfold intOf intBits
  dsimp only
  change _ = if Ty.signed ty then (satInt ty sat x).bmod (2 ^ Ty.width ty) else satInt ty sat x % 2 ^ Ty.width ty
  rw [show (if sat = true then clampInt (intMin ty) (intMax ty) x else x) = satInt ty sat x from rfl]
  by_cases h : Ty.signed ty = true
  · simp only [h, if_true]
    by_cases h64 : Ty.width ty = 64
    · rw [if_pos h64, setWidth_setWidth64 _ hw, BitVec.toInt_ofInt]
    · rw [if_neg h64, setWidth_signExtend _ (hs h h64), BitVec.toInt_ofInt]
  · simp only [h, Bool.false_eq_true, if_false]
    rw [setWidth_setWidth64 _ hw, BitVec.toNat_ofInt]
    have : (0 : Int) ≤ satInt ty sat x % 2 ^ Ty.width ty := Int.emod_nonneg _ (by positivity)
    push_cast
    omega

/-- An integer brought into range (R89). -/
theorem ranged_intBits (ty : Ty) (sat : Bool) (x : Int) : Ranged ty sat x (intOf ty (intBits ty sat x)) := by
  rw [intOf_intBits]
  have hpos : 0 < Ty.width ty := by cases ty <;> decide
  have hpow : (2 : Int) ^ Ty.width ty = 2 * 2 ^ (Ty.width ty - 1) := by
    rw [← pow_succ']; congr 1; omega
  have hpowN : (2 : Nat) ^ Ty.width ty = 2 * 2 ^ (Ty.width ty - 1) := by
    rw [← pow_succ']; congr 1; omega
  have hp : (0 : Int) < 2 ^ (Ty.width ty - 1) := by positivity
  have hc : ((2 ^ Ty.width ty : Nat) : Int) = 2 ^ Ty.width ty := by push_cast; rfl
  by_cases h : Ty.signed ty = true
  · have hlo : intMin ty = -(2 ^ (Ty.width ty - 1)) := by simp [intMin, h]
    have hhi : intMax ty = 2 ^ (Ty.width ty - 1) - 1 := by simp [intMax, h]
    simp only [h, if_true]
    have hr : -(2 ^ (Ty.width ty - 1)) ≤ (satInt ty sat x).bmod (2 ^ Ty.width ty) ∧
        (satInt ty sat x).bmod (2 ^ Ty.width ty) < 2 ^ (Ty.width ty - 1) := by
      have h1 := Int.le_bmod (x := satInt ty sat x) (m := 2 ^ Ty.width ty) (by positivity)
      have h2 := Int.bmod_lt (x := satInt ty sat x) (m := 2 ^ Ty.width ty) (by positivity)
      omega
    refine ⟨by omega, by omega, ?_⟩
    have hb : (2 ^ Ty.width ty : Int) ∣ (satInt ty sat x).bmod (2 ^ Ty.width ty) - satInt ty sat x := by
      rw [← hc]
      exact Int.dvd_of_emod_eq_zero (by rw [Int.sub_emod, Int.bmod_emod]; simp)
    cases sat
    · simpa [satInt] using hb
    · have hfit : intMin ty ≤ satInt ty true x ∧ satInt ty true x ≤ intMax ty := by
        simp only [satInt, if_true, clampInt]; omega
      have : (satInt ty true x).bmod (2 ^ Ty.width ty) = satInt ty true x := by
        apply Int.bmod_eq_of_le <;> omega
      rw [this]
      simp only [satInt, if_true, clampInt]
      omega
  · have h' : Ty.signed ty = false := by simpa using h
    have hlo : intMin ty = 0 := by simp [intMin, h']
    have hhi : intMax ty = 2 ^ Ty.width ty - 1 := by simp [intMax, h']
    simp only [h', Bool.false_eq_true, if_false]
    have h0 : (0 : Int) ≤ satInt ty sat x % 2 ^ Ty.width ty := Int.emod_nonneg _ (by positivity)
    have h1 : satInt ty sat x % 2 ^ Ty.width ty < 2 ^ Ty.width ty := Int.emod_lt_of_pos _ (by positivity)
    refine ⟨by omega, by omega, ?_⟩
    cases sat
    · simp only [satInt, Bool.false_eq_true, if_false]
      exact Int.dvd_of_emod_eq_zero (by rw [Int.sub_emod, Int.emod_emod_of_dvd _ (dvd_refl _)]; simp)
    · have hfit : intMin ty ≤ satInt ty true x ∧ satInt ty true x ≤ intMax ty := by
        simp only [satInt, if_true, clampInt]; omega
      have : satInt ty true x % 2 ^ Ty.width ty = satInt ty true x := Int.emod_eq_of_lt (by omega) (by omega)
      rw [this]
      simp only [satInt, if_true, clampInt]
      omega

theorem ofInt_toInt_signExtend {n : Nat} (w : BitVec n) (h : n ≤ 32) :
    (w.signExtend 32) = BitVec.ofInt 32 w.toInt := by
  apply BitVec.eq_of_toInt_eq
  rw [BitVec.toInt_signExtend_of_le h, BitVec.toInt_ofInt]
  symm
  have h1 := BitVec.toInt_lt (x := w)
  have h2 := BitVec.le_toInt (x := w)
  have h3 : (2 : Int) ^ (n - 1) ≤ 2 ^ 31 := by
    exact_mod_cast Nat.pow_le_pow_right (by norm_num) (by omega)
  apply Int.bmod_eq_of_le <;> push_cast <;> omega

/-- The register or pair an integer result fills (R89, R183). -/
theorem holds_intBits (ty : Ty) (sat : Bool) (x : Int) : Holds ty sat x (intBits ty sat x) := by
  refine ⟨ranged_intBits ty sat x, ?_⟩
  have key : ∀ y : Int, (if Ty.wide ty then intBits ty false y = BitVec.ofInt 64 (intOf ty (intBits ty false y))
      else loWord (intBits ty false y) = BitVec.ofInt 32 (intOf ty (intBits ty false y))) := by
    intro y
    have hi := intOf_intBits ty false y
    have hw : Ty.width ty ≤ 64 := by cases ty <;> decide
    simp only [satInt, Bool.false_eq_true, if_false] at hi
    by_cases hwide : Ty.wide ty = true
    · have h64 : Ty.width ty = 64 := by cases ty <;> simp_all [Ty.wide, Ty.width]
      simp only [hwide, if_true]
      rw [hi]
      simp only [intBits, Bool.false_eq_true, if_false]
      by_cases h : Ty.signed ty = true
      · have hty : ty = .i64 := by cases ty <;> simp_all [Ty.wide, Ty.signed]
        subst hty
        apply BitVec.eq_of_toInt_eq
        simp [BitVec.toInt_ofInt, Ty.signed, Ty.width]
      · have hty : ty = .n64 := by cases ty <;> simp_all [Ty.wide, Ty.signed]
        subst hty
        apply BitVec.eq_of_toNat_eq
        simp [BitVec.toNat_ofInt, Ty.signed, Ty.width]
    · have hwide' : Ty.wide ty = false := by simpa using hwide
      have h32 : Ty.width ty ≤ 32 := by cases ty <;> simp_all [Ty.wide, Ty.width]
      have hne : Ty.width ty ≠ 64 := by omega
      simp only [hwide', Bool.false_eq_true, if_false]
      rw [hi]
      simp only [intBits, Bool.false_eq_true, if_false]
      by_cases h : Ty.signed ty = true
      · simp only [h, if_true, hne, if_false]
        rw [← BitVec.toInt_ofInt, ← ofInt_toInt_signExtend _ h32]
        apply BitVec.eq_of_getLsbD_eq
        intro i hi
        simp [loWord, hi]
      · simp only [h, Bool.false_eq_true, if_false]
        apply BitVec.eq_of_toNat_eq
        have hp : (2 : Int) ^ Ty.width ty ≤ 2 ^ 32 := by exact_mod_cast Nat.pow_le_pow_right (by norm_num) h32
        have h0 : (0 : Int) ≤ y % 2 ^ Ty.width ty := Int.emod_nonneg _ (by positivity)
        have h1 : y % 2 ^ Ty.width ty < 2 ^ Ty.width ty := Int.emod_lt_of_pos _ (by positivity)
        have hc : ((2 ^ Ty.width ty : Nat) : Int) = 2 ^ Ty.width ty := by push_cast; rfl
        simp only [loWord, BitVec.toNat_setWidth, BitVec.toNat_ofInt]
        rw [hc]
        push_cast
        omega
  cases sat
  · exact key x
  · have : intBits ty true x = intBits ty false (clampInt (intMin ty) (intMax ty) x) := by simp [intBits]
    rw [this]
    exact key _

/-! ### Shifts (R192) -/

theorem shl_bit (ty : Ty) (x : Dword) (n i : Nat) (hi : i < Ty.width ty) :
    (shlBits ty x n).getLsbD i = (decide (n ≤ i) && x.getLsbD (i - n)) := by
  have hw : Ty.width ty ≤ 64 := by cases ty <;> decide
  unfold shlBits
  split
  · rw [BitVec.getLsbD_shiftLeft]
    by_cases hn : n ≤ i
    · simp [hn, (by omega : i < 64)]
    · simp [hn]
  · have hn : ¬ n ≤ i := by omega
    simp [hn]

theorem shr_bit (ty : Ty) (x : Dword) (n i : Nat) (hi : i < Ty.width ty) (hw : Ty.width ty = 32 ∨ Ty.width ty = 64)
    (hx : Ty.wide ty = false → ∀ i, 32 ≤ i → x.getLsbD i = false) :
    (shrBits ty x n).getLsbD i = if i + n < Ty.width ty then x.getLsbD (i + n) else (Ty.signed ty && x.getLsbD (Ty.width ty - 1)) := by
  have h0 : Ty.width ty = 32 → Ty.wide ty = false := by cases ty <;> decide
  have h1 : Ty.width ty = 64 → Ty.wide ty = true := by cases ty <;> decide
  unfold shrBits
  rcases hw with hw | hw
  · have hwd := h0 hw
    rw [hw] at hi
    rw [hwd, hw]
    by_cases hs : Ty.signed ty = true
    · simp only [hs, if_true, Bool.false_eq_true, if_false, Bool.true_and, BitVec.getLsbD_setWidth, BitVec.getLsbD_sshiftRight,
        BitVec.msb_eq_getLsbD_last, loWord, Nat.add_comm n i]
      by_cases h : i + n < 32
      · simp [h, hi, (by omega : i < 64)]
      · simp [h, hi, (by omega : i < 64)]
    · simp only [hs, Bool.false_eq_true, if_false, Bool.false_and]
      by_cases hn : n < 32
      · rw [if_pos hn, BitVec.getLsbD_ushiftRight, Nat.add_comm n i]
        split
        · rfl
        · exact hx hwd _ (by omega)
      · rw [if_neg hn, if_neg (by omega)]; simp
  · have hwd := h1 hw
    rw [hw] at hi
    rw [hwd, hw]
    by_cases hs : Ty.signed ty = true
    · simp only [hs, if_true, Bool.true_and, BitVec.getLsbD_sshiftRight, BitVec.msb_eq_getLsbD_last, Nat.add_comm n i]
      by_cases h : i + n < 64
      · simp [h, hi]
      · simp [h, hi]
    · simp only [hs, Bool.false_eq_true, if_false, Bool.false_and]
      by_cases hn : n < 64
      · rw [if_pos hn, BitVec.getLsbD_ushiftRight, Nat.add_comm n i]
        split
        · rfl
        · exact BitVec.getLsbD_of_ge _ _ (by omega)
      · rw [if_neg hn, if_neg (by omega)]; simp

theorem rotl_bit (ty : Ty) (x : Dword) (n i : Nat) (hi : i < Ty.width ty) (hw : Ty.width ty = 32 ∨ Ty.width ty = 64) :
    (rotlBits ty x n).getLsbD ((i + n) % Ty.width ty) = x.getLsbD i := by
  have h0 : Ty.width ty = 32 → Ty.wide ty = false := by cases ty <;> decide
  have h1 : Ty.width ty = 64 → Ty.wide ty = true := by cases ty <;> decide
  unfold rotlBits
  rcases hw with hw | hw
  · have hwd := h0 hw
    rw [hw] at hi
    rw [hwd, hw]
    simp only [Bool.false_eq_true, if_false, rotl32, BitVec.getLsbD_setWidth, BitVec.getLsbD_rotateLeft, loWord, Nat.mod_mod]
    have hb : (i + n) % 32 < 32 := by omega
    by_cases h : (i + n) % 32 < n % 32
    · have e : 32 - n % 32 + (i + n) % 32 = i := by omega
      simp [h, e, hi, (by omega : (i + n) % 32 < 64)]
    · have e : (i + n) % 32 - n % 32 = i := by omega
      simp [h, e, hi, hb, (by omega : (i + n) % 32 < 64)]
  · have hwd := h1 hw
    rw [hw] at hi
    rw [hwd, hw]
    simp only [if_true, BitVec.getLsbD_rotateLeft, Nat.mod_mod]
    have hb : (i + n) % 64 < 64 := by omega
    by_cases h : (i + n) % 64 < n % 64
    · have e : 64 - n % 64 + (i + n) % 64 = i := by omega
      simp [h, e, hi]
    · have e : (i + n) % 64 - n % 64 = i := by omega
      simp [h, e, hi, hb]

end Sys2Proof.Machine
end

