-- ==== Sys2Proof/Laws/PerInstr.lean ====
section
/-! SUPPORT. What the encoder writes the builder reads back: for every encoded instruction, its fields name an assigned
opcode, and give it again. An event has no fields. One lemma per constructor, for the family `Encoded` of LAWS.json. -/

set_option linter.unusedSimpArgs false

namespace Sys2Proof.Laws.Encoded
open Sys2Proof

/-- The fields of `i`, if it has any, have an assigned CLASS and OP (Table 13.11), and read back as `i` (R151-R155). A COPYL
with an immediate length must name no waypoint: its C holds the immediate (R284). -/
def Statement (i : Instr) : Prop :=
  ∀ f, fieldsOf i = some f → assigned f = true ∧ (i.wfWaypoint = true → build f = some i)

@[simp] theorem opd_code (o : Opd) : opd o.code = o := by
  cases o with
  | v n => have := n.isLt; simp [opd, Opd.code, Opd.ofCode, Nat.mod_eq_of_lt (show n.val < 1024 by omega), n.isLt]
  | s n =>
    have := n.isLt
    have e : (512 + n.val) % 1024 = 512 + n.val := by omega
    simp [opd, Opd.code, Opd.ofCode, e]
  | p n =>
    have := n.isLt
    have e : (672 + n.val) % 1024 = 672 + n.val := by omega
    simp [opd, Opd.code, Opd.ofCode, e]
    rw [dif_neg (by omega), dif_neg (by omega)]; simp
  | sp n =>
    have := n.isLt
    have e : (704 + n.val) % 1024 = 704 + n.val := by omega
    simp [opd, Opd.code, Opd.ofCode, e]
    rw [dif_neg (by omega), dif_neg (by omega), dif_neg (by omega)]; simp
  | rz => rfl
@[simp] theorem ty_code (t : Ty) : Ty.ofCode t.code = t := by cases t <;> rfl
@[simp] theorem rnd_code (t : Rnd) : Rnd.ofCode t.code = t := by cases t <;> rfl
@[simp] theorem scope_code (t : Scope) : Scope.ofCode t.code = t := by cases t <;> rfl
@[simp] theorem sel_code (t : Sel) : Sel.ofCode t.code = t := by cases t <;> rfl
@[simp] theorem flag_code (t : Option (Fin 12)) : flagOf (flagCode t) = t := by
  rcases t with _ | k
  · rfl
  · have := k.isLt
    simp [flagCode, flagOf, Nat.mod_eq_of_lt (show k.val < 16 by omega), k.isLt]
@[simp] theorem sat_bit (a b : Bool) : (modbOf a b).getLsbD 0 = a := by cases a <;> cases b <;> rfl
@[simp] theorem ftz_bit (a b : Bool) : (modbOf a b).getLsbD 1 = b := by cases a <;> cases b <;> rfl
@[simp] theorem sat_elem (a b : Bool) : (modbOf a b)[0] = a := by cases a <;> cases b <;> rfl
@[simp] theorem ftz_elem (a b : Bool) : (modbOf a b)[1] = b := by cases a <;> cases b <;> rfl
@[simp] theorem imm_parts (x : BitVec 20) : x.extractLsb' 10 10 ++ x.extractLsb' 0 10 = x := by
  rw [BitVec.extractLsb'_append_extractLsb'_eq_extractLsb' (by rfl)]; exact BitVec.extractLsb'_eq_self
@[simp] theorem word_parts (x : BitVec 32) : x.extractLsb' 28 4 ++ x.extractLsb' 24 4 ++ x.extractLsb' 20 4 ++
    x.extractLsb' 10 10 ++ x.extractLsb' 0 10 = x := by
  rw [BitVec.extractLsb'_append_extractLsb'_eq_extractLsb' (by rfl), BitVec.extractLsb'_append_extractLsb'_eq_extractLsb' (by rfl),
    BitVec.extractLsb'_append_extractLsb'_eq_extractLsb' (by rfl), BitVec.extractLsb'_append_extractLsb'_eq_extractLsb' (by rfl)]
  exact BitVec.extractLsb'_eq_self
@[simp] theorem hdr_read (op cls d a b c ty moda modb sub i) (h : Hdr) :
    hdrOf ⟨op, cls, ⟨h.pred⟩, BitVec.ofBool h.neg, d, a, b, c, ty, moda, modb, sub, i, BitVec.ofBool h.cs, BitVec.ofBool h.yld,
      h.sel.code, flagCode h.flga, flagCode h.flgb, h.wait⟩ = h := by
  obtain ⟨p, n, cs, y, sel, fa, fb, w⟩ := h
  simp only [hdrOf, sel_code, flag_code, Hdr.mk.injEq, and_true]
  refine ⟨rfl, ?_, ?_, ?_⟩
  · cases n <;> rfl
  · cases cs <;> rfl
  · cases y <;> rfl

@[simp] theorem byte_parts (x : BitVec 8) : x.extractLsb' 4 4 ++ x.extractLsb' 0 4 = x := by
  rw [BitVec.extractLsb'_append_extractLsb'_eq_extractLsb' (by rfl)]; exact BitVec.extractLsb'_eq_self
@[simp] theorem fin4_code (n : Fin 4) : fin4 (n.val % 32) = n := Fin.ext (by have := n.isLt; simp [fin4])
@[simp] theorem fin8_code (n : Fin 8) : fin8 (n.val % 32) = n := Fin.ext (by have := n.isLt; simp [fin8])
@[simp] theorem fin15_code (n : Fin 15) : fin15 (n.val % 32) = n := Fin.ext (by have := n.isLt; simp [fin15]; omega)
@[simp] theorem fin24_code (n : Fin 24) : fin24 (n.val % 32) = n := Fin.ext (by have := n.isLt; simp [fin24]; omega)
@[simp] theorem fin64_code (n : Fin 64) : fin64 (n.val % 1048576) = n := Fin.ext (by have := n.isLt; simp [fin64])

theorem iadd (h : Hdr) (ty : Ty) (sat : Bool) (d : Opd) (a : Opd) (b : Src) : Statement (.iadd h ty sat d a b) := by
  cases b <;> (intro f e; cases e; refine ⟨rfl, fun _ => ?_⟩) <;> simp (disch := omega) [build, buildInt, baseFields, fInt, Fields.withSrc, Fields.withImm, srcOf, Fields.immBits, Fields.withCmp, satOf, satBit, moviImm, cmpOf, Cond.code, Cond.ofCode, Comb.code, Comb.ofCode]
theorem isub (h : Hdr) (ty : Ty) (sat : Bool) (d : Opd) (a : Opd) (b : Src) : Statement (.isub h ty sat d a b) := by
  cases b <;> (intro f e; cases e; refine ⟨rfl, fun _ => ?_⟩) <;> simp (disch := omega) [build, buildInt, baseFields, fInt, Fields.withSrc, Fields.withImm, srcOf, Fields.immBits, Fields.withCmp, satOf, satBit, moviImm, cmpOf, Cond.code, Cond.ofCode, Comb.code, Comb.ofCode]
theorem imul (h : Hdr) (ty : Ty) (sat : Bool) (d : Opd) (a : Opd) (b : Src) : Statement (.imul h ty sat d a b) := by
  cases b <;> (intro f e; cases e; refine ⟨rfl, fun _ => ?_⟩) <;> simp (disch := omega) [build, buildInt, baseFields, fInt, Fields.withSrc, Fields.withImm, srcOf, Fields.immBits, Fields.withCmp, satOf, satBit, moviImm, cmpOf, Cond.code, Cond.ofCode, Comb.code, Comb.ofCode]
theorem imulh (h : Hdr) (ty : Ty) (d : Opd) (a : Opd) (b : Src) : Statement (.imulh h ty d a b) := by
  cases b <;> (intro f e; cases e; refine ⟨rfl, fun _ => ?_⟩) <;> simp (disch := omega) [build, buildInt, baseFields, fInt, Fields.withSrc, Fields.withImm, srcOf, Fields.immBits, Fields.withCmp, satOf, satBit, moviImm, cmpOf, Cond.code, Cond.ofCode, Comb.code, Comb.ofCode]
theorem imad (h : Hdr) (ty : Ty) (sat : Bool) (d : Opd) (a : Opd) (b : Opd) (c : Opd) : Statement (.imad h ty sat d a b c) := by
  (intro f e; cases e; refine ⟨rfl, fun _ => ?_⟩) <;> simp (disch := omega) [build, buildInt, baseFields, fInt, Fields.withSrc, Fields.withImm, srcOf, Fields.immBits, Fields.withCmp, satOf, satBit, moviImm, cmpOf, Cond.code, Cond.ofCode, Comb.code, Comb.ofCode]
theorem idiv (h : Hdr) (ty : Ty) (sat : Bool) (d : Opd) (a : Opd) (b : Src) : Statement (.idiv h ty sat d a b) := by
  cases b <;> (intro f e; cases e; refine ⟨rfl, fun _ => ?_⟩) <;> simp (disch := omega) [build, buildInt, baseFields, fInt, Fields.withSrc, Fields.withImm, srcOf, Fields.immBits, Fields.withCmp, satOf, satBit, moviImm, cmpOf, Cond.code, Cond.ofCode, Comb.code, Comb.ofCode]
theorem irem (h : Hdr) (ty : Ty) (d : Opd) (a : Opd) (b : Src) : Statement (.irem h ty d a b) := by
  cases b <;> (intro f e; cases e; refine ⟨rfl, fun _ => ?_⟩) <;> simp (disch := omega) [build, buildInt, baseFields, fInt, Fields.withSrc, Fields.withImm, srcOf, Fields.immBits, Fields.withCmp, satOf, satBit, moviImm, cmpOf, Cond.code, Cond.ofCode, Comb.code, Comb.ofCode]
theorem imin (h : Hdr) (ty : Ty) (d : Opd) (a : Opd) (b : Src) : Statement (.imin h ty d a b) := by
  cases b <;> (intro f e; cases e; refine ⟨rfl, fun _ => ?_⟩) <;> simp (disch := omega) [build, buildInt, baseFields, fInt, Fields.withSrc, Fields.withImm, srcOf, Fields.immBits, Fields.withCmp, satOf, satBit, moviImm, cmpOf, Cond.code, Cond.ofCode, Comb.code, Comb.ofCode]
theorem imax (h : Hdr) (ty : Ty) (d : Opd) (a : Opd) (b : Src) : Statement (.imax h ty d a b) := by
  cases b <;> (intro f e; cases e; refine ⟨rfl, fun _ => ?_⟩) <;> simp (disch := omega) [build, buildInt, baseFields, fInt, Fields.withSrc, Fields.withImm, srcOf, Fields.immBits, Fields.withCmp, satOf, satBit, moviImm, cmpOf, Cond.code, Cond.ofCode, Comb.code, Comb.ofCode]
theorem iabs (h : Hdr) (ty : Ty) (sat : Bool) (d : Opd) (a : Opd) : Statement (.iabs h ty sat d a) := by
  (intro f e; cases e; refine ⟨rfl, fun _ => ?_⟩) <;> simp (disch := omega) [build, buildInt, baseFields, fInt, Fields.withSrc, Fields.withImm, srcOf, Fields.immBits, Fields.withCmp, satOf, satBit, moviImm, cmpOf, Cond.code, Cond.ofCode, Comb.code, Comb.ofCode]
theorem ineg (h : Hdr) (ty : Ty) (sat : Bool) (d : Opd) (a : Opd) : Statement (.ineg h ty sat d a) := by
  (intro f e; cases e; refine ⟨rfl, fun _ => ?_⟩) <;> simp (disch := omega) [build, buildInt, baseFields, fInt, Fields.withSrc, Fields.withImm, srcOf, Fields.immBits, Fields.withCmp, satOf, satBit, moviImm, cmpOf, Cond.code, Cond.ofCode, Comb.code, Comb.ofCode]
theorem and (h : Hdr) (ty : Ty) (d : Opd) (a : Opd) (b : Src) : Statement (.and h ty d a b) := by
  cases b <;> (intro f e; cases e; refine ⟨rfl, fun _ => ?_⟩) <;> simp (disch := omega) [build, buildInt, baseFields, fInt, Fields.withSrc, Fields.withImm, srcOf, Fields.immBits, Fields.withCmp, satOf, satBit, moviImm, cmpOf, Cond.code, Cond.ofCode, Comb.code, Comb.ofCode]
theorem or (h : Hdr) (ty : Ty) (d : Opd) (a : Opd) (b : Src) : Statement (.or h ty d a b) := by
  cases b <;> (intro f e; cases e; refine ⟨rfl, fun _ => ?_⟩) <;> simp (disch := omega) [build, buildInt, baseFields, fInt, Fields.withSrc, Fields.withImm, srcOf, Fields.immBits, Fields.withCmp, satOf, satBit, moviImm, cmpOf, Cond.code, Cond.ofCode, Comb.code, Comb.ofCode]
theorem xor (h : Hdr) (ty : Ty) (d : Opd) (a : Opd) (b : Src) : Statement (.xor h ty d a b) := by
  cases b <;> (intro f e; cases e; refine ⟨rfl, fun _ => ?_⟩) <;> simp (disch := omega) [build, buildInt, baseFields, fInt, Fields.withSrc, Fields.withImm, srcOf, Fields.immBits, Fields.withCmp, satOf, satBit, moviImm, cmpOf, Cond.code, Cond.ofCode, Comb.code, Comb.ofCode]
theorem not (h : Hdr) (ty : Ty) (d : Opd) (a : Opd) : Statement (.not h ty d a) := by
  (intro f e; cases e; refine ⟨rfl, fun _ => ?_⟩) <;> simp (disch := omega) [build, buildInt, baseFields, fInt, Fields.withSrc, Fields.withImm, srcOf, Fields.immBits, Fields.withCmp, satOf, satBit, moviImm, cmpOf, Cond.code, Cond.ofCode, Comb.code, Comb.ofCode]
theorem shl (h : Hdr) (ty : Ty) (d : Opd) (a : Opd) (b : Src) : Statement (.shl h ty d a b) := by
  cases b <;> (intro f e; cases e; refine ⟨rfl, fun _ => ?_⟩) <;> simp (disch := omega) [build, buildInt, baseFields, fInt, Fields.withSrc, Fields.withImm, srcOf, Fields.immBits, Fields.withCmp, satOf, satBit, moviImm, cmpOf, Cond.code, Cond.ofCode, Comb.code, Comb.ofCode]
theorem shr (h : Hdr) (ty : Ty) (d : Opd) (a : Opd) (b : Src) : Statement (.shr h ty d a b) := by
  cases b <;> (intro f e; cases e; refine ⟨rfl, fun _ => ?_⟩) <;> simp (disch := omega) [build, buildInt, baseFields, fInt, Fields.withSrc, Fields.withImm, srcOf, Fields.immBits, Fields.withCmp, satOf, satBit, moviImm, cmpOf, Cond.code, Cond.ofCode, Comb.code, Comb.ofCode]
theorem rotl (h : Hdr) (ty : Ty) (d : Opd) (a : Opd) (b : Src) : Statement (.rotl h ty d a b) := by
  cases b <;> (intro f e; cases e; refine ⟨rfl, fun _ => ?_⟩) <;> simp (disch := omega) [build, buildInt, baseFields, fInt, Fields.withSrc, Fields.withImm, srcOf, Fields.immBits, Fields.withCmp, satOf, satBit, moviImm, cmpOf, Cond.code, Cond.ofCode, Comb.code, Comb.ofCode]
theorem bfe (h : Hdr) (ty : Ty) (d : Opd) (a : Opd) (b : Src) : Statement (.bfe h ty d a b) := by
  cases b <;> (intro f e; cases e; refine ⟨rfl, fun _ => ?_⟩) <;> simp (disch := omega) [build, buildInt, baseFields, fInt, Fields.withSrc, Fields.withImm, srcOf, Fields.immBits, Fields.withCmp, satOf, satBit, moviImm, cmpOf, Cond.code, Cond.ofCode, Comb.code, Comb.ofCode]
theorem bfi (h : Hdr) (ty : Ty) (d : Opd) (a : Opd) (b : Opd) (c : Opd) : Statement (.bfi h ty d a b c) := by
  (intro f e; cases e; refine ⟨rfl, fun _ => ?_⟩) <;> simp (disch := omega) [build, buildInt, baseFields, fInt, Fields.withSrc, Fields.withImm, srcOf, Fields.immBits, Fields.withCmp, satOf, satBit, moviImm, cmpOf, Cond.code, Cond.ofCode, Comb.code, Comb.ofCode]
theorem popc (h : Hdr) (ty : Ty) (d : Opd) (a : Opd) : Statement (.popc h ty d a) := by
  (intro f e; cases e; refine ⟨rfl, fun _ => ?_⟩) <;> simp (disch := omega) [build, buildInt, baseFields, fInt, Fields.withSrc, Fields.withImm, srcOf, Fields.immBits, Fields.withCmp, satOf, satBit, moviImm, cmpOf, Cond.code, Cond.ofCode, Comb.code, Comb.ofCode]
theorem clz (h : Hdr) (ty : Ty) (d : Opd) (a : Opd) : Statement (.clz h ty d a) := by
  (intro f e; cases e; refine ⟨rfl, fun _ => ?_⟩) <;> simp (disch := omega) [build, buildInt, baseFields, fInt, Fields.withSrc, Fields.withImm, srcOf, Fields.immBits, Fields.withCmp, satOf, satBit, moviImm, cmpOf, Cond.code, Cond.ofCode, Comb.code, Comb.ofCode]
theorem brev (h : Hdr) (ty : Ty) (d : Opd) (a : Opd) : Statement (.brev h ty d a) := by
  (intro f e; cases e; refine ⟨rfl, fun _ => ?_⟩) <;> simp (disch := omega) [build, buildInt, baseFields, fInt, Fields.withSrc, Fields.withImm, srcOf, Fields.immBits, Fields.withCmp, satOf, satBit, moviImm, cmpOf, Cond.code, Cond.ofCode, Comb.code, Comb.ofCode]
theorem prmt (h : Hdr) (d : Opd) (a : Opd) (b : PrmtSrc) : Statement (.prmt h d a b) := by
  cases b <;> (intro f e; cases e; refine ⟨rfl, fun _ => ?_⟩) <;> simp (disch := omega) [build, buildInt, baseFields, fInt, Fields.withSrc, Fields.withImm, srcOf, Fields.immBits, Fields.withCmp, satOf, satBit, moviImm, cmpOf, Cond.code, Cond.ofCode, Comb.code, Comb.ofCode]
theorem icmp (h : Hdr) (cond : Cond) (ty : Ty) (d : Opd) (a : Opd) (b : CmpSrc) : Statement (.icmp h cond ty d a b) := by
  cases cond <;> rcases b with (_ | _) | ⟨(_ | _ | _), _, _⟩ <;> (intro f e; cases e; refine ⟨rfl, fun _ => ?_⟩) <;> simp (disch := omega) [build, buildInt, baseFields, fInt, Fields.withSrc, Fields.withImm, srcOf, Fields.immBits, Fields.withCmp, satOf, satBit, moviImm, cmpOf, Cond.code, Cond.ofCode, Comb.code, Comb.ofCode]
theorem sel (h : Hdr) (ty : Ty) (d : Opd) (a : Opd) (b : Opd) (c : Opd) : Statement (.sel h ty d a b c) := by
  (intro f e; cases e; refine ⟨rfl, fun _ => ?_⟩) <;> simp (disch := omega) [build, buildInt, baseFields, fInt, Fields.withSrc, Fields.withImm, srcOf, Fields.immBits, Fields.withCmp, satOf, satBit, moviImm, cmpOf, Cond.code, Cond.ofCode, Comb.code, Comb.ofCode]
theorem plop (h : Hdr) (table : BitVec 8) (d : Opd) (a : Opd) (b : Opd) (c : Opd) : Statement (.plop h table d a b c) := by
  (intro f e; cases e; refine ⟨rfl, fun _ => ?_⟩) <;> simp (disch := omega) [build, buildInt, baseFields, fInt, Fields.withSrc, Fields.withImm, srcOf, Fields.immBits, Fields.withCmp, satOf, satBit, moviImm, cmpOf, Cond.code, Cond.ofCode, Comb.code, Comb.ofCode]
theorem pmovGet (h : Hdr) (d : Opd) : Statement (.pmovGet h d) := by
  (intro f e; cases e; refine ⟨rfl, fun _ => ?_⟩) <;> simp (disch := omega) [build, buildInt, baseFields, fInt, Fields.withSrc, Fields.withImm, srcOf, Fields.immBits, Fields.withCmp, satOf, satBit, moviImm, cmpOf, Cond.code, Cond.ofCode, Comb.code, Comb.ofCode]
theorem pmovSet (h : Hdr) (a : Opd) (b : Src) : Statement (.pmovSet h a b) := by
  cases b <;> (intro f e; cases e; refine ⟨rfl, fun _ => ?_⟩) <;> simp (disch := omega) [build, buildInt, baseFields, fInt, Fields.withSrc, Fields.withImm, srcOf, Fields.immBits, Fields.withCmp, satOf, satBit, moviImm, cmpOf, Cond.code, Cond.ofCode, Comb.code, Comb.ofCode]
theorem mov (h : Hdr) (ty : Ty) (d : Opd) (a : Opd) : Statement (.mov h ty d a) := by
  (intro f e; cases e; refine ⟨rfl, fun _ => ?_⟩) <;> simp (disch := omega) [build, buildInt, baseFields, fInt, Fields.withSrc, Fields.withImm, srcOf, Fields.immBits, Fields.withCmp, satOf, satBit, moviImm, cmpOf, Cond.code, Cond.ofCode, Comb.code, Comb.ofCode]
theorem movi (h : Hdr) (d : Opd) (x : Word) : Statement (.movi h d x) := by
  (intro f e; cases e; refine ⟨rfl, fun _ => ?_⟩) <;> simp (disch := omega) [build, buildInt, baseFields, fInt, Fields.withSrc, Fields.withImm, srcOf, Fields.immBits, Fields.withCmp, satOf, satBit, moviImm, cmpOf, Cond.code, Cond.ofCode, Comb.code, Comb.ofCode]
theorem moviHi (h : Hdr) (d : Opd) (x : Word) : Statement (.moviHi h d x) := by
  (intro f e; cases e; refine ⟨rfl, fun _ => ?_⟩) <;> simp (disch := omega) [build, buildInt, baseFields, fInt, Fields.withSrc, Fields.withImm, srcOf, Fields.immBits, Fields.withCmp, satOf, satBit, moviImm, cmpOf, Cond.code, Cond.ofCode, Comb.code, Comb.ofCode]
theorem lea (h : Hdr) (ty : Ty) (sh : Fin 4) (d : Opd) (a : Opd) (b : Src) : Statement (.lea h ty sh d a b) := by
  revert sh; intro sh; rcases sh with ⟨sh, w⟩
  cases b <;> (intro f e; cases e; refine ⟨rfl, fun _ => ?_⟩) <;> interval_cases sh <;> simp (disch := omega) [build, buildInt, baseFields, fInt, Fields.withSrc, Fields.withImm, srcOf, Fields.immBits, Fields.withCmp, satOf, satBit, moviImm, cmpOf, Cond.code, Cond.ofCode, Comb.code, Comb.ofCode] <;> rfl
theorem leaCode (h : Hdr) (ty : Ty) (sh : Fin 4) (d : Opd) (b : Src) : Statement (.leaCode h ty sh d b) := by
  revert sh; intro sh; rcases sh with ⟨sh, w⟩
  cases b <;> (intro f e; cases e; refine ⟨rfl, fun _ => ?_⟩) <;> interval_cases sh <;> simp (disch := omega) [build, buildInt, baseFields, fInt, Fields.withSrc, Fields.withImm, srcOf, Fields.immBits, Fields.withCmp, satOf, satBit, moviImm, cmpOf, Cond.code, Cond.ofCode, Comb.code, Comb.ofCode] <;> rfl
theorem fadd (h : Hdr) (ty : Ty) (m : FMod) (d : Opd) (a : Opd) (b : Src) : Statement (.fadd h ty m d a b) := by
  cases b <;> (intro f e; cases e; refine ⟨rfl, fun _ => ?_⟩) <;> simp (disch := omega) [build, buildFp, baseFields, fFp, Fields.withSrc, Fields.withImm, srcOf, Fields.immBits, Fields.withMod, Fields.withCmp, ftzBit, fmodOf, cmpOf, Cond.code, Cond.ofCode, Comb.code, Comb.ofCode]
theorem fsub (h : Hdr) (ty : Ty) (m : FMod) (d : Opd) (a : Opd) (b : Src) : Statement (.fsub h ty m d a b) := by
  cases b <;> (intro f e; cases e; refine ⟨rfl, fun _ => ?_⟩) <;> simp (disch := omega) [build, buildFp, baseFields, fFp, Fields.withSrc, Fields.withImm, srcOf, Fields.immBits, Fields.withMod, Fields.withCmp, ftzBit, fmodOf, cmpOf, Cond.code, Cond.ofCode, Comb.code, Comb.ofCode]
theorem fmul (h : Hdr) (ty : Ty) (m : FMod) (d : Opd) (a : Opd) (b : Src) : Statement (.fmul h ty m d a b) := by
  cases b <;> (intro f e; cases e; refine ⟨rfl, fun _ => ?_⟩) <;> simp (disch := omega) [build, buildFp, baseFields, fFp, Fields.withSrc, Fields.withImm, srcOf, Fields.immBits, Fields.withMod, Fields.withCmp, ftzBit, fmodOf, cmpOf, Cond.code, Cond.ofCode, Comb.code, Comb.ofCode]
theorem ffma (h : Hdr) (ty : Ty) (m : FMod) (d : Opd) (a : Opd) (b : Opd) (c : Opd) : Statement (.ffma h ty m d a b c) := by
  (intro f e; cases e; refine ⟨rfl, fun _ => ?_⟩) <;> simp (disch := omega) [build, buildFp, baseFields, fFp, Fields.withSrc, Fields.withImm, srcOf, Fields.immBits, Fields.withMod, Fields.withCmp, ftzBit, fmodOf, cmpOf, Cond.code, Cond.ofCode, Comb.code, Comb.ofCode]
theorem fmin (h : Hdr) (ty : Ty) (ftz : Bool) (d : Opd) (a : Opd) (b : Src) : Statement (.fmin h ty ftz d a b) := by
  cases b <;> (intro f e; cases e; refine ⟨rfl, fun _ => ?_⟩) <;> simp (disch := omega) [build, buildFp, baseFields, fFp, Fields.withSrc, Fields.withImm, srcOf, Fields.immBits, Fields.withMod, Fields.withCmp, ftzBit, fmodOf, cmpOf, Cond.code, Cond.ofCode, Comb.code, Comb.ofCode]
theorem fmax (h : Hdr) (ty : Ty) (ftz : Bool) (d : Opd) (a : Opd) (b : Src) : Statement (.fmax h ty ftz d a b) := by
  cases b <;> (intro f e; cases e; refine ⟨rfl, fun _ => ?_⟩) <;> simp (disch := omega) [build, buildFp, baseFields, fFp, Fields.withSrc, Fields.withImm, srcOf, Fields.immBits, Fields.withMod, Fields.withCmp, ftzBit, fmodOf, cmpOf, Cond.code, Cond.ofCode, Comb.code, Comb.ofCode]
theorem fabs (h : Hdr) (ty : Ty) (ftz : Bool) (d : Opd) (a : Opd) : Statement (.fabs h ty ftz d a) := by
  (intro f e; cases e; refine ⟨rfl, fun _ => ?_⟩) <;> simp (disch := omega) [build, buildFp, baseFields, fFp, Fields.withSrc, Fields.withImm, srcOf, Fields.immBits, Fields.withMod, Fields.withCmp, ftzBit, fmodOf, cmpOf, Cond.code, Cond.ofCode, Comb.code, Comb.ofCode]
theorem fneg (h : Hdr) (ty : Ty) (ftz : Bool) (d : Opd) (a : Opd) : Statement (.fneg h ty ftz d a) := by
  (intro f e; cases e; refine ⟨rfl, fun _ => ?_⟩) <;> simp (disch := omega) [build, buildFp, baseFields, fFp, Fields.withSrc, Fields.withImm, srcOf, Fields.immBits, Fields.withMod, Fields.withCmp, ftzBit, fmodOf, cmpOf, Cond.code, Cond.ofCode, Comb.code, Comb.ofCode]
theorem fcmp (h : Hdr) (cond : Cond) (ty : Ty) (ftz : Bool) (d : Opd) (a : Opd) (b : CmpSrc) : Statement (.fcmp h cond ty ftz d a b) := by
  cases cond <;> rcases b with (_ | _) | ⟨(_ | _ | _), _, _⟩ <;> (intro f e; cases e; refine ⟨rfl, fun _ => ?_⟩) <;> simp (disch := omega) [build, buildFp, baseFields, fFp, Fields.withSrc, Fields.withImm, srcOf, Fields.immBits, Fields.withMod, Fields.withCmp, ftzBit, fmodOf, cmpOf, Cond.code, Cond.ofCode, Comb.code, Comb.ofCode]
theorem frcp (h : Hdr) (m : FMod) (d : Opd) (a : Opd) : Statement (.frcp h m d a) := by
  (intro f e; cases e; refine ⟨rfl, fun _ => ?_⟩) <;> simp (disch := omega) [build, buildFp, baseFields, fFp, Fields.withSrc, Fields.withImm, srcOf, Fields.immBits, Fields.withMod, Fields.withCmp, ftzBit, fmodOf, cmpOf, Cond.code, Cond.ofCode, Comb.code, Comb.ofCode]
theorem frsq (h : Hdr) (m : FMod) (d : Opd) (a : Opd) : Statement (.frsq h m d a) := by
  (intro f e; cases e; refine ⟨rfl, fun _ => ?_⟩) <;> simp (disch := omega) [build, buildFp, baseFields, fFp, Fields.withSrc, Fields.withImm, srcOf, Fields.immBits, Fields.withMod, Fields.withCmp, ftzBit, fmodOf, cmpOf, Cond.code, Cond.ofCode, Comb.code, Comb.ofCode]
theorem fsqrt (h : Hdr) (m : FMod) (d : Opd) (a : Opd) : Statement (.fsqrt h m d a) := by
  (intro f e; cases e; refine ⟨rfl, fun _ => ?_⟩) <;> simp (disch := omega) [build, buildFp, baseFields, fFp, Fields.withSrc, Fields.withImm, srcOf, Fields.immBits, Fields.withMod, Fields.withCmp, ftzBit, fmodOf, cmpOf, Cond.code, Cond.ofCode, Comb.code, Comb.ofCode]
theorem fdiv (h : Hdr) (m : FMod) (d : Opd) (a : Opd) (b : Src) : Statement (.fdiv h m d a b) := by
  cases b <;> (intro f e; cases e; refine ⟨rfl, fun _ => ?_⟩) <;> simp (disch := omega) [build, buildFp, baseFields, fFp, Fields.withSrc, Fields.withImm, srcOf, Fields.immBits, Fields.withMod, Fields.withCmp, ftzBit, fmodOf, cmpOf, Cond.code, Cond.ofCode, Comb.code, Comb.ofCode]
theorem fexp2 (h : Hdr) (m : FMod) (d : Opd) (a : Opd) : Statement (.fexp2 h m d a) := by
  (intro f e; cases e; refine ⟨rfl, fun _ => ?_⟩) <;> simp (disch := omega) [build, buildFp, baseFields, fFp, Fields.withSrc, Fields.withImm, srcOf, Fields.immBits, Fields.withMod, Fields.withCmp, ftzBit, fmodOf, cmpOf, Cond.code, Cond.ofCode, Comb.code, Comb.ofCode]
theorem flog2 (h : Hdr) (m : FMod) (d : Opd) (a : Opd) : Statement (.flog2 h m d a) := by
  (intro f e; cases e; refine ⟨rfl, fun _ => ?_⟩) <;> simp (disch := omega) [build, buildFp, baseFields, fFp, Fields.withSrc, Fields.withImm, srcOf, Fields.immBits, Fields.withMod, Fields.withCmp, ftzBit, fmodOf, cmpOf, Cond.code, Cond.ofCode, Comb.code, Comb.ofCode]
theorem fsin (h : Hdr) (m : FMod) (d : Opd) (a : Opd) : Statement (.fsin h m d a) := by
  (intro f e; cases e; refine ⟨rfl, fun _ => ?_⟩) <;> simp (disch := omega) [build, buildFp, baseFields, fFp, Fields.withSrc, Fields.withImm, srcOf, Fields.immBits, Fields.withMod, Fields.withCmp, ftzBit, fmodOf, cmpOf, Cond.code, Cond.ofCode, Comb.code, Comb.ofCode]
theorem fcos (h : Hdr) (m : FMod) (d : Opd) (a : Opd) : Statement (.fcos h m d a) := by
  (intro f e; cases e; refine ⟨rfl, fun _ => ?_⟩) <;> simp (disch := omega) [build, buildFp, baseFields, fFp, Fields.withSrc, Fields.withImm, srcOf, Fields.immBits, Fields.withMod, Fields.withCmp, ftzBit, fmodOf, cmpOf, Cond.code, Cond.ofCode, Comb.code, Comb.ofCode]
theorem ftanh (h : Hdr) (m : FMod) (d : Opd) (a : Opd) : Statement (.ftanh h m d a) := by
  (intro f e; cases e; refine ⟨rfl, fun _ => ?_⟩) <;> simp (disch := omega) [build, buildFp, baseFields, fFp, Fields.withSrc, Fields.withImm, srcOf, Fields.immBits, Fields.withMod, Fields.withCmp, ftzBit, fmodOf, cmpOf, Cond.code, Cond.ofCode, Comb.code, Comb.ofCode]
theorem fclass (h : Hdr) (ty : Ty) (d : Opd) (a : Opd) : Statement (.fclass h ty d a) := by
  (intro f e; cases e; refine ⟨rfl, fun _ => ?_⟩) <;> simp (disch := omega) [build, buildFp, baseFields, fFp, Fields.withSrc, Fields.withImm, srcOf, Fields.immBits, Fields.withMod, Fields.withCmp, ftzBit, fmodOf, cmpOf, Cond.code, Cond.ofCode, Comb.code, Comb.ofCode]
theorem frint (h : Hdr) (ty : Ty) (rnd : Rnd) (ftz : Bool) (d : Opd) (a : Opd) : Statement (.frint h ty rnd ftz d a) := by
  (intro f e; cases e; refine ⟨rfl, fun _ => ?_⟩) <;> simp (disch := omega) [build, buildFp, baseFields, fFp, Fields.withSrc, Fields.withImm, srcOf, Fields.immBits, Fields.withMod, Fields.withCmp, ftzBit, fmodOf, cmpOf, Cond.code, Cond.ofCode, Comb.code, Comb.ofCode]
theorem cvt (h : Hdr) (src : Ty) (dst : Ty) (m : FMod) (d : Opd) (a : Opd) : Statement (.cvt h src dst m d a) := by
  (intro f e; cases e; refine ⟨rfl, fun _ => ?_⟩) <;> simp (disch := omega) [build, buildCvt, baseFields, Fields.withSrc, Fields.withImm, srcOf, Fields.immBits, Fields.withMod, Fields.withScale, satBit, fmodOf, scOf, MxFmt.code, MxFmt.ofCode]
theorem pack (h : Hdr) (ty : Ty) (m : FMod) (d : Opd) (a : Opd) (sc : Option Src) : Statement (.pack h ty m d a sc) := by
  rcases sc with _ | (_ | _) <;> (intro f e; cases e; refine ⟨rfl, fun _ => ?_⟩) <;> simp (disch := omega) [build, buildCvt, baseFields, Fields.withSrc, Fields.withImm, srcOf, Fields.immBits, Fields.withMod, Fields.withScale, satBit, fmodOf, scOf, MxFmt.code, MxFmt.ofCode]
theorem unpack (h : Hdr) (ty : Ty) (sat : Bool) (d : Opd) (a : Opd) (sc : Option Src) : Statement (.unpack h ty sat d a sc) := by
  rcases sc with _ | (_ | _) <;> (intro f e; cases e; refine ⟨rfl, fun _ => ?_⟩) <;> simp (disch := omega) [build, buildCvt, baseFields, Fields.withSrc, Fields.withImm, srcOf, Fields.immBits, Fields.withMod, Fields.withScale, satBit, fmodOf, scOf, MxFmt.code, MxFmt.ofCode]
theorem dot2 (h : Hdr) (ty : Ty) (m : FMod) (d : Opd) (a : Opd) (b : Opd) (c : Opd) : Statement (.dot2 h ty m d a b c) := by
  (intro f e; cases e; refine ⟨rfl, fun _ => ?_⟩) <;> simp (disch := omega) [build, buildCvt, baseFields, Fields.withSrc, Fields.withImm, srcOf, Fields.immBits, Fields.withMod, Fields.withScale, satBit, fmodOf, scOf, MxFmt.code, MxFmt.ofCode]
theorem dot4 (h : Hdr) (ty : Ty) (sc : Bool) (xb : Bool) (m : FMod) (d : Opd) (a : Opd) (b : Opd) (c : Opd) : Statement (.dot4 h ty sc xb m d a b c) := by
  cases sc <;> cases xb <;> (intro f e; cases e; refine ⟨rfl, fun _ => ?_⟩) <;> simp (disch := omega) [build, buildCvt, baseFields, Fields.withSrc, Fields.withImm, srcOf, Fields.immBits, Fields.withMod, Fields.withScale, satBit, fmodOf, scOf, MxFmt.code, MxFmt.ofCode]
theorem dot8 (h : Hdr) (sc : Bool) (m : FMod) (d : Opd) (a : Opd) (b : Opd) (c : Opd) : Statement (.dot8 h sc m d a b c) := by
  cases sc <;> (intro f e; cases e; refine ⟨rfl, fun _ => ?_⟩) <;> simp (disch := omega) [build, buildCvt, baseFields, Fields.withSrc, Fields.withImm, srcOf, Fields.immBits, Fields.withMod, Fields.withScale, satBit, fmodOf, scOf, MxFmt.code, MxFmt.ofCode]
theorem scaleApply (h : Hdr) (m : FMod) (d : Opd) (a : Opd) (b : Src) : Statement (.scaleApply h m d a b) := by
  cases b <;> (intro f e; cases e; refine ⟨rfl, fun _ => ?_⟩) <;> simp (disch := omega) [build, buildCvt, baseFields, Fields.withSrc, Fields.withImm, srcOf, Fields.immBits, Fields.withMod, Fields.withScale, satBit, fmodOf, scOf, MxFmt.code, MxFmt.ofCode]
theorem scaleMx (h : Hdr) (f : MxFmt) (d : Opd) (a : Opd) : Statement (.scaleMx h f d a) := by
  cases f <;> (intro f e; cases e; refine ⟨rfl, fun _ => ?_⟩) <;> simp (disch := omega) [build, buildCvt, baseFields, Fields.withSrc, Fields.withImm, srcOf, Fields.immBits, Fields.withMod, Fields.withScale, satBit, fmodOf, scOf, MxFmt.code, MxFmt.ofCode]
theorem amax (h : Hdr) (ty : Ty) (d : Opd) (a : Opd) (b : Opd) : Statement (.amax h ty d a b) := by
  (intro f e; cases e; refine ⟨rfl, fun _ => ?_⟩) <;> simp (disch := omega) [build, buildCvt, baseFields, Fields.withSrc, Fields.withImm, srcOf, Fields.immBits, Fields.withMod, Fields.withScale, satBit, fmodOf, scOf, MxFmt.code, MxFmt.ofCode]
theorem srseed (h : Hdr) (a : Opd) : Statement (.srseed h a) := by
  (intro f e; cases e; refine ⟨rfl, fun _ => ?_⟩) <;> simp (disch := omega) [build, buildCvt, baseFields, Fields.withSrc, Fields.withImm, srcOf, Fields.immBits, Fields.withMod, Fields.withScale, satBit, fmodOf, scOf, MxFmt.code, MxFmt.ofCode]
theorem cbfly (h : Hdr) (m : FMod) (d : Opd) (a : Opd) (b : Opd) (c : Opd) : Statement (.cbfly h m d a b c) := by
  (intro f e; cases e; refine ⟨rfl, fun _ => ?_⟩) <;> simp (disch := omega) [build, buildSig, baseFields, Fields.withSrc, Fields.withImm, srcOf, Fields.immBits, Fields.withMod, fmodOf]
theorem cmul (h : Hdr) (conj : Bool) (m : FMod) (d : Opd) (a : Opd) (b : Opd) : Statement (.cmul h conj m d a b) := by
  cases conj <;> (intro f e; cases e; refine ⟨rfl, fun _ => ?_⟩) <;> simp (disch := omega) [build, buildSig, baseFields, Fields.withSrc, Fields.withImm, srcOf, Fields.immBits, Fields.withMod, fmodOf]
theorem twid (h : Hdr) (d : Opd) (a : Opd) (b : Src) : Statement (.twid h d a b) := by
  cases b <;> (intro f e; cases e; refine ⟨rfl, fun _ => ?_⟩) <;> simp (disch := omega) [build, buildSig, baseFields, Fields.withSrc, Fields.withImm, srcOf, Fields.immBits, Fields.withMod, fmodOf]
theorem ld (h : Hdr) (ty : Ty) (m : LdMod) (d : Opd) (base : Opd) (off : Src) : Statement (.ld h ty m d base off) := by
  cases m <;> cases off <;> (intro f e; cases e; refine ⟨rfl, fun _ => ?_⟩) <;> simp (disch := omega) [build, buildMem, baseFields, fMem, Fields.withSrc, Fields.withImm, srcOf, Fields.immBits, Fields.withLd, Fields.withSt, ldOf, stOf]
theorem st (h : Hdr) (ty : Ty) (m : StMod) (d : Opd) (base : Opd) (off : Src) : Statement (.st h ty m d base off) := by
  cases m <;> cases off <;> (intro f e; cases e; refine ⟨rfl, fun _ => ?_⟩) <;> simp (disch := omega) [build, buildMem, baseFields, fMem, Fields.withSrc, Fields.withImm, srcOf, Fields.immBits, Fields.withLd, Fields.withSt, ldOf, stOf]
theorem ldx (h : Hdr) (n : Fin 4) (m : LdMod) (d : Opd) (base : Opd) (off : Src) : Statement (.ldx h n m d base off) := by
  cases m <;> cases off <;> (intro f e; cases e; refine ⟨rfl, fun _ => ?_⟩) <;> simp (disch := omega) [build, buildMem, baseFields, fMem, Fields.withSrc, Fields.withImm, srcOf, Fields.immBits, Fields.withLd, Fields.withSt, ldOf, stOf]
theorem stx (h : Hdr) (n : Fin 4) (m : StMod) (d : Opd) (base : Opd) (off : Src) : Statement (.stx h n m d base off) := by
  cases m <;> cases off <;> (intro f e; cases e; refine ⟨rfl, fun _ => ?_⟩) <;> simp (disch := omega) [build, buildMem, baseFields, fMem, Fields.withSrc, Fields.withImm, srcOf, Fields.immBits, Fields.withLd, Fields.withSt, ldOf, stOf]
theorem ldu (h : Hdr) (ty : Ty) (m : LdMod) (d : Opd) (base : Opd) (off : Src) : Statement (.ldu h ty m d base off) := by
  cases m <;> cases off <;> (intro f e; cases e; refine ⟨rfl, fun _ => ?_⟩) <;> simp (disch := omega) [build, buildMem, baseFields, fMem, Fields.withSrc, Fields.withImm, srcOf, Fields.immBits, Fields.withLd, Fields.withSt, ldOf, stOf]
theorem stu (h : Hdr) (ty : Ty) (m : StMod) (d : Opd) (base : Opd) (off : Src) : Statement (.stu h ty m d base off) := by
  cases m <;> cases off <;> (intro f e; cases e; refine ⟨rfl, fun _ => ?_⟩) <;> simp (disch := omega) [build, buildMem, baseFields, fMem, Fields.withSrc, Fields.withImm, srcOf, Fields.immBits, Fields.withLd, Fields.withSt, ldOf, stOf]
theorem probe (h : Hdr) (d : Opd) (base : Opd) (off : Src) : Statement (.probe h d base off) := by
  cases off <;> (intro f e; cases e; refine ⟨rfl, fun _ => ?_⟩) <;> simp (disch := omega) [build, buildMem, baseFields, fMem, Fields.withSrc, Fields.withImm, srcOf, Fields.immBits, Fields.withLd, Fields.withSt, ldOf, stOf]
theorem atom (h : Hdr) (op : AtomOp) (ty : Ty) (m : AtMod) (d : Opd) (base : Opd) (b : Opd) (c : Opd) : Statement (.atom h op ty m d base b c) := by
  cases op <;> cases m <;> (intro f e; cases e; refine ⟨rfl, fun _ => ?_⟩) <;> simp (disch := omega) [build, buildAtm, baseFields, fMem, Fields.withSrc, Fields.withImm, srcOf, Fields.immBits, Fields.withLd, Fields.withSt, Fields.withAt, ldOf, stOf, atOf, AtomOp.code, AtomOp.ofCode]
theorem red (h : Hdr) (op : AtomOp) (ty : Ty) (m : StMod) (d : Opd) (base : Opd) (off : Src) : Statement (.red h op ty m d base off) := by
  cases op <;> cases m <;> cases off <;> (intro f e; cases e; refine ⟨rfl, fun _ => ?_⟩) <;> simp (disch := omega) [build, buildAtm, baseFields, fMem, Fields.withSrc, Fields.withImm, srcOf, Fields.immBits, Fields.withLd, Fields.withSt, Fields.withAt, ldOf, stOf, atOf, AtomOp.code, AtomOp.ofCode]
theorem aenq (h : Hdr) (ty : Ty) (m : StMod) (d : Opd) (base : Opd) (b : Opd) : Statement (.aenq h ty m d base b) := by
  cases m <;> (intro f e; cases e; refine ⟨rfl, fun _ => ?_⟩) <;> simp (disch := omega) [build, buildAtm, baseFields, fMem, Fields.withSrc, Fields.withImm, srcOf, Fields.immBits, Fields.withLd, Fields.withSt, Fields.withAt, ldOf, stOf, atOf, AtomOp.code, AtomOp.ofCode]
theorem adeq (h : Hdr) (m : LdMod) (d : Opd) (base : Opd) (off : Src) : Statement (.adeq h m d base off) := by
  cases m <;> cases off <;> (intro f e; cases e; refine ⟨rfl, fun _ => ?_⟩) <;> simp (disch := omega) [build, buildAtm, baseFields, fMem, Fields.withSrc, Fields.withImm, srcOf, Fields.immBits, Fields.withLd, Fields.withSt, Fields.withAt, ldOf, stOf, atOf, AtomOp.code, AtomOp.ofCode]
theorem fence (h : Hdr) (k : FenceKind) (sc : Scope) : Statement (.fence h k sc) := by
  cases k <;> (intro f e; cases e; refine ⟨rfl, fun _ => ?_⟩) <;> simp (disch := omega) [build, buildSync, baseFields, Fields.withSrc, Fields.withImm, srcOf, Fields.immBits, FenceKind.code, FenceKind.ofCode, Eng.code, Eng.ofCode]
theorem waitc (h : Hdr) (cls : Eng) (n : Fin 64) : Statement (.waitc h cls n) := by
  cases cls <;> (intro f e; cases e; refine ⟨rfl, fun _ => ?_⟩) <;> simp (disch := omega) [build, buildSync, baseFields, Fields.withSrc, Fields.withImm, srcOf, Fields.immBits, FenceKind.code, FenceKind.ofCode, Eng.code, Eng.ofCode]
theorem jinit (h : Hdr) (j : Fin 24) (e : Option Src) : Statement (.jinit h j e) := by
  rcases e with _ | (_ | _) <;> (intro f e; cases e; refine ⟨rfl, fun _ => ?_⟩) <;> simp (disch := omega) [build, buildSync, baseFields, Fields.withSrc, Fields.withImm, srcOf, Fields.immBits, FenceKind.code, FenceKind.ofCode, Eng.code, Eng.ofCode]
theorem jarr (h : Hdr) (j : Fin 24) (d : Opd) : Statement (.jarr h j d) := by
  (intro f e; cases e; refine ⟨rfl, fun _ => ?_⟩) <;> simp (disch := omega) [build, buildSync, baseFields, Fields.withSrc, Fields.withImm, srcOf, Fields.immBits, FenceKind.code, FenceKind.ofCode, Eng.code, Eng.ofCode]
theorem jwait (h : Hdr) (j : Fin 24) : Statement (.jwait h j) := by
  (intro f e; cases e; refine ⟨rfl, fun _ => ?_⟩) <;> simp (disch := omega) [build, buildSync, baseFields, Fields.withSrc, Fields.withImm, srcOf, Fields.immBits, FenceKind.code, FenceKind.ofCode, Eng.code, Eng.ofCode]
theorem jarrw (h : Hdr) (j : Fin 24) (d : Opd) : Statement (.jarrw h j d) := by
  (intro f e; cases e; refine ⟨rfl, fun _ => ?_⟩) <;> simp (disch := omega) [build, buildSync, baseFields, Fields.withSrc, Fields.withImm, srcOf, Fields.immBits, FenceKind.code, FenceKind.ofCode, Eng.code, Eng.ofCode]
theorem wpinit (h : Hdr) (base : Opd) (b : Opd) (c : Opd) : Statement (.wpinit h base b c) := by
  (intro f e; cases e; refine ⟨rfl, fun _ => ?_⟩) <;> simp (disch := omega) [build, buildSync, baseFields, Fields.withSrc, Fields.withImm, srcOf, Fields.immBits, FenceKind.code, FenceKind.ofCode, Eng.code, Eng.ofCode]
theorem wparr (h : Hdr) (noarr : Bool) (base : Opd) (b : Src) : Statement (.wparr h noarr base b) := by
  cases noarr <;> cases b <;> (intro f e; cases e; refine ⟨rfl, fun _ => ?_⟩) <;> simp (disch := omega) [build, buildSync, baseFields, Fields.withSrc, Fields.withImm, srcOf, Fields.immBits, FenceKind.code, FenceKind.ofCode, Eng.code, Eng.ofCode]
theorem wpwait (h : Hdr) (d : Opd) (base : Opd) (b : Opd) (c : Opd) : Statement (.wpwait h d base b c) := by
  (intro f e; cases e; refine ⟨rfl, fun _ => ?_⟩) <;> simp (disch := omega) [build, buildSync, baseFields, Fields.withSrc, Fields.withImm, srcOf, Fields.immBits, FenceKind.code, FenceKind.ofCode, Eng.code, Eng.ofCode]
theorem bra (h : Hdr) (k : Imm) : Statement (.bra h k) := by
  (intro f e; cases e; refine ⟨rfl, fun _ => ?_⟩) <;> simp (disch := omega) [build, buildCtl, baseFields, Fields.withSrc, Fields.withImm, srcOf, Fields.immBits]
theorem brx (h : Hdr) (a : Opd) : Statement (.brx h a) := by
  (intro f e; cases e; refine ⟨rfl, fun _ => ?_⟩) <;> simp (disch := omega) [build, buildCtl, baseFields, Fields.withSrc, Fields.withImm, srcOf, Fields.immBits]
theorem call (h : Hdr) (k : Imm) : Statement (.call h k) := by
  (intro f e; cases e; refine ⟨rfl, fun _ => ?_⟩) <;> simp (disch := omega) [build, buildCtl, baseFields, Fields.withSrc, Fields.withImm, srcOf, Fields.immBits]
theorem callx (h : Hdr) (a : Opd) : Statement (.callx h a) := by
  (intro f e; cases e; refine ⟨rfl, fun _ => ?_⟩) <;> simp (disch := omega) [build, buildCtl, baseFields, Fields.withSrc, Fields.withImm, srcOf, Fields.immBits]
theorem ret (h : Hdr) : Statement (.ret h) := by
  (intro f e; cases e; refine ⟨rfl, fun _ => ?_⟩) <;> simp (disch := omega) [build, buildCtl, baseFields, Fields.withSrc, Fields.withImm, srcOf, Fields.immBits]
theorem cvset (h : Hdr) (c : Fin 8) : Statement (.cvset h c) := by
  revert c; intro c; rcases c with ⟨c, w⟩
  (intro f e; cases e; refine ⟨rfl, fun _ => ?_⟩) <;> interval_cases c <;> simp (disch := omega) [build, buildCtl, baseFields, Fields.withSrc, Fields.withImm, srcOf, Fields.immBits] <;> rfl
theorem cvsetIdle (h : Hdr) (c : Fin 8) : Statement (.cvsetIdle h c) := by
  revert c; intro c; rcases c with ⟨c, w⟩
  (intro f e; cases e; refine ⟨rfl, fun _ => ?_⟩) <;> interval_cases c <;> simp (disch := omega) [build, buildCtl, baseFields, Fields.withSrc, Fields.withImm, srcOf, Fields.immBits] <;> rfl
theorem cvwait (h : Hdr) (c : Fin 8) (d : Opd) (b : Src) : Statement (.cvwait h c d b) := by
  cases b <;> (intro f e; cases e; refine ⟨rfl, fun _ => ?_⟩) <;> simp (disch := omega) [build, buildCtl, baseFields, Fields.withSrc, Fields.withImm, srcOf, Fields.immBits]
theorem exit (h : Hdr) : Statement (.exit h) := by
  (intro f e; cases e; refine ⟨rfl, fun _ => ?_⟩) <;> simp (disch := omega) [build, buildCtl, baseFields, Fields.withSrc, Fields.withImm, srcOf, Fields.immBits]
theorem yield (h : Hdr) : Statement (.yield h) := by
  (intro f e; cases e; refine ⟨rfl, fun _ => ?_⟩) <;> simp (disch := omega) [build, buildCtl, baseFields, Fields.withSrc, Fields.withImm, srcOf, Fields.immBits]
theorem nop (h : Hdr) : Statement (.nop h) := by
  (intro f e; cases e; refine ⟨rfl, fun _ => ?_⟩) <;> simp (disch := omega) [build, buildCtl, baseFields, Fields.withSrc, Fields.withImm, srcOf, Fields.immBits]
theorem brk (h : Hdr) (x : Imm) : Statement (.brk h x) := by
  (intro f e; cases e; refine ⟨rfl, fun _ => ?_⟩) <;> simp (disch := omega) [build, buildCtl, baseFields, Fields.withSrc, Fields.withImm, srcOf, Fields.immBits]
theorem sleep (h : Hdr) (b : Src) : Statement (.sleep h b) := by
  cases b <;> (intro f e; cases e; refine ⟨rfl, fun _ => ?_⟩) <;> simp (disch := omega) [build, buildCtl, baseFields, Fields.withSrc, Fields.withImm, srcOf, Fields.immBits]
theorem qswz (h : Hdr) (ty : Ty) (d : Opd) (a : Opd) (b : Src) : Statement (.qswz h ty d a b) := by
  cases b <;> (intro f e; cases e; refine ⟨rfl, fun _ => ?_⟩) <;> simp (disch := omega) [build, buildXch, baseFields, Fields.withSrc, Fields.withImm, srcOf, Fields.immBits, XScope.code, XScope.ofCode, RedOp.code, RedOp.ofCode, VoteKind.code, VoteKind.ofCode, ShMode.code, ShMode.ofCode]
theorem shfl (h : Hdr) (mode : ShMode) (ty : Ty) (d : Opd) (a : Opd) (b : Src) : Statement (.shfl h mode ty d a b) := by
  cases mode <;> cases b <;> (intro f e; cases e; refine ⟨rfl, fun _ => ?_⟩) <;> simp (disch := omega) [build, buildXch, baseFields, Fields.withSrc, Fields.withImm, srcOf, Fields.immBits, XScope.code, XScope.ofCode, RedOp.code, RedOp.ofCode, VoteKind.code, VoteKind.ofCode, ShMode.code, ShMode.ofCode]
theorem vote (h : Hdr) (k : VoteKind) (sc : XScope) (d : Opd) (a : Opd) : Statement (.vote h k sc d a) := by
  cases k <;> cases sc <;> (intro f e; cases e; refine ⟨rfl, fun _ => ?_⟩) <;> simp (disch := omega) [build, buildXch, baseFields, Fields.withSrc, Fields.withImm, srcOf, Fields.immBits, XScope.code, XScope.ofCode, RedOp.code, RedOp.ofCode, VoteKind.code, VoteKind.ofCode, ShMode.code, ShMode.ofCode]
theorem tred (h : Hdr) (op : RedOp) (sc : XScope) (ty : Ty) (d : Opd) (a : Opd) : Statement (.tred h op sc ty d a) := by
  cases op <;> cases sc <;> (intro f e; cases e; refine ⟨rfl, fun _ => ?_⟩) <;> simp (disch := omega) [build, buildXch, baseFields, Fields.withSrc, Fields.withImm, srcOf, Fields.immBits, XScope.code, XScope.ofCode, RedOp.code, RedOp.ofCode, VoteKind.code, VoteKind.ofCode, ShMode.code, ShMode.ofCode]
theorem tscan (h : Hdr) (op : RedOp) (sc : XScope) (ty : Ty) (excl : Bool) (d : Opd) (a : Opd) : Statement (.tscan h op sc ty excl d a) := by
  cases op <;> cases sc <;> cases excl <;> (intro f e; cases e; refine ⟨rfl, fun _ => ?_⟩) <;> simp (disch := omega) [build, buildXch, baseFields, Fields.withSrc, Fields.withImm, srcOf, Fields.immBits, XScope.code, XScope.ofCode, RedOp.code, RedOp.ofCode, VoteKind.code, VoteKind.ofCode, ShMode.code, ShMode.ofCode]
theorem matchv (h : Hdr) (sc : XScope) (ty : Ty) (d : Opd) (a : Opd) : Statement (.matchv h sc ty d a) := by
  cases sc <;> (intro f e; cases e; refine ⟨rfl, fun _ => ?_⟩) <;> simp (disch := omega) [build, buildXch, baseFields, Fields.withSrc, Fields.withImm, srcOf, Fields.immBits, XScope.code, XScope.ofCode, RedOp.code, RedOp.ofCode, VoteKind.code, VoteKind.ofCode, ShMode.code, ShMode.ofCode]
theorem elect (h : Hdr) (d : Opd) : Statement (.elect h d) := by
  (intro f e; cases e; refine ⟨rfl, fun _ => ?_⟩) <;> simp (disch := omega) [build, buildXch, baseFields, Fields.withSrc, Fields.withImm, srcOf, Fields.immBits, XScope.code, XScope.ofCode, RedOp.code, RedOp.ofCode, VoteKind.code, VoteKind.ofCode, ShMode.code, ShMode.ofCode]
theorem umov (h : Hdr) (ty : Ty) (d : Opd) (a : Opd) (b : Src) : Statement (.umov h ty d a b) := by
  cases b <;> (intro f e; cases e; refine ⟨rfl, fun _ => ?_⟩) <;> simp (disch := omega) [build, buildXch, baseFields, Fields.withSrc, Fields.withImm, srcOf, Fields.immBits, XScope.code, XScope.ofCode, RedOp.code, RedOp.ofCode, VoteKind.code, VoteKind.ofCode, ShMode.code, ShMode.ofCode]
theorem mma (h : Hdr) (a : Opd) : Statement (.mma h a) := by
  (intro f e; cases e; refine ⟨rfl, fun _ => ?_⟩) <;> simp (disch := omega) [build, buildMma, baseFields, Fields.withSrc, Fields.withImm, srcOf, Fields.immBits]
theorem accld (h : Hdr) (base : Opd) (tile : Fin 64) : Statement (.accld h base tile) := by
  (intro f e; cases e; refine ⟨rfl, fun _ => ?_⟩) <;> simp (disch := omega) [build, buildMma, baseFields, Fields.withSrc, Fields.withImm, srcOf, Fields.immBits]
theorem accst (h : Hdr) (base : Opd) (tile : Fin 64) : Statement (.accst h base tile) := by
  (intro f e; cases e; refine ⟨rfl, fun _ => ?_⟩) <;> simp (disch := omega) [build, buildMma, baseFields, Fields.withSrc, Fields.withImm, srcOf, Fields.immBits]
theorem accz (h : Hdr) (tile : Fin 64) : Statement (.accz h tile) := by
  (intro f e; cases e; refine ⟨rfl, fun _ => ?_⟩) <;> simp (disch := omega) [build, buildMma, baseFields, Fields.withSrc, Fields.withImm, srcOf, Fields.immBits]
theorem accout (h : Hdr) (a : Opd) (dest : Opd) (scale : Opd) : Statement (.accout h a dest scale) := by
  (intro f e; cases e; refine ⟨rfl, fun _ => ?_⟩) <;> simp (disch := omega) [build, buildMma, baseFields, Fields.withSrc, Fields.withImm, srcOf, Fields.immBits]
theorem rsvop (h : Hdr) (r : Fin 15) (d : Opd) (b : Src) : Statement (.rsvop h r d b) := by
  cases b <;> (intro f e; cases e; refine ⟨rfl, fun _ => ?_⟩) <;> simp (disch := omega) [build, buildMma, baseFields, Fields.withSrc, Fields.withImm, srcOf, Fields.immBits]
theorem rlsop (h : Hdr) (r : Fin 15) : Statement (.rlsop h r) := by
  (intro f e; cases e; refine ⟨rfl, fun _ => ?_⟩) <;> simp (disch := omega) [build, buildMma, baseFields, Fields.withSrc, Fields.withImm, srcOf, Fields.immBits]
theorem ldscl (h : Hdr) (r : Fin 15) (base : Opd) (n : Imm) : Statement (.ldscl h r base n) := by
  (intro f e; cases e; refine ⟨rfl, fun _ => ?_⟩) <;> simp (disch := omega) [build, buildMma, baseFields, Fields.withSrc, Fields.withImm, srcOf, Fields.immBits]
theorem copy (h : Hdr) (base : Opd) (n : Src) : Statement (.copy h base n) := by
  cases n <;> (intro f e; cases e; refine ⟨rfl, fun _ => ?_⟩) <;> simp (disch := omega) [build, buildCopy, baseFields, Fields.withSrc, Fields.withImm, srcOf, Fields.immBits]
theorem copyl (h : Hdr) (nopres : Bool) (dst : Opd) (src : Opd) (n : Src) (wp : Opd) : Statement (.copyl h nopres dst src n wp) := by
  cases n <;> cases nopres <;> (intro f e; cases e; refine ⟨rfl, fun w => ?_⟩) <;> (try simp [Instr.wfWaypoint] at w) <;> (try subst w) <;> simp (disch := omega) [build, buildCopy, baseFields, Fields.withSrc, Fields.withImm, srcOf, Fields.immBits]
theorem coll (h : Hdr) (base : Opd) : Statement (.coll h base) := by
  (intro f e; cases e; refine ⟨rfl, fun _ => ?_⟩) <;> simp (disch := omega) [build, buildCopy, baseFields, Fields.withSrc, Fields.withImm, srcOf, Fields.immBits]
theorem cstat (h : Hdr) (d : Opd) : Statement (.cstat h d) := by
  (intro f e; cases e; refine ⟨rfl, fun _ => ?_⟩) <;> simp (disch := omega) [build, buildCopy, baseFields, Fields.withSrc, Fields.withImm, srcOf, Fields.immBits]
theorem dreg (h : Hdr) (d : Opd) (base : Opd) : Statement (.dreg h d base) := by
  (intro f e; cases e; refine ⟨rfl, fun _ => ?_⟩) <;> simp (disch := omega) [build, buildTns, baseFields, Fields.withSrc, Fields.withImm, srcOf, Fields.immBits]
theorem dunreg (h : Hdr) (d : Opd) (b : Src) : Statement (.dunreg h d b) := by
  cases b <;> (intro f e; cases e; refine ⟨rfl, fun _ => ?_⟩) <;> simp (disch := omega) [build, buildTns, baseFields, Fields.withSrc, Fields.withImm, srcOf, Fields.immBits]
theorem dstat (h : Hdr) (d : Opd) (b : Src) : Statement (.dstat h d b) := by
  cases b <;> (intro f e; cases e; refine ⟨rfl, fun _ => ?_⟩) <;> simp (disch := omega) [build, buildTns, baseFields, Fields.withSrc, Fields.withImm, srcOf, Fields.immBits]
theorem dfresh (h : Hdr) (b : Src) : Statement (.dfresh h b) := by
  cases b <;> (intro f e; cases e; refine ⟨rfl, fun _ => ?_⟩) <;> simp (disch := omega) [build, buildTns, baseFields, Fields.withSrc, Fields.withImm, srcOf, Fields.immBits]
theorem trap (h : Hdr) (x : Imm) : Statement (.trap h x) := by
  (intro f e; cases e; refine ⟨rfl, fun _ => ?_⟩) <;> simp (disch := omega) [build, buildSys, baseFields, Fields.withSrc, Fields.withImm, srcOf, Fields.immBits, CtxPart.code, CtxPart.ofCode]
theorem svc (h : Hdr) (d : Opd) (base : Opd) (b : Src) : Statement (.svc h d base b) := by
  cases b <;> (intro f e; cases e; refine ⟨rfl, fun _ => ?_⟩) <;> simp (disch := omega) [build, buildSys, baseFields, Fields.withSrc, Fields.withImm, srcOf, Fields.immBits, CtxPart.code, CtxPart.ofCode]
theorem svcPark (h : Hdr) (d : Opd) (base : Opd) (b : Src) : Statement (.svcPark h d base b) := by
  cases b <;> (intro f e; cases e; refine ⟨rfl, fun _ => ?_⟩) <;> simp (disch := omega) [build, buildSys, baseFields, Fields.withSrc, Fields.withImm, srcOf, Fields.immBits, CtxPart.code, CtxPart.ofCode]
theorem csrr (h : Hdr) (d : Opd) (b : Src) : Statement (.csrr h d b) := by
  cases b <;> (intro f e; cases e; refine ⟨rfl, fun _ => ?_⟩) <;> simp (disch := omega) [build, buildSys, baseFields, Fields.withSrc, Fields.withImm, srcOf, Fields.immBits, CtxPart.code, CtxPart.ofCode]
theorem csrw (h : Hdr) (a : Opd) (b : Src) : Statement (.csrw h a b) := by
  cases b <;> (intro f e; cases e; refine ⟨rfl, fun _ => ?_⟩) <;> simp (disch := omega) [build, buildSys, baseFields, Fields.withSrc, Fields.withImm, srcOf, Fields.immBits, CtxPart.code, CtxPart.ofCode]
theorem rtt (h : Hdr) : Statement (.rtt h) := by
  (intro f e; cases e; refine ⟨rfl, fun _ => ?_⟩) <;> simp (disch := omega) [build, buildSys, baseFields, Fields.withSrc, Fields.withImm, srcOf, Fields.immBits, CtxPart.code, CtxPart.ofCode]
theorem launch (h : Hdr) (d : Opd) (base : Opd) (b : Src) : Statement (.launch h d base b) := by
  cases b <;> (intro f e; cases e; refine ⟨rfl, fun _ => ?_⟩) <;> simp (disch := omega) [build, buildSys, baseFields, Fields.withSrc, Fields.withImm, srcOf, Fields.immBits, CtxPart.code, CtxPart.ofCode]
theorem gate (h : Hdr) : Statement (.gate h) := by
  (intro f e; cases e; refine ⟨rfl, fun _ => ?_⟩) <;> simp (disch := omega) [build, buildSys, baseFields, Fields.withSrc, Fields.withImm, srcOf, Fields.immBits, CtxPart.code, CtxPart.ofCode]
theorem release (h : Hdr) : Statement (.release h) := by
  (intro f e; cases e; refine ⟨rfl, fun _ => ?_⟩) <;> simp (disch := omega) [build, buildSys, baseFields, Fields.withSrc, Fields.withImm, srcOf, Fields.immBits, CtxPart.code, CtxPart.ofCode]
theorem savectx (h : Hdr) (part : CtxPart) (base : Opd) : Statement (.savectx h part base) := by
  cases part <;> (intro f e; cases e; refine ⟨rfl, fun _ => ?_⟩) <;> simp (disch := omega) [build, buildSys, baseFields, Fields.withSrc, Fields.withImm, srcOf, Fields.immBits, CtxPart.code, CtxPart.ofCode]
theorem loadctx (h : Hdr) (part : CtxPart) (base : Opd) : Statement (.loadctx h part base) := by
  cases part <;> (intro f e; cases e; refine ⟨rfl, fun _ => ?_⟩) <;> simp (disch := omega) [build, buildSys, baseFields, Fields.withSrc, Fields.withImm, srcOf, Fields.immBits, CtxPart.code, CtxPart.ofCode]
theorem hazardClear (t : Nat) (l : Nat) : Statement (.hazardClear t l) := fun _ e => nomatch e
theorem bundleRebuild (stage : Nat) (wing : Nat) : Statement (.bundleRebuild stage wing) := fun _ e => nomatch e
theorem starvationBound (stage : Nat) (wing : Nat) (k : Nat) : Statement (.starvationBound stage wing k) := fun _ e => nomatch e
theorem unitRefill (t : Nat) (l : Nat) : Statement (.unitRefill t l) := fun _ e => nomatch e
theorem readbackComplete (t : Nat) (l : Nat) : Statement (.readbackComplete t l) := fun _ e => nomatch e
theorem plainLoad (id : Nat) : Statement (.plainLoad id) := fun _ e => nomatch e
theorem plainStore (id : Nat) : Statement (.plainStore id) := fun _ e => nomatch e
theorem roLoad (id : Nat) (cached : Bool) : Statement (.roLoad id cached) := fun _ e => nomatch e
theorem windowAdd (id : Nat) : Statement (.windowAdd id) := fun _ e => nomatch e
theorem windowMax (id : Nat) : Statement (.windowMax id) := fun _ e => nomatch e
theorem windowMin (id : Nat) : Statement (.windowMin id) := fun _ e => nomatch e
theorem windowOr (id : Nat) : Statement (.windowOr id) := fun _ e => nomatch e
theorem windowAnd (id : Nat) : Statement (.windowAnd id) := fun _ e => nomatch e
theorem castDelivery (id : Nat) (k : Nat) : Statement (.castDelivery id k) := fun _ e => nomatch e
theorem enq (id : Nat) : Statement (.enq id) := fun _ e => nomatch e
theorem deq (id : Nat) : Statement (.deq id) := fun _ e => nomatch e
theorem take (id : Nat) : Statement (.take id) := fun _ e => nomatch e
theorem count (id : Nat) : Statement (.count id) := fun _ e => nomatch e
theorem await (id : Nat) : Statement (.await id) := fun _ e => nomatch e
theorem awaitLimitExpiry (id : Nat) : Statement (.awaitLimitExpiry id) := fun _ e => nomatch e
theorem agentHoldLimitExpiry (id : Nat) : Statement (.agentHoldLimitExpiry id) := fun _ e => nomatch e
theorem parkReport (id : Nat) : Statement (.parkReport id) := fun _ e => nomatch e
theorem loadCompletion (id : Nat) (reply : Dword) : Statement (.loadCompletion id reply) := fun _ e => nomatch e
theorem cvwaitTimeout (t : Nat) (l : Nat) : Statement (.cvwaitTimeout t l) := fun _ e => nomatch e
theorem wpwaitTimeout (t : Nat) (l : Nat) : Statement (.wpwaitTimeout t l) := fun _ e => nomatch e
theorem sleepExpiry (t : Nat) (l : Nat) : Statement (.sleepExpiry t l) := fun _ e => nomatch e
theorem operandReadCompletion (t : Nat) (op : Nat) : Statement (.operandReadCompletion t op) := fun _ e => nomatch e
theorem mmaCompletion (t : Nat) (op : Nat) : Statement (.mmaCompletion t op) := fun _ e => nomatch e
theorem engineCounterFall (t : Nat) (cls : Eng) : Statement (.engineCounterFall t cls) := fun _ e => nomatch e
theorem copyChunkLanding (c : Nat) (k : Nat) (data : Payload) : Statement (.copyChunkLanding c k data) := fun _ e => nomatch e
theorem copyCompletion (c : Nat) : Statement (.copyCompletion c) := fun _ e => nomatch e
theorem waypointUpdate (k : Nat) : Statement (.waypointUpdate k) := fun _ e => nomatch e
theorem collDelivery (c : Nat) (off : Nat) (data : CollData) : Statement (.collDelivery c off data) := fun _ e => nomatch e
theorem collTimeout (c : Nat) : Statement (.collTimeout c) := fun _ e => nomatch e
theorem staleMark (k : Nat) : Statement (.staleMark k) := fun _ e => nomatch e
theorem markAck (id : Nat) : Statement (.markAck id) := fun _ e => nomatch e
theorem derivedLoad (id : Nat) : Statement (.derivedLoad id) := fun _ e => nomatch e
theorem recomputeStart (slice : Nat) : Statement (.recomputeStart slice) := fun _ e => nomatch e
theorem recomputeEnd (slice : Nat) : Statement (.recomputeEnd slice) := fun _ e => nomatch e
theorem derivedWriteDrop (id : Nat) : Statement (.derivedWriteDrop id) := fun _ e => nomatch e
theorem handlerEntry (t : Nat) : Statement (.handlerEntry t) := fun _ e => nomatch e
theorem preempt (c : Nat) : Statement (.preempt c) := fun _ e => nomatch e
theorem eviction (t : Nat) : Statement (.eviction t) := fun _ e => nomatch e
theorem restore (c : Nat) (stages : List Nat) : Statement (.restore c stages) := fun _ e => nomatch e
theorem troupeRetire (t : Nat) : Statement (.troupeRetire t) := fun _ e => nomatch e
theorem companyPlacement (r : Nat) : Statement (.companyPlacement r) := fun _ e => nomatch e
theorem preemptRaise (r : Nat) : Statement (.preemptRaise r) := fun _ e => nomatch e
theorem gateOpen (r : Nat) : Statement (.gateOpen r) := fun _ e => nomatch e
theorem deterministicMilestone (r : Nat) (kind : Nat) : Statement (.deterministicMilestone r kind) := fun _ e => nomatch e
theorem callboardPlace (r : Nat) : Statement (.callboardPlace r) := fun _ e => nomatch e
theorem callboardTimer (r : Nat) : Statement (.callboardTimer r) := fun _ e => nomatch e
theorem prompterWake (q : Nat) : Statement (.prompterWake q) := fun _ e => nomatch e
theorem slotReread (q : Nat) : Statement (.slotReread q) := fun _ e => nomatch e
theorem packetNop (q : Nat) : Statement (.packetNop q) := fun _ e => nomatch e
theorem runPacket (q : Nat) : Statement (.runPacket q) := fun _ e => nomatch e
theorem waitPacket (q : Nat) : Statement (.waitPacket q) := fun _ e => nomatch e
theorem waitConditionMet (q : Nat) : Statement (.waitConditionMet q) := fun _ e => nomatch e
theorem signal (q : Nat) : Statement (.signal q) := fun _ e => nomatch e
theorem indirect (q : Nat) : Statement (.indirect q) := fun _ e => nomatch e
theorem svcDone (t : Nat) (l : Nat) : Statement (.svcDone t l) := fun _ e => nomatch e
theorem qmapEnable (q : Nat) (x : Dword) : Statement (.qmapEnable q x) := fun _ e => nomatch e
theorem qmapDisable (q : Nat) (x : Dword) : Statement (.qmapDisable q x) := fun _ e => nomatch e
theorem registerStagedWrite (port : Port) (off : Nat) (size : Nat) (x : Dword) : Statement (.registerStagedWrite port off size x) := fun _ e => nomatch e
theorem registerWrite (port : Port) (off : Nat) (size : Nat) (x : Dword) : Statement (.registerWrite port off size x) := fun _ e => nomatch e
theorem hwakeEnable (n : Nat) (x : Dword) : Statement (.hwakeEnable n x) := fun _ e => nomatch e
theorem errcntClear (n : Nat) (x : Word) : Statement (.errcntClear n x) := fun _ e => nomatch e
theorem counterClear (off : Nat) (x : Word) : Statement (.counterClear off x) := fun _ e => nomatch e
theorem timeset (x : Dword) : Statement (.timeset x) := fun _ e => nomatch e
theorem xinv (x : Dword) : Statement (.xinv x) := fun _ e => nomatch e
theorem xinvComplete : Statement .xinvComplete := fun _ e => nomatch e
theorem xrespRetry (x : Dword) : Statement (.xrespRetry x) := fun _ e => nomatch e
theorem xrespFail (x : Dword) : Statement (.xrespFail x) := fun _ e => nomatch e
theorem regionTableWrite (die : Nat) (r : Nat) (x : Word) : Statement (.regionTableWrite die r x) := fun _ e => nomatch e
theorem regionMoveSet (die : Nat) (r : Nat) (x : Word) : Statement (.regionMoveSet die r x) := fun _ e => nomatch e
theorem retryAfterExpiry (id : Nat) : Statement (.retryAfterExpiry id) := fun _ e => nomatch e
theorem remoteRefusalTimeout (id : Nat) : Statement (.remoteRefusalTimeout id) := fun _ e => nomatch e
theorem deviceTranslationFault (k : Nat) : Statement (.deviceTranslationFault k) := fun _ e => nomatch e
theorem faultReportRetry (k : Nat) : Statement (.faultReportRetry k) := fun _ e => nomatch e
theorem faultTimeout (k : Nat) : Statement (.faultTimeout k) := fun _ e => nomatch e
theorem atsTranslationCompletion (pasid : Nat) (page : Nat) (r : Bool) (w : Bool) (pa : Nat) (pages : Nat) : Statement (.atsTranslationCompletion pasid page r w pa pages) := fun _ e => nomatch e
theorem priPageResponse (k : Nat) (code : Nat) : Statement (.priPageResponse k code) := fun _ e => nomatch e
theorem pageRequestTimeout (k : Nat) : Statement (.pageRequestTimeout k) := fun _ e => nomatch e
theorem atsInvalidationRequest (pasid : Nat) (page : Nat) (pages : Nat) (tag : Nat) : Statement (.atsInvalidationRequest pasid page pages tag) := fun _ e => nomatch e
theorem translationFailure (c : Nat) : Statement (.translationFailure c) := fun _ e => nomatch e
theorem windowApertureRequest (r : PcieReq) : Statement (.windowApertureRequest r) := fun _ e => nomatch e
theorem completionTimeout (id : Nat) : Statement (.completionTimeout id) := fun _ e => nomatch e
theorem skasonRemoteAccess (r : SkReq) : Statement (.skasonRemoteAccess r) := fun _ e => nomatch e
theorem skasonForward (r : SkReq) : Statement (.skasonForward r) := fun _ e => nomatch e
theorem linkDown (l : Nat) : Statement (.linkDown l) := fun _ e => nomatch e
theorem linkAckTimeout (id : Nat) : Statement (.linkAckTimeout id) := fun _ e => nomatch e
theorem timeMessage (link : Nat) (master : Option (Nat × Nat)) (msg : TimeMsg) : Statement (.timeMessage link master msg) := fun _ e => nomatch e
theorem coldReset : Statement .coldReset := fun _ e => nomatch e
theorem functionLevelReset : Statement .functionLevelReset := fun _ e => nomatch e
theorem wipeComplete : Statement .wipeComplete := fun _ e => nomatch e
theorem eccError (kind : Nat) (loc : Nat) (corrected : Bool) : Statement (.eccError kind loc corrected) := fun _ e => nomatch e
theorem getVersion : Statement .getVersion := fun _ e => nomatch e
theorem getCapabilities : Statement .getCapabilities := fun _ e => nomatch e
theorem negotiateAlgorithms (ecdsaP256 : Bool) (sha256 : Bool) : Statement (.negotiateAlgorithms ecdsaP256 sha256) := fun _ e => nomatch e
theorem getDigests : Statement .getDigests := fun _ e => nomatch e
theorem getCertificate (off : Nat) (len : Nat) : Statement (.getCertificate off len) := fun _ e => nomatch e
theorem challenge (nonce : Nat) : Statement (.challenge nonce) := fun _ e => nomatch e
theorem getMeasurements (block : Nat) : Statement (.getMeasurements block) := fun _ e => nomatch e
theorem ownerChange : Statement .ownerChange := fun _ e => nomatch e
theorem firmwareImage (x : FwImage) : Statement (.firmwareImage x) := fun _ e => nomatch e
theorem setPowerLimit (w : Nat) : Statement (.setPowerLimit w) := fun _ e => nomatch e
theorem powerAverage (w : Nat) : Statement (.powerAverage w) := fun _ e => nomatch e
theorem thermalTrip (c : Nat) : Statement (.thermalTrip c) := fun _ e => nomatch e
theorem linkTrained (l : Nat) : Statement (.linkTrained l) := fun _ e => nomatch e
theorem functionReady (bit : Nat) : Statement (.functionReady bit) := fun _ e => nomatch e
end Sys2Proof.Laws.Encoded
end

