-- ==== Sys2Proof/Tests/Slice0.lean ====
section
/-! SUPPORT. Small tests: words decode to their instructions, ill-formed terms are refused, single steps give what the rules
say, and every statement's hypotheses are met somewhere. Expected values come from the spec's encodings, tables and examples, or
from arithmetic by hand on its rules. -/

set_option Elab.async false

namespace Sys2Proof.Tests

open Sys2Proof Sys2Proof.Machine

/-! ### Helpers -/

/-- Guard pt, a clause start with no flags. -/
def H : Hdr := ⟨7, false, true, false, .none, none, none, 0⟩
/-- The same with a guard of p0. -/
def HP : Hdr := { H with pred := 0 }
def m0 : FMod := ⟨.rne, false, false⟩
def bad (i : Instr) (f : Instr → Bool) : Bool := !f i

/-- `i` passes every check of R167 for the bundle at the cursor, and no flag of its WAIT mask is busy. -/
def ok (i : Instr) (s : State) : Bool :=
  match fieldsOf i with
  | none => false
  | some f =>
    let c := ctxOf s (hdrOf f)
    issuable s && (encTrap s c f (privOf i s c)).isNone && !(c.hdr.cs && (s.troupe c.t).busy &&& c.hdr.wait != 0)
/-- How the instruction's own rules see the bundle at the cursor. -/
def cx (i : Instr) (s : State) : Ctx :=
  match fieldsOf i with
  | none => ⟨0, 0, 0, 0, H⟩
  | some f => ctxOf s (hdrOf f)

/-- The premise of the statements about encoded instructions, from a check that can be evaluated. -/
theorem issues_of_ok {i : Instr} {s : State} (h : ok i s = true) : IssuesP (privOf i) i s (cx i s) := by
  simp only [ok] at h
  split at h
  · cases h
  · rename_i f e
    simp only [Bool.and_eq_true, Bool.not_eq_true', Option.isNone_iff_eq_none] at h
    have ec : cx i s = ctxOf s (hdrOf f) := by simp only [cx, e]
    exact ⟨h.1.1, ⟨f, e, ec, by rw [ec]; exact h.1.2⟩, by rw [ec]; exact h.2⟩
theorem issues_all {s : State} {is : List Instr} (h : is.all (fun i => ok i s) = true) :
    ∀ i ∈ is, IssuesP (privOf i) i s (cx i s) := fun i m => issues_of_ok (List.all_eq_true.mp h i m)

/-- A claim about the lanes of a mask, from the 32 lanes there are. -/
theorem on_lanes {m : Mask} {P : Nat → Prop} (h : ∀ l < 32, hasLane m l = true → P l) : ∀ l, hasLane m l = true → P l :=
  fun l hl => h l (by
    by_contra hn
    simp only [hasLane] at hl
    have := BitVec.getLsbD_of_ge m l (by omega)
    simp_all) hl

/-- Lanes 0 and 1 of one RESIDENT troupe, key 256, all 32 threads READY at PC 0; region 0 of the scratchpad is the run's. -/
def lab : State :=
  let s := State.reset.withFetchWord 96 0
  { s with cur := ⟨256, 3⟩, ports := { s.ports with region := [(0, 0x00200000)] } }
def reRun (s : State) (f : Run → Run) : State := s.setRun 1 (f (s.run 1))
def reCo (s : State) (f : Company → Company) : State := s.setCompany 1 (f (s.company 1))
def reTr (s : State) (f : Troupe → Troupe) : State := s.setTroupe 256 (f (s.troupe 256))
def reTh (s : State) (l : Nat) (f : Thread → Thread) : State := s.setThread 256 l (f (s.thread 256 l))
def regs (s : State) (ws : List (Nat × Word)) : State :=
  reTr s fun tr => { tr with regs := ws.foldl (fun m w => tput m w.1 w.2) tr.regs }
def bytes (s : State) (a : Nat) (bs : List Byte) : State := { s with mem := s.mem.setBytes a bs }
def nat (n x : Nat) : List Byte := leBytes n x
/-- The pair v8 of lanes 0 and 1 holds device-local addresses 0x20000 and 0x20040 of window `w`. -/
def addrs (w : Nat) : State :=
  let hi := BitVec.ofNat 32 (2 ^ 31 + w * 2 ^ 27)
  regs lab [(vKey 8 0, 0x20000), (vKey 9 0, hi), (vKey 8 1, 0x20040), (vKey 9 1, hi)]
/-- The pair s4 holds the device-local address of offset `a`. -/
def uni (s : State) (r a : Nat) : State := regs s [(sKey r, BitVec.ofNat 32 a), (sKey (r + 1), 0x80000000)]
/-- The state after `i`. -/
def aft (i : Instr) (s : State) : State :=
  match exec i s with
  | .next t => t
  | _ => s
/-- Register `k` of the troupe after `i`. -/
def got (i : Instr) (s : State) (k : Nat) : Word := ((aft i s).troupe 256).reg k
/-- The code of the trap that `i` takes, where the run has no handler. -/
def trapOf (i : Instr) (s : State) : Option Nat := ((aft i s).run 1).faulted.map TrapInfo.code

/-! ### Well-formedness: one ill-formed term for each check -/

theorem smoke_code : bad .coldReset Instr.wfCode = true := by decide
theorem smoke_hint : bad (.nop { H with cs := false, wait := 1 }) Instr.wfHint = true := by decide
theorem smoke_form : bad (.iadd H .f32 false (.v 3) (.v 1) (.reg (.v 2))) Instr.wfForm = true := by decide
theorem smoke_form_imm : bad (.bfi H .i64 (.v 3) (.v 1) (.v 2) (.v 4)) Instr.wfForm = true := by decide
theorem smoke_regs : bad (.iadd H .i64 false (.v 3) (.v 0) (.reg (.v 2))) Instr.wfRegs = true := by decide
theorem smoke_waypoint : bad (.copyl H false (.v 2) (.v 4) (.imm 64) (.v 6)) Instr.wfWaypoint = true := by decide
theorem smoke_well_formed : (Instr.iadd H .i64 false (.v 4) (.v 0) (.reg (.v 2))).WellFormed := by
  unfold Instr.WellFormed; decide

/-! ### Decoding: the worked encodings of spec/13_encoding.md and its examples, a word for every class -/

theorem decode_iadd : decode 0x000FF100003FF0080100DC00 = .ok (.iadd H .i32 false (.v 3) (.v 1) (.reg (.v 2))) := by decide
theorem decode_iadd_imm : decode 0x000FF080003FFFFC04011C00 =
    .ok (.iadd { H with cs := false } .i32 false (.v 4) (.v 4) (.imm (-1))) := by decide
theorem decode_movi : decode 0x000FF18048D159E3FF019C1A = .ok (.movi H (.v 6) 0x12345678) := by decide
theorem decode_icmp : decode 0x000FF1880000001402A85C17 = .ok (.icmp H .lt .i32 (.p 1) (.v 2) (.plain (.imm 5))) := by decide
theorem decode_cvt : decode 0x000FF020043FFFFC05011C80 =
    .ok (.cvt { H with cs := false } .f32 .i32 ⟨.rtz, false, false⟩ (.v 4) (.v 5)) := by decide
theorem decode_ld : decode 0x000FF4800040004006015D00 =
    .ok (.ld { H with cs := false, sel := .a } .n32 .plain (.v 5) (.v 6) (.imm 16)) := by decide
theorem decode_ld_pair : decode 0x000F150000FFFFFC10009D00 =
    .ok (.ld { H with sel := .a, flga := some 1 } .n64 .plain (.v 2) (.v 16) (.reg .rz)) := by decide
theorem decode_st : decode 0x000FF00000FFFFFC0C019D01 =
    .ok (.st { H with cs := false } .n64 .plain (.v 6) (.v 12) (.reg .rz)) := by decide
theorem decode_bra : decode 0x000FF180003FFFF7FFFFC4C0 = .ok (.bra { H with pred := 1 } (-3)) := by decide
theorem decode_cvwait : decode 0x000FF100003FFFFFFF025CC6 = .ok (.cvwait H 0 (.v 9) (.reg .rz)) := by decide
theorem decode_callx : decode 0x002FF100003FFFFC0EFFDCC3 = .ok (.callx { H with wait := 2 } (.v 14)) := by decide
theorem decode_waitc : decode 0x000FF18000000003FFFFDD81 = .ok (.waitc H .copy 0) := by decide
theorem decode_vote : decode 0x000FF104003FFFFEA7A99DC2 = .ok (.vote H .any .all (.p 6) (.p 7)) := by decide
theorem decode_tred : decode 0x000FF014007FFFFC1A06DDC3 =
    .ok (.tred { H with cs := false } .min .all .n32 (.v 27) (.v 26)) := by decide
theorem decode_mma : decode 0x000F0500003FFFFE04FFDE00 =
    .ok (.mma { H with sel := .a, flga := some 0 } (.s 4)) := by decide
theorem decode_copy : decode 0x000FF1800000000A08FFDE40 = .ok (.copy H (.s 8) (.imm 2)) := by decide
theorem decode_svc_park : decode 0x000FF1840000001C04029EC1 = .ok (.svcPark H (.v 10) (.v 4) (.imm 7)) := by decide
theorem decode_csrw : decode 0x000FF0800000041C0EFFDEC3 =
    .ok (.csrw { H with cs := false } (.v 14) (.imm 0x107)) := by decide
-- Written out from Tables 13.1 to 13.11: OP, CLASS << 6, PRED << 10, D << 14, A << 24; B << 2, C << 12, TYPE << 22.
theorem decode_fadd : decode 0x000FF100023FF0080100DC40 = .ok (.fadd H .f32 m0 (.v 3) (.v 1) (.reg (.v 2))) := by decide
theorem decode_cmul : decode 0x000FF100023FF02808011F01 = .ok (.cmul H false m0 (.v 4) (.v 8) (.v 10)) := by decide
theorem decode_atom : decode 0x000FF100007FF02006015D40 = .ok (.atom H .add .n32 .plain (.v 5) (.v 6) (.v 8) .rz) := by decide
theorem decode_dreg : decode 0x000FF100003FFFFC04009E80 = .ok (.dreg H (.v 2) (.v 4)) := by decide
theorem reserved_class : decode 0x000FF100003FF0080100DF40 = .error .illop := by decide
theorem reserved_flag : decode 0x000FC100003FF0080100DC00 = .error .illhint := by decide

/-! ### Single steps: lane instructions -/

theorem step_iadd_wraps : got (.iadd H .i32 false (.v 3) (.v 1) (.imm 1)) (regs lab [(vKey 1 0, 0x7FFFFFFF)]) (vKey 3 0) =
    0x80000000 := by decide +kernel
theorem step_iadd_saturates : got (.iadd H .i32 true (.v 3) (.v 1) (.imm 1)) (regs lab [(vKey 1 0, 0x7FFFFFFF)]) (vKey 3 0) =
    0x7FFFFFFF := by decide +kernel
theorem step_isub_source_is_dest : got (.isub H .n32 false (.v 1) (.v 2) (.reg (.v 1)))
    (regs lab [(vKey 1 0, 1), (vKey 2 0, 0)]) (vKey 1 0) = 0xFFFFFFFF := by decide +kernel
theorem step_imulh : got (.imulh H .i32 (.v 3) (.v 1) (.imm 2)) (regs lab [(vKey 1 0, 0x80000000)]) (vKey 3 0) = 0xFFFFFFFF := by
  decide +kernel
theorem step_idiv_truncates : got (.idiv H .i32 false (.v 3) (.v 1) (.imm 2)) (regs lab [(vKey 1 0, 0xFFFFFFF9)]) (vKey 3 0) =
    0xFFFFFFFD := by decide +kernel
theorem step_idiv_by_zero : got (.idiv H .i32 false (.v 3) (.v 1) (.imm 0)) (regs lab [(vKey 1 0, 5)]) (vKey 3 0) = 0xFFFFFFFF := by
  decide +kernel
theorem step_irem_sign : got (.irem H .i32 (.v 3) (.v 1) (.imm 2)) (regs lab [(vKey 1 0, 0xFFFFFFF9)]) (vKey 3 0) = 0xFFFFFFFF := by
  decide +kernel
theorem step_iabs_least : got (.iabs H .i32 false (.v 3) (.v 1)) (regs lab [(vKey 1 0, 0x80000000)]) (vKey 3 0) = 0x80000000 := by
  decide +kernel
theorem step_shr_past_width : got (.shr H .i32 (.v 3) (.v 1) (.imm 40)) (regs lab [(vKey 1 0, 0x80000000)]) (vKey 3 0) =
    0xFFFFFFFF := by decide +kernel
theorem step_shl_count_low_byte : got (.shl H .n32 (.v 3) (.v 1) (.reg (.v 2))) (regs lab [(vKey 1 0, 3), (vKey 2 0, 0xF01)]) (vKey 3 0) = 6 := by
  decide +kernel
theorem step_rotl : got (.rotl H .n32 (.v 3) (.v 1) (.imm 36)) (regs lab [(vKey 1 0, 0x80000001)]) (vKey 3 0) = 0x18 := by
  decide +kernel
theorem step_bfe_signed : got (.bfe H .i32 (.v 3) (.v 1) (.imm 0x404)) (regs lab [(vKey 1 0, 0xF0)]) (vKey 3 0) = 0xFFFFFFFF := by
  decide +kernel
theorem step_bfi_clips : got (.bfi H .n32 (.v 3) (.v 1) (.v 2) (.v 4))
    (regs lab [(vKey 1 0, 0xFF), (vKey 2 0, 0x081C), (vKey 4 0, 0)]) (vKey 3 0) = 0xF0000000 := by decide +kernel
theorem step_prmt_sign : got (.prmt H (.v 3) (.v 1) (.imm 0x00B0)) (regs lab [(vKey 1 0, 0x80000012)]) (vKey 3 0) = 0x1212FF12 := by
  decide +kernel
theorem step_clz_zero : got (.clz H .n32 (.v 3) (.v 1)) lab (vKey 3 0) = 32 := by decide +kernel
theorem step_brev : got (.brev H .n32 (.v 3) (.v 1)) (regs lab [(vKey 1 0, 1)]) (vKey 3 0) = 0x80000000 := by decide +kernel
theorem step_icmp_signed : got (.icmp H .lt .i32 (.p 1) (.v 2) (.plain (.imm 5))) (regs lab [(vKey 2 0, 0xFFFFFFFF)]) (pKey 0 1) = 1 := by
  decide +kernel
theorem step_icmp_unsigned : got (.icmp H .lt .n32 (.p 1) (.v 2) (.plain (.imm 5))) (regs lab [(vKey 2 0, 0xFFFFFFFF)]) (pKey 0 1) = 0 := by
  decide +kernel
theorem step_guard_false_writes_nothing : got (.iadd HP .i32 false (.v 3) (.v 1) (.imm 1)) (regs lab [(vKey 3 0, 9)]) (vKey 3 0) = 9 := by
  decide +kernel
theorem step_plop_and : got (.plop H 0x80 (.p 1) (.p 7) (.p 7) (.p 7)) lab (pKey 0 1) = 1 := by decide +kernel
theorem step_pmov_get : got (.pmovGet H (.v 3)) (regs lab [(pKey 0 2, 1)]) (vKey 3 0) = 0x84 := by decide +kernel
theorem step_movi_hi : got (.moviHi H (.v 4) 7) lab (vKey 5 0) = 7 := by decide +kernel
theorem step_lea : got (.lea H .i32 3 (.v 4) (.v 8) (.reg (.v 1))) (regs (addrs 0) [(vKey 1 0, 0xFFFFFFFF)]) (vKey 4 0) = 0x1FFF8 := by
  decide +kernel
theorem step_rz_keeps : ((aft (.iadd H .i32 false .rz (.v 1) (.imm 1)) lab).troupe 256).regs = (lab.troupe 256).regs := by
  decide +kernel
theorem step_pc_moves : ((aft (.nop H) lab).thread 256 0).pc = 12 := by decide +kernel
theorem step_pc_of_others_stays : ((aft (.nop H) lab).thread 256 2).pc = 0 := by decide +kernel
theorem step_fadd : got (.fadd H .f32 m0 (.v 3) (.v 1) (.reg (.v 2))) (regs lab [(vKey 1 0, 0x3F800000), (vKey 2 0, 0x40000000)])
    (vKey 3 0) = 0x40400000 := by decide +kernel
theorem step_fadd_ties_to_even : got (.fadd H .f32 m0 (.v 3) (.v 1) (.reg (.v 2)))
    (regs lab [(vKey 1 0, 0x3F800001), (vKey 2 0, 0x33800000)]) (vKey 3 0) = 0x3F800002 := by decide +kernel
theorem step_fsub_zero_rdn : got (.fsub H .f32 ⟨.rdn, false, false⟩ (.v 3) (.v 1) (.reg (.v 1))) (regs lab [(vKey 1 0, 0x3F800000)])
    (vKey 3 0) = 0x80000000 := by decide +kernel
theorem step_ffma_one_rounding : got (.ffma H .f32 m0 (.v 3) (.v 1) (.v 1) (.v 2))
    (regs lab [(vKey 1 0, 0x3F800001), (vKey 2 0, 0xBF800002)]) (vKey 3 0) = 0x28800000 := by decide +kernel
theorem step_fmin_nan : got (.fmin H .f32 false (.v 3) (.v 1) (.reg (.v 2))) (regs lab [(vKey 1 0, 0x7FC00000), (vKey 2 0, 0x3F800000)])
    (vKey 3 0) = 0x3F800000 := by decide +kernel
theorem step_fneg_keeps_zero_sign : got (.fneg H .f32 false (.v 3) (.v 1)) lab (vKey 3 0) = 0x80000000 := by decide +kernel
theorem late_cvt_truncates : ((aft (.cvt H .f32 .i32 ⟨.rtz, false, false⟩ (.v 4) (.v 5)) (regs lab [(vKey 5 0, 0xC0200000)])).troupe 256).pend.map
    (fun p => p.writes.map Prod.snd) = [[0xFFFFFFFE], [0]] := by decide +kernel
theorem late_frcp : ((aft (.frcp H m0 (.v 3) (.v 1)) (regs lab [(vKey 1 0, 0x40000000)])).troupe 256).pend.map
    (fun p => p.writes.map Prod.snd) = [[0x3F000000], [0x7F800000]] := by decide +kernel
theorem step_srseed_zero : ((aft (.srseed H (.v 1)) lab).troupe 256).srState = 0x9E3779B9 := by decide +kernel
theorem late_dot4 : ((aft (.dot4 H .n8 false false m0 (.v 3) (.v 1) (.v 2) (.v 4))
    (regs lab [(vKey 1 0, 0x01020304), (vKey 2 0, 0x01010101), (vKey 4 0, 0xFFFFFFFF)])).troupe 256).pend.map
    (fun p => p.writes.map Prod.snd) = [[9], [0]] := by decide +kernel

/-! ### Single steps: memory, control, exchanges, engines -/

theorem step_ld_enters : ((aft (.ld H .n32 .plain (.v 3) (.v 8) (.imm 16)) (addrs 0)).accs.map fun a => (a.phys, a.size)) =
    [(0x20010, 4), (0x20050, 4)] := by decide +kernel
theorem step_ld_negative_offset : ((aft (.ld H .n8 .plain (.v 3) (.v 8) (.imm (-1))) (addrs 0)).accs.map Access.phys) =
    [0x1FFFF, 0x2003F] := by decide +kernel
theorem step_st_data : ((aft (.st H .n16 .plain (.v 3) (.v 8) (.imm 0)) (regs (addrs 0) [(vKey 3 0, 0x12345678)])).accs.map fun a =>
    (a.data, a.size)) = [(0x12345678, 2), (0, 2)] := by decide +kernel
theorem trap_ld_misaligned : trapOf (.ld H .n64 .plain (.v 4) (.v 8) (.imm 4)) (addrs 0) = some 0x10 := by decide +kernel
theorem trap_ld_aperture : trapOf (.ld H .n32 .plain (.v 4) (.v 8) (.imm 0)) lab = some 0x11 := by decide +kernel
theorem trap_ld_store_window : trapOf (.ld H .n32 .plain (.v 4) (.v 8) (.imm 0)) (addrs 2) = some 0x12 := by decide +kernel
theorem trap_ld_bounds : trapOf (.ld H .n32 .plain (.v 4) (.v 8) (.imm 0)) { addrs 0 with ports := Ports.reset } = some 0x13 := by
  decide +kernel
theorem trap_bra_past_text : trapOf (.bra H 1) lab = some 0x01 := by decide +kernel
theorem step_call_pushes : ((aft (.call H 0) lab).thread 256 1).rstack = [12] := by decide +kernel
theorem step_ret_pops : ((aft (.ret H) (reTh (reTh lab 0 fun t => { t with rstack := [0] }) 1 fun t => { t with rstack := [0] })).thread
    256 0).rstack = [] := by decide +kernel
theorem trap_ret_empty : trapOf (.ret H) lab = some 0x01 := by decide +kernel
theorem step_cvset : ((aft (.cvset H 3) lab).troupe 256).expected 3 = 3 := by decide +kernel
theorem step_cvwait_releases : ((aft (.cvwait H 0 (.v 9) (.imm 0)) (reTr lab fun t => { t with cv := [(0, 3)] })).troupe 256).reg
    (vKey 9 1) = 1 := by decide +kernel
theorem step_exit_drains : ((aft (.exit H) lab).thread 256 0).st = .drained := by decide +kernel
theorem step_exit_item : ((aft (.exit H) (reRun lab fun r => { r with items := 40, cue := 24 })).thread 256 1).item = 33 := by
  decide +kernel
theorem trap_brk : trapOf (.brk H 5) lab = some 0x32 := by decide +kernel
theorem step_shfl_down : got (.shfl H .down .n32 (.v 3) (.v 1) (.imm 1)) (regs lab [(vKey 1 0, 7), (vKey 1 1, 8)]) (vKey 3 0) = 8 := by
  decide +kernel
theorem step_qswz : got (.qswz H .n32 (.v 3) (.v 1) (.imm 0x1B)) (regs lab [(vKey 1 3, 9)]) (vKey 3 0) = 9 := by decide +kernel
theorem step_elect : got (.elect H (.p 1)) lab (pKey 0 1) = 1 ∧ got (.elect H (.p 1)) lab (pKey 1 1) = 0 := by decide +kernel
theorem step_vote_ballot : got (.vote H .ballot .act (.v 3) (.p 0)) (regs lab [(pKey 1 0, 1)]) (vKey 3 0) = 2 := by decide +kernel
theorem step_tred_add : got (.tred H .add .act .i32 (.v 3) (.v 1)) (regs lab [(vKey 1 0, 5), (vKey 1 1, 0xFFFFFFFE)]) (vKey 3 1) = 3 := by
  decide +kernel
theorem step_tscan_exclusive : got (.tscan H .add .act .i32 true (.v 3) (.v 1)) (regs lab [(vKey 1 0, 5), (vKey 1 1, 7)]) (vKey 3 1) = 5 ∧
    got (.tscan H .add .act .i32 true (.v 3) (.v 1)) (regs lab [(vKey 1 0, 5)]) (vKey 3 0) = 0 := by decide +kernel
theorem step_match : got (.matchv H .act .n32 (.v 3) (.v 1)) (regs lab [(vKey 1 1, 7)]) (vKey 3 0) = 1 := by decide +kernel
theorem trap_umov_nonuniform : trapOf (.umov H .n32 (.s 3) (.v 1) (.reg (.v 2))) (regs lab [(vKey 2 1, 1)]) = some 0x20 := by
  decide +kernel
theorem step_jarr_completes : ((aft (.jarr H 0 (.v 3)) (reCo lab fun c => { c with
    junctions := [(0, ⟨true, false, 2, 0, false, [], [], []⟩)] })).junction 1 0).phase = true := by decide +kernel
theorem trap_jarr_unset : trapOf (.jarr H 0 (.v 3)) lab = some 0x22 := by decide +kernel
theorem step_wpinit : let s := aft (.wpinit H (.s 4) (.s 6) (.s 7)) (regs (uni lab 4 0x20000) [(sKey 6, 2), (sKey 7, 64)])
    let z := aft (.waypointUpdate ((s.upds.map WpUpd.id).headD 0)) s
    (s.mem.readN 0x20000 4, z.mem.readN 0x20000 4, z.mem.readN 0x20008 4) = (0, 0x20002, 64) := by decide +kernel
theorem step_accz : ((aft (.accz H 5) lab).troupe 256).counter .mma = 1 := by decide +kernel
theorem step_rsvop : ((aft (.rsvop H 2 (.v 3) (.imm 32)) lab).stage 0).ranges = [(0, 64)] := by decide +kernel
theorem trap_copy_not_producer : trapOf (.copy H (.s 4) (.imm 1)) (reRun (uni lab 4 0x20000) fun r => { r with producer := 3 }) =
    some 0x19 := by decide +kernel
theorem late_cstat : ((aft (.cstat H (.v 3)) (aft (.accz H 5) lab)).troupe 256).pend.map (fun p => p.writes.map Prod.snd) =
    [[0x1000], [0x1000]] := by decide +kernel
theorem step_dunreg_none : got (.dunreg H (.v 3) (.imm 4)) (regs lab [(vKey 3 0, 9)]) (vKey 3 0) = 0 := by decide +kernel
theorem trap_svc_no_ring : trapOf (.svc H (.v 4) (.v 8) (.imm 7)) (addrs 0) = some 0x31 := by decide +kernel
theorem late_csrr : ((aft (.csrr H (.v 4) (.imm 0)) lab).troupe 256).pend.map (fun p => p.writes.map Prod.snd) =
    [[BitVec.ofNat 32 ((lab.troupe 256).awaitLim.toNat)], [BitVec.ofNat 32 ((lab.troupe 256).awaitLim.toNat)]] := by decide +kernel
theorem trap_csrr_handler_only : trapOf (.csrr H (.v 4) (.imm 0x101)) lab = some 0x05 := by decide +kernel
theorem trap_rtt_outside_handler : trapOf (.rtt H) lab = some 0x05 := by decide +kernel
theorem trap_entry : let t := (aft (.trap H 7) (reRun lab fun r => { r with trapVec := 24 })).troupe 256
    (t.status, (t.thread 0).pc, t.last.code, t.last.val, t.last.skip) = (.handler, 24, 0x30, 7, 3) := by decide +kernel
theorem step_runs_nop : (match step (State.reset.withFetchWord 96 0x000FF100003FFFFFFFFFDCC9) with
    | .next s => some (s.thread 256 31).pc
    | _ => none) = some 12 := by decide +kernel

/-- The premise about the device's own stores, from a check that can be evaluated. -/
def plain (s : State) (rs : List (Nat × Nat)) : Bool :=
  (rs.all fun r => !inDerived s r.1 r.2 && !anyWatched s [r] && !poisoned s r.1 r.2 && (devicePending s r.1 r.2).isEmpty) &&
    (closedLines s 0).isEmpty && s.ports.region.all (fun e => !e.2.getLsbD 31) && s.accs.all fun a => !opQueue a.op
theorem entry_open {m : Table Word} (h : (m.all fun e => !e.2.getLsbD 31) = true) (k : Nat) : (tget m 0 k).getLsbD 31 = false := by
  induction m with
  | nil => simp [tget]
  | cons e m ih =>
    simp only [List.all_cons, Bool.and_eq_true, Bool.not_eq_true'] at h
    simp only [tget]
    split
    · exact h.1
    · exact ih h.2
theorem plainly_of {s : State} {rs : List (Nat × Nat)} (h : plain s rs = true) : Plainly s rs := by
  simp only [plain, Bool.and_eq_true, List.all_eq_true] at h
  obtain ⟨⟨⟨hr, hc⟩, hm⟩, hq⟩ := h
  refine ⟨fun r m => ?_, fun a m q => by simpa [q] using hq a m⟩
  have := hr r m
  simp only [Bool.not_eq_true', List.isEmpty_iff] at this
  refine ⟨this.1.1.1, this.1.1.2, this.1.2, this.2, fun a n _ _ => ?_⟩
  have ho := entry_open (List.all_eq_true.mpr hm) (regionOf a)
  simp only [lineClosed, heldClosed, regionEntry, List.any_cons, List.any_nil, ho, hc, Bool.and_false, Bool.or_false,
    Bool.not_true, Bool.false_and]

/-! ### Single events -/

def acc (op : AOp) (data : Nat) : Access :=
  { Access.make (.thread 256 0) op (BitVec.ofNat 64 (2 ^ 63 + 0x20000)) 0x20000 4 with id := 9, data := BitVec.ofNat 64 data }
def home (op : AOp) (data old : Nat) : State := { bytes lab 0x20000 (nat 4 old) with accs := [acc op data], nextId := 10 }
theorem event_add_saturates_not : (aft (.windowAdd 9) (home .add 5 0xFFFFFFFE)).mem.readN 0x20000 4 = 3 := by decide +kernel
theorem event_store : (aft (.plainStore 9) (home .store 0x11223344 0)).mem.byte 0x20001 = 0x33 := by decide +kernel
theorem event_load : ((aft (.plainLoad 9) (home .load 0 77)).accs.map Access.res) = [77] := by decide +kernel
theorem event_await_waits : ((aft (.await 9) (home .await 0 0)).accs.map Access.st) = [.awaiting] := by decide +kernel
theorem event_wipe : (aft .wipeComplete (aft .coldReset (home .load 0 77))).mem = [] := by decide +kernel
theorem event_counter_write_of_one : (aft (.counterClear 4 1) { lab with ports := { lab.ports with counters := [(4, 7)] } }).ports.counters =
    [(4, 7)] := by decide +kernel

/-! ### Witnesses: states and operands that meet the hypotheses of each statement, clause by clause

`issues_all` turns a list that evaluates to true into the premise `IssuesP` of the statements about encoded instructions. -/

/-- IntegerArithmetic: every instruction, both widths, the divisor 0 (registers are 0) and not. -/
def integers : List Instr :=
  let v := fun n : Fin 512 => Opd.v n
  [.iadd H .i32 true (v 3) (v 1) (.imm (-1)), .iadd H .i64 false (v 4) (v 0) (.reg (v 2)), .isub H .n8 true (v 3) (v 1) (.reg .rz),
   .imul H .i32 false (v 3) (v 1) (.reg (v 2)), .imulh H .n64 (v 4) (v 0) (.imm 5), .imad H .i32 true (v 3) (v 1) (v 2) (v 3),
   .imin H .i16 (v 3) (v 1) (.imm 9), .imax H .n64 (.s 2) (.s 4) (.imm 9), .iabs H .i32 true (v 3) (v 1), .ineg H .i64 true (v 4) (v 0),
   .idiv H .i32 true (v 3) (v 1) (.imm (-1)), .idiv H .i32 false .rz (v 1) (.reg (v 2)), .irem H .n32 (v 3) (v 1) (.reg .rz),
   .irem H .i64 (v 4) (v 0) (.imm 3)]
theorem witness_IntegerArithmetic : ∀ i ∈ integers, IssuesP (privOf i) i lab (cx i lab) := issues_all (by decide +kernel)

/-- BitOperations: counts, positions and lengths are whatever the registers hold, so every value is met. -/
def bitwise : List Instr :=
  let v := fun n : Fin 512 => Opd.v n
  [.and H .n64 (v 4) (v 0) (.imm (-1)), .or H .i32 (v 3) (v 1) (.reg (v 2)), .xor H .n32 (v 3) (v 1) (.imm 1), .not H .i64 (v 4) (v 0),
   .shl H .n32 (v 3) (v 1) (.imm 31), .shl H .n64 (v 4) (v 0) (.imm 64), .shr H .i32 (v 3) (v 1) (.imm 32), .shr H .n64 (v 4) (v 0) (.reg (v 2)),
   .rotl H .n32 (v 3) (v 1) (.imm 255), .bfe H .i32 (v 3) (v 1) (.imm 0x101F), .bfi H .n32 (v 3) (v 1) (v 2) (v 5),
   .prmt H (v 3) (v 1) (.imm 0x8421), .prmt H (v 3) (v 1) (.reg (v 2) (v 5)), .popc H .n64 (v 3) (v 0), .clz H .i32 (v 3) (v 1),
   .brev H .n64 (v 4) (v 0)]
theorem witness_BitOperations : ∀ i ∈ bitwise, IssuesP (privOf i) i lab (cx i lab) := issues_all (by decide +kernel)

/-- ComparesAndPredicates and MovesAndAddresses. -/
def moves : List Instr :=
  let v := fun n : Fin 512 => Opd.v n
  [.icmp H .ge .i64 (.p 1) (v 0) (.plain (.imm (-1))), .icmp H .ne .n32 (.p 7) (v 1) (.comb .xor (v 2) (.p 0)), .sel H .n64 (v 4) (v 0) (v 2) (.p 7),
   .plop H 0x96 (.p 1) (.p 0) (.p 7) (.p 2), .pmovGet H (v 3), .pmovSet H (v 1) (.imm 0x7F), .pmovSet H .rz (.reg (v 2)),
   .mov H .n64 (v 4) (v 0), .mov H .n32 (v 3) (.sp 0), .movi H (v 3) 0xFFFFFFFF, .moviHi H (v 4) 7, .lea H .n32 3 (v 4) (v 0) (.imm (-1)),
   .leaCode H .i32 0 (v 4) (.reg (v 1))]
theorem witness_Compares_and_Moves : ∀ i ∈ moves, IssuesP (privOf i) i lab (cx i lab) := issues_all (by decide +kernel)

/-- FloatingPoint. -/
def floats : List Instr :=
  let v := fun n : Fin 512 => Opd.v n
  let m : FMod := ⟨.sr, true, true⟩
  [.fadd H .f32 m (v 3) (v 1) (.imm 0x3F800), .fsub H .bf16x2 m0 (v 3) (v 1) (.reg (v 2)), .fmul H .f16 m (v 3) (v 1) (.reg (v 2)),
   .ffma H .f32 ⟨.rna, false, false⟩ (v 3) (v 1) (v 2) (v 3), .fmin H .f32 true (v 3) (v 1) (.reg .rz), .fmax H .f16x2 false (v 3) (v 1) (.reg (v 2)),
   .fabs H .bf16 true (v 3) (v 1), .fneg H .f32 false (v 3) (v 1), .fcmp H .nan .f32 false (.p 1) (v 1) (.plain (.reg (v 2))),
   .fcmp H .lt .f32 true (.p 1) (v 1) (.comb .and (v 2) (.p 7)), .fclass H .f32 (v 3) (v 1), .frint H .f32 .rup false (v 3) (v 1)]
theorem witness_FloatingPoint : ∀ i ∈ floats, IssuesP (privOf i) i lab (cx i lab) := issues_all (by decide +kernel)
theorem witness_RoundingKeepsValues : (0xFF7FFFFF : Nat) < 2 ^ Fmt.f32.bits ∧ decodeF .f32 0xFF7FFFFF ≠ .nan ∧
    (0 : Nat) < 2 ^ Fmt.f32.bits ∧ decodeF .f32 0 ≠ .nan := by decide +kernel

/-- FunctionsAndConversions and SumsAndSeeds. -/
def late : List Instr :=
  let v := fun n : Fin 512 => Opd.v n
  let sr : FMod := ⟨.sr, false, false⟩
  [.frcp H m0 (v 3) (v 1), .frsq H m0 (v 3) (v 1), .fsqrt H ⟨.rna, false, true⟩ (v 3) (v 1), .fdiv H m0 (v 3) (v 1) (.reg (v 2)), .fexp2 H m0 (v 3) (v 1),
   .flog2 H m0 (v 3) (v 1), .fsin H m0 (v 3) (v 1), .fcos H m0 (v 3) (v 1), .ftanh H m0 (v 3) (v 1), .cvt H .f32 .i64 m0 (v 4) (v 1),
   .cvt H .f32 .bf16 sr (v 3) (v 1), .pack H .e4m3x4 ⟨.sr, true, false⟩ (v 3) (v 4) none, .pack H .f16x2 m0 (v 3) (v 4) none, .unpack H .e5m2x4 false (v 4) (v 1) (some (.imm 127)),
   .scaleApply H m0 (v 3) (v 1) (.imm 130), .scaleMx H .e4m3 (v 3) (v 1), .amax H .bf16x2 (v 3) (v 1) (v 2),
   .dot2 H .f16x2 m0 (v 3) (v 1) (v 2) (v 3), .dot4 H .i8 false true m0 (v 3) (v 1) (v 2) (v 3), .dot4 H .e4m3x4 true false m0 (v 3) (v 1) (v 2) (v 4),
   .dot8 H false m0 (v 3) (v 1) (v 2) (v 3), .cbfly H m0 (v 8) (v 0) (v 2) (v 4), .cmul H true m0 (v 4) (v 0) (v 2), .twid H (v 4) (v 1) (.imm 16),
   .srseed H (v 1)]
theorem witness_Functions_and_Sums : ∀ i ∈ late, IssuesP (privOf i) i lab (cx i lab) := issues_all (by decide +kernel)
/-- SumsAndSeeds: lanes that agree, and lanes that do not. -/
theorem witness_Seeds : let c := cx (.srseed H (.v 1)) lab
    c.act ≠ 0 ∧ (∀ l, hasLane c.act l = true → readWord lab.begun c l (.v 1) 0 = readWord lab.begun c c.low (.v 1) 0) ∧
    (let s := regs lab [(vKey 1 1, 5)]; ok (.srseed H (.v 1)) s = true ∧ hasLane c.act 1 = true ∧
      readWord s.begun c 1 (.v 1) 0 ≠ readWord s.begun c c.low (.v 1) 0) :=
  ⟨by decide +kernel, on_lanes (by decide +kernel), by decide +kernel⟩

/-- Loads: plain, at the last four bytes of the partition's region, and awaiting. -/
theorem witness_Loads : let i := Instr.ld H .n32 .plain (.v 3) (.v 8) (.imm 16)
    let s := addrs 0
    let c := cx i s
    ok i s = true ∧ (∀ l, hasLane c.act l = true → laneCheck s.begun c.t l (.access true 4) (memAddr s.begun c l (.v 8) (.imm 16)) = none) ∧
    OrderFree s.begun c (orderedLanes c fun l => memAddr s.begun c l (.v 8) (.imm 16)) ∧
    RemoteFree s.begun c (fun l => memAddr s.begun c l (.v 8) (.imm 16)) :=
  ⟨by decide +kernel, on_lanes (by decide +kernel), .inr (.inl (by decide +kernel)), .inl (on_lanes (by decide +kernel))⟩
theorem witness_Loads_edge : let s := regs lab [(vKey 8 0, 0x1FFFFC), (vKey 9 0, 0x80000000), (vKey 8 1, 0x1FFFFC), (vKey 9 1, 0x80000000)]
    let c := cx (.ld H .n32 .plain (.v 3) (.v 8) (.imm 0)) s
    ok (.ld H .n32 .plain (.v 3) (.v 8) (.imm 0)) s = true ∧
    ∀ l, hasLane c.act l = true → laneCheck s.begun c.t l (.access true 4) (memAddr s.begun c l (.v 8) (.imm 0)) = none :=
  ⟨by decide +kernel, on_lanes (by decide +kernel)⟩
theorem witness_Loads_await : let i := Instr.ld H .n32 .plain (.v 3) (.v 8) (.imm 0)
    let s := addrs 12
    let c := cx i s
    ok i s = true ∧ winOp true (winOf (memAddr s.begun c 0 (.v 8) (.imm 0))) = .await ∧
    ∀ l, hasLane c.act l = true → laneCheck s.begun c.t l (.access true 4) (memAddr s.begun c l (.v 8) (.imm 0)) = none :=
  ⟨by decide +kernel, by decide +kernel, on_lanes (by decide +kernel)⟩
theorem witness_Loads_wide : let s := addrs 0
    let c := cx (.ldx H 3 .plain (.v 16) (.v 8) (.imm 0)) s
    ok (.ldx H 3 .plain (.v 16) (.v 8) (.imm 0)) s = true ∧ ok (.probe H (.v 3) (.v 8) (.imm 1)) s = true ∧
    (∀ l, hasLane c.act l = true → laneCheck s.begun c.t l (.block true 16) (memAddr s.begun c l (.v 8) (.imm 0)) = none ∧
      laneCheck s.begun c.t l ⟨true, 1, 1, 1, true, false, [0, 1, 2, 3, 4], false⟩ (memAddr s.begun c l (.v 8) (.imm 1)) = none) :=
  ⟨by decide +kernel, by decide +kernel, on_lanes (by decide +kernel)⟩
theorem witness_Loads_uniform : let s := uni lab 4 0x20000
    let i := Instr.ldu H .n32 .plain (.s 6) (.s 4) (.imm 0)
    let c := cx i s
    ok i s = true ∧ c.act ≠ 0 ∧ (∀ l, hasLane c.act l = true → readPair s.begun c l (.s 4) 4 = readPair s.begun c c.low (.s 4) 4) ∧
    laneCheck s.begun c.t c.low (.access true 4) (memAddr s.begun c c.low (.s 4) (.imm 0)) = none ∧
    winOp true (winOf (memAddr s.begun c c.low (.s 4) (.imm 0))) ≠ .await :=
  ⟨by decide +kernel, by decide +kernel, on_lanes (by decide +kernel), by decide +kernel, by decide +kernel⟩

theorem witness_Loads_uniform_await : let s := regs lab [(sKey 4, 0x20000), (sKey 5, 0xE0000000)]
    let i := Instr.ldu H .n32 .plain (.s 6) (.s 4) (.imm 0)
    let c := cx i s
    ok i s = true ∧ winOp true (winOf (memAddr s.begun c c.low (.s 4) (.imm 0))) = .await ∧
    laneCheck s.begun c.t c.low (.access true 4) (memAddr s.begun c c.low (.s 4) (.imm 0)) = none ∧
    (∀ l, hasLane c.act l = true → readPair s.begun c l (.s 4) 4 = readPair s.begun c c.low (.s 4) 4) ∧
    RemoteFree s.begun c (fun _ => memAddr s.begun c c.low (.s 4) (.imm 0)) :=
  ⟨by decide +kernel, by decide +kernel, by decide +kernel, on_lanes (by decide +kernel), .inl (on_lanes (by decide +kernel))⟩
theorem step_ldu_await : let t := aft (.ldu H .n32 .plain (.s 6) (.s 4) (.imm 0)) (regs lab [(sKey 4, 0x20000), (sKey 5, 0xE0000000)])
    (t.accs.map fun a => (a.op, a.size), (t.thread 256 1).st) = ([(.await, 4)], .waiting) := by decide +kernel
theorem witness_Stores_uniform_buffered : let s := reRun (regs lab [(sKey 4, 0x20000), (sKey 5, 0x90000000)]) fun r => { r with determ := true }
    let i := Instr.stu H .n32 .plain (.s 6) (.s 4) (.imm 0)
    let c := cx i s
    let y := memAddr s.begun c c.low (.s 4) (.imm 0)
    ok i s = true ∧ c.act ≠ 0 ∧ (s.stage 0).det.length + (lanes c.act).length ≤ 2048 ∧ isRemote s.begun y = false ∧
    laneCheck s.begun c.t c.low (.access false 4) y = none ∧ winOf y = 2 ∧ (aft i s).accs = [] ∧
    ((aft i s).stage 0).det.map (fun b => (b.key, b.phys)) = [((0, 0, 0, 0), 0x20000)] := by decide +kernel

/-- Stores, into the queue and into the buffers of a deterministic run. -/
theorem witness_Stores : let s := addrs 0
    let c := cx (.st H .n32 .plain (.v 3) (.v 8) (.imm 0)) s
    ok (.st H .n32 .plain (.v 3) (.v 8) (.imm 0)) s = true ∧ ok (.stx H 3 .plain (.v 16) (.v 8) (.imm 0)) s = true ∧
    (∀ l, hasLane c.act l = true → laneCheck s.begun c.t l (.access false 4) (memAddr s.begun c l (.v 8) (.imm 0)) = none ∧
      laneCheck s.begun c.t l (.block false 16) (memAddr s.begun c l (.v 8) (.imm 0)) = none ∧
      buffers s.begun c (memAddr s.begun c l (.v 8) (.imm 0)) = false) ∧ (lanes c.act).length ≤ queueFree s.begun c.t :=
  ⟨by decide +kernel, by decide +kernel, on_lanes (by decide +kernel), by decide +kernel⟩
theorem witness_Stores_uniform : let s := uni lab 4 0x20000
    let i := Instr.stu H .n32 .plain (.s 6) (.s 4) (.imm 0)
    let c := cx i s
    ok i s = true ∧ c.act ≠ 0 ∧ (∀ l, hasLane c.act l = true → readPair s.begun c l (.s 4) 4 = readPair s.begun c c.low (.s 4) 4 ∧
      readTy s.begun c .n32 l (.s 6) 6 = readTy s.begun c .n32 c.low (.s 6) 6) ∧
    laneCheck s.begun c.t c.low (.access false 4) (memAddr s.begun c c.low (.s 4) (.imm 0)) = none ∧ 1 ≤ queueFree s.begun c.t :=
  ⟨by decide +kernel, by decide +kernel, on_lanes (by decide +kernel), by decide +kernel, by decide +kernel⟩
theorem witness_Stores_buffered : let s := reRun (addrs 2) fun r => { r with determ := true }
    let c := cx (.st H .n32 .plain (.v 3) (.v 8) (.imm 0)) s
    ok (.st H .n32 .plain (.v 3) (.v 8) (.imm 0)) s = true ∧ (s.runOf c.t).determ = true ∧
    (s.stage 0).det.length + (lanes c.act).length ≤ 2048 ∧ (∀ l, hasLane c.act l = true →
      isRemote s.begun (memAddr s.begun c l (.v 8) (.imm 0)) = false ∧
      laneCheck s.begun c.t l (.access false 4) (memAddr s.begun c l (.v 8) (.imm 0)) = none ∧
      2 ≤ winOf (memAddr s.begun c l (.v 8) (.imm 0)) ∧ winOf (memAddr s.begun c l (.v 8) (.imm 0)) ≤ 6) :=
  ⟨by decide +kernel, by decide +kernel, by decide +kernel, on_lanes (by decide +kernel)⟩
theorem witness_Stores_reduction : let s := reRun (addrs 0) fun r => { r with determ := true }
    let i := Instr.red H .add .n32 .plain (.v 3) (.v 8) (.imm 0)
    let c := cx i s
    ok i s = true ∧ (∀ l, hasLane c.act l = true → laneCheck s.begun c.t l (.atomic 4) (memAddr s.begun c l (.v 8) (.imm 0)) = none) :=
  ⟨by decide +kernel, on_lanes (by decide +kernel)⟩

/-- Atomics. -/
theorem witness_Atomics : let s := addrs 0
    let c := cx (.atom H .cas .n32 (.ar .die) (.v 3) (.v 8) (.v 4) (.v 5)) s
    (∀ i ∈ [Instr.atom H .cas .n32 (.ar .die) (.v 3) (.v 8) (.v 4) (.v 5), .red H .max .i32 (.rel .device) (.v 3) (.v 8) (.imm 4),
      .aenq H .n64 .plain (.v 4) (.v 8) (.v 6), .adeq H (.acq .system) (.v 4) (.v 8) (.imm 32)], ok i s = true) ∧
    (∀ l, hasLane c.act l = true → laneCheck s.begun c.t l (.atomic 4) (readPair s.begun c l (.v 8) 4) = none ∧
      laneCheck s.begun c.t l (.queue false) (readPair s.begun c l (.v 8) 4) = none ∧
      laneCheck s.begun c.t l (.queue true) (memAddr s.begun c l (.v 8) (.imm 32)) = none) ∧
    (s.runOf c.t).determ = false ∧ (lanes c.act).length ≤ queueFree s.begun c.t :=
  ⟨by decide +kernel, on_lanes (by decide +kernel), by decide +kernel, by decide +kernel⟩

/-- AddressChecks: in a register state of zeros every address fails its form; forms, windows, alignments and bounds fail one at a
time. -/
theorem witness_AddressChecks : let c := cx (.ld H .n32 .plain (.v 3) (.v 8) (.imm 0)) lab
    (∀ i ∈ [Instr.ld H .n32 .plain (.v 3) (.v 8) (.imm 0), .st H .n32 .plain (.v 3) (.v 8) (.imm 0), .ldx H 0 .plain (.v 4) (.v 8) (.imm 0),
      .stx H 0 .plain (.v 4) (.v 8) (.imm 0), .probe H (.v 3) (.v 8) (.imm 0), .atom H .add .n32 .plain (.v 3) (.v 8) (.v 4) .rz,
      .red H .add .n32 .plain (.v 3) (.v 8) (.imm 0), .aenq H .n32 .plain (.v 4) (.v 8) (.v 6), .adeq H .plain (.v 4) (.v 8) (.imm 0)],
      ok i lab = true) ∧ hasLane c.act 0 = true ∧
    (∀ w ∈ [Want.access true 4, .access false 4, .block true 2, .block false 2, .atomic 4, .queue false, .queue true],
      laneCheck lab.begun c.t 0 w (memAddr lab.begun c 0 (.v 8) (.imm 0)) = some (1, 0x11)) ∧
    laneCheck (addrs 2) 256 0 (.access true 4) (readPair (addrs 2) c 0 (.v 8) 4) = some (2, 0x12) ∧
    laneCheck (addrs 0) 256 0 (.access true 4) (readPair (addrs 0) c 0 (.v 8) 4 + 2) = some (3, 0x10) ∧
    laneCheck (addrs 0) 256 0 (.access true 4) (readPair (addrs 0) c 0 (.v 8) 4 + 0x1E0000) = some (4, 0x13) := by decide +kernel


/-- LDU and STU: lanes that disagree on the address, on the offset or on the word, and one address that fails. -/
theorem witness_AddressChecks_uniform : let ld := Instr.ldu H .n32 .plain (.s 6) (.v 8) (.imm 0)
    let st := Instr.stu H .n32 .plain (.v 3) (.s 4) (.reg (.v 2))
    let c := cx ld (addrs 0)
    ok ld (addrs 0) = true ∧ readPair (addrs 0).begun c 1 (.v 8) 4 ≠ readPair (addrs 0).begun c c.low (.v 8) 4 ∧ hasLane c.act 1 = true ∧
    (let s := regs (uni lab 4 0x20000) [(vKey 2 1, 4)]; ok st s = true ∧
      offVal s.begun (cx st s) 1 (.reg (.v 2)) ≠ offVal s.begun (cx st s) (cx st s).low (.reg (.v 2))) ∧
    (let s := regs (uni lab 4 0x20000) [(vKey 3 1, 4)]; ok st s = true ∧
      readTy s.begun (cx st s) .n32 1 (.v 3) 6 ≠ readTy s.begun (cx st s) .n32 (cx st s).low (.v 3) 6) ∧
    (∀ i ∈ [Instr.ldu H .n32 .plain (.s 6) (.s 4) (.imm 0), .stu H .n32 .plain (.s 6) (.s 4) (.imm 0)], ok i (uni lab 4 0x20002) = true ∧ ok i lab = true) ∧
    (∀ b ∈ [true, false], laneCheck (uni lab 4 0x20002).begun 256 0 (.access b 4) (readPair (uni lab 4 0x20002).begun c 0 (.s 4) 4) = some (3, 0x10) ∧
      laneCheck lab.begun 256 0 (.access b 4) (readPair lab.begun c 0 (.s 4) 4) = some (1, 0x11)) := by decide +kernel
theorem trap_ldu_nonuniform : trapOf (.ldu H .n32 .plain (.s 6) (.v 8) (.imm 0)) (addrs 0) = some 0x20 := by decide +kernel
theorem trap_stu_misaligned : trapOf (.stu H .n32 .plain (.s 6) (.s 4) (.imm 0)) (uni lab 4 0x20002) = some 0x10 := by decide +kernel

/-- Branches: a target in the text, the first past it, and one below it. -/
theorem witness_Branches : let c := cx (.bra H 0) lab
    (∀ i ∈ [Instr.bra H 0, .bra H 1, .bra H (-1), .brx H (.v 1)], ok i lab = true) ∧ hasLane c.act 0 = true ∧ c.pc = 0 ∧
    (lab.troupe c.t).context = false ∧ (lab.runOf c.t).textSize = 12 := by decide +kernel

/-- CallsAndReturns: `n` return entries on-chip, `k` spilled, in both lanes. -/
def called (n k : Nat) (rb : Bool) : State :=
  let f := fun t : Thread => { t with rstack := List.replicate n 0, spills := k, readback := rb }
  reTh (reTh (reRun lab fun r => { r with stack := 16 }) 0 f) 1 f
theorem witness_Calls : ∀ x ∈ [(0, 0), (3, 0), (4, 0), (4, 1)], let s := called x.1 x.2 false
    ok (.call H 0) s = true ∧ ok (.callx H (.v 1)) s = true ∧ (s.thread 256 0).readback = false ∧
    (4 ≤ (s.thread 256 0).rstack.length → 8 * ((s.thread 256 0).spills + 1) ≤ (s.runOf 256).stack) ∧ 2 ≤ queueFree s 256 := by
  decide +kernel
/-- Lane 0 has a read-back outstanding: lane 1 calls and returns without it. -/
def mixed (n k : Nat) : State := reTh (called n k false) 0 fun t => { t with readback := true }
theorem witness_Calls_mixed : ∀ i ∈ [Instr.call H 0, .callx H (.v 1), .ret H], ok i (mixed 3 1) = true ∧
    hasLane (cx i (mixed 3 1)).act 0 = true ∧ ((mixed 3 1).thread 256 0).readback = true ∧
    hasLane (cx i (mixed 3 1)).act 1 = true ∧ ((mixed 3 1).thread 256 1).readback = false := by decide +kernel
/-- Pushes that pass the end of the stack area, and a store queue without room for the spills. -/
theorem witness_Calls_overflow : let s := called 4 2 false
    ok (.call H 0) s = true ∧ ok (.callx H (.v 1)) s = true ∧ badTarget (textLimit s 256) (relTarget (cx (.call H 0) s) 0) = false ∧
    (s.thread 256 0).readback = false ∧ 4 ≤ (s.thread 256 0).rstack.length ∧ (s.runOf 256).stack < 8 * ((s.thread 256 0).spills + 1) ∧
    (let z := { called 4 0 false with accs := (List.range 127).map fun k => { acc .store 0 with id := k, part := k, isStore := true } };
      ok (.call H 0) z = true ∧ queueFree z 256 < 2) := by decide +kernel
/-- Targets past the text, of a CALL, a CALLX of lane 1, and a return entry. -/
theorem witness_Calls_targets : (lab.runOf 256).textSize = 12 ∧ ok (.call H 1) (called 0 0 false) = true ∧
    (let s := regs (called 0 0 false) [(vKey 1 1, 12)]; ok (.callx H (.v 1)) s = true ∧ hasLane (cx (.callx H (.v 1)) s).act 1 = true ∧
      readWord s.begun (cx (.callx H (.v 1)) s) 1 (.v 1) 0 = 12) ∧
    (let s := reTh (called 2 0 false) 1 fun t => { t with rstack := [0, 16] }; ok (.ret H) s = true ∧
      (s.thread 256 1).rstack.getLastD 0 = 16 ∧ (s.thread 256 0).rstack.getLastD 0 = 0) := by decide +kernel
theorem trap_call_target : trapOf (.call H 1) (called 0 0 false) = some 0x01 := by decide +kernel
theorem trap_callx_overflow : trapOf (.callx H (.v 1)) (called 4 2 false) = some 0x21 := by decide +kernel
theorem trap_ret_target : trapOf (.ret H) (reTh (called 2 0 false) 1 fun t => { t with rstack := [0, 16] }) = some 0x01 := by
  decide +kernel
theorem step_call_beside_a_stall : let t := aft (.call H 0) (mixed 3 1)
    ((t.thread 256 0).st, (t.thread 256 1).rstack.length) = (.stalled, 4) := by decide +kernel
theorem witness_Returns : (∀ x ∈ [(1, 0), (1, 2), (4, 1)], ok (.ret H) (called x.1 x.2 false) = true ∧
      ((called x.1 x.2 false).thread 256 0).rstack ≠ []) ∧
    ok (.ret H) (called 0 0 false) = true ∧ ((called 0 0 false).thread 256 0).rstack = [] ∧
    (let s := called 1 1 true; ok (.ret H) s = true ∧ ∀ l, hasLane (cx (.ret H) s).act l = true → (s.thread 256 l).readback = true) :=
  ⟨by decide +kernel, by decide +kernel, by decide +kernel, by decide +kernel, on_lanes (by decide +kernel)⟩

/-- Convergence: lane 5 waits at the point, outside a new expected set; lanes 0 and 1 arrive inside the set and outside it. -/
def waiting (w : Wait) (l : Nat) (s : State) : State := reTh s l fun t => { t with st := .waiting, wait := w, info := ⟨H, .v 7, .n32⟩ }
theorem witness_Convergence : let s := waiting (.cvwait 0 0 0) 5 lab
    ok (.cvset H 0) s = true ∧ ok (.cvsetIdle H 0) s = true ∧ (cx (.cvset H 0) s).act ≠ 0 ∧ Awake (cx (.cvset H 0) s) s ∧
    (s.thread 256 5).waitsCv 0 = true ∧ hasLane (cx (.cvset H 0) s).act 5 = false :=
  ⟨by decide +kernel, by decide +kernel, by decide +kernel, on_lanes (by decide +kernel), by decide +kernel, by decide +kernel⟩
/-- The expected set `e`: lanes 0 and 1 arrive, and lane 5 waits. -/
def expects (e : Word) : State := reTr (waiting (.cvwait 0 0 0) 5 lab) fun t => { t with cv := [(0, e)] }
def cvw : Instr := .cvwait H 0 (.v 9) (.imm 4)
def awake (i : Instr) (s : State) : Bool := (lanes (cx i s).mask).all fun l => (s.thread 256 l).st == .ready
/-- Every lane of the set waits or arrives; lane 0 is outside it; lane 6 neither waits nor arrives. -/
theorem witness_Convergence_waits : ([0x23, 0x22, 0x43].all fun e => ok cvw (expects e) && awake cvw (expects e)) = true ∧
    ((expects 0x23).thread 256 5).waitsCv 0 = true ∧ hasLane (0x22 : Mask) 0 = false ∧ hasLane (0x43 : Mask) 6 = true ∧
    ((expects 0x43).thread 256 6).waitsCv 0 = false ∧ ((expects 0x43).troupe 256).expected 0 = 0x43 := by decide +kernel

/-- ExitsAndPauses: an item is left, none is, a write is owed, another grain. -/
theorem witness_Exits : ∀ s ∈ [lab, reRun lab fun r => { r with items := 33 }, reRun lab fun r => { r with grain := 2 },
      reRun lab fun r => { r with determ := true, range := 64, items := 64 }, reTr lab fun t => { t with pend := [⟨5, 1, none, [], false, []⟩] }],
    ok (.exit H) s = true ∧ (∀ l < 32, hasLane (cx (.exit H) s).mask l = true → (s.thread 256 l).st = .ready) ∧
    (s.runOf 256).source ≠ .callboard := by decide +kernel
theorem witness_Pauses : (∀ i ∈ [Instr.nop H, .yield H, .sleep H (.imm 0), .sleep H (.reg (.v 1)), .brk H 7, .brk HP 7], ok i lab = true) ∧
    (cx (.brk H 7) lab).act ≠ 0 ∧ (cx (.brk HP 7) lab).act = 0 := by decide +kernel

/-- FencesAndCounterWaits: with a load and a store outstanding; a counter above n and not; a recorded fault and none. -/
theorem witness_Fences : let s := { lab with accs := [acc .load 0, { acc .store 0 with id := 10, isStore := true }] }
    (∀ i ∈ [Instr.fence H .full .system, .fence H .acq .die, .fence H .rel .stage], ok i s = true) ∧
    ok (.waitc H .copy 0) lab = true ∧ (lab.troupe 256).xfaults = [] ∧
    (let z := reTr lab fun t => { t with xfaults := [5] }; ok (.waitc H .copy 63) z = true ∧ (cx (.waitc H .copy 63) z).act ≠ 0 ∧
      (z.troupe 256).xfaults = [5]) := by decide +kernel

/-- Junctions: `J` is junction 0 of the company. -/
def junct (J : Junction) : State := reCo lab fun c => { c with junctions := [(0, J)] }
def J0 : Junction := ⟨true, false, 3, 0, false, [], [], []⟩
theorem witness_Junctions_set : (∀ e : Word, e = 1 ∨ e = 8192 → let s := regs lab [(sKey 1, e)]
      ok (.jinit H 0 (some (.reg (.s 1)))) s = true) ∧ ok (.jinit H 0 none) lab = true ∧
    (∀ e : Word, e = 0 ∨ e = 8193 → ok (.jinit H 0 (some (.reg (.s 1)))) (regs lab [(sKey 1, e)]) = true) ∧
    ok (.jinit H 0 none) (junct { J0 with a := 1, arrived := [0] }) = true ∧ (cx (.jinit H 0 none) lab).act ≠ 0 ∧
    (lab.junction (companyKey 256) 0).arrived = [] := by
  refine ⟨?_, by decide +kernel, ?_, by decide +kernel, by decide +kernel, by decide +kernel⟩ <;>
    rintro e (rfl | rfl) <;> decide +kernel
/-- The lanes of Active may use the junction, have nothing outstanding, and have arrived, or not. -/
def mayArrive (s : State) (arrived : Bool) : Bool :=
  let x := s.junction (companyKey 256) 0
  ok (.jarr H 0 (.v 3)) s && ok (.jarrw H 0 (.v 3)) s && x.isSet && !(s.companyOf 256).mclost && (storeQueue s 256).isEmpty &&
  ((lanes (cx (.jarr H 0 (.v 3)) s).act).all fun l => (accsOfLane s 256 l).isEmpty && (s.thread 256 l).took.isEmpty &&
    (s.thread 256 l).arrived.isEmpty && (!x.member || x.members.contains (seatOf 256 l)) && x.arrived.contains (seatOf 256 l) == arrived)
theorem witness_Junctions_arrive : mayArrive (junct J0) false = true ∧
    mayArrive (junct { J0 with member := true, members := [0, 1, 2] }) false = true ∧ J0.a + 2 < J0.e ∧
    mayArrive (junct { J0 with a := 2, arrived := [0, 1] }) true = true ∧ 2 < J0.e := by decide +kernel
theorem witness_Junctions_complete : let s := { junct { J0 with a := 2, arrived := [4, 5] } with cur := ⟨256, 1⟩ }
    let x := s.junction (companyKey 256) 0
    ok (.jarr H 0 (.v 3)) s = true ∧ ok (.jarrw H 0 (.v 3)) s = true ∧ (cx (.jarr H 0 (.v 3)) s).act = laneBit 0 ∧
    seatOf 256 0 ∉ x.arrived ∧ x.deferred = [] ∧ x.a + 1 = x.e ∧ (s.thread 256 0).st = .ready := by decide +kernel
theorem witness_Junctions_wait : (∀ s ∈ [junct J0, junct { J0 with a := 2, arrived := [0, 1] }], ok (.jwait H 0) s = true ∧
      (s.junction (companyKey 256) 0).isSet = true ∧ (s.companyOf 256).mclost = false) ∧
    (∀ s ∈ [lab, junct { J0 with member := true, members := [1] }], ∀ i ∈ [Instr.jarr H 0 (.v 3), .jwait H 0, .jarrw H 0 (.v 3)],
      ok i s = true ∧ hasLane (cx i s).act 0 = true ∧ ((s.junction (companyKey 256) 0).isSet = false ∨
        seatOf 256 0 ∉ (s.junction (companyKey 256) 0).members)) ∧
    (let s := reCo (junct J0) fun c => { c with mclost := true }; ok (.jwait H 0) s = true ∧ ok (.jarrw H 0 (.v 3)) s = true ∧
      (s.companyOf 256).mclost = true ∧ (cx (.jwait H 0) s).act ≠ 0) := by decide +kernel

/-- Waypoints. -/
def wpState (b c : Word) : State := regs (uni lab 4 0x20000) [(sKey 6, b), (sKey 7, c)]
theorem witness_Waypoints : ∀ x ∈ [(65535, 0), (0, 0xFFFFFFFF), (1, 1)], let s := wpState (BitVec.ofNat 32 x.1) (BitVec.ofNat 32 x.2)
    let c := cx (.wpinit H (.s 4) (.s 6) (.s 7)) s
    ok (.wpinit H (.s 4) (.s 6) (.s 7)) s = true ∧ c.act ≠ 0 ∧
    (∀ l < 32, hasLane c.act l = true → readPair s.begun c l (.s 4) 0 = readPair s.begun c c.low (.s 4) 0 ∧
      readWord s.begun c l (.s 6) 1 = readWord s.begun c c.low (.s 6) 1 ∧ readWord s.begun c l (.s 7) 2 = readWord s.begun c c.low (.s 7) 2) ∧
    waypointCheck s.begun c.t (readPair s.begun c c.low (.s 4) 0) = none ∧ (readWord s.begun c c.low (.s 6) 1).toNat ≤ 65535 ∧
    ((readWord s.begun c c.low (.s 6) 1).toNat ≠ 0 ∨ (readWord s.begun c c.low (.s 7) 2).toNat ≠ 0) ∧
    inDerived s 0x20000 16 = false ∧ poisoned s 0x20000 16 = false ∧ s.accs = [] := by decide +kernel
theorem witness_Waypoints_home : let u : WpUpd := ⟨9, 0x20000, none, 0, false, [], 0, 0, some (256, 3), some (2, 64), none⟩
    let s := { lab with upds := [u] }
    s.upds.find? (fun x => x.id == u.id) = some u ∧ lineClosed s 0 [(u.addr, 16)] = false ∧
    lostAt s ((copyById s u.copy).any Copy.castWp) u.addr = none ∧ inDerived s u.addr 16 = false ∧ anyWatched s [(u.addr, 16)] = false ∧
    poisoned s u.addr 16 = false := by decide +kernel
theorem witness_Waypoints_use : (∀ x ∈ [(0x20000, true), (0x20004, false), (0x200000, false)], let s := uni lab 4 x.1
      let c := cx (.wparr H true (.s 4) (.imm 64)) s
      ok (.wparr H true (.s 4) (.imm 64)) s = true ∧ ok (.wpwait H (.v 3) (.s 4) (.v 1) (.v 2)) s = true ∧
      hasLane c.act 0 = true ∧ (waypointCheck s.begun c.t (readPair s.begun c 0 (.s 4) 0) = none ↔ x.2 = true)) ∧
    (lab.companyOf 256).mclost = false := by decide +kernel

/-- LaneExchanges. -/
theorem witness_LaneExchanges : (∀ i ∈ [Instr.qswz H .n64 (.v 4) (.v 0) (.imm 0xE4), .qswz H .n32 (.v 3) (.v 1) (.reg (.v 2)),
      .shfl H .up .n32 (.v 3) (.v 1) (.imm 31), .shfl H .xor .n64 (.v 4) (.v 0) (.reg (.v 2)), .shfl H .idx .i32 (.v 3) (.v 1) (.imm 0),
      .elect H (.p 1), .umov H .n32 (.s 3) (.v 1) (.imm 31)], ok i lab = true) ∧ (cx (.umov H .n32 (.s 3) (.v 1) (.imm 31)) lab).act ≠ 0 ∧
    (let s := regs lab [(vKey 2 1, 1)]; let i := Instr.umov H .n32 (.s 3) (.v 1) (.reg (.v 2))
      ok i s = true ∧ hasLane (cx i s).act 1 = true ∧ readSrcZ s.begun (cx i s) 1 (.reg (.v 2)) 1 ≠ readSrcZ s.begun (cx i s) (cx i s).low (.reg (.v 2)) 1) := by
  decide +kernel

/-- TroupeWide: a part of the troupe, and all of it. -/
def wideOps (sc : XScope) : List Instr :=
  let v := fun n : Fin 512 => Opd.v n
  [.vote H .any sc (.p 1) (.p 7), .vote H .every sc (.p 1) (.p 0), .vote H .ballot sc (v 3) (.p 0), .vote H .same sc (.p 1) (.p 0),
   .tred H .add sc .i64 (v 4) (v 0), .tred H .min sc .n32 (v 3) (v 1), .tred H .xor sc .i32 (v 3) (v 1), .tred H .add sc .f32 (v 3) (v 1),
   .tscan H .max sc .i32 false (v 3) (v 1), .tscan H .add sc .f32 true (v 3) (v 1), .matchv H sc .n64 (v 3) (v 0)]
theorem witness_TroupeWide : (∀ sc ∈ [XScope.act, .seg, .all], ∀ i ∈ wideOps sc, ok i lab = true) ∧ (lab.runOf 256).determ = false := by
  decide +kernel
theorem witness_TroupeWide_all : let i := Instr.vote H .any .all (.p 1) (.p 7)
    let full := { lab with cur := ⟨256, 0xFFFFFFFF⟩ }
    hasLane ((lab.troupe 256).reachedAt 0) 2 = false ∧
    (∀ l < 32, hasLane (cx i lab).mask l = true → (lab.thread 256 l).st = .ready ∧ (lab.thread 256 l).pc = 0) ∧
    (lab.thread 256 2).st ≠ .drained ∧ (lab.thread 256 2).st ≠ .held ∧ (lab.thread 256 2).waitsAll 0 = false ∧ hasLane (cx i lab).mask 2 = false ∧
    (∀ j ∈ wideOps .all, ok j full = true) ∧ (full.troupe 256).liveNonHeld = (cx i full).act ∧ (cx i full).mask = (cx i full).act := by
  decide +kernel


/-- The last bundle joins: lanes 2 to 30 wait at the instruction with their words, and lane 31 has passed it with a false guard. -/
theorem witness_TroupeWide_joined : let i := Instr.vote H .ballot .all (.v 3) (.p 0)
    let s := reTr lab fun tr => { tr with
      reached := [(0, laneBit 31)]
      threads := tr.threads.map fun x => (x.1, if 2 ≤ x.1 ∧ x.1 < 31 then
        { x.2 with st := .waiting, wait := .all i (BitVec.ofNat 64 x.1), info := ⟨H, .v 3, .n32⟩ } else x.2) }
    ok i s = true ∧ (∀ l < 32, (s.thread 256 l).waitsAll 0 = true ∨ hasLane ((s.troupe 256).reachedAt 0) l = true ∨ hasLane (cx i s).mask l = true) ∧
    (s.thread 256 2).waitsAll 0 = true ∧ (s.thread 256 2).wait = .all i 2 ∧ (s.thread 256 2).info.d = .v 3 ∧
    (∀ l < 32, hasLane (cx i s).mask l = true → (s.thread 256 l).pc = 0) := by decide +kernel

/-- MatrixInstructions: a good block, one with a reserved bit, and a full counter. -/
def mmaRegs (w3 : Word) (s : State) : State := regs s [(sKey 4, 0), (sKey 5, 0x1FE10), (sKey 6, 0), (sKey 7, w3)]
def full (cls : Eng) (s : State) : State := reTr s fun t => { t with ops := List.replicate 63 ⟨3, cls, .accz 0, [], [], none, false⟩ }
def blockAt (s : State) (r : Fin 160) : List Word :=
  (List.range 4).map fun k => readPart s.begun (cx (.mma H (.s r)) s) (cx (.mma H (.s r)) s).low (.s r) k 0
theorem witness_Matrix_mma : (∀ s ∈ [mmaRegs 0 lab, mmaRegs 1 lab, full .mma (mmaRegs 0 lab)], ok (.mma H (.s 4)) s = true) ∧
    (cx (.mma H (.s 4)) lab).act ≠ 0 ∧ (∀ s ∈ [mmaRegs 0 lab, full .mma (mmaRegs 0 lab)],
      mmaCheck (s.runOf 256) (s.troupe 256) (mmaBlock (blockAt s 4)) = none) ∧
    mmaCheck (lab.runOf 256) (lab.troupe 256) (mmaBlock (blockAt (mmaRegs 1 lab) 4)) = some (0x01, none) ∧
    ((mmaRegs 0 lab).troupe 256).counter .mma = 0 ∧ ((full .mma (mmaRegs 0 lab)).troupe 256).counter .mma = 63 := by decide +kernel
def withRec (k : Nat) (r : Rec) (s : State) : State := reTr s fun t => { t with recs := [(k, r)] }
theorem witness_Matrix_tiles : let s := withRec 2 ⟨true, 0, false, false, 4, 0⟩ (uni lab 4 0x20000)
    (∀ i ∈ [Instr.accld H (.s 4) 63, .accst H (.s 4) 0, .accz H 63, .ldscl H 2 (.s 4) 256], ok i s = true ∧ (cx i s).act ≠ 0) ∧
    (s.troupe 256).counter .mma < 63 ∧ (s.runOf 256).acct = 64 ∧ engineAddr s.begun 256 (readPair s.begun (cx (.accld H (.s 4) 63) s) 0 (.s 4) 0)
      256 16384 true = none ∧ ((s.troupe 256).record 2).used = true ∧
    (∀ l < 32, hasLane (cx (.accld H (.s 4) 63) s).act l = true → readPair s.begun (cx (.accld H (.s 4) 63) s) l (.s 4) 0 =
      readPair s.begun (cx (.accld H (.s 4) 63) s) (cx (.accld H (.s 4) 63) s).low (.s 4) 0) ∧
    (let z := reRun s fun r => { r with acct := 2 }; ok (.accz H 2) z = true ∧ (z.runOf 256).acct ≤ 2) := by decide +kernel
theorem witness_Matrix_out : let s := regs (uni lab 4 0x20000) [(sKey 8, 0x500), (sKey 9, 0x201000), (sKey 10, 16), (sKey 11, 0)]
    let i := Instr.accout H (.s 8) (.s 4) .rz
    let b := outBlock (blockAt s 8)
    let x := readPair s.begun (cx i s) (cx i s).low (.s 4) 1
    ok i s = true ∧ (cx i s).act ≠ 0 ∧ outIllop b true = false ∧ b.rnd = 5 ∧ b.acc < (s.runOf 256).acct ∧ b.stride % 4 = 0 ∧
    engineAddr s.begun 256 x 4 b.rowBytes false = none ∧ 0 < b.rows ∧ b.mx = false ∧
    ∀ r < b.rows, offOf x % 2 ^ 34 + r * b.stride < 2 ^ 34 ∧ boundsCheck s.begun 256 (x + BitVec.ofNat 64 (r * b.stride)) b.rowBytes = none ∧
      inDerived s.begun (physOf s.begun 256 0 x + r * b.stride) b.rowBytes = false := by decide +kernel
theorem witness_Matrix_records : let s := withRec 2 ⟨true, 0, false, false, 4, 0⟩ lab
    let c := cx (.rsvop H 3 (.v 3) (.imm 32)) s
    ok (.rsvop H 3 (.v 3) (.imm 32)) s = true ∧ c.act ≠ 0 ∧ (readSrcZ s.begun c c.low (.imm 32) 1).toNat / 32 % 2048 = 1 ∧
    ((s.troupe 256).record 3).used = false ∧ ok (.rsvop H 3 (.v 3) (.reg (.s 1))) (regs s [(sKey 1, 0x8000)]) = true ∧
    ok (.rlsop H 2) s = true ∧ ((s.troupe 256).record 2).used = true ∧ (s.troupe 256).freeing = [] ∧
    ok (.rlsop H 5) s = true ∧ ((s.troupe 256).record 5).used = false := by decide +kernel
/-- No range of 64 bytes fits a buffer that one range fills. -/
theorem witness_Matrix_no_room : let g := { lab.stage 0 with ranges := [(0, 65536)] }
    ∀ o, ¬(o % 64 = 0 ∧ o + 64 * 1 ≤ 65536 ∧ ∀ x ∈ g.ranges, overlaps o (64 * 1) x.1 x.2 = false) := by
  intro g o h
  have := h.2.2 (0, 65536) (by simp [g])
  simp [overlaps] at this
  omega
theorem witness_Matrix_room : 0 + 64 * 1 ≤ 65536 ∧ ∀ x ∈ (lab.stage 0).ranges, overlaps 0 (64 * 1) x.1 x.2 = false := by decide +kernel

/-- MatrixUnit: the oldest operation is an MMA to read, one to perform, an ACCZ, an ACCLD. -/
def unit (k : EngKind) : State := reTr lab fun t => { t with ops := [⟨7, .mma, k, [], [], none, false⟩] }
theorem witness_MatrixUnit : (∀ k ∈ [EngKind.mma [0, 0x1FE10, 0, 0] [(0, 1)] Rec.free Rec.free [] [] [] false none,
      .mma [0, 0x1FE10, 0, 0] [] Rec.free Rec.free [1] [] [] true none, .accz 63, .accld 0 0x20000],
      (headMma ((unit k).troupe 256)).map EngOp.kind = some k ∧
      unitTurn (unit k) 256 ⟨7, .mma, k, [], [], none, false⟩ = true ∧ waitsTile (unit k) (.engine 256 7) = false) ∧
    engineStale lab [(0x20000, 16384)] = [] ∧ engineMayRead lab [(0x20000, 16384)] = true ∧ poisoned lab 0x20000 16384 = false := by
  decide +kernel

/-- CopiesAndCollectives: a record of 256 bytes from 0x21000 to 0x22000, at 0x20000 and again at 0x20040. -/
def dev (a : Nat) : List Byte := nat 8 (2 ^ 63 + a)
def copyRecord : List Byte := nat 8 0x400 ++ dev 0x21000 ++ dev 0x22000 ++ nat 8 256 ++ List.replicate 32 0
def copying : State := bytes (uni lab 4 0x20000) 0x20000 (copyRecord ++ copyRecord)
def copy1 : Instr := .copy H (.s 4) (.imm 1)
theorem witness_Copies : ok copy1 copying = true ∧ (cx copy1 copying).act ≠ 0 ∧ begunRecords copying (cx copy1 copying) = 0 ∧ troupeNo 256 = (copying.runOf 256).producer ∧
    (let x := readPair copying.begun (cx copy1 copying) 0 (.s 4) 0;
      engineAddr copying.begun 256 x 64 64 false = none ∧ recordBytes copying.begun 256 0 x 64 = some copyRecord) ∧
    (copying.troupe 256).counter .copy < 63 ∧ recCheck copying.begun 256 (copyRec copyRecord) = none ∧
    recCheck2 copying.begun 256 (copyRec copyRecord) ShapeRec.none false = none ∧ (copyRec copyRecord).kind ≠ 2 ∧
    (∀ n ∈ [0, 17], ok (.copy H (.s 4) (.reg (.s 1))) (regs copying [(sKey 1, BitVec.ofNat 32 n)]) = true) ∧
    (let s := reRun copying fun r => { r with producer := 1 }; ok copy1 s = true ∧ troupeNo 256 ≠ (s.runOf 256).producer) := by decide +kernel
/-- Two records: each issues in turn. -/
def copyChain (x : Dword) : Nat → State
  | 0 => copying.begun
  | k + 1 => match issueRecord (copyChain x k) (cx (.copy H (.s 4) (.imm 2)) copying) (x + BitVec.ofNat 64 (64 * k)) with
    | some (.inl s) => s
    | _ => copyChain x k
def isIssued (x : Option (State ⊕ Nat)) : Bool := match x with
  | some (.inl _) => true
  | _ => false
theorem witness_Copies_chain : let i := Instr.copy H (.s 4) (.imm 2)
    let x : Dword := BitVec.ofNat 64 (2 ^ 63 + 0x20000)
    ok i copying = true ∧ readPair copying.begun (cx i copying) (cx i copying).low (.s 4) 0 = x ∧
    engineAddr copying.begun 256 x 64 128 false = none ∧ begunRecords copying (cx i copying) = 0 ∧
    (copying.troupe 256).counter .copy + 2 ≤ 63 ∧ (∀ k < 2, isIssued (issueRecord (copyChain x k) (cx i copying) (x + BitVec.ofNat 64 (64 * k))) = true) := by
  decide +kernel
/-- Two records in two lines, of which the second is being written by another copy. -/
theorem witness_Copies_stall : let s := { bytes (uni lab 4 0x200C0) 0x200C0 (copyRecord ++ copyRecord) with pclear := [(0x201, 7)] }
    let i := Instr.copy H (.s 4) (.imm 2)
    let c := cx i s
    let x : Dword := BitVec.ofNat 64 (2 ^ 63 + 0x200C0)
    ok i s = true ∧ c.act ≠ 0 ∧ begunRecords s c = 0 ∧ engineAddr s.begun c.t x 64 128 false = none ∧
    (match issueRecord s.begun c x with
      | some (.inl z) => (issueRecord z c (x + 64)).isNone && (s.troupe c.t).counter .copy + 2 ≤ 63
      | _ => false) = true ∧ begunRecords (aft i s) c = 1 := by decide +kernel
theorem witness_CopyLanes : let s := regs (addrs 0) [(vKey 10 0, 0x30000), (vKey 11 0, 0x80000000), (vKey 10 1, 0x30040), (vKey 11 1, 0x80000000)]
    ok (.copyl H false (.v 10) (.v 8) (.imm 64) .rz) s = true ∧ ok (.cstat H (.v 3)) s = true ∧ (s.troupe 256).counter .gather < 63 ∧
    (let c := cx (.copyl H false (.v 10) (.v 8) (.imm 64) .rz) s
      ∀ n ∈ [4, 64, 4096], ∀ l < 2, copylCheck s.begun 256 l (readPair s.begun c l (.v 8) 0) (readPair s.begun c l (.v 10) 6) n none = none) := by decide +kernel
def collRecord : List Byte :=
  nat 8 (1 + 2 ^ 16) ++ dev 0x23000 ++ dev 0x24000 ++ dev 0x25000 ++ nat 8 4 ++ List.replicate 24 0
theorem witness_Collectives : let s := bytes (uni lab 4 0x20000) 0x20000 collRecord
    let i := Instr.coll H (.s 4)
    let x := readPair s.begun (cx i s) (cx i s).low (.s 4) 0
    let r := collRec collRecord
    ok i s = true ∧ engineAddr s.begun 256 x 64 64 false = none ∧ recordBytes s.begun 256 0 x 64 = some collRecord ∧
    collCheck s.begun 256 r = none ∧ recordBytes s.begun 256 0 r.group (2 * r.nranks) = some [0, 0] ∧ skid s = 0 ∧
    localBounds s.begun 256 r.src 0 r.srcBytes = none ∧ localBounds s.begun 256 r.dst 0 r.dstBytes = none ∧ r.wp = 0 ∧
    inDerived s.begun 0x25000 r.dstBytes = false ∧ (s.troupe 256).counter .coll < 63 := by decide +kernel

/-- Derivations: the transpose of a 32 by 32 binary32 tensor, in a region homed to a slice. -/
def desc (off : Nat) : List Byte := nat 8 off ++ nat 4 32 ++ nat 4 32 ++ nat 4 128 ++ List.replicate 12 0
def regRecord : List Byte := nat 8 1 ++ dev 0x20100 ++ dev 0x20200 ++ List.replicate 40 0
def deriving1 : State :=
  let s := bytes (bytes (bytes (uni lab 4 0x20000) 0x20000 regRecord) 0x20100 (desc 0x40000)) 0x20200 (desc 0x50000)
  { s with ports := { s.ports with region := [(0, 0x40200000)] } }
def dreg1 : Instr := .dreg H (.v 3) (.s 4)
theorem witness_Dreg_stores : let s := { deriving1 with accs := [{ acc .store 0 with isStore := true }] }
    ok dreg1 s = true ∧ (cx dreg1 s).act ≠ 0 ∧ storeIds s 256 ≠ [] ∧
    dregAddr s.begun 256 (readPair s.begun (cx dreg1 s) 0 (.s 4) 0) 64 64 = none := by decide +kernel
theorem witness_Dreg : storeIds deriving1 256 = [] ∧ ok dreg1 deriving1 = true ∧ (cx dreg1 deriving1).act ≠ 0 ∧
    (let x := readPair deriving1.begun (cx dreg1 deriving1) 0 (.s 4) 0;
      dregAddr deriving1.begun 256 x 64 64 = none ∧ recordBytes deriving1.begun 256 0 x 64 = some regRecord) ∧
    (let r := regRec regRecord;
      dregAddr deriving1.begun 256 r.bdesc 32 32 = none ∧ recordBytes deriving1.begun 256 0 r.bdesc 32 = some (desc 0x40000) ∧
      dregAddr deriving1.begun 256 r.ddesc 32 32 = none ∧ recordBytes deriving1.begun 256 0 r.ddesc 32 = some (desc 0x50000) ∧
      ((dregCheck deriving1.begun 256 r (descriptor (desc 0x40000)).1 (descriptor (desc 0x50000)).1 false).getRight?).map Prod.fst = some 0) := by
  decide +kernel
/-- A base line of the derivation is closed by a write that waits for its stale marks. -/
theorem witness_Dreg_closed : let s := { deriving1 with accs := [{ acc .store 0 with phys := 0x40000, st := .heldW [3], who := .service 0 0 0 }] }
    ok dreg1 s = true ∧ storeIds s 256 = [] ∧
    (match dregCheck s.begun 256 (regRec regRecord) (descriptor (desc 0x40000)).1 (descriptor (desc 0x50000)).1 false with
      | .inr (_, e) => heldClosed s.begun 0 e.base.rowRanges
      | _ => false) = true := by decide +kernel
/-- One entry, of this partition or of another; its tiles idle or BUSY. -/
def entry1 (part : Nat) : Entry := ⟨true, part, 1, 0, false, false, 0, ⟨0x40000, 32, 32, 128, 0⟩, ⟨0x50000, 32, 32, 128, 0⟩, 0, 0, 1⟩
def derived (part : Nat) (st : TileState) : State := { lab with entries := [(0, entry1 part)], tiles := [(0, ⟨st, [], []⟩)] }
theorem witness_Derivations : (∀ s ∈ [derived 0 .stale, derived 0 .busy, derived 5 .stale, lab],
      ∀ i ∈ [Instr.dunreg H (.v 3) (.imm 0), .dstat H (.v 3) (.imm 127), .dfresh H (.imm 0)], ok i s = true ∧ (cx i s).act ≠ 0) ∧
    (derived 0 .stale).entry 0 = entry1 0 ∧ feedsOther (derived 0 .stale) 0 (entry1 0) = false ∧ tilesBusy (derived 0 .stale) 0 = false ∧
    tilesBusy (derived 0 .busy) 0 = true ∧ (entry1 5).part ≠ (lab.runOf 256).part ∧ (lab.runOf 256).determ = false ∧
    (entry1 0).der.tiles ≤ 65536 ∧
    (let s := reRun (derived 0 .stale) fun r => { r with determ := true, strict := true }; ok (.dstat H (.v 3) (.imm 0)) s = true ∧
      (s.entry 0).used = true ∧ (s.entry 0).part = (s.runOf 256).part ∧ (s.runOf 256).strict = true) := by decide +kernel

/-- SystemCalls: service 7 goes to a ring of two entries at 0x30000, which is empty, or full. -/
def calling (head tail : Nat) : State :=
  let s := bytes (reRun (addrs 0) fun r => { r with save := 0x100000, saveSet := true }) 0x30000
    (nat 4 head ++ nat 4 tail ++ nat 8 1 ++ nat 8 0x31000 ++ nat 8 0)
  { s with
    cur := ⟨256, 1⟩
    ports := { s.ports with svcr := [(0, ⟨BitVec.ofNat 128 (2 ^ 63 + 0x30000 + 7 * 2 ^ 96 + 7 * 2 ^ 112), 0, 0⟩)] } }
def svc1 : Instr := .svc H (.v 4) (.v 8) (.imm 7)
theorem witness_Traps : ok (.trap H 7) lab = true ∧ (cx (.trap H 7) lab).act ≠ 0 ∧
    (∀ i ∈ [svc1, .svcPark H (.v 4) (.v 8) (.imm 7)], ok i (addrs 0) = true ∧
      ∀ l < 2, laneCheck (addrs 0).begun 256 l .svc (readPair (addrs 0).begun (cx i (addrs 0)) l (.v 8) 0) = none) ∧
    svcRoute (addrs 0).begun 256 7 = none := by decide +kernel
theorem witness_Calls_of_services : (∀ s ∈ [calling 0 0, calling 0 1, calling 0 2], ok svc1 s = true ∧ (cx svc1 s).act = laneBit 0 ∧
      (svcRoute s.begun 256 7).isSome = true ∧ arrivalIds s.begun (cx svc1 s) = []) ∧
    (svcRoute (calling 0 1).begun 256 7).map Ring.full = some false ∧ (svcRoute (calling 0 2).begun 256 7).map Ring.full = some true ∧
    (recordBytes (calling 0 1).begun 256 0 (readPair (calling 0 1).begun (cx svc1 (calling 0 1)) 0 (.v 8) 0) 64).isSome = true ∧
    poisoned (calling 0 1) 0x20000 64 = false ∧
    (let slot := blockOf (calling 0 1) 256 + 3072;
      plain (calling 0 1) [(slot, 16), (0x31080, 128), (0x30000, 32)] = true ∧
      ∀ r ∈ [(slot, 16), (0x31080, 128), (0x30000, 32)], ∀ q ∈ [(slot, 16), (0x31080, 128), (0x30000, 32)], r ≠ q → overlaps r.1 r.2 q.1 q.2 = false) := by
  decide +kernel

/-- ControlRegisters: in the handler and out of it, at the first and the last number of each range. -/
def handling (s : State) : State := reTr s fun t => { t with status := .handler, handlers := 0xFFFFFFFF }
theorem witness_ControlRegisters : (∀ n ∈ [0x100, 0x107, 0x109, 0x120, 0x13F, 0x140, 0x15F, 0x160, 0x0FF],
      ok (.csrr H (.v 3) (.imm (BitVec.ofNat 20 n))) (handling lab) = true ∧ ok (.csrw H (.v 3) (.imm (BitVec.ofNat 20 n))) (handling lab) = true) ∧
    (∀ n ∈ [0, 4, 5], ok (.csrr H (.v 3) (.imm (BitVec.ofNat 20 n))) lab = true ∧ ok (.csrw H (.v 3) (.imm (BitVec.ofNat 20 n))) lab = true) ∧
    (cx (.csrr H (.v 3) (.imm 0)) lab).act ≠ 0 := by decide +kernel

/-- LaunchAndRelease: queue 0 serves partition 0, or another. -/
def launching (part : Nat) : State :=
  let s := bytes (uni lab 4 0x20000) 0x20000 [1, 0, 0, 0]
  { s with queues := [(0, { (s.queue 0) with served := true, part := part, qcb := 0x30000, ring := 0x31000, capLog2 := 4 })] }
def launch1 : Instr := .launch H (.v 3) (.s 4) (.imm 0)
theorem witness_Launch : (∀ s ∈ [launching 0, launching 1], ok launch1 s = true ∧ (cx launch1 s).act ≠ 0 ∧
      engineAddr s.begun 256 (readPair s.begun (cx launch1 s) 0 (.s 4) 0) 128 128 false = none ∧ arrivalIds s.begun (cx launch1 s) = [] ∧
      (recordBytes s.begun 256 0 (readPair s.begun (cx launch1 s) 0 (.s 4) 0) 128).isSome = true) ∧
    launchable (launching 0).begun 256 0 = true ∧ launchable (launching 1).begun 256 0 = false ∧
    plain (launching 0) [(0x31000, 128), (0x30000, 32)] = true ∧ overlaps 0x31000 128 0x30000 32 = false := by decide +kernel
theorem witness_Launch_stall : let s := { launching 0 with accs := [{ acc .store 0 with phys := 0x3000C, who := .device }] }
    ok launch1 s = true ∧ launchable s.begun 256 0 = true ∧ deviceFree s.begun (launchPlaces s.begun 0) = false := by decide +kernel
theorem witness_Gate : ok (.gate H) lab = true ∧ (lab.runOf 256).gateOpen = true ∧
    (let s := reRun lab fun r => { r with gateOpen := false }; ok (.gate H) s = true ∧ (s.runOf 256).gateOpen = false) ∧
    ok (.release H) lab = true ∧ (cx (.release H) lab).act ≠ 0 ∧ ok (.release HP) lab = true ∧ (cx (.release HP) lab).act = 0 := by decide +kernel

/-- ContextParts: the context handler saves and loads at 0x20000. -/
def ctxHandler (reason : Nat) : State := reTr (handling (uni lab 4 0x20000)) fun t => { t with context := true, last := { t.last with reason := reason } }
def ctxLoad : State := reCo (ctxHandler 2) fun c => { c with offCore := true }
theorem witness_ContextParts : (∀ part ∈ [CtxPart.thread, .troupe, .junct], ok (.savectx H part (.s 4)) (ctxHandler 1) = true ∧
      ok (.loadctx H part (.s 4)) ctxLoad = true) ∧ (cx (.loadctx H .thread (.s 4)) ctxLoad).act ≠ 0 ∧
    (let x := readPair (ctxHandler 1).begun (cx (.savectx H .junct (.s 4)) (ctxHandler 1)) 0 (.s 4) 0;
      engineAddr (ctxHandler 1).begun 256 x 256 50688 true = none ∧ engineAddr (ctxHandler 1).begun 256 x 256 50688 false = none) ∧
    (loadThreads ctxLoad.begun 256 (cleanBytes ctxLoad 0x20000 2048)).isSome = true ∧

    (loadTroupe ctxLoad.begun 256 (cleanBytes ctxLoad 0x20000 256) (cleanBytes ctxLoad 0x20800 65536)).toOption.isSome = true ∧
    saveHeld (ctxHandler 1) 256 = false ∧ saveHeld (full .copy (ctxHandler 1)) 256 = true ∧ ok (.savectx H .troupe (.s 4)) (full .copy (ctxHandler 1)) = true := by
  decide +kernel

theorem witness_ContextParts_stall : let shut (s : State) : State := { s with accs := [{ acc .store 0 with who := .device }] }
    (∀ part ∈ [CtxPart.thread, .troupe, .junct], ok (.savectx H part (.s 4)) (shut (ctxHandler 1)) = true ∧
      ok (.loadctx H part (.s 4)) (shut ctxLoad) = true) ∧ deviceMayRead (shut ctxLoad) [(0x20000, 2048)] = false ∧
    deviceMayRead (shut ctxLoad) [(0x20000, 50688)] = false ∧
    deviceFree (shut (ctxHandler 1)) ((ctxImages (shut (ctxHandler 1)) 256 .thread).map fun z => (0x20000 + z.1, z.2.length)) = false := by
  decide +kernel
theorem witness_ContextParts_junctions : (loadJunctions ctxLoad.begun 1 (cleanBytes ctxLoad 0x20000 50688)).isSome = true := by
  have e : cleanBytes ctxLoad 0x20000 50688 = List.replicate 50688 0 := by
    have hm : ctxLoad.mem = [] := by decide +kernel
    have hp : ctxLoad.poison = [] := by decide +kernel
    refine List.eq_replicate_iff.mpr ⟨by simp [cleanBytes], fun b hb => ?_⟩
    obtain ⟨k, _, rfl⟩ := List.mem_map.mp hb
    simp only [cleanByte, hm, hp, Memory.byte]
    rfl
  have hj : junctionOf (List.replicate 2112 0) = some ⟨false, false, 0, 0, false, [], [], []⟩ := by decide +kernel
  have hn : ((List.range 24).map fun k => (k, junctionOf (((List.replicate 50688 (0 : Byte)).drop (2112 * k)).take 2112))).any
      (fun x => x.2.isNone) = false := by
    simp only [List.any_map, List.any_eq_false, List.mem_range]
    intro k hk
    have : min 2112 (50688 - 2112 * k) = 2112 := by omega
    simp only [Function.comp_apply, List.drop_replicate, List.take_replicate, this, hj]
    decide
  rw [e]
  simp only [loadJunctions, hn]
  rfl

/-! #### Issue, traps and steps -/

/-- IssueChecks: a check that fails, a privileged instruction outside its mode, a busy flag. -/
def plain1 : Fields := unpack 0x000FF100003FF0080100DC00
theorem witness_IssueChecks : issuable lab = true ∧ fieldsOf (.iadd H .i32 false (.v 3) (.v 1) (.reg (.v 2))) = some plain1 ∧
    (let s := reRun lab fun r => { r with regs := 2 };
      (encTrap s (ctxOf s (hdrOf plain1)) plain1 false).isSome = true) ∧
    privOf (.rtt H) lab (cx (.rtt H) lab) = true ∧ ((fieldsOf (.rtt H)).map fun f => encTrap lab (ctxOf lab (hdrOf f)) f false) = some none := by
  decide +kernel
def waits2 : Instr := .nop { H with wait := 2 }
theorem witness_Interlock : let s := reTr lab fun t => { t with pend := [⟨5, 1, some 1, [(0, 0)], true, []⟩] }
    (fieldsOf waits2).map (fun f => (encTrap s (ctxOf s (hdrOf f)) f false, (hdrOf f).cs, (s.troupe 256).busy &&& (hdrOf f).wait)) =
      some (none, true, 2) := by decide +kernel

/-- TrapEntry: RESIDENT with a handler, and without; in HANDLER. -/
theorem witness_TrapEntry : (let s := reRun lab fun r => { r with trapVec := 0 }; (s.troupe 256).status = .resident ∧
      (s.runOf 256).trapVec ≠ 0xFFFFFFFF ∧ readbackOut (s.troupe 256) = false) ∧ (lab.runOf 256).trapVec = 0xFFFFFFFF ∧
    ((handling lab).troupe 256).status = .handler := by decide +kernel

/-- ReturnFromTrap: only some of the handler set arrive; all of it does, after PCs were written, skipped, or left. -/
def frozen1 (st : TState) (w : Wait) : Frozen := { frozenOf lab 256 0 with st := st, wait := w }
theorem witness_ReturnFromTrap : ok (.rtt H) (handling lab) = true ∧
    (∀ s ∈ [reTr (handling lab) fun t => { t with handlers := 3, written := 1, frozen := [(0, frozen1 .ready .none), (1, frozen1 .ready .none)] },
        reTr (handling lab) fun t => { t with handlers := 3, frozen := [(0, frozen1 .waiting (.svc 5 false)), (1, frozen1 .held .none)] },
        reTr (handling lab) fun t => { t with handlers := 3, frozen := [(0, frozen1 .waiting (.sleep 5)), (1, frozen1 .waiting (.cvwait 0 0 0))] }],
      ok (.rtt H) s = true ∧ (s.troupe 256).handlers ≠ 0 ∧ (s.troupe 256).pendPre = 0 ∧ (cx (.rtt H) s).mask = (cx (.rtt H) s).act ∧
      ∀ l < 32, hasLane (s.troupe 256).handlers l = true → hasLane (cx (.rtt H) s).act l = true) := by decide +kernel

/-- RoundTrip: instructions that are well formed, with operands at the ends of their ranges. -/
theorem witness_RoundTrip : ∀ i ∈ [Instr.iadd H .i64 true (.v 510) (.s 158) (.imm (-1)), .movi H .rz 0xFFFFFFFF, .plop H 0xFF (.p 7) (.p 0) (.p 6) (.p 7),
      .nop { H with cs := false, sel := .a, yld := true }, .waitc H .remote 63, .jinit H 23 none, .copyl H true (.v 2) (.v 4) (.imm 64) .rz],
    (i.wfCode && i.wfHint && i.wfForm && i.wfRegs && i.wfWaypoint) = true := by decide +kernel

/-- BundlesAreReady and StepRunsDecoded: the placed word is fetched at its PC; the PC past the text; the context handler. -/
def placed : State := State.reset.withFetchWord 96 0x000FF100003FFFFFFFFFDCC9
def picked (s : State) : Option (State × Bundle) := pickBundle (nextAction s).2 0 0
def pk (s : State) : State := ((picked s).map Prod.fst).getD s
theorem witness_StepRunsDecoded : (nextAction placed).1 = .issue 0 0 ∧ placed.mgmt.held = false ∧
    (picked placed).map Prod.snd = some ⟨256, 0xFFFFFFFF⟩ ∧
    readyPart (pk placed) ⟨256, 0xFFFFFFFF⟩ = 0xFFFFFFFF ∧ stageRequests (pk placed) 0 = 0 ∧ ((pk placed).troupe 256).context = false ∧
    ((pk placed).runOf 256).textSize = 12 ∧ cachedWord (pk placed) 0 (textAddr (pk placed) 256 0) = none ∧
    anyAbsent (pk placed) [(textAddr (pk placed) 256 0, 12)] = false ∧ lineClosed (pk placed) 0 [(textAddr (pk placed) 256 0, 12)] = false ∧
    poisoned (pk placed) (textAddr (pk placed) 256 0) 12 = false ∧ decode (runWord (pk placed) 256 0) = .ok (.nop H) ∧
    (let s := reRun placed fun r => { r with textSize := 0 };
      (nextAction s).1 = .issue 0 0 ∧ ((pk s).runOf 256).textSize = 0 ∧ (picked s).isSome = true) := by decide +kernel
/-- Two bundles of one wing, at a NOP and at an LD: the wing's second slot issues next. -/
def two : State :=
  let s := bytes (reRun placed fun r => { r with textSize := 24 }) 0x1000C (nat 12 0x000FF4800040004006015D00)
  let s1 := reTr s fun tr => { tr with threads := tr.threads.map fun x => (x.1, { x.2 with pc := if x.1 < 16 then 0 else 12 }) }
  s1.setWing 0 { s1.wing 0 with table := [⟨256, 0xFFFF⟩, ⟨256, 0xFFFF0000⟩] }
theorem witness_StepRunsDecoded_also : (picked two).map Prod.snd = some ⟨256, 0xFFFF⟩ ∧ (nextAction (pk two)).1 = .issueAlso 0 0 ∧
    (pickAlso (nextAction (pk two)).2 0 0).map Prod.snd = some ⟨256, 0xFFFF0000⟩ ∧
    halfWritten (pk placed) (textAddr (pk placed) 256 0) 12 = false := by decide +kernel
/-- A register that lane 5 still owes keeps back the bundle; a stage with one slot left keeps back its second lane. -/
def stalls (i : Instr) (s : State) : Option Mask := (fieldsOf i).map fun f => (issueStall s (ctxOf s (hdrOf f)) f i).1
theorem witness_StepRunsDecoded_stalls :
    stalls (.iadd H .i32 false (.v 3) (.v 1) (.reg (.s 7)))
      (reTh lab 5 fun t => { t with st := .waiting, wait := .cvwait 0 0 0, info := ⟨H, .s 7, .n32⟩ }) = some 3 ∧
    stalls (.nop H) lab = some 0 := by decide +kernel
theorem eraseDups_nodup {l : List Nat} (h : l.Nodup) : l.eraseDups = l := by
  induction l with
  | nil => rfl
  | cons a l ih =>
    have hl : l.filter (fun b => !b == a) = l := List.filter_eq_self.mpr fun b hb => by
      have := (List.nodup_cons.mp h).1
      simp only [Bool.not_eq_true', beq_eq_false_iff_ne]
      exact fun e => this (e ▸ hb)
    rw [List.eraseDups_cons, hl, ih (List.nodup_cons.mp h).2]
def crowded : State := { addrs 0 with accs := (List.range 1023).map fun k => { acc .load 0 with part := k } }
theorem crowded_requests : stageRequests crowded 0 = 1023 := by
  have hs : ∀ k, ({ acc .load 0 with part := k } : Access).who.stageOf crowded = some 0 := fun k => by
    show (some ((crowded.troupe 256).stage) : Option Nat) = some 0
    decide +kernel
  have ha : crowded.accs = (List.range 1023).map fun k => { acc .load 0 with part := k } := by simp only [crowded]
  have hf : ∀ l : List Nat, ((l.map fun k => ({ acc .load 0 with part := k } : Access)).filter fun a =>
      a.who.stageOf crowded == some 0).map Access.part = l := fun l => by
    induction l with
    | nil => rfl
    | cons k l ih => simp only [List.map_cons, List.filter_cons, hs, beq_self_eq_true, if_true, ih]
  rw [stageRequests, ha, hf, eraseDups_nodup List.nodup_range, List.length_range]
theorem witness_StepRunsDecoded_slots : stalls (.ld H .n32 .plain (.v 3) (.v 8) (.imm 0)) crowded = some 2 := by
  have hst : ∀ h, (crowded.troupe (ctxOf crowded h).t).stage = 0 := fun h => by
    show (crowded.troupe 256).stage = 0
    decide +kernel
  simp only [stalls, issueStall, slotStall, hst, crowded_requests]
  decide +kernel
theorem witness_BundlesAreReady : (match picked placed with
    | some (s1, b) => (match fetchBundle s1 b with
      | .run _ i => some i
      | _ => none)
    | none => none) = some (.nop H) := by decide +kernel

/-- MemoryStaysCanonical and WipeClearsEverything. -/
theorem witness_MemoryStaysCanonical : placed.mem.wf = true ∧ (match step placed with
    | .next _ => true
    | _ => false) = true := by decide +kernel
theorem witness_Wipe : lab.mgmt.held = false := by decide +kernel


/-! #### Homes and threads -/

/-- The access of id 9 has come to its home and nothing holds it back, from a check that can be evaluated. -/
def reaches (s : State) (a : Access) : Bool :=
  accById s a.id == some a && a.dev == none && a.st == .queued && decide (0 < a.size) && mayPerform s a && bufferClear s a &&
  !anyAbsent s (touchRanges s a) && a.ranges.all fun r => !poisoned s r.1 r.2
theorem reaches_of {s : State} {a : Access} (h : reaches s a = true) : Reaches s a := by
  simp only [reaches, Bool.and_eq_true, beq_iff_eq, decide_eq_true_eq, Bool.not_eq_true', List.all_eq_true] at h
  exact ⟨h.1.1.1.1.1.1.1, h.1.1.1.1.1.1.2, h.1.1.1.1.1.2, h.1.1.1.1.2, h.1.1.1.2, h.1.1.2, h.1.2, h.2⟩
/-- The access of id 9 at `x`, in a state where the four bytes there hold `old`. -/
def accAt (op : AOp) (x : Nat) : Access := { acc op 5 with phys := x, isStore := opModifies op, pub := if opModifies op then some 0 else none }
def atHome (a : Access) (s : State) : State := { s with accs := [a], nextId := 10 }
def four (x old : Nat) (s : State) : State := bytes s x (nat 4 old)

theorem witness_HomeLoads : (∀ x ∈ [(AOp.load, 0), (.load, 7), (.await, 7), (.await, 0)],
      reaches (atHome (accAt x.1 0x20000) (four 0x20000 x.2 lab)) (accAt x.1 0x20000) = true) ∧
    staleHit lab 0x20000 4 = [] ∧ cleanN (four 0x20000 7 lab) 0x20000 4 = 7 ∧ cleanN lab 0x20000 4 = 0 ∧
    (∀ st ∈ [TileState.stale, .busy, .fresh], reaches (atHome (accAt .load 0x50000) (derived 0 st)) (accAt .load 0x50000) = true) ∧
    staleHit (derived 0 .stale) 0x50000 4 = [(0, 0)] ∧ staleHit (derived 0 .fresh) 0x50000 4 = [] ∧
    tilesHit (derived 0 .fresh) 0x50000 4 = [(0, 0)] := by decide +kernel
/-- A load whose value was taken ahead of earlier ones; an AWAIT that comes late. -/
theorem witness_HomeLoads_ahead : (let a := { accAt .load 0x20000 with early := some (7, []) }; reaches (atHome a lab) a = true) ∧
    (let a := { accAt .await 0x20000 with deadline := 7 }; let s := { atHome a lab with wall := 8 };
      reaches s a = true ∧ awaitOver s a = true ∧ awaitOver { s with wall := 7 } a = false) := by decide +kernel
theorem witness_HomeLoads_ro : let a := accAt .ro 0x20000
    let s := atHome a lab
    let z := s.setStage 0 { s.stage 0 with ro := [(512, List.replicate 256 1)] }
    accById s 9 = some a ∧ a.dev = none ∧ a.vol = false ∧ afterOk s a = true ∧ inDerived s a.phys a.size = false ∧
    a.who.stageOf s = some 0 ∧ lineClosed s 9 a.ranges = false ∧ anyAbsent s a.ranges = false ∧ poisoned s a.phys a.size = false ∧
    (z.stage 0).ro.find? (fun y => y.1 == lineOf a.phys) = some (lineOf a.phys, List.replicate 256 1) := by decide +kernel
theorem witness_HomeWrites : (∀ op ∈ [AOp.store, .xor, .exch, .cas, .add, .max, .min, .or, .and, .take, .count],
      reaches (atHome (accAt op 0x20000) (four 0x20000 5 lab)) (accAt op 0x20000) = true) ∧
    (let s := atHome (accAt .add 0x20000) lab; anyWatched s (writeRanges s (accAt .add 0x20000)) = false ∧
      ∀ r ∈ writeRanges s (accAt .add 0x20000), inDerived s r.1 r.2 = false) ∧
    (let a := accAt .store 0x50000; let s := atHome a (derived 0 .fresh)
      reaches s a = true ∧ opModifies a.op = true ∧ ∃ r ∈ writeRanges s a, inDerived s r.1 r.2 = true) := by decide +kernel

/-- QueueOperations: a ring of four entries at 0x21000, with `n` in it. -/
def queued (op : AOp) (head tail : Nat) : State :=
  atHome (accAt op 0x20000) (bytes lab 0x20000 (nat 4 head ++ nat 4 tail ++ nat 8 2 ++ nat 8 0x21000 ++ nat 8 0))
theorem witness_Queues : (∀ x ∈ [(AOp.enq, 0, 0), (.enq, 0, 3), (.aenq, 0xFFFFFFFE, 1), (.enq, 0, 4), (.deq, 0, 1), (.adeq, 3, 3)],
      let s := queued x.1 x.2.1 x.2.2;
      reaches s (accAt x.1 0x20000) = true ∧ (descOf s 0x20000).bad = false ∧ anyWatched s (writeRanges s (accAt x.1 0x20000)) = false ∧
      ∀ r ∈ writeRanges s (accAt x.1 0x20000), inDerived s r.1 r.2 = false) ∧
    (descOf (queued .enq 0 3) 0x20000).used = 3 ∧ (descOf (queued .aenq 0xFFFFFFFE 1) 0x20000).used = 3 ∧
    (descOf (queued .enq 0 4) 0x20000).used = 4 ∧ (descOf (queued .enq 0 3) 0x20000).slot 3 = 0x2100C ∧
    poisoned (queued .enq 0 3) 0x2100C 4 = false := by decide +kernel

/-- A descriptor whose capacity is out of range. -/
theorem witness_Queues_bad : ∀ op ∈ [AOp.enq, .aenq, .deq, .adeq],
    let s := atHome (accAt op 0x20000) (bytes lab 0x20000 (nat 8 0 ++ nat 8 40 ++ nat 8 0x21000 ++ nat 8 0))
    reaches s (accAt op 0x20000) = true ∧ (descOf s 0x20000).bad = true ∧ anyWatched s (writeRanges s (accAt op 0x20000)) = false ∧
    ∀ r ∈ writeRanges s (accAt op 0x20000), inDerived s r.1 r.2 = false := by decide +kernel
theorem witness_Casts : let a := { accAt .cast 0x20000 with dies := [0x20000, 0x30000] }
    let s := atHome a lab
    accById s a.id = some a ∧ a.dies[1]? = some 0x30000 ∧ deliveryOk s a 0x30000 = true ∧ a.castHeld = [] ∧ lostAt s true 0x30000 = none ∧ inDerived s 0x30000 4 = false ∧
    anyWatched s [(0x30000, 4)] = false := by decide +kernel
theorem witness_Marks : let m : Mark := ⟨4, 0, 0, 9, none, 0, 0, false, []⟩
    (∀ st ∈ [TileState.fresh, .busy, .stale, .dirty], let s := { derived 0 st with marks := [m] };
      s.marks.find? (fun y => y.id == 4) = some m ∧ (∀ y ∈ s.marks, y.waits = []) ∧ anyWatched s ((s.entry 0).tileRanges 0) = false) ∧
    (let a := { accAt .store 0x20000 with st := .heldW [4] }
     let s := atHome a lab;
      accById s 9 = some a ∧ (∀ i ∈ [4], ∀ m ∈ s.marks, m.id ≠ i) ∧ mayPerform s a = true ∧ poisoned s 0x20000 4 = false ∧
      inDerived s 0x20000 4 = false ∧ a.isStore = true) := by decide +kernel

/-- Completions: a performed load and a remote one that owe v3 of lane 0; one that its lane waits in; a read-back; a held load. -/
def owing (a : Access) : State := atHome a (reTr lab fun t => { t with pend := [⟨6, 1, none, [(vKey 3 0, 0)], false, []⟩] })
theorem witness_Completions : (∀ a ∈ [{ accAt .load 0x20000 with st := .performed, pend := 6 }, { accAt .load 0x20000 with st := .remote, pend := 6 }],
      accById (owing a) 9 = some a ∧ a.who = .thread 256 0 ∧ a.pend ≠ 0 ∧ a.spill = false ∧ a.reported = false ∧
      (((owing a).troupe 256).pend.find? (fun y => y.id == 6)).map (fun p => (p.contested, p.writes)) = some ([], [(vKey 3 0, 0)]) ∧
      ((owing a).thread 256 0).waitsAccess 9 = false) ∧
    (let a := { accAt .await 0x20000 with st := .performed }
     let s := waiting (.await 9) 0 (atHome a lab);
      accById s 9 = some a ∧ a.pend = 0 ∧ (s.thread 256 0).waitsAccess 9 = true) ∧
    (let a := { accAt .load 0x20000 with st := .performed, spill := true }
     let s := reTh (atHome a lab) 0 fun t => { t with readback := true, spills := 1 };
      (s.thread 256 0).readback = true ∧
      s.accs.find? (fun b => b.spill && b.op == .load && b.who.ofLane 256 0 && b.st == .performed) = some a) ∧
    (let a := { accAt .load 0x20000 with st := .heldP }
     let s := atHome a lab;
      accById s 9 = some a ∧ a.reported = false ∧ (s.thread 256 0).st ≠ .drained) := by decide +kernel

/-- The reply of a load entered for the bundle of lanes 0 and 1, and of an AWAIT in which both wait; replies of remote accesses, with
a result and without. -/
theorem witness_Completions_bundle : (let a := { accAt .load 0x20000 with who := .bundle 256 3, st := .performed, pend := 6 }
     accById (owing a) 9 = some a ∧ a.who.threads = some (256, 3) ∧ ((owing a).troupe 256).frozen = [] ∧
      (∀ l < 32, hasLane (3 : Mask) l = true → ((owing a).thread 256 l).waitsAccess 9 = false)) ∧
    (let a := { accAt .await 0x20000 with who := .bundle 256 3, st := .performed }
     let s := waiting (.await 9) 1 (waiting (.await 9) 0 (atHome a lab))
     let z := reTh s 1 fun t => { t with info := ⟨H, .rz, .n32⟩ };
      accById z 9 = some a ∧ a.pend = 0 ∧ lowLane 3 = 0 ∧ (z.thread 256 1).info.d = .rz ∧
      (z.thread 256 0).waitsAccess 9 = true ∧ (z.thread 256 1).waitsAccess 9 = true) ∧
    (∀ op ∈ [AOp.add, .exch, .deq, .store, .cast], let a := { accAt op 0x20000 with st := .remote, pend := if opReturns op then 6 else 0 }
      accById (owing a) 9 = some a ∧ a.reported = false ∧ a.lostRel = false ∧ ((owing a).thread 256 0).waitsAccess 9 = false) := by decide +kernel

/-- An AWAIT whose thread has gone into a handler. -/
theorem witness_Completions_handler : let a := { accAt .await 0x20000 with st := .performed }
    let f : Frozen := { frozenOf lab 256 0 with st := .waiting, wait := .await 9 }
    let s := reTr (atHome a lab) fun t => { t with status := .handler, frozen := [(0, f)] }
    accById s 9 = some a ∧ a.who = .thread 256 0 ∧ a.pend = 0 ∧ a.spill = false ∧ (s.thread 256 0).waitsAccess 9 = false ∧
    (s.troupe 256).frozen.find? (fun x => x.1 == 0) = some (0, f) := by decide +kernel
theorem witness_WaitsEnd : (let a := { accAt .await 0x20000 with st := .awaiting, deadline := 7 }
     let s := { atHome a lab with wall := 8 };
      accById s 9 = some a ∧ a.deadline < s.wall ∧ a.who.limited = false ∧ a.dev = none) ∧
    (∀ a ∈ [{ accAt .await 0x20000 with st := .awaiting, deadline := 7, who := .pcie 0 none 0 0 },
        { accAt .load 0x20000 with st := .heldP, deadline := 7, hold := 7, who := .pcie 0 none 0 0 }], let s := { atHome a lab with wall := 7 };
      accById s 9 = some a ∧ a.deadline ≠ 0 ∧ a.deadline ≤ s.wall ∧ a.who.outside = true ∧ (a.st = .heldP → a.hold ≠ 0 ∧ a.hold ≤ s.wall) ∧
      a.early = none ∧
      (let b := { a with st := .queued }; mayPerform (setAcc s b) b = true ∧ buffered (setAcc s b) b = []) ∧
      staleHit s a.phys a.size = [] ∧ poisoned s a.phys a.size = false) ∧
    (Who.pcie 0 none 0 0).limited = true := by decide +kernel
theorem witness_WaitsEnd_threads : (∀ w ∈ [Wait.cvwait 0 7 7, .wpwait 9 7, .sleep 7, .svc 0x20000 false],
      let s := waiting w 0 { atHome (accAt .wpwait 0x20000) (four 0x20008 1 lab) with wall := 8, ports := { lab.ports with time := 7 } };
      (s.thread 256 0).st = .waiting ∧ (s.thread 256 0).wait = w ∧ (s.troupe 256).status = .resident ∧ cleanN s (0x20000 + 8) 8 ≠ 0 ∧
      (accById s 9).isSome = true ∧ s.ports.time.toNat = 7) ∧
    (let s := reTh lab 0 fun t => { t with st := .stalled, wait := .counter .mma 0 };
      (s.thread 256 0).st = .stalled ∧ hazardOver s 256 0 = true) := by decide +kernel

theorem witness_Bundles : (placed.wing (4 * 0 + 0)).table[0]? = some ⟨256, 0xFFFFFFFF⟩ ∧ canIssue placed ⟨256, 0xFFFFFFFF⟩ = true ∧
    ((wingTroupes placed 0).flatMap (groupsOf placed)).length ≤ 64 ∧ 256 ∈ wingTroupes placed 0 ∧ (placed.thread 256 0).ready = true := by
  decide +kernel
theorem witness_Units : (∀ n ∈ [32, 33], let s := reRun (reTh lab 3 fun t => { t with st := .held }) fun r => { r with items := n };
      (s.runOf 256).faulted = none ∧ (s.runOf 256).determ = false ∧ (s.runOf 256).source = .shared ∧ (s.troupe 256).status = .resident ∧
      (s.troupe 256).cv = [] ∧ (s.companyOf 256).junctions = [] ∧ (s.thread 256 3).st = .held ∧
      ((unitOf s 256 3).filter fun x => (s.thread x.1 x.2).live) = [(256, 3)] ∧
      (heldUnits s (companyKey 256)).head? = (unitOf s 256 3).head?) ∧ (lab.run 1).counter = 32 := by decide +kernel

/-! #### Engines and derivation -/

/-- A copy of one chunk of 64 bytes at 0x22000, with a waypoint at 0x24000. -/
def chunk1 (src : CSrc) : Chunk := ⟨src, .phys 0x22000, 64, none, 0, [], false, false, none, 0, 0, 0, 0, false⟩
def copyOf (k : Chunk) : Copy := ⟨9, 256, none, [k], [some ⟨0x24000, 3⟩], false, false, [], none, false, false, 0, false, 0, true, []⟩
def copies (s : State) (cp : Copy) : State := { s with copies := [cp], nextId := 20 }
theorem witness_CopiesLand_bytes : (∀ k ∈ [chunk1 .zero, chunk1 (.phys 0x21000)], let cp := copyOf k
      let s := copies lab cp;
      copyById s cp.id = some cp ∧ cp.chunks[0]? = some k ∧ faultBefore s cp 0 = false ∧ lostAt s cp.cast 0x22000 = none ∧
      cp.ended = false ∧ cp.parked = false ∧ cp.stands = false ∧ k.done = false ∧ k.held = false ∧ k.early = none ∧ cp.after = [] ∧
      tilesHit s 0x21000 k.len = [] ∧ s.accs = [] ∧
      inDerived s 0x22000 k.len = false ∧ lineClosed s 0 [(0x22000, k.len)] = false ∧ anyWatched s [(0x22000, k.len)] = false ∧
      poisoned s 0x22000 k.len = false ∧ cp.wps[k.target]? = some (some ⟨0x24000, 3⟩)) ∧
    engineStale lab [(0x21000, 64)] = [] ∧ engineMayRead lab [(0x21000, 64)] = true ∧ poisoned lab 0x21000 64 = false := by
  decide +kernel
theorem witness_CopiesLand_ends : (let cp := copyOf { chunk1 .zero with done := true }
     let s := copies lab cp;
      copyById s cp.id = some cp ∧ cp.ended = false ∧ cp.parked = false ∧ (∀ k ∈ cp.chunks, k.done = true ∧ k.lost = none) ∧ s.upds = []) ∧
    (∀ x ∈ [(some 3, 64, false), (some 3, 0, true), (none, 0, true), (some 2, 64, false)],
      let u : WpUpd := ⟨9, 0x24000, x.1, x.2.1, x.2.2, [], 0, 0, none, none, none⟩
      let s := { bytes lab 0x24000 (nat 4 (3 * 2 ^ 17 + 1) ++ nat 4 1 ++ nat 4 64 ++ nat 4 64) with upds := [u] };
      s.upds.find? (fun y => y.id == u.id) = some u ∧ u.after = [] ∧ lineClosed s 0 [(u.addr, 16)] = false ∧
      lostAt s ((copyById s u.copy).any Copy.castWp) u.addr = none ∧ inDerived s u.addr 16 = false ∧ poisoned s u.addr 16 = false ∧
      anyWatched s [(u.addr, 16)] = false ∧
      cleanN s u.addr 4 / 2 ^ 17 = 3) ∧
    (let o : EngOp := ⟨7, .copy, .copies [9], [], [], none, false⟩
     let s := copies (reTr lab fun t => { t with ops := [o] }) { copyOf (chunk1 .zero) with ended := true };
      (s.troupe 256).ops.find? (fun x => x.cls == .copy) = some o ∧ opEnded s o = true ∧ ((s.troupe 256).ops.map EngOp.id).Nodup) := by
  decide +kernel

/-- CollectivesProceed: an ALLGATHER of one rank, of 16 bytes. -/
def coll1 : Coll := ⟨9, 256, collRecord, [0], none, 16, 0, [], [], [], [], [], false⟩
/-- A broadcast from rank 0 to rank 1, which is device 6 on link 2. -/
def castColl : Coll :=
  let bs := nat 8 (2 * 2 ^ 16) ++ dev 0x23000 ++ dev 0x24000 ++ dev 0x25000 ++ nat 8 4 ++ List.replicate 24 0
  { coll1 with group := [0, 6], bytes := bs }
theorem witness_CollectivesProceed_data : (let r := collRec coll1.bytes
     let head : CollHead := ⟨0, r.op, r.etype, r.rop, r.count, r.nranks, 2⟩
     let s := { lab with colls := [coll1], nextId := 20 };
      collContradicts r head = false ∧ collContradicts r { head with op := r.op + 1 } = true ∧ collSpan r = 16 ∧ collLands r 0 = some 0 ∧
      collFits r 0 4 = true ∧ plain s [(collDst s coll1 + 0, 4)] = true ∧ s.accs = [] ∧ collReadable s coll1 = true) ∧
    (let s := { lab with colls := [castColl], nextId := 20, ports := { lab.ports with links := [2], route := [(6, 4)] } }
     let r := collRec castColl.bytes;
      collSends r 0 = [1] ∧ routeLink s (castColl.group.getD 1 0) (scratchOff r.dst + 0) = some 2 ∧ collReadable s castColl = true) := by
  decide +kernel
theorem witness_CollectivesProceed : let s := { lab with colls := [coll1], nextId := 20, wall := 10000000 }
    let r := collRec coll1.bytes
    s.colls.find? (fun x => x.id == coll1.id) = some coll1 ∧ coll1.ended = false ∧ 0 < r.nranks ∧ r.dstBytes = 16 ∧
    (collBytes s coll1 0 [1, 2, 3, 4]).2 ≠ [] ∧ coll1.landedB = [] ∧ coll1.issued + 10000000 ≤ s.wall ∧ 0 ∉ coll1.joined := by
  decide +kernel
/-- An ALLREDUCE of two ranks, of which this is rank 0, over a sum of eight words; both halves have been asked for. -/
def sumColl : Coll :=
  { coll1 with
    group := [0, 6], asked := [(1, 0, 16)]
    bytes := nat 8 (3 + 2 * 2 ^ 16) ++ dev 0x23000 ++ dev 0x24000 ++ dev 0x25000 ++ nat 8 8 ++ List.replicate 24 0 }
theorem witness_CollectivesProceed_reduce : let r := collRec sumColl.bytes
    let head : CollHead := ⟨1, r.op, r.etype, r.rop, r.count, r.nranks, 2⟩
    let s := { lab with colls := [sumColl], nextId := 20, ports := { lab.ports with links := [2], route := [(6, 4)] } }
    collOwn r 0 = true ∧ collLocal r 0 = false ∧ linkExists s 2 = true ∧ collContradicts r head = false ∧
    collContradicts r { head with count := 9 } = true ∧ collAsked sumColl 0 16 = true ∧ collFits r 0 16 = true ∧ collLands r 0 = some 0 ∧
    collReadable s sumColl = true ∧ 1 ≠ r.rank ∧ 1 < r.nranks ∧ collSlice r r.rank 0 16 = true ∧ collSlice r 1 16 16 = true ∧
    collSlice r 1 0 16 = false ∧ routeLink s 6 (scratchOff r.src) = some 2 ∧ plain s [(collDst s sumColl, 16)] = true := by decide +kernel
/-- A REDUCESCATTER of which this rank's slice of the peer's block is sent and lands nowhere here; bytes that are no one's here. -/
theorem witness_CollectivesProceed_scatter : let c := { sumColl with bytes := nat 8 (2 + 2 * 2 ^ 16) ++ sumColl.bytes.drop 8 }
    let r := collRec c.bytes
    collLands r 32 = none ∧ collSends r 32 = [1] ∧ collSends r 48 = [] ∧ collOwn r 32 = true ∧ collSpan r = 64 := by decide +kernel

/-- Recomputes: tile 0 of entry 0 is queued, with base rows that lie in no derived tensor, or in entry 1's; and at its end. -/
def queuedTile : State := { derived 0 .busy with slices := [(0, ⟨[(0, 0)], none, []⟩)] }
def chained : State :=
  let e1 : Entry := { entry1 0 with base := ⟨0x30000, 32, 32, 128, 0⟩, der := ⟨0x40000, 32, 32, 128, 0⟩ }
  { queuedTile with entries := [(0, entry1 0), (1, e1)], tiles := [(0, ⟨.busy, [], []⟩), (65536, ⟨.stale, [], []⟩)] }
theorem witness_Recomputes : (∀ s ∈ [queuedTile, chained], (s.slice 0).current = none ∧ (s.slice 0).waiting = [] ∧
      (s.slice 0).queue = [(0, 0)]) ∧ (baseTiles queuedTile (queuedTile.entry 0) 0).all (isFresh queuedTile) = true ∧
    ((baseTiles chained (chained.entry 0) 0).find? fun y => !isFresh chained y) = some (1, 0) := by decide +kernel
theorem witness_Recomputes_end : ∀ st ∈ [TileState.busy, .dirty], let r : Recompute := ⟨0, 0, [], [], [], false⟩
    let s := { derived 0 st with slices := [(0, ⟨[], some r, []⟩)] };
    (s.slice 0).current = some r ∧ r.reads = [] ∧ lineClosed s 0 ((s.entry r.e).tileRanges r.tile) = false ∧ (recomputeWrites s (s.entry r.e) r).all (fun w => !poisoned s w.1 w.2.length) = true := by
  decide +kernel

/-! #### Scheduling -/

/-- SavesAndRestores: a run with a save area; its troupe RESIDENT, or in the context handler for a reason. -/
def savable : State := reRun lab fun r => { r with save := 0x100000, saveSet := true, nstages := 1, troupes := 1 }
def inContext (reason : Nat) (s : State) : State :=
  reTr s fun t => { t with status := .handler, context := true, handlers := 0xFFFFFFFF, last := { t.last with reason := reason } }
def preempted (s : State) : State := reCo s fun c => { c with preempting := true }
theorem witness_Saves : (let s := reTr savable fun t => { t with pendTrap := some TrapInfo.none }; (s.troupe 256).status = .resident ∧
      readbackOut (s.troupe 256) = false ∧ (s.runOf 256).faulted = none) ∧
    savingOf (preempted (reTr savable fun t => { t with status := .retired })) 1 = [] ∧
    (let s := preempted (reTr savable fun t => { t with pendPre := 1 }); (s.company 1).preempting = true ∧ savingOf s 1 = [256] ∧
      entersNow s 256 = true) ∧
    (let s := preempted (inContext 1 savable); savingOf s 1 = [256] ∧ (s.troupe 256).last.reason ≠ 2 ∧ troupeQuiet s 256 = true) ∧
    (let s := inContext 3 savable; (s.troupe 256).last.reason = 3 ∧ (s.companyOf 256).preempting = false ∧ troupeQuiet s 256 = true) := by
  decide +kernel
/-- A troupe whose lanes all wait at a closed gate, and a second run of its priority that finds no room. -/
def idleTroupe : State :=
  let s := reTr savable fun t => { t with threads := t.threads.map fun x => (x.1, { x.2 with st := .waiting, wait := .gate }) }
  let big : Run := { (savable.run 1) with id := 2, queue := 1, items := 64, counter := 0, nextComp := 0, cmem := 2 ^ 20 }
  { s with runs := tput s.runs 2 big, wall := 10 ^ 9 }
theorem witness_Saves_eviction : (idleTroupe.troupe 256).context = false ∧ evictable idleTroupe 256 = true ∧ roomWanted idleTroupe 256 = true ∧
    idleTroupe.troupes.map Prod.fst = [256] := by decide +kernel
theorem witness_Restores_wait : let s := { inContext 2 savable with accs := [{ acc .store 0 with phys := blockOf (inContext 2 savable) 256, who := .device }] }
    ((troupesOf s 1).filter fun t => (s.troupe t).context && (s.troupe t).last.reason == 2) = [256] ∧ imageReady s 1 [256] = false ∧
    imageReady (inContext 2 savable) 1 [256] = true := by decide +kernel
theorem witness_Restores : (let s := inContext 2 savable; (s.run (s.company 1).run).faulted = none ∧ (s.run (s.company 1).run).complete = false ∧
      ((troupesOf s 1).filter fun t => (s.troupe t).context && (s.troupe t).last.reason == 2) = [256] ∧ (s.company 1).offCore = false) ∧
    (let s := reCo (reTr savable fun t => { t with status := .saved }) fun c => { c with stages := [0] };
      ((troupesOf s 1).filter fun t => (s.troupe t).context && (s.troupe t).last.reason == 2) = [] ∧
      (s.queue (s.run (s.company 1).run).queue).notRunnable = false ∧ restorable s 1 = [256] ∧ (s.company 1).offCore = false ∧
      isTurn s (s.company 1).run = true ∧ 0 ∈ (s.company 1).stages ∧
      (stageFits s (s.run (s.company 1).run) 0 1 false).map (fun x => x.1.length) = some 1) ∧
    (let s := reRun (reCo (reTr savable fun t => { t with status := .saved }) fun c => { c with offCore := true }) fun r => { r with nstages := 129 };
      restorable s 1 = [256] ∧ (s.company 1).offCore = true ∧ fitsEmpty s 1 = false) := by decide +kernel


/-- Placement: run 2 has one company of one troupe and 64 items; a node with a record, or with 32; a run behind another. -/
def run2 (f : Run → Run) : State :=
  lab.setRun 2 (f { (lab.run 1) with id := 2, queue := 1, items := 64, counter := 0, nextComp := 0, acct := 0, entry := 24 })
theorem witness_Placement : (let s := run2 id
      rising (s.companies.map Prod.fst) = true ∧ eligible s 2 = true ∧ (s.run 2).source ≠ .callboard ∧ (s.run 2).determ = false ∧
      (s.run 2).circuitSize = 1 ∧ (s.run 2).companiesOf (s.run 2).nextComp = [0] ∧ hasItem s (s.run 2) 0 = true ∧
      (stackRun s (s.run 2)).isSome = true ∧ isTurn s 2 = true ∧
      (((List.range 4).map fun j => (s.lastDie + 1 + j) % 4).findSome? fun d => (pickStages s (s.run 2) d).map fun g => (d, g)).map
        (fun x => x.1) = some 0) ∧
    (let s := run2 fun r => { r with cmem := 2 ^ 20 };
      placement s 2 = none ∧ waitsForRoom s 2 = true ∧ eligible s 2 = true ∧ (s.run 2).waited = 0) := by decide +kernel
/-- A node's queue of 64 entries at 0x20000 with `n` records, its CLOSE word at 0x20040. -/
def node (n close : Nat) : State :=
  let s := run2 fun r => { r with source := .callboard, items := 0, nodeQ := 0x20000, closeAt := 0x20040, timer := 2000, arrivals := [(n, 0)] }
  { bytes s 0x20000 (nat 4 0 ++ nat 4 n ++ nat 8 6 ++ nat 8 0x21000 ++ List.replicate 40 0 ++ nat 4 close) with wall := 2000 }
theorem witness_Placement_nodes : nodeClosed (node 0 1) ((node 0 1).run 2) = true ∧
    (∀ n ∈ [1, 31, 32, 64], let s := node n 1; (s.run 2).source = .callboard ∧ nodeClosed s (s.run 2) = false ∧
      (placement s 2).isSome = true ∧ isTurn s 2 = true ∧ (descOf s (s.run 2).nodeQ).used = n) := by decide +kernel
/-- ExitsAndPauses: a seat of a node that holds `n` records, at lane grain. -/
def seated (n : Nat) : State :=
  let s := bytes (bytes lab 0x20000 (nat 4 5 ++ nat 4 (5 + n) ++ nat 8 6 ++ nat 8 0x21000 ++ List.replicate 40 0)) 0x21014 (nat 4 7 ++ nat 4 9)
  reRun s fun r => { r with source := .callboard, items := 0, nodeQ := 0x20000, closeAt := 0x20040, cue := 24 }
theorem witness_Exits_nodes : (∀ n ∈ [0, 1, 2, 64], let s := seated n
      ok (.exit H) s = true ∧ (s.runOf 256).source = .callboard ∧ (s.runOf 256).closed = false ∧ (s.runOf 256).determ = false ∧
      (s.runOf 256).grain = 0 ∧ (s.troupe 256).status ≠ .handler ∧ (descOf s 0x20000).used = n ∧ (descOf s 0x20000).bad = false ∧
      inDerived s 0x20000 4 = false ∧ anyWatched s [(0x20000, 4)] = false ∧ poisoned s 0x20000 32 = false ∧
      (∀ l < 2, drawWaits s.begun 256 l l = false) ∧
      (∀ j < min 2 n, poisoned s ((descOf s 0x20000).slot (5 + j)) 4 = false ∧ overlaps 0x20000 4 ((descOf s 0x20000).slot (5 + j)) 4 = false)) ∧
    (let s := { seated 2 with pclear := [(0x200, 7)] }; ok (.exit H) s = true ∧ drawWaits s.begun 256 0 0 = true) := by decide +kernel
theorem step_exit_node : let t := aft (.exit H) (seated 1)
    ((t.thread 256 0).item, (t.thread 256 1).st, t.mem.readN 0x20000 4) = (7, .drained, 6) := by decide +kernel
theorem witness_Placement_waits : (let s := { (reRun (run2 fun r => { r with prio := 1, waited := 1, acct := 64, cmem := 2 ^ 20 })
        fun r => { r with save := 0x100000, saveSet := true }) with wall := 20000 };
      waitsForRoom s 2 = true ∧ (s.run 2).waited + 20000 ≤ s.wall + 1 ∧ victims s (s.run 2).prio ≠ [] ∧
      placeable (without s ((s.companies.filter fun x => x.2.preempting).map Prod.fst) []) 2 = false) ∧
    (let s := waiting .gate 3 (reRun lab fun r => { r with gateOpen := false, pred := some 7 });
      (s.run 1).gateOpen = false ∧ gateReady s 1 = true ∧ troupesOfRun s 1 = [256] ∧ (s.thread 256 3).wait = .gate) ∧
    (let s := reCo (reRun lab fun r => { r with determ := true }) fun c => { c with retired := true };
      (s.run 1).determ = true ∧ (s.run 1).milestone = false ∧ allReleased s 1 = true ∧
      ((drainDet s 1 fun b => !b.tag && !b.onCm).map fun z => detAccs z 1) = some []) := by decide +kernel

theorem witness_Retirement : (∀ x ∈ [[], [(2 : Dword)]], let s := reTr lab fun t => { t with status := .retiring, xfaults := x };
      (s.run (s.companyOf 256).run).faulted = none ∧ (s.troupe 256).status = .retiring ∧ (s.troupe 256).xfaults = x ∧
      storeQueue s 256 = [] ∧ (s.troupe 256).ops = [] ∧ lowerRetired s 1 = true ∧ detAccs s 1 = [] ∧ (s.troupe 256).svcs = []) ∧
    (let s := reRun lab fun r => { r with faulted := some TrapInfo.none };
      (s.run (s.companyOf 256).run).faulted = some TrapInfo.none ∧ (troupesOfRun s 1).all (faultQuiet s) = true ∧
      (companiesOfRun s 1).any (fun y => !y.2.retired) = true) := by decide +kernel

/-! #### The prompter -/

/-- Queue 2, of four packets at 0x31000, with its control block at 0x30000. -/
def queue2 (f : Queue → Queue) (packet : List Byte) : State :=
  let s := bytes (bytes lab 0x31000 packet) 0x30000 (nat 8 0x31000 ++ nat 4 2 ++ nat 4 1 ++ nat 8 7)
  { s with queues := [(2, f { Queue.unmapped with served := true, mode := .loop, qcb := 0x30000, ring := 0x31000, capLog2 := 2, tail := 1 })] }
/-- A packet of a type, with packet number 1 and its words from byte 8. -/
def packet (ty flags : Nat) (ws : List Nat) : List Byte :=
  let body := nat 1 ty ++ nat 1 0 ++ nat 2 1 ++ nat 4 flags ++ ws.flatMap (nat 8)
  body ++ List.replicate (128 - body.length) 0
def here (x : Nat) : Nat := 2 ^ 63 + x
theorem witness_PrompterLoop : (let s := queue2 (fun q => { q with mode := .asleep }) (packet 0 0 []);
      (s.queue 2).served = true ∧ (s.queue 2).mode = .asleep ∧ cleanN s 0x30010 8 ≠ 0 ∧ promptReads s 0x3000C 12 = true ∧
      plain s [(0x30010, 8)] = true ∧ poisoned s 0x3000C 4 = false) ∧
    (∀ n ∈ [0, 7], ∀ bs ∈ [packet 0 0 [], packet 255 0 []], let s := { queue2 (fun q => { q with mode := .reread n 0 }) bs with wall := 1000 };
      (s.queue 2).served = true ∧ (s.queue 2).buf = none ∧ (s.queue 2).broken = 0 ∧ packetBytes s 2 = some bs ∧
      mismatch (s.queue 2) bs = decide (packetType bs = 255)) ∧
    packetBytes (queue2 id (packet 255 0 [])) 2 = some (packet 255 0 []) ∧
    (∀ ty ∈ [0, 5, 254], current (queue2 id (packet ty 0 [])) 2 = some (packet ty 0 [])) ∧
    plain (queue2 id []) [(0x31000, 128)] = true ∧ ((queue2 (fun q => { q with broken := 3 }) []).queue 2).broken ≠ 0 := by decide +kernel

/-- Packets that are good, that break their layout, and whose address is not good. -/
theorem witness_PrompterPackets : (∀ bs ∈ [packet 2 0 [here 0x20000, 5, 1], packet 2 0 [here 0x20000, 5, 3], packet 2 0 [here 0x20004, 5, 1],
        packet 3 0 [here 0x20000, 5, 512], packet 3 0 [here 0x20000, 5, 768], packet 3 0 [here 0x20000, 5, 1], packet 3 0 [here 0x20001, 5, 0],
        packet 4 0 [here 0x20000, 4096], packet 4 0 [here 0x20000, 4097], packet 4 0 [here 0x20080, 1]],
      current (queue2 id bs) 2 = some bs) ∧
    goodAddr (queue2 id []) 0 (BitVec.ofNat 64 (here 0x20000)) 8 8 = true ∧ goodAddr (queue2 id []) 0 (BitVec.ofNat 64 (here 0x20004)) 8 8 = false ∧
    goodAddr (queue2 id []) 0 (BitVec.ofNat 64 (here 0x20000)) 4 4 = true ∧ signalWindow (BitVec.ofNat 64 (here 0x20000)) 4 = true ∧
    signalWindow (BitVec.ofNat 64 (here 0x20000)) 8 = true ∧ goodAddr (queue2 id []) 0 (BitVec.ofNat 64 (here 0x20001)) 4 4 = false ∧
    goodAddr (queue2 id []) 0 (BitVec.ofNat 64 (here 0x20000)) (128 * 4096) 256 = true ∧
    goodAddr (queue2 id []) 0 (BitVec.ofNat 64 (here 0x20080)) 128 256 = false ∧
    (signalRanges (BitVec.ofNat 64 (here 0x20000)) 4).all (fun r => rangeInPart (queue2 id []) 0 r.1 r.2) = true ∧
    (signalRanges (BitVec.ofNat 64 (here (7 * 2 ^ 59 + 0x20000))) 4).all (fun r => rangeInPart (queue2 id []) 0 r.1 r.2) = false ∧
    (let bs := packet 4 0 [here 0x20000, 1]
     let s := queue2 (fun q => { q with buf := some (0x31000, 2, 0) }) bs; current s 2 = some bs ∧ (s.queue 2).buf ≠ none) := by decide +kernel
theorem witness_PrompterPackets_go : (∀ cond ∈ [0, 3, 4, 7], let s := queue2 (fun q => { q with mode := .waiting true 0x20000 5 cond false }) [];
      (s.queue 2).served = true ∧ (s.queue 2).mode = .waiting true 0x20000 5 cond false ∧ (s.queue 2).openRuns = [] ∧
      promptReads s 0x20000 8 = true) ∧
    (∀ m ∈ [PMode.waiting false 0x20000 5 1 true, .signalHold 5 6 8, .storing 3], (((queue2 (fun q => { q with mode := m }) []).queue 2).mode = m)) ∧
    accDone (queue2 id []) 3 = true := by decide +kernel

/-- QueuesAndRuns: queue 5 is not mapped, or is; a RUN of the code object at 0x40000, good, or refused by its layout, its launch
capability, its address, its REGS of 0 or its items. -/
def header : List Byte :=
  nat 4 0x31344D4C ++ nat 2 1 ++ nat 2 0 ++ nat 8 (256 + 2 ^ 32 * 12) ++ nat 8 512 ++ nat 8 512 ++ nat 4 0 ++ nat 4 0xFFFFFFFF ++
  nat 4 0xFFFFFFFF ++ nat 2 16 ++ nat 2 1 ++ List.replicate 16 0
def runPacket (hdr items code : Nat) : List Byte :=
  nat 8 (1 + 2 ^ 16 + hdr) ++ nat 8 (here code) ++ nat 8 items ++ nat 8 0 ++ nat 4 1 ++ nat 4 1 ++ nat 4 1 ++ nat 4 0 ++
  nat 4 0x10101 ++ nat 4 0 ++ nat 6 0 ++ nat 1 1 ++ List.replicate 9 0 ++ nat 8 (here 0) ++ List.replicate 48 0
def running (hdr items code : Nat) : State := bytes (queue2 (fun q => { q with part := 0 }) (runPacket hdr items code)) 0x40000 header
theorem witness_Queues_and_runs : (let s := bytes lab 0x30000 (nat 8 0x31000 ++ nat 8 2);
      (qmapOf s 5).getLsbD 63 = false ∧ promptReads s 0x30000 64 = true ∧ plain s [(0x30000, 64)] = true ∧
      (∀ y ∈ s.runs, y.2.launched = []) ∧ ((0x8000000000030000#64) &&& qmapMask).extractLsb' 0 34 = 0x30000) ∧
    (let s := { lab with ports := { lab.ports with qmap := [(5, 0x8000000000030000)] } }; (qmapOf s 5).getLsbD 63 = true) := by
  decide +kernel
theorem witness_Runs : ∀ x ∈ [(0, 8, 0x40000), (2 ^ 42, 8, 0x40000), (2 ^ 35, 8, 0x40000), (0, 0, 0x40000), (0, 8, 0x40100), (0, 8, 0x40004)],
      let s := running x.1 x.2.1 x.2.2; let bs := runPacket x.1 x.2.1 x.2.2;
      current s 2 = some bs ∧ packetType bs = 1 ∧ codeAddrGood s (s.queue 2).part (fieldD bs 8) = decide (x.2.2 ≠ 0x40004) ∧
      promptReads s x.2.2 64 = true ∧ poisoned s x.2.2 64 = false := by decide +kernel
theorem witness_Runs_codes :
    ([(0, 8, 0x40000), (2 ^ 42, 8, 0x40000), (2 ^ 35, 8, 0x40000), (0, 0, 0x40000), (0, 8, 0x40100)].map fun x =>
      let s := running x.1 x.2.1 x.2.2; let bs := runPacket x.1 x.2.1 x.2.2; let h := cleanBytes s (scratchOff (fieldD bs 8)) 64
      runRefusal s (s.queue 2) bs h (runOfPacket (s.queue 2) 2 bs h true)) = [none, some 3, some 9, some 5, some 3] := by decide +kernel

/-! #### The ports and housekeeping -/

theorem witness_RegisterWrites : (∀ x ∈ [(0x7002, 4), (0x7000, 16)], accessFits .service x.1 x.2 = false) ∧
    accessFits (.control 7 (some 1) .plain) 0x7000 8 = false ∧
    (∀ port ∈ [Port.service, .control 7 none .plain], ∀ off ∈ [0, 0x2000, 0x5000, 0x5018, 0x7000], accessFits port off 8 = true) ∧
    -- an entry of the partition's one region, which holds a derivation; and one beside another of the partition's
    (let s := { derived 0 .stale with ports := { lab.ports with region := [(0, 0x00200000)] } };
      (regionEntry s 0).getLsbD 21 = true ∧ partGone { s with ports := { s.ports with region := tput s.ports.region 0 0 } } 0 = true ∧
      (s.entry 0).used = true ∧ (s.entry 0).part = 0) ∧
    (let s := { lab with ports := { lab.ports with region := [(0, 0x00200000), (1, 0x00200000)] } };
      partGone { s with ports := { s.ports with region := tput s.ports.region 0 0 } } 0 = false) ∧ counterAt 0x40000 = true ∧
    (0x8000000000020000#64).getLsbD 63 = true ∧ hwakeOff 0x8000000000020000 = 0x20000 ∧ lab.mem.readN 0x20000 8 = 0 ∧
    (bytes lab 0x20000 [7]).mem.readN 0x20000 8 ≠ 0 ∧ msixMasked lab 3 = true ∧
    (let s := { lab with ports := { lab.ports with msixTable := tput [] (16 * 3 + 12) 2 } }; msixMasked s 3 = false) ∧
    (let s := { lab with ports := { lab.ports with timeCtl := 2 ^ 63 } }; isMaster s = true) := by decide +kernel

/-- Translations: request 9, for ASID 3 and page 5, of a copy that reads there. -/
def xreq (host : Bool) (st : XState) : Xreq := ⟨9, 0, host, 3, 0x50, 5, false, 9, st⟩
def xlating (host : Bool) (st : XState) : State := { copies lab (copyOf (chunk1 (.glob 0x5000))) with xreqs := [xreq host st], wall := 10 ^ 9 }
theorem witness_Translations : (∀ q ∈ [xreq false .fault, xreq false (.unreported 0 0), xreq false (.reported 0), xreq true (.pageAsked 0 false)],
      reqById (xlating q.host q.st) q.id = some q) ∧ mergedReport (xlating false .fault) (xreq false .fault) = none ∧
    (let s := xlating false .fault;
      mergedReport { s with xreqs := s.xreqs ++ [{ xreq false (.reported 4) with id := 10 }] } (xreq false .fault) = some (.reported 4)) ∧
    (xlating false .fault).ports.xfaultq = 0 ∧ ((xlating false .fault).xreqs.map Xreq.id).Nodup ∧
    ((xreq false (.reported 0)).st.answered = true ∧ bitsOf (2 ^ 63 + 3 * 2 ^ 45 + 5 : Dword) 60 45 = 3 ∧ bitsOf (3 * 2 ^ 45 + 5 : Dword) 44 0 = 5) ∧
    (let s := { xlating true .atsAsked with ports := { lab.ports with atsEn := true, priEn := true, priAlloc := 4 } };
      s.ports.priEn = true ∧ (pagesOut s 0).length + 1 < min s.ports.priAlloc 512 ∧ (xlating true .atsAsked).ports.priEn = false ∧
      (xreq true .atsAsked).write = false) ∧
    (let s := { lab with ports := { lab.ports with xinvs := [2 ^ 63] } }; s.ports.xinvs = 2 ^ 63 :: []) ∧
    (let s := xlating false .failed; let cp := copyOf (chunk1 (.glob 0x5000));
      copyById s cp.id = some cp ∧ cp.lane = none ∧ s.xreqs.find? (fun x => x.copy == cp.id && x.st == .failed) = some (xreq false .failed)) := by
  decide +kernel

/-- HostRequests: READY, with an entry that permits requester 7 every window of region 0, stores with it. -/
def ready : State := { lab with
  mgmt := { lab.mgmt with ready := 1 }
  ports := { lab.ports with ingr := [(0, ⟨BitVec.ofNat 128 (2 ^ 63 + 2 ^ 60 + 8191 * 2 ^ 46 + 7 * 2 ^ 84), 0, 0⟩)] } }
def readReq (off len : Nat) : PcieReq := ⟨false, off, len, [], [], 7, none, false, false, false, 4⟩
def writeReq (off : Nat) (n : Nat) : PcieReq := ⟨true, off, 0, List.replicate n 1, List.replicate n true, 7, none, false, false, false, 4⟩
theorem witness_HostRequests : lab.mgmt.ready.getLsbD 0 = false ∧ ready.mgmt.ready.getLsbD 0 = true ∧
    (∀ r ∈ [readReq 0x20003 4096, writeReq 0x20003 5, readReq (12 * 2 ^ 36 + 0x20000) 8, writeReq (2 * 2 ^ 36 + 0x20000) 4],
      let addr := apertureAddr r.off
      pcieCause r (winOf addr) = none ∧ winOf addr ≠ 7 ∧
      permitted ready 0 r.rid r.pasid (winOf addr) (scratchOff addr) (opModifies (winOp (!r.write) (winOf addr))) = true ∧
      permitted lab 0 r.rid r.pasid (winOf addr) (scratchOff addr) (opModifies (winOp (!r.write) (winOf addr))) = false) ∧
    pcieCause (readReq (2 * 2 ^ 36 + 0x20000) 4) 2 = some 1 ∧ pcieCause (writeReq (2 * 2 ^ 36 + 0x20002) 4) 2 = some 2 ∧
    (let a := { accAt .await 0x20000 with who := .pcie 7 none 4 0 }
     let s := { atHome a lab with wall := 40000001 }; accById s a.id = some a ∧ opReturns a.op = true ∧ a.cmp = 0 ∧
      a.issued + 40000000 < s.wall ∧ (readGroup s a).map Access.st = [.queued] ∧ lab.wall ≤ a.issued + 40000000) := by decide +kernel

/-- SkasonAndTime: this device is 5, its peer 6, on link 2. -/
def fabric : State := { lab with ports := { lab.ports with
  skid := 5, links := [2], route := [(6, 4)], ingr := [(0, ⟨BitVec.ofNat 128 (2 ^ 63 + 2 ^ 61 + 2 ^ 60 + 2 ^ 13 + 8191 * 2 ^ 46 + 6 * 2 ^ 100), 0, 0⟩)]
  region := [(0, 0x00200000), (1, 0x80200000)] } }
def farAddr (dev off : Nat) : Dword := BitVec.ofNat 64 (2 ^ 63 + 4 * 2 ^ 56 + dev * 2 ^ 34 + off)
def sk (dst off hops : Nat) : SkReq := ⟨6, dst, 2, hops, .store, 0, farAddr dst off, 4, 9, 0, false, 0, 0, 1⟩
theorem witness_Skason : (∀ off ∈ [0x20000, 0x200000], let r := sk 5 off 1
      r.dst = skid fabric ∧ linkExists fabric r.link = true ∧ skasonCause r = none ∧ permitted fabric 1 r.src none (winOf r.addr) (scratchOff r.addr) (opModifies r.op) = true ∧
      (regionEntry fabric (regionOf (scratchOff r.addr))).getLsbD 31 = decide (off = 0x200000) ∧
      permitted lab 1 r.src none (winOf r.addr) (scratchOff r.addr) (opModifies r.op) = false) ∧
    linkExists fabric 16 = false ∧ skasonCause { sk 5 0x20000 1 with addr := 0x20000 } = some 3 ∧ (∀ h ∈ [1, 7, 8], (sk 6 0x20000 h).dst ≠ skid fabric) ∧
    routeLink fabric 6 (scratchOff (sk 6 0x20000 1).addr) = some 2 ∧ routeLink fabric 9 (scratchOff (sk 9 0x20000 1).addr) = none := by
  decide +kernel
theorem witness_Time : (let a := { accAt .load 0x20000 with addr := farAddr 6 0x20000, st := .retry 0 10, dev := some 6 }
     let s := { atHome a fabric with wall := 10000000 };
      accById s a.id = some a ∧ 0 + 1000 * 10 ≤ s.wall ∧ afterOk (setAcc s { a with st := .queued }) { a with st := .queued } = true ∧
      routeLink s (remoteId a.addr) (scratchOff a.addr) = some 2 ∧ a.hold ≤ s.wall) ∧
    (let a := { accAt .load 0x20000 with addr := farAddr 6 0x20000, st := .remote, dev := some 6, dies := [3] }
     let s := { atHome { a with cut := true } fabric with wall := 1000000 };
      accById s a.id = some { a with cut := true } ∧ a.acked = false ∧ a.issued + 1000000 ≤ s.wall ∧ a.onLink 3 = true) ∧ linkExists fabric 15 = true ∧
    (∀ f ∈ [none, some (3, 2, 2), some (3, 2, 7)], ∀ n ∈ [2 ^ 62, 2 ^ 62 + 2 ^ 63], let ctl : Dword := BitVec.ofNat 64 n
      let s := { fabric with ports := { fabric.ports with timeCtl := ctl, follows := f } };
      2 ∈ s.ports.links ∧ s.ports.timeCtl.getLsbD 62 = true ∧ s.ports.timeCtl.getLsbD 63 = ctl.getLsbD 63 ∧ s.ports.follows = f ∧
      s.ports.skid = 5) := by decide +kernel

theorem witness_Housekeeping : State.reset.mgmt.wiping = true ∧ State.reset.mgmt.held = false ∧ (lab.troupe 256).placed = true ∧
    (∀ g ∈ [{ lab.mgmt with spdmVersion := true, spdmCaps := true, spdmAlgs := true }], g.spdmVersion = true ∧ g.spdmCaps = true ∧ g.spdmAlgs = true) ∧
    (let s := { lab with mgmt := { lab.mgmt with wiping := false } }; s.mgmt.wiping = false) ∧ isMemory lab 0x20000 = true ∧ isMemory lab (2 ^ 41 + 5) = true ∧ isMemory lab (2 ^ 41 + 2 ^ 37) = false ∧
    lab.mgmt.plimit = 1900 ∧ (let s := { lab with mgmt := { lab.mgmt with held := true } }; s.mgmt.held = true) := by decide +kernel
end Sys2Proof.Tests
end

section
/-! SUPPORT. How threads leave their waits: what `leaveLanes` writes, whom it moves on, and the convergence points (R54, R59). -/

namespace Sys2Proof.Machine

open Sys2Proof

/-! ### Register writes in a row -/

theorem Troupe.setRegs_append (tr : Troupe) (xs ys : List (Nat × Word)) :
    tr.setRegs (xs ++ ys) = (tr.setRegs xs).setRegs ys := List.foldl_append

/-- A register that some of the writes name, all of them with one value, holds that value. -/
theorem Troupe.reg_setRegs_of_agree (ws : List (Nat × Word)) (tr : Troupe) {k : Nat} {x : Word}
    (hk : k ∈ ws.map Prod.fst) (hx : ∀ w ∈ ws, w.1 = k → w.2 = x) : (tr.setRegs ws).reg k = x := by
  induction ws generalizing tr with
  | nil => cases hk
  | cons w r ih =>
    rw [Troupe.setRegs_cons]
    by_cases hr : k ∈ r.map Prod.fst
    · exact ih _ hr fun v hv => hx v (List.mem_cons_of_mem _ hv)
    · have hw : w.1 = k := by simpa [hr, eq_comm] using hk
      rw [Troupe.reg_setRegs_of_not_mem _ _ hr, ← hw, Troupe.reg_setReg_self]
      exact hx w List.mem_cons_self hw

@[simp] theorem Troupe.thread_setRegs (tr : Troupe) (ws : List (Nat × Word)) (l : Nat) :
    (tr.setRegs ws).thread l = tr.thread l := by
  have h := congrArg Troupe.threads (Troupe.setRegs_rest ws tr)
  exact congrArg (fun x => tget x Thread.drained l) (h :)

/-- The words written where the result is 0 are 0. -/
theorem destWrites_zero {wide : Bool} {d : Opd} {l : Nat} {w : Nat × Word} (h : w ∈ destWrites wide d l 0) : w.2 = 0 := by
  cases d <;> cases wide <;> simp [destWrites, loWord, hiWord, boolWord] at h <;> aesop

/-- The words written where a result of 32 bits is 1 are 1. -/
theorem destWrites_one {d : Opd} {l : Nat} {w : Nat × Word} (h : w ∈ destWrites false d l 1) : w.2 = 1 := by
  cases d <;> simp [destWrites, loWord, boolWord] at h <;> aesop

/-! ### Leaving a wait -/

/-- What a lane writes as it leaves its wait with the value `val` gives it. -/
def leaveWrites (tr : Troupe) (val : Nat → Dword) (l : Nat) : List (Nat × Word) :=
  destWrites (Ty.wide (tr.thread l).info.ty) (tr.thread l).info.d l (val l)

/-- One lane leaves its wait. -/
def leaveLane (val : Nat → Dword) (tr : Troupe) (l : Nat) : Troupe :=
  (tr.setRegs (leaveWrites tr val l)).setThread l (tr.thread l).left

theorem leaveLanes_eq (s : State) (t : Nat) (m : Mask) (val : Nat → Dword) :
    leaveLanes s t m val = s.setTroupe t ((lanes m).reverse.foldl (leaveLane val) (s.troupe t)) := rfl

theorem leaveLane_rest (val : Nat → Dword) (tr : Troupe) (l : Nat) :
    { leaveLane val tr l with regs := tr.regs, pend := tr.pend, threads := tr.threads } = tr :=
  (congrArg (fun x : Troupe => { x with threads := tr.threads }) (Troupe.setRegs_rest (leaveWrites tr val l) tr) :)

theorem thread_leaveLane (val : Nat → Dword) (tr : Troupe) (l j : Nat) :
    (leaveLane val tr l).thread j = if j = l then (tr.thread j).left else tr.thread j := by
  rw [leaveLane, Troupe.thread_setThread, Troupe.thread_setRegs]
  split
  · rename_i h; rw [h]
  · rfl

theorem foldl_leaveLane_rest (val : Nat → Dword) (ls : List Nat) (tr : Troupe) :
    { ls.foldl (leaveLane val) tr with regs := tr.regs, pend := tr.pend, threads := tr.threads } = tr := by
  induction ls generalizing tr with
  | nil => rfl
  | cons a r ih =>
    have h := congrArg (fun x : Troupe => { x with regs := tr.regs, pend := tr.pend, threads := tr.threads }) (ih (leaveLane val tr a))
    exact (h :).trans (leaveLane_rest val tr a)

theorem foldl_leaveLane_thread (val : Nat → Dword) (ls : List Nat) (hn : ls.Nodup) (tr : Troupe) (j : Nat) :
    (ls.foldl (leaveLane val) tr).thread j = if j ∈ ls then (tr.thread j).left else tr.thread j := by
  induction ls generalizing tr with
  | nil => simp
  | cons a r ih =>
    obtain ⟨ha, hr⟩ := List.nodup_cons.1 hn
    rw [List.foldl_cons, ih hr, thread_leaveLane]
    by_cases hj : j = a
    · subst hj; simp [ha]
    · simp [hj]

theorem foldl_leaveLane_reg (val : Nat → Dword) (ls : List Nat) (hn : ls.Nodup) (tr : Troupe) (k : Nat) :
    (ls.foldl (leaveLane val) tr).reg k = (tr.setRegs (ls.flatMap (leaveWrites tr val))).reg k := by
  induction ls generalizing tr with
  | nil => rfl
  | cons a r ih =>
    obtain ⟨ha, hr⟩ := List.nodup_cons.1 hn
    have hw : r.flatMap (leaveWrites (leaveLane val tr a) val) = r.flatMap (leaveWrites tr val) :=
      List.flatMap_congr fun l hl => by
        have hla : l ≠ a := fun h => ha (h ▸ hl)
        simp only [leaveWrites, thread_leaveLane, hla, if_false]
    rw [List.foldl_cons, ih hr, hw, List.flatMap_cons, Troupe.setRegs_append]
    have setThread_out (ws : List (Nat × Word)) : ∀ (x : Troupe) (y : Thread),
        ((x.setThread a y).setRegs ws).reg k = (x.setRegs ws).reg k := by
      induction ws with
      | nil => exact fun _ _ => rfl
      | cons w ws ihw => exact fun x y => ihw (x.setReg w.1 w.2) y
    exact setThread_out _ _ _

theorem lanes_reverse_nodup (m : Mask) : (lanes m).reverse.Nodup := List.nodup_reverse.2 (lanes_nodup m)

theorem thread_leaveLanes (s : State) (t : Nat) (m : Mask) (val : Nat → Dword) (j : Nat) :
    (leaveLanes s t m val).thread t j = if hasLane m j then (s.thread t j).left else s.thread t j := by
  rw [leaveLanes_eq, State.thread, State.troupe_setTroupe_self, foldl_leaveLane_thread _ _ (lanes_reverse_nodup m)]
  simp [mem_lanes, State.thread]

theorem troupe_leaveLanes_rest (s : State) (t : Nat) (m : Mask) (val : Nat → Dword) :
    { (leaveLanes s t m val).troupe t with
      regs := (s.troupe t).regs, pend := (s.troupe t).pend, threads := (s.troupe t).threads } = s.troupe t := by
  rw [leaveLanes_eq, State.troupe_setTroupe_self]
  exact foldl_leaveLane_rest _ _ _

theorem troupe_leaveLanes_ne (s : State) {t u : Nat} (m : Mask) (val : Nat → Dword) (h : u ≠ t) :
    (leaveLanes s t m val).troupe u = s.troupe u := State.troupe_setTroupe_ne _ _ h

@[simp] theorem leaveLanes_mem (s : State) (t : Nat) (m : Mask) (val : Nat → Dword) : (leaveLanes s t m val).mem = s.mem := rfl

theorem reg_leaveLanes (s : State) (t : Nat) (m : Mask) (val : Nat → Dword) (k : Nat) :
    ((leaveLanes s t m val).troupe t).reg k =
      ((s.troupe t).setRegs ((lanes m).reverse.flatMap (leaveWrites (s.troupe t) val))).reg k := by
  rw [leaveLanes_eq, State.troupe_setTroupe_self, foldl_leaveLane_reg _ _ (lanes_reverse_nodup m)]

/-- A register that no leaving lane's destination names stays. -/
theorem reg_leaveLanes_other {s : State} {t : Nat} {m : Mask} {val : Nat → Dword} {k : Nat}
    (h : ∀ l, hasLane m l = true → k ∉ (leaveWrites (s.troupe t) val l).map Prod.fst) :
    ((leaveLanes s t m val).troupe t).reg k = (s.troupe t).reg k := by
  rw [reg_leaveLanes, Troupe.reg_setRegs_of_not_mem]
  intro hk
  simp only [List.map_flatMap, List.mem_flatMap, List.mem_reverse, mem_lanes] at hk
  obtain ⟨l, hl, hk⟩ := hk
  exact h l hl hk

/-- A register to which all leaving lanes write one word, if they write it, holds that word after. -/
theorem reg_leaveLanes_agree {s : State} {t : Nat} {m : Mask} {val : Nat → Dword} {l : Nat} {w : Nat × Word}
    (hl : hasLane m l = true) (hw : w ∈ leaveWrites (s.troupe t) val l)
    (h : ∀ j, hasLane m j = true → ∀ v ∈ leaveWrites (s.troupe t) val j, v.1 = w.1 → v.2 = w.2) :
    ((leaveLanes s t m val).troupe t).reg w.1 = w.2 := by
  rw [reg_leaveLanes]
  refine Troupe.reg_setRegs_of_agree _ _ ?_ fun v hv hvw => ?_
  · simp only [List.map_flatMap, List.mem_flatMap, List.mem_reverse, mem_lanes]
    exact ⟨l, hl, List.mem_map_of_mem hw⟩
  · simp only [List.mem_flatMap, List.mem_reverse, mem_lanes] at hv
    obtain ⟨j, hj, hv⟩ := hv
    exact h j hj v hv hvw

/-- Lanes that leave with 0 leave 0 in their destinations. -/
theorem gets_leaveLanes_zero {s : State} {t : Nat} {m : Mask} {l : Nat} (hl : hasLane m l = true) :
    Gets ((leaveLanes s t m fun _ => 0).troupe t) (Ty.wide (s.thread t l).info.ty) (s.thread t l).info.d l 0 :=
  fun _ hw => reg_leaveLanes_agree hl hw fun _ _ _ hv _ => (destWrites_zero hv).trans (destWrites_zero hw).symm

/-- One lane alone leaves a wait (R38). -/
theorem leavesWait_leaveLanes {s : State} {t l : Nat} (hl : l < 32) (x : Dword) :
    LeavesWait t l x s (leaveLanes s t (laneBit l) fun _ => x) where
  thread := by rw [thread_leaveLanes, if_pos (by simp [hasLane_laneBit hl])]
  result w hw := by
    refine reg_leaveLanes_agree (l := l) (by simp [hasLane_laneBit hl]) hw fun j hj v hv hvw => ?_
    have hj : j = l := by simpa [hasLane_laneBit hl] using hj
    subst hj
    have hn : ((leaveWrites (s.troupe t) (fun _ => x) j).map Prod.fst).Nodup := by
      cases h : ((s.troupe t).thread j).info.d <;> simp only [leaveWrites, h, destWrites] <;> (try split) <;> simp [vKey, sKey]
    have := List.inj_on_of_nodup_map hn hv hw hvw
    rw [this]
  regs k hk := by
    refine reg_leaveLanes_other fun j hj => ?_
    have hj : j = l := by simpa [hasLane_laneBit hl] using hj
    subst hj
    rw [leaveWrites, keys_destWrites]
    exact hk
  lanes j hj := by rw [thread_leaveLanes, if_neg (by simpa [hasLane_laneBit hl] using hj)]
  others u hu := troupe_leaveLanes_ne _ _ _ hu
  bytes := rfl

/-! ### Threads released together (R54) -/

/-- Forming a bundle changes wings alone. -/
theorem addBundle_rest (s : State) (t : Nat) (m : Mask) : { addBundle s t m with wings := s.wings } = s := by
  unfold addBundle
  split <;> rfl

theorem bundleByPc_rest (s : State) (t : Nat) (m : Mask) : { bundleByPc s t m with wings := s.wings } = s := by
  unfold bundleByPc
  dsimp only
  generalize ((List.map _ _).eraseDups : List Word) = pcs
  suffices h : ∀ z : State, { z with wings := s.wings } = s →
      { pcs.foldl (fun s' p => addBundle s' t (maskOf fun l => ((lanes m).filter fun l =>
        ((s.troupe t).thread l).ready).contains l && ((s.troupe t).thread l).pc == p)) z with wings := s.wings } = s from h s rfl
  induction pcs with
  | nil => exact fun z hz => hz
  | cons p ps ih =>
    refine fun z hz => ih _ ?_
    exact (congrArg (fun x : State => { x with wings := s.wings }) (addBundle_rest z t _) :).trans hz

@[simp] theorem troupe_bundleByPc (s : State) (t : Nat) (m : Mask) (u : Nat) : (bundleByPc s t m).troupe u = s.troupe u :=
  congrArg (fun x => tget x Troupe.absent u) (congrArg State.troupes (bundleByPc_rest s t m) :)
@[simp] theorem thread_bundleByPc (s : State) (t : Nat) (m : Mask) (u l : Nat) : (bundleByPc s t m).thread u l = s.thread u l := by
  simp only [State.thread, troupe_bundleByPc]
@[simp] theorem bundleByPc_mem (s : State) (t : Nat) (m : Mask) : (bundleByPc s t m).mem = s.mem :=
  (congrArg State.mem (bundleByPc_rest s t m) :)

/-! ### Convergence points (R59) -/

theorem Troupe.expected_setExpected (tr : Troupe) (k j : Nat) (m : Mask) :
    (tr.setExpected k m).expected j = if j = k then m else tr.expected j := tget_tset _ _ _ _ _

theorem Thread.waitsCv_iff {th : Thread} {k : Nat} :
    th.waitsCv k = true ↔ th.st = .waiting ∧ ∃ d n, th.wait = .cvwait k d n := by
  unfold Thread.waitsCv
  constructor
  · intro h
    obtain ⟨hs, hw⟩ := Bool.and_eq_true_iff.1 h
    refine ⟨by simpa using hs, ?_⟩
    split at hw
    · rename_i c d n hc
      exact ⟨d, n, by rw [hc, beq_iff_eq.1 hw]⟩
    · cases hw
  · rintro ⟨hs, d, n, hw⟩
    simp [hs, hw]

theorem Thread.waitsCv_of_ready {th : Thread} {k : Nat} (h : th.st = .ready) : th.waitsCv k = false := by
  simp [Thread.waitsCv, h]

/-- Point `k` has an expected set, and every lane of it waits there. -/
def CvComplete (s : State) (t k : Nat) : Prop :=
  (s.troupe t).expected k ≠ 0 ∧ ∀ l, hasLane ((s.troupe t).expected k) l = true → (s.thread t l).waitsCv k = true

theorem cvComplete_iff {s : State} {t k : Nat} : CvComplete s t k ↔
    ((s.troupe t).expected k != 0 && (lanes ((s.troupe t).expected k)).all fun l => ((s.troupe t).thread l).waitsCv k) = true := by
  simp only [CvComplete, Bool.and_eq_true, bne_iff_ne, List.all_eq_true, mem_lanes, State.thread]

/-- A point that is idle, or that some lane of its set does not wait at, stays as it is. -/
theorem cvCheck_open {s : State} {t k : Nat} (h : ¬CvComplete s t k) : cvCheck s t k = s :=
  if_neg (cvComplete_iff.not.1 h)

/-- When every lane of the set waits, all of them write 1 and go on, and the point is idle. -/
theorem cvCheck_complete {s : State} {t k : Nat} (h : CvComplete s t k) :
    cvCheck s t k = bundleByPc (leaveLanes (s.setTroupe t ((s.troupe t).setExpected k 0)) t ((s.troupe t).expected k) fun _ => 1)
      t ((s.troupe t).expected k) := if_pos (cvComplete_iff.1 h)

theorem not_cvComplete {s : State} {t k l : Nat} (hl : hasLane ((s.troupe t).expected k) l = true)
    (h : (s.thread t l).waitsCv k = false) : ¬CvComplete s t k := fun hc => by
  rw [hc.2 l hl] at h
  cases h

@[simp] theorem cvCheck_mem (s : State) (t k : Nat) : (cvCheck s t k).mem = s.mem := by
  by_cases h : CvComplete s t k
  · rw [cvCheck_complete h, bundleByPc_mem, leaveLanes_mem, State.setTroupe_mem]
  · rw [cvCheck_open h]

theorem thread_cvCheck_complete {s : State} {t k : Nat} (h : CvComplete s t k) (l : Nat) :
    (cvCheck s t k).thread t l =
      if hasLane ((s.troupe t).expected k) l then (s.thread t l).left else s.thread t l := by
  have hset (j : Nat) : (s.setTroupe t ((s.troupe t).setExpected k 0)).thread t j = s.thread t j := by
    simp only [State.thread, State.troupe_setTroupe_self]; rfl
  rw [cvCheck_complete h, thread_bundleByPc, thread_leaveLanes, hset]

/-- A lane that does not wait at the point has no part in its completion. -/
theorem thread_cvCheck_of_awake {s : State} {t k l : Nat} (h : (s.thread t l).waitsCv k = false) :
    (cvCheck s t k).thread t l = s.thread t l := by
  by_cases hc : CvComplete s t k
  · rw [thread_cvCheck_complete hc, if_neg]
    exact fun hl => not_cvComplete hl h hc
  · rw [cvCheck_open hc]

theorem expected_cvCheck_complete {s : State} {t k : Nat} (h : CvComplete s t k) : ((cvCheck s t k).troupe t).expected k = 0 := by
  have hcv := congrArg Troupe.cv (troupe_leaveLanes_rest (s.setTroupe t ((s.troupe t).setExpected k 0)) t
    ((s.troupe t).expected k) fun _ => 1)
  rw [State.troupe_setTroupe_self] at hcv
  rw [cvCheck_complete h, troupe_bundleByPc, Troupe.expected, (hcv :)]
  exact (Troupe.expected_setExpected _ _ _ _).trans (if_pos rfl)

/-- A completed point writes 1 to the destinations of its lanes, where each is of 32 bits. -/
theorem gets_cvCheck_complete {s : State} {t k : Nat} (h : CvComplete s t k)
    (hn : ∀ l, hasLane ((s.troupe t).expected k) l = true → Ty.wide (s.thread t l).info.ty = false) {l : Nat}
    (hl : hasLane ((s.troupe t).expected k) l = true) :
    Gets ((cvCheck s t k).troupe t) false (s.thread t l).info.d l 1 := by
  intro w hw
  have hthread (j : Nat) : ((s.setTroupe t ((s.troupe t).setExpected k 0)).troupe t).thread j = s.thread t j := by
    rw [State.troupe_setTroupe_self]; rfl
  have hwr {j : Nat} (hj : hasLane ((s.troupe t).expected k) j = true) :
      leaveWrites ((s.setTroupe t ((s.troupe t).setExpected k 0)).troupe t) (fun _ => 1) j =
        destWrites false (s.thread t j).info.d j 1 := by rw [leaveWrites, hthread, hn j hj]
  rw [cvCheck_complete h, troupe_bundleByPc]
  exact reg_leaveLanes_agree hl ((hwr hl).symm ▸ hw) fun j hj v hv _ =>
    (destWrites_one (hwr hj ▸ hv)).trans (destWrites_one hw).symm

end Sys2Proof.Machine
end

section
/-! SUPPORT. CVSET and CVWAIT (R255, R256), and the statement on convergence points. -/

namespace Sys2Proof.Machine

open Sys2Proof

theorem hasLane_not (m : Mask) (l : Nat) : hasLane (~~~m) l = (decide (l < 32) && !hasLane m l) := by
  simp only [hasLane, BitVec.getLsbD_not]

/-- The lanes that a release at point `k` lets go. -/
theorem hasLane_released {s : State} {t k : Nat} {m : Mask} {l : Nat} :
    hasLane (maskOf fun l => hasLane m l && ((s.troupe t).thread l).waitsCv k) l =
      (hasLane m l && (s.thread t l).waitsCv k) := by
  rw [hasLane_maskOf]
  by_cases h : hasLane m l = true
  · simp [h, lt_of_hasLane h, State.thread]
  · simp [h]

/-- Point `k` with the threads of `m` that wait there released and expected set `e`: what CVSET makes of it. -/
def cvReset (s : State) (t k : Nat) (m e : Mask) : State :=
  let s1 := cvRelease s t k m
  s1.setTroupe t ((s1.troupe t).setExpected k e)

theorem thread_cvReset (s : State) (t k : Nat) (m e : Mask) (l : Nat) :
    (cvReset s t k m e).thread t l =
      if (hasLane m l && (s.thread t l).waitsCv k) = true then (s.thread t l).left else s.thread t l := by
  rw [← hasLane_released, ← thread_leaveLanes s t _ fun _ => 0]
  simp only [cvReset, State.thread, State.troupe_setTroupe_self]
  rfl

theorem expected_cvReset (s : State) (t k : Nat) (m e : Mask) (j : Nat) :
    ((cvReset s t k m e).troupe t).expected j = if j = k then e else (s.troupe t).expected j := by
  have hcv : ((cvRelease s t k m).troupe t).cv = (s.troupe t).cv := (congrArg Troupe.cv (troupe_leaveLanes_rest s t _ _) :)
  rw [cvReset, State.troupe_setTroupe_self, Troupe.expected_setExpected]
  simp only [Troupe.expected, hcv]

theorem gets_cvReset {s : State} {t k : Nat} {m e : Mask} {l : Nat} (h : (hasLane m l && (s.thread t l).waitsCv k) = true) :
    Gets ((cvReset s t k m e).troupe t) (Ty.wide (s.thread t l).info.ty) (s.thread t l).info.d l 0 := by
  rw [cvReset, State.troupe_setTroupe_self]
  exact gets_leaveLanes_zero (s := s) (by rw [hasLane_released]; exact h)

theorem onlyTroupe_leaveLanes {u : Nat} {s t : State} (h : OnlyTroupe u s t) (m : Mask) (val : Nat → Dword) :
    OnlyTroupe u s (leaveLanes t u m val) := onlyTroupe_setTroupe h _

/-- The outcome of an instruction that resets point `k` and lets every thread of the bundle go on. -/
theorem cvReset_finish {s : State} {c : Ctx} (hw : Awake c s) (k : Fin 8) {m : Mask} (e : Mask) {goes : Nat → Prop}
    (hgo : ∀ l, hasLane m l = true ↔ goes l) :
    let t := finish c (.ok (cvReset s.begun c.t k.val m e))
    OnlyTroupe c.t s t ∧
    (∀ j : Fin 8, (t.troupe c.t).expected j.val = if j = k then e else (s.troupe c.t).expected j.val) ∧
    ∀ l, (hasLane c.mask l = true → t.thread c.t l = (s.thread c.t l).advance c.hdr) ∧
      ((s.thread c.t l).waitsCv k.val = true → goes l → t.thread c.t l = (s.thread c.t l).left ∧
        Gets (t.troupe c.t) (Ty.wide (s.thread c.t l).info.ty) (s.thread c.t l).info.d l 0) ∧
      (hasLane c.mask l = false → ¬((s.thread c.t l).waitsCv k.val = true ∧ goes l) →
        t.thread c.t l = s.thread c.t l) := by
  simp only [← hgo]
  have hthread (l : Nat) : (finish c (.ok (cvReset s.begun c.t k.val m e))).thread c.t l =
      if hasLane c.mask l = true then ((cvReset s.begun c.t k.val m e).thread c.t l).advance c.hdr
      else (cvReset s.begun c.t k.val m e).thread c.t l := thread_mapLanes _ _ _ _ _
  have hbegun (l : Nat) : s.begun.thread c.t l = s.thread c.t l := rfl
  refine ⟨onlyTroupe_finish_ok (onlyTroupe_setTroupe (onlyTroupe_leaveLanes (onlyTroupe_begun _ _) _ _) _), fun j => ?_,
    fun l => ⟨fun hl => ?_, fun hcv hm => ⟨?_, ?_⟩, fun hl hno => ?_⟩⟩
  · have hcv : ((finish c (.ok (cvReset s.begun c.t k.val m e))).troupe c.t).cv = ((cvReset s.begun c.t k.val m e).troupe c.t).cv := by
      rw [troupe_finish_ok, Troupe.mapLanes_cv]
    have := expected_cvReset s.begun c.t k.val m e j.val
    simp only [Troupe.expected, hcv] at this ⊢
    rw [this]
    by_cases hj : j = k
    · simp [hj]
    · simp [hj, Fin.val_inj]; rfl
  · rw [hthread, if_pos hl, thread_cvReset, hbegun, Thread.waitsCv_of_ready (hw l hl)]
    simp
  · have hl : hasLane c.mask l = false := by
      by_contra h
      rw [Thread.waitsCv_of_ready (hw l (by simpa using h))] at hcv
      cases hcv
    rw [hthread, hl, thread_cvReset, hbegun]
    simp [hcv, hm]
  · intro w hwr
    rw [troupe_finish_ok, Troupe.reg_mapLanes]
    exact gets_cvReset (s := s.begun) (by simp [hbegun, hcv, hm]) w hwr
  · rw [hthread, hl, thread_cvReset, hbegun, if_neg (by simp), if_neg]
    rw [Bool.and_eq_true]
    exact fun h => hno ⟨h.2, h.1⟩

theorem Ctx.low_spec {c : Ctx} (h : c.act ≠ 0) : hasLane c.act c.low = true ∧ ∀ j, hasLane c.act j = true → c.low ≤ j :=
  lowLane_spec h

/-- CVSET's point is not complete: its lanes issue CVSET, and wait at no point. -/
theorem cvCheck_cvReset {s : State} {c : Ctx} (hw : Awake c s) (hle : ∀ l, hasLane c.act l = true → hasLane c.mask l = true)
    (ha : c.act ≠ 0) (k : Nat) (m : Mask) : cvCheck (cvReset s.begun c.t k m c.act) c.t k = cvReset s.begun c.t k m c.act := by
  obtain ⟨hl, -⟩ := Ctx.low_spec ha
  have hr := Thread.waitsCv_of_ready (k := k) (hw _ (hle _ hl))
  refine cvCheck_open (not_cvComplete (l := c.low) (by rw [expected_cvReset]; simpa using hl) ?_)
  rw [thread_cvReset, show s.begun.thread c.t c.low = s.thread c.t c.low from rfl, hr]
  simpa using hr

/-- CVWAIT once the threads of Active stand in their waits and those outside the expected set have gone on with 0. -/
def cvEntered (s : State) (c : Ctx) (k : Nat) (d : Opd) (b : Src) : State :=
  leaveLanes (s.mapLanes c.t c.act fun l th => th.waitAt c.hdr (if lanesWrite c d l then d else .rz) .n32
    (.cvwait k (deadlineOf s (readSrcZ s c l b 1).toNat) (readSrcZ s c l b 1).toNat)) c.t
    (c.act &&& ~~~(s.troupe c.t).expected k) fun _ => 0

theorem execCvwait_next {h : Hdr} {k : Fin 8} {d : Opd} {b : Src} {s : State} {c : Ctx} (hi : Issues (.cvwait h k d b) s c) :
    exec (.cvwait h k d b) s = .next (finish c (.ctl (cvCheck (cvEntered s.begun c k.val d b) c.t k.val))) :=
  (exec_cvwait s).trans (issue_next hi _)

theorem expected_cvEntered (s : State) (c : Ctx) (k : Nat) (d : Opd) (b : Src) (j : Nat) :
    ((cvEntered s c k d b).troupe c.t).expected j = (s.troupe c.t).expected j := by
  have h1 : ((cvEntered s c k d b).troupe c.t).cv = ((s.mapLanes c.t c.act _).troupe c.t).cv :=
    (congrArg Troupe.cv (troupe_leaveLanes_rest _ c.t _ _) :)
  rw [State.troupe_mapLanes_self, Troupe.mapLanes_cv] at h1
  simp only [Troupe.expected, h1]

theorem thread_cvEntered (s : State) (c : Ctx) (k : Nat) (d : Opd) (b : Src) (l : Nat) :
    (cvEntered s c k d b).thread c.t l =
      if hasLane c.act l then
        let th := (s.thread c.t l).waitAt c.hdr (if lanesWrite c d l then d else .rz) .n32
          (.cvwait k (deadlineOf s (readSrcZ s c l b 1).toNat) (readSrcZ s c l b 1).toNat)
        if hasLane ((s.troupe c.t).expected k) l then th else th.left
      else s.thread c.t l := by
  rw [cvEntered, thread_leaveLanes, thread_mapLanes, hasLane_diff]
  by_cases ha : hasLane c.act l = true <;> by_cases he : hasLane ((s.troupe c.t).expected k) l = true <;> simp [ha, he]

theorem waitsCv_cvEntered {s : State} {c : Ctx} {k : Nat} {d : Opd} {b : Src} {l : Nat}
    (he : hasLane ((s.troupe c.t).expected k) l = true) :
    ((cvEntered s c k d b).thread c.t l).waitsCv k = true ↔ hasLane c.act l = true ∨ (s.thread c.t l).waitsCv k = true := by
  rw [thread_cvEntered]
  by_cases ha : hasLane c.act l = true
  · simp only [ha, he, if_true, true_or, iff_true]
    exact Thread.waitsCv_iff.2 ⟨rfl, _, _, rfl⟩
  · simp [ha]

/-- A lane of Active that is not expected has 0 in its destination, whether or not the others complete the point. -/
theorem gets_cvEntered {s : State} {c : Ctx} {k : Nat} {d : Opd} {b : Src} {l : Nat} (ha : hasLane c.act l = true)
    (he : hasLane ((s.troupe c.t).expected k) l = false) :
    Gets ((cvEntered s c k d b).troupe c.t) false (if lanesWrite c d l then d else .rz) l 0 := by
  have := gets_leaveLanes_zero (s := s.mapLanes c.t c.act fun l th => th.waitAt c.hdr (if lanesWrite c d l then d else .rz) .n32
    (.cvwait k (deadlineOf s (readSrcZ s c l b 1).toNat) (readSrcZ s c l b 1).toNat)) (t := c.t)
    (m := c.act &&& ~~~(s.troupe c.t).expected k) (l := l) (by rw [hasLane_diff]; simp [ha, he])
  rw [thread_mapLanes, if_pos ha] at this
  exact this

/-- Settles O15: `cvReset_finish` for the two forms of CVSET, and for CVWAIT the two cases of the completion check. -/
theorem convergence : Obligations.Convergence := by
  refine ⟨fun h k s c hw ha => ?_, fun h k d b s c hi hw => ?_⟩
  · have hid : c.idle = false := by simpa [Ctx.idle] using ha
    refine ⟨fun hi => ⟨_, ?_, cvReset_finish hw k (m := ~~~c.act) c.act fun l => by simp [hasLane_not]⟩,
      fun hi => ⟨_, ?_, cvReset_finish hw k (m := ~~~0) 0 fun l => by rw [hasLane_not]; simp [hasLane]⟩⟩
    · rw [exec_cvset, execCvset, issue_next hi, hid, if_neg (by simp),
        ← cvCheck_cvReset hw (fun l hl => hi.act_le hl) ha k.val (~~~c.act)]
      rfl
    · rw [exec_cvsetIdle, execCvsetIdle, issue_next hi, hid, if_neg (by simp)]
      rfl
  · dsimp only
    rw [execCvwait_next hi]
    have hgets {l : Nat} := gets_cvEntered (s := s.begun) (c := c) (k := k.val) (d := d) (b := b) (l := l)
    have hwait {l : Nat} := waitsCv_cvEntered (s := s.begun) (c := c) (k := k.val) (d := d) (b := b) (l := l)
    have hth := thread_cvEntered s.begun c k.val d b
    have hexp := expected_cvEntered s.begun c k.val d b k.val
    have hmem : (cvEntered s.begun c k.val d b).mem = s.mem := rfl
    generalize cvEntered s.begun c k.val d b = v at hgets hwait hth hexp hmem ⊢
    change (v.troupe c.t).expected k.val = (s.troupe c.t).expected k.val at hexp
    have hfin (l : Nat) : (finish c (.ctl (cvCheck v c.t k.val))).thread c.t l =
        if hasLane c.mask l && !hasLane c.act l then ((cvCheck v c.t k.val).thread c.t l).advance c.hdr
        else (cvCheck v c.t k.val).thread c.t l := by
      rw [← hasLane_diff]; exact thread_mapLanes _ _ _ _ _
    have hreg (r : Nat) : ((finish c (.ctl (cvCheck v c.t k.val))).troupe c.t).reg r = ((cvCheck v c.t k.val).troupe c.t).reg r := by
      rw [finish, State.troupe_mapLanes_self, Troupe.reg_mapLanes]
    have hcv : ((finish c (.ctl (cvCheck v c.t k.val))).troupe c.t).expected k.val =
        ((cvCheck v c.t k.val).troupe c.t).expected k.val := by
      rw [finish, State.troupe_mapLanes_self, Troupe.expected, Troupe.mapLanes_cv]; rfl
    refine ⟨_, rfl, fun x => ?_, fun l ha he => ?_, fun ⟨l, hl, hno⟩ => ?_, fun h0 hall => ?_, fun l hm ha => ?_⟩
    · exact congrArg (Memory.byte · x) ((cvCheck_mem v c.t k.val).trans hmem)
    · -- a lane outside the set has gone on, and waits at no point
      have hl : v.thread c.t l = { (s.thread c.t l).advance c.hdr with
          info := ⟨c.hdr, if lanesWrite c d l then d else .rz, .n32⟩, arrived := [] } := by
        rw [hth, if_pos ha]; exact if_neg (Bool.not_eq_true _ ▸ he)
      rw [hfin, ha, thread_cvCheck_of_awake (Thread.waitsCv_of_ready (by rw [hl]; rfl)), hl]
      simp
    · -- some lane of the set does not wait: the point stays
      have hopen : cvCheck v c.t k.val = v :=
        cvCheck_open (not_cvComplete (l := l) (hexp ▸ hl) (by simpa using fun h => hno ((hwait hl).1 h)))
      simp only [hopen] at hfin hreg hcv ⊢
      refine ⟨hcv.trans hexp, fun j ha he w hw => ?_, fun j ha he => ?_⟩
      · rw [hreg]
        simp only [ha, if_true] at hw
        exact hgets ha he w hw
      · rw [hfin, hth]
        simp only [ha, if_true, Bool.not_true, Bool.and_false, Bool.false_eq_true, if_false]
        exact if_pos he
    · -- every lane of the set waits: all of them leave
      have hc : CvComplete v c.t k.val := ⟨hexp ▸ h0, fun l hl => (hwait (hexp ▸ hl)).2 (hall l (hexp ▸ hl))⟩
      refine ⟨hcv.trans (expected_cvCheck_complete hc), fun l hl => ?_⟩
      have hl' : hasLane ((v.troupe c.t).expected k.val) l = true := hexp ▸ hl
      have hleft : (finish c (.ctl (cvCheck v c.t k.val))).thread c.t l = (v.thread c.t l).left := by
        rw [hfin, if_neg, thread_cvCheck_complete hc, if_pos hl']
        rw [Bool.and_eq_true]
        rintro ⟨hm, ha⟩
        rcases hall l hl with h | h
        · simp [h] at ha
        · rw [Thread.waitsCv_of_ready (hw l hm)] at h; cases h
      have hv (j : Nat) (hj : hasLane ((s.troupe c.t).expected k.val) j = true) : v.thread c.t j =
          if hasLane c.act j then (s.thread c.t j).waitAt c.hdr (if lanesWrite c d j then d else .rz) .n32
            (.cvwait k.val (deadlineOf s (readSrcZ s.begun c j b 1).toNat) (readSrcZ s.begun c j b 1).toNat)
          else s.thread c.t j := by
        rw [hth]
        split
        · exact if_pos hj
        · rfl
      have hpc : (v.thread c.t l).pc = (s.thread c.t l).pc := by rw [hv l hl]; split <;> rfl
      have hd : (v.thread c.t l).info.d =
          if hasLane c.act l then (if lanesWrite c d l then d else .rz) else (s.thread c.t l).info.d := by
        rw [hv l hl]; split <;> rfl
      rw [hleft]
      refine ⟨rfl, congrArg (· + 12) hpc, fun hn w hw => ?_⟩
      rw [hreg]
      refine gets_cvCheck_complete hc (fun j hj => ?_) hl' w (hd ▸ hw)
      have hj' := hexp ▸ hj
      rw [hv j hj']
      split
      · rfl
      · rename_i ha
        exact hn j ((hall j hj').resolve_left ha)
    · -- a lane whose guard is false waits at no point
      have hl : v.thread c.t l = s.thread c.t l := by rw [hth, if_neg (by simp [ha])]; rfl
      rw [hfin, thread_cvCheck_of_awake (Thread.waitsCv_of_ready (by rw [hl]; exact hw l hm)), hl]
      simp [hm, ha]

end Sys2Proof.Machine
end

section
/-! SUPPORT. What ends the waits of threads (R37, R38, R74, R82, R251, R256, R260, R295, R395), and the statement on it. -/

namespace Sys2Proof.Machine

open Sys2Proof

/-! ### Limits at the home (R74, R82) -/

theorem onAccess_next {s : State} {id : Nat} {a : Access} (h : accById s id = some a) (f : State → Access → State) :
    onAccess s id f = .next (f s a) := by
  unfold onAccess
  rw [h]

theorem Who.threads_of_outside {w : Who} (h : w.outside = true) : w.threads = none := by
  revert h
  cases w <;> simp [Who.outside, Who.threads]

theorem unpark_outside {s : State} {a : Access} (h : a.who.outside = true) : unpark s a = s := by
  unfold unpark
  rw [Who.threads_of_outside h]
  cases a.reported <;> rfl

theorem knowResult_outside {s : State} {a : Access} (h : a.who.outside = true) (x : Dword) : knowResult s a x = s := by
  unfold knowResult
  rw [Who.threads_of_outside h]
  cases a.pend != 0 <;> rfl

theorem noteTook_outside {s : State} {a : Access} (h : a.who.outside = true) (bs : List Access) : noteTook s a bs = s := by
  unfold noteTook
  rw [Who.threads_of_outside h]

/-- An access of an outside agent that returns a value stands, performed, until its reply leaves. -/
theorem performed_outside {s : State} {a : Access} (ho : a.who.outside = true) (hr : a.returns = true) (x : Dword) :
    performed s a x = setAcc s { a with st := .performed, res := x, isStore := false, reported := false } := by
  unfold performed
  rw [unpark_outside ho, knowResult_outside ho]
  exact if_pos hr

/-- The first access of an id, once it has been set. -/
theorem accById_setAcc {s : State} {a b : Access} (h : accById s b.id = some a) : accById (setAcc s b) b.id = some b := by
  unfold accById at h
  unfold accById setAcc
  dsimp only
  generalize s.accs = xs at h ⊢
  induction xs with
  | nil => cases h
  | cons y r ih =>
    rw [List.map_cons]
    by_cases hy : y.id = b.id
    · rw [if_pos hy, List.find?_cons_of_pos (by simp)]
    · rw [List.find?_cons_of_neg (by simpa using hy)] at h
      rw [if_neg hy, List.find?_cons_of_neg (by simpa using hy), ih h]

/-- What `settleEarly` makes of one access: its sample may be void or settled. -/
def settledEarly (ordered : Bool) (s : State) (a b : Access) : Access :=
  match b.early with
  | some (v, xs) =>
    if !xs.contains a.id then b
    else if (ordered && !foreignWritten s b) || (mxRead s a && mxRead s b) then { b with early := none }
    else { b with early := some (v, xs.filter fun i => i != a.id) }
  | none => b

theorem settleEarly_accs (s : State) (a : Access) (bs : List Access) :
    (settleEarly s a bs).accs = s.accs.map (settledEarly (!bs.isEmpty || stageWritten s a) s a) := rfl

theorem settledEarly_rest (o : Bool) (s : State) (a b : Access) : { settledEarly o s a b with early := b.early } = b := by
  unfold settledEarly
  split
  · split
    · rfl
    · split <;> rfl
  · rfl

theorem settledEarly_id (o : Bool) (s : State) (a b : Access) : (settledEarly o s a b).id = b.id :=
  (congrArg Access.id (settledEarly_rest o s a b) :)

theorem accById_settleEarly {s : State} {a b : Access} {id : Nat} (bs : List Access) (h : accById s id = some a) :
    ∃ x, accById (settleEarly s b bs) id = some x := by
  unfold accById at h ⊢
  rw [settleEarly_accs, List.find?_map]
  have hp : ((fun a : Access => a.id == id) ∘ settledEarly (!bs.isEmpty || stageWritten s b) s b) = fun a => a.id == id :=
    funext fun x => congrArg (· == id) (settledEarly_id _ s b x)
  exact ⟨_, by rw [hp, h]; rfl⟩

/-- A load of an outside agent that meets no buffered store, no stale tile and no poison is performed at its home, P or not. -/
theorem loadAtHome_outside {z : State} {b : Access} (ho : b.who.outside = true) (hop : b.op = .load) (hq : b.st = .queued)
    (he : b.early = none) (hm : mayPerform z b = true) (hb : buffered z b = []) (hs : staleHit z b.phys b.size = [])
    (hp : poisoned z b.phys b.size = false) :
    loadAtHome z b true = performed (settleEarly z b []) b (loadResult b (cleanN z b.phys b.size)) := by
  obtain ⟨hafter, hreach⟩ := Bool.and_eq_true_iff.1 hm
  have hreached : afterReached z b = true := by
    refine List.all_eq_true.2 fun i hi => ?_
    have h := List.all_eq_true.1 hafter i hi
    revert h
    cases accById z i with
    | none => exact id
    | some c => simp; tauto
  have hnear : (uncovered b []).any (fun p => z.poison.contains (p / 8)) = false := by
    refine Bool.eq_false_iff.2 fun h => ?_
    obtain ⟨p, hpb, hpz⟩ := List.any_eq_true.1 h
    obtain ⟨hpb, -⟩ := List.mem_filter.1 hpb
    obtain ⟨k, hk, rfl⟩ := List.mem_map.1 hpb
    refine Bool.eq_false_iff.1 hp (List.any_eq_true.2 ⟨_, List.contains_iff_mem.1 hpz, ?_⟩)
    have := List.mem_range.1 hk
    simp only [overlaps, Bool.and_eq_true, decide_eq_true_eq]
    omega
  have hhere : loadHere z b [] = performed (settleEarly z b []) b (loadResult b (cleanN z b.phys b.size)) := by
    have hread : readHome z b [] = (z, cleanN z b.phys b.size) := by
      unfold readHome
      rw [hnear]
      rfl
    unfold loadHere
    rw [hop, he]
    dsimp only
    rw [hread, noteTook_outside ho]
  have hfw : forwarded z b = some [] := by
    unfold forwarded
    rw [hb]
    rfl
  have hw : windowHeld z b = false := by
    rw [windowHeld, hb]
    exact Bool.and_false _
  unfold loadAtHome
  rw [hw, hreach, hreached, hfw, hop, hq, hs]
  simp only [hafter, hhere]
  simp

theorem readGroup_setAcc {s y : State} {a : Access} (h : readGroup s a = [a])
    (hy : ∀ c ∈ y.accs, c.id = a.id ∨ ∃ b ∈ s.accs, c.part = b.part ∧ c.who = b.who ∧ c.id = b.id) :
    ∀ c ∈ readGroup y a, c.id = a.id := by
  intro c hc
  cases hw : a.who <;> simp only [readGroup, hw] at h hc
  case pcie =>
    split at hc
    · rw [List.mem_singleton.1 hc]
    · rename_i hpart
      rw [if_neg hpart] at h
      obtain ⟨hc, hf⟩ := List.mem_filter.1 hc
      obtain hid | ⟨b, hb, hbp, hbw, hbi⟩ := hy c hc
      · exact hid
      · have hbg : b ∈ s.accs.filter fun b => b.part == a.part && b.who.outside :=
          List.mem_filter.2 ⟨hb, by rw [← hbp, ← hbw]; exact hf⟩
        rw [h] at hbg
        rw [hbi, List.mem_singleton.1 hbg]
  all_goals rw [List.mem_singleton.1 hc]

theorem countLapse_reported {s : State} {a : Access} (h : a.reported = true) : countLapse s a = s := if_pos h

/-- A lapse of a read of one part marks no other access. -/
theorem countLapse_single {s : State} {a : Access} (h : a.reported = false) (hg : ∀ c ∈ readGroup s a, c.id = a.id) :
    countLapse s a = bump s (sliceCounter (countSlice s a.phys) 4) 1 := by
  unfold countLapse
  rw [if_neg (by simp [h])]
  dsimp only
  congr 1
  have : (s.accs.map fun b => if ((readGroup s a).map Access.id).contains b.id && b.id != a.id then
      { b with reported := true } else b) = s.accs := by
    conv_rhs => rw [← List.map_id s.accs]
    refine List.map_congr_left fun b _ => if_neg fun hc => ?_
    obtain ⟨hin, hne⟩ := Bool.and_eq_true_iff.1 hc
    obtain ⟨c, hc, hid⟩ := List.mem_map.1 (List.contains_iff_mem.1 hin)
    exact bne_iff_ne.1 hne (hid.symm.trans (hg c hc))
  rw [this]

/-- An access that a hold on a clear P bit has left, queued at its home again. -/
def Access.requeued (a : Access) : Access := { a with st := .queued }
/-- The state in which a held load has been performed as if P were set (R74). -/
def heldLoadDone (s : State) (a : Access) : State :=
  performed (settleEarly (setAcc s a.requeued) a.requeued []) a.requeued (loadResult a.requeued (cleanN s a.phys a.size))

theorem Access.returns_requeued {a : Access} (h : a.op = .load) : a.requeued.returns = true := by
  simp [Access.returns, Access.requeued, h, opReturns]

/-- The access as it stands once its load has been performed, until its reply leaves. -/
def heldLoadOver (s : State) (a : Access) : Access :=
  { a with st := .performed, res := loadResult a.requeued (cleanN s a.phys a.size), isStore := false, reported := false }

theorem heldLoadDone_eq {s : State} {a : Access} (ho : a.who.outside = true) (hop : a.op = .load) : heldLoadDone s a =
    setAcc (settleEarly (setAcc s a.requeued) a.requeued []) (heldLoadOver s a) :=
  performed_outside (a := a.requeued) ho (Access.returns_requeued hop) _

/-- The lapse of a held load's limit (R74): it is performed as if P were set, and the lapse is counted. -/
theorem holdLapse_outside {s : State} {a : Access} (h : accById s a.id = some a) (hst : a.st = .heldP) (hop : a.op = .load)
    (ho : a.who.outside = true) (h0 : a.hold ≠ 0) (hle : a.hold ≤ s.wall) (he : a.early = none)
    (hm : mayPerform (setAcc s a.requeued) a.requeued = true) (hb : buffered (setAcc s a.requeued) a.requeued = [])
    (hs : staleHit s a.phys a.size = []) (hp : poisoned s a.phys a.size = false) :
    exec (.agentHoldLimitExpiry a.id) s = .next (countLapse (heldLoadDone s a) a) := by
  have hload : performAny true (setAcc s a.requeued) a.requeued = heldLoadDone s a := by
    unfold performAny
    rw [show a.requeued.op = .load from hop]
    exact loadAtHome_outside (b := a.requeued) ho hop rfl he hm hb hs hp
  obtain ⟨c, hc⟩ := accById_settleEarly (b := a.requeued) [] (accById_setAcc (b := a.requeued) h)
  have hfind : ∃ b, accById (heldLoadDone s a) a.id = some b ∧ b.st = .performed :=
    ⟨_, by rw [heldLoadDone_eq ho hop]; exact accById_setAcc (b := heldLoadOver s a) hc, rfl⟩
  obtain ⟨b, hb, hbst⟩ := hfind
  have hnot : (decide (a.hold = 0) || decide (s.wall < a.hold)) = false := by simp [h0, hle]
  rw [exec_agentHoldLimitExpiry, execAgentHoldLimitExpiry, onAccess_next h, ho, hst]
  dsimp only
  rw [show performAny true (setAcc s { a with st := .queued }) { a with st := .queued } = _ from hload, hb, hnot]
  simp only [hbst]
  rfl

theorem mem_accs_heldLoadDone {s : State} {a : Access} (ho : a.who.outside = true) (hop : a.op = .load) :
    ∀ c ∈ (heldLoadDone s a).accs, c.id = a.id ∨ ∃ b ∈ s.accs, c.part = b.part ∧ c.who = b.who ∧ c.id = b.id := by
  intro c hc
  rw [heldLoadDone_eq ho hop] at hc
  obtain ⟨d, hd, rfl⟩ := List.mem_map.1 hc
  rw [settleEarly_accs] at hd
  obtain ⟨e, he, rfl⟩ := List.mem_map.1 hd
  obtain ⟨b, hb, rfl⟩ := List.mem_map.1 he
  generalize (!List.isEmpty [] || _) = o
  have hrest (y : Access) := settledEarly_rest o (setAcc s a.requeued) a.requeued y
  by_cases hid : b.id = a.id
  · rw [if_pos (show b.id = a.requeued.id from hid), if_pos (show (settledEarly o _ _ a.requeued).id = (heldLoadOver s a).id from
      settledEarly_id _ _ _ _)]
    exact .inl rfl
  · rw [if_neg (show ¬b.id = a.requeued.id from hid), if_neg (by rw [settledEarly_id]; exact hid)]
    exact .inr ⟨b, hb, (congrArg Access.part (hrest b) :), (congrArg Access.who (hrest b) :), (congrArg Access.id (hrest b) :)⟩

/-! ### Threads that one hazard holds (R38) -/

theorem LeavesWait.of_rest {t l : Nat} {x : Dword} {s s' z : State} (h : LeavesWait t l x s' z)
    (hthread : ∀ j, s'.thread t j = s.thread t j) (hreg : ∀ k, (s'.troupe t).reg k = (s.troupe t).reg k)
    (hothers : ∀ u, u ≠ t → s'.troupe u = s.troupe u) (hmem : s'.mem = s.mem) : LeavesWait t l x s z := by
  obtain ⟨h1, h2, h3, h4, h5, h6⟩ := h
  simp only [hthread] at h1 h2 h3 h4
  exact ⟨h1, h2, fun k hk => (h3 k hk).trans (hreg k), h4, fun u hu => (h5 u hu).trans (hothers u hu), h6.trans hmem⟩

theorem hazardClear_stalled {s : State} {t l : Nat} (hst : (s.thread t l).st = .stalled) (h : hazardOver s t l = true) :
    ∃ s1 : State, exec (.hazardClear t l) s = .next (s1.mapLanes t (freedWith s t (s.thread t l))
      fun _ x => { x with st := .ready, wait := .none }) ∧ s1.mem = s.mem ∧ ∀ u, s1.troupe u = s.troupe u := by
  rw [exec_hazardClear]
  unfold execHazardClear
  simp only [hst, h]
  refine ⟨_, rfl, ?_⟩
  split <;> exact ⟨rfl, fun _ => rfl⟩

theorem hasLane_freedWith {s : State} {t l k : Nat} (hk : k < 32) : hasLane (freedWith s t (s.thread t l)) k = true ↔
    (s.thread t k).st = .stalled ∧ (s.thread t k).wait = (s.thread t l).wait ∧ (s.thread t k).pc = (s.thread t l).pc ∧
      hazardOver s t k = true := by
  unfold freedWith
  rw [hasLane_maskOf]
  simp [hk, and_assoc]

/-- Settles O45: each wait leaves through `leaveLanes`, an access at its home through `performed`, and the threads of one hazard
together. -/
theorem waitsEnd : Obligations.WaitsEnd := by
  refine ⟨?_, ?_, ?_, ?_⟩
  · intro s a ha hop hd hst
    refine ⟨fun hl hdev hlt => ?_, fun hl ho hle => ?_⟩
    · rw [exec_awaitLimitExpiry, execAwaitLimitExpiry, onAccess_next ha, awaitOver]
      simp [hop, hl, hdev, hd, hlt, hst]
    · rw [exec_agentHoldLimitExpiry, execAgentHoldLimitExpiry, onAccess_next ha, hst]
      simp [ho, hl, hd, hle]
  · intro s a ha hst hop ho h0 hle he b z y hm hb hs hp
    refine ⟨_, holdLapse_outside ha hst hop ho h0 hle he hm hb hs hp, fun hr => countLapse_reported hr, fun hr => ?_⟩
    have hslice : countSlice (heldLoadDone s a) a.phys = countSlice s a.phys := by rw [heldLoadDone_eq ho hop]; rfl
    refine ⟨?_, ?_, fun hg => ?_⟩
    · rw [countLapse, if_neg (by simp [hr]), hslice]; rfl
    · rw [countLapse, if_neg (by simp [hr])]; rfl
    · rw [countLapse_single hr (readGroup_setAcc hg (mem_accs_heldLoadDone ho hop))]; rfl
  · intro s t l hl hst
    refine ⟨fun k d n hw hd hlt => ?_, fun a d hw ha hp hd hlt => ?_, fun d hw hle => ?_, fun slot hw hstat hdone => ?_⟩
    · refine ⟨_, ?_, leavesWait_leaveLanes hl 0⟩
      rw [exec_cvwaitTimeout, execCvwaitTimeout, hst, hw]
      simp [hd, hlt]
    · refine ⟨_, ?_, (leavesWait_leaveLanes (s := dropAcc s a.id) hl 0).of_rest (fun _ => rfl) (fun _ => rfl)
        (fun _ _ => rfl) rfl, rfl⟩
      rw [exec_wpwaitTimeout, execWpwaitTimeout, hst, hw]
      simp [ha, hd, hlt, hp]
    · refine ⟨_, ?_, leavesWait_leaveLanes hl 0⟩
      rw [exec_sleepExpiry, execSleepExpiry, hst, hw]
      simp [hle]
    · have htr (u : Nat) : ((s.setTroupe t { s.troupe t with svcs := (s.troupe t).svcs.filter fun x => x.lane != l }).troupe u) =
          if u = t then { s.troupe t with svcs := (s.troupe t).svcs.filter fun x => x.lane != l } else s.troupe u :=
        State.troupe_setTroupe _ _ _ _
      have hthread (j : Nat) : (s.setTroupe t { s.troupe t with svcs := (s.troupe t).svcs.filter fun x => x.lane != l }).thread t j =
          s.thread t j := by rw [State.thread, htr, if_pos rfl]; rfl
      refine ⟨_, ?_, (leavesWait_leaveLanes hl _).of_rest (s := s) (s' := dropRo (s.setTroupe t { s.troupe t with
        svcs := (s.troupe t).svcs.filter fun x => x.lane != l }) (s.troupe t).stage) hthread
          (fun k => ?_) (fun u hu => (htr u).trans (if_neg hu)) rfl, ?_, ?_⟩
      · rw [exec_svcDone, execSvcDone]
        change (match (s.thread t l).st, (s.thread t l).wait with
          | .waiting, .svc slot park => _
          | _, _ => _) = _
        rw [hst, hw]
        have hgo : ((s.troupe t).status == .resident || (s.troupe t).status == .handler) = true := by
          rcases hstat with h | h <;> rw [h] <;> rfl
        simp only [hgo, hdone]
        rfl
      · exact (congrArg (fun x => Troupe.reg x k) ((htr t).trans (if_pos rfl)) :)
      · have hrest := congrArg Troupe.svcs (troupe_leaveLanes_rest (dropRo (s.setTroupe t { s.troupe t with
          svcs := (s.troupe t).svcs.filter fun x => x.lane != l }) (s.troupe t).stage) t (laneBit l)
          fun _ => BitVec.ofNat 64 (cleanN s slot 8))
        exact ((hrest :).trans (congrArg Troupe.svcs ((htr t).trans (if_pos rfl)) :) :)
      · rw [leaveLanes_eq]
        exact (congrArg Stage.ro (tget_tput_self _ _ _ _) :)
  · intro s t l hl hst hover
    obtain ⟨s1, hex, hmem, htr⟩ := hazardClear_stalled hst hover
    refine ⟨_, hex, hmem, fun u hu => ?_, fun k => ?_, fun k hk => ?_⟩
    · rw [State.troupe_mapLanes_ne _ _ _ hu, htr]
    · rw [State.troupe_mapLanes_self, Troupe.reg_mapLanes, htr]
    · have hth : s1.thread t k = s.thread t k := by rw [State.thread, htr, State.thread]
      rw [thread_mapLanes, hth]
      exact if_congr (hasLane_freedWith hk) rfl rfl

end Sys2Proof.Machine
end

section
/-! SUPPORT. The statement on retirement (R39, R40, R377, R415), which fails: an operation that is still buffered need not hold
its company back. -/

namespace Sys2Proof.Machine

open Sys2Proof

/-- A buffered operation of company 0 of run 0 on the company's memory. -/
def bufferedOnCm : BufOp where
  run := 0
  stage := 0
  company := 0
  key := (0, 0, 0, 0)
  tag := false
  op := .store
  addr := 0x0100000000000000
  size := 4
  bf := false
  ty := 0
  data := 0
  phys := cmAddr 0 0

/-- A deterministic run whose one company has one troupe, RETIRING on stage 0, with every operation of it ended but one that is
buffered. The table of stages has two records of stage 0, the second of which holds that operation: each read of the stage finds
the first, while the search for buffered operations (`detOps`) goes over both. -/
def twiceStaged : State := { State.reset with
  troupes := [(0, { Troupe.absent with status := .retiring })]
  companies := [(0, { Company.absent with placed := true })]
  runs := [(0, { Run.absent with determ := true })]
  stages := [(0, Stage.empty), (0, { Stage.empty with det := [bufferedOnCm] })] }

/-- The operation is buffered before the troupe retires. -/
theorem mem_detOps_twiceStaged : bufferedOnCm ∈ detOps twiceStaged 0 := by decide +kernel

theorem exec_troupeRetire_twiceStaged :
    exec (.troupeRetire 0) twiceStaged = .next (companyCheck (freeTroupe twiceStaged 0) 0) := by
  rw [exec_troupeRetire]
  rfl

/-- As the troupe gives up its matrix records, its stage is written: one record of the stage is left, without the operation, and the
company retires with it unperformed. -/
theorem retired_twiceStaged : ((companyCheck (freeTroupe twiceStaged 0) 0).company 0).retired = true := by decide +kernel

/-- Refutes O52: where the table of stages has two records of one stage, the second one's buffered operation on company memory is
lost as the last troupe retires, and the company retires though that operation has not been performed. -/
theorem not_retirement : ¬Obligations.Retirement := by
  intro h
  obtain ⟨hlive, -⟩ := h twiceStaged 0
  obtain ⟨-, hretire⟩ := hlive (by decide +kernel) (by decide +kernel)
  obtain ⟨z, hz, -, -, hiff⟩ := hretire (by decide +kernel) (by decide +kernel) (by decide +kernel) (by decide +kernel)
    (fun x hx => nomatch hx)
  obtain rfl : companyCheck (freeTroupe twiceStaged 0) 0 = z := by
    rw [exec_troupeRetire_twiceStaged] at hz
    injection hz
  obtain hwas | ⟨-, hbuffered, -⟩ := hiff.1 retired_twiceStaged
  · exact absurd hwas (by decide +kernel)
  · exact absurd (hbuffered _ mem_detOps_twiceStaged rfl) (by decide +kernel)

end Sys2Proof.Machine
end

section
/-! SUPPORT. Exchanges between lanes (R267-R269, R274, R275), and the statement on them. -/

namespace Sys2Proof.Machine

open Sys2Proof

/-- The lanes that write a destination are active. -/
theorem hasLane_of_writers {c : Ctx} {d : Opd} {l : Nat} (h : l ∈ writers c d) : hasLane c.act l = true := by
  cases d
  case s =>
    simp only [writers] at h
    split at h
    · cases h
    · rename_i hact
      rw [List.mem_singleton.1 h]
      exact (Ctx.low_spec hact).1
  all_goals exact mem_lanes.1 h

/-! ### QSWZ -/

theorem hasLane_helperMask {s : State} {c : Ctx} {l : Nat} (hl : l < 32) : hasLane (helperMask s c) l = true ↔
    (s.thread c.t l).st = .drained ∧ ∃ k < 32, k / 4 = l / 4 ∧ hasLane c.act k = true := by
  have hquad : ((List.range 4).any fun k => hasLane c.act (4 * (l / 4) + k)) = true ↔
      ∃ k < 32, k / 4 = l / 4 ∧ hasLane c.act k = true := by
    rw [List.any_eq_true]
    constructor
    · rintro ⟨k, hk, hact⟩
      have := List.mem_range.1 hk
      exact ⟨_, lt_of_hasLane hact, by omega, hact⟩
    · rintro ⟨k, -, hq, hact⟩
      refine ⟨k % 4, List.mem_range.2 (Nat.mod_lt _ (by decide)), ?_⟩
      rwa [← hq, Nat.div_add_mod]
  rw [helperMask, hasLane_maskOf, ← hquad]
  simp [hl, Thread.live]

/-- The context of QSWZ's writes: its helpers count as active. -/
def Ctx.withHelpers (c : Ctx) (s : State) : Ctx := { c with act := c.act ||| helperMask s c }

theorem mem_writers_withHelpers {s : State} {c : Ctx} {n : Fin 512} {l : Nat} : l ∈ writers (c.withHelpers s) (.v n) ↔
    l < 32 ∧ (hasLane c.act l = true ∨ (s.thread c.t l).st = .drained ∧ ∃ k < 32, k / 4 = l / 4 ∧ hasLane c.act k = true) := by
  change l ∈ lanes (c.act ||| helperMask s c) ↔ _
  rw [mem_lanes, hasLane_or, Bool.or_eq_true]
  constructor
  · intro h
    have hl : l < 32 := h.elim lt_of_hasLane lt_of_hasLane
    exact ⟨hl, h.imp_right (hasLane_helperMask hl).1⟩
  · rintro ⟨hl, h⟩
    exact h.imp_right (hasLane_helperMask hl).2

/-- QSWZ is a write at once of the lanes and their helpers. -/
theorem exec_qswz_writes {h : Hdr} {ty : Ty} {n : Fin 512} {a : Opd} {b : Src} {s : State} {c : Ctx}
    (hi : Issues (.qswz h ty (.v n) a b) s c) : ∃ t, exec (.qswz h ty (.v n) a b) s = .next t ∧
      LaneNow (c.withHelpers s) .rne (Ty.wide ty) (.v n)
        (fun l x => x = readTy s.begun c ty (4 * (l / 4) + quadPos s.begun c b l) a 0) s t := by
  refine ⟨_, (exec_qswz s).trans (issue_next hi _), ?_⟩
  exact laneNow_finish (c := c.withHelpers s) (onlyTroupe_begun _ _) rfl (fun _ => rfl) (fun _ _ => rfl) (fun _ => rfl)
    (fun _ _ => rfl)

theorem laneExchanges_qswz {h : Hdr} {ty : Ty} {n : Fin 512} {a : Opd} {b : Src} {s : State} {c : Ctx}
    (hi : Issues (.qswz h ty (.v n) a b) s c) : ∃ t, exec (.qswz h ty (.v n) a b) s = .next t ∧ OnlyTroupe c.t s t ∧
      Moved c (s.troupe c.t) (t.troupe c.t) ∧
      { t.troupe c.t with regs := (s.troupe c.t).regs, pend := (s.troupe c.t).pend, threads := (s.troupe c.t).threads } =
        s.troupe c.t ∧
      (∀ l ∈ writers (c.withHelpers s) (.v n),
        Gets (t.troupe c.t) (Ty.wide ty) (.v n) l (readTy s.begun c ty (4 * (l / 4) + quadPos s.begun c b l) a 0)) ∧
      ∀ r, (∀ l ∈ writers (c.withHelpers s) (.v n), ∀ w ∈ destWrites (Ty.wide ty) (.v n) l 0, r ≠ w.1) →
        (t.troupe c.t).reg r = (s.troupe c.t).reg r := by
  obtain ⟨t, ht, hnow⟩ := exec_qswz_writes hi
  obtain ⟨houtside, hframe, -, hresult⟩ := hnow
  obtain ⟨hrest, hregs, hmoved, hdrawn⟩ := hframe
  refine ⟨t, ht, houtside, ⟨hmoved.moved, hmoved.still⟩, ?_, fun l hl => ?_, fun r hr => hregs r fun hk => ?_⟩
  · have hsr : (t.troupe (c.withHelpers s).t).srState = (s.troupe (c.withHelpers s).t).srState := (hdrawn nofun).1
    rw [← hsr] at hrest
    exact hrest
  · obtain ⟨x, rfl, hx⟩ := hresult l hl
    exact hx
  · obtain ⟨l, hl, hk⟩ := List.mem_flatMap.1 hk
    obtain ⟨w, hw, rfl⟩ := List.mem_map.1 hk
    exact hr l hl w hw rfl

/-! ### SHFL, ELECT, UMOV -/

theorem shflSource_apply (f : Nat → Dword) (m : ShMode) (l n : Nat) : f (shflSource m l n) = match m with
    | .idx => f n
    | .up => if n ≤ l then f (l - n) else f l
    | .down => if l + n ≤ 31 then f (l + n) else f l
    | .xor => f (l ^^^ n) := by
  cases m
  case up => exact apply_ite f _ _ _
  case down => exact apply_ite f _ _ _
  all_goals rfl

theorem laneExchanges_shfl {h : Hdr} {m : ShMode} {ty : Ty} {d a : Opd} {b : Src} {s : State} {c : Ctx}
    (hi : Issues (.shfl h m ty d a b) s c) : ∃ t, exec (.shfl h m ty d a b) s = .next t ∧
      LaneNow c .rne (Ty.wide ty) d
        (fun l x => x = readTy s.begun c ty (shflSource m l ((readSrcZ s.begun c l b 1).toNat % 32)) a 0) s t :=
  ⟨_, (exec_shfl s).trans (issue_next hi _), laneNow_finish (onlyTroupe_begun _ _) rfl (fun _ => rfl) (fun _ _ => rfl)
    (fun _ => rfl) fun _ _ => rfl⟩

/-- ELECT's word is 1 in the lowest active lane alone. -/
theorem elect_spec {c : Ctx} {l : Nat} (hl : hasLane c.act l = true) : let x : Dword := (boolWord (l == c.low)).setWidth 64
    (x = 0 ∨ x = 1) ∧ (x = 1 ↔ ∀ j, hasLane c.act j = true → l ≤ j) := by
  have hact : c.act ≠ 0 := fun h0 => by simp [h0, hasLane] at hl
  obtain ⟨hlow, hleast⟩ := Ctx.low_spec hact
  by_cases he : l = c.low
  · have hx : ((boolWord (l == c.low)).setWidth 64 : Dword) = 1 := by simp [he, boolWord]
    intro x
    exact ⟨.inr hx, fun _ => he ▸ hleast, fun _ => hx⟩
  · have hx : ((boolWord (l == c.low)).setWidth 64 : Dword) = 0 := by simp [he, boolWord]
    intro x
    refine ⟨.inl hx, fun h1 => ?_, fun hall => ?_⟩
    · exact absurd (hx.symm.trans h1) (by decide)
    · exact absurd (Nat.le_antisymm (hall _ hlow) (hleast _ hl)) he

theorem laneExchanges_elect {h : Hdr} {d : Opd} {s : State} {c : Ctx} (hi : Issues (.elect h d) s c) :
    ∃ t, exec (.elect h d) s = .next t ∧
      LaneNow c .rne false d (fun l x => (x = 0 ∨ x = 1) ∧ (x = 1 ↔ ∀ j, hasLane c.act j = true → l ≤ j)) s t :=
  ⟨_, (exec_elect s).trans (issue_next hi _), laneNow_finish (onlyTroupe_begun _ _) rfl (fun _ => rfl) (fun _ _ => rfl)
    (fun _ => rfl) fun _ hl => elect_spec (hasLane_of_writers hl)⟩

/-- The lane number that UMOV reads, at its operand's width. -/
theorem setWidth_word_toNat (x : Word) : (x.setWidth 64 : Dword).toNat = x.toNat := by
  rw [BitVec.toNat_setWidth]
  omega

theorem setWidth_word_inj {x y : Word} : (x.setWidth 64 : Dword) = y.setWidth 64 ↔ x = y := by
  refine ⟨fun h => BitVec.eq_of_toNat_eq ?_, fun h => congrArg _ h⟩
  rw [← setWidth_word_toNat, h, setWidth_word_toNat]

/-- UMOV of lanes that name one lane. -/
theorem exec_umov_uniform {h : Hdr} {ty : Ty} {d a : Opd} {b : Src} {s : State} {c : Ctx} (hi : Issues (.umov h ty d a b) s c)
    (hact : c.act ≠ 0) (hu : uniformTrap c (fun l => (readSrcZ s.begun c l b 1).setWidth 64) = none) :
    exec (.umov h ty d a b) s = .next (finish c (.ok (writeNow s.begun c (results c (Ty.wide ty) d fun _ =>
      readTy s.begun c ty (((readSrcZ s.begun c c.low b 1).setWidth 64 : Dword).toNat % 32) a 0)))) := by
  rw [exec_umov, execUmov, issue_next hi, if_neg (by simpa [Ctx.idle] using hact)]
  dsimp only
  rw [hu]

/-- UMOV of lanes that name several traps. -/
theorem exec_umov_trap {h : Hdr} {ty : Ty} {d a : Opd} {b : Src} {s : State} {c : Ctx} {x : TrapInfo}
    (hi : Issues (.umov h ty d a b) s c) (hact : c.act ≠ 0)
    (hu : uniformTrap c (fun l => (readSrcZ s.begun c l b 1).setWidth 64) = some x) :
    exec (.umov h ty d a b) s = .next (takeTrap s.begun c.t x) := by
  rw [exec_umov, execUmov, issue_next hi, if_neg (by simpa [Ctx.idle] using hact)]
  dsimp only
  rw [hu]
  rfl

theorem laneExchanges_umov {h : Hdr} {ty : Ty} {d a : Opd} {b : Src} {s : State} {c : Ctx} (hi : Issues (.umov h ty d a b) s c)
    (hact : c.act ≠ 0) (hu : ∀ l, hasLane c.act l = true → readSrcZ s.begun c l b 1 = readSrcZ s.begun c c.low b 1) :
    ∃ t, exec (.umov h ty d a b) s = .next t ∧ LaneNow c .rne (Ty.wide ty) d
      (fun _ x => x = readTy s.begun c ty ((readSrcZ s.begun c c.low b 1).toNat % 32) a 0) s t := by
  refine ⟨_, exec_umov_uniform hi hact (uniformTrap_none fun l hl => by rw [hu l hl]), ?_⟩
  rw [setWidth_word_toNat]
  exact laneNow_finish (onlyTroupe_begun _ _) rfl (fun _ => rfl) (fun _ _ => rfl) (fun _ => rfl) fun _ _ => rfl

theorem laneExchanges_umov_trap {h : Hdr} {ty : Ty} {d a : Opd} {b : Src} {s : State} {c : Ctx}
    (hi : Issues (.umov h ty d a b) s c) (hact : c.act ≠ 0)
    (hu : ∃ l, hasLane c.act l = true ∧ readSrcZ s.begun c l b 1 ≠ readSrcZ s.begun c c.low b 1) :
    ∃ x, exec (.umov h ty d a b) s = .next (takeTrap s.begun c.t x) ∧ x.code = 0x20 ∧ x.pc = c.pc ∧ x.bundle = c.mask ∧
      x.skip = 0 ∧ ∀ l, hasLane x.mask l = true ↔
        hasLane c.act l = true ∧ readSrcZ s.begun c l b 1 ≠ readSrcZ s.begun c c.low b 1 := by
  obtain ⟨l, hl, hne⟩ := hu
  refine ⟨_, exec_umov_trap hi hact (uniformTrap_some hl fun h => hne (setWidth_word_inj.1 h)), rfl, rfl, rfl, rfl, fun j => ?_⟩
  exact hasLane_disagree.trans (and_congr_right fun _ => not_congr setWidth_word_inj)

/-- Settles O20: each of the four is one write at once, QSWZ's with its helper lanes, and UMOV's only where its lanes agree. -/
theorem laneExchanges : Obligations.LaneExchanges := by
  refine ⟨fun h ty n a b s c hi => ?_, fun h ty d a b s c => ⟨fun m hi => ?_, laneExchanges_elect, fun hi hact =>
    ⟨laneExchanges_umov hi hact, laneExchanges_umov_trap hi hact⟩⟩⟩
  · obtain ⟨t, ht, hout, hmoved, hrest, hgets, hregs⟩ := laneExchanges_qswz hi
    refine ⟨t, ht, hout, hmoved, hrest, fun l hl => ?_, fun r hr => hregs r fun l hl => hr l (mem_writers_withHelpers.1 hl)⟩
    have := hgets l (mem_writers_withHelpers.2 hl)
    cases b <;> exact this
  · obtain ⟨t, ht, hnow⟩ := laneExchanges_shfl hi
    refine ⟨t, ht, ?_⟩
    simp only [shflSource_apply fun l => readTy s.begun c ty l a 0] at hnow
    exact hnow

end Sys2Proof.Machine
end

section
/-! SUPPORT. The bundles that a wing picks, what a fetch leaves as it is (R51, R161, R365), and the statement on bundles. -/

namespace Sys2Proof.Machine

open Sys2Proof

/-! ### Sorting keeps the members -/

theorem perm_insertBy {V : Type} (le : V → V → Bool) (x : V) (xs : List V) : (insertBy le x xs).Perm (x :: xs) := by
  induction xs with
  | nil => exact .refl _
  | cons y r ih =>
    unfold insertBy
    split
    · exact .refl _
    · exact (ih.cons y).trans (.swap x y r)

theorem perm_sortBy {V : Type} (le : V → V → Bool) (xs : List V) : (sortBy le xs).Perm xs := by
  induction xs with
  | nil => exact .refl _
  | cons x r ih => exact (perm_insertBy le x _).trans (ih.cons x)

theorem mem_byAge {s : State} {bs : List Bundle} {b : Bundle} : b ∈ byAge s bs ↔ b ∈ bs := (perm_sortBy _ _).mem_iff

/-! ### Reports change ports and accesses -/

theorem postErrorAt_rest (s : State) (errq : Dword) (q code packet : Nat) :
    { postErrorAt s errq q code packet with accs := s.accs, nextId := s.nextId } = s := by
  unfold postErrorAt
  split <;> rfl

theorem notifyError_rest (s : State) (cause : Nat) :
    { notifyError s cause with accs := s.accs, nextId := s.nextId } = s := by
  unfold notifyError
  dsimp only
  split <;> rfl

theorem blame_rest (s : State) (w : Who) (cause : Nat) (addr : Dword) :
    { blame s w cause addr with ports := s.ports, accs := s.accs, nextId := s.nextId } = s := by
  unfold blame
  split
  · rfl
  · split
    · exact (congrArg (fun z : State => { z with ports := s.ports }) (notifyError_rest _ _) :)
    · rfl

theorem consume_rest (s : State) (w : Who) (run : Option Nat) (addr : Dword) (a n : Nat) :
    { consume s w run addr a n with ports := s.ports, accs := s.accs, nextId := s.nextId } = s := by
  unfold consume
  generalize s.poison.filter (fun p => overlaps a n (8 * p) 8) = ps
  suffices h : ∀ z : State, { z with ports := s.ports, accs := s.accs, nextId := s.nextId } = s →
      { ps.foldl (fun z p => if w.outside then blame z w 7 addr else
          let z1 := bump z (uncorrected z (8 * p)) 1
          match run with
          | some r => postRunError z1 r 13
          | none => z1) z with ports := s.ports, accs := s.accs, nextId := s.nextId } = s from h s rfl
  induction ps with
  | nil => exact fun _ hz => hz
  | cons p ps ih =>
    refine fun z hz => ih _ ?_
    split
    · exact (congrArg (fun x : State => { x with ports := s.ports, accs := s.accs, nextId := s.nextId })
        (blame_rest z w 7 addr) :).trans hz
    · dsimp only
      split
      · exact (congrArg (fun x : State => { x with ports := s.ports, accs := s.accs, nextId := s.nextId })
          (postErrorAt_rest _ _ _ _ _) :).trans hz
      · exact hz

/-- A fetch changes instruction caches, reports and what they count. -/
theorem fetch_rest {s z : State} {t : Nat} {pc : Word} {w : BitVec 96} (h : fetch s t pc = some (z, w)) :
    { z with stages := s.stages, ports := s.ports, accs := s.accs, nextId := s.nextId } = s := by
  unfold fetch at h
  dsimp only at h
  split at h
  · cases h; rfl
  · split at h
    · cases h; rfl
    · split at h
      · cases h
      · cases h
        exact (congrArg (fun x : State => { x with stages := s.stages }) (consume_rest s _ _ _ _ _) :)

/-! ### Which bundle is picked -/

theorem urgentPick_mem {s : State} {k : Nat} {bs : List Bundle} {b : Bundle} (h : urgentPick s k bs = some b) : b ∈ bs := by
  have hbest : ∀ x ∈ leastUrgent s bs, x ∈ bs := fun x hx => (List.mem_filter.1 hx).1
  unfold urgentPick at h
  dsimp only at h
  cases hf : (leastUrgent s bs).find? fun b => !demoted s k [(s.wing k).current, (s.wing k).second] b with
  | some x =>
    rw [hf] at h
    cases h
    exact hbest _ (List.mem_of_find?_eq_some hf)
  | none =>
    rw [hf] at h
    exact hbest _ (List.mem_of_head? h)

theorem chooseBundle_mem {s : State} {k : Nat} {can : List Bundle} {b : Bundle} (h : chooseBundle s k can = some b) : b ∈ can := by
  unfold chooseBundle at h
  dsimp only at h
  split at h
  · rename_i x hx
    cases h
    exact List.contains_iff_mem.1 (Option.filter_eq_some_iff.1 hx).2
  · split at h
    · exact urgentPick_mem h
    · split at h
      · rename_i x hx
        cases h
        exact List.contains_iff_mem.1 (Bool.and_eq_true_iff.1 (Option.filter_eq_some_iff.1 hx).2).1
      · cases hf : can.find? fun b => !demoted s k [(s.wing k).current] b with
        | some x =>
          rw [hf] at h
          cases h
          exact List.mem_of_find?_eq_some hf
        | none =>
          rw [hf] at h
          exact List.mem_of_head? h

theorem chooseAlso_mem {s : State} {k : Nat} {b d : Bundle} {can : List Bundle} (h : chooseAlso s k b can = some d) : d ∈ can := by
  unfold chooseAlso at h
  dsimp only at h
  split at h
  · exact (List.mem_filter.1 (urgentPick_mem h)).1
  · exact (List.mem_filter.1 (List.mem_of_head? h)).1

theorem slots_canIssue {s : State} {k : Nat} {b : Bundle} {o : Option Bundle} (h : slots s k = some (b, o)) :
    canIssue s b = true ∧ ∀ d, o = some d → canIssue s d = true := by
  have hcan {x : Bundle} (hx : x ∈ byAge s ((s.wing k).table.filter (canIssue s))) : canIssue s x = true :=
    (List.mem_filter.1 (mem_byAge.1 hx)).2
  unfold slots at h
  dsimp only at h
  obtain ⟨x, hx, he⟩ := Option.map_eq_some_iff.1 h
  cases he
  exact ⟨hcan (chooseBundle_mem hx), fun d hd => hcan (chooseAlso_mem hd)⟩

/-- Picking notes the choice in the wing and on the agenda, and the bundle picked can issue. -/
theorem pickBundle_spec {s s1 : State} {stage wing : Nat} {b : Bundle} (h : pickBundle s stage wing = some (s1, b)) :
    canIssue s b = true ∧ { s1 with wings := s.wings, agenda := s.agenda } = s := by
  unfold pickBundle at h
  dsimp only at h
  split at h
  · cases h
  · rename_i x o hs
    obtain ⟨hx, ho⟩ := slots_canIssue hs
    split at h
    · cases h
      exact ⟨hx, rfl⟩
    · rename_i d
      split at h <;> cases h
      · exact ⟨hx, rfl⟩
      · exact ⟨ho d rfl, rfl⟩

theorem pickAlso_spec {s s1 : State} {stage wing : Nat} {b : Bundle} (h : pickAlso s stage wing = some (s1, b)) :
    canIssue s b = true ∧ { s1 with wings := s.wings, agenda := s.agenda } = s := by
  obtain ⟨x, hx, he⟩ := Option.map_eq_some_iff.1 h
  cases he
  obtain ⟨-, hx⟩ := Option.filter_eq_some_iff.1 hx
  exact ⟨(Bool.and_eq_true_iff.1 hx).2, rfl⟩

/-! ### The part of a bundle that can issue -/

/-- What `readyPart` reads of the state: its troupe's threads, and whether the troupe may issue. -/
theorem readyPart_congr {s z : State} {b : Bundle} (ht : z.troupes = s.troupes) (hc : z.companies = s.companies)
    (hr : z.runs = s.runs) : readyPart z b = readyPart s b := by
  have htroupe : z.troupe b.t = s.troupe b.t := congrArg (fun x => tget x Troupe.absent b.t) ht
  have hrun : z.runOf b.t = s.runOf b.t := by unfold State.runOf State.companyOf State.run State.company; rw [hc, hr]
  unfold readyPart mayIssue
  rw [htroupe, hrun]

theorem lowLane_mem {m : Mask} {l : Nat} (h : hasLane m l = true) : hasLane m (lowLane m) = true :=
  (lowLane_spec fun h0 => by simp [h0, hasLane] at h).1

/-- A part that can issue is of READY threads at one PC, of a troupe that may issue. -/
theorem readyPart_spec {s : State} {b : Bundle} {l : Nat} (hl : hasLane (readyPart s b) l = true) :
    mayIssue s b.t = true ∧ (s.thread b.t l).ready = true ∧
      (s.thread b.t l).pc = (s.thread b.t (lowLane (readyPart s b))).pc := by
  have hpart : ∃ p, mayIssue s b.t = true ∧ ∀ j, hasLane (readyPart s b) j = true →
      (s.thread b.t j).ready = true ∧ (s.thread b.t j).pc = p := by
    revert hl
    unfold readyPart
    dsimp only
    split
    · intro h0
      simp [hasLane] at h0
    · rename_i hne
      intro _
      obtain ⟨-, hmay⟩ : _ ∧ mayIssue s b.t = true := by simpa using hne
      generalize ((s.troupe b.t).thread (lowLane _)).pc = p
      refine ⟨p, hmay, fun j hj => ?_⟩
      obtain ⟨-, hj⟩ := Bool.and_eq_true_iff.1 (hasLane_maskOf _ _ ▸ hj)
      obtain ⟨hin, hpc⟩ := Bool.and_eq_true_iff.1 hj
      obtain ⟨-, hin⟩ := Bool.and_eq_true_iff.1 (hasLane_maskOf _ _ ▸ hin)
      exact ⟨(Bool.and_eq_true_iff.1 hin).2, beq_iff_eq.1 hpc⟩
  obtain ⟨p, hmay, hall⟩ := hpart
  obtain ⟨hready, hpc⟩ := hall l hl
  exact ⟨hmay, hready, hpc.trans (hall _ (lowLane_mem hl)).2.symm⟩

theorem readyPart_ne_zero {s : State} {b : Bundle} (h : canIssue s b = true) : readyPart s b ≠ 0 :=
  bne_iff_ne.1 (Bool.and_eq_true_iff.1 h).1

theorem mayIssue_spec {s : State} {t : Nat} (h : mayIssue s t = true) : (s.runOf t).faulted = none ∧
    (s.troupe t).pendTrap = none ∧ ((s.troupe t).status = .resident ∨ (s.troupe t).status = .handler) := by
  simp only [mayIssue, Bool.and_eq_true, Bool.or_eq_true, Option.isNone_iff_eq_none, beq_iff_eq] at h
  obtain ⟨⟨hf, hp⟩, hst⟩ := h
  exact ⟨hf, hp, hst.imp_left And.left⟩

theorem Thread.ready_spec {th : Thread} (h : th.ready = true) : th.st = .ready ∧ th.parked = false := by
  simpa [Thread.ready] using h

/-! ### The fetch -/

/-- State `z` is `s` with `stall` of the cursor's threads STALLED at `w` and out of its bundle. -/
structure StallsSome (s z : State) (stall : Mask) (w : Wait) : Prop where
  cur     : z.cur = ⟨s.cur.t, s.cur.mask &&& ~~~stall⟩
  some    : s.cur.mask ≠ 0 → s.cur.mask &&& ~~~stall ≠ 0
  rest    : { z with troupes := s.troupes, cur := s.cur } = s
  troupe  : { z.troupe s.cur.t with threads := (s.troupe s.cur.t).threads } = s.troupe s.cur.t
  threads : ∀ l, z.thread s.cur.t l =
    if hasLane stall l then { s.thread s.cur.t l with st := .stalled, wait := w } else s.thread s.cur.t l

theorem mask_diff_zero (m : Mask) : m &&& ~~~(0 : Mask) = m := BitVec.and_allOnes

theorem stallsSome_refl (s : State) : StallsSome s s 0 .none where
  cur := by simp only [mask_diff_zero]
  some h := by rwa [mask_diff_zero]
  rest := rfl
  troupe := rfl
  threads l := by rw [if_neg (by simp [hasLane])]

/-- What is run issues for the cursor's threads that do not stall. -/
theorem runFetched_run {s z : State} {i j : Instr} (h : runFetched s i = .run z j) : ∃ stall w, StallsSome s z stall w := by
  unfold runFetched at h
  split at h
  · cases h
    exact ⟨0, .none, stallsSome_refl s⟩
  · rename_i f _
    dsimp only at h
    generalize issueStall s (ctxOf s (hdrOf f)) f i = st at h
    split at h
    · cases h
      exact ⟨0, .none, stallsSome_refl s⟩
    · split at h
      · cases h
      · rename_i hne
        cases h
        exact ⟨st.1, st.2, rfl, fun _ => hne, rfl, troupe_mapLanes_rest _ _ _ _, thread_mapLanes _ _ _ _⟩

/-- An instruction that is run has been fetched for a bundle's READY part, and for those of it that do not stall. -/
theorem fetchBundle_run {s z : State} {b : Bundle} {i : Instr} (h : fetchBundle s b = .run z i) :
    ∃ s0 stall w, s0.cur = ⟨b.t, readyPart s b⟩ ∧ s0.troupes = s.troupes ∧ s0.companies = s.companies ∧ s0.runs = s.runs ∧
      StallsSome s0 z stall w := by
  unfold fetchBundle at h
  dsimp only at h
  split at h
  · cases h
  · split at h
    · cases h
    · rename_i x hx
      have hrest := fetch_rest (z := x.1) (w := x.2) hx
      split at h
      · obtain ⟨stall, w, hz⟩ := runFetched_run h
        exact ⟨x.1, stall, w, (congrArg State.cur hrest :), (congrArg State.troupes hrest :), (congrArg State.companies hrest :),
          (congrArg State.runs hrest :), hz⟩
      · split at h <;> cases h

/-- Settles O35: what is picked can issue, so its READY part is of threads at one PC, and a fetch moves none of them but those
that stall. -/
theorem bundlesAreReady : Obligations.BundlesAreReady := by
  intro s s1 s2 stage wing b i hpick hrun m
  have hne : readyPart s1 b ≠ 0 := by
    obtain ⟨hcan, hrest⟩ : canIssue s b = true ∧ { s1 with wings := s.wings, agenda := s.agenda } = s :=
      
      hpick.elim pickBundle_spec pickAlso_spec
    have hpart : readyPart s1 b = readyPart s b := readyPart_congr (congrArg State.troupes hrest :)
      (congrArg State.companies hrest :) (congrArg State.runs hrest :)
    exact hpart ▸ readyPart_ne_zero hcan
  obtain ⟨s0, stall, w, hcur, htr, hco, hru, hstall⟩ := fetchBundle_run hrun
  obtain ⟨hcur2, hsome, hrest, htroupe, hthreads⟩ := hstall
  rw [hcur] at hcur2 hsome htroupe hthreads
  have hm : m = readyPart s1 b &&& ~~~stall := congrArg Cursor.mask hcur2
  have hth0 (l : Nat) : s0.thread b.t l = s1.thread b.t l := by unfold State.thread State.troupe; rw [htr]
  have hin {l : Nat} (hl : hasLane m l = true) : hasLane (readyPart s1 b) l = true ∧ hasLane stall l = false := by
    rw [hm, hasLane_diff] at hl
    simpa using hl
  have hkept {l : Nat} (hl : hasLane m l = true) : s2.thread b.t l = s1.thread b.t l := by
    rw [hthreads, if_neg (by simp [(hin hl).2]), hth0]
  have hmne : m ≠ 0 := hm ▸ hsome hne
  obtain ⟨hmay, -, -⟩ := readyPart_spec (hin (lowLane_spec hmne).1).1
  obtain ⟨hfaulted, htrap, hstatus⟩ := mayIssue_spec hmay
  have htroupe1 : { s2.troupe b.t with threads := (s1.troupe b.t).threads } = s1.troupe b.t := by
    have : s0.troupe b.t = s1.troupe b.t := congrArg (fun x => tget x Troupe.absent b.t) htr
    rw [← this]
    exact htroupe
  have hrun2 : s2.runOf b.t = s1.runOf b.t := by
    have h1 : s2.companies = s1.companies := (congrArg State.companies hrest :).trans hco
    have h2 : s2.runs = s1.runs := (congrArg State.runs hrest :).trans hru
    unfold State.runOf State.companyOf State.run State.company
    rw [h1, h2]
  have hstatus2 : (s2.troupe b.t).status = (s1.troupe b.t).status := (congrArg Troupe.status htroupe1 :)
  refine ⟨congrArg Cursor.t hcur2, ?_, fun l hl => ?_, fun l hl => (hin hl).1, fun l hl hout => ?_, hrun2 ▸ hfaulted,
    (congrArg Troupe.pendTrap htroupe1 :).trans htrap⟩
  · have ht : s2.cur.t = b.t := congrArg Cursor.t hcur2
    rw [issuable, ht, hstatus2]
    rcases hstatus with h | h <;> rw [h] <;> simpa using hmne
  · obtain ⟨-, hready, hpc⟩ := readyPart_spec (hin hl).1
    obtain ⟨-, -, hlow⟩ := readyPart_spec (hin (lowLane_mem hl)).1
    rw [hkept hl, hkept (lowLane_mem hl)]
    exact ⟨(Thread.ready_spec hready).1, (Thread.ready_spec hready).2, hpc.trans hlow.symm⟩
  · have hs : hasLane stall l = true := by
      rw [hm, hasLane_diff, hl] at hout
      simpa using hout
    rw [hthreads, if_pos hs]

end Sys2Proof.Machine
end

section
/-! SUPPORT. The rebuild of a wing's bundles and the choice of a starved one (R51, R64, R365). -/

namespace Sys2Proof.Machine

open Sys2Proof

/-! ### Groups (R51) -/

theorem mem_groupsOf {s : State} {t : Nat} {b : Bundle} (h : b ∈ groupsOf s t) : b.t = t ∧ b.mask ≠ 0 ∧
    ∃ p, ∀ l, hasLane b.mask l = true → (s.thread t l).ready = true ∧ (s.thread t l).pc = p := by
  unfold groupsOf at h
  obtain ⟨p, hp, rfl⟩ := List.mem_map.1 h
  obtain ⟨l, hl, hlp⟩ := List.mem_map.1 (List.mem_eraseDups.1 hp)
  obtain ⟨hlt, -⟩ := List.mem_filter.1 hl
  refine ⟨rfl, ?_, p, fun j hj => ?_⟩
  · intro hz
    dsimp only at hz
    have hno := maskOf_eq_zero.1 hz l (List.mem_range.1 hlt)
    rw [List.contains_iff_mem.2 hl, hlp, beq_self_eq_true] at hno
    cases hno
  · obtain ⟨-, hj⟩ := Bool.and_eq_true_iff.1 (hasLane_maskOf _ _ ▸ hj)
    obtain ⟨hin, hpc⟩ := Bool.and_eq_true_iff.1 hj
    exact ⟨(List.mem_filter.1 (List.contains_iff_mem.1 hin)).2, beq_iff_eq.1 hpc⟩

/-- Every READY thread is in a group of its troupe. -/
theorem groupsOf_cover {s : State} {t l : Nat} (hl : l < 32) (h : (s.thread t l).ready = true) :
    ∃ b ∈ groupsOf s t, b.t = t ∧ hasLane b.mask l = true := by
  have hmem : l ∈ (List.range 32).filter fun l => ((s.troupe t).thread l).ready :=
    List.mem_filter.2 ⟨List.mem_range.2 hl, h⟩
  refine ⟨_, List.mem_map_of_mem (List.mem_eraseDups.2 (List.mem_map_of_mem (f := fun l => ((s.troupe t).thread l).pc) hmem)),
    rfl, ?_⟩
  rw [hasLane_maskOf, List.contains_iff_mem.2 hmem]
  simpa using hl

/-! ### The rebuild -/

/-- All groups of a wing, in the order in which a rebuild admits them. -/
def rebuildOrder (s : State) (k : Nat) : List Bundle :=
  let all := byAge s ((wingTroupes s k).flatMap fun t => groupsOf s t)
  all.filter (fun b => 63 ≤ skippedCount s (s.wing k) b) ++ all.filter fun b => !(63 ≤ skippedCount s (s.wing k) b)

theorem perm_rebuildOrder (s : State) (k : Nat) :
    (rebuildOrder s k).Perm ((wingTroupes s k).flatMap fun t => groupsOf s t) := by
  unfold rebuildOrder
  exact (List.filter_append_perm (fun b => decide (63 ≤ skippedCount s (s.wing k) b)) _).trans (perm_sortBy _ _)

/-- A rebuild writes its wing alone: the first 64 groups of the order become its table. -/
theorem exec_bundleRebuild_spec (s : State) (stage wing : Nat) : ∃ w, w.table = (rebuildOrder s (4 * stage + wing)).take 64 ∧
    exec (.bundleRebuild stage wing) s = .next (s.setWing (4 * stage + wing) w) := by
  rw [exec_bundleRebuild, execBundleRebuild]
  exact ⟨_, rfl, rfl⟩

theorem bundlesAndUnits_rebuild (s : State) (stage wing : Nat) : ∃ z, exec (.bundleRebuild stage wing) s = .next z ∧
    (let k := 4 * stage + wing
     { z with wings := s.wings } = s ∧ (∀ j, j ≠ k → z.wing j = s.wing j) ∧ (z.wing k).table.length ≤ 64 ∧
      (∀ b ∈ (z.wing k).table, b.t ∈ wingTroupes s k ∧ b.mask ≠ 0 ∧ ∀ i j, hasLane b.mask i = true → hasLane b.mask j = true →
        (s.thread b.t i).ready = true ∧ (s.thread b.t i).pc = (s.thread b.t j).pc) ∧
      (((wingTroupes s k).flatMap (groupsOf s)).length ≤ 64 → ∀ t ∈ wingTroupes s k, ∀ l < 32, (s.thread t l).ready = true →
        ∃ b ∈ (z.wing k).table, b.t = t ∧ hasLane b.mask l = true)) := by
  obtain ⟨w, hw, hex⟩ := exec_bundleRebuild_spec s stage wing
  refine ⟨_, hex, rfl, fun j hj => State.wing_setWing_ne _ _ hj, ?_⟩
  rw [State.wing_setWing_self, hw]
  generalize 4 * stage + wing = k
  have hperm := perm_rebuildOrder s k
  refine ⟨List.length_take_le _ _, fun b hb => ?_, fun hlen t ht l hl hready => ?_⟩
  · obtain ⟨t, ht, hbt⟩ := List.mem_flatMap.1 (hperm.mem_iff.1 (List.mem_of_mem_take hb))
    obtain ⟨rfl, hne, p, hp⟩ := mem_groupsOf hbt
    exact ⟨ht, hne, fun i j hi hj => ⟨(hp i hi).1, (hp i hi).2.trans (hp j hj).2.symm⟩⟩
  · obtain ⟨b, hb, hbt, hbl⟩ := groupsOf_cover hl hready
    rw [List.take_of_length_le (by rw [hperm.length_eq]; exact hlen)]
    exact ⟨b, hperm.mem_iff.2 (List.mem_flatMap.2 ⟨t, ht, hb⟩), hbt, hbl⟩

/-! ### A starved bundle (R64) -/

/-- A fetch waits where neither firmware nor the cache has the word, and the text is absent, closed or half written. -/
theorem fetch_isNone (s : State) (t : Nat) (pc : Word) : (fetch s t pc).isNone =
    (!(s.troupe t).context && (cachedWord s (s.troupe t).stage (textAddr s t pc)).isNone &&
      (anyAbsent s [(textAddr s t pc, 12)] || lineClosed s 0 [(textAddr s t pc, 12)] || halfWritten s (textAddr s t pc) 12)) := by
  unfold fetch
  dsimp only
  cases (s.troupe t).context with
  | true => rfl
  | false =>
    cases hw : cachedWord s (s.troupe t).stage (textAddr s t pc) with
    | some w => simp
    | none =>
      generalize (anyAbsent s _ || _ || _) = waits
      cases waits <;> simp

theorem canIssue_setWing (s : State) (k : Nat) (w : Wing) (b : Bundle) : canIssue (s.setWing k w) b = canIssue s b := by
  simp only [canIssue, fetchWaits, fetch_isNone]
  rfl

/-- A forced bundle that can issue is the first slot's. -/
theorem chooseBundle_forced {s : State} {k : Nat} {can : List Bundle} {b : Bundle} (hf : (s.wing k).forced = some b)
    (hb : b ∈ can) : chooseBundle s k can = some b := by
  unfold chooseBundle
  dsimp only
  rw [hf]
  simp only [Option.filter, List.contains_iff_mem.2 hb, if_true]

/-- The first slot's bundle is picked, now or as the clock's other one. -/
theorem pickBundle_of_slots {s : State} {stage wing : Nat} {b : Bundle} {o : Option Bundle}
    (h : slots s (4 * stage + wing) = some (b, o)) : ∃ y x, pickBundle s stage wing = some (y, x) ∧
      (x = b ∨ (y.wing (4 * stage + wing)).also = some b) := by
  unfold pickBundle
  dsimp only
  rw [h]
  cases o with
  | none => exact ⟨_, _, rfl, .inl rfl⟩
  | some d =>
    dsimp only
    split
    · exact ⟨_, _, rfl, .inl rfl⟩
    · exact ⟨_, _, rfl, .inr (congrArg Wing.also (State.wing_setWing_self s (4 * stage + wing) _) :)⟩

theorem bundlesAndUnits_starved {s : State} {stage wing k : Nat} {b : Bundle}
    (hk : (s.wing (4 * stage + wing)).table[k]? = some b) (hcan : canIssue s b = true) :
    ∃ z y x, exec (.starvationBound stage wing k) s = .next z ∧ { z with wings := s.wings } = s ∧
      pickBundle z stage wing = some (y, x) ∧ (x = b ∨ (y.wing (4 * stage + wing)).also = some b) := by
  have hex : exec (.starvationBound stage wing k) s =
      .next (s.setWing (4 * stage + wing) { s.wing (4 * stage + wing) with forced := some b }) := by
    rw [exec_starvationBound, execStarvationBound]
    dsimp only
    rw [hk]
  generalize hz : s.setWing (4 * stage + wing) { s.wing (4 * stage + wing) with forced := some b } = z at hex
  have hwing : z.wing (4 * stage + wing) = { s.wing (4 * stage + wing) with forced := some b } := by
    rw [← hz, State.wing_setWing_self]
  have hin : b ∈ byAge z ((z.wing (4 * stage + wing)).table.filter (canIssue z)) := by
    rw [mem_byAge, hwing, List.mem_filter, ← hz, canIssue_setWing]
    exact ⟨List.mem_of_getElem? hk, hcan⟩
  have hslots : slots z (4 * stage + wing) = some (b, chooseAlso z (4 * stage + wing) b
      (byAge z ((z.wing (4 * stage + wing)).table.filter (canIssue z)))) := by
    unfold slots
    dsimp only
    rw [chooseBundle_forced (congrArg Wing.forced hwing :) hin]
    rfl
  obtain ⟨y, x, hpick, hx⟩ := pickBundle_of_slots hslots
  exact ⟨z, y, x, hex, by rw [← hz]; rfl, hpick, hx⟩

end Sys2Proof.Machine
end

section
/-! SUPPORT. Draws of items, refills and drains of one thread, and the statement on bundles and units (R48-R50). -/

namespace Sys2Proof.Machine

open Sys2Proof

/-! ### Predicates written together -/

theorem setPreds_eq (tr : Troupe) (l : Nat) (m : BitVec 7) :
    setPreds tr l m = tr.setRegs ((List.range 7).map fun k => (pKey l k, boolWord (m.getLsbD k))) := by
  rw [setPreds, Troupe.setRegs, List.foldl_map]

@[simp] theorem thread_setPreds (tr : Troupe) (l : Nat) (m : BitVec 7) (j : Nat) : (setPreds tr l m).thread j = tr.thread j := by
  rw [setPreds_eq, Troupe.thread_setRegs]

theorem setPreds_rest (tr : Troupe) (l : Nat) (m : BitVec 7) :
    { setPreds tr l m with regs := tr.regs, pend := tr.pend } = tr := by
  rw [setPreds_eq]
  exact Troupe.setRegs_rest _ _

theorem reg_setPreds_zero (tr : Troupe) (l : Nat) {i : Nat} (hi : i < 7) : (setPreds tr l 0).reg (pKey l i) = 0 := by
  rw [setPreds_eq]
  refine Troupe.reg_setRegs_of_agree _ _ ?_ fun w hw _ => ?_
  · rw [List.map_map]
    exact List.mem_map.2 ⟨i, List.mem_range.2 hi, rfl⟩
  · obtain ⟨k, -, rfl⟩ := List.mem_map.1 hw
    simp [boolWord]

theorem reg_setPreds_other (tr : Troupe) (l : Nat) (m : BitVec 7) {k : Nat} (h : ∀ i < 7, k ≠ pKey l i) :
    (setPreds tr l m).reg k = tr.reg k := by
  rw [setPreds_eq, Troupe.reg_setRegs_of_not_mem]
  rw [List.map_map]
  intro hk
  obtain ⟨i, hi, he⟩ := List.mem_map.1 hk
  exact h i (List.mem_range.1 hi) he.symm

/-! ### Refill and drain of one thread (R48, R50) -/

/-- A refill or a drain changes its thread, the predicates of its lane and its read-backs. -/
structure SeatOnly (t l : Nat) (s z : State) : Prop where
  rest    : { z with troupes := s.troupes, accs := s.accs } = s
  others  : ∀ u, u ≠ t → z.troupe u = s.troupe u
  troupe  : { z.troupe t with regs := (s.troupe t).regs, pend := (s.troupe t).pend, threads := (s.troupe t).threads } = s.troupe t
  threads : ∀ j, j ≠ l → z.thread t j = s.thread t j
  regs    : ∀ k, (∀ i < 7, k ≠ pKey l i) → (z.troupe t).reg k = (s.troupe t).reg k

/-- The thread that a refill starts from: what it parks at is gone with its read-backs. -/
def unreadThread (s : State) (t l : Nat) : Thread :=
  { s.thread t l with parks := (s.thread t l).parks.filter fun i => (accById (dropReadbacks s t (laneBit l)) i).isSome }

theorem troupe_refillLane (s : State) (t l u : Nat) (x : Dword × Dword) : (refillLane s t l x).troupe u =
    if u = t then (setPreds (s.troupe t) l 0).setThread l ((unreadThread s t l).refill (s.runOf t).cue x) else s.troupe u := by
  unfold refillLane State.setThread
  rw [State.troupe_setTroupe]
  split
  · rw [State.troupe_setTroupe_self]
    simp only [State.thread, State.troupe_setTroupe_self, thread_setPreds]
    rfl
  · rename_i hu
    exact State.troupe_setTroupe_ne _ _ hu

theorem thread_refillLane (s : State) (t l : Nat) (x : Dword × Dword) :
    (refillLane s t l x).thread t l = (unreadThread s t l).refill (s.runOf t).cue x := by
  rw [State.thread, troupe_refillLane, if_pos rfl, Troupe.thread_setThread_self]

theorem preds_refillLane (s : State) (t l : Nat) (x : Dword × Dword) {i : Nat} (hi : i < 7) :
    ((refillLane s t l x).troupe t).reg (pKey l i) = 0 := by
  rw [troupe_refillLane, if_pos rfl, Troupe.reg_setThread, reg_setPreds_zero _ _ hi]

theorem seatOnly_refillLane (s : State) (t l : Nat) (x : Dword × Dword) : SeatOnly t l s (refillLane s t l x) where
  rest := rfl
  others u hu := by rw [troupe_refillLane, if_neg hu]
  troupe := by
    rw [troupe_refillLane, if_pos rfl]
    exact (congrArg (fun x : Troupe => { x with threads := (s.troupe t).threads }) (setPreds_rest (s.troupe t) l 0) :)
  threads j hj := by
    rw [State.thread, troupe_refillLane, if_pos rfl, Troupe.thread_setThread_ne _ _ hj, thread_setPreds]
    rfl
  regs k hk := by rw [troupe_refillLane, if_pos rfl, Troupe.reg_setThread, reg_setPreds_other _ _ _ hk]

theorem thread_drainLane (s : State) (t l : Nat) : (drainLane s t l).thread t l = (s.thread t l).drain := by
  rw [State.thread, drainLane, State.troupe_setThread_self, Troupe.thread_setThread_self]

theorem seatOnly_drainLane (s : State) (t l : Nat) : SeatOnly t l s (drainLane s t l) where
  rest := rfl
  others u hu := State.troupe_setThread_ne _ _ _ hu
  troupe := by rw [drainLane, State.troupe_setThread_self]; rfl
  threads j hj := by
    rw [State.thread, drainLane, State.troupe_setThread_self, Troupe.thread_setThread_ne _ _ hj]
    rfl
  regs k _ := by rw [drainLane, State.troupe_setThread_self]; rfl

/-! ### Draws (R43-R45) -/

/-- A SHARED draw takes the run's next item. -/
theorem drawItem_shared {s : State} {t l : Nat} (hd : (s.runOf t).determ = false) (hs : (s.runOf t).source = .shared) :
    drawItem s t l = if (s.runOf t).counter < (s.runOf t).items then
      ((s.updRunOf t fun r => { r with counter := r.counter + 1 }).updCompanyOf t fun c => { c with admitted := c.admitted + 1 },
        some (BitVec.ofNat 64 (s.runOf t).counter, BitVec.ofNat 64 (s.companyOf t).admitted)) else (s, none) := by
  unfold drawItem
  dsimp only
  rw [hd, hs]
  rfl

theorem runOf_updCompanyOf {s : State} {t : Nat} {f : Company → Company} (h : (f (s.companyOf t)).run = (s.companyOf t).run) :
    (s.updCompanyOf t f).runOf t = s.runOf t := by
  have hc : (s.updCompanyOf t f).companyOf t = f (s.companyOf t) := State.company_setCompany_self _ _ _
  rw [State.runOf, hc, h]
  rfl

theorem runOf_updRunOf (s : State) (t : Nat) (f : Run → Run) : (s.updRunOf t f).runOf t = f (s.runOf t) :=
  State.run_setRun_self _ _ _

/-! ### Points and junctions that have nothing to settle -/

theorem cvLeave_idle {s : State} {t : Nat} (h : (s.troupe t).cv = []) (m : Mask) : cvLeave s t m = s := by
  have hstep (k : Nat) : (s.troupe t).expected k &&& m = 0 := by
    rw [Troupe.expected, h]
    exact BitVec.zero_and
  unfold cvLeave
  induction List.range 8 with
  | nil => rfl
  | cons k ks ih =>
    rw [List.foldl_cons]
    dsimp only
    rw [if_pos (hstep k)]
    exact ih

theorem memberEvent_none {s : State} {c : Nat} (h : (s.company c).junctions = []) (seat : Nat) (f : Junction → Junction) :
    memberEvent s c seat f = s := by
  have hunset (j : Nat) : s.junction c j = Junction.unset := by
    rw [State.junction, Company.junction, h]
    rfl
  unfold memberEvent
  induction List.range 24 with
  | nil => rfl
  | cons j js ih =>
    rw [List.foldl_cons]
    dsimp only
    rw [hunset, if_neg (by simp [Junction.unset])]
    exact ih

theorem retireCheck_rest (s : State) (t : Nat) : { retireCheck s t with troupes := s.troupes, wings := s.wings } = s := by
  unfold retireCheck
  dsimp only
  split <;> rfl

theorem troupe_dropBundles (s : State) (t u : Nat) : (dropBundles s t).troupe u = s.troupe u := rfl

/-- Of a troupe whose last live thread has drained the status alone changes. -/
theorem troupe_retireCheck (s : State) (t u : Nat) :
    { (retireCheck s t).troupe u with status := (s.troupe u).status } = s.troupe u := by
  unfold retireCheck
  dsimp only
  split
  · rw [troupe_dropBundles, State.troupe_setTroupe]
    split
    · rename_i h
      rw [h]
    · rfl
  · rfl

theorem thread_retireCheck (s : State) (t u l : Nat) : (retireCheck s t).thread u l = s.thread u l :=
  (congrArg (fun x : Troupe => x.thread l) (troupe_retireCheck s t u) :)
theorem reg_retireCheck (s : State) (t u k : Nat) : ((retireCheck s t).troupe u).reg k = (s.troupe u).reg k :=
  (congrArg (fun x : Troupe => x.reg k) (troupe_retireCheck s t u) :)

/-! ### The refill of a unit (R49) -/

/-- What a unit's release leaves of a state: its bundles are formed, and a troupe without a live thread is RETIRING. -/
theorem unitRefill_one {s : State} {t l : Nat} (hf : (s.runOf t).faulted = none) (hres : (s.troupe t).status = .resident)
    (hst : (s.thread t l).st = .held) (hu : ((unitOf s t l).filter fun x => (s.thread x.1 x.2).live) = [(t, l)])
    (hhead : (heldUnits s (companyKey t)).head? = (unitOf s t l).head?) :
    ∃ m, exec (.unitRefill t l) s = .next (retireCheck (bundleByPc (refillHeld s t l) t m) t) := by
  have hheld : ((unitOf s t l).filter fun x => (s.thread x.1 x.2).st == .held) = [(t, l)] := by
    have hsub : ((unitOf s t l).filter fun x => (s.thread x.1 x.2).st == .held) =
        ((unitOf s t l).filter fun x => (s.thread x.1 x.2).live).filter fun x => (s.thread x.1 x.2).st == .held := by
      rw [List.filter_filter]
      refine List.filter_congr fun x _ => ?_
      cases h : (s.thread x.1 x.2).st <;> simp [Thread.live, h]
    rw [hsub, hu]
    simp [hst]
  have hunit : unitHeld s (unitOf s t l) = true := by
    unfold unitHeld
    rw [hu]
    simp [hst, hres]
  rw [exec_unitRefill]
  unfold execUnitRefill
  dsimp only
  rw [hf, hunit, hheld, hhead]
  exact ⟨_, by simp; rfl⟩

/-- A refill of a HELD thread where no point or junction has anything to settle. -/
theorem refillHeld_some {s z : State} {t l : Nat} {x : Dword × Dword} (hd : drawItem s t l = (z, some x))
    (hcv : (z.troupe t).cv = []) (hj : (z.companyOf t).junctions = []) : refillHeld s t l = refillLane z t l x := by
  have hcv' : ((refillLane z t l x).troupe t).cv = [] := by
    have h := congrArg Troupe.cv (seatOnly_refillLane z t l x).troupe
    exact (h :).trans hcv
  unfold refillHeld
  rw [hd]
  dsimp only
  rw [cvLeave_idle hcv']
  exact memberEvent_none (s := refillLane z t l x) hj _ _

theorem refillHeld_none {s z : State} {t l : Nat} (hd : drawItem s t l = (z, none))
    (hj : (z.companyOf t).junctions = []) : refillHeld s t l = drainLane z t l := by
  unfold refillHeld
  rw [hd]
  exact memberEvent_none (s := drainLane z t l) hj _ _

/-- The release of a unit's threads moves none of them. -/
theorem released_rest (s : State) (t : Nat) (m : Mask) : let z := retireCheck (bundleByPc s t m) t
    { z with troupes := s.troupes, wings := s.wings } = s ∧ (∀ u j, z.thread u j = s.thread u j) ∧
      ∀ u k, (z.troupe u).reg k = (s.troupe u).reg k := by
  refine ⟨?_, fun u j => ?_, fun u k => ?_⟩
  · have h1 := retireCheck_rest (bundleByPc s t m) t
    have h2 := bundleByPc_rest s t m
    have h3 := congrArg (fun x : State => { x with troupes := s.troupes, wings := s.wings }) h1
    exact (h3 :).trans (congrArg (fun x : State => { x with troupes := s.troupes }) h2 :)
  · rw [thread_retireCheck, thread_bundleByPc]
  · rw [reg_retireCheck, troupe_bundleByPc]

theorem runOf_congr {s z : State} (hc : z.companies = s.companies) (hr : z.runs = s.runs) (t : Nat) : z.runOf t = s.runOf t := by
  unfold State.runOf State.companyOf State.run State.company
  rw [hc, hr]

/-- The state after a SHARED draw. -/
def sharedDrawn (s : State) (t : Nat) : State :=
  (s.updRunOf t fun r => { r with counter := r.counter + 1 }).updCompanyOf t fun c => { c with admitted := c.admitted + 1 }

theorem runOf_sharedDrawn (s : State) (t : Nat) :
    (sharedDrawn s t).runOf t = { s.runOf t with counter := (s.runOf t).counter + 1 } :=
  (runOf_updCompanyOf (s := s.updRunOf t fun r => { r with counter := r.counter + 1 }) rfl).trans (runOf_updRunOf _ _ _)

theorem companyOf_sharedDrawn (s : State) (t : Nat) :
    (sharedDrawn s t).companyOf t = { s.companyOf t with admitted := (s.companyOf t).admitted + 1 } :=
  State.company_setCompany_self _ _ _

/-- Settles O46: a rebuild admits groups by their order, a forced bundle comes first, and the last HELD thread of a unit draws. -/
theorem bundlesAndUnits : Obligations.BundlesAndUnits := by
  refine ⟨bundlesAndUnits_rebuild, fun s stage wing k b => bundlesAndUnits_starved, ?_⟩
  intro s t l hl r hf hdet hsrc hres hcv hj hst hu hhead
  obtain ⟨m, hex⟩ := unitRefill_one hf hres hst hu hhead
  have hdraw := drawItem_shared (l := l) hdet hsrc
  obtain ⟨hrest, hthread, hreg⟩ := released_rest (refillHeld s t l) t m
  refine ⟨_, hex, ?_⟩
  generalize retireCheck (bundleByPc (refillHeld s t l) t m) t = z at hrest hthread hreg
  have hmem : z.mem = (refillHeld s t l).mem := (congrArg State.mem hrest :)
  have hrun : z.runOf t = (refillHeld s t l).runOf t :=
    runOf_congr (congrArg State.companies hrest :) (congrArg State.runs hrest :) t
  rw [hmem, hrun, hthread]
  simp only [hthread, hreg]
  by_cases hleft : r.counter < r.items
  · rw [if_pos hleft] at hdraw
    have href : refillHeld s t l = refillLane (sharedDrawn s t) t l _ :=
      refillHeld_some (z := sharedDrawn s t) hdraw hcv (by rw [companyOf_sharedDrawn]; exact hj)
    have hseat := seatOnly_refillLane (sharedDrawn s t) t l
      (BitVec.ofNat 64 (s.runOf t).counter, BitVec.ofNat 64 (s.companyOf t).admitted)
    rw [href]
    refine ⟨rfl, hseat.threads, fun _ => ⟨?_, ?_, fun i hi => preds_refillLane _ _ _ _ hi⟩, fun h => absurd hleft (by omega)⟩
    · exact (congrArg Run.counter (runOf_sharedDrawn s t) :)
    · rw [thread_refillLane, runOf_sharedDrawn]
      rfl
  · rw [if_neg hleft] at hdraw
    rw [refillHeld_none hdraw hj]
    exact ⟨rfl, (seatOnly_drainLane s t l).threads, fun h => absurd h hleft, fun _ => ⟨rfl, by rw [thread_drainLane]; rfl⟩⟩

end Sys2Proof.Machine
end

section
/-! SUPPORT. What troupe-wide instructions compute over their participants (R106, R270-R273). -/

namespace Sys2Proof.Machine

open Sys2Proof

/-! ### The pairwise tree (R106) -/

/-- One level of the tree joins neighbouring segments: what holds of each segment and its value holds one level up. -/
theorem forall₂_pairUp {f : Dword → Dword → Dword} {R : List Dword → Dword → Prop}
    (hf : ∀ xs ys x y, R xs x → R ys y → R (xs ++ ys) (f x y)) : ∀ {segs : List (List Dword)} {vals : List Dword},
    List.Forall₂ R segs vals → ∃ segs', List.Forall₂ R segs' (pairUp f vals) ∧ segs'.flatten = segs.flatten ∧
      segs'.length = (segs.length + 1) / 2
  | [], [], _ => ⟨[], .nil, rfl, rfl⟩
  | [xs], [_], h => ⟨[xs], h, rfl, by simp⟩
  | xs :: ys :: segs, _ :: _ :: _, .cons hx (.cons hy h) => by
    obtain ⟨segs', hs, hflat, hlen⟩ := forall₂_pairUp hf h
    refine ⟨(xs ++ ys) :: segs', .cons (hf _ _ _ _ hx hy) hs, by simp [hflat], ?_⟩
    simp only [List.length_cons, hlen]
    omega

theorem forall₂_treeSum {f : Dword → Dword → Dword} {R : List Dword → Dword → Prop}
    (hf : ∀ xs ys x y, R xs x → R ys y → R (xs ++ ys) (f x y)) (n : Nat) : ∀ {segs : List (List Dword)} {vals : List Dword},
    List.Forall₂ R segs vals → segs ≠ [] → segs.length ≤ 2 ^ n →
      ∃ y, treeSum f n vals = [y] ∧ R segs.flatten y := by
  induction n with
  | zero =>
    intro segs vals h hne hlen
    obtain ⟨xs, rfl⟩ := List.length_eq_one_iff.1 (Nat.le_antisymm hlen (List.length_pos_iff.2 hne))
    obtain ⟨y, rfl⟩ := List.length_eq_one_iff.1 h.length_eq.symm
    cases h with
    | cons hx _ => exact ⟨y, rfl, by simpa using hx⟩
  | succ n ih =>
    intro segs vals h hne hlen
    obtain ⟨segs', hs, hflat, hlen'⟩ := forall₂_pairUp hf h
    have hpos := List.length_pos_iff.2 hne
    rw [← hflat]
    refine ih hs (fun h0 => ?_) ?_
    · simp only [h0, List.length_nil] at hlen'
      omega
    · rw [Nat.pow_succ] at hlen
      omega

/-- What holds of one value, and of the two halves of a join, holds of the tree's value over up to 32 participants. -/
theorem tree_induction {f : Dword → Dword → Dword} {R : List Dword → Dword → Prop} (h1 : ∀ x, R [x] x)
    (hf : ∀ xs ys x y, R xs x → R ys y → R (xs ++ ys) (f x y)) {xs : List Dword} (hne : xs ≠ []) (hlen : xs.length ≤ 32) :
    R xs ((treeSum f 6 xs).headD 0) := by
  have hall : ∀ ys : List Dword, List.Forall₂ R (ys.map fun x => [x]) ys := fun ys => by
    induction ys with
    | nil => exact .nil
    | cons y r ih => exact .cons (h1 y) ih
  have hflat : (xs.map fun x => [x]).flatten = xs := by rw [← List.flatMap_def, List.flatMap_singleton']
  obtain ⟨y, hy, hR⟩ := forall₂_treeSum hf 6 (hall xs) (by simpa using hne) (by simp; omega)
  rw [hy]
  exact hflat ▸ hR

/-! ### Integers in range -/

theorem intOf_range (ty : Ty) (x : Dword) : intMin ty ≤ intOf ty x ∧ intOf ty x ≤ intMax ty := by
  unfold intMin intMax intOf
  have hpos : 0 < Ty.width ty := by cases ty <;> decide
  split
  · have h1 := BitVec.le_toInt (x.setWidth (Ty.width ty))
    have h2 := BitVec.toInt_lt (x := x.setWidth (Ty.width ty))
    constructor
    · simpa using h1
    · have : ((2 : Int) ^ (Ty.width ty - 1)) = ((2 ^ (Ty.width ty - 1) : Nat) : Int) := by simp
      omega
  · have h1 := (x.setWidth (Ty.width ty)).isLt
    constructor
    · exact Int.natCast_nonneg _
    · have : ((2 : Int) ^ Ty.width ty) = ((2 ^ Ty.width ty : Nat) : Int) := by simp
      omega

/-- An integer in a TYPE's range is what its bits hold. -/
theorem intOf_intBits_of_range {ty : Ty} {v : Int} (h1 : intMin ty ≤ v) (h2 : v ≤ intMax ty) :
    intOf ty (intBits ty false v) = v := by
  obtain ⟨hr1, hr2, hdvd⟩ := ranged_intBits ty false v
  obtain ⟨k, hk⟩ := hdvd
  have hpos : 0 < Ty.width ty := by cases ty <;> decide
  have hpow : (2 : Int) ^ Ty.width ty = 2 * 2 ^ (Ty.width ty - 1) := by
    rw [← pow_succ']; congr 1; omega
  have hwidth : intMax ty - intMin ty < (2 : Int) ^ Ty.width ty := by
    unfold intMin intMax
    split <;> omega
  have hk0 : k = 0 := by
    have hp : (0 : Int) < 2 ^ Ty.width ty := by positivity
    rcases lt_trichotomy k 0 with h | h | h
    · nlinarith
    · exact h
    · nlinarith
  rw [hk0, mul_zero] at hk
  omega

theorem ofInt_intOf (ty : Ty) (x : Dword) : BitVec.ofInt (Ty.width ty) (intOf ty x) = x.setWidth (Ty.width ty) := by
  unfold intOf
  split
  · exact BitVec.ofInt_toInt
  · exact (BitVec.ofInt_natCast _ _).trans ((BitVec.ofNat_toNat _ _).trans (BitVec.setWidth_eq _))

/-- A register or pair holds its own integer, where the TYPE fills it. -/
theorem holds_self {ty : Ty} (h : Ty.width ty = 32 ∨ Ty.width ty = 64) (x : Dword) : Holds ty false (intOf ty x) x := by
  have key := ofInt_intOf ty x
  refine ⟨⟨(intOf_range ty x).1, (intOf_range ty x).2, by simp⟩, ?_⟩
  split
  · rename_i hwide
    have h64 : Ty.width ty = 64 := by revert hwide; cases ty <;> decide
    rw [h64] at key
    exact (key.trans (BitVec.setWidth_eq x)).symm
  · rename_i hwide
    have h32 : Ty.width ty = 32 := h.resolve_right (by revert hwide; cases ty <;> decide)
    rw [h32] at key
    exact key.symm

/-! ### Integer reductions (R271) -/

/-- What an integer reduction of the values `xs` gives. -/
def Reduced (op : RedOp) (ty : Ty) (xs : List Dword) (x : Dword) : Prop :=
  match op with
  | .add => Holds ty false (xs.map (intOf ty)).sum x
  | .min => (∃ a ∈ xs, intOf ty x = intOf ty a) ∧ ∀ a ∈ xs, intOf ty x ≤ intOf ty a
  | .max => (∃ a ∈ xs, intOf ty x = intOf ty a) ∧ ∀ a ∈ xs, intOf ty a ≤ intOf ty x
  | .and => ∀ i < 64, x.getLsbD i = true ↔ ∀ a ∈ xs, a.getLsbD i = true
  | .or => ∀ i, x.getLsbD i = true ↔ ∃ a ∈ xs, a.getLsbD i = true
  | .xor => ∀ i, x.getLsbD i = (xs.countP (fun a => a.getLsbD i) % 2 == 1)

theorem reduced_one {op : RedOp} {ty : Ty} (h : Ty.width ty = 32 ∨ Ty.width ty = 64) (x : Dword) : Reduced op ty [x] x := by
  cases op with
  | add => simpa [Reduced] using holds_self h x
  | xor =>
    intro i
    cases hx : x.getLsbD i <;> simp [hx]
  | _ => simp [Reduced]

theorem holds_add {ty : Ty} {a b : Int} {x y : Dword} (hx : Holds ty false a x) (hy : Holds ty false b y) :
    Holds ty false (a + b) (intBits ty false (intOf ty x + intOf ty y)) := by
  obtain ⟨⟨h1, h2, h3⟩, h4⟩ := holds_intBits ty false (intOf ty x + intOf ty y)
  obtain ⟨⟨-, -, hxd⟩, -⟩ := hx
  obtain ⟨⟨-, -, hyd⟩, -⟩ := hy
  refine ⟨⟨h1, h2, ?_⟩, h4⟩
  have hsum := dvd_add h3 (dvd_add hxd hyd)
  have he : intOf ty (intBits ty false (intOf ty x + intOf ty y)) - (intOf ty x + intOf ty y) +
      (intOf ty x - a + (intOf ty y - b)) = intOf ty (intBits ty false (intOf ty x + intOf ty y)) - (a + b) := by ring
  rw [he] at hsum
  exact hsum

/-- The smaller of two integers, and the larger, are in range. -/
theorem intOf_min (ty : Ty) (x y : Dword) : intOf ty (intBits ty false (min (intOf ty x) (intOf ty y))) =
    min (intOf ty x) (intOf ty y) := by
  have hx := intOf_range ty x
  have hy := intOf_range ty y
  exact intOf_intBits_of_range (le_min hx.1 hy.1) ((min_le_left _ _).trans hx.2)

theorem intOf_max (ty : Ty) (x y : Dword) : intOf ty (intBits ty false (max (intOf ty x) (intOf ty y))) =
    max (intOf ty x) (intOf ty y) := by
  have hx := intOf_range ty x
  have hy := intOf_range ty y
  exact intOf_intBits_of_range (hx.1.trans (le_max_left _ _)) (max_le hx.2 hy.2)

theorem redStep_int {op : RedOp} {ty : Ty} (h : Ty.isInt ty = true) (a b : Dword) : redStep op ty a b = match op with
    | .add => intBits ty false (intOf ty a + intOf ty b)
    | .min => intBits ty false (min (intOf ty a) (intOf ty b))
    | .max => intBits ty false (max (intOf ty a) (intOf ty b))
    | .and => a &&& b
    | .or => a ||| b
    | .xor => a ^^^ b := by
  have hty : ¬(ty == .f32) = true := by
    revert h
    cases ty <;> decide
  unfold redStep
  cases op <;> exact if_neg hty

theorem reduced_step {op : RedOp} {ty : Ty} (h : Ty.isInt ty = true) (xs ys : List Dword) (x y : Dword)
    (hx : Reduced op ty xs x) (hy : Reduced op ty ys y) : Reduced op ty (xs ++ ys) (redStep op ty x y) := by
  rw [redStep_int h]
  cases op with
  | add =>
    rw [Reduced, List.map_append, List.sum_append]
    exact holds_add hx hy
  | min =>
    obtain ⟨⟨a, ha, hxa⟩, hxle⟩ := hx
    obtain ⟨⟨b, hb, hyb⟩, hyle⟩ := hy
    simp only [Reduced, intOf_min, List.mem_append]
    refine ⟨?_, fun v hv => hv.elim (fun hv => (min_le_left _ _).trans (hxle v hv)) fun hv => (min_le_right _ _).trans (hyle v hv)⟩
    rcases min_choice (intOf ty x) (intOf ty y) with h | h
    · exact ⟨a, .inl ha, h.trans hxa⟩
    · exact ⟨b, .inr hb, h.trans hyb⟩
  | max =>
    obtain ⟨⟨a, ha, hxa⟩, hxle⟩ := hx
    obtain ⟨⟨b, hb, hyb⟩, hyle⟩ := hy
    simp only [Reduced, intOf_max, List.mem_append]
    refine ⟨?_, fun v hv => hv.elim (fun hv => (hxle v hv).trans (le_max_left _ _)) fun hv => (hyle v hv).trans (le_max_right _ _)⟩
    rcases max_choice (intOf ty x) (intOf ty y) with h | h
    · exact ⟨a, .inl ha, h.trans hxa⟩
    · exact ⟨b, .inr hb, h.trans hyb⟩
  | and =>
    intro i hi
    simp only [BitVec.getLsbD_and, Bool.and_eq_true, hx i hi, hy i hi, List.mem_append]
    exact ⟨fun h v hv => hv.elim (h.1 v) (h.2 v), fun h => ⟨fun v hv => h v (.inl hv), fun v hv => h v (.inr hv)⟩⟩
  | or =>
    intro i
    simp only [BitVec.getLsbD_or, Bool.or_eq_true, hx i, hy i, List.mem_append, or_and_right, exists_or]
  | xor =>
    intro i
    simp only [BitVec.getLsbD_xor, hx i, hy i, List.countP_append]
    rcases Nat.mod_two_eq_zero_or_one (xs.countP fun a => a.getLsbD i) with h1 | h1 <;>
      rcases Nat.mod_two_eq_zero_or_one (ys.countP fun a => a.getLsbD i) with h2 | h2 <;>
        simp [Nat.add_mod, h1, h2]

/-- An integer TRED is that of its participants, in whatever order the tree takes them. -/
theorem reduced_tredVal {op : RedOp} {ty : Ty} (hint : Ty.isInt ty = true) (hw : Ty.width ty = 32 ∨ Ty.width ty = 64)
    {xs : Parts} (hne : xs ≠ []) (hlen : xs.length ≤ 32) : Reduced op ty (xs.map Prod.snd) (tredVal op ty xs) := by
  have hcanon (x : Dword) : canonF ty x = x := by
    unfold canonF
    rw [if_neg]
    revert hint
    cases ty <;> simp [Ty.isInt]
  rw [tredVal, hcanon]
  exact tree_induction (reduced_one hw) (reduced_step hint) (by simpa using hne) (by simpa using hlen)

/-! ### Participants (R55) -/

/-- The lanes over which lane `l` of a troupe-wide instruction gets its result: Active, under `.seg` those with its item. -/
def sharing (s : State) (c : Ctx) (sc : XScope) (l : Nat) : List Nat :=
  (lanes c.act).filter fun j => sc != .seg || (s.thread c.t j).item == (s.thread c.t l).item

theorem mem_sharing {s : State} {c : Ctx} {sc : XScope} {l j : Nat} : j ∈ sharing s c sc l ↔
    hasLane c.act j = true ∧ (sc = .seg → (s.thread c.t j).item = (s.thread c.t l).item) := by
  rw [sharing, List.mem_filter, mem_lanes]
  refine and_congr_right fun _ => ?_
  cases sc <;> simp

theorem self_mem_sharing {s : State} {c : Ctx} {sc : XScope} {l : Nat} (h : hasLane c.act l = true) : l ∈ sharing s c sc l :=
  mem_sharing.2 ⟨h, fun _ => rfl⟩

theorem length_sharing (s : State) (c : Ctx) (sc : XScope) (l : Nat) : (sharing s c sc l).length ≤ 32 := by
  refine (List.length_filter_le _ _).trans ?_
  exact (List.length_filter_le _ _).trans (by simp)

/-- The participants of lane `l`, each with its contribution. -/
def partsOf (s : State) (c : Ctx) (sc : XScope) (x : Nat → Dword) (l : Nat) : Parts := (sharing s c sc l).map fun j => (j, x j)

theorem map_snd_partsOf (s : State) (c : Ctx) (sc : XScope) (x : Nat → Dword) (l : Nat) :
    (partsOf s c sc x l).map Prod.snd = (sharing s c sc l).map x := by
  rw [partsOf, List.map_map]
  rfl

theorem partsOf_eq (s : State) (c : Ctx) (sc : XScope) (x : Nat → Dword) (l : Nat) : partsOf s c sc x l =
    if sc == .seg then segmentOf (s.troupe c.t) ((lanes c.act).map fun j => (j, x j)) l else (lanes c.act).map fun j => (j, x j) := by
  unfold partsOf sharing segmentOf
  cases sc
  case seg =>
    rw [List.filter_map]
    rfl
  all_goals exact congrArg (List.map _) (List.filter_true _)

theorem mem_partsOf {s : State} {c : Ctx} {sc : XScope} {x : Nat → Dword} {l : Nat} {p : Nat × Dword} :
    p ∈ partsOf s c sc x l ↔ p.1 ∈ sharing s c sc l ∧ p.2 = x p.1 := by
  rw [partsOf, List.mem_map]
  constructor
  · rintro ⟨j, hj, rfl⟩
    exact ⟨hj, rfl⟩
  · rintro ⟨h1, h2⟩
    exact ⟨p.1, h1, by rw [← h2]⟩

/-! ### Results within the bundle -/

/-- A troupe-wide instruction that is not `.all`, and that no NONDET stops, writes at once. -/
theorem troupeWide_now {i : Instr} {sc : XScope} {ty : Ty} {d : Opd} {x : State → Ctx → Nat → Dword} {c : Ctx} {s : State}
    (hsc : sc ≠ .all) (hfree : c.act = (s.troupe c.t).liveNonHeld ∨ (s.runOf c.t).determ = false) :
    troupeWide i sc ty d x c s = .ok (writeNow s c (results c (Ty.wide ty) d fun l =>
      wideResult i (partsOf s c sc (x s c) l) l)) := by
  have hnd : nondet s c (if c.act = (s.troupe c.t).liveNonHeld then 0 else c.act) = (s, none) := by
    unfold nondet
    rcases hfree with h | h <;> simp [h]
  unfold troupeWide
  dsimp only
  rw [hnd]
  simp only [partsOf_eq]

theorem LaneNow.mono {c : Ctx} {r : Rnd} {wide : Bool} {d : Opd} {P Q : Nat → Dword → Prop} {s t : State}
    (h : LaneNow c r wide d P s t) (hPQ : ∀ l, hasLane c.act l = true → ∀ x, P l x → Q l x) : LaneNow c r wide d Q s t where
  outside := h.outside
  frame := h.frame
  owed := h.owed
  result l hl := by
    obtain ⟨x, hP, hx⟩ := h.result l hl
    exact ⟨x, hPQ l (hasLane_of_writers hl) x hP, hx⟩

/-- What each lane gets from a troupe-wide instruction that is not `.all`. -/
theorem laneNow_troupeWide {i : Instr} {sc : XScope} {ty : Ty} {d : Opd} {x : State → Ctx → Nat → Dword} {c : Ctx} {s : State}
    (hi : Issues i s c) (hex : exec i s = issue i s (troupeWide i sc ty d x)) (hsc : sc ≠ .all)
    (hfree : c.act = (s.troupe c.t).liveNonHeld ∨ (s.runOf c.t).determ = false) :
    ∃ t, exec i s = .next t ∧
      LaneNow c .rne (Ty.wide ty) d (fun l y => y = wideResult i (partsOf s c sc (x s.begun c) l) l) s t := by
  refine ⟨_, hex.trans (issue_next hi _), ?_⟩
  rw [troupeWide_now (s := s.begun) hsc hfree]
  exact laneNow_finish (onlyTroupe_begun _ _) rfl (fun _ => rfl) (fun _ _ => rfl) (fun _ => rfl) fun _ _ => rfl

/-! ### VOTE and MATCH -/

theorem boolDword_cases (b : Bool) : (boolDword b = 0 ∨ boolDword b = 1) ∧ (boolDword b = 1 ↔ b = true) := by
  cases b <;> decide

theorem getLsbD_maskOf_setWidth (p : Nat → Bool) (i : Nat) :
    ((maskOf p).setWidth 64 : Dword).getLsbD i = (decide (i < 32) && p i) := by
  rw [BitVec.getLsbD_setWidth]
  have h := hasLane_maskOf p i
  rw [hasLane] at h
  rw [h]
  by_cases hi : i < 32
  · simp [hi, show i < 64 by omega]
  · simp [hi]

/-- A vote among the participants `xs`, of whom those vote for whose contribution is nonzero. -/
theorem voteVal_spec (k : VoteKind) (xs : Parts) (hlt : ∀ p ∈ xs, p.1 < 32) : match k with
    | .any => (voteVal k xs = 0 ∨ voteVal k xs = 1) ∧ (voteVal k xs = 1 ↔ ∃ p ∈ xs, p.2 ≠ 0)
    | .every => (voteVal k xs = 0 ∨ voteVal k xs = 1) ∧ (voteVal k xs = 1 ↔ ∀ p ∈ xs, p.2 ≠ 0)
    | .same => (voteVal k xs = 0 ∨ voteVal k xs = 1) ∧ (voteVal k xs = 1 ↔ ∀ p ∈ xs, ∀ q ∈ xs, (p.2 ≠ 0 ↔ q.2 ≠ 0))
    | .ballot => ∀ i, (voteVal k xs).getLsbD i = true ↔ ∃ p ∈ xs, p.1 = i ∧ p.2 ≠ 0 := by
  cases k with
  | any =>
    refine ⟨(boolDword_cases _).1, (boolDword_cases _).2.trans ?_⟩
    simp
  | every =>
    refine ⟨(boolDword_cases _).1, (boolDword_cases _).2.trans ?_⟩
    simp
  | same =>
    refine ⟨(boolDword_cases _).1, (boolDword_cases _).2.trans ?_⟩
    simp only [Bool.or_eq_true, List.all_eq_true, List.mem_map, forall_exists_index, and_imp, forall_apply_eq_imp_iff₂, id_eq,
      bne_iff_ne, Bool.not_eq_true', bne_eq_false_iff_eq]
    constructor
    · rintro (h | h) p hp q hq
      · exact iff_of_true (h p hp) (h q hq)
      · exact iff_of_false (not_not_intro (h p hp)) (not_not_intro (h q hq))
    · intro h
      by_cases hall : ∀ p ∈ xs, p.2 ≠ 0
      · exact .inl hall
      · obtain ⟨p, hp, hp0⟩ : ∃ p ∈ xs, p.2 = 0 := by simpa using hall
        exact .inr fun q hq => by_contra fun hq0 => (h p hp q hq).2 hq0 hp0
  | ballot =>
    intro i
    change ((maskOf fun l => xs.any fun p => p.1 == l && p.2 != 0).setWidth 64 : Dword).getLsbD i = true ↔ _
    rw [getLsbD_maskOf_setWidth, Bool.and_eq_true, List.any_eq_true]
    simp only [decide_eq_true_eq, Bool.and_eq_true, beq_iff_eq, bne_iff_ne]
    exact ⟨fun h => h.2, fun h => ⟨by obtain ⟨p, hp, rfl, -⟩ := h; exact hlt p hp, h⟩⟩

/-- A match among the participants: those whose contribution is `x`. -/
theorem matchVal_spec (xs : Parts) (x : Dword) (hlt : ∀ p ∈ xs, p.1 < 32) (i : Nat) :
    (matchVal xs x).getLsbD i = true ↔ ∃ p ∈ xs, p.1 = i ∧ p.2 = x := by
  rw [matchVal, getLsbD_maskOf_setWidth, Bool.and_eq_true, List.any_eq_true]
  simp only [decide_eq_true_eq, Bool.and_eq_true, beq_iff_eq]
  exact ⟨fun h => h.2, fun h => ⟨by obtain ⟨p, hp, rfl, -⟩ := h; exact hlt p hp, h⟩⟩

theorem lt_of_mem_partsOf {s : State} {c : Ctx} {sc : XScope} {x : Nat → Dword} {l : Nat} {p : Nat × Dword}
    (h : p ∈ partsOf s c sc x l) : p.1 < 32 := lt_of_hasLane (mem_sharing.1 (mem_partsOf.1 h).1).1

/-- A lane finds its own contribution among its participants. -/
theorem find_partsOf {s : State} {c : Ctx} {sc : XScope} {x : Nat → Dword} {l : Nat} (hl : hasLane c.act l = true) :
    (((partsOf s c sc x l).find? fun p => p.1 == l).map Prod.snd).getD 0 = x l := by
  cases hf : (partsOf s c sc x l).find? fun p => p.1 == l with
  | none =>
    have := List.find?_eq_none.1 hf (l, x l) (mem_partsOf.2 ⟨self_mem_sharing hl, rfl⟩)
    simp at this
  | some p =>
    have hp := List.find?_some hf
    have hx := (mem_partsOf.1 (List.mem_of_find?_eq_some hf)).2
    simpa [← beq_iff_eq.1 hp] using hx

/-! ### The part of the statement within the bundle -/

theorem setWidth_word_ne_zero {x : Word} : (x.setWidth 64 : Dword) ≠ 0 ↔ x ≠ 0 :=
  not_congr (setWidth_word_inj (y := 0))

/-- The participants before a lane, or up to it. -/
theorem filter_partsOf (s : State) (c : Ctx) (sc : XScope) (x : Nat → Dword) (l : Nat) (p : Nat → Bool) :
    ((partsOf s c sc x l).filter fun q => p q.1).map Prod.snd = ((sharing s c sc l).filter p).map x := by
  rw [partsOf, List.filter_map, List.map_map]
  rfl

section
variable {h : Hdr} {sc : XScope} {d a : Opd} {s : State} {c : Ctx} (hsc : sc ≠ .all)
  (hfree : c.act = (s.troupe c.t).liveNonHeld ∨ (s.runOf c.t).determ = false)
include hsc hfree

theorem vote_now {k : VoteKind} (hi : Issues (.vote h k sc d a) s c) : ∃ t, exec (.vote h k sc d a) s = .next t ∧
    LaneNow c .rne false d (fun l x => x = voteVal k (partsOf s c sc (fun l => (readWord s.begun c l a 0).setWidth 64) l)) s t :=
  laneNow_troupeWide (ty := .n32) (x := fun s c l => (readWord s c l a 0).setWidth 64) hi (exec_vote s) hsc hfree

theorem tred_now {op : RedOp} {ty : Ty} (hi : Issues (.tred h op sc ty d a) s c) :
    ∃ t, exec (.tred h op sc ty d a) s = .next t ∧ LaneNow c .rne (Ty.wide ty) d
      (fun l x => x = tredVal op ty (partsOf s c sc (fun l => readTy s.begun c ty l a 0) l)) s t :=
  laneNow_troupeWide (x := fun s c l => readTy s c ty l a 0) hi (exec_tred s) hsc hfree

theorem tscan_now {op : RedOp} {ty : Ty} {excl : Bool} (hi : Issues (.tscan h op sc ty excl d a) s c) :
    ∃ t, exec (.tscan h op sc ty excl d a) s = .next t ∧ LaneNow c .rne (Ty.wide ty) d
      (fun l x => x = tscanVal op ty excl (partsOf s c sc (fun l => readTy s.begun c ty l a 0) l) l) s t :=
  laneNow_troupeWide (x := fun s c l => readTy s c ty l a 0) hi (exec_tscan s) hsc hfree

theorem matchv_parts {ty : Ty} (hi : Issues (.matchv h sc ty d a) s c) : ∃ t, exec (.matchv h sc ty d a) s = .next t ∧
    LaneNow c .rne false d (fun l x => x = wideResult (.matchv h sc ty d a)
      (partsOf s c sc (fun l => readTy s.begun c ty l a 0) l) l) s t :=
  laneNow_troupeWide (ty := .n32) (x := fun s c l => readTy s c ty l a 0) hi (exec_matchv s) hsc hfree

theorem matchv_now {ty : Ty} (hi : Issues (.matchv h sc ty d a) s c) :
    ∃ t, exec (.matchv h sc ty d a) s = .next t ∧ LaneNow c .rne false d
      (fun l x => ∀ i, x.getLsbD i = true ↔ i ∈ sharing s c sc l ∧ readTy s.begun c ty i a 0 = readTy s.begun c ty l a 0) s t := by
  obtain ⟨t, ht, hnow⟩ := matchv_parts hsc hfree hi
  refine ⟨t, ht, hnow.mono fun l hl x hx i => ?_⟩
  rw [wideResult, find_partsOf hl] at hx
  rw [hx, matchVal_spec _ _ fun p hp => lt_of_mem_partsOf hp]
  constructor
  · rintro ⟨p, hp, rfl, hpx⟩
    obtain ⟨hin, hv⟩ := mem_partsOf.1 hp
    exact ⟨hin, hv ▸ hpx⟩
  · rintro ⟨hin, hv⟩
    exact ⟨(i, readTy s.begun c ty i a 0), mem_partsOf.2 ⟨hin, rfl⟩, rfl, hv⟩

end

end Sys2Proof.Machine
end

section
/-! SUPPORT. The statement on troupe-wide instructions: within the bundle, and `.all` instances (R55, R270-R273). -/

namespace Sys2Proof.Machine

open Sys2Proof

theorem exists_partsOf {s : State} {c : Ctx} {sc : XScope} {x : Nat → Dword} {l : Nat} {Q : Nat → Dword → Prop} :
    (∃ p ∈ partsOf s c sc x l, Q p.1 p.2) ↔ ∃ j, j ∈ sharing s c sc l ∧ Q j (x j) := by
  simp only [partsOf, List.mem_map, exists_exists_and_eq_and]

theorem forall_partsOf {s : State} {c : Ctx} {sc : XScope} {x : Nat → Dword} {l : Nat} {Q : Nat → Dword → Prop} :
    (∀ p ∈ partsOf s c sc x l, Q p.1 p.2) ↔ ∀ j, j ∈ sharing s c sc l → Q j (x j) := by
  rw [partsOf, List.forall_mem_map]

theorem partsOf_ne_nil {s : State} {c : Ctx} {sc : XScope} {x : Nat → Dword} {l : Nat} (hl : hasLane c.act l = true) :
    partsOf s c sc x l ≠ [] := by
  rw [partsOf, Ne, List.map_eq_nil_iff]
  exact List.ne_nil_of_mem (self_mem_sharing hl)

/-- A vote over a lane's participants. -/
theorem vote_spec {s : State} {c : Ctx} {sc : XScope} {l : Nat} {k : VoteKind} {f : Nat → Word} {x : Dword}
    (hx : x = voteVal k (partsOf s c sc (fun j => (f j).setWidth 64) l)) :
    match k with
    | .any => (x = 0 ∨ x = 1) ∧ (x = 1 ↔ ∃ j, j ∈ sharing s c sc l ∧ f j ≠ 0)
    | .every => (x = 0 ∨ x = 1) ∧ (x = 1 ↔ ∀ j ∈ sharing s c sc l, f j ≠ 0)
    | .same => (x = 0 ∨ x = 1) ∧ (x = 1 ↔ ∀ j k, j ∈ sharing s c sc l → k ∈ sharing s c sc l → (f j ≠ 0 ↔ f k ≠ 0))
    | .ballot => ∀ i, x.getLsbD i = true ↔ i ∈ sharing s c sc l ∧ f i ≠ 0 := by
  have hspec := voteVal_spec k (partsOf s c sc (fun j => (f j).setWidth 64) l) fun p hp => lt_of_mem_partsOf hp
  rw [← hx] at hspec
  cases k with
  | any =>
    refine ⟨hspec.1, hspec.2.trans ?_⟩
    rw [exists_partsOf (Q := fun _ v => v ≠ 0)]
    simp only [setWidth_word_ne_zero]
  | every =>
    refine ⟨hspec.1, hspec.2.trans ?_⟩
    rw [forall_partsOf (Q := fun _ v => v ≠ 0)]
    simp only [setWidth_word_ne_zero]
  | same =>
    refine ⟨hspec.1, hspec.2.trans ?_⟩
    rw [forall_partsOf (Q := fun _ v => ∀ q ∈ partsOf s c sc (fun j => (f j).setWidth 64) l, (v ≠ 0 ↔ q.2 ≠ 0))]
    have hinner (v : Dword) := forall_partsOf (s := s) (c := c) (sc := sc) (x := fun j => (f j).setWidth 64) (l := l)
      (Q := fun _ w => (v ≠ 0 ↔ w ≠ 0))
    simp only [hinner]
    simp only [setWidth_word_ne_zero]
    exact ⟨fun h j k hj hk => h j hj k hk, fun h j hj k hk => h j k hj hk⟩
  | ballot =>
    intro i
    refine (hspec i).trans ?_
    rw [exists_partsOf (Q := fun j v => j = i ∧ v ≠ 0)]
    simp only [setWidth_word_ne_zero]
    constructor
    · rintro ⟨j, hj, rfl, hv⟩
      exact ⟨hj, hv⟩
    · exact fun ⟨hj, hv⟩ => ⟨i, hj, rfl, hv⟩

/-- An integer reduction over a lane's participants. -/
theorem tred_spec {s : State} {c : Ctx} {sc : XScope} {l : Nat} {op : RedOp} {ty : Ty} {A : Nat → Dword} {x : Dword}
    (hint : Ty.isInt ty = true) (hw : Ty.width ty = 32 ∨ Ty.width ty = 64) (hl : hasLane c.act l = true)
    (hx : x = tredVal op ty (partsOf s c sc A l)) :
    match op with
    | .add => Holds ty false ((sharing s c sc l).map fun j => intOf ty (A j)).sum x
    | .min => (∃ j, j ∈ sharing s c sc l ∧ intOf ty x = intOf ty (A j)) ∧ ∀ j ∈ sharing s c sc l, intOf ty x ≤ intOf ty (A j)
    | .max => (∃ j, j ∈ sharing s c sc l ∧ intOf ty x = intOf ty (A j)) ∧ ∀ j ∈ sharing s c sc l, intOf ty (A j) ≤ intOf ty x
    | .and => ∀ i, x.getLsbD i = true ↔ ∀ j ∈ sharing s c sc l, (A j).getLsbD i = true
    | .or => ∀ i, x.getLsbD i = true ↔ ∃ j, j ∈ sharing s c sc l ∧ (A j).getLsbD i = true
    | .xor => ∀ i, x.getLsbD i = ((sharing s c sc l).countP (fun j => (A j).getLsbD i) % 2 == 1) := by
  have hlen : (partsOf s c sc A l).length ≤ 32 := by
    rw [partsOf, List.length_map]
    exact length_sharing s c sc l
  have hred := reduced_tredVal (op := op) hint hw (partsOf_ne_nil (sc := sc) (x := A) hl) hlen
  rw [← hx, map_snd_partsOf] at hred
  cases op with
  | add =>
    rw [Reduced, List.map_map] at hred
    exact hred
  | min =>
    rw [Reduced, List.forall_mem_map] at hred
    simp only [List.mem_map, exists_exists_and_eq_and] at hred
    exact hred
  | max =>
    rw [Reduced, List.forall_mem_map] at hred
    simp only [List.mem_map, exists_exists_and_eq_and] at hred
    exact hred
  | and =>
    intro i
    by_cases hi : i < 64
    · have := hred i hi
      rwa [List.forall_mem_map] at this
    · have hout (y : Dword) : y.getLsbD i = false := BitVec.getLsbD_of_ge y i (by omega)
      simp only [hout]
      refine ⟨fun h => ?_, fun h => h l (self_mem_sharing hl)⟩
      cases h
  | or =>
    intro i
    have := hred i
    simpa only [List.mem_map, exists_exists_and_eq_and] using this
  | xor =>
    intro i
    have := hred i
    rwa [List.countP_map] at this

/-- A scan over a lane's participants. -/
theorem tscan_spec {s : State} {c : Ctx} {sc : XScope} {l : Nat} {op : RedOp} {ty : Ty} {excl : Bool} {A : Nat → Dword} {x : Dword}
    (hx : x = tscanVal op ty excl (partsOf s c sc A l) l) :
    match (sharing s c sc l).filter fun j => if excl then j < l else j ≤ l with
    | [] => x = redIdentity op ty
    | j :: r => x = canonF ty ((r.map A).foldl (redStep op ty) (A j)) := by
  have hbefore : ((partsOf s c sc A l).filter fun p => if excl then p.1 < l else p.1 ≤ l).map Prod.snd =
      ((sharing s c sc l).filter fun j => if excl then j < l else j ≤ l).map A :=
    filter_partsOf s c sc A l fun j => if excl then j < l else j ≤ l
  unfold tscanVal at hx
  dsimp only at hx
  rw [hbefore] at hx
  cases hf : (sharing s c sc l).filter fun j => if excl then j < l else j ≤ l with
  | nil =>
    rw [hf] at hx
    exact hx
  | cons j r =>
    rw [hf] at hx
    exact hx

/-! ### `.all` instances: who is there (R55) -/

theorem hasLane_liveNonHeld {tr : Troupe} {l : Nat} : hasLane tr.liveNonHeld l = true ↔
    l < 32 ∧ (tr.thread l).st ≠ .drained ∧ (tr.thread l).st ≠ .held := by
  rw [Troupe.liveNonHeld, hasLane_maskOf]
  simp [Thread.live]

/-- The lanes that wait in an `.all` at a PC. -/
def allWaiting (s : State) (t : Nat) (pc : Word) : Mask := maskOf fun l => (s.thread t l).waitsAll pc

theorem hasLane_allWaiting {s : State} {t : Nat} {pc : Word} {l : Nat} : hasLane (allWaiting s t pc) l = true ↔
    l < 32 ∧ (s.thread t l).waitsAll pc = true := by
  rw [allWaiting, hasLane_maskOf]
  simp

/-- Every live thread that is not HELD waits at the `.all` of a PC or has reached it. -/
def AllThere (s : State) (t : Nat) (pc : Word) : Prop :=
  ∀ l, hasLane (s.troupe t).liveNonHeld l = true →
    hasLane (allWaiting s t pc) l = true ∨ hasLane ((s.troupe t).reachedAt pc) l = true

theorem allThere_iff {s : State} {t : Nat} {pc : Word} : AllThere s t pc ↔
    (s.troupe t).liveNonHeld &&& ~~~(allWaiting s t pc ||| (s.troupe t).reachedAt pc) = 0 := by
  constructor
  · intro h
    refine BitVec.eq_of_getLsbD_eq fun l hl => ?_
    have hdiff := hasLane_diff (s.troupe t).liveNonHeld (allWaiting s t pc ||| (s.troupe t).reachedAt pc) l
    rw [hasLane_or] at hdiff
    refine (hdiff :).trans ?_
    by_cases hlive : hasLane (s.troupe t).liveNonHeld l = true
    · rcases h l hlive with h | h <;> simp [h]
    · simp [hlive]
  · intro h l hl
    have hdiff := hasLane_diff (s.troupe t).liveNonHeld (allWaiting s t pc ||| (s.troupe t).reachedAt pc) l
    rw [h, hasLane_or, hl] at hdiff
    cases hw : hasLane (allWaiting s t pc) l with
    | true => exact .inl rfl
    | false =>
      cases hr : hasLane ((s.troupe t).reachedAt pc) l with
      | true => exact .inr rfl
      | false =>
        rw [hw, hr] at hdiff
        simp [hasLane] at hdiff

/-- An `.all` that some thread has still to come to stays as it is. -/
theorem allCheckAt_open {s : State} {t : Nat} {pc : Word} (h : ¬AllThere s t pc) : allCheckAt s t pc = s := by
  have hne := allThere_iff.not.1 h
  unfold allCheckAt
  exact if_pos (by simpa [allWaiting, State.thread] using .inr hne)

/-- An `.all` where all are there completes for those that wait. -/
theorem allCheckAt_complete {s : State} {t : Nat} {pc : Word} {i : Instr} {v : Dword} (h : AllThere s t pc)
    (hw : allWaiting s t pc ≠ 0) (hlow : (s.thread t (lowLane (allWaiting s t pc))).wait = .all i v) :
    allCheckAt s t pc = bundleByPc (leaveLanes (s.setTroupe t { s.troupe t with reached := terase (s.troupe t).reached pc.toNat }) t
      (allWaiting s t pc) (wideResult i ((lanes (allWaiting s t pc)).map fun l => (l, (s.thread t l).contribution)))) t
      (allWaiting s t pc) := by
  have heq := allThere_iff.1 h
  have hor : allWaiting s t pc ||| (s.troupe t).reachedAt pc ≠ 0 := by
    intro h0
    obtain ⟨hin, -⟩ := lowLane_spec hw
    have := congrArg (fun m => hasLane m (lowLane (allWaiting s t pc))) h0
    simp only [hasLane_or, hin, Bool.true_or] at this
    simp [hasLane] at this
  have hcond : ¬(decide (allWaiting s t pc ||| (s.troupe t).reachedAt pc = 0) ||
      (s.troupe t).liveNonHeld &&& ~~~(allWaiting s t pc ||| (s.troupe t).reachedAt pc) != 0) = true := by
    rw [heq, decide_eq_false hor]
    decide
  have hlow' : ((s.troupe t).thread (lowLane (maskOf fun l => ((s.troupe t).thread l).waitsAll pc))).wait = .all i v := hlow
  unfold allCheckAt
  refine (if_neg hcond).trans ?_
  dsimp only
  rw [hlow']
  rfl

/-! ### Lanes that leave together with one destination -/

theorem nodup_keys_destWrites (wide : Bool) (d : Opd) (l : Nat) (x : Dword) : ((destWrites wide d l x).map Prod.fst).Nodup := by
  cases d <;> simp only [destWrites] <;> (try split) <;> simp [vKey, sKey]

theorem destWrites_inj {wide : Bool} {d : Opd} {l : Nat} {x : Dword} {v w : Nat × Word} (hv : v ∈ destWrites wide d l x)
    (hw : w ∈ destWrites wide d l x) (h : v.1 = w.1) : v = w :=
  List.inj_on_of_nodup_map (nodup_keys_destWrites wide d l x) hv hw h

/-- The key of a lane's own register tells the lane. -/
theorem vKey_lane {wide : Bool} {n : Fin 512} {l : Nat} (hl : l < 32) {x : Dword} {w : Nat × Word}
    (hw : w ∈ destWrites wide (.v n) l x) : w.1 % 32 = l := by
  have hkey : w.1 = vKey n.val l ∨ w.1 = vKey (n.val + 1) l := by
    cases wide
    · exact .inl (congrArg Prod.fst (List.mem_singleton.1 hw))
    · rcases List.mem_cons.1 hw with rfl | hw
      · exact .inl rfl
      · exact .inr (congrArg Prod.fst (List.mem_singleton.1 hw))
  unfold vKey at hkey
  omega

/-- Lanes' destinations are apart, but for a uniform register. -/
theorem destWrites_lane {wide : Bool} {d : Opd} (hd : ∀ n, d ≠ .s n) {j l : Nat} (hj : j < 32) (hl : l < 32) {x y : Dword}
    {v w : Nat × Word} (hv : v ∈ destWrites wide d j x) (hw : w ∈ destWrites wide d l y) (h : v.1 = w.1) : j = l := by
  cases d with
  | s n => exact absurd rfl (hd n)
  | v n => rw [← vKey_lane hj hv, ← vKey_lane hl hw, h]
  | p k =>
    simp only [destWrites] at hv hw
    split at hv
    · cases hv
    · simp_all [pKey]
  | _ => cases hv

/-- The lanes whose words stay in a destination that lanes `ls` leave with: all, of a uniform register the lowest. -/
def keptBy (d : Opd) (ls : List Nat) : List Nat :=
  match d with
  | .s _ => ls.take 1
  | _ => ls

theorem keptBy_of_ne {d : Opd} (hd : ∀ n, d ≠ .s n) (ls : List Nat) : keptBy d ls = ls := by
  cases d with
  | s n => exact absurd rfl (hd n)
  | _ => rfl

section
variable {s : State} {t : Nat} {m : Mask} {val : Nat → Dword} {wide : Bool} {d : Opd}
  (hinfo : ∀ l, hasLane m l = true → leaveWrites (s.troupe t) val l = destWrites wide d l (val l))
include hinfo

theorem gets_keptBy {l : Nat} (hl : l ∈ keptBy d (lanes m)) : Gets ((leaveLanes s t m val).troupe t) wide d l (val l) := by
  intro w hw
  by_cases hd : ∀ n, d ≠ .s n
  · rw [keptBy_of_ne hd, mem_lanes] at hl
    refine reg_leaveLanes_agree (l := l) hl (hinfo l hl ▸ hw) fun j hj v hv hvw => ?_
    rw [hinfo j hj] at hv
    obtain rfl := destWrites_lane hd (lt_of_hasLane hj) (lt_of_hasLane hl) hv hw hvw
    rw [destWrites_inj hv hw hvw]
  · obtain ⟨n, rfl⟩ : ∃ n, d = .s n := by simpa using hd
    obtain ⟨r, hr⟩ : ∃ r, lanes m = l :: r := by
      cases hm : lanes m with
      | nil => simp [keptBy, hm] at hl
      | cons a r =>
        have : l = a := by simpa [keptBy, hm] using hl
        exact ⟨r, by rw [this]⟩
    have hin : hasLane m l = true := mem_lanes.1 (hr ▸ List.mem_cons_self)
    rw [reg_leaveLanes, hr, List.reverse_cons, List.flatMap_append, Troupe.setRegs_append, List.flatMap_singleton, hinfo l hin]
    exact Troupe.reg_setRegs_of_mem _ (nodup_keys_destWrites _ _ _ _) _ hw

theorem reg_keptBy {k : Nat} (hk : k ∉ (keptBy d (lanes m)).flatMap fun l => (destWrites wide d l 0).map Prod.fst) :
    ((leaveLanes s t m val).troupe t).reg k = (s.troupe t).reg k := by
  refine reg_leaveLanes_other fun l hl hkl => hk ?_
  rw [hinfo l hl, keys_destWrites] at hkl
  by_cases hd : ∀ n, d ≠ .s n
  · rw [keptBy_of_ne hd]
    exact List.mem_flatMap.2 ⟨l, mem_lanes.2 hl, hkl⟩
  · obtain ⟨n, rfl⟩ : ∃ n, d = .s n := by simpa using hd
    cases hm : lanes m with
    | nil => exact absurd (hm ▸ mem_lanes.2 hl) List.not_mem_nil
    | cons a r => exact List.mem_flatMap.2 ⟨a, by simp [keptBy], hkl⟩

end

/-! ### The issue of an `.all` instruction -/

/-- The state in which the bundle's lanes have come to an `.all`: Active waits there, the others have reached it. -/
def allEntered (i : Instr) (ty : Ty) (d : Opd) (x : Nat → Dword) (c : Ctx) (s : State) : State :=
  let s1 := s.mapLanes c.t c.act fun l th => th.waitAt c.hdr d ty (.all i (x l))
  s1.setTroupe c.t { s1.troupe c.t with
    reached := tset (s1.troupe c.t).reached 0 c.pc.toNat ((s1.troupe c.t).reachedAt c.pc ||| c.mask &&& ~~~c.act) }

theorem troupeWide_all (i : Instr) (ty : Ty) (d : Opd) (x : State → Ctx → Nat → Dword) (c : Ctx) (s : State) :
    troupeWide i .all ty d x c s = .ctl (allCheckAt (allEntered i ty d (x s c) c s) c.t c.pc) := rfl

end Sys2Proof.Machine
end

section
/-! SUPPORT. The issue of an `.all` instruction, where threads are still to come and where all are there, and the statement on
troupe-wide instructions (R55, R270-R273). -/

namespace Sys2Proof.Machine

open Sys2Proof

/-! ### A bundle has come to an `.all` -/

section
variable (i : Instr) (ty : Ty) (d : Opd) (x : Nat → Dword) (c : Ctx) (s : State)

theorem thread_allEntered (l : Nat) : (allEntered i ty d x c s).thread c.t l =
    if hasLane c.act l then (s.thread c.t l).waitAt c.hdr d ty (.all i (x l)) else s.thread c.t l := by
  unfold allEntered
  rw [State.thread, State.troupe_setTroupe_self]
  exact thread_mapLanes s c.t c.act _ l

theorem onlyTroupe_allEntered : OnlyTroupe c.t s (allEntered i ty d x c s) :=
  onlyTroupe_setTroupe (onlyTroupe_mapLanes ⟨rfl, fun _ _ => rfl, fun _ => rfl⟩ _ _) _

theorem troupe_allEntered : { (allEntered i ty d x c s).troupe c.t with
    threads := (s.troupe c.t).threads, reached := (s.troupe c.t).reached } = s.troupe c.t := by
  unfold allEntered
  rw [State.troupe_setTroupe_self]
  have h := troupe_mapLanes_rest s c.t c.act fun l th => th.waitAt c.hdr d ty (.all i (x l))
  exact (congrArg (fun y : Troupe => { y with reached := (s.troupe c.t).reached }) h :)

theorem reachedAt_allEntered : ((allEntered i ty d x c s).troupe c.t).reachedAt c.pc =
    (s.troupe c.t).reachedAt c.pc ||| c.mask &&& ~~~c.act := by
  have h := troupe_mapLanes_rest s c.t c.act fun l th => th.waitAt c.hdr d ty (.all i (x l))
  have hr : ((s.mapLanes c.t c.act fun l th => th.waitAt c.hdr d ty (.all i (x l))).troupe c.t).reached =
      (s.troupe c.t).reached := (congrArg Troupe.reached h :)
  unfold allEntered
  rw [State.troupe_setTroupe_self]
  unfold Troupe.reachedAt
  rw [tget_tset, if_pos rfl, hr]

theorem contribution_allEntered (l : Nat) : ((allEntered i ty d x c s).thread c.t l).contribution =
    if hasLane c.act l then x l else (s.thread c.t l).contribution := by
  rw [thread_allEntered]
  split <;> rfl

end

theorem waitsAll_waitAt {th : Thread} {h : Hdr} {d : Opd} {ty : Ty} {i : Instr} {v : Dword} {pc : Word} (hpc : th.pc = pc) :
    (th.waitAt h d ty (.all i v)).waitsAll pc = true := by
  simp [Thread.waitsAll, Thread.waitAt, hpc]

theorem waitsAll_of_ready {th : Thread} {pc : Word} (h : th.st = .ready) : th.waitsAll pc = false := by
  simp [Thread.waitsAll, h]

/-- A bundle that issues an `.all` instruction: its threads are READY at the instruction's PC, and some are active. -/
structure AllIssue (c : Ctx) (s : State) : Prop where
  awake  : Awake c s
  active : c.act ≠ 0
  atPc   : ∀ l, hasLane c.mask l = true → (s.thread c.t l).pc = c.pc
  within : ∀ l, hasLane c.act l = true → hasLane c.mask l = true

section
variable {i : Instr} {ty : Ty} {d : Opd} {x : Nat → Dword} {c : Ctx} {s : State} (h : AllIssue c s)
include h

theorem waits_allEntered (l : Nat) : ((allEntered i ty d x c s).thread c.t l).waitsAll c.pc =
    (hasLane c.act l || (s.thread c.t l).waitsAll c.pc) := by
  rw [thread_allEntered]
  by_cases ha : hasLane c.act l = true
  · rw [if_pos ha, ha, waitsAll_waitAt (h.atPc l (h.within l ha)), Bool.true_or]
  · rw [if_neg ha, Bool.not_eq_true] at *
    rw [ha, Bool.false_or]

theorem hasLane_waiting_allEntered {l : Nat} : hasLane (allWaiting (allEntered i ty d x c s) c.t c.pc) l = true ↔
    l < 32 ∧ (hasLane c.act l = true ∨ (s.thread c.t l).waitsAll c.pc = true) := by
  rw [hasLane_allWaiting, waits_allEntered h, Bool.or_eq_true]

theorem lanes_waiting_allEntered : lanes (allWaiting (allEntered i ty d x c s) c.t c.pc) =
    (List.range 32).filter fun l => hasLane c.act l || (s.thread c.t l).waitsAll c.pc := by
  refine List.filter_congr fun l hl => ?_
  have hiff := hasLane_waiting_allEntered (i := i) (ty := ty) (d := d) (x := x) h (l := l)
  rw [Bool.eq_iff_iff, Bool.or_eq_true]
  exact hiff.trans (and_iff_right (List.mem_range.1 hl))

theorem hasLane_liveNonHeld_allEntered {l : Nat} : hasLane ((allEntered i ty d x c s).troupe c.t).liveNonHeld l = true ↔
    l < 32 ∧ (s.thread c.t l).st ≠ .drained ∧ (s.thread c.t l).st ≠ .held := by
  rw [hasLane_liveNonHeld]
  refine and_congr_right fun _ => ?_
  have hth := thread_allEntered i ty d x c s l
  rw [State.thread] at hth
  rw [hth]
  split
  · rename_i ha
    rw [h.awake l (h.within l ha)]
    simp [Thread.waitAt]
  · rfl

theorem allThere_allEntered : AllThere (allEntered i ty d x c s) c.t c.pc ↔ ∀ l, (l < 32 ∧ (s.thread c.t l).st ≠ .drained ∧
    (s.thread c.t l).st ≠ .held) → (s.thread c.t l).waitsAll c.pc = true ∨ hasLane ((s.troupe c.t).reachedAt c.pc) l = true ∨
      hasLane c.mask l = true := by
  refine forall_congr' fun l => ?_
  rw [hasLane_liveNonHeld_allEntered h]
  refine imp_congr_right fun hl => ?_
  rw [hasLane_waiting_allEntered h, reachedAt_allEntered, hasLane_or, hasLane_diff]
  by_cases ha : hasLane c.act l = true
  · simp [ha, h.within l ha, hl.1]
  · simp [ha, hl.1]

/-- Where some thread is still to come, Active waits and the others have reached the `.all`. -/
theorem all_open (hopen : ∃ l, (l < 32 ∧ (s.thread c.t l).st ≠ .drained ∧ (s.thread c.t l).st ≠ .held) ∧
      (s.thread c.t l).waitsAll c.pc = false ∧ hasLane ((s.troupe c.t).reachedAt c.pc) l = false ∧ hasLane c.mask l = false) :
    let t := finish c (.ctl (allCheckAt (allEntered i ty d x c s) c.t c.pc))
    OnlyTroupe c.t s t ∧ (∀ k, (t.troupe c.t).reg k = (s.troupe c.t).reg k) ∧
      (∀ l, t.thread c.t l = if hasLane c.act l then (s.thread c.t l).waitAt c.hdr d ty (.all i (x l))
        else if hasLane c.mask l then (s.thread c.t l).advance c.hdr else s.thread c.t l) ∧
      ∀ l, hasLane ((t.troupe c.t).reachedAt c.pc) l =
        (hasLane ((s.troupe c.t).reachedAt c.pc) l || hasLane c.mask l && !hasLane c.act l) := by
  have hnot : ¬AllThere (allEntered i ty d x c s) c.t c.pc := by
    obtain ⟨l, hl, h1, h2, h3⟩ := hopen
    rw [allThere_allEntered h]
    intro hall
    simpa [h1, h2, h3] using hall l hl
  rw [allCheckAt_open hnot]
  have hrest := troupe_allEntered i ty d x c s
  refine ⟨onlyTroupe_mapLanes (onlyTroupe_allEntered i ty d x c s) _ _, fun k => ?_, fun l => ?_, fun l => ?_⟩
  · rw [finish, State.troupe_mapLanes_self, Troupe.reg_mapLanes]
    exact (congrArg (fun y : Troupe => y.reg k) hrest :)
  · rw [finish, thread_mapLanes, thread_allEntered, hasLane_diff]
    by_cases ha : hasLane c.act l = true
    · simp [ha]
    · simp [ha]
  · have hr : ((finish c (.ctl (allEntered i ty d x c s))).troupe c.t).reachedAt c.pc =
        ((allEntered i ty d x c s).troupe c.t).reachedAt c.pc := by
      rw [finish, State.troupe_mapLanes_self]
      exact (congrArg (fun y : Troupe => y.reachedAt c.pc) (Troupe.mapLanes_rest _ _ _) :)
    rw [hr, reachedAt_allEntered, hasLane_or, hasLane_diff]

theorem waiting_allEntered_ne_zero : allWaiting (allEntered i ty d x c s) c.t c.pc ≠ 0 := by
  obtain ⟨hlow, -⟩ := lowLane_spec h.active
  have hin := (hasLane_waiting_allEntered (i := i) (ty := ty) (d := d) (x := x) h).2 ⟨lt_of_hasLane hlow, .inl hlow⟩
  intro h0
  rw [h0] at hin
  simp [hasLane] at hin

end

/-- Every thread that waits in the `.all` waits in `i`, with destination `d` of TYPE `ty`. -/
def SameAll (i : Instr) (ty : Ty) (d : Opd) (c : Ctx) (s : State) : Prop :=
  ∀ l < 32, (s.thread c.t l).waitsAll c.pc = true →
    (∃ v, (s.thread c.t l).wait = .all i v) ∧ (s.thread c.t l).info.d = d ∧ (s.thread c.t l).info.ty = ty

section
variable {i : Instr} {ty : Ty} {d : Opd} {x : Nat → Dword} {c : Ctx} {s : State} (h : AllIssue c s) (hsame : SameAll i ty d c s)
include h hsame

theorem sameAll_allEntered {l : Nat} (hl : hasLane (allWaiting (allEntered i ty d x c s) c.t c.pc) l = true) :
    (∃ v, ((allEntered i ty d x c s).thread c.t l).wait = .all i v) ∧ ((allEntered i ty d x c s).thread c.t l).info.d = d ∧
      ((allEntered i ty d x c s).thread c.t l).info.ty = ty := by
  obtain ⟨hlt, hw⟩ := (hasLane_waiting_allEntered h).1 hl
  rw [thread_allEntered]
  split
  · exact ⟨⟨_, rfl⟩, rfl, rfl⟩
  · rename_i ha
    exact hsame l hlt (hw.resolve_left ha)

/-- The participants of the `.all`: those of Active, and those that waited. -/
theorem allCheckAt_allEntered (hthere : AllThere (allEntered i ty d x c s) c.t c.pc) :
    let z := allEntered i ty d x c s
    let m := allWaiting z c.t c.pc
    allCheckAt z c.t c.pc = bundleByPc (leaveLanes (z.setTroupe c.t { z.troupe c.t with
      reached := terase (z.troupe c.t).reached c.pc.toNat }) c.t m (wideResult i ((lanes m).map fun l =>
        (l, if hasLane c.act l then x l else (s.thread c.t l).contribution)))) c.t m := by
  intro z m
  obtain ⟨hlow, -⟩ := lowLane_spec (waiting_allEntered_ne_zero (i := i) (ty := ty) (d := d) (x := x) h)
  obtain ⟨⟨v, hv⟩, -, -⟩ := sameAll_allEntered h hsame hlow
  rw [allCheckAt_complete hthere (waiting_allEntered_ne_zero h) hv]
  simp only [contribution_allEntered]
  rfl

end

/-- Lanes `m` of an entered `.all` leave it with their results, and it is over. -/
def allLeft (z : State) (c : Ctx) (m : Mask) (val : Nat → Dword) : State :=
  finish c (.ctl (bundleByPc (leaveLanes (z.setTroupe c.t { z.troupe c.t with
    reached := terase (z.troupe c.t).reached c.pc.toNat }) c.t m val) c.t m))

section
variable (z : State) (c : Ctx) (m : Mask) (val : Nat → Dword)

theorem allLeft_mem : (allLeft z c m val).mem = z.mem := by
  unfold allLeft
  exact bundleByPc_mem _ _ _

theorem troupe_allLeft_ne {v : Nat} (hv : v ≠ c.t) : (allLeft z c m val).troupe v = z.troupe v := by
  unfold allLeft finish
  dsimp only
  rw [State.troupe_mapLanes_ne _ _ _ hv, troupe_bundleByPc, troupe_leaveLanes_ne _ _ _ hv, State.troupe_setTroupe_ne _ _ hv]

theorem thread_allLeft (l : Nat) : (allLeft z c m val).thread c.t l =
    if hasLane c.mask l && !hasLane c.act l then (if hasLane m l then (z.thread c.t l).left else z.thread c.t l).advance c.hdr
    else if hasLane m l then (z.thread c.t l).left else z.thread c.t l := by
  have hset : (z.setTroupe c.t { z.troupe c.t with reached := terase (z.troupe c.t).reached c.pc.toNat }).thread c.t l =
      z.thread c.t l := by
    rw [State.thread, State.troupe_setTroupe_self]
    rfl
  unfold allLeft finish
  dsimp only
  rw [thread_mapLanes, thread_bundleByPc, thread_leaveLanes, hset, hasLane_diff]

theorem reg_allLeft (k : Nat) : ((allLeft z c m val).troupe c.t).reg k =
    ((leaveLanes (z.setTroupe c.t { z.troupe c.t with reached := terase (z.troupe c.t).reached c.pc.toNat }) c.t m val).troupe
      c.t).reg k := by
  unfold allLeft finish
  dsimp only
  rw [State.troupe_mapLanes_self, Troupe.reg_mapLanes, troupe_bundleByPc]

theorem reachedAt_allLeft : ((allLeft z c m val).troupe c.t).reachedAt c.pc = 0 := by
  have h1 := troupe_leaveLanes_rest (z.setTroupe c.t { z.troupe c.t with
    reached := terase (z.troupe c.t).reached c.pc.toNat }) c.t m val
  rw [State.troupe_setTroupe_self] at h1
  unfold allLeft finish
  dsimp only
  rw [State.troupe_mapLanes_self, troupe_bundleByPc]
  have h2 := congrArg Troupe.reached (Troupe.mapLanes_rest ((leaveLanes (z.setTroupe c.t { z.troupe c.t with
    reached := terase (z.troupe c.t).reached c.pc.toNat }) c.t m val).troupe c.t) (c.mask &&& ~~~c.act) fun _ th => th.advance c.hdr)
  unfold Troupe.reachedAt
  rw [(h2 :), (congrArg Troupe.reached h1 :)]
  exact tget_terase_self _ _ _

end

/-! ### The completion -/

section
variable {i : Instr} {ty : Ty} {d : Opd} {x : Nat → Dword} {c : Ctx} {s : State} (h : AllIssue c s) (hsame : SameAll i ty d c s)
include h hsame

/-- What a lane writes as it leaves the `.all`: its result, to the one destination. -/
theorem leaveWrites_allEntered {val : Nat → Dword} {l : Nat}
    (hl : hasLane (allWaiting (allEntered i ty d x c s) c.t c.pc) l = true) :
    leaveWrites (((allEntered i ty d x c s).setTroupe c.t { (allEntered i ty d x c s).troupe c.t with
      reached := terase ((allEntered i ty d x c s).troupe c.t).reached c.pc.toNat }).troupe c.t) val l =
        destWrites (Ty.wide ty) d l (val l) := by
  obtain ⟨-, hd, hty⟩ := sameAll_allEntered h hsame hl
  rw [State.troupe_setTroupe_self]
  change destWrites (Ty.wide ((allEntered i ty d x c s).thread c.t l).info.ty) ((allEntered i ty d x c s).thread c.t l).info.d l _ = _
  rw [hd, hty]

/-- Where all are there, the `.all` completes for Active with those that waited before. -/
theorem all_complete (hthere : AllThere (allEntered i ty d x c s) c.t c.pc) :
    let m := allWaiting (allEntered i ty d x c s) c.t c.pc
    let xs := (lanes m).map fun l => (l, if hasLane c.act l then x l else (s.thread c.t l).contribution)
    let t := finish c (.ctl (allCheckAt (allEntered i ty d x c s) c.t c.pc))
    (∀ y, t.mem.byte y = s.mem.byte y) ∧ (∀ v, v ≠ c.t → t.troupe v = s.troupe v) ∧
      (∀ l ∈ keptBy d (lanes m), Gets (t.troupe c.t) (Ty.wide ty) d l (wideResult i xs l)) ∧
      (∀ k, k ∉ ((keptBy d (lanes m)).flatMap fun l => (destWrites (Ty.wide ty) d l 0).map Prod.fst) →
        (t.troupe c.t).reg k = (s.troupe c.t).reg k) ∧
      (∀ l < 32, t.thread c.t l = if hasLane c.act l then ((s.thread c.t l).waitAt c.hdr d ty (.all i (x l))).left
        else if (s.thread c.t l).waitsAll c.pc then (s.thread c.t l).left
        else if hasLane c.mask l then (s.thread c.t l).advance c.hdr else s.thread c.t l) ∧
      (t.troupe c.t).reachedAt c.pc = 0 := by
  intro m xs t
  have ht : t = allLeft (allEntered i ty d x c s) c m (wideResult i xs) :=
    congrArg (fun y => finish c (.ctl y)) (allCheckAt_allEntered h hsame hthere)
  have hout := onlyTroupe_allEntered i ty d x c s
  rw [ht]
  refine ⟨fun y => ?_, fun v hv => ?_, fun l hl w hw => ?_, fun k hk => ?_, fun l hl => ?_, reachedAt_allLeft _ _ _ _⟩
  · rw [allLeft_mem, hout.bytes]
  · rw [troupe_allLeft_ne _ _ _ _ hv, hout.others v hv]
  · rw [reg_allLeft]
    exact gets_keptBy (fun j hj => leaveWrites_allEntered h hsame hj) hl w hw
  · rw [reg_allLeft, reg_keptBy (fun j hj => leaveWrites_allEntered h hsame hj) hk, State.troupe_setTroupe_self]
    exact (congrArg (fun y : Troupe => y.reg k) (troupe_allEntered i ty d x c s) :)
  · have hm : hasLane m l = (hasLane c.act l || (s.thread c.t l).waitsAll c.pc) := by
      rw [Bool.eq_iff_iff, hasLane_waiting_allEntered h, Bool.or_eq_true]
      exact and_iff_right hl
    rw [thread_allLeft, hm, thread_allEntered]
    by_cases ha : hasLane c.act l = true
    · simp [ha]
    · by_cases hin : hasLane c.mask l = true
      · simp [ha, hin, waitsAll_of_ready (h.awake l hin)]
      · simp [ha, hin]

end

theorem OnlyTroupe.trans {u : Nat} {s t r : State} (h : OnlyTroupe u s t) (k : OnlyTroupe u t r) : OnlyTroupe u s r where
  rest := by
    have h1 := congrArg (fun x : State => { x with troupes := s.troupes, picks := s.picks, nextId := s.nextId }) k.rest
    exact (h1 :).trans h.rest
  others v hv := (k.others v hv).trans (h.others v hv)
  bytes y := (k.bytes y).trans (h.bytes y)

/-- What the issue of an `.all` instruction comes to. -/
theorem exec_all {i : Instr} {ty : Ty} {d : Opd} {x : State → Ctx → Nat → Dword} {c : Ctx} {s : State} (hi : Issues i s c)
    (hex : exec i s = issue i s (troupeWide i .all ty d x)) :
    exec i s = .next (finish c (.ctl (allCheckAt (allEntered i ty d (x s.begun c) c s.begun) c.t c.pc))) := by
  rw [hex, issue_next hi, troupeWide_all]

/-- The statement's reading of one `.all` instruction. -/
theorem all_spec {i : Instr} {ty : Ty} {d : Opd} {x : State → Ctx → Nat → Dword} {c : Ctx} {s : State} (hawake : Awake c s)
    (hact : c.act ≠ 0) (hpc : ∀ l, hasLane c.mask l = true → (s.thread c.t l).pc = c.pc)
    (hex : exec i s = issue i s (troupeWide i .all ty d x)) (hi : Issues i s c) :
    let R := (s.troupe c.t).reachedAt c.pc
    let waits := fun l => (s.thread c.t l).waitsAll c.pc
    let expected := fun l => l < 32 ∧ (s.thread c.t l).st ≠ .drained ∧ (s.thread c.t l).st ≠ .held
    ((∃ l, expected l ∧ waits l = false ∧ hasLane R l = false ∧ hasLane c.mask l = false) →
         ∃ t, exec i s = .next t ∧ OnlyTroupe c.t s t ∧ (∀ k, (t.troupe c.t).reg k = (s.troupe c.t).reg k) ∧
           (∀ l, t.thread c.t l = if hasLane c.act l then (s.thread c.t l).waitAt c.hdr d ty (.all i (x s.begun c l))
             else if hasLane c.mask l then (s.thread c.t l).advance c.hdr else s.thread c.t l) ∧
           ∀ l, hasLane ((t.troupe c.t).reachedAt c.pc) l = (hasLane R l || hasLane c.mask l && !hasLane c.act l)) ∧
       ((∀ l, expected l → waits l = true ∨ hasLane R l = true ∨ hasLane c.mask l = true) →
         (∀ l < 32, waits l = true → (∃ v, (s.thread c.t l).wait = .all i v) ∧
           (s.thread c.t l).info.d = d ∧ (s.thread c.t l).info.ty = ty) →
         let ps := (List.range 32).filter fun l => hasLane c.act l || waits l
         let xs := ps.map fun l => (l, if hasLane c.act l then x s.begun c l else (s.thread c.t l).contribution)
         let gets := keptBy d ps
         ∃ t, exec i s = .next t ∧ (∀ y, t.mem.byte y = s.mem.byte y) ∧ (∀ v, v ≠ c.t → t.troupe v = s.troupe v) ∧
           (∀ l ∈ gets, Gets (t.troupe c.t) (Ty.wide ty) d l (wideResult i xs l)) ∧
           (∀ k, k ∉ (gets.flatMap fun l => (destWrites (Ty.wide ty) d l 0).map Prod.fst) →
             (t.troupe c.t).reg k = (s.troupe c.t).reg k) ∧
           (∀ l < 32, t.thread c.t l = if hasLane c.act l then ((s.thread c.t l).waitAt c.hdr d ty (.all i (x s.begun c l))).left
             else if waits l then (s.thread c.t l).left
             else if hasLane c.mask l then (s.thread c.t l).advance c.hdr else s.thread c.t l) ∧
           (t.troupe c.t).reachedAt c.pc = 0) := by
  have h : AllIssue c s.begun := ⟨hawake, hact, hpc, fun l hl => hi.act_le hl⟩
  intro R waits expected
  refine ⟨fun hopen => ⟨_, exec_all hi hex, ?_⟩, fun hall hsame => ?_⟩
  · obtain ⟨hout, hrest⟩ := all_open (i := i) (ty := ty) (d := d) (x := x s.begun c) h hopen
    exact ⟨(onlyTroupe_begun c.t s).trans hout, hrest⟩
  · intro ps xs gets
    refine ⟨_, exec_all hi hex, ?_⟩
    have hdone := all_complete (x := x s.begun c) h hsame ((allThere_allEntered h).2 hall)
    have hps : lanes (allWaiting (allEntered i ty d (x s.begun c) c s.begun) c.t c.pc) = ps := lanes_waiting_allEntered h
    dsimp only at hdone
    rw [hps] at hdone
    exact hdone

/-- Settles O21: within the bundle each lane gets the result over those it shares it with, and an `.all` stays open until
all are there, then leaves as one. -/
theorem troupeWide_holds : Obligations.TroupeWide := by
  refine ⟨?_, ?_⟩
  · intro h sc d a s c hsc hfree part parts
    refine ⟨fun k hi => ?_, fun ty op hi hint hw => ?_, fun op hi => ?_, fun ty op excl hi => ?_, fun ty hi => ?_⟩
    · obtain ⟨t, ht, hnow⟩ := vote_now hsc hfree hi
      refine ⟨t, ht, hnow.mono fun l hl x hx => ?_⟩
      have hspec := vote_spec hx
      simp only [mem_sharing] at hspec
      cases k <;> exact hspec
    · obtain ⟨t, ht, hnow⟩ := tred_now hsc hfree hi
      refine ⟨t, ht, hnow.mono fun l hl x hx => ?_⟩
      have hspec := tred_spec hint hw hl hx
      simp only [mem_sharing] at hspec
      cases op <;> exact hspec
    · exact tred_now hsc hfree hi
    · obtain ⟨t, ht, hnow⟩ := tscan_now hsc hfree hi
      exact ⟨t, ht, hnow.mono fun l hl x hx => tscan_spec hx⟩
    · obtain ⟨t, ht, hnow⟩ := matchv_now hsc hfree hi
      refine ⟨t, ht, hnow.mono fun l hl x hx => ?_⟩
      simpa only [mem_sharing] using hx
  · intro h d a s c hawake hact hpc R waits expected all
    exact ⟨fun k => all_spec hawake hact hpc (exec_vote s), fun op ty => all_spec hawake hact hpc (exec_tred s),
      fun ty op excl => all_spec hawake hact hpc (exec_tscan s), fun ty => all_spec hawake hact hpc (exec_matchv s)⟩

end Sys2Proof.Machine
end

section
/-! SUPPORT. What homes and reports leave of a state, and what a draw of an item leaves (R43-R46, R364). -/

namespace Sys2Proof.Machine

open Sys2Proof

/-! ### The side of the homes -/

/-- Nothing but memory, what waits at homes, queues, tiles, ports, what is sent and the ids changes. -/
def HomeSide (s z : State) : Prop :=
  { z with
    mem := s.mem, poison := s.poison, wrBy := s.wrBy, accs := s.accs, queues := s.queues, tiles := s.tiles, marks := s.marks
    ports := s.ports, out := s.out, nextId := s.nextId } = s

namespace HomeSide

theorem refl (s : State) : HomeSide s s := rfl

theorem trans {s z y : State} (h : HomeSide s z) (k : HomeSide z y) : HomeSide s y := by
  have h1 := congrArg (fun x : State => { x with
    mem := s.mem, poison := s.poison, wrBy := s.wrBy, accs := s.accs, queues := s.queues, tiles := s.tiles, marks := s.marks
    ports := s.ports, out := s.out, nextId := s.nextId }) k
  exact (h1 :).trans h

theorem foldl {X : Type} {f : State → X → State} (h : ∀ z x, HomeSide z (f z x)) (xs : List X) (s : State) :
    HomeSide s (xs.foldl f s) := by
  induction xs generalizing s with
  | nil => exact refl s
  | cons x r ih => exact (h s x).trans (ih (f s x))

section
variable {s z : State} (h : HomeSide s z)
include h

theorem troupes : z.troupes = s.troupes := (congrArg State.troupes h :)
theorem companies : z.companies = s.companies := (congrArg State.companies h :)
theorem runs : z.runs = s.runs := (congrArg State.runs h :)
theorem troupe (t : Nat) : z.troupe t = s.troupe t := congrArg (fun x => tget x Troupe.absent t) h.troupes
theorem thread (t l : Nat) : z.thread t l = s.thread t l := congrArg (fun x : Troupe => x.thread l) (h.troupe t)
theorem company (c : Nat) : z.company c = s.company c := congrArg (fun x => tget x Company.absent c) h.companies
theorem run (k : Nat) : z.run k = s.run k := congrArg (fun x => tget x Run.absent k) h.runs

end

end HomeSide

theorem homeSide_addAcc (s : State) (a : Access) : HomeSide s (addAcc s a) := rfl
theorem homeSide_setQueue (s : State) (q : Nat) (x : Queue) : HomeSide s (s.setQueue q x) := rfl

theorem homeSide_consume (s : State) (w : Who) (run : Option Nat) (addr : Dword) (a n : Nat) :
    HomeSide s (consume s w run addr a n) := by
  have h := consume_rest s w run addr a n
  exact (congrArg (fun x : State => { x with
    mem := s.mem, poison := s.poison, wrBy := s.wrBy, queues := s.queues, tiles := s.tiles, marks := s.marks, out := s.out }) h :)

theorem homeSide_consumeFor (s : State) (run : Option Nat) (rs : List (Nat × Nat)) : HomeSide s (consumeFor s run rs) :=
  HomeSide.foldl (fun z _ => homeSide_consume z _ _ _ _ _) _ s

theorem homeSide_hwakeFire (old s : State) (a n : Nat) : HomeSide s (hwakeFire old s a n) := by
  refine HomeSide.foldl (fun z h => ?_) _ s
  dsimp only
  split
  · unfold sendVector
    dsimp only
    split <;> rfl
  · rfl

theorem homeSide_homeWrite (s : State) (w : Who) (a : Nat) (bs : List Byte) : HomeSide s (homeWrite s w a bs) := by
  unfold homeWrite
  split
  · rfl
  · exact HomeSide.trans (z := { s with
      mem := (scrub s a bs.length).setBytes a bs
      poison := s.poison.filter fun p => !overlaps a bs.length (8 * p) 8
      wrBy := noteWriter s w a bs.length
      accs := s.accs.map (reexamine ((scrub s a bs.length).setBytes a bs) a bs.length)
      queues := s.queues.map fun q => (q.1, reexamineQueue ((scrub s a bs.length).setBytes a bs) a bs.length q.2) })
      rfl (homeSide_hwakeFire s _ a bs.length)

theorem homeSide_markNow (n : Nat) : ∀ (s : State) (ms : List (Nat × Nat)), HomeSide s (markNow n s ms) := by
  induction n with
  | zero => exact fun s _ => HomeSide.refl s
  | succ n ih =>
    intro s ms
    refine HomeSide.foldl (fun z m => ?_) ms s
    dsimp only
    split
    · exact HomeSide.trans (z := (bump z (sliceCounter (z.entry m.1).home 0x10) 1).setTile m.1 m.2
        { z.tile m.1 m.2 with st := .stale }) rfl (ih _ _)
    · rfl
    · rfl

theorem homeSide_deqAt (s : State) (w : Who) (a : Nat) : HomeSide s (deqAt s w a).1 := by
  unfold deqAt
  dsimp only
  split
  · rfl
  · split
    · rfl
    · exact homeSide_homeWrite s w a _

theorem homeSide_nodeDeq (s : State) (t l q : Nat) : HomeSide s (nodeDeq s t l q).1 := by
  unfold nodeDeq
  dsimp only
  split
  · rfl
  · exact ((homeSide_consumeFor s _ _).trans (homeSide_markNow 4 _ _)).trans (homeSide_deqAt _ _ _)

theorem homeSide_enterParts (n : Nat) : ∀ (s : State) (a : Nat) (bs : List Byte), HomeSide s (enterParts n s a bs) := by
  induction n with
  | zero => exact fun s _ _ => HomeSide.refl s
  | succ n ih =>
    intro s a bs
    unfold enterParts
    split
    · rfl
    · exact (homeSide_addAcc s _).trans (ih _ _ _)

theorem homeSide_deviceWrite (s : State) (a : Nat) (bs : List Byte) : HomeSide s (deviceWrite s a bs) := by
  unfold deviceWrite
  split
  · rfl
  · split
    · exact homeSide_enterParts _ _ _ _
    · split
      · rfl
      · exact (homeSide_markNow 4 s _).trans (homeSide_homeWrite _ _ _ _)

/-! ### Retirement of packets, completion of runs -/

theorem homeSide_putField (s : State) (q off x : Nat) (rel : Bool) (after : List Nat) :
    HomeSide s (putField s q off x rel after) := by
  unfold putField
  dsimp only
  split
  · exact homeSide_deviceWrite _ _ _
  · exact homeSide_addAcc _ _

theorem homeSide_retireNow (s : State) (q n : Nat) : HomeSide s (retireNow s q n) := by
  unfold retireNow
  dsimp only
  split
  · rfl
  · exact (homeSide_setQueue s q _).trans (homeSide_putField _ _ _ _ _ _)

theorem homeSide_retirePacket (s : State) (q n epoch : Nat) : HomeSide s (retirePacket s q n epoch) := by
  unfold retirePacket
  dsimp only
  split
  · rfl
  · split
    · exact homeSide_retireNow _ _ _
    · split
      · exact (homeSide_setQueue s q _).trans (homeSide_retireNow _ _ _)
      · rfl

/-- The completion of a run changes runs and the side of the homes. -/
theorem completeCheck_rest (fuel : Nat) : ∀ (s : State) (k : Nat), HomeSide s { completeCheck fuel s k with runs := s.runs } := by
  induction fuel with
  | zero => exact fun s _ => HomeSide.refl s
  | succ n ih =>
    intro s k
    unfold completeCheck
    split
    · rfl
    · dsimp only
      generalize hs2 : retirePacket _ (s.run k).queue (s.run k).packet (s.run k).epoch = s2
      have h2 : HomeSide s { s2 with runs := s.runs } := by
        rw [← hs2]
        have h := homeSide_retirePacket ((s.setRun k { s.run k with complete := true }).setQueue (s.run k).queue
          { s.queue (s.run k).queue with openRuns := (s.queue (s.run k).queue).openRuns.filter fun x => x != k })
          (s.run k).queue (s.run k).packet (s.run k).epoch
        have hr := congrArg (fun x : State => { x with runs := s.runs, queues := s.queues }) h
        exact hr
      split
      · rename_i p _
        have h3 := congrArg (fun x : State => { x with runs := s.runs }) (ih s2 p)
        exact h2.trans h3
      · exact h2

theorem completeRun_rest (s : State) (k : Nat) : HomeSide s { completeRun s k with runs := s.runs } := completeCheck_rest _ s k

/-! ### Draws -/

/-- A draw for a seat changes the counters of a run and of its company, the seat's own count of draws, and the side of the homes. -/
structure DrawOnly (t l : Nat) (s z : State) : Prop where
  rest      : HomeSide s { z with troupes := s.troupes, companies := s.companies, runs := s.runs }
  others    : ∀ u, u ≠ t → z.troupe u = s.troupe u
  troupe    : { z.troupe t with threads := (s.troupe t).threads } = s.troupe t
  threads   : ∀ j, j ≠ l → z.thread t j = s.thread t j
  seat      : { z.thread t l with draws := (s.thread t l).draws } = s.thread t l
  companies : ∀ c, { z.company c with admitted := (s.company c).admitted, counter := (s.company c).counter } = s.company c
  runs      : ∀ k, { z.run k with counter := (s.run k).counter, admitted := (s.run k).admitted } = s.run k

theorem drawOnly_of_homeSide {t l : Nat} {s z : State} (h : HomeSide s z) : DrawOnly t l s z where
  rest := (congrArg (fun x : State => { x with troupes := s.troupes, companies := s.companies, runs := s.runs }) h :)
  others u _ := h.troupe u
  troupe := by rw [h.troupe]
  threads j _ := h.thread t j
  seat := by rw [h.thread]
  companies c := by rw [h.company]
  runs k := by rw [h.run]

/-- A draw's counters rise. -/
theorem DrawOnly.updCompanyOf {t l : Nat} {s z : State} (h : DrawOnly t l s z) (f : Company → Company)
    (hf : ∀ c, { f c with admitted := c.admitted, counter := c.counter } = c) : DrawOnly t l s (z.updCompanyOf t f) where
  rest := h.rest
  others := h.others
  troupe := h.troupe
  threads := h.threads
  seat := h.seat
  companies c := by
    unfold State.updCompanyOf
    rw [State.company_setCompany]
    split
    · rename_i hc
      have h1 := congrArg (fun x : Company => { x with admitted := (s.company c).admitted, counter := (s.company c).counter })
        (hf (z.companyOf t))
      have h2 := h.companies c
      rw [hc] at h1 h2 ⊢
      exact (h1 :).trans h2
    · exact h.companies c
  runs := h.runs

theorem DrawOnly.updRunOf {t l : Nat} {s z : State} (h : DrawOnly t l s z) (f : Run → Run)
    (hf : ∀ r, { f r with counter := r.counter, admitted := r.admitted } = r) : DrawOnly t l s (z.updRunOf t f) where
  rest := h.rest
  others := h.others
  troupe := h.troupe
  threads := h.threads
  seat := h.seat
  companies := h.companies
  runs k := by
    unfold State.updRunOf
    rw [State.run_setRun]
    split
    · rename_i hk
      have h1 := congrArg (fun x : Run => { x with counter := (s.run k).counter, admitted := (s.run k).admitted })
        (hf (z.runOf t))
      have h2 := h.runs k
      rw [hk] at h1 h2 ⊢
      exact (h1 :).trans h2
    · exact h.runs k

theorem drawOnly_setThread (s : State) (t l n : Nat) : DrawOnly t l s (s.setThread t l { s.thread t l with draws := n }) where
  rest := rfl
  others u hu := State.troupe_setThread_ne _ _ _ hu
  troupe := by rw [State.troupe_setThread_self]; rfl
  threads j hj := by
    rw [State.thread, State.troupe_setThread_self, Troupe.thread_setThread_ne _ _ hj]
    rfl
  seat := by
    rw [State.thread, State.troupe_setThread_self, Troupe.thread_setThread_self]
  companies _ := rfl
  runs _ := rfl

theorem drawItem_only (s : State) (t l : Nat) : DrawOnly t l s (drawItem s t l).1 := by
  have hrefl : DrawOnly t l s s := drawOnly_of_homeSide (HomeSide.refl s)
  unfold drawItem
  dsimp only
  split
  · split
    · exact drawOnly_setThread s t l _
    · exact hrefl
  · split
    · split
      · exact (hrefl.updRunOf (fun r => { r with counter := r.counter + 1 }) fun _ => rfl).updCompanyOf
          (fun c => { c with admitted := c.admitted + 1 }) fun _ => rfl
      · exact hrefl
    · split
      · exact (hrefl.updCompanyOf (fun c => { c with counter := c.counter + 1 }) fun _ => rfl).updCompanyOf
          (fun c => { c with admitted := c.admitted + 1 }) fun _ => rfl
      · exact hrefl
    · split
      · exact hrefl
      · have hdeq := drawOnly_of_homeSide (t := t) (l := l) (homeSide_nodeDeq s t l (s.runOf t).nodeQ)
        split
        · exact hdeq.updRunOf (fun r => { r with admitted := r.admitted + 1 }) fun _ => rfl
        · exact hdeq

end Sys2Proof.Machine
end

section
/-! SUPPORT. A company that is set down: its troupes on their stages and their first draws (R41, R42, R357). -/

namespace Sys2Proof.Machine

open Sys2Proof

/-! ### First draws -/

/-- A troupe as placement leaves it on its stage: RESIDENT, its READY threads at the entry, or counted as retired. -/
structure Standing (entry : Word) (st : Nat) (tr : Troupe) : Prop where
  stage  : tr.stage = st
  status : tr.status = .retired ∨ tr.status = .resident ∧ ∀ l < 32, (tr.thread l).st = .ready → (tr.thread l).pc = entry

/-- First draws change counters, and of a standing troupe nothing that matters to it. -/
structure SeatsDrawn (s z : State) : Prop where
  rest      : HomeSide s { z with troupes := s.troupes, companies := s.companies, runs := s.runs }
  companies : ∀ c, { z.company c with admitted := (s.company c).admitted, counter := (s.company c).counter } = s.company c
  troupes   : ∀ t entry st, Standing entry st (s.troupe t) → Standing entry st (z.troupe t)

theorem SeatsDrawn.refl (s : State) : SeatsDrawn s s := ⟨HomeSide.refl s, fun _ => rfl, fun _ _ _ h => h⟩

theorem SeatsDrawn.trans {s z y : State} (h : SeatsDrawn s z) (k : SeatsDrawn z y) : SeatsDrawn s y where
  rest := by
    have h1 := congrArg (fun x : State => { x with troupes := s.troupes, companies := s.companies, runs := s.runs }) k.rest
    exact h.rest.trans h1
  companies c := by
    have h1 := congrArg (fun x : Company => { x with admitted := (s.company c).admitted, counter := (s.company c).counter })
      (k.companies c)
    exact (h1 :).trans (h.companies c)
  troupes t entry st hs := k.troupes t entry st (h.troupes t entry st hs)

theorem SeatsDrawn.foldl {X : Type} {f : State → X → State} (h : ∀ z x, SeatsDrawn z (f z x)) (xs : List X) (s : State) :
    SeatsDrawn s (xs.foldl f s) := by
  induction xs generalizing s with
  | nil => exact refl s
  | cons x r ih => exact (h s x).trans (ih (f s x))

/-- A troupe stands where its threads keep their state and PC, or leave READY. -/
theorem Standing.of_threads {entry : Word} {st : Nat} {a b : Troupe} (h : Standing entry st a)
    (hstage : b.stage = a.stage) (hstatus : b.status = a.status)
    (hth : ∀ l, (b.thread l).st = .ready → (a.thread l).st = .ready ∧ (b.thread l).pc = (a.thread l).pc) :
    Standing entry st b where
  stage := hstage.trans h.stage
  status := by
    rw [hstatus]
    refine h.status.imp_right fun ⟨hr, hpc⟩ => ⟨hr, fun l hl hready => ?_⟩
    obtain ⟨h1, h2⟩ := hth l hready
    exact h2.trans (hpc l hl h1)

theorem DrawOnly.standing {t l : Nat} {s z : State} (h : DrawOnly t l s z) {u : Nat} {entry : Word} {st : Nat}
    (hs : Standing entry st (s.troupe u)) : Standing entry st (z.troupe u) := by
  by_cases hu : u = t
  · subst hu
    refine hs.of_threads (congrArg Troupe.stage h.troupe :) (congrArg Troupe.status h.troupe :) fun j hj => ?_
    by_cases hjl : j = l
    · subst hjl
      have h1 : (z.thread u j).st = (s.thread u j).st := (congrArg Thread.st h.seat :)
      have h2 : (z.thread u j).pc = (s.thread u j).pc := (congrArg Thread.pc h.seat :)
      exact ⟨h1 ▸ hj, h2⟩
    · have h1 : (z.troupe u).thread j = (s.troupe u).thread j := h.threads j hjl
      rw [h1] at hj ⊢
      exact ⟨hj, rfl⟩
  · rw [h.others u hu]
    exact hs

theorem seatsDrawn_firstDraw (t : Nat) (s : State) (l : Nat) : SeatsDrawn s (firstDraw t s l) := by
  have hd := drawItem_only s t l
  have hdrawn : SeatsDrawn s (drawItem s t l).1 := ⟨hd.rest, hd.companies, fun _ _ _ hs => hd.standing hs⟩
  unfold firstDraw
  dsimp only
  generalize drawItem s t l = d at hdrawn
  split
  · rename_i x _
    refine hdrawn.trans ⟨rfl, fun _ => rfl, fun u entry st hs => ?_⟩
    by_cases hu : u = t
    · subst hu
      rw [State.troupe_setThread_self]
      refine hs.of_threads rfl rfl fun j hj => ?_
      rw [Troupe.thread_setThread] at hj ⊢
      split at hj
      · rename_i hjl
        subst hjl
        rw [if_pos rfl]
        exact ⟨hj, rfl⟩
      · rename_i hjl
        rw [if_neg hjl]
        exact ⟨hj, rfl⟩
    · rw [State.troupe_setThread_ne _ _ _ hu]
      exact hs
  · refine hdrawn.trans ⟨rfl, fun _ => rfl, fun u entry st hs => ?_⟩
    have hseat := seatOnly_drainLane d.1 t l
    by_cases hu : u = t
    · subst hu
      refine hs.of_threads (congrArg Troupe.stage hseat.troupe :) (congrArg Troupe.status hseat.troupe :) fun j hj => ?_
      by_cases hjl : j = l
      · subst hjl
        have hth : ((drainLane d.1 u j).troupe u).thread j = (d.1.thread u j).drain := thread_drainLane d.1 u j
        rw [hth] at hj
        cases hj
      · have h1 : ((drainLane d.1 u l).troupe u).thread j = (d.1.troupe u).thread j := hseat.threads j hjl
        rw [h1] at hj ⊢
        exact ⟨hj, rfl⟩
    · rw [hseat.others u hu]
      exact hs

theorem seatsDrawn_drawTroupe (s : State) (t : Nat) : SeatsDrawn s (drawTroupe s t) := by
  have hfold := SeatsDrawn.foldl (seatsDrawn_firstDraw t) (List.range 32) s
  unfold drawTroupe
  dsimp only
  generalize (List.range 32).foldl (firstDraw t) s = s1 at hfold ⊢
  split
  · refine hfold.trans ⟨rfl, fun _ => rfl, fun u entry st hs => ?_⟩
    rw [State.troupe_setTroupe]
    split
    · rename_i hu
      subst hu
      exact ⟨hs.stage, .inl rfl⟩
    · exact hs
  · exact hfold

/-! ### A company on its stages -/

theorem foldl_setTroupe_rest (f : Nat → Troupe) (c n : Nat) (s : State) :
    { (List.range n).foldl (fun z t => z.setTroupe (256 * c + t) (f t)) s with troupes := s.troupes } = s := by
  induction n with
  | zero => rfl
  | succ n ih =>
    rw [List.range_succ, List.foldl_append, List.foldl_cons, List.foldl_nil]
    generalize (List.range n).foldl _ s = z at ih ⊢
    exact ih

theorem troupe_foldl_setTroupe (f : Nat → Troupe) (c n u : Nat) (s : State) :
    ((List.range n).foldl (fun z t => z.setTroupe (256 * c + t) (f t)) s).troupe (256 * c + u) =
      if u < n then f u else s.troupe (256 * c + u) := by
  induction n with
  | zero => rfl
  | succ n ih =>
    rw [List.range_succ, List.foldl_append, List.foldl_cons, List.foldl_nil, State.troupe_setTroupe, ih]
    by_cases h : u = n
    · subst h
      rw [if_pos rfl, if_pos (Nat.lt_succ_self u)]
    · rw [if_neg (by omega)]
      exact if_congr (by omega) rfl rfl

theorem tget_map {V : Type} (f : Nat → V) (d : V) (ks : List Nat) (k : Nat) :
    tget (ks.map fun k => (k, f k)) d k = if k ∈ ks then f k else d := by
  induction ks with
  | nil => rfl
  | cons a r ih =>
    rw [List.map_cons, tget, ih]
    by_cases h : a = k
    · rw [if_pos h, if_pos (h ▸ List.mem_cons_self), h]
    · rw [if_neg h]
      exact if_congr (by simp [Ne.symm h]) rfl rfl

theorem standing_newTroupe (s : State) (entry : Word) (st w : Nat) : Standing entry st (newTroupe s entry st w) where
  stage := rfl
  status := by
    refine .inr ⟨rfl, fun l hl _ => ?_⟩
    have hget : (newTroupe s entry st w).thread l = Thread.start entry :=
      (tget_map _ _ _ _).trans (if_pos (List.mem_range.2 hl))
    rw [hget]
    rfl

theorem tget_of_not_mem {V : Type} {m : Table V} {d : V} {k : Nat} (h : k ∉ m.map Prod.fst) : tget m d k = d := by
  induction m with
  | nil => rfl
  | cons x r ih =>
    rw [List.map_cons, List.mem_cons, not_or] at h
    exact (if_neg (Ne.symm h.1)).trans (ih h.2)

/-- In a rising list of keys none is above the last. -/
theorem le_getLast_of_rising : ∀ {ks : List Nat} {k : Nat}, rising ks = true → k ∈ ks → k ≤ ks.getLast?.getD 0
  | [a], k, _, hk => by simpa using (List.mem_singleton.1 hk).le
  | a :: b :: r, k, h, hk => by
    obtain ⟨hab, hr⟩ := Bool.and_eq_true_iff.1 h
    rw [List.getLast?_cons_cons]
    rcases List.mem_cons.1 hk with rfl | hk
    · exact (of_decide_eq_true hab).le.trans (le_getLast_of_rising hr List.mem_cons_self)
    · exact le_getLast_of_rising hr hk

/-- The key of a company that is to be placed is new. -/
theorem company_nextKey {s : State} (h : rising (s.companies.map Prod.fst) = true) :
    s.company (nextKey s.companies) = Company.absent := by
  refine tget_of_not_mem fun hk => ?_
  have hle := le_getLast_of_rising h hk
  rw [List.getLast?_map, nextKey] at hle
  omega

/-- What a company is set down with. -/
def placedCompany (s : State) (k i die : Nat) (g : List (Nat × List Nat × Nat)) (b : Nat) : Company :=
  { Company.absent with
    run := k, index := i, die := die, stages := g.map Prod.fst, cmBase := g.map fun x => x.2.2
    placed := true, counter := i * (s.run k).range, stackBase := b }

/-- A company set down, before its seats draw: its troupes stand at their stages. -/
structure SetDown (s : State) (k i die : Nat) (g : List (Nat × List Nat × Nat)) (b : Nat) (z : State) : Prop where
  company    : z.company (nextKey s.companies) = placedCompany s k i die g b
  lastDie    : z.lastDie = die
  lastServed : z.lastServed = (s.run k).queue
  standing   : ∀ u < (s.run k).troupes, Standing (s.run k).entry (g.getD (u % (s.run k).nstages) (0, [], 0)).1
    (z.troupe (256 * nextKey s.companies + u))

/-- The placement of a company is its setting down, then the draws of its seats. -/
theorem settle_eq (s : State) (k i die : Nat) (g : List (Nat × List Nat × Nat)) (b : Nat) : ∃ z, SetDown s k i die g b z ∧
    settle s k i die g b = (List.range (s.run k).troupes).foldl (fun z t => drawTroupe z (256 * nextKey s.companies + t)) z := by
  refine ⟨_, ?_, rfl⟩
  generalize hs2 : State.setRun _ k _ = s2
  have hco : s2.company (nextKey s.companies) = placedCompany s k i die g b := by
    rw [← hs2]
    exact State.company_setCompany_self _ _ _
  have hrest := foldl_setTroupe_rest (fun t => newTroupe s (s.run k).entry (g.getD (t % (s.run k).nstages) (0, [], 0)).1
    ((g.getD (t % (s.run k).nstages) (0, [], 0)).2.1.getD (t / (s.run k).nstages) 0)) (nextKey s.companies) (s.run k).troupes s2
  refine ⟨?_, rfl, rfl, fun u hu => ?_⟩
  · rw [← hco]
    exact (congrArg (fun z : State => z.company (nextKey s.companies)) hrest :)
  · have htr := troupe_foldl_setTroupe (fun t => newTroupe s (s.run k).entry (g.getD (t % (s.run k).nstages) (0, [], 0)).1
      ((g.getD (t % (s.run k).nstages) (0, [], 0)).2.1.getD (t / (s.run k).nstages) 0)) (nextKey s.companies) (s.run k).troupes u s2
    rw [if_pos hu] at htr
    have hst := standing_newTroupe s (s.run k).entry (g.getD (u % (s.run k).nstages) (0, [], 0)).1
      ((g.getD (u % (s.run k).nstages) (0, [], 0)).2.1.getD (u / (s.run k).nstages) 0)
    rw [← htr] at hst
    exact hst

end Sys2Proof.Machine
end

section
/-! SUPPORT. Placement, waiting for room, pre-emption, gates and milestones, and the statement on them (R300, R322, R355-R363,
R378). -/

namespace Sys2Proof.Machine

open Sys2Proof

/-! ### A company is set down (R41, R357) -/

/-- The next company of a run that places one at a time, where there is room. -/
theorem placement_one {s : State} {k i b d : Nat} {g : List (Nat × List Nat × Nat)} (he : eligible s k = true)
    (hsrc : (s.run k).source ≠ .callboard) (hdet : (s.run k).determ = false) (hsize : (s.run k).circuitSize = 1)
    (hone : (s.run k).companiesOf (s.run k).nextComp = [i]) (hitem : hasItem s (s.run k) i = true)
    (hstack : stackRun s (s.run k) = some b) (hroom : ((List.range 4).map fun j => (s.lastDie + 1 + j) % 4).findSome?
      (fun d => (pickStages s (s.run k) d).map fun g => (d, g)) = some (d, g)) :
    placement s k = some (settle s k i d g b) := by
  have hplace : placeCompany k (fun z => (List.range 4).map fun j => (z.lastDie + 1 + j) % 4) s i = some (settle s k i d g b) := by
    unfold placeCompany
    simp only [hitem, hstack, hroom, Bool.not_true, Bool.false_eq_true, if_false]
  have hrank : (s.run k).circuitAt ((s.run k).nextComp / (s.run k).circuitSize) = (s.run k).nextComp := by
    simp [Run.circuitAt, hdet, hsize]
  have hnext : placeNext s k = some (settle s k i d g b) := by
    unfold placeNext
    dsimp only
    rw [hrank, hone]
    simp only [hdet, List.foldl_cons, List.foldl_nil, Option.bind_some, Bool.false_eq_true, if_false]
    exact hplace
  unfold placement
  rw [he]
  simp only [beq_eq_false_iff_ne.2 hsrc, Bool.not_true, Bool.false_eq_true, if_false, hnext]

theorem placeOrWait_some {s s1 : State} {k : Nat} (h : placement s k = some s1) (ht : isTurn s k = true) :
    placeOrWait s k = completeRun s1 k := by
  unfold placeOrWait
  rw [h]
  exact if_pos ht

theorem exec_companyPlacement_turn {s s1 : State} {k : Nat} (hsrc : (s.run k).source ≠ .callboard) (he : eligible s k = true)
    (hp : placement s k = some s1) (ht : isTurn s k = true) : exec (.companyPlacement k) s = .next (completeRun s1 k) := by
  rw [exec_companyPlacement, execCompanyPlacement, if_neg (by simp [hsrc, he]), placeOrWait_some hp ht]

/-- Where a company has been set down and its run looked at once more. -/
theorem completeRun_settle (s : State) (k i d : Nat) (g : List (Nat × List Nat × Nat)) (b : Nat) :
    let r := s.run k
    let c := nextKey s.companies
    let z := completeRun (settle s k i d g b) k
    (z.company c).run = k ∧ (z.company c).index = i ∧ (z.company c).placed = true ∧ (z.company c).die = d ∧
      (z.company c).stages = g.map Prod.fst ∧ (z.company c).stackBase = b ∧ z.lastDie = d ∧ z.lastServed = r.queue ∧
      ∀ u < r.troupes, (z.troupe (256 * c + u)).stage = (g.getD (u % r.nstages) (0, [], 0)).1 ∧
        ((z.troupe (256 * c + u)).status = .retired ∨ (z.troupe (256 * c + u)).status = .resident ∧
          ∀ l < 32, (z.thread (256 * c + u) l).st = .ready → (z.thread (256 * c + u) l).pc = r.entry) := by
  intro r c z
  obtain ⟨y, hy, hsettle⟩ := settle_eq s k i d g b
  obtain ⟨hcompany, hdie, hserved, hstanding⟩ := hy
  have hdrawn := SeatsDrawn.foldl (fun z t => seatsDrawn_drawTroupe z (256 * c + t)) (List.range r.troupes) y
  rw [← hsettle] at hdrawn
  have hrest := completeRun_rest (settle s k i d g b) k
  have hco : { z.company c with admitted := (y.company c).admitted, counter := (y.company c).counter } =
      placedCompany s k i d g b := by
    have h1 : z.company c = (settle s k i d g b).company c := hrest.company c
    rw [h1, hdrawn.companies c, hcompany]
  refine ⟨(congrArg Company.run hco :), (congrArg Company.index hco :), (congrArg Company.placed hco :),
    (congrArg Company.die hco :), (congrArg Company.stages hco :), (congrArg Company.stackBase hco :), ?_, ?_, fun u hu => ?_⟩
  · exact ((congrArg State.lastDie hrest :).trans (congrArg State.lastDie hdrawn.rest :)).trans hdie
  · exact ((congrArg State.lastServed hrest :).trans (congrArg State.lastServed hdrawn.rest :)).trans hserved
  · have h1 : z.troupe (256 * c + u) = (settle s k i d g b).troupe (256 * c + u) := hrest.troupe _
    have hst := hdrawn.troupes _ _ _ (hstanding u hu)
    rw [← h1] at hst
    exact ⟨hst.stage, hst.status⟩

/-! ### Nodes (R363) -/

theorem placement_spec {s s1 : State} {k : Nat} (hsrc : (s.run k).source = .callboard) (h : placement s k = some s1) :
    eligible s k = true ∧ hasRecords s k = true := by
  unfold placement at h
  dsimp only at h
  split at h
  · cases h
  · rename_i he
    rw [hsrc] at h
    split at h
    · split at h
      · rename_i hr
        exact ⟨by simpa using he, hr⟩
      · cases h
    · rename_i hc
      exact absurd rfl hc

/-! ### PREEMPT is raised (R378) -/

/-- Is a troupe told of a PREEMPT at once? -/
def takesPreempt (tr : Troupe) : Bool := !(tr.status == .retiring || (tr.context && tr.last.reason != 2))

theorem takesPreempt_iff {tr : Troupe} : takesPreempt tr = true ↔
    tr.status ≠ .retiring ∧ (tr.context = false ∨ tr.last.reason = 2) := by
  cases hc : tr.context <;> simp [takesPreempt, hc]

/-- PREEMPT comes to one troupe. -/
def tellPreempt (s : State) (t : Nat) : State :=
  if takesPreempt (s.troupe t) then s.setTroupe t { s.troupe t with pendPre := 1 } else s

theorem raisePreempt_eq (s : State) (c : Nat) : raisePreempt s c =
    (residentOf s c).foldl tellPreempt (s.setCompany c { s.company c with preempting := true, preempted := true }) := by
  unfold raisePreempt
  dsimp only
  congr 1
  funext z t
  unfold tellPreempt takesPreempt
  cases ((z.troupe t).status == .retiring || ((z.troupe t).context && (z.troupe t).last.reason != 2)) <;> rfl

theorem foldl_tellPreempt_rest (ts : List Nat) (s : State) : { ts.foldl tellPreempt s with troupes := s.troupes } = s := by
  induction ts generalizing s with
  | nil => rfl
  | cons t r ih =>
    have h := congrArg (fun z : State => { z with troupes := s.troupes }) (ih (tellPreempt s t))
    refine (h :).trans ?_
    unfold tellPreempt
    split <;> rfl

theorem troupe_tellPreempt (s : State) (t u : Nat) : (tellPreempt s t).troupe u =
    if u = t ∧ takesPreempt (s.troupe u) = true then { s.troupe u with pendPre := 1 } else s.troupe u := by
  unfold tellPreempt
  by_cases hp : takesPreempt (s.troupe t) = true
  · rw [if_pos hp]
    by_cases hu : u = t
    · subst hu
      rw [State.troupe_setTroupe_self, if_pos ⟨rfl, hp⟩]
    · rw [if_neg fun h => hu h.1]
      exact State.troupe_setTroupe_ne _ _ hu
  · rw [if_neg hp, if_neg]
    rintro ⟨rfl, h⟩
    exact hp h

theorem troupe_foldl_tellPreempt (ts : List Nat) (s : State) (u : Nat) : (ts.foldl tellPreempt s).troupe u =
    if u ∈ ts ∧ takesPreempt (s.troupe u) = true then { s.troupe u with pendPre := 1 } else s.troupe u := by
  induction ts generalizing s with
  | nil => simp
  | cons t r ih =>
    rw [List.foldl_cons, ih, troupe_tellPreempt]
    by_cases hp : takesPreempt (s.troupe u) = true
    · by_cases hu : u = t
      · rw [if_pos (show u = t ∧ _ from ⟨hu, hp⟩), if_pos (show u ∈ t :: r ∧ _ from ⟨hu ▸ List.mem_cons_self, hp⟩)]
        exact ite_self _
      · simp [hu]
    · rw [if_neg (show ¬(u = t ∧ _) from fun h => hp h.2), if_neg fun h => hp h.2, if_neg fun h => hp h.2]

/-- What PREEMPT_RAISE leaves: the company marked, its troupes told, all else as it was. -/
theorem raisePreempt_spec (s : State) (c : Nat) : (raisePreempt s c).mem = s.mem ∧
    ((raisePreempt s c).company c).preempting = true ∧ ((raisePreempt s c).company c).preempted = true ∧
    (∀ j, j ≠ c → (raisePreempt s c).company j = s.company j) ∧
    ∀ t, (raisePreempt s c).troupe t = if t ∈ residentOf s c ∧ (s.troupe t).status ≠ .retiring ∧
        ((s.troupe t).context = false ∨ (s.troupe t).last.reason = 2) then
      { s.troupe t with pendPre := 1 } else s.troupe t := by
  rw [raisePreempt_eq]
  have hrest := foldl_tellPreempt_rest (residentOf s c)
    (s.setCompany c { s.company c with preempting := true, preempted := true })
  have hcompany : ∀ j, _ = State.company _ j := fun j => (congrArg (fun z : State => z.company j) hrest :)
  refine ⟨(congrArg State.mem hrest :), ?_, ?_, fun j hj => (hcompany j).trans (State.company_setCompany_ne _ _ hj), fun t => ?_⟩
  · exact congrArg Company.preempting ((hcompany c).trans (State.company_setCompany_self _ _ _))
  · exact congrArg Company.preempted ((hcompany c).trans (State.company_setCompany_self _ _ _))
  · rw [troupe_foldl_tellPreempt]
    simp only [takesPreempt_iff]
    rfl

theorem exec_preemptRaise_raises {s : State} {k : Nat} (hw : waitsForRoom s k = true) (h0 : (s.run k).waited ≠ 0)
    (hover : (s.run k).waited + 20000 ≤ s.wall + 1) (hv : victims s (s.run k).prio ≠ [])
    (hp : placeable (without s ((s.companies.filter fun x => x.2.preempting).map Prod.fst) []) k = false) :
    ∃ c ∈ victims s (s.run k).prio, exec (.preemptRaise k) s = .next (raisePreempt { s with picks := s.picks + 1 } c) := by
  have hlen := List.length_pos_iff.2 hv
  let vs := victims s (s.run k).prio
  refine ⟨vs.getD ((Config.freeWord s.picks).toNat % vs.length) 0, ?_, ?_⟩
  · rw [List.getD_eq_getElem _ _ (Nat.mod_lt _ hlen)]
    exact List.getElem_mem _
  · rw [exec_preemptRaise]
    unfold execPreemptRaise
    refine if_neg ?_
    simp [hw, h0, hp, hv]
    omega

/-! ### A gate opens (R300, R361) -/

/-- Does the thread wait at its run's gate? -/
def Thread.atGate (th : Thread) : Bool := th.st == .waiting && th.wait == .gate

theorem Thread.atGate_iff {th : Thread} : th.atGate = true ↔ th.st = .waiting ∧ th.wait = .gate := by simp [Thread.atGate]

/-- The threads of one troupe that wait at the gate go on. -/
def letIn (z : State) (t : Nat) : State :=
  if maskOf (fun l => ((z.troupe t).thread l).atGate) = 0 then z
  else bundleByPc (dropRo (leaveLanes z t (maskOf fun l => ((z.troupe t).thread l).atGate) fun _ => 0) (z.troupe t).stage) t
    (maskOf fun l => ((z.troupe t).thread l).atGate)

theorem exec_gateOpen_opens {s : State} {k : Nat} (h0 : (s.run k).gateOpen = false) (hr : gateReady s k = true) :
    exec (.gateOpen k) s = .next ((troupesOfRun s k).foldl letIn (s.setRun k { s.run k with gateOpen := true })) := by
  rw [exec_gateOpen]
  unfold execGateOpen
  exact if_neg (by simp [h0, hr])

theorem thread_letIn (z : State) (t u : Nat) {l : Nat} (hl : l < 32) : (letIn z t).thread u l =
    if u = t ∧ (z.thread u l).atGate = true then (z.thread u l).left else z.thread u l := by
  unfold letIn
  by_cases hu : u = t
  · subst hu
    by_cases hg : (z.thread u l).atGate = true
    · rw [if_neg (maskOf_ne_zero hl hg), thread_bundleByPc, if_pos ⟨rfl, hg⟩]
      exact (thread_leaveLanes _ _ _ _ _).trans (if_pos (by simp [hasLane_maskOf, hl]; exact hg))
    · rw [if_neg (show ¬(u = u ∧ _) from fun h => hg h.2)]
      split
      · rfl
      · rw [thread_bundleByPc]
        exact (thread_leaveLanes _ _ _ _ _).trans (if_neg (by simp [hasLane_maskOf, hl]; exact eq_false_of_ne_true hg))
  · rw [if_neg (show ¬(u = t ∧ _) from fun h => hu h.1)]
    split
    · rfl
    · rw [thread_bundleByPc]
      exact congrArg (fun x : Troupe => x.thread l) (troupe_leaveLanes_ne _ _ _ hu)

theorem letIn_mem (z : State) (t : Nat) : (letIn z t).mem = z.mem := by
  unfold letIn
  split
  · rfl
  · exact bundleByPc_mem _ _ _

theorem letIn_run (z : State) (t k : Nat) : (letIn z t).run k = z.run k := by
  unfold letIn
  split
  · rfl
  · exact (congrArg (fun x : State => x.run k) (bundleByPc_rest _ t _) :)

theorem foldl_letIn_mem (ts : List Nat) (z : State) : (ts.foldl letIn z).mem = z.mem :=
  List.foldlRecOn (motive := fun y => y.mem = z.mem) ts letIn rfl fun y h t _ => (letIn_mem y t).trans h

theorem foldl_letIn_run (ts : List Nat) (z : State) (k : Nat) : (ts.foldl letIn z).run k = z.run k :=
  List.foldlRecOn (motive := fun y => y.run k = z.run k) ts letIn rfl fun y h t _ => (letIn_run y t k).trans h

/-- A thread that has been let in is READY, so a troupe that is named twice is let in once. -/
theorem thread_foldl_letIn (ts : List Nat) (z : State) (u : Nat) {l : Nat} (hl : l < 32) : (ts.foldl letIn z).thread u l =
    if u ∈ ts ∧ (z.thread u l).atGate = true then (z.thread u l).left else z.thread u l := by
  induction ts generalizing z with
  | nil => simp
  | cons t r ih =>
    rw [List.foldl_cons, ih, thread_letIn _ _ _ hl]
    by_cases hg : (z.thread u l).atGate = true
    · by_cases hu : u = t
      · rw [if_pos (show u = t ∧ _ from ⟨hu, hg⟩), if_pos (show u ∈ t :: r ∧ _ from ⟨hu ▸ List.mem_cons_self, hg⟩)]
        exact if_neg fun h => Bool.false_ne_true h.2
      · simp [hu]
    · rw [if_neg (show ¬(u = t ∧ _) from fun h => hg h.2), if_neg fun h => hg h.2, if_neg fun h => hg h.2]

/-! ### Waiting for room, and the moments of a node -/

theorem exec_companyPlacement_waits {s : State} {k : Nat} (hsrc : (s.run k).source ≠ .callboard) (hp : placement s k = none)
    (hw : waitsForRoom s k = true) (he : eligible s k = true) (h0 : (s.run k).waited = 0) :
    exec (.companyPlacement k) s = .next (s.setRun k { s.run k with waited := s.wall + 1 }) := by
  have hplace : placeOrWait s k = s.setRun k { s.run k with waited := s.wall + 1 } := by
    unfold placeOrWait
    rw [hp]
    exact if_pos (by simp [hw, h0])
  rw [exec_companyPlacement, execCompanyPlacement, if_neg (by simp [hsrc, he]), hplace]

theorem exec_callboardPlace_closed {s : State} {k : Nat} (hsrc : (s.run k).source = .callboard)
    (hc : nodeClosed s (s.run k) = true) : exec (.callboardPlace k) s = .next (completeRun s k) := by
  rw [exec_callboardPlace, execCallboardPlace, if_pos (by simp [hsrc, hc])]

section
variable {s s1 : State} {k : Nat} (hsrc : (s.run k).source = .callboard) (hp : placement s k = some s1) (ht : isTurn s k = true)
include hsrc hp ht

theorem exec_callboardPlace_full (hc : nodeClosed s (s.run k) = false) (hu : 32 ≤ (descOf s (s.run k).nodeQ).used) :
    exec (.callboardPlace k) s = .next (completeRun s1 k) := by
  obtain ⟨he, -⟩ := placement_spec hsrc hp
  rw [exec_callboardPlace, execCallboardPlace, if_neg (by simp [hc]), if_pos (by simp [hsrc, he, hu]), placeOrWait_some hp ht]

theorem exec_callboardTimer_turn (hu : (descOf s (s.run k).nodeQ).used < 32) :
    exec (.callboardTimer k) s = .next (completeRun s1 k) := by
  obtain ⟨he, hr⟩ := placement_spec hsrc hp
  rw [exec_callboardTimer, execCallboardTimer, if_pos (by simp [hsrc, he, hr, hu]), placeOrWait_some hp ht]

end

theorem exec_milestone_drains {s s1 : State} {k : Nat} (hd : (s.run k).determ = true) (hm : (s.run k).milestone = false)
    (ha : allReleased s k = true) (h : drainDet s k (fun b => !b.tag && !b.onCm) = some s1) :
    exec (.deterministicMilestone k 0) s =
      .next (if detAccs s1 k = [] then s1.setRun k { s1.run k with milestone := true } else s1) := by
  rw [exec_deterministicMilestone]
  unfold execDeterministicMilestone
  dsimp only
  rw [if_neg (by simp [hd]), if_pos rfl, if_neg (by simp [hm, ha]), h]

/-- Settles O51: a placement by `completeRun_settle`, a pre-emption by `raisePreempt_spec`, a gate by `thread_foldl_letIn`; the
rest is the event's own case. -/
theorem placement_holds : Obligations.Placement := by
  unfold Obligations.Placement
  refine ⟨fun s k i b d g => ?_, fun s k => ⟨exec_companyPlacement_waits, exec_callboardPlace_closed, ?_, ?_, ?_, fun s1 => ?_⟩⟩
  · intro r hrise he hsrc hdet hsize hone hitem hstack hturn hroom
    have hp := placement_one he hsrc hdet hsize hone hitem hstack hroom
    exact ⟨_, nextKey s.companies, exec_companyPlacement_turn hsrc he hp hturn, company_nextKey hrise,
      completeRun_settle s k i d g b⟩
  · exact fun s1 hsrc hc hp ht => ⟨exec_callboardPlace_full hsrc hp ht hc, exec_callboardTimer_turn hsrc hp ht⟩
  · intro hw h0 hover hv hp
    obtain ⟨c, hc, he⟩ := exec_preemptRaise_raises hw h0 hover hv hp
    obtain ⟨hmem, hpre, hdone, hother, htroupe⟩ := raisePreempt_spec { s with picks := s.picks + 1 } c
    exact ⟨_, he, hmem, c, hc, hpre, hdone, hother, htroupe⟩
  · intro h0 hr
    refine ⟨_, exec_gateOpen_opens h0 hr, ?_, foldl_letIn_mem _ _, fun t ht l hl => ?_⟩
    · rw [foldl_letIn_run, State.run_setRun_self]
    · rw [thread_foldl_letIn _ _ _ hl]
      simp only [Thread.atGate_iff, ht, true_and]
      rfl
  · exact exec_milestone_drains

end Sys2Proof.Machine
end

section
/-! SUPPORT. What the end of waits leaves of a state: points, instances and junctions let go of WAITING threads alone (R55-R59). -/

namespace Sys2Proof.Machine

open Sys2Proof

/-- Of all threads only WAITING ones change, and of companies only junctions. -/
structure WaitersGo (s z : State) : Prop where
  rest    : { z with troupes := s.troupes, companies := s.companies, wings := s.wings, stages := s.stages, agenda := s.agenda } = s
  company : ∀ c, { z.company c with junctions := (s.company c).junctions } = s.company c
  threads : ∀ t l, (s.thread t l).st ≠ .waiting → z.thread t l = s.thread t l
  waiting : ∀ t l, (z.thread t l).st = .waiting → (s.thread t l).st = .waiting
  regs    : ∀ t, (∀ l, (s.thread t l).st ≠ .waiting) → ∀ k, (z.troupe t).reg k = (s.troupe t).reg k

namespace WaitersGo

theorem refl (s : State) : WaitersGo s s := ⟨rfl, fun _ => rfl, fun _ _ _ => rfl, fun _ _ h => h, fun _ _ _ => rfl⟩

theorem trans {s z y : State} (h : WaitersGo s z) (k : WaitersGo z y) : WaitersGo s y where
  rest := by
    have := congrArg (fun x : State => { x with
      troupes := s.troupes, companies := s.companies, wings := s.wings, stages := s.stages, agenda := s.agenda }) k.rest
    exact (this :).trans h.rest
  company c := (congrArg (fun x : Company => { x with junctions := (s.company c).junctions }) (k.company c) :).trans (h.company c)
  threads t l hl := by
    have hz := h.threads t l hl
    rw [k.threads t l (by rwa [hz]), hz]
  waiting t l hl := h.waiting t l (k.waiting t l hl)
  regs t ht x := (k.regs t (fun l hl => ht l (h.waiting t l hl)) x).trans (h.regs t ht x)

theorem foldl {X : Type} {f : State → X → State} (h : ∀ z x, WaitersGo z (f z x)) (xs : List X) (s : State) :
    WaitersGo s (xs.foldl f s) :=
  List.foldlRecOn xs f (refl s) fun _ hz x _ => hz.trans (h _ x)

/-- A change that moves no thread and writes no register. -/
theorem of_still {s z : State}
    (hrest : { z with troupes := s.troupes, companies := s.companies, wings := s.wings, stages := s.stages, agenda := s.agenda } = s)
    (hcompany : ∀ c, { z.company c with junctions := (s.company c).junctions } = s.company c)
    (hthread : ∀ t l, z.thread t l = s.thread t l) (hreg : ∀ t k, (z.troupe t).reg k = (s.troupe t).reg k) : WaitersGo s z where
  rest := hrest
  company := hcompany
  threads t l _ := hthread t l
  waiting t l h := hthread t l ▸ h
  regs t _ := hreg t

/-- A change of one troupe that moves none of its threads and writes none of its registers. -/
theorem setTroupe (s : State) (t : Nat) {x : Troupe} (hthread : ∀ l, x.thread l = s.thread t l)
    (hreg : ∀ k, x.reg k = (s.troupe t).reg k) : WaitersGo s (s.setTroupe t x) := by
  refine of_still rfl (fun _ => rfl) (fun u l => ?_) fun u k => ?_
  · by_cases hu : u = t
    · rw [hu, State.thread, State.troupe_setTroupe_self, hthread]
    · rw [State.thread, State.troupe_setTroupe_ne _ _ hu, State.thread]
  · by_cases hu : u = t
    · rw [hu, State.troupe_setTroupe_self, hreg]
    · rw [State.troupe_setTroupe_ne _ _ hu]

variable {s z : State} (h : WaitersGo s z)
include h

theorem mem : z.mem = s.mem := (congrArg State.mem h.rest :)
theorem run (k : Nat) : z.run k = s.run k := congrArg (fun x => tget x Run.absent k) (congrArg State.runs h.rest :)
theorem runOf (t : Nat) : z.runOf t = s.runOf t := by
  have hc : (z.companyOf t).run = (s.companyOf t).run := (congrArg Company.run (h.company (companyKey t)) :)
  rw [State.runOf, hc, h.run, State.runOf]

end WaitersGo

/-! ### Waits that end -/

theorem waitersGo_leaveLanes (s : State) (t : Nat) {m : Mask} (val : Nat → Dword)
    (h : ∀ l, hasLane m l = true → (s.thread t l).st = .waiting) : WaitersGo s (leaveLanes s t m val) where
  rest := rfl
  company _ := rfl
  threads u l hl := by
    by_cases hu : u = t
    · subst hu
      rw [thread_leaveLanes, if_neg fun hm => hl (h l hm)]
    · rw [State.thread, troupe_leaveLanes_ne _ _ _ hu, State.thread]
  waiting u l hl := by
    by_cases hu : u = t
    · subst hu
      rw [thread_leaveLanes] at hl
      split at hl
      · cases hl
      · exact hl
    · rwa [State.thread, troupe_leaveLanes_ne _ _ _ hu] at hl
  regs u hu k := by
    by_cases hut : u = t
    · subst hut
      refine reg_leaveLanes_other fun l hl => ?_
      exact absurd (h l hl) (hu l)
    · rw [troupe_leaveLanes_ne _ _ _ hut]

theorem waitersGo_bundleByPc (s : State) (t : Nat) (m : Mask) : WaitersGo s (bundleByPc s t m) := by
  have hrest := bundleByPc_rest s t m
  refine .of_still ?_ (fun c => ?_) (fun u l => thread_bundleByPc _ _ _ _ _) fun u k => by rw [troupe_bundleByPc]
  · exact (congrArg (fun x : State => { x with
      troupes := s.troupes, companies := s.companies, wings := s.wings, stages := s.stages, agenda := s.agenda }) hrest :)
  · exact (congrArg (fun x : State => { x.company c with junctions := (s.company c).junctions }) hrest :)

theorem waitersGo_dropRo (s : State) (st : Nat) : WaitersGo s (dropRo s st) :=
  .of_still rfl (fun _ => rfl) (fun _ _ => rfl) fun _ _ => rfl

theorem waitersGo_retireCheck (s : State) (t : Nat) : WaitersGo s (retireCheck s t) := by
  have hrest := retireCheck_rest s t
  refine .of_still ?_ (fun c => ?_) (thread_retireCheck s t) (reg_retireCheck s t)
  · exact (congrArg (fun x : State => { x with
      troupes := s.troupes, companies := s.companies, wings := s.wings, stages := s.stages, agenda := s.agenda }) hrest :)
  · exact (congrArg (fun x : State => { x.company c with junctions := (s.company c).junctions }) hrest :)

theorem waitersGo_queueRefills (s : State) (c : Nat) : WaitersGo s (queueRefills s c) :=
  .of_still rfl (fun _ => rfl) (fun _ _ => rfl) fun _ _ => rfl

/-! ### Convergence points (R59) -/

theorem Thread.waiting_of_waitsCv {th : Thread} {k : Nat} (h : th.waitsCv k = true) : th.st = .waiting := by
  simp only [Thread.waitsCv, Bool.and_eq_true, beq_iff_eq] at h
  exact h.1

theorem waitersGo_setExpected (s : State) (t k : Nat) (m : Mask) :
    WaitersGo s (s.setTroupe t ((s.troupe t).setExpected k m)) := .setTroupe s t (fun _ => rfl) fun _ => rfl

theorem waitersGo_cvCheck (s : State) (t k : Nat) : WaitersGo s (cvCheck s t k) := by
  unfold cvCheck
  dsimp only
  split
  · rename_i h
    simp only [Bool.and_eq_true, List.all_eq_true] at h
    refine (waitersGo_setExpected s t k 0).trans ((waitersGo_leaveLanes _ _ _ fun l hl => ?_).trans (waitersGo_bundleByPc _ _ _))
    rw [State.thread, State.troupe_setTroupe_self]
    exact Thread.waiting_of_waitsCv (h.2 l (mem_lanes.2 hl))
  · exact .refl s

theorem waitersGo_cvLeave (s : State) (t : Nat) (m : Mask) : WaitersGo s (cvLeave s t m) := by
  refine .foldl (fun z k => ?_) _ s
  dsimp only
  split
  · exact .refl z
  · exact (waitersGo_setExpected z t k _).trans (waitersGo_cvCheck _ t k)

/-! ### Instances (R55) -/

theorem waitersGo_allCheckAt (s : State) (t : Nat) (pc : Word) : WaitersGo s (allCheckAt s t pc) := by
  have hreach : WaitersGo s (s.setTroupe t { s.troupe t with reached := terase (s.troupe t).reached pc.toNat }) :=
    .setTroupe s t (fun _ => rfl) fun _ => rfl
  unfold allCheckAt
  dsimp only
  split
  · exact .refl s
  · split
    · refine hreach.trans ((waitersGo_leaveLanes _ _ _ fun l hl => ?_).trans (waitersGo_bundleByPc _ _ _))
      rw [hasLane_maskOf] at hl
      simp only [Thread.waitsAll, Bool.and_eq_true, beq_iff_eq] at hl
      rw [State.thread, State.troupe_setTroupe_self]
      exact hl.2.1.1
    · exact hreach

theorem waitersGo_allCheck (s : State) (t : Nat) : WaitersGo s (allCheck s t) :=
  .foldl (fun z pc => waitersGo_allCheckAt z t pc) _ s

/-! ### Junctions (R56-R58) -/

theorem waitersGo_setJunction (s : State) (c j : Nat) (x : Junction) : WaitersGo s (s.setJunction c j x) := by
  refine .of_still rfl (fun d => ?_) (fun _ _ => rfl) fun _ _ => rfl
  by_cases hd : d = c
  · subst hd
    rw [State.setJunction, State.company_setCompany_self]
  · rw [State.setJunction, State.company_setCompany_ne _ _ hd]

theorem waitersGo_countUrgency (s : State) (t : Nat) : WaitersGo s (countUrgency s t) :=
  .setTroupe s t (fun _ => rfl) fun _ => rfl

theorem waitersGo_releaseJunction (s : State) (c j : Nat) (phase : Bool) : WaitersGo s (releaseJunction s c j phase) := by
  unfold releaseJunction
  refine .foldl (fun z t => ?_) _ s
  dsimp only
  split
  · exact .refl z
  · refine (waitersGo_leaveLanes _ _ _ fun l hl => ?_).trans (waitersGo_dropRo _ _)
    rw [hasLane_maskOf] at hl
    simp only [Thread.waitsJunction, Bool.and_eq_true, beq_iff_eq] at hl
    exact hl.2.1

/-- A WAITING thread waits on in another way. -/
theorem waitersGo_setThread (s : State) (t l : Nat) {x : Thread} (h : (s.thread t l).st = .waiting) :
    WaitersGo s (s.setThread t l x) where
  rest := rfl
  company _ := rfl
  threads u j hj := by
    by_cases hu : u = t
    · subst hu
      have hne : j ≠ l := fun he => hj (he ▸ h)
      rw [State.thread, State.troupe_setThread_self, Troupe.thread_setThread_ne _ _ hne, State.thread]
    · rw [State.thread, State.troupe_setThread_ne _ _ _ hu, State.thread]
  waiting u j hj := by
    by_cases hu : u = t
    · subst hu
      by_cases hjl : j = l
      · exact hjl ▸ h
      · rwa [State.thread, State.troupe_setThread_self, Troupe.thread_setThread_ne _ _ hjl] at hj
    · rwa [State.thread, State.troupe_setThread_ne _ _ _ hu] at hj
  regs u hu k := by
    have hut : u ≠ t := fun he => hu l (he ▸ h)
    rw [State.troupe_setThread_ne _ _ _ hut]

theorem waitersGo_undefer (s : State) (c j seat : Nat) : WaitersGo s (undefer s c j seat) := by
  unfold undefer
  dsimp only
  refine WaitersGo.trans (z := countUrgency (s.setJunction c j ((s.junction c j).arrive seat)) (seatTroupe c seat))
    ((waitersGo_setJunction _ _ _ _).trans (waitersGo_countUrgency _ _)) ?_
  generalize countUrgency _ _ = z
  split
  · split
    · exact .refl z
    · rename_i h
      simp only [Bool.or_eq_true, bne_iff_ne, not_or, not_not] at h
      split
      · refine waitersGo_leaveLanes _ _ _ fun l hl => ?_
        have he : l = seatLane seat := by simpa [hasLane_laneBit (show seatLane seat < 32 from Nat.mod_lt _ (by decide))] using hl
        exact he ▸ h.2
      · exact waitersGo_setThread _ _ _ h.2
  · exact .refl z

theorem waitersGo_settleJunction (n : Nat) : ∀ (s : State) (c j : Nat), WaitersGo s (settleJunction n s c j) := by
  induction n with
  | zero => exact fun s _ _ => .refl s
  | succ n ih =>
    intro s c j
    unfold settleJunction
    dsimp only
    split
    · exact .refl s
    · refine WaitersGo.trans ?_ (.foldl (fun z seat => (waitersGo_undefer z c j seat).trans (ih _ c j)) _ _)
      refine WaitersGo.trans ?_ (waitersGo_releaseJunction _ _ _ _)
      refine WaitersGo.trans ?_ (.foldl (f := fun z t => z.setTroupe t { z.troupe t with urgency := 0 })
        (fun z t => .setTroupe z t (fun _ => rfl) fun _ => rfl) _ _)
      exact waitersGo_setJunction _ _ _ _

theorem waitersGo_memberEvent (s : State) (c seat : Nat) (f : Junction → Junction) : WaitersGo s (memberEvent s c seat f) := by
  refine .foldl (fun z j => ?_) _ s
  dsimp only
  split
  · exact (waitersGo_setJunction z c j _).trans (waitersGo_settleJunction 4 _ c j)
  · exact .refl z

end Sys2Proof.Machine
end

section
/-! SUPPORT. Seats that leave their items one after another, in ascending lane order (R48-R50, R364). -/

namespace Sys2Proof.Machine

open Sys2Proof

/-! ### What a seat that leaves changes -/

/-- Of a troupe's threads, lanes `ls` leave; of the others only WAITING ones change. -/
structure SeatsGo (t : Nat) (ls : List Nat) (s z : State) : Prop where
  threads : ∀ l, l ∉ ls → (s.thread t l).st ≠ .waiting → z.thread t l = s.thread t l
  waiting : ∀ l, (z.thread t l).st = .waiting → (s.thread t l).st = .waiting
  regs    : (∀ l, (s.thread t l).st ≠ .waiting) → ∀ k, (∀ l ∈ ls, ∀ i < 7, k ≠ pKey l i) →
    (z.troupe t).reg k = (s.troupe t).reg k
  cue     : (z.runOf t).cue = (s.runOf t).cue

namespace SeatsGo

theorem refl (t : Nat) (s : State) : SeatsGo t [] s s := ⟨fun _ _ _ => rfl, fun _ h => h, fun _ _ _ => rfl, rfl⟩

theorem trans {t : Nat} {ls ms : List Nat} {s z y : State} (h : SeatsGo t ls s z) (k : SeatsGo t ms z y) :
    SeatsGo t (ls ++ ms) s y where
  threads l hl hst := by
    rw [List.mem_append, not_or] at hl
    have hz := h.threads l hl.1 hst
    rw [k.threads l hl.2 (by rwa [hz]), hz]
  waiting l hl := h.waiting l (k.waiting l hl)
  regs hs x hx := by
    have hz := h.regs hs x fun l hl => hx l (List.mem_append_left _ hl)
    rw [k.regs (fun l hl => hs l (h.waiting l hl)) x fun l hl => hx l (List.mem_append_right _ hl), hz]
  cue := k.cue.trans h.cue

theorem mono {t : Nat} {ls ms : List Nat} {s z : State} (h : SeatsGo t ls s z) (hle : ls ⊆ ms) : SeatsGo t ms s z where
  threads l hl := h.threads l fun hin => hl (hle hin)
  waiting := h.waiting
  regs hs k hk := h.regs hs k fun l hl => hk l (hle hl)
  cue := h.cue

theorem foldl {t : Nat} {f : State → Nat → State} (h : ∀ z l, SeatsGo t [l] z (f z l)) (ls : List Nat) (s : State) :
    SeatsGo t ls s (ls.foldl f s) := by
  induction ls generalizing s with
  | nil => exact refl t s
  | cons l ls ih => exact (h s l).trans (ih (f s l))

end SeatsGo

theorem WaitersGo.seatsGo {s z : State} (h : WaitersGo s z) (t : Nat) : SeatsGo t [] s z where
  threads l _ := h.threads t l
  waiting := h.waiting t
  regs hs k _ := h.regs t hs k
  cue := congrArg Run.cue (h.runOf t)

theorem SeatOnly.seatsGo {t l : Nat} {s z : State} (h : SeatOnly t l s z) (hst : (z.thread t l).st ≠ .waiting) :
    SeatsGo t [l] s z where
  threads j hj _ := h.threads j (List.ne_of_not_mem_cons hj)
  waiting j hj := by
    by_cases hjl : j = l
    · exact absurd hj (hjl ▸ hst)
    · rwa [h.threads j hjl] at hj
  regs _ k hk := h.regs k (hk l List.mem_cons_self)
  cue := congrArg Run.cue (runOf_congr (congrArg State.companies h.rest :) (congrArg State.runs h.rest :) t)

/-- A draw leaves each thread's state of issue as it is. -/
theorem DrawOnly.seatsGo {t l : Nat} {s z : State} (h : DrawOnly t l s z) : SeatsGo t [l] s z where
  threads j hj _ := h.threads j (List.ne_of_not_mem_cons hj)
  waiting j hj := by
    by_cases hjl : j = l
    · subst hjl
      exact (congrArg Thread.st h.seat :).symm.trans hj
    · rwa [h.threads j hjl] at hj
  regs _ k _ := (congrArg (fun x : Troupe => x.reg k) h.troupe :)
  cue := by
    have hrun : (z.companyOf t).run = (s.companyOf t).run := (congrArg Company.run (h.companies (companyKey t)) :)
    have hcue : (z.run (s.companyOf t).run).cue = (s.run (s.companyOf t).run).cue := (congrArg Run.cue (h.runs _) :)
    rw [State.runOf, hrun, hcue, State.runOf]

/-! ### EXIT of one thread at lane grain (R49) -/

theorem exitLaneGrain_some {s y : State} {t l : Nat} {x : Dword × Dword} (h : drawItem s t l = (y, some x)) :
    exitLaneGrain s t l = refillLane y t l x := by
  unfold exitLaneGrain
  rw [h]

theorem exitLaneGrain_none {s y : State} {t l : Nat} (h : drawItem s t l = (y, none)) :
    exitLaneGrain s t l = seatDrained (drainLane y t l) (companyKey t) (seatOf t l) := by
  unfold exitLaneGrain
  rw [h]

theorem waitersGo_seatDrained (s : State) (c seat : Nat) : WaitersGo s (seatDrained s c seat) := waitersGo_memberEvent s c seat _

theorem st_refillLane (s : State) (t l : Nat) (x : Dword × Dword) : ((refillLane s t l x).thread t l).st = .ready := by
  rw [thread_refillLane]
  rfl

theorem st_drainLane (s : State) (t l : Nat) : ((drainLane s t l).thread t l).st = .drained := by
  rw [thread_drainLane]
  rfl

theorem seatsGo_exitLaneGrain (t : Nat) (s : State) (l : Nat) : SeatsGo t [l] s (exitLaneGrain s t l) := by
  refine SeatsGo.mono (ls := [l] ++ [l]) ((drawItem_only s t l).seatsGo.trans ?_) (by simp)
  rcases hd : drawItem s t l with ⟨y, _ | x⟩
  · rw [exitLaneGrain_none hd]
    exact ((seatOnly_drainLane y t l).seatsGo (by simp [st_drainLane])).trans ((waitersGo_seatDrained _ _ _).seatsGo t)
  · rw [exitLaneGrain_some hd]
    exact (seatOnly_refillLane y t l x).seatsGo (by simp [st_refillLane])

/-- A thread that has left its item: it has one of `o` at the cue, or none. -/
def Exited (cue : Word) (th : Thread) : Option (Dword × Dword) → Prop
  | some x => th.st = .ready ∧ th.pc = cue ∧ th.rstack = [] ∧ th.item = x.1 ∧ th.age = x.2 ∧ th.conv = 0
  | none => th.st = .drained

theorem Exited.not_waiting {cue : Word} {th : Thread} {o : Option (Dword × Dword)} (h : Exited cue th o) : th.st ≠ .waiting := by
  cases o with
  | none => exact fun hw => by rw [h] at hw; cases hw
  | some x => exact fun hw => by rw [h.1] at hw; cases hw

theorem exited_exitLaneGrain (s : State) (t l : Nat) :
    Exited (s.runOf t).cue ((exitLaneGrain s t l).thread t l) (drawItem s t l).2 := by
  have hcue := (drawItem_only s t l).seatsGo.cue
  rcases hd : drawItem s t l with ⟨y, _ | x⟩
  · have hst := st_drainLane y t l
    rw [exitLaneGrain_none hd]
    exact congrArg Thread.st ((waitersGo_seatDrained (drainLane y t l) _ _).threads t l (by simp [hst])) |>.trans hst
  · rw [hd] at hcue
    rw [exitLaneGrain_some hd, thread_refillLane, hcue]
    exact ⟨rfl, rfl, rfl, rfl, rfl, rfl⟩

theorem preds_exitLaneGrain {s y : State} {t l : Nat} {x : Dword × Dword} (h : drawItem s t l = (y, some x)) {i : Nat} (hi : i < 7) :
    ((exitLaneGrain s t l).troupe t).reg (pKey l i) = 0 := by
  rw [exitLaneGrain_some h, preds_refillLane _ _ _ _ hi]

/-! ### What draws read of a state -/

/-- Whatever a draw reads but for the drawing thread is as it was. -/
structure Undrawn (s z : State) : Prop where
  rest    : { z with
    troupes := s.troupes, companies := s.companies, wings := s.wings, stages := s.stages, agenda := s.agenda, accs := s.accs } = s
  company : ∀ c, { z.company c with junctions := (s.company c).junctions } = s.company c

theorem WaitersGo.undrawn {s z : State} (h : WaitersGo s z) : Undrawn s z :=
  ⟨(congrArg (fun x : State => { x with accs := s.accs }) h.rest :), h.company⟩

theorem SeatOnly.undrawn {t l : Nat} {s z : State} (h : SeatOnly t l s z) : Undrawn s z where
  rest := (congrArg (fun x : State => { x with
    companies := s.companies, wings := s.wings, stages := s.stages, agenda := s.agenda }) h.rest :)
  company c := (congrArg (fun x : State => { x.company c with junctions := (s.company c).junctions }) h.rest :)

theorem Undrawn.trans {s z y : State} (h : Undrawn s z) (k : Undrawn z y) : Undrawn s y where
  rest := by
    have := congrArg (fun x : State => { x with
      troupes := s.troupes, companies := s.companies, wings := s.wings, stages := s.stages, agenda := s.agenda, accs := s.accs }) k.rest
    exact (this :).trans h.rest
  company c := (congrArg (fun x : Company => { x with junctions := (s.company c).junctions }) (k.company c) :).trans (h.company c)

theorem Undrawn.mem {s z : State} (h : Undrawn s z) : z.mem = s.mem := (congrArg State.mem h.rest :)
theorem Undrawn.run {s z : State} (h : Undrawn s z) (k : Nat) : z.run k = s.run k :=
  congrArg (fun x => tget x Run.absent k) (congrArg State.runs h.rest :)
theorem Undrawn.runOf {s z : State} (h : Undrawn s z) (t : Nat) : z.runOf t = s.runOf t := by
  have hc : (z.companyOf t).run = (s.companyOf t).run := (congrArg Company.run (h.company (companyKey t)) :)
  rw [State.runOf, hc, h.run, State.runOf]

/-- After its draw an EXIT draws no more. -/
theorem undrawn_exitLaneGrain (s : State) (t l : Nat) : Undrawn (drawItem s t l).1 (exitLaneGrain s t l) := by
  rcases hd : drawItem s t l with ⟨y, _ | x⟩
  · rw [exitLaneGrain_none hd]
    exact (seatOnly_drainLane y t l).undrawn.trans (waitersGo_seatDrained _ _ _).undrawn
  · rw [exitLaneGrain_some hd]
    exact (seatOnly_refillLane y t l x).undrawn

/-! ### The draws of many seats -/

/-- How the draws of lanes `ls` go: `Q i` of the state before draw `i`, which gives its lane `it i l`. -/
structure DrawsGo (t : Nat) (ls : List Nat) (s : State) (Q : Nat → State → Prop)
    (it : Nat → Nat → Option (Dword × Dword)) : Prop where
  first : Q 0 s
  draw  : ∀ i z l, i < ls.length → Q i z → z.thread t l = s.thread t l →
    (drawItem z t l).2 = it i l ∧ Q (i + 1) (drawItem z t l).1
  keep  : ∀ i z y, Q i z → Undrawn z y → Q i y

/-- EXIT of some threads at lane grain. -/
def exitLanes (t : Nat) (ls : List Nat) (s : State) : State := ls.foldl (fun z l => exitLaneGrain z t l) s

theorem seatsGo_exitLanes (t : Nat) (ls : List Nat) (s : State) : SeatsGo t ls s (exitLanes t ls s) :=
  .foldl (fun z l => seatsGo_exitLaneGrain t z l) ls s

section
variable {t : Nat} {ls : List Nat} {s : State} {Q : Nat → State → Prop} {it : Nat → Nat → Option (Dword × Dword)}
  (D : DrawsGo t ls s Q it) (hnd : ls.Nodup) (hready : ∀ l ∈ ls, (s.thread t l).st = .ready)
include D hnd hready

theorem DrawsGo.before {as bs : List Nat} (h : ls = as ++ bs) : Q as.length (exitLanes t as s) := by
  induction as using List.reverseRecOn generalizing bs with
  | nil => exact D.first
  | append_singleton as l ih =>
    have hls : ls = as ++ l :: bs := by simpa using h
    have hz := ih hls
    have hlen : as.length < ls.length := by simp [hls]
    have hnew : l ∉ as := by
      rw [hls] at hnd
      exact fun hl => (List.nodup_append.1 hnd).2.2 l hl l List.mem_cons_self rfl
    have hth : (exitLanes t as s).thread t l = s.thread t l :=
      (seatsGo_exitLanes t as s).threads l hnew (by simp [hready l (by simp [hls])])
    rw [List.length_append, exitLanes, List.foldl_append]
    exact D.keep _ _ _ (D.draw _ _ _ hlen hz hth).2 (undrawn_exitLaneGrain _ t l)

/-- Once all have left, a lane has what its draw gave it; its predicates are clear where no other thread's wait ended. -/
theorem DrawsGo.exited {as bs : List Nat} {l : Nat} (h : ls = as ++ l :: bs) :
    Exited (s.runOf t).cue ((exitLanes t ls s).thread t l) (it as.length l) ∧
      ((∀ j, (s.thread t j).st ≠ .waiting) → ∀ x, it as.length l = some x → ∀ p < 7,
        ((exitLanes t ls s).troupe t).reg (pKey l p) = 0) := by
  have hz := D.before hnd hready h
  rw [h] at hnd
  obtain ⟨-, hndr, hdis⟩ := List.nodup_append.1 hnd
  have hbefore := seatsGo_exitLanes t as s
  have hth := hbefore.threads l (fun hl => hdis l hl l List.mem_cons_self rfl) (by simp [hready l (by simp [h])])
  have hitem := (D.draw _ _ _ (by simp [h]) hz hth).1
  have hgone := exited_exitLaneGrain (exitLanes t as s) t l
  have hstep := seatsGo_exitLaneGrain t (exitLanes t as s) l
  rw [hitem, hbefore.cue] at hgone
  have hpreds : ∀ x, it as.length l = some x → ∀ p < 7, ((exitLaneGrain (exitLanes t as s) t l).troupe t).reg (pKey l p) = 0 :=
    fun x hx p hp => preds_exitLaneGrain (x := x) (Prod.ext rfl (hitem.trans hx)) hp
  have hls : exitLanes t ls s = exitLanes t bs (exitLaneGrain (exitLanes t as s) t l) := by
    rw [h, exitLanes, List.foldl_append]
    rfl
  have hafter := seatsGo_exitLanes t bs (exitLaneGrain (exitLanes t as s) t l)
  have hl : l ∉ bs := (List.nodup_cons.1 hndr).1
  rw [hls]
  refine ⟨by rwa [hafter.threads l hl hgone.not_waiting], fun hs x hx p hp => ?_⟩
  rw [hafter.regs (fun j hj => hs j (hbefore.waiting j (hstep.waiting j hj))) _ fun j hj i hi hk => ?_]
  · exact hpreds x hx p hp
  · have : j = l := by simp only [pKey] at hk; omega
    exact hl (this ▸ hj)

end

end Sys2Proof.Machine
end

section
/-! SUPPORT. The draws of a run that is no open node (R43-R45): each of its lanes' items by its place among those that draw. -/

namespace Sys2Proof.Machine

open Sys2Proof

/-! ### Draws by source -/

/-- The end of the items of a troupe's company. -/
def itemLimit (s : State) (t : Nat) : Nat := min (((s.companyOf t).index + 1) * (s.runOf t).range) (s.runOf t).items


theorem drawItem_determ {s : State} {t l : Nat} (hd : (s.runOf t).determ = true) : drawItem s t l =
    if (s.companyOf t).index * (s.runOf t).range + seatOf t l + (s.thread t l).draws * (32 * (s.runOf t).troupes) <
        itemLimit s t then
      (s.setThread t l { s.thread t l with draws := (s.thread t l).draws + 1 },
        some (BitVec.ofNat 64 ((s.companyOf t).index * (s.runOf t).range + seatOf t l +
            (s.thread t l).draws * (32 * (s.runOf t).troupes)),
          BitVec.ofNat 64 ((s.thread t l).draws * (32 * (s.runOf t).troupes) + seatOf t l)))
    else (s, none) := by
  unfold drawItem
  dsimp only
  rw [hd]
  exact if_pos rfl

/-- The state after a RANGED draw. -/
def rangedDrawn (s : State) (t : Nat) : State :=
  (s.updCompanyOf t fun c => { c with counter := c.counter + 1 }).updCompanyOf t fun c => { c with admitted := c.admitted + 1 }

theorem drawItem_ranged {s : State} {t l : Nat} (hd : (s.runOf t).determ = false) (hs : (s.runOf t).source = .ranged) :
    drawItem s t l = if (s.companyOf t).counter < itemLimit s t then
      (rangedDrawn s t, some (BitVec.ofNat 64 (s.companyOf t).counter, BitVec.ofNat 64 (s.companyOf t).admitted))
    else (s, none) := by
  unfold drawItem
  dsimp only
  rw [hd, hs]
  rfl

theorem drawItem_closed {s : State} {t l : Nat} (hd : (s.runOf t).determ = false) (hs : (s.runOf t).source = .callboard)
    (hc : (s.runOf t).closed = true) : drawItem s t l = (s, none) := by
  unfold drawItem
  dsimp only
  rw [hd, hs, hc]
  rfl

theorem runOf_rangedDrawn (s : State) (t : Nat) : (rangedDrawn s t).runOf t = s.runOf t :=
  (runOf_updCompanyOf (s := s.updCompanyOf t fun c => { c with counter := c.counter + 1 }) rfl).trans (runOf_updCompanyOf rfl)

theorem companyOf_rangedDrawn (s : State) (t : Nat) : (rangedDrawn s t).companyOf t =
    { s.companyOf t with counter := (s.companyOf t).counter + 1, admitted := (s.companyOf t).admitted + 1 } := by
  refine (State.company_setCompany_self _ _ _).trans ?_
  have h : (s.updCompanyOf t fun c => { c with counter := c.counter + 1 }).companyOf t =
      { s.companyOf t with counter := (s.companyOf t).counter + 1 } := State.company_setCompany_self _ _ _
  rw [h]

/-! ### The counters after some draws -/

/-- Run and company of a troupe as they were but for their counters and junctions; no byte has changed. -/
structure Drawn (t : Nat) (s : State) (rc ra cc ca : Nat) (z : State) : Prop where
  run     : z.runOf t = { s.runOf t with counter := rc, admitted := ra }
  company : { z.companyOf t with junctions := (s.companyOf t).junctions } = { s.companyOf t with counter := cc, admitted := ca }
  mem     : z.mem = s.mem

theorem Drawn.refl (t : Nat) (s : State) :
    Drawn t s (s.runOf t).counter (s.runOf t).admitted (s.companyOf t).counter (s.companyOf t).admitted s := ⟨rfl, rfl, rfl⟩

theorem Drawn.keep {t : Nat} {s z y : State} {rc ra cc ca : Nat} (h : Drawn t s rc ra cc ca z) (k : Undrawn z y) :
    Drawn t s rc ra cc ca y where
  run := (k.runOf t).trans h.run
  company := (congrArg (fun x : Company => { x with junctions := (s.companyOf t).junctions }) (k.company (companyKey t)) :).trans
    h.company
  mem := k.mem.trans h.mem

section
variable {t : Nat} {s z : State} {rc ra cc ca : Nat} (h : Drawn t s rc ra cc ca z)
include h

theorem Drawn.counters : (z.runOf t).counter = rc ∧ (z.runOf t).admitted = ra ∧ (z.companyOf t).counter = cc ∧
    (z.companyOf t).admitted = ca :=
  ⟨(congrArg Run.counter h.run :), (congrArg Run.admitted h.run :), (congrArg Company.counter h.company :),
    (congrArg Company.admitted h.company :)⟩

/-- What decides a draw, counters apart. -/
theorem Drawn.source : (z.runOf t).determ = (s.runOf t).determ ∧ (z.runOf t).source = (s.runOf t).source ∧
    (z.runOf t).closed = (s.runOf t).closed ∧ (z.runOf t).troupes = (s.runOf t).troupes :=
  ⟨(congrArg Run.determ h.run :), (congrArg Run.source h.run :), (congrArg Run.closed h.run :), (congrArg Run.troupes h.run :)⟩

theorem Drawn.limits : (z.runOf t).range = (s.runOf t).range ∧ (z.runOf t).items = (s.runOf t).items ∧
    (z.companyOf t).index = (s.companyOf t).index ∧ itemLimit z t = itemLimit s t := by
  have hr : (z.runOf t).range = (s.runOf t).range := (congrArg Run.range h.run :)
  have hi : (z.runOf t).items = (s.runOf t).items := (congrArg Run.items h.run :)
  have hx : (z.companyOf t).index = (s.companyOf t).index := (congrArg Company.index h.company :)
  exact ⟨hr, hi, hx, by rw [itemLimit, hr, hi, hx, itemLimit]⟩

theorem Drawn.shared : Drawn t s (rc + 1) ra cc (ca + 1) (sharedDrawn z t) where
  run := by rw [runOf_sharedDrawn, h.run]
  company := by
    obtain ⟨-, -, -, hca⟩ := h.counters
    rw [companyOf_sharedDrawn, hca]
    exact (congrArg (fun x : Company => { x with admitted := ca + 1 }) h.company :)
  mem := h.mem

theorem Drawn.ranged : Drawn t s rc ra (cc + 1) (ca + 1) (rangedDrawn z t) where
  run := (runOf_rangedDrawn z t).trans h.run
  company := by
    obtain ⟨-, -, hcc, hca⟩ := h.counters
    rw [companyOf_rangedDrawn, hcc, hca]
    exact (congrArg (fun x : Company => { x with counter := cc + 1, admitted := ca + 1 }) h.company :)
  mem := h.mem

end

/-! ### The item of a lane -/

/-- The item and admission number of the lane that draws `i`-th, where the run's counters give one. -/
def nextItem (s : State) (t i l : Nat) : Option (Nat × Nat) :=
  if (s.runOf t).determ then
    if (s.companyOf t).index * (s.runOf t).range + seatOf t l + (s.thread t l).draws * (32 * (s.runOf t).troupes) <
        itemLimit s t then
      some ((s.companyOf t).index * (s.runOf t).range + seatOf t l + (s.thread t l).draws * (32 * (s.runOf t).troupes),
        (s.thread t l).draws * (32 * (s.runOf t).troupes) + seatOf t l)
    else none
  else if (s.runOf t).source = .shared then
    if (s.runOf t).counter + i < (s.runOf t).items then some ((s.runOf t).counter + i, (s.companyOf t).admitted + i) else none
  else if (s.runOf t).source = .callboard then none
  else if (s.companyOf t).counter + i < itemLimit s t then
    some ((s.companyOf t).counter + i, (s.companyOf t).admitted + i)
  else none

/-- An item and an admission number as a thread holds them. -/
def itemWords (x : Nat × Nat) : Dword × Dword := (BitVec.ofNat 64 x.1, BitVec.ofNat 64 x.2)

/-- The counters' part of `nextItem` after `i` draws up to a limit: how many have succeeded. -/
def taken (c limit i : Nat) : Nat := min i (limit - c)

theorem taken_zero (c limit : Nat) : taken c limit 0 = 0 := Nat.zero_min _
theorem taken_lt {c limit i : Nat} : c + taken c limit i < limit ↔ c + i < limit := by
  unfold taken
  omega
theorem taken_of_lt {c limit i : Nat} (h : c + i < limit) : taken c limit i = i ∧ taken c limit (i + 1) = i + 1 := by
  unfold taken
  omega
theorem taken_of_ge {c limit i : Nat} (h : ¬c + i < limit) : taken c limit (i + 1) = taken c limit i := by
  unfold taken
  omega

section
variable (t : Nat) (ls : List Nat) (s : State)

theorem drawsGo_determ (hd : (s.runOf t).determ = true) : DrawsGo t ls s
    (fun _ => Drawn t s (s.runOf t).counter (s.runOf t).admitted (s.companyOf t).counter (s.companyOf t).admitted)
    fun i l => (nextItem s t i l).map itemWords where
  first := .refl t s
  draw i z l _ hz hth := by
    obtain ⟨hdz, -, -, htr⟩ := hz.source
    obtain ⟨hra, -, hix, hlim⟩ := hz.limits
    rw [drawItem_determ (hdz.trans hd), hth, hlim, hra, hix, htr, nextItem, if_pos hd]
    split
    · exact ⟨rfl, hz.keep ⟨rfl, fun _ => rfl⟩⟩
    · exact ⟨rfl, hz⟩
  keep _ _ _ h k := h.keep k

theorem drawsGo_shared (hd : (s.runOf t).determ = false) (hs : (s.runOf t).source = .shared) : DrawsGo t ls s
    (fun i =>
      Drawn t s ((s.runOf t).counter + taken (s.runOf t).counter (s.runOf t).items i) (s.runOf t).admitted
        (s.companyOf t).counter ((s.companyOf t).admitted + taken (s.runOf t).counter (s.runOf t).items i))
    fun i l => (nextItem s t i l).map itemWords where
  first := by
    rw [taken_zero]
    exact .refl t s
  draw i z l _ hz _ := by
    obtain ⟨hdz, hsz, -, -⟩ := hz.source
    obtain ⟨hrc, -, -, hca⟩ := hz.counters
    obtain ⟨-, hitems, -, -⟩ := hz.limits
    rw [drawItem_shared (hdz.trans hd) (hsz.trans hs), hrc, hitems, hca, nextItem,
      if_neg (show ¬(s.runOf t).determ = true by simp [hd]), if_pos hs]
    by_cases hlt : (s.runOf t).counter + i < (s.runOf t).items
    · obtain ⟨hi, hi1⟩ := taken_of_lt hlt
      rw [if_pos (taken_lt.2 hlt), if_pos hlt, hi1]
      rw [hi] at hz ⊢
      exact ⟨rfl, hz.shared⟩
    · rw [if_neg (mt taken_lt.1 hlt), if_neg hlt, taken_of_ge hlt]
      exact ⟨rfl, hz⟩
  keep _ _ _ h k := h.keep k

theorem drawsGo_ranged (hd : (s.runOf t).determ = false) (hs : (s.runOf t).source = .ranged) : DrawsGo t ls s
    (fun i => Drawn t s (s.runOf t).counter (s.runOf t).admitted
      ((s.companyOf t).counter + taken (s.companyOf t).counter (itemLimit s t) i)
      ((s.companyOf t).admitted + taken (s.companyOf t).counter (itemLimit s t) i))
    fun i l => (nextItem s t i l).map itemWords where
  first := by
    rw [taken_zero]
    exact .refl t s
  draw i z l _ hz _ := by
    obtain ⟨hdz, hsz, -, -⟩ := hz.source
    obtain ⟨-, -, hcc, hca⟩ := hz.counters
    obtain ⟨-, -, -, hlim⟩ := hz.limits
    rw [drawItem_ranged (hdz.trans hd) (hsz.trans hs), hcc, hca, hlim, nextItem, if_neg (show ¬(s.runOf t).determ = true by simp [hd]),
      if_neg (show ¬(s.runOf t).source = .shared by simp [hs]),
      if_neg (show ¬(s.runOf t).source = .callboard by simp [hs])]
    by_cases hlt : (s.companyOf t).counter + i < itemLimit s t
    · obtain ⟨hi, hi1⟩ := taken_of_lt hlt
      rw [if_pos (taken_lt.2 hlt), if_pos hlt, hi1]
      rw [hi] at hz ⊢
      exact ⟨rfl, hz.ranged⟩
    · rw [if_neg (mt taken_lt.1 hlt), if_neg hlt, taken_of_ge hlt]
      exact ⟨rfl, hz⟩
  keep _ _ _ h k := h.keep k

theorem drawsGo_closed (hd : (s.runOf t).determ = false) (hs : (s.runOf t).source = .callboard) (hc : (s.runOf t).closed = true) :
    DrawsGo t ls s
    (fun _ => Drawn t s (s.runOf t).counter (s.runOf t).admitted (s.companyOf t).counter (s.companyOf t).admitted)
    fun i l => (nextItem s t i l).map itemWords where
  first := .refl t s
  draw i z l _ hz _ := by
    obtain ⟨hdz, hsz, hcz, -⟩ := hz.source
    rw [drawItem_closed (hdz.trans hd) (hsz.trans hs) (hcz.trans hc), nextItem, if_neg (show ¬(s.runOf t).determ = true by simp [hd]), 
      if_neg (show ¬(s.runOf t).source = .shared by simp [hs]), if_pos hs]
    exact ⟨rfl, hz⟩
  keep _ _ _ h k := h.keep k

/-- The draws of a run that is no open node go by its counters, and change no byte. -/
theorem drawsGo_nextItem (h : (s.runOf t).source ≠ .callboard ∨ (s.runOf t).closed = true) :
    ∃ Q, DrawsGo t ls s Q (fun i l => (nextItem s t i l).map itemWords) ∧ ∀ i z, Q i z → z.mem = s.mem := by
  by_cases hd : (s.runOf t).determ = true
  · exact ⟨_, drawsGo_determ t ls s hd, fun _ _ hz => hz.mem⟩
  · have hd' := eq_false_of_ne_true hd
    cases hs : (s.runOf t).source with
    | shared => exact ⟨_, drawsGo_shared t ls s hd' hs, fun _ _ hz => hz.mem⟩
    | ranged => exact ⟨_, drawsGo_ranged t ls s hd' hs, fun _ _ hz => hz.mem⟩
    | callboard => exact ⟨_, drawsGo_closed t ls s hd' hs (h.resolve_left fun hn => hn hs), fun _ _ hz => hz.mem⟩

end

end Sys2Proof.Machine
end

section
/-! SUPPORT. EXIT: who stalls, who leaves, and the statement where no node's queue is read (R48-R50, R257, R364). -/

namespace Sys2Proof.Machine

open Sys2Proof

/-! ### Places -/

theorem lanes_sorted (m : Mask) : (lanes m).Pairwise (· < ·) := List.Pairwise.filter _ List.pairwise_lt_range

/-- In a rising list the members below one are those before it. -/
theorem split_at_place {ls : List Nat} {l : Nat} (h : ls.Pairwise (· < ·)) (hl : l ∈ ls) :
    ∃ as bs, ls = as ++ l :: bs ∧ (ls.filter fun j => decide (j < l)) = as ∧ ls.idxOf l = as.length := by
  obtain ⟨as, bs, rfl⟩ := List.append_of_mem hl
  obtain ⟨-, hright, hbelow⟩ := List.pairwise_append.1 h
  have habove := (List.pairwise_cons.1 hright).1
  have hnot : l ∉ as := fun hin => Nat.lt_irrefl _ (hbelow l hin l List.mem_cons_self)
  refine ⟨as, bs, rfl, ?_, ?_⟩
  · have has : as.filter (fun j => decide (j < l)) = as :=
      List.filter_eq_self.2 fun j hj => decide_eq_true (hbelow j hj l List.mem_cons_self)
    have hbs : bs.filter (fun j => decide (j < l)) = [] :=
      List.filter_eq_nil_iff.2 fun j hj => by simpa using (habove j hj).le
    simp [List.filter_append, has, hbs]
  · rw [List.idxOf_append_of_notMem hnot]
    simp

/-! ### HELD (R49) -/

theorem waitersGo_seatHeld (s : State) (c seat : Nat) : WaitersGo s (seatHeld s c seat) := waitersGo_memberEvent s c seat _

/-- A thread that changes alone, into a state that is not WAITING. -/
theorem seatOnly_setThread (s : State) (t l : Nat) (x : Thread) : SeatOnly t l s (s.setThread t l x) where
  rest := rfl
  others u hu := State.troupe_setThread_ne _ _ _ hu
  troupe := by rw [State.troupe_setThread_self]; rfl
  threads j hj := by
    rw [State.thread, State.troupe_setThread_self, Troupe.thread_setThread_ne _ _ hj]
    rfl
  regs k _ := by rw [State.troupe_setThread_self]; rfl

theorem thread_setThread_same (s : State) (t l : Nat) (x : Thread) : (s.setThread t l x).thread t l = x := by
  rw [State.thread, State.troupe_setThread_self, Troupe.thread_setThread_self]

theorem seatsGo_exitHeld (t : Nat) (s : State) (l : Nat) : SeatsGo t [l] s (exitHeld s t l) :=
  ((seatOnly_setThread s t l _).seatsGo (by rw [thread_setThread_same]; exact nofun)).trans ((waitersGo_seatHeld _ _ _).seatsGo t)

theorem thread_exitHeld (s : State) (t l : Nat) :
    (exitHeld s t l).thread t l = { s.thread t l with st := .held, wait := .none } :=
  ((waitersGo_seatHeld (s.setThread t l { s.thread t l with st := .held, wait := .none }) _ _).threads t l
    (by rw [thread_setThread_same]; exact nofun)).trans (thread_setThread_same _ _ _ _)

theorem undrawn_exitHeld (s : State) (t l : Nat) : Undrawn s (exitHeld s t l) :=
  (seatOnly_setThread s t l _).undrawn.trans (waitersGo_seatHeld _ _ _).undrawn

/-- EXIT of some threads that become HELD. -/
def holdLanes (t : Nat) (ls : List Nat) (s : State) : State := ls.foldl (fun z l => exitHeld z t l) s

theorem seatsGo_holdLanes (t : Nat) (ls : List Nat) (s : State) : SeatsGo t ls s (holdLanes t ls s) :=
  .foldl (fun z l => seatsGo_exitHeld t z l) ls s

theorem holdLanes_cons (t l : Nat) (ls : List Nat) (s : State) : holdLanes t (l :: ls) s = holdLanes t ls (exitHeld s t l) := by
  rw [holdLanes, List.foldl_cons, holdLanes]

theorem thread_holdLanes {t : Nat} {ls : List Nat} (hnd : ls.Nodup) : ∀ {s : State}, (∀ l ∈ ls, (s.thread t l).st = .ready) →
    ∀ l ∈ ls, (holdLanes t ls s).thread t l = { s.thread t l with st := .held, wait := .none } := by
  induction ls with
  | nil => exact fun _ l hl => nomatch hl
  | cons a r ih =>
    intro s hready l hl
    obtain ⟨har, hr⟩ := List.nodup_cons.1 hnd
    have hstep (j : Nat) (hj : j ∈ r) : (exitHeld s t a).thread t j = s.thread t j :=
      (seatsGo_exitHeld t s a).threads j (by simpa using fun he : j = a => har (he ▸ hj))
        (by rw [hready j (List.mem_cons_of_mem _ hj)]; exact nofun)
    rcases List.mem_cons.1 hl with rfl | hlr
    · have hheld := thread_exitHeld s t l
      rw [holdLanes_cons, (seatsGo_holdLanes t r (exitHeld s t l)).threads l har (by rw [hheld]; exact nofun), hheld]
    · have hready' (j : Nat) (hj : j ∈ r) : ((exitHeld s t a).thread t j).st = .ready := by
        rw [hstep j hj, hready j (List.mem_cons_of_mem _ hj)]
      rw [holdLanes_cons, ih hr hready' l hlr, hstep l hlr]

theorem undrawn_holdLanes (t : Nat) (ls : List Nat) (s : State) : Undrawn s (holdLanes t ls s) :=
  List.foldlRecOn (motive := Undrawn s) ls _ ⟨rfl, fun _ => rfl⟩ fun _ hz l _ => hz.trans (undrawn_exitHeld _ t l)

/-! ### The instruction -/

/-- Threads that an EXIT stalls, and those that leave. -/
def exitStalls (s : State) (c : Ctx) : Mask := (exitStall s c).1 ||| (exitStall s c).2
def exitGo (s : State) (c : Ctx) : Mask := c.act &&& ~~~exitStalls s c
/-- What a stalled EXIT waits for. -/
def exitWait (s : State) (c : Ctx) : Wait := if (exitStall s c).2 = 0 then .owed else .hazard
/-- Do the threads that leave draw at once? -/
def drawsNow (s : State) (c : Ctx) : Bool := (s.runOf c.t).grain = 0 && (s.troupe c.t).status != .handler
/-- The state in which the threads that leave have issued. -/
def exitIssued (s : State) (c : Ctx) : State := s.mapLanes c.t (exitGo s c) fun _ th => th.clause c.hdr
/-- The state when all of them have left. -/
def exitLeft (s : State) (c : Ctx) : State :=
  if drawsNow s c then exitLanes c.t (lanes (exitGo s c)) (exitIssued s c) else holdLanes c.t (lanes (exitGo s c)) (exitIssued s c)
/-- What follows for points, instances, bundles, the troupe and the units. -/
def exitSettled (z : State) (t : Nat) (m : Mask) : State :=
  queueRefills (retireCheck (bundleByPc (allCheck (cvLeave z t m) t) t m) t) (companyKey t)

theorem exec_exit_next {h : Hdr} {s : State} {c : Ctx} (hi : Issues (.exit h) s c) : exec (.exit h) s =
    .next (finish c (.part (exitSettled (exitLeft s.begun c) c.t (exitGo s.begun c)) (exitStalls s.begun c) (exitWait s.begun c))) := by
  rw [exec_exit, execExit, issue_next hi]
  unfold exitLeft drawsNow
  cases (decide ((s.begun.runOf c.t).grain = 0) && (s.begun.troupe c.t).status != .handler) <;> rfl

theorem waitersGo_exitSettled (z : State) (t : Nat) (m : Mask) : WaitersGo z (exitSettled z t m) :=
  (((waitersGo_cvLeave z t m).trans (waitersGo_allCheck _ t)).trans (waitersGo_bundleByPc _ t m)).trans
    ((waitersGo_retireCheck _ t).trans (waitersGo_queueRefills _ _))

theorem seatsGo_exitLeft (s : State) (c : Ctx) : SeatsGo c.t (lanes (exitGo s c)) (exitIssued s c) (exitLeft s c) := by
  unfold exitLeft
  split
  · exact seatsGo_exitLanes _ _ _
  · exact seatsGo_holdLanes _ _ _

theorem thread_finish_part (c : Ctx) (z : State) (m : Mask) (w : Wait) (l : Nat) : (finish c (.part z m w)).thread c.t l =
    if hasLane m l then
      { (if hasLane c.mask l && !(hasLane c.act l || hasLane m l) then (z.thread c.t l).advance c.hdr else z.thread c.t l) with
        st := .stalled, wait := w }
    else if hasLane c.mask l && !(hasLane c.act l || hasLane m l) then (z.thread c.t l).advance c.hdr else z.thread c.t l := by
  rw [finish, thread_mapLanes, thread_mapLanes, hasLane_diff, hasLane_or]

theorem reg_finish_part (c : Ctx) (z : State) (m : Mask) (w : Wait) (k : Nat) :
    ((finish c (.part z m w)).troupe c.t).reg k = (z.troupe c.t).reg k := by
  rw [finish, State.troupe_mapLanes_self, Troupe.reg_mapLanes, State.troupe_mapLanes_self, Troupe.reg_mapLanes]

theorem runOf_finish_part (c : Ctx) (z : State) (m : Mask) (w : Wait) (t : Nat) :
    (finish c (.part z m w)).runOf t = z.runOf t := runOf_congr rfl rfl t

theorem mem_finish_part (c : Ctx) (z : State) (m : Mask) (w : Wait) : (finish c (.part z m w)).mem = z.mem := rfl

theorem thread_exitIssued (s : State) (c : Ctx) (l : Nat) : (exitIssued s c).thread c.t l =
    if hasLane (exitGo s c) l then (s.thread c.t l).clause c.hdr else s.thread c.t l := thread_mapLanes _ _ _ _ _

theorem st_exitIssued (s : State) (c : Ctx) (l : Nat) : ((exitIssued s c).thread c.t l).st = (s.thread c.t l).st := by
  rw [thread_exitIssued]
  split <;> rfl

/-- How an EXIT ends for each thread of its bundle, given the state `z` when those that leave have left. -/
structure ExitEnds (s : State) (c : Ctx) (z t : State) : Prop where
  mem     : t.mem = z.mem
  runOf   : t.runOf c.t = z.runOf c.t
  stalled : ∀ l, hasLane (exitStalls s c) l = true → t.thread c.t l = { s.thread c.t l with st := .stalled, wait := exitWait s c }
  passed  : ∀ l, hasLane c.mask l = true → hasLane c.act l = false → t.thread c.t l = (s.thread c.t l).advance c.hdr
  gone    : ∀ l, hasLane (exitGo s c) l = true → (z.thread c.t l).st ≠ .waiting → t.thread c.t l = z.thread c.t l
  regs    : (∀ j, (s.thread c.t j).st ≠ .waiting) → ∀ k, (t.troupe c.t).reg k = (z.troupe c.t).reg k

theorem hasLane_exitStalls_le {s : State} {c : Ctx} {l : Nat} (h : hasLane (exitStalls s c) l = true) : hasLane c.act l = true := by
  simp only [exitStalls, exitStall, hasLane_or, hasLane_maskOf, hasLane_diff, Bool.or_eq_true, Bool.and_eq_true] at h
  rcases h with h | h
  · exact h.2.1
  · exact h.2.1.1

theorem hasLane_exitGo (s : State) (c : Ctx) (l : Nat) :
    hasLane (exitGo s c) l = (hasLane c.act l && !hasLane (exitStalls s c) l) := hasLane_diff _ _ _

theorem exitEnds {s : State} {c : Ctx} (hw : Awake c s) (hle : ∀ l, hasLane c.act l = true → hasLane c.mask l = true) :
    ExitEnds s c (exitLeft s c)
      (finish c (.part (exitSettled (exitLeft s c) c.t (exitGo s c)) (exitStalls s c) (exitWait s c))) := by
  have hset := waitersGo_exitSettled (exitLeft s c) c.t (exitGo s c)
  have hleft := seatsGo_exitLeft s c
  have hstay (l : Nat) (hm : hasLane c.mask l = true) (hgo : hasLane (exitGo s c) l = false) :
      (exitSettled (exitLeft s c) c.t (exitGo s c)).thread c.t l = s.thread c.t l := by
    have hst : (s.thread c.t l).st ≠ .waiting := by rw [hw l hm]; exact nofun
    have h1 := hleft.threads l (by simp [mem_lanes, hgo]) (by rwa [st_exitIssued])
    rw [thread_exitIssued, if_neg (by simp [hgo])] at h1
    rw [hset.threads c.t l (by rwa [h1]), h1]
  refine ⟨?_, ?_, fun l hl => ?_, fun l hm ha => ?_, fun l hl hst => ?_, fun hs k => ?_⟩
  · rw [mem_finish_part, hset.mem]
  · rw [runOf_finish_part, hset.runOf]
  · have ha := hasLane_exitStalls_le hl
    rw [thread_finish_part, if_pos hl, if_neg (by simp [ha]), hstay l (hle l ha) (by rw [hasLane_exitGo, hl]; simp)]
  · have hns : hasLane (exitStalls s c) l = false :=
      eq_false_of_ne_true fun h => by rw [hasLane_exitStalls_le h] at ha; cases ha
    rw [thread_finish_part, if_neg (by simp [hns]), if_pos (by simp [hm, ha, hns]), hstay l hm (by rw [hasLane_exitGo, ha]; rfl)]
  · rw [hasLane_exitGo, Bool.and_eq_true, Bool.not_eq_true'] at hl
    rw [thread_finish_part, if_neg (by simp [hl.2]), if_neg (by simp [hl.1]), hset.threads c.t l hst]
  · rw [reg_finish_part]
    refine hset.regs c.t (fun j hj => hs j ?_) k
    rw [← st_exitIssued]
    exact hleft.waiting j hj

end Sys2Proof.Machine
end

section
/-! SUPPORT. EXIT where no node's queue is read (R48-R50, R257, R364). -/

namespace Sys2Proof.Machine

open Sys2Proof

/-! ### Who leaves -/

/-- Is a lane owed a register write (R49)? -/
def owesLane (tr : Troupe) (l : Nat) : Bool := tr.pend.any fun p => hasLane p.lanes l

theorem hasLane_exitStall_owed (s : State) (c : Ctx) (l : Nat) :
    hasLane (exitStall s c).1 l = (hasLane c.act l && owesLane (s.troupe c.t) l) := by
  rw [exitStall, hasLane_maskOf]
  by_cases ha : hasLane c.act l = true
  · simp [ha, lt_of_hasLane ha, owesLane]
  · simp [ha]

/-- The lanes of a mask that is part of another one. -/
theorem lanes_eq_filter {m n : Mask} {p : Nat → Bool} (h : ∀ l, hasLane n l = (hasLane m l && p l)) :
    lanes n = (lanes m).filter p := by
  rw [lanes, lanes, List.filter_filter]
  exact List.filter_congr fun l _ => (h l).trans (Bool.and_comm _ _)

/-- The lanes of Active that are owed no write. -/
def freeLanes (s : State) (c : Ctx) : List Nat := (lanes c.act).filter fun l => !owesLane (s.troupe c.t) l

theorem mem_freeLanes {s : State} {c : Ctx} {l : Nat} :
    l ∈ freeLanes s c ↔ hasLane c.act l = true ∧ owesLane (s.troupe c.t) l = false := by
  simp [freeLanes, mem_lanes]

theorem freeLanes_eq (s : State) (c : Ctx) : lanes (c.act &&& ~~~(exitStall s c).1) = freeLanes s c :=
  lanes_eq_filter fun l => by
    rw [hasLane_diff, hasLane_exitStall_owed]
    cases hasLane c.act l <;> simp

/-- A lane's place among those of Active that are owed no write: the earlier ones in lane order. -/
theorem split_freeLanes {s : State} {c : Ctx} {l : Nat} (hl : l ∈ freeLanes s c) : ∃ as bs, freeLanes s c = as ++ l :: bs ∧
    as.length = ((lanes c.act).filter fun j => !owesLane (s.troupe c.t) j && decide (j < l)).length ∧
    (freeLanes s c).idxOf l = as.length := by
  have hsorted : (freeLanes s c).Pairwise (· < ·) := List.Pairwise.filter _ (lanes_sorted c.act)
  obtain ⟨as, bs, hls, hbelow, hidx⟩ := split_at_place hsorted hl
  refine ⟨as, bs, hls, ?_, hidx⟩
  rw [← hbelow, freeLanes, List.filter_filter]
  congr 1
  exact List.filter_congr fun j _ => Bool.and_comm _ _

theorem idxOf_freeLanes {s : State} {c : Ctx} {l : Nat} (hl : l ∈ freeLanes s c) : (freeLanes s c).idxOf l =
    ((lanes c.act).filter fun j => !owesLane (s.troupe c.t) j && decide (j < l)).length := by
  obtain ⟨as, bs, -, hlen, hidx⟩ := split_freeLanes hl
  exact hidx.trans hlen

theorem hasLane_exitStall_draw (s : State) (c : Ctx) (l : Nat) : hasLane (exitStall s c).2 l =
    (decide (l < 32) && (hasLane (c.act &&& ~~~(exitStall s c).1) l && drawWaits s c.t l ((freeLanes s c).idxOf l))) := by
  rw [← freeLanes_eq, exitStall, hasLane_maskOf]

/-- Where no draw waits, the threads that are owed a write stall for it and the others leave. -/
theorem exit_of_no_wait {s : State} {c : Ctx}
    (h : ∀ l, hasLane c.act l = true → owesLane (s.troupe c.t) l = false → drawWaits s c.t l ((freeLanes s c).idxOf l) = false) :
    (∀ l, hasLane (exitStalls s c) l = (hasLane c.act l && owesLane (s.troupe c.t) l)) ∧ exitWait s c = .owed ∧
      lanes (exitGo s c) = freeLanes s c := by
  have hnone : (exitStall s c).2 = 0 := by
    refine BitVec.eq_of_getLsbD_eq fun l _ => ?_
    change hasLane (exitStall s c).2 l = hasLane 0 l
    rw [hasLane_exitStall_draw, hasLane_diff, hasLane_exitStall_owed, show hasLane 0 l = false from BitVec.getLsbD_zero]
    cases ha : hasLane c.act l
    · simp
    · cases ho : owesLane (s.troupe c.t) l
      · simp [h l ha ho]
      · simp
  have hstalls (l : Nat) : hasLane (exitStalls s c) l = (hasLane c.act l && owesLane (s.troupe c.t) l) := by
    rw [exitStalls, hnone, hasLane_or, hasLane_exitStall_owed]
    simp [hasLane]
  refine ⟨hstalls, if_pos hnone, lanes_eq_filter fun l => ?_⟩
  rw [hasLane_exitGo, hstalls]
  cases hasLane c.act l <;> simp

theorem drawWaits_false {s : State} {t : Nat}
    (h : (s.runOf t).source ≠ .callboard ∨ (s.runOf t).closed = true ∨ (s.troupe t).status = .handler) (l j : Nat) :
    drawWaits s t l j = false := by
  unfold drawWaits
  dsimp only
  rcases h with h | h | h
  · simp [h]
  · simp [h]
  · simp [h]

/-! ### What those that leave become -/

theorem exitLeft_draws {s : State} {c : Ctx} (hg : (s.runOf c.t).grain = 0) (hst : (s.troupe c.t).status ≠ .handler) :
    exitLeft s c = exitLanes c.t (lanes (exitGo s c)) (exitIssued s c) := if_pos (by simp [drawsNow, hg, hst])

theorem exitLeft_holds {s : State} {c : Ctx} (h : (s.runOf c.t).grain ≠ 0 ∨ (s.troupe c.t).status = .handler) :
    exitLeft s c = holdLanes c.t (lanes (exitGo s c)) (exitIssued s c) :=
  if_neg (by rcases h with h | h <;> simp [drawsNow, h])

theorem nextItem_exitIssued (s : State) (c : Ctx) (i l : Nat) : nextItem (exitIssued s c) c.t i l = nextItem s c.t i l := by
  have hdraws : ((exitIssued s c).thread c.t l).draws = (s.thread c.t l).draws := by
    rw [thread_exitIssued]
    split <;> rfl
  unfold nextItem
  rw [hdraws]
  rfl

section
variable {s : State} {c : Ctx} (hw : Awake c s) (hle : ∀ l, hasLane c.act l = true → hasLane c.mask l = true)
include hw hle

theorem ready_exitIssued : ∀ l ∈ lanes (exitGo s c), ((exitIssued s c).thread c.t l).st = .ready := by
  intro l hl
  have hgo := mem_lanes.1 hl
  rw [hasLane_exitGo, Bool.and_eq_true] at hgo
  rw [st_exitIssued]
  exact hw l (hle l hgo.1)

theorem held_exitLeft (h : (s.runOf c.t).grain ≠ 0 ∨ (s.troupe c.t).status = .handler) {l : Nat}
    (hl : l ∈ lanes (exitGo s c)) :
    ((exitLeft s c).thread c.t l).st = .held ∧ ((exitLeft s c).thread c.t l).pc = (s.thread c.t l).pc := by
  rw [exitLeft_holds h, thread_holdLanes (lanes_nodup _) (ready_exitIssued hw hle) l hl, thread_exitIssued, if_pos (mem_lanes.1 hl)]
  exact ⟨rfl, rfl⟩

/-- What draws give each thread that leaves. -/
theorem exited_exitLeft (hg : (s.runOf c.t).grain = 0) (hst : (s.troupe c.t).status ≠ .handler)
    {Q : Nat → State → Prop} {it : Nat → Nat → Option (Dword × Dword)}
    (D : DrawsGo c.t (lanes (exitGo s c)) (exitIssued s c) Q it) {as bs : List Nat} {l : Nat}
    (hls : lanes (exitGo s c) = as ++ l :: bs) :
    Exited (s.runOf c.t).cue ((exitLeft s c).thread c.t l) (it as.length l) ∧
      ((∀ j, (s.thread c.t j).st ≠ .waiting) → ∀ x, it as.length l = some x → ∀ p < 7,
        ((exitLeft s c).troupe c.t).reg (pKey l p) = 0) := by
  obtain ⟨hth, hpreds⟩ := D.exited (lanes_nodup _) (ready_exitIssued hw hle) hls
  rw [exitLeft_draws hg hst]
  exact ⟨hth, fun hs => hpreds fun j => by rw [st_exitIssued]; exact hs j⟩

/-- What EXIT leaves when its run's counters give the items. -/
theorem exit_counted (hsrc : (s.runOf c.t).source ≠ .callboard ∨ (s.runOf c.t).closed = true ∨ (s.troupe c.t).status = .handler)
    {t : State} (E : ExitEnds s c (exitLeft s c) t) :
    t.mem = s.mem ∧
    (∀ l, hasLane c.act l = true → owesLane (s.troupe c.t) l = true →
      t.thread c.t l = { s.thread c.t l with st := .stalled, wait := .owed }) ∧
    (∀ l, hasLane c.act l = true → owesLane (s.troupe c.t) l = false →
      ((s.runOf c.t).grain ≠ 0 ∨ (s.troupe c.t).status = .handler) →
      (t.thread c.t l).st = .held ∧ (t.thread c.t l).pc = (s.thread c.t l).pc) ∧
    ∀ l, hasLane c.act l = true → owesLane (s.troupe c.t) l = false → (s.runOf c.t).grain = 0 →
      (s.troupe c.t).status ≠ .handler →
      let o := nextItem s c.t ((lanes c.act).filter fun j => !owesLane (s.troupe c.t) j && decide (j < l)).length l
      Exited (s.runOf c.t).cue (t.thread c.t l) (o.map itemWords) ∧
        ((∀ j, (s.thread c.t j).st ≠ .waiting) → ∀ x, o = some x → ∀ p < 7, (t.troupe c.t).reg (pKey l p) = 0) := by
  obtain ⟨hstalls, hwait, hgo⟩ := exit_of_no_wait (s := s) (c := c) fun l _ _ => drawWaits_false hsrc l _
  have hin {l : Nat} (ha : hasLane c.act l = true) (ho : owesLane (s.troupe c.t) l = false) : l ∈ lanes (exitGo s c) :=
    hgo ▸ mem_freeLanes.2 ⟨ha, ho⟩
  refine ⟨E.mem.trans ?_, fun l ha ho => ?_, fun l ha ho hh => ?_, fun l ha ho hg hst => ?_⟩
  · by_cases hh : (s.runOf c.t).grain ≠ 0 ∨ (s.troupe c.t).status = .handler
    · rw [exitLeft_holds hh]
      exact (undrawn_holdLanes _ _ _).mem
    · rw [not_or, not_not] at hh
      obtain ⟨Q, D, hQ⟩ := drawsGo_nextItem c.t (lanes (exitGo s c)) (exitIssued s c) (by
        rcases hsrc with h | h | h
        · exact .inl h
        · exact .inr h
        · exact absurd h hh.2)
      rw [exitLeft_draws hh.1 hh.2]
      exact hQ _ _ (D.before (lanes_nodup _) (ready_exitIssued hw hle) (List.append_nil _).symm)
  · rw [E.stalled l (by rw [hstalls, ha, ho]; rfl), hwait]
  · have hheld := held_exitLeft hw hle hh (hin ha ho)
    rw [E.gone l (mem_lanes.1 (hin ha ho)) (by rw [hheld.1]; exact nofun)]
    exact hheld
  · obtain ⟨Q, D, -⟩ := drawsGo_nextItem c.t (lanes (exitGo s c)) (exitIssued s c) (by
      rcases hsrc with h | h | h
      · exact .inl h
      · exact .inr h
      · exact absurd h hst)
    obtain ⟨as, bs, hls, hlen, -⟩ := split_freeLanes (mem_freeLanes.2 ⟨ha, ho⟩)
    obtain ⟨hex, hpreds⟩ := exited_exitLeft hw hle hg hst D (hgo.trans hls)
    simp only [nextItem_exitIssued, hlen] at hex hpreds
    refine ⟨?_, fun hs x hx p hp => ?_⟩
    · rw [E.gone l (mem_lanes.1 (hin ha ho)) hex.not_waiting]
      exact hex
    · rw [E.regs hs]
      exact hpreds hs (itemWords x) (by rw [hx]; rfl) p hp

end

end Sys2Proof.Machine
end

section
/-! SUPPORT. The seats of a node: their items are the records of its queue, taken by DEQ from the oldest on (R79, R364). -/

namespace Sys2Proof.Machine

open Sys2Proof

/-! ### Words of clean memory -/

theorem readN_lt (m : Memory) (n : Nat) : ∀ a, m.readN a n < 256 ^ n := by
  induction n with
  | zero => exact fun _ => Nat.one_pos
  | succ n ih =>
    intro a
    have hb := (m.byte a).isLt
    have hr := ih (a + 1)
    rw [Memory.readN, Nat.pow_succ]
    omega

theorem readN_of_bytes {m : Memory} (n : Nat) : ∀ {a x : Nat}, (∀ k < n, m.byte (a + k) = BitVec.ofNat 8 (x / 256 ^ k)) →
    m.readN a n = x % 256 ^ n := by
  induction n with
  | zero => exact fun _ => (Nat.mod_one _).symm
  | succ n ih =>
    intro a x h
    have hlow : (m.byte a).toNat = x % 256 := by
      have h0 := h 0 (Nat.succ_pos n)
      rw [Nat.add_zero, Nat.pow_zero, Nat.div_one] at h0
      rw [h0, BitVec.toNat_ofNat]
    have hhigh : m.readN (a + 1) n = x / 256 % 256 ^ n := ih fun k hk => by
      rw [Nat.add_assoc, Nat.add_comm 1 k, h (k + 1) (by omega), Nat.div_div_eq_div_mul, Nat.pow_succ, Nat.mul_comm]
    rw [Memory.readN, hlow, hhigh, Nat.pow_succ', Nat.mod_mul]

theorem leNat_bytes (m : Memory) (n : Nat) : ∀ a, leNat ((List.range n).map fun k => m.byte (a + k)) = m.readN a n := by
  induction n with
  | zero => exact fun _ => rfl
  | succ n ih =>
    intro a
    have htail : (List.range n).map ((fun k => m.byte (a + k)) ∘ Nat.succ) = (List.range n).map fun k => m.byte (a + 1 + k) :=
      List.map_congr_left fun k _ => by simp only [Function.comp_apply, Nat.succ_eq_add_one]; congr 1; omega
    rw [List.range_succ_eq_map, List.map_cons, List.map_map, htail, Memory.readN, ← ih (a + 1)]
    rfl

theorem poisoned_part {s : State} {a n b m : Nat} (h : poisoned s a n = false) (hlo : a ≤ b) (hhi : b + m ≤ a + n) :
    poisoned s b m = false := by
  simp only [poisoned, List.any_eq_false, overlaps, Bool.and_eq_true, decide_eq_true_eq] at h ⊢
  intro p hp hb
  exact h p hp (by omega)

theorem cleanN_eq_readN {s : State} {a n : Nat} (h : poisoned s a n = false) : cleanN s a n = s.mem.readN a n := by
  rw [cleanN, cleanBytes, ← leNat_bytes]
  congr 1
  refine List.map_congr_left fun k hk => if_neg fun hc => ?_
  have hk := List.mem_range.1 hk
  have := List.any_eq_false.1 h _ (List.contains_iff_mem.1 hc)
  simp only [overlaps, Bool.and_eq_true, decide_eq_true_eq] at this
  omega

/-- A word reads the same where its bytes and the poison are as they were. -/
theorem cleanN_congr {s z : State} {a n : Nat} (hp : z.poison = s.poison) (hb : ∀ k < n, z.mem.byte (a + k) = s.mem.byte (a + k)) :
    cleanN z a n = cleanN s a n := by
  rw [cleanN, cleanBytes, cleanN, cleanBytes]
  congr 1
  refine List.map_congr_left fun k hk => ?_
  rw [cleanByte, hp, hb k (List.mem_range.1 hk), cleanByte]

/-! ### A write at the home of clean bytes -/

theorem poison_homeWrite {s : State} (w : Who) {a : Nat} {bs : List Byte} (hp : poisoned s a bs.length = false) :
    (homeWrite s w a bs).poison = s.poison := by
  unfold homeWrite
  split
  · rfl
  · dsimp only
    rw [show (hwakeFire s _ a bs.length).poison = _ from (congrArg State.poison (hwakeFire_only s _ a bs.length).rest :)]
    refine List.filter_eq_self.2 fun p hin => ?_
    have := List.any_eq_false.1 hp p hin
    simpa using this

/-! ### One DEQ of a node's queue -/

theorem consumeFor_rest (s : State) (run : Option Nat) (rs : List (Nat × Nat)) :
    { consumeFor s run rs with ports := s.ports, accs := s.accs, nextId := s.nextId } = s := by
  unfold consumeFor
  refine List.foldlRecOn (motive := fun z : State => { z with ports := s.ports, accs := s.accs, nextId := s.nextId } = s) _ _ rfl
    fun z hz p _ => ?_
  exact (congrArg (fun x : State => { x with ports := s.ports, accs := s.accs, nextId := s.nextId })
    (consume_rest z .device run 0 (8 * p) 8) :).trans hz

/-- The state whose poisoned parts a DEQ has consumed. -/
def deqConsumed (s : State) (t q : Nat) : State := consumeParts s t ((q, 32) :: queueReads s .deq q)

theorem deqConsumed_rest (s : State) (t q : Nat) :
    { deqConsumed s t q with ports := s.ports, accs := s.accs, nextId := s.nextId } = s := consumeFor_rest _ _ _

theorem nodeDeq_eq {s : State} {q : Nat} (t l : Nat) (hd : inDerived s q 4 = false) (hw : anyWatched s [(q, 4)] = false) :
    nodeDeq s t l q = deqAt (deqConsumed s t q) (.thread t l) q := by
  have hranges : queueRanges s .deq q 1 = [] ∨ queueRanges s .deq q 1 = [(q, 4)] := by
    unfold queueRanges
    dsimp only
    split
    · split
      · exact .inl rfl
      · exact .inr rfl
    · rename_i h
      exact absurd rfl h
  have hderived : ((queueRanges s .deq q 1).any fun r => inDerived s r.1 r.2) = false := by
    rcases hranges with h | h <;> simp [h, hd]
  have hwset : (deqConsumed s t q).wset = s.wset := (congrArg State.wset (deqConsumed_rest s t q) :)
  have hwatched : anyWatched (deqConsumed s t q) (queueRanges s .deq q 1) = false := by
    rcases hranges with h | h
    · rw [h]; rfl
    · rw [h, ← hw, anyWatched, anyWatched, hwset]
  unfold nodeDeq
  dsimp only
  rw [hderived, if_neg (by simp)]
  change deqAt (markNow 4 (deqConsumed s t q)
    (if anyWatched (deqConsumed s t q) (queueRanges s .deq q 1) = true then _ else [])) _ _ = _
  rw [hwatched, if_neg (by simp)]
  rfl

theorem deqAt_empty {s : State} {a : Nat} (w : Who) (hb : (descOf s a).bad = false) (he : (descOf s a).tail = (descOf s a).head) :
    deqAt s w a = (s, 0) := by
  unfold deqAt
  dsimp only
  rw [hb, if_neg (by simp), if_pos he]

theorem deqAt_takes {s : State} {a : Nat} (w : Who) (hb : (descOf s a).bad = false) (hn : (descOf s a).tail ≠ (descOf s a).head) :
    deqAt s w a = (homeWriteN s w a 4 (((descOf s a).head + 1) % 2 ^ 32),
      2 ^ 32 + cleanN s ((descOf s a).slot (descOf s a).head) 4) := by
  unfold deqAt
  dsimp only
  rw [hb, if_neg (by simp), if_neg hn]

end Sys2Proof.Machine
end

section
/-! SUPPORT. The draws of an open node (R364). -/

namespace Sys2Proof.Machine

open Sys2Proof

/-- `k` records of a node's queue have been taken: HEAD and the run's count have moved on, and no other byte has changed. -/
structure NodeTaken (t q : Nat) (s : State) (k : Nat) (z : State) : Prop where
  run     : z.runOf t = { s.runOf t with admitted := (s.runOf t).admitted + k }
  poison  : z.poison = s.poison
  entries : z.entries = s.entries
  wset    : z.wset = s.wset
  head    : cleanN z q 4 = (cleanN s q 4 + k) % 2 ^ 32
  bytes   : ∀ x, (x < q ∨ q + 4 ≤ x) → z.mem.byte x = s.mem.byte x

theorem NodeTaken.refl {t q : Nat} {s : State} (hp : poisoned s q 4 = false) : NodeTaken t q s 0 s where
  run := rfl
  poison := rfl
  entries := rfl
  wset := rfl
  head := by
    have hlt : s.mem.readN q 4 < 2 ^ 32 := readN_lt s.mem 4 q
    rw [cleanN_eq_readN hp, Nat.add_zero, Nat.mod_eq_of_lt hlt]
  bytes _ _ := rfl

section
variable {t q k : Nat} {s z : State} (h : NodeTaken t q s k z)
include h

theorem NodeTaken.keep {y : State} (hrun : y.runOf t = z.runOf t) (hmem : y.mem = z.mem) (hpoison : y.poison = z.poison)
    (hentries : y.entries = z.entries) (hwset : y.wset = z.wset) : NodeTaken t q s k y where
  run := hrun.trans h.run
  poison := hpoison.trans h.poison
  entries := hentries.trans h.entries
  wset := hwset.trans h.wset
  head := by rw [cleanN_congr hpoison fun _ _ => by rw [hmem], h.head]
  bytes x hx := by rw [hmem, h.bytes x hx]

theorem NodeTaken.undrawn {y : State} (u : Undrawn z y) : NodeTaken t q s k y :=
  h.keep (u.runOf t) u.mem (congrArg State.poison u.rest :) (congrArg State.entries u.rest :) (congrArg State.wset u.rest :)

theorem NodeTaken.consumed : NodeTaken t q s k (deqConsumed z t q) := by
  have hrest := deqConsumed_rest z t q
  exact h.keep (runOf_congr (congrArg State.companies hrest :) (congrArg State.runs hrest :) t) (congrArg State.mem hrest :)
    (congrArg State.poison hrest :) (congrArg State.entries hrest :) (congrArg State.wset hrest :)

/-- Words that HEAD is no part of stand as they did. -/
theorem NodeTaken.word {a n : Nat} (ha : a + n ≤ q ∨ q + 4 ≤ a) : cleanN z a n = cleanN s a n :=
  cleanN_congr h.poison fun k hk => h.bytes _ (by omega)

theorem NodeTaken.desc : descOf z q = { descOf s q with head := ((descOf s q).head + k) % 2 ^ 32 } := by
  unfold descOf
  rw [h.head, h.word (a := q + 4) (by omega), h.word (a := q + 8) (by omega), h.word (a := q + 9) (by omega),
    h.word (a := q + 12) (by omega), h.word (a := q + 16) (by omega), h.word (a := q + 24) (by omega)]

theorem NodeTaken.slot (n : Nat) : (descOf z q).slot n = (descOf s q).slot n := by rw [h.desc]; rfl

theorem NodeTaken.quiet (hd : inDerived s q 4 = false) (hw : anyWatched s [(q, 4)] = false) :
    inDerived z q 4 = false ∧ anyWatched z [(q, 4)] = false := by
  constructor
  · rw [← hd, inDerived, usedEntries, h.entries, inDerived, usedEntries]
  · rw [← hw, anyWatched, h.wset, anyWatched]

/-- One record more is taken. -/
theorem NodeTaken.take (hp : poisoned s q 4 = false) (w : Who) : NodeTaken t q s (k + 1)
    ((homeWriteN z w q 4 (((descOf z q).head + 1) % 2 ^ 32)).updRunOf t fun r => { r with admitted := r.admitted + 1 }) := by
  have hpz : poisoned z q 4 = false := by rw [← hp, poisoned, h.poison, poisoned]
  have hhead : (descOf z q).head = ((descOf s q).head + k) % 2 ^ 32 := congrArg Desc.head h.desc
  have hlen : (leBytes 4 (((descOf z q).head + 1) % 2 ^ 32)).length = 4 := rfl
  have hwrote := wrote_homeWrite (s := z) w (a := q) (bs := leBytes 4 (((descOf z q).head + 1) % 2 ^ 32)) (by simp [leBytes]) hpz
  have hside := homeSide_homeWrite z w q (leBytes 4 (((descOf z q).head + 1) % 2 ^ 32))
  have hpoison := poison_homeWrite (s := z) w (a := q) (bs := leBytes 4 (((descOf z q).head + 1) % 2 ^ 32)) hpz
  have hrun := runOf_congr hside.companies hside.runs t
  refine ⟨?_, hpoison.trans h.poison, (congrArg State.entries hside :).trans h.entries, (congrArg State.wset hside :).trans h.wset,
    ?_, fun x hx => (hwrote.bytes x hx).trans (h.bytes x hx)⟩
  · rw [runOf_updRunOf, homeWriteN, hrun, h.run]
    rfl
  · have hclean : poisoned ((homeWriteN z w q 4 (((descOf z q).head + 1) % 2 ^ 32)).updRunOf t
        fun r => { r with admitted := r.admitted + 1 }) q 4 = false := by
      rw [← hpz, poisoned, poisoned]
      exact congrArg (fun ps : List Nat => ps.any fun p => overlaps q 4 (8 * p) 8) hpoison
    have hread : (homeWrite z w q (leBytes 4 (((descOf z q).head + 1) % 2 ^ 32))).mem.readN q 4 =
        ((descOf z q).head + 1) % 2 ^ 32 % 256 ^ 4 :=
      readN_of_bytes 4 fun j hj => (hwrote.now j hj).trans (by simp [leBytes])
    rw [cleanN_eq_readN hclean]
    refine hread.trans ?_
    rw [hhead]
    change _ = ((descOf s q).head + (k + 1)) % 2 ^ 32
    omega

end

/-! ### A draw of a node's seat -/

theorem drawItem_node {s : State} {t l : Nat} (hd : (s.runOf t).determ = false) (hs : (s.runOf t).source = .callboard)
    (hc : (s.runOf t).closed = false) : drawItem s t l =
    if (nodeDeq s t l (s.runOf t).nodeQ).2 ≥ 2 ^ 32 then
      ((nodeDeq s t l (s.runOf t).nodeQ).1.updRunOf t fun r => { r with admitted := r.admitted + 1 },
        some (BitVec.ofNat 64 ((nodeDeq s t l (s.runOf t).nodeQ).2 - 2 ^ 32), BitVec.ofNat 64 (s.runOf t).admitted))
    else ((nodeDeq s t l (s.runOf t).nodeQ).1, none) := by
  unfold drawItem
  dsimp only
  rw [hd, hs, hc]
  rfl

/-- The record and the admission number of the seat that draws `i`-th from a node's queue. -/
def nextRecord (s : State) (t i : Nat) : Option (Dword × Dword) :=
  let d := descOf s (s.runOf t).nodeQ
  if i < d.used then some (BitVec.ofNat 64 (cleanN s (d.slot (d.head + i)) 4), BitVec.ofNat 64 ((s.runOf t).admitted + i)) else none

theorem Desc.slot_mod (d : Desc) (n : Nat) : d.slot (n % 2 ^ 32) = d.slot n := by rw [Desc.slot, Nat.mod_mod, Desc.slot]

/-- `used` records stand between HEAD and TAIL. -/
theorem Desc.tail_eq_iff {d : Desc} {k : Nat} (hh : d.head < 2 ^ 32) (ht : d.tail < 2 ^ 32) (hk : k ≤ d.used) :
    d.tail = (d.head + k) % 2 ^ 32 ↔ d.used ≤ k := by
  have hu : d.used = (d.tail + 2 ^ 32 - d.head) % 2 ^ 32 := rfl
  omega

/-- A node's queue from which seats may draw: its descriptor is well formed, in no derivation, unwatched and clean. -/
structure Drawable (s : State) (q : Nat) : Prop where
  form      : (descOf s q).bad = false
  derived   : inDerived s q 4 = false
  unwatched : anyWatched s [(q, 4)] = false
  clean     : poisoned s q 32 = false

theorem Drawable.head_lt {s : State} {q : Nat} (h : Drawable s q) : (descOf s q).head < 2 ^ 32 := by
  have hlt : s.mem.readN q 4 < 2 ^ 32 := readN_lt s.mem 4 q
  rwa [← cleanN_eq_readN (poisoned_part h.clean (by omega) (by omega))] at hlt

theorem Drawable.tail_lt {s : State} {q : Nat} (h : Drawable s q) : (descOf s q).tail < 2 ^ 32 := by
  have hlt : s.mem.readN (q + 4) 4 < 2 ^ 32 := readN_lt s.mem 4 (q + 4)
  rwa [← cleanN_eq_readN (poisoned_part h.clean (by omega) (by omega))] at hlt

/-- A DEQ after `i` others: the record behind those they took, or none. -/
theorem NodeTaken.deq {t q i : Nat} {s z : State} (hq : Drawable s q) (h : NodeTaken t q s (min i (descOf s q).used) z) (w : Who) :
    (i < (descOf s q).used → overlaps q 4 ((descOf s q).slot ((descOf s q).head + i)) 4 = false →
      deqAt z w q = (homeWriteN z w q 4 (((descOf z q).head + 1) % 2 ^ 32),
        2 ^ 32 + cleanN s ((descOf s q).slot ((descOf s q).head + i)) 4)) ∧
    ((descOf s q).used ≤ i → deqAt z w q = (z, 0)) := by
  have hdesc := h.desc
  have hbad : (descOf z q).bad = false := (congrArg Desc.bad hdesc).trans hq.form
  have htail : (descOf z q).tail = (descOf s q).tail := (congrArg Desc.tail hdesc :)
  have hhead : (descOf z q).head = ((descOf s q).head + min i (descOf s q).used) % 2 ^ 32 := (congrArg Desc.head hdesc :)
  have hiff := Desc.tail_eq_iff hq.head_lt hq.tail_lt (Nat.min_le_right i (descOf s q).used)
  refine ⟨fun hlt hapart => ?_, fun hge => ?_⟩
  · rw [Nat.min_eq_left hlt.le] at hhead hiff
    rw [deqAt_takes w hbad (by rw [htail, hhead]; exact fun he => absurd (hiff.1 he) (by omega)), h.slot, hhead, Desc.slot_mod]
    rw [h.word]
    simp only [overlaps, Bool.and_eq_false_iff, decide_eq_false_iff_not] at hapart
    omega
  · exact deqAt_empty w hbad (by rw [htail, hhead]; exact hiff.2 (by omega))

theorem nextRecord_of_lt {s : State} {t i : Nat} (h : i < (descOf s (s.runOf t).nodeQ).used) : nextRecord s t i =
    some (BitVec.ofNat 64 (cleanN s ((descOf s (s.runOf t).nodeQ).slot ((descOf s (s.runOf t).nodeQ).head + i)) 4),
      BitVec.ofNat 64 ((s.runOf t).admitted + i)) := if_pos h

theorem nextRecord_of_ge {s : State} {t i : Nat} (h : (descOf s (s.runOf t).nodeQ).used ≤ i) : nextRecord s t i = none :=
  if_neg (Nat.not_lt.2 h)

theorem NodeTaken.draw {t i : Nat} (l : Nat) {s z : State} (hdet : (s.runOf t).determ = false)
    (hsrc : (s.runOf t).source = .callboard) (hopen : (s.runOf t).closed = false) (hq : Drawable s (s.runOf t).nodeQ)
    (hslot : i < (descOf s (s.runOf t).nodeQ).used → overlaps (s.runOf t).nodeQ 4
      ((descOf s (s.runOf t).nodeQ).slot ((descOf s (s.runOf t).nodeQ).head + i)) 4 = false)
    (h : NodeTaken t (s.runOf t).nodeQ s (min i (descOf s (s.runOf t).nodeQ).used) z) :
    (drawItem z t l).2 = nextRecord s t i ∧
      NodeTaken t (s.runOf t).nodeQ s (min (i + 1) (descOf s (s.runOf t).nodeQ).used) (drawItem z t l).1 := by
  have hnode : (z.runOf t).nodeQ = (s.runOf t).nodeQ := (congrArg Run.nodeQ h.run :)
  have hadm : (z.runOf t).admitted = (s.runOf t).admitted + min i (descOf s (s.runOf t).nodeQ).used :=
    (congrArg Run.admitted h.run :)
  obtain ⟨hdz, hwz⟩ := h.quiet hq.derived hq.unwatched
  have hdraw := drawItem_node (l := l) ((congrArg Run.determ h.run :).trans hdet) ((congrArg Run.source h.run :).trans hsrc)
    ((congrArg Run.closed h.run :).trans hopen)
  rw [hnode, nodeDeq_eq t l hdz hwz, hadm] at hdraw
  obtain ⟨htake, hnone⟩ := h.consumed.deq hq (.thread t l)
  by_cases hlt : i < (descOf s (s.runOf t).nodeQ).used
  · rw [htake hlt (hslot hlt), if_pos (Nat.le_add_right _ _), Nat.add_sub_cancel_left, Nat.min_eq_left hlt.le] at hdraw
    rw [hdraw, Nat.min_eq_left (show i + 1 ≤ _ from hlt), nextRecord_of_lt hlt]
    rw [Nat.min_eq_left hlt.le] at h
    exact ⟨rfl, h.consumed.take (poisoned_part hq.clean (by omega) (by omega)) _⟩
  · rw [hnone (by omega), if_neg (by simp)] at hdraw
    rw [hdraw, nextRecord_of_ge (by omega), Nat.min_eq_right (by omega)]
    rw [Nat.min_eq_right (by omega)] at h
    exact ⟨rfl, h.consumed⟩

/-- The draws of an open node's seats. -/
theorem drawsGo_node {t : Nat} {ls : List Nat} {s : State} (hdet : (s.runOf t).determ = false)
    (hsrc : (s.runOf t).source = .callboard) (hopen : (s.runOf t).closed = false) (hq : Drawable s (s.runOf t).nodeQ)
    (hslot : ∀ i < min ls.length (descOf s (s.runOf t).nodeQ).used, overlaps (s.runOf t).nodeQ 4
      ((descOf s (s.runOf t).nodeQ).slot ((descOf s (s.runOf t).nodeQ).head + i)) 4 = false) :
    DrawsGo t ls s (fun i => NodeTaken t (s.runOf t).nodeQ s (min i (descOf s (s.runOf t).nodeQ).used))
      fun i _ => nextRecord s t i where
  first := by
    rw [Nat.zero_min]
    exact .refl (poisoned_part hq.clean (by omega) (by omega))
  draw i z l hi h _ := h.draw l hdet hsrc hopen hq fun hlt => hslot i (by omega)
  keep _ _ _ h u := h.undrawn u

end Sys2Proof.Machine
end

section
/-! SUPPORT. The statement on EXIT, YIELD, NOP, SLEEP and BRK (R48-R50, R257-R260, R364). -/

namespace Sys2Proof.Machine

open Sys2Proof

/-! ### EXIT at the seats of an open node -/

theorem exitWait_hazard {s : State} {c : Ctx} {l : Nat} (h : hasLane (exitStall s c).2 l = true) : exitWait s c = .hazard := by
  refine if_neg fun h0 => ?_
  rw [h0] at h
  exact absurd h (by simp [hasLane])

/-- Where some draw waits, it stalls its thread, and a thread that is owed a write stalls with it. -/
theorem exit_stalls {s : State} {c : Ctx} {l : Nat} (ha : hasLane c.act l = true) (ho : owesLane (s.troupe c.t) l = false)
    (hwait : drawWaits s c.t l ((freeLanes s c).idxOf l) = true) : hasLane (exitStall s c).2 l = true := by
  rw [hasLane_exitStall_draw, hasLane_diff, hasLane_exitStall_owed]
  simp [lt_of_hasLane ha, ha, ho, hwait]

/-- What EXIT leaves where every draw from the node's queue can be performed. -/
theorem exit_drawn {s : State} {c : Ctx} (hw : Awake c s) (hle : ∀ l, hasLane c.act l = true → hasLane c.mask l = true)
    (hsrc : (s.runOf c.t).source = .callboard) (hopen : (s.runOf c.t).closed = false) (hdet : (s.runOf c.t).determ = false)
    (hg : (s.runOf c.t).grain = 0) (hst : (s.troupe c.t).status ≠ .handler) (hq : Drawable s (s.runOf c.t).nodeQ)
    (hfree : ∀ l, hasLane c.act l = true → owesLane (s.troupe c.t) l = false →
      drawWaits s c.t l ((freeLanes s c).idxOf l) = false)
    (hslot : ∀ i < min (freeLanes s c).length (descOf s (s.runOf c.t).nodeQ).used, overlaps (s.runOf c.t).nodeQ 4
      ((descOf s (s.runOf c.t).nodeQ).slot ((descOf s (s.runOf c.t).nodeQ).head + i)) 4 = false)
    {t : State} (E : ExitEnds s c (exitLeft s c) t) :
    (∀ l, hasLane c.act l = true → owesLane (s.troupe c.t) l = true →
      t.thread c.t l = { s.thread c.t l with st := .stalled, wait := .owed }) ∧
    (∀ l ∈ freeLanes s c, Exited (s.runOf c.t).cue (t.thread c.t l) (nextRecord s c.t ((freeLanes s c).idxOf l))) ∧
    (t.runOf c.t).admitted =
      (s.runOf c.t).admitted + min (freeLanes s c).length (descOf s (s.runOf c.t).nodeQ).used ∧
    t.mem.readN (s.runOf c.t).nodeQ 4 =
      ((descOf s (s.runOf c.t).nodeQ).head + min (freeLanes s c).length (descOf s (s.runOf c.t).nodeQ).used) % 2 ^ 32 ∧
    ∀ x, (x < (s.runOf c.t).nodeQ ∨ (s.runOf c.t).nodeQ + 4 ≤ x) → t.mem.byte x = s.mem.byte x := by
  obtain ⟨hstalls, hwait, hgo⟩ := exit_of_no_wait hfree
  have D := drawsGo_node (t := c.t) (ls := lanes (exitGo s c)) (s := exitIssued s c) hdet hsrc hopen
    ⟨hq.form, hq.derived, hq.unwatched, hq.clean⟩ (hgo ▸ hslot)
  have hend := D.before (lanes_nodup _) (ready_exitIssued hw hle) (List.append_nil _).symm
  rw [← exitLeft_draws hg hst, hgo] at hend
  refine ⟨fun l ha ho => ?_, fun l hl => ?_, ?_, ?_, fun x hx => ?_⟩
  · rw [E.stalled l (by rw [hstalls, ha, ho]; rfl), hwait]
  · obtain ⟨as, bs, hls, -, hidx⟩ := split_freeLanes hl
    have hex := (exited_exitLeft hw hle hg hst D (hgo.trans hls)).1
    rw [E.gone l (mem_lanes.1 (hgo ▸ hl)) hex.not_waiting, hidx]
    exact hex
  · rw [E.runOf]
    exact (congrArg Run.admitted hend.run :)
  · have hclean : poisoned (exitLeft s c) (s.runOf c.t).nodeQ 4 = false := by
      rw [poisoned, hend.poison]
      exact poisoned_part (s := s) hq.clean (by omega) (by omega)
    rw [E.mem, ← cleanN_eq_readN hclean]
    exact hend.head
  · rw [E.mem]
    exact hend.bytes x hx

/-! ### YIELD, NOP, SLEEP and BRK -/

theorem passedOver_mapLanes (s : State) (c : Ctx) (m : Mask) (f : Nat → Thread → Thread) :
    (s.mapLanes c.t m f).passedOver c = (passOver s c).mapLanes c.t m f := by
  have hkey : wingKey ((s.mapLanes c.t m f).troupe c.t) = wingKey (s.troupe c.t) := by
    rw [State.troupe_mapLanes_self, wingKey, Troupe.mapLanes_stage, Troupe.mapLanes_wing, wingKey]
  unfold State.passedOver passOver
  rw [hkey]
  rfl

theorem exec_nop_next {h : Hdr} {s : State} {c : Ctx} (hi : Issues (.nop h) s c) :
    exec (.nop h) s = .next (finish c (.ok s.begun)) := by
  rw [exec_nop, execNop, issue_next hi]

theorem exec_yield_next {h : Hdr} {s : State} {c : Ctx} (hi : Issues (.yield h) s c) :
    exec (.yield h) s = .next ((finish c (.ok s.begun)).passedOver c) := by
  rw [exec_yield, execYield, issue_next hi, finish, finish, passedOver_mapLanes]

/-- Where a thread of Active goes that sleeps for `n` of the time counter. -/
def sleepFor (s : State) (h : Hdr) (n : Nat) (th : Thread) : Thread :=
  if n = 0 then th.advance h else th.waitAt h .rz .n32 (.sleep (s.ports.time.toNat + n))

theorem exec_sleep_next {h : Hdr} {b : Src} {s : State} {c : Ctx} (hi : Issues (.sleep h b) s c) :
    let n := fun l => (readSrcZ s.begun c l b 1).toNat
    let t := finish c (.ctl (s.begun.mapLanes c.t c.act fun l th => sleepFor s c.hdr (n l) th))
    exec (.sleep h b) s = .next (if (lanes c.act).any fun l => n l == 0 then t.passedOver c else t) := by
  intro n t
  rw [exec_sleep, execSleep, issue_next hi]
  dsimp only
  by_cases hz : ((lanes c.act).any fun l => n l == 0) = true
  · obtain ⟨l, hl, hn⟩ := List.any_eq_true.1 hz
    have hl := mem_lanes.1 hl
    rw [if_pos hz, if_neg (maskOf_ne_zero (lt_of_hasLane hl) (by simpa [hl] using hn))]
    exact congrArg Host.Outcome.next (passedOver_mapLanes _ c _ _).symm
  · have hnone : ∀ l < 32, (hasLane c.act l && decide (n l = 0)) = false := by
      intro l _
      by_contra hc
      simp only [Bool.not_eq_false, Bool.and_eq_true, decide_eq_true_eq] at hc
      exact hz (List.any_eq_true.2 ⟨l, mem_lanes.2 hc.1, by simp [hc.2]⟩)
    rw [if_neg hz, if_pos (maskOf_eq_zero.2 hnone)]
    rfl

theorem exec_brk_active {h : Hdr} {x : Imm} {s : State} {c : Ctx} (hi : Issues (.brk h x) s c) (ha : c.act ≠ 0) :
    exec (.brk h x) s = .next (takeTrap s.begun c.t { c.trapInfo 0x32 c.act (x.setWidth 64) with skip := c.act }) := by
  rw [exec_brk, execBrk, issue_next hi, if_neg (by simpa [Ctx.idle] using ha), finish]

theorem exec_brk_idle {h : Hdr} {x : Imm} {s : State} {c : Ctx} (hi : Issues (.brk h x) s c) (ha : c.act = 0) :
    exec (.brk h x) s = .next (finish c (.ok s.begun)) := by
  rw [exec_brk, execBrk, issue_next hi, if_pos (by simp [Ctx.idle, ha])]

/-- Settles O16: EXIT by `exit_counted` and `exit_drawn`, whose draws go one by one in lane order; the rest by what each leaves. -/
theorem exitsAndPauses : Obligations.ExitsAndPauses := by
  unfold Obligations.ExitsAndPauses
  refine ⟨fun h s c hi hw => ?_, fun h s c hi hw => ?_, fun h s c => ⟨fun hi => ?_, fun hi => ?_, fun b hi => ?_, fun x hi => ?_⟩⟩
  · intro tr r co owed place last item hsrc
    have E := exitEnds (s := s.begun) hw fun l hl => hi.act_le hl
    obtain ⟨hmem, howed, hheld, hdraws⟩ := exit_counted (s := s.begun) hw (fun l hl => hi.act_le hl) hsrc E
    refine ⟨_, exec_exit_next hi, fun x => by rw [hmem]; rfl, howed, E.passed, hheld, fun l ha ho hg hst => ?_⟩
    have hitem : nextItem s.begun c.t
      ((lanes c.act).filter fun j => !owesLane (s.begun.troupe c.t) j && decide (j < l)).length l = item l := rfl
    obtain ⟨hex, hpreds⟩ := hdraws l ha ho hg hst
    rw [hitem] at hex hpreds
    split
    · rename_i x hx
      rw [hx] at hex hpreds
      obtain ⟨hready, hpc, hstack, hnew, hage, hconv⟩ := hex
      exact ⟨hready, hpc, hstack, hnew, hage, hconv, fun hs => hpreds hs x rfl⟩
    · rename_i hx
      rw [hx] at hex
      exact hex
  · intro tr r owed place n waits q d hsrc hopen hdet hg hst
    have E := exitEnds (s := s.begun) hw fun l hl => hi.act_le hl
    have hplace {l : Nat} (ha : hasLane c.act l = true) (ho : owed l = false) : (freeLanes s.begun c).idxOf l = place l :=
      idxOf_freeLanes (s := s.begun) (mem_freeLanes.2 ⟨ha, ho⟩)
    refine ⟨fun hfree hbad hder hwat hpoi hslots => ?_, fun ⟨l, ha, ho, hwait⟩ => ⟨_, exec_exit_next hi, fun j hj hs => ?_⟩⟩
    · obtain ⟨howed, hex, hmoved⟩ := exit_drawn (s := s.begun) hw (fun l hl => hi.act_le hl) hsrc hopen hdet hg hst
        ⟨hbad, hder, hwat, hpoi⟩ (fun l ha ho => by rw [hplace ha ho]; exact eq_false_of_ne_true (hfree l ha ho))
        (fun i hi => (hslots i hi).2) E
      refine ⟨_, exec_exit_next hi, howed, fun l ha ho => ?_, hmoved⟩
      have hl := hex l (mem_freeLanes.2 ⟨ha, ho⟩)
      rw [hplace ha ho] at hl
      refine ⟨fun hlt => ?_, fun hge => ?_⟩
      · rw [nextRecord_of_lt (s := s.begun) hlt] at hl
        obtain ⟨hready, hpc, hstack, hnew, hage, -⟩ := hl
        exact ⟨hready, hpc, hstack, hnew, hage⟩
      · rw [nextRecord_of_ge (s := s.begun) hge] at hl
        exact hl
    · have hstall := exit_stalls (s := s.begun) ha ho (by rw [hplace ha ho]; exact hwait)
      refine (E.stalled j ?_).trans (by rw [exitWait_hazard hstall]; rfl)
      rw [exitStalls, hasLane_or, hasLane_exitStall_owed, hj, Bool.true_and]
      cases hoj : owed j with
      | true => exact Bool.or_eq_true_iff.2 (.inl hoj)
      | false =>
        have hwj := hs.resolve_left (by rw [hoj]; exact Bool.false_ne_true)
        rw [exit_stalls (s := s.begun) hj hoj (by rw [hplace hj hoj]; exact hwj), Bool.or_true]
  · exact ⟨_, exec_nop_next hi, threadsGo_ok hi⟩
  · exact ⟨_, exec_yield_next hi, threadsGo_ok hi⟩
  · exact ⟨_, threadsGo_ctl c s _, exec_sleep_next hi⟩
  · exact ⟨fun ha => ⟨_, exec_brk_active hi ha, rfl, rfl, rfl, rfl, rfl, rfl⟩,
      fun ha => ⟨_, exec_brk_idle hi ha, threadsGo_ok hi⟩⟩

end Sys2Proof.Machine
end

section
/-! SUPPORT. What an access meets at its home (R84-R86, R138, R145, R424), and the statement on writes there (R77-R81, R240). -/

namespace Sys2Proof.Machine

open Sys2Proof

/-! ### Bytes of numbers -/

theorem leBytes_length (n x : Nat) : (leBytes n x).length = n := by simp [leBytes]

theorem leBytes_ne_nil {n : Nat} (h : 0 < n) (x : Nat) : leBytes n x ≠ [] := by
  rw [← List.length_pos_iff, leBytes_length]
  exact h

/-- The bytes of a number are those of what is left of it modulo 256^n. -/
theorem leBytes_mod (n x : Nat) : leBytes n (x % 256 ^ n) = leBytes n x := by
  refine List.map_congr_left fun k hk => BitVec.eq_of_toNat_eq ?_
  have hk := List.mem_range.1 hk
  have hpow : (256 : Nat) ^ n = 256 ^ k * 256 ^ (n - k) := by rw [← Nat.pow_add]; congr 1; omega
  have hdvd : (2 : Nat) ^ 8 ∣ 256 ^ (n - k) := dvd_pow_self 256 (by omega)
  rw [BitVec.toNat_ofNat, BitVec.toNat_ofNat, hpow, Nat.mod_mul_right_div_self, Nat.mod_mod_of_dvd _ hdvd]

/-! ### Poison that is not met -/

theorem consume_clean {s : State} {a n : Nat} (h : poisoned s a n = false) (w : Who) (run : Option Nat) (addr : Dword) :
    consume s w run addr a n = s := by
  have hnone : (s.poison.filter fun p => overlaps a n (8 * p) 8) = [] := by
    simpa [poisoned, List.filter_eq_nil_iff] using h
  rw [consume, hnone]
  rfl

/-! ### Accesses at their homes -/

theorem atHome_here {a : Access} (h : a.dev = none) (f : State → Access → State) (s : State) : atHome f s a = f s a := by
  rw [atHome, h]
  rfl

section
variable {s : State} {a : Access} (h : Reaches s a)
include h

theorem Reaches.step (f : State → Access → State) : onAccess s a.id (atHome f) = .next (f s a) := by
  rw [onAccess_next h.stands, atHome_here h.here]

theorem Reaches.clean_phys (hc : a.op ≠ .cast) : poisoned s a.phys a.bytes = false := by
  have hr : a.ranges = [(a.phys, a.bytes)] := if_neg (by simpa using hc)
  exact h.clean (a.phys, a.bytes) (hr ▸ List.mem_singleton_self _)

/-- A write that nothing holds back is performed by the rule of its kind. -/
theorem Reaches.written (hu : Unwatched s a) {ops : List AOp} (hop : a.op ∈ ops) (k : State → Access → State) :
    writeEvent ops k false s a = k s a := by
  obtain ⟨hder, hwat⟩ := hu
  have hany : ((writeRanges s a).any fun r => inDerived s r.1 r.2) = false :=
    List.any_eq_false.2 fun r hr => by simp [hder r hr]
  have hgo : performWrite s a false k = k s a := by
    unfold performWrite
    rw [h.queued]
    simp [h.free, h.present, hany, hwat]
  unfold writeEvent
  rw [hgo, h.queued, if_pos]
  simp [hop, h.clear]

end

theorem Access.bytes_eq_size {a : Access} (hq : opQueue a.op = false) (hw : a.op ≠ .wpwait) : a.bytes = a.size := by
  simp [Access.bytes, hq, hw]

theorem storeBytes_length (s : State) (a : Access) : (storeBytes s a).length = a.size := by
  unfold storeBytes
  split <;> simp [leBytes_length]

theorem storeBytes_ne_nil {s : State} {a : Access} (h : 0 < a.size) : storeBytes s a ≠ [] := by
  rw [← List.length_pos_iff, storeBytes_length]
  exact h

/-- A store leaves its bytes at its home. -/
theorem storeHere_wrote {s : State} {a : Access} (hs : 0 < a.size) (hp : poisoned s a.phys a.size = false) :
    ∃ t, storeHere s a = performed t a 0 ∧ Wrote a.phys (storeBytes s a) s t :=
  ⟨_, rfl, wrote_homeWrite a.who (storeBytes_ne_nil hs) (by rwa [storeBytes_length])⟩

/-- A read-modify-write leaves what its operation makes of the old value, which it returns. -/
theorem rmwHere_wrote {s : State} {a : Access} (hs : 0 < a.size) (hp : poisoned s a.phys a.size = false) :
    ∃ t, rmwHere s a = performed t a (BitVec.ofNat 64 (cleanN s a.phys a.size)) ∧
      Wrote a.phys (leBytes a.size (combineN a.op a.ty a.size (cleanN s a.phys a.size) a.data.toNat a.cmp.toNat)) s t := by
  refine ⟨_, ?_, wrote_homeWrite a.who (leBytes_ne_nil hs _) (by rwa [leBytes_length])⟩
  unfold rmwHere
  rw [consume_clean hp]
  rfl

/-- Event `i` performs access `a` on `s` by one write of `bs` at its home, with result `res`. -/
def WritesOnce (i : Instr) (s : State) (a : Access) (bs : List Byte) (res : Nat) : Prop :=
  ∃ t, exec i s = .next (performed t a (BitVec.ofNat 64 res)) ∧ Wrote a.phys bs s t

/-- A read-modify-write that nothing holds back, by an event that performs its operation. -/
theorem Reaches.rmw {s : State} {a : Access} (h : Reaches s a) (hu : Unwatched s a) {op : AOp} (e : a.op = op)
    (hr : opRmw op = true) (hq : opQueue op = false) {i : Instr} {f : State → Access → State} {ops : List AOp}
    (hi : exec i s = onAccess s a.id (atHome f)) (hf : f s a = writeEvent ops rmwHere false s a) (hop : op ∈ ops) {new : Nat}
    (hnew : leBytes a.size (combineN op a.ty a.size (cleanN s a.phys a.size) a.data.toNat a.cmp.toNat) = leBytes a.size new) :
    WritesOnce i s a (leBytes a.size new) (cleanN s a.phys a.size) := by
  subst e
  have hc : a.op ≠ .cast := fun hc => by simp [hc, opRmw] at hr
  have hw : a.op ≠ .wpwait := fun hw => by simp [hw, opRmw] at hr
  obtain ⟨t, ht, hwrote⟩ := rmwHere_wrote h.sized (Access.bytes_eq_size hq hw ▸ h.clean_phys hc)
  exact ⟨t, by rw [hi, h.step, hf, h.written hu hop, ht], hnew ▸ hwrote⟩

/-- The windows and atomics that have an event of their own. -/
theorem Reaches.window {s : State} {a : Access} (h : Reaches s a) (hu : Unwatched s a) {op : AOp} (e : a.op = op)
    (hr : opRmw op = true) (hq : opQueue op = false) {i : Instr} (hi : exec i s = windowEvent op a.id s) {new : Nat}
    (hnew : leBytes a.size (combineN op a.ty a.size (cleanN s a.phys a.size) a.data.toNat a.cmp.toNat) = leBytes a.size new) :
    WritesOnce i s a (leBytes a.size new) (cleanN s a.phys a.size) :=
  h.rmw hu e hr hq hi rfl (List.mem_singleton_self op) hnew

/-- The atomics that no window performs. -/
theorem Reaches.atomic {s : State} {a : Access} (h : Reaches s a) (hu : Unwatched s a) {op : AOp} (e : a.op = op)
    (hop : op ∈ [AOp.xor, .exch, .cas]) {new : Nat}
    (hnew : combineN op a.ty a.size (cleanN s a.phys a.size) a.data.toNat a.cmp.toNat = new) :
    WritesOnce (.plainStore a.id) s a (leBytes a.size new) (cleanN s a.phys a.size) := by
  have hkind : ∀ x ∈ [AOp.xor, .exch, .cas], opRmw x = true ∧ opQueue x = false ∧ x ≠ .store := by decide
  obtain ⟨hr, hq, hs⟩ := hkind op hop
  exact h.rmw hu e hr hq (exec_plainStore s) (if_neg (by simpa [e] using hs)) hop (by rw [hnew])

/-! ### Writes that are dropped (R145) -/

theorem dropDerived_eq (s : State) (a : Access) : ∃ t, dropDerived s a = performed t a 0 ∧ t.mem = s.mem ∧
    t.troupes = s.troupes ∧ (a.who.outside = false → t = bump s (sliceCounter (countSlice s a.phys) 0x0C) 1) := by
  have hrest := blame_rest (bump s (sliceCounter (countSlice s a.phys) 0x0C) 1) a.who 6 a.addr
  refine ⟨_, rfl, ?_, ?_, fun ho => if_neg (by simp [ho])⟩
  · split
    · exact (congrArg State.mem hrest :)
    · rfl
  · split
    · exact (congrArg State.troupes hrest :)
    · rfl

theorem Reaches.dropped {s : State} {a : Access} (h : Reaches s a) (hm : opModifies a.op = true) (hc : a.op ≠ .cast)
    (hd : ∃ r ∈ writeRanges s a, inDerived s r.1 r.2 = true) :
    exec (.derivedWriteDrop a.id) s = .next (dropDerived s a) := by
  have hany : ((writeRanges s a).any fun r => inDerived s r.1 r.2) = true := List.any_eq_true.2 hd
  rw [exec_derivedWriteDrop, execDerivedWriteDrop, onAccess_next h.stands, h.queued]
  simp [h.here, hm, hc, h.free, hany]

/-- Settles O41: each write goes through `Reaches.written` to the one step of its kind, a read-modify-write by `rmwHere_wrote`, and
a write into a derived range through `Reaches.dropped`. -/
theorem homeWrites : Obligations.HomeWrites := by
  intro s a h old wrote rmw
  refine ⟨fun hu => ⟨fun e => ?_, fun e => h.atomic hu e (by decide) rfl, fun e => h.atomic hu e (by decide) rfl,
    fun e => h.atomic hu e (by decide) rfl, fun e => h.window hu e rfl rfl rfl rfl, fun e => h.window hu e rfl rfl rfl rfl,
    fun e => h.window hu e rfl rfl rfl rfl, fun e => h.window hu e rfl rfl rfl rfl, fun e => h.window hu e rfl rfl rfl rfl,
    fun e => h.window hu e rfl rfl rfl rfl, fun e => h.window hu e rfl rfl rfl ?_⟩, fun hm hc hd => ?_⟩
  · have hp : poisoned s a.phys a.size = false :=
      Access.bytes_eq_size (by rw [e]; rfl) (by rw [e]; decide) ▸ h.clean_phys (by rw [e]; decide)
    obtain ⟨t, ht, hwrote⟩ := storeHere_wrote h.sized hp
    refine ⟨t, ?_, hwrote⟩
    rw [exec_plainStore, execPlainStore, h.step, if_pos (by simp [e]), h.written hu (by simp [e]), ht]
    rfl
  · change leBytes a.size ((old + 1) % 2 ^ (8 * a.size)) = _
    rw [Nat.pow_mul]
    exact leBytes_mod a.size (old + 1)
  · obtain ⟨t, ht, hrest⟩ := dropDerived_eq s a
    exact ⟨t, by rw [h.dropped hm hc hd, ht], hrest⟩

end Sys2Proof.Machine
end

section
/-! SUPPORT. Operations on queue descriptors at their homes (R79, R80, R88), and the statement on them. -/

namespace Sys2Proof.Machine

open Sys2Proof

/-! ### Words written at a home, one after another -/

theorem homeWriteN_mod (s : State) (w : Who) (a x : Nat) : homeWriteN s w a 4 (x % 2 ^ 32) = homeWriteN s w a 4 x :=
  congrArg (homeWrite s w a) (leBytes_mod 4 x)

section
variable {s : State} {a n : Nat} (hp : poisoned s a n = false)
include hp

theorem wrote_homeWriteN (hn : 0 < n) (w : Who) (x : Nat) : Wrote a (leBytes n x) s (homeWriteN s w a n x) :=
  wrote_homeWrite w (leBytes_ne_nil hn x) (by rwa [leBytes_length])

theorem poison_homeWriteN (w : Who) (x : Nat) : (homeWriteN s w a n x).poison = s.poison :=
  poison_homeWrite w (by rwa [leBytes_length])

theorem cleanN_homeWriteN (hn : 0 < n) (w : Who) (x : Nat) : cleanN (homeWriteN s w a n x) a n = x % 256 ^ n := by
  have hclean : poisoned (homeWriteN s w a n x) a n = false := by rwa [poisoned, poison_homeWriteN hp]
  rw [cleanN_eq_readN hclean]
  refine readN_of_bytes n fun k hk => ?_
  rw [(wrote_homeWriteN hp hn w x).now k (by rwa [leBytes_length])]
  simp [leBytes]

end

/-- The words `ws`, by address and value, stand in `t`, which reads as `s` everywhere else. -/
structure WordsIn (ws : List (Nat × Nat)) (s t : State) : Prop where
  words  : ∀ x ∈ ws, cleanN t x.1 4 = x.2 % 2 ^ 32
  bytes  : ∀ b, (∀ x ∈ ws, b < x.1 ∨ x.1 + 4 ≤ b) → t.mem.byte b = s.mem.byte b
  poison : t.poison = s.poison

/-- Writes of clean words that lie apart. -/
theorem wordsIn_foldl (w : Who) (ws : List (Nat × Nat)) (happ : ws.Pairwise fun x y => x.1 + 4 ≤ y.1 ∨ y.1 + 4 ≤ x.1) :
    ∀ s : State, (∀ x ∈ ws, poisoned s x.1 4 = false) →
      WordsIn ws s (ws.foldl (fun z x => homeWriteN z w x.1 4 x.2) s) := by
  induction ws with
  | nil => exact fun _ _ => ⟨nofun, fun _ _ => rfl, rfl⟩
  | cons x r ih =>
    intro s hclean
    obtain ⟨hx, hr⟩ := List.forall_mem_cons.1 hclean
    obtain ⟨hxr, happ⟩ := List.pairwise_cons.1 happ
    have hpoison := poison_homeWriteN hx w x.2
    have I := ih happ (homeWriteN s w x.1 4 x.2) fun y hy => by rw [poisoned, hpoison]; exact hr y hy
    refine ⟨List.forall_mem_cons.2 ⟨?_, I.words⟩, fun b hb => ?_, I.poison.trans hpoison⟩
    · rw [List.foldl_cons, cleanN_congr I.poison fun k hk => I.bytes _ fun y hy => by have := hxr y hy; omega]
      exact cleanN_homeWriteN hx (by decide) w x.2
    · obtain ⟨hbx, hbr⟩ := List.forall_mem_cons.1 hb
      rw [List.foldl_cons, I.bytes b hbr]
      exact (wrote_homeWriteN hx (by decide) w x.2).bytes b (by rwa [leBytes_length])

/-! ### Descriptors -/

theorem cap_le_of_good {s : State} {a : Nat} (h : (descOf s a).bad = false) : (descOf s a).cap ≤ 20 := by
  simp only [descOf, Bool.or_eq_false_iff, decide_eq_false_iff_not] at h ⊢
  omega

/-- Entries less than a ring apart lie in different slots. -/
theorem Desc.slot_apart {d : Desc} (hcap : d.cap ≤ 20) {i j k n : Nat} (hij : i < j) (hjk : j < k) (hk : k ≤ 2 ^ d.cap) :
    d.slot (n + i) + 4 ≤ d.slot (n + j) ∨ d.slot (n + j) + 4 ≤ d.slot (n + i) := by
  have hdvd : 2 ^ d.cap ∣ 2 ^ 32 := Nat.pow_dvd_pow 2 (by omega)
  have hne : (n + i) % 2 ^ d.cap ≠ (n + j) % 2 ^ d.cap := fun h => by
    have : i % 2 ^ d.cap = j % 2 ^ d.cap := Nat.ModEq.add_left_cancel' n h
    rw [Nat.mod_eq_of_lt (by omega), Nat.mod_eq_of_lt (by omega)] at this
    omega
  rw [Desc.slot, Desc.slot, Nat.mod_mod_of_dvd _ hdvd, Nat.mod_mod_of_dvd _ hdvd]
  omega

/-- The words that an ENQ of `k` entries writes: the entries behind the last one, then the tail. -/
def enqWords (d : Desc) (a k data : Nat) : List (Nat × Nat) :=
  (List.range k).map (fun j => (d.slot (d.tail + j), data / 2 ^ (32 * j))) ++ [(a + 4, d.tail + k)]

theorem enqAt_fits {s : State} {a k : Nat} (hb : (descOf s a).bad = false) (hfit : (descOf s a).used + k ≤ 2 ^ (descOf s a).cap)
    (hk : k = 1 ∨ k = 2) (w : Who) (data : Nat) : enqAt s w a k data =
      ((enqWords (descOf s a) a k data).foldl (fun z x => homeWriteN z w x.1 4 x.2) s, (descOf s a).tail, true) := by
  have hfits : (descOf s a).fits k = true := by simp [Desc.fits, hb, hfit]
  unfold enqAt
  simp only [hfits, homeWriteN_mod]
  obtain rfl | rfl := hk
  · simp [enqWords]
  · simp [enqWords, List.range_succ]

theorem enqAt_drops {s : State} {a k : Nat} (h : (descOf s a).fits k = false) (w : Who) (data : Nat) : enqAt s w a k data =
    (let t := homeWriteN s w (a + 12) 4 (sat32 ((descOf s a).dropped + k))
     if (descOf s a).bad then bump t (sliceCounter (countSlice s a) 8) 1 else t,
     if (descOf s a).bad then 0 else (descOf s a).tail, false) := by
  unfold enqAt
  simp only [h]
  rfl

/-- The words of an ENQ stand apart from one another, where its slots stand apart from the descriptor. -/
theorem enqWords_apart {d : Desc} (hcap : d.cap ≤ 20) {a k : Nat} (hk : k ≤ 2 ^ d.cap)
    (hslot : ∀ j < k, d.slot (d.tail + j) + 4 ≤ a ∨ a + 32 ≤ d.slot (d.tail + j)) (data : Nat) :
    (enqWords d a k data).Pairwise fun x y => x.1 + 4 ≤ y.1 ∨ y.1 + 4 ≤ x.1 := by
  refine List.pairwise_append.2 ⟨List.pairwise_map.2 ?_, List.pairwise_singleton _ _, ?_⟩
  · exact List.pairwise_lt_range.imp_of_mem fun _ hj hij => Desc.slot_apart hcap hij (List.mem_range.1 hj) hk
  · simp only [List.mem_map, List.mem_range, List.mem_singleton]
    rintro _ ⟨j, hj, rfl⟩ _ rfl
    have := hslot j hj
    dsimp only
    omega

/-! ### The events -/

theorem opQueue_of_enq {op : AOp} (h : op = .enq ∨ op = .aenq) : opQueue op = true := by
  rcases h with rfl | rfl <;> rfl
theorem opQueue_of_deq {op : AOp} (h : op = .deq ∨ op = .adeq) : opQueue op = true := by
  rcases h with rfl | rfl <;> rfl

theorem Reaches.clean_descriptor {s : State} {a : Access} (h : Reaches s a) (hq : opQueue a.op = true) :
    poisoned s a.phys 32 = false := by
  have hp := h.clean_phys fun hc => by simp [hc, opQueue] at hq
  rwa [Access.bytes, if_pos hq] at hp

section
variable {s : State} {a : Access} (h : Reaches s a) (hu : Unwatched s a)
include h hu

theorem Reaches.enq (hop : a.op = .enq ∨ a.op = .aenq) : exec (.enq a.id) s =
    .next (let r := enqAt s a.who a.phys (a.size / 4) a.data.toNat
      performed (faultPosted (blameQueue r.1 a (descOf s a.phys).bad) a.who r.2.2) a
        (BitVec.ofNat 64 (r.2.1 + if r.2.2 then 2 ^ 32 else 0))) := by
  have hp := h.clean_descriptor (opQueue_of_enq hop)
  rw [exec_enq, execEnq, h.step, h.written hu (by simpa using hop), enqHere, consume_clean hp]

theorem Reaches.deq (hop : a.op = .deq ∨ a.op = .adeq) (hslot : ∀ g ∈ queueReads s .deq a.phys, poisoned s g.1 g.2 = false) :
    exec (.deq a.id) s = .next (let r := deqAt s a.who a.phys
      performed (blameQueue r.1 a (descOf s a.phys).bad) a (BitVec.ofNat 64 r.2)) := by
  have hp := h.clean_descriptor (opQueue_of_deq hop)
  have hread : (queueReads s .deq a.phys).foldl (fun z g => consume z a.who (a.who.runKey s) a.addr g.1 g.2) s = s :=
    List.foldlRecOn (motive := fun z => z = s) _ _ rfl fun z hz g hg => by rw [hz, consume_clean (hslot g hg)]
  rw [exec_deq, execDeq, h.step, h.written hu (by simpa using hop), deqHere, consume_clean hp, hread]

end

/-- A DEQ reads a word of the ring only where the queue has one. -/
theorem queueReads_deq_nil {s : State} {a : Nat} (h : (descOf s a).bad = true ∨ (descOf s a).tail = (descOf s a).head) :
    queueReads s .deq a = [] := by
  unfold queueReads
  rcases h with h | h <;> simp [h]

theorem queueReads_deq_clean {s : State} {a : Nat} (h : poisoned s ((descOf s a).slot (descOf s a).head) 4 = false) :
    ∀ g ∈ queueReads s .deq a, poisoned s g.1 g.2 = false := by
  intro g hg
  unfold queueReads at hg
  dsimp only at hg
  split at hg
  · rw [List.mem_singleton.1 hg]
    exact h
  · cases hg

theorem deqAt_bad {s : State} {a : Nat} (w : Who) (hb : (descOf s a).bad = true) :
    deqAt s w a = (bump s (sliceCounter (countSlice s a) 8) 1, 0) := if_pos hb

/-- Settles O42: an ENQ that fits writes its words apart (`wordsIn_foldl`), one that does not the count of dropped entries, a DEQ the
head alone. -/
theorem queueOperations : Obligations.QueueOperations := by
  intro s a h hu d k
  have clean (hq : opQueue a.op = true) {b : Nat} (hlo : a.phys ≤ b) (hhi : b + 4 ≤ a.phys + 32) : poisoned s b 4 = false :=
    poisoned_part (h.clean_descriptor hq) hlo hhi
  refine ⟨fun hb hop hk hfit hslot => ?_, fun hb hop hfull => ?_, fun hb hop => ?_, fun hb hop => ?_, fun hb hop hne hp => ?_,
    fun hb hop he => ?_⟩
  · have hkcap : k ≤ 2 ^ d.cap := by omega
    have hclean : ∀ x ∈ enqWords d a.phys k a.data.toNat, poisoned s x.1 4 = false := by
      refine List.forall_mem_append.2 ⟨?_, ?_⟩
      · rw [List.forall_mem_map]
        exact fun j hj => (hslot j (List.mem_range.1 hj)).2
      · rintro _ (_ | ⟨_, ⟨⟩⟩)
        exact clean (opQueue_of_enq hop) (by omega) (by omega)
    have I := wordsIn_foldl a.who _ (enqWords_apart (cap_le_of_good hb) hkcap (fun j hj => (hslot j hj).1) a.data.toNat) s hclean
    refine ⟨_, ?_, I.words (a.phys + 4, d.tail + k)
      (List.mem_append_right _ (List.mem_singleton_self _)), fun j hj => ?_, fun x hx hxs => I.bytes x ?_⟩
    · rw [h.enq hu hop, enqAt_fits hb hfit hk, hb]
      simp only [blameQueue, if_true, Nat.add_comm]
      rfl
    · exact I.words (d.slot (d.tail + j), a.data.toNat / 2 ^ (32 * j))
        (List.mem_append_left _ (List.mem_map_of_mem (List.mem_range.2 hj)))
    · refine List.forall_mem_append.2 ⟨?_, ?_⟩
      · rw [List.forall_mem_map]
        exact fun j hj => hxs j (List.mem_range.1 hj)
      · rintro _ (_ | ⟨_, ⟨⟩⟩)
        exact hx
  · have hfits : d.fits k = false := by simp [Desc.fits, hfull]
    refine ⟨_, ?_, wrote_homeWriteN (clean (opQueue_of_enq hop) (by omega) (by omega)) (by decide) a.who _⟩
    rw [h.enq hu hop, enqAt_drops hfits, hb]
    rfl
  · have hfits : d.fits k = false := by simp [Desc.fits, show d.bad = true from hb]
    refine ⟨_, wrote_homeWriteN (clean (opQueue_of_enq hop) (by omega) (by omega)) (by decide) a.who _, ?_⟩
    rw [h.enq hu hop, enqAt_drops hfits, hb]
    rfl
  · rw [h.deq hu hop (by simp [queueReads_deq_nil (.inl hb)]), deqAt_bad _ hb, hb]
    rfl
  · refine ⟨_, ?_, wrote_homeWriteN (clean (opQueue_of_deq hop) (by omega) (by omega)) (by decide) a.who _⟩
    rw [h.deq hu hop (queueReads_deq_clean hp), deqAt_takes _ hb hne, hb, homeWriteN_mod]
    rfl
  · rw [h.deq hu hop (by simp [queueReads_deq_nil (.inr he)]), deqAt_empty _ hb he, hb]
    rfl

end Sys2Proof.Machine
end

section
/-! SUPPORT. Loads at their homes and from the RO cache (R74, R82, R84, R86, R140, R143), and the statement on them. -/

namespace Sys2Proof.Machine

open Sys2Proof

/-! ### What a load meets -/

theorem afterReached_of_afterOk {s : State} {a : Access} (h : afterOk s a = true) : afterReached s a = true := by
  refine List.all_eq_true.2 fun i hi => ?_
  have hi := List.all_eq_true.1 h i hi
  revert hi
  cases accById s i with
  | none => exact id
  | some c => simp; tauto

theorem readHome_clean {s : State} {a : Access} (hp : poisoned s a.phys a.size = false) :
    readHome s a [] = (s, cleanN s a.phys a.size) := by
  unfold readHome
  rw [consume_clean hp, ite_self]
  rfl

theorem noteTook_nil (s : State) (a : Access) : noteTook s a [] = s := by
  unfold noteTook
  split <;> rfl

theorem uncovered_nil {a : Access} (h : 0 < a.size) : (uncovered a []).isEmpty = false := by
  obtain ⟨n, hn⟩ : ∃ n, a.size = n + 1 := ⟨a.size - 1, by omega⟩
  simp [uncovered, hn, List.range_succ]

/-- The state in which a load waits in the groups of those of its tiles that are not FRESH. -/
def joinGroups (s : State) (a : Access) : State :=
  (staleHit s a.phys a.size).foldl (fun z x => requestTile z x.1 x.2 (.access a.id) false)
    (setAcc s { a with st := .derived, reached := true, early := none })

section
variable {s : State} {a : Access} (h : Reaches s a) (hst : a.isStore = false)
include h hst

theorem Reaches.unbuffered : buffered s a = [] := by
  have := h.clear
  simpa [bufferClear, hst] using this

/-- A load or AWAIT that has come to its home is performed, or joins the groups of the tiles that are not FRESH. -/
theorem Reaches.loaded (hop : a.op = .load ∨ a.op = .await) : loadAtHome s a false =
    if staleHit s a.phys a.size = [] then loadHere s a []
    else joinGroups s a := by
  obtain ⟨hafter, hreach⟩ := Bool.and_eq_true_iff.1 h.free
  obtain ⟨hq, hpr, hwp⟩ : opQueue a.op = false ∧ a.op ≠ .probe ∧ a.op ≠ .wpwait := by
    rcases hop with e | e <;> rw [e] <;> decide
  have hheld : windowHeld s a = false := by rw [windowHeld, h.unbuffered hst]; exact Bool.and_false _
  have hnone : forwarded s a = some [] := by rw [forwarded, h.unbuffered hst]; rfl
  have hpresent : anyAbsent s a.ranges = false := by
    have := h.present
    rwa [touchRanges, if_neg (by simp [hq])] at this
  unfold loadAtHome
  rw [hheld, hreach, afterReached_of_afterOk hafter, h.queued, hnone]
  simp [uncovered_nil h.sized, hpresent, hpr, hwp, hafter, joinGroups]

end

theorem Reaches.clean_load {s : State} {a : Access} (h : Reaches s a) (hop : a.op = .load ∨ a.op = .await) :
    poisoned s a.phys a.size = false := by
  obtain ⟨hq, hc, hwp⟩ : opQueue a.op = false ∧ a.op ≠ .cast ∧ a.op ≠ .wpwait := by
    rcases hop with e | e <;> rw [e] <;> decide
  exact Access.bytes_eq_size hq hwp ▸ h.clean_phys hc

/-! ### The value of a load -/

section
variable {s : State} {a : Access} (hp : poisoned s a.phys a.size = false)

/-- A load whose value was taken ahead, and that no earlier load stands before any more, returns that value. -/
theorem loadHere_early {v : Dword} (hop : a.op = .load) (he : a.early = some (v, [])) (bs : List Access) :
    loadHere s a bs = performed s a v := by
  unfold loadHere
  rw [hop, he]

include hp

theorem loadHere_load (hop : a.op = .load) (he : ∀ v, a.early ≠ some (v, [])) :
    loadHere s a [] = performed (settleEarly s a []) a (loadResult a (cleanN s a.phys a.size)) := by
  unfold loadHere
  rw [hop]
  dsimp only
  split
  · rename_i v hv
    exact absurd hv (he v)
  · rw [readHome_clean hp, noteTook_nil]

/-- An AWAIT is performed where its bytes are not all zero or its limit has passed. -/
theorem loadHere_await (hop : a.op = .await) (h : cleanN s a.phys a.size ≠ 0 ∨ awaitOver s a = true) :
    loadHere s a [] = performed s a (loadResult a (cleanN s a.phys a.size)) := by
  unfold loadHere
  rw [hop, readHome_clean hp]
  dsimp only
  rw [if_pos (by simpa using h)]

theorem loadHere_await_waits (hop : a.op = .await) (h0 : cleanN s a.phys a.size = 0) (h : awaitOver s a = false) :
    loadHere s a [] = setAcc s { a with
      st := .awaiting
      deadline := if a.who.limited = true ∧ a.deadline = 0 then (if a.hold = 0 then s.wall + 10000 else a.hold)
        else a.deadline } := by
  unfold loadHere
  rw [hop, readHome_clean hp]
  dsimp only
  rw [if_neg (by simp [h0, h])]
  simp

end

/-! ### Tiles that are asked for (R140, Table 11.6) -/

theorem tile_setTile (s : State) (e tile : Nat) (x : Tile) (f u : Nat) :
    (s.setTile e tile x).tile f u = if tileKey f u = tileKey e tile then x else s.tile f u := tget_tset _ _ _ _ _

theorem tile_queueTile (s : State) (e tile : Nat) (front : Bool) (f u : Nat) :
    (queueTile s e tile front).tile f u = s.tile f u := rfl

/-- A tile once waiter `w` has asked for it (Table 11.6). -/
def Tile.asked (w : Waiter) (x : Tile) : Tile :=
  match x.st with
  | .fresh => x
  | .stale => { x with st := .busy, g1 := x.g1 ++ [w] }
  | .busy => { x with g1 := x.g1 ++ [w] }
  | .dirty => { x with g2 := x.g2 ++ [w] }

theorem Tile.asked_fresh {x : Tile} (w : Waiter) (h : x.st = .fresh) : x.asked w = x := by
  rw [Tile.asked, h]
theorem Tile.asked_stale {x : Tile} (w : Waiter) (h : x.st = .stale) :
    x.asked w = { x with st := .busy, g1 := x.g1 ++ [w] } := by
  rw [Tile.asked, h]
theorem Tile.asked_busy {x : Tile} (w : Waiter) (h : x.st = .busy) : x.asked w = { x with g1 := x.g1 ++ [w] } := by
  rw [Tile.asked, h]
theorem Tile.asked_dirty {x : Tile} (w : Waiter) (h : x.st = .dirty) : x.asked w = { x with g2 := x.g2 ++ [w] } := by
  rw [Tile.asked, h]

/-- A request changes the one tile, and queues it where it was STALE. -/
theorem requestTile_spec (s : State) (e tile : Nat) (w : Waiter) (front : Bool) :
    { requestTile s e tile w front with tiles := s.tiles, slices := s.slices } = s ∧
    ∀ f u, (requestTile s e tile w front).tile f u =
      if tileKey f u = tileKey e tile then (s.tile e tile).asked w else s.tile f u := by
  unfold requestTile
  dsimp only
  split
  · rename_i hst
    refine ⟨rfl, fun f u => ?_⟩
    rw [Tile.asked_fresh w hst]
    split
    · rename_i hk
      rw [State.tile, hk, State.tile]
    · rfl
  · rename_i hst
    exact ⟨rfl, fun f u => by rw [Tile.asked_stale w hst, tile_queueTile, tile_setTile]⟩
  · rename_i hst
    exact ⟨rfl, fun f u => by rw [Tile.asked_busy w hst, tile_setTile]⟩
  · rename_i hst
    exact ⟨rfl, fun f u => by rw [Tile.asked_dirty w hst, tile_setTile]⟩

/-- A waiter is in a group of a tile that is not STALE. -/
def Joined (w : Waiter) (x : Tile) : Prop := x.st ≠ .stale ∧ (w ∈ x.g1 ∨ w ∈ x.g2)

theorem Tile.asked_not_fresh {x : Tile} (w : Waiter) (h : x.st ≠ .fresh) : (x.asked w).st ≠ .fresh := by
  cases hst : x.st with
  | fresh => exact absurd hst h
  | stale => rw [Tile.asked_stale w hst]; exact nofun
  | busy => rw [Tile.asked_busy w hst]; exact h
  | dirty => rw [Tile.asked_dirty w hst]; exact h

theorem joined_asked {x : Tile} (w : Waiter) (h : x.st ≠ .fresh) : Joined w (x.asked w) := by
  cases hst : x.st with
  | fresh => exact absurd hst h
  | stale => rw [Tile.asked_stale w hst]; exact ⟨nofun, .inl (by simp)⟩
  | busy => rw [Tile.asked_busy w hst]; exact ⟨by simp [hst], .inl (by simp)⟩
  | dirty => rw [Tile.asked_dirty w hst]; exact ⟨by simp [hst], .inr (by simp)⟩

/-- One waiter asks for some tiles: it joins each of them that is not FRESH. -/
theorem foldl_requestTile (w : Waiter) (xs : List (Nat × Nat)) : ∀ s : State, (∀ y ∈ xs, (s.tile y.1 y.2).st ≠ .fresh) →
    let t := xs.foldl (fun z x => requestTile z x.1 x.2 w false) s
    { t with tiles := s.tiles, slices := s.slices } = s ∧ (∀ y ∈ xs, Joined w (t.tile y.1 y.2)) ∧
      ∀ f u, Joined w (s.tile f u) → Joined w (t.tile f u) := by
  induction xs with
  | nil => exact fun s _ => ⟨rfl, nofun, fun _ _ h => h⟩
  | cons x r ih =>
    intro s hf t
    obtain ⟨hx, hr⟩ := List.forall_mem_cons.1 hf
    obtain ⟨hrest, htile⟩ := requestTile_spec s x.1 x.2 w false
    have keep (f u : Nat) (h : Joined w (s.tile f u)) : Joined w ((requestTile s x.1 x.2 w false).tile f u) := by
      rw [htile]
      split
      · exact joined_asked w hx
      · exact h
    obtain ⟨irest, ijoined, ikeep⟩ := ih (requestTile s x.1 x.2 w false) fun y hy => by
      rw [htile]
      split
      · exact Tile.asked_not_fresh w hx
      · exact hr y hy
    refine ⟨(congrArg (fun z : State => { z with tiles := s.tiles, slices := s.slices }) irest :).trans hrest,
      List.forall_mem_cons.2 ⟨ikeep _ _ ?_, ijoined⟩, fun f u h => ikeep f u (keep f u h)⟩
    rw [htile, if_pos rfl]
    exact joined_asked w hx

theorem not_fresh_of_staleHit {s : State} {a n : Nat} {y : Nat × Nat} (h : y ∈ staleHit s a n) : (s.tile y.1 y.2).st ≠ .fresh := by
  have := (List.mem_filter.1 h).2
  simpa [isFresh] using this

/-! ### RO loads (R86) -/

section
variable {s : State} {a : Access} {st : Nat} (hid : accById s a.id = some a) (hdev : a.dev = none) (hq : a.st = .queued)
  (hop : a.op = .ro) (hvol : a.vol = false) (hafter : afterOk s a = true) (hder : inDerived s a.phys a.size = false)
  (hstage : a.who.stageOf s = some st)
include hid hdev hq hop hvol hafter hder hstage

theorem roLoad_cached {bs : List Byte} (hline : (s.stage st).ro.find? (fun y => y.1 == lineOf a.phys) = some (lineOf a.phys, bs)) :
    exec (.roLoad a.id true) s = .next (roFrom s a bs) := by
  rw [exec_roLoad, execRoLoad, onAccess_next hid, atHome_here hdev, roAtHome]
  simp [hop, hq, hafter, hvol, hstage, hder, hline]

theorem roLoad_filled (hclosed : lineClosed s a.id a.ranges = false) (habsent : anyAbsent s a.ranges = false)
    (hp : poisoned s a.phys a.size = false)
    (hline : poisoned s (lineBase (lineOf a.phys)).1 (lineBase (lineOf a.phys)).2 = false) :
    let bs := cleanBytes s (lineBase (lineOf a.phys)).1 (lineBase (lineOf a.phys)).2
    exec (.roLoad a.id false) s = .next (roFrom ({ s with picks := s.picks + 1 }.setStage st
      { s.stage st with ro := fillLine s (s.stage st).ro 65536 (lineOf a.phys) bs }) a bs) := by
  have hshut : shut s a a.ranges = false := by
    obtain ⟨-, hheld⟩ := Bool.or_eq_false_iff.1 hclosed
    unfold shut
    split
    · exact hheld
    · exact hclosed
  intro bs
  rw [exec_roLoad, execRoLoad, onAccess_next hid, atHome_here hdev, roAtHome]
  simp [hop, hq, hafter, hvol, hstage, hder, hshut, habsent, hline, consume_clean hp]
  rfl

end

/-- Settles O40: a load that has come to its home goes through `Reaches.loaded`, to `loadHere` or, by `foldl_requestTile`, into the
groups of its tiles; an RO load is served from its stage's cache, or from the line that it fills there. -/
theorem homeLoads : Obligations.HomeLoads := by
  refine ⟨fun s a h hst hfresh => ?_, fun s a h hst hop hstale => ?_, fun s a st hid hdev hq hop hvol hafter hder hstage =>
    ⟨fun bs => roLoad_cached hid hdev hq hop hvol hafter hder hstage,
      fun hclosed habsent hp hline => roLoad_filled hid hdev hq hop hvol hafter hder hstage hclosed habsent hp hline⟩⟩
  · intro x taken
    have here (hop : a.op = .load ∨ a.op = .await) : loadAtHome s a false = loadHere s a [] := by
      rw [h.loaded hst hop, if_pos hfresh]
    have load {i : Instr} (hop : a.op = .load) (hi : exec i s = .next (loadAtHome s a false)) : taken i := by
      rw [here (.inl hop)] at hi
      exact ⟨fun he => by rw [hi, loadHere_load (h.clean_load (.inl hop)) hop he],
        fun v he => by rw [hi, loadHere_early hop he]⟩
    have await (hop : a.op = .await) : exec (.await a.id) s = .next (loadHere s a []) := by
      rw [exec_await, execAwait, h.step, if_pos (by simp [hop]), here (.inr hop)]
    refine ⟨fun hop => load hop ?_, fun hop hhit => load hop ?_, fun hop hx => ?_, fun hop h0 hov => ?_⟩
    · rw [exec_plainLoad, execPlainLoad, h.step, if_pos (by simp [hop])]
    · rw [exec_derivedLoad, execDerivedLoad, onAccess_next h.stands, if_pos (by simp [h.here, hhit]), hop]
    · rw [await hop, loadHere_await (h.clean_load (.inr hop)) hop hx]
    · rw [await hop, loadHere_await_waits (h.clean_load (.inr hop)) hop h0 hov]
  · have hhit : tilesHit s a.phys a.size ≠ [] := fun hn => hstale (by rw [staleHit, hn]; rfl)
    obtain ⟨hrest, hjoined, -⟩ := foldl_requestTile (.access a.id) (staleHit s a.phys a.size)
      (setAcc s { a with st := .derived, reached := true, early := none }) fun y hy => not_fresh_of_staleHit hy
    refine ⟨joinGroups s a, ?_, (congrArg State.mem hrest :), (congrArg State.accs hrest :), hjoined⟩
    rw [exec_derivedLoad, execDerivedLoad, onAccess_next h.stands, if_pos (by simp [h.here, hhit]), hop]
    dsimp only
    rw [h.loaded hst (.inl hop), if_neg hstale]

end Sys2Proof.Machine
end

section
/-! SUPPORT. CAST deliveries, stale marks and the writes that marks hold (R78, R138, R139), and the statement on them. -/

namespace Sys2Proof.Machine

open Sys2Proof

/-! ### CAST (R78) -/

/-- A CAST whose delivery to place `p`, the `k`th, is over. -/
def Access.delivered (a : Access) (k p : Nat) : Access :=
  { a with dies := a.dies.eraseIdx k, castHeld := a.castHeld.filter fun x => x.1 != p }
/-- The last delivery ends the store. -/
def castOver (s : State) (b : Access) : State := if b.dies = [] then performed s b 0 else setAcc s b

/-- A delivery that nothing at its place holds back is one write there. -/
theorem castDeliver_free {s : State} {a : Access} {k p : Nat} (hop : a.op = .cast) (hk : a.dies[k]? = some p)
    (hok : deliveryOk s a p = true) (hheld : ∀ x ∈ a.castHeld, x.1 ≠ p) (hlost : lostAt s true p = none)
    (hder : inDerived s p a.size = false) (hwat : anyWatched s [(p, a.size)] = false) : castDeliver k s a =
      castOver (homeWrite s a.who p (leBytes a.size a.data.toNat)) (a.delivered k p) := by
  have hnone : (a.castHeld.find? fun x => x.1 == p) = none := List.find?_eq_none.2 fun x hx => by simp [hheld x hx]
  have hcast : (a.op != .cast) = false := by simp [hop]
  unfold castDeliver
  rw [hk]
  dsimp only
  rw [hcast, hlost, hnone, hok, hder, hwat]
  simp only [castOver, Access.delivered, List.isEmpty_iff]
  rfl

/-! ### Stale marks (R139) -/

/-- The acknowledgement of one mark, where no mark waits for others. -/
theorem ackMarks_single {s : State} (n k : Nat) (h : ∀ y ∈ s.marks, y.waits = []) :
    ackMarks (n + 1) s [k] = { s with marks := s.marks.filter fun y => y.id != k } := by
  have hk : (fun y : Mark => !([k].contains y.id)) = fun y => y.id != k := funext fun y => by simp [bne, beq_eq_decide]
  have hrest : ∀ y ∈ s.marks.filter (fun y => y.id != k), y.waits.isEmpty = true := fun y hy => by
    rw [h y (List.mem_filter.1 hy).1]
    rfl
  have hsame : (s.marks.filter fun y => y.id != k).map (fun m =>
      if m.waits.isEmpty then m else { m with waits := m.waits.filter fun i => !([k].contains i) }) =
        s.marks.filter fun y => y.id != k :=
    (List.map_congr_left fun y hy => if_pos (hrest y hy)).trans (List.map_id _)
  have hfreed : ((s.marks.filter fun y => y.id != k).filter fun m =>
      !m.waits.isEmpty && m.waits.all fun i => [k].contains i) = [] :=
    List.filter_eq_nil_iff.2 fun y hy => by simp [hrest y hy]
  unfold ackMarks
  dsimp only
  rw [hk, hfreed, hsame]
  rfl

/-- What a mark makes of the state of its tile (Table 11.6). -/
def TileState.marked : TileState → TileState
  | .fresh => .stale
  | .busy => .dirty
  | st => st

/-- Mark `m` is over and its tile stands as `x`; memory and the other tiles stay. -/
structure MarkTurns (s : State) (m : Mark) (x : Tile) (z : State) : Prop where
  marks : z.marks = s.marks.filter fun y => y.id != m.id
  bytes : z.mem = s.mem
  tiles : ∀ f u, z.tile f u = if tileKey f u = tileKey m.e m.tile then x else s.tile f u

section
variable {s : State} {m : Mark} (hwaits : ∀ y ∈ s.marks, y.waits = [])
include hwaits

theorem markTurns_set (x : Tile) :
    MarkTurns s m x (ackMarks 4 ((bump s (sliceCounter m.home 0x10) 1).setTile m.e m.tile x) [m.id]) := by
  rw [ackMarks_single (s := (bump s (sliceCounter m.home 0x10) 1).setTile m.e m.tile x) 3 m.id hwaits]
  exact ⟨rfl, rfl, fun f u => tile_setTile _ _ _ _ _ _⟩

theorem markTurns_kept :
    MarkTurns s m (s.tile m.e m.tile) (ackMarks 4 (bump s (sliceCounter m.home 0x10) 1) [m.id]) := by
  rw [ackMarks_single (s := bump s (sliceCounter m.home 0x10) 1) 3 m.id hwaits]
  refine ⟨rfl, rfl, fun f u => ?_⟩
  split
  · rename_i hk
    exact congrArg (tget s.tiles Tile.stale) hk
  · rfl

/-- A mark that reaches its tile and sends no others on turns the tile alone, and is acknowledged at once. -/
theorem staleMark_acked (hm : s.marks.find? (fun y => y.id == m.id) = some m) (harr : m.arrived = false)
    (hwat : anyWatched s ((s.entry m.e).tileRanges m.tile) = false) :
    ∃ z, exec (.staleMark m.id) s = .next z ∧
      MarkTurns s m { s.tile m.e m.tile with st := (s.tile m.e m.tile).st.marked } z := by
  have htile : (bump s (sliceCounter m.home 0x10) 1).tile m.e m.tile = s.tile m.e m.tile := rfl
  have hnone (x : Tile) : anyWatched ((bump s (sliceCounter m.home 0x10) 1).setTile m.e m.tile x)
      ((s.entry m.e).tileRanges m.tile) = false := hwat
  have hkeep (h : (s.tile m.e m.tile).st.marked = (s.tile m.e m.tile).st) :
      { s.tile m.e m.tile with st := (s.tile m.e m.tile).st.marked } = s.tile m.e m.tile := by rw [h]
  rw [exec_staleMark, execStaleMark, hm]
  dsimp only
  rw [harr, htile, hnone]
  split
  · contradiction
  · split
    · rename_i hst
      rw [hst]
      exact ⟨_, rfl, markTurns_set hwaits _⟩
    · rename_i hst
      rw [hst]
      exact ⟨_, rfl, markTurns_set hwaits _⟩
    · rename_i hfresh hbusy
      rw [hkeep]
      · exact ⟨_, rfl, markTurns_kept hwaits⟩
      · cases hst : (s.tile m.e m.tile).st with
        | fresh => exact absurd hst hfresh
        | busy => exact absurd hst hbusy
        | stale => rfl
        | dirty => rfl

end

/-- Tiles below 65536 have keys of their own. -/
theorem tileKey_ne {e tile f u : Nat} (h : (f, u) ≠ (e, tile)) (hu : u < 65536) (ht : tile < 65536) :
    tileKey f u ≠ tileKey e tile := by
  intro hk
  unfold tileKey at hk
  exact h (by rw [Prod.mk.injEq]; omega)

/-! ### Writes held for their marks (R138) -/

theorem Entry.hits_part {e : Entry} {a n b m : Nat} (h : e.hits a n = false) (hlo : a ≤ b) (hhi : b + m ≤ a + n) :
    e.hits b m = false := by
  simp only [Entry.hits, overlaps, Bool.or_eq_false_iff, Bool.and_eq_false_iff, decide_eq_false_iff_not] at h ⊢
  omega

theorem inDerived_part {s : State} {a n b m : Nat} (h : inDerived s a n = false) (hlo : a ≤ b) (hhi : b + m ≤ a + n) :
    inDerived s b m = false :=
  List.any_eq_false.2 fun x hx => by
    simp [Entry.hits_part (Bool.eq_false_iff.2 (List.any_eq_false.1 h x hx)) hlo hhi]

theorem Access.lt_of_enabled {a : Access} {k : Nat} (h : k ∈ a.enabled) : k < a.size := by
  unfold Access.enabled at h
  split at h
  · split at h
    · exact List.mem_range.1 (List.mem_filter.1 h).1
    · exact List.mem_range.1 h
  · exact List.mem_range.1 h

/-- What a store writes lies in its bytes. -/
theorem underived_store {s : State} {a : Access} (hop : a.op = .store) (hder : inDerived s a.phys a.size = false) :
    ∀ r ∈ writeRanges s a, inDerived s r.1 r.2 = false := by
  intro r hr
  unfold writeRanges at hr
  rw [hop] at hr
  rw [if_neg (by decide)] at hr
  split at hr
  · obtain ⟨k, hk, rfl⟩ := List.mem_map.1 hr
    have := Access.lt_of_enabled hk
    exact inDerived_part hder (by omega) (by dsimp only; omega)
  · have hranges : a.ranges = [(a.phys, a.size)] := by simp [Access.ranges, Access.bytes, hop, opQueue]
    rw [if_pos (by decide), hranges, List.mem_singleton] at hr
    rw [hr]
    exact hder

/-- A store whose marks have all been acknowledged is performed. -/
theorem markAck_store {s : State} {a : Access} {ids : List Nat} (hid : accById s a.id = some a) (hst : a.st = .heldW ids)
    (hids : ∀ i ∈ ids, ∀ m ∈ s.marks, m.id ≠ i) (hop : a.op = .store) (hstore : a.isStore = true)
    (hder : inDerived s a.phys a.size = false) : exec (.markAck a.id) s = .next (storeHere s a) := by
  have hover : marksOver s ids = true := by
    have hnone : (ids.any fun i => s.marks.any fun m => m.id == i) = false :=
      List.any_eq_false.2 fun i hi => by simpa using hids i hi
    rw [marksOver, hnone]
    rfl
  have hany : ((writeRanges s a).any fun r => inDerived s r.1 r.2) = false :=
    List.any_eq_false.2 fun r hr => by simp [underived_store hop hder r hr]
  rw [exec_markAck, execMarkAck, onAccess_next hid, hst]
  dsimp only
  rw [performAny, hop]
  dsimp only
  have hgo : performWrite s a true storeHere = storeHere s a := by
    unfold performWrite
    rw [hst]
    simp [hover, hany]
  unfold writeEvent
  rw [hgo, hst, if_pos (by simp [hop, bufferClear, hstore])]

/-- Settles O43: a delivery by `castDeliver_free`, a mark by `staleMark_acked`, and the write that marks held by `markAck_store`. -/
theorem castsAndMarks : Obligations.CastsAndMarks := by
  refine ⟨fun s a k p hid hdev hop hs hk hok hheld hlost hder hwat hp => ?_, fun s m hm harr hwaits hwat => ?_,
    fun s a ids hid hst hids hop hstore hs hp hder => ?_⟩
  · refine ⟨_, wrote_homeWrite a.who (leBytes_ne_nil hs _) (by rwa [leBytes_length]), ?_⟩
    rw [exec_castDelivery, execCastDelivery, onAccess_next hid, atHome_here hdev,
      castDeliver_free hop hk hok hheld hlost hder hwat]
    rfl
  · obtain ⟨z, hz, T⟩ := staleMark_acked hwaits hm harr hwat
    have hown := (T.tiles m.e m.tile).trans (if_pos rfl)
    refine ⟨z, hz, T.marks, T.bytes, ?_, by rw [hown], by rw [hown], fun x hx hx2 hm2 => ?_⟩
    · rw [hown]
      cases (s.tile m.e m.tile).st <;> rfl
    · rw [T.tiles, if_neg (tileKey_ne hx hx2 hm2)]
  · obtain ⟨t, ht, hwrote⟩ := storeHere_wrote hs hp
    exact ⟨t, by rw [markAck_store hid hst hids hop hstore hder, ht], hwrote⟩

end Sys2Proof.Machine
end

section
/-! SUPPORT. Replies of accesses, read-backs and hold reports (R53, R74, R161, R262, R402, R431), and the statement on them. -/

namespace Sys2Proof.Machine

open Sys2Proof

/-! ### Owed writes that are performed (R161) -/

/-- The words of an owed write put in registers, no later instruction having written them since. -/
def Troupe.putRegs (tr : Troupe) (ws : List (Nat × Word)) : Troupe :=
  ws.foldl (fun tr w => { tr with regs := tset tr.regs 0 w.1 w.2 }) tr

theorem Troupe.putRegs_rest (ws : List (Nat × Word)) (tr : Troupe) : { tr.putRegs ws with regs := tr.regs } = tr :=
  List.foldlRecOn (motive := fun x : Troupe => { x with regs := tr.regs } = tr) ws _ rfl
    fun _ hx _ _ => hx

theorem Troupe.reg_putRegs (ws : List (Nat × Word)) : ∀ tr : Troupe, (ws.map Prod.fst).Nodup →
    (∀ w ∈ ws, (tr.putRegs ws).reg w.1 = w.2) ∧ ∀ k, k ∉ ws.map Prod.fst → (tr.putRegs ws).reg k = tr.reg k := by
  induction ws with
  | nil => exact fun _ _ => ⟨nofun, fun _ _ => rfl⟩
  | cons w r ih =>
    intro tr hn
    obtain ⟨hw, hr⟩ := List.nodup_cons.1 hn
    obtain ⟨hin, hout⟩ := ih { tr with regs := tset tr.regs 0 w.1 w.2 } hr
    have hset (k : Nat) : Troupe.reg { tr with regs := tset tr.regs 0 w.1 w.2 } k = if k = w.1 then w.2 else tr.reg k :=
      tget_tset _ _ _ _ _
    refine ⟨List.forall_mem_cons.2 ⟨?_, hin⟩, fun k hk => ?_⟩
    · exact (hout _ hw).trans ((hset _).trans (if_pos rfl))
    · rw [List.map_cons, List.mem_cons, not_or] at hk
      obtain ⟨hkw, hkr⟩ := hk
      exact (hout _ hkr).trans ((hset _).trans (if_neg hkw))

theorem Troupe.putRegs_pend (ws : List (Nat × Word)) (x y : List Pend) : ∀ tr : Troupe,
    { ({ tr with pend := x } : Troupe).putRegs ws with pend := y } = { tr.putRegs ws with pend := y } := by
  induction ws with
  | nil => exact fun _ => rfl
  | cons w r ih => exact fun tr => ih { tr with regs := tset tr.regs 0 w.1 w.2 }

/-- An owed write that no later instruction has overtaken is performed. -/
theorem performPend_eq {s : State} {t id : Nat} {p : Pend} (hp : (s.troupe t).pend.find? (fun y => y.id == id) = some p)
    (hc : p.contested = []) : performPend s t id = ({ s with picks := s.picks + 1 } : State).setTroupe t
      { (s.troupe t).putRegs p.writes with pend := (s.troupe t).pend.filter fun y => y.id != id } := by
  have hpend : ((s.troupe t).putRegs p.writes).pend = (s.troupe t).pend :=
    (congrArg Troupe.pend (Troupe.putRegs_rest p.writes (s.troupe t)) :)
  unfold performPend
  dsimp only
  rw [hp]
  simp only [hc, List.contains_nil, Bool.false_and, Bool.false_eq_true, if_false]
  rw [← hpend]
  rfl

theorem knowPend_keys (v : Dword) (p : Pend) : (knowPend v p).writes.map Prod.fst = p.writes.map Prod.fst := by
  have hkey : ∀ x ∈ p.writes.zipIdx, (if x.1.1 ≥ pKey 0 0 then (x.1.1, boolWord (v != 0))
      else (x.1.1, if x.2 = 0 then loWord v else hiWord v)).1 = x.1.1 := fun x _ => by split <;> rfl
  calc (knowPend v p).writes.map Prod.fst = p.writes.zipIdx.map fun x => x.1.1 := by
        rw [knowPend, List.map_map]
        exact List.map_congr_left hkey
    _ = p.writes.map Prod.fst := by
        exact (List.map_map (g := Prod.fst)).symm.trans (congrArg (List.map Prod.fst) (List.zipIdx_map_fst 0 p.writes))

/-! ### The reply of an access of threads -/

/-- The owed writes of a troupe once the value `v` of access `a` is known (R161). -/
def knownPends (a : Access) (v : Dword) (ps : List Pend) : List Pend := ps.map fun p => if p.id = a.pend then knowPend v p else p

/-- The state in which the reply's value `v` is known: a remote access brings it, a performed one has it. -/
def answered (s : State) (a : Access) (v : Dword) : State := if a.st = .performed then s else knowResult s a v

theorem answered_eq {s : State} {a : Access} {t : Nat} {m : Mask} (hw : a.who.threads = some (t, m)) (v : Dword) :
    answered s a v = if a.st = .performed ∨ a.pend = 0 then s
      else s.setTroupe t { s.troupe t with pend := knownPends a v (s.troupe t).pend } := by
  unfold answered knowResult
  rw [hw]
  by_cases h1 : a.st = .performed
  · rw [if_pos h1, if_pos (.inl h1)]
  · by_cases h2 : a.pend = 0
    · rw [if_neg h1, if_pos (.inr h2), h2]
      rfl
    · rw [if_neg h1, if_neg (not_or.2 ⟨h1, h2⟩), bne_iff_ne.2 h2]
      rfl

theorem filter_knownPends (a : Access) (v : Dword) (ps : List Pend) :
    (knownPends a v ps).filter (fun y => y.id != a.pend) = ps.filter fun y => y.id != a.pend := by
  induction ps with
  | nil => rfl
  | cons p r ih =>
    by_cases h : p.id = a.pend
    · have hk : (knowPend v p).id = a.pend := h
      simpa [knownPends, h, hk] using ih
    · simpa [knownPends, h] using ih

theorem find_knownPends {a : Access} {p : Pend} {ps : List Pend} (hp : ps.find? (fun y => y.id == a.pend) = some p) (v : Dword) :
    (knownPends a v ps).find? (fun y => y.id == a.pend) = some (knowPend v p) := by
  have hsame : ((fun y : Pend => y.id == a.pend) ∘ fun p => if p.id = a.pend then knowPend v p else p) =
      fun y => y.id == a.pend := funext fun y => by
    dsimp only [Function.comp]
    split <;> rfl
  have hid : p.id = a.pend := by simpa using List.find?_some hp
  rw [knownPends, List.find?_map, hsame, hp, Option.map_some, if_pos hid]

/-- What an access of threads leaves before any of them leaves its wait: it is gone, its acquire has dropped the stage's RO cache, and
the write that it owes is performed. -/
def replied (s : State) (a : Access) (t : Nat) : State :=
  let s1 := dropAcc s a.id
  let s2 := if a.acq && scopeOuter a.scope then dropRo s1 (s1.troupe t).stage else s1
  if a.pend = 0 then s2 else performPend s2 t a.pend

/-- Access `a`, of troupe `t`, is gone from `z`; no byte and no other troupe changes. -/
structure AccEnds (a : Access) (t : Nat) (s z : State) : Prop where
  accs   : z.accs = s.accs.filter fun b => b.id != a.id
  bytes  : z.mem = s.mem
  others : ∀ u, u ≠ t → z.troupe u = s.troupe u

theorem replied_nothing {s : State} {a : Access} (t : Nat) (h : a.pend = 0) :
    AccEnds a t s (replied s a t) ∧ (replied s a t).troupe t = s.troupe t := by
  unfold replied
  dsimp only
  rw [if_pos h]
  split <;> exact ⟨⟨rfl, rfl, fun _ _ => rfl⟩, rfl⟩

theorem replied_owed {s : State} {a : Access} {t : Nat} {p : Pend} (h : a.pend ≠ 0)
    (hp : (s.troupe t).pend.find? (fun y => y.id == a.pend) = some p) (hc : p.contested = []) :
    AccEnds a t s (replied s a t) ∧ (replied s a t).troupe t =
      { (s.troupe t).putRegs p.writes with pend := (s.troupe t).pend.filter fun y => y.id != a.pend } := by
  unfold replied
  dsimp only
  rw [if_neg h]
  split
  · rw [performPend_eq (s := dropRo (dropAcc s a.id) _) hp hc]
    exact ⟨⟨rfl, rfl, fun u hu => State.troupe_setTroupe_ne _ _ hu⟩, State.troupe_setTroupe_self _ _ _⟩
  · rw [performPend_eq (s := dropAcc s a.id) hp hc]
    exact ⟨⟨rfl, rfl, fun u hu => State.troupe_setTroupe_ne _ _ hu⟩, State.troupe_setTroupe_self _ _ _⟩

/-- The lanes that wait in an access. -/
def waitingLanes (s : State) (a : Access) (t : Nat) (m : Mask) : Mask :=
  maskOf fun l => hasLane m l && (s.thread t l).waitsAccess a.id

theorem completeAcc_threads {s : State} {a : Access} {t : Nat} {m : Mask} (hw : a.who.threads = some (t, m)) (res : Dword) :
    completeAcc s a res =
      let z := replied s a t
      let f := frozenWaits (z.troupe t) m a.id
      let y := if f = 0 then z else leaveFrozen z t f res
      if waitingLanes z a t m = 0 then y else leaveLanes y t (waitingLanes z a t m) fun _ => res := by
  unfold completeAcc
  rw [hw]
  rfl

theorem frozenWaits_none {tr : Troupe} {id : Nat} (h : ∀ x ∈ tr.frozen, x.2.wait ≠ .await id) (m : Mask) :
    frozenWaits tr m id = 0 := by
  have hnone (l : Nat) : (tr.frozen.any fun x => x.1 == l && x.2.st == .waiting && x.2.wait == .await id) = false :=
    List.any_eq_false.2 fun x hx => by simp [h x hx]
  unfold frozenWaits
  split
  · rfl
  · exact maskOf_eq_zero.2 fun l _ => by rw [hnone, Bool.and_false]

theorem readGroup_threads {s : State} {a : Access} {x : Nat × Mask} (h : a.who.threads = some x) : readGroup s a = [a] := by
  unfold readGroup
  split
  · rename_i hw
    rw [hw] at h
    cases h
  · rfl

/-- The reply of an access of threads that has been performed, or that another module has answered, completes it. -/
theorem loadCompletion_answered {s : State} {a : Access} {t : Nat} {m : Mask} (hid : accById s a.id = some a)
    (hw : a.who.threads = some (t, m)) (reply : Dword)
    (hcame : a.st = .performed ∧ a.spill = false ∨ a.st = .remote ∧ a.reported = false ∧ a.lostRel = false) :
    let v := if a.st = .performed then a.res
      else if a.op = .load ∨ a.op = .ro ∨ a.op = .await then loadResult a (reply.toNat % 2 ^ (8 * a.size)) else reply
    exec (.loadCompletion a.id reply) s = .next (completeAcc (answered s a v) a v) := by
  intro v
  rw [exec_loadCompletion, execLoadCompletion, onAccess_next hid]
  obtain ⟨hst, hspill⟩ | ⟨hst, hrep, hlost⟩ := hcame
  · have hgroup : readGroup s a = [a] := readGroup_threads hw
    rw [show v = a.res from if_pos hst, show answered s a a.res = s from if_pos hst]
    dsimp only
    rw [hst, hspill]
    dsimp only
    rw [returnAcc, hgroup]
    rfl
  · have hne : a.st ≠ .performed := by rw [hst]; exact nofun
    have hunpark : unpark s a = s := by rw [unpark, hrep]
    have hv : v = if a.op == .load || a.op == .ro || a.op == .await then loadResult a (reply.toNat % 2 ^ (8 * a.size))
        else reply := (if_neg hne).trans (if_congr (by simp [or_assoc]) rfl rfl)
    rw [show answered s a v = knowResult s a v from if_neg hne, hv]
    dsimp only
    rw [hst, hlost, hunpark]
    rfl

section
variable {s : State} {a : Access} {t : Nat} {m : Mask} (hw : a.who.threads = some (t, m)) (v : Dword)
include hw

/-- A known value changes the owed writes of the troupe alone. -/
theorem answered_rest : { answered s a v with troupes := s.troupes } = s ∧
    (∀ u, u ≠ t → (answered s a v).troupe u = s.troupe u) ∧
    { (answered s a v).troupe t with pend := (s.troupe t).pend } = s.troupe t := by
  rw [answered_eq hw]
  split
  · exact ⟨rfl, fun _ _ => rfl, rfl⟩
  · exact ⟨rfl, fun u hu => State.troupe_setTroupe_ne _ _ hu, by rw [State.troupe_setTroupe_self]⟩

theorem AccEnds.of_answered {z : State} (h : AccEnds a t (answered s a v) z) : AccEnds a t s z := by
  obtain ⟨hrest, hothers, -⟩ := answered_rest (s := s) hw v
  have haccs : (answered s a v).accs = s.accs := (congrArg State.accs hrest :)
  exact ⟨haccs ▸ h.accs, h.bytes.trans (congrArg State.mem hrest :), fun u hu => (h.others u hu).trans (hothers u hu)⟩

/-- Of the troupe of an access that owes a write, that write alone is performed. -/
theorem replied_answered {p : Pend} (h : a.pend ≠ 0) (hp : (s.troupe t).pend.find? (fun y => y.id == a.pend) = some p)
    (hc : p.contested = []) :
    let q := if a.st = .performed then p else knowPend v p
    AccEnds a t s (replied (answered s a v) a t) ∧ (replied (answered s a v) a t).troupe t =
      { (s.troupe t).putRegs q.writes with pend := (s.troupe t).pend.filter fun y => y.id != a.pend } := by
  intro q
  by_cases hst : a.st = .performed
  · rw [show q = p from if_pos hst, show answered s a v = s from if_pos hst]
    exact replied_owed h hp hc
  · have hans : answered s a v = s.setTroupe t { s.troupe t with pend := knownPends a v (s.troupe t).pend } := by
      rw [answered_eq hw, if_neg (not_or.2 ⟨hst, h⟩)]
    have htr : (answered s a v).troupe t = { s.troupe t with pend := knownPends a v (s.troupe t).pend } := by
      rw [hans, State.troupe_setTroupe_self]
    have hfind : ((answered s a v).troupe t).pend.find? (fun y => y.id == a.pend) = some (knowPend v p) := by
      rw [htr]
      exact find_knownPends hp v
    obtain ⟨hends, heq⟩ := replied_owed h hfind hc
    refine ⟨hends.of_answered hw, ?_⟩
    rw [show q = knowPend v p from if_neg hst, heq, htr]
    dsimp only
    rw [filter_knownPends]
    exact Troupe.putRegs_pend _ _ _ _

end

theorem waitingLanes_none {s : State} {a : Access} {t : Nat} {m : Mask}
    (h : ∀ l < 32, hasLane m l = true → (s.thread t l).waitsAccess a.id = false) : waitingLanes s a t m = 0 :=
  maskOf_eq_zero.2 fun l hl => by
    by_cases hm : hasLane m l = true
    · rw [h l hl hm, Bool.and_false]
    · rw [Bool.eq_false_iff.2 hm, Bool.false_and]

theorem waitingLanes_all {s : State} {a : Access} {t : Nat} {m : Mask}
    (h : ∀ l, hasLane m l = true → (s.thread t l).waitsAccess a.id = true) : waitingLanes s a t m = m := by
  have hlane (l : Nat) : hasLane (waitingLanes s a t m) l = hasLane m l := by
    rw [waitingLanes, hasLane_maskOf]
    cases hm : hasLane m l with
    | true => rw [h l hm, decide_eq_true (lt_of_hasLane hm)]; rfl
    | false => rw [Bool.false_and, Bool.and_false]
  exact BitVec.eq_of_getLsbD_eq fun l _ => hlane l

theorem lanes_laneBit : ∀ l < 32, lanes (laneBit l) = [l] := by decide

theorem keys_destWrites_nodup (wide : Bool) (d : Opd) (l : Nat) (x : Dword) : ((destWrites wide d l x).map Prod.fst).Nodup := by
  cases d with
  | v n => cases wide <;> simp [destWrites, vKey]
  | s n => cases wide <;> simp [destWrites, sKey]
  | p k => by_cases hk : k.val = 7 <;> simp [destWrites, hk]
  | sp k => exact List.nodup_nil
  | rz => exact List.nodup_nil

/-- The lanes of a mask leave together, and only its lowest has a destination. -/
theorem leaveLanes_lowest {s : State} {t : Nat} {m : Mask} (x : Dword) (hm : m ≠ 0)
    (hrz : ∀ l, hasLane m l = true → l ≠ lowLane m → (s.thread t l).info.d = .rz) :
    let i := (s.thread t (lowLane m)).info
    let z := leaveLanes s t m fun _ => x
    Gets (z.troupe t) (Ty.wide i.ty) i.d (lowLane m) x ∧
    ∀ k, k ∉ (destWrites (Ty.wide i.ty) i.d (lowLane m) 0).map Prod.fst → (z.troupe t).reg k = (s.troupe t).reg k := by
  intro i z
  have hlow := (lowLane_spec hm).1
  have hnone {l : Nat} (hl : hasLane m l = true) (hne : l ≠ lowLane m) :
      leaveWrites (s.troupe t) (fun _ => x) l = [] := by
    rw [leaveWrites, show ((s.troupe t).thread l).info.d = .rz from hrz l hl hne]
    rfl
  refine ⟨fun w hw => reg_leaveLanes_agree hlow hw fun j hj y hy hyw => ?_, fun k hk => reg_leaveLanes_other fun j hj => ?_⟩
  · by_cases hjl : j = lowLane m
    · subst hjl
      rw [List.inj_on_of_nodup_map (keys_destWrites_nodup _ _ _ _) hy hw hyw]
    · rw [hnone hj hjl] at hy
      cases hy
  · by_cases hjl : j = lowLane m
    · subst hjl
      rw [leaveWrites, keys_destWrites]
      exact hk
    · rw [hnone hj hjl]
      exact List.not_mem_nil

/-- The result of an AWAIT of one lane in a handler is written, and its thread will go on after it. -/
theorem leaveFrozen_lane {s : State} {t l : Nat} {f : Frozen} (hl : l < 32) (res : Dword)
    (hf : (s.troupe t).frozen.find? (fun x => x.1 == l) = some (l, f)) :
    let z := leaveFrozen s t (laneBit l) res
    (z.troupe t).frozen = tput (s.troupe t).frozen l { f with got := true } ∧ Gets (z.troupe t) (Ty.wide f.info.ty) f.info.d l res ∧
    ∀ k, z.thread t k = s.thread t k := by
  intro z
  have htr : z.troupe t = { (s.troupe t).setRegs (destWrites (Ty.wide f.info.ty) f.info.d l res) with
      frozen := tput ((s.troupe t).setRegs (destWrites (Ty.wide f.info.ty) f.info.d l res)).frozen l { f with got := true } } := by
    show (leaveFrozen s t (laneBit l) res).troupe t = _
    rw [leaveFrozen, State.troupe_setTroupe_self, lanes_laneBit l hl, List.reverse_singleton, List.foldl_cons, List.foldl_nil, hf]
  have hfrozen : ((s.troupe t).setRegs (destWrites (Ty.wide f.info.ty) f.info.d l res)).frozen = (s.troupe t).frozen :=
    (congrArg Troupe.frozen (Troupe.setRegs_rest _ (s.troupe t)) :)
  refine ⟨by rw [htr, hfrozen], fun w hw => ?_, fun k => ?_⟩
  · rw [htr]
    exact Troupe.reg_setRegs_of_mem _ (keys_destWrites_nodup _ _ _ _) _ hw
  · rw [State.thread, htr]
    exact Troupe.thread_setRegs (s.troupe t) _ k

/-- An access that owes no write: what the known value and the reply leave. -/
theorem replied_answered_nothing {s : State} {a : Access} {t : Nat} {m : Mask} (hw : a.who.threads = some (t, m)) (v : Dword)
    (h : a.pend = 0) :
    AccEnds a t s (replied (answered s a v) a t) ∧ (replied (answered s a v) a t).troupe t = s.troupe t := by
  have hsame : answered s a v = s := by rw [answered_eq hw, if_pos (.inr h)]
  rw [hsame]
  exact replied_nothing t h

/-- Where no thread is frozen in this wait, the lanes that wait in the access leave, if there are any. -/
theorem completeAcc_unfrozen {s : State} {a : Access} {t : Nat} {m : Mask} (hw : a.who.threads = some (t, m)) (res : Dword)
    (h : ∀ x ∈ ((replied s a t).troupe t).frozen, x.2.wait ≠ .await a.id) :
    completeAcc s a res = if waitingLanes (replied s a t) a t m = 0 then replied s a t
      else leaveLanes (replied s a t) t (waitingLanes (replied s a t) a t m) fun _ => res := by
  rw [completeAcc_threads hw]
  dsimp only
  rw [frozenWaits_none h, if_pos rfl]

section
variable {s : State} {a : Access} {t : Nat} {m : Mask} (hw : a.who.threads = some (t, m)) (v : Dword)
  (hfrozen : ∀ x ∈ (s.troupe t).frozen, x.2.wait ≠ .await a.id)
include hw hfrozen

/-- The reply performs the write that the access owes. -/
theorem completeAcc_owed {p : Pend} (hidle : ∀ l < 32, hasLane m l = true → (s.thread t l).waitsAccess a.id = false)
    (h : a.pend ≠ 0) (hp : (s.troupe t).pend.find? (fun y => y.id == a.pend) = some p) (hc : p.contested = []) :
    let q := if a.st = .performed then p else knowPend v p
    AccEnds a t s (completeAcc (answered s a v) a v) ∧ (completeAcc (answered s a v) a v).troupe t =
      { (s.troupe t).putRegs q.writes with pend := (s.troupe t).pend.filter fun y => y.id != a.pend } := by
  intro q
  obtain ⟨hends, htr⟩ := replied_answered hw v h hp hc
  have hrest := Troupe.putRegs_rest q.writes (s.troupe t)
  have hfr : ((replied (answered s a v) a t).troupe t).frozen = (s.troupe t).frozen :=
    (congrArg Troupe.frozen htr).trans (congrArg Troupe.frozen hrest :)
  have hthread (l : Nat) : (replied (answered s a v) a t).thread t l = s.thread t l :=
    (congrArg (fun x => Troupe.thread x l) htr).trans (congrArg (fun x => Troupe.thread x l) hrest :)
  have hnone : waitingLanes (replied (answered s a v) a t) a t m = 0 :=
    waitingLanes_none fun l hl hm => by rw [hthread, hidle l hl hm]
  rw [completeAcc_unfrozen hw v (hfr ▸ hfrozen), if_pos hnone]
  exact ⟨hends, htr⟩

/-- A reply that owes nothing ends the access alone. -/
theorem completeAcc_nothing (hidle : ∀ l < 32, hasLane m l = true → (s.thread t l).waitsAccess a.id = false) (h : a.pend = 0) :
    AccEnds a t s (completeAcc (answered s a v) a v) ∧ (completeAcc (answered s a v) a v).troupe t = s.troupe t := by
  obtain ⟨hends, htr⟩ := replied_answered_nothing hw v h
  have hnone : waitingLanes (replied (answered s a v) a t) a t m = 0 :=
    waitingLanes_none fun l hl hm => by rw [State.thread, htr]; exact hidle l hl hm
  rw [completeAcc_unfrozen hw v (htr ▸ hfrozen), if_pos hnone]
  exact ⟨hends, htr⟩

/-- A reply ends the waits of the threads that wait in the access. -/
theorem completeAcc_waited (h : a.pend = 0) (hm : m ≠ 0) (hwait : ∀ l, hasLane m l = true → (s.thread t l).waitsAccess a.id = true) :
    ∃ y, AccEnds a t s y ∧ y.troupe t = s.troupe t ∧ completeAcc (answered s a v) a v = leaveLanes y t m fun _ => v := by
  obtain ⟨hends, htr⟩ := replied_answered_nothing hw v h
  have hall : waitingLanes (replied (answered s a v) a t) a t m = m :=
    waitingLanes_all fun l hl => by rw [State.thread, htr]; exact hwait l hl
  refine ⟨_, hends, htr, ?_⟩
  rw [completeAcc_unfrozen hw v (htr ▸ hfrozen), hall, if_neg hm]

end

/-! ### Hold reports (R431) -/

theorem Bundle.without_lane {t l : Nat} {b c : Bundle} (hl : l < 32) (h : b.without t (laneBit l) = some c) (ht : c.t = t) :
    hasLane c.mask l = false := by
  have hbit : hasLane (laneBit l) l = true := by simp [hasLane_laneBit hl]
  unfold Bundle.without at h
  split at h
  · rename_i hkeep
    cases h
    have hz : b.mask &&& laneBit l = 0 := by simpa [ht] using hkeep
    have := hasLane_and b.mask (laneBit l) l
    rw [hz, hbit, Bool.and_true] at this
    exact this.symm.trans (by simp [hasLane])
  · split at h
    · cases h
    · cases h
      rw [hasLane_diff, hbit, Bool.not_true, Bool.and_false]

/-- A thread that a hold report parks: it is listed at the access, and in no bundle. -/
theorem parkReport_thread {s : State} {a : Access} {t l : Nat} (hid : accById s a.id = some a) (hst : a.st = .heldP)
    (hw : a.who = .thread t l) (hr : a.reported = false) (hl : l < 32) (hlive : (s.thread t l).st ≠ .drained) :
    ∃ z, exec (.parkReport a.id) s = .next z ∧ z.accs = (setAcc s { a with reported := true }).accs ∧ z.mem = s.mem ∧
      z.thread t l = { s.thread t l with parks := (s.thread t l).parks ++ [a.id] } ∧
      (∀ b ∈ (z.wing (wingKey (s.troupe t))).table, b.t = t → hasLane b.mask l = false) ∧
      (∀ j, j ≠ l → z.thread t j = s.thread t j) ∧ ∀ u, u ≠ t → z.troupe u = s.troupe u := by
  have hrun : exec (.parkReport a.id) s = .next ((leaveBundles (setAcc s { a with reported := true }) t (laneBit l)).mapLanes t
      (laneBit l) fun _ th => if th.live then { th with parks := th.parks ++ [a.id] } else th) := by
    rw [exec_parkReport, execParkReport, onAccess_next hid, hst, hw]
    exact congrArg Host.Outcome.next (if_neg (Bool.eq_false_iff.1 hr))
  have hthread (j : Nat) : (leaveBundles (setAcc s { a with reported := true }) t (laneBit l)).thread t j = s.thread t j := rfl
  refine ⟨_, hrun, rfl, rfl, ?_, fun b hb ht => ?_, fun j hj => ?_, fun u hu => State.troupe_setTroupe_ne _ _ hu⟩
  · have hlv : (s.thread t l).live = true := bne_iff_ne.2 hlive
    rw [thread_mapLanes, if_pos (by simp [hasLane_laneBit hl]), hthread, if_pos hlv]
  · have hwing : (leaveBundles (setAcc s { a with reported := true }) t (laneBit l)).wing (wingKey (s.troupe t)) =
        (s.wing (wingKey (s.troupe t))).mapBundles (Bundle.without t (laneBit l)) := tget_tput_self _ _ _ _
    have hb : b ∈ ((s.wing (wingKey (s.troupe t))).mapBundles (Bundle.without t (laneBit l))).table := by
      rw [← hwing]
      exact hb
    obtain ⟨c, -, hc⟩ := List.mem_filterMap.1 hb
    exact Bundle.without_lane hl hc ht
  · rw [thread_mapLanes, if_neg (by simpa [hasLane_laneBit hl] using hj), hthread]

/-! ### Read-backs (R62, R262) -/

theorem readbackComplete_thread {s : State} {t l : Nat} {a : Access} (hrb : (s.thread t l).readback = true)
    (ha : s.accs.find? (fun b => b.spill && b.op == .load && b.who.ofLane t l && b.st == .performed) = some a) :
    exec (.readbackComplete t l) s = .next ((dropAcc s a.id).setThread t l { s.thread t l with
      readback := false, rstack := loWord a.res :: (s.thread t l).rstack, spills := (s.thread t l).spills - 1 }) := by
  rw [exec_readbackComplete, execReadbackComplete, ha]
  exact congrArg Host.Outcome.next (if_pos hrb)

/-! ### An AWAIT that is performed in a handler (Table 25.2) -/

theorem frozenWaits_lane {tr : Troupe} {id l : Nat} {f : Frozen} (hl : l < 32) (hh : tr.status = .handler)
    (hkept : hasLane (tr.written ||| tr.last.skip) l = false)
    (hf : tr.frozen.find? (fun x => x.1 == l) = some (l, f)) (hst : f.st = .waiting) (hwait : f.wait = .await id) :
    frozenWaits tr (laneBit l) id = laneBit l := by
  have hany : (tr.frozen.any fun x => x.1 == l && x.2.st == .waiting && x.2.wait == .await id) = true :=
    List.any_eq_true.2 ⟨(l, f), List.mem_of_find?_eq_some hf, by simp [hst, hwait]⟩
  have hlane (j : Nat) : hasLane (frozenWaits tr (laneBit l) id) j = hasLane (laneBit l) j := by
    rw [frozenWaits, hh, if_neg (by decide), hasLane_maskOf]
    by_cases hj : j = l
    · subst hj
      rw [hkept, hany, Bool.not_false, Bool.and_true, Bool.and_true, decide_eq_true hl, Bool.true_and]
    · rw [show hasLane (laneBit l) j = false by simpa [hasLane_laneBit hl] using hj, Bool.false_and, Bool.false_and,
        Bool.and_false]
  exact BitVec.eq_of_getLsbD_eq fun j _ => hlane j

/-- The result of an AWAIT that is performed while its thread is in a handler is kept for its return. -/
theorem completeAcc_handler {s : State} {a : Access} {t l : Nat} {f : Frozen} (hw : a.who = .thread t l) (hl : l < 32)
    (hp : a.pend = 0) (hidle : (s.thread t l).waitsAccess a.id = false) (hh : (s.troupe t).status = .handler)
    (hkept : hasLane ((s.troupe t).written ||| (s.troupe t).last.skip) l = false)
    (hf : (s.troupe t).frozen.find? (fun x => x.1 == l) = some (l, f)) (hst : f.st = .waiting) (hwait : f.wait = .await a.id)
    (res : Dword) :
    ∃ y, AccEnds a t s y ∧ y.troupe t = s.troupe t ∧ completeAcc s a res = leaveFrozen y t (laneBit l) res := by
  have hthreads : a.who.threads = some (t, laneBit l) := by rw [hw]; rfl
  obtain ⟨hends, htr⟩ := replied_nothing (s := s) t hp
  have hnone : waitingLanes (replied s a t) a t (laneBit l) = 0 := waitingLanes_none fun j _ hj => by
    have hj : j = l := by simpa [hasLane_laneBit hl] using hj
    rw [State.thread, htr, hj]
    exact hidle
  have hbit : laneBit l ≠ 0 := fun h => by
    have hz : hasLane (laneBit l) l = false := by rw [h]; exact BitVec.getLsbD_zero
    rw [hasLane_laneBit hl] at hz
    simp at hz
  refine ⟨_, hends, htr, ?_⟩
  rw [completeAcc_threads hthreads]
  dsimp only
  rw [htr, frozenWaits_lane hl hh hkept hf hst hwait, if_neg hbit, hnone, if_pos rfl]

/-! ### The statement -/

/-- Settles O44: a reply is the end of its access, followed by the write that it owes or by the threads that wait in it. -/
theorem completions : Obligations.Completions := by
  unfold Obligations.Completions
  refine ⟨?_, ?_, ?_, ?_⟩
  · intro s a reply t m hid hw hfrozen v came ends hcame
    have hrun := loadCompletion_answered hid hw reply hcame
    have hends {z : State} (hz : completeAcc (answered s a v) a v = z) (h : AccEnds a t s z) : ends z :=
      ⟨hrun.trans (congrArg Host.Outcome.next hz), h.accs, h.bytes, h.others⟩
    refine ⟨?_, fun hidle hpend => ?_, ?_⟩
    · intro p hidle hpend hp hc hn q
      obtain ⟨hz, htr⟩ := completeAcc_owed hw v hfrozen hidle hpend hp hc
      have hkeys : q.writes.map Prod.fst = p.writes.map Prod.fst := by
        by_cases hst : a.st = .performed
        · rw [show q = p from if_pos hst]
        · rw [show q = knowPend v p from if_neg hst, knowPend_keys]
      obtain ⟨hin, hout⟩ := Troupe.reg_putRegs q.writes (s.troupe t) (hkeys ▸ hn)
      refine ⟨_, hends rfl hz, fun w hw => ?_, fun k hk => ?_, ?_, fun k => ?_⟩
      · rw [htr]
        exact hin w hw
      · rw [htr]
        exact hout k hk
      · rw [htr]
      · rw [State.thread, htr]
        exact (congrArg (fun x => Troupe.thread x k) (Troupe.putRegs_rest q.writes (s.troupe t)) :)
    · obtain ⟨hz, htr⟩ := completeAcc_nothing hw v hfrozen hidle hpend
      exact ⟨_, hends rfl hz, htr⟩
    · intro hpend hm hwait hrz i
      obtain ⟨y, hy, htr, hz⟩ := completeAcc_waited hw v hfrozen hpend hm hwait
      have hthread (l : Nat) : y.thread t l = s.thread t l := congrArg (fun x => Troupe.thread x l) htr
      obtain ⟨hgets, hregs⟩ := leaveLanes_lowest (s := y) (t := t) v hm fun l hl hne => by rw [hthread, hrz l hl hne]
      rw [hthread] at hgets hregs
      refine ⟨_, hends hz ⟨hy.accs, hy.bytes, fun u hu => ?_⟩, hgets, fun k hk => ?_, fun l => ?_⟩
      · rw [troupe_leaveLanes_ne _ _ _ hu, hy.others u hu]
      · rw [hregs k hk, htr]
      · rw [thread_leaveLanes, hthread]
  · intro s a reply t l f hid hst hspill hw hl hpend hidle hh hkept hf hfst hfwait
    have hthreads : a.who.threads = some (t, laneBit l) := by rw [hw]; rfl
    obtain ⟨y, hy, htr, hz⟩ := completeAcc_handler hw hl hpend hidle hh hkept hf hfst hfwait a.res
    have hrun : exec (.loadCompletion a.id reply) s = .next (leaveFrozen y t (laneBit l) a.res) := by
      rw [loadCompletion_answered hid hthreads reply (.inl ⟨hst, hspill⟩), if_pos hst, show answered s a a.res = s from if_pos hst, hz]
    obtain ⟨hfrozen, hgets, hthread⟩ := leaveFrozen_lane hl a.res (htr ▸ hf)
    rw [htr] at hfrozen
    refine ⟨_, hrun, hy.accs, hy.bytes, hfrozen, hgets, fun k => ?_, fun u hu => ?_⟩
    · rw [hthread, State.thread, htr]
      rfl
    · exact (State.troupe_setTroupe_ne _ _ hu).trans (hy.others u hu)
  · intro s t l a hrb ha
    refine ⟨_, readbackComplete_thread hrb ha, rfl, rfl, ?_, fun j hj => ?_, fun u hu => State.troupe_setTroupe_ne _ _ hu⟩
    · exact thread_setThread_same _ _ _ _
    · rw [State.thread, State.troupe_setThread_self, Troupe.thread_setThread_ne _ _ hj]
      rfl
  · intro s a t l hid hst hw hl hr hlive
    obtain ⟨z, hrun, haccs, hmem, hthread, hrest⟩ := parkReport_thread hid hst hw hr hl hlive
    refine ⟨z, hrun, haccs, hmem, hthread, fun hheld => ?_, hrest⟩
    simp [hthread, Thread.parked, hlive, hheld]

end Sys2Proof.Machine
end

section
/-! SUPPORT. The checks of addresses (R68, R145, R235), and the statement on them. -/

namespace Sys2Proof.Machine

open Sys2Proof

/-! ### The earliest check that any lane fails (R145) -/

/-- The lanes of a list that fail a check, with the check's place and its code. -/
def failing (ls : List Nat) (f : Nat → Option (Nat × Nat)) : List (Nat × Nat × Nat) :=
  ls.filterMap fun l => (f l).map fun r => (l, r)

/-- The place of the earliest check that fails. -/
def earliest (bad : List (Nat × Nat × Nat)) : Nat := bad.foldl (fun m b => min m b.2.1) 100

/-- The lanes that fail the earliest check. -/
def earliestLanes (bad : List (Nat × Nat × Nat)) : List (Nat × Nat × Nat) := bad.filter fun b => b.2.1 == earliest bad

theorem mem_failing {ls : List Nat} {f : Nat → Option (Nat × Nat)} {b : Nat × Nat × Nat} :
    b ∈ failing ls f ↔ b.1 ∈ ls ∧ f b.1 = some b.2 := by
  obtain ⟨l, r⟩ := b
  simp only [failing, List.mem_filterMap, Option.map_eq_some_iff, Prod.mk.injEq]
  constructor
  · rintro ⟨j, hj, q, hq, rfl, rfl⟩
    exact ⟨hj, hq⟩
  · exact fun ⟨hl, hr⟩ => ⟨l, hl, r, hr, rfl, rfl⟩

theorem failing_sorted {ls : List Nat} (h : ls.Pairwise (· < ·)) (f : Nat → Option (Nat × Nat)) :
    (failing ls f).Pairwise fun a b => a.1 < b.1 := by
  refine List.pairwise_filterMap.2 (h.imp fun {j k} hjk a ha b hb => ?_)
  obtain ⟨-, -, rfl⟩ := Option.map_eq_some_iff.1 ha
  obtain ⟨-, -, rfl⟩ := Option.map_eq_some_iff.1 hb
  exact hjk

theorem foldl_min_place (bad : List (Nat × Nat × Nat)) : ∀ k : Nat,
    let n := bad.foldl (fun m b => min m b.2.1) k
    n ≤ k ∧ (∀ b ∈ bad, n ≤ b.2.1) ∧ (n = k ∨ ∃ b ∈ bad, b.2.1 = n) := by
  induction bad with
  | nil => exact fun k => ⟨le_rfl, nofun, .inl rfl⟩
  | cons b r ih =>
    intro k n
    obtain ⟨hle, hall, hn⟩ := ih (min k b.2.1)
    refine ⟨hle.trans (min_le_left _ _), List.forall_mem_cons.2 ⟨hle.trans (min_le_right _ _), hall⟩, ?_⟩
    obtain hn | ⟨x, hx, hxn⟩ := hn
    · obtain h | h := min_choice k b.2.1
      · exact .inl (hn.trans h)
      · exact .inr ⟨b, List.mem_cons_self, h.symm.trans hn.symm⟩
    · exact .inr ⟨x, List.mem_cons_of_mem _ hx, hxn⟩

theorem earliest_le {bad : List (Nat × Nat × Nat)} {b : Nat × Nat × Nat} (h : b ∈ bad) : earliest bad ≤ b.2.1 :=
  (foldl_min_place bad 100).2.1 b h

theorem earliestLanes_ne_nil {bad : List (Nat × Nat × Nat)} (h : bad ≠ []) (hk : ∀ b ∈ bad, b.2.1 ≤ 100) :
    earliestLanes bad ≠ [] := by
  obtain ⟨b, hb, hbk⟩ : ∃ b ∈ bad, b.2.1 = earliest bad := by
    obtain ⟨hle, -, hat⟩ := foldl_min_place bad 100
    obtain hat | hat := hat
    · obtain ⟨b, hb⟩ := List.exists_mem_of_ne_nil bad h
      exact ⟨b, hb, le_antisymm ((hk b hb).trans_eq hat.symm) (earliest_le hb)⟩
    · exact hat
  exact List.ne_nil_of_mem (List.mem_filter.2 ⟨hb, beq_iff_eq.2 hbk⟩)

theorem checkLanes_failing {c : Ctx} {ls : List Nat} {addr : Nat → Dword} {f : Nat → Option (Nat × Nat)} {b : Nat × Nat × Nat}
    {r : List (Nat × Nat × Nat)} (h : failing ls f ≠ []) (hb : earliestLanes (failing ls f) = b :: r) :
    checkLanes c ls addr f = some (c.trapInfo b.2.2 (maskOf fun l => (b :: r).any fun x => x.1 == l)
      (if b.2.2 = 0x21 then c.pcVal else addr b.1)) := by
  have hrun : checkLanes c ls addr f =
      let worst := earliestLanes (failing ls f)
      let code := (worst.map fun b => b.2.2).headD 0
      some (c.trapInfo code (maskOf fun l => worst.any fun b => b.1 == l)
        (if code = 0x21 then c.pcVal else addr ((worst.map Prod.fst).headD 0))) := by
    unfold checkLanes
    dsimp only
    split
    · rename_i hnil
      exact absurd hnil h
    · rfl
  rw [hrun, hb]
  rfl

/-- Where a lane fails a check, `checkLanes` gives the trap of the earliest check that any lane fails. -/
theorem checkLanes_earliest {c : Ctx} {addr : Nat → Dword} {f : Nat → Option (Nat × Nat)}
    (hbad : ∃ l, hasLane c.act l = true ∧ f l ≠ none) (hf : ∀ l r, f l = some r → r.1 ≤ 100 ∧ r.2 ≠ 0x23) :
    ∃ x, checkLanes c (lanes c.act) addr f = some x ∧ EarliestTrap c addr f x := by
  have hne : failing (lanes c.act) f ≠ [] := by
    obtain ⟨l, hl, hfl⟩ := hbad
    obtain ⟨r, hr⟩ := Option.ne_none_iff_exists'.1 hfl
    exact List.ne_nil_of_mem (mem_failing.2 (⟨mem_lanes.2 hl, hr⟩ : (l, r).1 ∈ lanes c.act ∧ f (l, r).1 = some (l, r).2))
  have hsome {b : Nat × Nat × Nat} (hb : b ∈ failing (lanes c.act) f) : hasLane c.act b.1 = true ∧ f b.1 = some b.2 :=
    ⟨mem_lanes.1 (mem_failing.1 hb).1, (mem_failing.1 hb).2⟩
  obtain ⟨b, r, hbr⟩ := List.exists_cons_of_ne_nil (earliestLanes_ne_nil hne fun b hb => (hf _ _ (hsome hb).2).1)
  have hmem {x : Nat × Nat × Nat} : x ∈ b :: r ↔ x ∈ failing (lanes c.act) f ∧ x.2.1 = earliest (failing (lanes c.act) f) := by
    rw [← hbr, earliestLanes, List.mem_filter, beq_iff_eq]
  obtain ⟨hb, hbk⟩ := hmem.1 List.mem_cons_self
  have hmask (l : Nat) : hasLane (maskOf fun l => (b :: r).any fun x => x.1 == l) l = true ↔ ∃ x ∈ b :: r, x.1 = l := by
    rw [hasLane_maskOf, Bool.and_eq_true, decide_eq_true_eq, List.any_eq_true]
    refine ⟨fun ⟨_, x, hx, hxl⟩ => ⟨x, hx, beq_iff_eq.1 hxl⟩, fun ⟨x, hx, hxl⟩ => ⟨?_, x, hx, beq_iff_eq.2 hxl⟩⟩
    exact hxl ▸ lt_of_hasLane (hsome (hmem.1 hx).1).1
  have hsorted : ∀ x ∈ r, b.1 < x.1 := by
    have hs : (b :: r).Pairwise fun a b => a.1 < b.1 := hbr ▸ (failing_sorted (lanes_sorted c.act) f).filter _
    exact (List.pairwise_cons.1 hs).1
  refine ⟨_, checkLanes_failing hne hbr, ⟨⟨rfl, rfl, rfl, rfl⟩, b.2.1, ?_, fun l => ?_, b.1, ?_, fun j hj => ?_, ?_, ?_⟩⟩
  · intro l q hl hq
    rw [hbk]
    exact earliest_le (b := (l, q)) (mem_failing.2 ⟨mem_lanes.2 hl, hq⟩)
  · refine (hmask l).trans ⟨?_, fun ⟨hl, code, hc⟩ => ⟨(l, b.2.1, code), ?_, rfl⟩⟩
    · rintro ⟨x, hx, rfl⟩
      obtain ⟨hxm, hxk⟩ := hmem.1 hx
      obtain ⟨hl, hfx⟩ := hsome hxm
      exact ⟨hl, x.2.2, by rw [hfx, hbk, ← hxk]⟩
    · exact hmem.2 ⟨mem_failing.2 ⟨mem_lanes.2 hl, hc⟩, hbk⟩
  · exact (hmask b.1).2 ⟨b, List.mem_cons_self, rfl⟩
  · obtain ⟨x, hx, rfl⟩ := (hmask j).1 hj
    obtain rfl | hx := List.mem_cons.1 hx
    · exact le_rfl
    · exact (hsorted x hx).le
  · exact (hsome hb).2
  · have hcode : b.2.2 ≠ 0x23 := (hf _ _ (hsome hb).2).2
    exact if_congr (by simp [Ctx.trapInfo, hcode]) rfl rfl

/-! ### What a lane's address is checked for (R68 to R70, R75, R76) -/

/-- The codes of the bounds check. -/
theorem boundsCheck_code {s : State} {t n code : Nat} {x : Dword} (h : boundsCheck s t x n = some code) : code = 0x13 ∨ code = 0x21 := by
  unfold boundsCheck at h
  dsimp only at h
  split at h
  · cases h
  · split at h <;> split at h <;> cases h
    · exact .inl rfl
    · exact .inr rfl
    · exact .inl rfl
    · exact .inl rfl

/-- The checks that follow those of form, window and alignment: bounds, then a derived tensor. -/
def placeCheck (s : State) (t l : Nat) (w : Want) (x : Dword) : Option (Nat × Nat) :=
  if winOf x == 7 && isScratchSpace s x && (castTargets s t x).any (fun a => !rangeInPart s (s.runOf t).part a w.bytes) then
    some (4, 0x13)
  else match (if winOf x == 7 && isScratchSpace s x then none else boundsCheck s t x w.bytes) with
    | some code => some (4, code)
    | none =>
      if (touched s t l x).any fun a => (w.modified (winOp w.load (winOf x))).any fun g => inDerived s (a + g.1) g.2 then some (5, 0x14)
      else none

theorem laneCheck_eq (s : State) (t l : Nat) (w : Want) (x : Dword) :
    laneCheck s t l w x =
      if badForm (s.companyOf t) x then some (1, 0x11)
      else if !winOk w (winOf x) (spaceOf x) then some (2, 0x12)
      else if offOf x % (if opQueue (winOp w.load (winOf x)) then 32 else w.align) != 0 then some (3, 0x10)
      else placeCheck s t l w x := rfl

theorem placeCheck_some {s : State} {t l : Nat} {w : Want} {x : Dword} {r : Nat × Nat} (h : placeCheck s t l w x = some r) :
    4 ≤ r.1 ∧ r.1 ≤ 100 ∧ r.2 ≠ 0x23 := by
  unfold placeCheck at h
  split at h
  · cases h
    decide
  · split at h
    · rename_i code hc
      cases h
      split at hc
      · cases hc
      · obtain rfl | rfl := boundsCheck_code hc <;> decide
    · split at h <;> cases h
      decide

theorem placeCheck_bounds {s : State} {t l code : Nat} {w : Want} {x : Dword} (h : winOf x ≠ 7) :
    placeCheck s t l w x = some (4, code) ↔ boundsCheck s t x w.bytes = some code := by
  have h7 : (winOf x == 7) = false := beq_eq_false_iff_ne.2 h
  unfold placeCheck
  simp only [h7, Bool.false_and, Bool.false_eq_true, if_false]
  split
  · rename_i hc
    simp [hc]
  · rename_i hc
    split <;> simp [hc]

theorem laneCheck_some {s : State} {t l : Nat} {w : Want} {x : Dword} {r : Nat × Nat} (h : laneCheck s t l w x = some r) :
    r.1 ≤ 100 ∧ r.2 ≠ 0x23 := by
  rw [laneCheck_eq] at h
  generalize (if opQueue (winOp w.load (winOf x)) then 32 else w.align) = align at h
  split at h
  · cases h
    decide
  · split at h
    · cases h
      decide
    · split at h
      · cases h
        decide
      · exact (placeCheck_some h).2

/-- The codes of the checks, for each its condition. -/
theorem laneCheck_iff (s : State) (t l : Nat) (w : Want) (x : Dword) :
    let align := if opQueue (winOp w.load (winOf x)) then 32 else w.align
    let form := badForm (s.companyOf t) x = false
    let window := winOk w (winOf x) (spaceOf x) = true
    (laneCheck s t l w x = some (1, 0x11) ↔ badForm (s.companyOf t) x = true) ∧
    (laneCheck s t l w x = some (2, 0x12) ↔ form ∧ winOk w (winOf x) (spaceOf x) = false) ∧
    (laneCheck s t l w x = some (3, 0x10) ↔ form ∧ window ∧ offOf x % align ≠ 0) ∧
    ∀ code, laneCheck s t l w x = some (4, code) ↔
      form ∧ window ∧ offOf x % align = 0 ∧ placeCheck s t l w x = some (4, code) := by
  intro align form window
  have hplace {k code : Nat} (hk : k < 4) : placeCheck s t l w x ≠ some (k, code) := fun h =>
    absurd (placeCheck_some h).1 (not_le.2 hk)
  rw [laneCheck_eq]
  by_cases hform : badForm (s.companyOf t) x = true
  · simp [form, hform]
  · by_cases hwin : winOk w (winOf x) (spaceOf x) = false
    · simp [form, window, hform, hwin]
    · by_cases halign : offOf x % align = 0
      · simp [form, window, align, hform, hwin, halign, hplace]
      · simp [form, window, align, hform, hwin, halign]

/-! ### Instructions whose lanes' addresses are checked -/

/-- An instruction that looks at its lanes' checks first traps with the earliest that fails. -/
theorem checked_traps {i : Instr} {s : State} {c : Ctx} {w : Want} {addr : Nat → Dword}
    (hexec : ∀ x, checkLanes c (lanes c.act) addr (fun l => laneCheck s.begun c.t l w (addr l)) = some x →
      exec i s = .next (finish c (.trap s.begun x)))
    (hbad : ∃ l, hasLane c.act l = true ∧ laneCheck s.begun c.t l w (addr l) ≠ none) :
    ∃ x, exec i s = .next (takeTrap s.begun c.t x) ∧ EarliestTrap c addr (fun l => laneCheck s.begun c.t l w (addr l)) x := by
  obtain ⟨x, hx, hearly⟩ := checkLanes_earliest (addr := addr) hbad fun _ _ => laneCheck_some
  exact ⟨x, hexec x hx, hearly⟩

/-! ### LDU and STU (R235) -/

/-- The trap of LDU and STU before they do anything else: for the lanes that disagree with the lowest one in the first of the
operands that Active does not agree on, or for all of Active where the one address fails a check. -/
def onceTrap (s : State) (c : Ctx) (w : Want) (x : Dword) (fs : List (Nat → Dword)) : Option TrapInfo :=
  (fs.findSome? (uniformTrap c)).or (bundleCheck s c w x)

/-- The operands of the address of LDU and STU. -/
def placeOperands (s : State) (c : Ctx) (base : Opd) (off : Src) : List (Nat → Dword) :=
  [fun l => readPair s c l base 4, fun l => offVal s c l off]

theorem uniformAddr_eq (s : State) (c : Ctx) (base : Opd) (off : Src) :
    uniformAddr s c base off = (placeOperands s c base off).findSome? (uniformTrap c) := by
  unfold uniformAddr placeOperands
  rw [List.findSome?_cons, List.findSome?_singleton]
  split <;> rename_i h <;> rw [h]

theorem ldu_traps {h : Hdr} {ty : Ty} {m : LdMod} {d base : Opd} {off : Src} {s : State} {c : Ctx} {x : TrapInfo}
    (hi : Issues (.ldu h ty m d base off) s c) (hact : c.act ≠ 0)
    (hx : onceTrap s.begun c (.access true (Ty.width ty / 8)) (memAddr s.begun c c.low base off) (placeOperands s.begun c base off) =
      some x) :
    exec (.ldu h ty m d base off) s = .next (takeTrap s.begun c.t x) := by
  have hidle : ¬c.idle = true := fun h => hact (beq_iff_eq.1 h)
  rw [exec_ldu, execLdu, issue_next hi, if_neg hidle, uniformAddr_eq]
  unfold onceTrap at hx
  cases hu : (placeOperands s.begun c base off).findSome? (uniformTrap c) with
  | some y =>
    rw [hu] at hx
    cases hx
    rfl
  | none =>
    rw [hu, Option.none_or] at hx
    dsimp only
    rw [hx]
    rfl

theorem stu_traps {h : Hdr} {ty : Ty} {m : StMod} {d base : Opd} {off : Src} {s : State} {c : Ctx} {x : TrapInfo}
    (hi : Issues (.stu h ty m d base off) s c) (hact : c.act ≠ 0)
    (hx : onceTrap s.begun c (.access false (Ty.width ty / 8)) (memAddr s.begun c c.low base off)
      (placeOperands s.begun c base off ++ [fun l => readTy s.begun c ty l d 6]) = some x) :
    exec (.stu h ty m d base off) s = .next (takeTrap s.begun c.t x) := by
  have hidle : ¬c.idle = true := fun h => hact (beq_iff_eq.1 h)
  rw [exec_stu, execStu, issue_next hi, if_neg hidle, uniformAddr_eq]
  rw [onceTrap, List.findSome?_append, List.findSome?_singleton] at hx
  cases hu : (placeOperands s.begun c base off).findSome? (uniformTrap c) with
  | some y =>
    rw [hu] at hx
    cases hx
    rfl
  | none =>
    rw [hu, Option.none_or] at hx
    cases hd : uniformTrap c (fun l => readTy s.begun c ty l d 6) with
    | some y =>
      rw [hd] at hx
      cases hx
      rfl
    | none =>
      rw [hd, Option.none_or] at hx
      dsimp only
      rw [hx]
      rfl

section
variable {i : Instr} {s : State} {c : Ctx} {w : Want} {y : Dword} {fs : List (Nat → Dword)}
  (hexec : ∀ x, onceTrap s.begun c w y fs = some x → exec i s = .next (takeTrap s.begun c.t x))
include hexec

theorem once_disagree {pre post : List (Nat → Dword)} {f : Nat → Dword} (hfs : fs = pre ++ f :: post)
    (hpre : ∀ g ∈ pre, Agree c g) (hf : ¬Agree c f) :
    ∃ x, exec i s = .next (takeTrap s.begun c.t x) ∧ x.reason = 0 ∧ x.code = 0x20 ∧ x.pc = c.pc ∧ x.bundle = c.mask ∧
      x.skip = 0 ∧ x.val = c.pc.setWidth 64 ∧ ∀ l, hasLane x.mask l = true ↔ hasLane c.act l = true ∧ f l ≠ f c.low := by
  obtain ⟨l, hl, hne⟩ : ∃ l, hasLane c.act l = true ∧ f l ≠ f c.low := by simpa [Agree] using hf
  have hnone : pre.findSome? (uniformTrap c) = none := List.findSome?_eq_none_iff.2 fun g hg => uniformTrap_none (hpre g hg)
  have hsome := uniformTrap_some hl hne
  refine ⟨_, hexec (c.trapInfo 0x20 (disagree c f) c.pcVal) ?_, rfl, rfl, rfl, rfl, rfl, rfl, fun l => hasLane_disagree⟩
  rw [onceTrap, hfs, List.findSome?_append, hnone, List.findSome?_cons, hsome]
  rfl

theorem once_failed (hfs : ∀ f ∈ fs, Agree c f) {r : Nat × Nat} (hr : laneCheck s.begun c.t c.low w y = some r) :
    TrapsAll i s c r.2 (if r.2 = 0x21 then c.pc.setWidth 64 else y) := by
  have hnone : fs.findSome? (uniformTrap c) = none := List.findSome?_eq_none_iff.2 fun g hg => uniformTrap_none (hfs g hg)
  refine ⟨c.trapInfo r.2 c.act (if r.2 = 0x21 then c.pcVal else y), hexec _ ?_, rfl, rfl, rfl, rfl, rfl, rfl, rfl⟩
  rw [onceTrap, hnone, Option.none_or, bundleCheck, hr]
  rfl

end

/-! ### The statement -/

/-- Settles O12: an instruction looks at its lanes' checks before it does anything else. -/
theorem addressChecks : Obligations.AddressChecks := by
  unfold Obligations.AddressChecks
  refine ⟨?_, ?_⟩
  · intro h d base off s c u addr at0 traps
    refine ⟨?_, ?_, ?_, ?_, ?_, ?_, ?_, ?_, ?_, ?_⟩
    · exact fun ty m hi hbad => checked_traps (fun x hx => by rw [exec_ld, execLd, issue_next hi]; dsimp only; rw [hx]) hbad
    · exact fun ty m hi hbad => checked_traps (fun x hx => by rw [exec_st, execSt, issue_next hi]; dsimp only; rw [hx]) hbad
    · exact fun k m hi hbad => checked_traps (fun x hx => by rw [exec_ldx, execLdx, issue_next hi]; dsimp only; rw [hx]) hbad
    · exact fun k m hi hbad => checked_traps (fun x hx => by rw [exec_stx, execStx, issue_next hi]; dsimp only; rw [hx]) hbad
    · exact fun hi hbad => checked_traps (fun x hx => by rw [exec_probe, execProbe, issue_next hi]; dsimp only; rw [hx]) hbad
    · exact fun op ty m b k hi hbad => checked_traps (fun x hx => by rw [exec_atom, execAtom, issue_next hi]; dsimp only; rw [hx]) hbad
    · exact fun op ty m hi hbad => checked_traps (fun x hx => by rw [exec_red, execRed, issue_next hi]; dsimp only; rw [hx]) hbad
    · exact fun ty m b hi hbad => checked_traps (fun x hx => by rw [exec_aenq, execAenq, issue_next hi]; dsimp only; rw [hx]) hbad
    · exact fun m hi hbad => checked_traps (fun x hx => by rw [exec_adeq, execAdeq, issue_next hi]; dsimp only; rw [hx]) hbad
    · intro once
      have honce {i : Instr} {load : Bool} {n : Nat} {fs : List (Nat → Dword)}
          (hexec : Issues i s c → c.act ≠ 0 → ∀ x, onceTrap u c (.access load n) (addr c.low) fs = some x →
            exec i s = .next (takeTrap u c.t x)) : once i load n fs := fun hi hact =>
        ⟨fun _ _ _ => once_disagree (hexec hi hact), fun hfs _ => once_failed (hexec hi hact) hfs⟩
      exact ⟨fun ty m => honce fun hi hact _ => ldu_traps hi hact, fun ty m => honce fun hi hact _ => stu_traps hi hact⟩
  · intro s t l w x align
    obtain ⟨hform, hwin, halign, hplace⟩ := laneCheck_iff s t l w x
    refine ⟨hform, hwin, halign, fun h7 code => (hplace code).trans ?_⟩
    rw [placeCheck_bounds h7]

end Sys2Proof.Machine
end

section
/-! SUPPORT. Skason accesses, retries, links and the time (R87, R321, R401, R402, R404), and the statement on them. -/

namespace Sys2Proof.Machine

open Sys2Proof

/-! ### Arriving accesses and forwarding (R87, R397, R401, R402) -/

/-- An access that arrives for this device on a link that the module has, and is well formed, by its permission and its region. -/
theorem skasonRemoteAccess_wellFormed {s : State} {r : SkReq} (hdst : r.dst = skid s) (hlink : linkExists s r.link = true)
    (hcause : skasonCause r = none) (hop : r.op ≠ .cast) :
    let win := winOf r.addr
    let p := scratchOff r.addr
    let ok := permitted s 1 r.src none win p (opModifies r.op)
    let moving := (regionEntry s (regionOf p)).getLsbD 31
    let a : Access := { Access.make (.skason r.src r.link r.tag r.troupe) r.op r.addr p r.size with
      data := r.data, cmp := r.cmp, ty := r.ty, dies := []
      deadline := if r.op == .await && r.limit != 0 then s.wall + r.limit else 0 }
    exec (.skasonRemoteAccess r) s = .next (
      if ok = false then skasonReply (logError s (r.link + 1) 4 r.src win r.addr) r 4
      else if moving = true then skasonReply { s with picks := s.picks + 1 } r (256 + 1 + Config.retryHint s.picks % 255)
      else addAcc s { a with after := skasonAfter s r a }) := by
  intro win p ok moving a
  have hcast : (r.op == .cast) = false := beq_eq_false_iff_ne.2 hop
  have htargets : skasonTargets r = [p] := by rw [skasonTargets, hcast]; rfl
  have hhere : ¬(r.dst != skid s || !linkExists s r.link) = true := by simp [hdst, hlink]
  rw [exec_skasonRemoteAccess, execSkasonRemoteAccess]
  dsimp only
  rw [if_neg hhere, hcause]
  dsimp only
  rw [htargets, hcast]
  have hfilter : [p].filter (fun p => permitted s 1 r.src none win p (opModifies r.op)) = if ok = false then [] else [p] := by
    rw [List.filter_singleton, show permitted s 1 r.src none win p (opModifies r.op) = ok from rfl]
    cases ok <;> rfl
  have hany : ([p].any fun p => (regionEntry s (regionOf p)).getLsbD 31) = moving := Bool.or_false _
  rw [hfilter]
  split
  · rfl
  · rw [hany]
    cases hmoving : moving <;> rfl

theorem skasonRemoteAccess_malformed {s : State} {r : SkReq} {cause : Nat} (hdst : r.dst = skid s)
    (hlink : linkExists s r.link = true) (hcause : skasonCause r = some cause) :
    exec (.skasonRemoteAccess r) s =
      .next (skasonReply (logError s (r.link + 1) cause r.src (winOf r.addr) r.addr) r cause) := by
  have hhere : ¬(r.dst != skid s || !linkExists s r.link) = true := by simp [hdst, hlink]
  rw [exec_skasonRemoteAccess, execSkasonRemoteAccess]
  dsimp only
  rw [if_neg hhere, hcause]

theorem skasonRemoteAccess_ignored {s : State} {r : SkReq} (h : r.dst ≠ skid s ∨ linkExists s r.link = false) :
    exec (.skasonRemoteAccess r) s = .next s := if_pos (by simpa using h)

theorem skasonForward_ignored {s : State} {r : SkReq} (h : r.dst = skid s ∨ linkExists s r.link = false) :
    exec (.skasonForward r) s = .next s := if_pos (by simpa using h)

/-- A packet for another device: its ninth hop, or the next link on its way. -/
theorem skasonForward_other {s : State} {r : SkReq} (hdst : r.dst ≠ skid s) (hlink : linkExists s r.link = true) :
    exec (.skasonForward r) s = .next (if 9 ≤ r.hops + 1 then skasonReply s r 12
      else (routeLink s r.dst (scratchOff r.addr)).elim (skasonReply s r 11) fun l =>
        { s with out := s.out ++ [.skason l { r with hops := r.hops + 1 }] }) := by
  rw [exec_skasonForward, execSkasonForward, if_neg (by simp [hdst, hlink])]
  split
  · rfl
  · cases routeLink s r.dst (scratchOff r.addr) <;> rfl

/-! ### Retries and limits of accesses that have left (R402) -/

/-- A refused access is sent again when its hint has passed. -/
theorem retryAfterExpiry_sent {s : State} {a : Access} {since hint l : Nat} (hid : accById s a.id = some a)
    (hst : a.st = .retry since hint) (hdue : since + 1000 * hint ≤ s.wall)
    (hafter : afterOk (setAcc s { a with st := .queued }) { a with st := .queued } = true)
    (hroute : routeLink s (remoteId a.addr) (scratchOff a.addr) = some l) :
    exec (.retryAfterExpiry a.id) s = .next (setAcc
      { setAcc s { a with st := .queued } with out := s.out ++ [.skason l ⟨skid s, remoteId a.addr, l, 1, a.op, a.ty, a.addr,
        a.size, a.data, a.cmp, a.rel, a.who.skTroupe, if a.deadline = 0 then 0 else a.deadline - a.issued, a.id⟩] }
      { a with
        st := .remote, issued := s.wall, dies := [l], acked := false, cut := false
        deadline := if a.deadline = 0 then 0 else s.wall + (a.deadline - a.issued)
        hold := if a.hold = 0 then s.wall + 10000000 else a.hold }) := by
  have hroute' : routeLink (setAcc s { a with st := .queued }) (remoteId a.addr) (scratchOff a.addr) = some l := hroute
  rw [exec_retryAfterExpiry, execRetryAfterExpiry, onAccess_next hid, hst]
  dsimp only
  rw [if_pos hdue, sendRemote, hafter]
  dsimp only
  rw [hroute']
  rfl

theorem retryAfterExpiry_remote {s : State} {a : Access} (hid : accById s a.id = some a) (hst : a.st = .remote) :
    exec (.retryAfterExpiry a.id) s = .next { setAcc s { a with st := .retry s.wall (1 + Config.retryHint s.picks % 255) } with
      picks := s.picks + 1 } := by
  rw [exec_retryAfterExpiry, execRetryAfterExpiry, onAccess_next hid, hst]
  rfl

theorem remoteRefusalTimeout_over {s : State} {a : Access} {since hint : Nat} (hid : accById s a.id = some a)
    (hst : a.st = .retry since hint) (hover : a.hold ≤ s.wall) :
    exec (.remoteRefusalTimeout a.id) s =
      .next (refuseRemote s a ((routeLink s (remoteId a.addr) (scratchOff a.addr)).getD 17 + 1) 10) := by
  rw [exec_remoteRefusalTimeout, execRemoteRefusalTimeout, onAccess_next hid, hst]
  dsimp only
  rw [if_pos hover]

theorem linkAckTimeout_over {s : State} {a : Access} (hid : accById s a.id = some a) (hst : a.st = .remote) (hcut : a.cut = true)
    (hack : a.acked = false) (hover : a.issued + 1000000 ≤ s.wall) :
    exec (.linkAckTimeout a.id) s = .next (refuseRemote s a (a.dies.headD 17 + 1) 11) := by
  rw [exec_linkAckTimeout, execLinkAckTimeout, onAccess_next hid]
  exact congrArg Host.Outcome.next (if_pos (by simp [hst, hcut, hack, hover]))

/-! ### Links (R321, R404) -/

/-- The ports after a link has gone down: it is in no mask, and its parent's time is followed no more. -/
def Ports.without (p : Ports) (l : Nat) : Ports :=
  let q := { p with links := p.links.filter fun k => k != l }
  if p.follows.any fun f => f.2.2 == l then q.free else q

theorem Ports.links_without (p : Ports) (l : Nat) : (p.without l).links = p.links.filter fun k => k != l := by
  unfold Ports.without
  dsimp only
  split <;> rfl

theorem Ports.follows_without {p : Ports} {f : Nat × Nat × Nat} (h : p.follows = some f) (l : Nat) :
    (f.2.2 = l → (p.without l).follows = none ∧ (p.without l).locked = false) ∧
    (f.2.2 ≠ l → (p.without l).follows = some f ∧ (p.without l).locked = p.locked) := by
  unfold Ports.without
  rw [h, Option.any_some]
  refine ⟨fun hl => ?_, fun hl => ?_⟩
  · rw [if_pos (beq_iff_eq.2 hl)]
    exact ⟨rfl, rfl⟩
  · rw [if_neg fun hb => hl (beq_iff_eq.1 hb)]
    exact ⟨rfl, rfl⟩

theorem linkDown_next (s : State) (l : Nat) : exec (.linkDown l) s = .next { s with
    accs := s.accs.map fun a => if a.onLink l then { a with cut := true } else a
    copies := s.copies.map fun c => { c with chunks := c.chunks.map fun k =>
      if k.sent ≠ 0 ∧ k.transfer.isSome = true ∧ k.link = l then { k with cut := true } else k }
    ports := s.ports.without l } := by
  have hcut (k : Chunk) : (if k.sent != 0 && k.transfer.isSome && k.link = l then { k with cut := true } else k) =
      if k.sent ≠ 0 ∧ k.transfer.isSome = true ∧ k.link = l then { k with cut := true } else k :=
    if_congr (by simp [and_assoc]) rfl rfl
  rw [exec_linkDown, execLinkDown]
  simp only [hcut]
  rfl

theorem linkTrained_next {s : State} {l : Nat} (h : linkExists s l = true) : ∃ z, exec (.linkTrained l) s = .next z ∧
    (∀ k, k ∈ z.ports.links ↔ k ∈ s.ports.links ∨ k = l) ∧ { z with ports := s.ports } = s := by
  rw [exec_linkTrained, execLinkTrained]
  refine ⟨_, rfl, fun k => ?_, ?_⟩
  · split
    · rename_i hin
      have hl : l ∈ s.ports.links := by simpa [h] using hin
      exact ⟨.inl, fun hk => hk.elim id fun hk => hk ▸ hl⟩
    · dsimp only
      rw [(perm_sortBy _ _).mem_iff, List.mem_append, List.mem_singleton]
  · split <;> rfl

/-! ### The time (R404, R417) -/

section
variable {s : State} {l : Nat} (msg : TimeMsg) (hl : l ∈ s.ports.links) (hon : s.ports.timeCtl.getLsbD 62 = true)
include hl hon

/-- A message of a link that reports no master, or one not below this candidate's own number: its parent is dropped. -/
theorem timeMessage_dropped {master : Option (Nat × Nat)}
    (h : ∀ x, master = some x → s.ports.timeCtl.getLsbD 63 = true ∧ s.ports.skid ≤ x.1) :
    exec (.timeMessage l master msg) s = .next
      (if (s.ports.follows.any fun f => f.2.2 == l) then { s with ports := s.ports.free } else s) := by
  have hheard : ¬(!s.ports.timeCtl.getLsbD 62 || !s.ports.links.contains l) = true := by simp [hl, hon]
  rw [exec_timeMessage]
  unfold execTimeMessage
  dsimp only
  rw [if_neg hheard]
  cases master with
  | none => rfl
  | some x =>
    obtain ⟨hcand, hle⟩ := h x rfl
    exact if_pos (by simp [hcand, hle])

/-- A message that names a master which this module may follow. -/
theorem timeMessage_offered {m h : Nat} (hc : ¬s.ports.timeCtl.getLsbD 63 = true ∨ m < s.ports.skid) :
    exec (.timeMessage l (some (m, h)) msg) s = .next
      (if (s.ports.follows.any fun f => f.2.2 == l) ||
          s.ports.follows.all fun f => m < f.1 || (m == f.1 && h + 1 < f.2.1) then
        follow s (m, h + 1, l) ((msg.time.toNat : Int) + ((msg.round / 2 : Nat) : Int) - (s.ports.time.toNat : Int)) else s) := by
  have hheard : ¬(!s.ports.timeCtl.getLsbD 62 || !s.ports.links.contains l) = true := by simp [hl, hon]
  have hbelow : ¬(s.ports.timeCtl.getLsbD 63 && decide (s.ports.skid ≤ m)) = true := by
    rw [Bool.and_eq_true, decide_eq_true_eq, not_and, not_le]
    exact fun hcand => hc.resolve_left (not_not_intro hcand)
  rw [exec_timeMessage, execTimeMessage]
  dsimp only
  rw [if_neg hheard, if_neg hbelow]
  split <;> rfl

end

theorem follow_spec (s : State) (f : Nat × Nat × Nat) (o : Int) :
    let z := follow s f o
    z.ports.follows = some f ∧ z.ports.timeOff = BitVec.ofInt 32 o ∧
    z.ports.time = s.ports.time + BitVec.ofNat 64 (if 10000 < o then o.toNat else 0) ∧
    (z.ports.locked = true → -5 ≤ o ∧ o ≤ 5) ∧ { z with ports := s.ports } = s := by
  intro z
  have hlock : z.ports.locked = (if -5 ≤ o && o ≤ 5 then some (s.ports.inBand.getD s.wall) else none).any
    fun w => w + 10000000 ≤ s.wall := rfl
  refine ⟨rfl, rfl, rfl, fun hlocked => ?_, rfl⟩
  rw [hlock] at hlocked
  split at hlocked
  · rename_i hband
    simpa using hband
  · cases hlocked

theorem parent_iff (p : Ports) (l : Nat) : (p.follows.any fun f => f.2.2 == l) = true ↔ ∃ f, p.follows = some f ∧ f.2.2 = l := by
  cases p.follows with
  | none => simp
  | some f => simp

theorem closer_iff (p : Ports) (m h : Nat) : (p.follows.all fun f => m < f.1 || (m == f.1 && h + 1 < f.2.1)) = true ↔
    ∀ f, p.follows = some f → m < f.1 ∨ m = f.1 ∧ h + 1 < f.2.1 := by
  cases p.follows with
  | none => simp
  | some f => simp

/-! ### The statement -/

/-- Settles O59, each event by the case of the rule that applies to it. -/
theorem skasonAndTime : Obligations.SkasonAndTime := by
  unfold Obligations.SkasonAndTime
  refine ⟨?_, ?_, ?_, ?_⟩
  · intro s r win p ok
    refine ⟨skasonRemoteAccess_ignored, skasonForward_ignored, fun hdst hlink => ⟨fun cause hcause => ?_, fun hcause hop => ?_⟩,
      fun hdst hlink => ?_⟩
    · exact skasonRemoteAccess_malformed hdst hlink hcause
    · have hrun := skasonRemoteAccess_wellFormed hdst hlink hcause hop
      refine ⟨fun hok => ?_, fun hok hmoving => ?_, fun hok hmoving => ?_⟩
      · rw [hrun, if_pos hok]
      · refine ⟨1 + Config.retryHint s.picks % 255, by omega, by omega, ?_⟩
        rw [hrun, if_neg (ne_false_of_eq_true hok), if_pos hmoving, Nat.add_assoc]
      · rw [hrun, if_neg (ne_false_of_eq_true hok), if_neg (ne_true_of_eq_false hmoving)]
        exact ⟨_, _, rfl, rfl, rfl, rfl, rfl, rfl, rfl, rfl, rfl, rfl, rfl⟩
    · have hrun := skasonForward_other hdst hlink
      refine ⟨fun hlast => ?_, fun hmore => ⟨fun l hl => ?_, fun hl => ?_⟩⟩
      · rw [hrun, if_pos hlast]
      · rw [hrun, if_neg (by omega), hl, Option.elim_some]
      · rw [hrun, if_neg (by omega), hl, Option.elim_none]
  · intro s a hid
    refine ⟨fun hst => ?_, fun since hint l hst hdue hafter hroute => ?_, fun since hint hst hover => ?_,
      fun hst hcut hack hover => ?_⟩
    · exact ⟨_, 1 + Config.retryHint s.picks % 255, retryAfterExpiry_remote hid hst, by omega, by omega, rfl, rfl, rfl⟩
    · refine ⟨_, _, retryAfterExpiry_sent hid hst hdue hafter hroute, rfl, rfl, rfl, rfl, ?_, rfl⟩
      exact accById_setAcc (accById_setAcc (b := { a with st := .queued }) hid)
    · exact remoteRefusalTimeout_over hid hst hover
    · exact linkAckTimeout_over hid hst hcut hack hover
  · intro s l
    refine ⟨⟨_, linkDown_next s l, ?_, fun k hk => ?_, rfl, fun f hf => Ports.follows_without hf l, rfl, rfl⟩, fun hex => ?_⟩
    · simp [Ports.links_without]
    · simp [Ports.links_without, hk]
    · obtain ⟨z, hrun, hlinks, hrest⟩ := linkTrained_next hex
      exact ⟨z, hrun, (hlinks l).2 (.inr rfl), fun k hk => (hlinks k).trans (or_iff_left hk), hrest⟩
  · intro s l msg hl hon parent candidate freed
    have hdrop {master : Option (Nat × Nat)}
        (h : ∀ x, master = some x → s.ports.timeCtl.getLsbD 63 = true ∧ s.ports.skid ≤ x.1) :
        (parent → freed (.timeMessage l master msg)) ∧ (¬parent → exec (.timeMessage l master msg) s = .next s) := by
      have hrun := timeMessage_dropped msg hl hon h
      exact ⟨fun hp => hrun.trans (congrArg Host.Outcome.next (if_pos ((parent_iff _ _).2 hp))),
        fun hp => hrun.trans (congrArg Host.Outcome.next (if_neg fun hb => hp ((parent_iff _ _).1 hb)))⟩
    obtain ⟨hfreed, hkept⟩ := hdrop (master := none) nofun
    refine ⟨hfreed, hkept, ?_⟩
    intro m h closer i
    refine ⟨fun hcand hle => hdrop ?_, fun hoffer => ?_⟩
    · rintro _ ⟨⟩
      exact ⟨hcand, hle⟩
    · have hrun := timeMessage_offered msg hl hon (h := h) hoffer
      have hfollow : ((s.ports.follows.any fun f => f.2.2 == l) ||
          s.ports.follows.all fun f => m < f.1 || (m == f.1 && h + 1 < f.2.1)) = true ↔ parent ∨ closer := by
        rw [Bool.or_eq_true, parent_iff, closer_iff]
      refine ⟨fun hp hc => ?_, fun hf => ⟨_, ?_, follow_spec _ _ _⟩⟩
      · exact hrun.trans (congrArg Host.Outcome.next (if_neg fun hb => (hfollow.1 hb).elim hp hc))
      · exact hrun.trans (congrArg Host.Outcome.next (if_pos (hfollow.2 hf)))

end Sys2Proof.Machine
end

section
/-! SUPPORT. Writes of device registers (R72, R135, R396, R398, R404, R417, R425, R435), and the statement on them. -/

namespace Sys2Proof.Machine

open Sys2Proof

/-! ### Bytes put in a register -/

/-- All the bytes of an 8-byte register are replaced. -/
theorem ofNat_mergeBytes (old : Nat) (x : Dword) : BitVec.ofNat 64 (mergeBytes old 0 8 x.toNat) = x := by
  have hx := x.isLt
  apply BitVec.eq_of_toNat_eq
  rw [BitVec.toNat_ofNat, mergeBytes]
  omega

/-- Byte by byte, the bytes below `m` of a number replaced by those of another. -/
theorem foldl_mergeBytes (v x : Nat) : ∀ m, (List.range m).foldl (fun v k => mergeBytes v k 1 (x / 256 ^ k)) v =
    x % 256 ^ m + v / 256 ^ m * 256 ^ m := by
  intro m
  induction m with
  | zero => simp [Nat.mod_one]
  | succ m ih =>
    have hpos : 0 < 256 ^ m := by positivity
    have hlow : (x % 256 ^ m + v / 256 ^ m * 256 ^ m) % 256 ^ m = x % 256 ^ m := by
      rw [Nat.add_mul_mod_self_right, Nat.mod_mod]
    have hhigh : (x % 256 ^ m + v / 256 ^ m * 256 ^ m) / 256 ^ (m + 1) = v / 256 ^ (m + 1) := by
      rw [pow_succ, ← Nat.div_div_eq_div_mul, Nat.add_mul_div_right _ _ hpos, Nat.div_eq_of_lt (Nat.mod_lt _ hpos), Nat.zero_add,
        Nat.div_div_eq_div_mul]
    rw [List.range_succ, List.foldl_append, ih, List.foldl_cons, List.foldl_nil, mergeBytes, hlow, hhigh, pow_one, Nat.mod_pow_succ,
      Nat.mul_comm (256 ^ m)]

/-- The two halves of a 16-byte register, staged one after the other. -/
theorem staged_halves (old : BitVec 128) (lo hi : Dword) :
    BitVec.ofNat 128 (mergeBytes (BitVec.ofNat 128 (mergeBytes old.toNat 0 8 lo.toNat)).toNat 8 8 hi.toNat) = hi ++ lo := by
  have hlo := lo.isLt
  have hhi := hi.isLt
  have hold := old.isLt
  apply BitVec.eq_of_toNat_eq
  rw [BitVec.toNat_append, ← Nat.shiftLeft_add_eq_or_of_lt hlo, Nat.shiftLeft_eq, BitVec.toNat_ofNat, BitVec.toNat_ofNat, mergeBytes,
    mergeBytes]
  omega

/-! ### Writes of 16-byte registers (R435) -/

/-- A write of the upper 8 bytes, all bytes of the lower being staged, takes effect as one unit. -/
theorem foldl_staged (v : BitVec 128) (stage : BitVec 128) {staged : BitVec 16} (h : ∀ k < 16, staged.getLsbD k = true) :
    BitVec.ofNat 128 ((List.range 16).foldl (fun v k => if staged.getLsbD k then mergeBytes v k 1 (stage.toNat / 256 ^ k) else v)
      v.toNat) = stage := by
  have hv := v.isLt
  have hs := stage.isLt
  have hall : (List.range 16).foldl (fun v k => if staged.getLsbD k then mergeBytes v k 1 (stage.toNat / 256 ^ k) else v) v.toNat =
      (List.range 16).foldl (fun v k => mergeBytes v k 1 (stage.toNat / 256 ^ k)) v.toNat :=
    List.foldl_ext _ _ _ fun v k hk => if_pos (h k (List.mem_range.1 hk))
  rw [hall, foldl_mergeBytes]
  apply BitVec.eq_of_toNat_eq
  rw [BitVec.toNat_ofNat]
  omega

theorem svcr_setReg16 (s : State) (n : Nat) (g : Reg16) (j : Nat) : tget (setReg16 s (.svcr n) g).ports.svcr Reg16.zero j =
    if j = n then g else tget s.ports.svcr Reg16.zero j := tget_tput _ _ _ _ _

theorem getReg16_setReg16 (s : State) (n : Nat) (g : Reg16) : getReg16 (setReg16 s (.svcr n) g) (.svcr n) = g := tget_tput_self _ _ _ _

/-- The lower half of a 16-byte register is staged, and its value stays. -/
theorem stagedWrite_low (s : State) (n : Nat) (lo : Dword) :
    stagedWrite s (.svcr n) 0 8 lo.toNat = setReg16 s (.svcr n) ⟨(getReg16 s (.svcr n)).val,
      BitVec.ofNat 128 (mergeBytes (getReg16 s (.svcr n)).stage.toNat 0 8 lo.toNat), (getReg16 s (.svcr n)).staged ||| 0xFF⟩ := rfl

/-- The upper half takes effect together with a staged lower half. -/
theorem stagedWrite_high {s : State} {n : Nat} {v stage : BitVec 128} {staged : BitVec 16} {lo : Dword} (hi : Dword)
    (h : getReg16 s (.svcr n) = ⟨v, BitVec.ofNat 128 (mergeBytes stage.toNat 0 8 lo.toNat), staged ||| 0xFF⟩) :
    stagedWrite s (.svcr n) 8 8 hi.toNat = setReg16 s (.svcr n) ⟨(hi ++ lo) &&& reg16Mask (.svcr n), 0, 0⟩ := by
  have hbits : ∀ k < 16, (staged ||| 0xFF ||| 0xFF00).getLsbD k = true := by
    intro k hk
    have hones : ∀ k < 16, (0xFF ||| 0xFF00 : BitVec 16).getLsbD k = true := by decide
    rw [BitVec.or_assoc, BitVec.getLsbD_or, hones k hk, Bool.or_true]
  have hval := foldl_staged v (hi ++ lo) hbits
  unfold stagedWrite
  rw [h]
  dsimp only
  rw [staged_halves, if_pos rfl]
  exact congrArg (fun y => setReg16 s (.svcr n) ⟨y &&& reg16Mask (.svcr n), 0, 0⟩) hval

/-! ### The registers' offsets -/

/-- A register of the common map, which the service port has at the same offset. -/
theorem regAt_common {off : Nat} {r : RegId} (hc : commonReg off = r) (hs : serviceReg off = r) (port : Port) : regAt port off = r := by
  cases port with
  | control _ _ _ => exact hc
  | service => exact hs

theorem svcr_offsets : ∀ n < 64, ∀ b ∈ [0, 8], commonReg (0x2000 + 16 * n + b) = .svcr n ∧
    serviceReg (0x2000 + 16 * n + b) = .svcr n := by decide

theorem regAt_svcr {n b : Nat} (hn : n < 64) (hb : b ∈ [0, 8]) (port : Port) : regAt port (0x2000 + 16 * n + b) = .svcr n :=
  regAt_common (svcr_offsets n hn b hb).1 (svcr_offsets n hn b hb).2 port

theorem accessFits_aligned {port : Port} {off off' : Nat} (h : accessFits port off 8 = true) (h' : off' % 8 = 0) :
    accessFits port off' 8 = true := by
  unfold accessFits at h ⊢
  simp only [Bool.and_eq_true] at h ⊢
  obtain ⟨⟨hs, -⟩, hp⟩ := h
  exact ⟨⟨hs, decide_eq_true h'⟩, hp⟩

/-- A write that stays within one register is that register's own. -/
theorem portWrite_within {s : State} {port : Port} {off size x : Nat} {r : RegId} (hfits : accessFits port off size = true)
    (hr : regAt port off = r) (hin : off % r.bytes + size ≤ r.bytes) :
    portWrite s port off size x = regWrite s r (off % r.bytes) size x := by
  unfold portWrite
  rw [hfits, hr]
  exact if_pos hin

theorem regWrite_readOnly {s : State} {r : RegId} (h : r = .ident ∨ r = .time ∨ r = .timeStat) (b n x : Nat) :
    regWrite s r b n x = s := by
  obtain rfl | rfl | rfl := h <;> rfl

theorem registerWrite_readOnly {s : State} {port : Port} {off : Nat} (x : Dword) (hfits : accessFits port off 8 = true)
    (hoff : off = 0 ∨ off = 0x5000 ∨ off = 0x5018) : exec (.registerWrite port off 8 x) s = .next s := by
  obtain ⟨r, hr, hkind, hin⟩ : ∃ r, regAt port off = r ∧ (r = .ident ∨ r = .time ∨ r = .timeStat) ∧
      off % r.bytes + 8 ≤ r.bytes := by
    obtain rfl | rfl | rfl := hoff
    · exact ⟨_, regAt_common rfl (by decide) port, .inl rfl, by decide⟩
    · exact ⟨_, regAt_common rfl (by decide) port, .inr (.inl rfl), by decide⟩
    · exact ⟨_, regAt_common rfl (by decide) port, .inr (.inr rfl), by decide⟩
  rw [exec_registerWrite, execRegisterWrite, portWrite_within hfits hr hin, regWrite_readOnly hkind]

theorem registerWrite_skid {s : State} {port : Port} (x : Dword) (hfits : accessFits port 0x7000 8 = true) :
    exec (.registerWrite port 0x7000 8 x) s = .next { s with ports := { s.ports with skid := x.toNat % 2 ^ 14 } } := by
  have hr : regAt port 0x7000 = .skid := regAt_common (by decide) (by decide) port
  rw [exec_registerWrite, execRegisterWrite, portWrite_within hfits hr (by decide)]
  show Host.Outcome.next { s with ports := { s.ports with
    skid := (BitVec.ofNat 64 (mergeBytes s.ports.skid 0 8 x.toNat)).toNat % 2 ^ 14 } } = _
  rw [ofNat_mergeBytes]

theorem registerStagedWrite_svcr {s : State} {port : Port} {n b : Nat} (x : Dword) (hn : n < 64) (hb : b ∈ [0, 8])
    (hfits : accessFits port 0x2000 8 = true) :
    exec (.registerStagedWrite port (0x2000 + 16 * n + b) 8 x) s = .next (stagedWrite s (.svcr n) b 8 x.toNat) := by
  have hr := regAt_svcr hn hb port
  have hb' : b = 0 ∨ b = 8 := by simpa using hb
  have hoff : (0x2000 + 16 * n + b) % (RegId.svcr n).bytes = b := by
    show (0x2000 + 16 * n + b) % 16 = b
    omega
  have hin : (0x2000 + 16 * n + b) % (RegId.svcr n).bytes + 8 ≤ (RegId.svcr n).bytes := by
    rw [hoff]
    show b + 8 ≤ 16
    omega
  rw [exec_registerStagedWrite, execRegisterStagedWrite, hr]
  dsimp only
  rw [portWrite_within (accessFits_aligned hfits (by omega)) hr hin, hoff]
  rfl

/-! ### HWAKE (R398) -/

/-- The word of an HWAKE register: a written word, with PEND. -/
def hwakeWord (x : Dword) (pend : Bool) : Dword := (x &&& 0x80000003FFFFFFFF) ||| (if pend then 1#64 <<< 62 else 0)

theorem hwakeWord_bits (x : Dword) (pend : Bool) :
    (hwakeWord x pend).getLsbD 63 = x.getLsbD 63 ∧ (hwakeWord x pend).getLsbD 62 = pend ∧
    hwakeOff (hwakeWord x pend) = hwakeOff x := by
  have hword (i : Nat) : (hwakeWord x pend).getLsbD i =
      ((x.getLsbD i && (0x80000003FFFFFFFF : Dword).getLsbD i) || (pend && (1#64 <<< 62).getLsbD i)) := by
    rw [hwakeWord, BitVec.getLsbD_or, BitVec.getLsbD_and]
    cases pend <;> simp
  have hlow : ∀ i < 31, (0x80000003FFFFFFFF : Dword).getLsbD (3 + i) = true ∧ (1#64 <<< 62).getLsbD (3 + i) = false := by decide
  have h63 : (0x80000003FFFFFFFF : Dword).getLsbD 63 = true ∧ (1#64 <<< 62).getLsbD 63 = false := by decide
  have h62 : (0x80000003FFFFFFFF : Dword).getLsbD 62 = false ∧ (1#64 <<< 62).getLsbD 62 = true := by decide
  refine ⟨?_, ?_, ?_⟩
  · rw [hword, h63.1, h63.2, Bool.and_true, Bool.and_false, Bool.or_false]
  · rw [hword, h62.1, h62.2, Bool.and_false, Bool.and_true, Bool.false_or]
  · refine congrArg (fun y : BitVec 31 => y.toNat * 8) (BitVec.eq_of_getLsbD_eq fun i hi => ?_)
    obtain ⟨hmask, hpend⟩ := hlow i hi
    rw [BitVec.getLsbD_extractLsb', BitVec.getLsbD_extractLsb', hword, hmask, hpend, Bool.and_true, Bool.and_false, Bool.or_false]

/-- A state with another word in HWAKE register `n`. -/
def State.putHwake (s : State) (n : Nat) (w : Dword) : State := { s with ports := { s.ports with hwake := tput s.ports.hwake n w } }

/-- The word that an HWAKE register holds after all its bytes have been written. -/
def hwakeNew (s : State) (n : Nat) (x : Dword) : Dword := hwakeWord x ((tget s.ports.hwake 0 n).getLsbD 62 && !x.getLsbD 62)

theorem hwakeWrite_all (s : State) (n : Nat) (x : Dword) :
    hwakeWrite s n 0 8 x.toNat =
      if (hwakeNew s n x).getLsbD 63 && s.mem.readN (hwakeOff (hwakeNew s n x)) 8 != 0 then
        sendVector (s.putHwake n (hwakeNew s n x)) n
      else s.putHwake n (hwakeNew s n x) := by
  unfold hwakeWrite
  dsimp only
  rw [ofNat_mergeBytes]
  rfl

/-- Every byte of an HWAKE register written, with EN: its PEND bit stays unless it is written as 1, and the vector is sent where the
word it watches is nonzero. -/
theorem hwakeEnable_next {s : State} {n : Nat} {x : Dword} (hn : n < 64) (hen : x.getLsbD 63 = true) :
    exec (.hwakeEnable n x) s = .next (if s.mem.readN (hwakeOff x) 8 ≠ 0 then sendVector (s.putHwake n (hwakeNew s n x)) n
      else s.putHwake n (hwakeNew s n x)) := by
  obtain ⟨h63, -, hoff⟩ := hwakeWord_bits x ((tget s.ports.hwake 0 n).getLsbD 62 && !x.getLsbD 62)
  have hsends : ((hwakeNew s n x).getLsbD 63 && s.mem.readN (hwakeOff (hwakeNew s n x)) 8 != 0) = true ↔
      s.mem.readN (hwakeOff x) 8 ≠ 0 := by
    rw [hwakeNew, h63, hoff, hen, Bool.true_and, bne_iff_ne]
  have hon : (n < 64 && x.getLsbD 63) = true := by rw [hen, decide_eq_true hn]; rfl
  rw [exec_hwakeEnable, execHwakeEnable, if_pos hon, hwakeWrite_all]
  exact congrArg Host.Outcome.next (if_congr hsends rfl rfl)

/-- A vector that is sent sets PEND, and waits in the table where it is masked. -/
theorem sendVector_spec {s : State} {n : Nat} (hn : n < 64) :
    let z := sendVector s n
    let old := tget s.ports.hwake 0 n
    z.mem = s.mem ∧ z.troupes = s.troupes ∧ tget z.ports.hwake 0 n = old ||| (1#64 <<< 62) ∧
    (msixMasked s n = false → z.out = s.out ++ [.msix n]) ∧
    (msixMasked s n = true → z.out = s.out ∧ z.ports.msixPend.getLsbD n = true) := by
  intro z old
  cases hm : msixMasked s n with
  | false =>
    have hz : z = { s with
        ports := { s.ports with hwake := tput s.ports.hwake n (old ||| (1#64 <<< 62)) }, out := s.out ++ [.msix n] } :=
      if_neg (Bool.eq_false_iff.1 hm)
    rw [hz]
    exact ⟨rfl, rfl, tget_tput_self _ _ _ _, fun _ => rfl, nofun⟩
  | true =>
    have hz : z = { s with ports := { s.ports with
        hwake := tput s.ports.hwake n (old ||| (1#64 <<< 62)), msixPend := s.ports.msixPend ||| (1#64 <<< n) } } := if_pos hm
    rw [hz]
    refine ⟨rfl, rfl, tget_tput_self _ _ _ _, nofun, fun _ => ⟨rfl, ?_⟩⟩
    simp [hn]

theorem hwake_pended (x : Dword) :
    (x ||| (1#64 <<< 62)).getLsbD 63 = x.getLsbD 63 ∧ (x ||| (1#64 <<< 62)).getLsbD 62 = true ∧
    hwakeOff (x ||| (1#64 <<< 62)) = hwakeOff x := by
  have hlow : ∀ i < 31, (1#64 <<< 62).getLsbD (3 + i) = false := by decide
  refine ⟨by simp, by simp, ?_⟩
  refine congrArg (fun y : BitVec 31 => y.toNat * 8) (BitVec.eq_of_getLsbD_eq fun i hi => ?_)
  rw [BitVec.getLsbD_extractLsb', BitVec.getLsbD_extractLsb', BitVec.getLsbD_or, hlow i hi, Bool.or_false]

theorem hwakeEnable_spec {s : State} {n : Nat} {x : Dword} (hn : n < 64) (hen : x.getLsbD 63 = true) :
    ∃ z, exec (.hwakeEnable n x) s = .next z ∧ z.mem = s.mem ∧ z.troupes = s.troupes ∧
      hwakeOff (tget z.ports.hwake 0 n) = hwakeOff x ∧ (tget z.ports.hwake 0 n).getLsbD 63 = true ∧
      (s.mem.readN (hwakeOff x) 8 = 0 → z.out = s.out ∧
        (tget z.ports.hwake 0 n).getLsbD 62 = ((tget s.ports.hwake 0 n).getLsbD 62 && !x.getLsbD 62)) ∧
      (s.mem.readN (hwakeOff x) 8 ≠ 0 → (tget z.ports.hwake 0 n).getLsbD 62 = true ∧
        (msixMasked s n = false → z.out = s.out ++ [.msix n]) ∧
        (msixMasked s n = true → z.out = s.out ∧ z.ports.msixPend.getLsbD n = true)) := by
  obtain ⟨h63, h62, hoff⟩ := hwakeWord_bits x ((tget s.ports.hwake 0 n).getLsbD 62 && !x.getLsbD 62)
  have hrun := hwakeEnable_next (s := s) hn hen
  have hput : tget (s.putHwake n (hwakeNew s n x)).ports.hwake 0 n = hwakeNew s n x := tget_tput_self _ _ _ _
  by_cases hzero : s.mem.readN (hwakeOff x) 8 = 0
  · rw [if_neg (not_not_intro hzero)] at hrun
    refine ⟨_, hrun, rfl, rfl, ?_, ?_, fun _ => ⟨rfl, ?_⟩, fun h => absurd hzero h⟩
    · rw [hput, hwakeNew, hoff]
    · rw [hput, hwakeNew, h63, hen]
    · rw [hput, hwakeNew, h62]
  · rw [if_pos hzero] at hrun
    obtain ⟨hmem, htr, hword, hsent, hheld⟩ := sendVector_spec (s := s.putHwake n (hwakeNew s n x)) hn
    rw [hput] at hword
    obtain ⟨p63, p62, poff⟩ := hwake_pended (hwakeNew s n x)
    refine ⟨_, hrun, hmem, htr, ?_, ?_, fun h => absurd h hzero, fun _ => ⟨?_, hsent, hheld⟩⟩
    · rw [hword, poff, hwakeNew, hoff]
    · rw [hword, p63, hwakeNew, h63, hen]
    · rw [hword, p62]

/-! ### Entries of regions (R72, R135) -/

/-- The derivations `ids` are gone from `y`; every other one stays, and no byte, troupe or register changes. -/
structure Unregisters (ids : List Nat) (s y : State) : Prop where
  bytes   : y.mem = s.mem
  troupes : y.troupes = s.troupes
  ports   : y.ports = s.ports
  accs    : (∀ a ∈ s.accs, a.st ≠ .derived) → y.accs = s.accs
  kept    : ∀ k, k ∉ ids → y.entry k = s.entry k
  gone    : ∀ k ∈ ids, y.entry k = Entry.free

theorem Unregisters.trans {is js : List Nat} {s y z : State} (h : Unregisters is s y) (h' : Unregisters js y z) :
    Unregisters (is ++ js) s z where
  bytes := h'.bytes.trans h.bytes
  troupes := h'.troupes.trans h.troupes
  ports := h'.ports.trans h.ports
  accs ha := (h'.accs ((h.accs ha).symm ▸ ha)).trans (h.accs ha)
  kept k hk := by
    rw [List.mem_append, not_or] at hk
    exact (h'.kept k hk.2).trans (h.kept k hk.1)
  gone k hk := by
    by_cases hj : k ∈ js
    · exact h'.gone k hj
    · exact (h'.kept k hj).trans (h.gone k ((List.mem_append.1 hk).resolve_right hj))

theorem unregisters_unregister (s : State) (id : Nat) : Unregisters [id] s (unregister s id) where
  bytes := rfl
  troupes := rfl
  ports := rfl
  accs ha := by
    refine (List.map_congr_left fun a h => ?_).trans (List.map_id _)
    exact if_neg (by simp [ha a h])
  kept k hk := tget_terase_ne _ _ (by simpa using hk)
  gone k hk := by
    obtain rfl : k = id := by simpa using hk
    exact tget_terase_self _ _ _

theorem unregisters_foldl (es : List (Nat × Entry)) : ∀ s : State,
    Unregisters (es.map Prod.fst) s (es.foldl (fun y e => unregister y e.1) s) := by
  induction es with
  | nil => exact fun s => ⟨rfl, rfl, rfl, fun _ => rfl, fun _ _ => rfl, nofun⟩
  | cons e r ih => exact fun s => (unregisters_unregister s e.1).trans (ih _)

/-- A key that holds something else than the default is a key of the table. -/
theorem mem_of_tget_ne {V : Type} {m : Table V} {d : V} {k : Nat} (h : tget m d k ≠ d) : (k, tget m d k) ∈ m := by
  induction m with
  | nil => exact absurd rfl h
  | cons e r ih =>
    obtain ⟨a, v⟩ := e
    by_cases hk : a = k
    · simp [tget, hk]
    · have hr : tget ((a, v) :: r) d k = tget r d k := if_neg hk
      rw [hr] at h ⊢
      exact List.mem_cons_of_mem _ (ih h)

/-- A region's entry is replaced, and a partition that has lost its last region loses its derivations. -/
theorem regionWrite_spec (s : State) (k : Nat) (x : Word) :
    let z := { s with ports := { s.ports with region := tput s.ports.region k (x &&& 0xC03FFFFF) } }
    let old := regionEntry s k
    let p := (old.extractLsb' 5 16).toNat
    let gone := old.getLsbD 21 = true ∧ partGone z p = true
    let y := regionWrite s k x.toNat
    (¬gone → y = z) ∧ (gone → Unregisters (((usedEntries z).filter fun e => e.2.part == p).map Prod.fst) z y) := by
  intro z old p gone y
  have hrun : y = if (old.getLsbD 21 && partGone z p) = true then
      ((usedEntries z).filter fun e => e.2.part == p).foldl (fun y e => unregister y e.1) z else z := by
    show regionWrite s k x.toNat = _
    unfold regionWrite
    rw [BitVec.ofNat_toNat, BitVec.setWidth_eq]
  have hgone : (old.getLsbD 21 && partGone z p) = true ↔ gone := Bool.and_eq_true_iff
  refine ⟨fun h => ?_, fun h => ?_⟩
  · rw [hrun, if_neg (mt hgone.1 h)]
  · rw [hrun, if_pos (hgone.2 h)]
    exact unregisters_foldl _ _

/-- What `Obligations.RegisterWrites` says of a written region. -/
theorem regionWrite_becomes (s : State) (k : Nat) (x : Word) :
    let z := { s with ports := { s.ports with region := tput s.ports.region k (x &&& 0xC03FFFFF) } }
    let old := regionEntry s k
    let p := (old.extractLsb' 5 16).toNat
    let gone := old.getLsbD 21 = true ∧ partGone z p = true
    let y := regionWrite s k x.toNat
    (¬gone → y = z) ∧ y.mem = s.mem ∧ y.troupes = s.troupes ∧ y.ports = z.ports ∧
      ((∀ a ∈ s.accs, a.st ≠ .derived) → y.accs = s.accs) ∧
      (∀ k, (∀ e ∈ s.entries, e.1 = k → e.2.used = false ∨ e.2.part ≠ p) → y.entry k = s.entry k) ∧
      (gone → ∀ k, (s.entry k).used = true → (s.entry k).part = p → (y.entry k).used = false) := by
  intro z old p gone y
  obtain ⟨hstays, hgoes⟩ := regionWrite_spec s k x
  refine ⟨hstays, ?_⟩
  by_cases hg : gone
  · have hkeys (j : Nat) : j ∈ ((usedEntries z).filter fun e => e.2.part == p).map Prod.fst ↔
        ∃ e ∈ s.entries, e.1 = j ∧ e.2.used = true ∧ e.2.part = p := by
      simp only [usedEntries, List.mem_map, List.mem_filter, beq_iff_eq]
      exact ⟨fun ⟨e, ⟨⟨he, hu⟩, hp⟩, hj⟩ => ⟨e, he, hj, hu, hp⟩,
        fun ⟨e, he, hj, hu, hp⟩ => ⟨e, ⟨⟨he, hu⟩, hp⟩, hj⟩⟩
    have h := hgoes hg
    refine ⟨h.bytes, h.troupes, h.ports, h.accs, fun j hj => h.kept j fun hin => ?_, fun _ j hu hp => ?_⟩
    · obtain ⟨e, he, hej, hu, hp⟩ := (hkeys j).1 hin
      obtain hu' | hp' := hj e he hej
      · rw [hu] at hu'
        cases hu'
      · exact hp' hp
    · have hfree : s.entry j ≠ Entry.free := fun hf => by
        rw [hf] at hu
        cases hu
      rw [h.gone j ((hkeys j).2 ⟨_, mem_of_tget_ne hfree, rfl, hu, hp⟩)]
      rfl
  · have hy : y = z := hstays hg
    rw [hy]
    exact ⟨rfl, rfl, rfl, fun _ => rfl, fun _ _ => rfl, fun h => absurd h hg⟩

/-! ### Counters (R417, R425) -/

theorem errcntClear_next {s : State} {n : Nat} (hn : n < 19) (x : Word) : exec (.errcntClear n x) s =
    .next (if x = 0 then { s with ports := { s.ports with errcnt := tput s.ports.errcnt n 0 } } else s) := by
  rw [exec_errcntClear, execErrcntClear, if_pos hn, errcntWrite]
  exact congrArg Host.Outcome.next (if_congr (BitVec.toNat_inj (y := 0)) rfl rfl)

theorem counterClear_next {s : State} {off : Nat} (h : counterAt off = true) (x : Word) : exec (.counterClear off x) s =
    .next (if x = 0 then { s with ports := { s.ports with counters := tput s.ports.counters off 0 } } else s) := by
  rw [exec_counterClear, execCounterClear, if_pos h, counterWrite]
  exact congrArg Host.Outcome.next (if_congr (BitVec.toNat_inj (y := 0)) rfl rfl)

/-! ### The statement -/

/-- Settles O56, register by register. -/
theorem registerWrites : Obligations.RegisterWrites := by
  unfold Obligations.RegisterWrites
  intro s
  refine ⟨fun port off size x hfits => ?_, fun port off x => registerWrite_readOnly x, fun port x => registerWrite_skid x,
    fun port n lo hi hn hfits => ?_, fun n x => hwakeEnable_spec, fun n x hn => errcntClear_next hn x,
    fun off x hoff => counterClear_next hoff x, fun x => ?_, ?_⟩
  · exact congrArg Host.Outcome.next (if_pos (by rw [hfits]; rfl))
  · have hlow := registerStagedWrite_svcr (s := s) lo hn (b := 0) (by decide) hfits
    have hhigh := registerStagedWrite_svcr (s := stagedWrite s (.svcr n) 0 8 lo.toNat) hi hn (b := 8) (by decide) hfits
    rw [stagedWrite_high hi (by rw [stagedWrite_low, getReg16_setReg16])] at hhigh
    refine ⟨_, _, hlow, hhigh, fun j => ?_, ?_, fun j hj => ?_⟩
    · rw [stagedWrite_low, svcr_setReg16]
      split
      · rename_i hj
        rw [hj]
        rfl
      · rfl
    · rw [svcr_setReg16, if_pos rfl]
    · rw [svcr_setReg16, if_neg hj, stagedWrite_low, svcr_setReg16, if_neg hj]
  · rw [exec_timeset, execTimeset, timeSet]
    exact congrArg Host.Outcome.next (if_congr (by simp) rfl rfl)
  · intro die r x hdie hr z old p gone becomes
    have hbecomes := regionWrite_becomes s (2048 * die + r) x
    refine ⟨fun hx => ⟨_, ?_, hbecomes⟩, fun hx => ⟨_, ?_, hbecomes⟩⟩
    · exact congrArg Host.Outcome.next (if_pos (by simp [hdie, hr, hx]))
    · exact congrArg Host.Outcome.next (if_pos (by simpa [hdie, hr] using hx))

end Sys2Proof.Machine
end

section
/-! SUPPORT. What rounding leaves of a value that its format holds (R91, R95), and the statement on it. -/

namespace Sys2Proof.Machine

open Sys2Proof

/-! ### The fields of a code (R91) -/

/-- A code is its sign, its exponent and its mantissa put together. -/
theorem code_of_fields (f : Fmt) {x : Nat} (hx : x < 2 ^ f.bits) :
    f.signBit (x / 2 ^ (f.ebits + f.mbits) % 2 == 1) + (x / 2 ^ f.mbits % 2 ^ f.ebits * 2 ^ f.mbits + x % 2 ^ f.mbits) = x := by
  have hsign : x / 2 ^ (f.ebits + f.mbits) < 2 := by
    rw [Nat.div_lt_iff_lt_mul (by positivity), ← pow_succ']
    rwa [Fmt.bits, Nat.add_assoc, Nat.add_comm] at hx
  have hsplit : x / 2 ^ (f.ebits + f.mbits) = x / 2 ^ f.mbits / 2 ^ f.ebits := by
    rw [Nat.add_comm, pow_add, Nat.div_div_eq_div_mul]
  have hbit : f.signBit (x / 2 ^ (f.ebits + f.mbits) % 2 == 1) = x / 2 ^ (f.ebits + f.mbits) * 2 ^ (f.ebits + f.mbits) := by
    rcases Nat.le_one_iff_eq_zero_or_eq_one.1 (Nat.le_of_lt_succ hsign) with h | h <;> simp [Fmt.signBit, h]
  calc _ = (x / 2 ^ f.mbits / 2 ^ f.ebits * 2 ^ f.ebits + x / 2 ^ f.mbits % 2 ^ f.ebits) * 2 ^ f.mbits + x % 2 ^ f.mbits := by
        rw [hbit, hsplit, pow_add, Nat.add_mul, Nat.mul_assoc, Nat.add_assoc]
    _ = x := by rw [Nat.div_add_mod', Nat.div_add_mod']

/-- The magnitude of an infinity is the code above the largest finite one. -/
theorem infinity_code {f : Fmt} (h : f.hasInf = true) : (2 ^ f.ebits - 1) * 2 ^ f.mbits = f.largest + 1 := by
  revert h
  cases f <;> decide

theorem subnormal_le_largest (f : Fmt) {m : Nat} (h : m < 2 ^ f.mbits) : m ≤ f.largest := by
  cases f <;> simp only [Fmt.mbits, Fmt.largest] at * <;> omega

/-- The magnitude of a code that is neither an infinity nor a NaN. -/
theorem magnitude_le_largest (f : Fmt) {e m : Nat} (he : e < 2 ^ f.ebits) (hm : m < 2 ^ f.mbits)
    (hinf : ¬(f.hasInf && e == 2 ^ f.ebits - 1) = true) (hnan : ¬(f == .e4m3 && e == 15 && m == 7) = true) :
    e * 2 ^ f.mbits + m ≤ f.largest := by
  cases f <;> simp [Fmt.mbits, Fmt.ebits, Fmt.hasInf, Fmt.largest] at * <;> omega

/-! ### Rounding where nothing is discarded (R95) -/

/-- A magnitude whose last bit has the weight of the result's last place is its own significand. -/
theorem roundMag_of_lsb {f : Fmt} {m : Nat} {e : Int} (r : Rnd) (neg : Bool) (q : Word) (hm : m < 2 ^ (f.mbits + 1))
    (hlsb : max (e + Nat.log2 m) (1 - f.bias) - f.mbits = e) : roundMag f r neg m e q =
      let code : Int := if m < 2 ^ f.mbits then m else (e + f.mbits + f.bias) * 2 ^ f.mbits + (m - 2 ^ f.mbits)
      if code ≤ f.largest then some code.toNat else none := by
  unfold roundMag
  simp only [hlsb, le_refl, if_true, Int.sub_self, Int.toNat_zero, pow_zero, Nat.mul_one, hm.ne, if_false]

theorem roundMag_subnormal {f : Fmt} {m : Nat} (r : Rnd) (neg : Bool) (q : Word) (h0 : m ≠ 0) (hm : m < 2 ^ f.mbits) :
    roundMag f r neg m (1 - f.bias - f.mbits) q = some m := by
  have hlog : Nat.log2 m < f.mbits := (Nat.log2_lt h0).2 hm
  rw [roundMag_of_lsb r neg q (hm.trans (Nat.pow_lt_pow_right one_lt_two (Nat.lt_succ_self _))) (by omega)]
  have := subnormal_le_largest f hm
  simp [hm, this]

theorem roundMag_normal {f : Fmt} {e m : Nat} (r : Rnd) (neg : Bool) (q : Word) (he : e ≠ 0) (hm : m < 2 ^ f.mbits)
    (hle : e * 2 ^ f.mbits + m ≤ f.largest) :
    roundMag f r neg (2 ^ f.mbits + m) (e - f.bias - f.mbits) q = some (e * 2 ^ f.mbits + m) := by
  have hlt : 2 ^ f.mbits + m < 2 ^ (f.mbits + 1) := by rw [pow_succ]; omega
  have hlog : Nat.log2 (2 ^ f.mbits + m) = f.mbits :=
    (Nat.log2_eq_iff (by positivity)).2 ⟨Nat.le_add_right _ _, hlt⟩
  rw [roundMag_of_lsb r neg q hlt (by rw [hlog]; omega)]
  have hcode : ((e : Int) - f.bias - f.mbits + f.mbits + f.bias) * 2 ^ f.mbits + (((2 ^ f.mbits + m : Nat) : Int) - 2 ^ f.mbits) =
      ((e * 2 ^ f.mbits + m : Nat) : Int) := by
    push_cast; ring
  simp only [Nat.not_lt.2 (Nat.le_add_right (2 ^ f.mbits) m), if_false, hcode]
  rw [if_pos (by exact_mod_cast hle), Int.toNat_natCast]

/-! ### Rounding without `.sat` and `.ftz` -/

theorem rnd_of_roundMag {f : Fmt} {r : Rnd} {neg : Bool} {m : Nat} {e : Int} {q : Word} {k : Nat} (h0 : m ≠ 0)
    (h : roundMag f r neg m e q = some k) : rnd f ⟨r, false, false⟩ q (.fin neg m e) = f.signBit neg + k := by
  simp [rnd, h0, h]

theorem rnd_inf {f : Fmt} (r : Rnd) (neg : Bool) (q : Word) (h : f.hasInf = true) :
    rnd f ⟨r, false, false⟩ q (.inf neg) = f.signBit neg + (f.largest + 1) := by
  have he2m1 : f ≠ .e2m1 := by rintro rfl; cases h
  simp [rnd, h, he2m1, Nat.add_assoc]

/-- The value of a code of these fields. -/
def Fmt.fieldsVal (f : Fmt) (neg : Bool) (e m : Nat) : FVal :=
  if f.hasInf && e == 2 ^ f.ebits - 1 then (if m = 0 then .inf neg else .nan)
  else if f == .e4m3 && e == 15 && m == 7 then .nan
  else if e = 0 then .fin neg m (1 - f.bias - f.mbits)
  else .fin neg (2 ^ f.mbits + m) (e - f.bias - f.mbits)

theorem decodeF_eq_fieldsVal (f : Fmt) (x : Nat) : decodeF f x =
    f.fieldsVal (x / 2 ^ (f.ebits + f.mbits) % 2 == 1) (x / 2 ^ f.mbits % 2 ^ f.ebits) (x % 2 ^ f.mbits) := rfl

/-- The value of a code's fields rounds to the code that they make up. -/
theorem rnd_fieldsVal {f : Fmt} {neg : Bool} {e m : Nat} (r : Rnd) (q : Word) (he : e < 2 ^ f.ebits) (hm : m < 2 ^ f.mbits)
    (hnan : f.fieldsVal neg e m ≠ .nan) :
    rnd f ⟨r, false, false⟩ q (f.fieldsVal neg e m) = f.signBit neg + (e * 2 ^ f.mbits + m) := by
  unfold Fmt.fieldsVal at hnan ⊢
  by_cases hinf : (f.hasInf && e == 2 ^ f.ebits - 1) = true
  · rw [if_pos hinf] at hnan ⊢
    have hm0 : m = 0 := by
      by_contra h
      exact hnan (if_neg h)
    obtain ⟨hhas, hexp⟩ := Bool.and_eq_true_iff.1 hinf
    rw [if_pos hm0, rnd_inf r neg q hhas, ← infinity_code hhas, eq_of_beq hexp, hm0, Nat.add_zero]
  rw [if_neg hinf] at hnan ⊢
  by_cases he4m3 : (f == .e4m3 && e == 15 && m == 7) = true
  · exact absurd (if_pos he4m3) hnan
  rw [if_neg he4m3]
  by_cases he0 : e = 0
  · rw [if_pos he0, he0, Nat.zero_mul, Nat.zero_add]
    by_cases hm0 : m = 0
    · simp [rnd, hm0]
    · exact rnd_of_roundMag hm0 (roundMag_subnormal r neg q hm0 hm)
  · rw [if_neg he0]
    exact rnd_of_roundMag (by positivity) (roundMag_normal r neg q he0 hm (magnitude_le_largest f he hm hinf he4m3))

/-- Settles O6: each kind of value (an infinity, a zero, a subnormal, a normal number) rounds to the code of its fields. -/
theorem roundingKeepsValues : Obligations.RoundingKeepsValues := by
  intro f r q x hx hnan
  rw [decodeF_eq_fieldsVal] at hnan ⊢
  have he : x / 2 ^ f.mbits % 2 ^ f.ebits < 2 ^ f.ebits := Nat.mod_lt _ (by positivity)
  have hm : x % 2 ^ f.mbits < 2 ^ f.mbits := Nat.mod_lt _ (by positivity)
  rw [rnd_fieldsVal r q he hm hnan, code_of_fields f hx]

end Sys2Proof.Machine
end

section
/-! SUPPORT. The functions of the XF pipe and the conversions (R108, R161, R210, R212-R217), and the statement on them. -/

namespace Sys2Proof.Machine

open Sys2Proof

/-- A correctly rounded function of f32 is owed. -/
theorem fnExact_next {i : Instr} {s : State} {c : Ctx} {m : FMod} {d a : Opd} {f : FVal → FVal} (hi : Issues i s c) :
    ∃ t, fnExact i s m d a f = .next t ∧ LaneLate c .rne (results c false d fun l =>
      BitVec.ofNat 64 (rnd .f32 m 0 (f (fElem .f32 m.ftz (readWord s.begun c l a 0) 0)))) s t :=
  laneLate_next hi

/-- A function within 1 ulp is owed. -/
theorem fnUlp_next {i : Instr} {s : State} {c : Ctx} {k : Nat} {m : FMod} {d a : Opd} {f : FVal → FVal} (hi : Issues i s c) :
    ∃ t, fnUlp i s k m d a f = .next t ∧ LaneLate c .rne (results c false d fun l =>
      BitVec.ofNat 64 (ulpFn k m f (fElem .f32 m.ftz (readWord s.begun c l a 0) 0))) s t :=
  laneLate_next hi

/-- Settles O7: each is one result of the XF pipe, CVT and PACK with the draws of their issue. -/
theorem functionsAndConversions : Obligations.FunctionsAndConversions := by
  refine ⟨fun h m d a s c => ⟨?frcp, ?fsqrt, ?fdiv, ?fexp2, ?flog2, ?frsq, ?fsin, ?fcos, ?ftanh⟩,
    fun h d a s c => ⟨?cvt, ?pack, ?unpack, ?scaleApply, ?scaleMx, ?amax⟩⟩
  case frcp => exact fun hi => exec_frcp s ▸ fnExact_next hi
  case fsqrt => exact fun hi => exec_fsqrt s ▸ fnExact_next hi
  case fdiv => exact fun b hi => exec_fdiv s ▸ laneLate_next hi
  case fexp2 => exact fun hi => exec_fexp2 s ▸ fnExact_next hi
  case flog2 => exact fun hi => exec_flog2 s ▸ fnExact_next hi
  case frsq => exact fun hi => exec_frsq s ▸ fnUlp_next hi
  case fsin => exact fun hi => exec_fsin s ▸ fnUlp_next hi
  case fcos => exact fun hi => exec_fcos s ▸ fnUlp_next hi
  case ftanh => exact fun hi => exec_ftanh s ▸ fnUlp_next hi
  case cvt => exact fun src dst m hi => exec_cvt s ▸ xfDraw_next hi
  case pack => exact fun ty m sc hi => exec_pack s ▸ xfDraw_next hi
  case unpack => exact fun ty sat sc hi => exec_unpack s ▸ issueLate_next hi
  case scaleApply => exact fun m b hi => exec_scaleApply s ▸ laneLate_next hi
  case scaleMx => exact fun f hi => exec_scaleMx s ▸ laneLate_next hi
  case amax => exact fun ty b hi => exec_amax s ▸ laneLate_next hi

end Sys2Proof.Machine
end

section
/-! SUPPORT. SRSEED, the dot products and the signal-processing instructions (R98, R218-R223), and the statement on them. -/

namespace Sys2Proof.Machine

open Sys2Proof

/-! ### SRSEED (R98, R218) -/

/-- A troupe whose generator, and the seed of its deterministic draws, start from `v`; 0 gives the generator its initial value. -/
def Troupe.seeded (tr : Troupe) (v : Word) : Troupe := { tr with srState := if v = 0 then srInitial else v, srSeed := v }

theorem exec_srseed_uniform {h : Hdr} {a : Opd} {s : State} {c : Ctx} (hi : Issues (.srseed h a) s c) (hact : c.act ≠ 0)
    (hu : uniformTrap c (fun l => (readWord s.begun c l a 0).setWidth 64) = none) : exec (.srseed h a) s =
      .next (finish c (.ok (s.begun.setTroupe c.t ((s.troupe c.t).seeded (readWord s.begun c c.low a 0))))) := by
  rw [exec_srseed, execSrseed, issue_next hi, if_neg (by simpa [Ctx.idle] using hact), hu]
  rfl

theorem exec_srseed_trap {h : Hdr} {a : Opd} {s : State} {c : Ctx} {x : TrapInfo} (hi : Issues (.srseed h a) s c)
    (hact : c.act ≠ 0) (hu : uniformTrap c (fun l => (readWord s.begun c l a 0).setWidth 64) = some x) :
    exec (.srseed h a) s = .next (takeTrap s.begun c.t x) := by
  rw [exec_srseed, execSrseed, issue_next hi, if_neg (by simpa [Ctx.idle] using hact), hu]
  rfl

theorem sumsAndSeeds_srseed {h : Hdr} {a : Opd} {s : State} {c : Ctx} (hi : Issues (.srseed h a) s c) (hact : c.act ≠ 0)
    (hu : ∀ l, hasLane c.act l = true → readWord s.begun c l a 0 = readWord s.begun c c.low a 0) :
    ∃ t, exec (.srseed h a) s = .next t ∧ OnlyTroupe c.t s t ∧ Moved c (s.troupe c.t) (t.troupe c.t) ∧
      { t.troupe c.t with threads := (s.troupe c.t).threads } = (s.troupe c.t).seeded (readWord s.begun c c.low a 0) := by
  refine ⟨_, exec_srseed_uniform hi hact (uniformTrap_none fun l hl => by rw [hu l hl]),
    onlyTroupe_finish_ok (onlyTroupe_setTroupe (onlyTroupe_begun _ _) _), ?_, ?_⟩
  · rw [troupe_finish_ok, State.troupe_setTroupe_self]
    exact lane_unchanged rfl
  · rw [troupe_finish_ok, State.troupe_setTroupe_self]
    exact Troupe.mapLanes_rest _ _ _

theorem sumsAndSeeds_srseed_trap {h : Hdr} {a : Opd} {s : State} {c : Ctx} (hi : Issues (.srseed h a) s c) (hact : c.act ≠ 0)
    (hu : ∃ l, hasLane c.act l = true ∧ readWord s.begun c l a 0 ≠ readWord s.begun c c.low a 0) :
    ∃ x, x.code = 0x20 ∧ x.pc = c.pc ∧ x.bundle = c.mask ∧
      (∀ l, hasLane x.mask l = true ↔ hasLane c.act l = true ∧ readWord s.begun c l a 0 ≠ readWord s.begun c c.low a 0) ∧
      exec (.srseed h a) s = .next (takeTrap s.begun c.t x) := by
  obtain ⟨l, hl, hne⟩ := hu
  refine ⟨_, rfl, rfl, rfl, fun j => ?_, exec_srseed_trap hi hact (uniformTrap_some hl fun h => hne (setWidth_word_inj.1 h))⟩
  exact hasLane_disagree.trans (and_congr_right fun _ => not_congr setWidth_word_inj)

/-! ### Dot products (R219) -/

/-- A dot product that rounds once, with the draw of its issue, is owed. -/
theorem dotNow_next {i : Instr} {s : State} {c : Ctx} {sc : Bool} {m : FMod} {fa fb : Fmt} {n : Nat} {d a b k : Opd}
    (hi : Issues i s c) : ∃ t, dotNow i s sc m fa fb n d a b k = .next t ∧ LaneLate c m.rnd (results c false d fun l =>
      BitVec.ofNat 64 (rnd .f32 m ((draws s.begun c m.rnd 1).2 l 0) (dotF (m.rnd == .rdn) sc (readPart s.begun c l k 1 2) fa fb n
        (readWord s.begun c l a 0) (readWord s.begun c l b 1)
        (fElem .f32 m.ftz (if sc then readPart s.begun c l k 0 2 else readWord s.begun c l k 2) 0)))) s t :=
  xfDraw_next hi

/-- DOT4 by its TYPE: integers are added exactly and owed without a draw, elements as by the other dot products. -/
theorem sumsAndSeeds_dot4 {h : Hdr} {ty : Ty} {sc xb : Bool} {m : FMod} {d a b k : Opd} {s : State} {c : Ctx}
    (hi : Issues (.dot4 h ty sc xb m d a b k) s c) : ∃ t, exec (.dot4 h ty sc xb m d a b k) s = .next t ∧
      if Ty.isInt ty then LaneLate c .rne (results c false d fun l => intBits .i32 m.sat (dot4Int (ty == .i8) ((ty == .i8) != xb)
        (readWord s.begun c l a 0) (readWord s.begun c l b 1) (readWord s.begun c l k 2))) s t
      else LaneLate c m.rnd (results c false d fun l => BitVec.ofNat 64 (rnd .f32 m ((draws s.begun c m.rnd 1).2 l 0)
        (dotF (m.rnd == .rdn) sc (readPart s.begun c l k 1 2) (fpElems ty).1 (xbFmt xb (fpElems ty).1) 4
          (readWord s.begun c l a 0) (readWord s.begun c l b 1)
          (fElem .f32 m.ftz (if sc then readPart s.begun c l k 0 2 else readWord s.begun c l k 2) 0)))) s t := by
  rw [exec_dot4, execDot4]
  split
  · exact laneLate_next hi
  · exact dotNow_next hi

/-- Settles O8: SRSEED by whether its lanes agree, the dot products with the draw of their issue, the others owed as they are. -/
theorem sumsAndSeeds : Obligations.SumsAndSeeds := by
  refine ⟨fun h a s c hi hact => ⟨sumsAndSeeds_srseed hi hact, sumsAndSeeds_srseed_trap hi hact⟩,
    fun h m d a b k s c => ⟨?dot2, fun ty sc xb => sumsAndSeeds_dot4, ?dot8⟩, fun h m d a b s c => ⟨?cbfly, ?cmul, ?twid⟩⟩
  case dot2 => exact fun ty hi => exec_dot2 s ▸ dotNow_next hi
  case dot8 => exact fun sc hi => exec_dot8 s ▸ dotNow_next hi
  case cbfly => exact fun w hi => exec_cbfly s ▸ issueLate_next hi
  case cmul => exact fun conj hi => exec_cmul s ▸ issueLate_next hi
  case twid => exact fun b hi => exec_twid s ▸ issueLate_next hi

end Sys2Proof.Machine
end

section
/-! SUPPORT. The matrix unit of a stage (R104, R112-R115, R278, R281, R283), and the statement on it. -/

namespace Sys2Proof.Machine

open Sys2Proof

/-! ### Elements of a tile -/

theorem tget_foldl_tset_of_not_mem {V : Type} [DecidableEq V] (d : V) (f : Nat → Nat) {k : Nat} (xs : List (Nat × V))
    (h : ∀ x ∈ xs, f x.1 ≠ k) (m : Table V) : tget (xs.foldl (fun m x => tset m d (f x.1) x.2) m) d k = tget m d k := by
  induction xs generalizing m with
  | nil => rfl
  | cons x xs ih =>
    rw [List.foldl_cons, ih fun y hy => h y (List.mem_cons_of_mem _ hy), tget_tset, if_neg (h x List.mem_cons_self).symm]

/-- A key that is written only with `v` holds `v`. -/
theorem tget_foldl_tset_of_mem {V : Type} [DecidableEq V] (d : V) (f : Nat → Nat) {k : Nat} {v : V} (xs : List (Nat × V))
    (hmem : ∃ x ∈ xs, f x.1 = k) (hval : ∀ x ∈ xs, f x.1 = k → x.2 = v) (m : Table V) :
    tget (xs.foldl (fun m x => tset m d (f x.1) x.2) m) d k = v := by
  induction xs generalizing m with
  | nil => obtain ⟨x, hx, -⟩ := hmem; cases hx
  | cons x xs ih =>
    rw [List.foldl_cons]
    have hval' : ∀ y ∈ xs, f y.1 = k → y.2 = v := fun y hy => hval y (List.mem_cons_of_mem _ hy)
    by_cases hlater : ∃ y ∈ xs, f y.1 = k
    · exact ih hlater hval' _
    · have hx : f x.1 = k := by
        obtain ⟨y, hy, hk⟩ := hmem
        rcases List.mem_cons.1 hy with rfl | hy
        · exact hk
        · exact absurd ⟨y, hy, hk⟩ hlater
      rw [tget_foldl_tset_of_not_mem d f xs (fun y hy hk => hlater ⟨y, hy, hk⟩), tget_tset, if_pos hx.symm,
        hval x List.mem_cons_self hx]

/-- An element of a tile whose place is written only with `v`. -/
theorem tileElem_setTileElems_of_mem (tr : Troupe) (tile : Nat) {xs : List (Nat × Word)} {i j : Nat} {v : Word}
    (hmem : (64 * i + j, v) ∈ xs) (hval : ∀ x ∈ xs, x.1 = 64 * i + j → x.2 = v) :
    tileElem (tr.setTileElems tile xs) tile i j = v := by
  refine tget_foldl_tset_of_mem 0 (4096 * tile + ·) xs ⟨_, hmem, (Nat.add_assoc _ _ _).symm⟩ (fun x hx hk => hval x hx ?_) _
  omega

theorem tiles_setTileElems_of_not_mem (tr : Troupe) (tile : Nat) {xs : List (Nat × Word)} {k : Nat}
    (h : ∀ x ∈ xs, 4096 * tile + x.1 ≠ k) : tget (tr.setTileElems tile xs).tiles 0 k = tget tr.tiles 0 k :=
  tget_foldl_tset_of_not_mem 0 (4096 * tile + ·) xs h _

theorem mem_cells {rows cols : Nat} {x : Nat × Nat} : x ∈ cells rows cols ↔ x.1 < rows ∧ x.2 < cols := by
  obtain ⟨i, j⟩ := x
  simp [cells]

/-- Elements written over a rectangle of a tile, each by its place. -/
theorem tileElem_setTileElems_cells (tr : Troupe) (tile : Nat) {rows cols : Nat} (hcols : cols ≤ 64) (g : Nat → Nat → Word)
    {i j : Nat} (hi : i < rows) (hj : j < cols) :
    tileElem (tr.setTileElems tile ((cells rows cols).map fun x => (64 * x.1 + x.2, g x.1 x.2))) tile i j = g i j := by
  refine tileElem_setTileElems_of_mem tr tile (List.mem_map.2 ⟨(i, j), mem_cells.2 ⟨hi, hj⟩, rfl⟩) fun x hx hk => ?_
  obtain ⟨y, hy, rfl⟩ := List.mem_map.1 hx
  obtain ⟨-, hy2⟩ := mem_cells.1 hy
  dsimp only at hk ⊢
  rw [show y.1 = i by omega, show y.2 = j by omega]

/-- The elements of a whole tile, by their places. -/
def tileWords (g : Nat → Word) : List (Nat × Word) := (List.range 4096).map fun k => (k, g k)

theorem mem_tileWords {g : Nat → Word} {x : Nat × Word} : x ∈ tileWords g ↔ x.1 < 4096 ∧ x.2 = g x.1 := by
  obtain ⟨k, w⟩ := x
  rw [tileWords, List.mem_map]
  constructor
  · rintro ⟨n, hn, he⟩
    obtain ⟨rfl, rfl⟩ := Prod.mk.inj he
    exact ⟨List.mem_range.1 hn, rfl⟩
  · rintro ⟨hk, hw⟩
    exact ⟨k, List.mem_range.2 hk, Prod.ext rfl hw.symm⟩

theorem tileElem_setTileElems_tileWords (tr : Troupe) (tile : Nat) (g : Nat → Word) {i j : Nat} (hi : i < 64) (hj : j < 64) :
    tileElem (tr.setTileElems tile (tileWords g)) tile i j = g (64 * i + j) := by
  have hplace : 64 * i + j < 4096 := by omega
  exact tileElem_setTileElems_of_mem tr tile (mem_tileWords.2 ⟨hplace, rfl⟩) fun x hx hk => by rw [(mem_tileWords.1 hx).2, hk]

/-- A tile that is written leaves every other tile. -/
theorem tiles_setTileElems_tileWords_out (tr : Troupe) (tile : Nat) (g : Nat → Word) {k : Nat}
    (hk : k < 4096 * tile ∨ 4096 * tile + 4096 ≤ k) :
    tget (tr.setTileElems tile (tileWords g)).tiles 0 k = tget tr.tiles 0 k := by
  refine tiles_setTileElems_of_not_mem tr tile fun x hx => ?_
  have hplace := (mem_tileWords.1 hx).1
  omega

/-! ### Operations that end -/

/-- The troupe of an operation that ends with the troupe `x`. -/
theorem troupe_dropOp_setTroupe (s : State) (t id : Nat) (x : Troupe) :
    (dropOp (s.setTroupe t x) t id).troupe t = { x with ops := x.ops.filter fun o => o.id != id } := by
  rw [dropOp, State.troupe_setTroupe_self, State.troupe_setTroupe_self]

/-- An operation that ends by writing elements of a tile. -/
theorem ops_dropOp_setTileElems (s : State) (t id tile : Nat) (xs : List (Nat × Word)) :
    ((dropOp (s.setTroupe t ((s.troupe t).setTileElems tile xs)) t id).troupe t).ops =
      (s.troupe t).ops.filter fun o => o.id != id :=
  (congrArg Troupe.ops (troupe_dropOp_setTroupe _ _ _ _) :)

theorem tiles_dropOp_setTileElems (s : State) (t id tile : Nat) (xs : List (Nat × Word)) :
    ((dropOp (s.setTroupe t ((s.troupe t).setTileElems tile xs)) t id).troupe t).tiles =
      ((s.troupe t).setTileElems tile xs).tiles :=
  (congrArg Troupe.tiles (troupe_dropOp_setTroupe _ _ _ _) :)

/-- Ranges that are freed leave all of a troupe but which of its ranges wait for that (R281). -/
theorem troupe_freeRecords (s : State) (t : Nat) :
    { (freeRecords s t).troupe t with freeing := (s.troupe t).freeing } = s.troupe t := by
  unfold freeRecords
  dsimp only
  split
  · rfl
  · rw [freeRanges, State.troupe_setStage, State.troupe_setTroupe_self]

theorem ops_freeRecords (s : State) (t : Nat) : ((freeRecords s t).troupe t).ops = (s.troupe t).ops :=
  (congrArg Troupe.ops (troupe_freeRecords s t) :)

theorem tiles_freeRecords (s : State) (t : Nat) : ((freeRecords s t).troupe t).tiles = (s.troupe t).tiles :=
  (congrArg Troupe.tiles (troupe_freeRecords s t) :)

theorem tileElem_dropOp_setTileElems (s : State) (t id tile : Nat) (xs : List (Nat × Word)) (i j : Nat) :
    tileElem ((dropOp (s.setTroupe t ((s.troupe t).setTileElems tile xs)) t id).troupe t) tile i j =
      tileElem ((s.troupe t).setTileElems tile xs) tile i j := by
  rw [tileElem, tiles_dropOp_setTileElems, tileElem]

theorem tileElem_freeRecords (s : State) (t tile i j : Nat) :
    tileElem ((freeRecords s t).troupe t) tile i j = tileElem (s.troupe t) tile i j := by
  rw [tileElem, tiles_freeRecords, tileElem]

/-! ### Operands (R113, R115) -/

/-- A word of an operand that is read: the register as it stands, or as it stood at issue, where a free pick says so (R115). -/
def operandWord (s : State) (tr : Troupe) (op : Nat) (x : Nat × Word) : Word :=
  if tr.reg x.1 != x.2 && Config.pick s.picks (op * 2 ^ 20 + x.1) then x.2 else tr.reg x.1

theorem operandWord_cases (s : State) (tr : Troupe) (op : Nat) (x : Nat × Word) :
    operandWord s tr op x = tr.reg x.1 ∨ operandWord s tr op x = x.2 := by
  unfold operandWord
  split
  · exact .inr rfl
  · exact .inl rfl

/-- An MMA whose operands have been read: their words, and the scale bytes of the records that it names. -/
def EngOp.withOperands (o : EngOp) (s : State) (st : Nat) (blk : List Word) (ra rb : Rec) (words : List Word)
    (flag : Option (Fin 12)) : EngOp :=
  ⟨o.id, o.cls, .mma blk [] ra rb words (if (mmaBlock blk).arec = 15 then [] else recBytes s st ra)
    (if (mmaBlock blk).brec = 15 then [] else recBytes s st rb) true flag, o.after, o.taken, o.marks, o.done⟩

/-! ### Bytes that are loaded (R140, R278) -/

/-- A byte that no poisoned part holds is taken as memory holds it. -/
theorem cleanByte_of_clean {s : State} {p : Nat} (h : poisoned s p 1 = false) : cleanByte s p = s.mem.byte p := by
  refine if_neg fun hc => ?_
  have := List.any_eq_false.1 h _ (List.contains_iff_mem.1 hc)
  simp only [overlaps, Bool.and_eq_true, decide_eq_true_eq] at this
  omega

theorem consumeParts_clean {s : State} {rs : List (Nat × Nat)} (h : ∀ r ∈ rs, poisoned s r.1 r.2 = false) (t : Nat) :
    consumeParts s t rs = s := by
  have hnone : (s.poison.filter fun p => rs.any fun r => overlaps r.1 r.2 (8 * p) 8) = [] := by
    refine List.filter_eq_nil_iff.2 fun p hp hany => ?_
    obtain ⟨r, hr, hmeets⟩ := List.any_eq_true.1 hany
    exact List.any_eq_false.1 (h r hr) p hp hmeets
  rw [consumeParts, consumeFor, hnone]
  rfl

/-- What a table lists does not depend on its default. -/
theorem tget_default {V : Type} {m : Table V} {k : Nat} (h : ∃ x ∈ m, x.1 = k) (d e : V) : tget m d k = tget m e k := by
  induction m with
  | nil => obtain ⟨x, hx, -⟩ := h; cases hx
  | cons y m ih =>
    obtain ⟨a, v⟩ := y
    by_cases ha : a = k
    · simp only [tget, if_pos ha]
    · obtain ⟨x, hx, hk⟩ := h
      rcases List.mem_cons.1 hx with rfl | hx
      · exact absurd hk ha
      · simpa only [tget, if_neg ha] using ih ⟨x, hx, hk⟩

/-- A byte of what an operation reads is one that a tile has served, or lies in what is still untaken. -/
theorem served_or_untaken {o : EngOp} {r : Nat × Nat} (hr : r ∈ o.reads) {p : Nat} (hlo : r.1 ≤ p) (hhi : p < r.1 + r.2) :
    (∃ x ∈ o.taken, x.1 = p) ∨ ∃ q ∈ o.untaken, q.1 ≤ p ∧ p + 1 ≤ q.1 + q.2 := by
  by_cases hserved : ∃ x ∈ o.taken, x.1 = p
  · exact .inl hserved
  right
  unfold EngOp.untaken
  split
  · exact ⟨r, hr, hlo, hhi⟩
  · have hread : (p, 1) ∈ o.reads.flatMap fun r => (List.range r.2).map fun k => (r.1 + k, 1) :=
      List.mem_flatMap.2 ⟨r, hr, List.mem_map.2 ⟨p - r.1, List.mem_range.2 (by omega), by rw [Nat.add_sub_cancel' hlo]⟩⟩
    refine ⟨(p, 1), List.mem_filter.2 ⟨hread, ?_⟩, le_refl p, le_refl (p + 1)⟩
    rw [Bool.not_eq_true', List.any_eq_false]
    exact fun x hx hk => hserved ⟨x, hx, eq_of_beq hk⟩

/-- A byte that an operation takes: as a tile served it, or as memory holds it, where no poison is met. -/
theorem taken_byte_clean {s : State} {o : EngOp} (hclean : ∀ r ∈ o.untaken, poisoned s r.1 r.2 = false) {r : Nat × Nat}
    (hr : r ∈ o.reads) {p : Nat} (hlo : r.1 ≤ p) (hhi : p < r.1 + r.2) :
    tget o.taken (cleanByte s p) p = tget o.taken (s.mem.byte p) p := by
  rcases served_or_untaken hr hlo hhi with hserved | ⟨q, hq, hqlo, hqhi⟩
  · exact tget_default hserved _ _
  · rw [cleanByte_of_clean (poisoned_part (hclean q hq) hqlo hqhi)]

theorem leNat_lt (bs : List Byte) : leNat bs < 256 ^ bs.length := by
  induction bs with
  | nil => exact Nat.one_pos
  | cons b bs ih =>
    have hb := b.isLt
    have hcons : leNat (b :: bs) = b.toNat + 256 * leNat bs := rfl
    rw [hcons, List.length_cons, pow_succ]
    omega

/-- The bytes of element `k` of a tile that an operation loads from `a`. -/
def loadedBytes (s : State) (o : EngOp) (a k : Nat) : List Byte :=
  (List.range 4).map fun j => tget o.taken (cleanByte s (a + 4 * k + j)) (a + 4 * k + j)

theorem toNat_loadedBytes (s : State) (o : EngOp) (a k : Nat) :
    (BitVec.ofNat 32 (leNat (loadedBytes s o a k))).toNat = leNat (loadedBytes s o a k) := by
  have hlength : (loadedBytes s o a k).length = 4 := by simp [loadedBytes]
  have hlt := leNat_lt (loadedBytes s o a k)
  rw [hlength] at hlt
  rw [BitVec.toNat_ofNat]
  exact Nat.mod_eq_of_lt hlt

theorem loadedBytes_clean {s : State} {o : EngOp} (hclean : ∀ r ∈ o.untaken, poisoned s r.1 r.2 = false) {a : Nat}
    (hr : (a, 16384) ∈ o.reads) {k : Nat} (hk : k < 4096) : loadedBytes s o a k =
      (List.range 4).map fun j => tget o.taken (s.mem.byte (a + 4 * k + j)) (a + 4 * k + j) := by
  refine List.map_congr_left fun j hj => taken_byte_clean hclean hr (by dsimp only; omega) ?_
  have := List.mem_range.1 hj
  dsimp only
  omega

theorem load_accld {o : EngOp} {tile a : Nat} (hkind : o.kind = .accld tile a) (s : State) (t : Nat) : o.load t s =
    s.setTroupe t ((s.troupe t).setTileElems tile (tileWords fun k => BitVec.ofNat 32 (leNat (loadedBytes s o a k)))) := by
  rw [EngOp.load, hkind]
  rfl

/-- A read that nothing holds back, of clean bytes, is performed (R74, R140, R265). -/
theorem engineRead_ready {s : State} {o : EngOp} {t : Nat} (hafter : ∀ i ∈ o.after, accDone s i = true)
    (hstale : engineStale s o.untaken = []) (hwait : waitsTile s (.engine t o.id) = false)
    (hmay : engineMayRead s o.untaken = true) (hclean : ∀ r ∈ o.untaken, poisoned s r.1 r.2 = false) :
    engineRead s t o = freeRecords (dropOp (o.load t s) t o.id) t := by
  have hdone : (o.after.any fun i => !accDone s i) = false := by simpa using hafter
  simp only [engineRead, hdone, hwait, hstale, hmay, bne_self_eq_false, Bool.not_true, Bool.false_eq_true, if_false]
  rw [engineTake, consumeParts_clean hclean]

/-! ### The unit's turn (R114, R283) -/

section
variable {s : State} {t : Nat} {o : EngOp} (hhead : headMma (s.troupe t) = some o) (hturn : unitTurn s t o = true)
include hhead hturn

/-- The operands of an MMA in turn are read. -/
theorem exec_operandReadCompletion_mma {blk : List Word} {regs : List (Nat × Word)} {ra rb : Rec} {x : List Word} {y z : List Byte}
    {flag : Option (Fin 12)} (hkind : o.kind = .mma blk regs ra rb x y z false flag) :
    exec (.operandReadCompletion t o.id) s =
      let s1 := setOp s t (o.withOperands s (s.troupe t).stage blk ra rb (regs.map (operandWord s (s.troupe t) o.id)) flag)
      .next (freeRecords { s1 with picks := s1.picks + 1 } t) := by
  simp only [exec_operandReadCompletion, execOperandReadCompletion, hhead, hkind, hturn, bne_self_eq_false, Bool.not_true,
    Bool.false_eq_true, if_false]
  rfl

/-- An MMA whose operands have been read replaces the elements of its accumulator. -/
theorem exec_mmaCompletion_mma {blk : List Word} {regs : List (Nat × Word)} {ra rb : Rec} {words : List Word} {sa sb : List Byte}
    {flag : Option (Fin 12)} (hkind : o.kind = .mma blk regs ra rb words sa sb true flag) :
    exec (.mmaCompletion t o.id) s =
      let m := mmaArgs blk ra rb words sa sb
      .next (dropOp (s.setTroupe t ((s.troupe t).setTileElems m.blk.acc ((cells 64 (shapeN m.blk.shape)).map fun x =>
        (64 * x.1 + x.2, mmaElem m (tileElem (s.troupe t) m.blk.acc x.1 x.2) x.1 x.2)))) t o.id) := by
  simp only [exec_mmaCompletion, execMmaCompletion, hhead, hkind, hturn, bne_self_eq_false, Bool.not_true, Bool.or_self,
    Bool.false_eq_true, if_false]

theorem exec_mmaCompletion_accz {tile : Nat} (hkind : o.kind = .accz tile) : exec (.mmaCompletion t o.id) s =
    .next (dropOp (s.setTroupe t ((s.troupe t).setTileElems tile (tileWords fun _ => 0))) t o.id) := by
  simp only [exec_mmaCompletion, execMmaCompletion, hhead, hkind, hturn, bne_self_eq_false, Bool.not_true, Bool.or_self,
    Bool.false_eq_true, if_false, tileWords]

theorem exec_mmaCompletion_accld {tile a : Nat} (hkind : o.kind = .accld tile a) :
    exec (.mmaCompletion t o.id) s = .next (engineRead s t o) := by
  simp only [exec_mmaCompletion, execMmaCompletion, hhead, hkind, hturn, bne_self_eq_false, Bool.not_true, Bool.or_self,
    Bool.false_eq_true, if_false]

theorem matrixUnit_operandRead {blk : List Word} {regs : List (Nat × Word)} {ra rb : Rec} {x : List Word} {y z : List Byte}
    {flag : Option (Fin 12)} (hkind : o.kind = .mma blk regs ra rb x y z false flag) :
    ∃ u words, exec (.operandReadCompletion t o.id) s = .next u ∧ words.length = regs.length ∧
      (∀ i, (h : i < words.length) →
        words[i] = (s.troupe t).reg ((regs.map Prod.fst).getD i 0) ∨ words[i] = (regs.map Prod.snd).getD i 0) ∧
      (u.troupe t).ops = (s.troupe t).ops.map fun p =>
        if p.id = o.id then o.withOperands s (s.troupe t).stage blk ra rb words flag else p := by
  refine ⟨_, regs.map (operandWord s (s.troupe t) o.id), exec_operandReadCompletion_mma hhead hturn hkind, List.length_map _,
    fun i hi => ?_, ?_⟩
  · rw [List.length_map] at hi
    simpa [hi] using operandWord_cases s (s.troupe t) o.id regs[i]
  · rw [ops_freeRecords]
    exact congrArg Troupe.ops (State.troupe_setTroupe_self _ _ _)

theorem matrixUnit_mma {blk : List Word} {regs : List (Nat × Word)} {ra rb : Rec} {words : List Word} {sa sb : List Byte}
    {flag : Option (Fin 12)} (hkind : o.kind = .mma blk regs ra rb words sa sb true flag) :
    ∃ u, exec (.mmaCompletion t o.id) s = .next u ∧ (u.troupe t).ops = (s.troupe t).ops.filter (fun p => p.id != o.id) ∧
      let m := mmaArgs blk ra rb words sa sb
      (∀ i < 64, ∀ j < shapeN m.blk.shape,
        tileElem (u.troupe t) m.blk.acc i j = mmaElem m (tileElem (s.troupe t) m.blk.acc i j) i j) ∧
      { u.troupe t with ops := (s.troupe t).ops, tiles := (s.troupe t).tiles } = s.troupe t ∧
      ∀ x, u.mem.byte x = s.mem.byte x := by
  have hcols : shapeN (mmaArgs blk ra rb words sa sb).blk.shape ≤ 64 := by
    unfold shapeN
    split <;> decide
  refine ⟨_, exec_mmaCompletion_mma hhead hturn hkind, ops_dropOp_setTileElems _ _ _ _ _, fun i hi j hj => ?_, ?_, fun x => rfl⟩
  · rw [tileElem_dropOp_setTileElems]
    exact tileElem_setTileElems_cells (s.troupe t) _ hcols
      (fun i j => mmaElem (mmaArgs blk ra rb words sa sb) (tileElem (s.troupe t) _ i j) i j) hi hj
  · rw [troupe_dropOp_setTroupe]
    rfl

theorem matrixUnit_accz {tile : Nat} (hkind : o.kind = .accz tile) :
    ∃ u, exec (.mmaCompletion t o.id) s = .next u ∧ (u.troupe t).ops = (s.troupe t).ops.filter (fun p => p.id != o.id) ∧
      (∀ i < 64, ∀ j < 64, tileElem (u.troupe t) tile i j = 0) ∧
      ∀ k, (k < 4096 * tile ∨ 4096 * tile + 4096 ≤ k) → tget (u.troupe t).tiles 0 k = tget (s.troupe t).tiles 0 k := by
  refine ⟨_, exec_mmaCompletion_accz hhead hturn hkind, ops_dropOp_setTileElems _ _ _ _ _, fun i hi j hj => ?_, fun k hk => ?_⟩
  · rw [tileElem_dropOp_setTileElems, tileElem_setTileElems_tileWords _ _ _ hi hj]
  · rw [tiles_dropOp_setTileElems, tiles_setTileElems_tileWords_out _ _ _ hk]

theorem matrixUnit_accld {tile a : Nat} (hkind : o.kind = .accld tile a) (hafter : ∀ i ∈ o.after, accDone s i = true)
    (hstale : engineStale s o.untaken = []) (hwait : waitsTile s (.engine t o.id) = false)
    (hmay : engineMayRead s o.untaken = true) (hclean : ∀ r ∈ o.untaken, poisoned s r.1 r.2 = false) :
    ∃ u, exec (.mmaCompletion t o.id) s = .next u ∧ (u.troupe t).ops = (s.troupe t).ops.filter (fun p => p.id != o.id) ∧
      ∀ i < 64, ∀ j < 64, (tileElem (u.troupe t) tile i j).toNat = leNat ((List.range 4).map fun k =>
        let p := a + 4 * (64 * i + j) + k
        tget o.taken (s.mem.byte p) p) := by
  have hreads : (a, 16384) ∈ o.reads := by simp [EngOp.reads, hkind]
  have hexec := exec_mmaCompletion_accld hhead hturn hkind
  rw [engineRead_ready hafter hstale hwait hmay hclean, load_accld hkind] at hexec
  refine ⟨_, hexec, ?_, fun i hi j hj => ?_⟩
  · rw [ops_freeRecords, ops_dropOp_setTileElems]
  · rw [tileElem_freeRecords, tileElem_dropOp_setTileElems, tileElem_setTileElems_tileWords _ _ _ hi hj, toNat_loadedBytes,
      loadedBytes_clean hclean hreads (by omega)]

end

/-- Settles O23, by the kind of the operation in turn. -/
theorem matrixUnit : Obligations.MatrixUnit := fun _ _ _ hhead =>
  ⟨fun _ _ _ _ _ _ _ _ hkind hturn => matrixUnit_operandRead hhead hturn hkind,
    fun _ _ _ _ _ _ _ _ hkind hturn => matrixUnit_mma hhead hturn hkind,
    fun _ hkind hturn => matrixUnit_accz hhead hturn hkind,
    fun _ _ hkind hturn hafter hstale hwait => matrixUnit_accld hhead hturn hkind hafter hstale hwait⟩

end Sys2Proof.Machine
end

section
/-! SUPPORT. How an instruction that begins an engine operation ends: its threads go on, the bundle stalls on the counter of the
class, or all of Active traps (R120, R264). -/

namespace Sys2Proof.Machine

open Sys2Proof

/-! ### The end of an instruction of Active -/

theorem Ctx.not_idle {c : Ctx} (hact : c.act ≠ 0) : c.idle = false := by simpa [Ctx.idle] using hact

theorem hasLane_low {c : Ctx} (hact : c.act ≠ 0) : hasLane c.act c.low = true := (lowLane_spec hact).1

/-- A trap of all of Active. -/
theorem trapsAll_of_exec {i : Instr} {s : State} {c : Ctx} {code : Nat} {val : Dword}
    (h : exec i s = .next (finish c (.trap s.begun (c.trapInfo code c.act val)))) : TrapsAll i s c code val :=
  ⟨_, h, rfl, rfl, rfl, rfl, rfl, rfl, rfl⟩

theorem thread_finish_ok (c : Ctx) (z : State) (l : Nat) : (finish c (.ok z)).thread c.t l =
    if hasLane c.mask l then (z.thread c.t l).advance c.hdr else z.thread c.t l := thread_mapLanes _ _ _ _ _

/-- The threads go on from a state that has left them as they were. -/
theorem allMoved_finish_ok {c : Ctx} {s z : State} (h : ∀ l, z.thread c.t l = s.thread c.t l) :
    AllMoved c s (finish c (.ok z)) :=
  ⟨fun l hl => by rw [thread_finish_ok, if_pos hl, h], fun l hl => by rw [thread_finish_ok, if_neg (by simp [hl]), h]⟩

/-- A bundle that stalls as a whole. -/
theorem thread_finish_stalled (c : Ctx) (z : State) (w : Wait) (l : Nat) : (finish c (.part z c.mask w)).thread c.t l =
    if hasLane c.mask l then { z.thread c.t l with st := .stalled, wait := w } else z.thread c.t l := by
  rw [thread_finish_part]
  split
  · rename_i hl
    rw [hl, Bool.or_true, Bool.not_true, Bool.and_false, if_neg Bool.false_ne_true]
  · rename_i hl
    rw [Bool.eq_false_iff.2 hl, Bool.false_and, if_neg Bool.false_ne_true]

theorem onlyTroupe_finish_part {c : Ctx} {s z : State} (h : OnlyTroupe c.t s z) (m : Mask) (w : Wait) :
    OnlyTroupe c.t s (finish c (.part z m w)) := onlyTroupe_mapLanes (onlyTroupe_mapLanes h _ _) _ _

/-! ### Operations that begin (R120) -/

theorem troupe_addOp (s : State) (t : Nat) (cls : Eng) (kind : EngKind) (after : List Nat) :
    (addOp s t cls kind after).troupe t =
      { s.troupe t with ops := (s.troupe t).ops ++ [⟨s.nextId, cls, kind, after, [], none, false⟩] } :=
  State.troupe_setTroupe_self _ _ _

theorem troupe_addOp_ne (s : State) {t v : Nat} (hv : v ≠ t) (cls : Eng) (kind : EngKind) (after : List Nat) :
    (addOp s t cls kind after).troupe v = s.troupe v := State.troupe_setTroupe_ne _ _ hv

theorem thread_addOp (s : State) (t : Nat) (cls : Eng) (kind : EngKind) (after : List Nat) (l : Nat) :
    (addOp s t cls kind after).thread t l = s.thread t l := by
  rw [State.thread, troupe_addOp]
  rfl

/-- A troupe has one more operation of the class that begins, and as many of every other. -/
theorem counter_append (tr : Troupe) (o : EngOp) (cls : Eng) :
    ({ tr with ops := tr.ops ++ [o] } : Troupe).counter cls = tr.counter cls + if o.cls = cls then 1 else 0 := by
  rw [Troupe.counter, List.filter_append, List.length_append, List.filter_singleton, Troupe.counter]
  by_cases h : o.cls = cls
  · rw [if_pos h, beq_iff_eq.2 h]
    rfl
  · rw [if_neg h, beq_eq_false_iff_ne.2 h]
    rfl

theorem counter_addOp (s : State) (t : Nat) (cls : Eng) (kind : EngKind) (after : List Nat) :
    ((addOp s t cls kind after).troupe t).counter cls = (s.troupe t).counter cls + 1 := by
  rw [troupe_addOp, counter_append, if_pos rfl]

theorem counterFull_eq_false {s : State} {t n : Nat} {cls : Eng} (h : (s.troupe t).counter cls + n ≤ 63) :
    counterFull s t cls n = false := decide_eq_false (by omega)

theorem startOp_ok {s : State} {c : Ctx} {cls : Eng} (h : (s.troupe c.t).counter cls < 63) (kind : EngKind) (after : List Nat) :
    startOp s c cls kind after = .ok (addOp s c.t cls kind after) := by
  rw [startOp, counterFull_eq_false h]
  rfl

theorem startOp_full {s : State} {c : Ctx} {cls : Eng} (h : 63 ≤ (s.troupe c.t).counter cls) (kind : EngKind) (after : List Nat) :
    startOp s c cls kind after = .part s c.mask (.counter cls 62) := if_pos (decide_eq_true (by omega))

theorem started_finish (s : State) (c : Ctx) (cls : Eng) (kind : EngKind) (after : List Nat) :
    Started c cls kind after s (finish c (.ok (addOp s.begun c.t cls kind after))) where
  rest := rfl
  others v hv := (State.troupe_mapLanes_ne _ _ _ hv).trans (troupe_addOp_ne _ hv _ _ _)
  troupe := by
    rw [troupe_finish_ok, troupe_addOp]
    exact (congrArg (fun x : Troupe => { x with ops := (s.troupe c.t).ops }) (Troupe.mapLanes_rest _ _ _) :)
  ops := by
    rw [troupe_finish_ok, Troupe.mapLanes_ops, troupe_addOp]
    rfl
  moved := allMoved_finish_ok fun l => thread_addOp _ _ _ _ _ l

/-- An instruction that comes to the begin of an operation, where its counter leaves room. -/
theorem started_of_startOp {i : Instr} {s : State} {c : Ctx} {cls : Eng} {kind : EngKind} {after : List Nat}
    (hexec : exec i s = .next (finish c (startOp s.begun c cls kind after))) (hroom : (s.troupe c.t).counter cls < 63) :
    ∃ t, exec i s = .next t ∧ Started c cls kind after s t :=
  ⟨_, by rw [hexec, startOp_ok (s := s.begun) hroom], started_finish s c cls kind after⟩

end Sys2Proof.Machine
end

section
/-! SUPPORT. The matrix instructions as they issue (R111, R115, R116, R119, R265, R277-R281), and the statement on them. -/

namespace Sys2Proof.Machine

open Sys2Proof

/-! ### MMA (R111, R277) -/

/-- The words of a block of four uniform registers. -/
def blockWords (s : State) (c : Ctx) (a : Opd) : List Word := (List.range 4).map fun k => readPart s c c.low a k 0

/-- The words of `n` operand registers from `base`, each with its register. -/
def operandWords (s : State) (tr : Troupe) (base n : Nat) : List (Nat × Word) :=
  (List.range (32 * n)).map fun w => (vKey (base + w / 32) (w % 32), readReg s tr (vKey (base + w / 32) (w % 32)) 0)

/-- The operation that an MMA with the block `ws` starts. -/
def mmaKind (s : State) (c : Ctx) (ws : List Word) : EngKind :=
  let tr := s.troupe c.t
  let b := mmaBlock ws
  .mma ws (operandWords s.begun tr b.abase (shapeRegs b.shape).1 ++ operandWords s.begun tr b.bbase (shapeRegs b.shape).2)
    (tr.record b.arec) (tr.record b.brec) [] [] [] false ((s.thread c.t c.low).selFlag c.hdr)

section
variable {h : Hdr} {a : Opd} {s : State} {c : Ctx} (hi : Issues (.mma h a) s c) (hact : c.act ≠ 0)
include hi hact

theorem exec_mma_passes (hcheck : mmaCheck (s.runOf c.t) (s.troupe c.t) (mmaBlock (blockWords s.begun c a)) = none) :
    exec (.mma h a) s = .next (finish c (startOp s.begun c .mma (mmaKind s c (blockWords s.begun c a)) [])) := by
  have hmatch : mmaCheck (s.begun.runOf c.t) (s.begun.troupe c.t)
    (mmaBlock ((List.range 4).map fun k => blockWord s.begun c a k)) = none := hcheck
  rw [exec_mma, execMma, issue_next hi, Ctx.not_idle hact, if_neg Bool.false_ne_true]
  dsimp only
  rw [hmatch, List.map_append, fragKeys, fragKeys, List.map_map, List.map_map]
  rfl

theorem exec_mma_fails {x : Nat × Option Nat}
    (hcheck : mmaCheck (s.runOf c.t) (s.troupe c.t) (mmaBlock (blockWords s.begun c a)) = some x) :
    exec (.mma h a) s = .next (finish c (.trap s.begun (codeTrap s.begun c x.1 x.2))) := by
  have hmatch : mmaCheck (s.begun.runOf c.t) (s.begun.troupe c.t)
    (mmaBlock ((List.range 4).map fun k => blockWord s.begun c a k)) = some x := hcheck
  rw [exec_mma, execMma, issue_next hi, Ctx.not_idle hact, if_neg Bool.false_ne_true]
  dsimp only
  rw [hmatch]

theorem mma_counter_full (hcheck : mmaCheck (s.runOf c.t) (s.troupe c.t) (mmaBlock (blockWords s.begun c a)) = none)
    (hfull : 63 ≤ (s.troupe c.t).counter .mma) : ∃ t, exec (.mma h a) s = .next t ∧ OnlyTroupe c.t s t ∧
      ∀ l, t.thread c.t l = if hasLane c.mask l then { s.thread c.t l with st := .stalled, wait := .counter .mma 62 }
        else s.thread c.t l :=
  ⟨_, by rw [exec_mma_passes hi hact hcheck, startOp_full (s := s.begun) hfull], onlyTroupe_finish_part (onlyTroupe_begun _ _) _ _,
    thread_finish_stalled c s.begun _⟩

end

/-- The value of a trap: the one that the check states, or for ILLOP the PC. -/
theorem codeTrap_spec (s : State) (c : Ctx) (code : Nat) (val : Option Nat) :
    ∃ v, codeTrap s c code val = c.trapInfo code c.act v ∧ (∀ n, val = some n → v = BitVec.ofNat 64 n) ∧
      (code = 0x01 → val = none → v = c.pc.setWidth 64) := by
  refine ⟨_, rfl, ?_, ?_⟩
  · rintro n rfl
    rfl
  · rintro rfl rfl
    rfl

/-! ### Tiles and scale codes (R278, R281) -/

section
variable {h : Hdr} {base : Opd} {s : State} {c : Ctx} (hact : c.act ≠ 0)
include hact

theorem tileOp_passes (hu : Agree c (readPair s c · base 0)) {tile : Nat} (htile : tile < (s.runOf c.t).acct) {writes : Bool}
    (haddr : engineAddr s c.t (readPair s c c.low base 0) 256 16384 writes = none) (kind : Nat → EngKind) (after : List Nat) :
    tileOp c s base tile writes kind after =
      startOp s c .mma (kind (physOf s c.t c.low (readPair s c c.low base 0))) after := by
  rw [tileOp, Ctx.not_idle hact, if_neg Bool.false_ne_true, uniformTrap_none hu]
  dsimp only
  rw [if_neg (by omega), haddr]

theorem exec_accz_passes {tile : Fin 64} (hi : Issues (.accz h tile) s c) (htile : tile.val < (s.runOf c.t).acct) :
    exec (.accz h tile) s = .next (finish c (startOp s.begun c .mma (.accz tile.val) [])) := by
  have hle : ¬(tile.val ≥ (s.begun.runOf c.t).acct) := Nat.not_le.2 htile
  rw [exec_accz, execAccz, issue_next hi, Ctx.not_idle hact, if_neg Bool.false_ne_true, if_neg hle]

theorem accz_traps {tile : Fin 64} (hi : Issues (.accz h tile) s c) (htile : (s.runOf c.t).acct ≤ tile.val) :
    TrapsAll (.accz h tile) s c 0x02 (BitVec.ofNat 64 tile.val) := by
  have hge : tile.val ≥ (s.begun.runOf c.t).acct := htile
  refine trapsAll_of_exec ?_
  rw [exec_accz, execAccz, issue_next hi, Ctx.not_idle hact, if_neg Bool.false_ne_true, if_pos hge]
  rfl

theorem exec_ldscl_passes {r : Fin 15} {n : Imm} (hi : Issues (.ldscl h r base n) s c)
    (hu : Agree c (readPair s.begun c · base 0)) (hn : n.toNat ≠ 0) (hdvd : 64 ∣ n.toNat)
    (hused : ((s.troupe c.t).record r.val).used = true) (hlen : n.toNat ≤ 64 * ((s.troupe c.t).record r.val).len)
    (haddr : engineAddr s.begun c.t (readPair s.begun c c.low base 0) 64 n.toNat false = none) :
    exec (.ldscl h r base n) s = .next (finish c (startOp s.begun c .mma (.ldscl ((s.troupe c.t).record r.val)
      (physOf s c.t c.low (readPair s.begun c c.low base 0)) n.toNat) (storeIds s c.t))) := by
  have hill : ¬(n.toNat = 0 || n.toNat % 64 != 0) = true := by simp [hn, Nat.mod_eq_zero_of_dvd hdvd]
  have hreg : ¬(!((s.begun.troupe c.t).record r.val).used ||
      decide (n.toNat > 64 * ((s.begun.troupe c.t).record r.val).len)) = true := by
    have hused : ((s.begun.troupe c.t).record r.val).used = true := hused
    have hlen : n.toNat ≤ 64 * ((s.begun.troupe c.t).record r.val).len := hlen
    simp [hused, hlen]
  rw [exec_ldscl, execLdscl, issue_next hi, Ctx.not_idle hact, if_neg Bool.false_ne_true, uniformTrap_none hu]
  dsimp only
  rw [if_neg hill, if_neg hreg, haddr]
  rfl

theorem exec_accld_passes {tile : Fin 64} (hi : Issues (.accld h base tile) s c) (hu : Agree c (readPair s.begun c · base 0))
    (htile : tile.val < (s.runOf c.t).acct)
    (haddr : engineAddr s.begun c.t (readPair s.begun c c.low base 0) 256 16384 false = none) :
    exec (.accld h base tile) s = .next (finish c (startOp s.begun c .mma
      (.accld tile.val (physOf s c.t c.low (readPair s.begun c c.low base 0))) (storeIds s c.t))) := by
  rw [exec_accld, execAccld, issue_next hi, tileOp_passes (s := s.begun) hact hu htile haddr]
  rfl

theorem exec_accst_passes {tile : Fin 64} (hi : Issues (.accst h base tile) s c) (hu : Agree c (readPair s.begun c · base 0))
    (htile : tile.val < (s.runOf c.t).acct)
    (haddr : engineAddr s.begun c.t (readPair s.begun c c.low base 0) 256 16384 true = none) :
    exec (.accst h base tile) s = .next (finish c (startOp s.begun c .mma
      (.accst tile.val (physOf s c.t c.low (readPair s.begun c c.low base 0))) [])) := by
  rw [exec_accst, execAccst, issue_next hi, tileOp_passes (s := s.begun) hact hu htile haddr]
  rfl

end

/-! ### ACCOUT (R279, R119) -/

/-- No check of the addresses of an ACCOUT fails. -/
theorem outAddr_none {s : State} {t : Nat} {b : OutBlock} {x y : Dword} (hstride : 4 ∣ b.stride)
    (haddr : engineAddr s t x 4 b.rowBytes false = none)
    (hrows : ∀ i < b.rows, offOf x % 2 ^ 34 + i * b.stride < 2 ^ 34 ∧
      boundsCheck s t (x + BitVec.ofNat 64 (i * b.stride)) b.rowBytes = none ∧
      inDerived s (physOf s t 0 x + i * b.stride) b.rowBytes = false)
    (hscale : b.mx = true → engineAddr s t y 1 b.scales false = none ∧ inDerived s (physOf s t 0 y) b.scales = false) :
    outAddr s t b x y = none := by
  have hbounds : ((List.range b.rows).map fun i => i * b.stride).findSome? (fun o =>
      if 2 ^ 34 ≤ offOf x % 2 ^ 34 + o then some 0x13 else boundsCheck s t (x + BitVec.ofNat 64 o) b.rowBytes) = none := by
    refine List.findSome?_eq_none_iff.2 fun o ho => ?_
    obtain ⟨i, hi, rfl⟩ := List.mem_map.1 ho
    obtain ⟨hoff, hin, -⟩ := hrows i (List.mem_range.1 hi)
    rw [if_neg (Nat.not_le.2 hoff), hin]
  have hwrites : (((List.range b.rows).map fun i => i * b.stride).any fun o =>
      inDerived s (physOf s t 0 x + o) b.rowBytes) = false := by
    refine List.any_eq_false.2 fun o ho => ?_
    obtain ⟨i, hi, rfl⟩ := List.mem_map.1 ho
    obtain ⟨-, -, hder⟩ := hrows i (List.mem_range.1 hi)
    rw [hder]
    exact Bool.false_ne_true
  have hscales : (if b.mx then ((engineAddr s t y 1 b.scales false).map fun code => (code, y)).toList else []) = [] := by
    cases hmx : b.mx with
    | false => rfl
    | true => rw [(hscale hmx).1]; rfl
  have hmx : (b.mx && inDerived s (physOf s t 0 y) b.scales) = false := by
    cases hmx : b.mx with
    | false => rfl
    | true => rw [(hscale hmx).2]; rfl
  have hmod : (b.stride % 4 != 0) = false := by rw [Nat.mod_eq_zero_of_dvd hstride]; rfl
  unfold outAddr
  dsimp only
  rw [haddr, Option.orElse_none, hbounds, hscales, hmod, hwrites, hmx]
  rfl

/-- How many draws an ACCOUT makes: one for each element under mode sr. -/
def OutBlock.draws (b : OutBlock) : Nat := if b.int || b.rnd != 5 then 0 else b.rows * b.cols

/-- A state in which the draws of an ACCOUT have been made (R119): the generator, or the conversion count of the issuing lane in a
deterministic run, has moved on. -/
structure OutDrawn (c : Ctx) (n : Nat) (s z : State) : Prop where
  rest    : { z with troupes := s.troupes } = s
  others  : ∀ v, v ≠ c.t → z.troupe v = s.troupe v
  troupe  : { z.troupe c.t with threads := (s.troupe c.t).threads, srState := (s.troupe c.t).srState } = s.troupe c.t
  srState : (z.troupe c.t).srState =
    if (s.runOf c.t).determ then (s.troupe c.t).srState else Nat.iterate srStep n (s.troupe c.t).srState
  threads : ∀ l, z.thread c.t l = { s.thread c.t l with
    conv := (s.thread c.t l).conv + BitVec.ofNat 32 (if (s.runOf c.t).determ && l == c.low then n else 0) }

theorem outDrawn_zero (c : Ctx) (s : State) : OutDrawn c 0 s s where
  rest := rfl
  others _ _ := rfl
  troupe := rfl
  srState := (ite_self _).symm
  threads l := by rw [ite_self, BitVec.add_zero]

theorem outDraws_drawn (s : State) {c : Ctx} (hact : c.act ≠ 0) (b : OutBlock) : OutDrawn c b.draws s (outDraws s c b) := by
  unfold outDraws OutBlock.draws
  dsimp only
  split
  · exact outDrawn_zero c s
  · cases hdet : (s.runOf c.t).determ with
    | true =>
      refine ⟨rfl, fun v hv => State.troupe_mapLanes_ne _ _ _ hv, ?_, ?_, fun l => ?_⟩
      · exact (congrArg (fun x : Troupe => { x with srState := (s.troupe c.t).srState }) (troupe_mapLanes_rest s c.t _ _) :)
      · rw [hdet, if_pos rfl, if_pos rfl, State.troupe_mapLanes_self, Troupe.mapLanes_srState]
      · rw [if_pos rfl, thread_mapLanes, hasLane_laneBit (lt_of_hasLane (hasLane_low hact)), hdet, Bool.true_and]
        by_cases hl : l = c.low
        · simp [hl]
        · simp [hl]
    | false =>
      refine ⟨rfl, fun v hv => State.troupe_setTroupe_ne _ _ hv, ?_, ?_, fun l => ?_⟩
      · rw [if_neg Bool.false_ne_true, State.troupe_setTroupe_self]
      · rw [if_neg Bool.false_ne_true, State.troupe_setTroupe_self, hdet]
        rfl
      · rw [if_neg Bool.false_ne_true, State.thread, State.troupe_setTroupe_self, hdet, Bool.false_and, if_neg Bool.false_ne_true,
          BitVec.add_zero]
        rfl

/-- The operation that an ACCOUT with the block `ws`, its rows at `x` and its scale bytes at `y`, starts. -/
def outKind (s : State) (c : Ctx) (ws : List Word) (x y : Dword) : EngKind :=
  let tr := s.troupe c.t
  .accout ws (physOf s c.t c.low x) (physOf s c.t c.low y) c.low (if (s.runOf c.t).determ then tr.srSeed else tr.srState)
    (s.thread c.t c.low).conv (s.thread c.t c.low).item

section
variable {h : Hdr} {a dest scale : Opd} {s : State} {c : Ctx} (hi : Issues (.accout h a dest scale) s c) (hact : c.act ≠ 0)
  (hdest : Agree c (readPair s.begun c · dest 1)) (hscale : Agree c (readPair s.begun c · scale 2))
  (hill : outIllop (outBlock (blockWords s.begun c a)) (scale == .rz) = false)
  (hacc : (outBlock (blockWords s.begun c a)).acc < (s.runOf c.t).acct)
  (haddr : outAddr s.begun c.t (outBlock (blockWords s.begun c a)) (readPair s.begun c c.low dest 1)
    (readPair s.begun c c.low scale 2) = none) (hroom : (s.troupe c.t).counter .mma < 63)
include hi hact hdest hscale hill hacc haddr hroom

theorem exec_accout_passes : exec (.accout h a dest scale) s = .next (finish c
    (startOp (outDraws s.begun c (outBlock (blockWords s.begun c a))) c .mma
      (outKind s c (blockWords s.begun c a) (readPair s.begun c c.low dest 1) (readPair s.begun c c.low scale 2)) [])) := by
  have hws : ((List.range 4).map fun k => blockWord s.begun c a k) = blockWords s.begun c a := rfl
  have hle : ¬((outBlock (blockWords s.begun c a)).acc ≥ (s.begun.runOf c.t).acct) := Nat.not_le.2 hacc
  rw [exec_accout, execAccout, issue_next hi, Ctx.not_idle hact, if_neg Bool.false_ne_true, uniformTrap_none hdest,
    uniformTrap_none hscale]
  dsimp only
  rw [hws, hill, if_neg Bool.false_ne_true, if_neg hle, haddr]
  dsimp only
  rw [counterFull_eq_false (s := s.begun) hroom, if_neg Bool.false_ne_true]
  rfl

/-- The operation begins once the draws have been made. -/
theorem accout_starts : ∃ z, OutDrawn c (outBlock (blockWords s.begun c a)).draws s.begun z ∧
    exec (.accout h a dest scale) s = .next (finish c (.ok (addOp z c.t .mma
      (outKind s c (blockWords s.begun c a) (readPair s.begun c c.low dest 1) (readPair s.begun c c.low scale 2)) []))) := by
  have hz := outDraws_drawn s.begun hact (outBlock (blockWords s.begun c a))
  have hops : ((outDraws s.begun c (outBlock (blockWords s.begun c a))).troupe c.t).ops = (s.troupe c.t).ops :=
    (congrArg Troupe.ops hz.troupe :)
  refine ⟨_, hz, ?_⟩
  rw [exec_accout_passes hi hact hdest hscale hill hacc haddr hroom, startOp_ok]
  rw [Troupe.counter, hops]
  exact hroom

end

theorem onlyTroupe_addOp {u : Nat} {s z : State} (h : OnlyTroupe u s z) (cls : Eng) (kind : EngKind) (after : List Nat) :
    OnlyTroupe u s (addOp z u cls kind after) where
  rest := h.rest
  others v hv := (troupe_addOp_ne _ hv _ _ _).trans (h.others v hv)
  bytes := h.bytes

/-- What an ACCOUT that begins its operation on the state after its draws leaves. -/
theorem outDrawn_finish {c : Ctx} {n : Nat} {s z : State} (hz : OutDrawn c n s.begun z) (kind : EngKind) :
    let t := finish c (.ok (addOp z c.t .mma kind []))
    let tr := s.troupe c.t
    let det := (s.runOf c.t).determ
    OnlyTroupe c.t s t ∧ (t.troupe c.t).ops = tr.ops ++ [⟨s.nextId, .mma, kind, [], [], none, false⟩] ∧
      { t.troupe c.t with threads := tr.threads, ops := tr.ops, srState := tr.srState } = tr ∧
      (t.troupe c.t).srState = (if det then tr.srState else Nat.iterate srStep n tr.srState) ∧
      ∀ l, hasLane c.mask l = true → t.thread c.t l = { (s.thread c.t l).advance c.hdr with
        conv := (s.thread c.t l).conv + BitVec.ofNat 32 (if det && l == c.low then n else 0) } := by
  intro t tr det
  have houter : OnlyTroupe c.t s z :=
    ⟨(congrArg (fun x : State => { x with picks := s.picks, nextId := s.nextId }) hz.rest :), hz.others,
      fun x => congrArg (Memory.byte · x) (congrArg State.mem hz.rest :)⟩
  have hops : (z.troupe c.t).ops = tr.ops := (congrArg Troupe.ops hz.troupe :)
  have hid : z.nextId = s.nextId := (congrArg State.nextId hz.rest :)
  have htroupe : t.troupe c.t = Troupe.mapLanes { z.troupe c.t with
      ops := tr.ops ++ [⟨s.nextId, .mma, kind, [], [], none, false⟩] } c.mask fun _ th => th.advance c.hdr := by
    rw [troupe_finish_ok, troupe_addOp, hops, hid]
  refine ⟨onlyTroupe_finish_ok (onlyTroupe_addOp houter _ _ _), ?_, ?_, ?_, fun l hl => ?_⟩
  · rw [htroupe, Troupe.mapLanes_ops]
  · rw [htroupe]
    have hlanes := congrArg (fun x : Troupe => { x with threads := tr.threads, ops := tr.ops, srState := tr.srState })
      (Troupe.mapLanes_rest { z.troupe c.t with ops := tr.ops ++ [⟨s.nextId, .mma, kind, [], [], none, false⟩] } c.mask
        fun _ th => th.advance c.hdr)
    exact (hlanes :).trans (congrArg (fun x : Troupe => { x with ops := tr.ops }) hz.troupe :)
  · rw [htroupe, Troupe.mapLanes_srState]
    exact hz.srState
  · rw [thread_finish_ok, if_pos hl, thread_addOp, hz.threads]
    rfl

/-! ### Records (R116, R281) -/

/-- A place for `n` bytes in an operand buffer: 64-byte aligned, inside, and off every range. -/
def FreeAt (ranges : List (Nat × Nat)) (n o : Nat) : Prop :=
  o % 64 = 0 ∧ o + n ≤ 65536 ∧ ∀ x ∈ ranges, overlaps o n x.1 x.2 = false

theorem freeAt_iff (ranges : List (Nat × Nat)) (n k : Nat) : FreeAt ranges n (64 * k) ↔
    (decide (64 * k + n ≤ 65536) && !ranges.any fun r => overlaps (64 * k) n r.1 r.2) = true := by
  simp only [FreeAt, Nat.mul_mod_right, true_and, Bool.and_eq_true, decide_eq_true_eq, Bool.not_eq_true', List.any_eq_false,
    Bool.not_eq_true]

/-- The lowest place. -/
theorem freeRun_some {ranges : List (Nat × Nat)} {n o : Nat} (hn : n ≠ 0) (hfits : FreeAt ranges n o)
    (hlow : ∀ p, p < o → ¬FreeAt ranges n p) : freeRun ranges n = some o := by
  obtain ⟨k, rfl⟩ : ∃ k, o = 64 * k := ⟨o / 64, by have := hfits.1; omega⟩
  have hk : k < 1024 := by have := hfits.2.1; omega
  rw [freeRun, List.find?_map, List.find?_range_eq_some.2 ⟨(freeAt_iff _ _ _).1 hfits, List.mem_range.2 hk, fun j hj => ?_⟩]
  · rfl
  · rw [Bool.not_eq_true', Bool.eq_false_iff]
    exact fun h => hlow (64 * j) (by omega) ((freeAt_iff _ _ _).2 h)

theorem freeRun_none {ranges : List (Nat × Nat)} {n : Nat} (h : ∀ o, ¬FreeAt ranges n o) : freeRun ranges n = none := by
  rw [freeRun, List.find?_map, List.find?_range_eq_none.2 fun j _ => ?_]
  · rfl
  · rw [Bool.not_eq_true', Bool.eq_false_iff]
    exact fun hj => h (64 * j) ((freeAt_iff _ _ _).2 hj)

/-- The record that an RSVOP of the word `w` reserves at `off`. -/
def reserved (w : Word) (off : Nat) : Rec := ⟨true, w.toNat % 4, w.getLsbD 2, w.getLsbD 3, w.toNat / 32 % 2048, off⟩

/-- The state in which an RSVOP has taken its range. -/
def reserve (s : State) (t : Nat) (r : Nat) (w : Word) (off : Nat) : State :=
  let tr := s.troupe t
  let g := s.stage tr.stage
  (s.setTroupe t (tr.setRecord r (reserved w off))).setStage tr.stage
    { g with ranges := g.ranges ++ [(off, 64 * (w.toNat / 32 % 2048))] }

theorem loWord_setWidth (w : Word) : loWord (w.setWidth 64) = w := by
  rw [loWord, BitVec.setWidth_setWidth_of_le _ (by decide), BitVec.setWidth_eq]

section
variable {h : Hdr} {r : Fin 15} {d : Opd} {b : Src} {s : State} {c : Ctx} (hi : Issues (.rsvop h r d b) s c) (hact : c.act ≠ 0)
  (hu : Agree c (fun l => (readSrcZ s.begun c l b 1).setWidth 64)) {w : Word} (hw : readSrcZ s.begun c c.low b 1 = w)
  (hsmall : w.toNat < 65536) (hbit : w.getLsbD 4 = false) (hfmt : w.toNat % 4 ≠ 3) (hpos : w.toNat / 32 % 2048 ≠ 0)
  (hlen : w.toNat / 32 % 2048 ≤ 1024) (hfree : ((s.troupe c.t).record r.val).used = false)
include hi hact hu hw hsmall hbit hfmt hpos hlen hfree

theorem exec_rsvop_passes : exec (.rsvop h r d b) s = .next (finish c
    ((freeRun (s.stage (s.troupe c.t).stage).ranges (64 * (w.toNat / 32 % 2048))).elim
      (.ok (writeLate s.begun c (results c false d fun _ => 0)))
      fun off => .ok (writeLate (reserve s.begun c.t r.val w off) c (results c false d fun _ => 1)))) := by
  have hfield : fieldOf w 15 5 = w.toNat / 32 % 2048 := rfl
  have hlow : fieldOf w 1 0 = w.toNat % 4 := congrArg (· % 4) (Nat.div_one _)
  have hhigh : fieldOf w 31 16 = 0 := by
    rw [fieldOf, Nat.div_eq_of_lt (show w.toNat < 2 ^ 16 from hsmall), Nat.zero_mod]
  have hill : ¬(fieldOf w 31 16 != 0 || w.getLsbD 4 || decide (fieldOf w 1 0 = 3) || decide (fieldOf w 15 5 = 0) ||
      decide (fieldOf w 15 5 > 1024)) = true := by
    rw [hfield, hlow, hhigh, hbit]
    simp [hfmt, hpos, hlen]
  have hused : ¬((s.begun.troupe c.t).record r.val).used = true := Bool.eq_false_iff.1 hfree
  rw [exec_rsvop, execRsvop, issue_next hi, Ctx.not_idle hact, if_neg Bool.false_ne_true]
  dsimp only
  rw [uniformTrap_none hu]
  simp only [hw, loWord_setWidth]
  rw [if_neg hill, if_neg hused, hfield, hlow]
  cases hrun : freeRun (s.stage (s.troupe c.t).stage).ranges (64 * (w.toNat / 32 % 2048)) with
  | none =>
    rw [show freeRun (s.begun.stage (s.begun.troupe c.t).stage).ranges _ = _ from hrun]
    rfl
  | some off =>
    rw [show freeRun (s.begun.stage (s.begun.troupe c.t).stage).ranges _ = _ from hrun]
    rfl

theorem rsvop_reserves {o : Nat} (hfits : FreeAt (s.stage (s.troupe c.t).stage).ranges (64 * (w.toNat / 32 % 2048)) o)
    (hlow : ∀ p, p < o → ¬FreeAt (s.stage (s.troupe c.t).stage).ranges (64 * (w.toNat / 32 % 2048)) p) :
    ∃ t, exec (.rsvop h r d b) s = .next t ∧ AllMoved c s t ∧
      (t.troupe c.t).recs = tset (s.troupe c.t).recs Rec.free r.val (reserved w o) ∧
      (t.stage (s.troupe c.t).stage).ranges =
        (s.stage (s.troupe c.t).stage).ranges ++ [(o, 64 * (w.toNat / 32 % 2048))] ∧
      (t.troupe c.t).pend = (s.troupe c.t).pend ++ owedBy c s (results c false d fun _ => 1) ∧
      ∀ k, (t.troupe c.t).reg k = (s.troupe c.t).reg k := by
  have hexec := exec_rsvop_passes hi hact hu hw hsmall hbit hfmt hpos hlen hfree
  rw [freeRun_some (by omega) hfits hlow] at hexec
  have htroupe : (reserve s.begun c.t r.val w o).troupe c.t = (s.troupe c.t).setRecord r.val (reserved w o) := by
    rw [reserve, State.troupe_setStage, State.troupe_setTroupe_self]
    rfl
  have howed : owedBy c (reserve s.begun c.t r.val w o) (results c false d fun _ => 1) =
      owedBy c s (results c false d fun _ => 1) := by
    rw [owedBy, htroupe]
    rfl
  have hstages : (writeLate (reserve s.begun c.t r.val w o) c (results c false d fun _ => 1)).stages =
      (reserve s.begun c.t r.val w o).stages := (congrArg State.stages (rest_writeLate _ _ _) :)
  refine ⟨_, hexec, allMoved_finish_ok fun l => ?_, ?_, ?_, ?_, fun k => ?_⟩
  · rw [State.thread, troupe_writeLate, htroupe]
    rfl
  · rw [Option.elim_some, troupe_finish_ok, Troupe.mapLanes_recs, troupe_writeLate, htroupe]
    rfl
  · exact (congrArg (fun st => (tget st Stage.empty (s.troupe c.t).stage).ranges) hstages :).trans
      (congrArg Stage.ranges (State.stage_setStage_self _ _ _))
  · rw [Option.elim_some, troupe_finish_ok, Troupe.mapLanes_pend, troupe_writeLate, howed, htroupe]
    rfl
  · rw [Option.elim_some, troupe_finish_ok, Troupe.reg_mapLanes, troupe_writeLate, htroupe]
    rfl

theorem rsvop_fails (hnone : ∀ o, ¬FreeAt (s.stage (s.troupe c.t).stage).ranges (64 * (w.toNat / 32 % 2048)) o) :
    ∃ t, exec (.rsvop h r d b) s = .next t ∧ LaneLate c .rne (results c false d fun _ => 0) s t := by
  have hexec := exec_rsvop_passes hi hact hu hw hsmall hbit hfmt hpos hlen hfree
  rw [freeRun_none hnone] at hexec
  exact ⟨_, hexec, laneLate_finish (onlyTroupe_begun _ _) rfl rfl (fun _ => rfl) (fun _ _ => rfl) fun _ => rfl⟩

end

/-- A troupe that has released record `r`. -/
def Troupe.released (tr : Troupe) (r : Nat) : Troupe :=
  { tr.setRecord r Rec.free with freeing := tr.freeing ++ [(tr.record r).range] }

section
variable {h : Hdr} {r : Fin 15} {s : State} {c : Ctx} (hi : Issues (.rlsop h r) s c) (hact : c.act ≠ 0)
include hi hact

theorem exec_rlsop_used (hused : ((s.troupe c.t).record r.val).used = true) : exec (.rlsop h r) s =
    .next (finish c (.ok (freeRecords (s.begun.setTroupe c.t ((s.troupe c.t).released r.val)) c.t))) := by
  have hused : ((s.begun.troupe c.t).record r.val).used = true := hused
  rw [exec_rlsop, execRlsop, issue_next hi, Ctx.not_idle hact, if_neg Bool.false_ne_true]
  dsimp only
  rw [if_pos hused]
  rfl

theorem exec_rlsop_unused (hfree : ((s.troupe c.t).record r.val).used = false) :
    exec (.rlsop h r) s = .next (finish c (.ok s.begun)) := by
  have hfree : ((s.begun.troupe c.t).record r.val).used = false := hfree
  rw [exec_rlsop, execRlsop, issue_next hi, Ctx.not_idle hact, if_neg Bool.false_ne_true]
  dsimp only
  rw [hfree, if_neg Bool.false_ne_true]

end

section
variable {s : State} {t : Nat} {range : Nat × Nat} (hone : (s.troupe t).freeing = [range])
include hone

/-- A released range that an operation still uses waits. -/
theorem freeRecords_inUse (huse : ((s.troupe t).ops.any fun o => o.usesRange range) = true) : freeRecords s t = s := by
  unfold freeRecords
  dsimp only
  rw [hone, List.filter_singleton, huse]
  rfl

/-- A released range that no operation uses is free again. -/
theorem freeRecords_unused (huse : ((s.troupe t).ops.any fun o => o.usesRange range) = false) :
    freeRecords s t = freeRanges (s.setTroupe t { s.troupe t with freeing := [] }) (s.troupe t).stage [range] := by
  unfold freeRecords
  dsimp only
  rw [hone, List.filter_singleton, List.filter_singleton, huse]
  rfl

end

theorem ranges_freeRanges (s : State) (st : Nat) (x : Nat × Nat) :
    ((freeRanges s st [x]).stage st).ranges = (s.stage st).ranges.filter fun y => y != x := by
  rw [freeRanges, State.stage_setStage_self]
  refine List.filter_congr fun y _ => ?_
  rw [List.contains_cons, List.contains_nil, Bool.or_false]
  rfl

theorem rlsop_releases {h : Hdr} {r : Fin 15} {s : State} {c : Ctx} (hi : Issues (.rlsop h r) s c) (hact : c.act ≠ 0)
    (hused : ((s.troupe c.t).record r.val).used = true) (hnone : (s.troupe c.t).freeing = []) :
    let tr := s.troupe c.t
    let range := (tr.record r.val).range
    let g := s.stage tr.stage
    ∃ t, exec (.rlsop h r) s = .next t ∧ AllMoved c s t ∧ (t.troupe c.t).recs = tset tr.recs Rec.free r.val Rec.free ∧
      (tr.ops.any (fun o => o.usesRange range) = true →
        (t.troupe c.t).freeing = [range] ∧ (t.stage tr.stage).ranges = g.ranges) ∧
      (tr.ops.any (fun o => o.usesRange range) = false →
        (t.troupe c.t).freeing = [] ∧ (t.stage tr.stage).ranges = g.ranges.filter fun x => x != range) := by
  intro tr range g
  have htroupe : (s.begun.setTroupe c.t (tr.released r.val)).troupe c.t = tr.released r.val := State.troupe_setTroupe_self _ _ _
  have hone : ((s.begun.setTroupe c.t (tr.released r.val)).troupe c.t).freeing = [range] := by
    rw [htroupe, Troupe.released, hnone]
    rfl
  have hops : ((s.begun.setTroupe c.t (tr.released r.val)).troupe c.t).ops = tr.ops := by
    rw [htroupe]
    rfl
  have hfree := troupe_freeRecords (s.begun.setTroupe c.t (tr.released r.val)) c.t
  rw [htroupe] at hfree
  refine ⟨_, exec_rlsop_used hi hact hused, allMoved_finish_ok fun l => ?_, ?_, fun huse => ?_, fun huse => ?_⟩
  · exact (congrArg (Troupe.thread · l) hfree :)
  · rw [troupe_finish_ok, Troupe.mapLanes_recs]
    exact (congrArg Troupe.recs hfree :)
  · rw [freeRecords_inUse hone (by rwa [hops])]
    refine ⟨?_, rfl⟩
    rw [troupe_finish_ok, Troupe.mapLanes_freeing, hone]
  · rw [freeRecords_unused hone (by rwa [hops])]
    refine ⟨?_, ?_⟩
    · rw [troupe_finish_ok, Troupe.mapLanes_freeing, freeRanges, State.troupe_setStage, State.troupe_setTroupe_self]
    · rw [htroupe]
      exact ranges_freeRanges _ _ _

/-- Settles O22, instruction by instruction: each that begins an operation goes through `startOp`, RSVOP through `freeRun`. -/
theorem matrixInstructions : Obligations.MatrixInstructions := by
  refine ⟨fun h a s c hi hact => ?_, fun h base tile s c hact => ?_, fun h a dest scale s c hi hact => ?_,
    fun h r d b s c hact => ?_⟩
  · refine ⟨fun hcheck hroom => started_of_startOp (exec_mma_passes hi hact hcheck) hroom,
      fun hcheck hfull => mma_counter_full hi hact hcheck hfull, fun x hcheck => ?_⟩
    obtain ⟨v, htrap, hstated, hpc⟩ := codeTrap_spec s.begun c x.1 x.2
    exact ⟨v, hstated, hpc, trapsAll_of_exec (by rw [exec_mma_fails hi hact hcheck, htrap])⟩
  · intro x a hroom
    exact ⟨fun hi hu htile haddr => started_of_startOp (exec_accld_passes hact hi hu htile haddr) hroom,
      fun hi hu htile haddr => started_of_startOp (exec_accst_passes hact hi hu htile haddr) hroom,
      fun hi htile => started_of_startOp (exec_accz_passes hact hi htile) hroom, fun hi htile => accz_traps hact hi htile,
      fun r n hi hu hn hdvd hused hlen haddr => started_of_startOp (exec_ldscl_passes hact hi hu hn hdvd hused hlen haddr) hroom⟩
  · intro u tr ws b x y det n hdest hscale hill hacc hstride haddr hrows hmx hroom
    obtain ⟨z, hz, hexec⟩ := accout_starts hi hact hdest hscale hill hacc (outAddr_none hstride haddr hrows hmx) hroom
    exact ⟨_, hexec, outDrawn_finish hz _⟩
  · intro tr g w len fits
    exact ⟨fun hi hu hsmall hbit hfmt hpos hlen hfree =>
        ⟨fun o hfits hlow => rsvop_reserves hi hact hu rfl hsmall hbit hfmt hpos hlen hfree hfits hlow,
          fun hnone => rsvop_fails hi hact hu rfl hsmall hbit hfmt hpos hlen hfree hnone⟩,
      fun hi hused hnone => rlsop_releases hi hact hused hnone,
      fun hi hfree => ⟨_, exec_rlsop_unused hi hact hfree, threadsGo_ok hi⟩⟩

end Sys2Proof.Machine
end

section
/-! SUPPORT. Records of a COPY as they issue, one after another (R120, R123, R284, R285). -/

namespace Sys2Proof.Machine

open Sys2Proof

/-! ### Presence at issue (R124) -/

theorem tget_foldl_tput (v : Nat) (ls : List Nat) (m : Table Nat) (k : Nat) :
    tget (ls.foldl (fun m l => tput m l v) m) 0 k = if k ∈ ls then v else tget m 0 k := by
  induction ls generalizing m with
  | nil => rfl
  | cons l ls ih =>
    rw [List.foldl_cons, ih, tget_tput]
    by_cases hk : k ∈ ls
    · rw [if_pos hk, if_pos (List.mem_cons_of_mem _ hk)]
    · by_cases hkl : k = l
      · rw [if_neg hk, if_pos hkl, if_pos (hkl ▸ List.mem_cons_self)]
      · rw [if_neg hk, if_neg hkl, if_neg fun h => (List.mem_cons.1 h).elim hkl hk]

theorem pclear_clearLines (s : State) (ls : List Nat) (id l : Nat) :
    tget (clearLines s ls id).pclear 0 l = if l ∈ ls then id + 1 else tget s.pclear 0 l := tget_foldl_tput _ _ _ _

/-! ### A copy is entered -/

/-- The copy that is entered. -/
def enteredCopy (s : State) (t : Nat) (lane : Option Nat) (chunks : List Chunk) (wps : List (Option WpRef))
    (pres cast castWp : Bool) (pc : Word) (grp : Nat) : Copy :=
  let c : Copy := ⟨s.nextId, t, lane, chunks, wps, pres, cast, storeIds s t, none, false, false, pc, false, grp, castWp, []⟩
  { c with stands := lane.isSome && c.moving }

section
variable (s : State) (t : Nat) (lane : Option Nat) (chunks : List Chunk) (wps : List (Option WpRef)) (pres cast castWp : Bool)
  (pc : Word) (grp : Nat)

theorem addCopy_rest : { addCopy s t lane chunks wps pres cast castWp pc grp with pclear := s.pclear } =
    { s with copies := s.copies ++ [enteredCopy s t lane chunks wps pres cast castWp pc grp], nextId := s.nextId + 1 } := by
  unfold addCopy
  dsimp only
  split <;> rfl

theorem troupe_addCopy (u : Nat) : (addCopy s t lane chunks wps pres cast castWp pc grp).troupe u = s.troupe u :=
  congrArg (tget · Troupe.absent u) (congrArg State.troupes (addCopy_rest s t lane chunks wps pres cast castWp pc grp) :)

theorem pclear_addCopy (l : Nat) : tget (addCopy s t lane chunks wps pres cast castWp pc grp).pclear 0 l =
    if pres = true ∧ l ∈ pieceLines chunks then s.nextId + 1 else tget s.pclear 0 l := by
  unfold addCopy
  dsimp only
  cases pres with
  | true =>
    rw [if_pos rfl, pclear_clearLines]
    simp only [true_and]
  | false => rw [if_neg Bool.false_ne_true, if_neg fun h => Bool.false_ne_true h.1]

end

/-! ### One record (R123, R284) -/

/-- The pieces of a record: of each run of bytes and each target. -/
def recordChunks (s : State) (t : Nat) (r : CopyRec) (sh : ShapeRec) : List Chunk :=
  (dstTargets s t (r.dstAddr sh)).zipIdx.flatMap fun d => (r.spans sh).flatMap fun k =>
    spanPieces (srcAt s t (r.srcAddr sh) 0) d.1 d.2 k

/-- The waypoints of a record's targets. -/
def recordTargetWps (s : State) (t : Nat) (r : CopyRec) (sh : ShapeRec) : List (Option WpRef) :=
  recordWps s t r.nowp r.wp (r.dstAddr sh) (dstTargets s t (r.dstAddr sh)).length

/-- The state in which record `r` has issued. -/
def recordIssued (s : State) (c : Ctx) (r : CopyRec) (sh : ShapeRec) : State :=
  addOp (addCopy s c.t none (recordChunks s c.t r sh) (recordTargetWps s c.t r sh) r.pres (winOf (r.dstAddr sh) == 7)
    (!r.nowp && wpPerTarget s (r.dstAddr sh) r.wp) c.pc 0) c.t .copy (.copies [s.nextId]) []

/-- The shape record of a record, as it has been read. -/
def shapeOf (r : CopyRec) (shb : List Byte) : ShapeRec := if r.kind = 2 then shapeRec shb else ShapeRec.none

theorem issueRecord_passes {s : State} {c : Ctx} {x : Dword} {bs shb : List Byte} (hread : recordBytes s c.t c.low x 64 = some bs)
    (hshape : (copyRec bs).kind = 2 → recordBytes s c.t c.low (copyRec bs).shape 32 = some shb)
    (hcheck : recCheck s c.t (copyRec bs) = none)
    (hcheck2 : recCheck2 s c.t (copyRec bs) (shapeOf (copyRec bs) shb) ((copyRec bs).kind == 2) = none)
    (hinside : (copyRec bs).kind = 2 → shapeInside s c.t (copyRec bs) = true) :
    issueRecord s c x = some (.inl (recordIssued s c (copyRec bs) (shapeOf (copyRec bs) shb))) := by
  unfold issueRecord
  rw [hread]
  dsimp only
  rw [hcheck]
  dsimp only
  by_cases hkind : (copyRec bs).kind = 2
  · rw [shapeOf, if_pos hkind, beq_iff_eq.2 hkind] at hcheck2
    rw [hinside hkind, beq_iff_eq.2 hkind, Bool.and_self, if_pos rfl, hshape hkind]
    dsimp only
    rw [if_pos rfl, hcheck2, shapeOf, if_pos hkind]
    rfl
  · rw [shapeOf, if_neg hkind, beq_eq_false_iff_ne.2 hkind] at hcheck2
    rw [beq_eq_false_iff_ne.2 hkind, Bool.false_and, if_neg Bool.false_ne_true]
    dsimp only
    rw [if_neg Bool.false_ne_true, hcheck2, shapeOf, if_neg hkind]
    rfl

theorem issueRecord_eq_recordIssued {s z : State} {c : Ctx} {x : Dword} (h : issueRecord s c x = some (.inl z)) :
    ∃ r sh, z = recordIssued s c r sh := by
  unfold issueRecord at h
  split at h
  · cases h
  · dsimp only at h
    split at h
    · cases h
    · split at h
      · cases h
      · split at h
        · cases h
        · cases h
          exact ⟨_, _, rfl⟩

/-- What issuing `n` records makes of a state: so many more copies, the counter as much higher, and of the troupe nothing else. -/
structure RecordsIssued (t n : Nat) (s z : State) : Prop where
  copies  : z.copies.length = s.copies.length + n
  counter : (z.troupe t).counter .copy = (s.troupe t).counter .copy + n
  troupe  : { z.troupe t with ops := (s.troupe t).ops } = s.troupe t

theorem RecordsIssued.refl (t : Nat) (s : State) : RecordsIssued t 0 s s := ⟨rfl, rfl, rfl⟩

theorem RecordsIssued.trans {t m n : Nat} {s z w : State} (h : RecordsIssued t m s z) (k : RecordsIssued t n z w) :
    RecordsIssued t (m + n) s w :=
  ⟨by rw [k.copies, h.copies, Nat.add_assoc], by rw [k.counter, h.counter, Nat.add_assoc],
    (congrArg (fun x : Troupe => { x with ops := (s.troupe t).ops }) k.troupe :).trans h.troupe⟩

section
variable (s : State) (c : Ctx) (r : CopyRec) (sh : ShapeRec)

theorem copies_recordIssued : (recordIssued s c r sh).copies = s.copies ++ [enteredCopy s c.t none (recordChunks s c.t r sh)
    (recordTargetWps s c.t r sh) r.pres (winOf (r.dstAddr sh) == 7) (!r.nowp && wpPerTarget s (r.dstAddr sh) r.wp) c.pc 0] :=
  (congrArg State.copies (addCopy_rest s c.t none _ _ _ _ _ _ _) :)

theorem troupe_recordIssued : (recordIssued s c r sh).troupe c.t = { s.troupe c.t with
    ops := (s.troupe c.t).ops ++ [⟨s.nextId + 1, .copy, .copies [s.nextId], [], [], none, false⟩] } := by
  have hid : ∀ pres cast castWp, (addCopy s c.t none (recordChunks s c.t r sh) (recordTargetWps s c.t r sh) pres cast castWp c.pc
      0).nextId = s.nextId + 1 := fun pres cast castWp => (congrArg State.nextId (addCopy_rest s c.t none _ _ _ _ _ _ _) :)
  rw [recordIssued, troupe_addOp, troupe_addCopy, hid]

theorem recordIssued_records : RecordsIssued c.t 1 s (recordIssued s c r sh) where
  copies := by rw [copies_recordIssued, List.length_append, List.length_singleton]
  counter := by rw [troupe_recordIssued, counter_append, if_pos rfl]
  troupe := by rw [troupe_recordIssued]

theorem pclear_recordIssued (l : Nat) : tget (recordIssued s c r sh).pclear 0 l =
    if r.pres = true ∧ l ∈ pieceLines (recordChunks s c.t r sh) then s.nextId + 1 else tget s.pclear 0 l :=
  pclear_addCopy s c.t none _ _ _ _ _ _ _ l

theorem mem_recordIssued : (recordIssued s c r sh).mem = s.mem := (congrArg State.mem (addCopy_rest s c.t none _ _ _ _ _ _ _) :)

end

/-- An address taken through the space of another keeps that space. -/
theorem spaceOf_castOf (wp y : Dword) : spaceOf (castOf wp y) = spaceOf y := by
  refine congrArg BitVec.toNat (BitVec.eq_of_getLsbD_eq fun i hi => ?_)
  have hcases : i = 0 ∨ i = 1 ∨ i = 2 := by omega
  rcases hcases with rfl | rfl | rfl <;> simp [castOf]

/-- Where each target of a CAST has a waypoint of its own, there are as many waypoints as targets (R129). -/
theorem length_castTargets_castOf (s : State) (t : Nat) (wp y : Dword) :
    (castTargets s t (castOf wp y)).length = (castTargets s t y).length := by
  unfold castTargets
  dsimp only
  rw [spaceOf_castOf]
  split
  · rw [List.length_map, List.length_map]
  · rw [List.length_map, List.length_map]

theorem length_recordTargetWps (s : State) (t : Nat) (r : CopyRec) (sh : ShapeRec) :
    (recordTargetWps s t r sh).length = (dstTargets s t (r.dstAddr sh)).length := by
  unfold recordTargetWps recordWps
  split
  · exact List.length_replicate
  · split
    · rename_i hper
      simp only [wpPerTarget, Bool.and_eq_true, decide_eq_true_eq, Bool.not_eq_true'] at hper
      obtain ⟨⟨⟨hwin, hlocal⟩, hremote⟩, -⟩ := hper
      rw [List.length_map, length_castTargets_castOf]
      unfold dstTargets
      rw [hlocal, hremote, if_neg (by simp), if_neg Bool.false_ne_true, if_pos hwin, List.length_map]
    · exact List.length_replicate

/-! ### What a troupe remembers of the records it reads (R140, R285) -/

/-- Only what the troupe remembers of records that it reads changes, and tiles may have been asked for. -/
structure ReadNotes (t : Nat) (s z : State) : Prop where
  rest   : { z with troupes := s.troupes, tiles := s.tiles, slices := s.slices } = s
  troupe : { z.troupe t with
    recAsked := (s.troupe t).recAsked, recServed := (s.troupe t).recServed, copied := (s.troupe t).copied } = s.troupe t

theorem ReadNotes.refl (t : Nat) (s : State) : ReadNotes t s s := ⟨rfl, rfl⟩

theorem ReadNotes.trans {t : Nat} {s z w : State} (h : ReadNotes t s z) (k : ReadNotes t z w) : ReadNotes t s w :=
  ⟨(congrArg (fun x : State => { x with troupes := s.troupes, tiles := s.tiles, slices := s.slices }) k.rest :).trans h.rest,
    (congrArg (fun x : Troupe => { x with
      recAsked := (s.troupe t).recAsked, recServed := (s.troupe t).recServed, copied := (s.troupe t).copied }) k.troupe :).trans
        h.troupe⟩

theorem ReadNotes.thread {t : Nat} {s z : State} (h : ReadNotes t s z) (l : Nat) : z.thread t l = s.thread t l :=
  (congrArg (Troupe.thread · l) h.troupe :)

theorem readNotes_setTroupe {t : Nat} {s : State} {x : Troupe} (h : { x with
    recAsked := (s.troupe t).recAsked, recServed := (s.troupe t).recServed, copied := (s.troupe t).copied } = s.troupe t) :
    ReadNotes t s (s.setTroupe t x) := ⟨rfl, by rw [State.troupe_setTroupe_self]; exact h⟩

theorem readNotes_recordsRead (s : State) (t : Nat) : ReadNotes t s (recordsRead s t) := by
  unfold recordsRead
  split
  · exact .refl t s
  · exact readNotes_setTroupe rfl

theorem copied_recordsRead (s : State) (t : Nat) : ((recordsRead s t).troupe t).copied = (s.troupe t).copied := by
  unfold recordsRead
  split
  · rfl
  · rw [State.troupe_setTroupe_self]

/-- Is the note that of a COPY of the bundle at its PC? -/
def ofCopy (c : Ctx) (x : Nat × Word × Nat) : Bool := x.2.1 == c.pc && hasLane c.act x.1

theorem begunRecords_eq (s : State) (c : Ctx) :
    begunRecords s c = (((s.troupe c.t).copied.find? (ofCopy c)).map fun x => x.2.2).getD 0 := rfl

theorem begunRecords_congr {s z : State} {c : Ctx} (h : (z.troupe c.t).copied = (s.troupe c.t).copied) :
    begunRecords z c = begunRecords s c := by rw [begunRecords_eq, h, begunRecords_eq]

theorem endRecords_spec (s : State) (c : Ctx) : ReadNotes c.t s (endRecords s c) ∧
    ((endRecords s c).troupe c.t).copied = (s.troupe c.t).copied.filter fun x => !ofCopy c x := by
  have hkeep : ((recordsRead s c.t).troupe c.t).copied.filter (fun x => x.2.1 != c.pc || !hasLane c.act x.1) =
      (s.troupe c.t).copied.filter fun x => !ofCopy c x := by
    rw [copied_recordsRead]
    exact List.filter_congr fun x _ => (Bool.not_and _ _).symm
  unfold endRecords
  dsimp only
  rw [hkeep]
  split
  · rename_i hlen
    refine ⟨readNotes_recordsRead s c.t, ?_⟩
    rw [copied_recordsRead] at hlen ⊢
    exact (List.filter_eq_self.2 (List.length_filter_eq_length_iff.1 hlen)).symm
  · refine ⟨(readNotes_recordsRead s c.t).trans (readNotes_setTroupe rfl), ?_⟩
    rw [State.troupe_setTroupe_self]

theorem readNotes_endRecords (s : State) (c : Ctx) : ReadNotes c.t s (endRecords s c) := (endRecords_spec s c).1

/-- A COPY that is over has no records left of before it stalled. -/
theorem begunRecords_endRecords (s : State) (c : Ctx) : begunRecords (endRecords s c) c = 0 := by
  have hnone : ((s.troupe c.t).copied.filter fun x => !ofCopy c x).find? (ofCopy c) = none :=
    List.find?_eq_none.2 fun x hx => by simpa using (List.mem_filter.1 hx).2
  rw [begunRecords_eq, (endRecords_spec s c).2, hnone]
  rfl

theorem readNotes_stallRecords (s : State) (c : Ctx) (k : Nat) : ReadNotes c.t s (stallRecords s c k) := by
  unfold stallRecords
  split
  · exact .refl c.t s
  · exact (readNotes_endRecords s c).trans (readNotes_setTroupe rfl)

/-- A COPY that stalls knows how many of its records have issued. -/
theorem begunRecords_stallRecords {s : State} {c : Ctx} (hact : c.act ≠ 0) {k : Nat} (h : k = 0 → begunRecords s c = 0) :
    begunRecords (stallRecords s c k) c = k := by
  unfold stallRecords
  split
  · rename_i hk
    rw [h hk, hk]
  · have hown : ofCopy c (c.low, c.pc, k) = true := by
      rw [ofCopy, hasLane_low hact, Bool.and_true]
      exact beq_self_eq_true _
    dsimp only
    rw [begunRecords_eq, State.troupe_setTroupe_self, List.find?_cons_of_pos hown]
    rfl

theorem engineAsk_rest (xs : List (Nat × Nat)) (w : Waiter) (s : State) :
    { engineAsk s xs w with tiles := s.tiles, slices := s.slices } = s := by
  unfold engineAsk
  refine List.foldlRecOn (motive := fun z : State => { z with tiles := s.tiles, slices := s.slices } = s) _ _ rfl fun z hz x _ => ?_
  dsimp only
  split
  · exact hz
  · exact (congrArg (fun y : State => { y with tiles := s.tiles, slices := s.slices })
      (requestTile_spec z x.1 x.2 w false).1 :).trans hz

theorem askRecord_spec (s : State) (t l : Nat) (x : Dword) (n : Nat) :
    ReadNotes t s (askRecord s t l x n) ∧ ((askRecord s t l x n).troupe t).copied = (s.troupe t).copied := by
  have ask (z : State) (xs : List (Nat × Nat)) (w : Waiter) : (engineAsk z xs w).troupe t = z.troupe t :=
    congrArg (tget · Troupe.absent t) (congrArg State.troupes (engineAsk_rest xs w z) :)
  have notes (z : State) (xs : List (Nat × Nat)) (w : Waiter) : ReadNotes t z (engineAsk z xs w) :=
    ⟨(congrArg (fun y : State => { y with troupes := z.troupes }) (engineAsk_rest xs w z) :), by rw [ask]⟩
  unfold askRecord
  dsimp only
  split
  · exact ⟨.refl t s, rfl⟩
  · split
    · exact ⟨notes _ _ _, by rw [ask]⟩
    · refine ⟨ReadNotes.trans ?_ (notes _ _ _), by rw [ask, State.troupe_setTroupe_self]⟩
      exact readNotes_setTroupe rfl

/-! ### Several records (R285) -/

/-- The address of record `k` of a COPY. -/
def recordPlace (x : Dword) (k : Nat) : Dword := x + BitVec.ofNat 64 (64 * k)

section
variable {c : Ctx} {x : Dword} {chain : Nat → State}

/-- Records that issue one after another: what is left of the COPY goes on from the last of them. -/
theorem issueRecords_issue (n : Nat) {m k : Nat}
    (h : ∀ i, k ≤ i → i < k + m → issueRecord (chain i) c (recordPlace x i) = some (.inl (chain (i + 1)))) :
    issueRecords c x (m + n) k (chain k) = issueRecords c x n (k + m) (chain (k + m)) := by
  induction m generalizing k with
  | zero => rw [Nat.zero_add, Nat.add_zero]
  | succ m ih =>
    have hstep := h k (Nat.le_refl k) (by omega)
    rw [recordPlace] at hstep
    rw [show m + 1 + n = (m + n) + 1 by omega, issueRecords, hstep]
    dsimp only
    rw [ih fun i hlo hhi => h i (by omega) (by omega), show k + 1 + m = k + (m + 1) by omega]

theorem recordsIssued_chain {m k : Nat}
    (h : ∀ i, k ≤ i → i < k + m → issueRecord (chain i) c (recordPlace x i) = some (.inl (chain (i + 1)))) :
    RecordsIssued c.t m (chain k) (chain (k + m)) := by
  induction m with
  | zero => exact .refl c.t _
  | succ m ih =>
    obtain ⟨r, sh, hnext⟩ := issueRecord_eq_recordIssued (h (k + m) (by omega) (by omega))
    refine (ih fun i hlo hhi => h i hlo (by omega)).trans ?_
    rw [← Nat.add_assoc, hnext]
    exact recordIssued_records _ _ _ _

theorem issueRecords_held {n k : Nat} {s : State} (h : issueRecord s c (recordPlace x k) = none) :
    issueRecords c x (n + 1) k s =
      .part (askRecord (stallRecords s c k) c.t c.low (recordPlace x k) 64) c.mask .hazard := by
  rw [recordPlace] at h
  rw [issueRecords, h]
  rfl

end

/-- The end of an instruction changes no copies and no engine operations, and leaves what the troupe remembers of its records. -/
theorem copied_finish_ok (c : Ctx) (z : State) : ((finish c (.ok z)).troupe c.t).copied = (z.troupe c.t).copied := by
  rw [troupe_finish_ok]
  exact (congrArg Troupe.copied (Troupe.mapLanes_rest _ _ _) :)

theorem troupe_finish_part (c : Ctx) (z : State) (m : Mask) (w : Wait) :
    { (finish c (.part z m w)).troupe c.t with threads := (z.troupe c.t).threads } = z.troupe c.t :=
  (congrArg (fun x : Troupe => { x with threads := (z.troupe c.t).threads }) (troupe_mapLanes_rest _ _ _ _) :).trans
    (troupe_mapLanes_rest _ _ _ _)

end Sys2Proof.Machine
end

section
/-! SUPPORT. COPY, COPYL, CSTAT and COLL as they issue (R120, R123, R128, R284-R289), and the statement on them. -/

namespace Sys2Proof.Machine

open Sys2Proof

/-! ### COPY (R284, R285) -/

section
variable {h : Hdr} {base : Opd} {n : Src} {s : State} {c : Ctx} (hi : Issues (.copy h base n) s c) (hact : c.act ≠ 0)
  (hbase : Agree c (readPair s.begun c · base 0)) (hcount : Agree c (fun l => (readSrcZ s.begun c l n 1).setWidth 64))
include hi hact hbase hcount

/-- COPY by a troupe that is no producer. -/
theorem copy_not_producer (hprod : troupeNo c.t ≠ (s.runOf c.t).producer) :
    TrapsAll (.copy h base n) s c 0x19 (readPair s.begun c c.low base 0) := by
  have hprod : (troupeNo c.t != (s.begun.runOf c.t).producer) = true := bne_iff_ne.2 hprod
  refine trapsAll_of_exec ?_
  rw [exec_copy, execCopy, issue_next hi, Ctx.not_idle hact, if_neg Bool.false_ne_true, uniformTrap_none hbase,
    uniformTrap_none hcount]
  dsimp only
  rw [hprod, if_pos rfl]

variable (hprod : troupeNo c.t = (s.runOf c.t).producer)
include hprod

/-- COPY of a number of records that it does not allow. -/
theorem copy_bad_count (hbad : (readSrcZ s.begun c c.low n 1).toNat = 0 ∨ 16 < (readSrcZ s.begun c c.low n 1).toNat) :
    TrapsAll (.copy h base n) s c 0x01 (c.pc.setWidth 64) := by
  have hprod : ¬(troupeNo c.t != (s.begun.runOf c.t).producer) = true := fun hne => bne_iff_ne.1 hne hprod
  refine trapsAll_of_exec ?_
  rw [exec_copy, execCopy, issue_next hi, Ctx.not_idle hact, if_neg Bool.false_ne_true, uniformTrap_none hbase,
    uniformTrap_none hcount]
  dsimp only
  rw [if_neg hprod, if_pos (by simpa using hbad)]
  rfl

variable {k : Nat} (hk : (readSrcZ s.begun c c.low n 1).toNat = k) (hlo : 1 ≤ k) (hhi : k ≤ 16)
  (haddr : engineAddr s.begun c.t (readPair s.begun c c.low base 0) 64 (64 * k) false = none)
  (hroom : (s.troupe c.t).counter .copy + (k - begunRecords s c) ≤ 63)
include hk hlo hhi haddr hroom

/-- A COPY that passes its own checks goes on with its records from the one that it stopped at. -/
theorem exec_copy_passes : exec (.copy h base n) s = .next (finish c
    (issueRecords c (readPair s.begun c c.low base 0) (k - begunRecords s c) (begunRecords s c) s.begun)) := by
  have hprod : ¬(troupeNo c.t != (s.begun.runOf c.t).producer) = true := fun hne => bne_iff_ne.1 hne hprod
  have hnum : ¬(decide (k = 0) || decide (k > 16)) = true := by simp; omega
  have hbegun : begunRecords s.begun c = begunRecords s c := rfl
  rw [exec_copy, execCopy, issue_next hi, Ctx.not_idle hact, if_neg Bool.false_ne_true, uniformTrap_none hbase,
    uniformTrap_none hcount]
  dsimp only
  rw [if_neg hprod, hk, if_neg hnum, haddr, hbegun]
  dsimp only
  rw [counterFull_eq_false (s := s.begun) hroom, if_neg Bool.false_ne_true]

variable {chain : Nat → State} (hbegin : chain (begunRecords s c) = s.begun)
include hbegin

/-- All records issue. -/
theorem copy_all_records (hle : begunRecords s c ≤ k) (hissue : ∀ i, begunRecords s c ≤ i → i < k →
      issueRecord (chain i) c (recordPlace (readPair s.begun c c.low base 0) i) = some (.inl (chain (i + 1)))) :
    exec (.copy h base n) s = .next (finish c (.ok (endRecords (chain k) c))) ∧
      RecordsIssued c.t (k - begunRecords s c) s.begun (chain k) := by
  have hsum : begunRecords s c + (k - begunRecords s c) = k := by omega
  have hissue : ∀ i, begunRecords s c ≤ i → i < begunRecords s c + (k - begunRecords s c) →
      issueRecord (chain i) c (recordPlace (readPair s.begun c c.low base 0) i) = some (.inl (chain (i + 1))) := by rwa [hsum]
  have hrun := issueRecords_issue 0 hissue
  have hissued := recordsIssued_chain hissue
  rw [hsum, hbegin] at hissued hrun
  exact ⟨by rw [exec_copy_passes hi hact hbase hcount hprod hk hlo hhi haddr hroom, ← Nat.add_zero (k - begunRecords s c), hrun]; rfl,
    hissued⟩

/-- The records before one that cannot be read yet issue. -/
theorem copy_held_record {m : Nat} (hle : begunRecords s c ≤ m) (hlt : m < k) (hissue : ∀ i, begunRecords s c ≤ i → i < m →
      issueRecord (chain i) c (recordPlace (readPair s.begun c c.low base 0) i) = some (.inl (chain (i + 1))))
    (hheld : issueRecord (chain m) c (recordPlace (readPair s.begun c c.low base 0) m) = none) :
    exec (.copy h base n) s = .next (finish c (.part (askRecord (stallRecords (chain m) c m) c.t c.low
        (recordPlace (readPair s.begun c c.low base 0) m) 64) c.mask .hazard)) ∧
      RecordsIssued c.t (m - begunRecords s c) s.begun (chain m) := by
  have hsum : begunRecords s c + (m - begunRecords s c) = m := by omega
  have hissue : ∀ i, begunRecords s c ≤ i → i < begunRecords s c + (m - begunRecords s c) →
      issueRecord (chain i) c (recordPlace (readPair s.begun c c.low base 0) i) = some (.inl (chain (i + 1))) := by rwa [hsum]
  have hrun := issueRecords_issue (k - m - 1 + 1) hissue
  have hissued := recordsIssued_chain hissue
  rw [hsum, hbegin] at hissued hrun
  refine ⟨?_, hissued⟩
  rw [exec_copy_passes hi hact hbase hcount hprod hk hlo hhi haddr hroom,
    show k - begunRecords s c = m - begunRecords s c + (k - m - 1 + 1) by omega, hrun, issueRecords_held hheld]

end

/-- Where all records have issued, the COPY is over. -/
theorem copy_ends {c : Ctx} {s z : State} {n : Nat} (hz : RecordsIssued c.t n s.begun z) :
    let t := finish c (.ok (endRecords z c))
    t.copies = z.copies ∧ t.copies.length = s.copies.length + n ∧
      (t.troupe c.t).counter .copy = (s.troupe c.t).counter .copy + n ∧ begunRecords t c = 0 ∧ AllMoved c s t := by
  intro t
  have hnotes := readNotes_endRecords z c
  have hcopies : t.copies = z.copies := (congrArg State.copies hnotes.rest :)
  refine ⟨hcopies, hcopies ▸ hz.copies, ?_, ?_, allMoved_finish_ok fun l => ?_⟩
  · have hops : (t.troupe c.t).ops = (z.troupe c.t).ops := by
      rw [troupe_finish_ok, Troupe.mapLanes_ops]
      exact (congrArg Troupe.ops hnotes.troupe :)
    rw [Troupe.counter, hops]
    exact hz.counter
  · rw [begunRecords_congr (copied_finish_ok c _), begunRecords_endRecords]
  · rw [hnotes.thread]
    exact (congrArg (Troupe.thread · l) hz.troupe :)

/-- Where a record cannot be read yet, the COPY stalls with those before it issued. -/
theorem copy_stalls {c : Ctx} {s z : State} {n m : Nat} (hact : c.act ≠ 0) (hz : RecordsIssued c.t n s.begun z)
    (hm : m = 0 → begunRecords s c = 0) (y : Dword) :
    let t := finish c (.part (askRecord (stallRecords z c m) c.t c.low y 64) c.mask .hazard)
    t.copies = z.copies ∧ t.copies.length = s.copies.length + n ∧
      (t.troupe c.t).counter .copy = (s.troupe c.t).counter .copy + n ∧ begunRecords t c = m ∧
      ∀ l, t.thread c.t l = if hasLane c.mask l then { s.thread c.t l with st := .stalled, wait := .hazard }
        else s.thread c.t l := by
  intro t
  obtain ⟨hask, hcopied⟩ := askRecord_spec (stallRecords z c m) c.t c.low y 64
  have hnotes := (readNotes_stallRecords z c m).trans hask
  have hpart := troupe_finish_part c (askRecord (stallRecords z c m) c.t c.low y 64) c.mask .hazard
  have hcopies : t.copies = z.copies := (congrArg State.copies hnotes.rest :)
  have hbefore : begunRecords z c = begunRecords s c := begunRecords_congr (congrArg Troupe.copied hz.troupe :)
  refine ⟨hcopies, hcopies ▸ hz.copies, ?_, ?_, fun l => ?_⟩
  · have hops : (t.troupe c.t).ops = (z.troupe c.t).ops :=
      (congrArg Troupe.ops hpart :).trans (congrArg Troupe.ops hnotes.troupe :)
    rw [Troupe.counter, hops]
    exact hz.counter
  · rw [begunRecords_congr ((congrArg Troupe.copied hpart :).trans hcopied),
      begunRecords_stallRecords hact fun h0 => hbefore.trans (hm h0)]
  · have hthread : (askRecord (stallRecords z c m) c.t c.low y 64).thread c.t l = s.thread c.t l := by
      rw [hnotes.thread]
      exact (congrArg (Troupe.thread · l) hz.troupe :)
    rw [thread_finish_stalled, hthread]

/-- COPY of one record that passes its checks. -/
theorem copy_one_record {h : Hdr} {base : Opd} {n : Src} {s : State} {c : Ctx} (hi : Issues (.copy h base n) s c)
    (hact : c.act ≠ 0) (hbase : Agree c (readPair s.begun c · base 0))
    (hcount : Agree c (fun l => (readSrcZ s.begun c l n 1).setWidth 64)) (hprod : troupeNo c.t = (s.runOf c.t).producer)
    (hk : (readSrcZ s.begun c c.low n 1).toNat = 1) (hfirst : begunRecords s c = 0)
    (haddr : engineAddr s.begun c.t (readPair s.begun c c.low base 0) 64 64 false = none)
    (hroom : (s.troupe c.t).counter .copy < 63) {r : CopyRec} {sh : ShapeRec}
    (hissue : issueRecord s.begun c (readPair s.begun c c.low base 0) = some (.inl (recordIssued s.begun c r sh))) :
    exec (.copy h base n) s = .next (finish c (.ok (endRecords (recordIssued s.begun c r sh) c))) := by
  have hplace : recordPlace (readPair s.begun c c.low base 0) 0 = readPair s.begun c c.low base 0 := BitVec.add_zero _
  let chain : Nat → State := fun i => if i = 0 then s.begun else recordIssued s.begun c r sh
  refine (copy_all_records (chain := chain) hi hact hbase hcount hprod hk (Nat.le_refl 1) (by decide) haddr
    (by rw [hfirst]; exact hroom) (by rw [hfirst]; rfl) (by omega) fun i _ hlt => ?_).1
  obtain rfl : i = 0 := by omega
  rw [hplace]
  exact hissue

/-- What one record of a COPY leaves. -/
theorem copy_one_ends (s : State) (c : Ctx) (r : CopyRec) (sh : ShapeRec) :
    let chunks := recordChunks s.begun c.t r sh
    let t := finish c (.ok (endRecords (recordIssued s.begun c r sh) c))
    ∃ cp, AllMoved c s t ∧ t.copies = s.copies ++ [cp] ∧
      (cp.id = s.nextId ∧ cp.t = c.t ∧ cp.lane = none ∧ cp.chunks = chunks ∧ cp.pres = r.pres ∧ cp.after = storeIds s c.t ∧
        cp.ended = false ∧ cp.parked = false ∧ cp.stands = false ∧
        cp.wps.length = (dstTargets s.begun c.t (r.dstAddr sh)).length) ∧
      (t.troupe c.t).ops = (s.troupe c.t).ops ++ [⟨s.nextId + 1, .copy, .copies [s.nextId], [], [], none, false⟩] ∧
      (∀ l, tget t.pclear 0 l = if r.pres = true ∧ l ∈ pieceLines chunks then s.nextId + 1 else tget s.pclear 0 l) ∧
      (∀ a, t.mem.byte a = s.mem.byte a) ∧ ∀ a, (t.troupe c.t).reg a = (s.troupe c.t).reg a := by
  intro chunks t
  have hnotes := readNotes_endRecords (recordIssued s.begun c r sh) c
  have htroupe := hnotes.troupe
  rw [troupe_recordIssued] at htroupe
  obtain ⟨hcopies, -, -, -, hmoved⟩ := copy_ends (recordIssued_records s.begun c r sh)
  refine ⟨_, hmoved, hcopies.trans (copies_recordIssued s.begun c r sh),
    ⟨rfl, rfl, rfl, rfl, rfl, rfl, rfl, rfl, rfl, length_recordTargetWps _ _ _ _⟩, ?_, fun l => ?_, fun a => ?_, fun a => ?_⟩
  · rw [troupe_finish_ok, Troupe.mapLanes_ops]
    exact (congrArg Troupe.ops htroupe :)
  · exact (congrArg (tget · 0 l) (congrArg State.pclear hnotes.rest :)).trans (pclear_recordIssued s.begun c r sh l)
  · exact congrArg (Memory.byte · a) ((congrArg State.mem hnotes.rest :).trans (mem_recordIssued s.begun c r sh))
  · rw [troupe_finish_ok, Troupe.reg_mapLanes]
    exact (congrArg (Troupe.reg · a) htroupe :)

/-! ### COPYL (R128, R286) -/

/-- The pieces of a lane's linear request. -/
def laneChunks (s : State) (t : Nat) (src dst : Dword) (n : Nat) : List Chunk :=
  (dstTargets s t dst).zipIdx.flatMap fun d => spanPieces (srcAt s t src 0) d.1 d.2 ⟨0, 0, n, false, false⟩

/-- The waypoint of a lane's request, captured. -/
def laneWps (s : State) (t l : Nat) (wp : Option Dword) : List (Option WpRef) := [wp.map fun w => captureWp s (physOf s t l w)]

/-- Copies that are entered lane by lane, each with its own pieces and waypoints. -/
def enterLanes (t : Nat) (chunks : Nat → List Chunk) (wps : Nat → List (Option WpRef)) (pres : Bool) (pc : Word) (grp : Nat)
    (ls : List Nat) (s : State) : State :=
  ls.foldl (fun z l => addCopy z t (some l) (chunks l) (wps l) pres false false pc grp) s

section
variable (t : Nat) (chunks : Nat → List Chunk) (wps : Nat → List (Option WpRef)) (pres : Bool) (pc : Word) (grp : Nat)

theorem enterLanes_spec (ls : List Nat) (s : State) :
    ∃ cs, { enterLanes t chunks wps pres pc grp ls s with pclear := s.pclear } =
        { s with copies := s.copies ++ cs, nextId := s.nextId + ls.length } ∧
      cs.map (fun x => (x.id, x.t, x.lane, x.pres, x.pc)) = ls.zipIdx.map (fun l => (s.nextId + l.2, t, some l.1, pres, pc)) ∧
      cs.map Copy.chunks = ls.map chunks := by
  induction ls generalizing s with
  | nil => exact ⟨[], by rw [List.append_nil]; rfl, rfl, rfl⟩
  | cons l ls ih =>
    have hrest := addCopy_rest s t (some l) (chunks l) (wps l) pres false false pc grp
    have hcopies := (congrArg State.copies hrest :)
    have hid := (congrArg State.nextId hrest :)
    dsimp only at hcopies hid
    obtain ⟨cs, hlater, hfields, hchunks⟩ := ih (addCopy s t (some l) (chunks l) (wps l) pres false false pc grp)
    rw [hcopies, hid] at hlater
    refine ⟨enteredCopy s t (some l) (chunks l) (wps l) pres false false pc grp :: cs, ?_, ?_, ?_⟩
    · rw [enterLanes, List.foldl_cons]
      have hstep := (congrArg (fun x : State => { x with pclear := s.pclear }) hlater :)
      have hfirst := (congrArg (fun x : State => { x with
        copies := s.copies ++ enteredCopy s t (some l) (chunks l) (wps l) pres false false pc grp :: cs
        nextId := s.nextId + (ls.length + 1) }) hrest :)
      rw [List.append_assoc, List.singleton_append, Nat.add_assoc, Nat.add_comm 1] at hstep
      exact hstep.trans hfirst
    · rw [List.map_cons, hfields, hid, List.zipIdx_cons, List.map_cons, List.zipIdx_succ, List.map_map]
      refine congrArg₂ List.cons rfl (List.map_congr_left fun x _ => ?_)
      dsimp only [Function.comp_apply]
      rw [Nat.add_assoc, Nat.add_comm 1]
    · rw [List.map_cons, hchunks, List.map_cons]
      rfl

end

theorem checkLanes_pass {c : Ctx} {ls : List Nat} {addr : Nat → Dword} {f : Nat → Option (Nat × Nat)}
    (h : ∀ l ∈ ls, f l = none) : checkLanes c ls addr f = none := by
  have hnone : (ls.filterMap fun l => (f l).map fun r => (l, r)) = [] :=
    List.filterMap_eq_nil_iff.2 fun l hl => by rw [h l hl]; rfl
  unfold checkLanes
  rw [hnone]

/-- The lanes of Active whose request has a global address. -/
def globalLanes (c : Ctx) (sv dv : Nat → Dword) : Mask :=
  maskOf fun l => hasLane c.act l && (!isLocalForm (sv l) || !isLocalForm (dv l))

/-- How a COPYL ends, from the state with its requests entered: lanes with a global address stand at it. -/
def copylEnd (c : Ctx) (m : Mask) (z : State) : Res :=
  if m = 0 then .ok z
  else .ctl ((z.mapLanes c.t (c.act &&& ~~~m) fun _ th => th.advance c.hdr).mapLanes c.t m fun _ th => th.standAt c.hdr)

theorem hasLane_globalLanes {c : Ctx} {sv dv : Nat → Dword} {l : Nat} : hasLane (globalLanes c sv dv) l = true ↔
    hasLane c.act l = true ∧ ¬(isLocalForm (sv l) = true ∧ isLocalForm (dv l) = true) := by
  rw [globalLanes, hasLane_maskOf]
  simp only [Bool.and_eq_true, decide_eq_true_eq, Bool.or_eq_true, Bool.not_eq_true', ← Bool.not_eq_true, ← not_and_or]
  exact ⟨fun h => h.2, fun h => ⟨lt_of_hasLane h.1, h⟩⟩

theorem finish_copylEnd_rest (c : Ctx) (m : Mask) (z : State) :
    { finish c (copylEnd c m z) with troupes := z.troupes } = z ∧
      { (finish c (copylEnd c m z)).troupe c.t with threads := (z.troupe c.t).threads } = z.troupe c.t := by
  unfold copylEnd
  split
  · exact ⟨rfl, troupe_mapLanes_rest _ _ _ _⟩
  · have hlanes (y : State) (n : Mask) (f : Nat → Thread → Thread) := (congrArg (fun x : Troupe => { x with
      threads := (z.troupe c.t).threads }) (troupe_mapLanes_rest y c.t n f) :)
    exact ⟨rfl, ((hlanes _ _ _).trans (hlanes _ _ _)).trans (troupe_mapLanes_rest _ _ _ _)⟩

theorem thread_finish_copylEnd (c : Ctx) {m : Mask} (hm : ∀ l, hasLane m l = true → hasLane c.act l = true)
    (hle : ∀ l, hasLane c.act l = true → hasLane c.mask l = true) (z : State) (l : Nat) :
    (finish c (copylEnd c m z)).thread c.t l = if hasLane m l then (z.thread c.t l).standAt c.hdr
      else if hasLane c.mask l then (z.thread c.t l).advance c.hdr else z.thread c.t l := by
  unfold copylEnd
  split
  · rename_i hzero
    have hnone : hasLane m l = false := by rw [hzero]; simp [hasLane]
    rw [thread_finish_ok, hnone, if_neg Bool.false_ne_true]
  · rw [finish, thread_mapLanes, thread_mapLanes, thread_mapLanes, hasLane_diff, hasLane_diff]
    cases hml : hasLane m l with
    | true => simp [hm l hml]
    | false =>
      cases hal : hasLane c.act l with
      | true => simp [hle l hal]
      | false => simp

section
variable {h : Hdr} {nopres : Bool} {dst src : Opd} {n : Src} {wp : Opd} {s : State} {c : Ctx}
  (hi : Issues (.copyl h nopres dst src n wp) s c) (hact : c.act ≠ 0)
include hi hact

theorem exec_copyl_passes (hcheck : ∀ l, hasLane c.act l = true → copylCheck s.begun c.t l (readPair s.begun c l src 0)
      (readPair s.begun c l dst 6) (readSrcZ s.begun c l n 1).toNat (if wp = .rz then none else some (readPair s.begun c l wp 2)) =
        none) (hroom : (s.troupe c.t).counter .gather < 63) :
    ∃ wps, exec (.copyl h nopres dst src n wp) s = .next (finish c (copylEnd c
      (globalLanes c (fun l => readPair s.begun c l src 0) fun l => readPair s.begun c l dst 6)
      (addOp (enterLanes c.t (fun l => laneChunks s.begun c.t (readPair s.begun c l src 0) (readPair s.begun c l dst 6)
        (readSrcZ s.begun c l n 1).toNat) wps (!nopres) c.pc s.nextId (lanes c.act) s.begun) c.t .gather
        (.copies ((List.range (lanes c.act).length).map fun k => s.nextId + k)) []))) := by
  have hwp (l : Nat) : (if (wp == .rz) = true then none else some (readPair s.begun c l wp 2)) =
      if wp = .rz then none else some (readPair s.begun c l wp 2) := by simp only [beq_iff_eq]
  refine ⟨fun l => laneWps s.begun c.t l (if wp == .rz then none else some (readPair s.begun c l wp 2)), ?_⟩
  rw [exec_copyl, execCopyl, issue_next hi]
  dsimp only
  rw [checkLanes_pass fun l hl => (hwp l ▸ hcheck l (mem_lanes.1 hl) :)]
  dsimp only
  rw [Ctx.not_idle hact, if_neg Bool.false_ne_true, counterFull_eq_false (s := s.begun) hroom, if_neg Bool.false_ne_true]
  rfl

theorem copyl_enters (hcheck : ∀ l, hasLane c.act l = true → copylCheck s.begun c.t l (readPair s.begun c l src 0)
      (readPair s.begun c l dst 6) (readSrcZ s.begun c l n 1).toNat (if wp = .rz then none else some (readPair s.begun c l wp 2)) =
        none) (hroom : (s.troupe c.t).counter .gather < 63) :
    let u := s.begun
    let sv := fun l => readPair u c l src 0
    let dv := fun l => readPair u c l dst 6
    let nv := fun l => (readSrcZ u c l n 1).toNat
    ∃ t cs, exec (.copyl h nopres dst src n wp) s = .next t ∧ t.copies = s.copies ++ cs ∧
      (∀ l, t.thread c.t l = if hasLane c.act l = true ∧ ¬(isLocalForm (sv l) = true ∧ isLocalForm (dv l) = true)
          then (s.thread c.t l).standAt c.hdr
        else if hasLane c.mask l then (s.thread c.t l).advance c.hdr else s.thread c.t l) ∧
      cs.map (fun x => (x.id, x.t, x.lane, x.pres, x.pc)) = (lanes c.act).zipIdx.map
        (fun l => (s.nextId + l.2, c.t, some l.1, !nopres, c.pc)) ∧
      cs.map Copy.chunks = ((lanes c.act).map fun l => laneChunks u c.t (sv l) (dv l) (nv l)) ∧
      (t.troupe c.t).ops = (s.troupe c.t).ops ++ [⟨s.nextId + (lanes c.act).length, .gather,
        .copies ((List.range (lanes c.act).length).map fun k => s.nextId + k), [], [], none, false⟩] ∧
      ∀ a, t.mem.byte a = s.mem.byte a := by
  intro u sv dv nv
  obtain ⟨wps, hexec⟩ := exec_copyl_passes hi hact hcheck hroom
  obtain ⟨cs, hrest, hfields, hchunks⟩ := enterLanes_spec c.t (fun l => laneChunks u c.t (sv l) (dv l) (nv l)) wps (!nopres) c.pc
    s.nextId (lanes c.act) u
  generalize enterLanes c.t (fun l => laneChunks u c.t (sv l) (dv l) (nv l)) wps (!nopres) c.pc s.nextId (lanes c.act) u =
    z at hexec hrest
  have hid : z.nextId = s.nextId + (lanes c.act).length := (congrArg State.nextId hrest :)
  have htroupe : z.troupe c.t = s.troupe c.t := congrArg (tget · Troupe.absent c.t) (congrArg State.troupes hrest :)
  obtain ⟨hend, hops⟩ := finish_copylEnd_rest c (globalLanes c sv dv) (addOp z c.t .gather
    (.copies ((List.range (lanes c.act).length).map fun k => s.nextId + k)) [])
  refine ⟨_, cs, hexec, ?_, fun l => ?_, hfields, hchunks, ?_, fun a => ?_⟩
  · exact (congrArg State.copies hend :).trans (congrArg State.copies hrest :)
  · rw [thread_finish_copylEnd c (fun l hl => (hasLane_globalLanes.1 hl).1) (fun l hl => hi.act_le hl), thread_addOp, State.thread,
      htroupe]
    exact if_congr hasLane_globalLanes rfl rfl
  · rw [troupe_addOp, htroupe, hid] at hops
    exact (congrArg Troupe.ops hops :)
  · exact congrArg (Memory.byte · a) ((congrArg State.mem hend :).trans (congrArg State.mem hrest :))

end

/-- CSTAT owes the five counters. -/
theorem cstat_owes {h : Hdr} {d : Opd} {s : State} {c : Ctx} (hi : Issues (.cstat h d) s c) (hact : c.act ≠ 0) :
    ∃ t, exec (.cstat h d) s = .next t ∧ LaneLate c .rne (results c false d fun _ => BitVec.ofNat 64 (
      let n := (s.troupe c.t).counter
      n .copy + 2 ^ 6 * n .gather + 2 ^ 12 * n .mma + 2 ^ 18 * n .coll + 2 ^ 24 * n .remote)) s t := by
  refine ⟨_, ?_, laneLate_finish (onlyTroupe_begun _ _) rfl rfl (fun _ => rfl) (fun _ _ => rfl) fun _ => rfl⟩
  rw [exec_cstat, execCstat, issue_next hi]
  dsimp only
  rw [Ctx.not_idle hact, if_neg Bool.false_ne_true]
  rfl

/-! ### COLL (R287, R288) -/

/-- The ranks' devices, as GROUP names them. -/
def groupOf (n : Nat) (gb : List Byte) : List Nat := (List.range n).map fun k => leNat ((gb.drop (2 * k)).take 2)

/-- The collective that a COLL with the record bytes `bs` enters. -/
def enteredColl (s : State) (c : Ctx) (bs gb : List Byte) : Coll :=
  let r := collRec bs
  ⟨s.nextId, c.t, bs, groupOf r.nranks gb, if r.wp = 0 then none else some (captureWp s (physOf s c.t c.low r.wp)), r.dstBytes,
    s.wall, [r.rank], [], [], [], [], false⟩

theorem isSome_wp_enteredColl (s : State) (c : Ctx) (bs gb : List Byte) :
    (enteredColl s c bs gb).wp.isSome = decide ((collRec bs).wp ≠ 0) := by
  unfold enteredColl
  dsimp only
  split
  · rename_i hw
    exact (decide_eq_false (not_not.2 hw)).symm
  · rename_i hw
    exact (decide_eq_true hw).symm

/-- The state in which it has been entered. -/
def collIssued (s : State) (c : Ctx) (bs gb : List Byte) : State :=
  let r := collRec bs
  let z := clearLines { s with colls := s.colls ++ [enteredColl s c bs gb], nextId := s.nextId + 1 }
    (linesOf [(physOf s c.t c.low r.dst, r.dstBytes)]) s.nextId
  addOp (recordsRead z c.t) c.t .coll (.copies [s.nextId]) (storeIds s c.t)

section
variable {h : Hdr} {base : Opd} {s : State} {c : Ctx} {bs gb : List Byte} (hi : Issues (.coll h base) s c) (hact : c.act ≠ 0)
  (hbase : Agree c (readPair s.begun c · base 0))
  (haddr : engineAddr s.begun c.t (readPair s.begun c c.low base 0) 64 64 false = none)
  (hread : recordBytes s.begun c.t c.low (readPair s.begun c c.low base 0) 64 = some bs)
  (hcheck : collCheck s.begun c.t (collRec bs) = none)
  (hgroup : recordBytes s.begun c.t c.low (collRec bs).group (2 * (collRec bs).nranks) = some gb)
  (hids : ∀ g ∈ groupOf (collRec bs).nranks gb, g < 2 ^ 14)
  (hself : (groupOf (collRec bs).nranks gb).getD (collRec bs).rank 0 = skid s)
  (hsrc : localBounds s.begun c.t (collRec bs).src 0 (collRec bs).srcBytes = none)
  (hdst : localBounds s.begun c.t (collRec bs).dst 0 (collRec bs).dstBytes = none)
  (hwp : (collRec bs).wp ≠ 0 → localBounds s.begun c.t (collRec bs).wp 0 16 = none)
  (hder : inDerived s.begun (physOf s.begun c.t c.low (collRec bs).dst) (collRec bs).dstBytes = false)
  (hroom : (s.troupe c.t).counter .coll < 63)
include hi hact hbase haddr hread hcheck hgroup hids hself hsrc hdst hwp hder hroom

theorem exec_coll_passes : exec (.coll h base) s = .next (finish c (.ok (collIssued s.begun c bs gb))) := by
  have hranks : ¬((groupOf (collRec bs).nranks gb).any (fun g => decide (g ≥ 2 ^ 14)) ||
      (groupOf (collRec bs).nranks gb).getD (collRec bs).rank 0 != skid s.begun) = true := by
    rw [hself, List.any_eq_false.2 fun g hg => by simpa using hids g hg, Bool.false_or]
    exact fun hne => bne_iff_ne.1 hne rfl
  have hplace : ((collRec bs).wp != 0 && (localBounds s.begun c.t (collRec bs).wp 0 16).isSome) = false := by
    by_cases hw : (collRec bs).wp = 0
    · rw [hw]; rfl
    · rw [hwp hw, Option.isSome_none, Bool.and_false]
  rw [exec_coll, execColl, issue_next hi, Ctx.not_idle hact, if_neg Bool.false_ne_true, uniformTrap_none hbase]
  dsimp only
  rw [haddr]
  dsimp only
  rw [hread]
  dsimp only
  rw [hcheck]
  dsimp only
  rw [hgroup]
  dsimp only
  rw [show ((List.range (collRec bs).nranks).map fun k => leNat ((gb.drop (2 * k)).take 2)) = groupOf (collRec bs).nranks gb from rfl,
    if_neg hranks, hsrc, hdst, hplace, if_neg (by simp), hder, if_neg Bool.false_ne_true,
    counterFull_eq_false (s := s.begun) hroom, if_neg Bool.false_ne_true]
  rfl

theorem coll_enters : ∃ t, exec (.coll h base) s = .next t ∧ AllMoved c s t ∧
    t.colls = s.colls ++ [enteredColl s.begun c bs gb] ∧
    (t.troupe c.t).ops = (s.troupe c.t).ops ++ [⟨s.nextId + 1, .coll, .copies [s.nextId], storeIds s c.t, [], none, false⟩] ∧
    (∀ l, tget t.pclear 0 l = if l ∈ linesOf [(physOf s.begun c.t c.low (collRec bs).dst, (collRec bs).dstBytes)]
      then s.nextId + 1 else tget s.pclear 0 l) ∧ ∀ b, t.mem.byte b = s.mem.byte b := by
  have hexec := exec_coll_passes hi hact hbase haddr hread hcheck hgroup hids hself hsrc hdst hwp hder hroom
  rw [collIssued] at hexec
  generalize hz : clearLines { s.begun with colls := s.begun.colls ++ [enteredColl s.begun c bs gb], nextId := s.begun.nextId + 1 }
    (linesOf [(physOf s.begun c.t c.low (collRec bs).dst, (collRec bs).dstBytes)]) s.begun.nextId = z at hexec
  have hnotes := readNotes_recordsRead z c.t
  have hid : (recordsRead z c.t).nextId = s.nextId + 1 := (congrArg State.nextId hnotes.rest :).trans (hz ▸ rfl)
  have hops : ((recordsRead z c.t).troupe c.t).ops = (s.troupe c.t).ops := (congrArg Troupe.ops hnotes.troupe :).trans (hz ▸ rfl)
  refine ⟨_, hexec, allMoved_finish_ok fun l => ?_, ?_, ?_, fun l => ?_, fun b => ?_⟩
  · rw [thread_addOp, hnotes.thread, ← hz]
    rfl
  · exact (congrArg State.colls hnotes.rest :).trans (hz ▸ rfl)
  · rw [troupe_finish_ok, Troupe.mapLanes_ops, troupe_addOp, hops, hid]
    rfl
  · refine (congrArg (tget · 0 l) (congrArg State.pclear hnotes.rest :)).trans ?_
    rw [← hz]
    exact pclear_clearLines _ _ _ l
  · exact congrArg (Memory.byte · b) ((congrArg State.mem hnotes.rest :).trans (hz ▸ rfl))

end

/-- Settles O24: COPY by its chain of records, COPYL lane by lane, COLL by the one collective that it enters. -/
theorem copiesAndCollectives : Obligations.CopiesAndCollectives := by
  refine ⟨fun h base n s c hi hact => ?_, fun h base n s c chain hi hact => ?_, fun h s c hact => ?_,
    fun h base s c bs gb hi hact => ?_⟩
  · intro u x k hbase hcount
    refine ⟨copy_not_producer hi hact hbase hcount, copy_bad_count hi hact hbase hcount, fun bs shb hprod hk hfirst haddr hroom hread =>
      ?_⟩
    intro r sh hshape hcheck hcheck2 hinside y chunks
    have hexec := copy_one_record hi hact hbase hcount hprod hk hfirst haddr hroom
      (issueRecord_passes hread hshape hcheck hcheck2 hinside)
    obtain ⟨cp, hend⟩ := copy_one_ends s c r sh
    exact ⟨_, cp, hexec, hend⟩
  · intro x k k0 issues hbase hcount hprod hlo hhi haddr hle hroom hbegin
    refine ⟨fun hissue => ?_, fun m hlom hlt hissue hheld => ?_⟩
    · obtain ⟨hexec, hissued⟩ := copy_all_records hi hact hbase hcount hprod rfl hlo hhi haddr hroom hbegin hle hissue
      exact ⟨_, hexec, copy_ends hissued⟩
    · obtain ⟨hexec, hissued⟩ := copy_held_record hi hact hbase hcount hprod rfl hlo hhi haddr hroom hbegin hlom hlt hissue hheld
      exact ⟨_, hexec, copy_stalls hact hissued (fun h0 => Nat.le_zero.1 (h0 ▸ hlom)) _⟩
  · intro u
    exact ⟨fun nopres dst src n wp hi hcheck hroom => copyl_enters hi hact hcheck hroom, fun d hi => cstat_owes hi hact⟩
  · intro u x r group a hbase haddr hread hcheck hgroup hids hself hsrc hdst hwp hder hroom
    obtain ⟨t, hexec, hmoved, hcolls, hops, hclear, hmem⟩ :=
      coll_enters hi hact hbase haddr hread hcheck hgroup hids hself hsrc hdst hwp hder hroom
    exact ⟨t, _, hexec, hmoved, hcolls, ⟨rfl, rfl, rfl, rfl, rfl, rfl, rfl, rfl,
      isSome_wp_enteredColl u c bs gb⟩, hops, hclear, hmem⟩

end Sys2Proof.Machine
end

section
/-! SUPPORT. Updates of waypoints, the end of copies, and counters that fall (R120, R125, R127). -/

namespace Sys2Proof.Machine

open Sys2Proof

/-! ### Counters (R120) -/

theorem troupe_dropOp (s : State) (t id : Nat) :
    (dropOp s t id).troupe t = { s.troupe t with ops := (s.troupe t).ops.filter fun o => o.id != id } :=
  State.troupe_setTroupe_self _ _ _

theorem forgetCopies_rest (s : State) (o : EngOp) :
    { forgetCopies s o with copies := s.copies, colls := s.colls } = s := by
  unfold forgetCopies
  split <;> rfl

theorem troupe_forgetCopies (s : State) (o : EngOp) (t : Nat) : (forgetCopies s o).troupe t = s.troupe t :=
  congrArg (tget · Troupe.absent t) (congrArg State.troupes (forgetCopies_rest s o) :)

/-- Where ids are apart, an operation that leaves is the only one to leave its class. -/
theorem length_filter_drop {ops : List EngOp} {o : EngOp} (hids : (ops.map EngOp.id).Nodup) (ho : o ∈ ops) (cls : Eng) :
    ((ops.filter fun p => p.id != o.id).filter fun p => p.cls == cls).length + (if o.cls = cls then 1 else 0) =
      (ops.filter fun p => p.cls == cls).length := by
  induction ops with
  | nil => cases ho
  | cons p ps ih =>
    rw [List.map_cons, List.nodup_cons] at hids
    obtain ⟨hfresh, hids⟩ := hids
    rcases List.mem_cons.1 ho with rfl | ho
    · have hrest : (ps.filter fun q => q.id != o.id) = ps := List.filter_eq_self.2 fun q hq =>
        bne_iff_ne.2 fun he => hfresh (he ▸ List.mem_map_of_mem hq)
      rw [List.filter_cons_of_neg (by simp), hrest]
      by_cases hcls : o.cls = cls
      · rw [if_pos hcls, List.filter_cons_of_pos (by simpa using hcls), List.length_cons]
      · rw [if_neg hcls, List.filter_cons_of_neg (by simpa using hcls), Nat.add_zero]
    · have hne : p.id ≠ o.id := fun he => hfresh (he ▸ List.mem_map_of_mem ho)
      rw [List.filter_cons_of_pos (p := fun q : EngOp => q.id != o.id) (bne_iff_ne.2 hne)]
      by_cases hcls : p.cls = cls
      · rw [List.filter_cons_of_pos (by simpa using hcls), List.filter_cons_of_pos (by simpa using hcls), List.length_cons,
          List.length_cons, Nat.add_right_comm, ih hids ho]
      · rw [List.filter_cons_of_neg (by simpa using hcls), List.filter_cons_of_neg (by simpa using hcls), ih hids ho]

theorem exec_engineCounterFall_ended {s : State} {t : Nat} {cls : Eng} {o : EngOp}
    (hfind : (s.troupe t).ops.find? (fun x => x.cls == cls) = some o) (hend : opEnded s o = true) :
    exec (.engineCounterFall t cls) s = .next (dropOp (forgetCopies s o) t o.id) := by
  rw [exec_engineCounterFall, execEngineCounterFall, hfind]
  dsimp only
  rw [if_pos hend]

/-- The oldest operation of a class, whose work has ended, leaves its counter. -/
theorem copiesLand_counter {s : State} {t : Nat} {cls : Eng} {o : EngOp}
    (hfind : (s.troupe t).ops.find? (fun x => x.cls == cls) = some o) (hend : opEnded s o = true)
    (hids : ((s.troupe t).ops.map EngOp.id).Nodup) : ∃ z, exec (.engineCounterFall t cls) s = .next z ∧
      (z.troupe t).counter cls + 1 = (s.troupe t).counter cls ∧
      (∀ c, c ≠ cls → (z.troupe t).counter c = (s.troupe t).counter c) ∧
      (z.troupe t).regs = (s.troupe t).regs ∧ z.mem = s.mem ∧ ∀ u, u ≠ t → z.troupe u = s.troupe u := by
  have hcls : o.cls = cls := by simpa using List.find?_some hfind
  have hcount := length_filter_drop hids (List.mem_of_find?_eq_some hfind)
  have htroupe : (dropOp (forgetCopies s o) t o.id).troupe t =
      { s.troupe t with ops := (s.troupe t).ops.filter fun p => p.id != o.id } := by
    rw [troupe_dropOp, troupe_forgetCopies]
  refine ⟨_, exec_engineCounterFall_ended hfind hend, ?_, fun c hc => ?_, ?_, ?_, fun u hu => ?_⟩
  · have hown := hcount cls
    rw [if_pos hcls] at hown
    rw [htroupe]
    exact hown
  · have hother := hcount c
    rw [if_neg fun he => hc (he.symm.trans hcls), Nat.add_zero] at hother
    rw [htroupe]
    exact hother
  · rw [htroupe]
  · exact (congrArg State.mem (forgetCopies_rest s o) :)
  · exact (State.troupe_setTroupe_ne _ _ hu).trans (troupe_forgetCopies s o u)

/-! ### A copy by its id -/

theorem onCopy_next {s : State} {id : Nat} {c : Copy} (h : copyById s id = some c) (f : State → Copy → State) :
    onCopy s id f = .next (f s c) := by
  unfold onCopy
  rw [h]

/-- The first copy of an id, once it has been set. -/
theorem copyById_setCopy {s : State} {c x : Copy} (h : copyById s c.id = some x) : copyById (setCopy s c) c.id = some c := by
  unfold copyById at h
  unfold copyById setCopy
  dsimp only
  generalize s.copies = cs at h ⊢
  induction cs with
  | nil => cases h
  | cons y ys ih =>
    rw [List.map_cons]
    by_cases hy : y.id = c.id
    · rw [if_pos hy, List.find?_cons_of_pos (by simp)]
    · rw [List.find?_cons_of_neg (by simpa using hy)] at h
      rw [if_neg hy, List.find?_cons_of_neg (by simpa using hy), ih h]

theorem copyById_mem {s : State} {id : Nat} {c : Copy} (h : copyById s id = some c) : c ∈ s.copies :=
  List.mem_of_find?_eq_some h

theorem copyById_congr {s z : State} (h : z.copies = s.copies) (id : Nat) : copyById z id = copyById s id := by
  rw [copyById, h, copyById]

/-! ### Copies that end (R125) -/

/-- The arrivals of a copy at its waypoints, with ids from `n` on. -/
def arrivals (n cid : Nat) (wps : List (Option WpRef)) : List WpUpd :=
  (wps.filterMap id).zipIdx.map fun w => ⟨n + w.2, w.1.addr, some w.1.gen, 0, true, [], cid, 0, none, none, none⟩

theorem arrivals_cons (n cid : Nat) (w : WpRef) (wps : List (Option WpRef)) : arrivals n cid (some w :: wps) =
    ⟨n, w.addr, some w.gen, 0, true, [], cid, 0, none, none, none⟩ :: arrivals (n + 1) cid wps := by
  rw [arrivals, List.filterMap_cons_some (f := id) rfl, List.zipIdx_cons, List.map_cons, List.zipIdx_succ, List.map_map]
  refine congrArg₂ List.cons rfl (List.map_congr_left fun x _ => ?_)
  dsimp only [Function.comp_apply]
  rw [Nat.add_assoc, Nat.add_comm 1]

/-- Waypoint by waypoint, one arrival where there is one. -/
theorem foldl_arrivals {cid : Nat} {f : State → Option WpRef × Nat → State} (hsome : ∀ z p i, f z (some p, i) = addUpd z p 0 true cid)
    (hnone : ∀ z i, f z (none, i) = z) (wps : List (Option WpRef)) (k : Nat) (s : State) :
    { (wps.zipIdx k).foldl f s with nextId := s.nextId } = { s with upds := s.upds ++ arrivals s.nextId cid wps } := by
  induction wps generalizing k s with
  | nil =>
    rw [arrivals]
    exact (congrArg (fun us => { s with upds := us }) (List.append_nil s.upds)).symm
  | cons w wps ih =>
    rw [List.zipIdx_cons, List.foldl_cons]
    cases w with
    | none => rw [hnone, ih]; rfl
    | some p =>
      rw [hsome, arrivals_cons]
      refine (congrArg (fun x : State => { x with nextId := s.nextId }) (ih (k + 1) (addUpd s p 0 true cid)) :).trans ?_
      rw [addUpd]
      dsimp only
      rw [List.append_assoc, List.singleton_append]

theorem copiesLand_completion {s : State} {cp : Copy} (hcopy : copyById s cp.id = some cp) (hended : cp.ended = false)
    (hparked : cp.parked = false) (hstands : cp.stands = false) (hdone : ∀ k ∈ cp.chunks, k.done = true)
    (hupds : ∀ u ∈ s.upds, u.copy ≠ cp.id) (hlost : ∀ k ∈ cp.chunks, k.lost = none) :
    ∃ t, exec (.copyCompletion cp.id) s = .next t ∧ t.mem = s.mem ∧ copyById t cp.id = some { cp with ended := true } ∧
      t.upds = s.upds ++ arrivals s.nextId cp.id cp.wps := by
  have hready : (cp.ended || cp.parked || cp.stands || cp.chunks.any (fun k => !k.done) || s.upds.any fun u => u.copy == cp.id) =
      false := by
    rw [hended, hparked, hstands, List.any_eq_false.2 fun k hk => by simp [hdone k hk],
      List.any_eq_false.2 fun u hu => by simpa using hupds u hu]
    rfl
  have hkept (i : Nat) : (cp.chunks.filter fun k => k.target == i).findSome? Chunk.lost = none :=
    List.findSome?_eq_none_iff.2 fun k hk => hlost k (List.mem_filter.1 hk).1
  have hcopyEnded : copyById (setCopy s { cp with ended := true }) cp.id = some { cp with ended := true } :=
    copyById_setCopy (c := { cp with ended := true }) hcopy
  rw [exec_copyCompletion, execCopyCompletion, onCopy_next hcopy]
  dsimp only
  rw [hready, if_neg Bool.false_ne_true]
  have hrest := foldl_arrivals (cid := cp.id) (f := fun z w =>
    match w.1, (cp.chunks.filter fun k => k.target == w.2).findSome? Chunk.lost with
    | some p, none => addUpd z p 0 true cp.id
    | some _, some co => loseDelivery z co
    | none, _ => z) (fun z p i => by dsimp only; rw [hkept]) (fun z i => rfl) cp.wps 0 (setCopy s { cp with ended := true })
  refine ⟨_, rfl, (congrArg State.mem hrest :), ?_, (congrArg State.upds hrest :)⟩
  exact (copyById_congr (congrArg State.copies hrest :) _).trans hcopyEnded

/-! ### Waypoints (R127) -/

theorem consumeFor_clean {s : State} {rs : List (Nat × Nat)} (h : ∀ r ∈ rs, poisoned s r.1 r.2 = false) (run : Option Nat) :
    consumeFor s run rs = s := by
  have hnone : (s.poison.filter fun p => rs.any fun r => overlaps r.1 r.2 (8 * p) 8) = [] := by
    refine List.filter_eq_nil_iff.2 fun p hp hany => ?_
    obtain ⟨r, hr, hmeets⟩ := List.any_eq_true.1 hany
    exact List.any_eq_false.1 (h r hr) p hp hmeets
  rw [consumeFor, hnone]
  rfl

/-- PENDARR after an update. -/
def wpPending (w0 : Nat) (arrival : Bool) : Nat := w0 % 2 ^ 16 - if arrival then 1 else 0
/-- The first word of a waypoint after an update that leaves `pend` arrivals and `rem` bytes. -/
def wpWord (w0 first rem pend : Nat) : Nat :=
  (w0 / 2 ^ 17) * 2 ^ 17 + if pend = 0 ∧ rem = 0 then (1 - w0 / 2 ^ 16 % 2) * 2 ^ 16 + first % 2 ^ 16
    else w0 / 2 ^ 16 % 2 * 2 ^ 16 + pend
/-- What an update of a waypoint at `a` writes. -/
def wpBytes (s : State) (a bytes : Nat) (arrival : Bool) : List Byte :=
  let w0 := cleanN s a 4
  let first := cleanN s (a + 4) 4
  let rem := cleanN s (a + 8) 4 - bytes
  let pend := wpPending w0 arrival
  leBytes 4 (wpWord w0 first rem pend) ++ leBytes 4 first ++
    leBytes 4 (if pend = 0 ∧ rem = 0 then cleanN s (a + 12) 4 else rem)

/-- An update of an older generation. -/
theorem wpUpdate_stale {s : State} {a g : Nat} (hg : g ≠ cleanN s a 4 / 2 ^ 17) (w : Who) (bytes : Nat) (arrival : Bool) (run : Nat) :
    wpUpdate s w a (some g) bytes arrival run = bump s (sliceCounter (countSlice s a) 0) 1 := if_pos (by simpa using hg)

/-- An update of the waypoint's own generation is one write; a deterministic run may be marked. -/
theorem wpUpdate_current {s : State} {a : Nat} {gen : Option Nat} (hgen : ∀ g, gen = some g → g = cleanN s a 4 / 2 ^ 17) (w : Who)
    (bytes : Nat) (arrival : Bool) (run : Nat) : { wpUpdate s w a gen bytes arrival run with runs := s.runs } =
      { homeWrite s w a (wpBytes s a bytes arrival) with runs := s.runs } := by
  have hown : (gen.any fun x => x != cleanN s a 4 / 2 ^ 17) = false := by
    cases gen with
    | none => rfl
    | some g => simp [hgen g rfl]
  have hpend : (if arrival = true then cleanN s a 4 % 2 ^ 16 - 1 else cleanN s a 4 % 2 ^ 16) = wpPending (cleanN s a 4) arrival := by
    cases arrival <;> rfl
  unfold wpUpdate wpBytes wpWord
  dsimp only
  rw [hown, if_neg Bool.false_ne_true, hpend]
  by_cases hdone : wpPending (cleanN s a 4) arrival = 0 ∧ cleanN s (a + 8) 4 - bytes = 0
  · simp only [hdone.1, hdone.2, decide_true, Bool.and_self, if_true, and_self, Nat.add_assoc]
    split <;> rfl
  · have hopen : (decide (wpPending (cleanN s a 4) arrival = 0) && decide (cleanN s (a + 8) 4 - bytes = 0)) = false := by
      simpa using hdone
    simp only [hopen, hdone, Bool.false_eq_true, if_false, Nat.add_assoc]
    split <;> rfl

theorem exec_waypointUpdate_performed {s : State} {u : WpUpd} (hfind : s.upds.find? (fun x => x.id == u.id) = some u)
    (hinit : u.init = none) (hmarks : u.marks = none) (hwatch : anyWatched s [(u.addr, 16)] = false)
    (hafter : ∀ i ∈ u.after, accDone s i = true) (hopen : lineClosed s 0 [(u.addr, 16)] = false)
    (hlost : lostAt s ((copyById s u.copy).any Copy.castWp) u.addr = none) (hder : inDerived s u.addr 16 = false)
    (hclean : poisoned s u.addr 16 = false) : exec (.waypointUpdate u.id) s =
      .next (wpUpdate { s with upds := s.upds.filter fun x => x.id != u.id } .device u.addr u.gen u.bytes u.arrival u.run) := by
  have hdone : (u.after.any fun i => !accDone s i) = false := by simpa using hafter
  have hlost' : lostAt { s with upds := s.upds.filter fun x => x.id != u.id }
    ((copyById { s with upds := s.upds.filter fun x => x.id != u.id } u.copy).any Copy.castWp) u.addr = none := hlost
  rw [exec_waypointUpdate, execWaypointUpdate, hfind]
  dsimp only
  rw [hdone, if_neg Bool.false_ne_true, hmarks]
  dsimp only
  rw [hopen, if_neg Bool.false_ne_true, hlost']
  dsimp only
  rw [hder, if_neg Bool.false_ne_true, hwatch, if_neg Bool.false_ne_true, List.isEmpty_nil, if_pos rfl, stepWaypoint, hinit]
  dsimp only
  rw [consumeFor_clean (s := { s with upds := _ }) fun r hr => by rw [List.mem_singleton.1 hr]; exact hclean]

theorem cleanN_lt (s : State) (a n : Nat) : cleanN s a n < 256 ^ n := by
  have hlt := leNat_lt (cleanBytes s a n)
  rwa [cleanBytes, List.length_map, List.length_range] at hlt

theorem wpWord_lt {w0 first rem pend : Nat} (hw0 : w0 < 2 ^ 32) (hpend : pend ≤ w0 % 2 ^ 16) :
    wpWord w0 first rem pend < 2 ^ 32 := by
  unfold wpWord
  split <;> omega

/-- A number among the bytes of a write, once they stand. -/
theorem cleanN_of_wrote {s z : State} {a : Nat} {pre post : List Byte} {n x : Nat}
    (hwrote : Wrote a (pre ++ leBytes n x ++ post) s z) (hclean : poisoned s a (pre ++ leBytes n x ++ post).length = false)
    (hpoison : z.poison = s.poison) : cleanN z (a + pre.length) n = x % 256 ^ n := by
  have hlength : (pre ++ leBytes n x ++ post).length = pre.length + n + post.length := by
    rw [List.length_append, List.length_append, leBytes_length]
  have hpart : poisoned z (a + pre.length) n = false := by
    rw [poisoned, hpoison]
    exact poisoned_part hclean (Nat.le_add_right _ _) (by omega)
  rw [cleanN_eq_readN hpart]
  refine readN_of_bytes n fun k hk => ?_
  have hin : pre.length + k < (pre ++ leBytes n x ++ post).length := by omega
  rw [Nat.add_assoc, hwrote.now _ hin, List.getElem_append_left (by rw [List.length_append, leBytes_length]; omega),
    List.getElem_append_right (Nat.le_add_right _ _)]
  simp [leBytes]

theorem copiesLand_waypoint {s z : State} {a bytes : Nat} {arrival : Bool} (hclean : poisoned s a 16 = false)
    (hz : { z with runs := s.runs } = { homeWrite s .device a (wpBytes s a bytes arrival) with runs := s.runs }) :
    let w0 := cleanN s a 4
    let first := cleanN s (a + 4) 4
    let rem := cleanN s (a + 8) 4 - bytes
    let pend := wpPending w0 arrival
    cleanN z (a + 4) 4 = first ∧ cleanN z a 4 = wpWord w0 first rem pend ∧
      cleanN z (a + 8) 4 = (if pend = 0 ∧ rem = 0 then cleanN s (a + 12) 4 else rem) ∧
      ∀ x, (x < a ∨ a + 12 ≤ x) → z.mem.byte x = s.mem.byte x := by
  intro w0 first rem pend
  have hlength : (wpBytes s a bytes arrival).length = 12 := by simp [wpBytes, leBytes_length]
  have hne : wpBytes s a bytes arrival ≠ [] := by
    rw [← List.length_pos_iff, hlength]
    decide
  have hpart : poisoned s a (wpBytes s a bytes arrival).length = false := by
    rw [hlength]
    exact poisoned_part hclean (Nat.le_refl a) (by omega)
  have hwrote := wrote_homeWrite .device hne hpart
  have hpoison := poison_homeWrite .device hpart
  have hread (b : Nat) : cleanN z b 4 = cleanN (homeWrite s .device a (wpBytes s a bytes arrival)) b 4 :=
    cleanN_congr (congrArg State.poison hz :) fun k _ => congrArg (Memory.byte · (b + k)) (congrArg State.mem hz :)
  generalize homeWrite s .device a (wpBytes s a bytes arrival) = y at hz hwrote hpoison hread
  have hw0 : w0 < 2 ^ 32 := cleanN_lt s a 4
  have hexp : cleanN s (a + 12) 4 < 2 ^ 32 := cleanN_lt s (a + 12) 4
  have hold : cleanN s (a + 8) 4 < 2 ^ 32 := cleanN_lt s (a + 8) 4
  refine ⟨?_, ?_, ?_, fun x hx => ?_⟩
  · rw [hread]
    exact (cleanN_of_wrote (pre := leBytes 4 (wpWord w0 first rem pend)) hwrote hpart hpoison).trans
      (Nat.mod_eq_of_lt (cleanN_lt s (a + 4) 4))
  · rw [hread]
    have hwords : wpBytes s a bytes arrival = [] ++ leBytes 4 (wpWord w0 first rem pend) ++ (leBytes 4 first ++
        leBytes 4 (if pend = 0 ∧ rem = 0 then cleanN s (a + 12) 4 else rem)) := List.append_assoc _ _ _
    rw [hwords] at hwrote hpart
    exact (cleanN_of_wrote hwrote hpart hpoison).trans (Nat.mod_eq_of_lt (wpWord_lt hw0 (Nat.sub_le _ _)))
  · rw [hread]
    have hwords : wpBytes s a bytes arrival = (leBytes 4 (wpWord w0 first rem pend) ++ leBytes 4 first) ++
        leBytes 4 (if pend = 0 ∧ rem = 0 then cleanN s (a + 12) 4 else rem) ++ [] := (List.append_nil _).symm
    rw [hwords] at hwrote hpart
    refine (cleanN_of_wrote hwrote hpart hpoison).trans (Nat.mod_eq_of_lt ?_)
    split
    · exact hexp
    · exact Nat.lt_of_le_of_lt (Nat.sub_le _ _) hold
  · rw [show z.mem = y.mem from (congrArg State.mem hz :)]
    exact hwrote.bytes x (by rwa [hlength])

end Sys2Proof.Machine
end

section
/-! SUPPORT. Landings of chunks (R120, R124), and what O47 says. -/

namespace Sys2Proof.Machine

open Sys2Proof

/-! ### States that differ in the copies alone -/

/-- Nothing but the copies has changed, and no chunk is held that was not. -/
structure CopiesMove (s z : State) : Prop where
  rest : { z with copies := s.copies } = s
  held : ∀ c ∈ z.copies, ∀ k ∈ c.chunks, k.held = true → ∃ d ∈ s.copies, k ∈ d.chunks

theorem CopiesMove.refl (s : State) : CopiesMove s s := ⟨rfl, fun c hc _ hk _ => ⟨c, hc, hk⟩⟩

theorem CopiesMove.setCopy {s z : State} {c : Copy} (h : CopiesMove s z)
    (hheld : ∀ k ∈ c.chunks, k.held = true → ∃ d ∈ s.copies, k ∈ d.chunks) : CopiesMove s (setCopy z c) := by
  refine ⟨(congrArg (fun x : State => { x with copies := s.copies }) h.rest :), fun x hx k hk hkheld => ?_⟩
  obtain ⟨y, hy, rfl⟩ := List.mem_map.1 hx
  by_cases hid : y.id = c.id
  · rw [if_pos hid] at hk
    exact hheld k hk hkheld
  · rw [if_neg hid] at hk
    exact h.held y hy k hk hkheld

/-- The state as the one before with other copies. -/
theorem CopiesMove.eq {s z : State} (h : CopiesMove s z) : z = { s with copies := z.copies } :=
  (congrArg (fun x : State => { x with copies := z.copies }) h.rest :)

theorem CopiesMove.closedLines_subset {s z : State} (h : CopiesMove s z) (but : Nat) : closedLines z but ⊆ closedLines s but := by
  obtain ⟨copies, rfl⟩ : ∃ copies, z = { s with copies := copies } := ⟨_, h.eq⟩
  intro l hl
  unfold closedLines at hl ⊢
  rw [List.mem_append, List.mem_append, List.mem_append] at hl ⊢
  obtain ((haccs | hcopies) | hupds) | hops := hl
  · exact .inl (.inl (.inl haccs))
  · obtain ⟨c, hc, hl⟩ := List.mem_flatMap.1 hcopies
    obtain ⟨k, hk, hl⟩ := List.mem_flatMap.1 hl
    by_cases hheld : k.held = true
    · obtain ⟨d, hd, hkd⟩ := h.held c hc k hk hheld
      exact .inl (.inl (.inr (List.mem_flatMap.2 ⟨d, hd, List.mem_flatMap.2 ⟨k, hkd, hl⟩⟩)))
    · simp [hheld] at hl
  · exact .inl (.inr hupds)
  · exact .inr hops

theorem heldClosed_iff (s : State) (but : Nat) (rs : List (Nat × Nat)) :
    heldClosed s but rs = true ↔ ∃ l ∈ linesOf rs, l ∈ closedLines s but := by
  rw [heldClosed, Bool.and_eq_true, List.any_eq_true]
  constructor
  · rintro ⟨-, l, hl, hclosed⟩
    exact ⟨l, hl, List.contains_iff_mem.1 hclosed⟩
  · rintro ⟨l, hl, hclosed⟩
    refine ⟨?_, l, hl, List.contains_iff_mem.2 hclosed⟩
    cases hlines : closedLines s but with
    | nil => rw [hlines] at hclosed; cases hclosed
    | cons => rfl

theorem CopiesMove.lineClosed {s z : State} (h : CopiesMove s z) {but : Nat} {rs : List (Nat × Nat)}
    (hopen : lineClosed s but rs = false) : lineClosed z but rs = false := by
  have hheld (hz : heldClosed z but rs = true) : heldClosed s but rs = true := by
    obtain ⟨l, hl, hclosed⟩ := (heldClosed_iff z but rs).1 hz
    exact (heldClosed_iff s but rs).2 ⟨l, hl, h.closedLines_subset but hclosed⟩
  rw [Machine.lineClosed, Bool.or_eq_false_iff] at hopen ⊢
  obtain ⟨hregion, hlines⟩ := hopen
  refine ⟨?_, Bool.eq_false_iff.2 fun hz => Bool.false_ne_true (hlines.symm.trans (hheld hz))⟩
  rw [h.eq]
  exact hregion

/-- A write after the copies have moved is that write without their moves. -/
theorem CopiesMove.wrote {s z t : State} {a : Nat} {bs : List Byte} (h : CopiesMove s z) (hwrote : Wrote a bs z t) :
    Wrote a bs s { t with copies := s.copies } := by
  obtain ⟨copies, rfl⟩ : ∃ copies, z = { s with copies := copies } := ⟨_, h.eq⟩
  exact ⟨hwrote.now, hwrote.bytes, (congrArg (fun x : State => { x with copies := s.copies }) hwrote.rest :), hwrote.waits,
    hwrote.packs, hwrote.ports⟩

/-! ### The bytes of a source (R124, R316) -/

/-- Bytes that have not been taken yet, and hold no poison, are taken as memory has them. -/
theorem takeBytes_clean {s : State} {c : Copy} {a n : Nat} (hclean : ∀ r ∈ untaken c a n, poisoned s r.1 r.2 = false) :
    ∃ taken, takeBytes s c a n =
      (setCopy s { c with taken := taken }, (List.range n).map fun j => tget c.taken (s.mem.byte (a + j)) (a + j)) := by
  have hfresh : ((((List.range n).map fun k => a + k).filter fun p => !c.taken.any fun x => x.1 == p).map fun p => (p, 1)) =
      untaken c a n := by
    rw [List.filter_map, List.map_map]
    rfl
  have hbytes : ((List.range n).map fun k => tget c.taken (cleanByte s (a + k)) (a + k)) =
      (List.range n).map fun j => tget c.taken (s.mem.byte (a + j)) (a + j) := by
    refine List.map_congr_left fun j hj => ?_
    by_cases htaken : (c.taken.any fun x => x.1 == a + j) = true
    · obtain ⟨x, hx, hkey⟩ := List.any_eq_true.1 htaken
      exact tget_default ⟨x, hx, by simpa using hkey⟩ _ _
    · rw [cleanByte_of_clean (hclean (a + j, 1) (List.mem_map.2 ⟨j, List.mem_filter.2 ⟨hj, (Bool.not_eq_true' _).mpr (Bool.eq_false_iff.2 htaken)⟩, rfl⟩))]
  rw [takeBytes]
  dsimp only
  rw [hfresh, consumeParts_clean hclean, hbytes]
  exact ⟨_, rfl⟩

/-- What the source of a chunk gives: zeros, or the bytes of a place that an engine may read. -/
def SourceGives (s : State) (cp : Copy) (k : Chunk) (bs : List Byte) : Prop :=
  k.src = .zero ∧ bs = List.replicate k.len 0 ∨ ∃ x, k.src = .phys x ∧
    bs = ((List.range k.len).map fun j => tget cp.taken (s.mem.byte (x + j)) (x + j)) ∧
    engineStale s (untaken cp x k.len) = [] ∧ engineMayRead s (untaken cp x k.len) = true ∧
    ∀ r ∈ untaken cp x k.len, poisoned s r.1 r.2 = false

theorem SourceGives.length {s : State} {cp : Copy} {k : Chunk} {bs : List Byte} (h : SourceGives s cp k bs) : bs.length = k.len := by
  obtain ⟨-, rfl⟩ | ⟨x, -, rfl, -⟩ := h
  · exact List.length_replicate
  · rw [List.length_map, List.length_range]

theorem sourceBytes_gives {s : State} {cp : Copy} {k : Chunk} {bs : List Byte} (hsrc : SourceGives s cp k bs)
    (hcopy : copyById s cp.id = some cp) (hearly : k.early = none) (hafter : ∀ j ∈ cp.after, accDone s j = true) (i : Nat)
    (data : Payload) : ∃ z taken, sourceBytes s cp i k data = (z, some bs) ∧ CopiesMove s z ∧
      copyById z cp.id = some { cp with taken := taken } := by
  have hdone : (cp.after.any fun j => !accDone s j) = false := by simpa using hafter
  unfold sourceBytes
  rw [hearly]
  dsimp only
  rw [hdone, if_neg Bool.false_ne_true]
  obtain ⟨hzero, rfl⟩ | ⟨x, hphys, rfl, hstale, hread, hclean⟩ := hsrc
  · rw [hzero]
    exact ⟨s, cp.taken, rfl, .refl s, hcopy⟩
  · obtain ⟨taken, htake⟩ := takeBytes_clean hclean
    rw [hphys]
    dsimp only
    rw [hstale, List.any_nil, if_neg Bool.false_ne_true, if_neg (by decide), hread, Bool.not_true, if_neg Bool.false_ne_true, htake]
    exact ⟨_, taken, rfl, (CopiesMove.refl s).setCopy fun k hk _ => ⟨cp, copyById_mem hcopy, hk⟩,
      copyById_setCopy (c := { cp with taken := taken }) hcopy⟩

/-! ### The bytes at their destination -/

theorem landBytes_written {s : State} {c : Copy} {k : Chunk} {a : Nat} (hdst : k.dst = .phys a) (hheld : k.held = false)
    (hlost : lostAt s c.cast a = none) (hder : inDerived s a k.len = false) (hopen : lineClosed s 0 [(a, k.len)] = false)
    (hwatch : anyWatched s [(a, k.len)] = false) (i : Nat) (bs : List Byte) :
    landBytes s c i k bs = (homeWrite s .device a bs, some none) := by
  unfold landBytes
  rw [hdst]
  dsimp only
  rw [hlost]
  dsimp only
  rw [hder, if_neg Bool.false_ne_true, hheld, if_neg Bool.false_ne_true, hopen, if_neg Bool.false_ne_true, hwatch,
    if_neg Bool.false_ne_true, List.isEmpty_nil, if_pos rfl]

/-- An access that is examined again stays as it is, or is performed. -/
theorem reexamine_st (m : Memory) (a n : Nat) (x : Access) :
    (reexamine m a n x).st = x.st ∨ (reexamine m a n x).st = .performed := by
  unfold reexamine
  dsimp only
  split_ifs <;> simp

theorem reexamine_ne_heldP {x : Access} (h : x.st ≠ .heldP) (m : Memory) (a n : Nat) : (reexamine m a n x).st ≠ .heldP := by
  obtain hst | hst := reexamine_st m a n x
  · rwa [hst]
  · rw [hst]
    decide

/-- Where no access waits for a P bit, bits that are set release none. -/
theorem setPresent_rest {s : State} (h : ∀ b ∈ s.accs, b.st ≠ .heldP) (ls : List Nat) :
    { setPresent s ls with pclear := s.pclear } = s := by
  unfold setPresent
  by_cases hls : ls.isEmpty = true
  · rw [if_pos hls]
  · have hnone (t : State) : (s.accs.filter fun a => a.st == .heldP && !anyAbsent t (touchRanges t a)) = [] :=
      List.filter_eq_nil_iff.2 fun b hb => by simp [h b hb]
    rw [if_neg hls]
    dsimp only
    rw [hnone]
    rfl

/-- A chunk that has been performed. -/
def Chunk.landed (k : Chunk) : Chunk :=
  { k with done := true, marks := [], held := false, early := none, lost := none, sent := 0, again := 0 }

theorem chunkDone_landed {s : State} {c : Copy} {i : Nat} {k : Chunk} (hcopy : copyById s c.id = some c)
    (hchunk : c.chunks[i]? = some k) (hended : c.ended = false) (hheld : ∀ b ∈ s.accs, b.st ≠ .heldP) :
    (chunkDone s c.id i none).mem = s.mem ∧
      copyById (chunkDone s c.id i none) c.id = some { c with chunks := c.chunks.set i k.landed } ∧
      ∀ w, c.wps[k.target]? = some (some w) → (chunkDone s c.id i none).upds =
        s.upds ++ [⟨s.nextId, w.addr, some w.gen, k.len, false, [], c.id, 0, none, none, none⟩] := by
  have hset : copyById (setCopy s { c with chunks := c.chunks.set i k.landed }) c.id =
      some { c with chunks := c.chunks.set i k.landed } :=
    copyById_setCopy (c := { c with chunks := c.chunks.set i k.landed }) hcopy
  unfold chunkDone
  rw [hcopy]
  dsimp only
  rw [hchunk]
  dsimp only
  generalize List.filter _ (pieceLines [k]) = ls
  generalize hz : setPresent _ ls = z
  have hrest : { z with pclear := s.pclear } = setCopy s { c with chunks := c.chunks.set i k.landed } := by
    rw [← hz]
    exact setPresent_rest (s := setCopy s { c with chunks := c.chunks.set i k.landed }) hheld ls
  have hmem : z.mem = s.mem := (congrArg State.mem hrest :)
  have hcopies : z.copies = (setCopy s { c with chunks := c.chunks.set i k.landed }).copies := (congrArg State.copies hrest :)
  have hby := (copyById_congr hcopies c.id).trans hset
  rw [hended] at hby ⊢
  rcases hwp : c.wps[k.target]? with _ | _ | p
  · exact ⟨hmem, hby, nofun⟩
  · exact ⟨hmem, hby, nofun⟩
  · refine ⟨hmem, hby, fun w hw => ?_⟩
    cases hw
    exact congrArg₂ (fun us n => us ++ [⟨n, p.addr, some p.gen, k.len, false, [], c.id, 0, none, none, none⟩])
      (congrArg State.upds hrest :) (congrArg State.nextId hrest :)

theorem passCopyl_of_not_stands {s : State} {id : Nat} {c : Copy} (hcopy : copyById s id = some c) (hstands : c.stands = false) :
    passCopyl s id = s := by
  unfold passCopyl
  rw [hcopy]
  dsimp only
  rw [hstands, Bool.false_and]
  cases c.lane <;> rfl

/-! ### A landing -/

/-- A chunk whose bytes have been read and stand at no destination yet. -/
def Chunk.fetched (k : Chunk) (bs : List Byte) : Chunk := { k with early := some bs, sent := 0 }

/-- A copy with chunk `i` fetched. -/
def Copy.fetched (c : Copy) (i : Nat) (k : Chunk) (bs : List Byte) (taken : Table Byte) : Copy :=
  { c with chunks := c.chunks.set i (k.fetched bs), taken := taken }

/-- A landing whose source gives its bytes writes them, then the chunk is done. -/
theorem landChunk_eq {s y w : State} {cp : Copy} {i : Nat} {k : Chunk} {bs : List Byte} {taken : Table Byte} {data : Payload}
    {lost : Option Nat} (hbytes : sourceBytes s cp i k data = (y, some bs)) (hcopy : copyById y cp.id = some { cp with taken := taken })
    (hearly : k.early = none) (hland : landBytes (setCopy y (cp.fetched i k bs taken)) (cp.fetched i k bs taken) i (k.fetched bs) bs =
      (w, some lost)) : landChunk s cp i k data = chunkDone w cp.id i lost := by
  unfold landChunk
  rw [hbytes]
  dsimp only
  rw [hcopy]
  dsimp only
  rw [hearly]
  exact congrArg (fun r : State × Option (Option Nat) => match r.2 with
    | none => settleGroups r.1
    | some lost => chunkDone r.1 cp.id i lost) hland

theorem Wrote.ne_heldP {s t : State} {a : Nat} {bs : List Byte} (h : Wrote a bs s t) (hnone : ∀ b ∈ s.accs, b.st ≠ .heldP) :
    ∀ b ∈ t.accs, b.st ≠ .heldP := by
  intro b hb
  rw [h.waits] at hb
  obtain ⟨x, hx, rfl⟩ := List.mem_map.1 hb
  exact reexamine_ne_heldP (hnone x hx) _ _ _

/-- A chunk whose source gives its bytes and whose destination takes them lands at once. -/
theorem landChunk_lands {s : State} {cp : Copy} {i a : Nat} {k : Chunk} {bs : List Byte} (hcopy : copyById s cp.id = some cp)
    (hended : cp.ended = false) (hheldP : ∀ b ∈ s.accs, b.st ≠ .heldP) (hchunk : cp.chunks[i]? = some k) (hheld : k.held = false)
    (hearly : k.early = none) (hlen : 0 < k.len) (hafter : ∀ j ∈ cp.after, accDone s j = true) (hdst : k.dst = .phys a)
    (hlost : lostAt s cp.cast a = none) (hder : inDerived s a k.len = false) (hopen : lineClosed s 0 [(a, k.len)] = false)
    (hwatch : anyWatched s [(a, k.len)] = false) (hclean : poisoned s a k.len = false) (hsrc : SourceGives s cp k bs)
    (data : Payload) : ∃ z taken, Wrote a bs s z ∧ (landChunk s cp i k data).mem = z.mem ∧
      copyById (landChunk s cp i k data) cp.id =
        some { cp with chunks := cp.chunks.set i (k.fetched bs).landed, taken := taken } ∧
      ∀ w, cp.wps[k.target]? = some (some w) → (landChunk s cp i k data).upds =
        s.upds ++ [⟨s.nextId, w.addr, some w.gen, k.len, false, [], cp.id, 0, none, none, none⟩] := by
  obtain ⟨y, taken, hbytes, hmove, hy⟩ := sourceBytes_gives hsrc hcopy hearly hafter i data
  have hne : bs ≠ [] := fun h => absurd hsrc.length (by rw [h, List.length_nil]; omega)
  have hfetched : CopiesMove s (setCopy y (cp.fetched i k bs taken)) := hmove.setCopy fun x hx hxheld => by
    rcases List.mem_or_eq_of_mem_set hx with hx | rfl
    · exact ⟨cp, copyById_mem hcopy, hx⟩
    · exact absurd (hheld.symm.trans hxheld) Bool.false_ne_true
  have hby : copyById (setCopy y (cp.fetched i k bs taken)) cp.id = some (cp.fetched i k bs taken) :=
    copyById_setCopy (c := cp.fetched i k bs taken) hy
  generalize hz : setCopy y (cp.fetched i k bs taken) = z at hfetched hby
  have heq := hfetched.eq
  have hland : landBytes z (cp.fetched i k bs taken) i (k.fetched bs) bs = (homeWrite z .device a bs, some none) :=
    landBytes_written (c := cp.fetched i k bs taken) (k := k.fetched bs) hdst hheld (by rw [heq]; exact hlost)
      (by rw [heq]; exact hder) (hfetched.lineClosed hopen) (by rw [heq]; exact hwatch) i bs
  have hwrote : Wrote a bs z (homeWrite z .device a bs) :=
    wrote_homeWrite .device hne (by rw [hsrc.length, heq]; exact hclean)
  have hkept := hwrote.rest.trans heq
  rw [landChunk_eq hbytes hy hearly (by rw [hz]; exact hland)]
  generalize homeWrite z .device a bs = t at hwrote hkept
  have hcopies : t.copies = z.copies := (congrArg State.copies hwrote.rest :)
  have hold : t.upds = s.upds := (congrArg State.upds hkept :)
  have hid : t.nextId = s.nextId := (congrArg State.nextId hkept :)
  obtain ⟨hi, -⟩ := List.getElem?_eq_some_iff.1 hchunk
  obtain ⟨hmem, hlanded, hupds⟩ := chunkDone_landed (c := cp.fetched i k bs taken) (i := i) ((copyById_congr hcopies cp.id).trans hby)
    (List.getElem?_set_self hi) hended (hwrote.ne_heldP (by rw [heq]; exact hheldP))
  refine ⟨_, taken, hfetched.wrote hwrote, hmem, hlanded.trans ?_, fun w hw => (hupds w hw).trans ?_⟩
  · rw [Copy.fetched, List.set_set]
  · rw [hold, hid]
    rfl

theorem copiesLand_landing {s : State} {cp : Copy} {i a : Nat} {k : Chunk} {bs : List Byte} (hcopy : copyById s cp.id = some cp)
    (hended : cp.ended = false) (hparked : cp.parked = false) (hstands : cp.stands = false)
    (hheldP : ∀ b ∈ s.accs, b.st ≠ .heldP) (hchunk : cp.chunks[i]? = some k) (hopenChunk : k.done = false) (hheld : k.held = false)
    (hearly : k.early = none) (hlen : 0 < k.len) (hfault : faultBefore s cp i = false)
    (hafter : ∀ j ∈ cp.after, accDone s j = true) (hdst : k.dst = .phys a)
    (hlost : lostAt s cp.cast a = none) (hder : inDerived s a k.len = false) (hopen : lineClosed s 0 [(a, k.len)] = false)
    (hwatch : anyWatched s [(a, k.len)] = false) (hclean : poisoned s a k.len = false) (hsrc : SourceGives s cp k bs)
    (data : Payload) : ∃ z t, Wrote a bs s z ∧ exec (.copyChunkLanding cp.id i data) s = .next t ∧ t.mem = z.mem ∧
      (∃ c2, copyById t cp.id = some c2 ∧ ∃ k2, c2.chunks[i]? = some k2 ∧ k2.done = true) ∧
      ∀ w, cp.wps[k.target]? = some (some w) →
        t.upds = s.upds ++ [⟨s.nextId, w.addr, some w.gen, k.len, false, [], cp.id, 0, none, none, none⟩] := by
  have hwaits : chunkWaits s cp i k = false := by
    rw [chunkWaits, hopenChunk, hended, hparked, hfault, Bool.false_or, Bool.false_or, Bool.false_or, Bool.and_false]
  obtain ⟨z, taken, hwrote, hmem, hlanded, hupds⟩ := landChunk_lands hcopy hended hheldP hchunk hheld hearly hlen hafter hdst hlost
    hder hopen hwatch hclean hsrc data
  obtain ⟨hi, -⟩ := List.getElem?_eq_some_iff.1 hchunk
  refine ⟨z, landChunk s cp i k data, hwrote, ?_, hmem, ⟨_, hlanded, (k.fetched bs).landed, List.getElem?_set_self hi, rfl⟩, hupds⟩
  rw [exec_copyChunkLanding, execCopyChunkLanding, onCopy_next hcopy, hchunk]
  dsimp only
  rw [hwaits, if_neg Bool.false_ne_true, passCopyl_of_not_stands hlanded hstands]

/-! ### O47 -/

theorem copiesLand_update {s : State} {u : WpUpd} (hfind : s.upds.find? (fun x => x.id == u.id) = some u)
    (hinit : u.init = none) (hmarks : u.marks = none) (hwatch : anyWatched s [(u.addr, 16)] = false)
    (hafter : ∀ i ∈ u.after, accDone s i = true) (hopen : lineClosed s 0 [(u.addr, 16)] = false)
    (hlost : lostAt s ((copyById s u.copy).any Copy.castWp) u.addr = none) (hder : inDerived s u.addr 16 = false)
    (hclean : poisoned s u.addr 16 = false) (hgen : ∀ g, u.gen = some g → g = cleanN s u.addr 4 / 2 ^ 17) :
    let w0 := cleanN s u.addr 4
    let first := cleanN s (u.addr + 4) 4
    let rem := cleanN s (u.addr + 8) 4 - u.bytes
    let pend := wpPending w0 u.arrival
    ∃ t, exec (.waypointUpdate u.id) s = .next t ∧ t.upds = s.upds.filter (fun x => x.id != u.id) ∧
      cleanN t (u.addr + 4) 4 = first ∧ cleanN t u.addr 4 = wpWord w0 first rem pend ∧
      cleanN t (u.addr + 8) 4 = (if pend = 0 ∧ rem = 0 then cleanN s (u.addr + 12) 4 else rem) ∧
      ∀ x, (x < u.addr ∨ u.addr + 12 ≤ x) → t.mem.byte x = s.mem.byte x := by
  intro w0 first rem pend
  have hz := wpUpdate_current (s := { s with upds := s.upds.filter fun x => x.id != u.id }) hgen .device u.bytes u.arrival u.run
  have hpart : poisoned s u.addr 12 = false := poisoned_part hclean (Nat.le_refl _) (by omega)
  have hlength : (wpBytes { s with upds := s.upds.filter fun x => x.id != u.id } u.addr u.bytes u.arrival).length = 12 := by
    simp [wpBytes, leBytes_length]
  have hwrote := wrote_homeWrite (s := { s with upds := s.upds.filter fun x => x.id != u.id }) .device
    (bs := wpBytes { s with upds := s.upds.filter fun x => x.id != u.id } u.addr u.bytes u.arrival) (a := u.addr)
    (by rw [← List.length_pos_iff, hlength]; decide) (by rw [hlength]; exact hpart)
  refine ⟨_, exec_waypointUpdate_performed hfind hinit hmarks hwatch hafter hopen hlost hder hclean, ?_,
    copiesLand_waypoint (s := { s with upds := s.upds.filter fun x => x.id != u.id }) hclean hz⟩
  exact (congrArg State.upds hz :).trans (congrArg State.upds hwrote.rest :)

/-- Settles O47: each clause is the lemma of its event. -/
theorem copiesLand : Obligations.CopiesLand := by
  unfold Obligations.CopiesLand
  refine ⟨?_, ?_, ?_, ?_⟩
  · intro s cp i a k data bs hcopy hended hparked hstands hheldP hchunk hdone hheld hearly hlen hfault hafter hdst hlost hder hopen
      hwatch hclean hsrc
    exact copiesLand_landing hcopy hended hparked hstands hheldP hchunk hdone hheld hearly hlen hfault hafter hdst hlost hder hopen
      hwatch hclean hsrc data
  · intro s cp hcopy hended hparked hstands hdone hupds hlost
    exact copiesLand_completion hcopy hended hparked hstands hdone hupds hlost
  · intro s u hfind hinit hmarks hwatch hafter hopen hlost hder hclean
    refine ⟨fun g hgen hold => ?_, fun hgen =>
      copiesLand_update hfind hinit hmarks hwatch hafter hopen hlost hder hclean hgen⟩
    rw [exec_waypointUpdate_performed hfind hinit hmarks hwatch hafter hopen hlost hder hclean, hgen]
    exact congrArg Host.Outcome.next
      (wpUpdate_stale (s := { s with upds := s.upds.filter fun x => x.id != u.id }) hold .device u.bytes u.arrival u.run)
  · intro s t cls o hfind hend hids
    exact copiesLand_counter hfind hend hids

end Sys2Proof.Machine
end

section
/-! SUPPORT. How an instruction ends whose Active threads stall, or which writes its result on top of a state that it has changed
elsewhere (R60, R161). -/

namespace Sys2Proof.Machine

open Sys2Proof

/-- The threads of Active stall. -/
theorem threadsGo_stalled (c : Ctx) (s : State) (w : Wait) :
    ThreadsGo c (fun _ th => { th with st := .stalled, wait := w }) s (finish c (.part s.begun c.act w)) where
  outside := onlyTroupe_finish_part (onlyTroupe_begun _ _) _ _
  troupe := troupe_finish_part c s.begun c.act w
  threads l := by
    have hthread : s.begun.thread c.t l = s.thread c.t l := rfl
    rw [thread_finish_part, hthread, Bool.or_self]
    cases hasLane c.act l with
    | true =>
      rw [Bool.not_true, Bool.and_false, if_neg Bool.false_ne_true]
      rfl
    | false => rw [Bool.not_false, Bool.and_true, if_neg Bool.false_ne_true, if_neg Bool.false_ne_true]

section
variable (z : State) (c : Ctx)

theorem thread_writeNow (ws : Writes) (l : Nat) : (writeNow z c ws).thread c.t l = z.thread c.t l := by
  rw [State.thread, troupe_writeNow]
  exact (congrArg (Troupe.thread · l) (Troupe.setRegs_rest (ws.flatMap Prod.snd) (z.troupe c.t)) :)

variable (wide : Bool) (d : Opd) (f : Nat → Dword)

theorem gets_finish_writeNow {l : Nat} (hl : l ∈ writers c d) :
    Gets ((finish c (.ok (writeNow z c (results c wide d f)))).troupe c.t) wide d l (f l) := fun w hw => by
  rw [troupe_finish_ok, troupe_writeNow, Troupe.reg_mapLanes]
  exact Troupe.reg_setRegs_of_mem _ (by rw [destKeys_eq]; exact destKeys_nodup _ _ _) _ (destWrites_mem_results hl hw)

theorem reg_finish_writeNow {k : Nat} (hk : k ∉ destKeys c wide d) :
    ((finish c (.ok (writeNow z c (results c wide d f)))).troupe c.t).reg k = (z.troupe c.t).reg k := by
  rw [troupe_finish_ok, troupe_writeNow, Troupe.reg_mapLanes, Troupe.reg_setRegs_of_not_mem]
  rwa [destKeys_eq]

end

end Sys2Proof.Machine
end

section
/-! SUPPORT. Entries of the derivation table, the tiles they stand for, and the lines that W names, as registration and removal
leave them (R134-R136, R147, R148). -/

namespace Sys2Proof.Machine

open Sys2Proof

/-- A table from which some keys have gone. -/
theorem tget_filter_gone {V : Type} {m : Table V} {p : Nat × V → Bool} {k : Nat} (h : ∀ v, p (k, v) = false) (d : V) :
    tget (m.filter p) d k = d := by
  induction m with
  | nil => rfl
  | cons x r ih =>
    obtain ⟨a, v⟩ := x
    by_cases ha : a = k
    · rw [ha, List.filter_cons_of_neg (by rw [h v]; exact Bool.false_ne_true), ih]
    · by_cases hp : p (a, v) = true
      · rw [List.filter_cons_of_pos hp, tget, if_neg ha, ih]
      · rw [List.filter_cons_of_neg hp, ih]

/-! ### Registration (R136) -/

/-- A registration that passes is of this run's partition, under the lowest free id. -/
theorem dregCheck_passes {s : State} {t id : Nat} {r : RegRec} {b d : Tensor} {reserved : Bool} {e : Entry}
    (h : dregCheck s t r b d reserved = .inr (id, e)) :
    freeId s = some id ∧ e.used = true ∧ e.part = (s.runOf t).part := by
  unfold dregCheck at h
  dsimp only at h
  -- each check that fails, no single home and no free id answer `.inl`
  iterate 8 (split at h; cases h)
  rename_i hfree
  split at h
  · cases h
  · cases h
    exact ⟨hfree, rfl, rfl⟩

theorem freeId_spec {s : State} {id : Nat} (h : freeId s = some id) : id < 128 ∧ (s.entry id).used = false :=
  ⟨List.mem_range.1 (List.mem_of_find?_eq_some h), by simpa using List.find?_some h⟩

section
variable (s : State) (id : Nat) (e : Entry)

theorem entry_register (k : Nat) : (register s id e).entry k = if k = id then e else s.entry k := tget_tput _ _ _ _ _

/-- Every tile of a new entry is STALE. -/
theorem tile_register {k : Nat} (hk : k < 65536) : (register s id e).tile id k = Tile.stale :=
  tget_filter_gone (fun _ => by
    have : tileKey id k / 65536 = id := by unfold tileKey; omega
    simp [this]) _

theorem mem_wset_register (l : Nat) : l ∈ (register s id e).wset ↔ l ∈ s.wset ∨ l ∈ e.base.elemLines :=
  List.mem_eraseDups.trans List.mem_append

/-! ### Removal (R147) -/

theorem entry_unregister (k : Nat) : (unregister s id).entry k = if k = id then Entry.free else s.entry k := by
  change tget (terase s.entries id) Entry.free k = _
  split
  · rename_i hk
    rw [hk, tget_terase_self]
  · rename_i hk
    exact tget_terase_ne _ _ hk

theorem wset_unregister_subset {l : Nat} (h : l ∈ (unregister s id).wset) : l ∈ s.wset := (List.mem_filter.1 h).1

theorem wset_unregister_kept {l : Nat} (h : l ∈ s.wset) (hbase : l ∉ (s.entry id).base.elemLines) : l ∈ (unregister s id).wset := by
  refine List.mem_filter.2 ⟨h, ?_⟩
  rw [Bool.not_eq_true', Bool.eq_false_iff]
  exact fun hgone => hbase (List.mem_filter.1 (List.contains_iff_mem.1 hgone)).1

end

/-! ### Entries of a partition (R290) -/

/-- The id is that of an entry of the partition of the troupe's run. -/
def OwnsEntry (s : State) (t id : Nat) : Prop := id < 128 ∧ (s.entry id).used = true ∧ (s.entry id).part = (s.runOf t).part

theorem ownEntry_of_owns {s : State} {t id : Nat} (h : OwnsEntry s t id) : ownEntry s t id = some (s.entry id) := by
  obtain ⟨hid, hused, hpart⟩ := h
  exact if_pos (by rw [decide_eq_true hid, hused, beq_iff_eq.2 hpart]; rfl)

theorem ownEntry_of_not_owns {s : State} {t id : Nat} (h : ¬OwnsEntry s t id) : ownEntry s t id = none :=
  if_neg fun hown => h (by simpa [OwnsEntry, and_assoc] using hown)

/-! ### DFRESH (R148, Table 11.6) -/

/-- What DFRESH makes of one tile: a STALE one is queued, and BUSY. -/
def freshenTile (id : Nat) (z : State) (k : Nat) : State :=
  if (z.tile id k).st == .stale then queueTile (z.setTile id k { z.tile id k with st := .busy }) id k false else z

theorem freshen_eq (s : State) (id : Nat) (e : Entry) : freshen s id e = (List.range e.der.tiles).foldl (freshenTile id) s := rfl

/-- The tiles `ks` of an entry have been freshened: those that were STALE are BUSY, and queued at their home in that order. -/
structure Freshened (id : Nat) (ks : List Nat) (s z : State) : Prop where
  rest  : { z with tiles := s.tiles, slices := s.slices } = s
  tiles : ∀ k, (z.tile id k).st = if k ∈ ks ∧ (s.tile id k).st = .stale then .busy else (s.tile id k).st
  queue : (z.slice (s.entry id).home).queue =
    (s.slice (s.entry id).home).queue ++ (ks.filter fun k => (s.tile id k).st == .stale).map fun k => (id, k)

theorem tileKey_inj {id j k : Nat} : tileKey id j = tileKey id k ↔ j = k := by
  unfold tileKey
  omega

theorem freshened_tile (id : Nat) (s : State) (k : Nat) : Freshened id [k] s (freshenTile id s k) := by
  unfold freshenTile
  split
  · rename_i hst
    refine ⟨rfl, fun j => ?_, ?_⟩
    · rw [tile_queueTile, tile_setTile, if_congr tileKey_inj rfl rfl]
      by_cases hj : j = k
      · rw [if_pos hj, if_pos ⟨List.mem_singleton.2 hj, hj ▸ beq_iff_eq.1 hst⟩]
      · rw [if_neg hj, if_neg fun h => hj (List.mem_singleton.1 h.1)]
    · rw [List.filter_singleton, hst]
      exact congrArg Slice.queue (tget_tput_self _ _ _ _)
  · rename_i hst
    refine ⟨rfl, fun j => ?_, ?_⟩
    · rw [if_neg fun ⟨hj, hstale⟩ => hst (List.mem_singleton.1 hj ▸ beq_iff_eq.2 hstale)]
    · rw [List.filter_singleton, Bool.eq_false_iff.2 hst]
      exact (List.append_nil _).symm

theorem freshened_foldl (id : Nat) (ks : List Nat) (hks : ks.Nodup) : ∀ s, Freshened id ks s (ks.foldl (freshenTile id) s) := by
  induction ks with
  | nil => exact fun s => ⟨rfl, fun _ => (if_neg fun h => List.not_mem_nil h.1).symm, (List.append_nil _).symm⟩
  | cons k r ih =>
    intro s
    obtain ⟨hk, hr⟩ := List.nodup_cons.1 hks
    have F := freshened_tile id s k
    have I := ih hr (freshenTile id s k)
    have hentry : (freshenTile id s k).entry id = s.entry id :=
      congrArg (tget · Entry.free id) (congrArg State.entries F.rest :)
    have hother (j : Nat) (hj : j ≠ k) : ((freshenTile id s k).tile id j).st = (s.tile id j).st := by
      rw [F.tiles, if_neg fun h => hj (List.mem_singleton.1 h.1)]
    refine ⟨(congrArg (fun z : State => { z with tiles := s.tiles, slices := s.slices }) I.rest :).trans F.rest, fun j => ?_, ?_⟩
    · rw [List.foldl_cons, I.tiles]
      by_cases hj : j = k
      · rw [if_neg fun h => hk (hj ▸ h.1), F.tiles]
        exact if_congr (by simp [hj]) rfl rfl
      · rw [hother j hj]
        exact if_congr (by simp [hj]) rfl rfl
    · have hlater : r.filter (fun j => ((freshenTile id s k).tile id j).st == .stale) =
          r.filter fun j => (s.tile id j).st == .stale :=
        List.filter_congr fun j hj => by rw [hother j fun h => hk (h ▸ hj)]
      have hqueue := I.queue
      rw [hentry, F.queue, hlater] at hqueue
      rw [List.foldl_cons, hqueue, List.append_assoc, ← List.map_append, ← List.filter_append, List.singleton_append]

end Sys2Proof.Machine
end

section
/-! SUPPORT. DREG, DUNREG, DSTAT and DFRESH as they issue (R136, R138, R147, R148, R265, R290-R292), and the statement on them. -/

namespace Sys2Proof.Machine

open Sys2Proof

/-! ### DREG (R136) -/

section
variable {s : State} {c : Ctx} {rec0 x : Dword} {al n : Nat} (haddr : dregAddr s c.t x al n = none)
include haddr

theorem dregRead_stores (hstores : storeIds s c.t ≠ []) (k : List Byte → Res) :
    dregRead s c rec0 x al n k = .part s c.act .hazard := by
  rw [dregRead, haddr]
  exact if_pos (by simpa using hstores)

theorem dregRead_passes (hstores : storeIds s c.t = []) {bs : List Byte} (hread : recordBytes s c.t c.low x n = some bs)
    (k : List Byte → Res) : dregRead s c rec0 x al n k = k bs := by
  rw [dregRead, haddr, hstores, hread]
  rfl

end

section
variable {h : Hdr} {d base : Opd} {s : State} {c : Ctx} (hi : Issues (.dreg h d base) s c) (hact : c.act ≠ 0)
  (hbase : Agree c (readPair s.begun c · base 0))
  (haddr : dregAddr s.begun c.t (readPair s.begun c c.low base 0) 64 64 = none)
include hi hact hbase haddr

theorem dreg_waits_stores (hstores : storeIds s c.t ≠ []) : ∃ t, exec (.dreg h d base) s = .next t ∧
    ThreadsGo c (fun _ th => { th with st := .stalled, wait := .hazard }) s t := by
  refine ⟨_, ?_, threadsGo_stalled c s .hazard⟩
  rw [exec_dreg, execDreg, issue_next hi, Ctx.not_idle hact, if_neg Bool.false_ne_true, uniformTrap_none hbase]
  dsimp only
  rw [dregRead_stores (s := s.begun) haddr hstores]

variable (hstores : storeIds s c.t = []) {rb bb db : List Byte}
  (hrec : recordBytes s.begun c.t c.low (readPair s.begun c c.low base 0) 64 = some rb)
  (hbaddr : dregAddr s.begun c.t (regRec rb).bdesc 32 32 = none)
  (hbread : recordBytes s.begun c.t c.low (regRec rb).bdesc 32 = some bb)
  (hdaddr : dregAddr s.begun c.t (regRec rb).ddesc 32 32 = none)
  (hdread : recordBytes s.begun c.t c.low (regRec rb).ddesc 32 = some db) {id : Nat} {e : Entry}
  (hcheck : dregCheck s.begun c.t (regRec rb) (descriptor bb).1 (descriptor db).1 ((descriptor bb).2 || (descriptor db).2) =
    .inr (id, e))
include hstores hrec hbaddr hbread hdaddr hdread hcheck

theorem exec_dreg_checked : exec (.dreg h d base) s = .next (finish c
    (if heldClosed s.begun 0 e.base.rowRanges then .part s.begun c.act .hazard
      else .ok (writeNow (register (recordsRead s.begun c.t) id e) c (results c false d fun _ => BitVec.ofNat 64 id)))) := by
  rw [exec_dreg, execDreg, issue_next hi, Ctx.not_idle hact, if_neg Bool.false_ne_true, uniformTrap_none hbase]
  dsimp only
  rw [dregRead_passes (s := s.begun) haddr hstores hrec, dregRead_passes (s := s.begun) hbaddr hstores hbread,
    dregRead_passes (s := s.begun) hdaddr hstores hdread, hcheck]

theorem dreg_waits_held (hheld : heldClosed s.begun 0 e.base.rowRanges = true) : ∃ t, exec (.dreg h d base) s = .next t ∧
    ThreadsGo c (fun _ th => { th with st := .stalled, wait := .hazard }) s t := by
  have hexec := exec_dreg_checked hi hact hbase haddr hstores hrec hbaddr hbread hdaddr hdread hcheck
  rw [if_pos hheld] at hexec
  exact ⟨_, hexec, threadsGo_stalled c s .hazard⟩

theorem dreg_registers (hheld : heldClosed s.begun 0 e.base.rowRanges = false) : ∃ t, exec (.dreg h d base) s = .next t ∧
    t.entry id = e ∧ e.used = true ∧ e.part = (s.runOf c.t).part ∧ id < 128 ∧ (s.entry id).used = false ∧
    (∀ k, k ≠ id → t.entry k = s.entry k) ∧ (∀ k < 65536, (t.tile id k).st = .stale) ∧
    (∀ l, l ∈ t.wset ↔ l ∈ s.wset ∨ l ∈ e.base.elemLines) ∧
    (∀ l ∈ writers c d, Gets (t.troupe c.t) false d l (BitVec.ofNat 64 id)) ∧
    (∀ k, k ∉ destKeys c false d → (t.troupe c.t).reg k = (s.troupe c.t).reg k) ∧
    AllMoved c s t ∧ ∀ a, t.mem.byte a = s.mem.byte a := by
  have hexec := exec_dreg_checked hi hact hbase haddr hstores hrec hbaddr hbread hdaddr hdread hcheck
  rw [hheld, if_neg Bool.false_ne_true] at hexec
  obtain ⟨hfree, hused, hpart⟩ := dregCheck_passes hcheck
  obtain ⟨hid, hunused⟩ := freeId_spec hfree
  have N := readNotes_recordsRead s.begun c.t
  generalize recordsRead s.begun c.t = z at hexec N
  have hentries : z.entries = s.entries := (congrArg State.entries N.rest :)
  have hwset : z.wset = s.wset := (congrArg State.wset N.rest :)
  have hmem : z.mem = s.mem := (congrArg State.mem N.rest :)
  refine ⟨_, hexec, ?_, hused, hpart, hid, hunused, fun k hk => ?_, fun k hk => ?_, fun l => ?_,
    fun l hl => gets_finish_writeNow _ c false d _ hl, fun k hk => ?_, allMoved_finish_ok fun l => ?_,
    fun a => congrArg (Memory.byte · a) hmem⟩
  · exact (entry_register z id e id).trans (if_pos rfl)
  · exact (entry_register z id e k).trans ((if_neg hk).trans (congrArg (tget · Entry.free k) hentries))
  · exact congrArg Tile.st (tile_register z id e hk)
  · exact (mem_wset_register z id e l).trans (by rw [hwset])
  · rw [reg_finish_writeNow _ c false d _ hk]
    exact (congrArg (Troupe.reg · k) N.troupe :)
  · rw [thread_writeNow]
    exact N.thread l

end

/-! ### Instructions on an id (R290) -/

/-- The id that B names in the lanes of Active. -/
def idOf (s : State) (c : Ctx) (b : Src) : Nat := (readSrcZ s.begun c c.low b 1).toNat

section
variable {h : Hdr} {d : Opd} {b : Src} {s : State} {c : Ctx} (hact : c.act ≠ 0)
  (hu : Agree c (fun l => (readSrcZ s.begun c l b 1).setWidth 64))
include hact hu

theorem onId_passes (k : Nat → Res) : onId c b s.begun k = k (idOf s c b) := by
  rw [onId, Ctx.not_idle hact, if_neg Bool.false_ne_true]
  dsimp only
  rw [uniformTrap_none hu]
  dsimp only
  rw [BitVec.toNat_setWidth_of_le (by decide)]
  rfl

/-! ### DUNREG (R147, R291) -/

section
variable (hi : Issues (.dunreg h d b) s c)
include hi

theorem exec_dunreg_owns (hown : OwnsEntry s c.t (idOf s c b)) : exec (.dunreg h d b) s = .next (finish c
    (if feedsOther s (idOf s c b) (s.entry (idOf s c b)) then .ok (writeNow s.begun c (results c false d fun _ => 0))
      else if tilesBusy s (idOf s c b) then .part s.begun c.act .hazard
      else .ok (writeNow (unregister s.begun (idOf s c b)) c (results c false d fun _ => 1)))) := by
  rw [exec_dunreg, execDunreg, issue_next hi, onId_passes hact hu, ownEntry_of_owns (s := s.begun) hown]
  rfl

theorem dunreg_fails (hfail : ¬OwnsEntry s c.t (idOf s c b) ∨ feedsOther s (idOf s c b) (s.entry (idOf s c b)) = true) :
    ∃ t, exec (.dunreg h d b) s = .next t ∧ LaneNow c .rne false d (fun _ x => x = 0) s t := by
  refine ⟨_, ?_, laneNow_finish (f := fun _ => 0) (onlyTroupe_begun _ _) rfl (fun _ => rfl) (fun _ _ => rfl) (fun _ => rfl)
    fun _ _ => rfl⟩
  by_cases hown : OwnsEntry s c.t (idOf s c b)
  · rw [exec_dunreg_owns hact hu hi hown, if_pos (hfail.resolve_left (not_not.2 hown))]
  · rw [exec_dunreg, execDunreg, issue_next hi, onId_passes hact hu, ownEntry_of_not_owns (s := s.begun) hown]

variable (hown : OwnsEntry s c.t (idOf s c b)) (hfeeds : feedsOther s (idOf s c b) (s.entry (idOf s c b)) = false)
include hown hfeeds

theorem dunreg_waits (hbusy : tilesBusy s (idOf s c b) = true) : ∃ t, exec (.dunreg h d b) s = .next t ∧
    ThreadsGo c (fun _ th => { th with st := .stalled, wait := .hazard }) s t := by
  refine ⟨_, ?_, threadsGo_stalled c s .hazard⟩
  rw [exec_dunreg_owns hact hu hi hown, hfeeds, if_neg Bool.false_ne_true, if_pos hbusy]

theorem dunreg_removes (hidle : tilesBusy s (idOf s c b) = false) : ∃ t, exec (.dunreg h d b) s = .next t ∧
    (t.entry (idOf s c b)).used = false ∧ (∀ k, k ≠ idOf s c b → t.entry k = s.entry k) ∧ AllMoved c s t ∧
    (∀ l ∈ t.wset, l ∈ s.wset) ∧ (∀ l ∈ s.wset, l ∉ (s.entry (idOf s c b)).base.elemLines → l ∈ t.wset) ∧
    (∀ l ∈ writers c d, Gets (t.troupe c.t) false d l 1) ∧ ∀ a, t.mem.byte a = s.mem.byte a := by
  have hexec := exec_dunreg_owns hact hu hi hown
  rw [hfeeds, if_neg Bool.false_ne_true, hidle, if_neg Bool.false_ne_true] at hexec
  refine ⟨_, hexec, ?_, fun k hk => ?_, allMoved_finish_ok fun l => thread_writeNow _ _ _ l,
    fun l => wset_unregister_subset s.begun _, fun l hl => wset_unregister_kept s.begun _ hl,
    fun l hl => gets_finish_writeNow _ c false d _ hl, fun a => rfl⟩
  · exact congrArg Entry.used ((entry_unregister s.begun _ _).trans (if_pos rfl))
  · exact (entry_unregister s.begun _ k).trans (if_neg hk)

end

/-! ### DSTAT (R148, R292) -/

section
variable (hi : Issues (.dstat h d b) s c)
include hi

theorem dstat_not_owns (hown : ¬OwnsEntry s c.t (idOf s c b)) : ∃ t, exec (.dstat h d b) s = .next t ∧
    LaneLate c .rne (results c false d fun _ => 0xFFFFFFFF) s t := by
  refine ⟨_, ?_, laneLate_finish (onlyTroupe_begun _ _) rfl rfl (fun _ => rfl) (fun _ _ => rfl) fun _ => rfl⟩
  rw [exec_dstat, execDstat, issue_next hi, onId_passes hact hu, ownEntry_of_not_owns (s := s.begun) hown]

theorem dstat_counts (hown : OwnsEntry s c.t (idOf s c b)) (hdet : (s.runOf c.t).determ = false) :
    ∃ t, exec (.dstat h d b) s = .next t ∧ LaneLate c .rne (results c false d fun _ =>
      BitVec.ofNat 64 (notFresh s (idOf s c b) (s.entry (idOf s c b)))) s t := by
  obtain ⟨hnone, -, -, -, hsame⟩ := nondet_none (s := s.begun) (c := c) (m := c.act) (.inr (.inl hdet))
  refine ⟨_, ?_, laneLate_finish (onlyTroupe_begun _ _) rfl rfl (fun _ => rfl) (fun _ _ => rfl) fun _ => rfl⟩
  rw [exec_dstat, execDstat, issue_next hi, onId_passes hact hu, ownEntry_of_owns (s := s.begun) hown]
  dsimp only
  rw [hnone, hsame hdet]
  rfl

theorem dstat_traps (hown : OwnsEntry s c.t (idOf s c b)) (hdet : (s.runOf c.t).determ = true)
    (hstrict : (s.runOf c.t).strict = true) : TrapsAll (.dstat h d b) s c 0x41 (c.pc.setWidth 64) := by
  have hnondet : nondet s.begun c c.act = (s.begun, some (c.trapInfo 0x41 c.act c.pcVal)) := by
    have hdet : (s.begun.runOf c.t).determ = true := hdet
    have hstrict : (s.begun.runOf c.t).strict = true := hstrict
    rw [nondet, hdet, hstrict, decide_eq_false hact]
    rfl
  refine trapsAll_of_exec ?_
  rw [exec_dstat, execDstat, issue_next hi, onId_passes hact hu, ownEntry_of_owns (s := s.begun) hown]
  dsimp only
  rw [hnondet]
  rfl

/-- In a run that is not deterministic DSTAT owes what `ownEntry` decides. -/
theorem dstat_owes (hdet : (s.runOf c.t).determ = false) : ∃ t, exec (.dstat h d b) s = .next t ∧
    LaneLate c .rne (results c false d fun _ => BitVec.ofNat 64 (
      if (decide (idOf s c b < 128) && (s.entry (idOf s c b)).used && (s.entry (idOf s c b)).part == (s.runOf c.t).part) = true then
        notFresh s (idOf s c b) (s.entry (idOf s c b)) else 0xFFFFFFFF)) s t := by
  split
  · rename_i hown
    exact dstat_counts hact hu hi (by simpa [OwnsEntry, and_assoc] using hown) hdet
  · rename_i hown
    exact dstat_not_owns hact hu hi (by simpa [OwnsEntry, and_assoc] using hown)

end

/-! ### DFRESH -/

section
variable (hi : Issues (.dfresh h b) s c)
include hi

theorem dfresh_freshens (hown : OwnsEntry s c.t (idOf s c b)) : ∃ t, exec (.dfresh h b) s = .next t ∧ AllMoved c s t ∧
    (∀ k < (s.entry (idOf s c b)).der.tiles, (t.tile (idOf s c b) k).st =
      if (s.tile (idOf s c b) k).st = .stale then .busy else (s.tile (idOf s c b) k).st) ∧
    (t.slice (s.entry (idOf s c b)).home).queue = (s.slice (s.entry (idOf s c b)).home).queue ++
      ((List.range (s.entry (idOf s c b)).der.tiles).filter fun k => (s.tile (idOf s c b) k).st == .stale).map
        fun k => (idOf s c b, k) := by
  have F := freshened_foldl (idOf s c b) _ (List.nodup_range (n := (s.entry (idOf s c b)).der.tiles)) s.begun
  have hexec : exec (.dfresh h b) s = .next (finish c (.ok
      ((List.range (s.entry (idOf s c b)).der.tiles).foldl (freshenTile (idOf s c b)) s.begun))) := by
    rw [exec_dfresh, execDfresh, issue_next hi, onId_passes hact hu, ownEntry_of_owns (s := s.begun) hown]
    rfl
  generalize (List.range (s.entry (idOf s c b)).der.tiles).foldl (freshenTile (idOf s c b)) s.begun = z at F hexec
  refine ⟨_, hexec, allMoved_finish_ok fun l => ?_, fun k hk => (F.tiles k).trans (if_congr ?_ rfl rfl), F.queue⟩
  · exact congrArg (fun x => (tget x Troupe.absent c.t).thread l) (congrArg State.troupes F.rest :)
  · exact and_iff_right (List.mem_range.2 hk)

theorem dfresh_not_owns (hown : ¬OwnsEntry s c.t (idOf s c b)) : ∃ t, exec (.dfresh h b) s = .next t ∧
    ThreadsGo c (fun _ th => th.advance c.hdr) s t := by
  refine ⟨_, ?_, threadsGo_ok hi⟩
  rw [exec_dfresh, execDfresh, issue_next hi, onId_passes hact hu, ownEntry_of_not_owns (s := s.begun) hown]

end

end

/-- Settles O25: DREG by its reads and checks and then `dreg_registers`, the others by whether their id is that of an entry of the
partition. -/
theorem derivations : Obligations.Derivations := by
  refine ⟨fun h d base s c hi hact => ?_, fun h d base s c rb bb db id e hi hact => ?_, fun h d b s c hact hu => ?_⟩
  · intro x hbase haddr hstores
    exact dreg_waits_stores hi hact hbase haddr hstores
  · intro u x r hbase hstores haddr hrec hbaddr hbread hdaddr hdread hcheck
    exact ⟨dreg_waits_held hi hact hbase haddr hstores hrec hbaddr hbread hdaddr hdread hcheck,
      dreg_registers hi hact hbase haddr hstores hrec hbaddr hbread hdaddr hdread hcheck⟩
  · intro id e own
    exact ⟨fun hi => ⟨dunreg_fails hact hu hi, dunreg_waits hact hu hi, dunreg_removes hact hu hi⟩, dstat_owes hact hu,
      dstat_not_owns hact hu, dstat_traps hact hu, fun hi hown _ => dfresh_freshens hact hu hi hown, dfresh_not_owns hact hu⟩

end Sys2Proof.Machine
end

section
/-! SUPPORT. What serving a waiter leaves of memory and of tiles (R140, R141). -/

namespace Sys2Proof.Machine

open Sys2Proof

/-- Memory and the tiles are as they were. -/
structure Unwritten (s z : State) : Prop where
  mem   : z.mem = s.mem
  tiles : z.tiles = s.tiles

namespace Unwritten

theorem refl (s : State) : Unwritten s s := ⟨rfl, rfl⟩

theorem trans {s z y : State} (h : Unwritten s z) (k : Unwritten z y) : Unwritten s y :=
  ⟨k.mem.trans h.mem, k.tiles.trans h.tiles⟩

theorem foldl {X : Type} {f : State → X → State} (h : ∀ z x, Unwritten z (f z x)) (xs : List X) (s : State) :
    Unwritten s (xs.foldl f s) := by
  induction xs generalizing s with
  | nil => exact refl s
  | cons x r ih => exact (h s x).trans (ih (f s x))

end Unwritten

/-! ### Loads that are performed -/

theorem unwritten_consume (s : State) (w : Who) (run : Option Nat) (addr : Dword) (a n : Nat) :
    Unwritten s (consume s w run addr a n) :=
  ⟨(congrArg State.mem (consume_rest s w run addr a n) :), (congrArg State.tiles (consume_rest s w run addr a n) :)⟩

theorem unwritten_consumeParts (s : State) (t : Nat) (rs : List (Nat × Nat)) : Unwritten s (consumeParts s t rs) :=
  ⟨(congrArg State.mem (consumeFor_rest s _ rs) :), (congrArg State.tiles (consumeFor_rest s _ rs) :)⟩

theorem unwritten_unpark (s : State) (a : Access) : Unwritten s (unpark s a) := by
  unfold unpark
  split <;> exact ⟨rfl, rfl⟩

theorem unwritten_knowResult (s : State) (a : Access) (x : Dword) : Unwritten s (knowResult s a x) := by
  unfold knowResult
  split <;> exact ⟨rfl, rfl⟩

theorem unwritten_performed (s : State) (a : Access) (x : Dword) : Unwritten s (performed s a x) := by
  refine ((unwritten_unpark s a).trans (unwritten_knowResult _ a x)).trans ?_
  unfold performed
  dsimp only
  split
  · exact ⟨rfl, rfl⟩
  · split <;> exact ⟨rfl, rfl⟩

theorem unwritten_readHome (s : State) (a : Access) (bs : List Access) : Unwritten s (readHome s a bs).1 := by
  unfold readHome
  dsimp only
  split
  · exact unwritten_consume _ _ _ _ _ _
  · exact .refl s

theorem unwritten_noteTook (s : State) (a : Access) (bs : List Access) : Unwritten s (noteTook s a bs) := by
  unfold noteTook
  split
  · dsimp only
    split <;> exact ⟨rfl, rfl⟩
  · exact .refl s

theorem unwritten_settleEarly (s : State) (a : Access) (bs : List Access) : Unwritten s (settleEarly s a bs) := ⟨rfl, rfl⟩

theorem unwritten_loadHere (s : State) (a : Access) (bs : List Access) : Unwritten s (loadHere s a bs) := by
  unfold loadHere
  split
  · exact unwritten_performed s a _
  · have hread := unwritten_consume s a.who (a.who.runKey s) a.addr a.phys 4
    dsimp only
    split
    · exact hread.trans (unwritten_performed _ a 1)
    · exact hread.trans ⟨rfl, rfl⟩
  · have hread := unwritten_readHome s a []
    dsimp only
    split
    · exact hread.trans (unwritten_performed _ a _)
    · exact hread.trans ⟨rfl, rfl⟩
  · split
    · exact unwritten_performed s a _
    · exact (((unwritten_readHome s a bs).trans (unwritten_noteTook _ a bs)).trans (unwritten_settleEarly _ a bs)).trans
        (unwritten_performed _ a _)

/-! ### Engines -/

theorem unwritten_freeRecords (s : State) (t : Nat) : Unwritten s (freeRecords s t) := by
  unfold freeRecords
  dsimp only
  split <;> exact ⟨rfl, rfl⟩

theorem unwritten_load (o : EngOp) (t : Nat) (s : State) : Unwritten s (o.load t s) := by
  unfold EngOp.load
  split <;> exact ⟨rfl, rfl⟩

theorem unwritten_engineTake (s : State) (t : Nat) (o : EngOp) : Unwritten s (engineTake s t o) :=
  ((unwritten_consumeParts s t o.untaken).trans (unwritten_load o t _)).trans
    (Unwritten.trans (z := dropOp (o.load t (consumeParts s t o.untaken)) t o.id) ⟨rfl, rfl⟩ (unwritten_freeRecords _ t))

theorem unwritten_setTroupe (s : State) (t : Nat) (x : Troupe) : Unwritten s (s.setTroupe t x) := ⟨rfl, rfl⟩
theorem unwritten_setOp (s : State) (t : Nat) (o : EngOp) : Unwritten s (setOp s t o) := ⟨rfl, rfl⟩
theorem unwritten_setCopy (s : State) (c : Copy) : Unwritten s (setCopy s c) := ⟨rfl, rfl⟩

theorem unwritten_serveBytes (s : State) (t : Nat) (x : Nat × Nat) (rs : List (Nat × Nat)) (m : Table Byte) :
    Unwritten s (serveBytes s t x rs m).1 := unwritten_consumeParts _ _ _

/-- Whoever a tile serves reads: it writes no byte and changes no tile. -/
theorem unwritten_serve (s : State) (e tile : Nat) (w : Waiter) : Unwritten s (serve s e tile w) := by
  cases w with
  | access id =>
    rw [serve]
    split
    · exact .refl s
    · split
      · split
        · exact .refl s
        · split
          · exact unwritten_loadHere s _ []
          · exact ⟨rfl, rfl⟩
      · exact .refl s
  | recompute e' t' => exact ⟨rfl, rfl⟩
  | engine t id =>
    cases id with
    | zero => exact (unwritten_serveBytes s t (e, tile) _ _).trans (unwritten_setTroupe _ t _)
    | succ id =>
      rw [serve]
      · split
        · rename_i o _
          have hserved := (unwritten_serveBytes s t (e, tile) o.reads o.taken).trans (unwritten_setOp _ t
            { o with taken := (serveBytes s t (e, tile) o.reads o.taken).2 })
          dsimp only
          split
          · exact hserved.trans (unwritten_engineTake _ t _)
          · exact hserved
        · rename_i c _ _
          split
          · exact .refl s
          · exact (unwritten_serveBytes s c.t (e, tile) _ _).trans (unwritten_setCopy _ _)
        · exact .refl s
      · exact nofun

end Sys2Proof.Machine
end

section
/-! SUPPORT. A recompute that starts, asks for a base tile and ends, and the statement on it (R141, Table 11.6). -/

namespace Sys2Proof.Machine

open Sys2Proof

/-! ### The start -/

theorem slice_setSlice (s : State) (k j : Nat) (x : Slice) : (s.setSlice k x).slice j = if j = k then x else s.slice j :=
  tget_tput _ _ _ _ _

/-- A request may queue a tile; no slice's unit is touched by it. -/
theorem slice_requestTile (s : State) (e tile : Nat) (w : Waiter) (front : Bool) (k : Nat) :
    { (requestTile s e tile w front).slice k with queue := (s.slice k).queue } = s.slice k := by
  unfold requestTile
  dsimp only
  split
  · rfl
  · rw [queueTile, slice_setSlice]
    split
    · rename_i hk
      rw [hk]
      rfl
    · rfl
  · rfl
  · rfl

theorem continueRecompute_fresh {s : State} {k : Nat} {r : Recompute} (h : ∀ y ∈ r.asked, isFresh s y = true) :
    continueRecompute s k r = s.setSlice k { s.slice k with current := some { r with asked := [], ready := false } } := by
  rw [continueRecompute, List.dropWhile_eq_nil_iff.2 h]

/-- The recompute stops at the first of its base tiles that is not FRESH: it is released and waits, and asks for the tile. -/
theorem continueRecompute_asks {s : State} {k : Nat} {r : Recompute} {y : Nat × Nat}
    (h : r.asked.find? (fun x => !isFresh s x) = some y) :
    let z := continueRecompute s k r
    z.mem = s.mem ∧ (z.slice k).current = none ∧ (∃ q ∈ (z.slice k).waiting, q.e = r.e ∧ q.tile = r.tile) ∧
      Joined (.recompute r.e r.tile) (z.tile y.1 y.2) := by
  have hstale : (s.tile y.1 y.2).st ≠ .fresh := by simpa [isFresh] using List.find?_some h
  rw [List.find?_eq_head?_dropWhile_not] at h
  simp only [Bool.not_not] at h
  obtain ⟨later, htodo⟩ := List.head?_eq_some_iff.1 h
  rw [continueRecompute, htodo]
  dsimp only
  generalize hs1 : s.setSlice k _ = s1
  have hs1k : s1.slice k = { s.slice k with
      current := none, waiting := (s.slice k).waiting ++ [{ r with asked := y :: later, ready := false }] } := by
    rw [← hs1, slice_setSlice, if_pos rfl]
  generalize ((s1.entry y.1).home == k) = front
  obtain ⟨hrest, htile⟩ := requestTile_spec s1 y.1 y.2 (.recompute r.e r.tile) front
  have hunit := slice_requestTile s1 y.1 y.2 (.recompute r.e r.tile) front k
  rw [hs1k] at hunit
  have hwaiting := (congrArg Slice.waiting hunit :)
  refine ⟨(congrArg State.mem hrest :).trans (hs1 ▸ rfl), (congrArg Slice.current hunit :), ?_, ?_⟩
  · rw [hwaiting]
    exact ⟨_, List.mem_append_right _ (List.mem_singleton_self _), rfl, rfl⟩
  · rw [htile, if_pos rfl]
    exact joined_asked _ (hs1 ▸ hstale)

section
variable {s : State} {k : Nat} {x : Nat × Nat} {rest : List (Nat × Nat)} (hunit : (s.slice k).current = none)
  (hready : ∀ r ∈ (s.slice k).waiting, r.ready = false) (hqueue : (s.slice k).queue = x :: rest)
include hunit hready hqueue

/-- A free unit for which no released recompute is ready takes the next queued tile. -/
theorem exec_recomputeStart_takes : exec (.recomputeStart k) s = .next (continueRecompute
    (s.setSlice k { s.slice k with queue := rest }) k
    ⟨x.1, x.2, [], baseReads (s.entry x.1) x.2, baseTiles s (s.entry x.1) x.2, false⟩) := by
  have hnone : (s.slice k).waiting.find? (fun r => r.ready) = none :=
    List.find?_eq_none.2 fun r hr => by simp [hready r hr]
  rw [exec_recomputeStart, execRecomputeStart]
  dsimp only
  rw [hunit, hnone, hqueue]
  rfl

theorem recomputeStart_reads (hfresh : ∀ y ∈ baseTiles s (s.entry x.1) x.2, isFresh s y = true) :
    ∃ z, exec (.recomputeStart k) s = .next z ∧ { z with slices := s.slices } = s ∧
      z.slice k = ⟨rest, some ⟨x.1, x.2, [], baseReads (s.entry x.1) x.2, [], false⟩, (s.slice k).waiting⟩ ∧
      ∀ j, j ≠ k → z.slice j = s.slice j := by
  refine ⟨_, exec_recomputeStart_takes hunit hready hqueue, ?_⟩
  rw [continueRecompute_fresh hfresh]
  refine ⟨rfl, ?_, fun j hj => ?_⟩
  · rw [slice_setSlice, if_pos rfl, slice_setSlice, if_pos rfl]
  · rw [slice_setSlice, if_neg hj, slice_setSlice, if_neg hj]

theorem recomputeStart_asks {y : Nat × Nat}
    (hstale : (baseTiles s (s.entry x.1) x.2).find? (fun y => !isFresh s y) = some y) :
    ∃ z, exec (.recomputeStart k) s = .next z ∧ z.mem = s.mem ∧ (z.slice k).current = none ∧
      (∃ r ∈ (z.slice k).waiting, r.e = x.1 ∧ r.tile = x.2) ∧
      (.recompute x.1 x.2 ∈ (z.tile y.1 y.2).g1 ∨ .recompute x.1 x.2 ∈ (z.tile y.1 y.2).g2) := by
  obtain ⟨hmem, hcurrent, hwaits, hjoined⟩ := continueRecompute_asks (k := k)
    (s := s.setSlice k { s.slice k with queue := rest })
    (r := ⟨x.1, x.2, [], baseReads (s.entry x.1) x.2, baseTiles s (s.entry x.1) x.2, false⟩) hstale
  exact ⟨_, exec_recomputeStart_takes hunit hready hqueue, hmem, hcurrent, hwaits, hjoined.2⟩

end

/-! ### The writes of a tile -/

theorem tiles_homeWrite (s : State) (w : Who) (a : Nat) (bs : List Byte) : (homeWrite s w a bs).tiles = s.tiles := by
  unfold homeWrite
  split
  · rfl
  · exact (congrArg State.tiles (hwakeFire_only s _ a bs.length).rest :)

/-- The bytes `ws`, by address, have been written, one run after another; every other byte is as before. -/
structure BytesIn (ws : List (Nat × List Byte)) (s z : State) : Prop where
  bytes : ∀ x, (∀ w ∈ ws, x < w.1 ∨ w.1 + w.2.length ≤ x) → z.mem.byte x = s.mem.byte x
  now   : ws.Pairwise (fun w v => w.1 + w.2.length ≤ v.1 ∨ v.1 + v.2.length ≤ w.1) → ∀ w ∈ ws, BytesAt z.mem w.1 w.2

theorem bytesIn_homeWrite {s : State} (w : Who) {x : Nat × List Byte} (hp : poisoned s x.1 x.2.length = false) :
    BytesIn [x] s (homeWrite s w x.1 x.2) := by
  by_cases hx : x.2 = []
  · have hsame : homeWrite s w x.1 x.2 = s := by rw [hx]; rfl
    rw [hsame]
    refine ⟨fun _ _ => rfl, fun _ => List.forall_mem_singleton.2 ?_⟩
    rw [hx]
    exact nofun
  · have hwrote := wrote_homeWrite w hx hp
    exact ⟨fun b hb => hwrote.bytes b (hb x (List.mem_singleton_self x)), fun _ => List.forall_mem_singleton.2 hwrote.now⟩

theorem bytesIn_foldl (w : Who) (ws : List (Nat × List Byte)) : ∀ s : State,
    (∀ x ∈ ws, poisoned s x.1 x.2.length = false) → BytesIn ws s (ws.foldl (fun z x => homeWrite z w x.1 x.2) s) := by
  induction ws with
  | nil => exact fun _ _ => ⟨fun _ _ => rfl, fun _ => nofun⟩
  | cons x r ih =>
    intro s hclean
    obtain ⟨hx, hr⟩ := List.forall_mem_cons.1 hclean
    have H := bytesIn_homeWrite w hx
    have I := ih (homeWrite s w x.1 x.2) fun y hy => by rw [poisoned, poison_homeWrite w hx]; exact hr y hy
    refine ⟨fun b hb => ?_, fun happ => ?_⟩
    · obtain ⟨hbx, hbr⟩ := List.forall_mem_cons.1 hb
      exact (I.bytes b hbr).trans (H.bytes b (List.forall_mem_singleton.2 hbx))
    · obtain ⟨hxr, happ⟩ := List.pairwise_cons.1 happ
      refine List.forall_mem_cons.2 ⟨fun k hk => ?_, I.now happ⟩
      rw [List.foldl_cons, I.bytes _ fun y hy => by have := hxr y hy; omega]
      exact H.now (List.pairwise_singleton _ _) x (List.mem_singleton_self x) k hk

/-! ### The end -/

/-- A tile whose recompute has ended (Table 11.6). -/
def Tile.recomputed (x : Tile) : Tile :=
  match x.st, x.g2 with
  | .dirty, [] => ⟨.stale, [], []⟩
  | .dirty, g => ⟨.busy, g, []⟩
  | _, _ => ⟨.fresh, [], []⟩

/-- The state in which a tile is so, and queued where group 2 waits for it. -/
def tileEnds (s : State) (e tile : Nat) : State :=
  match (s.tile e tile).st, (s.tile e tile).g2 with
  | .dirty, [] => s.setTile e tile ⟨.stale, [], []⟩
  | .dirty, g => queueTile (s.setTile e tile ⟨.busy, g, []⟩) e tile false
  | _, _ => s.setTile e tile ⟨.fresh, [], []⟩

theorem tileEnds_spec (s : State) (e tile : Nat) :
    (tileEnds s e tile).mem = s.mem ∧ (tileEnds s e tile).tile e tile = (s.tile e tile).recomputed := by
  unfold tileEnds Tile.recomputed
  split
  · exact ⟨rfl, (tile_setTile _ _ _ _ _ _).trans (if_pos rfl)⟩
  · exact ⟨rfl, (tile_queueTile _ _ _ _ _ _).trans ((tile_setTile _ _ _ _ _ _).trans (if_pos rfl))⟩
  · exact ⟨rfl, (tile_setTile _ _ _ _ _ _).trans (if_pos rfl)⟩

/-- The state in which the unit of slice `k` has written the tile of `r`. -/
def recomputeWritten (s : State) (k : Nat) (r : Recompute) : State :=
  let s1 := s.setSlice k { s.slice k with current := none }
  bump ((recomputeWrites s (s.entry r.e) r).foldl
    (fun z w => homeWrite z (if (s.entry r.e).isMx then .unit else .device) w.1 w.2) s1) (sliceCounter k 0x14) 1

theorem tiles_recomputeWritten (s : State) (k : Nat) (r : Recompute) : (recomputeWritten s k r).tiles = s.tiles :=
  List.foldlRecOn (motive := fun z : State => z.tiles = s.tiles) _ _ rfl fun z hz w _ => (tiles_homeWrite z _ w.1 w.2).trans hz

theorem tile_recomputeWritten (s : State) (k : Nat) (r : Recompute) (e tile : Nat) :
    (recomputeWritten s k r).tile e tile = s.tile e tile :=
  congrArg (tget · Tile.stale (tileKey e tile)) (tiles_recomputeWritten s k r)

theorem bytesIn_recomputeWritten {s : State} {r : Recompute}
    (hclean : ∀ w ∈ recomputeWrites s (s.entry r.e) r, poisoned s w.1 w.2.length = false) (k : Nat) :
    BytesIn (recomputeWrites s (s.entry r.e) r) s (recomputeWritten s k r) :=
  have I := bytesIn_foldl (if (s.entry r.e).isMx then .unit else .device) _ (s.setSlice k { s.slice k with current := none }) hclean
  ⟨I.bytes, I.now⟩

section
variable {s : State} {k : Nat} {r : Recompute} (hunit : (s.slice k).current = some r) (hreads : r.reads = [])
  (hopen : heldClosed s 0 ((s.entry r.e).tileRanges r.tile) = false)
include hunit hreads hopen

theorem exec_recomputeEnd_ends : exec (.recomputeEnd k) s = .next ((s.tile r.e r.tile).g1.foldl
    (fun z w => serve z r.e r.tile w) (tileEnds (recomputeWritten s k r) r.e r.tile)) := by
  rw [← tile_recomputeWritten s k r, exec_recomputeEnd, execRecomputeEnd, hunit]
  dsimp only
  rw [hreads, hopen]
  rfl

theorem recomputeEnd_writes : ∃ z, exec (.recomputeEnd k) s = .next z ∧
    z.tile r.e r.tile = (s.tile r.e r.tile).recomputed ∧
    ((∀ w ∈ recomputeWrites s (s.entry r.e) r, poisoned s w.1 w.2.length = false) →
      BytesIn (recomputeWrites s (s.entry r.e) r) s z) := by
  have hserved := Unwritten.foldl (fun z w => unwritten_serve z r.e r.tile w) (s.tile r.e r.tile).g1
    (tileEnds (recomputeWritten s k r) r.e r.tile)
  obtain ⟨hmem, htile⟩ := tileEnds_spec (recomputeWritten s k r) r.e r.tile
  rw [tile_recomputeWritten] at htile
  refine ⟨_, exec_recomputeEnd_ends hunit hreads hopen, ?_, fun hclean => ?_⟩
  · exact Eq.trans (congrArg (tget · Tile.stale (tileKey r.e r.tile)) hserved.tiles) htile
  · obtain ⟨hbytes, hnow⟩ := bytesIn_recomputeWritten hclean k
    rw [← hmem, ← hserved.mem] at hbytes hnow
    exact ⟨hbytes, hnow⟩

end

/-- Settles O49: a start goes on at once or stops at the first base tile that is not FRESH; at the end the tile's bytes stand as
`bytesIn_foldl` says, and whoever the tile then serves writes nothing (`unwritten_serve`). -/
theorem recomputes : Obligations.Recomputes := by
  refine ⟨fun s k x rest hunit hready hqueue => ?_, fun s k r hunit hreads hopen => ?_⟩
  · intro e
    exact ⟨recomputeStart_reads hunit hready hqueue, fun y => recomputeStart_asks hunit hready hqueue⟩
  · intro ws
    obtain ⟨z, hexec, htile, hwrites⟩ := recomputeEnd_writes hunit hreads hopen
    exact ⟨z, hexec, htile, fun hclean => ⟨(hwrites hclean).bytes, (hwrites hclean).now⟩⟩

end Sys2Proof.Machine
end

section
/-! SUPPORT. Every well-formed instruction is the one its word decodes to (R149-R155, R164-R166), and four words written out. -/

namespace Sys2Proof.Laws.Encoded

open Sys2Proof

/-- What the encoder writes of any instruction, the builder reads back. -/
theorem statement (i : Instr) : Statement i := by
  cases i with
  | iadd => apply iadd
  | isub => apply isub
  | imul => apply imul
  | imulh => apply imulh
  | imad => apply imad
  | idiv => apply idiv
  | irem => apply irem
  | imin => apply imin
  | imax => apply imax
  | iabs => apply iabs
  | ineg => apply ineg
  | and => apply and
  | or => apply or
  | xor => apply xor
  | not => apply not
  | shl => apply shl
  | shr => apply shr
  | rotl => apply rotl
  | bfe => apply bfe
  | bfi => apply bfi
  | popc => apply popc
  | clz => apply clz
  | brev => apply brev
  | prmt => apply prmt
  | icmp => apply icmp
  | sel => apply sel
  | plop => apply plop
  | pmovGet => apply pmovGet
  | pmovSet => apply pmovSet
  | mov => apply mov
  | movi => apply movi
  | moviHi => apply moviHi
  | lea => apply lea
  | leaCode => apply leaCode
  | fadd => apply fadd
  | fsub => apply fsub
  | fmul => apply fmul
  | ffma => apply ffma
  | fmin => apply fmin
  | fmax => apply fmax
  | fabs => apply fabs
  | fneg => apply fneg
  | fcmp => apply fcmp
  | frcp => apply frcp
  | frsq => apply frsq
  | fsqrt => apply fsqrt
  | fdiv => apply fdiv
  | fexp2 => apply fexp2
  | flog2 => apply flog2
  | fsin => apply fsin
  | fcos => apply fcos
  | ftanh => apply ftanh
  | fclass => apply fclass
  | frint => apply frint
  | cvt => apply cvt
  | pack => apply pack
  | unpack => apply unpack
  | dot2 => apply dot2
  | dot4 => apply dot4
  | dot8 => apply dot8
  | scaleApply => apply scaleApply
  | scaleMx => apply scaleMx
  | amax => apply amax
  | srseed => apply srseed
  | cbfly => apply cbfly
  | cmul => apply cmul
  | twid => apply twid
  | ld => apply ld
  | st => apply st
  | ldx => apply ldx
  | stx => apply stx
  | ldu => apply ldu
  | stu => apply stu
  | probe => apply probe
  | atom => apply atom
  | red => apply red
  | aenq => apply aenq
  | adeq => apply adeq
  | fence => apply fence
  | waitc => apply waitc
  | jinit => apply jinit
  | jarr => apply jarr
  | jwait => apply jwait
  | jarrw => apply jarrw
  | wpinit => apply wpinit
  | wparr => apply wparr
  | wpwait => apply wpwait
  | bra => apply bra
  | brx => apply brx
  | call => apply call
  | callx => apply callx
  | ret => apply ret
  | cvset => apply cvset
  | cvsetIdle => apply cvsetIdle
  | cvwait => apply cvwait
  | exit => apply exit
  | yield => apply yield
  | nop => apply nop
  | brk => apply brk
  | sleep => apply sleep
  | qswz => apply qswz
  | shfl => apply shfl
  | vote => apply vote
  | tred => apply tred
  | tscan => apply tscan
  | matchv => apply matchv
  | elect => apply elect
  | umov => apply umov
  | mma => apply mma
  | accld => apply accld
  | accst => apply accst
  | accz => apply accz
  | accout => apply accout
  | rsvop => apply rsvop
  | rlsop => apply rlsop
  | ldscl => apply ldscl
  | copy => apply copy
  | copyl => apply copyl
  | coll => apply coll
  | cstat => apply cstat
  | dreg => apply dreg
  | dunreg => apply dunreg
  | dstat => apply dstat
  | dfresh => apply dfresh
  | trap => apply trap
  | svc => apply svc
  | svcPark => apply svcPark
  | csrr => apply csrr
  | csrw => apply csrw
  | rtt => apply rtt
  | launch => apply launch
  | gate => apply gate
  | release => apply release
  | savectx => apply savectx
  | loadctx => apply loadctx
  | _ => exact fun _ e => nomatch e

end Sys2Proof.Laws.Encoded

namespace Sys2Proof

/-! ### Words and fields (Tables 13.1 and 13.2) -/

/-- Each field of a word stands above the fields before it, which an extraction from its place on passes over. -/
@[simp] theorem unpack_pack (f : Fields) : unpack (pack f) = f := by
  obtain ⟨op, cls, pred, neg, d, a, b, c, ty, moda, modb, sub, i, cs, yld, sel, flga, flgb, wait⟩ := f
  simp only [unpack, pack, Fields.mk.injEq]
  refine ⟨BitVec.extractLsb'_append_eq_right, ?_, ?_, ?_, ?_, ?_, ?_, ?_, ?_, ?_, ?_, ?_, ?_, ?_, ?_, ?_, ?_, ?_, ?_⟩
  all_goals
    rw [BitVec.extractLsb'_append_eq_of_le (by decide)]
    simp only [BitVec.extractLsb'_append_eq_of_le, BitVec.extractLsb'_append_eq_right, BitVec.extractLsb'_eq_self,
      Nat.reduceSub, Nat.reduceLeDiff]

theorem decode_pack (f : Fields) : decode (pack f) = decodeFields f := by rw [decode, unpack_pack]

theorem encode_of_fields {i : Instr} {f : Fields} (hf : fieldsOf i = some f) : encode i = pack f := by rw [encode, hf]

/-- Fields that pass the checks of R167 that need no state decode to what is built of them. -/
theorem decodeFields_of_checks {f : Fields} {k : Kinds} {i : Instr} (hassigned : assigned f = true) (hhint : hintBad f = false)
    (hform : form f = some k) (hregs : firstBad 512 f k = none) (hbuild : build f = some i) : decodeFields f = .ok i := by
  simp only [decodeFields, hassigned, hhint, hform, hregs, hbuild, Bool.not_true, Bool.false_eq_true, if_false]

theorem decodeFields_of_wellFormed {i : Instr} {f : Fields} (hf : fieldsOf i = some f) (h : i.WellFormed) :
    decodeFields f = .ok i := by
  obtain ⟨-, hhint, hform, hregs, hwaypoint⟩ := h
  obtain ⟨hassigned, hbuild⟩ := Laws.Encoded.statement i f hf
  rw [Instr.wfHint, hf, Option.all_some, Bool.not_eq_true'] at hhint
  rw [Instr.wfForm, hf, Option.all_some] at hform
  obtain ⟨k, hk⟩ := Option.isSome_iff_exists.1 hform
  rw [Instr.wfRegs, hf, Option.all_some, hk, Option.all_some, Option.isNone_iff_eq_none] at hregs
  exact decodeFields_of_checks hassigned hhint hk hregs (hbuild hwaypoint)

/-- Settles O33: the word keeps the fields (`unpack_pack`), they pass the checks, and the builder reads them back. -/
theorem roundTrip : Obligations.RoundTrip := by
  intro i h
  obtain ⟨f, hf⟩ := Option.isSome_iff_exists.1 h.1
  rw [encode_of_fields hf, decode_pack, decodeFields_of_wellFormed hf h]

/-- Settles O34: each word is taken apart, checked and built by evaluation. -/
theorem wordsDecode : Obligations.WordsDecode := ⟨rfl, rfl, rfl, rfl⟩

end Sys2Proof
end

section
/-! SUPPORT. What stops an encoded instruction before its own rules (R159, R167), and the statement on it. -/

namespace Sys2Proof.Machine

open Sys2Proof

/-! ### Every encoded instruction issues in one way -/

/-- Outcome `o` is the issue of `i` with some rules of its own. -/
def IsIssue (priv : State → Ctx → Bool) (i : Instr) (s : State) (o : Outcome) : Prop := ∃ body, o = issueP priv i s body

section
variable {i : Instr} {s : State} {o : Outcome} {ty : Ty} {m : FMod} {r : Rnd} {d a : Opd} {b : Src}

theorem isIssue_of_issueP {body : Ctx → State → Res} (h : o = issueP (privOf i) i s body) : IsIssue (privOf i) i s o :=
  ⟨body, h⟩

theorem isIssue_of_issue {body : Ctx → State → Res} (h : o = issue i s body) : IsIssue (fun _ _ => false) i s o :=
  ⟨body, h⟩

theorem isIssue_of_laneNow {wide : Bool} {f : State → Ctx → Nat → Dword} (h : o = laneNow i s wide d f) :
    IsIssue (fun _ _ => false) i s o := isIssue_of_issue h

theorem isIssue_of_laneLate {wide : Bool} {f : State → Ctx → Nat → Dword} (h : o = laneLate i s wide d f) :
    IsIssue (fun _ _ => false) i s o := isIssue_of_issue h

theorem isIssue_of_intBin {sat : Bool} {f : Int → Int → Int} (h : o = intBin i s ty sat d a b f) :
    IsIssue (fun _ _ => false) i s o := isIssue_of_laneNow h

theorem isIssue_of_logicBin {f : Dword → Dword → Dword} (h : o = logicBin i s ty d a b f) :
    IsIssue (fun _ _ => false) i s o := isIssue_of_laneNow h

theorem isIssue_of_shiftBin {f : Ty → Dword → Nat → Dword} (h : o = shiftBin i s ty d a b f) :
    IsIssue (fun _ _ => false) i s o := isIssue_of_laneNow h

theorem isIssue_of_fpNow {f : State → Ctx → Nat → Nat → FVal} (h : o = fpNow i s ty m d f) :
    IsIssue (fun _ _ => false) i s o := isIssue_of_issue h

theorem isIssue_of_fpBin {f : FVal → FVal → FVal} (h : o = fpBin i s ty m d a b f) :
    IsIssue (fun _ _ => false) i s o := isIssue_of_fpNow h

theorem isIssue_of_fpCodes {f : State → Ctx → Nat → Nat → Nat} (h : o = fpCodes i s ty d f) :
    IsIssue (fun _ _ => false) i s o := isIssue_of_laneNow h

theorem isIssue_of_fnExact {f : FVal → FVal} (h : o = fnExact i s m d a f) : IsIssue (fun _ _ => false) i s o :=
  isIssue_of_laneLate h

theorem isIssue_of_fnUlp {k : Nat} {f : FVal → FVal} (h : o = fnUlp i s k m d a f) : IsIssue (fun _ _ => false) i s o :=
  isIssue_of_laneLate h

theorem isIssue_of_xfDraw {n : Nat} {f : State → Ctx → (Nat → Nat → Word) → Writes} (h : o = xfDraw i s r n f) :
    IsIssue (fun _ _ => false) i s o := isIssue_of_issue h

theorem isIssue_of_dotNow {sc : Bool} {fa fb : Fmt} {n : Nat} {x y : Opd} (h : o = dotNow i s sc m fa fb n d a x y) :
    IsIssue (fun _ _ => false) i s o := isIssue_of_xfDraw h

end

/-- An encoded instruction goes through the checks of R167 with its own privilege, whatever its rules are. -/
theorem isIssue_exec {i : Instr} {f : Fields} (hf : fieldsOf i = some f) (s : State) : IsIssue (privOf i) i s (exec i s) := by
  cases i with
  | iadd => exact isIssue_of_intBin (exec_iadd s)
  | isub => exact isIssue_of_intBin (exec_isub s)
  | imul => exact isIssue_of_intBin (exec_imul s)
  | imulh => exact isIssue_of_intBin (exec_imulh s)
  | imad => exact isIssue_of_laneNow (exec_imad s)
  | idiv => exact isIssue_of_laneNow (exec_idiv s)
  | irem => exact isIssue_of_intBin (exec_irem s)
  | imin => exact isIssue_of_intBin (exec_imin s)
  | imax => exact isIssue_of_intBin (exec_imax s)
  | iabs => exact isIssue_of_laneNow (exec_iabs s)
  | ineg => exact isIssue_of_laneNow (exec_ineg s)
  | and => exact isIssue_of_logicBin (exec_and s)
  | or => exact isIssue_of_logicBin (exec_or s)
  | xor => exact isIssue_of_logicBin (exec_xor s)
  | not => exact isIssue_of_laneNow (exec_not s)
  | shl => exact isIssue_of_shiftBin (exec_shl s)
  | shr => exact isIssue_of_shiftBin (exec_shr s)
  | rotl => exact isIssue_of_shiftBin (exec_rotl s)
  | bfe => exact isIssue_of_laneNow (exec_bfe s)
  | bfi => exact isIssue_of_laneNow (exec_bfi s)
  | popc => exact isIssue_of_laneNow (exec_popc s)
  | clz => exact isIssue_of_laneNow (exec_clz s)
  | brev => exact isIssue_of_laneNow (exec_brev s)
  | prmt => exact isIssue_of_laneNow (exec_prmt s)
  | icmp => exact isIssue_of_laneNow (exec_icmp s)
  | sel => exact isIssue_of_laneNow (exec_sel s)
  | plop => exact isIssue_of_laneNow (exec_plop s)
  | pmovGet => exact isIssue_of_laneNow (exec_pmovGet s)
  | pmovSet => exact isIssue_of_issue (exec_pmovSet s)
  | mov => exact isIssue_of_laneNow (exec_mov s)
  | movi => exact isIssue_of_laneNow (exec_movi s)
  | moviHi => exact isIssue_of_issue (exec_moviHi s)
  | lea => exact isIssue_of_laneNow (exec_lea s)
  | leaCode => exact isIssue_of_laneNow (exec_leaCode s)
  | fadd => exact isIssue_of_fpBin (exec_fadd s)
  | fsub => exact isIssue_of_fpBin (exec_fsub s)
  | fmul => exact isIssue_of_fpBin (exec_fmul s)
  | ffma => exact isIssue_of_fpNow (exec_ffma s)
  | fmin => exact isIssue_of_fpCodes (exec_fmin s)
  | fmax => exact isIssue_of_fpCodes (exec_fmax s)
  | fabs => exact isIssue_of_fpCodes (exec_fabs s)
  | fneg => exact isIssue_of_fpCodes (exec_fneg s)
  | fcmp => exact isIssue_of_laneNow (exec_fcmp s)
  | frcp => exact isIssue_of_fnExact (exec_frcp s)
  | frsq => exact isIssue_of_fnUlp (exec_frsq s)
  | fsqrt => exact isIssue_of_fnExact (exec_fsqrt s)
  | fdiv => exact isIssue_of_laneLate (exec_fdiv s)
  | fexp2 => exact isIssue_of_fnExact (exec_fexp2 s)
  | flog2 => exact isIssue_of_fnExact (exec_flog2 s)
  | fsin => exact isIssue_of_fnUlp (exec_fsin s)
  | fcos => exact isIssue_of_fnUlp (exec_fcos s)
  | ftanh => exact isIssue_of_fnUlp (exec_ftanh s)
  | fclass => exact isIssue_of_laneNow (exec_fclass s)
  | frint => exact isIssue_of_fpCodes (exec_frint s)
  | cvt => exact isIssue_of_xfDraw (exec_cvt s)
  | pack => exact isIssue_of_xfDraw (exec_pack s)
  | unpack => exact isIssue_of_issue (exec_unpack s)
  | dot2 => exact isIssue_of_dotNow (exec_dot2 s)
  | dot4 h ty =>
    rw [exec_dot4, execDot4]
    split
    · exact isIssue_of_laneLate rfl
    · exact isIssue_of_dotNow rfl
  | dot8 => exact isIssue_of_dotNow (exec_dot8 s)
  | scaleApply => exact isIssue_of_laneLate (exec_scaleApply s)
  | scaleMx => exact isIssue_of_laneLate (exec_scaleMx s)
  | amax => exact isIssue_of_laneLate (exec_amax s)
  | srseed => exact isIssue_of_issue (exec_srseed s)
  | cbfly => exact isIssue_of_issue (exec_cbfly s)
  | cmul => exact isIssue_of_issue (exec_cmul s)
  | twid => exact isIssue_of_issue (exec_twid s)
  | ld => exact isIssue_of_issue (exec_ld s)
  | st => exact isIssue_of_issue (exec_st s)
  | ldx => exact isIssue_of_issue (exec_ldx s)
  | stx => exact isIssue_of_issue (exec_stx s)
  | ldu => exact isIssue_of_issue (exec_ldu s)
  | stu => exact isIssue_of_issue (exec_stu s)
  | probe => exact isIssue_of_issue (exec_probe s)
  | atom => exact isIssue_of_issue (exec_atom s)
  | red => exact isIssue_of_issue (exec_red s)
  | aenq => exact isIssue_of_issue (exec_aenq s)
  | adeq => exact isIssue_of_issue (exec_adeq s)
  | fence => exact isIssue_of_issue (exec_fence s)
  | waitc => exact isIssue_of_issue (exec_waitc s)
  | jinit => exact isIssue_of_issue (exec_jinit s)
  | jarr => exact isIssue_of_issue (exec_jarr s)
  | jwait => exact isIssue_of_issue (exec_jwait s)
  | jarrw => exact isIssue_of_issue (exec_jarrw s)
  | wpinit => exact isIssue_of_issue (exec_wpinit s)
  | wparr => exact isIssue_of_issue (exec_wparr s)
  | wpwait => exact isIssue_of_issue (exec_wpwait s)
  | bra => exact isIssue_of_issue (exec_bra s)
  | brx => exact isIssue_of_issue (exec_brx s)
  | call => exact isIssue_of_issue (exec_call s)
  | callx => exact isIssue_of_issue (exec_callx s)
  | ret => exact isIssue_of_issue (exec_ret s)
  | cvset => exact isIssue_of_issue (exec_cvset s)
  | cvsetIdle => exact isIssue_of_issue (exec_cvsetIdle s)
  | cvwait => exact isIssue_of_issue (exec_cvwait s)
  | exit => exact isIssue_of_issue (exec_exit s)
  | yield => exact isIssue_of_issue (exec_yield s)
  | nop => exact isIssue_of_issue (exec_nop s)
  | brk => exact isIssue_of_issue (exec_brk s)
  | sleep => exact isIssue_of_issue (exec_sleep s)
  | qswz => exact isIssue_of_issue (exec_qswz s)
  | shfl => exact isIssue_of_issue (exec_shfl s)
  | vote => exact isIssue_of_issue (exec_vote s)
  | tred => exact isIssue_of_issue (exec_tred s)
  | tscan => exact isIssue_of_issue (exec_tscan s)
  | matchv => exact isIssue_of_issue (exec_matchv s)
  | elect => exact isIssue_of_issue (exec_elect s)
  | umov => exact isIssue_of_issue (exec_umov s)
  | mma => exact isIssue_of_issue (exec_mma s)
  | accld => exact isIssue_of_issue (exec_accld s)
  | accst => exact isIssue_of_issue (exec_accst s)
  | accz => exact isIssue_of_issue (exec_accz s)
  | accout => exact isIssue_of_issue (exec_accout s)
  | rsvop => exact isIssue_of_issue (exec_rsvop s)
  | rlsop => exact isIssue_of_issue (exec_rlsop s)
  | ldscl => exact isIssue_of_issue (exec_ldscl s)
  | copy => exact isIssue_of_issue (exec_copy s)
  | copyl => exact isIssue_of_issue (exec_copyl s)
  | coll => exact isIssue_of_issue (exec_coll s)
  | cstat => exact isIssue_of_issue (exec_cstat s)
  | dreg => exact isIssue_of_issue (exec_dreg s)
  | dunreg => exact isIssue_of_issue (exec_dunreg s)
  | dstat => exact isIssue_of_issue (exec_dstat s)
  | dfresh => exact isIssue_of_issue (exec_dfresh s)
  | trap => exact isIssue_of_issue (exec_trap s)
  | svc => exact isIssue_of_issue (exec_svc s)
  | svcPark => exact isIssue_of_issue (exec_svcPark s)
  | csrr => exact isIssue_of_issueP (exec_csrr s)
  | csrw => exact isIssue_of_issueP (exec_csrw s)
  | rtt => exact isIssue_of_issueP (exec_rtt s)
  | launch => exact isIssue_of_issueP (exec_launch s)
  | gate => exact isIssue_of_issue (exec_gate s)
  | release => exact isIssue_of_issue (exec_release s)
  | savectx => exact isIssue_of_issueP (exec_savectx s)
  | loadctx => exact isIssue_of_issueP (exec_loadctx s)
  | _ => exact nomatch hf

/-! ### The checks -/

section
variable {i : Instr} {f : Fields} {s : State} {c : Ctx} (hf : fieldsOf i = some f) (hbundle : issuable s = true)
  (hc : c = ctxOf s (hdrOf f))
include hf hbundle hc

/-- A check that fails traps. -/
theorem exec_of_encTrap {x : TrapInfo} (hx : encTrap s c f (privOf i s c) = some x) : exec i s = .next (takeTrap s c.t x) := by
  obtain ⟨body, hexec⟩ := isIssue_exec hf s
  subst hc
  simp only [hexec, issueP, hf, hbundle, hx, Bool.not_true, Bool.false_eq_true, if_false]

/-- A busy flag of the WAIT mask stalls the bundle. -/
theorem exec_of_busy (hpass : encTrap s c f (privOf i s c) = none) (hcs : c.hdr.cs = true)
    (hbusy : (s.troupe c.t).busy &&& c.hdr.wait ≠ 0) :
    exec i s = .next (finish c (.part s c.mask (.flags c.hdr.wait))) := by
  obtain ⟨body, hexec⟩ := isIssue_exec hf s
  have hflags : (c.hdr.cs && (s.troupe c.t).busy &&& c.hdr.wait != 0) = true :=
    Bool.and_eq_true_iff.2 ⟨hcs, bne_iff_ne.2 hbusy⟩
  subst hc
  simp only [hexec, issueP, hf, hbundle, hpass, hflags, Bool.not_true, Bool.false_eq_true, if_false, if_true]

end

/-- Privilege is the last check of R167: it is asked where the others pass. -/
theorem encTrap_eq_or (s : State) (c : Ctx) (f : Fields) (priv : Bool) : encTrap s c f priv =
    (encTrap s c f false).or (if priv then some (c.trapInfo 0x05 c.mask c.pcVal) else none) := by
  unfold encTrap
  dsimp only
  split
  · rfl
  · split
    · rfl
    · split
      · rfl
      · split
        · rfl
        · split
          · rfl
          · split <;> rfl

/-- A bundle that stalls as a whole at its instruction: its threads stall, and nothing else changes. -/
theorem finish_stalled_spec (c : Ctx) (s : State) (w : Wait) : let t := finish c (.part s c.mask w)
    { t with troupes := s.troupes } = s ∧ (∀ v, v ≠ c.t → t.troupe v = s.troupe v) ∧
      { t.troupe c.t with threads := (s.troupe c.t).threads } = s.troupe c.t ∧
      ∀ l, t.thread c.t l = if hasLane c.mask l then { s.thread c.t l with st := .stalled, wait := w } else s.thread c.t l :=
  ⟨rfl, fun _ hv => (State.troupe_mapLanes_ne _ _ _ hv).trans (State.troupe_mapLanes_ne _ _ _ hv),
    troupe_finish_part c s c.mask w, thread_finish_stalled c s w⟩

/-- Settles O30: an encoded instruction issues through the checks of R167 (`isIssue_exec`), of which privilege is the last, and
the WAIT mask. -/
theorem issueChecks : Obligations.IssueChecks := by
  unfold Obligations.IssueChecks
  refine ⟨?_, ?_⟩
  · intro i f s hf hbundle c
    refine ⟨fun x hx => exec_of_encTrap hf hbundle rfl hx, fun hpass hpriv => ?_⟩
    have hx : encTrap s c f (privOf i s c) = some (c.trapInfo 0x05 c.mask c.pcVal) := by
      rw [encTrap_eq_or, hpass, hpriv, if_pos rfl, Option.none_or]
    exact ⟨_, exec_of_encTrap hf hbundle rfl hx, rfl, rfl, rfl, rfl, rfl, rfl⟩
  · intro i f s hf hbundle c hpass hcs hbusy
    exact ⟨_, exec_of_busy hf hbundle rfl hpass hcs hbusy, finish_stalled_spec c s (.flags c.hdr.wait)⟩

end Sys2Proof.Machine
end

section
/-! SUPPORT. What the issue step of a wing comes to: the bundle it picks, the word it fetches and the instruction it runs (R161,
R168, R169, R365), and the statement on it. -/

namespace Sys2Proof.Machine

open Sys2Proof

/-! ### The step of a wing that has picked a bundle (R365) -/

theorem mgmt_nextAction (s : State) : (nextAction s).2.mgmt = s.mgmt := by
  have hlatch : (latchNodes s).mgmt = s.mgmt := by
    unfold latchNodes
    split <;> rfl
  unfold nextAction
  dsimp only
  split <;> exact hlatch

theorem admitted_nextAction {s : State} (h : s.mgmt.held = false) (a : Action) : admitted (nextAction s).2 a = true := by
  unfold admitted
  rw [mgmt_nextAction, h]
  rfl

theorem act_issue {s : State} {stage wing : Nat} (h : admitted s (.issue stage wing) = true) :
    act (.issue stage wing) s = issueStep s (pickBundle s stage wing) := by
  unfold act
  rw [h]
  rfl

theorem act_issueAlso {s : State} {stage wing : Nat} (h : admitted s (.issueAlso stage wing) = true) :
    act (.issueAlso stage wing) s = issueStep (dropAlso s stage wing) (pickAlso s stage wing) := by
  unfold act
  rw [h]
  rfl

/-- The next action of `s` has a wing issue for bundle `b`, in either slot, with the choice noted in `s1`. -/
def Picks (s s1 : State) (stage wing : Nat) (b : Bundle) : Prop :=
  (nextAction s).1 = .issue stage wing ∧ pickBundle (nextAction s).2 stage wing = some (s1, b) ∨
    (nextAction s).1 = .issueAlso stage wing ∧ pickAlso (nextAction s).2 stage wing = some (s1, b)

theorem step_of_picks {s s1 : State} {stage wing : Nat} {b : Bundle} (hheld : s.mgmt.held = false)
    (hpick : Picks s s1 stage wing b) : ∃ u, step s = issueStep u (some (s1, b)) := by
  unfold step
  obtain ⟨haction, hpick⟩ | ⟨haction, hpick⟩ := hpick
  · exact ⟨_, by rw [haction, act_issue (admitted_nextAction hheld _), hpick]⟩
  · exact ⟨_, by rw [haction, act_issueAlso (admitted_nextAction hheld _), hpick]⟩

section
variable {s s1 : State} {stage wing : Nat} {b : Bundle} (hheld : s.mgmt.held = false) (hpick : Picks s s1 stage wing b)
include hheld hpick

theorem step_of_over {y : State} (h : fetchBundle s1 b = .over y) : step s = .next (afterIssue b (readyPart s1 b) y) := by
  obtain ⟨u, hstep⟩ := step_of_picks hheld hpick
  rw [hstep, issueStep, h]

theorem step_of_run {y : State} {i : Instr} (h : fetchBundle s1 b = .run y i) :
    step s = issued b (activeAt y i) (exec i y) := by
  obtain ⟨u, hstep⟩ := step_of_picks hheld hpick
  rw [hstep, issueStep, h]

end

/-! ### The word that is fetched (R168, R169) -/

theorem fetch_of_context {s : State} {t : Nat} (h : (s.troupe t).context = true) (pc : Word) :
    fetch s t pc = some (s, Config.firmwareWord pc) := by
  rw [fetch, if_pos h]

theorem fetch_of_cached {s : State} {t : Nat} {pc : Word} {w : BitVec 96} (h : (s.troupe t).context = false)
    (hw : cachedWord s (s.troupe t).stage (textAddr s t pc) = some w) : fetch s t pc = some (s, w) := by
  unfold fetch
  dsimp only
  rw [h, hw]
  rfl

/-- The state whose instruction cache has been filled with the text at `a`. -/
def filled (s : State) (st a : Nat) : State :=
  s.setStage st { s.stage st with icache := fillLine s (s.stage st).icache 131072 a (cleanBytes s a 12) }

theorem fetch_of_memory {s : State} {t : Nat} {pc : Word} {a : Nat} (ha : a = textAddr s t pc)
    (h : (s.troupe t).context = false) (hmiss : cachedWord s (s.troupe t).stage a = none)
    (habsent : anyAbsent s [(a, 12)] = false) (hclosed : lineClosed s 0 [(a, 12)] = false) (hhalf : halfWritten s a 12 = false)
    (hclean : poisoned s a 12 = false) : fetch s t pc = some (filled s (s.troupe t).stage a, runWord s t pc) := by
  subst ha
  unfold fetch
  dsimp only
  rw [h, hmiss, habsent, hclosed, hhalf, consume_clean hclean]
  rfl

/-! ### The instruction that runs (R22, R161) -/

/-- The bundle at the cursor, with its READY part. -/
def atBundle (s : State) (b : Bundle) : State := { s with cur := ⟨b.t, readyPart s b⟩ }

section
variable {s : State} {b : Bundle}

theorem fetchBundle_of_decode {y : State} {w : BitVec 96} {i : Instr}
    (htext : (s.troupe b.t).context = true ∨ (nextPc s b).toNat < (s.runOf b.t).textSize)
    (hfetch : fetch (atBundle s b) b.t (nextPc s b) = some (y, w)) (hdec : decode w = .ok i) :
    fetchBundle s b = runFetched y i := by
  have hin : (!(s.troupe b.t).context && decide ((nextPc s b).toNat ≥ (s.runOf b.t).textSize)) = false := by
    obtain h | h := htext
    · rw [h]
      rfl
    · rw [decide_eq_false (by omega), Bool.and_false]
  unfold nextPc at hin hfetch
  unfold atBundle at hfetch
  unfold fetchBundle
  dsimp only
  rw [hin, hfetch]
  dsimp only
  rw [hdec]
  rfl

/-- A PC at or past TEXTSIZE traps ILLOP. -/
theorem fetchBundle_past_text (hcontext : (s.troupe b.t).context = false)
    (hpast : (s.runOf b.t).textSize ≤ (nextPc s b).toNat) :
    fetchBundle s b = .over (takeTrap (atBundle s b) b.t
      ⟨0, 0x01, nextPc s b, readyPart s b, (nextPc s b).setWidth 64, readyPart s b, 0, none⟩) := by
  have hout : (!(s.troupe b.t).context && decide ((nextPc s b).toNat ≥ (s.runOf b.t).textSize)) = true := by
    rw [hcontext, decide_eq_true hpast]
    rfl
  unfold nextPc at hout
  unfold fetchBundle
  dsimp only
  rw [hout]
  rfl

end

/-- The state in which the threads that an instruction holds back have stalled. -/
def heldBack (s : State) (f : Fields) (i : Instr) : State :=
  let w := issueStall s (ctxOf s (hdrOf f)) f i
  s.mapLanes s.cur.t w.1 fun _ th => { th with st := .stalled, wait := w.2 }

/-- The lanes of the bundle at the cursor that an instruction does not hold back. -/
def goingOn (s : State) (f : Fields) (i : Instr) : Mask := s.cur.mask &&& ~~~(issueStall s (ctxOf s (hdrOf f)) f i).1

section
variable {s : State} {i : Instr} {f : Fields} (hf : fieldsOf i = some f)
include hf

theorem runFetched_eq : runFetched s i = if (issueStall s (ctxOf s (hdrOf f)) f i).1 = 0 then .run s i
    else if goingOn s f i = 0 then .over (heldBack s f i)
    else .run { heldBack s f i with cur := ⟨s.cur.t, goingOn s f i⟩ } i := by
  unfold runFetched
  rw [hf]
  rfl

theorem runFetched_of_none (h : (issueStall s (ctxOf s (hdrOf f)) f i).1 = 0) : runFetched s i = .run s i := by
  rw [runFetched_eq hf, if_pos h]

theorem runFetched_of_some (h : (issueStall s (ctxOf s (hdrOf f)) f i).1 ≠ 0) (hrest : goingOn s f i ≠ 0) :
    runFetched s i = .run { heldBack s f i with cur := ⟨s.cur.t, goingOn s f i⟩ } i := by
  rw [runFetched_eq hf, if_neg h, if_neg hrest]

theorem runFetched_of_all (h : (issueStall s (ctxOf s (hdrOf f)) f i).1 ≠ 0) (hrest : goingOn s f i = 0) :
    runFetched s i = .over (heldBack s f i) := by
  rw [runFetched_eq hf, if_neg h, if_pos hrest]

end

/-! ### The statement -/

/-- The step of `s` is the meaning of `i` from `y`, for those of `m` that do not stall first (R22, R161). -/
def StepRuns (s y : State) (b : Bundle) (m : Mask) (f : Fields) (i : Instr) : Prop :=
  let w := issueStall y (ctxOf y (hdrOf f)) f i
  let y1 := { y.mapLanes b.t w.1 fun _ th => { th with st := .stalled, wait := w.2 } with cur := ⟨b.t, m &&& ~~~w.1⟩ }
  (w.1 = 0 → step s = issued b (activeAt y i) (exec i y)) ∧
  (w.1 ≠ 0 → m &&& ~~~w.1 ≠ 0 → step s = issued b (activeAt y1 i) (exec i y1)) ∧
  (w.1 ≠ 0 → m &&& ~~~w.1 = 0 →
    step s = .next (afterIssue b m (y.mapLanes b.t w.1 fun _ th => { th with st := .stalled, wait := w.2 })))

theorem stepRuns_of_decode {s s1 : State} {stage wing : Nat} {b : Bundle} (hheld : s.mgmt.held = false)
    (hpick : Picks s s1 stage wing b) {y : State} {w : BitVec 96} {i : Instr} {f : Fields} (hf : fieldsOf i = some f)
    (htext : (s1.troupe b.t).context = true ∨ (nextPc s1 b).toNat < (s1.runOf b.t).textSize)
    (hfetch : fetch (atBundle s1 b) b.t (nextPc s1 b) = some (y, w)) (hcur : y.cur = ⟨b.t, readyPart s1 b⟩)
    (hdec : decode w = .ok i) : StepRuns s y b (readyPart s1 b) f i := by
  have hrun := fetchBundle_of_decode htext hfetch hdec
  have ht : y.cur.t = b.t := congrArg Cursor.t hcur
  have hm : y.cur.mask = readyPart s1 b := congrArg Cursor.mask hcur
  unfold StepRuns
  rw [← ht, ← hm]
  refine ⟨fun hnone => ?_, fun hstall hrest => ?_, fun hstall hrest => ?_⟩
  · exact step_of_run hheld hpick (hrun.trans (runFetched_of_none hf hnone))
  · exact step_of_run hheld hpick (hrun.trans (runFetched_of_some hf hstall hrest))
  · rw [hm]
    exact step_of_over hheld hpick (hrun.trans (runFetched_of_all hf hstall hrest))

/-- Settles O36: the step is that of the bundle picked (`step_of_picks`), the fetch gives its word in one of the three ways
(`fetch_of_context`, `fetch_of_cached`, `fetch_of_memory`), and what that decodes to runs for those that do not stall. -/
theorem stepRunsDecoded : Obligations.StepRunsDecoded := by
  intro s s1 stage wing b i f hheld hf u hpick m tr pc a z runs
  refine ⟨fun hcontext hdec => ?_, fun hcontext hin => ⟨fun w hcached hdec => ?_,
    fun hmiss habsent hclosed hhalf hclean hdec => ?_⟩, fun hcontext hpast => ?_⟩
  · exact stepRuns_of_decode hheld hpick hf (.inl hcontext) (fetch_of_context (s := atBundle s1 b) hcontext _) rfl hdec
  · exact stepRuns_of_decode hheld hpick hf (.inr hin) (fetch_of_cached (s := atBundle s1 b) hcontext hcached) rfl hdec
  · exact stepRuns_of_decode hheld hpick hf (.inr hin)
      (fetch_of_memory (s := atBundle s1 b) rfl hcontext hmiss habsent hclosed hhalf hclean) rfl hdec
  · exact ⟨_, rfl, rfl, rfl, rfl, rfl, step_of_over hheld hpick (fetchBundle_past_text hcontext hpast)⟩

end Sys2Proof.Machine
end

section
/-! SUPPORT. The lane instructions that write at once: what each comes to once the value its lanes get is known (R161, R184), and
the two that name registers of their own, MOVI_HI and PMOV_SET. -/

namespace Sys2Proof.Machine

open Sys2Proof

/-! ### Instructions of one destination -/

/-- An INT instruction, from the equation of its meaning and what each lane's result satisfies. -/
theorem exec_laneNow {i : Instr} {s : State} {c : Ctx} {wide : Bool} {d : Opd} {f : State → Ctx → Nat → Dword}
    {P : Nat → Dword → Prop} (hex : exec i s = laneNow i s wide d f) (hP : ∀ l, P l (f s.begun c l)) (hi : Issues i s c) :
    ∃ t, exec i s = .next t ∧ LaneNow c .rne wide d P s t := by
  rw [hex]
  exact laneNow_next hi fun l _ => hP l

/-- An integer instruction of two operands (R189). -/
theorem exec_intBin {i : Instr} {s : State} {c : Ctx} {ty : Ty} {sat : Bool} {d a : Opd} {b : Src} {f : Int → Int → Int}
    (hex : exec i s = intBin i s ty sat d a b f) (hi : Issues i s c) : ∃ t, exec i s = .next t ∧
      LaneNow c .rne (Ty.wide ty) d (fun l x => Holds ty sat (f (intA ty s.begun c l a) (intB ty s.begun c l b)) x) s t :=
  exec_laneNow hex (fun _ => holds_intBits ty sat _) hi

/-- An FP instruction that rounds its elements, with the draws of its issue (R205, R98). -/
theorem exec_fpNow {i : Instr} {s : State} {c : Ctx} {ty : Ty} {m : FMod} {d : Opd} {f : State → Ctx → Nat → Nat → FVal}
    (hex : exec i s = fpNow i s ty m d f) (hi : Issues i s c) : ∃ t, exec i s = .next t ∧
      LaneNow c m.rnd false d (fun l x => x = (joinElems (fpElems ty).1 (fpElems ty).2 fun e =>
        rnd (fpElems ty).1 m ((draws s.begun c m.rnd (fpElems ty).2).2 l e) (f s.begun c l e)).setWidth 64) s t := by
  rw [hex]
  exact fpNow_next hi fun _ _ => rfl

/-- The same of two operands, element by element. -/
theorem exec_fpBin {i : Instr} {s : State} {c : Ctx} {ty : Ty} {m : FMod} {d a : Opd} {b : Src} {f : FVal → FVal → FVal}
    (hex : exec i s = fpBin i s ty m d a b f) (hi : Issues i s c) : ∃ t, exec i s = .next t ∧
      LaneNow c m.rnd false d (fun l x => x = (joinElems (fpElems ty).1 (fpElems ty).2 fun e =>
        rnd (fpElems ty).1 m ((draws s.begun c m.rnd (fpElems ty).2).2 l e) (f
          (fElem ty m.ftz (readWord s.begun c l a 0) e) (fElem ty m.ftz (readSrcF s.begun c ty l b 1) e))).setWidth 64) s t :=
  exec_fpNow hex hi

/-- An FP instruction that rounds nothing (R206, R209). -/
theorem exec_fpCodes {i : Instr} {s : State} {c : Ctx} {ty : Ty} {d : Opd} {f : State → Ctx → Nat → Nat → Nat}
    (hex : exec i s = fpCodes i s ty d f) (hi : Issues i s c) : ∃ t, exec i s = .next t ∧
      LaneNow c .rne false d (fun l x => x = (joinElems (fpElems ty).1 (fpElems ty).2 fun e =>
        f s.begun c l e).setWidth 64) s t :=
  exec_laneNow hex (fun _ => rfl) hi

/-! ### Writes at once of any registers -/

section
variable {s : State} {c : Ctx} (ws : Writes)

/-- The state after an instruction that draws nothing and writes `ws` at once. -/
def written (s : State) (c : Ctx) (ws : Writes) : State := finish c (.ok (writeNow s.begun c ws))

theorem troupe_written : (written s c ws).troupe c.t =
    ((s.troupe c.t).setRegs (ws.flatMap Prod.snd)).mapLanes c.mask fun _ th => th.advance c.hdr := by
  rw [written, troupe_finish_ok, troupe_writeNow]
  rfl

theorem onlyTroupe_written : OnlyTroupe c.t s (written s c ws) :=
  onlyTroupe_finish_ok (onlyTroupe_writeNow (onlyTroupe_begun c.t s) ws)

theorem moved_written : Moved c (s.troupe c.t) ((written s c ws).troupe c.t) := by
  rw [troupe_written]
  exact moved_advance c _ _ (fun l => by rw [Troupe.thread_setRegs]) fun l _ => Troupe.thread_setRegs _ _ l

theorem troupe_written_rest : { (written s c ws).troupe c.t with
    regs := (s.troupe c.t).regs, pend := (s.troupe c.t).pend, threads := (s.troupe c.t).threads } = s.troupe c.t := by
  rw [troupe_written]
  have hregs := Troupe.setRegs_rest (ws.flatMap Prod.snd) (s.troupe c.t)
  have hthreads := Troupe.mapLanes_rest ((s.troupe c.t).setRegs (ws.flatMap Prod.snd)) c.mask fun _ th => th.advance c.hdr
  calc _ = { (s.troupe c.t).setRegs (ws.flatMap Prod.snd) with
        regs := (s.troupe c.t).regs, pend := (s.troupe c.t).pend, threads := (s.troupe c.t).threads } :=
      (congrArg (fun x : Troupe => { x with
        regs := (s.troupe c.t).regs, pend := (s.troupe c.t).pend, threads := (s.troupe c.t).threads }) hthreads :)
    _ = s.troupe c.t := (congrArg (fun x : Troupe => { x with threads := (s.troupe c.t).threads }) hregs :)

theorem reg_written_of_not_mem {k : Nat} (hk : ∀ w ∈ ws, k ∉ w.2.map Prod.fst) :
    ((written s c ws).troupe c.t).reg k = (s.troupe c.t).reg k := by
  rw [troupe_written, Troupe.reg_mapLanes, Troupe.reg_setRegs_of_not_mem]
  rw [List.map_flatMap, List.mem_flatMap]
  exact fun ⟨w, hw, hkw⟩ => hk w hw hkw

/-- A register that some lane's writes name, all of them with one value, holds that value. -/
theorem reg_written_of_agree {k : Nat} {x : Word} {w : Nat × List (Nat × Word)} (hw : w ∈ ws) (hk : (k, x) ∈ w.2)
    (hx : ∀ w ∈ ws, ∀ y ∈ w.2, y.1 = k → y.2 = x) : ((written s c ws).troupe c.t).reg k = x := by
  rw [troupe_written, Troupe.reg_mapLanes]
  refine Troupe.reg_setRegs_of_agree _ _ (List.mem_map.2 ⟨(k, x), List.mem_flatMap.2 ⟨w, hw, hk⟩, rfl⟩) fun y hy => ?_
  obtain ⟨v, hv, hyv⟩ := List.mem_flatMap.1 hy
  exact hx v hv y hyv

theorem laneFrame_written {keys : List Nat} (hk : ∀ k, k ∉ keys → ∀ w ∈ ws, k ∉ w.2.map Prod.fst) :
    LaneFrame c .rne keys (s.troupe c.t) ((written s c ws).troupe c.t) where
  rest := (congrArg (fun x : Troupe => { x with srState := (s.troupe c.t).srState }) (troupe_written_rest ws) :)
  regs k h := reg_written_of_not_mem ws (hk k h)
  moved := moved_written ws
  drawn _ := by
    refine ⟨(congrArg Troupe.srState (troupe_written_rest ws) :), fun l => ?_⟩
    rw [troupe_written, Troupe.thread_mapLanes, Troupe.thread_setRegs]
    split <;> rfl

end

end Sys2Proof.Machine
end

section
/-! SUPPORT. Integer arithmetic (R89, R184, R189). The statement on it (O1) is open, and why is shown: all of it holds but what it
says of IMAD, which turns on a free value that no proof can see. -/

namespace Sys2Proof.Machine

open Sys2Proof

/-- All ones, at every width, is what the integer −1 comes to. -/
theorem getLsbD_intBits_neg_one (ty : Ty) {i : Nat} (hi : i < Ty.width ty) : (intBits ty false (-1)).getLsbD i = true := by
  have hw : Ty.width ty ≤ 64 := by cases ty <;> decide
  have hs : Ty.signed ty = true → Ty.width ty ≠ 64 → Ty.width ty ≤ 32 := by cases ty <;> decide
  have hones : BitVec.ofInt (Ty.width ty) (-1) = BitVec.allOnes (Ty.width ty) := by
    rw [← BitVec.neg_one_eq_allOnes, BitVec.ofInt_neg]
    rfl
  have h64 : i < 64 := by omega
  unfold intBits
  dsimp only
  rw [if_neg Bool.false_ne_true, hones]
  split
  · rename_i hsigned
    split
    · simp [h64, hi]
    · rename_i hne
      have := hs hsigned hne
      simp [BitVec.getLsbD_signExtend, h64, hi, (by omega : i < 32)]
  · simp [h64, hi]

/-- The remainder that goes with the quotient truncated toward zero. -/
theorem remInt_of_ne {x y : Int} (h : y ≠ 0) : remInt x y = Int.tmod x y := by
  rw [remInt, if_neg h, Int.tmod_def]

theorem exec_idiv_spec {h : Hdr} {ty : Ty} {sat : Bool} {d a : Opd} {b : Src} {s : State} {c : Ctx}
    (hi : Issues (.idiv h ty sat d a b) s c) : ∃ t, exec (.idiv h ty sat d a b) s = .next t ∧
      LaneNow c .rne (Ty.wide ty) d (fun l x =>
        (intB ty s.begun c l b ≠ 0 → Holds ty sat (Int.tdiv (intA ty s.begun c l a) (intB ty s.begun c l b)) x) ∧
        (intB ty s.begun c l b = 0 → ∀ i < Ty.width ty, x.getLsbD i = true)) s t := by
  refine exec_laneNow (exec_idiv s) (fun l => ⟨fun hne => ?_, fun hz i hlt => ?_⟩) hi
  · have hsat : (sat && intB ty s.begun c l b != 0) = sat := by simp [hne]
    dsimp only
    rw [hsat, divInt, if_neg hne]
    exact holds_intBits ty sat _
  · dsimp only
    rw [hz, divInt, if_pos rfl, bne_self_eq_false, Bool.and_false]
    exact getLsbD_intBits_neg_one ty hlt

theorem exec_irem_spec {h : Hdr} {ty : Ty} {d a : Opd} {b : Src} {s : State} {c : Ctx}
    (hi : Issues (.irem h ty d a b) s c) : ∃ t, exec (.irem h ty d a b) s = .next t ∧
      LaneNow c .rne (Ty.wide ty) d (fun l x =>
        (intB ty s.begun c l b ≠ 0 → Holds ty false (Int.tmod (intA ty s.begun c l a) (intB ty s.begun c l b)) x) ∧
        (intB ty s.begun c l b = 0 → Holds ty false (intA ty s.begun c l a) x)) s t := by
  obtain ⟨t, ht, hnow⟩ := exec_intBin (exec_irem s) hi
  refine ⟨t, ht, hnow.mono fun l _ x hx => ⟨fun hne => ?_, fun hz => ?_⟩⟩
  · rwa [remInt_of_ne hne] at hx
  · rwa [remInt, if_pos hz] at hx


/-! ### IMAD's factor B

`execImad` reads B at place 0, as it reads A, and the statement reads it at place 1. Where a write of B is owed, old or new is a
free pick for each place (R161, log 14), and `Config.pick` is opaque (log 13). So the statement follows from a pick that looks at
no place (`integerArithmetic_of_pick`), and it implies that two places are picked alike (`pick_of_integerArithmetic`): neither it
nor its negation can be proved until model and statement read B at one place. -/

section
variable (hpick : ∀ n x, Config.pick n (x + 2 ^ 15) = Config.pick n x)
include hpick

theorem readReg_place (s : State) (tr : Troupe) (k : Nat) : readReg s tr k 1 = readReg s tr k 0 := by
  have hsame (p : Pend) : Config.pick s.picks (p.id * 2 ^ 20 + 1 * 2 ^ 15 + k) =
      Config.pick s.picks (p.id * 2 ^ 20 + 0 * 2 ^ 15 + k) := by
    have hnext : p.id * 2 ^ 20 + 1 * 2 ^ 15 + k = p.id * 2 ^ 20 + 0 * 2 ^ 15 + k + 2 ^ 15 := by omega
    rw [hnext, hpick]
  unfold readReg
  simp only [hsame]

theorem readTy_place (s : State) (c : Ctx) (ty : Ty) (l : Nat) (o : Opd) : readTy s c ty l o 1 = readTy s c ty l o 0 := by
  cases o <;> simp only [readTy, readPair, readPart, readWord, readPred, readReg_place hpick]

/-- All of O1, were the picks the same at every place: each result is an exact integer brought into range (`holds_intBits`), IDIV
by 0 apart, which gives −1. -/
theorem integerArithmetic_of_pick : Obligations.IntegerArithmetic := by
  refine ⟨fun h ty sat d a k b s c => ?_, fun h ty sat d a b s c => ⟨exec_idiv_spec, exec_irem_spec⟩⟩
  refine ⟨?_, ?_, ?_, ?_, fun b' => ?_, ?_, ?_, ?_, ?_⟩
  · exact exec_intBin (f := fun x y => x + y) (exec_iadd s)
  · exact exec_intBin (f := fun x y => x - y) (exec_isub s)
  · exact exec_intBin (f := fun x y => x * y) (exec_imul s)
  · exact exec_intBin (f := fun x y => x * y / 2 ^ Ty.width ty) (exec_imulh s)
  · refine exec_laneNow (exec_imad s) fun l => ?_
    rw [intB, readSrcTy, readTy_place hpick]
    exact holds_intBits ty sat _
  · exact exec_intBin (f := fun x y => min x y) (exec_imin s)
  · exact exec_intBin (f := fun x y => max x y) (exec_imax s)
  · refine exec_laneNow (exec_iabs s) fun l => ?_
    rw [Int.abs_eq_natAbs]
    exact holds_intBits ty sat _
  · exact exec_laneNow (exec_ineg s) fun l => holds_intBits ty sat _

end

/-- A word that holds `x` is `x` modulo 2^32. -/
theorem loWord_of_holds {x : Int} {r : Dword} (h : Holds .i32 false x r) : loWord r = BitVec.ofInt 32 x := by
  obtain ⟨⟨-, -, hdvd⟩, hword⟩ := h
  have hword : loWord r = BitVec.ofInt 32 (intOf .i32 r) := hword
  have hdvd : (2 ^ 32 : Int) ∣ intOf .i32 r - x := hdvd
  rw [hword]
  apply BitVec.eq_of_toInt_eq
  rw [BitVec.toInt_ofInt, BitVec.toInt_ofInt]
  exact Int.bmod_eq_bmod_iff_bmod_sub_eq_zero.2 (Int.bmod_eq_zero_of_dvd hdvd)

/-- A clause start guarded by pt, with no flag. -/
def plainHdr : Hdr := ⟨7, false, true, false, .none, none, none, 0⟩

/-- v3 := v1 * v2 + 0. -/
def imadFactor : Instr := .imad plainHdr .i32 false (.v 3) (.v 1) (.v 2) .rz

/-- Troupe 256 at the cursor with lane 0 alone; there v1 is 1, and v2 is 0 and is owed the value 7. -/
def owesFactor : State :=
  let s := State.reset.withFetchWord 96 0
  { s with cur := ⟨256, 1⟩ }.setTroupe 256 { s.troupe 256 with
    regs := [(vKey 1 0, 1)], pend := [⟨0, 1, none, [(vKey 2 0, 7)], true, []⟩] }

/-- How IMAD's rules see the bundle. -/
def imadCtx : Ctx := ctxOf owesFactor plainHdr

theorem issues_imadFactor : Issues imadFactor owesFactor imadCtx where
  bundle := by decide +kernel
  checks := ⟨_, rfl, rfl, Option.isNone_iff_eq_none.1 (by decide +kernel)⟩
  flags := by decide +kernel

theorem troupe_owesFactor : (owesFactor.begun.troupe imadCtx.t).pend = [⟨0, 1, none, [(vKey 2 0, 7)], true, []⟩] ∧
    (owesFactor.begun.troupe imadCtx.t).reg (vKey 1 0) = 1 ∧ (owesFactor.begun.troupe imadCtx.t).reg (vKey 2 0) = 0 ∧
    owesFactor.begun.picks = 1 ∧ hasLane imadCtx.act 0 = true := by
  decide +kernel

/-- The factors that lane 0 reads. -/
theorem reads_owesFactor (place : Nat) : readTy owesFactor.begun imadCtx .i32 0 (.v 1) place = 1 ∧
    readTy owesFactor.begun imadCtx .i32 0 (.v 2) place =
      if Config.pick 1 (place * 2 ^ 15 + vKey 2 0) then 7 else 0 := by
  obtain ⟨hpend, h1, h2, hpicks, -⟩ := troupe_owesFactor
  have hone : readReg owesFactor.begun (owesFactor.begun.troupe imadCtx.t) (vKey 1 0) place = 1 := by
    rw [readReg, hpend]
    exact h1
  have howed : readReg owesFactor.begun (owesFactor.begun.troupe imadCtx.t) (vKey 2 0) place =
      if Config.pick 1 (place * 2 ^ 15 + vKey 2 0) then 7 else 0 := by
    rw [readReg, hpend, hpicks, h2]
    simp [pendValue]
  refine ⟨congrArg (BitVec.setWidth 64) hone, (congrArg (BitVec.setWidth 64) howed).trans ?_⟩
  split <;> rfl

/-- What O1 says of IMAD in `owesFactor` fixes free values: the two places of the owed v2 must be picked alike. -/
theorem pick_of_integerArithmetic (hO : Obligations.IntegerArithmetic) :
    Config.pick 1 (2 ^ 15 + vKey 2 0) = Config.pick 1 (vKey 2 0) := by
  obtain ⟨hclauses, -⟩ := hO
  obtain ⟨-, -, -, -, himad, -⟩ := hclauses plainHdr .i32 false (.v 3) (.v 1) .rz (.imm 0) owesFactor imadCtx
  obtain ⟨t, ht, hnow⟩ := himad (.v 2) issues_imadFactor
  obtain ⟨t', ht', hnow'⟩ := exec_laneNow (P := fun l x => Holds .i32 false (intA .i32 owesFactor.begun imadCtx l (.v 1) *
    intA .i32 owesFactor.begun imadCtx l (.v 2) + intOf .i32 (readTy owesFactor.begun imadCtx .i32 l .rz 2)) x)
    (exec_imad owesFactor) (fun l => holds_intBits .i32 false _) issues_imadFactor
  obtain rfl : t = t' := by
    have := ht.symm.trans ht'
    cases this
    rfl
  obtain ⟨-, -, -, -, hact⟩ := troupe_owesFactor
  have hlane : 0 ∈ writers imadCtx (.v 3) := mem_lanes.2 hact
  obtain ⟨x, hx, hgets⟩ := hnow.result 0 hlane
  obtain ⟨y, hy, hgets'⟩ := hnow'.result 0 hlane
  have hxy : loWord x = loWord y :=
    (hgets (vKey 3 0, loWord x) List.mem_cons_self).symm.trans (hgets' (vKey 3 0, loWord y) List.mem_cons_self)
  rw [loWord_of_holds hx, loWord_of_holds hy] at hxy
  simp only [intA, intB, readSrcTy, (reads_owesFactor _).1, (reads_owesFactor _).2, one_mul, zero_mul, zero_add] at hxy
  cases h0 : Config.pick 1 (vKey 2 0) <;> cases h1 : Config.pick 1 (2 ^ 15 + vKey 2 0) <;>
    simp only [h0, h1] at hxy ⊢
  · exact absurd hxy (by decide)
  · exact absurd hxy (by decide)

end Sys2Proof.Machine
end

section
/-! SUPPORT. The statements on floating-point arithmetic (R205-R209) and on moves and addresses (R202, R203). -/

namespace Sys2Proof.Machine

open Sys2Proof

/-- Settles O5: what rounds does so element by element with the draws of its issue (`exec_fpNow`); the rest draws nothing. -/
theorem floatingPoint : Obligations.FloatingPoint := by
  refine ⟨fun h ty m d a s c => ?_, fun h ty ftz d a s c => ?_⟩
  · refine ⟨fun b => ?_, fun b => ?_, fun b => ?_, fun b k hi => ?_⟩
    · exact exec_fpBin (f := fun x y => sumF (m.rnd == .rdn) [x, y]) (exec_fadd s)
    · exact exec_fpBin (f := fun x y => sumF (m.rnd == .rdn) [x, y.neg]) (exec_fsub s)
    · exact exec_fpBin (f := fun x y => x.mul y) (exec_fmul s)
    · exact exec_fpNow (exec_ffma s) hi
  · refine ⟨fun b => ?_, fun b => ?_, ?_, ?_, fun r => ?_, fun cond b => ?_, ?_⟩
    · exact fun hi => (exec_fpCodes (exec_fmin s) hi :)
    · exact fun hi => (exec_fpCodes (exec_fmax s) hi :)
    · exact fun hi => (exec_fpCodes (exec_fabs s) hi :)
    · exact fun hi => (exec_fpCodes (exec_fneg s) hi :)
    · exact fun hi => (exec_fpCodes (exec_frint s) hi :)
    · refine exec_laneNow (exec_fcmp s) fun l => ?_
      cases b <;> rfl
    · exact exec_laneNow (exec_fclass s) fun l => rfl

/-- A shifted offset is its multiple by a power of two (R203). -/
theorem shiftLeft_eq_mul_two_pow (x : Dword) (n : Nat) : x <<< n = x * 2 ^ n := by
  rw [BitVec.shiftLeft_eq_mul_twoPow]
  congr 1
  apply BitVec.eq_of_toNat_eq
  simp [BitVec.toNat_twoPow]

theorem codeBase_eq (s : State) (t : Nat) : codeBase s t = BitVec.ofNat 64 (2 ^ 63 + (s.runOf t).code) := by
  rw [codeBase, BitVec.ofNat_add]
  rfl

theorem destPart_fst (d : Opd) (l k : Nat) (y : Word) : ∀ w ∈ destPart d l k y, w.2 = y := by
  cases d <;> simp [destPart]

theorem exec_moviHi_spec {h : Hdr} {d : Opd} {y : Word} {s : State} {c : Ctx} (hi : Issues (.moviHi h d y) s c) :
    ∃ t, exec (.moviHi h d y) s = .next t ∧ OnlyTroupe c.t s t ∧
      LaneFrame c .rne ((writers c d).flatMap fun l => (destPart d l 1 y).map Prod.fst) (s.troupe c.t) (t.troupe c.t) ∧
      ∀ l ∈ writers c d, ∀ w ∈ destPart d l 1 y, (t.troupe c.t).reg w.1 = y := by
  refine ⟨_, (exec_moviHi s).trans (issue_next hi _), onlyTroupe_written _, laneFrame_written _ ?_, fun l hl w hw => ?_⟩
  · simp only [List.mem_flatMap, List.mem_map (f := fun l => (l, destPart d l 1 y)), not_exists, not_and]
    rintro k hk _ ⟨l, hl, rfl⟩
    exact hk l hl
  · refine reg_written_of_agree _ (List.mem_map.2 ⟨l, hl, rfl⟩) ?_ ?_
    · have hy := destPart_fst d l 1 y w hw
      exact (Prod.ext rfl hy : w = (w.1, y)) ▸ hw
    · rintro _ hv x hx -
      obtain ⟨j, -, rfl⟩ := List.mem_map.1 hv
      exact destPart_fst d j 1 y x hx

/-- Settles O4: each lane's value is that of the statement as it stands, MOVI_HI apart, whose registers `written` covers. -/
theorem movesAndAddresses : Obligations.MovesAndAddresses := by
  intro h ty d a s c
  refine ⟨?_, fun y => ?_, fun y => exec_moviHi_spec, fun sh b => ?_, fun sh b => ?_⟩
  · exact exec_laneNow (exec_mov s) fun l => rfl
  · exact exec_laneNow (exec_movi s) fun l => by simp [loWord]
  · exact exec_laneNow (exec_lea s) fun l => by rw [shiftLeft_eq_mul_two_pow]
  · exact exec_laneNow (exec_leaCode s) fun l => by rw [shiftLeft_eq_mul_two_pow, codeBase_eq]; rfl

end Sys2Proof.Machine
end

section
/-! SUPPORT. The bits of the logic, field, permute and count instructions, and the statement on them (R191-R195). -/

namespace Sys2Proof.Machine

open Sys2Proof

/-! ### Bits of words and pairs -/

theorem getLsbD_setWidth_word (x : Word) (i : Nat) : (x.setWidth 64 : Dword).getLsbD i = x.getLsbD i := by
  rw [BitVec.getLsbD_setWidth]
  by_cases hi : i < 64
  · simp [hi]
  · rw [BitVec.getLsbD_of_ge x i (by omega), Bool.and_false]

/-- An operand that is no pair is zero above its word. -/
theorem getLsbD_readTy_of_ge {s : State} {c : Ctx} {ty : Ty} (hty : Ty.wide ty = false) (l : Nat) (o : Opd) (place : Nat)
    {i : Nat} (hi : 32 ≤ i) : (readTy s c ty l o place).getLsbD i = false := by
  rw [readTy, hty, if_neg Bool.false_ne_true, getLsbD_setWidth_word]
  exact BitVec.getLsbD_of_ge _ _ hi

/-- Where one element alone can satisfy `p`, some element does when that one does. -/
theorem any_eq_of_unique {p : Nat → Bool} {ks : List Nat} {k : Nat} (hk : k ∈ ks) (hne : ∀ j ∈ ks, j ≠ k → p j = false) :
    ks.any p = p k := by
  rw [Bool.eq_iff_iff, List.any_eq_true]
  refine ⟨fun ⟨j, hj, hp⟩ => ?_, fun hp => ⟨k, hk, hp⟩⟩
  by_cases hjk : j = k
  · exact hjk ▸ hp
  · exact absurd hp (by simp [hne j hj hjk])

/-- A word that gathers parts by OR has the bits that some part has. -/
theorem getLsbD_foldl_or {w : Nat} (g : Nat → BitVec w) (ks : List Nat) (y : BitVec w) (i : Nat) :
    (ks.foldl (fun y k => y ||| g k) y).getLsbD i = (y.getLsbD i || ks.any fun k => (g k).getLsbD i) := by
  induction ks generalizing y with
  | nil => simp
  | cons k r ih => rw [List.foldl_cons, ih, BitVec.getLsbD_or, List.any_cons, Bool.or_assoc]

/-- A word that sets bit `q k` for each `k` with `p k`. -/
theorem getLsbD_foldl_bits {w : Nat} (p : Nat → Bool) (q : Nat → Nat) (ks : List Nat) (y : BitVec w) {i : Nat} (hi : i < w) :
    (ks.foldl (fun y k => if p k then y ||| (1#w <<< q k) else y) y).getLsbD i =
      (y.getLsbD i || ks.any fun k => p k && decide (i = q k)) := by
  have hone (k : Nat) : (if p k then 1#w <<< q k else 0#w).getLsbD i = (p k && decide (i = q k)) := by
    cases p k
    · simp
    · simp only [if_true, BitVec.getLsbD_shiftLeft, BitVec.getLsbD_one, Bool.true_and, hi, decide_true]
      by_cases h : i = q k
      · simp [h]; omega
      · simp [h]; omega
  have hor : (fun (y : BitVec w) k => if p k then y ||| (1#w <<< q k) else y) =
      fun y k => y ||| (if p k then 1#w <<< q k else 0#w) := by
    funext y k
    cases p k <;> simp
  rw [hor, getLsbD_foldl_or]
  simp only [hone]

/-! ### Fields (R193) -/

/-- The bit at which the field of R193 ends. -/
def fieldEnd (b : Word) : Nat := min (b.toNat % 256 + b.toNat / 256 % 256) 32

theorem getLsbD_fieldMask (b : Word) (i : Nat) :
    (fieldMask b).getLsbD i = (decide (b.toNat % 256 ≤ i) && decide (i < fieldEnd b)) := by
  have h := hasLane_maskOf (fun k => decide (b.toNat % 256 ≤ k) && decide (k < fieldEnd b)) i
  have hend : fieldEnd b ≤ 32 := Nat.min_le_right _ _
  rw [fieldMask]
  refine h.trans ?_
  by_cases hi : i < 32
  · rw [decide_eq_true hi, Bool.true_and]
  · rw [decide_eq_false hi, Bool.false_and, decide_eq_false (by omega : ¬ i < fieldEnd b), Bool.and_false]

theorem getLsbD_bfeBits (ty : Ty) (a b : Word) {i : Nat} (hi : i < 32) : (bfeBits ty a b).getLsbD i =
    if b.toNat % 256 + i < fieldEnd b then a.getLsbD (b.toNat % 256 + i)
    else (ty == .i32 && decide (b.toNat % 256 < fieldEnd b) && a.getLsbD (fieldEnd b - 1)) := by
  have hfield : ((a &&& fieldMask b) >>> (b.toNat % 256)).getLsbD i =
      (a.getLsbD (b.toNat % 256 + i) && decide (b.toNat % 256 + i < fieldEnd b)) := by
    rw [BitVec.getLsbD_ushiftRight, BitVec.getLsbD_and, getLsbD_fieldMask, decide_eq_true (by omega), Bool.true_and]
  have hrest : (~~~(fieldMask b >>> (b.toNat % 256))).getLsbD i = !decide (b.toNat % 256 + i < fieldEnd b) := by
    rw [BitVec.getLsbD_not, BitVec.getLsbD_ushiftRight, getLsbD_fieldMask, decide_eq_true hi,
      decide_eq_true (by omega : b.toNat % 256 ≤ b.toNat % 256 + i), Bool.true_and, Bool.true_and]
  have hdef : bfeBits ty a b =
      if ty == .i32 && decide (b.toNat % 256 < fieldEnd b) && a.getLsbD (fieldEnd b - 1)
      then (a &&& fieldMask b) >>> (b.toNat % 256) ||| ~~~(fieldMask b >>> (b.toNat % 256))
      else (a &&& fieldMask b) >>> (b.toNat % 256) := rfl
  rw [hdef]
  by_cases hin : b.toNat % 256 + i < fieldEnd b
  · rw [if_pos hin]
    split <;> simp [hfield, hrest, hin]
  · rw [if_neg hin]
    split <;> rename_i hsign
    · rw [BitVec.getLsbD_or, hrest, decide_eq_false hin, hsign, Bool.not_false, Bool.or_true]
    · rw [hfield, decide_eq_false hin, Bool.and_false]
      simpa using hsign

theorem getLsbD_bfiBits (a b c : Word) {i : Nat} (hi : i < 32) : (bfiBits a b c).getLsbD i =
    if b.toNat % 256 ≤ i ∧ i < fieldEnd b then a.getLsbD (i - b.toNat % 256) else c.getLsbD i := by
  rw [bfiBits, BitVec.getLsbD_or, BitVec.getLsbD_and, BitVec.getLsbD_and, BitVec.getLsbD_not, getLsbD_fieldMask,
    BitVec.getLsbD_shiftLeft]
  by_cases hin : b.toNat % 256 ≤ i ∧ i < fieldEnd b
  · rw [if_pos hin]
    simp [hin.1, hin.2, hi]
  · have hout : (decide (b.toNat % 256 ≤ i) && decide (i < fieldEnd b)) = false := by simpa using hin
    rw [if_neg hin, hout]
    simp [hi]

/-! ### PRMT (R195) -/

/-- The byte that digit `n` of a selector picks from a pool, or the copies of its sign bit. -/
def prmtByte (pool : Dword) (n : Nat) : Byte :=
  if n ≥ 8 then (if (pool.extractLsb' (8 * (n % 8)) 8).getLsbD 7 then 0xFF else 0) else pool.extractLsb' (8 * (n % 8)) 8

theorem getLsbD_prmtByte (pool : Dword) {n i : Nat} (hi : i < 8) :
    (prmtByte pool n).getLsbD i = pool.getLsbD (8 * (n % 8) + if n < 8 then i else 7) := by
  have hones : (0xFF : Byte).getLsbD i = true := by interval_cases i <;> rfl
  rw [prmtByte]
  by_cases hn : n < 8
  · rw [if_neg (by omega), if_pos hn, BitVec.getLsbD_extractLsb', decide_eq_true hi, Bool.true_and]
  · rw [if_pos (by omega), if_neg hn, BitVec.getLsbD_extractLsb', decide_eq_true (by omega : 7 < 8), Bool.true_and]
    split <;> rename_i h <;> simp_all

theorem prmtBits_eq (lo hi sel : Word) : prmtBits lo hi sel = (List.range 4).foldl (fun r k => r |||
    ((prmtByte (joinPair lo hi) (sel.toNat / 16 ^ k % 16)).setWidth 32 <<< (8 * k))) 0 := rfl

theorem getLsbD_prmtBits (lo hi sel : Word) {k i : Nat} (hk : k < 4) (hi8 : i < 8) :
    (prmtBits lo hi sel).getLsbD (8 * k + i) = (joinPair lo hi).getLsbD
      (8 * ((sel.toNat / 16 ^ k) % 8) + if sel.toNat / 16 ^ k % 16 < 8 then i else 7) := by
  rw [prmtBits_eq, getLsbD_foldl_or, any_eq_of_unique (List.mem_range.2 hk) fun j _ hj => ?_]
  · rw [BitVec.getLsbD_shiftLeft, BitVec.getLsbD_setWidth, decide_eq_true (by omega : 8 * k + i < 32),
      decide_eq_false (by omega : ¬ 8 * k + i < 8 * k), Nat.add_sub_cancel_left, decide_eq_true (by omega : i < 32),
      getLsbD_prmtByte _ hi8, Nat.mod_mod_of_dvd _ (by decide : 8 ∣ 16)]
    simp
  · rw [BitVec.getLsbD_shiftLeft, BitVec.getLsbD_setWidth]
    by_cases hlt : 8 * k + i < 8 * j
    · simp [hlt]
    · rw [BitVec.getLsbD_of_ge _ (8 * k + i - 8 * j) (by omega), Bool.and_false, Bool.and_false]

/-! ### Counts (R194) -/

theorem popBits_le (w : Nat) (x : Dword) : popBits w x ≤ w := by
  simpa [popBits] using List.length_filter_le (fun k => x.getLsbD k) (List.range w)

theorem clzBits_succ (w : Nat) (x : Dword) : clzBits (w + 1) x = if x.getLsbD w then 0 else clzBits w x + 1 := by
  rw [clzBits, clzBits, List.range_succ, List.reverse_append, List.reverse_singleton, List.singleton_append,
    List.takeWhile_cons]
  cases x.getLsbD w <;> rfl

/-- The bits above the highest one are zeros, and that one is set. -/
theorem clzBits_spec (w : Nat) (x : Dword) : clzBits w x ≤ w ∧ (∀ i < w, w - clzBits w x ≤ i → x.getLsbD i = false) ∧
    (clzBits w x < w → x.getLsbD (w - 1 - clzBits w x) = true) := by
  induction w with
  | zero => exact ⟨Nat.le_refl _, fun i hi => absurd hi (Nat.not_lt_zero i), fun h => absurd h (Nat.not_lt_zero _)⟩
  | succ w ih =>
    obtain ⟨hle, hzeros, hone⟩ := ih
    rw [clzBits_succ]
    split
    · rename_i hset
      exact ⟨Nat.zero_le _, fun i hi hge => absurd hi (by omega), fun _ => hset⟩
    · rename_i hclear
      refine ⟨by omega, fun i hi hge => ?_, fun hlt => ?_⟩
      · by_cases hiw : i = w
        · simpa [hiw] using hclear
        · exact hzeros i (by omega) (by omega)
      · rw [show w + 1 - 1 - (clzBits w x + 1) = w - 1 - clzBits w x by omega]
        exact hone (by omega)

theorem getLsbD_revBits {w : Nat} (hw : w ≤ 64) (x : Dword) {i : Nat} (hi : i < w) :
    (revBits w x).getLsbD i = x.getLsbD (w - 1 - i) := by
  have hk : w - 1 - i ∈ List.range w := List.mem_range.2 (by omega)
  rw [revBits, getLsbD_foldl_bits (fun k => x.getLsbD k) (fun k => w - 1 - k) _ _ (by omega),
    any_eq_of_unique hk fun j hj hne => ?_]
  · rw [decide_eq_true (by omega : i = w - 1 - (w - 1 - i))]
    simp
  · have := List.mem_range.1 hj
    rw [decide_eq_false (by omega : ¬ i = w - 1 - j), Bool.and_false]

/-! ### The statement -/

theorem width_le (ty : Ty) : Ty.width ty ≤ 64 := by cases ty <;> decide

section
variable {ty : Ty} {d a : Opd} {s : State} {c : Ctx}

/-- A shift (R192), from what it does to the bits of the TYPE's width. -/
theorem exec_shiftBin {i : Instr} {b : Src} {f : Ty → Dword → Nat → Dword} {P : Nat → Dword → Prop}
    (hex : exec i s = shiftBin i s ty d a b f)
    (hP : ∀ l, P l (f ty (readTy s.begun c ty l a 0) ((readSrcZ s.begun c l b 1).toNat % 256))) (hi : Issues i s c) :
    ∃ t, exec i s = .next t ∧ LaneNow c .rne (Ty.wide ty) d P s t := exec_laneNow hex hP hi

/-- An operation on the bits of both operands (R191). -/
theorem exec_logicBin {i : Instr} {b : Src} {f : Dword → Dword → Dword} {g : Bool → Bool → Bool}
    (hex : exec i s = logicBin i s ty d a b f) (hf : ∀ x y k, (f x y).getLsbD k = g (x.getLsbD k) (y.getLsbD k))
    (hi : Issues i s c) : ∃ t, exec i s = .next t ∧ LaneNow c .rne (Ty.wide ty) d (fun l x => ∀ k, x.getLsbD k =
      g ((readTy s.begun c ty l a 0).getLsbD k) ((readSrcZTy s.begun c ty l b 1).getLsbD k)) s t :=
  exec_laneNow hex (fun _ k => hf _ _ k) hi

end

/-- A count of at most 64 bits stands in the pair unchanged. -/
theorem toNat_ofNat_count {n : Nat} (h : n ≤ 64) : (BitVec.ofNat 64 n).toNat = n := by
  rw [BitVec.toNat_ofNat, Nat.mod_eq_of_lt (by omega)]

/-- Settles O2: the shifts by `shl_bit`, `shr_bit` and `rotl_bit`, the fields by the bits of their mask, PRMT byte by byte, and the
counts over the TYPE's width. -/
theorem bitOperations : Obligations.BitOperations := by
  refine ⟨fun h ty d a b s c => ?_, fun h ty d a b s c hw => ?_, fun h ty d a s c => ?_, fun h ty d a s c hw => ?_⟩
  · refine ⟨?_, ?_, ?_, ?_⟩
    · exact exec_logicBin (g := and) (exec_and s) fun x y k => BitVec.getLsbD_and
    · exact exec_logicBin (g := or) (exec_or s) fun x y k => BitVec.getLsbD_or
    · exact exec_logicBin (g := bne) (exec_xor s) fun x y k => BitVec.getLsbD_xor
    · refine exec_laneNow (exec_not s) fun l i hlt => ?_
      rw [BitVec.getLsbD_not, decide_eq_true hlt, Bool.true_and]
  · refine ⟨?_, ?_, ?_⟩
    · exact exec_shiftBin (exec_shl s) fun l i hlt => shl_bit ty _ _ i hlt
    · exact exec_shiftBin (exec_shr s) fun l i hlt => shr_bit ty _ _ i hlt hw fun hty _ => getLsbD_readTy_of_ge hty l a 0
    · exact exec_shiftBin (exec_rotl s) fun l i hlt => rotl_bit ty _ _ i hlt hw
  · refine ⟨fun b => ?_, fun b k => ?_, fun b => exec_laneNow (exec_prmt s) fun l k hk i hlt => ?_⟩
    · exact exec_laneNow (exec_bfe s) fun l i hlt => (getLsbD_setWidth_word _ _).trans (getLsbD_bfeBits ty _ _ hlt)
    · exact exec_laneNow (exec_bfi s) fun l i hlt => (getLsbD_setWidth_word _ _).trans (getLsbD_bfiBits _ _ _ hlt)
    · cases b with
      | reg b k' => exact (getLsbD_setWidth_word _ _).trans (getLsbD_prmtBits _ _ _ hk hlt)
      | imm y => exact (getLsbD_setWidth_word _ _).trans (getLsbD_prmtBits _ _ _ hk hlt)
  · refine ⟨?_, ?_, ?_⟩
    · exact exec_laneNow (exec_popc s) fun l => toNat_ofNat_count ((popBits_le _ _).trans (width_le ty))
    · refine exec_laneNow (exec_clz s) fun l => ?_
      have hspec := clzBits_spec (Ty.width ty) (readTy s.begun c ty l a 0)
      dsimp only
      rwa [toNat_ofNat_count (hspec.1.trans (width_le ty))]
    · exact exec_laneNow (exec_brev s) fun l i hlt => getLsbD_revBits (width_le ty) _ hlt

end Sys2Proof.Machine
end

section
/-! SUPPORT. The conditions, SEL, PLOP and the predicates as a mask, and the statement on them (R197-R200). -/

namespace Sys2Proof.Machine

open Sys2Proof

/-! ### Conditions and combines (Table 15.5) -/

/-- What a condition of ICMP says of two integers; `.num` and `.nan` are never met. -/
def Cond.Holds (k : Cond) (A B : Int) : Prop :=
  match k with
  | .eq => A = B
  | .ne => A ≠ B
  | .lt => A < B
  | .le => A ≤ B
  | .gt => B < A
  | .ge => B ≤ A
  | .num => False
  | .nan => False

theorem icond_iff (k : Cond) (A B : Int) : icond k A B = true ↔ Cond.Holds k A B := by
  cases k <;> simp [icond, Cond.Holds]

theorem combine_iff (k : Comb) {x y : Bool} {X Y : Prop} (hx : x = true ↔ X) (hy : y = true ↔ Y) :
    combine k x y = true ↔ match k with
      | .and => X ∧ Y
      | .or => X ∨ Y
      | .xor => ¬(X ↔ Y) := by
  cases k with
  | and => rw [← hx, ← hy]; exact Bool.and_eq_true_iff
  | or => rw [← hx, ← hy]; exact Bool.or_eq_true_iff
  | xor => rw [← hx, ← hy, ← Bool.eq_iff_iff]; exact bne_iff_ne

/-! ### PLOP (R199) -/

theorem plopBit_eq (table : BitVec 8) (x y z : Bool) :
    plopBit table x y z = table.getLsbD (4 * (boolWord x).toNat + 2 * (boolWord y).toNat + (boolWord z).toNat) := by
  cases x <;> cases y <;> cases z <;> rfl

/-! ### PMOV (R200) -/

/-- The mask of PMOV_GET: the predicates below, p7 at bit 7, and nothing above. -/
theorem getLsbD_predSet (s : State) (c : Ctx) (l i : Nat) : (predSet s c l).getLsbD i =
    if i < 7 then readPred s (s.troupe c.t) l i i else decide (i = 7) := by
  by_cases hi : i < 64
  · have h80 : (0x80 : Dword).getLsbD i = decide (i = 7) := by interval_cases i <;> rfl
    rw [predSet, getLsbD_foldl_bits (fun k => readPred s (s.troupe c.t) l k k) (fun k => k) _ _ hi, h80]
    split
    · rename_i h7
      rw [any_eq_of_unique (List.mem_range.2 h7) fun j _ hne => by rw [decide_eq_false hne.symm, Bool.and_false],
        decide_eq_false (by omega : ¬ i = 7), decide_eq_true rfl, Bool.false_or, Bool.and_true]
    · rename_i h7
      rw [List.any_eq_false.2 fun j hj => ?_, Bool.or_false]
      have hj7 := List.mem_range.1 hj
      rw [decide_eq_false (by omega : ¬ i = j), Bool.and_false]
      exact Bool.false_ne_true
  · rw [BitVec.getLsbD_of_ge _ _ (by omega), if_neg (by omega), decide_eq_false (by omega)]

/-- The writes of PMOV_SET in a lane: the predicates that `m` names, each with its bit of `x`. -/
def predWrites (m x : Word) (l : Nat) : List (Nat × Word) :=
  (List.range 7).filterMap fun k => if m.getLsbD k then some (pKey l k, boolWord (x.getLsbD k)) else none

theorem mem_predWrites {m x : Word} {l : Nat} {w : Nat × Word} : w ∈ predWrites m x l ↔
    ∃ i < 7, m.getLsbD i = true ∧ w = (pKey l i, boolWord (x.getLsbD i)) := by
  simp only [predWrites, List.mem_filterMap, List.mem_range, Option.ite_none_right_eq_some, Option.some.injEq]
  exact ⟨fun ⟨i, hi, hm, hw⟩ => ⟨i, hi, hm, hw.symm⟩, fun ⟨i, hi, hm, hw⟩ => ⟨i, hi, hm, hw.symm⟩⟩

/-- No two predicates of the troupe share a key. -/
theorem pKey_inj {l j i k : Nat} (hi : i < 7) (hk : k < 7) (h : pKey l i = pKey j k) : l = j ∧ i = k := by
  simp only [pKey] at h
  omega

theorem exec_pmovSet_spec {h : Hdr} {a : Opd} {b : Src} {s : State} {c : Ctx} (hi : Issues (.pmovSet h a b) s c) :
    ∃ t, exec (.pmovSet h a b) s = .next t ∧ OnlyTroupe c.t s t ∧ Moved c (s.troupe c.t) (t.troupe c.t) ∧
      { t.troupe c.t with
        regs := (s.troupe c.t).regs, pend := (s.troupe c.t).pend, threads := (s.troupe c.t).threads } = s.troupe c.t ∧
      (∀ l, hasLane c.act l = true → ∀ i < 7, (readSrcZ s.begun c l b 1).getLsbD i = true →
        (t.troupe c.t).reg (pKey l i) = boolWord ((readWord s.begun c l a 0).getLsbD i)) ∧
      ∀ k, (∀ l, hasLane c.act l = true → ∀ i < 7, (readSrcZ s.begun c l b 1).getLsbD i = true → k ≠ pKey l i) →
        (t.troupe c.t).reg k = (s.troupe c.t).reg k := by
  refine ⟨written s c ((lanes c.act).map fun l => (l, predWrites (readSrcZ s.begun c l b 1) (readWord s.begun c l a 0) l)),
    (exec_pmovSet s).trans (issue_next hi _), onlyTroupe_written _, moved_written _, troupe_written_rest _,
    fun l hl i hlt hm => ?_, fun k hk => reg_written_of_not_mem _ ?_⟩
  · refine reg_written_of_agree _ (List.mem_map.2 ⟨l, mem_lanes.2 hl, rfl⟩) (mem_predWrites.2 ⟨i, hlt, hm, rfl⟩) ?_
    rintro _ hv y hy hkey
    obtain ⟨j, -, rfl⟩ := List.mem_map.1 hv
    obtain ⟨k, hk, -, rfl⟩ := mem_predWrites.1 hy
    obtain ⟨rfl, rfl⟩ := pKey_inj hk hlt hkey
    rfl
  · rintro _ hv hmem
    obtain ⟨l, hl, rfl⟩ := List.mem_map.1 hv
    obtain ⟨w, hw, hwk⟩ := List.mem_map.1 hmem
    obtain ⟨i, hlt, hm, rfl⟩ := mem_predWrites.1 hw
    exact hk l (mem_lanes.1 hl) i hlt hm hwk.symm

/-- Settles O3: ICMP by its condition and its combine, PLOP and PMOV_GET by the bits they look up, PMOV_SET by what it writes. -/
theorem comparesAndPredicates : Obligations.ComparesAndPredicates := by
  intro h d a s c
  refine ⟨fun cond ty b => ?_, fun ty b k => ?_, fun table b k => ?_, ?_, fun b => exec_pmovSet_spec⟩
  · refine exec_laneNow (exec_icmp s) fun l => ?_
    cases b with
    | plain b => exact ⟨(boolDword_cases _).1, (boolDword_cases _).2.trans (icond_iff _ _ _)⟩
    | comb k b p =>
      have hcomb := combine_iff k (icond_iff cond (intA ty s.begun c l a) (intOf ty (readTy s.begun c ty l b 1)))
        (bne_iff_ne (a := readWord s.begun c l p 2) (b := 0))
      cases k <;> exact ⟨(boolDword_cases _).1, (boolDword_cases _).2.trans hcomb⟩
  · refine exec_laneNow (exec_sel s) fun l => ⟨fun hne => ?_, fun hz => ?_⟩
    · exact if_pos (bne_iff_ne.2 hne)
    · exact if_neg (by simp [hz])
  · refine exec_laneNow (exec_plop s) fun l => ?_
    rw [plopBit_eq]
    rfl
  · refine exec_laneNow (exec_pmovGet s) fun l => ⟨?_, fun i hge => ?_, fun i hlt => ?_⟩
    · rw [getLsbD_predSet, if_neg (by omega), decide_eq_true rfl]
    · rw [getLsbD_predSet, if_neg (by omega), decide_eq_false (by omega)]
    · rw [getLsbD_predSet, if_pos hlt]
      rfl

end Sys2Proof.Machine
end

section
/-! SUPPORT. The accesses that the lanes of an instruction enter, one lane after another: what an address means does not depend on
what has been entered before (R85, R224), and from the lanes to the instruction. -/

namespace Sys2Proof.Machine

open Sys2Proof

/-! ### What an address means -/

/-- Addresses, casts and limits mean the same in two states: at most a run is marked (R83). -/
structure SameSpace (s t : State) : Prop where
  ports     : t.ports = s.ports
  companies : t.companies = s.companies
  runs      : ∀ r, { t.run r with nonrepro := (s.run r).nonrepro } = s.run r
  wall      : t.wall = s.wall
  limits    : ∀ u, (t.troupe u).awaitLim = (s.troupe u).awaitLim

namespace SameSpace

variable {s t : State}

protected theorem refl (s : State) : SameSpace s s := ⟨rfl, rfl, fun _ => rfl, rfl, fun _ => rfl⟩

protected theorem trans {r : State} (h : SameSpace s t) (k : SameSpace t r) : SameSpace s r where
  ports := k.ports.trans h.ports
  companies := k.companies.trans h.companies
  runs j := (congrArg (fun x : Run => { x with nonrepro := (s.run j).nonrepro }) (k.runs j) :).trans (h.runs j)
  wall := k.wall.trans h.wall
  limits u := (k.limits u).trans (h.limits u)

theorem company (h : SameSpace s t) (k : Nat) : t.company k = s.company k := by
  rw [State.company, h.companies, State.company]

theorem runOf (h : SameSpace s t) (u : Nat) : { t.runOf u with nonrepro := (s.runOf u).nonrepro } = s.runOf u := by
  rw [State.runOf, State.runOf, State.companyOf, h.company]
  exact h.runs _

theorem physOf (h : SameSpace s t) (u l : Nat) (x : Dword) : physOf t u l x = physOf s u l x := by
  have hstack : (t.runOf u).stack = (s.runOf u).stack := (congrArg Run.stack (h.runOf u) :)
  have hparam : (t.runOf u).param = (s.runOf u).param := (congrArg Run.param (h.runOf u) :)
  simp only [Machine.physOf, stackArea, State.companyOf, h.company, hstack, hparam]

theorem isRemote (h : SameSpace s t) (x : Dword) : isRemote t x = isRemote s x := by
  simp only [Machine.isRemote, skid, h.ports]

theorem devOf (h : SameSpace s t) (x : Dword) : devOf t x = devOf s x := by
  simp only [Machine.devOf, h.isRemote]

theorem castTargets (h : SameSpace s t) (u : Nat) (x : Dword) : castTargets t u x = castTargets s u x := by
  have hmap (r : Nat) : (t.run r).castMap = (s.run r).castMap := (congrArg Run.castMap (h.runs r) :)
  have hgrid (r : Nat) : (t.run r).grid = (s.run r).grid := (congrArg Run.grid (h.runs r) :)
  have hcircuit (r : Nat) : (t.run r).circuit = (s.run r).circuit := (congrArg Run.circuit (h.runs r) :)
  simp only [Machine.castTargets, circuitOf, circuitIndex, gridCoord, State.companyOf, h.company, h.companies, hmap, hgrid,
    hcircuit]

theorem awaitDeadline (h : SameSpace s t) (u : Nat) : awaitDeadline t u = awaitDeadline s u := by
  simp only [Machine.awaitDeadline, h.wall, h.limits]

end SameSpace

theorem Keeps.sameSpace {u : Nat} {s t : State} (h : Keeps u s t) : SameSpace s t where
  ports := (congrArg State.ports h.rest :)
  companies := (congrArg State.companies h.rest :)
  runs j := by
    have hruns : t.runs = s.runs := (congrArg State.runs h.rest :)
    rw [State.run, hruns, State.run]
  wall := (congrArg State.wall h.rest :)
  limits v := by
    by_cases hv : v = u
    · subst hv
      exact (congrArg Troupe.awaitLim h.troupe :)
    · rw [h.others v hv]

theorem sameSpace_begun (s : State) : SameSpace s s.begun := ⟨rfl, rfl, fun _ => rfl, rfl, fun _ => rfl⟩

theorem sameSpace_markNonrepro (s : State) (u : Nat) : SameSpace s (markNonrepro s u) where
  ports := rfl
  companies := rfl
  runs j := by
    rw [markNonrepro, State.updRunOf]
    by_cases hj : j = (s.companyOf u).run
    · subst hj
      rw [State.run_setRun_self]
      rfl
    · rw [State.run_setRun_ne _ _ hj]
  wall := rfl
  limits _ := rfl

theorem sameSpace_nondet (s : State) (c : Ctx) (m : Mask) : SameSpace s (nondet s c m).1 := by
  unfold nondet
  dsimp only
  split
  · exact .refl s
  · split
    · exact .refl s
    · exact sameSpace_markNonrepro s c.t

/-- Nothing is marked where no lane uses an order. -/
theorem nondet_zero (s : State) (c : Ctx) : nondet s c 0 = (s, none) := rfl

/-! ### One lane -/

/-- The thread of a lane is left as it was. -/
def SameThread (_ : Nat) (th : Thread) (_ : List Access) (th' : Thread) : Prop := th' = th

theorem LaneEnters.refl (c : Ctx) (l : Nat) (s : State) : LaneEnters c l [] [] (SameThread l) s s where
  keeps := .refl _ _
  accs := ⟨[], (List.append_nil _).symm, rfl⟩
  owed := ⟨[], (List.append_nil _).symm, rfl⟩
  others _ _ := rfl
  own := rfl

/-- Two parts of a lane that both leave its thread. -/
theorem LaneEnters.trans {c : Ctx} {l : Nat} {A B : List Access} {O Q : List Pend} {s t z : State}
    (h : LaneEnters c l A O (SameThread l) s t) (k : LaneEnters c l B Q (SameThread l) t z) :
    LaneEnters c l (A ++ B) (O ++ Q) (SameThread l) s z := by
  obtain ⟨hkeeps, ⟨as, has, hA⟩, ⟨ps, hps, hO⟩, hothers, hown⟩ := h
  obtain ⟨kkeeps, ⟨bs, hbs, hB⟩, ⟨qs, hqs, hQ⟩, kothers, kown⟩ := k
  refine ⟨hkeeps.trans kkeeps, ⟨as ++ bs, ?_, ?_⟩, ⟨ps ++ qs, ?_, ?_⟩, fun j hj => (kothers j hj).trans (hothers j hj),
    kown.trans hown⟩
  · rw [hbs, has, List.append_assoc]
  · rw [List.map_append, hA, hB]
  · rw [hqs, hps, List.append_assoc]
  · rw [List.map_append, hO, hQ]

/-- A lane's part that ends by placing the lane's thread. -/
theorem LaneEnters.setThread {c : Ctx} {l : Nat} {A : List Access} {O : List Pend} {s t : State}
    {P : Thread → List Access → Thread → Prop} (h : LaneEnters c l A O (SameThread l) s t) (x : Thread)
    (hP : P (s.thread c.t l) t.accs x) : LaneEnters c l A O P s (t.setThread c.t l x) where
  keeps := h.keeps.trans (keeps_setThread _ _ _ _)
  accs := h.accs
  owed := by
    rw [State.troupe_setThread_self]
    exact h.owed
  others j hj := by
    rw [State.thread, State.troupe_setThread_self, Troupe.thread_setThread_ne _ _ hj]
    exact h.others j hj
  own := by
    rw [State.thread, State.thread, State.troupe_setThread_self, Troupe.thread_setThread_self]
    exact hP

/-- A lane's part after which its thread goes on. -/
theorem LaneEnters.advance {c : Ctx} {l : Nat} (hl : l < 32) {A : List Access} {O : List Pend} {s t : State}
    (h : LaneEnters c l A O (SameThread l) s t) :
    LaneEnters c l A O (fun th _ th' => th' = th.advance c.hdr) s (advanceLanes t c (laneBit l)) where
  keeps := h.keeps.trans (keeps_mapLanes _ _ _ _)
  accs := h.accs
  owed := by
    rw [advanceLanes, State.troupe_mapLanes_self, Troupe.mapLanes_pend]
    exact h.owed
  others j hj := by
    rw [thread_advanceLanes, hasLane_laneBit hl, if_neg (by simpa using hj)]
    exact h.others j hj
  own := by
    rw [thread_advanceLanes, hasLane_laneBit hl, if_pos (decide_eq_true rfl)]
    exact congrArg (Thread.advance c.hdr) h.own

/-- A lane's part made of several, each of which leaves its thread. -/
theorem laneEnters_foldl {κ : Type} {c : Ctx} {l : Nat} {g : State → κ → State} {A : State → κ → List Access}
    {O : State → κ → List Pend} (hstep : ∀ z k, LaneEnters c l (A z k) (O z k) (SameThread l) z (g z k))
    (hAO : ∀ z t k, SameSpace z t → t.thread c.t l = z.thread c.t l → A t k = A z k ∧ O t k = O z k) (ks : List κ) (z : State) :
    LaneEnters c l (ks.flatMap (A z)) (ks.flatMap (O z)) (SameThread l) z (ks.foldl g z) := by
  induction ks generalizing z with
  | nil => exact .refl c l z
  | cons k r ih =>
    have hk := hstep z k
    have hsame (j : κ) := hAO _ _ j hk.keeps.sameSpace hk.own
    have hr := ih (g z k)
    rw [List.flatMap_congr fun j _ => (hsame j).1, List.flatMap_congr fun j _ => (hsame j).2] at hr
    exact hk.trans hr

/-- A lane enters an access. -/
theorem laneEnters_enterAcc (c : Ctx) (l : Nat) (s : State) (ls : List Nat) (a : Access) :
    LaneEnters c l [a.bare] [] (SameThread l) s (enterAcc s c.t ls a) where
  keeps := keeps_enterAcc _ _ _ _ _
  accs := ⟨_, rfl, rfl⟩
  owed := ⟨[], (List.append_nil _).symm, rfl⟩
  others _ _ := rfl
  own := rfl

/-- A write that is not known yet is owed to the lanes of a mask. -/
theorem laneEnters_owe (c : Ctx) (l : Nat) (s : State) (m : Mask) (ws : List (Nat × Word)) :
    LaneEnters c l [] (owedLoad c s m l ws) (SameThread l) s (owe s c m l ws false).1 where
  keeps := keeps_owe _ _ _ _ _ _
  accs := ⟨[], by rw [owe_accs, List.append_nil], rfl⟩
  owed := owe_pend _ _ _ _ _
  others j _ := owe_thread _ _ _ _ _ _ _ _
  own := owe_thread _ _ _ _ _ _ _ _

/-- A lane enters an access, and what it returns is owed. -/
theorem laneEnters_owed (c : Ctx) (l : Nat) (s : State) (m : Mask) (ws : List (Nat × Word)) (ls : List Nat) (a : Access) :
    LaneEnters c l [a.bare] (owedLoad c s m l ws) (SameThread l) s (enterAcc (owe s c m l ws false).1 c.t ls a) := by
  have h := (laneEnters_owe c l s m ws).trans (laneEnters_enterAcc c l _ ls a)
  rwa [List.append_nil] at h

theorem owedLoad_congr {c : Ctx} {s t : State} {l : Nat} (h : t.thread c.t l = s.thread c.t l) (m : Mask) (ws : List (Nat × Word)) :
    owedLoad c t m l ws = owedLoad c s m l ws := by
  rw [owedLoad, owedLoad, h]

/-! ### From the lanes to the instruction -/

/-- What is entered does not ask for the places of the troupe's threads. -/
theorem Entered.mapLanes {c : Ctx} {A : List Access} {O : List Pend} {s y : State} (h : Entered c A O s y) (m : Mask)
    (f : Nat → Thread → Thread) : Entered c A O s (y.mapLanes c.t m f) where
  rest := h.rest
  runs := h.runs
  others v hv := (State.troupe_mapLanes_ne _ _ _ hv).trans (h.others v hv)
  troupe := by
    rw [State.troupe_mapLanes_self]
    have hrest := congrArg (fun x : Troupe => { x with
      threads := (s.troupe c.t).threads, pend := (s.troupe c.t).pend, ops := (s.troupe c.t).ops })
      (Troupe.mapLanes_rest (y.troupe c.t) m f)
    exact (hrest :).trans h.troupe
  bytes := h.bytes
  accs := h.accs
  owed := by
    rw [State.troupe_mapLanes_self, Troupe.mapLanes_pend]
    exact h.owed
  remote := by
    rw [State.troupe_mapLanes_self, Troupe.mapLanes_ops]
    exact h.remote

/-- Nor for how many operations the counter REMOTE counts (R120). -/
theorem Entered.countRemote {c : Ctx} {A : List Access} {O : List Pend} {s y : State} (h : Entered c A O s y) (s0 : State) :
    Entered c A O s (countRemote s0 y c.t) := by
  obtain ⟨hhold, haccs, hruns, -, hpend, os, hops, hremote⟩ := countRemote_spec s0 y c.t
  obtain ⟨ks, hks, hkremote⟩ := h.remote
  have hall := (Holding.mk h.rest h.others h.troupe).trans hhold
  refine ⟨hall.rest, fun hd => hruns.trans (h.runs hd), hall.others, hall.troupe, fun x => ?_, by rw [haccs]; exact h.accs,
    by rw [hpend]; exact h.owed, ks ++ os, by rw [hops, hks, List.append_assoc], by rw [List.all_append, hkremote, hremote]; rfl⟩
  rw [show (Machine.countRemote s0 y c.t).mem = y.mem from (congrArg State.mem hhold.rest :)]
  exact h.bytes x

/-- A state from which the lanes enter their accesses: all is as in `s`, but a run may be marked (R83). -/
structure Ready (c : Ctx) (s v : State) : Prop where
  holding : Holding c.t s v
  accs    : v.accs = s.accs
  troupes : ∀ k, v.troupe k = s.troupe k
  runs    : (s.runOf c.t).determ = false → v.runs = s.runs
  space   : SameSpace s v

theorem ready_begun (c : Ctx) (s : State) : Ready c s s.begun :=
  ⟨holding_begun _ _, rfl, fun _ => rfl, fun _ => rfl, sameSpace_begun s⟩

theorem ready_nondet {c : Ctx} {s : State} {m : Mask} (h : OrderFree s.begun c m) : Ready c s (nondet s.begun c m).1 := by
  obtain ⟨-, hhold, haccs, htroupes, hruns⟩ := nondet_none h
  exact ⟨(holding_begun _ _).trans hhold, haccs, htroupes, fun hd => by rw [hruns hd]; rfl,
    (sameSpace_begun s).trans (sameSpace_nondet _ _ _)⟩

/-- The lanes `ls` have had their parts: they have entered accesses that stand, bare, as `A`, and are owed writes that stand as
`O`; the thread of each is placed as `P` says. -/
structure EnteredBy (c : Ctx) (ls : List Nat) (A : List Access) (O : List Pend)
    (P : Nat → Thread → List Access → Thread → Prop) (s y : State) : Prop where
  entered : Entered c A O s y
  each    : ∀ l ∈ ls, P l (s.thread c.t l) y.accs (y.thread c.t l)
  others  : ∀ l, l ∉ ls → y.thread c.t l = s.thread c.t l

theorem EnteredBy.countRemote {c : Ctx} {ls : List Nat} {A : List Access} {O : List Pend}
    {P : Nat → Thread → List Access → Thread → Prop} {s y : State} (h : EnteredBy c ls A O P s y) (s0 : State) :
    EnteredBy c ls A O P s (countRemote s0 y c.t) := by
  obtain ⟨-, haccs, -, hthreads, -⟩ := countRemote_spec s0 y c.t
  refine ⟨h.entered.countRemote s0, fun l hl => ?_, fun l hl => (hthreads l).trans (h.others l hl)⟩
  rw [haccs, hthreads]
  exact h.each l hl

section
variable {c : Ctx} {f : State → Nat → State} {A : State → Nat → List Access} {O : State → Nat → List Pend}
  {P : Nat → Thread → List Access → Thread → Prop}
  (hstep : ∀ z l, l < 32 → LaneEnters c l (A z l) (O z l) (P l) z (f z l))
  (hAO : ∀ z t l, SameSpace z t → t.thread c.t l = z.thread c.t l → A t l = A z l ∧ O t l = O z l)
  (hP : ∀ l th as bs th', P l th as th' → P l th (as ++ bs) th')
include hstep hAO hP

/-- The parts of several lanes in turn, where a lane's part depends on what addresses mean and on its own thread alone. -/
theorem foldParts (ls : List Nat) (hn : ls.Nodup) (hlt : ∀ l ∈ ls, l < 32) (v : State) :
    Keeps c.t v (ls.foldl f v) ∧
    (∃ as, (ls.foldl f v).accs = v.accs ++ as ∧ as.map Access.bare = ls.flatMap (A v)) ∧
    (∃ ps, ((ls.foldl f v).troupe c.t).pend = (v.troupe c.t).pend ++ ps ∧ ps.map Pend.bare = ls.flatMap (O v)) ∧
    (∀ l ∈ ls, P l (v.thread c.t l) (ls.foldl f v).accs ((ls.foldl f v).thread c.t l)) ∧
    ∀ j, j ∉ ls → (ls.foldl f v).thread c.t j = v.thread c.t j := by
  induction ls generalizing v with
  | nil => exact ⟨.refl _ _, ⟨[], by simp⟩, ⟨[], by simp⟩, by simp, fun _ _ => rfl⟩
  | cons a r ih =>
    obtain ⟨ha, hr⟩ := List.nodup_cons.1 hn
    obtain ⟨hk, ⟨as, has, hA⟩, ⟨ps, hps, hO⟩, hothers, hown⟩ := hstep v a (hlt a List.mem_cons_self)
    obtain ⟨hkr, ⟨bs, hbs, hB⟩, ⟨qs, hqs, hQ⟩, hlanes, hstill⟩ := ih hr (fun l hl => hlt l (List.mem_cons_of_mem _ hl)) (f v a)
    have hsame (l : Nat) (hl : l ∈ r) : A (f v a) l = A v l ∧ O (f v a) l = O v l :=
      hAO _ _ l hk.sameSpace (hothers l fun he => ha (he ▸ hl))
    rw [List.foldl_cons]
    refine ⟨hk.trans hkr, ⟨as ++ bs, by rw [hbs, has, List.append_assoc], ?_⟩,
      ⟨ps ++ qs, by rw [hqs, hps, List.append_assoc], ?_⟩, List.forall_mem_cons.2 ⟨?_, fun l hl => ?_⟩, fun j hj => ?_⟩
    · rw [List.map_append, hA, hB, List.flatMap_cons, List.flatMap_congr fun l hl => (hsame l hl).1]
    · rw [List.map_append, hO, hQ, List.flatMap_cons, List.flatMap_congr fun l hl => (hsame l hl).2]
    · rw [hstill a ha, hbs]
      exact hP _ _ _ _ _ hown
    · rw [← hothers l fun he => ha (he ▸ hl)]
      exact hlanes l hl
    · rw [hstill j fun h => hj (List.mem_cons_of_mem _ h), hothers j fun h => hj (h ▸ List.mem_cons_self)]

/-- What the parts of several lanes come to. -/
theorem enteredBy_foldl {s v : State} (hv : Ready c s v) (ls : List Nat) (hn : ls.Nodup) (hlt : ∀ l ∈ ls, l < 32) :
    EnteredBy c ls (ls.flatMap (A s)) (ls.flatMap (O s)) P s (ls.foldl f v) := by
  obtain ⟨hkeeps, haccs, howed, hlanes, hothers⟩ := foldParts hstep hAO hP ls hn hlt v
  have hthread (l : Nat) : v.thread c.t l = s.thread c.t l := by rw [State.thread, hv.troupes, State.thread]
  have hsame (l : Nat) : A v l = A s l ∧ O v l = O s l := hAO _ _ l hv.space (hthread l)
  refine ⟨entered_of hv.holding hv.accs hv.troupes hv.runs hkeeps ?_ ?_ ⟨rfl, fun _ _ => rfl, rfl⟩ rfl rfl rfl
    ⟨[], (List.append_nil _).symm, rfl⟩, fun l hl => ?_, fun l hl => (hothers l hl).trans (hthread l)⟩
  · rwa [List.flatMap_congr fun l _ => (hsame l).1] at haccs
  · rwa [List.flatMap_congr fun l _ => (hsame l).2] at howed
  · rw [← hthread]
    exact hlanes l hl

end

/-- Accesses that leave the threads of their lanes leave every thread. -/
theorem EnteredBy.thread_same {c : Ctx} {ls : List Nat} {A : List Access} {O : List Pend} {s y : State}
    (h : EnteredBy c ls A O SameThread s y) (l : Nat) : y.thread c.t l = s.thread c.t l := by
  by_cases hl : l ∈ ls
  · exact h.each l hl
  · exact h.others l hl

/-- The threads of the bundle go on after accesses that have left them as they were. -/
theorem EnteredBy.allMoved {c : Ctx} {ls : List Nat} {A : List Access} {O : List Pend} {s y : State}
    (h : EnteredBy c ls A O SameThread s y) : AllMoved c s (finish c (.ok y)) ∧ Entered c A O s (finish c (.ok y)) :=
  ⟨allMoved_finish_ok h.thread_same, h.entered.mapLanes _ _⟩

end Sys2Proof.Machine
end

section
/-! SUPPORT. LD, LDX, LDU and PROBE (R224, R229, R231, R232, R234-R236), and the statement on them. -/

namespace Sys2Proof.Machine

open Sys2Proof

/-! ### The end of a memory instruction -/

theorem thread_finish_ctl (c : Ctx) (z : State) (l : Nat) : (finish c (.ctl z)).thread c.t l =
    if hasLane c.mask l && !hasLane c.act l then (z.thread c.t l).advance c.hdr else z.thread c.t l := by
  rw [finish, thread_mapLanes, hasLane_diff]

theorem accs_finish_ctl (c : Ctx) (z : State) : (finish c (.ctl z)).accs = z.accs := rfl

/-- The threads of the bundle go on after an instruction that has moved those of Active on itself. -/
theorem allMoved_finish_ctl {c : Ctx} {s z : State} (hle : ∀ l, hasLane c.act l = true → hasLane c.mask l = true)
    (hact : ∀ l, hasLane c.act l = true → z.thread c.t l = (s.thread c.t l).advance c.hdr)
    (hothers : ∀ l, hasLane c.act l = false → z.thread c.t l = s.thread c.t l) : AllMoved c s (finish c (.ctl z)) := by
  refine ⟨fun l hl => ?_, fun l hl => ?_⟩
  · rw [thread_finish_ctl, hl]
    cases ha : hasLane c.act l with
    | true => exact hact l ha
    | false => exact congrArg (Thread.advance c.hdr) (hothers l ha)
  · have ha : hasLane c.act l = false := Bool.eq_false_iff.2 fun ha => by rw [hle l ha] at hl; cases hl
    rw [thread_finish_ctl, hl]
    exact hothers l ha

/-- Room on the counter REMOTE lets an instruction pass (R120). -/
theorem remote_passes {s : State} {c : Ctx} {addr : Nat → Dword} (h : RemoteFree s c addr) :
    (anyRemote s c addr && counterFull s c.t .remote 1) = false := by
  obtain h | h := h
  · rw [anyRemote, List.any_eq_false.2 fun l hl => by rw [h l (mem_lanes.1 hl)]; exact Bool.false_ne_true, Bool.false_and]
  · rw [counterFull_eq_false h, Bool.and_false]

theorem remote_passes_once {s : State} {c : Ctx} {y : Dword} (hact : c.act ≠ 0) (h : RemoteFree s c fun _ => y) :
    (isRemote s y && counterFull s c.t .remote 1) = false := by
  obtain h | h := h
  · rw [h _ (hasLane_low hact), Bool.false_and]
  · rw [counterFull_eq_false h, Bool.and_false]

theorem lanes_lt {m : Mask} {l : Nat} (h : l ∈ lanes m) : l < 32 := lt_of_hasLane (mem_lanes.1 h)

/-! ### LD (R232) -/

section
variable {s : State} {c : Ctx} {ty : Ty} {m : LdMod} {d : Opd} {addr : Nat → Dword}

/-- How LD leaves the thread of a lane: it goes on, or waits in its AWAIT. -/
def LoadPlaces (c : Ctx) (addr : Nat → Dword) (l : Nat) (th : Thread) (as : List Access) (th' : Thread) : Prop :=
  (winOp true (winOf (addr l)) ≠ .await → th' = th.advance c.hdr) ∧
    (winOp true (winOf (addr l)) = .await → th'.st = .waiting ∧ th'.pc = th.pc ∧
      ∃ a ∈ as, a.who = .thread c.t l ∧ th'.wait = .await a.id)

theorem laneEnters_loadLane (z : State) {l : Nat} (hl : l < 32) : LaneEnters c l [loadAccess z c ty m l (addr l)]
    (owedLoad c z (laneBit l) l (loadWrites c ty d l (addr l))) (LoadPlaces c addr l) z (loadLane z c ty m d l (addr l)) := by
  obtain ⟨hkeeps, ⟨a, haccs, hbare, hwho, hwait⟩, howed, hothers, hgoes, hwaits⟩ := loadLane_spec z c ty m d hl (addr l)
  refine ⟨hkeeps, ⟨[a], haccs, ?_⟩, howed, hothers, hgoes, fun ho => ⟨(hwaits ho).1, (hwaits ho).2, a, ?_, hwho, hwait ho⟩⟩
  · rw [List.map_singleton, hbare]
    rfl
  · rw [haccs]
    exact List.mem_append_right _ (List.mem_singleton.2 rfl)

theorem loadAccess_sameSpace {z t : State} (h : SameSpace z t) (l : Nat) (x : Dword) :
    loadAccess t c ty m l x = loadAccess z c ty m l x := by
  simp only [loadAccess, h.physOf, h.devOf, h.awaitDeadline]

/-- What the loads of the lanes of Active come to. -/
theorem enteredBy_loads {v : State} (hv : Ready c s v) : EnteredBy c (lanes c.act)
    ((lanes c.act).map fun l => loadAccess s c ty m l (addr l))
    ((lanes c.act).flatMap fun l => owedLoad c s (laneBit l) l (loadWrites c ty d l (addr l))) (LoadPlaces c addr) s
    ((lanes c.act).foldl (fun z l => loadLane z c ty m d l (addr l)) v) := by
  rw [List.map_eq_flatMap]
  refine enteredBy_foldl (O := fun z l => owedLoad c z (laneBit l) l (loadWrites c ty d l (addr l)))
    (fun z l => laneEnters_loadLane z) (fun z t l hs hth => ?_) (fun l th as bs th' h => ⟨h.1, fun ho => ?_⟩) hv _ (lanes_nodup _)
    fun l => lanes_lt
  · exact ⟨congrArg (fun a => [a]) (loadAccess_sameSpace hs l _), owedLoad_congr hth _ _⟩
  · obtain ⟨hst, hpc, a, ha, hw⟩ := h.2 ho
    exact ⟨hst, hpc, a, List.mem_append_left _ ha, hw⟩

end

theorem exec_ld_passes {h : Hdr} {ty : Ty} {m : LdMod} {d base : Opd} {off : Src} {s : State} {c : Ctx}
    (hi : Issues (.ld h ty m d base off) s c)
    (hcheck : ∀ l, hasLane c.act l = true →
      laneCheck s.begun c.t l (.access true (Ty.width ty / 8)) (memAddr s.begun c l base off) = none)
    (horder : OrderFree s.begun c (orderedLanes c fun l => memAddr s.begun c l base off))
    (hremote : RemoteFree s.begun c fun l => memAddr s.begun c l base off) :
    exec (.ld h ty m d base off) s = .next (finish c (.ctl (countRemote s.begun ((lanes c.act).foldl
      (fun z l => loadLane z c ty m d l (memAddr s.begun c l base off))
      (nondet s.begun c (orderedLanes c fun l => memAddr s.begun c l base off)).1) c.t))) := by
  rw [exec_ld, execLd, issue_next hi]
  dsimp only
  rw [checkLanes_pass fun l hl => hcheck l (mem_lanes.1 hl)]
  dsimp only
  rw [(nondet_none horder).1]
  dsimp only
  rw [remote_passes hremote, if_neg Bool.false_ne_true]

/-! ### LDX and PROBE (R234, R236) -/

/-- The access of part `k` of an LDX of a lane, at its home on `dev`. -/
def partLoad (s : State) (c : Ctx) (m : LdMod) (l : Nat) (x : Dword) (k : Nat) (dev : Option Nat) : Access :=
  let y := x + BitVec.ofNat 64 (8 * k)
  { Access.make (.thread c.t l) (winOp true (winOf x)) y (physOf s c.t l y) 8 with
    acq := ldAcq m, scope := ldScope m, vol := m == .vol, dev := dev }

/-- Part `k` goes where the block's address says. -/
def blockLoad (s : State) (c : Ctx) (m : LdMod) (l : Nat) (x : Dword) (k : Nat) : Access := partLoad s c m l x k (devOf s x)

/-- The registers of part `k`. -/
def blockWrites (c : Ctx) (d : Opd) (l k : Nat) : List (Nat × Word) :=
  if lanesWrite c d l then destPart d l (2 * k) 0 ++ destPart d l (2 * k + 1) 0 else []

/-- The access of PROBE. -/
def probeAccess (s : State) (c : Ctx) (l : Nat) (x : Dword) : Access :=
  { Access.make (.thread c.t l) .probe x (physOf s c.t l x) 1 with dev := devOf s x }

/-- A thread that goes on. -/
def GoesOn (c : Ctx) (_ : Nat) (th : Thread) (_ : List Access) (th' : Thread) : Prop := th' = th.advance c.hdr

/-- Threads that have gone on in their lanes' parts, and those whose guard is false. -/
theorem EnteredBy.allMoved_ctl {c : Ctx} {A : List Access} {O : List Pend} {s y : State}
    (h : EnteredBy c (lanes c.act) A O (GoesOn c) s y) (hle : ∀ l, hasLane c.act l = true → hasLane c.mask l = true) :
    AllMoved c s (finish c (.ctl y)) ∧ Entered c A O s (finish c (.ctl y)) := by
  refine ⟨allMoved_finish_ctl hle (fun l hl => h.each l (mem_lanes.2 hl)) (fun l hl => h.others l fun hm => ?_),
    h.entered.mapLanes _ _⟩
  rw [mem_lanes.1 hm] at hl
  cases hl

theorem laneEnters_loadParts (c : Ctx) (m : LdMod) (d : Opd) (n : Nat) (x : Dword) (z : State) {l : Nat} (hl : l < 32) :
    LaneEnters c l ((List.range (n / 2)).map (blockLoad z c m l x))
      ((List.range (n / 2)).flatMap fun k => owedLoad c z (laneBit l) l (blockWrites c d l k)) (GoesOn c l) z
      (loadParts z c m d n l x) := by
  rw [List.map_eq_flatMap]
  refine LaneEnters.advance hl (laneEnters_foldl (A := fun z k => [blockLoad z c m l x k])
    (O := fun z k => owedLoad c z (laneBit l) l (blockWrites c d l k)) (fun y k => ?_) (fun y t k hs hth => ?_) _ z)
  · exact laneEnters_owed c l y (laneBit l) (blockWrites c d l k) [l] { blockLoad y c m l x k with
      pend := (owe y c (laneBit l) l (blockWrites c d l k) false).2, part := z.nextId }
  · refine ⟨?_, owedLoad_congr hth _ _⟩
    simp only [blockLoad, partLoad, hs.physOf, hs.devOf]

theorem exec_ldx_enters {h : Hdr} {k : Fin 4} {m : LdMod} {d base : Opd} {off : Src} {s : State} {c : Ctx}
    (hi : Issues (.ldx h k m d base off) s c)
    (hcheck : ∀ l, hasLane c.act l = true →
      laneCheck s.begun c.t l (.block true (2 ^ (k.val + 1))) (memAddr s.begun c l base off) = none)
    (hremote : RemoteFree s.begun c fun l => memAddr s.begun c l base off) :
    ∃ t, exec (.ldx h k m d base off) s = .next t ∧ AllMoved c s t ∧ Entered c
      ((lanes c.act).flatMap fun l => (List.range (2 ^ (k.val + 1) / 2)).map (blockLoad s c m l (memAddr s.begun c l base off)))
      ((lanes c.act).flatMap fun l => (List.range (2 ^ (k.val + 1) / 2)).flatMap fun j =>
        owedLoad c s (laneBit l) l (blockWrites c d l j)) s t := by
  have hlanes := enteredBy_foldl (P := GoesOn c) (f := fun z l => loadParts z c m d (2 ^ (k.val + 1)) l (memAddr s.begun c l base off))
    (fun z l => laneEnters_loadParts c m d (2 ^ (k.val + 1)) _ z) (fun z t l hs hth => ⟨?_, ?_⟩) (fun _ _ _ _ _ h => h)
    (ready_begun c s) (lanes c.act) (lanes_nodup _) fun l => lanes_lt
  · refine ⟨_, ?_, (hlanes.countRemote s.begun).allMoved_ctl fun l hl => hi.act_le hl⟩
    rw [exec_ldx, execLdx, issue_next hi]
    dsimp only
    rw [checkLanes_pass fun l hl => hcheck l (mem_lanes.1 hl)]
    dsimp only
    rw [remote_passes hremote, if_neg Bool.false_ne_true]
  · exact congrArg (List.map · _) (funext fun j => by simp only [blockLoad, partLoad, hs.physOf, hs.devOf])
  · exact List.flatMap_congr fun j _ => owedLoad_congr hth _ _

theorem exec_probe_enters {h : Hdr} {d base : Opd} {off : Src} {s : State} {c : Ctx} (hi : Issues (.probe h d base off) s c)
    (hcheck : ∀ l, hasLane c.act l = true →
      laneCheck s.begun c.t l ⟨true, 1, 1, 1, true, false, [0, 1, 2, 3, 4], false⟩ (memAddr s.begun c l base off) = none)
    (hremote : RemoteFree s.begun c fun l => memAddr s.begun c l base off) :
    ∃ t, exec (.probe h d base off) s = .next t ∧ AllMoved c s t ∧ Entered c
      ((lanes c.act).map fun l => probeAccess s c l (memAddr s.begun c l base off))
      ((lanes c.act).flatMap fun l => owedLoad c s (laneBit l) l (if lanesWrite c d l then destWrites false d l 0 else [])) s t := by
  let ws := fun l => if lanesWrite c d l then destWrites false d l 0 else []
  let addr := fun l => memAddr s.begun c l base off
  have hlanes := enteredBy_foldl (c := c) (P := GoesOn c)
    (f := fun z l => advanceLanes (enterAcc (owe z c (laneBit l) l (ws l) false).1 c.t [l]
      { probeAccess z c l (addr l) with pend := (owe z c (laneBit l) l (ws l) false).2 }) c (laneBit l))
    (A := fun z l => [probeAccess z c l (addr l)]) (O := fun z l => owedLoad c z (laneBit l) l (ws l))
    (fun z l hl => .advance hl (laneEnters_owed c l z (laneBit l) (ws l) [l] { probeAccess z c l (addr l) with
      pend := (owe z c (laneBit l) l (ws l) false).2 })) (fun z t l hs hth => ⟨?_, owedLoad_congr hth _ _⟩)
    (fun _ _ _ _ _ h => h) (ready_begun c s) (lanes c.act) (lanes_nodup _) fun l => lanes_lt
  · rw [List.map_eq_flatMap]
    refine ⟨_, ?_, (hlanes.countRemote s.begun).allMoved_ctl fun l hl => hi.act_le hl⟩
    rw [exec_probe, execProbe, issue_next hi]
    dsimp only
    rw [checkLanes_pass fun l hl => hcheck l (mem_lanes.1 hl)]
    dsimp only
    rw [remote_passes hremote, if_neg Bool.false_ne_true]
    rfl
  · simp only [probeAccess, hs.physOf, hs.devOf]

/-! ### The parts of a block lie on one device (R234) -/

theorem laneCheck_pass {s : State} {t l : Nat} {w : Want} {x : Dword} (h : laneCheck s t l w x = none) :
    winOk w (winOf x) (spaceOf x) = true ∧ offOf x % (if opQueue (winOp w.load (winOf x)) then 32 else w.align) = 0 := by
  rw [laneCheck_eq] at h
  generalize (if opQueue (winOp w.load (winOf x)) then 32 else w.align) = align at h
  split at h
  · cases h
  · split at h
    · cases h
    · rename_i hwin
      split at h
      · cases h
      · rename_i halign
        exact ⟨by simpa using hwin, by simpa using halign⟩

/-- A block's address is a multiple of the block's size. -/
theorem block_aligned {s : State} {t l n : Nat} {load : Bool} {x : Dword} (h : laneCheck s t l (.block load n) x = none) :
    offOf x % (4 * n) = 0 := by
  obtain ⟨hwin, halign⟩ := laneCheck_pass h
  have hqueue : opQueue (winOp load (winOf x)) = false := by
    have h0 : winOf x = 0 ∨ winOf x = if load then 1 else 7 := by
      simp only [winOk, Want.block, Bool.false_eq_true, if_false, if_true, Bool.and_eq_true, Bool.or_eq_true, beq_iff_eq] at hwin
      exact hwin.1
    obtain h0 | h0 := h0 <;> rw [h0] <;> cases load <;> rfl
  rwa [show (Want.block load n).load = load from rfl, hqueue, if_neg Bool.false_ne_true] at halign

/-- A step within 64 bytes that carries no further leaves the high bits of an address. -/
theorem high_bits_add {x : Dword} {k p q : Nat} (hx : x.toNat % 64 + k < 64) (hp : 6 ≤ p) :
    (x + BitVec.ofNat 64 k).extractLsb' p q = x.extractLsb' p q := by
  have hlow : (x.toNat + k) / 64 = x.toNat / 64 := by omega
  have hlt : x.toNat + k < 2 ^ 64 := by have := x.isLt; omega
  have hsum : (x + BitVec.ofNat 64 k).toNat = x.toNat + k := by
    rw [BitVec.toNat_add, BitVec.toNat_ofNat, Nat.mod_eq_of_lt (a := k) (by omega), Nat.mod_eq_of_lt hlt]
  refine BitVec.eq_of_toNat_eq ?_
  rw [BitVec.extractLsb'_toNat, BitVec.extractLsb'_toNat, hsum, Nat.shiftRight_eq_div_pow, Nat.shiftRight_eq_div_pow,
    show 2 ^ p = 64 * 2 ^ (p - 6) from by rw [show (64 : Nat) = 2 ^ 6 from rfl, ← Nat.pow_add]; congr 1; omega,
    ← Nat.div_div_eq_div_mul, hlow, Nat.div_div_eq_div_mul]

/-- All parts of a block lie on one device. -/
theorem devOf_block {s : State} {t l j : Nat} {load : Bool} {x : Dword} (k : Fin 4)
    (h : laneCheck s t l (.block load (2 ^ (k.val + 1))) x = none) (hj : j < 2 ^ (k.val + 1) / 2) :
    devOf s (x + BitVec.ofNat 64 (8 * j)) = devOf s x := by
  have haligned := block_aligned h
  rw [offOf, BitVec.extractLsb'_toNat, Nat.shiftRight_zero] at haligned
  have hstep : x.toNat % 64 + 8 * j < 64 := by
    obtain ⟨k, hk⟩ := k
    interval_cases k <;> simp only [Nat.zero_add, Nat.reduceAdd, Nat.reducePow, Nat.reduceMul, Nat.reduceDiv] at haligned hj <;> omega
  have hspace : spaceOf (x + BitVec.ofNat 64 (8 * j)) = spaceOf x := congrArg BitVec.toNat (high_bits_add hstep (by decide))
  have hdevice : remoteId (x + BitVec.ofNat 64 (8 * j)) = remoteId x := congrArg BitVec.toNat (high_bits_add hstep (by decide))
  rw [devOf, devOf, isRemote, isRemote, hspace, hdevice]

/-! ### LDU (R235) -/

/-- The one access of LDU. -/
def onceLoad (s : State) (c : Ctx) (ty : Ty) (m : LdMod) (y : Dword) : Access :=
  { Access.make (.bundle c.t c.act) (winOp true (winOf y)) y (physOf s c.t c.low y) (Ty.width ty / 8) with
    ty := if Ty.signed ty then 1 else 0
    acq := ldAcq m
    scope := ldScope m
    vol := m == .vol
    dev := devOf s y
    deadline := if winOp true (winOf y) == .await then awaitDeadline s c.t else 0 }

/-- The registers that LDU writes. -/
def onceWrites (c : Ctx) (ty : Ty) (d : Opd) (y : Dword) : List (Nat × Word) :=
  if winOp true (winOf y) == .await then [] else destWrites (Ty.wide ty) d c.low 0

/-- LDU enters its access, for lane `l`. -/
def onceEnter (s : State) (c : Ctx) (ty : Ty) (m : LdMod) (d : Opd) (y : Dword) (z : State) (l : Nat) : State :=
  let o := owe z c c.act l (onceWrites c ty d y) false
  enterAcc o.1 c.t (lanes c.act) { onceLoad s c ty m y with pend := o.2 }

section
variable {s : State} {c : Ctx} (hact : c.act ≠ 0) {ty : Ty} {m : LdMod} {d : Opd} {y : Dword}

include hact in
theorem enteredBy_onceEnter {v : State} (hv : Ready c s v) : EnteredBy c [c.low] [onceLoad s.begun c ty m y]
    (owedLoad c s c.act c.low (onceWrites c ty d y)) SameThread s (onceEnter s.begun c ty m d y v c.low) := by
  have h := enteredBy_foldl (c := c) (P := SameThread) (f := onceEnter s.begun c ty m d y)
    (A := fun _ _ => [onceLoad s.begun c ty m y]) (O := fun z l => owedLoad c z c.act l (onceWrites c ty d y))
    (fun z l _ => laneEnters_owed c l z c.act (onceWrites c ty d y) (lanes c.act) { onceLoad s.begun c ty m y with
      pend := (owe z c c.act l (onceWrites c ty d y) false).2 })
    (fun z t l _ hth => ⟨rfl, owedLoad_congr hth _ _⟩) (fun _ _ _ _ _ h => h) hv [c.low]
    (List.nodup_singleton _) fun l hl => List.mem_singleton.1 hl ▸ lt_of_hasLane (hasLane_low hact)
  rwa [List.flatMap_singleton, List.flatMap_singleton] at h

variable {h : Hdr} {base : Opd} {off : Src} (hi : Issues (.ldu h ty m d base off) s c)
  (hsame : ∀ l, hasLane c.act l = true →
    readPair s.begun c l base 4 = readPair s.begun c c.low base 4 ∧ offVal s.begun c l off = offVal s.begun c c.low off)
include hsame

/-- The operands of the address agree. -/
theorem uniformAddr_pass : uniformAddr s.begun c base off = none := by
  rw [uniformAddr, uniformTrap_none fun l hl => (hsame l hl).1]
  exact uniformTrap_none fun l hl => (hsame l hl).2

include hact hi

/-- LDU up to the moment where it is known whether its threads wait. -/
theorem exec_ldu_passes (hy : memAddr s.begun c c.low base off = y)
    (hcheck : laneCheck s.begun c.t c.low (.access true (Ty.width ty / 8)) y = none)
    (horder : OrderFree s.begun c (orderedLanes c fun _ => y)) (hremote : RemoteFree s.begun c fun _ => y) :
    let v := (nondet s.begun c (orderedLanes c fun _ => y)).1
    let z := countRemote s.begun (onceEnter s.begun c ty m d y v c.low) c.t
    exec (.ldu h ty m d base off) s = .next (finish c (if winOp true (winOf y) == .await then
        .ctl (z.mapLanes c.t c.act fun l th => th.waitAt c.hdr (if l = c.low then d else .rz) ty
          (.await (owe v c c.act c.low (onceWrites c ty d y) false).1.nextId))
      else .ctl (advanceLanes z c c.act))) := by
  intro v z
  rw [exec_ldu, execLdu, issue_next hi, Ctx.not_idle hact, if_neg Bool.false_ne_true, uniformAddr_pass hsame]
  dsimp only
  rw [hy, bundleCheck, hcheck]
  dsimp only [Option.map_none]
  rw [(nondet_none horder).1]
  dsimp only
  rw [remote_passes_once hact hremote, if_neg Bool.false_ne_true]
  rfl

end

/-- AWAIT is no window whose order a deterministic run must fix (R83). -/
theorem orderedLanes_await {c : Ctx} {y : Dword} (h : winOp true (winOf y) = .await) : orderedLanes c (fun _ => y) = 0 := by
  have honly : ∀ n < 16, winOp true n = .await → n = 12 := by decide
  have hwin : winOf y = 12 := honly _ (y.extractLsb' 59 4).isLt h
  refine maskOf_eq_zero.2 fun l _ => ?_
  rw [hwin]
  exact Bool.and_false _

section
variable {s : State} {c : Ctx} {ty : Ty} {m : LdMod} {d base : Opd} {off : Src} {h : Hdr} {y : Dword}
  (hi : Issues (.ldu h ty m d base off) s c) (hact : c.act ≠ 0)
  (hsame : ∀ l, hasLane c.act l = true →
    readPair s.begun c l base 4 = readPair s.begun c c.low base 4 ∧ offVal s.begun c l off = offVal s.begun c c.low off)
  (hy : memAddr s.begun c c.low base off = y)
  (hcheck : laneCheck s.begun c.t c.low (.access true (Ty.width ty / 8)) y = none)
  (hremote : RemoteFree s.begun c fun _ => y)
include hi hact hsame hy hcheck hremote

/-- LDU in a window other than AWAIT. -/
theorem ldu_enters (hop : winOp true (winOf y) ≠ .await) (horder : OrderFree s.begun c (orderedLanes c fun _ => y)) :
    ∃ t, exec (.ldu h ty m d base off) s = .next t ∧ AllMoved c s t ∧
      Entered c [onceLoad s.begun c ty m y] (owedLoad c s c.act c.low (destWrites (Ty.wide ty) d c.low 0)) s t := by
  have hexec := exec_ldu_passes hact hi hsame hy hcheck horder hremote
  have hdone := (enteredBy_onceEnter hact (ty := ty) (m := m) (d := d) (y := y) (ready_nondet horder)).countRemote s.begun
  have hop' : (winOp true (winOf y) == .await) = false := beq_eq_false_iff_ne.2 hop
  dsimp only at hexec
  rw [hop', if_neg Bool.false_ne_true] at hexec
  rw [onceWrites, hop', if_neg Bool.false_ne_true] at hdone
  have hthread (l : Nat) := hdone.thread_same l
  refine ⟨_, hexec, allMoved_finish_ctl (fun l hl => hi.act_le hl) (fun l hl => ?_) (fun l hl => ?_),
    (hdone.entered.mapLanes _ _).mapLanes _ _⟩
  · rw [thread_advanceLanes, if_pos hl]
    exact congrArg (Thread.advance c.hdr) (hthread l)
  · rw [thread_advanceLanes, if_neg (by rw [hl]; exact Bool.false_ne_true)]
    exact hthread l

/-- LDU in window AWAIT. -/
theorem ldu_waits (hop : winOp true (winOf y) = .await) :
    ∃ t, exec (.ldu h ty m d base off) s = .next t ∧ Entered c [onceLoad s.begun c ty m y] [] s t ∧
      ∃ a ∈ t.accs, a.who = .bundle c.t c.act ∧ ∀ l, t.thread c.t l =
        if hasLane c.act l then (s.thread c.t l).waitAt c.hdr (if l = c.low then d else .rz) ty (.await a.id)
        else if hasLane c.mask l then (s.thread c.t l).advance c.hdr else s.thread c.t l := by
  have horder : OrderFree s.begun c (orderedLanes c fun _ => y) := .inl (orderedLanes_await hop)
  have hexec := exec_ldu_passes hact hi hsame hy hcheck horder hremote
  have hdone := (enteredBy_onceEnter hact (ty := ty) (m := m) (d := d) (y := y) (ready_nondet horder)).countRemote s.begun
  dsimp only at hexec
  rw [hop, beq_self_eq_true, if_pos rfl] at hexec
  generalize hv : (nondet s.begun c (orderedLanes c fun _ => y)).1 = v at hexec hdone
  obtain ⟨a, haccs, -, hid, hwho⟩ := bare_enterAcc (owe v c c.act c.low (onceWrites c ty d y) false).1 c.t (lanes c.act)
    { onceLoad s.begun c ty m y with pend := (owe v c c.act c.low (onceWrites c ty d y) false).2 }
  have hentered : a ∈ (countRemote s.begun (onceEnter s.begun c ty m d y v c.low) c.t).accs := by
    rw [(countRemote_spec _ _ _).2.1, onceEnter, haccs]
    exact List.mem_append_right _ (List.mem_singleton.2 rfl)
  have howed : owedLoad c s c.act c.low (onceWrites c ty d y) = [] := by rw [onceWrites, hop]; rfl
  rw [howed] at hdone
  refine ⟨_, hexec, (hdone.entered.mapLanes _ _).mapLanes _ _, a, ?_, hwho, fun l => ?_⟩
  · rwa [accs_finish_ctl, State.mapLanes_accs]
  · rw [thread_finish_ctl, thread_mapLanes, hdone.thread_same, hid]
    cases ha : hasLane c.act l with
    | true => rw [Bool.not_true, Bool.and_false, if_neg Bool.false_ne_true, if_pos rfl, if_pos rfl]
    | false => rw [Bool.not_false, Bool.and_true, if_neg Bool.false_ne_true, if_neg Bool.false_ne_true]

end

section
variable {s : State} {c : Ctx} {ty : Ty} {m : LdMod} {y : Dword}

/-- In a window other than AWAIT the access has no deadline. -/
theorem onceLoad_plain (hop : winOp true (winOf y) ≠ .await) : onceLoad s c ty m y =
    { Access.make (.bundle c.t c.act) (winOp true (winOf y)) y (physOf s c.t c.low y) (Ty.width ty / 8) with
      ty := if Ty.signed ty then 1 else 0, acq := ldAcq m, scope := ldScope m, vol := m == .vol, dev := devOf s y } := by
  rw [onceLoad, beq_eq_false_iff_ne.2 hop, if_neg Bool.false_ne_true]
  rfl

theorem onceLoad_await (hop : winOp true (winOf y) = .await) : onceLoad s c ty m y =
    { Access.make (.bundle c.t c.act) .await y (physOf s c.t c.low y) (Ty.width ty / 8) with
      ty := if Ty.signed ty then 1 else 0, acq := ldAcq m, scope := ldScope m, vol := m == .vol, dev := devOf s y
      deadline := awaitDeadline s c.t } := by
  rw [onceLoad, hop]
  rfl

end

/-! ### The statement -/

/-- Settles O9: the lanes enter their accesses one after another, and none changes what the next one's address means. -/
theorem loads : Obligations.Loads := by
  unfold Obligations.Loads
  refine ⟨?_, ?_⟩
  · intro h ty m d base off s c hi u addr op hcheck horder hremote
    have hdone := (enteredBy_loads (ty := ty) (m := m) (d := d) (addr := addr) (ready_nondet horder)).countRemote u
    refine ⟨_, exec_ld_passes hi hcheck horder hremote, hdone.entered.mapLanes _ _, fun l hl ho => ?_, fun l hl ho => ?_,
      fun l hl => ?_⟩
    · rw [thread_finish_ctl, hl]
      cases ha : hasLane c.act l with
      | true => exact (hdone.each l (mem_lanes.2 ha)).1 (ho ha)
      | false => exact congrArg (Thread.advance c.hdr) (hdone.others l fun hm => by rw [mem_lanes.1 hm] at ha; cases ha)
    · rw [thread_finish_ctl, hl, Bool.not_true, Bool.and_false, if_neg Bool.false_ne_true]
      exact (hdone.each l (mem_lanes.2 hl)).2 ho
    · rw [thread_finish_ctl, hl]
      exact hdone.others l fun hm => by rw [hi.act_le (mem_lanes.1 hm)] at hl; cases hl
  · intro h d base off s c u addr
    refine ⟨?_, ?_, ?_, ?_⟩
    · intro k m hi n hcheck hremote
      obtain ⟨t, hexec, hmoved, hentered⟩ := exec_ldx_enters hi hcheck hremote
      refine ⟨t, hexec, hmoved, ?_⟩
      have hparts : (lanes c.act).flatMap (fun l => (List.range (n / 2)).map (blockLoad s c m l (addr l))) =
          (lanes c.act).flatMap fun l => (List.range (n / 2)).map fun j =>
            partLoad s c m l (addr l) j (devOf u (addr l + BitVec.ofNat 64 (8 * j))) :=
        List.flatMap_congr fun l hl => List.map_congr_left fun j hj => congrArg (partLoad s c m l (addr l) j)
          (devOf_block k (hcheck l (mem_lanes.1 hl)) (List.mem_range.1 hj)).symm
      exact (hparts ▸ hentered :)
    · intro ty m hi hact y hsame hcheck hop horder hremote
      have hdone := ldu_enters hi hact hsame rfl hcheck hremote hop horder
      rwa [onceLoad_plain hop] at hdone
    · intro ty m hi hact y hsame hcheck hop hremote
      have hdone := ldu_waits hi hact hsame rfl hcheck hremote hop
      rwa [onceLoad_await hop] at hdone
    · exact fun hi hcheck hremote => exec_probe_enters hi hcheck hremote

end Sys2Proof.Machine
end

section
/-! SUPPORT. ST, STX, STU, ATOM, RED, AENQ and ADEQ: what they enter (R228, R233-R235, R239-R243), what a deterministic run buffers
(R230, R322, R367), and the statements on them. -/

namespace Sys2Proof.Machine

open Sys2Proof

/-! ### Buffered operations (R230, R367) -/

/-- The entry of a buffered operation of lane `l`. -/
def bufEntry (s : State) (c : Ctx) (op : AOp) (x : Dword) (size ty : Nat) (data : Dword) (l : Nat) : BufOp :=
  ⟨(s.companyOf c.t).run, (s.troupe c.t).stage, companyKey c.t,
    ((s.companyOf c.t).index, troupeNo c.t, l, (s.thread c.t l).seqno), releasePerformed s (s.companyOf c.t), op, x, size, ty == 3, ty,
    data, physOf s c.t l x⟩

section
variable (c : Ctx) (op : Nat → AOp) (addr : Nat → Dword) (size : Nat) (ty : Nat → Nat) (data : Nat → Dword)

/-- The operations of the lanes `ls` are buffered at the stage, in that order; nothing is entered. -/
structure Buffered (ls : List Nat) (s z : State) : Prop where
  rest    : { z with troupes := s.troupes, stages := s.stages } = s
  troupe  : { z.troupe c.t with threads := (s.troupe c.t).threads } = s.troupe c.t
  det     : (z.stage (s.troupe c.t).stage).det =
    (s.stage (s.troupe c.t).stage).det ++ ls.map fun l => bufEntry s c (op l) (addr l) size (ty l) (data l) l
  threads : ∀ l, z.thread c.t l =
    if l ∈ ls then { s.thread c.t l with seqno := (s.thread c.t l).seqno + 1 } else s.thread c.t l

variable {c op addr size ty data}

theorem bufEntry_congr {s z : State} {l : Nat} (hrest : { z with troupes := s.troupes, stages := s.stages } = s)
    (hstage : (z.troupe c.t).stage = (s.troupe c.t).stage) (hthread : z.thread c.t l = s.thread c.t l) (o : AOp) (x : Dword)
    (n t : Nat) (v : Dword) : bufEntry z c o x n t v l = bufEntry s c o x n t v l := by
  have hcompanies : z.companies = s.companies := (congrArg State.companies hrest :)
  have hruns : z.runs = s.runs := (congrArg State.runs hrest :)
  have haccs : z.accs = s.accs := (congrArg State.accs hrest :)
  have hupds : z.upds = s.upds := (congrArg State.upds hrest :)
  simp only [bufEntry, physOf, stackArea, releasePerformed, accDone, accById, State.companyOf, State.company, State.runOf, State.run,
    hcompanies, hruns, haccs, hupds, hstage, hthread]

theorem Buffered.refl (s : State) : Buffered c op addr size ty data [] s s :=
  ⟨rfl, rfl, (List.append_nil _).symm, fun _ => (if_neg List.not_mem_nil).symm⟩

/-- Lanes one after another. -/
theorem Buffered.append {ls ks : List Nat} {s z y : State} (h : Buffered c op addr size ty data ls s z)
    (k : Buffered c op addr size ty data ks z y) (hdisj : ∀ l ∈ ks, l ∉ ls) : Buffered c op addr size ty data (ls ++ ks) s y := by
  have hstage : (z.troupe c.t).stage = (s.troupe c.t).stage := (congrArg Troupe.stage h.troupe :)
  have hthread (l : Nat) (hl : l ∈ ks) : z.thread c.t l = s.thread c.t l := (h.threads l).trans (if_neg (hdisj l hl))
  refine ⟨(congrArg (fun x : State => { x with troupes := s.troupes, stages := s.stages }) k.rest :).trans h.rest,
    (congrArg (fun x : Troupe => { x with threads := (s.troupe c.t).threads }) k.troupe :).trans h.troupe, ?_, fun l => ?_⟩
  · have hdet := k.det
    rw [hstage] at hdet
    rw [hdet, h.det, List.append_assoc, List.map_append,
      List.map_congr_left fun l hl => bufEntry_congr h.rest hstage (hthread l hl) _ _ _ _ _]
  · rw [k.threads]
    by_cases hk : l ∈ ks
    · rw [if_pos hk, if_pos (List.mem_append_right _ hk), hthread l hk]
    · rw [if_neg hk, h.threads]
      exact if_congr (by rw [List.mem_append, or_iff_left hk]) rfl rfl

/-- One operation, where the stage's buffer has room. -/
theorem buffered_bufferOp {s : State} (hroom : (s.stage (s.troupe c.t).stage).det.length < 2048) (l : Nat) :
    Buffered c op addr size ty data [l] s (bufferOp s c l (op l) (addr l) size (ty l) (data l)) := by
  unfold bufferOp
  dsimp only
  rw [if_neg (by omega)]
  refine ⟨rfl, ?_, ?_, fun j => ?_⟩
  · rw [State.troupe_setThread_self]
    rfl
  · exact congrArg Stage.det (State.stage_setStage_self _ _ _)
  · rw [State.thread, State.troupe_setThread_self, Troupe.thread_setThread]
    by_cases hj : j = l
    · rw [if_pos hj, if_pos (List.mem_singleton.2 hj), hj]
    · rw [if_neg hj, if_neg fun h => hj (List.mem_singleton.1 h)]
      rfl

theorem buffered_foldl {f : State → Nat → State}
    (hf : ∀ z l, 0 < detRoom z c → f z l = bufferOp z c l (op l) (addr l) size (ty l) (data l)) (ls : List Nat) (hn : ls.Nodup)
    (s : State) (hroom : (s.stage (s.troupe c.t).stage).det.length + ls.length ≤ 2048) :
    Buffered c op addr size ty data ls s (ls.foldl f s) := by
  induction ls generalizing s with
  | nil => exact .refl s
  | cons a r ih =>
    obtain ⟨ha, hr⟩ := List.nodup_cons.1 hn
    rw [List.length_cons] at hroom
    have hfree : 0 < detRoom s c := by rw [detRoom]; omega
    have hone := buffered_bufferOp (op := op) (addr := addr) (size := size) (ty := ty) (data := data) (s := s) (c := c) (by omega) a
    rw [List.foldl_cons, hf s a hfree]
    refine hone.append (ih hr _ ?_) fun l hl he => ha (List.mem_singleton.1 he ▸ hl)
    have hstage : ((bufferOp s c a (op a) (addr a) size (ty a) (data a)).troupe c.t).stage = (s.troupe c.t).stage :=
      (congrArg Troupe.stage hone.troupe :)
    rw [hstage, hone.det, List.length_append, List.length_map, List.length_singleton]
    omega

end

/-! ### Stores of lanes: ST and RED (R228, R233, R241) -/

/-- The part of a lane in an instruction whose stores may be buffered, `s` being the state in which its operands are read. -/
def storePart (s : State) (c : Ctx) (buf : Nat → Bool) (op : Nat → AOp) (addr : Nat → Dword) (size : Nat) (ty : Nat → Nat)
    (data : Nat → Dword) (m : StMod) (z : State) (l : Nat) : State :=
  if buf l && 0 < detRoom z c then bufferOp z c l (op l) (addr l) size (ty l) (data l)
  else storeLane z c (.thread c.t l) [l] (op l) (addr l) (physOf s c.t l (addr l)) size (ty l) (data l) (stRel m) (stScope m) 0

theorem storeAcc_sameSpace {s t : State} (h : SameSpace s t) (c : Ctx) (who : Who) (op : AOp) (x : Dword) (phys size ty : Nat)
    (data : Dword) (rel : Bool) (sc : Scope) (part : Nat) :
    storeAcc t c who op x phys size ty data rel sc part = storeAcc s c who op x phys size ty data rel sc part := by
  simp only [storeAcc, h.devOf, h.isRemote, h.castTargets]

section
variable {s : State} {c : Ctx} {buf : Nat → Bool} {op : Nat → AOp} {addr : Nat → Dword} {size : Nat} {ty : Nat → Nat}
  {data : Nat → Dword} {m : StMod}

/-- Stores that are not buffered: one for each lane, in the store queue. -/
theorem enteredBy_stores {v : State} (hv : Ready c s v) (hbuf : ∀ l, hasLane c.act l = true → buf l = false) :
    EnteredBy c (lanes c.act) ((lanes c.act).map fun l => storeAcc s c (.thread c.t l) (op l) (addr l) (physOf s c.t l (addr l)) size
      (ty l) (data l) (stRel m) (stScope m) 0) [] SameThread s
      ((lanes c.act).foldl (storePart s.begun c buf op addr size ty data m) v) := by
  have hpart : ∀ z, ∀ l ∈ lanes c.act, storePart s.begun c buf op addr size ty data m z l =
      storeLane z c (.thread c.t l) [l] (op l) (addr l) (physOf s c.t l (addr l)) size (ty l) (data l) (stRel m) (stScope m) 0 :=
    fun z l hl => by rw [storePart, hbuf l (mem_lanes.1 hl), Bool.false_and, if_neg Bool.false_ne_true]; rfl
  rw [List.foldl_ext _ _ _ fun z l hl => hpart z l hl, List.map_eq_flatMap]
  have h := enteredBy_foldl (P := SameThread) (O := fun _ _ => []) (A := fun z l => [storeAcc z c (.thread c.t l) (op l) (addr l)
      (physOf s c.t l (addr l)) size (ty l) (data l) (stRel m) (stScope m) 0])
    (fun z l _ => laneEnters_enterAcc c l z [l] (storeAcc z c (.thread c.t l) (op l) (addr l) (physOf s c.t l (addr l)) size (ty l)
      (data l) (stRel m) (stScope m) 0))
    (fun z t l hs _ => ⟨congrArg (fun a => [a]) (storeAcc_sameSpace hs _ _ _ _ _ _ _ _ _ _ _), rfl⟩) (fun _ _ _ _ _ h => h) hv
    (lanes c.act) (lanes_nodup _) fun l => lanes_lt
  rwa [List.flatMap_eq_nil_iff.2 fun _ _ => rfl] at h

/-- Stores that are buffered. -/
theorem buffered_stores (hbuf : ∀ l, hasLane c.act l = true → buf l = true)
    (hroom : (s.stage (s.troupe c.t).stage).det.length + (lanes c.act).length ≤ 2048) :
    Buffered c op addr size ty data (lanes c.act) s.begun
      ((lanes c.act).foldl (storePart s.begun c buf op addr size ty data m) s.begun) := by
  rw [List.foldl_ext _ (storePart s.begun c (fun _ => true) op addr size ty data m) _ fun z l hl => by
    rw [storePart, storePart, hbuf l (mem_lanes.1 hl)]]
  refine buffered_foldl (fun z l hfree => ?_) _ (lanes_nodup _) s.begun hroom
  rw [storePart, Bool.true_and, decide_eq_true hfree, if_pos rfl]

end

/-- Buffers with room for all that may be buffered lead to no trap and no mark (R367). -/
theorem overflowTrap_pass {s : State} {c : Ctx} {xs : List (Nat × Bool)} (h : (xs.filter Prod.snd).length ≤ detRoom s c) :
    overflowTrap s c xs = (s, none) := by
  have hdrop : ((xs.filter Prod.snd).map Prod.fst).drop (detRoom s c) = [] :=
    List.drop_eq_nil_of_le (by rwa [List.length_map])
  rw [overflowTrap, hdrop]
  exact (congrArg (nondet s c) (maskOf_eq_zero.2 fun _ _ => rfl)).trans (nondet_zero s c)

theorem le_detRoom {s : State} {c : Ctx} {n : Nat} (h : (s.stage (s.troupe c.t).stage).det.length + n ≤ 2048) : n ≤ detRoom s c := by
  rw [detRoom]
  omega

section
variable {s : State} {c : Ctx} {ty : Ty} {m : StMod} {d base : Opd} {off : Src} {h : Hdr}

/-- The lanes of Active, with whether their stores may be buffered. -/
def storeLanes (c : Ctx) (buf : Nat → Bool) : List (Nat × Bool) := (lanes c.act).map fun l => (l, buf l)

theorem exec_st_passes (hi : Issues (.st h ty m d base off) s c)
    (hcheck : ∀ l, hasLane c.act l = true →
      laneCheck s.begun c.t l (.access false (Ty.width ty / 8)) (memAddr s.begun c l base off) = none)
    (horder : OrderFree s.begun c (orderedLanes c fun l => memAddr s.begun c l base off))
    (hremote : RemoteFree s.begun c fun l => memAddr s.begun c l base off)
    (hover : ((storeLanes c fun l => buffers s.begun c (memAddr s.begun c l base off)).filter Prod.snd).length ≤
      detRoom (nondet s.begun c (orderedLanes c fun l => memAddr s.begun c l base off)).1 c)
    (hqueue : queueNeed s.begun c (storeLanes c fun l => buffers s.begun c (memAddr s.begun c l base off)) ≤ queueFree s.begun c.t) :
    exec (.st h ty m d base off) s = .next (finish c (.ok (countRemote s.begun ((lanes c.act).foldl
      (storePart s.begun c (fun l => buffers s.begun c (memAddr s.begun c l base off))
        (fun l => winOp false (winOf (memAddr s.begun c l base off))) (fun l => memAddr s.begun c l base off) (Ty.width ty / 8)
        (fun l => typeOf (memAddr s.begun c l base off)) (fun l => readTy s.begun c ty l d 6) m)
      (nondet s.begun c (orderedLanes c fun l => memAddr s.begun c l base off)).1) c.t))) := by
  rw [storeLanes] at hover hqueue
  rw [exec_st, execSt, issue_next hi]
  dsimp only
  rw [checkLanes_pass fun l hl => hcheck l (mem_lanes.1 hl)]
  dsimp only
  rw [(nondet_none horder).1, overflowTrap_pass hover]
  dsimp only
  rw [remote_passes hremote, if_neg Bool.false_ne_true, if_neg (Nat.not_lt.2 hqueue)]
  rfl

theorem exec_red_passes {op : AtomOp} (hi : Issues (.red h op ty m d base off) s c)
    (hcheck : ∀ l, hasLane c.act l = true →
      laneCheck s.begun c.t l (.atomic (Ty.width ty / 8)) (memAddr s.begun c l base off) = none)
    (hremote : RemoteFree s.begun c fun l => memAddr s.begun c l base off)
    (hover : ((storeLanes c fun _ => (s.runOf c.t).determ).filter Prod.snd).length ≤ detRoom s.begun c)
    (hqueue : queueNeed s.begun c (storeLanes c fun _ => (s.runOf c.t).determ) ≤ queueFree s.begun c.t) :
    exec (.red h op ty m d base off) s = .next (finish c (.ok (countRemote s.begun ((lanes c.act).foldl
      (storePart s.begun c (fun _ => (s.runOf c.t).determ) (fun _ => atomOp op) (fun l => memAddr s.begun c l base off)
        (Ty.width ty / 8) (fun _ => arithType ty) (fun l => readTy s.begun c ty l d 6) m) s.begun) c.t))) := by
  have hxs : ((lanes c.act).map fun l => (l, (s.begun.runOf c.t).determ)) = storeLanes c fun _ => (s.runOf c.t).determ := rfl
  rw [exec_red, execRed, issue_next hi]
  dsimp only
  rw [checkLanes_pass fun l hl => hcheck l (mem_lanes.1 hl)]
  dsimp only
  rw [hxs, overflowTrap_pass hover]
  dsimp only
  rw [remote_passes hremote, if_neg Bool.false_ne_true, if_neg (Nat.not_lt.2 hqueue)]
  rfl

end

/-! ### STX and STU (R234, R235) -/

/-- The store of part `k` of an STX of a lane, which began in state `u`. -/
def blockStore (u s : State) (c : Ctx) (m : StMod) (n l : Nat) (x : Dword) (f : Nat → Word) (k : Nat) : Access :=
  let y := x + BitVec.ofNat 64 (8 * k)
  { storeAcc s c (.thread c.t l) (winOp false (winOf x)) y (physOf u c.t l y) 8 0 (joinPair (f (2 * k)) (f (2 * k + 1))) (stRel m)
      (stScope m) 0 with cmp := BitVec.ofNat 64 (n / 2) }

section
variable {s t : State} (h : SameSpace s t) (u : State) (c : Ctx) (m : StMod) (n l : Nat) (x : Dword) (f : Nat → Word)

include h in
theorem blockStore_sameSpace (k : Nat) : blockStore u t c m n l x f k = blockStore u s c m n l x f k := by
  simp only [blockStore, storeAcc_sameSpace h]

include h in
theorem blockStore_began : blockStore t t c m n l x f = blockStore s s c m n l x f :=
  funext fun k => by simp only [blockStore, h.physOf, storeAcc_sameSpace h]

theorem laneEnters_storeParts (z : State) :
    LaneEnters c l ((List.range (n / 2)).map (blockStore z z c m n l x f)) [] (SameThread l) z (storeParts z c m n l x f) := by
  have h := laneEnters_foldl (A := fun y k => [blockStore z y c m n l x f k]) (O := fun _ _ => [])
    (fun y k => laneEnters_enterAcc c l y [l] { blockStore z y c m n l x f k with part := z.nextId })
    (fun y t k hs _ => ⟨congrArg (fun a => [a]) (blockStore_sameSpace hs _ _ _ _ _ _ _ _), rfl⟩) (List.range (n / 2)) z
  rw [List.flatMap_eq_nil_iff.2 fun _ _ => rfl, ← List.map_eq_flatMap] at h
  exact h

end

theorem exec_stx_enters {h : Hdr} {k : Fin 4} {m : StMod} {d base : Opd} {off : Src} {s : State} {c : Ctx}
    (hi : Issues (.stx h k m d base off) s c)
    (hcheck : ∀ l, hasLane c.act l = true →
      laneCheck s.begun c.t l (.block false (2 ^ (k.val + 1))) (memAddr s.begun c l base off) = none)
    (hremote : RemoteFree s.begun c fun l => memAddr s.begun c l base off) (hqueue : (lanes c.act).length ≤ queueFree s.begun c.t) :
    ∃ t, exec (.stx h k m d base off) s = .next t ∧ AllMoved c s t ∧ Entered c
      ((lanes c.act).flatMap fun l => (List.range (2 ^ (k.val + 1) / 2)).map
        (blockStore s s c m (2 ^ (k.val + 1)) l (memAddr s.begun c l base off) fun j => readPart s.begun c l d j 6)) [] s t := by
  have hdone := enteredBy_foldl (P := SameThread) (O := fun _ _ => [])
    (fun z l _ => laneEnters_storeParts c m (2 ^ (k.val + 1)) l (memAddr s.begun c l base off) (fun j => readPart s.begun c l d j 6) z)
    (fun z t l hs _ => ⟨congrArg (List.map · _) (blockStore_began hs _ _ _ _ _ _), rfl⟩)
    (fun _ _ _ _ _ h => h) (ready_begun c s) (lanes c.act) (lanes_nodup _) fun l => lanes_lt
  rw [List.flatMap_eq_nil_iff.2 fun _ _ => rfl] at hdone
  refine ⟨_, ?_, (hdone.countRemote s.begun).allMoved⟩
  rw [exec_stx, execStx, issue_next hi]
  dsimp only
  rw [checkLanes_pass fun l hl => hcheck l (mem_lanes.1 hl)]
  dsimp only
  rw [remote_passes hremote, if_neg Bool.false_ne_true, if_neg (Nat.not_lt.2 hqueue)]

section
variable {h : Hdr} {ty : Ty} {m : StMod} {d base : Opd} {off : Src} {s : State} {c : Ctx} {y : Dword}
  (hi : Issues (.stu h ty m d base off) s c) (hact : c.act ≠ 0)
  (hsame : ∀ l, hasLane c.act l = true → readPair s.begun c l base 4 = readPair s.begun c c.low base 4 ∧
    offVal s.begun c l off = offVal s.begun c c.low off ∧ readTy s.begun c ty l d 6 = readTy s.begun c ty c.low d 6)
  (hy : memAddr s.begun c c.low base off = y)
  (hcheck : laneCheck s.begun c.t c.low (.access false (Ty.width ty / 8)) y = none) (hremote : RemoteFree s.begun c fun _ => y)
include hi hact hsame hy hcheck hremote

/-- STU where its store is not buffered. -/
theorem stu_enters (hbuf : buffers s.begun c y = false) (horder : OrderFree s.begun c (if winOf y = 8 then c.act else 0))
    (hqueue : 1 ≤ queueFree s.begun c.t) :
    ∃ t, exec (.stu h ty m d base off) s = .next t ∧ AllMoved c s t ∧
      Entered c [storeAcc s c (.bundle c.t c.act) (winOp false (winOf y)) y (physOf s c.t c.low y) (Ty.width ty / 8) (typeOf y)
        (readTy s.begun c ty c.low d 6) (stRel m) (stScope m) 0] [] s t := by
  have hdone := enteredBy_foldl (P := SameThread) (O := fun _ _ => [])
    (fun z l _ => laneEnters_enterAcc c l z (lanes c.act) (storeAcc z c (.bundle c.t c.act) (winOp false (winOf y)) y
      (physOf s c.t c.low y) (Ty.width ty / 8) (typeOf y) (readTy s.begun c ty c.low d 6) (stRel m) (stScope m) 0))
    (fun z t l hs _ => ⟨congrArg (fun a => [Access.bare a]) (storeAcc_sameSpace hs _ _ _ _ _ _ _ _ _ _ _), rfl⟩)
    (fun _ _ _ _ _ h => h) (ready_nondet horder) [c.low] (List.nodup_singleton _)
    fun l hl => List.mem_singleton.1 hl ▸ lt_of_hasLane (hasLane_low hact)
  rw [List.flatMap_singleton, List.flatMap_singleton] at hdone
  refine ⟨_, ?_, (hdone.countRemote s.begun).allMoved⟩
  rw [exec_stu, execStu, issue_next hi, Ctx.not_idle hact, if_neg Bool.false_ne_true,
    uniformAddr_pass fun l hl => ⟨(hsame l hl).1, (hsame l hl).2.1⟩]
  dsimp only
  rw [uniformTrap_none fun l hl => (hsame l hl).2.2]
  dsimp only
  rw [hy, bundleCheck, hcheck, hbuf]
  dsimp only [Option.map_none]
  rw [(nondet_none horder).1]
  simp only [Bool.false_and, Bool.false_eq_true, if_false, nondet_zero]
  rw [remote_passes_once hact hremote, if_neg Bool.false_ne_true, if_neg]
  · rfl
  · simp only [Bool.not_false, Bool.and_true, decide_eq_true_eq, Nat.not_lt]
    exact hqueue

/-- STU where its store is buffered. -/
theorem stu_buffers (hbuf : buffers s.begun c y = true) (hwin : winOf y ≠ 8) (hroom : 0 < detRoom s.begun c) :
    exec (.stu h ty m d base off) s = .next (finish c (.ok (bufferOp s.begun c c.low (winOp false (winOf y)) y (Ty.width ty / 8)
      (typeOf y) (readTy s.begun c ty c.low d 6)))) := by
  have hfree : decide (detRoom s.begun c = 0) = false := decide_eq_false (by omega)
  rw [exec_stu, execStu, issue_next hi, Ctx.not_idle hact, if_neg Bool.false_ne_true,
    uniformAddr_pass fun l hl => ⟨(hsame l hl).1, (hsame l hl).2.1⟩]
  dsimp only
  rw [uniformTrap_none fun l hl => (hsame l hl).2.2]
  dsimp only
  rw [hy, bundleCheck, hcheck, hbuf, if_neg hwin, hfree]
  dsimp only [Option.map_none]
  simp only [Bool.and_false, Bool.false_eq_true, if_false, nondet_zero]
  rw [remote_passes_once hact hremote, if_neg Bool.false_ne_true]
  simp only [Bool.not_false, Bool.and_true, Bool.not_true, Bool.and_false, Bool.false_eq_true, if_false, if_true]

end

/-! ### The statement on stores -/

section
variable {c : Ctx} {buf : Nat → Bool}

/-- Where no store may be buffered, each needs its entry of the store queue (R228). -/
theorem storeLanes_queued (h : ∀ l, hasLane c.act l = true → buf l = false) :
    (storeLanes c buf).filter Prod.snd = [] := by
  refine List.filter_eq_nil_iff.2 fun x hx => ?_
  obtain ⟨l, hl, rfl⟩ := List.mem_map.1 hx
  exact Bool.eq_false_iff.1 (h l (mem_lanes.1 hl))

/-- Where every store may be buffered, and the buffers have room, none needs an entry (R230). -/
theorem storeLanes_buffered (h : ∀ l, hasLane c.act l = true → buf l = true) :
    (storeLanes c buf).filter Prod.snd = storeLanes c buf := by
  refine List.filter_eq_self.2 fun x hx => ?_
  obtain ⟨l, hl, rfl⟩ := List.mem_map.1 hx
  exact h l (mem_lanes.1 hl)

theorem length_storeLanes : (storeLanes c buf).length = (lanes c.act).length := List.length_map _

theorem queueNeed_le {s : State} {n : Nat} (h : (lanes c.act).length ≤ n) : queueNeed s c (storeLanes c buf) ≤ n := by
  rw [queueNeed, length_storeLanes]
  exact (Nat.sub_le _ _).trans h

theorem queueNeed_buffered {s : State} (h : ∀ l, hasLane c.act l = true → buf l = true)
    (hroom : (lanes c.act).length ≤ detRoom s c) : queueNeed s c (storeLanes c buf) = 0 := by
  rw [queueNeed, storeLanes_buffered h, length_storeLanes, Nat.min_eq_right hroom, Nat.sub_self]

end

/-- How an instruction ends that has buffered the operations of the lanes `ls`. -/
theorem Buffered.done {c : Ctx} {op : Nat → AOp} {addr : Nat → Dword} {size : Nat} {ty : Nat → Nat} {data : Nat → Dword}
    {ls : List Nat} {s z y : State} (h : Buffered c op addr size ty data ls s.begun z) (hy : Holding c.t z y) (haccs : y.accs = z.accs)
    (hthread : ∀ l, y.thread c.t l = z.thread c.t l) (hle : ∀ l, hasLane c.act l = true → hasLane c.mask l = true) :
    let t := finish c (.ok y)
    let st := (s.troupe c.t).stage
    (t.stage st).det = (s.stage st).det ++ ls.map (fun l => bufEntry s c (op l) (addr l) size (ty l) (data l) l) ∧
      t.accs = s.accs ∧ (∀ x, t.mem.byte x = s.mem.byte x) ∧
      ∀ l, hasLane c.act l = true → (t.thread c.t l).seqno = (s.thread c.t l).seqno + (if l ∈ ls then 1 else 0) ∧
        (t.thread c.t l).pc = (s.thread c.t l).pc + 12 := by
  intro t st
  have hstages : y.stages = z.stages := (congrArg State.stages hy.rest :)
  have hmem : y.mem = z.mem := (congrArg State.mem hy.rest :)
  refine ⟨?_, haccs.trans (congrArg State.accs h.rest :), fun x => ?_, fun l hl => ?_⟩
  · rw [show t.stage st = z.stage st from congrArg (tget · Stage.empty st) hstages]
    exact h.det
  · exact congrArg (Memory.byte · x) (hmem.trans (congrArg State.mem h.rest :))
  · have hgoes : t.thread c.t l = (z.thread c.t l).advance c.hdr := by rw [thread_finish_ok, if_pos (hle l hl), hthread]
    have hbegun : s.begun.thread c.t l = s.thread c.t l := rfl
    rw [hgoes, h.threads, hbegun]
    split
    · exact ⟨rfl, rfl⟩
    · exact ⟨rfl, rfl⟩

theorem atomOp_ne_cast (op : AtomOp) : (atomOp op == .cast) = false := by cases op <;> rfl

/-- RED's access, whose operation is no CAST. -/
theorem storeAcc_atomOp (s : State) (c : Ctx) (who : Who) (op : AtomOp) (x : Dword) (phys size ty : Nat) (data : Dword) (rel : Bool)
    (sc : Scope) : storeAcc s c who (atomOp op) x phys size ty data rel sc 0 =
      { Access.make who (atomOp op) x phys size with
        ty := ty, data := data, rel := rel, scope := sc, isStore := true, dev := devOf s x } := by
  rw [storeAcc, atomOp_ne_cast, Bool.false_and, if_neg Bool.false_ne_true]
  rfl

/-- The arithmetic windows are buffered in a deterministic run (R230). -/
theorem buffers_of_window {s : State} {c : Ctx} {x : Dword} (hdet : (s.runOf c.t).determ = true) (h : 2 ≤ winOf x ∧ winOf x ≤ 6) :
    buffers s.begun c x = true := by
  have hrun : s.begun.runOf c.t = s.runOf c.t := rfl
  rw [buffers, hrun, hdet, decide_eq_true h.1, decide_eq_true h.2]
  rfl

/-- None of them is a window whose order a deterministic run must fix (R83). -/
theorem orderedLanes_arithmetic {c : Ctx} {addr : Nat → Dword} (h : ∀ l, hasLane c.act l = true → winOf (addr l) ≤ 6) :
    orderedLanes c addr = 0 := by
  refine maskOf_eq_zero.2 fun l _ => ?_
  cases hl : hasLane c.act l with
  | true =>
    rw [decide_eq_false (by have := h l hl; omega), Bool.and_false, Bool.false_and]
  | false => rfl

/-- Settles O10: outside the buffering the lanes enter their stores one after another, and while the stage's buffer has room every
one is buffered. -/
theorem stores : Obligations.Stores := by
  unfold Obligations.Stores
  refine ⟨?_, ?_⟩
  · intro h m d base off s c u addr targets
    refine ⟨?_, ?_, ?_⟩
    · intro ty hi hcheck hbuf horder hremote hqueue
      have hexec := exec_st_passes hi hcheck horder hremote (by rw [storeLanes_queued hbuf]; exact Nat.zero_le _) (queueNeed_le hqueue)
      exact ⟨_, hexec, ((enteredBy_stores (ready_nondet horder) hbuf).countRemote _).allMoved⟩
    · intro k hi n hcheck hremote hqueue
      exact exec_stx_enters hi hcheck hremote hqueue
    · intro ty hi hact y hsame hcheck hbuf horder hremote hqueue
      exact stu_enters hi hact hsame rfl hcheck hremote hbuf horder hqueue
  · intro h ty m d base off s c u addr st co entry bufferedOf buffered hdet hroom hlocal
    have hlanes : (lanes c.act).length ≤ detRoom u c := le_detRoom hroom
    have hremote : RemoteFree u c addr := .inl hlocal
    refine ⟨?_, ?_, ?_⟩
    · intro hi hcheck hwin
      have hbuf (l : Nat) (hl : hasLane c.act l = true) : buffers u c (addr l) = true := buffers_of_window hdet (hwin l hl)
      have hfree : orderedLanes c addr = 0 := orderedLanes_arithmetic fun l hl => (hwin l hl).2
      have hexec := exec_st_passes hi hcheck (.inl hfree) hremote
        (by rw [hfree, nondet_zero, storeLanes_buffered hbuf, length_storeLanes]; exact hlanes)
        (by rw [queueNeed_buffered hbuf hlanes]; exact Nat.zero_le _)
      rw [hfree, nondet_zero] at hexec
      obtain ⟨hhold, haccs, -, hthread, -⟩ := countRemote_spec u ((lanes c.act).foldl (storePart u c (fun l => buffers u c (addr l))
        (fun l => winOp false (winOf (addr l))) addr (Ty.width ty / 8) (fun l => typeOf (addr l)) (fun l => readTy u c ty l d 6) m) u) c.t
      exact ⟨_, hexec, (buffered_stores hbuf hroom).done hhold haccs hthread fun l hl => hi.act_le hl⟩
    · intro hi hact y hsame hcheck hwin
      have hlow := hlocal c.low (hasLane_low hact)
      have hroom1 : (u.stage (u.troupe c.t).stage).det.length < 2048 := by
        have hpos : 0 < (lanes c.act).length := List.length_pos_of_mem (mem_lanes.2 (hasLane_low hact))
        exact Nat.lt_of_lt_of_le (Nat.lt_add_of_pos_right hpos) hroom
      have hexec := stu_buffers hi hact hsame rfl hcheck (.inl fun _ _ => hlow) (buffers_of_window hdet hwin)
        (hwin.2.trans_lt (by decide)).ne (le_detRoom hroom1)
      exact ⟨_, hexec, (buffered_bufferOp (op := fun _ => winOp false (winOf y)) (addr := addr) (ty := fun _ => typeOf y)
        (data := fun l => readTy u c ty l d 6) hroom1 c.low).done ⟨rfl, fun _ _ => rfl, rfl⟩ rfl (fun _ => rfl)
        fun l hl => hi.act_le hl⟩
    · intro op hi hcheck
      have hbuf (l : Nat) (_ : hasLane c.act l = true) : (s.runOf c.t).determ = true := hdet
      have hexec := exec_red_passes hi hcheck hremote
        (by rw [storeLanes_buffered hbuf, length_storeLanes]; exact hlanes)
        (by rw [queueNeed_buffered hbuf hlanes]; exact Nat.zero_le _)
      obtain ⟨hhold, haccs, -, hthread, -⟩ := countRemote_spec u ((lanes c.act).foldl (storePart u c
        (fun _ => (s.runOf c.t).determ) (fun _ => atomOp op) addr (Ty.width ty / 8) (fun _ => arithType ty)
        (fun l => readTy u c ty l d 6) m) u) c.t
      exact ⟨_, hexec, (buffered_stores hbuf hroom).done hhold haccs hthread fun l hl => hi.act_le hl⟩

/-! ### ATOM, AENQ and ADEQ (R239, R240, R242, R243) -/

/-- A lane enters its access and is owed the registers `ws` (R229). -/
def owedPart (c : Ctx) (ws : Nat → List (Nat × Word)) (a : Nat → Access) (z : State) (l : Nat) : State :=
  let o := owe z c (laneBit l) l (ws l) false
  enterAcc o.1 c.t [l] { a l with pend := o.2 }

theorem enteredBy_owedParts {c : Ctx} {s v : State} (hv : Ready c s v) (ws : Nat → List (Nat × Word)) {a : Nat → Access}
    (ha : ∀ l, (a l).bare = a l) : EnteredBy c (lanes c.act) ((lanes c.act).map a)
      ((lanes c.act).flatMap fun l => owedLoad c s (laneBit l) l (ws l)) SameThread s ((lanes c.act).foldl (owedPart c ws a) v) := by
  rw [List.map_eq_flatMap]
  refine enteredBy_foldl (A := fun _ l => [a l]) (O := fun z l => owedLoad c z (laneBit l) l (ws l)) (fun z l _ => ?_)
    (fun z t l _ hth => ⟨rfl, owedLoad_congr hth _ _⟩) (fun _ _ _ _ _ h => h) hv _ (lanes_nodup _) fun l => lanes_lt
  have h := laneEnters_owed c l z (laneBit l) (ws l) [l] { a l with pend := (owe z c (laneBit l) l (ws l) false).2 }
  rwa [show Access.bare { a l with pend := (owe z c (laneBit l) l (ws l) false).2 } = a l from ha l] at h

/-- The instruction has entered one access for each lane, and owes the lanes their registers. -/
theorem owedParts_end {s : State} {c : Ctx} {i : Instr} {m : Mask} (horder : OrderFree s.begun c m)
    {ws : Nat → List (Nat × Word)} {a : Nat → Access}
    (ha : ∀ l, (a l).bare = a l)
    (hexec : exec i s = .next (finish c (.ok (countRemote s.begun ((lanes c.act).foldl (owedPart c ws a) (nondet s.begun c m).1) c.t)))) :
    ∃ t, exec i s = .next t ∧ AllMoved c s t ∧ Entered c ((lanes c.act).map a)
      ((lanes c.act).flatMap fun l => owedLoad c s (laneBit l) l (ws l)) s t :=
  ⟨_, hexec, ((enteredBy_owedParts (ready_nondet horder) ws ha).countRemote _).allMoved⟩

/-- Settles O11: each lane enters its access in turn, and is owed what it returns. -/
theorem atomics : Obligations.Atomics := by
  unfold Obligations.Atomics
  intro h d base s c u at0
  refine ⟨?_, ?_, ?_, ?_⟩
  · intro op ty m b k hi hcheck horder hremote hqueue
    refine owedParts_end horder (fun _ => rfl) ?_
    rw [exec_atom, execAtom, issue_next hi]
    dsimp only
    rw [checkLanes_pass fun l hl => hcheck l (mem_lanes.1 hl)]
    dsimp only
    rw [(nondet_none horder).1]
    dsimp only
    rw [remote_passes hremote, if_neg Bool.false_ne_true, if_neg (Nat.not_lt.2 hqueue)]
    rfl
  · intro op ty m off hi addr hcheck hdet hremote hqueue
    have hbuf (l : Nat) (_ : hasLane c.act l = true) : (s.runOf c.t).determ = false := hdet
    have hexec := exec_red_passes hi hcheck hremote (by rw [storeLanes_queued hbuf]; exact Nat.zero_le _) (queueNeed_le hqueue)
    have hdone := ((enteredBy_stores (op := fun _ => atomOp op) (addr := addr) (size := Ty.width ty / 8) (ty := fun _ => arithType ty)
      (data := fun l => readTy u c ty l d 6) (m := m) (ready_begun c s) hbuf).countRemote u).allMoved
    simp only [storeAcc_atomOp] at hdone
    exact ⟨_, hexec, hdone⟩
  · intro ty m b hi hcheck horder hremote hqueue
    refine owedParts_end horder (fun _ => rfl) ?_
    rw [exec_aenq, execAenq, issue_next hi]
    dsimp only
    rw [checkLanes_pass fun l hl => hcheck l (mem_lanes.1 hl)]
    dsimp only
    rw [(nondet_none horder).1]
    dsimp only
    rw [remote_passes hremote, if_neg Bool.false_ne_true, if_neg (Nat.not_lt.2 hqueue)]
    rfl
  · intro m off hi addr hcheck horder hremote
    refine owedParts_end horder (fun _ => rfl) ?_
    rw [exec_adeq, execAdeq, issue_next hi]
    dsimp only
    rw [checkLanes_pass fun l hl => hcheck l (mem_lanes.1 hl)]
    dsimp only
    rw [(nondet_none horder).1]
    dsimp only
    rw [remote_passes hremote, if_neg Bool.false_ne_true]
    rfl

end Sys2Proof.Machine
end

section
/-! SUPPORT. BRA and BRX (R155, R158, R253), and the statement on them. -/

namespace Sys2Proof.Machine

open Sys2Proof

/-! ### Targets (R155, R253) -/

/-- The troupe may go to `x`: an instruction of its text begins there. -/
def GoodTarget (s : State) (t : Nat) (x : Int) : Prop := 0 ≤ x ∧ (12 : Int) ∣ x ∧ x < textLimit s t

theorem textLimit_cast (s : State) (t : Nat) :
    (textLimit s t : Int) = if (s.troupe t).context then 2 ^ 32 else ((s.runOf t).textSize : Int) := by
  rw [textLimit]
  split <;> rfl

theorem badTarget_iff {s : State} {t : Nat} {x : Int} : badTarget (textLimit s t) x = true ↔ ¬GoodTarget s t x := by
  simp only [badTarget, GoodTarget, Bool.or_eq_true, decide_eq_true_eq, bne_iff_ne, Int.dvd_iff_emod_eq_zero]
  omega

/-- The lanes of `m` with a bad target. -/
def badLanes (s : State) (t : Nat) (m : Mask) (f : Nat → Int) : Mask :=
  maskOf fun l => hasLane m l && badTarget (textLimit s t) (f l)

theorem hasLane_badLanes {s : State} {t : Nat} {m : Mask} {f : Nat → Int} {l : Nat} :
    hasLane (badLanes s t m f) l = true ↔ hasLane m l = true ∧ ¬GoodTarget s t (f l) := by
  rw [badLanes, hasLane_maskOf, Bool.and_eq_true, Bool.and_eq_true, decide_eq_true_eq, badTarget_iff]
  exact ⟨fun h => h.2, fun h => ⟨lt_of_hasLane h.1, h⟩⟩

theorem ne_zero_of_hasLane {m : Mask} {l : Nat} (h : hasLane m l = true) : m ≠ 0 := fun hz => by
  rw [hz] at h
  simp [hasLane] at h

theorem exists_hasLane {m : Mask} (h : m ≠ 0) : ∃ l, hasLane m l = true := ⟨_, (lowLane_spec h).1⟩

section
variable {s : State} {c : Ctx} {m : Mask} {f : Nat → Int}

theorem targetTrap_pass (h : ∀ l, hasLane m l = true → GoodTarget s c.t (f l)) : targetTrap s c m f = none := by
  refine if_pos (maskOf_eq_zero.2 fun l _ => ?_)
  cases hl : hasLane m l with
  | true => exact Bool.eq_false_iff.2 fun hbad => badTarget_iff.1 hbad (h l hl)
  | false => rfl

theorem targetTrap_bad (h : ∃ l, hasLane m l = true ∧ ¬GoodTarget s c.t (f l)) : targetTrap s c m f =
    some (c.trapInfo 0x01 (badLanes s c.t m f) ((BitVec.ofInt 32 (f (lowLane (badLanes s c.t m f)))).setWidth 64)) := by
  obtain ⟨l, hl⟩ := h
  exact if_neg (ne_zero_of_hasLane (hasLane_badLanes.2 hl))

end

/-! ### The statement -/

section
variable {i : Instr} {s : State} {c : Ctx} {f : Nat → Int}
  (hexec : exec i s = .next (finish c (branch f c s.begun)))
include hexec

theorem branch_goes (hgood : ∀ l, hasLane c.act l = true → GoodTarget s c.t (f l)) : ∃ t, exec i s = .next t ∧
    ThreadsGo c (fun l th => th.goTo c.hdr (BitVec.ofInt 32 (f l)) c.pc) s t := by
  refine ⟨_, ?_, threadsGo_ctl c s _⟩
  rw [hexec, branch, targetTrap_pass (s := s.begun) hgood]
  rfl

theorem branch_traps (hbad : ∃ l, hasLane c.act l = true ∧ ¬GoodTarget s c.t (f l)) :
    ∃ x, exec i s = .next (takeTrap s.begun c.t x) ∧ x.code = 0x01 ∧ x.pc = c.pc ∧ x.bundle = c.mask ∧ x.skip = 0 ∧
      (∀ l, hasLane x.mask l = true ↔ hasLane c.act l = true ∧ ¬GoodTarget s c.t (f l)) ∧
      ∃ l, hasLane x.mask l = true ∧ (∀ j, hasLane x.mask j = true → l ≤ j) ∧ x.val = (BitVec.ofInt 32 (f l)).setWidth 64 := by
  have hne : badLanes s c.t c.act f ≠ 0 := by
    obtain ⟨l, hl⟩ := hbad
    exact ne_zero_of_hasLane (hasLane_badLanes.2 hl)
  obtain ⟨hlow, hleast⟩ := lowLane_spec hne
  refine ⟨c.trapInfo 0x01 (badLanes s c.t c.act f) ((BitVec.ofInt 32 (f (lowLane (badLanes s c.t c.act f)))).setWidth 64), ?_,
    rfl, rfl, rfl, rfl, fun l => hasLane_badLanes, _, hlow, hleast, rfl⟩
  rw [hexec, branch, targetTrap_bad (s := s.begun) hbad]
  rfl

end

/-- Settles O13: both branch on a target for each lane, and the lanes with a bad one trap before any thread moves. -/
theorem branches : Obligations.Branches := by
  unfold Obligations.Branches
  intro h k a s c text good goes
  have hgood (x : Int) : good x ↔ GoodTarget s c.t x := by rw [GoodTarget, textLimit_cast]
  have hgoes {i : Instr} {f : Nat → Int} (hexec : Issues i s c → exec i s = .next (finish c (branch f c s.begun))) : goes i f := by
    intro hi
    simp only [hgood]
    exact ⟨branch_goes (hexec hi), branch_traps (hexec hi)⟩
  exact ⟨hgoes fun hi => by rw [exec_bra, execBra, issue_next hi]; rfl, hgoes fun hi => by rw [exec_brx, execBrx, issue_next hi]; rfl⟩

end Sys2Proof.Machine
end

section
/-! SUPPORT. FENCE and WAITC (R238, R244, R314, R415), and the statement on them. -/

namespace Sys2Proof.Machine

open Sys2Proof

/-! ### Lanes that place their threads one after another -/

/-- Of the whole state only the places of troupe `u`'s threads differ. -/
structure OnlyThreads (u : Nat) (s t : State) : Prop where
  rest   : { t with troupes := s.troupes } = s
  others : ∀ v, v ≠ u → t.troupe v = s.troupe v
  troupe : { t.troupe u with threads := (s.troupe u).threads } = s.troupe u

theorem OnlyThreads.refl (u : Nat) (s : State) : OnlyThreads u s s := ⟨rfl, fun _ _ => rfl, rfl⟩

theorem OnlyThreads.trans {u : Nat} {s t z : State} (h : OnlyThreads u s t) (k : OnlyThreads u t z) : OnlyThreads u s z where
  rest := (congrArg (fun x : State => { x with troupes := s.troupes }) k.rest :).trans h.rest
  others v hv := (k.others v hv).trans (h.others v hv)
  troupe := (congrArg (fun x : Troupe => { x with threads := (s.troupe u).threads }) k.troupe :).trans h.troupe

theorem onlyThreads_mapLanes (u : Nat) (s : State) (m : Mask) (f : Nat → Thread → Thread) : OnlyThreads u s (s.mapLanes u m f) :=
  ⟨rfl, fun _ hv => State.troupe_mapLanes_ne _ _ _ hv, troupe_mapLanes_rest _ _ _ _⟩

theorem onlyThreads_setThread (u : Nat) (s : State) (l : Nat) (x : Thread) : OnlyThreads u s (s.setThread u l x) where
  rest := rfl
  others v hv := State.troupe_setThread_ne _ _ _ hv
  troupe := by rw [State.troupe_setThread_self]; rfl

section
variable {u : Nat} {f : State → Nat → State} {g : Nat → Thread → Thread} {s : State}
  (hstep : ∀ z l, OnlyThreads u s z → z.thread u l = s.thread u l → l < 32 → OnlyThreads u z (f z l) ∧
    ∀ j, (f z l).thread u j = if j = l then g l (z.thread u l) else z.thread u j)
include hstep

/-- Each lane of a list has its thread placed as `g` says, from what `s` holds. -/
theorem onlyThreads_foldl (ls : List Nat) (hn : ls.Nodup) (hlt : ∀ l ∈ ls, l < 32) (z : State) (hz : OnlyThreads u s z)
    (hls : ∀ l ∈ ls, z.thread u l = s.thread u l) : OnlyThreads u s (ls.foldl f z) ∧
      ∀ j, (ls.foldl f z).thread u j = if j ∈ ls then g j (s.thread u j) else z.thread u j := by
  induction ls generalizing z with
  | nil => exact ⟨hz, fun j => (if_neg List.not_mem_nil).symm⟩
  | cons a r ih =>
    obtain ⟨ha, hr⟩ := List.nodup_cons.1 hn
    have haz := hls a List.mem_cons_self
    obtain ⟨hone, hthread⟩ := hstep z a hz haz (hlt a List.mem_cons_self)
    obtain ⟨hrest, hothers⟩ := ih hr (fun l hl => hlt l (List.mem_cons_of_mem _ hl)) (f z a) (hz.trans hone) fun l hl => by
      have hla : l ≠ a := fun he => ha (he ▸ hl)
      rw [hthread, if_neg hla]
      exact hls l (List.mem_cons_of_mem _ hl)
    refine ⟨hrest, fun j => ?_⟩
    rw [List.foldl_cons, hothers, hthread]
    by_cases hj : j ∈ r
    · rw [if_pos hj, if_pos (List.mem_cons_of_mem _ hj)]
    · by_cases hja : j = a
      · rw [if_neg hj, if_pos hja, hja, if_pos List.mem_cons_self, haz]
      · rw [if_neg hj, if_neg hja, if_neg fun h => (List.mem_cons.1 h).elim hja hj]

end

/-- The end of an instruction whose lanes have placed their threads. -/
theorem threadsGo_foldl {c : Ctx} {f : State → Nat → State} {g : Nat → Thread → Thread} {s : State}
    (hstep : ∀ z l, OnlyThreads c.t s.begun z → z.thread c.t l = s.thread c.t l → l < 32 → OnlyThreads c.t z (f z l) ∧
      ∀ j, (f z l).thread c.t j = if j = l then g l (z.thread c.t l) else z.thread c.t j) :
    ThreadsGo c g s (finish c (.ctl ((lanes c.act).foldl f s.begun))) := by
  obtain ⟨hrest, hthread⟩ := onlyThreads_foldl hstep (lanes c.act) (lanes_nodup _) (fun l => lanes_lt) s.begun (.refl _ _)
    fun _ _ => rfl
  refine .of_mapLanes ⟨?_, hrest.others, fun x => ?_⟩ hrest.troupe fun l => ?_
  · exact (congrArg (fun x : State => { x with picks := s.picks, nextId := s.nextId }) hrest.rest :)
  · exact congrArg (Memory.byte · x) (congrArg State.mem hrest.rest :)
  · have hbegun : s.begun.thread c.t l = s.thread c.t l := rfl
    rw [hthread, hasLane_diff, hbegun]
    simp only [mem_lanes]
    cases hl : hasLane c.act l with
    | true => rw [Bool.not_true, Bool.and_false, if_neg Bool.false_ne_true, if_pos rfl, if_pos rfl]
    | false => rw [Bool.not_false, Bool.and_true, if_neg Bool.false_ne_true, if_neg Bool.false_ne_true]

/-! ### FENCE (R238, R314) -/

section
variable (s : State) (t l : Nat) (k : FenceKind) (sc : Scope) (i : Nat)

/-- `i` is a store that a FENCE of kind `k` of the lane orders. -/
def FenceStore : Prop :=
  ∃ a ∈ s.accs, a.id = i ∧ a.isStore = true ∧ (if k = .rel then a.who.ofTroupe t else a.who.ofLane t l) = true

theorem mem_accsOfLane {p : Access → Bool} : i ∈ ((accsOfLane s t l).filter p).map Access.id ↔
    ∃ a ∈ s.accs, a.id = i ∧ a.who.ofLane t l = true ∧ p a = true := by
  simp only [accsOfLane, List.mem_map, List.mem_filter]
  exact ⟨fun ⟨a, ⟨⟨ha, hw⟩, hp⟩, hi⟩ => ⟨a, ha, hi, hw, hp⟩,
    fun ⟨a, ha, hi, hw, hp⟩ => ⟨a, ⟨⟨ha, hw⟩, hp⟩, hi⟩⟩

theorem mem_storeIds : i ∈ storeIds s t ↔ ∃ a ∈ s.accs, a.id = i ∧ a.isStore = true ∧ a.who.ofTroupe t = true := by
  simp only [storeIds, storeQueue, List.mem_map, List.mem_filter, Bool.and_eq_true]
  exact ⟨fun ⟨a, ⟨ha, hw⟩, hi⟩ => ⟨a, ha, hi, hw⟩, fun ⟨a, ha, hi, hw⟩ => ⟨a, ⟨ha, hw⟩, hi⟩⟩

theorem mem_updsOfLane : i ∈ updsOfLane s t l ↔ ∃ v ∈ s.upds, v.id = i ∧ v.ofLane t l = true := by
  simp only [updsOfLane, List.mem_map, List.mem_filter]
  exact ⟨fun ⟨v, ⟨hv, hw⟩, hi⟩ => ⟨v, hv, hi, hw⟩, fun ⟨v, hv, hi, hw⟩ => ⟨v, ⟨hv, hw⟩, hi⟩⟩

/-- What a FENCE at die scope or wider waits for of the stores that its loads took (R314). -/
def fenceTook : List Nat := if scopeOuter sc then (s.thread t l).took.filter fun i => !accDone s i else []

theorem mem_fenceTook : i ∈ fenceTook s t l sc ↔ scopeOuter sc = true ∧ i ∈ (s.thread t l).took ∧ accDone s i = false := by
  unfold fenceTook
  split <;> rename_i hsc
  · rw [List.mem_filter, Bool.not_eq_true', and_iff_right hsc]
  · exact iff_of_false List.not_mem_nil fun h => hsc h.1

theorem fenceStore_rel : FenceStore s t l .rel i ↔ i ∈ storeIds s t := by
  simp only [FenceStore, mem_storeIds, if_true]

theorem fenceStore_own (hk : k ≠ .rel) : FenceStore s t l k i ↔ i ∈ ((accsOfLane s t l).filter fun a => a.isStore).map Access.id := by
  simp only [FenceStore, mem_accsOfLane, if_neg hk]
  exact exists_congr fun a => and_congr_right fun _ => and_congr_right fun _ => and_comm

/-- What a FENCE waits for until it is complete or performed. -/
theorem mem_fenceWait : i ∈ (fenceWait s t l k sc).1 ↔
    (∃ a ∈ s.accs, a.id = i ∧ a.who.ofLane t l = true ∧ (a.returns = true ∨ k = .rel)) ∨
    ((k = .rel ∨ k = .full ∧ scopeOuter sc = true) ∧
      (FenceStore s t l k i ∨ ∃ v ∈ s.upds, v.id = i ∧ v.ofLane t l = true)) ∨
    (scopeOuter sc = true ∧ k ≠ .acq ∧ i ∈ (s.thread t l).took ∧ accDone s i = false) := by
  have hloads : i ∈ ((accsOfLane s t l).filter Access.returns).map Access.id ↔
      ∃ a ∈ s.accs, a.id = i ∧ a.who.ofLane t l = true ∧ a.returns = true := mem_accsOfLane s t l i
  cases k with
  | acq => simp [fenceWait, hloads]
  | rel =>
    have hown : i ∈ (accsOfLane s t l).map Access.id ↔ ∃ a ∈ s.accs, a.id = i ∧ a.who.ofLane t l = true := by
      simpa using mem_accsOfLane s t l i (p := fun _ => true)
    rw [show (fenceWait s t l .rel sc).1 = (accsOfLane s t l).map Access.id ++ storeIds s t ++ updsOfLane s t l ++
      fenceTook s t l sc from by cases sc <;> rfl]
    simp only [List.mem_append, hown, mem_updsOfLane, mem_fenceTook, fenceStore_rel, or_true, and_true, true_or, true_and, or_assoc,
      ne_eq, reduceCtorEq, not_false_eq_true]
  | full =>
    have hstore := fenceStore_own s t l .full i (by decide)
    cases sc with
    | troupe => simp [fenceWait, hloads, scopeOuter]
    | stage => simp [fenceWait, hloads, scopeOuter]
    | _ =>
      rw [show (fenceWait s t l .full _).1 = ((accsOfLane s t l).filter Access.returns).map Access.id ++
        ((accsOfLane s t l).filter fun a => a.isStore).map Access.id ++ updsOfLane s t l ++ fenceTook s t l .die from rfl]
      simp only [List.mem_append, hloads, hstore, mem_updsOfLane, mem_fenceTook, scopeOuter, or_assoc, reduceCtorEq, or_false,
        false_or, and_self, true_and, ne_eq, not_false_eq_true]

/-- What it waits for until it stands in the stage store buffer. -/
theorem mem_fenceWait_pub : i ∈ (fenceWait s t l k sc).2 ↔ k = .full ∧ sc = .stage ∧ FenceStore s t l k i := by
  cases k with
  | acq => exact iff_of_false List.not_mem_nil nofun
  | rel => exact iff_of_false List.not_mem_nil nofun
  | full =>
    cases sc with
    | stage =>
      rw [fenceStore_own s t l .full i (by decide)]
      exact ⟨fun h => ⟨rfl, rfl, h⟩, fun h => h.2.2⟩
    | _ => exact iff_of_false List.not_mem_nil nofun

end

/-- Where a FENCE leaves the thread of lane `l`, `w` being what it waits for. -/
def fencePlace (c : Ctx) (w : List Nat × List Nat) (th : Thread) : Thread :=
  if w.1 = [] ∧ w.2 = [] then th.advance c.hdr else { th.advance c.hdr with st := .stalled, wait := .drain w.1 w.2 }

theorem fenceWait_onlyThreads {s z : State} {t l : Nat} (h : OnlyThreads t s z) (hth : z.thread t l = s.thread t l) (k : FenceKind)
    (sc : Scope) : fenceWait z t l k sc = fenceWait s t l k sc := by
  have haccs : z.accs = s.accs := (congrArg State.accs h.rest :)
  have hupds : z.upds = s.upds := (congrArg State.upds h.rest :)
  simp only [fenceWait, accsOfLane, storeIds, storeQueue, updsOfLane, accDone, accById, haccs, hupds, hth]

theorem fenceLane_places {c : Ctx} {z : State} {l : Nat} (hl : l < 32) (k : FenceKind) (sc : Scope) :
    OnlyThreads c.t z (fenceLane z c k sc l) ∧ ∀ j, (fenceLane z c k sc l).thread c.t j =
      if j = l then fencePlace c (fenceWait z c.t l k sc) (z.thread c.t l) else z.thread c.t j := by
  have hgoes (j : Nat) : (advanceLanes z c (laneBit l)).thread c.t j =
      if j = l then (z.thread c.t j).advance c.hdr else z.thread c.t j := by
    rw [thread_advanceLanes, hasLane_laneBit hl]
    exact if_congr decide_eq_true_iff rfl rfl
  have hrest : OnlyThreads c.t z (advanceLanes z c (laneBit l)) := onlyThreads_mapLanes _ _ _ _
  unfold fenceLane fencePlace
  dsimp only
  by_cases hw : (fenceWait z c.t l k sc).1 = [] ∧ (fenceWait z c.t l k sc).2 = []
  · rw [if_pos (by simpa using hw), if_pos hw]
    refine ⟨hrest, fun j => ?_⟩
    rw [hgoes]
    split
    · rename_i hj
      rw [hj]
    · rfl
  · rw [if_neg (by simpa using hw), if_neg hw]
    refine ⟨hrest.trans (onlyThreads_setThread _ _ _ _), fun j => ?_⟩
    rw [State.thread, State.troupe_setThread_self, Troupe.thread_setThread]
    by_cases hj : j = l
    · rw [if_pos hj, if_pos hj, hgoes, if_pos rfl]
    · rw [if_neg hj, if_neg hj]
      exact (hgoes j).trans (if_neg hj)

/-- What a FENCE waits for does not depend on the RO cache. -/
theorem fenceLane_dropRo (z : State) (st : Nat) (c : Ctx) (k : FenceKind) (sc : Scope) (l : Nat) :
    fenceLane (dropRo z st) c k sc l = dropRo (fenceLane z c k sc l) st := by
  have hwait : fenceWait (dropRo z st) c.t l k sc = fenceWait z c.t l k sc := rfl
  unfold fenceLane
  dsimp only
  rw [hwait]
  split <;> rfl

theorem foldl_fenceLane_dropRo (st : Nat) (c : Ctx) (k : FenceKind) (sc : Scope) (ls : List Nat) (z : State) :
    ls.foldl (fun z l => fenceLane z c k sc l) (dropRo z st) = dropRo (ls.foldl (fun z l => fenceLane z c k sc l) z) st := by
  induction ls generalizing z with
  | nil => rfl
  | cons l r ih => rw [List.foldl_cons, List.foldl_cons, fenceLane_dropRo, ih]

theorem exec_fence_eq {h : Hdr} {k : FenceKind} {sc : Scope} {s : State} {c : Ctx} (hi : Issues (.fence h k sc) s c) :
    let u := finish c (.ctl ((lanes c.act).foldl (fun z l => fenceLane z c k sc l) s.begun))
    exec (.fence h k sc) s = .next (if k != .rel && scopeOuter sc && c.act != 0 then dropRo u (s.troupe c.t).stage else u) := by
  intro u
  have hidle : (!c.idle) = (c.act != 0) := rfl
  rw [exec_fence, execFence, issue_next hi, hidle]
  dsimp only
  split
  · rw [foldl_fenceLane_dropRo]
    rfl
  · rfl

/-! ### WAITC (R244, R415) -/

section
variable {h : Hdr} {cls : Eng} {n : Fin 64} {s : State} {c : Ctx} (hi : Issues (.waitc h cls n) s c)
include hi

/-- Where no translation fault is to be reported, the threads go on, and stall where the counter stands above n. -/
theorem waitc_goes (hfree : c.act = 0 ∨ cls ≠ .copy ∨ (s.troupe c.t).xfaults = []) : ∃ t, exec (.waitc h cls n) s = .next t ∧
    ThreadsGo c (fun _ th => if (s.troupe c.t).counter cls ≤ n.val then th.advance c.hdr
      else { th.advance c.hdr with st := .stalled, wait := .counter cls n.val }) s t := by
  have hend : exec (.waitc h cls n) s = .next (finish c (
      if (s.troupe c.t).counter cls ≤ n.val then .ctl (advanceLanes s.begun c c.act)
      else .ctl ((advanceLanes s.begun c c.act).mapLanes c.t c.act fun _ th =>
        { th with st := .stalled, wait := .counter cls n.val }))) := by
    rw [exec_waitc, execWaitc, issue_next hi]
    dsimp only
    split
    · rename_i hidle hfaults
      obtain hact | hcls | hnone := hfree
      · exact absurd hact fun hz => by rw [Ctx.idle, hz] at hidle; cases hidle
      · exact absurd rfl hcls
      · rw [show (s.begun.troupe c.t).xfaults = [] from hnone] at hfaults
        cases hfaults
    · rfl
  rw [hend]
  split
  · exact ⟨_, rfl, threadsGo_ctl c s _⟩
  · refine ⟨_, rfl, .of_mapLanes (onlyTroupe_mapLanes (onlyTroupe_mapLanes (onlyTroupe_begun _ _) _ _) _ _) ?_ fun l => ?_⟩
    · exact (congrArg (fun x : Troupe => { x with threads := (s.troupe c.t).threads }) (troupe_mapLanes_rest _ _ _ _) :).trans
        (troupe_mapLanes_rest _ _ _ _)
    · have hbegun : s.begun.thread c.t l = s.thread c.t l := rfl
      rw [thread_mapLanes, thread_advanceLanes, hasLane_diff, hbegun]
      cases hl : hasLane c.act l with
      | true => rw [Bool.not_true, Bool.and_false, if_neg Bool.false_ne_true, if_pos rfl, if_pos rfl, if_pos rfl]
      | false => rw [Bool.not_false, Bool.and_true, if_neg Bool.false_ne_true, if_neg Bool.false_ne_true, if_neg Bool.false_ne_true]

/-- A recorded translation fault is trapped first, and recorded no more. -/
theorem waitc_traps {x : Dword} {r : List Dword} (hact : c.act ≠ 0) (hcls : cls = .copy) (hfaults : (s.troupe c.t).xfaults = x :: r) :
    exec (.waitc h cls n) s = .next (takeTrap (s.begun.setTroupe c.t { s.troupe c.t with xfaults := r }) c.t
      (c.trapInfo 0x1A c.act x)) := by
  subst hcls
  rw [exec_waitc, execWaitc, issue_next hi, Ctx.not_idle hact]
  dsimp only
  rw [show (s.begun.troupe c.t).xfaults = x :: r from hfaults]
  rfl

end

/-- Settles O17: each lane is placed from what stood before the instruction, and dropping the RO cache commutes with that. -/
theorem fencesAndCounterWaits : Obligations.FencesAndCounterWaits := by
  unfold Obligations.FencesAndCounterWaits
  refine ⟨?_, fun h cls n s c hi => ⟨waitc_goes hi, fun x r hact hcls hfaults => ?_⟩⟩
  · intro h k sc s c hi store wide
    refine ⟨_, fun l => (fenceWait s c.t l k sc).1, fun l => (fenceWait s c.t l k sc).2, (mem_fenceWait s c.t · k sc),
      (mem_fenceWait_pub s c.t · k sc), threadsGo_foldl fun z l hz hth hl => ?_, exec_fence_eq hi⟩
    obtain ⟨hrest, hthread⟩ := fenceLane_places (c := c) (z := z) hl k sc
    rw [fenceWait_onlyThreads (s := s.begun) hz hth] at hthread
    exact ⟨hrest, hthread⟩
  · exact ⟨_, waitc_traps hi hact hcls hfaults, rfl, rfl, rfl, rfl, rfl, rfl⟩

end Sys2Proof.Machine
end

section
/-! SUPPORT. CALL, CALLX and RET: the return stack, its spills and read-backs, and their traps (R62, R253, R254, R262), and the
statement on them. -/

namespace Sys2Proof.Machine

open Sys2Proof

/-! ### Lanes that stall, and those that go (R262) -/

/-- The lanes of Active whose read-back is not outstanding. -/
def goingLanes (s : State) (c : Ctx) : Mask := c.act &&& ~~~readbackLanes s c c.act

/-- The lane issues and goes. -/
def Going (s : State) (c : Ctx) (l : Nat) : Prop := hasLane c.act l = true ∧ (s.thread c.t l).readback = false

theorem hasLane_readbackLanes {s : State} {c : Ctx} (l : Nat) :
    hasLane (readbackLanes s c c.act) l = (hasLane c.act l && (s.thread c.t l).readback) := by
  rw [readbackLanes, hasLane_maskOf]
  cases hl : hasLane c.act l with
  | true => rw [decide_eq_true (lt_of_hasLane hl), Bool.true_and]
  | false => rw [Bool.false_and, Bool.and_false]

theorem hasLane_goingLanes {s : State} {c : Ctx} (l : Nat) :
    hasLane (goingLanes s c) l = (hasLane c.act l && !(s.thread c.t l).readback) := by
  rw [goingLanes, hasLane_diff, hasLane_readbackLanes]
  cases hasLane c.act l <;> rfl

theorem going_iff {s : State} {c : Ctx} {l : Nat} : hasLane (goingLanes s c) l = true ↔ Going s c l := by
  rw [hasLane_goingLanes, Bool.and_eq_true, Bool.not_eq_true', Going]

theorem lanes_goingLanes (s : State) (c : Ctx) : lanes (goingLanes s c) = (lanes c.act).filter fun l => !(s.thread c.t l).readback := by
  rw [lanes, lanes, List.filter_filter]
  exact List.filter_congr fun l _ => (hasLane_goingLanes l).trans (Bool.and_comm _ _)

/-- What a lane of the list enters where `p` holds. -/
theorem flatMap_ite_singleton {α β : Type} (p : α → Bool) (f : α → β) (xs : List α) :
    xs.flatMap (fun x => if p x then [f x] else []) = (xs.filter p).map f := by
  induction xs with
  | nil => rfl
  | cons x r ih =>
    rw [List.flatMap_cons, ih, List.filter_cons]
    split <;> rfl

/-- The trap of lanes that fail a check, its value that of the lowest of them. -/
theorem traps_of_mask {i : Instr} {s u : State} {c : Ctx} {code : Nat} {bad : Mask} {v : Nat → Dword} {P : Nat → Prop}
    (hbad : ∀ l, hasLane bad l = true ↔ P l) (hP : ∃ l, P l)
    (hexec : exec i s = .next (finish c (.trap u (c.trapInfo code bad (v (lowLane bad)))))) :
    ∃ x, exec i s = .next (takeTrap u c.t x) ∧ x.reason = 0 ∧ x.code = code ∧ x.pc = c.pc ∧ x.bundle = c.mask ∧ x.skip = 0 ∧
      (∀ l, hasLane x.mask l = true ↔ P l) ∧
      ∃ l, hasLane x.mask l = true ∧ (∀ j, hasLane x.mask j = true → l ≤ j) ∧ x.val = v l := by
  obtain ⟨l, hl⟩ := hP
  obtain ⟨hlow, hleast⟩ := lowLane_spec (ne_zero_of_hasLane ((hbad l).2 hl))
  exact ⟨_, hexec, rfl, rfl, rfl, rfl, rfl, hbad, _, hlow, hleast, rfl⟩

/-- How CALL and RET end: the lanes `m` that go have their threads moved by `g`, those with a read-back outstanding stall. -/
theorem thread_finish_going {c : Ctx} {s z : State} {g : Nat → Thread → Thread}
    (hz : ∀ l, ¬Going s c l → z.thread c.t l = s.thread c.t l) (l : Nat) :
    (finish c (.part (z.mapLanes c.t (goingLanes s c) g) (readbackLanes s c c.act) .readback)).thread c.t l =
      if hasLane c.act l then
        (if (s.thread c.t l).readback then { s.thread c.t l with st := .stalled, wait := .readback } else g l (z.thread c.t l))
      else if hasLane c.mask l then (s.thread c.t l).advance c.hdr else s.thread c.t l := by
  rw [thread_finish_part, thread_mapLanes, hasLane_readbackLanes, hasLane_goingLanes]
  cases hl : hasLane c.act l with
  | true =>
    cases hr : (s.thread c.t l).readback with
    | true => simp [hz l fun h => by rw [h.2] at hr; cases hr]
    | false => simp
  | false => simp [hz l fun h => by rw [h.1] at hl; cases hl]

/-! ### A push (R62) -/

/-- PC + 12 pushed on a thread's return stack; a fifth on-chip entry sends the oldest one to the troupe stack. -/
def Thread.pushed (c : Ctx) (th : Thread) : Thread :=
  { th with
    rstack := if 4 ≤ th.rstack.length then th.rstack.tail ++ [c.pc + 12] else th.rstack ++ [c.pc + 12]
    spills := if 4 ≤ th.rstack.length then th.spills + 1 else th.spills }

/-- The access of lane `l` to byte `b` below the end of its stack area, for its return stack. -/
def spillAccess (s : State) (c : Ctx) (op : AOp) (st : Bool) (data : Dword) (b l : Nat) : Access :=
  let x := stackAddr ((s.runOf c.t).stack - b)
  { Access.make (.thread c.t l) op x (physOf s c.t l x) 8 with data := data, isStore := st, spill := true }

theorem spillAccess_sameSpace {s t : State} (h : SameSpace s t) (c : Ctx) (op : AOp) (st : Bool) (data : Dword) (b l : Nat) :
    spillAccess t c op st data b l = spillAccess s c op st data b l := by
  have hstack : (t.runOf c.t).stack = (s.runOf c.t).stack := (congrArg Run.stack (h.runOf c.t) :)
  simp only [spillAccess, hstack, h.physOf]

/-- What the push of a lane spills. -/
def pushSpill (s : State) (c : Ctx) (l : Nat) : Access :=
  spillAccess s c .store true (((s.thread c.t l).rstack.headD 0).setWidth 64) (8 * ((s.thread c.t l).spills + 1)) l

theorem laneEnters_pushLane (z : State) (c : Ctx) (l : Nat) :
    LaneEnters c l (if decide (4 ≤ (z.thread c.t l).rstack.length) then [pushSpill z c l] else []) []
      (fun th _ th' => th' = th.pushed c) z (pushLane z c l) := by
  unfold pushLane
  dsimp only
  by_cases hfull : 4 ≤ (z.thread c.t l).rstack.length
  · have hspills : spillsNext (z.thread c.t l) = true := decide_eq_true hfull
    rw [hspills, if_pos rfl, if_pos (decide_eq_true hfull)]
    refine (laneEnters_enterAcc c l z [l] (pushSpill z c l)).setThread _ ?_
    rw [Thread.pushed, if_pos hfull, if_pos hfull]
  · have hspills : spillsNext (z.thread c.t l) = false := decide_eq_false hfull
    rw [hspills, if_neg Bool.false_ne_true, if_neg (by rwa [decide_eq_true_eq])]
    refine (LaneEnters.refl c l z).setThread _ ?_
    rw [Thread.pushed, if_neg hfull, if_neg hfull]

/-- The lanes whose push spills. -/
def spillingLanes (s : State) (c : Ctx) : List Nat :=
  (lanes c.act).filter fun l => !(s.thread c.t l).readback && decide (4 ≤ (s.thread c.t l).rstack.length)

theorem filter_goingLanes (s : State) (c : Ctx) (p : Nat → Bool) :
    (lanes (goingLanes s c)).filter p = (lanes c.act).filter fun l => !(s.thread c.t l).readback && p l := by
  rw [lanes_goingLanes, List.filter_filter]
  exact List.filter_congr fun l _ => Bool.and_comm _ _

theorem enteredBy_pushes (s : State) (c : Ctx) : EnteredBy c (lanes (goingLanes s c)) ((spillingLanes s c).map (pushSpill s c)) []
    (fun _ th _ th' => th' = th.pushed c) s ((lanes (goingLanes s c)).foldl (fun z l => pushLane z c l) s.begun) := by
  have h := enteredBy_foldl (O := fun _ _ => []) (fun z l _ => laneEnters_pushLane z c l) (fun z t l hs hth => ⟨?_, rfl⟩)
    (fun _ _ _ _ _ h => h) (ready_begun c s) (lanes (goingLanes s c)) (lanes_nodup _) fun l => lanes_lt
  · rwa [flatMap_ite_singleton, filter_goingLanes, List.flatMap_eq_nil_iff.2 fun _ _ => rfl] at h
  · rw [hth, pushSpill, hth, spillAccess_sameSpace hs, pushSpill]

/-! ### CALL and CALLX (R253) -/

/-- The push of the lane would pass the end of its stack area. -/
def LacksStack (s : State) (t l : Nat) : Prop :=
  4 ≤ (s.thread t l).rstack.length ∧ (s.runOf t).stack < 8 * ((s.thread t l).spills + 1)

/-- The lanes whose push overflows. -/
def overflowLanes (s : State) (c : Ctx) : Mask :=
  maskOf fun l => hasLane (goingLanes s c) l && pushOverflows (s.runOf c.t) (s.thread c.t l)

theorem hasLane_overflowLanes {s : State} {c : Ctx} {l : Nat} :
    hasLane (overflowLanes s c) l = true ↔ Going s c l ∧ LacksStack s c.t l := by
  rw [overflowLanes, hasLane_maskOf, Bool.and_eq_true, Bool.and_eq_true, decide_eq_true_eq, going_iff, pushOverflows, spillsNext,
    Bool.and_eq_true, decide_eq_true_eq, decide_eq_true_eq]
  exact ⟨fun h => h.2, fun h => ⟨lt_of_hasLane h.1.1, h⟩⟩

section
variable {i : Instr} {s : State} {c : Ctx} {f : Nat → Int} (hexec : exec i s = .next (finish c (call f c s.begun)))
include hexec

theorem call_badTarget (hbad : ∃ l, Going s c l ∧ ¬GoodTarget s c.t (f l)) :
    exec i s = .next (finish c (.trap s.begun (c.trapInfo 0x01 (badLanes s c.t (goingLanes s c) f)
      ((BitVec.ofInt 32 (f (lowLane (badLanes s c.t (goingLanes s c) f)))).setWidth 64)))) := by
  have htrap : targetTrap s.begun c (goingLanes s.begun c) f = _ :=
    targetTrap_bad (hbad.imp fun l hl => ⟨going_iff.2 hl.1, hl.2⟩)
  rw [goingLanes] at htrap
  rw [hexec, call]
  dsimp only
  rw [htrap]
  rfl

/-- Past the targets: STACKOVF, then room in the store queue, then the pushes. -/
theorem call_passes (hgood : ∀ l, Going s c l → GoodTarget s c.t (f l)) :
    exec i s = .next (finish c (
      if overflowLanes s c != 0 then .trap s.begun (c.trapInfo 0x21 (overflowLanes s c) c.pcVal)
      else if queueFree s c.t < (spillingLanes s c).length then .part s.begun c.act (.room (spillingLanes s c).length)
      else .part (goLanes ((lanes (goingLanes s c)).foldl (fun z l => pushLane z c l) s.begun) c (goingLanes s c) f)
        (readbackLanes s c c.act) .readback)) := by
  have hpass : targetTrap s.begun c (goingLanes s.begun c) f = none := targetTrap_pass fun l hl => hgood l (going_iff.1 hl)
  have hspilling : (lanes (goingLanes s c)).filter (fun l => spillsNext (s.thread c.t l)) = spillingLanes s c :=
    filter_goingLanes s c _
  rw [goingLanes] at hpass
  rw [hexec, call]
  dsimp only
  rw [hpass, ← hspilling]
  rfl

theorem call_overflows (hgood : ∀ l, Going s c l → GoodTarget s c.t (f l)) (hlacks : ∃ l, Going s c l ∧ LacksStack s c.t l) :
    exec i s = .next (finish c (.trap s.begun (c.trapInfo 0x21 (overflowLanes s c) c.pcVal))) := by
  obtain ⟨l, hl⟩ := hlacks
  rw [call_passes hexec hgood, if_pos (bne_iff_ne.2 (ne_zero_of_hasLane (hasLane_overflowLanes.2 hl)))]

variable (hgood : ∀ l, Going s c l → GoodTarget s c.t (f l) ∧ ¬LacksStack s c.t l)
include hgood

omit hexec in
theorem overflowLanes_none : (overflowLanes s c != 0) = false := by
  refine bne_eq_false_iff_eq.2 (by_contra fun hne => ?_)
  obtain ⟨l, hl⟩ := exists_hasLane hne
  obtain ⟨hgoing, hlacks⟩ := hasLane_overflowLanes.1 hl
  exact (hgood l hgoing).2 hlacks

/-- Where the store queue has no room for the spills, the lanes of Active stall. -/
theorem call_stalls (hroom : queueFree s c.t < (spillingLanes s c).length) : ∃ t, exec i s = .next t ∧
    ThreadsGo c (fun _ x => { x with st := .stalled, wait := .room (spillingLanes s c).length }) s t := by
  refine ⟨_, ?_, threadsGo_stalled c s _⟩
  rw [call_passes hexec fun l hl => (hgood l hl).1, overflowLanes_none hgood, if_neg Bool.false_ne_true, if_pos hroom]

/-- The pushes, and the moves to the targets. -/
theorem call_goes (hroom : (spillingLanes s c).length ≤ queueFree s c.t) : ∃ t, exec i s = .next t ∧
    Entered c ((spillingLanes s c).map (pushSpill s c)) [] s t ∧ ∀ l, t.thread c.t l =
      if hasLane c.act l then
        (if (s.thread c.t l).readback then { s.thread c.t l with st := .stalled, wait := .readback }
        else ((s.thread c.t l).pushed c).goTo c.hdr (BitVec.ofInt 32 (f l)) c.pc)
      else if hasLane c.mask l then (s.thread c.t l).advance c.hdr else s.thread c.t l := by
  have hdone := enteredBy_pushes s c
  have hgoes := call_passes hexec fun l hl => (hgood l hl).1
  rw [overflowLanes_none hgood, if_neg Bool.false_ne_true, if_neg (Nat.not_lt.2 hroom)] at hgoes
  refine ⟨_, hgoes, ((hdone.entered.mapLanes _ _).mapLanes _ _).mapLanes _ _, fun l => ?_⟩
  · refine (thread_finish_going (fun l hl => hdone.others l fun hm => hl (going_iff.1 (mem_lanes.1 hm))) l).trans ?_
    cases hl : hasLane c.act l with
    | true =>
      cases hr : (s.thread c.t l).readback with
      | true => rfl
      | false =>
        rw [if_pos rfl, if_pos rfl, if_neg Bool.false_ne_true, if_neg Bool.false_ne_true,
          hdone.each l (mem_lanes.2 (going_iff.2 ⟨hl, hr⟩))]
    | false => rfl

end

/-! ### RET (R254) -/

/-- The pop of the youngest entry empties the on-chip part, and spilled entries exist. -/
def Thread.emptied (th : Thread) : Bool := th.rstack.dropLast.isEmpty && th.spills != 0

/-- The youngest entry taken off; a read-back is outstanding where that empties the on-chip part. -/
def Thread.popped (th : Thread) : Thread :=
  { th with rstack := th.rstack.dropLast, readback := if th.emptied then true else th.readback }

/-- The read-back of a lane's last spilled entry. -/
def popRead (s : State) (c : Ctx) (l : Nat) : Access := spillAccess s c .load false 0 (8 * (s.thread c.t l).spills) l

theorem laneEnters_popLane (z : State) (c : Ctx) (l : Nat) :
    LaneEnters c l (if (z.thread c.t l).emptied then [popRead z c l] else []) [] (fun th _ th' => th' = th.popped) z (popLane z c l) := by
  have hemptied : ((z.thread c.t l).rstack.dropLast.isEmpty && (z.thread c.t l).spills != 0) = (z.thread c.t l).emptied := rfl
  unfold popLane
  dsimp only
  rw [hemptied]
  cases he : (z.thread c.t l).emptied with
  | true =>
    rw [if_pos rfl, if_pos rfl]
    refine (laneEnters_enterAcc c l z [l] (popRead z c l)).setThread _ ?_
    rw [Thread.popped, he, if_pos rfl]
  | false =>
    rw [if_neg Bool.false_ne_true, if_neg Bool.false_ne_true]
    refine (LaneEnters.refl c l z).setThread _ ?_
    rw [Thread.popped, he, if_neg Bool.false_ne_true]

/-- The lanes whose pop starts a read-back. -/
def readingLanes (s : State) (c : Ctx) : List Nat :=
  (lanes c.act).filter fun l => !(s.thread c.t l).readback && (s.thread c.t l).emptied

theorem enteredBy_pops (s : State) (c : Ctx) : EnteredBy c (lanes (goingLanes s c)) ((readingLanes s c).map (popRead s c)) []
    (fun _ th _ th' => th' = th.popped) s ((lanes (goingLanes s c)).foldl (fun z l => popLane z c l) s.begun) := by
  have h := enteredBy_foldl (O := fun _ _ => []) (fun z l _ => laneEnters_popLane z c l) (fun z t l hs hth => ⟨?_, rfl⟩)
    (fun _ _ _ _ _ h => h) (ready_begun c s) (lanes (goingLanes s c)) (lanes_nodup _) fun l => lanes_lt
  · rwa [flatMap_ite_singleton, filter_goingLanes, List.flatMap_eq_nil_iff.2 fun _ _ => rfl] at h
  · rw [hth, popRead, hth, spillAccess_sameSpace hs, popRead]

/-- The lanes without a return entry. -/
def entryless (s : State) (c : Ctx) : Mask := maskOf fun l => hasLane (goingLanes s c) l && (s.thread c.t l).rstack.isEmpty

theorem hasLane_entryless {s : State} {c : Ctx} {l : Nat} :
    hasLane (entryless s c) l = true ↔ Going s c l ∧ (s.thread c.t l).rstack = [] := by
  rw [entryless, hasLane_maskOf, Bool.and_eq_true, Bool.and_eq_true, decide_eq_true_eq, going_iff, List.isEmpty_iff]
  exact ⟨fun h => h.2, fun h => ⟨lt_of_hasLane h.1.1, h⟩⟩

/-- The youngest entry of a lane, as a target. -/
def returnTarget (s : State) (t l : Nat) : Int := ((s.thread t l).rstack.getLastD 0).toNat

section
variable {h : Hdr} {s : State} {c : Ctx} (hi : Issues (.ret h) s c)
include hi

theorem ret_entryless (hnone : ∃ l, Going s c l ∧ (s.thread c.t l).rstack = []) :
    exec (.ret h) s = .next (finish c (.trap s.begun (c.trapInfo 0x01 (entryless s c) c.pcVal))) := by
  obtain ⟨l, hl⟩ := hnone
  rw [exec_ret, execRet, issue_next hi]
  exact congrArg (fun r => Host.Outcome.next (finish c r)) (if_pos (bne_iff_ne.2 (ne_zero_of_hasLane (hasLane_entryless.2 hl))))

variable (hsome : ∀ l, Going s c l → (s.thread c.t l).rstack ≠ [])
include hsome

/-- Past the entries: the pops, then the targets. -/
theorem ret_passes : exec (.ret h) s = .next (finish c (
    match targetTrap s.begun c (goingLanes s c) (returnTarget s c.t) with
    | some x => .trap ((lanes (goingLanes s c)).foldl (fun z l => popLane z c l) s.begun) { x with val := c.pcVal }
    | none => .part (goLanes ((lanes (goingLanes s c)).foldl (fun z l => popLane z c l) s.begun) c (goingLanes s c) (returnTarget s c.t))
        (readbackLanes s c c.act) .readback)) := by
  have hnone : (entryless s c != 0) = false := by
    refine bne_eq_false_iff_eq.2 (by_contra fun hne => ?_)
    obtain ⟨l, hl⟩ := exists_hasLane hne
    obtain ⟨hgoing, hempty⟩ := hasLane_entryless.1 hl
    exact hsome l hgoing hempty
  rw [exec_ret, execRet, issue_next hi]
  exact congrArg (fun r => Host.Outcome.next (finish c r)) (if_neg (by rw [← Bool.not_eq_true] at hnone; exact hnone))

theorem ret_goes (hgood : ∀ l, Going s c l → GoodTarget s c.t (returnTarget s c.t l)) : ∃ t, exec (.ret h) s = .next t ∧
    Entered c ((readingLanes s c).map (popRead s c)) [] s t ∧ ∀ l, t.thread c.t l =
      if hasLane c.act l then
        (if (s.thread c.t l).readback then { s.thread c.t l with st := .stalled, wait := .readback }
        else (s.thread c.t l).popped.goTo c.hdr (BitVec.ofInt 32 (returnTarget s c.t l)) c.pc)
      else if hasLane c.mask l then (s.thread c.t l).advance c.hdr else s.thread c.t l := by
  have hdone := enteredBy_pops s c
  have hgoes := ret_passes hi hsome
  rw [targetTrap_pass (s := s.begun) fun l hl => hgood l (going_iff.1 hl)] at hgoes
  refine ⟨_, hgoes, ((hdone.entered.mapLanes _ _).mapLanes _ _).mapLanes _ _, fun l => ?_⟩
  · refine (thread_finish_going (fun l hl => hdone.others l fun hm => hl (going_iff.1 (mem_lanes.1 hm))) l).trans ?_
    cases hl : hasLane c.act l with
    | true =>
      cases hr : (s.thread c.t l).readback with
      | true => rfl
      | false =>
        rw [if_pos rfl, if_pos rfl, if_neg Bool.false_ne_true, if_neg Bool.false_ne_true,
          hdone.each l (mem_lanes.2 (going_iff.2 ⟨hl, hr⟩))]
    | false => rfl

theorem ret_badTarget (hbad : ∃ l, Going s c l ∧ ¬GoodTarget s c.t (returnTarget s c.t l)) :
    ∃ u x, exec (.ret h) s = .next (takeTrap u c.t x) ∧ Entered c ((readingLanes s c).map (popRead s c)) [] s u ∧
      (∀ l, u.thread c.t l = if hasLane c.act l = true ∧ (s.thread c.t l).readback = false then (s.thread c.t l).popped
        else s.thread c.t l) ∧
      x.reason = 0 ∧ x.code = 0x01 ∧ x.pc = c.pc ∧ x.bundle = c.mask ∧ x.skip = 0 ∧ x.val = c.pc.setWidth 64 ∧
      ∀ l, hasLane x.mask l = true ↔ Going s c l ∧ ¬GoodTarget s c.t (returnTarget s c.t l) := by
  have hdone := enteredBy_pops s c
  have htraps := ret_passes hi hsome
  rw [targetTrap_bad (s := s.begun) (hbad.imp fun l hl => ⟨going_iff.2 hl.1, hl.2⟩)] at htraps
  refine ⟨_, _, htraps, hdone.entered, fun l => ?_, rfl, rfl, rfl, rfl, rfl, rfl, fun l => ?_⟩
  · split
    case isTrue hgoing => exact hdone.each l (mem_lanes.2 (going_iff.2 hgoing))
    case isFalse hstays => exact hdone.others l fun hm => hstays (going_iff.1 (mem_lanes.1 hm))
  · exact hasLane_badLanes.trans (and_congr_left' going_iff)

end

theorem emptied_eq {th : Thread} (h : th.rstack ≠ []) : th.emptied = decide (th.rstack.length = 1 ∧ th.spills ≠ 0) := by
  have hlen : th.rstack.length ≠ 0 := fun hz => h (List.length_eq_zero_iff.1 hz)
  rw [Thread.emptied, Bool.eq_iff_iff, Bool.and_eq_true, List.isEmpty_iff_length_eq_zero, List.length_dropLast, bne_iff_ne,
    decide_eq_true_eq]
  exact and_congr_left' (by omega)

/-- A pop, in a lane whose read-back is not outstanding. -/
theorem popped_eq {th : Thread} (h : th.rstack ≠ []) (hr : th.readback = false) :
    th.popped = { th with rstack := th.rstack.dropLast, readback := decide (th.rstack.length = 1 ∧ th.spills ≠ 0) } := by
  rw [Thread.popped, emptied_eq h, hr]
  cases decide (th.rstack.length = 1 ∧ th.spills ≠ 0) <;> rfl

theorem readingLanes_eq {s : State} {c : Ctx} (h : ∀ l, Going s c l → (s.thread c.t l).rstack ≠ []) :
    readingLanes s c = (lanes c.act).filter fun l =>
      !(s.thread c.t l).readback && decide ((s.thread c.t l).rstack.length = 1 ∧ (s.thread c.t l).spills ≠ 0) := by
  refine List.filter_congr fun l hl => ?_
  cases hr : (s.thread c.t l).readback with
  | true => rfl
  | false => rw [emptied_eq (h l ⟨mem_lanes.1 hl, hr⟩)]

theorem toNat_returnTarget (s : State) (t l : Nat) :
    BitVec.ofInt 32 (returnTarget s t l) = (s.thread t l).rstack.getLastD 0 := by
  rw [returnTarget, BitVec.ofInt_natCast, BitVec.ofNat_toNat, BitVec.setWidth_eq]

/-- Settles O14: the lanes that go push or pop one after another, and the lanes that fail a check are named by its mask. -/
theorem callsAndReturns : Obligations.CallsAndReturns := by
  unfold Obligations.CallsAndReturns
  intro h k a s c text good th depth goes full lacks spill moves traps pcVal calls top empties reads
  have hgood (x : Int) : good x ↔ GoodTarget s c.t x := by rw [GoodTarget, textLimit_cast]
  have hcalls {i : Instr} {f : Nat → Int} (hexec : Issues i s c → exec i s = .next (finish c (call f c s.begun))) : calls i f := by
    intro hi
    simp only [hgood]
    refine ⟨fun hall hroom => ?_, call_stalls (hexec hi), fun hbad => ?_, fun hall hlacks => ?_⟩
    · obtain ⟨t, hnext, hentered, hthread⟩ := call_goes (hexec hi) hall hroom
      exact ⟨t, hnext, hentered, hthread⟩
    · exact traps_of_mask (fun l => hasLane_badLanes.trans (and_congr_left' going_iff)) hbad (call_badTarget (hexec hi) hbad)
    · exact traps_of_mask (v := pcVal) (fun l => hasLane_overflowLanes) hlacks (call_overflows (hexec hi) hall hlacks)
  refine ⟨hcalls fun hi => ?_, hcalls fun hi => ?_, fun hi => ⟨fun hall => ?_, fun hnone => ?_, fun hsome hbad => ?_⟩⟩
  · rw [exec_call, execCall, issue_next hi]
    rfl
  · rw [exec_callx, execCallx, issue_next hi]
    rfl
  · have hsome (l : Nat) (hl : Going s c l) := (hall l hl).1
    obtain ⟨t, hnext, hentered, hthread⟩ := ret_goes hi hsome fun l hl => (hgood _).1 (hall l hl).2
    rw [readingLanes_eq hsome] at hentered
    refine ⟨t, hnext, hentered, fun l => (hthread l).trans ?_⟩
    cases hl : hasLane c.act l with
    | false => rfl
    | true =>
      cases hr : (s.thread c.t l).readback with
      | true => rfl
      | false =>
        simp only [if_true, th, hr, if_neg Bool.false_ne_true, popped_eq (hsome l ⟨hl, hr⟩) hr, toNat_returnTarget]
        rfl
  · exact traps_of_mask (v := pcVal) (fun l => hasLane_entryless) hnone (ret_entryless hi hnone)
  · obtain ⟨u, x, hnext, hentered, hthread, htrap⟩ :=
      ret_badTarget hi hsome (hbad.imp fun l hl => ⟨hl.1, fun hg => hl.2 ((hgood _).2 hg)⟩)
    rw [readingLanes_eq hsome] at hentered
    simp only [hgood]
    refine ⟨u, x, hnext, hentered, fun l => (hthread l).trans ?_, htrap⟩
    split
    case isTrue hgoing => exact popped_eq (hsome l hgoing) hgoing.2
    case isFalse => rfl

end Sys2Proof.Machine
end

section
/-! SUPPORT. JINIT and JWAIT, and the traps of JARR, JWAIT and JARRW (R56, R246-R248). -/

namespace Sys2Proof.Machine

open Sys2Proof

/-! ### The traps of junctions (R248) -/

/-- The seat of the lane may not use the junction. -/
def Barred (s : State) (c : Ctx) (j l : Nat) : Prop :=
  (s.junction (companyKey c.t) j).isSet = false ∨
    ((s.junction (companyKey c.t) j).member = true ∧ seatOf c.t l ∉ (s.junction (companyKey c.t) j).members)

/-- The lanes of Active whose seat may not use the junction. -/
def barredLanes (s : State) (c : Ctx) (j : Nat) : Mask :=
  let x := s.junction (companyKey c.t) j
  maskOf fun l => hasLane c.act l && (!x.isSet || (x.member && !x.members.contains (seatOf c.t l)))

section
variable {s : State} {c : Ctx} {j : Nat}

theorem hasLane_barredLanes {l : Nat} : hasLane (barredLanes s c j) l = true ↔ hasLane c.act l = true ∧ Barred s c j l := by
  rw [barredLanes, hasLane_maskOf]
  simp only [Bool.and_eq_true, Bool.or_eq_true, decide_eq_true_eq, Bool.not_eq_true', List.contains_eq_mem, decide_eq_false_iff_not]
  exact ⟨fun h => h.2, fun h => ⟨lt_of_hasLane h.1, h⟩⟩

theorem junctionTrap_none (h : ∀ l, hasLane c.act l = true → ¬Barred s c j l) : junctionTrap s c j = none := by
  refine if_pos (by_contra fun hne => ?_)
  obtain ⟨l, hl⟩ := exists_hasLane hne
  obtain ⟨hact, hbarred⟩ := hasLane_barredLanes.1 hl
  exact h l hact hbarred

theorem junctionTrap_some (h : ∃ l, hasLane c.act l = true ∧ Barred s c j l) :
    junctionTrap s c j = some (c.trapInfo 0x22 (barredLanes s c j) c.pcVal) := by
  obtain ⟨l, hl⟩ := h
  exact if_neg (ne_zero_of_hasLane (hasLane_barredLanes.2 hl))

theorem mclostTrap_none (h : c.act = 0 ∨ (s.companyOf c.t).mclost = false) : mclostTrap s c = none := by
  refine if_neg fun hlost => ?_
  rw [Bool.and_eq_true, Ctx.idle, Bool.not_eq_true', beq_eq_false_iff_ne] at hlost
  obtain hz | hkept := h
  · exact hlost.1 hz
  · rw [hlost.2] at hkept
    cases hkept

theorem mclostTrap_some (hact : c.act ≠ 0) (hlost : (s.companyOf c.t).mclost = true) : mclostTrap s c =
    some (s.setCompany (companyKey c.t) { s.companyOf c.t with mclost := false }, c.trapInfo 0x40 c.act c.pcVal) := by
  refine if_pos ?_
  rw [Ctx.not_idle hact, hlost]
  rfl

end

section
variable {h : Hdr} {j : Fin 24} {d : Opd} {s : State} {c : Ctx}

/-- JARR, JWAIT and JARRW trap for the lanes whose seat may not use the junction, before all else. -/
theorem exec_barred {i : Instr} (hmem : i ∈ [Instr.jarr h j d, .jwait h j, .jarrw h j d]) (hi : Issues i s c)
    (hbad : ∃ l, hasLane c.act l = true ∧ Barred s c j.val l) :
    exec i s = .next (takeTrap s.begun c.t (c.trapInfo 0x22 (barredLanes s c j.val) c.pcVal)) := by
  have htrap : junctionTrap s.begun c j.val = some (c.trapInfo 0x22 (barredLanes s c j.val) c.pcVal) :=
    junctionTrap_some (s := s.begun) hbad
  simp only [List.mem_cons, List.not_mem_nil, or_false] at hmem
  obtain rfl | rfl | rfl := hmem
  · rw [exec_jarr, execJarr, issue_next hi, htrap]
    rfl
  · rw [exec_jwait, execJwait, issue_next hi, htrap]
    rfl
  · rw [exec_jarrw, execJarrw, issue_next hi, htrap]
    rfl

/-- JWAIT and JARRW trap a lost multicast delivery after that, and the trap clears the bit. -/
theorem exec_lost {i : Instr} (hmem : i ∈ [Instr.jwait h j, .jarrw h j d]) (hi : Issues i s c)
    (hgood : ∀ l, hasLane c.act l = true → ¬Barred s c j.val l) (hact : c.act ≠ 0) (hlost : (s.companyOf c.t).mclost = true) :
    exec i s = .next (takeTrap (s.begun.setCompany (companyKey c.t) { s.companyOf c.t with mclost := false }) c.t
      (c.trapInfo 0x40 c.act c.pcVal)) := by
  have hpass : junctionTrap s.begun c j.val = none := junctionTrap_none (s := s.begun) hgood
  have htrap := mclostTrap_some (s := s.begun) hact hlost
  simp only [List.mem_cons, List.not_mem_nil, or_false] at hmem
  obtain rfl | rfl := hmem
  · rw [exec_jwait, execJwait, issue_next hi, hpass, htrap]
    rfl
  · rw [exec_jarrw, execJarrw, issue_next hi, hpass, htrap]
    rfl

end

/-! ### JWAIT (R248) -/

/-- Where JWAIT leaves the thread of a lane. -/
def jwaitPlace (x : Junction) (c : Ctx) (j l : Nat) (th : Thread) : Thread :=
  if seatOf c.t l ∈ x.arrived then th.waitAt c.hdr .rz .n32 (.junction j false false) else th.advance c.hdr

/-- A lane whose thread is placed by `g`. -/
def placeLane (c : Ctx) (g : Nat → Thread → Thread) (z : State) (l : Nat) : State := z.mapLanes c.t (laneBit l) g

theorem placeLane_places {c : Ctx} {z : State} {l : Nat} (hl : l < 32) (g : Nat → Thread → Thread) :
    OnlyThreads c.t z (placeLane c g z l) ∧
      ∀ k, (placeLane c g z l).thread c.t k = if k = l then g l (z.thread c.t l) else z.thread c.t k := by
  refine ⟨onlyThreads_mapLanes _ _ _ _, fun k => ?_⟩
  rw [placeLane, thread_mapLanes, hasLane_laneBit hl]
  by_cases hk : k = l
  · rw [if_pos (decide_eq_true hk), if_pos hk, hk]
  · rw [if_neg (by simpa using hk), if_neg hk]

theorem terase_tinsert {V : Type} (m : Table V) (k : Nat) (v : V) : terase (tinsert m k v) k = terase m k := by
  induction m with
  | nil => exact if_pos rfl
  | cons x r ih =>
    obtain ⟨a, w⟩ := x
    unfold tinsert
    split
    · exact if_pos rfl
    · rw [terase, terase, ih]

theorem terase_terase {V : Type} (m : Table V) (k : Nat) : terase (terase m k) k = terase m k := by
  induction m with
  | nil => rfl
  | cons x r ih =>
    obtain ⟨a, w⟩ := x
    by_cases ha : a = k
    · rw [terase, if_pos ha, ih]
    · rw [terase, if_neg ha, terase, if_neg ha, ih]

/-- Of two writes at one key the later one counts. -/
theorem tput_tput {V : Type} (m : Table V) (k : Nat) (v w : V) : tput (tput m k v) k w = tput m k w := by
  rw [tput, tput, terase_tinsert, terase_terase, tput]

theorem dropRo_dropRo (z : State) (st : Nat) : dropRo (dropRo z st) st = dropRo z st := by
  rw [dropRo, dropRo, State.stage_setStage_self]
  exact congrArg (fun m => ({ z with stages := m } : State)) (tput_tput _ _ _ _)

theorem foldl_placeLane_dropRo (c : Ctx) (g : Nat → Thread → Thread) (st : Nat) (ls : List Nat) (z : State) :
    ls.foldl (placeLane c g) (dropRo z st) = dropRo (ls.foldl (placeLane c g) z) st := by
  induction ls generalizing z with
  | nil => rfl
  | cons l r ih => exact ih (placeLane c g z l)

theorem mapLanes_laneBit_congr {l : Nat} (hl : l < 32) {f g : Nat → Thread → Thread} (h : f l = g l) (z : State) (t : Nat) :
    z.mapLanes t (laneBit l) f = z.mapLanes t (laneBit l) g := by
  rw [State.mapLanes, State.mapLanes, Troupe.mapLanes, Troupe.mapLanes, lanes_laneBit l hl, List.foldl_cons, List.foldl_cons, h]
  rfl

theorem jwaitLane_eq {z : State} {c : Ctx} {j l : Nat} (hl : l < 32) :
    jwaitLane z c j l = if seatOf c.t l ∈ (z.junction (companyKey c.t) j).arrived
      then placeLane c (jwaitPlace (z.junction (companyKey c.t) j) c j) z l
      else dropRo (placeLane c (jwaitPlace (z.junction (companyKey c.t) j) c j) z l) (z.troupe c.t).stage := by
  unfold jwaitLane placeLane
  rw [List.contains_eq_mem]
  by_cases hin : seatOf c.t l ∈ (z.junction (companyKey c.t) j).arrived
  · rw [if_pos (decide_eq_true hin), if_pos hin]
    exact mapLanes_laneBit_congr hl (funext fun th => (if_pos hin).symm) _ _
  · rw [if_neg (by simpa using hin), if_neg hin, advanceLanes]
    exact congrArg (dropRo · _) (mapLanes_laneBit_congr hl (funext fun th => (if_neg hin).symm) _ _)

/-- The lanes of JWAIT in turn: the RO cache is dropped once any of them goes on (R247). -/
theorem foldl_jwaitLane {c : Ctx} {j st : Nat} {x : Junction} (ls : List Nat) (hlt : ∀ l ∈ ls, l < 32) (z : State)
    (hx : z.junction (companyKey c.t) j = x) (hst : (z.troupe c.t).stage = st) :
    ls.foldl (fun z l => jwaitLane z c j l) z =
      if ls.any fun l => !x.arrived.contains (seatOf c.t l) then dropRo (ls.foldl (placeLane c (jwaitPlace x c j)) z) st
      else ls.foldl (placeLane c (jwaitPlace x c j)) z := by
  induction ls generalizing z with
  | nil => rfl
  | cons l r ih =>
    have hstage : ((placeLane c (jwaitPlace x c j) z l).troupe c.t).stage = st := by
      rw [← hst]
      exact (congrArg Troupe.stage (troupe_mapLanes_rest z c.t (laneBit l) (jwaitPlace x c j)) :)
    have hrest := fun y => ih (fun k hk => hlt k (List.mem_cons_of_mem _ hk)) y
    rw [List.foldl_cons, List.foldl_cons, jwaitLane_eq (hlt l List.mem_cons_self), hx, hst, List.any_cons, List.contains_eq_mem]
    by_cases hin : seatOf c.t l ∈ x.arrived
    · rw [if_pos hin, decide_eq_true hin, Bool.not_true, Bool.false_or]
      exact hrest _ hx hstage
    · rw [if_neg hin, decide_eq_false hin, Bool.not_false, Bool.true_or, if_pos rfl,
        hrest (dropRo (placeLane c (jwaitPlace x c j) z l) st) hx hstage,
        foldl_placeLane_dropRo, dropRo_dropRo, ite_self]

theorem jwait_goes {h : Hdr} {j : Fin 24} {s : State} {c : Ctx} (hi : Issues (.jwait h j) s c)
    (hgood : ∀ l, hasLane c.act l = true → ¬Barred s c j.val l) (hkept : c.act = 0 ∨ (s.companyOf c.t).mclost = false) :
    ∃ u, ThreadsGo c (jwaitPlace (s.junction (companyKey c.t) j.val) c j.val) s u ∧
      exec (.jwait h j) s = .next (if (lanes c.act).any fun l => !(s.junction (companyKey c.t) j.val).arrived.contains (seatOf c.t l)
        then dropRo u (s.troupe c.t).stage else u) := by
  refine ⟨_, threadsGo_foldl fun z l _ _ hl => placeLane_places hl _, ?_⟩
  rw [exec_jwait, execJwait, issue_next hi, junctionTrap_none (s := s.begun) hgood, mclostTrap_none (s := s.begun) hkept]
  have hfold := foldl_jwaitLane (c := c) (j := j.val) (st := (s.troupe c.t).stage) (x := s.junction (companyKey c.t) j.val)
    (lanes c.act) (fun l => lanes_lt) s.begun rfl rfl
  dsimp only
  rw [hfold]
  cases (lanes c.act).any fun l => !(s.junction (companyKey c.t) j.val).arrived.contains (seatOf c.t l) <;> rfl

/-! ### JINIT (R246) -/

theorem mem_activeSeats {s : State} {k x : Nat} :
    x ∈ activeSeats s k ↔ ∃ v ∈ troupesOf s k, ∃ l < 32, x = seatOf v l ∧ seatActive (s.troupe v) l = true := by
  simp only [activeSeats, List.mem_flatMap, List.mem_map, List.mem_filter, List.mem_range]
  exact exists_congr fun v => and_congr_right fun _ => ⟨fun ⟨l, ⟨hl, ha⟩, hx⟩ => ⟨l, hl, hx.symm, ha⟩,
    fun ⟨l, hl, hx, ha⟩ => ⟨l, ⟨hl, ha⟩, hx.symm⟩⟩

theorem junctionWaited_iff {s : State} {k j : Nat} : junctionWaited s k j = true ↔
    ∃ t ∈ troupesOf s k, ∃ l < 32, (s.thread t l).st = .waiting ∧ ∃ d a, (s.thread t l).wait = .junction j d a := by
  have hwait (w : Wait) : (match w with
      | .junction i _ _ => i == j
      | _ => false) = true ↔ ∃ d a, w = .junction j d a := by
    cases w <;> simp
  simp only [junctionWaited, List.any_eq_true, List.mem_range, Bool.and_eq_true, beq_iff_eq]
  refine exists_congr fun t => and_congr_right fun _ => exists_congr fun l => and_congr_right fun _ => and_congr_right fun _ => ?_
  exact hwait _

/-- The junction of the bundle's company is written, and nothing else. -/
theorem junctionSet_setJunction {c : Ctx} {j : Nat} (J : Junction) (s : State) :
    JunctionSet c j J s (s.setJunction (companyKey c.t) j J) where
  rest := rfl
  others _ _ := rfl
  troupe := rfl
  companies k hk := State.company_setCompany_ne _ _ hk
  company := by
    rw [State.companyOf, State.setJunction, State.company_setCompany_self]
    rfl
  junctions k hk := by
    rw [State.junction, State.setJunction, State.company_setCompany_self]
    exact (tget_tset _ _ _ _ _).trans (if_neg hk)
  junction := by
    rw [State.junction, State.setJunction, State.company_setCompany_self]
    exact (tget_tset _ _ _ _ _).trans (if_pos rfl)

/-- Of the rest only the troupe's threads, owed writes and urgency change. -/
structure TroupeMoves (u : Nat) (s t : State) : Prop where
  rest   : { t with troupes := s.troupes, picks := s.picks, nextId := s.nextId } = s
  others : ∀ v, v ≠ u → t.troupe v = s.troupe v
  troupe : { t.troupe u with
    threads := (s.troupe u).threads, pend := (s.troupe u).pend, urgency := (s.troupe u).urgency } = s.troupe u

theorem troupeMoves_begun (u : Nat) (s : State) : TroupeMoves u s s.begun := ⟨rfl, fun _ _ => rfl, rfl⟩

theorem OnlyThreads.troupeMoves {u : Nat} {s t : State} (h : OnlyThreads u s t) : TroupeMoves u s t where
  rest := (congrArg (fun x : State => { x with picks := s.picks, nextId := s.nextId }) h.rest :)
  others := h.others
  troupe := (congrArg (fun x : Troupe => { x with pend := (s.troupe u).pend, urgency := (s.troupe u).urgency }) h.troupe :)

theorem JunctionSet.trans {c : Ctx} {j : Nat} {J K : Junction} {s t z : State} (h : JunctionSet c j J s t)
    (k : JunctionSet c j K t z) : JunctionSet c j K s z where
  rest := (congrArg (fun x : State => { x with
    troupes := s.troupes, companies := s.companies, picks := s.picks, nextId := s.nextId }) k.rest :).trans h.rest
  others v hv := (k.others v hv).trans (h.others v hv)
  troupe := (congrArg (fun x : Troupe => { x with
    threads := (s.troupe c.t).threads, pend := (s.troupe c.t).pend, urgency := (s.troupe c.t).urgency }) k.troupe :).trans h.troupe
  companies i hi := (k.companies i hi).trans (h.companies i hi)
  company := (congrArg (fun x : Company => { x with junctions := (s.companyOf c.t).junctions }) k.company :).trans h.company
  junctions i hi := (k.junctions i hi).trans (h.junctions i hi)
  junction := k.junction

/-- A junction stands while the troupe moves. -/
theorem TroupeMoves.junctionSet {c : Ctx} {s t : State} (h : TroupeMoves c.t s t) (j : Nat) :
    JunctionSet c j (s.junction (companyKey c.t) j) s t := by
  have hcompany (k : Nat) : t.company k = s.company k :=
    (congrArg (fun x : State => x.company k) h.rest :)
  refine ⟨?_, h.others, h.troupe, fun k _ => hcompany k, ?_, fun k _ => ?_, ?_⟩
  · exact (congrArg (fun x : State => { x with companies := s.companies }) h.rest :)
  · rw [State.companyOf, hcompany]
    rfl
  · rw [State.junction, hcompany, State.junction]
  · rw [State.junction, hcompany, State.junction]

theorem JunctionSet.moves {c : Ctx} {j : Nat} {J : Junction} {s t z : State} (h : JunctionSet c j J s t) (k : TroupeMoves c.t t z) :
    JunctionSet c j J s z := by
  have h2 := h.trans (k.junctionSet j)
  rwa [h.junction] at h2

theorem junctionSet_begun {c : Ctx} {j : Nat} {J : Junction} {s t : State} (h : JunctionSet c j J s.begun t) : JunctionSet c j J s t :=
  ((troupeMoves_begun c.t s).junctionSet j).trans h

section
variable {h : Hdr} {j : Fin 24} {e : Option Src} {s : State} {c : Ctx}

/-- The junction may not be set: E is outside 1 to 8,192, a seat has arrived, or a thread waits. -/
def JinitBars (s : State) (k j : Nat) (counted : Bool) (n : Nat) : Prop :=
  (counted = true ∧ (n = 0 ∨ 8192 < n)) ∨ (s.junction k j).arrived ≠ [] ∨
    ∃ t ∈ troupesOf s k, ∃ l < 32, (s.thread t l).st = .waiting ∧ ∃ d a, (s.thread t l).wait = .junction j d a

theorem jinitBars_iff {k j : Nat} {counted : Bool} {n : Nat} : JinitBars s k j counted n ↔
    ((counted && (n = 0 || n > 8192)) || !(s.junction k j).arrived.isEmpty || junctionWaited s k j) = true := by
  simp only [JinitBars, ← junctionWaited_iff, Bool.or_eq_true, Bool.and_eq_true, decide_eq_true_eq, Bool.not_eq_true',
    List.isEmpty_eq_false_iff, or_assoc, gt_iff_lt]

/-- The junction that JINIT makes. -/
def jinitJunction (s : State) (k : Nat) (e : Option Src) (n : Nat) : Junction :=
  let members := if e.isSome then [] else activeSeats s k
  ⟨true, e.isNone, if e.isSome then n else members.length, 0, false, members, [], []⟩

/-- What JINIT reads as E; nothing for the other form. -/
def jinitCount (s : State) (c : Ctx) (e : Option Src) (l : Nat) : Word :=
  match e with
  | some b => readSrcZ s c l b 1
  | none => 0

theorem exec_jinit_agree (hi : Issues (.jinit h j e) s c) (hact : c.act ≠ 0)
    (hagree : ∀ l, hasLane c.act l = true → (jinitCount s.begun c e l).toNat = (jinitCount s.begun c e c.low).toNat) :
    exec (.jinit h j e) s = .next (finish c (
      if (e.isSome && ((jinitCount s.begun c e c.low).toNat = 0 || (jinitCount s.begun c e c.low).toNat > 8192)) ||
        !(s.junction (companyKey c.t) j.val).arrived.isEmpty || junctionWaited s (companyKey c.t) j.val then
          .trap s.begun (c.trapInfo 0x22 c.act c.pcVal)
      else .ok (s.begun.setJunction (companyKey c.t) j.val
        (jinitJunction s (companyKey c.t) e (jinitCount s.begun c e c.low).toNat)))) := by
  rw [exec_jinit, execJinit, issue_next hi, Ctx.not_idle hact, if_neg Bool.false_ne_true]
  cases e with
  | none =>
    dsimp only
    rw [uniformTrap_none fun l _ => rfl]
    rfl
  | some b =>
    have hword (l : Nat) (hl : hasLane c.act l = true) : readSrcZ s.begun c l b 1 = readSrcZ s.begun c c.low b 1 :=
      BitVec.eq_of_toNat_eq (hagree l hl)
    have hlow : ((readSrcZ s.begun c c.low b 1).setWidth 64).toNat = (readSrcZ s.begun c c.low b 1).toNat :=
      BitVec.toNat_setWidth_of_le (by decide)
    dsimp only
    rw [uniformTrap_none fun l hl => congrArg (BitVec.setWidth 64) (hword l hl), hlow]
    rfl

end

end Sys2Proof.Machine
end

section
/-! SUPPORT. Arrivals that do not complete a phase: JARR and JARRW, counted or deferred (R56-R58, R247, R366). -/

namespace Sys2Proof.Machine

open Sys2Proof

/-! ### What an arrival follows (R247, R314) -/

theorem arrivalWait_settled {s : State} {t l : Nat} (h : Settled s t l) : arrivalWait s t l = [] := by
  obtain ⟨haccs, hstores, hupds, htook⟩ := h
  have hdone : ((s.thread t l).took.filter fun i => !accDone s i) = [] :=
    List.filter_eq_nil_iff.2 fun i hi => by rw [htook i hi]; exact Bool.false_ne_true
  rw [arrivalWait, haccs, storeIds, hstores, hupds, hdone]
  rfl

/-- Lanes with nothing outstanding all arrive. -/
theorem arriveLanes_settled {s : State} {c : Ctx} (h : ∀ l, hasLane c.act l = true → Settled s c.t l) (d : Opd)
    (f : State → Opd → Nat → State) : arriveLanes s c d f =
      .part ((lanes c.act).foldl (fun z l => f z (if lanesWrite c d l then d else .rz) l) s) 0 (.drain (arrivalIds s c) []) := by
  have hstall : arrivalStall s c = 0 := maskOf_eq_zero.2 fun l _ => by
    cases hl : hasLane c.act l with
    | true => rw [arrivalWait_settled (h l hl)]; rfl
    | false => rfl
  have hall : c.act &&& ~~~(0 : Mask) = c.act := by
    rw [show ~~~(0 : Mask) = BitVec.allOnes 32 by decide, BitVec.and_allOnes]
  rw [arriveLanes, hstall, hall]

section
variable {h : Hdr} {j : Fin 24} {d : Opd} {s : State} {c : Ctx} (hgood : ∀ l, hasLane c.act l = true → ¬Barred s c j.val l)
  (hsettled : ∀ l, hasLane c.act l = true → Settled s c.t l)
include hgood hsettled

theorem exec_jarr_arrives (hi : Issues (.jarr h j d) s c) : exec (.jarr h j d) s = .next (finish c (.part
    ((lanes c.act).foldl (fun z l => jarrLane z c (if lanesWrite c d l then d else .rz) j.val l) s.begun) 0
    (.drain (arrivalIds s.begun c) []))) := by
  rw [exec_jarr, execJarr, issue_next hi, junctionTrap_none (s := s.begun) hgood]
  exact congrArg (fun r => Host.Outcome.next (finish c r)) (arriveLanes_settled (s := s.begun) hsettled _ _)

theorem exec_jarrw_arrives (hi : Issues (.jarrw h j d) s c) (hkept : (s.companyOf c.t).mclost = false) :
    exec (.jarrw h j d) s = .next (finish c (.part
      ((lanes c.act).foldl (fun z l => jarrwLane z c (if lanesWrite c d l then d else .rz) j.val l) s.begun) 0
      (.drain (arrivalIds s.begun c) []))) := by
  rw [exec_jarrw, execJarrw, issue_next hi, junctionTrap_none (s := s.begun) hgood, mclostTrap_none (s := s.begun) (.inr hkept)]
  exact congrArg (fun r => Host.Outcome.next (finish c r)) (arriveLanes_settled (s := s.begun) hsettled _ _)

end

/-! ### One lane -/

/-- An arrival of lane `l` leaves the junction as `next` says, its thread as `g` says, counts for urgency, and is owed `ws`. -/
structure LaneArrives (c : Ctx) (j l : Nat) (next : Junction → Nat → Junction) (g : Thread → Thread) (ws : List (Nat × Word))
    (s t : State) : Prop where
  set     : JunctionSet c j (next (s.junction (companyKey c.t) j) l) s t
  urgency : (t.troupe c.t).urgency = min ((s.troupe c.t).urgency + 1) 8191
  pend    : (t.troupe c.t).pend = (s.troupe c.t).pend ++ owedBy c s [(l, ws)]
  nextId  : t.nextId = s.nextId + if ws.isEmpty then 0 else 1
  threads : ∀ k, t.thread c.t k = if k = l then g (s.thread c.t l) else s.thread c.t k

/-- The junction with the lane's arrival counted. -/
def Junction.counted (c : Ctx) (x : Junction) (l : Nat) : Junction := x.arrive (seatOf c.t l)

/-- The junction with the lane's arrival deferred. -/
def Junction.deferring (c : Ctx) (x : Junction) (l : Nat) : Junction := { x with deferred := x.deferred ++ [seatOf c.t l] }

/-- The place of a thread that waits for a phase. -/
def junctionPlace (c : Ctx) (d : Opd) (j : Nat) (p later arr : Bool) (l : Nat) (th : Thread) : Thread :=
  { th.waitAt c.hdr (if lanesWrite c d l then d else .rz) .n32 (.junction j later arr) with arrived := [(j, p)] }

theorem waitJunction_eq {l : Nat} (hl : l < 32) (z : State) (c : Ctx) (d : Opd) (j : Nat) (p later arr : Bool) :
    waitJunction z c (if lanesWrite c d l then d else .rz) l j p later arr = placeLane c (junctionPlace c d j p later arr) z l := by
  rw [waitJunction, placeLane]
  refine mapLanes_laneBit_congr (g := junctionPlace c d j p later arr) hl ?_ _ _
  rfl

/-- An open phase is left as it stands. -/
theorem junctionCheck_open {s : State} {c j : Nat} {J : Junction} (hJ : s.junction c j = J) (h : J.a < J.e) :
    junctionCheck s c j = s := by
  unfold junctionCheck settleJunction
  exact if_pos (by simp [hJ, h])

/-- A lane's arrival recorded as `J`, and counted for urgency. -/
def recordArrival (z : State) (c : Ctx) (j : Nat) (J : Junction) : State := (countUrgency z c.t).setJunction (companyKey c.t) j J

theorem arriveSeat_counted {z : State} {c : Ctx} {j l : Nat} (h : seatOf c.t l ∉ (z.junction (companyKey c.t) j).arrived) :
    arriveSeat (countUrgency z c.t) (companyKey c.t) j (seatOf c.t l) =
      (recordArrival z c j ((z.junction (companyKey c.t) j).counted c l), (z.junction (companyKey c.t) j).phase, false) :=
  if_neg (by rwa [List.contains_eq_mem, decide_eq_true_eq])

theorem arriveSeat_deferred {z : State} {c : Ctx} {j l : Nat} (h : seatOf c.t l ∈ (z.junction (companyKey c.t) j).arrived) :
    arriveSeat (countUrgency z c.t) (companyKey c.t) j (seatOf c.t l) =
      (recordArrival z c j ((z.junction (companyKey c.t) j).deferring c l), !(z.junction (companyKey c.t) j).phase, true) :=
  if_pos (by rwa [List.contains_eq_mem, decide_eq_true_eq])

theorem recorded_none {z : State} {t l j : Nat} (h : (z.thread t l).arrived = []) : recorded z t l j = none := by
  rw [recorded, h]
  rfl

theorem junctionSet_recordArrival {c : Ctx} {j : Nat} (J : Junction) (z : State) : JunctionSet c j J z (recordArrival z c j J) where
  rest := (congrArg (fun x : State => { x with
    troupes := z.troupes, companies := z.companies, picks := z.picks, nextId := z.nextId })
    (junctionSet_setJunction (c := c) (j := j) J (countUrgency z c.t)).rest :)
  others v hv := (State.troupe_setTroupe_ne _ _ hv :)
  troupe := by
    have h : (recordArrival z c j J).troupe c.t = { z.troupe c.t with urgency := min ((z.troupe c.t).urgency + 1) 8191 } :=
      State.troupe_setTroupe_self _ _ _
    rw [h]
  companies := (junctionSet_setJunction (c := c) (j := j) J (countUrgency z c.t)).companies
  company := (junctionSet_setJunction (c := c) (j := j) J (countUrgency z c.t)).company
  junctions := (junctionSet_setJunction (c := c) (j := j) J (countUrgency z c.t)).junctions
  junction := (junctionSet_setJunction (c := c) (j := j) J (countUrgency z c.t)).junction

theorem troupe_recordArrival (z : State) (c : Ctx) (j : Nat) (J : Junction) :
    (recordArrival z c j J).troupe c.t = { z.troupe c.t with urgency := min ((z.troupe c.t).urgency + 1) 8191 } :=
  State.troupe_setTroupe_self _ _ _

theorem troupeMoves_writeLate {c : Ctx} (ws : Writes) (z : State) : TroupeMoves c.t z (writeLate z c ws) where
  rest := (congrArg (fun x : State => { x with troupes := z.troupes, picks := z.picks, nextId := z.nextId }) (rest_writeLate ws c z) :)
  others _ hv := troupe_writeLate_ne ws c z hv
  troupe := by rw [troupe_writeLate]

theorem nextId_writeLate_one (z : State) (c : Ctx) (l : Nat) (ws : List (Nat × Word)) :
    (writeLate z c [(l, ws)]).nextId = z.nextId + if ws.isEmpty then 0 else 1 := by
  rw [writeLate, List.foldl_cons, List.foldl_nil, owe]
  cases ws.isEmpty <;> rfl

/-- A lane's arrival that is owed `ws`, and after which its thread is placed by `g`. -/
theorem laneArrives_place {c : Ctx} {j l : Nat} (hl : l < 32) {next : Junction → Nat → Junction} {g : Nat → Thread → Thread}
    {ws : List (Nat × Word)} {z : State} : LaneArrives c j l next (g l) ws z
      (placeLane c g (writeLate (recordArrival z c j (next (z.junction (companyKey c.t) j) l)) c [(l, ws)]) l) := by
  have htroupe := troupe_recordArrival z c j (next (z.junction (companyKey c.t) j) l)
  have hset := junctionSet_recordArrival (next (z.junction (companyKey c.t) j) l) (c := c) (j := j) z
  have hnextId : (recordArrival z c j (next (z.junction (companyKey c.t) j) l)).nextId = z.nextId := rfl
  generalize recordArrival z c j _ = y at htroupe hset hnextId ⊢
  obtain ⟨hrest, hthread⟩ := placeLane_places (c := c) (z := writeLate y c [(l, ws)]) hl g
  refine ⟨(hset.moves (troupeMoves_writeLate _ _)).moves hrest.troupeMoves, ?_, ?_, ?_, fun k => ?_⟩
  · rw [placeLane, State.troupe_mapLanes_self, Troupe.mapLanes_urgency, troupe_writeLate, htroupe]
  · rw [placeLane, State.troupe_mapLanes_self, Troupe.mapLanes_pend, troupe_writeLate, owedBy, htroupe, hnextId]
    rfl
  · exact (nextId_writeLate_one y c l ws).trans (by rw [hnextId])
  · rw [hthread, State.thread, State.thread, troupe_writeLate, htroupe]
    rfl

section
variable {c : Ctx} {j l : Nat} (d : Opd) {z : State} {p : Bool} (hl : l < 32) (hnew : (z.thread c.t l).arrived = [])
  (hphase : (z.junction (companyKey c.t) j).phase = p)
include hl hnew hphase

/-- What a lane of JARR is owed. -/
def arrivalWrites (c : Ctx) (d : Opd) (p : Bool) (l : Nat) : List (Nat × Word) :=
  destWrites false (if lanesWrite c d l then d else .rz) l ((boolWord p).setWidth 64)

omit hl in
theorem jarrLane_counts (hseat : seatOf c.t l ∉ (z.junction (companyKey c.t) j).arrived) :
    jarrLane z c (if lanesWrite c d l then d else .rz) j l = junctionCheck (placeLane c (fun _ th => th.advance c.hdr)
      (writeLate (recordArrival z c j ((z.junction (companyKey c.t) j).counted c l)) c [(l, arrivalWrites c d p l)]) l)
      (companyKey c.t) j := by
  unfold jarrLane
  rw [recorded_none hnew]
  dsimp only
  rw [arriveSeat_counted hseat, if_neg Bool.false_ne_true, hphase]
  rfl

theorem jarrwLane_counts (hseat : seatOf c.t l ∉ (z.junction (companyKey c.t) j).arrived) :
    jarrwLane z c (if lanesWrite c d l then d else .rz) j l = junctionCheck (placeLane c (junctionPlace c d j p false false)
      (writeLate (recordArrival z c j ((z.junction (companyKey c.t) j).counted c l)) c [(l, [])]) l) (companyKey c.t) j := by
  unfold jarrwLane
  rw [recorded_none hnew]
  dsimp only
  rw [arriveSeat_counted hseat, hphase, waitJunction_eq hl]
  rfl

variable (hseat : seatOf c.t l ∉ (z.junction (companyKey c.t) j).arrived)
  (hopen : (z.junction (companyKey c.t) j).a + 1 < (z.junction (companyKey c.t) j).e)
include hseat hopen

theorem laneArrives_jarr : LaneArrives c j l (.counted c) (Thread.advance c.hdr) (arrivalWrites c d p l) z
    (jarrLane z c (if lanesWrite c d l then d else .rz) j l) := by
  have hplace := laneArrives_place (c := c) (j := j) hl (next := .counted c) (g := fun _ th => th.advance c.hdr)
    (ws := arrivalWrites c d p l) (z := z)
  rw [jarrLane_counts d hnew hphase hseat, junctionCheck_open hplace.set.junction hopen]
  exact hplace

theorem laneArrives_jarrw : LaneArrives c j l (.counted c) (junctionPlace c d j p false false l) [] z
    (jarrwLane z c (if lanesWrite c d l then d else .rz) j l) := by
  have hplace := laneArrives_place (c := c) (j := j) hl (next := .counted c) (g := junctionPlace c d j p false false) (ws := []) (z := z)
  rw [jarrwLane_counts d hl hnew hphase hseat, junctionCheck_open hplace.set.junction hopen]
  exact hplace

end

/-- A deferred arrival: the thread waits (R58). -/
theorem laneArrives_deferring {c : Ctx} {j l : Nat} (d : Opd) {z : State} (hl : l < 32) (p arr : Bool) :
    LaneArrives c j l (.deferring c) (junctionPlace c d j p true arr l) [] z
      (waitJunction (recordArrival z c j ((z.junction (companyKey c.t) j).deferring c l)) c (if lanesWrite c d l then d else .rz)
        l j p true arr) := by
  rw [waitJunction_eq hl]
  exact laneArrives_place hl

theorem jarrLane_deferred {c : Ctx} {j l : Nat} {d : Opd} {z : State} (hnew : (z.thread c.t l).arrived = [])
    (hseat : seatOf c.t l ∈ (z.junction (companyKey c.t) j).arrived) : jarrLane z c d j l =
      waitJunction (recordArrival z c j ((z.junction (companyKey c.t) j).deferring c l)) c d l j
        (!(z.junction (companyKey c.t) j).phase) true true := by
  unfold jarrLane
  rw [recorded_none hnew]
  dsimp only
  rw [arriveSeat_deferred hseat]
  rfl

theorem jarrwLane_deferred {c : Ctx} {j l : Nat} {d : Opd} {z : State} (hnew : (z.thread c.t l).arrived = [])
    (hseat : seatOf c.t l ∈ (z.junction (companyKey c.t) j).arrived)
    (hopen : (z.junction (companyKey c.t) j).a < (z.junction (companyKey c.t) j).e) : jarrwLane z c d j l =
      waitJunction (recordArrival z c j ((z.junction (companyKey c.t) j).deferring c l)) c d l j
        (!(z.junction (companyKey c.t) j).phase) true false := by
  unfold jarrwLane
  rw [recorded_none hnew]
  dsimp only
  rw [arriveSeat_deferred hseat]
  exact junctionCheck_open (junctionSet_recordArrival (c := c) (j := j) _ _).junction hopen

/-! ### The lanes in turn -/

/-- Writes owed lane by lane. -/
theorem owedBy_cons {c : Ctx} {z y : State} {w : Nat × List (Nat × Word)} {r : Writes}
    (hid : y.nextId = z.nextId + if w.2.isEmpty then 0 else 1) (hth : ∀ v ∈ r, y.thread c.t v.1 = z.thread c.t v.1) :
    owedBy c z (w :: r) = owedBy c z [w] ++ owedBy c y r := by
  have hflag (v : Nat × List (Nat × Word)) (hv : v ∈ r.filter fun w => !w.2.isEmpty) :
      (y.troupe c.t).thread v.1 = (z.troupe c.t).thread v.1 := hth v (List.mem_of_mem_filter hv)
  have hlater : owedBy c y r = ((r.filter fun w => !w.2.isEmpty).zipIdx).map fun x =>
      ⟨y.nextId + x.2, laneBit x.1.1, ((z.troupe c.t).thread x.1.1).selFlag c.hdr, x.1.2, true, []⟩ :=
    List.map_congr_left fun x hx => by rw [hflag x.1 (List.fst_mem_of_mem_zipIdx hx)]
  rw [hlater, hid, owedBy, owedBy]
  cases hw : w.2.isEmpty with
  | true => simp [hw]
  | false =>
    simp only [List.filter_cons, hw, Bool.not_false, if_true, List.filter_nil, List.zipIdx_cons, List.zipIdx_nil, List.map_cons,
      List.map_nil, List.singleton_append, Nat.add_zero, Bool.false_eq_true, if_false, List.zipIdx_succ, List.map_map]
    refine congrArg _ (List.map_congr_left fun x _ => ?_)
    simp only [Function.comp, Nat.add_assoc, Nat.add_comm 1]

section
variable {c : Ctx} {j : Nat} {f : State → Nat → State} {next : Junction → Nat → Junction} {g : Nat → Thread → Thread}
  {ws : Nat → List (Nat × Word)} {Fit : Junction → List Nat → Prop} (hfit : ∀ x l r, Fit x (l :: r) → Fit (next x l) r)
  (hstep : ∀ z l r, Fit (z.junction (companyKey c.t) j) (l :: r) → l < 32 → (z.thread c.t l).arrived = [] →
    LaneArrives c j l next (g l) (ws l) z (f z l))
include hfit hstep

/-- The arrivals of several lanes in turn. -/
theorem foldl_laneArrives (ls : List Nat) (hn : ls.Nodup) (hlt : ∀ l ∈ ls, l < 32) (z : State)
    (hz : Fit (z.junction (companyKey c.t) j) ls) (hnew : ∀ l ∈ ls, (z.thread c.t l).arrived = []) :
    JunctionSet c j (ls.foldl next (z.junction (companyKey c.t) j)) z (ls.foldl f z) ∧
    ((ls.foldl f z).troupe c.t).urgency =
      (if ls.length = 0 then (z.troupe c.t).urgency else min ((z.troupe c.t).urgency + ls.length) 8191) ∧
    ((ls.foldl f z).troupe c.t).pend = (z.troupe c.t).pend ++ owedBy c z (ls.map fun l => (l, ws l)) ∧
    ∀ k, (ls.foldl f z).thread c.t k = if k ∈ ls then g k (z.thread c.t k) else z.thread c.t k := by
  induction ls generalizing z with
  | nil =>
    exact ⟨(OnlyThreads.refl c.t z).troupeMoves.junctionSet j, rfl, (List.append_nil _).symm, fun k => (if_neg List.not_mem_nil).symm⟩
  | cons a r ih =>
    obtain ⟨ha, hr⟩ := List.nodup_cons.1 hn
    obtain ⟨hset, hurgency, hpend, hid, hthread⟩ := hstep z a r hz (hlt a List.mem_cons_self) (hnew a List.mem_cons_self)
    have hstill (k : Nat) (hk : k ∈ r) : (f z a).thread c.t k = z.thread c.t k := by
      have hka : k ≠ a := fun he => ha (he ▸ hk)
      rw [hthread, if_neg hka]
    obtain ⟨hset', hurgency', hpend', hthread'⟩ := ih hr (fun l hl => hlt l (List.mem_cons_of_mem _ hl)) (f z a)
      (hset.junction.symm ▸ hfit _ _ _ hz) fun l hl => by rw [hstill l hl]; exact hnew l (List.mem_cons_of_mem _ hl)
    rw [hset.junction] at hset'
    refine ⟨hset.trans hset', ?_, ?_, fun k => ?_⟩
    · rw [List.foldl_cons, hurgency', hurgency, List.length_cons, if_neg (Nat.succ_ne_zero _)]
      split <;> omega
    · have hcons := owedBy_cons (w := (a, ws a)) (r := r.map fun l => (l, ws l)) hid fun v hv => by
        obtain ⟨l, hl, rfl⟩ := List.mem_map.1 hv
        exact hstill l hl
      rw [List.foldl_cons, hpend', hpend, List.map_cons, hcons, List.append_assoc]
    · rw [List.foldl_cons, hthread', hthread]
      by_cases hk : k ∈ r
      · have hka : k ≠ a := fun he => ha (he ▸ hk)
        rw [if_pos hk, if_pos (List.mem_cons_of_mem _ hk), if_neg hka]
      · by_cases hka : k = a
        · rw [if_neg hk, if_pos hka, hka, if_pos List.mem_cons_self]
        · rw [if_neg hk, if_neg hka, if_neg fun h => (List.mem_cons.1 h).elim hka hk]

end

/-! ### The instruction -/

theorem seatOf_inj {t k l : Nat} : seatOf t k = seatOf t l ↔ k = l := Nat.add_left_cancel_iff

theorem foldl_counted (c : Ctx) (ls : List Nat) (x : Junction) : ls.foldl (.counted c) x =
    { x with a := x.a + ls.length, arrived := x.arrived ++ ls.map (seatOf c.t) } := by
  induction ls generalizing x with
  | nil => rw [List.foldl_nil, List.map_nil, List.append_nil]; rfl
  | cons l r ih =>
    rw [List.foldl_cons, ih, Junction.counted, Junction.arrive, List.length_cons, List.map_cons]
    simp only [Nat.add_assoc, Nat.add_comm 1, List.append_assoc, List.singleton_append]

theorem foldl_deferring (c : Ctx) (ls : List Nat) (x : Junction) : ls.foldl (.deferring c) x =
    { x with deferred := x.deferred ++ ls.map (seatOf c.t) } := by
  induction ls generalizing x with
  | nil => rw [List.foldl_nil, List.map_nil, List.append_nil]
  | cons l r ih =>
    rw [List.foldl_cons, ih, Junction.deferring, List.map_cons]
    simp only [List.append_assoc, List.singleton_append]

/-- Lanes whose arrivals count in phase `p` and do not complete it. -/
structure CountFit (c : Ctx) (p : Bool) (x : Junction) (ls : List Nat) : Prop where
  phase : x.phase = p
  nodup : ls.Nodup
  seats : ∀ l ∈ ls, seatOf c.t l ∉ x.arrived
  stays : x.a + ls.length < x.e

theorem CountFit.counted {c : Ctx} {p : Bool} {x : Junction} {l : Nat} {r : List Nat} (h : CountFit c p x (l :: r)) :
    CountFit c p (x.counted c l) r := by
  obtain ⟨hphase, hnodup, hseats, hstays⟩ := h
  obtain ⟨hl, hr⟩ := List.nodup_cons.1 hnodup
  refine ⟨hphase, hr, fun k hk hin => ?_, ?_⟩
  · obtain hin | hin := List.mem_append.1 hin
    · exact hseats k (List.mem_cons_of_mem _ hk) hin
    · exact hl (seatOf_inj.1 (List.mem_singleton.1 hin) ▸ hk)
  · rw [List.length_cons] at hstays
    change x.a + 1 + r.length < x.e
    omega

/-- Lanes whose arrivals are deferred while phase `p` is open. -/
structure DeferFit (c : Ctx) (p : Bool) (x : Junction) (ls : List Nat) : Prop where
  phase : x.phase = p
  seats : ∀ l ∈ ls, seatOf c.t l ∈ x.arrived
  stays : x.a < x.e

theorem DeferFit.deferring {c : Ctx} {p : Bool} {x : Junction} {l : Nat} {r : List Nat} (h : DeferFit c p x (l :: r)) :
    DeferFit c p (x.deferring c l) r :=
  ⟨h.phase, fun k hk => h.seats k (List.mem_cons_of_mem _ hk), h.stays⟩

/-- The writes that the lanes of JARR owe are those of its results, one for each lane that writes its destination. -/
theorem owedBy_lanes (c : Ctx) (s : State) (d : Opd) (f : Nat → Dword) :
    owedBy c s ((lanes c.act).map fun l => (l, destWrites false (if lanesWrite c d l then d else .rz) l (f l))) =
      owedBy c s (results c false d f) := by
  by_cases hd : ∀ n, d ≠ .s n
  · have hall (l : Nat) : lanesWrite c d l = true := by
      cases d with
      | s n => exact absurd rfl (hd n)
      | _ => rfl
    have hwriters : writers c d = lanes c.act := by
      cases d with
      | s n => exact absurd rfl (hd n)
      | _ => rfl
    simp only [hall, if_true, results, hwriters]
  · obtain ⟨n, rfl⟩ : ∃ n, d = .s n := by simpa using hd
    have hfilter : ((lanes c.act).map fun l => (l, destWrites false (if lanesWrite c (.s n) l then .s n else .rz) l (f l))).filter
        (fun w => !w.2.isEmpty) = (results c false (.s n) f).filter fun w => !w.2.isEmpty := by
      have hp (l : Nat) : ((fun w : Nat × List (Nat × Word) => !w.2.isEmpty) ∘
          fun l => (l, destWrites false (if lanesWrite c (.s n) l then .s n else .rz) l (f l))) l = (l == c.low) := by
        have hite (b : Bool) : (!(destWrites false (if b then Opd.s n else .rz) l (f l)).isEmpty) = b := by cases b <;> rfl
        exact hite _
      rw [List.filter_map, List.filter_congr fun l _ => hp l, List.filter_beq, results, writers]
      by_cases hact : c.act = 0
      · rw [if_pos hact, hact]
        rfl
      · rw [if_neg hact, List.count_eq_one_of_mem (lanes_nodup _) (mem_lanes.2 (hasLane_low hact))]
        simp [lanesWrite, destWrites]
    rw [owedBy, owedBy, hfilter]

theorem onlyThreads_finish_part (c : Ctx) (z : State) (m : Mask) (w : Wait) : OnlyThreads c.t z (finish c (.part z m w)) :=
  (onlyThreads_mapLanes _ _ _ _).trans (onlyThreads_mapLanes _ _ _ _)

/-- What an instruction comes to whose lanes have arrived one after another. -/
theorem arrivals_finish {c : Ctx} {j : Nat} {f : State → Nat → State} {next : Junction → Nat → Junction}
    {g : Nat → Thread → Thread} {ws : Nat → List (Nat × Word)} {Fit : Junction → List Nat → Prop}
    (hfit : ∀ x l r, Fit x (l :: r) → Fit (next x l) r)
    (hstep : ∀ z l r, Fit (z.junction (companyKey c.t) j) (l :: r) → l < 32 → (z.thread c.t l).arrived = [] →
      LaneArrives c j l next (g l) (ws l) z (f z l))
    {s : State} (hs : Fit (s.junction (companyKey c.t) j) (lanes c.act))
    (hnew : ∀ l ∈ lanes c.act, (s.thread c.t l).arrived = []) (w : Wait) :
    let t := finish c (.part ((lanes c.act).foldl f s.begun) 0 w)
    JunctionSet c j ((lanes c.act).foldl next (s.junction (companyKey c.t) j)) s t ∧
    (t.troupe c.t).urgency = (if (lanes c.act).length = 0 then (s.troupe c.t).urgency
      else min ((s.troupe c.t).urgency + (lanes c.act).length) 8191) ∧
    (t.troupe c.t).pend = (s.troupe c.t).pend ++ owedBy c s ((lanes c.act).map fun l => (l, ws l)) ∧
    ∀ l, t.thread c.t l = if hasLane c.act l then g l (s.thread c.t l)
      else if hasLane c.mask l then (s.thread c.t l).advance c.hdr else s.thread c.t l := by
  obtain ⟨hset, hurgency, hpend, hthread⟩ :=
    foldl_laneArrives hfit hstep (lanes c.act) (lanes_nodup _) (fun l => lanes_lt) s.begun hs hnew
  generalize (lanes c.act).foldl f s.begun = z at hset hurgency hpend hthread
  have hmoves := onlyThreads_finish_part c z 0 w
  have hzero (l : Nat) : hasLane 0 l = false := by simp [hasLane]
  refine ⟨junctionSet_begun (hset.moves hmoves.troupeMoves), (congrArg Troupe.urgency hmoves.troupe :).trans hurgency,
    (congrArg Troupe.pend hmoves.troupe :).trans hpend, fun l => ?_⟩
  have hbegun : s.begun.thread c.t l = s.thread c.t l := rfl
  rw [thread_finish_part, hzero, if_neg Bool.false_ne_true, hthread, hbegun]
  simp only [mem_lanes]
  cases hl : hasLane c.act l <;> simp

section
variable {h : Hdr} {j : Fin 24} {d : Opd} {s : State} {c : Ctx} (hgood : ∀ l, hasLane c.act l = true → ¬Barred s c j.val l)
  (hsettled : ∀ l, hasLane c.act l = true → Settled s c.t l) (hnew : ∀ l ∈ lanes c.act, (s.thread c.t l).arrived = [])
include hgood hsettled hnew

/-- What the arrivals of an instruction come to where they do not complete the phase. -/
def ArrivalsCounted (c : Ctx) (j : Nat) (g : Nat → Thread → Thread) (owed : List Pend) (s t : State) : Prop :=
  let x := s.junction (companyKey c.t) j
  let n := (lanes c.act).length
  JunctionSet c j { x with a := x.a + n, arrived := x.arrived ++ (lanes c.act).map (seatOf c.t) } s t ∧
  (t.troupe c.t).urgency = (if n = 0 then (s.troupe c.t).urgency else min ((s.troupe c.t).urgency + n) 8191) ∧
  (t.troupe c.t).pend = (s.troupe c.t).pend ++ owed ∧
  ∀ l, t.thread c.t l = if hasLane c.act l then g l (s.thread c.t l)
    else if hasLane c.mask l then (s.thread c.t l).advance c.hdr else s.thread c.t l

/-- What they come to where they are all deferred. -/
def ArrivalsDeferred (c : Ctx) (j : Nat) (g : Nat → Thread → Thread) (s t : State) : Prop :=
  let x := s.junction (companyKey c.t) j
  JunctionSet c j { x with deferred := x.deferred ++ (lanes c.act).map (seatOf c.t) } s t ∧
  ∀ l, t.thread c.t l = if hasLane c.act l then g l (s.thread c.t l)
    else if hasLane c.mask l then (s.thread c.t l).advance c.hdr else s.thread c.t l

section
variable (hseats : ∀ l, hasLane c.act l = true → seatOf c.t l ∉ (s.junction (companyKey c.t) j.val).arrived)
  (hopen : (s.junction (companyKey c.t) j.val).a + (lanes c.act).length < (s.junction (companyKey c.t) j.val).e)
include hseats hopen

omit hgood hsettled hnew in
theorem countFit_lanes : CountFit c (s.junction (companyKey c.t) j.val).phase (s.junction (companyKey c.t) j.val) (lanes c.act) :=
  ⟨rfl, lanes_nodup _, fun l hl => hseats l (mem_lanes.1 hl), hopen⟩

theorem jarr_counts (hi : Issues (.jarr h j d) s c) : ∃ t, exec (.jarr h j d) s = .next t ∧
    ArrivalsCounted c j.val (fun _ th => th.advance c.hdr) (owedBy c s (results c false d fun _ =>
      (boolWord (s.junction (companyKey c.t) j.val).phase).setWidth 64)) s t := by
  refine ⟨_, exec_jarr_arrives hgood hsettled hi, ?_⟩
  have hend := arrivals_finish (Fit := CountFit c (s.junction (companyKey c.t) j.val).phase)
    (fun x l r hx => hx.counted) (fun z l r hz hl hzl => laneArrives_jarr d hl hzl hz.phase (hz.seats l List.mem_cons_self)
      (lt_of_le_of_lt (by rw [List.length_cons]; omega) hz.stays)) (countFit_lanes hseats hopen) hnew (.drain (arrivalIds s.begun c) [])
  rw [foldl_counted] at hend
  rw [ArrivalsCounted, ← owedBy_lanes]
  exact hend

theorem jarrw_counts (hi : Issues (.jarrw h j d) s c) (hkept : (s.companyOf c.t).mclost = false) : ∃ t,
    exec (.jarrw h j d) s = .next t ∧
    ArrivalsCounted c j.val (junctionPlace c d j.val (s.junction (companyKey c.t) j.val).phase false false) [] s t := by
  refine ⟨_, exec_jarrw_arrives hgood hsettled hi hkept, ?_⟩
  have hend := arrivals_finish (Fit := CountFit c (s.junction (companyKey c.t) j.val).phase)
    (fun x l r hx => hx.counted) (fun z l r hz hl hzl => laneArrives_jarrw d hl hzl hz.phase (hz.seats l List.mem_cons_self)
      (lt_of_le_of_lt (by rw [List.length_cons]; omega) hz.stays)) (countFit_lanes hseats hopen) hnew (.drain (arrivalIds s.begun c) [])
  have hnone : owedBy c s ((lanes c.act).map fun l => (l, [])) = [] := by
    rw [owedBy, List.filter_eq_nil_iff.2 fun w hw => by obtain ⟨l, -, rfl⟩ := List.mem_map.1 hw; exact Bool.false_ne_true]
    rfl
  rw [foldl_counted, hnone] at hend
  exact hend

end

section
variable (hseats : ∀ l, hasLane c.act l = true → seatOf c.t l ∈ (s.junction (companyKey c.t) j.val).arrived)
  (hopen : (s.junction (companyKey c.t) j.val).a < (s.junction (companyKey c.t) j.val).e)
include hseats hopen

omit hgood hsettled hnew in
theorem deferFit_lanes : DeferFit c (s.junction (companyKey c.t) j.val).phase (s.junction (companyKey c.t) j.val) (lanes c.act) :=
  ⟨rfl, fun l hl => hseats l (mem_lanes.1 hl), hopen⟩

theorem jarr_defers (hi : Issues (.jarr h j d) s c) : ∃ t, exec (.jarr h j d) s = .next t ∧
    ArrivalsDeferred c j.val (junctionPlace c d j.val (!(s.junction (companyKey c.t) j.val).phase) true true) s t := by
  refine ⟨_, exec_jarr_arrives hgood hsettled hi, ?_⟩
  obtain ⟨hset, -, -, hthread⟩ := arrivals_finish (Fit := DeferFit c (s.junction (companyKey c.t) j.val).phase)
    (f := fun z l => jarrLane z c (if lanesWrite c d l then d else .rz) j.val l)
    (fun x l r hx => hx.deferring) (fun z l r hz hl hzl => by
      rw [jarrLane_deferred hzl (hz.seats l List.mem_cons_self), hz.phase]
      exact laneArrives_deferring d hl _ _) (deferFit_lanes hseats hopen) hnew (.drain (arrivalIds s.begun c) [])
  rw [foldl_deferring] at hset
  exact ⟨hset, hthread⟩

theorem jarrw_defers (hi : Issues (.jarrw h j d) s c) (hkept : (s.companyOf c.t).mclost = false) : ∃ t,
    exec (.jarrw h j d) s = .next t ∧
    ArrivalsDeferred c j.val (junctionPlace c d j.val (!(s.junction (companyKey c.t) j.val).phase) true false) s t := by
  refine ⟨_, exec_jarrw_arrives hgood hsettled hi hkept, ?_⟩
  obtain ⟨hset, -, -, hthread⟩ := arrivals_finish (Fit := DeferFit c (s.junction (companyKey c.t) j.val).phase)
    (f := fun z l => jarrwLane z c (if lanesWrite c d l then d else .rz) j.val l)
    (fun x l r hx => hx.deferring) (fun z l r hz hl hzl => by
      rw [jarrwLane_deferred hzl (hz.seats l List.mem_cons_self) hz.stays, hz.phase]
      exact laneArrives_deferring d hl _ _) (deferFit_lanes hseats hopen) hnew (.drain (arrivalIds s.begun c) [])
  rw [foldl_deferring] at hset
  exact ⟨hset, hthread⟩

end

end

end Sys2Proof.Machine
end

section
/-! SUPPORT. The arrival that completes a phase (R56, R247), and the statement on junctions. -/

namespace Sys2Proof.Machine

open Sys2Proof

/-! ### Keys of tables -/

theorem mem_keys_terase_of_ne {V : Type} {m : Table V} {k x : Nat} (hx : x ≠ k) (h : x ∈ m.map Prod.fst) :
    x ∈ (terase m k).map Prod.fst := by
  induction m with
  | nil => exact h
  | cons y r ih =>
    obtain ⟨a, v⟩ := y
    rw [List.map_cons, List.mem_cons] at h
    rw [terase]
    split
    · rename_i ha
      exact ih (h.resolve_left fun he => hx (he.trans ha))
    · rw [List.map_cons, List.mem_cons]
      exact h.imp_right ih

theorem mem_keys_tinsert_of {V : Type} {m : Table V} {k x : Nat} {v : V} (h : x = k ∨ x ∈ m.map Prod.fst) :
    x ∈ (tinsert m k v).map Prod.fst := by
  induction m with
  | nil => simpa [tinsert] using h
  | cons y r ih =>
    obtain ⟨a, w⟩ := y
    rw [List.map_cons, List.mem_cons] at h
    rw [tinsert]
    split
    · simpa using h
    · rw [List.map_cons, List.mem_cons]
      tauto

/-- A write of a table keeps its keys, and adds its own. -/
theorem mem_keys_tput {V : Type} {m : Table V} {k x : Nat} {v : V} (h : x = k ∨ x ∈ m.map Prod.fst) :
    x ∈ (tput m k v).map Prod.fst := by
  refine mem_keys_tinsert_of ?_
  by_cases hx : x = k
  · exact .inl hx
  · exact .inr (mem_keys_terase_of_ne hx (h.resolve_left hx))

theorem mem_troupesOf {s : State} {k v : Nat} : v ∈ troupesOf s k ↔ v ∈ s.troupes.map Prod.fst ∧ companyKey v = k := by
  rw [troupesOf, List.mem_filter, beq_iff_eq]

/-! ### Words that lanes leave with -/

/-- The word a destination of 32 bits gets depends on the register file alone. -/
theorem word_destWrites {d : Opd} {l : Nat} (hl : l < 32) {x : Dword} {w : Nat × Word} (h : w ∈ destWrites false d l x) :
    w.2 = if w.1 < pKey 0 0 then loWord x else boolWord (x != 0) := by
  cases d with
  | v n =>
    obtain rfl := List.mem_singleton.1 h
    exact (if_pos (by have := n.isLt; simp only [vKey, pKey]; omega)).symm
  | s n =>
    obtain rfl := List.mem_singleton.1 h
    exact (if_pos (by have := n.isLt; simp only [sKey, pKey]; omega)).symm
  | p k =>
    rw [destWrites] at h
    split at h
    · cases h
    · obtain rfl := List.mem_singleton.1 h
      exact (if_neg (by simp only [pKey]; omega)).symm
  | _ => cases h

/-- Lanes that leave with one value of 32 bits leave it in all their destinations. -/
theorem gets_leaveLanes_same {s : State} {t : Nat} {m : Mask} {x : Dword}
    (hnarrow : ∀ i, hasLane m i = true → Ty.wide (s.thread t i).info.ty = false) {l : Nat} (hl : hasLane m l = true) :
    Gets ((leaveLanes s t m fun _ => x).troupe t) false (s.thread t l).info.d l x := by
  have hwrites (i : Nat) (hi : hasLane m i = true) : leaveWrites (s.troupe t) (fun _ => x) i =
      destWrites false (s.thread t i).info.d i x := by
    rw [leaveWrites, show Ty.wide ((s.troupe t).thread i).info.ty = false from hnarrow i hi]
    rfl
  intro w hw
  refine reg_leaveLanes_agree hl (by rwa [hwrites l hl]) fun i hi v hv hvw => ?_
  rw [hwrites i hi] at hv
  rw [word_destWrites (lt_of_hasLane hi) hv, word_destWrites (lt_of_hasLane hl) hw, hvw]

/-! ### Threads that go on as the phase completes (R247) -/

/-- The lanes of the troupe that wait for the open phase of junction `j`. -/
def phaseWaiters (s : State) (t j : Nat) : Mask := maskOf fun l => (s.thread t l).waitsJunction j

theorem hasLane_phaseWaiters {s : State} {t j l : Nat} :
    hasLane (phaseWaiters s t j) l = true ↔ l < 32 ∧ (s.thread t l).waitsJunction j = true := by
  rw [phaseWaiters, hasLane_maskOf, Bool.and_eq_true, decide_eq_true_eq]

theorem phaseWaiters_congr {s z : State} {v : Nat} (h : z.troupe v = s.troupe v) (j : Nat) : phaseWaiters z v j = phaseWaiters s v j := by
  simp only [phaseWaiters, State.thread, h]

/-- The threads of one troupe that wait go on. -/
def releaseTroupe (p : Bool) (j : Nat) (z : State) (t : Nat) : State :=
  if phaseWaiters z t j = 0 then z
  else dropRo (leaveLanes z t (phaseWaiters z t j) fun _ => (boolWord p).setWidth 64) (z.troupe t).stage

theorem releaseJunction_eq (s : State) (k j : Nat) (p : Bool) :
    releaseJunction s k j p = (troupesOf s k).foldl (releaseTroupe p j) s := rfl

/-- Troupe `v` after the release of those of its threads that wait. -/
structure TroupeReleased (p : Bool) (j v : Nat) (s z : State) : Prop where
  lanes   : ∀ l, z.thread v l = if hasLane (phaseWaiters s v j) l then (s.thread v l).left else s.thread v l
  results : (∀ l, hasLane (phaseWaiters s v j) l = true → Ty.wide (s.thread v l).info.ty = false) →
    ∀ l, hasLane (phaseWaiters s v j) l = true → Gets (z.troupe v) false (s.thread v l).info.d l ((boolWord p).setWidth 64)
  caches  : phaseWaiters s v j ≠ 0 → (z.stage (s.troupe v).stage).ro = []

theorem TroupeReleased.congr {p : Bool} {j v : Nat} {s z y : State} (h : TroupeReleased p j v z y)
    (hthread : ∀ l, z.thread v l = s.thread v l) (hstage : (z.troupe v).stage = (s.troupe v).stage) : TroupeReleased p j v s y := by
  have hwaiters : phaseWaiters z v j = phaseWaiters s v j := by simp only [phaseWaiters, hthread]
  obtain ⟨hlanes, hresults, hcaches⟩ := h
  simp only [hwaiters, hthread, hstage] at hlanes hresults hcaches
  exact ⟨hlanes, hresults, hcaches⟩

theorem stage_dropRo (z : State) (st k : Nat) (h : k = st ∨ (z.stage k).ro = []) : ((dropRo z st).stage k).ro = [] := by
  rw [dropRo, State.stage_setStage]
  split
  · rfl
  · rename_i hk
    exact h.resolve_left hk

section
variable {p : Bool} {j : Nat} {z : State} {t : Nat}

theorem releaseTroupe_none (h : phaseWaiters z t j = 0) : releaseTroupe p j z t = z := if_pos h

theorem troupe_releaseTroupe_ne {v : Nat} (hv : v ≠ t) : (releaseTroupe p j z t).troupe v = z.troupe v := by
  unfold releaseTroupe
  split
  · rfl
  · exact troupe_leaveLanes_ne _ _ _ hv

theorem rest_releaseTroupe : { releaseTroupe p j z t with troupes := z.troupes, stages := z.stages } = z := by
  unfold releaseTroupe
  split <;> rfl

/-- An RO cache that has been dropped stays empty. -/
theorem stage_releaseTroupe {k : Nat} (h : (z.stage k).ro = []) : ((releaseTroupe p j z t).stage k).ro = [] := by
  unfold releaseTroupe
  split
  · exact h
  · exact stage_dropRo _ _ _ (.inr h)

theorem troupeReleased_releaseTroupe : TroupeReleased p j t z (releaseTroupe p j z t) := by
  by_cases hm : phaseWaiters z t j = 0
  · have hnone (l : Nat) : hasLane (phaseWaiters z t j) l = false := by rw [hm]; simp [hasLane]
    rw [releaseTroupe_none hm]
    refine ⟨fun l => ?_, fun _ l hl => ?_, fun h => absurd hm h⟩
    · rw [hnone, if_neg Bool.false_ne_true]
    · rw [hnone] at hl
      cases hl
  · have hsome : releaseTroupe p j z t =
        dropRo (leaveLanes z t (phaseWaiters z t j) fun _ => (boolWord p).setWidth 64) (z.troupe t).stage := if_neg hm
    rw [hsome]
    exact ⟨thread_leaveLanes _ _ _ _, fun hnarrow l hl => gets_leaveLanes_same hnarrow hl, fun _ => stage_dropRo _ _ _ (.inl rfl)⟩

theorem urgency_releaseTroupe (v : Nat) : ((releaseTroupe p j z t).troupe v).urgency = (z.troupe v).urgency := by
  by_cases hv : v = t
  · subst hv
    unfold releaseTroupe
    split
    · rfl
    · exact (congrArg Troupe.urgency (troupe_leaveLanes_rest z v _ _) :)
  · rw [troupe_releaseTroupe_ne hv]

/-- No thread that has left waits any more. -/
theorem phaseWaiters_releaseTroupe : phaseWaiters (releaseTroupe p j z t) t j = 0 := by
  refine maskOf_eq_zero.2 fun l hl => ?_
  rw [troupeReleased_releaseTroupe.lanes]
  split
  · rfl
  · rename_i hno
    exact Bool.eq_false_iff.2 fun hw => hno (hasLane_phaseWaiters.2 ⟨hl, hw⟩)

end

section
variable {p : Bool} {j v : Nat}

theorem foldl_releaseTroupe_ne (ls : List Nat) (z : State) (h : v ∉ ls ∨ phaseWaiters z v j = 0) :
    (ls.foldl (releaseTroupe p j) z).troupe v = z.troupe v := by
  induction ls generalizing z with
  | nil => rfl
  | cons t r ih =>
    have htroupe : (releaseTroupe p j z t).troupe v = z.troupe v := by
      by_cases hv : v = t
      · subst hv
        rw [releaseTroupe_none (h.resolve_left fun hno => hno List.mem_cons_self)]
      · exact troupe_releaseTroupe_ne hv
    rw [List.foldl_cons, ih, htroupe]
    rw [phaseWaiters_congr htroupe]
    exact h.imp_left fun hno hin => hno (List.mem_cons_of_mem _ hin)

theorem stage_foldl_releaseTroupe {k : Nat} (ls : List Nat) (z : State) (h : (z.stage k).ro = []) :
    ((ls.foldl (releaseTroupe p j) z).stage k).ro = [] := by
  induction ls generalizing z with
  | nil => exact h
  | cons t r ih => exact ih _ (stage_releaseTroupe h)

theorem rest_foldl_releaseTroupe (ls : List Nat) (z : State) :
    { ls.foldl (releaseTroupe p j) z with troupes := z.troupes, stages := z.stages } = z := by
  induction ls generalizing z with
  | nil => rfl
  | cons t r ih =>
    exact (congrArg (fun x : State => { x with troupes := z.troupes, stages := z.stages }) (ih (releaseTroupe p j z t)) :).trans
      rest_releaseTroupe

/-- The troupes of a list in turn; one that stands in it twice has no thread left to release the second time. -/
theorem troupeReleased_foldl (ls : List Nat) (hv : v ∈ ls) (z : State) :
    TroupeReleased p j v z (ls.foldl (releaseTroupe p j) z) := by
  induction ls generalizing z with
  | nil => cases hv
  | cons t r ih =>
    rw [List.foldl_cons]
    by_cases hvt : v = t
    · subst hvt
      obtain ⟨hlanes, hresults, hcaches⟩ := troupeReleased_releaseTroupe (p := p) (j := j) (z := z) (t := v)
      have hstill := foldl_releaseTroupe_ne (p := p) r (releaseTroupe p j z v) (.inr phaseWaiters_releaseTroupe)
      refine ⟨fun l => ?_, ?_, fun hm => stage_foldl_releaseTroupe _ _ (hcaches hm)⟩
      · rw [State.thread, hstill]
        exact hlanes l
      · rwa [hstill]
    · have hsame : (releaseTroupe p j z t).troupe v = z.troupe v := troupe_releaseTroupe_ne hvt
      exact (ih ((List.mem_cons.1 hv).resolve_left hvt) (releaseTroupe p j z t)).congr (fun l => by rw [State.thread, hsame, State.thread])
        (by rw [hsame])

theorem urgency_foldl_releaseTroupe (ls : List Nat) (z : State) :
    ((ls.foldl (releaseTroupe p j) z).troupe v).urgency = (z.troupe v).urgency := by
  induction ls generalizing z with
  | nil => rfl
  | cons t r ih => exact (ih _).trans (urgency_releaseTroupe v)

end

/-! ### Urgency falls to 0 (R366) -/

/-- The urgency of a company's troupes set to 0. -/
def calm (s : State) (k : Nat) : State := (troupesOf s k).foldl (fun s t => s.setTroupe t { s.troupe t with urgency := 0 }) s

theorem rest_calm (s : State) (k : Nat) : { calm s k with troupes := s.troupes } = s := by
  unfold calm
  generalize troupesOf s k = ls
  suffices h : ∀ z : State, { ls.foldl (fun s t => s.setTroupe t { s.troupe t with urgency := 0 }) z with
    troupes := z.troupes } = z from h s
  induction ls with
  | nil => exact fun _ => rfl
  | cons t r ih =>
    exact fun z => (congrArg (fun x : State => { x with troupes := z.troupes }) (ih (z.setTroupe t { z.troupe t with urgency := 0 })) :)

theorem troupe_calm (s : State) (k v : Nat) :
    (calm s k).troupe v = if v ∈ troupesOf s k then { s.troupe v with urgency := 0 } else s.troupe v := by
  unfold calm
  generalize troupesOf s k = ls
  induction ls generalizing s with
  | nil => rfl
  | cons t r ih =>
    rw [List.foldl_cons, ih, State.troupe_setTroupe]
    by_cases hvt : v = t
    · subst hvt
      rw [if_pos rfl, if_pos List.mem_cons_self]
      split <;> rfl
    · rw [if_neg hvt]
      simp only [List.mem_cons, hvt, false_or]

theorem mem_keys_calm {s : State} {k v : Nat} (h : v ∈ s.troupes.map Prod.fst) : v ∈ (calm s k).troupes.map Prod.fst := by
  unfold calm
  generalize troupesOf s k = ls
  induction ls generalizing s with
  | nil => exact h
  | cons t r ih => exact ih (mem_keys_tput (.inr h))

/-! ### The phase completes (R56) -/

/-- The junction with its next phase open. -/
def Junction.turned (x : Junction) : Junction := { x with phase := !x.phase, a := 0, arrived := [], deferred := [] }

/-- The state after a phase of the junction has completed, with no arrival deferred. -/
def turn (s : State) (k j : Nat) (x : Junction) : State := releaseJunction (calm (s.setJunction k j x.turned) k) k j x.phase

theorem turned_counted {x : Junction} (h : x.deferred = []) (c : Ctx) (l : Nat) :
    (x.counted c l).turned = { x with phase := !x.phase, a := 0, arrived := [] } := by
  rw [show ({ x with phase := !x.phase, a := 0, arrived := [] } : Junction) =
    ⟨x.isSet, x.member, x.e, 0, !x.phase, x.members, [], x.deferred⟩ from rfl, h]
  rfl

theorem junctionCheck_completes {s : State} {k j : Nat} {x : Junction} (hx : s.junction k j = x) (hset : x.isSet = true)
    (ha : x.e ≤ x.a) (he : x.e ≠ 0) (hdeferred : x.deferred = []) : junctionCheck s k j = turn s k j x := by
  unfold junctionCheck settleJunction
  dsimp only
  rw [hx, if_neg (by simp [hset, he, ha]), hdeferred]
  rfl

section
variable {s : State} {k j : Nat} {x : Junction}

theorem mem_turn : (turn s k j x).mem = s.mem :=
  (congrArg State.mem (rest_foldl_releaseTroupe (p := x.phase) (j := j) _ _) :).trans (congrArg State.mem (rest_calm _ _) :)

theorem junction_turn : (turn s k j x).junction k j = x.turned := by
  have hcompanies : (turn s k j x).companies = (s.setJunction k j x.turned).companies :=
    (congrArg State.companies (rest_foldl_releaseTroupe (p := x.phase) (j := j) _ _) :).trans (congrArg State.companies (rest_calm _ _) :)
  rw [State.junction, State.company, hcompanies]
  change (s.setJunction k j x.turned).junction k j = x.turned
  rw [State.junction, State.setJunction, State.company_setCompany_self]
  exact (tget_tset _ _ _ _ _).trans (if_pos rfl)

theorem troupe_turn_ne {v : Nat} (hv : companyKey v ≠ k) : (turn s k j x).troupe v = s.troupe v := by
  have hout (z : State) : v ∉ troupesOf z k := fun hin => hv (mem_troupesOf.1 hin).2
  rw [turn, releaseJunction_eq, foldl_releaseTroupe_ne _ _ (.inl (hout _)), troupe_calm, if_neg (hout _)]
  rfl

/-- The troupes of the company: their waiting threads go on, and their urgency falls to 0. -/
theorem troupe_turn {v : Nat} (hv : v ∈ troupesOf s k) :
    TroupeReleased x.phase j v s (turn s k j x) ∧ ((turn s k j x).troupe v).urgency = 0 := by
  have hcalm : (calm (s.setJunction k j x.turned) k).troupe v = { s.troupe v with urgency := 0 } := by
    rw [troupe_calm]
    exact if_pos hv
  have hin : v ∈ troupesOf (calm (s.setJunction k j x.turned) k) k :=
    mem_troupesOf.2 ⟨mem_keys_calm (mem_troupesOf.1 hv).1, (mem_troupesOf.1 hv).2⟩
  constructor
  · exact (troupeReleased_foldl _ hin _).congr (fun l => by rw [State.thread, hcalm]; rfl) (by rw [hcalm])
  · exact (urgency_foldl_releaseTroupe _ _).trans (congrArg Troupe.urgency hcalm)

end

/-! ### The arrival of the last lane -/

theorem mem_keys_writeLate {c : Ctx} (ws : Writes) {z : State} {v : Nat} (h : v ∈ z.troupes.map Prod.fst) :
    v ∈ (writeLate z c ws).troupes.map Prod.fst := by
  induction ws generalizing z with
  | nil => exact h
  | cons w r ih =>
    refine ih ?_
    change v ∈ (owe z c (laneBit w.1) w.1 w.2 true).1.troupes.map Prod.fst
    rw [owe]
    split
    · exact h
    · exact mem_keys_tput (.inr h)

/-- A thread that waits for a junction is not READY. -/
theorem not_waitsJunction_of_ready {th : Thread} {j : Nat} (h : th.st = .ready) : th.waitsJunction j = false := by
  rw [Thread.waitsJunction, h]
  rfl

/-- The thread as its own arrival completes the phase: it has gone on, or it waits and is let go. -/
structure CompletesWith (j : Nat) (g : Thread → Thread) : Prop where
  goes   : ∀ th, (g th).waitsJunction j = false → (g th).st = .ready ∧ (g th).pc = th.pc + 12
  waits  : ∀ th, (g th).waitsJunction j = true → (g th).pc = th.pc ∧ Ty.wide (g th).info.ty = false

theorem completesWith_advance (h : Hdr) (j : Nat) : CompletesWith j (Thread.advance h) where
  goes _ _ := ⟨rfl, rfl⟩
  waits th hw := by
    rw [not_waitsJunction_of_ready (th := th.advance h) rfl] at hw
    cases hw

theorem completesWith_junctionPlace (c : Ctx) (d : Opd) (j : Nat) (p : Bool) (l : Nat) :
    CompletesWith j (junctionPlace c d j p false false l) where
  goes th hw := by
    simp [Thread.waitsJunction, junctionPlace, Thread.waitAt] at hw
  waits _ _ := ⟨rfl, rfl⟩

section
variable {s y : State} {c : Ctx} {j l : Nat} {g : Thread → Thread} {ws : List (Nat × Word)} (w : Wait)
  (hact : c.act = laneBit l) (hl : l < 32) (hle : ∀ k, hasLane c.act k = true → hasLane c.mask k = true) (hawake : Awake c s)
  (hy : LaneArrives c j l (.counted c) g ws s.begun y) (hg : CompletesWith j g)
  (hkeys : ∀ v, v = c.t ∨ v ∈ s.troupes.map Prod.fst → v ∈ y.troupes.map Prod.fst)
include hy

/-- Of all threads only that of the lane has another place. -/
theorem thread_arrived_other {v k : Nat} (h : ¬(v = c.t ∧ k = l)) : y.thread v k = s.thread v k := by
  by_cases hv : v = c.t
  · subst hv
    rw [hy.threads, if_neg fun hk => h ⟨rfl, hk⟩]
    rfl
  · rw [State.thread, hy.set.others v hv]
    rfl

include hact hl hle hawake

/-- The arriving thread was not one of those that waited. -/
theorem thread_arrived {v k : Nat} (hw : (s.thread v k).waitsJunction j = true) : y.thread v k = s.thread v k := by
  refine thread_arrived_other hy fun ⟨hv, hk⟩ => ?_
  have hlane : hasLane c.act l = true := by rw [hact, hasLane_laneBit hl]; exact decide_eq_true rfl
  rw [hv, hk, not_waitsJunction_of_ready (hawake l (hle l hlane))] at hw
  cases hw

include hg hkeys

/-- The phase completes with the arrival of the lane (R56, R247). -/
theorem phase_completes {x : Junction} (hdeferred : x.deferred = []) :
    let key := companyKey c.t
    let t := finish c (.part (turn y key j (x.counted c l)) 0 w)
    (∀ a, t.mem.byte a = s.mem.byte a) ∧
    t.junction key j = { x with phase := !x.phase, a := 0, arrived := [] } ∧
    (t.thread c.t l).st = .ready ∧ (t.thread c.t l).pc = (s.thread c.t l).pc + 12 ∧
    (∀ v ∈ troupesOf s key, (t.troupe v).urgency = 0 ∧ ∀ k < 32, (s.thread v k).waitsJunction j = true →
      t.thread v k = (s.thread v k).left ∧
      ((∀ i, (s.thread v i).waitsJunction j = true → Ty.wide (s.thread v i).info.ty = false) →
        Gets (t.troupe v) false (s.thread v k).info.d k ((boolWord x.phase).setWidth 64)) ∧ (t.stage (s.troupe v).stage).ro = []) ∧
    ∀ v, companyKey v ≠ key → t.troupe v = s.troupe v := by
  intro key t
  have hin {v : Nat} (hv : v ∈ troupesOf s key) : v ∈ troupesOf y key :=
    mem_troupesOf.2 ⟨hkeys v (.inr (mem_troupesOf.1 hv).1), (mem_troupesOf.1 hv).2⟩
  have hlane : hasLane c.act l = true := by rw [hact, hasLane_laneBit hl]; exact decide_eq_true rfl
  obtain ⟨hrest, hothers, htroupe⟩ := onlyThreads_finish_part c (turn y key j (x.counted c l)) 0 w
  have hzero (k : Nat) : hasLane 0 k = false := by simp [hasLane]
  have hstill {v k : Nat} (h : v = c.t → hasLane c.mask k = false ∨ hasLane c.act k = true) :
      t.thread v k = (turn y key j (x.counted c l)).thread v k := by
    by_cases hv : v = c.t
    · subst hv
      rw [thread_finish_part, hzero, if_neg Bool.false_ne_true, if_neg]
      obtain hk | hk := h rfl <;> simp [hk]
    · rw [State.thread, hothers v hv, State.thread]
  have hlast : (t.thread c.t l).st = .ready ∧ (t.thread c.t l).pc = (s.thread c.t l).pc + 12 := by
    have hplace : y.thread c.t l = g (s.thread c.t l) := (hy.threads l).trans (if_pos rfl)
    rw [hstill fun _ => .inr hlane, (troupe_turn (mem_troupesOf.2 ⟨hkeys c.t (.inl rfl), rfl⟩)).1.lanes, hplace]
    split
    · rename_i hw
      have hpc := (hg.waits _ (hplace ▸ (hasLane_phaseWaiters.1 hw).2)).1
      exact ⟨rfl, congrArg (· + 12) hpc⟩
    · rename_i hw
      exact hg.goes _ (Bool.eq_false_iff.2 fun h => hw (hasLane_phaseWaiters.2 ⟨hl, hplace ▸ h⟩))
  refine ⟨fun a => ?_, ?_, hlast.1, hlast.2, fun v hv => ⟨?_, fun k hk hw => ?_⟩,
    fun v hv => ?_⟩
  · have hmem : t.mem = y.mem := (congrArg State.mem hrest :).trans mem_turn
    rw [hmem]
    exact congrArg (Memory.byte · a) (congrArg State.mem hy.set.rest :)
  · have hjunction : t.junction key j = (turn y key j (x.counted c l)).junction key j := (congrArg (State.junction · key j) hrest :)
    rw [hjunction, junction_turn, turned_counted hdeferred]
  · have hurgency : (t.troupe v).urgency = ((turn y key j (x.counted c l)).troupe v).urgency := by
      by_cases hvt : v = c.t
      · subst hvt
        exact (congrArg Troupe.urgency htroupe :)
      · rw [hothers v hvt]
    exact hurgency.trans (troupe_turn (hin hv)).2
  · obtain ⟨hlanes, hresults, hcaches⟩ := (troupe_turn (x := x.counted c l) (j := j) (hin hv)).1
    have harrived := thread_arrived hact hl hle hawake hy hw
    have hwaits : hasLane (phaseWaiters y v j) k = true := hasLane_phaseWaiters.2 ⟨hk, by rwa [harrived]⟩
    have hasleep : v = c.t → hasLane c.mask k = false := fun hv => Bool.eq_false_iff.2 fun hm => by
      rw [hv, not_waitsJunction_of_ready (hawake k hm)] at hw
      cases hw
    refine ⟨?_, fun hnarrow => ?_, ?_⟩
    · rw [hstill fun hv => .inl (hasleep hv), hlanes, if_pos hwaits, harrived]
    · have hregs (r : Nat) : (t.troupe v).reg r = ((turn y key j (x.counted c l)).troupe v).reg r := by
        by_cases hvt : v = c.t
        · subst hvt
          exact reg_finish_part _ _ _ _ _
        · rw [hothers v hvt]
      intro r hr
      rw [hregs]
      refine hresults (fun i hi => ?_) k hwaits r (by rwa [harrived])
      have hiw := (hasLane_phaseWaiters.1 hi).2
      by_cases hlast : v = c.t ∧ i = l
      · obtain ⟨rfl, rfl⟩ := hlast
        rw [hy.threads, if_pos rfl] at hiw ⊢
        exact (hg.waits _ hiw).2
      · rw [thread_arrived_other hy hlast] at hiw ⊢
        exact hnarrow i hiw
    · have hstage : (y.troupe v).stage = (s.troupe v).stage := by
        by_cases hvt : v = c.t
        · subst hvt
          exact (congrArg Troupe.stage hy.set.troupe :)
        · exact congrArg Troupe.stage (hy.set.others v hvt)
      have hcache : t.stage (y.troupe v).stage = (turn y key j (x.counted c l)).stage (y.troupe v).stage :=
        (congrArg (State.stage · _) hrest :)
      rw [← hstage, hcache]
      exact hcaches (ne_zero_of_hasLane hwaits)
  · have hvt : v ≠ c.t := fun he => hv (congrArg companyKey he)
    rw [hothers v hvt, troupe_turn_ne hv, hy.set.others v hvt]
    rfl

end

/-- The state with the arrival of a lane recorded, `ws` owed, and its thread placed. -/
def arrivedLane (s : State) (c : Ctx) (j l : Nat) (g : Nat → Thread → Thread) (ws : List (Nat × Word)) : State :=
  placeLane c g (writeLate (recordArrival s.begun c j ((s.junction (companyKey c.t) j).counted c l)) c [(l, ws)]) l

theorem mem_keys_arrivedLane {s : State} {c : Ctx} {j l : Nat} {g : Nat → Thread → Thread} {ws : List (Nat × Word)} {v : Nat}
    (h : v = c.t ∨ v ∈ s.troupes.map Prod.fst) : v ∈ (arrivedLane s c j l g ws).troupes.map Prod.fst :=
  mem_keys_tput (h.imp_right fun hv => mem_keys_writeLate _ (mem_keys_tput (.inr hv)))

/-! ### The statement -/

/-- The lanes of Active may use the junction, and what they must follow is over. -/
theorem not_barred {s : State} {c : Ctx} {j l : Nat} (hset : (s.junction (companyKey c.t) j).isSet = true)
    (hmember : (s.junction (companyKey c.t) j).member = true → seatOf c.t l ∈ (s.junction (companyKey c.t) j).members) :
    ¬Barred s c j l := by
  rintro (hunset | ⟨hm, hout⟩)
  · rw [hset] at hunset
    cases hunset
  · exact hout (hmember hm)

section
variable {h : Hdr} {j : Fin 24} {d : Opd} {s : State} {c : Ctx} {l : Nat} (hact : c.act = laneBit l) (hl : l < 32)
  (hawake : Awake c s) (hsettled : Settled s c.t l) (hnew : (s.thread c.t l).arrived = [])
  (hset : (s.junction (companyKey c.t) j.val).isSet = true)
  (hmember : (s.junction (companyKey c.t) j.val).member = true → seatOf c.t l ∈ (s.junction (companyKey c.t) j.val).members)
  (hseat : seatOf c.t l ∉ (s.junction (companyKey c.t) j.val).arrived) (hdeferred : (s.junction (companyKey c.t) j.val).deferred = [])
  (hlast : (s.junction (companyKey c.t) j.val).a + 1 = (s.junction (companyKey c.t) j.val).e)

section
include hact hl

theorem eq_of_hasLane_act {k : Nat} (hk : hasLane c.act k = true) : k = l := by
  rw [hact, hasLane_laneBit hl] at hk
  exact of_decide_eq_true hk

end

section
include hl hset hlast hdeferred

/-- The last arrival turns the junction to its next phase. -/
theorem junctionCheck_arrivedLane (g : Nat → Thread → Thread) (ws : List (Nat × Word)) :
    junctionCheck (arrivedLane s c j.val l g ws) (companyKey c.t) j.val = turn (arrivedLane s c j.val l g ws) (companyKey c.t) j.val
      ((s.junction (companyKey c.t) j.val).counted c l) := by
  have hplace := (laneArrives_place (c := c) (j := j.val) hl (next := .counted c) (g := g) (ws := ws) (z := s.begun)).set.junction
  exact junctionCheck_completes hplace hset (Nat.le_of_eq hlast.symm) (hlast ▸ Nat.succ_ne_zero _) hdeferred

end

include hact hl hsettled hnew hset hmember hseat hdeferred hlast

theorem exec_jarr_completes (hi : Issues (.jarr h j d) s c) : exec (.jarr h j d) s = .next (finish c (.part
    (turn (arrivedLane s c j.val l (fun _ th => th.advance c.hdr) (arrivalWrites c d (s.junction (companyKey c.t) j.val).phase l))
      (companyKey c.t) j.val ((s.junction (companyKey c.t) j.val).counted c l)) 0 (.drain (arrivalIds s.begun c) []))) := by
  rw [exec_jarr_arrives (fun k hk => eq_of_hasLane_act hact hl hk ▸ not_barred hset hmember)
    (fun k hk => eq_of_hasLane_act hact hl hk ▸ hsettled) hi, hact, lanes_laneBit l hl, List.foldl_cons, List.foldl_nil,
    jarrLane_counts (z := s.begun) d hnew rfl hseat, ← junctionCheck_arrivedLane hl hset hdeferred hlast]
  rfl

theorem exec_jarrw_completes (hi : Issues (.jarrw h j d) s c) (hkept : (s.companyOf c.t).mclost = false) :
    exec (.jarrw h j d) s = .next (finish c (.part
      (turn (arrivedLane s c j.val l (junctionPlace c d j.val (s.junction (companyKey c.t) j.val).phase false false) [])
        (companyKey c.t) j.val ((s.junction (companyKey c.t) j.val).counted c l)) 0 (.drain (arrivalIds s.begun c) []))) := by
  rw [exec_jarrw_arrives (fun k hk => eq_of_hasLane_act hact hl hk ▸ not_barred hset hmember)
    (fun k hk => eq_of_hasLane_act hact hl hk ▸ hsettled) hi hkept, hact, lanes_laneBit l hl, List.foldl_cons, List.foldl_nil,
    jarrwLane_counts (z := s.begun) d hl hnew rfl hseat, ← junctionCheck_arrivedLane hl hset hdeferred hlast]
  rfl

end

section
variable {h : Hdr} {j : Fin 24} {e : Option Src} {s : State} {c : Ctx} (hi : Issues (.jinit h j e) s c) (hact : c.act ≠ 0)
  (hagree : ∀ l, hasLane c.act l = true → (jinitCount s.begun c e l).toNat = (jinitCount s.begun c e c.low).toNat)
include hi hact hagree

theorem jinit_sets (hfree : ¬JinitBars s (companyKey c.t) j.val e.isSome (jinitCount s.begun c e c.low).toNat) :
    ∃ t, exec (.jinit h j e) s = .next t ∧
      JunctionSet c j.val (jinitJunction s (companyKey c.t) e (jinitCount s.begun c e c.low).toNat) s t ∧ AllMoved c s t ∧
      (t.troupe c.t).pend = (s.troupe c.t).pend := by
  rw [exec_jinit_agree hi hact hagree, if_neg (mt jinitBars_iff.2 hfree)]
  refine ⟨_, rfl, ?_, ⟨fun l hl => ?_, fun l hl => ?_⟩, ?_⟩
  · exact junctionSet_begun ((junctionSet_setJunction _ _).moves (onlyThreads_mapLanes _ _ _ _).troupeMoves)
  · exact (thread_finish_ok _ _ _).trans (if_pos hl)
  · exact (thread_finish_ok _ _ _).trans (if_neg (by rw [hl]; exact Bool.false_ne_true))
  · rw [troupe_finish_ok, Troupe.mapLanes_pend]
    rfl

theorem jinit_traps (hbars : JinitBars s (companyKey c.t) j.val e.isSome (jinitCount s.begun c e c.low).toNat) :
    exec (.jinit h j e) s = .next (takeTrap s.begun c.t (c.trapInfo 0x22 c.act c.pcVal)) := by
  rw [exec_jinit_agree hi hact hagree, if_pos (jinitBars_iff.1 hbars)]
  rfl

end

theorem mem_jinitMembers {s : State} {k : Nat} {e : Option Src} {n x : Nat} : x ∈ (jinitJunction s k e n).members ↔
    e = none ∧ ∃ v ∈ troupesOf s k, ∃ l < 32, x = seatOf v l ∧ seatActive (s.troupe v) l = true := by
  cases e with
  | none => exact mem_activeSeats.trans (and_iff_right rfl).symm
  | some b => exact iff_of_false List.not_mem_nil fun h => by cases h.1

/-- Settles O18: arrivals lane by lane while the phase stays open; the one that completes it turns the junction to its next phase. -/
theorem junctions : Obligations.Junctions := by
  unfold Obligations.Junctions
  refine ⟨?_, ?_, ?_, ?_⟩
  · intro h j e s c hi hact key n bad hagree
    have hcount (l : Nat) : n l = (jinitCount s.begun c e l).toNat := by
      cases e <;> rfl
    have hagree' (l : Nat) (hl : hasLane c.act l = true) :
        (jinitCount s.begun c e l).toNat = (jinitCount s.begun c e c.low).toNat := by rw [← hcount, hagree l hl, hcount]
    have hbad : bad ↔ JinitBars s key j.val e.isSome (jinitCount s.begun c e c.low).toNat := by rw [← hcount]; rfl
    refine ⟨fun hfree => ?_, fun hbars => ⟨_, jinit_traps hi hact hagree' (hbad.1 hbars), rfl, rfl, rfl, rfl, rfl, rfl⟩⟩
    obtain ⟨t, hnext, hset, hmoved, hpend⟩ := jinit_sets hi hact hagree' (mt hbad.2 hfree)
    rw [← hcount] at hset
    exact ⟨t, _, hnext, hset, fun x => mem_jinitMembers (n := n c.low), hmoved, hpend⟩
  · intro h j d s c x n hset hlanes arrives waits defers
    have hgood (l : Nat) (hl : hasLane c.act l = true) : ¬Barred s c j.val l := not_barred hset (hlanes l hl).2.2
    have hsettled (l : Nat) (hl : hasLane c.act l = true) := (hlanes l hl).1
    have hnew (l : Nat) (hl : l ∈ lanes c.act) : (s.begun.thread c.t l).arrived = [] := (hlanes l (mem_lanes.1 hl)).2.1
    exact ⟨fun hi => ⟨fun hseats hopen => jarr_counts hgood hsettled hnew hseats hopen hi,
        fun hseats hopen => jarr_defers hgood hsettled hnew hseats hopen hi⟩,
      fun hi hkept => ⟨fun hseats hopen => jarrw_counts hgood hsettled hnew hseats hopen hi hkept,
        fun hseats hopen => jarrw_defers hgood hsettled hnew hseats hopen hi hkept⟩⟩
  · intro h j d s c l key x hact hl hawake hsettled hnew hset hmember hseat hdeferred hlast completes
    exact ⟨fun hi => ⟨_, exec_jarr_completes hact hl hsettled hnew hset hmember hseat hdeferred hlast hi,
        phase_completes _ hact hl (fun k hk => hi.act_le hk) hawake (laneArrives_place hl) (completesWith_advance _ _)
          (fun v hv => mem_keys_arrivedLane hv) hdeferred⟩,
      fun hi hkept => ⟨_, exec_jarrw_completes hact hl hsettled hnew hset hmember hseat hdeferred hlast hi hkept,
        phase_completes _ hact hl (fun k hk => hi.act_le hk) hawake (laneArrives_place hl) (completesWith_junctionPlace _ _ _ _ _)
          (fun v hv => mem_keys_arrivedLane hv) hdeferred⟩⟩
  · intro h j d s c x bad
    exact ⟨jwait_goes, fun i hmem hi hbad => ⟨_, exec_barred hmem hi hbad, rfl, rfl, rfl, rfl, fun l => hasLane_barredLanes⟩,
      fun i hmem hi hgood hact hlost => ⟨_, exec_lost hmem hi hgood hact hlost, rfl, rfl, rfl, rfl, rfl⟩⟩

end Sys2Proof.Machine
end

section
/-! SUPPORT. WPINIT, WPARR and WPWAIT (R85, R249-R251, R308), and the statement on them. -/

namespace Sys2Proof.Machine

open Sys2Proof

/-! ### The checks of a waypoint's address (R249) -/

theorem waypointCheck_place {s : State} {t : Nat} {x : Dword} {r : Nat × Nat} (h : waypointCheck s t x = some r) : r.1 ≤ 100 := by
  unfold waypointCheck at h
  split at h
  · cases h; decide
  split at h
  · cases h; decide
  split at h
  · cases h; decide
  split at h
  · cases h; decide
  · obtain ⟨code, -, rfl⟩ := Option.map_eq_some_iff.1 h
    exact (by decide : 6 ≤ 100)

section
variable {c : Ctx} {addr : Nat → Dword} {f : Nat → Option (Nat × Nat)} {b : Nat × Nat × Nat} {r : List (Nat × Nat × Nat)}

theorem mem_earliestLanes {x : Nat × Nat × Nat} : x ∈ earliestLanes (failing (lanes c.act) f) ↔
    hasLane c.act x.1 = true ∧ f x.1 = some x.2 ∧ x.2.1 = earliest (failing (lanes c.act) f) := by
  rw [earliestLanes, List.mem_filter, beq_iff_eq, mem_failing, mem_lanes, and_assoc]

variable (hbr : earliestLanes (failing (lanes c.act) f) = b :: r)
include hbr

/-- The first of the lanes that fail the earliest check is the lowest. -/
theorem earliestLanes_head_le {x : Nat × Nat × Nat} (hx : x ∈ b :: r) : b.1 ≤ x.1 := by
  have hs : (b :: r).Pairwise fun a b => a.1 < b.1 := hbr ▸ (failing_sorted (lanes_sorted c.act) f).filter _
  obtain rfl | hx := List.mem_cons.1 hx
  · exact le_rfl
  · exact ((List.pairwise_cons.1 hs).1 x hx).le

/-- The mask of those lanes. -/
theorem hasLane_earliestLanes {l : Nat} : hasLane (maskOf fun l => (b :: r).any fun x => x.1 == l) l = true ↔
    hasLane c.act l = true ∧ ∃ code, f l = some (earliest (failing (lanes c.act) f), code) := by
  have hmem {x : Nat × Nat × Nat} : x ∈ b :: r ↔ _ := hbr ▸ mem_earliestLanes (c := c) (f := f) (x := x)
  rw [hasLane_maskOf, Bool.and_eq_true, decide_eq_true_eq, List.any_eq_true]
  constructor
  · rintro ⟨-, ⟨j, k, code⟩, hx, hxl⟩
    obtain rfl : j = l := beq_iff_eq.1 hxl
    obtain ⟨hl, hf, rfl⟩ := hmem.1 hx
    exact ⟨hl, code, hf⟩
  · rintro ⟨hl, code, hf⟩
    exact ⟨lt_of_hasLane hl, (l, _, code), hmem.2 ⟨hl, hf, rfl⟩, beq_iff_eq.2 rfl⟩

end

/-- The PC is the value of STACKOVF and of WAYPOINT (Table 25.1). -/
theorem waypointTrap_trapInfo (c : Ctx) (code : Nat) (m : Mask) (v : Dword) :
    waypointTrap c (c.trapInfo code m (if code = 0x21 then c.pcVal else v)) =
      c.trapInfo code m (if code = 0x21 ∨ code = 0x23 then c.pcVal else v) := by
  unfold waypointTrap
  by_cases hcode : code = 0x23
  · rw [if_pos (show (c.trapInfo code m _).code = 0x23 from hcode), if_pos (Or.inr hcode)]
    rfl
  · rw [if_neg (show ¬(c.trapInfo code m _).code = 0x23 from hcode)]
    simp only [hcode, or_false]

/-- The trap of a waypoint's checks is that of the earliest one that any lane of Active fails. -/
theorem waypointTrap_earliest {c : Ctx} {addr : Nat → Dword} {f : Nat → Option (Nat × Nat)}
    (hbad : ∃ l, hasLane c.act l = true ∧ f l ≠ none) (hf : ∀ l r, f l = some r → r.1 ≤ 100) :
    ∃ x, checkLanes c (lanes c.act) addr f = some x ∧ EarliestTrap c addr f (waypointTrap c x) := by
  have hne : failing (lanes c.act) f ≠ [] := by
    obtain ⟨l, hl, hfl⟩ := hbad
    obtain ⟨r, hr⟩ := Option.ne_none_iff_exists'.1 hfl
    exact List.ne_nil_of_mem (a := (l, r)) (mem_failing.2 ⟨mem_lanes.2 hl, hr⟩)
  obtain ⟨b, r, hbr⟩ := List.exists_cons_of_ne_nil (earliestLanes_ne_nil hne fun b hb => hf _ _ (mem_failing.1 hb).2)
  obtain ⟨hb, hfb, hk⟩ := mem_earliestLanes.1 (hbr ▸ List.mem_cons_self)
  refine ⟨_, checkLanes_failing hne hbr, ?_⟩
  have hmask (l : Nat) := hasLane_earliestLanes hbr (l := l)
  have hfirst : f b.1 = some (earliest (failing (lanes c.act) f), b.2.2) := by
    rw [← hk]
    exact hfb
  rw [waypointTrap_trapInfo]
  refine ⟨⟨rfl, rfl, rfl, rfl⟩, earliest (failing (lanes c.act) f), fun l q hl hq => ?_, hmask, b.1,
    (hmask b.1).2 ⟨hb, _, hfirst⟩, fun j hj => ?_, hfirst, rfl⟩
  · exact earliest_le (b := (l, q)) (mem_failing.2 ⟨mem_lanes.2 hl, hq⟩)
  · obtain ⟨hj, code, hfj⟩ := (hmask j).1 hj
    exact earliestLanes_head_le hbr (x := (j, _, code)) (hbr ▸ mem_earliestLanes.2 ⟨hj, hfj, rfl⟩)

/-! ### WPINIT (R249) -/

/-- What a step on a waypoint follows. -/
theorem mem_wpEarlier {s : State} {t : Nat} {m : Mask} {a i : Nat} : i ∈ wpEarlier s t m a ↔
    (∃ x ∈ s.accs, x.id = i ∧ x.who.ofTroupe t = true ∧ ((x.dev = none ∧ ∃ r ∈ x.ranges, overlaps a 16 r.1 r.2 = true) ∨
      (x.acq = true ∧ ∃ l, hasLane m l = true ∧ x.who.ofLane t l = true))) ∨
    ∃ v ∈ s.upds, v.id = i ∧ v.ofTroupe t = true ∧ overlaps a 16 v.addr 16 = true := by
  simp only [wpEarlier, List.mem_append, List.mem_map, List.mem_filter, Bool.and_eq_true, Bool.or_eq_true, List.any_eq_true,
    Option.isNone_iff_eq_none, mem_lanes]
  constructor
  · rintro (⟨x, ⟨hx, hw⟩, hi⟩ | ⟨v, ⟨hv, hw⟩, hi⟩)
    · exact .inl ⟨x, hx, hi, hw⟩
    · exact .inr ⟨v, hv, hi, hw⟩
  · rintro (⟨x, hx, hi, hw⟩ | ⟨v, hv, hi, hw⟩)
    · exact .inl ⟨x, ⟨hx, hw⟩, hi⟩
    · exact .inr ⟨v, ⟨hv, hw⟩, hi⟩

section
variable {h : Hdr} {base b k : Opd} {s : State} {c : Ctx}

/-- The write that WPINIT sends to its waypoint. -/
def wpinitWrite (s : State) (c : Ctx) (a B C : Nat) : WpUpd :=
  ⟨s.nextId, a, none, 0, false, wpEarlier s c.t c.act a, 0, 0, some (c.t, c.act), some (B, C), none⟩

/-- The state with the write on its way. -/
def wpinitSent (s : State) (w : WpUpd) : State := { s.begun with upds := s.upds ++ [w], nextId := s.nextId + 1 }

theorem exec_wpinit_sends {addr : Dword} {B C : Nat} (hi : Issues (.wpinit h base b k) s c) (hact : c.act ≠ 0)
    (hagree : ∀ l, hasLane c.act l = true → readPair s.begun c l base 0 = addr ∧
      readWord s.begun c l b 1 = readWord s.begun c c.low b 1 ∧ readWord s.begun c l k 2 = readWord s.begun c c.low k 2)
    (hB : (readWord s.begun c c.low b 1).toNat = B) (hC : (readWord s.begun c c.low k 2).toNat = C)
    (hcheck : waypointCheck s.begun c.t addr = none) (hfits : B ≤ 65535) (hsome : B ≠ 0 ∨ C ≠ 0) :
    exec (.wpinit h base b k) s = .next (finish c (.ctl ((advanceLanes
      (wpinitSent s (wpinitWrite s c (physOf s.begun c.t c.low addr) B C)) c c.act).mapLanes c.t c.act
        fun _ th => { th with st := .stalled, wait := .drain [s.nextId] [] }))) := by
  have haddr := (hagree c.low (hasLane_low hact)).1
  have hgood : (decide (B > 65535) || (decide (B = 0) && decide (C = 0))) = false := by
    rw [decide_eq_false (Nat.not_lt.2 hfits), Bool.false_or, Bool.and_eq_false_iff, decide_eq_false_iff_not, decide_eq_false_iff_not]
    exact hsome
  rw [exec_wpinit, execWpinit, issue_next hi, Ctx.not_idle hact, if_neg Bool.false_ne_true]
  dsimp only
  rw [uniformTrap_none fun l hl => (hagree l hl).1.trans haddr.symm, uniformTrap_none fun l hl => by rw [(hagree l hl).2.1],
    uniformTrap_none fun l hl => by rw [(hagree l hl).2.2]]
  dsimp only
  rw [haddr, hcheck]
  dsimp only
  rw [hB, hC, hgood, if_neg Bool.false_ne_true]
  rfl

/-- WPINIT sends its write, and its threads go on and stall until it has been performed. -/
theorem wpinit_sends {addr : Dword} {B C : Nat} (hi : Issues (.wpinit h base b k) s c) (hact : c.act ≠ 0)
    (hagree : ∀ l, hasLane c.act l = true → readPair s.begun c l base 0 = addr ∧
      readWord s.begun c l b 1 = readWord s.begun c c.low b 1 ∧ readWord s.begun c l k 2 = readWord s.begun c c.low k 2)
    (hB : (readWord s.begun c c.low b 1).toNat = B) (hC : (readWord s.begun c c.low k 2).toNat = C)
    (hcheck : waypointCheck s.begun c.t addr = none) (hfits : B ≤ 65535) (hsome : B ≠ 0 ∨ C ≠ 0) :
    ∃ t, exec (.wpinit h base b k) s = .next t ∧ t.upds = s.upds ++ [wpinitWrite s c (physOf s.begun c.t c.low addr) B C] ∧
      { t with upds := s.upds, troupes := s.troupes, picks := s.picks, nextId := s.nextId } = s ∧
      { t.troupe c.t with threads := (s.troupe c.t).threads } = s.troupe c.t ∧ (∀ v, v ≠ c.t → t.troupe v = s.troupe v) ∧
      ∀ l, t.thread c.t l = if hasLane c.act l then { (s.thread c.t l).advance c.hdr with st := .stalled, wait := .drain [s.nextId] [] }
        else if hasLane c.mask l then (s.thread c.t l).advance c.hdr else s.thread c.t l := by
  refine ⟨_, exec_wpinit_sends hi hact hagree hB hC hcheck hfits hsome, ?_⟩
  have hupds : (wpinitSent s (wpinitWrite s c (physOf s.begun c.t c.low addr) B C)).upds =
    s.upds ++ [wpinitWrite s c (physOf s.begun c.t c.low addr) B C] := rfl
  have hrest : { wpinitSent s (wpinitWrite s c (physOf s.begun c.t c.low addr) B C) with
    upds := s.upds, picks := s.picks, nextId := s.nextId } = s := rfl
  generalize wpinitSent s _ = z at hupds hrest ⊢
  have htroupe (v : Nat) : z.troupe v = s.troupe v := (congrArg (State.troupe · v) hrest :)
  obtain ⟨hmrest, hmothers, hmtroupe⟩ := ((onlyThreads_mapLanes c.t z c.act fun _ th => th.advance c.hdr).trans
    (onlyThreads_mapLanes _ _ c.act fun _ th => { th with st := .stalled, wait := .drain [s.nextId] [] })).trans
    (onlyThreads_mapLanes _ _ (c.mask &&& ~~~c.act) fun _ th => th.advance c.hdr)
  refine ⟨(congrArg State.upds hmrest :).trans hupds, ?_, htroupe c.t ▸ hmtroupe, fun v hv => (hmothers v hv).trans (htroupe v),
    fun l => ?_⟩
  · exact ((congrArg (fun x : State => { x with
      upds := s.upds, troupes := s.troupes, picks := s.picks, nextId := s.nextId }) hmrest :)).trans
      (congrArg (fun x : State => { x with troupes := s.troupes }) hrest :)
  have hthread : z.thread c.t l = s.thread c.t l := by rw [State.thread, htroupe, State.thread]
  rw [thread_finish_ctl, thread_mapLanes, thread_advanceLanes, hthread]
  cases hl : hasLane c.act l <;> simp

end

/-! ### WPINIT at the home (R249) -/

/-- The first word of a waypoint that WPINIT writes. -/
def wpinitWord (w0 B : Nat) : Nat := (w0 / 2 ^ 17 + 1) % 2 ^ 15 * 2 ^ 17 + w0 / 2 ^ 16 % 2 * 2 ^ 16 + B

/-- What WPINIT writes. -/
def wpinitBytes (w0 B C : Nat) : List Byte := leBytes 4 (wpinitWord w0 B) ++ leBytes 4 B ++ leBytes 4 C ++ leBytes 4 C

theorem wpinitWord_fields {w0 B : Nat} (hB : B < 2 ^ 16) : wpinitWord w0 B < 2 ^ 32 ∧
    wpinitWord w0 B / 2 ^ 17 = (w0 / 2 ^ 17 + 1) % 2 ^ 15 ∧ wpinitWord w0 B / 2 ^ 16 % 2 = w0 / 2 ^ 16 % 2 ∧
    wpinitWord w0 B % 2 ^ 16 = B := by
  unfold wpinitWord
  omega

theorem exec_waypointUpdate_init {s : State} {u : WpUpd} {B C : Nat} (hfind : s.upds.find? (fun x => x.id == u.id) = some u)
    (hinit : u.init = some (B, C)) (hmarks : u.marks = none) (hwatch : anyWatched s [(u.addr, 16)] = false)
    (hafter : ∀ i ∈ u.after, accDone s i = true) (hopen : lineClosed s 0 [(u.addr, 16)] = false)
    (hlost : lostAt s ((copyById s u.copy).any Copy.castWp) u.addr = none) (hder : inDerived s u.addr 16 = false)
    (hclean : poisoned s u.addr 16 = false) : ∃ w, exec (.waypointUpdate u.id) s =
      .next (homeWrite { s with upds := s.upds.filter fun x => x.id != u.id } w u.addr (wpinitBytes (cleanN s u.addr 4) B C)) := by
  have hdone : (u.after.any fun i => !accDone s i) = false := by simpa using hafter
  have hlost' : lostAt { s with upds := s.upds.filter fun x => x.id != u.id }
    ((copyById { s with upds := s.upds.filter fun x => x.id != u.id } u.copy).any Copy.castWp) u.addr = none := hlost
  refine ⟨(u.who.map fun w => Who.bundle w.1 w.2).getD .device, ?_⟩
  rw [exec_waypointUpdate, execWaypointUpdate, hfind]
  dsimp only
  rw [hdone, if_neg Bool.false_ne_true, hmarks]
  dsimp only
  rw [hopen, if_neg Bool.false_ne_true, hlost']
  dsimp only
  rw [hder, if_neg Bool.false_ne_true, hwatch, if_neg Bool.false_ne_true, List.isEmpty_nil, if_pos rfl, stepWaypoint, hinit]
  dsimp only
  rw [consumeFor_clean (s := { s with upds := _ }) fun r hr => by
    rw [List.mem_singleton.1 hr]
    exact poisoned_part hclean (Nat.le_refl _) (show u.addr + 4 ≤ u.addr + 16 by omega)]
  rfl

/-- A number among the bytes of a write, as memory then holds it. -/
theorem readN_of_wrote {s z : State} {a : Nat} {bs pre post : List Byte} {n x : Nat} (hbs : bs = pre ++ leBytes n x ++ post)
    (hwrote : Wrote a bs s z) (hclean : poisoned s a bs.length = false) (hpoison : z.poison = s.poison) :
    z.mem.readN (a + pre.length) n = x % 256 ^ n := by
  subst hbs
  have hlength : (pre ++ leBytes n x ++ post).length = pre.length + n + post.length := by
    rw [List.length_append, List.length_append, leBytes_length]
  have hpart : poisoned z (a + pre.length) n = false := by
    rw [poisoned, hpoison]
    exact poisoned_part hclean (Nat.le_add_right _ _) (by omega)
  rw [← cleanN_eq_readN hpart]
  exact cleanN_of_wrote hwrote hclean hpoison

/-- What the waypoint holds once WPINIT has been performed at its home. -/
theorem wpinit_home {s z : State} {a B C : Nat} (hclean : poisoned s a 16 = false) (hB : B < 2 ^ 16) (hC : C < 2 ^ 32)
    (hwrote : Wrote a (wpinitBytes (cleanN s a 4) B C) s z) (hpoison : z.poison = s.poison) :
    z.mem.readN a 4 / 2 ^ 17 = (s.mem.readN a 4 / 2 ^ 17 + 1) % 2 ^ 15 ∧ wpPhase z.mem a = wpPhase s.mem a ∧
      z.mem.readN a 4 % 2 ^ 16 = B ∧ z.mem.readN (a + 4) 4 = B ∧ z.mem.readN (a + 8) 4 = C ∧ z.mem.readN (a + 12) 4 = C ∧
      ∀ x, (x < a ∨ a + 16 ≤ x) → z.mem.byte x = s.mem.byte x := by
  have hold : cleanN s a 4 = s.mem.readN a 4 := cleanN_eq_readN (poisoned_part hclean (Nat.le_refl a) (by omega))
  rw [hold] at hwrote
  obtain ⟨hlt, hgen, hphase, hexp⟩ := wpinitWord_fields (w0 := s.mem.readN a 4) hB
  have hlength : (wpinitBytes (s.mem.readN a 4) B C).length = 16 := by simp [wpinitBytes, leBytes_length]
  have hpart : poisoned s a (wpinitBytes (s.mem.readN a 4) B C).length = false := by rwa [hlength]
  have hread {pre post : List Byte} {x : Nat} (hx : x < 2 ^ 32) (hbs : wpinitBytes (s.mem.readN a 4) B C = pre ++ leBytes 4 x ++ post) :
      z.mem.readN (a + pre.length) 4 = x :=
    (readN_of_wrote hbs hwrote hpart hpoison).trans (Nat.mod_eq_of_lt hx)
  have hfirst : z.mem.readN a 4 = wpinitWord (s.mem.readN a 4) B :=
    hread (pre := []) hlt (post := leBytes 4 B ++ leBytes 4 C ++ leBytes 4 C)
      (by simp only [wpinitBytes, List.nil_append, List.append_assoc])
  have hword (pre post : List Byte) {x : Nat} (hx : x < 2 ^ 32) {n : Nat} (hn : pre.length = n)
      (hbs : wpinitBytes (s.mem.readN a 4) B C = pre ++ leBytes 4 x ++ post) : z.mem.readN (a + n) 4 = x := hn ▸ hread hx hbs
  refine ⟨by rw [hfirst, hgen], by rw [wpPhase, hfirst, hphase, wpPhase], by rw [hfirst, hexp], ?_, ?_, ?_, fun x hx => ?_⟩
  · exact hword (leBytes 4 (wpinitWord (s.mem.readN a 4) B)) (leBytes 4 C ++ leBytes 4 C) (hB.trans (by decide))
      (by rw [leBytes_length]) (by rw [wpinitBytes, List.append_assoc])
  · exact hword (leBytes 4 (wpinitWord (s.mem.readN a 4) B) ++ leBytes 4 B) (leBytes 4 C) hC
      (by rw [List.length_append, leBytes_length, leBytes_length]) rfl
  · exact hword (leBytes 4 (wpinitWord (s.mem.readN a 4) B) ++ leBytes 4 B ++ leBytes 4 C) [] hC
      (by rw [List.length_append, List.length_append, leBytes_length, leBytes_length, leBytes_length]) (List.append_nil _).symm
  · exact hwrote.bytes x (by rwa [hlength])

/-! ### WPARR (R250) -/

/-- The update that WPARR sends for a lane, entered from `z`. -/
def wparrUpdate (s : State) (c : Ctx) (noarr : Bool) (addr bytes : Nat → Nat) (z : State) (l : Nat) : WpUpd :=
  ⟨z.nextId, addr l, none, bytes l, !noarr, (arrivalWait s c.t l ++ wpEarlier z c.t (laneBit l) (addr l)).eraseDups, 0,
    (s.companyOf c.t).run, some (c.t, laneBit l), none, none⟩

/-- WPARR of one lane. -/
def wparrLane (s : State) (c : Ctx) (noarr : Bool) (addr bytes : Nat → Nat) (z : State) (l : Nat) : State :=
  { z with upds := z.upds ++ [wparrUpdate s c noarr addr bytes z l], nextId := z.nextId + 1 }

/-- An update without its id and what it follows. -/
def WpUpd.bare (x : WpUpd) : WpUpd := { x with id := 0, after := [] }

/-- The update that WPARR sends for a lane, bare. -/
def wparrBare (s : State) (c : Ctx) (noarr : Bool) (addr bytes : Nat → Nat) (l : Nat) : WpUpd :=
  ⟨0, addr l, none, bytes l, !noarr, [], 0, (s.companyOf c.t).run, some (c.t, laneBit l), none, none⟩

/-- The update follows what a release at device scope of the lane follows, and the troupe's accesses to the waypoint before it. -/
def FollowsRelease (s : State) (c : Ctx) (l : Nat) (x : WpUpd) : Prop :=
  (∀ i ∈ arrivalWait s c.t l, i ∈ x.after) ∧ ∀ i ∈ wpEarlier s c.t (laneBit l) x.addr, i ∈ x.after

theorem wpEarlier_mono {s z : State} (haccs : z.accs = s.accs) (hupds : ∀ u ∈ s.upds, u ∈ z.upds) {t : Nat} {m : Mask} {a i : Nat}
    (h : i ∈ wpEarlier s t m a) : i ∈ wpEarlier z t m a := by
  rw [mem_wpEarlier] at h ⊢
  rw [haccs]
  exact h.imp_right fun ⟨v, hv, hrest⟩ => ⟨v, hupds v hv, hrest⟩

theorem laneBit_inj {k l : Nat} (hk : k < 32) (hl : l < 32) (h : laneBit k = laneBit l) : k = l := by
  have hkl : hasLane (laneBit l) k = true := by rw [← h, hasLane_laneBit hk]; exact decide_eq_true rfl
  rw [hasLane_laneBit hl] at hkl
  exact of_decide_eq_true hkl

/-- The lanes of WPARR in turn. -/
theorem foldl_wparrLane {s : State} {c : Ctx} {noarr : Bool} {addr bytes : Nat → Nat} (ls : List Nat)
    (hlt : ∀ l ∈ ls, l < 32) (z : State) (haccs : z.accs = s.accs) (hupds : ∀ u ∈ s.upds, u ∈ z.upds) : ∃ us,
      (ls.foldl (wparrLane s c noarr addr bytes) z).upds = z.upds ++ us ∧ us.map WpUpd.bare = ls.map (wparrBare s c noarr addr bytes) ∧
      (∀ x ∈ us, ∀ l < 32, x.who = some (c.t, laneBit l) → FollowsRelease s c l x) ∧
      { ls.foldl (wparrLane s c noarr addr bytes) z with upds := z.upds, nextId := z.nextId } = z := by
  induction ls generalizing z with
  | nil => exact ⟨[], (List.append_nil _).symm, rfl, fun x hx => absurd hx List.not_mem_nil, rfl⟩
  | cons a r ih =>
    obtain ⟨us, hus, hbare, hfollows, hrest⟩ := ih (fun l hl => hlt l (List.mem_cons_of_mem _ hl))
      (wparrLane s c noarr addr bytes z a) haccs fun u hu => List.mem_append_left _ (hupds u hu)
    refine ⟨wparrUpdate s c noarr addr bytes z a :: us, ?_, ?_, List.forall_mem_cons.2 ⟨fun l hl hwho => ?_, hfollows⟩, ?_⟩
    · rw [List.foldl_cons, hus, wparrLane, List.append_assoc, List.singleton_append]
    · rw [List.map_cons, List.map_cons, hbare]
      rfl
    · obtain rfl : a = l := laneBit_inj (hlt a List.mem_cons_self) hl (congrArg Prod.snd (Option.some.inj hwho))
      refine ⟨fun i hi => ?_, fun i hi => ?_⟩
      · exact List.mem_eraseDups.2 (List.mem_append_left _ hi)
      · exact List.mem_eraseDups.2 (List.mem_append_right _ (wpEarlier_mono haccs hupds hi))
    · exact (congrArg (fun x : State => { x with upds := z.upds, nextId := z.nextId }) hrest :)

/-! ### WPWAIT (R251) -/

/-- The access of WPWAIT of a lane. -/
def wpwaitAccess (s : State) (c : Ctx) (addr data : Nat → Dword) (limit : Nat → Nat) (l : Nat) : Access :=
  { Access.make (.thread c.t l) .wpwait (addr l) (physOf s c.t l (addr l)) 4 with
    data := data l, acq := true, scope := .device, deadline := deadlineOf s (limit l) }

/-- How WPWAIT leaves the thread of a lane: it waits for its access. -/
def WpwaitPlaces (s : State) (c : Ctx) (d : Opd) (limit : Nat → Nat) (l : Nat) (th : Thread) (as : List Access) (th' : Thread) : Prop :=
  ∃ a ∈ as, a.who = .thread c.t l ∧
    th' = th.waitAt c.hdr (if lanesWrite c d l then d else .rz) .n32 (.wpwait a.id (deadlineOf s (limit l)))

/-- WPWAIT of one lane. -/
def wpwaitLane (s : State) (c : Ctx) (d : Opd) (addr data : Nat → Dword) (limit : Nat → Nat) (z : State) (l : Nat) : State :=
  let z1 := enterAcc z c.t [l] (wpwaitAccess s c addr data limit l)
  z1.setThread c.t l ((z1.thread c.t l).waitAt c.hdr (if lanesWrite c d l then d else .rz) .n32
    (.wpwait z.nextId (deadlineOf s (limit l))))

theorem laneEnters_wpwaitLane (s : State) (c : Ctx) (d : Opd) (addr data : Nat → Dword) (limit : Nat → Nat) (z : State) (l : Nat) :
    LaneEnters c l [wpwaitAccess s c addr data limit l] [] (WpwaitPlaces s c d limit l) z (wpwaitLane s c d addr data limit z l) :=
  (laneEnters_enterAcc c l z [l] (wpwaitAccess s c addr data limit l)).setThread _
    ⟨_, List.mem_append_right _ (List.mem_singleton.2 rfl), rfl, rfl⟩

theorem enteredBy_wpwaits (s : State) (c : Ctx) (d : Opd) (addr data : Nat → Dword) (limit : Nat → Nat) :
    EnteredBy c (lanes c.act) ((lanes c.act).map (wpwaitAccess s.begun c addr data limit)) [] (WpwaitPlaces s.begun c d limit) s
      ((lanes c.act).foldl (wpwaitLane s.begun c d addr data limit) s.begun) := by
  have h := enteredBy_foldl (A := fun _ l => [wpwaitAccess s.begun c addr data limit l]) (O := fun _ _ => [])
    (fun z l _ => laneEnters_wpwaitLane s.begun c d addr data limit z l) (fun _ _ _ _ _ => ⟨rfl, rfl⟩)
    (fun l th as bs th' ⟨a, ha, hplace⟩ => ⟨a, List.mem_append_left _ ha, hplace⟩) (ready_begun c s) (lanes c.act) (lanes_nodup _)
    fun l => lanes_lt
  rwa [List.flatMap_eq_nil_iff.2 fun _ _ => rfl, ← List.map_eq_flatMap] at h

/-! ### The statement -/

section
variable {h : Hdr} {base : Opd} {s : State} {c : Ctx}

theorem wparr_traps {noarr : Bool} {b : Src} (hi : Issues (.wparr h noarr base b) s c)
    (hbad : ∃ l, hasLane c.act l = true ∧ waypointCheck s.begun c.t (readPair s.begun c l base 0) ≠ none) :
    ∃ x, exec (.wparr h noarr base b) s = .next (takeTrap s.begun c.t x) ∧ EarliestTrap c (fun l => readPair s.begun c l base 0)
      (fun l => waypointCheck s.begun c.t (readPair s.begun c l base 0)) x := by
  obtain ⟨x, hcheck, htrap⟩ := waypointTrap_earliest (addr := fun l => readPair s.begun c l base 0) hbad
    fun l r hr => waypointCheck_place hr
  refine ⟨_, ?_, htrap⟩
  rw [exec_wparr, execWparr, issue_next hi]
  dsimp only
  rw [hcheck]
  rfl

theorem wpwait_traps {d b k : Opd} (hi : Issues (.wpwait h d base b k) s c)
    (hbad : ∃ l, hasLane c.act l = true ∧ waypointCheck s.begun c.t (readPair s.begun c l base 0) ≠ none) :
    ∃ x, exec (.wpwait h d base b k) s = .next (takeTrap s.begun c.t x) ∧ EarliestTrap c (fun l => readPair s.begun c l base 0)
      (fun l => waypointCheck s.begun c.t (readPair s.begun c l base 0)) x := by
  obtain ⟨x, hcheck, htrap⟩ := waypointTrap_earliest (addr := fun l => readPair s.begun c l base 0) hbad
    fun l r hr => waypointCheck_place hr
  refine ⟨_, ?_, htrap⟩
  rw [exec_wpwait, execWpwait, issue_next hi]
  dsimp only
  rw [hcheck]
  rfl

variable (hfine : ∀ l, hasLane c.act l = true → waypointCheck s.begun c.t (readPair s.begun c l base 0) = none)
include hfine

theorem exec_wparr_sends {noarr : Bool} {b : Src} (hi : Issues (.wparr h noarr base b) s c) :
    exec (.wparr h noarr base b) s = .next (finish c (.ok ((lanes c.act).foldl (wparrLane s.begun c noarr
      (fun l => physOf s.begun c.t l (readPair s.begun c l base 0)) fun l => (readSrcZ s.begun c l b 1).toNat) s.begun))) := by
  rw [exec_wparr, execWparr, issue_next hi]
  dsimp only
  rw [checkLanes_pass fun l hl => hfine l (mem_lanes.1 hl)]
  rfl

/-- WPARR sends its updates, and its threads go on. -/
theorem wparr_sends {noarr : Bool} {b : Src} (hi : Issues (.wparr h noarr base b) s c) : ∃ t us,
    exec (.wparr h noarr base b) s = .next t ∧ t.upds = s.upds ++ us ∧
      us.map WpUpd.bare = (lanes c.act).map (wparrBare s c noarr (fun l => physOf s.begun c.t l (readPair s.begun c l base 0))
        fun l => (readSrcZ s.begun c l b 1).toNat) ∧
      (∀ x ∈ us, ∀ l, hasLane c.act l = true → x.who = some (c.t, laneBit l) → FollowsRelease s c l x) ∧
      { t with upds := s.upds, troupes := s.troupes, picks := s.picks, nextId := s.nextId } = s ∧ AllMoved c s t ∧
      { t.troupe c.t with threads := (s.troupe c.t).threads } = s.troupe c.t ∧ ∀ v, v ≠ c.t → t.troupe v = s.troupe v := by
  obtain ⟨us, hus, hbare, hfollows, hrest⟩ := foldl_wparrLane (s := s.begun) (c := c) (noarr := noarr)
    (addr := fun l => physOf s.begun c.t l (readPair s.begun c l base 0)) (bytes := fun l => (readSrcZ s.begun c l b 1).toNat)
    (lanes c.act) (fun l => lanes_lt) s.begun rfl fun _ hu => hu
  refine ⟨_, us, exec_wparr_sends hfine hi, hus, hbare, fun x hx l hl => hfollows x hx l (lt_of_hasLane hl), ?_⟩
  generalize (lanes c.act).foldl _ s.begun = z at hus hrest ⊢
  have htroupes : z.troupes = s.troupes := (congrArg State.troupes hrest :)
  have htroupe (v : Nat) : z.troupe v = s.troupe v := by rw [State.troupe, htroupes, State.troupe]
  have hmoves := onlyThreads_mapLanes c.t z c.mask fun _ th => th.advance c.hdr
  refine ⟨?_, allMoved_finish_ok fun l => by rw [State.thread, htroupe, State.thread], htroupe c.t ▸ hmoves.troupe,
    fun v hv => (hmoves.others v hv).trans (htroupe v)⟩
  exact (congrArg (fun x : State => { x with troupes := s.troupes, picks := s.picks }) hrest :)

theorem exec_wpwait_waits {d b k : Opd} (hi : Issues (.wpwait h d base b k) s c)
    (hkept : c.act = 0 ∨ (s.companyOf c.t).mclost = false) :
    exec (.wpwait h d base b k) s = .next (finish c (.ctl ((lanes c.act).foldl (wpwaitLane s.begun c d
      (fun l => readPair s.begun c l base 0) (fun l => (readWord s.begun c l b 1).setWidth 64)
      fun l => (readWord s.begun c l k 2).toNat) s.begun))) := by
  rw [exec_wpwait, execWpwait, issue_next hi]
  dsimp only
  rw [checkLanes_pass fun l hl => hfine l (mem_lanes.1 hl)]
  dsimp only
  rw [mclostTrap_none (s := s.begun) hkept]
  rfl

end

/-- Settles O19: updates and accesses enter lane by lane, and at the home WPINIT is one write of 16 bytes. -/
theorem waypoints : Obligations.Waypoints := by
  unfold Obligations.Waypoints
  refine ⟨?_, ?_, ?_⟩
  · intro h base b k s c hi hact u addr B C a hagree hcheck hfits hsome
    obtain ⟨t, hnext, hupds, hrest, htroupe, hothers, hthread⟩ := wpinit_sends hi hact hagree rfl rfl hcheck hfits hsome
    exact ⟨t, wpinitWrite s c a B C, hnext, hupds, rfl, fun i => mem_wpEarlier, hrest, htroupe, hothers, hthread⟩
  · intro s u B C hfind hinit hmarks hafter hopen hlost hder hwatch hclean hB hC a
    obtain ⟨w, hnext⟩ := exec_waypointUpdate_init hfind hinit hmarks hwatch hafter hopen hlost hder hclean
    have hlength : (wpinitBytes (cleanN s a 4) B C).length = 16 := by simp [wpinitBytes, leBytes_length]
    have hne : wpinitBytes (cleanN s a 4) B C ≠ [] := by
      rw [← List.length_pos_iff, hlength]
      decide
    have hpart : poisoned s a (wpinitBytes (cleanN s a 4) B C).length = false := by rwa [hlength]
    have hwrote := wrote_homeWrite (s := { s with upds := s.upds.filter fun x => x.id != u.id }) w hne hpart
    have hpoison := poison_homeWrite (s := { s with upds := s.upds.filter fun x => x.id != u.id }) w hpart
    exact ⟨_, hnext, (congrArg State.upds hwrote.rest :), (congrArg State.troupes hwrote.rest :),
      wpinit_home (s := { s with upds := s.upds.filter fun x => x.id != u.id }) hclean hB hC hwrote hpoison⟩
  · intro h base s c u addr fine traps
    refine ⟨fun noarr b hi => ⟨wparr_traps hi, fun hfine => ?_⟩, fun d b k hi => ⟨wpwait_traps hi, fun hfine hkept => ?_⟩⟩
    · exact wparr_sends hfine hi
    · intro limit dl
      have hdone := enteredBy_wpwaits s c d addr (fun l => (readWord s.begun c l b 1).setWidth 64) limit
      refine ⟨_, exec_wpwait_waits hfine hi hkept, hdone.entered.mapLanes _ _, fun l hl => ?_, fun l hl => ?_⟩
      · obtain ⟨x, hx, hwho, hplace⟩ := hdone.each l (mem_lanes.2 hl)
        refine ⟨x, hx, hwho, ?_⟩
        rw [thread_finish_ctl, hl, Bool.not_true, Bool.and_false, if_neg Bool.false_ne_true]
        exact hplace
      · have hother : l ∉ lanes c.act := fun hm => by rw [mem_lanes.1 hm] at hl; cases hl
        rw [thread_finish_ctl, hl, Bool.not_false, Bool.and_true]
        exact congrArg (fun th => if hasLane c.mask l then th.advance c.hdr else th) (hdone.others l hother)

end Sys2Proof.Machine
end
